-- ==== Sys2Proof/Word.lean ====
section
/-! DEFINITION. Words, bytes, poison-tagged values and the sparse tables in canonical form. -/

namespace Sys2Proof

/-- A general register's 64 bits (R112). -/
abbrev Word := BitVec 64

/-- One byte. -/
abbrev Byte := BitVec 8

/-- A value with its poison tag (R121); tag 0 is no poison, a tag has 12 bits. -/
structure Tagged where
  v : Word
  tag : Nat
  deriving DecidableEq, Repr

/-- The lowest nonzero of two poison tags (R121). -/
def minTag (a b : Nat) : Nat :=
  if a = 0 then b else if b = 0 then a else if a ≤ b then a else b

/-- A sparse table: entries by key. In canonical form the keys strictly rise and no entry equals
what an unlisted key reads as, so equal tables are equal data. -/
abbrev Tab (α : Type) := List (Nat × α)

/-- What key `k` reads as; `d` is what an unlisted key reads as. -/
def Tab.get {α : Type} (d : α) : Tab α → Nat → α
  | [], _ => d
  | (j, v) :: rest, k => if k = j then v else Tab.get d rest k

/-- The table without key `k`. -/
def Tab.erase {α : Type} (t : Tab α) (k : Nat) : Tab α := t.filter (fun p => p.1 != k)

/-- The table with an entry for `k`, whatever its value. -/
def Tab.put {α : Type} : Tab α → Nat → α → Tab α
  | [], k, v => [(k, v)]
  | (j, w) :: rest, k, v =>
    if k < j then (k, v) :: (j, w) :: rest
    else if k = j then (k, v) :: rest
    else (j, w) :: Tab.put rest k v

/-- Writes `v` at key `k`, keeping the canonical form. -/
def Tab.set {α : Type} [DecidableEq α] (d : α) (t : Tab α) (k : Nat) (v : α) : Tab α :=
  if v = d then Tab.erase t k else Tab.put t k v

/-- The canonical form: keys strictly rise and no entry equals the unlisted value. -/
def Tab.wf {α : Type} [DecidableEq α] (d : α) : Tab α → Bool
  | [] => true
  | (_, v) :: [] => decide (v ≠ d)
  | (j, v) :: (k, w) :: rest => decide (v ≠ d) && decide (j < k) && Tab.wf d ((k, w) :: rest)

/-- A memory: bytes by address. An unlisted address reads as 0. -/
abbrev Memory := Tab Byte

/-- What a byte of memory that nothing has written reads as: DESIGN CHOICE (log 2); the spec leaves
HBM5 contents undefined (R46), and an unwritten scratchpad line reads zero (R89). -/
def Memory.unlisted : Byte := 0#8

end Sys2Proof
end

