-- ==== Sys2Proof/Syntax.lean ====
section
/-! DEFINITION. Operand types, engine operations' fields, messages, and the one inductive of steps. -/

namespace Sys2Proof

/-- Mesh link ports (R116), in the order of specifiers 72 to 75. -/
inductive Dir where
  | n | e | s | w
  deriving DecidableEq, Repr

/-- Result FIFOs (R117), in the order of specifiers 76 to 79. -/
inductive Fifo where
  | mres | vres | cres | ares
  deriving DecidableEq, Repr

/-- Read-only specials (R114), in the order of specifiers 80 to 86. -/
inductive Special where
  | tid | cid | hid | ctx | slot | cyc | irc
  deriving DecidableEq, Repr

/-- An operand specifier (R147). -/
inductive Opnd where
  | g (n : Fin 64)
  | q (n : Fin 8)
  | link (d : Dir)
  | fifo (f : Fifo)
  | special (k : Special)
  deriving DecidableEq, Repr

/-- A field that holds only g0 to g63. -/
abbrev GReg := Fin 64

/-- A field that holds v0 to v31 (R148). -/
abbrev VReg := Fin 32

/-- A field that holds m0 to m7 (R148). -/
abbrev MReg := Fin 8

/-- Type codes (R145). `none` is T = 0. -/
inductive Ty where
  | none | i8 | i16 | i32 | i64 | n8 | n16 | n32 | n64 | f16 | bf16 | f32 | e4m3 | e5m2 | q4x
  deriving DecidableEq, Repr

/-- Rounding modes (R127). -/
inductive RMode where
  | rne | rtz | rdn | rup
  deriving DecidableEq, Repr

/-- Branch hints (R144). -/
inductive Hint where
  | none | taken | notTaken
  deriving DecidableEq, Repr

/-- Half of a tile (R120, R148). -/
inductive Half where
  | full | lo | hi
  deriving DecidableEq, Repr

/-- A full or half tile (R148). -/
structure Tile where
  n : Fin 16
  half : Half
  deriving DecidableEq, Repr

/-- The wait gate with its phase and the signal gate of an engine command (R142). -/
structure Gates where
  wait : Option (Fin 32 × Bool)
  sig : Option (Fin 32)
  deriving DecidableEq, Repr

/-- Invalidation scopes (R188). -/
inductive Scope where
  | core | hive | dev
  deriving DecidableEq, Repr

/-- Atomic functions (R274). -/
inductive AFn where
  | add | fadd | min | max | and | or | xor | swap | cas
  deriving DecidableEq, Repr

/-- The three engines of a core. -/
inductive Engine where
  | vector | matrix | copy
  deriving DecidableEq, Repr

/-- Operands of a word with D, A, B and T. -/
structure R3 where
  d : Opnd
  a : Opnd
  b : Opnd
  t : Ty
  deriving DecidableEq, Repr

/-- Operands of a word with D, A and T. -/
structure R2 where
  d : Opnd
  a : Opnd
  t : Ty
  deriving DecidableEq, Repr

/-- Operands of a word with D, A, B, C and T. -/
structure R4 where
  d : Opnd
  a : Opnd
  b : Opnd
  c : Opnd
  t : Ty
  deriving DecidableEq, Repr

/-- Operands of an RI word (R141). -/
structure RI where
  d : Opnd
  a : Opnd
  t : Ty
  imm : BitVec 32
  deriving DecidableEq, Repr

/-- Operands of a conditional branch: D and A are compared (R172). -/
structure BrArg where
  a : Opnd
  b : Opnd
  hint : Hint
  off : BitVec 32
  deriving DecidableEq, Repr

/-- Operands of a scratchpad MEM word (R143). -/
structure MemArg where
  d : Opnd
  base : Opnd
  index : Opnd
  scale : Fin 8
  t : Ty
  off : BitVec 22
  deriving DecidableEq, Repr

/-- Operands of `ldp` and `stp` (R179): D names g0 to g62. -/
structure PairArg where
  d : GReg
  base : Opnd
  index : Opnd
  scale : Fin 8
  off : BitVec 22
  deriving DecidableEq, Repr

/-- Operands of a global load into a queue (R261). -/
structure GLoad where
  q : Fin 8
  base : GReg
  index : GReg
  scale : Fin 8
  t : Ty
  off : BitVec 22
  deriving DecidableEq, Repr

/-- Operands of a global store (R261). -/
structure GStore where
  d : GReg
  base : GReg
  index : GReg
  scale : Fin 8
  t : Ty
  off : BitVec 22
  deriving DecidableEq, Repr

/-- Operands of an atomic (R261): address A, operand B, compare C. -/
structure AmoArg where
  a : GReg
  b : GReg
  c : GReg
  t : Ty
  deriving DecidableEq, Repr

/-- Operands of a vector atomic (R261, R276): base A, indices vB, operands vC, lanes D. -/
structure VAmoArg where
  m : MReg
  a : GReg
  b : VReg
  c : VReg
  t : Ty
  deriving DecidableEq, Repr

/-- Operands of `wtv` (R265): D names a queue, or g0 to discard the word. -/
structure WtvArg where
  q : Option (Fin 8)
  a : GReg
  b : GReg
  c : GReg
  t : Ty
  deriving DecidableEq, Repr

/-- Operands of an invalidation (R188). -/
structure TlbiArg where
  a : Opnd
  b : Opnd
  scope : Scope
  cc : Fin 16
  deriving DecidableEq, Repr

/-- Operands of vector commands with three vector registers (R192, R199). -/
structure V3 where
  d : VReg
  a : VReg
  b : VReg
  sat : Bool
  t : Ty
  mode : RMode
  pred : Fin 8
  gates : Gates
  deriving DecidableEq, Repr

/-- Operands of vector commands with a third source vC; `acc` is FN[0] of `vredsum` and `vdot`, sat
of `vfma` and `vfms`. -/
structure V4 where
  d : VReg
  a : VReg
  b : VReg
  c : VReg
  flag : Bool
  t : Ty
  mode : RMode
  pred : Fin 8
  gates : Gates
  deriving DecidableEq, Repr

/-- Operands of vector commands with one source. -/
structure V2 where
  d : VReg
  a : VReg
  sat : Bool
  t : Ty
  mode : RMode
  pred : Fin 8
  gates : Gates
  deriving DecidableEq, Repr

/-- Operands of `vcvt` (R205). -/
structure VCvt where
  d : VReg
  a : VReg
  src : Ty
  part : Fin 8
  sat : Bool
  t : Ty
  mode : RMode
  pred : Fin 8
  gates : Gates
  deriving DecidableEq, Repr

/-- Operands of `vcmp` (R203). -/
structure VCmp where
  d : MReg
  a : VReg
  b : VReg
  t : Ty
  pred : Fin 8
  gates : Gates
  deriving DecidableEq, Repr

/-- Operands of `vsel` (R203). -/
structure VSel where
  d : VReg
  a : VReg
  b : VReg
  m : MReg
  t : Ty
  gates : Gates
  deriving DecidableEq, Repr

/-- Operands of mask commands (R216). -/
structure MaskArg where
  d : MReg
  a : MReg
  b : MReg
  gates : Gates
  deriving DecidableEq, Repr

/-- Operands of `vmov.gm` (R204). -/
structure VMovGm where
  d : MReg
  a : GReg
  gates : Gates
  deriving DecidableEq, Repr

/-- Operands of commands with a vector register and one g register. -/
structure VG where
  d : VReg
  a : GReg
  t : Ty
  pred : Fin 8
  gates : Gates
  deriving DecidableEq, Repr

/-- Operands of `vext` (R204): C is the element index. -/
structure VExt where
  a : VReg
  index : Fin 128
  t : Ty
  gates : Gates
  deriving DecidableEq, Repr

/-- Operands of `vld`, `vst`, `vldf` and `vstf` (R206, R208). -/
structure VMem where
  d : VReg
  a : GReg
  b : GReg
  sat : Bool
  t : Ty
  mode : RMode
  pred : Fin 8
  gates : Gates
  deriving DecidableEq, Repr

/-- Operands of `vldx` and `vstx` (R207). -/
structure VIdx where
  d : VReg
  a : GReg
  b : VReg
  t : Ty
  pred : Fin 8
  gates : Gates
  deriving DecidableEq, Repr

/-- Operands of `vpack` and `vunpk` (R209, R210); `l` is L. -/
structure VPk where
  d : VReg
  a : VReg
  b : VReg
  sat : Bool
  l : Bool
  gates : Gates
  deriving DecidableEq, Repr

/-- Operands of `vrot` (R213). -/
structure VRot where
  d : VReg
  a : VReg
  b : GReg
  t : Ty
  pred : Fin 8
  gates : Gates
  deriving DecidableEq, Repr

/-- Operands of `vtopk` and `vsig` (R214, R215): `lit` is the literal in C. -/
structure VLit where
  d : VReg
  a : VReg
  b : VReg
  lit : Fin 128
  pred : Fin 8
  gates : Gates
  deriving DecidableEq, Repr

/-- Operands of `mma`, `msp` and `mmv` (R220): `z` FN[4], `k` FN[3:0] + 1, `bx`, `h`. -/
structure MMul where
  d : Tile
  a : GReg
  b : GReg
  c : GReg
  z : Bool
  k : Fin 16
  t : Ty
  bx : Bool
  h : Bool
  gates : Gates
  deriving DecidableEq, Repr

/-- Operands of `mld` and `mst` (R233, R234). -/
structure MMem where
  d : Tile
  a : GReg
  b : GReg
  t : Ty
  sat : Bool
  mode : RMode
  gates : Gates
  deriving DecidableEq, Repr

/-- Operands of `mdir` (R240). -/
structure MDir where
  a : GReg
  t : Ty
  gates : Gates
  deriving DecidableEq, Repr

/-- Operands of `mscl.row` and `mscl.col` (R235): the scale is in a vector register. -/
structure MScl where
  d : Tile
  a : VReg
  h : Bool
  sat : Bool
  mode : RMode
  gates : Gates
  deriving DecidableEq, Repr

/-- Operands of `mscl.all` (R235): the scale is in a g register. -/
structure MSclAll where
  d : Tile
  a : GReg
  h : Bool
  sat : Bool
  mode : RMode
  gates : Gates
  deriving DecidableEq, Repr

/-- Operands of `mrd.row` and `mrd.col` (R236). -/
structure MRd where
  d : VReg
  a : Tile
  i : Fin 32
  gates : Gates
  deriving DecidableEq, Repr

/-- Operands of `mrd.el` (R236). -/
structure MRdEl where
  a : Tile
  b : GReg
  h : Bool
  gates : Gates
  deriving DecidableEq, Repr

/-- Operands of copy commands (R99). `dsp` and `ssp` are true for scratchpad. -/
structure CopyArg where
  d : GReg
  a : GReg
  b : GReg
  c : GReg
  dsp : Bool
  ssp : Bool
  gates : Gates
  deriving DecidableEq, Repr

/-- Operands of `cpyc` (R103). -/
structure CpycArg where
  d : GReg
  a : GReg
  b : GReg
  dsp : Bool
  ssp : Bool
  sat : Bool
  mode : RMode
  gates : Gates
  deriving DecidableEq, Repr

/-- Operands of `cfill` (R104): `lw` is the log of the pattern width. -/
structure CfillArg where
  d : GReg
  a : GReg
  b : GReg
  dsp : Bool
  lw : Fin 4
  gates : Gates
  deriving DecidableEq, Repr

/-- Operands of attention commands with g registers (R259). -/
structure AttArg where
  d : GReg
  a : GReg
  b : GReg
  c : GReg
  gates : Gates
  deriving DecidableEq, Repr

/-- Operands of `psum` (R255): `rows` is the literal rows − 1. -/
structure PsumArg where
  d : GReg
  a : GReg
  rows : Fin 16
  dcode : Fin 3
  gates : Gates
  deriving DecidableEq, Repr

/-- Operands of `pbnd` (R256): the pair register is v(2·half), v(2·half + 1). -/
structure PbndArg where
  half : Fin 16
  a : GReg
  b : GReg
  c : GReg
  dcode : Fin 3
  gates : Gates
  deriving DecidableEq, Repr

/-- Operands of scalar words with up to three g registers. -/
structure G3 where
  a : GReg
  b : GReg
  c : GReg
  deriving DecidableEq, Repr

/-- Operands of scalar words with a g destination and up to three g sources. -/
structure GD3 where
  d : GReg
  a : GReg
  b : GReg
  c : GReg
  deriving DecidableEq, Repr

/-- What an update does at its owner: a function of R274, a share update of R330, a join arrival of R283, or a `jset`,
whose operand is the count and whose compare word is the header. -/
inductive UpdKind where
  | amo (f : AFn)
  | tshr | tdrop | tseal
  | join
  | jset
  deriving DecidableEq, Repr

/-- An update on its way to the owner of its line (R275, R278): context, virtual and physical
address, what it does, its operands, its poison tag, issuer, sequence and quantum, and for a
returning form the slot (core × 8 + slot) and place of its reply. -/
structure Update where
  ctx : Nat
  va : Nat
  pa : Nat
  kind : UpdKind
  t : Ty
  operand : Word
  compare : Word
  tag : Nat
  issuer : Nat
  seq : Nat
  quantum : Nat
  reply : Option (Nat × Nat)
  deriving DecidableEq, Repr

/-- A bucket link (R248). -/
structure Link where
  ctx : Nat
  n : Nat
  bucket : Nat
  gen : Nat
  hbase : Nat
  pool : Nat
  limit : Nat
  deriving DecidableEq, Repr

/-- What a message asks for: a task in a user slot (`ring` for the task that a fault ring's entry starts, R380), or one of the handlers
of slot 7 (R335). -/
inductive Svc where
  | task
  | ring
  | update (u : Update)
  | summary (ctx va : Nat) (isMax : Bool) (key : List Nat)
  | keyPass (ctx region : Nat) (holder : Option Nat)
  | link (l : Link)
  | meet (ctx lo hi : Nat)
  | hinge (ctx x z : Nat)
  | fuse (ctx x1 x2 : Nat)
  | fuse2 (ctx x2 x1 y1 : Nat)
  | fuse3 (ctx x1 y2 : Nat)
  | join2 (ctx t p e : Nat)
  | join1 (ctx t p e : Nat)
  | fix (ctx t p : Nat)
  | drain (ctx x : Nat)
  | nfree (ctx n : Nat)
  | debug (ctx : Nat) (words : List Word)
  deriving DecidableEq, Repr

/-- A message (R333): the header as sent, sending and receiving core, context, payload words, what it
asks for, the entry and call index of a spawned child (R343), its redelivery mark (R391), the
identifier of a redelivered task, whether its acknowledgement is the deferred one (R358), the launch in flight that a region-0
launch belongs to (R362), and the poison tag of the header word (R387). -/
structure Message where
  hdr : Word
  src : Nat
  dst : Nat
  ctx : Nat
  payload : List Tagged
  svc : Svc
  entry : Option Nat
  mark : Option Nat
  tid : Option Nat
  deferred : Bool
  flight : Option Nat
  htag : Nat := 0
  deriving DecidableEq, Repr

/-- A range of coordinates of the deque (R353). -/
structure Range where
  lo : Nat
  hi : Nat
  tag : Nat
  deriving DecidableEq, Repr

/-- A request to a stack controller (R41, R42). -/
structure HbmReq where
  id : Nat
  requester : Nat
  stack : Nat
  frame : Nat
  strip : Nat
  line : Nat
  phase : Nat
  mapBit : Bool
  deriving DecidableEq, Repr

/-- What an uncorrectable error damages (R387). -/
inductive Damaged where
  | hbmLine (pa : Nat)
  | spadLine (core line : Nat)
  | greg (core slot n : Nat)
  | vreg (core slot n : Nat)
  | tile (core slot n : Nat)
  | control (core slot : Nat)
  | messageWord (pending word : Nat)
  deriving DecidableEq, Repr

/-- THE STEPS: one constructor per row of spec/opcode_table.json. Instruction words first (R149), then
the device's events (spec/95). The order is not the table's: Lean's run-time system cannot build a
constructor with fields beyond index 243, so the words the decoder builds stand first. -/
inductive Instr where
  -- integer words (R163 to R166)
  | add (x : R3) | sub (x : R3) | mul (x : R3) | mulh (x : R3) | mulhn (x : R3) | div (x : R3)
  | divn (x : R3) | rem (x : R3) | remn (x : R3) | and (x : R3) | or (x : R3) | xor (x : R3)
  | andn (x : R3) | orn (x : R3) | shl (x : R3) | shr (x : R3) | sra (x : R3) | rol (x : R3)
  | ror (x : R3) | min (x : R3) | max (x : R3) | minn (x : R3) | maxn (x : R3) | abs (x : R2)
  | clz (x : R2) | ctz (x : R2) | popc (x : R2) | bext (x : R3) | bins (x : R4) | sext (x : R2)
  | zext (x : R2) | seq (x : R3) | sne (x : R3) | slt (x : R3) | sle (x : R3) | sltn (x : R3)
  | slen (x : R3) | sel (d a b c : Opnd) | addi (x : RI) | andi (x : RI) | ori (x : RI)
  | xori (x : RI) | shli (x : RI) | shri (x : RI) | srai (x : RI) | slti (x : RI) | sltni (x : RI)
  | li (d : Opnd) (imm : BitVec 32) | lih (d a : Opnd) (imm : BitVec 32)
  -- fat pointers (R168)
  | padd (d a b : Opnd) | pfmt (d a b : Opnd) | pget (d a : Opnd) | pstrip (d a : Opnd)
  -- scalar float (R169 to R171)
  | fadd (d a b : Opnd) | fsub (d a b : Opnd) | fmul (d a b : Opnd) | fmin (d a b : Opnd)
  | fmax (d a b : Opnd) | fsgn (d a b : Opnd) | ffma (d a b c : Opnd) (mode : RMode)
  | feq (d a b : Opnd) | flt (d a b : Opnd) | fle (d a b : Opnd)
  | fcvt (d a : Opnd) (t : Ty) (toF32 : Bool) (sat : Bool) (mode : RMode) | fcls (d a : Opnd)
  -- branches, jumps, loops (R172 to R177)
  | beq (x : BrArg) | bne (x : BrArg) | blt (x : BrArg) | bge (x : BrArg) | bltn (x : BrArg)
  | bgen (x : BrArg) | jmp (hint : Hint) (off : BitVec 32)
  | jal (d : Opnd) (hint : Hint) (off : BitVec 32) | jr (d a : Opnd)
  | loopReg (a : Opnd) (n : BitVec 12) | loopImm (count : BitVec 20) (n : BitVec 12)
  | blk (sig : BitVec 32)
  -- scratchpad and tag table (R178 to R183)
  | ld (x : MemArg) | st (x : MemArg) | ldp (x : PairArg) | stp (x : PairArg) | ltag (d a : Opnd)
  | tset (a b : Opnd) | tclr (a : Opnd)
  -- system and trap words (R184 to R191)
  | trap (code : BitVec 16) | sysResume (a : Opnd) | sysKill (a : Opnd) | sysState (d a : Opnd)
  | eretRetry (a : Opnd) | eretNext (a : Opnd) | eretKill (a : Opnd)
  | gsr (d : Opnd) (num : BitVec 16) | ssr (num : BitVec 16) (a : Opnd) | tlbiPage (x : TlbiArg)
  | tlbiCtx (x : TlbiArg) | tlbiAll (x : TlbiArg) | dbgb (a : Opnd) | dump (d a b : Opnd)
  | pctlRead (d a b : Opnd)
  -- global memory (R262 to R268)
  | ldg (x : GLoad) | stg (x : GStore) | wtvEq (x : WtvArg) | wtvNe (x : WtvArg)
  | pref (base index : GReg) (scale : Fin 8) (off : BitVec 22)
  | ldvEq (q : Fin 8) (base ver : GReg) (t : Ty) (off : BitVec 22)
  | ldvLe (q : Fin 8) (base ver : GReg) (t : Ty) (off : BitVec 22)
  | stv (d base : GReg) (t : Ty) (off : BitVec 22)
  | stvAt (d base e : GReg) (t : Ty) (off : BitVec 22) | vfloor (a b : GReg) | vclose (a : GReg)
  -- get, put, counters (R269 to R273)
  | get (x : GD3) | put (x : GD3) | ccset (c : Fin 16) (a : GReg) | ccwait (c : Fin 16)
  -- atomics (R274 to R277)
  | amoAdd (x : AmoArg) | amoFadd (x : AmoArg) | amoMin (x : AmoArg) | amoMax (x : AmoArg)
  | amoAnd (x : AmoArg) | amoOr (x : AmoArg) | amoXor (x : AmoArg) | amoSwap (x : AmoArg)
  | amoCas (x : AmoArg) | amoNrAdd (x : AmoArg) | amoNrFadd (x : AmoArg) | amoNrMin (x : AmoArg)
  | amoNrMax (x : AmoArg) | amoNrAnd (x : AmoArg) | amoNrOr (x : AmoArg) | amoNrXor (x : AmoArg)
  | amoNrSwap (x : AmoArg) | vamoAdd (x : VAmoArg) | vamoFadd (x : VAmoArg) | vamoMin (x : VAmoArg)
  | vamoMax (x : VAmoArg) | vamoAnd (x : VAmoArg) | vamoOr (x : VAmoArg) | vamoXor (x : VAmoArg)
  | vamoSwap (x : VAmoArg)
  -- log, fences, joins, keys, lock elision (R280 to R288)
  | logp (x : G3) | mrg (d : GReg) | jset (x : G3) | arr (a : GReg) | kpass (a b : GReg)
  | kqry (d a : GReg) | lkel (a b : GReg) | lkab (a : GReg)
  -- sequentially consistent operations (R289, R290)
  | scst (x : GStore) | scld (x : GLoad) | scamoAdd (x : AmoArg) | scamoFadd (x : AmoArg)
  | scamoMin (x : AmoArg) | scamoMax (x : AmoArg) | scamoAnd (x : AmoArg) | scamoOr (x : AmoArg)
  | scamoXor (x : AmoArg) | scamoSwap (x : AmoArg) | scamoCas (x : AmoArg)
  -- tasks and messages (R340 to R348)
  | send (a b : GReg) | sendo (a b c : GReg) | spawn (x : GD3) | tagen (d a b : GReg)
  | tagp (d : GReg) | tsset (x : G3) | gsync (a b : GReg)
  -- nets (R349 to R352)
  | nalloc (d a : GReg) | nfree (a : GReg) | rlk (a b : GReg) | rfuse (a b : GReg)
  | meet (a b : GReg) | tshr (a : GReg) | tdrop (a : GReg) | tseal (a : GReg)
  -- deque (R353 to R356)
  | dpush (d a b : GReg) | dpop (d : GReg) | dsplit (d : GReg) | dsteal (d a : GReg)
  | dlen (d : GReg)
  -- vector engine (R199 to R216)
  | vadd (x : V3) | vsub (x : V3) | vmul (x : V3) | vfma (x : V4) | vfms (x : V4) | vmin (x : V3)
  | vmax (x : V3) | vabs (x : V2) | vneg (x : V2) | vrcp (x : V2) | vrsq (x : V2) | vexp (x : V2)
  | vtanh (x : V2) | vcvt (x : VCvt) | vand (x : V3) | vor (x : V3) | vxor (x : V3) | vshl (x : V3)
  | vshr (x : V3) | vsra (x : V3) | vcmpEq (x : VCmp) | vcmpNe (x : VCmp) | vcmpLt (x : VCmp)
  | vcmpLe (x : VCmp) | vsel (x : VSel) | vmov (x : V2) | vmovGm (x : VMovGm) | vmovMm (x : MaskArg)
  | vmovMq (x : MaskArg) | vbcast (x : VG) | vext (x : VExt) | vld (x : VMem) | vst (x : VMem)
  | vldx (x : VIdx) | vstx (x : VIdx) | vldf (x : VMem) | vstf (x : VMem) | vpack (x : VPk)
  | vunpk (x : VPk) | vredsum (x : V4) | vredmax (x : V2) | vredmin (x : V2) | vdot (x : V4)
  | vperm (x : V3) | vrot (x : VRot) | vtopk (x : VLit) | vsig (x : VLit) | mand (x : MaskArg)
  | mor (x : MaskArg) | mnot (x : MaskArg) | mpop (x : MaskArg) | mfirst (x : MaskArg)
  -- matrix engine (R220 to R241)
  | mmz (d : Tile) (g : Gates) | mma (x : MMul) | mld (x : MMem) | mst (x : MMem) | mmv (x : MMul)
  | msp (x : MMul) | mdir (x : MDir) | mdirPush (x : MDir) | msclRow (x : MScl) | msclCol (x : MScl)
  | msclAll (x : MSclAll) | mrdRow (x : MRd) | mrdCol (x : MRd) | mrdEl (x : MRdEl)
  -- copy, gate and attention words, which `Decoded` holds for the step
  -- copy engine and gates (R99 to R110)
  | cpy (x : CopyArg) | cpyx2d (x : CopyArg) | cpyx3d (x : CopyArg) | cpyc (x : CpycArg)
  | cfill (x : CfillArg) | gset (gate : Fin 32) (cmd : Bool) (a b : GReg)
  | gadd (gate : Fin 32) (a : GReg) | gwt (gate : Fin 32) (phase : Bool)
  | gpoll (d : GReg) (gate : Fin 32)
  -- attention (R244 to R259)
  | pjld (a : GReg) (g : Gates) | kst (x : AttArg) | qsig (x : AttArg) | bgat (x : AttArg)
  | bgatH1 (x : AttArg) | psum (x : PsumArg) | pbnd (x : PbndArg) | pgatPg (x : AttArg)
  | pgatTok (x : AttArg)
  -- words without operands
  -- branches, jumps, loops (R172 to R177)
  | nop
  -- log, fences, joins, keys, lock elision (R280 to R288)
  | fenceH | fenceD | fenceS | lkex
  -- tasks and messages (R340 to R348)
  | done
  -- what a word of R191 does with its control word, and the end of a loop body (R176)
  -- branches, jumps, loops (R172 to R177)
  | loopBodyEnd
  -- system and trap words (R184 to R191)
  | pctlClear (d a b : Opnd) | pctlProgram (d a b : Opnd)
  -- THE EVENTS
  -- global memory (R262 to R268)
  | spinTimeout (core slot : Nat) | spinWake (core slot : Nat) | wtvWake (core slot : Nat)
  -- get, put, counters (R269 to R273)
  | getPutElementLand (core i : Nat)
  -- log, fences, joins, keys, lock elision (R280 to R288)
  | mergeComplete (core : Nat)
  -- sequentially consistent operations (R289, R290)
  | waggleWindow | scEffect
  -- tasks and messages (R340 to R348)
  | spawnAnswer (core slot : Nat) (accepted : Bool) | versionRecordsFreed (ctx n : Nat)
  | orderedSignatureCheck (core slot : Nat) | horizonWindow (ctx group : Nat)
  | gsyncArrival (ctx group core : Nat) (hdr : Word)
  -- nets (R349 to R352)
  | nodeCacheRefill (ctx core : Nat)
  -- deque (R353 to R356)
  | stealRequest (thief slot victim : Nat)
  | stealReply (thief slot victim : Nat) (taken : Option Range) | entryRelease (ctx core : Nat)
  -- vector engine (R199 to R216)
  | vectorCommandComplete (core : Nat)
  -- matrix engine (R220 to R241)
  | mmvStreamFault (core : Nat) | matrixCommandRetire (core : Nat)
  -- copy engine and gates (R99 to R110)
  | engineCommandAccept (core : Nat) (e : Engine) | engineCommandStart (core : Nat) (e : Engine)
  | copyBeatLand (core i : Nat)
  -- slot-7 handlers (R248, R254, R275, R283, R285, R319, R323, R330)
  | bucketLink (l : Link) | summaryUpdate (ctx va : Nat) (isMax : Bool) (key : List Nat)
  | atomicApply (u : Update) | atomicReply (core slot place : Nat) (w : Tagged)
  | joinArrival (u : Update) | shareUpdate (u : Update)
  | keyPassApply (ctx region : Nat) (holder : Option Nat) | meetDelivery (m : Message) (lo hi : Nat)
  | hinge (ctx x z : Nat) | fuse (ctx x1 x2 : Nat) | fuse2 (ctx x2 x1 y1 : Nat)
  | fuse3 (ctx x1 y2 : Nat) | join2 (ctx t p e : Nat) | join1 (ctx t p e : Nat)
  | fix (ctx t p : Nat) | drain (ctx x : Nat) | nfreeMessage (ctx n : Nat)
  -- messages, spawns, termination (R337, R343, R358)
  | messageArrival (m : Message) | messageBounce (m : Message) | bounceResend (core : Nat)
  | spillWake (ctx core : Nat) | spawnSlotRequest (parent slot : Nat) (m : Message)
  | terminationAck (core region : Nat)
  -- scheduling (R364 to R376, R430)
  | ageingPeriod (ctx : Nat) | sliceExpiry (ctx : Nat) | runLimitExpiry (ctx : Nat)
  | contextSaved (ctx : Nat) | ctxresWrite (v : Word) | sliceWrite (ctx : Nat) (v : Word)
  | ageWrite (ctx : Nat) (v : Word) | gtsyncWrite (ctx : Nat) (v : Word)
  | grpWrite (ctx core : Nat) (i : Fin 4) (v : Word) | quantumEnd (ctx group core : Nat)
  | quantumService (ctx group hive : Nat)
  -- host queues and packets (R361, R362)
  | doorbellWrite (queue : Nat) (v : Word) | queueAgeing (queue : Nat) | launch (queue : Nat)
  | barrier (queue : Nat) | detlevel (queue : Nat) | debug (queue : Nat) | signal (queue : Nat)
  -- debug operations (R402): the target core and the packet's words w3 to w7
  | debugAttach (ctx core : Nat) (w : List Word) | debugDetach (ctx core : Nat) (w : List Word)
  | debugSetBreakpoint (ctx core : Nat) (w : List Word)
  | debugClearBreakpoint (ctx core : Nat) (w : List Word)
  | debugStop (ctx core : Nat) (w : List Word) | debugCopy (ctx core : Nat) (w : List Word)
  | debugRelease (ctx core : Nat) (w : List Word)
  -- translation and scratchpad port (R76, R80, R86)
  | tlbWalkComplete (core slot va : Nat) | invalidationMessage (hive : Nat) (id : Nat)
  | invalidationDone (hive : Nat) (id : Nat)
  | memoryPortAccess (core target addr : Nat) (write : Option (List Byte × Nat × Nat)) (len : Nat)
  -- versions (R52, R58, R60, R62, R64)
  | versionRequest (core slot id : Nat) | versionWake (core slot id : Nat)
  | versionReclaim (ctx line : Nat) | vrsyncWrite (ctx : Nat) (v : Word)
  | vhctlGrant (ctx : Nat) (v : Word) | vhctlRelease (ctx : Nat) (v : Word)
  | heapReleaseComplete (ctx : Nat)
  -- stacks and retirement (R33 to R43)
  | errorWindowExpiry (stack : Nat) (count : Nat) | mgmtRetirementTrigger (stack : Nat)
  | mgmtWithdrawTrigger | mretireAck | stripMoveComplete | mapBroadcastReceived (requester : Nat)
  | retirementCommit | retiredStackPowerDown (stack : Nat) | stackLost (stack : Nat)
  | hbmRequestArrival (r : HbmReq) | replayIndication (r : HbmReq)
  -- errors, rings, saves, register writes with effects (R88, R320, R384 to R396)
  | uncorrectableError (d : Damaged) (source : Nat) | fringConsWrite (hive : Nat) (v : Word)
  | frbaseEnable (hive : Nat) (v : Word) | ctxstResume (ctx : Nat) (v : Word)
  | cmoveWrite (ctx : Nat) (v : Word) | saveAreaFreed (ctx handle : Nat)
  | rcentWrite (ctx core : Nat) (v : Word) | sperrClear (ctx core : Nat) (v : Word)
  -- start-up, resets, management, links (R46, R47, R407, R409, R412, R413)
  | powerGood | hostLinkTrained | stackTrained (stack : Nat) | startTestPassed | coldReset
  | maintenanceReset (failed : List Nat) | mgmtMarkFailed (stack : Nat) (failed : Bool)
  | mgmtSetThreshold (stack n : Nat) | mgmtSetDevid (id : Nat) | linkFlitRetry (link : Nat)
  | laneFailure (link : Nat) | linkFailure (link : Nat)
  -- host window, peers, power (R405, R406, R408, R414 to R416)
  | hostCxlMemAccess (off : Nat) (write : Option (List Byte)) (len : Nat)
  | backInvalidationAck (line : Nat)
  | peerAccess (off : Nat) (write : Option (List Byte)) (len : Nat) | slewTick
  | staggerWrite (v : Word) | staggerArrival (k w : Nat) | staggerHoldEnd
  -- later rows
  | loadWordArrival (core slot id : Nat) | stackTrainingFailed (stack : Nat)
  | svpoolWrite (ctx : Nat) (v : Word) | counterCarry (core n : Nat)
  deriving DecidableEq, Repr

/-- The device's events, as `State` can hold them and a step can build them: one constructor for each
event of `Instr`, with the same fields. -/
inductive Event where
  -- global memory (R262 to R268)
  | spinTimeout (core slot : Nat) | spinWake (core slot : Nat) | wtvWake (core slot : Nat)
  -- get, put, counters (R269 to R273)
  | getPutElementLand (core i : Nat)
  -- log, fences, joins, keys, lock elision (R280 to R288)
  | mergeComplete (core : Nat)
  -- sequentially consistent operations (R289, R290)
  | waggleWindow | scEffect
  -- tasks and messages (R340 to R348)
  | spawnAnswer (core slot : Nat) (accepted : Bool) | versionRecordsFreed (ctx n : Nat)
  | orderedSignatureCheck (core slot : Nat) | horizonWindow (ctx group : Nat)
  | gsyncArrival (ctx group core : Nat) (hdr : Word)
  -- nets (R349 to R352)
  | nodeCacheRefill (ctx core : Nat)
  -- deque (R353 to R356)
  | stealRequest (thief slot victim : Nat)
  | stealReply (thief slot victim : Nat) (taken : Option Range) | entryRelease (ctx core : Nat)
  -- vector engine (R199 to R216)
  | vectorCommandComplete (core : Nat)
  -- matrix engine (R220 to R241)
  | mmvStreamFault (core : Nat) | matrixCommandRetire (core : Nat)
  -- copy engine and gates (R99 to R110)
  | engineCommandAccept (core : Nat) (e : Engine) | engineCommandStart (core : Nat) (e : Engine)
  | copyBeatLand (core i : Nat)
  -- slot-7 handlers (R248, R254, R275, R283, R285, R319, R323, R330)
  | bucketLink (l : Link) | summaryUpdate (ctx va : Nat) (isMax : Bool) (key : List Nat)
  | atomicApply (u : Update) | atomicReply (core slot place : Nat) (w : Tagged)
  | joinArrival (u : Update) | shareUpdate (u : Update)
  | keyPassApply (ctx region : Nat) (holder : Option Nat) | meetDelivery (m : Message) (lo hi : Nat)
  | hinge (ctx x z : Nat) | fuse (ctx x1 x2 : Nat) | fuse2 (ctx x2 x1 y1 : Nat)
  | fuse3 (ctx x1 y2 : Nat) | join2 (ctx t p e : Nat) | join1 (ctx t p e : Nat)
  | fix (ctx t p : Nat) | drain (ctx x : Nat) | nfreeMessage (ctx n : Nat)
  -- messages, spawns, termination (R337, R343, R358)
  | messageArrival (m : Message) | messageBounce (m : Message) | bounceResend (core : Nat)
  | spillWake (ctx core : Nat) | spawnSlotRequest (parent slot : Nat) (m : Message)
  | terminationAck (core region : Nat)
  -- scheduling (R364 to R376, R430)
  | ageingPeriod (ctx : Nat) | sliceExpiry (ctx : Nat) | runLimitExpiry (ctx : Nat)
  | contextSaved (ctx : Nat) | ctxresWrite (v : Word) | sliceWrite (ctx : Nat) (v : Word)
  | ageWrite (ctx : Nat) (v : Word) | gtsyncWrite (ctx : Nat) (v : Word)
  | grpWrite (ctx core : Nat) (i : Fin 4) (v : Word) | quantumEnd (ctx group core : Nat)
  | quantumService (ctx group hive : Nat)
  -- host queues and packets (R361, R362)
  | doorbellWrite (queue : Nat) (v : Word) | queueAgeing (queue : Nat) | launch (queue : Nat)
  | barrier (queue : Nat) | detlevel (queue : Nat) | debug (queue : Nat) | signal (queue : Nat)
  -- debug operations (R402): the target core and the packet's words w3 to w7
  | debugAttach (ctx core : Nat) (w : List Word) | debugDetach (ctx core : Nat) (w : List Word)
  | debugSetBreakpoint (ctx core : Nat) (w : List Word)
  | debugClearBreakpoint (ctx core : Nat) (w : List Word)
  | debugStop (ctx core : Nat) (w : List Word) | debugCopy (ctx core : Nat) (w : List Word)
  | debugRelease (ctx core : Nat) (w : List Word)
  -- translation and scratchpad port (R76, R80, R86)
  | tlbWalkComplete (core slot va : Nat) | invalidationMessage (hive : Nat) (id : Nat)
  | invalidationDone (hive : Nat) (id : Nat)
  | memoryPortAccess (core target addr : Nat) (write : Option (List Byte × Nat × Nat)) (len : Nat)
  -- versions (R52, R58, R60, R62, R64)
  | versionRequest (core slot id : Nat) | versionWake (core slot id : Nat)
  | versionReclaim (ctx line : Nat) | vrsyncWrite (ctx : Nat) (v : Word)
  | vhctlGrant (ctx : Nat) (v : Word) | vhctlRelease (ctx : Nat) (v : Word)
  | heapReleaseComplete (ctx : Nat)
  -- stacks and retirement (R33 to R43)
  | errorWindowExpiry (stack : Nat) (count : Nat) | mgmtRetirementTrigger (stack : Nat)
  | mgmtWithdrawTrigger | mretireAck | stripMoveComplete | mapBroadcastReceived (requester : Nat)
  | retirementCommit | retiredStackPowerDown (stack : Nat) | stackLost (stack : Nat)
  | hbmRequestArrival (r : HbmReq) | replayIndication (r : HbmReq)
  -- errors, rings, saves, register writes with effects (R88, R320, R384 to R396)
  | uncorrectableError (d : Damaged) (source : Nat) | fringConsWrite (hive : Nat) (v : Word)
  | frbaseEnable (hive : Nat) (v : Word) | ctxstResume (ctx : Nat) (v : Word)
  | cmoveWrite (ctx : Nat) (v : Word) | saveAreaFreed (ctx handle : Nat)
  | rcentWrite (ctx core : Nat) (v : Word) | sperrClear (ctx core : Nat) (v : Word)
  -- start-up, resets, management, links (R46, R47, R407, R409, R412, R413)
  | powerGood | hostLinkTrained | stackTrained (stack : Nat) | startTestPassed | coldReset
  | maintenanceReset (failed : List Nat) | mgmtMarkFailed (stack : Nat) (failed : Bool)
  | mgmtSetThreshold (stack n : Nat) | mgmtSetDevid (id : Nat) | linkFlitRetry (link : Nat)
  | laneFailure (link : Nat) | linkFailure (link : Nat)
  -- host window, peers, power (R405, R406, R408, R414 to R416)
  | hostCxlMemAccess (off : Nat) (write : Option (List Byte)) (len : Nat)
  | backInvalidationAck (line : Nat)
  | peerAccess (off : Nat) (write : Option (List Byte)) (len : Nat) | slewTick
  | staggerWrite (v : Word) | staggerArrival (k w : Nat) | staggerHoldEnd
  -- later rows
  | loadWordArrival (core slot id : Nat) | stackTrainingFailed (stack : Nat)
  | svpoolWrite (ctx : Nat) (v : Word) | counterCarry (core n : Nat)
  deriving DecidableEq, Repr

/-- The step of the opcode table that an event is. -/
noncomputable def Event.toInstr : Event → Instr
  | .spinTimeout core slot => .spinTimeout core slot
  | .spinWake core slot => .spinWake core slot
  | .wtvWake core slot => .wtvWake core slot
  | .getPutElementLand core i => .getPutElementLand core i
  | .mergeComplete core => .mergeComplete core
  | .waggleWindow => .waggleWindow
  | .scEffect => .scEffect
  | .spawnAnswer core slot accepted => .spawnAnswer core slot accepted
  | .versionRecordsFreed ctx n => .versionRecordsFreed ctx n
  | .orderedSignatureCheck core slot => .orderedSignatureCheck core slot
  | .horizonWindow ctx group => .horizonWindow ctx group
  | .gsyncArrival ctx group core hdr => .gsyncArrival ctx group core hdr
  | .nodeCacheRefill ctx core => .nodeCacheRefill ctx core
  | .stealRequest thief slot victim => .stealRequest thief slot victim
  | .stealReply thief slot victim taken => .stealReply thief slot victim taken
  | .entryRelease ctx core => .entryRelease ctx core
  | .vectorCommandComplete core => .vectorCommandComplete core
  | .mmvStreamFault core => .mmvStreamFault core
  | .matrixCommandRetire core => .matrixCommandRetire core
  | .engineCommandAccept core e => .engineCommandAccept core e
  | .engineCommandStart core e => .engineCommandStart core e
  | .copyBeatLand core i => .copyBeatLand core i
  | .bucketLink l => .bucketLink l
  | .summaryUpdate ctx va isMax key => .summaryUpdate ctx va isMax key
  | .atomicApply u => .atomicApply u
  | .atomicReply core slot place w => .atomicReply core slot place w
  | .joinArrival u => .joinArrival u
  | .shareUpdate u => .shareUpdate u
  | .keyPassApply ctx region holder => .keyPassApply ctx region holder
  | .meetDelivery m lo hi => .meetDelivery m lo hi
  | .hinge ctx x z => .hinge ctx x z
  | .fuse ctx x1 x2 => .fuse ctx x1 x2
  | .fuse2 ctx x2 x1 y1 => .fuse2 ctx x2 x1 y1
  | .fuse3 ctx x1 y2 => .fuse3 ctx x1 y2
  | .join2 ctx t p e => .join2 ctx t p e
  | .join1 ctx t p e => .join1 ctx t p e
  | .fix ctx t p => .fix ctx t p
  | .drain ctx x => .drain ctx x
  | .nfreeMessage ctx n => .nfreeMessage ctx n
  | .messageArrival m => .messageArrival m
  | .messageBounce m => .messageBounce m
  | .bounceResend core => .bounceResend core
  | .spillWake ctx core => .spillWake ctx core
  | .spawnSlotRequest parent slot m => .spawnSlotRequest parent slot m
  | .terminationAck core region => .terminationAck core region
  | .ageingPeriod ctx => .ageingPeriod ctx
  | .sliceExpiry ctx => .sliceExpiry ctx
  | .runLimitExpiry ctx => .runLimitExpiry ctx
  | .contextSaved ctx => .contextSaved ctx
  | .ctxresWrite v => .ctxresWrite v
  | .sliceWrite ctx v => .sliceWrite ctx v
  | .ageWrite ctx v => .ageWrite ctx v
  | .gtsyncWrite ctx v => .gtsyncWrite ctx v
  | .grpWrite ctx core i v => .grpWrite ctx core i v
  | .quantumEnd ctx group core => .quantumEnd ctx group core
  | .quantumService ctx group hive => .quantumService ctx group hive
  | .doorbellWrite queue v => .doorbellWrite queue v
  | .queueAgeing queue => .queueAgeing queue
  | .launch queue => .launch queue
  | .barrier queue => .barrier queue
  | .detlevel queue => .detlevel queue
  | .debug queue => .debug queue
  | .signal queue => .signal queue
  | .debugAttach ctx core w => .debugAttach ctx core w
  | .debugDetach ctx core w => .debugDetach ctx core w
  | .debugSetBreakpoint ctx core w => .debugSetBreakpoint ctx core w
  | .debugClearBreakpoint ctx core w => .debugClearBreakpoint ctx core w
  | .debugStop ctx core w => .debugStop ctx core w
  | .debugCopy ctx core w => .debugCopy ctx core w
  | .debugRelease ctx core w => .debugRelease ctx core w
  | .tlbWalkComplete core slot va => .tlbWalkComplete core slot va
  | .invalidationMessage hive id => .invalidationMessage hive id
  | .invalidationDone hive id => .invalidationDone hive id
  | .memoryPortAccess core target addr write len => .memoryPortAccess core target addr write len
  | .versionRequest core slot id => .versionRequest core slot id
  | .versionWake core slot id => .versionWake core slot id
  | .versionReclaim ctx line => .versionReclaim ctx line
  | .vrsyncWrite ctx v => .vrsyncWrite ctx v
  | .vhctlGrant ctx v => .vhctlGrant ctx v
  | .vhctlRelease ctx v => .vhctlRelease ctx v
  | .heapReleaseComplete ctx => .heapReleaseComplete ctx
  | .errorWindowExpiry stack count => .errorWindowExpiry stack count
  | .mgmtRetirementTrigger stack => .mgmtRetirementTrigger stack
  | .mgmtWithdrawTrigger => .mgmtWithdrawTrigger
  | .mretireAck => .mretireAck
  | .stripMoveComplete => .stripMoveComplete
  | .mapBroadcastReceived requester => .mapBroadcastReceived requester
  | .retirementCommit => .retirementCommit
  | .retiredStackPowerDown stack => .retiredStackPowerDown stack
  | .stackLost stack => .stackLost stack
  | .hbmRequestArrival r => .hbmRequestArrival r
  | .replayIndication r => .replayIndication r
  | .uncorrectableError d source => .uncorrectableError d source
  | .fringConsWrite hive v => .fringConsWrite hive v
  | .frbaseEnable hive v => .frbaseEnable hive v
  | .ctxstResume ctx v => .ctxstResume ctx v
  | .cmoveWrite ctx v => .cmoveWrite ctx v
  | .saveAreaFreed ctx handle => .saveAreaFreed ctx handle
  | .rcentWrite ctx core v => .rcentWrite ctx core v
  | .sperrClear ctx core v => .sperrClear ctx core v
  | .powerGood => .powerGood
  | .hostLinkTrained => .hostLinkTrained
  | .stackTrained stack => .stackTrained stack
  | .startTestPassed => .startTestPassed
  | .coldReset => .coldReset
  | .maintenanceReset failed => .maintenanceReset failed
  | .mgmtMarkFailed stack failed => .mgmtMarkFailed stack failed
  | .mgmtSetThreshold stack n => .mgmtSetThreshold stack n
  | .mgmtSetDevid id => .mgmtSetDevid id
  | .linkFlitRetry link => .linkFlitRetry link
  | .laneFailure link => .laneFailure link
  | .linkFailure link => .linkFailure link
  | .hostCxlMemAccess off write len => .hostCxlMemAccess off write len
  | .backInvalidationAck line => .backInvalidationAck line
  | .peerAccess off write len => .peerAccess off write len
  | .slewTick => .slewTick
  | .staggerWrite v => .staggerWrite v
  | .staggerArrival k w => .staggerArrival k w
  | .staggerHoldEnd => .staggerHoldEnd
  | .loadWordArrival core slot id => .loadWordArrival core slot id
  | .stackTrainingFailed stack => .stackTrainingFailed stack
  | .svpoolWrite ctx v => .svpoolWrite ctx v
  | .counterCarry core n => .counterCarry core n

/-- What the decoder reads, in a form a step can build: an instruction word, or one of the eighteen words
whose constructor of `Instr` only the kernel evaluates. -/
inductive Decoded where
  | std (i : Instr)
  -- copy engine and gates (R99 to R110)
  | cpy (x : CopyArg) | cpyx2d (x : CopyArg) | cpyx3d (x : CopyArg) | cpyc (x : CpycArg)
  | cfill (x : CfillArg) | gset (gate : Fin 32) (cmd : Bool) (a b : GReg)
  | gadd (gate : Fin 32) (a : GReg) | gwt (gate : Fin 32) (phase : Bool)
  | gpoll (d : GReg) (gate : Fin 32)
  -- attention (R244 to R259)
  | pjld (a : GReg) (g : Gates) | kst (x : AttArg) | qsig (x : AttArg) | bgat (x : AttArg)
  | bgatH1 (x : AttArg) | psum (x : PsumArg) | pbnd (x : PbndArg) | pgatPg (x : AttArg)
  | pgatTok (x : AttArg)
  deriving DecidableEq, Repr

/-- The instruction that a decoded word is. -/
noncomputable def Decoded.toInstr : Decoded → Instr
  | .std i => i
  | .cpy x => .cpy x
  | .cpyx2d x => .cpyx2d x
  | .cpyx3d x => .cpyx3d x
  | .cpyc x => .cpyc x
  | .cfill x => .cfill x
  | .gset gate cmd a b => .gset gate cmd a b
  | .gadd gate a => .gadd gate a
  | .gwt gate phase => .gwt gate phase
  | .gpoll d gate => .gpoll d gate
  | .pjld a g => .pjld a g
  | .kst x => .kst x
  | .qsig x => .qsig x
  | .bgat x => .bgat x
  | .bgatH1 x => .bgatH1 x
  | .psum x => .psum x
  | .pbnd x => .pbnd x
  | .pgatPg x => .pgatPg x
  | .pgatTok x => .pgatTok x

end Sys2Proof
end

