-- ==== Sys2Proof/WellFormed.lean ====
section
/-! DEFINITION. Codes of the operand types, and which instruction words are well formed. -/

namespace Sys2Proof

/-- The code of a type (R145). -/
def Ty.code : Ty → Nat
  | .none => 0 | .i8 => 1 | .i16 => 2 | .i32 => 3 | .i64 => 4 | .n8 => 5 | .n16 => 6 | .n32 => 7
  | .n64 => 8 | .f16 => 9 | .bf16 => 10 | .f32 => 11 | .e4m3 => 12 | .e5m2 => 13 | .q4x => 14

/-- The width in bits of a type (R16); 64 for T = 0, where a word reads whole registers. -/
def Ty.width : Ty → Nat
  | .none => 64 | .i8 => 8 | .i16 => 16 | .i32 => 32 | .i64 => 64 | .n8 => 8 | .n16 => 16 | .n32 => 32
  | .n64 => 64 | .f16 => 16 | .bf16 => 16 | .f32 => 32 | .e4m3 => 8 | .e5m2 => 8 | .q4x => 4

/-- Whether a type is a signed integer. -/
def Ty.signed : Ty → Bool
  | .i8 | .i16 | .i32 | .i64 => true
  | _ => false

/-- Whether a type is a float. -/
def Ty.isFloat : Ty → Bool
  | .f16 | .bf16 | .f32 | .e4m3 | .e5m2 => true
  | _ => false

/-- Whether `t` is in the set of type codes `ts`, one bit per code. -/
def Ty.isIn (t : Ty) (ts : Nat) : Bool := Nat.testBit ts t.code

/-- Sets of type codes: integers 1 to 8, signed 1 to 4, unsigned 5 to 8, floats 9 to 11, and the
ranges that R178, R199 and R261 name. -/
def tsInt : Nat := 0x1FE
def tsSigned : Nat := 0x1E
def tsUnsigned : Nat := 0x1E0
def tsFloat : Nat := 0xE00
def tsArith : Nat := 0xFFE
def tsData : Nat := 0x3FFE
def tsMem : Nat := 0x3FFF
def tsCmp : Nat := 0xFDC
def tsLogic : Nat := 0x1FF
def tsSum : Nat := 0xECC
def tsDot : Nat := 0xE22
def tsSc : Nat := 0x9FE
def tsMat : Nat := 0x7600

/-- The types a function of R274 accepts. -/
def AFn.types : AFn → Nat
  | .add => 0x198 | .fadd => 0xE00 | .min => 0x998 | .max => 0x998
  | .and => 0x198 | .or => 0x198 | .xor => 0x198 | .swap => 0xF98 | .cas => 0x198

/-- The code of a function of R274. -/
def AFn.code : AFn → Nat
  | .add => 0 | .fadd => 1 | .min => 2 | .max => 3 | .and => 4 | .or => 5 | .xor => 6 | .swap => 7
  | .cas => 8

/-- Whether a specifier may be a destination (R147): not a result FIFO and not a special. -/
def Opnd.destOk : Opnd → Bool
  | .g _ | .q _ | .link _ => true
  | .fifo _ | .special _ => false

/-- The assigned system-register numbers (R187): every register that a chapter assigns. -/
def sysregNumbers : List Nat :=
  [0x100, 0x101, 0x102, 0x103, 0x104, 0x105, 0x106, 0x110, 0x111, 0x112, 0x113, 0x120, 0x130, 0x131,
   0x140, 0x150, 0x151, 0x152, 0x153, 0x160, 0x161, 0x162, 0x170, 0x171, 0x172, 0x180, 0x181, 0x182,
   0x190, 0x191, 0x192, 0x196, 0x197, 0x198, 0x1A0, 0x1A1, 0x1A2, 0x1A3, 0x1A4, 0x1B0, 0x1B1, 0x1B2,
   0x1B3, 0x1B4, 0x1B5, 0x1B6, 0x1B7, 0x1B8, 0x1B9, 0x1C0, 0x1C1, 0x1C2, 0x1C3, 0x1C4, 0x1C5]

/-- A zero rounding field. -/
def RMode.isZero (m : RMode) : Bool := m == .rne

namespace Wf

/-- D is a destination and T is accepted. -/
def r3 (ts : Nat) (x : R3) : Bool := x.d.destOk && x.t.isIn ts
def r2 (ts : Nat) (x : R2) : Bool := x.d.destOk && x.t.isIn ts
def ri (ts : Nat) (x : RI) : Bool := x.d.destOk && x.t.isIn ts

/-- The shift count of `shli`, `shri` and `srai` is below the width (R166). -/
def shiftImm (x : RI) : Bool := ri tsInt x && decide (x.imm.toNat < x.t.width)

/-- A MEM word whose index is g0 has scale 0 (R143). -/
def scaleOk (index : Opnd) (scale : Fin 8) : Bool := index != .g 0 || scale == 0
def gscaleOk (index : GReg) (scale : Fin 8) : Bool := index != 0 || scale == 0

/-- The rounding field is zero for types that do not round, and pred is zero under T = 0 (R193, R199). -/
def modeFor (t : Ty) (m : RMode) : Bool := t.isIn tsFloat || m.isZero
def predFor (t : Ty) (pred : Fin 8) : Bool := t != .none || pred == 0

/-- Three vector registers: types, whether sat may be set, whether the mode rounds. -/
def v3 (ts : Nat) (sat round : Bool) (x : V3) : Bool :=
  x.t.isIn ts && (sat || !x.sat) && (if round then modeFor x.t x.mode else x.mode.isZero)
    && predFor x.t x.pred

/-- One source: `absNeg` forbids sat on floats (R199). -/
def v2 (ts : Nat) (sat round : Bool) (x : V2) : Bool :=
  x.t.isIn ts && (sat || !x.sat) && (if round then modeFor x.t x.mode else x.mode.isZero)
    && predFor x.t x.pred

/-- A tile product's types and destination (R219): 16-bit floats take h only on a half tile, 8-bit
floats and q4x take h = 0, and bx only stands with 8-bit floats. -/
def mmul (x : MMul) : Bool :=
  (if x.t.isIn 0x600 then x.d.half != .full || !x.h else x.t.isIn 0x7000 && !x.h)
    && (!x.bx || x.t.isIn 0x3000)

/-- The bytes of an element of a vector type; q4x has none. -/
def esize (t : Ty) : Nat := t.width / 8

/-- `vcvt`: T and S from 1 to 13 and part below the ratio of the sizes (R205). -/
def vcvt (x : VCvt) : Bool :=
  x.t.isIn tsData && x.src.isIn tsData
    && decide (x.part.val < Nat.max (esize x.src) (esize x.t) / Nat.min (esize x.src) (esize x.t))

end Wf

/-- Whether an instruction word's fields are ones its description accepts (R146 to R148). An event has
no word, and every event is well formed. -/
def wellFormed : Instr → Bool
  | .add x | .sub x | .mul x | .and x | .or x | .xor x | .andn x | .orn x | .shl x | .shr x | .sra x
  | .rol x | .ror x | .seq x | .sne x | .bext x => Wf.r3 tsInt x
  | .mulh x | .div x | .rem x | .min x | .max x | .slt x | .sle x => Wf.r3 tsSigned x
  | .mulhn x | .divn x | .remn x | .minn x | .maxn x | .sltn x | .slen x => Wf.r3 tsUnsigned x
  | .abs x | .sext x => Wf.r2 tsSigned x
  | .zext x => Wf.r2 tsUnsigned x
  | .clz x | .ctz x | .popc x => Wf.r2 tsInt x
  | .bins x => x.d.destOk && x.t.isIn tsInt
  | .sel d _ _ _ => d.destOk
  | .addi x | .andi x | .ori x | .xori x => Wf.ri tsInt x
  | .slti x => Wf.ri tsSigned x
  | .sltni x => Wf.ri tsUnsigned x
  | .shli x | .shri x | .srai x => Wf.shiftImm x
  | .li d _ => d.destOk
  | .lih d _ _ => d.destOk
  | .padd d _ _ | .pfmt d _ _ | .fadd d _ _ | .fsub d _ _ | .fmul d _ _ | .fmin d _ _ | .fmax d _ _
  | .fsgn d _ _ | .feq d _ _ | .flt d _ _ | .fle d _ _ | .dump d _ _ | .pctlRead d _ _
  | .pctlClear d _ _ | .pctlProgram d _ _ => d.destOk
  | .pget d _ | .pstrip d _ | .fcls d _ | .jr d _ | .ltag d _ | .sysState d _ => d.destOk
  | .ffma d _ _ _ _ => d.destOk
  | .fcvt d _ t toF32 sat _ => d.destOk && t.isIn 0x37FE && !(toF32 && sat)
  | .jal d _ _ => d.destOk
  | .loopReg _ n => n != 0
  | .loopImm _ n => n != 0
  | .ld x => x.d.destOk && x.t.isIn tsMem && Wf.scaleOk x.index x.scale
  | .st x => x.t.isIn tsMem && Wf.scaleOk x.index x.scale
  | .ldp x | .stp x => decide (x.d.val ≤ 62) && Wf.scaleOk x.index x.scale
  | .gsr d num => d.destOk && sysregNumbers.contains num.toNat
  | .ssr num _ => sysregNumbers.contains num.toNat
  | .tlbiPage x => x.scope == .dev || x.cc == 0
  | .tlbiCtx x => (x.scope == .dev || x.cc == 0) && x.a == .g 0
  | .tlbiAll x => (x.scope == .dev || x.cc == 0) && x.a == .g 0 && x.b == .g 0
  | .ldg x => x.t.isIn tsMem && Wf.gscaleOk x.index x.scale
  | .scld x => x.t.isIn tsSc && Wf.gscaleOk x.index x.scale
  | .stg x => x.t.isIn tsMem && Wf.gscaleOk x.index x.scale
  | .scst x => x.t.isIn tsSc && Wf.gscaleOk x.index x.scale
  | .wtvEq x | .wtvNe x => x.t.isIn 0x180
  | .pref _ index scale _ => Wf.gscaleOk index scale
  | .ldvEq _ _ _ t _ | .ldvLe _ _ _ t _ => t.isIn tsMem
  | .stv _ _ t _ => t.isIn tsMem
  | .stvAt _ _ _ t _ => t.isIn tsMem
  | .amoAdd x | .amoAnd x | .amoOr x | .amoXor x | .amoNrAdd x | .amoNrAnd x | .amoNrOr x
  | .amoNrXor x | .scamoAdd x | .scamoAnd x | .scamoOr x | .scamoXor x => x.t.isIn 0x198 && x.c == 0
  | .amoFadd x | .amoNrFadd x | .scamoFadd x => x.t.isIn 0xE00 && x.c == 0
  | .amoMin x | .amoMax x | .amoNrMin x | .amoNrMax x | .scamoMin x | .scamoMax x =>
    x.t.isIn 0x998 && x.c == 0
  | .amoSwap x | .amoNrSwap x | .scamoSwap x => x.t.isIn 0xF98 && x.c == 0
  | .amoCas x | .scamoCas x => x.t.isIn 0x198
  | .vamoAdd x | .vamoAnd x | .vamoOr x | .vamoXor x => x.t.isIn 0x198
  | .vamoFadd x => x.t.isIn 0xE00
  | .vamoMin x | .vamoMax x => x.t.isIn 0x998
  | .vamoSwap x => x.t.isIn 0xF98
  | .dpop d | .dsplit d => decide (d.val ≤ 62)
  | .dsteal d _ => decide (d.val ≤ 62)
  | .vadd x | .vsub x | .vmul x => Wf.v3 tsArith true true x
  | .vmin x | .vmax x => Wf.v3 tsArith false false x
  | .vand x | .vor x | .vxor x => Wf.v3 tsLogic false false x
  | .vshl x | .vshr x | .vsra x => Wf.v3 tsInt false false x
  | .vperm x => Wf.v3 tsData false false x
  | .vfma x | .vfms x => x.t.isIn tsArith && Wf.modeFor x.t x.mode
  | .vabs x | .vneg x => Wf.v2 tsArith true false x && (!x.sat || !x.t.isIn tsFloat)
  | .vrcp x | .vrsq x | .vexp x | .vtanh x => Wf.v2 tsFloat true true x
  | .vmov x => Wf.v2 tsMem false false x
  | .vredmax x | .vredmin x => Wf.v2 tsArith false false x
  | .vcvt x => Wf.vcvt x
  | .vcmpEq x | .vcmpNe x | .vcmpLt x | .vcmpLe x => x.t.isIn tsCmp
  | .vsel x => x.t.isIn tsData
  | .vmovMm x | .mnot x => x.b == 0
  | .vmovMq x | .mpop x | .mfirst x => x.d == 0 && x.b == 0
  | .vbcast x => x.t.isIn tsData
  | .vext x => x.t.isIn tsData && decide (x.index.val < 128 / Wf.esize x.t)
  | .vld x | .vst x => x.t.isIn tsMem && !x.sat && x.mode.isZero && Wf.predFor x.t x.pred
  | .vldx x | .vstx x => x.t.isIn tsCmp
  | .vldf x => x.t.isIn tsFloat && !x.sat
  | .vstf x => x.t.isIn tsFloat
  | .vunpk x => x.b == 0 && !x.sat
  | .vredsum x => x.t.isIn tsSum && Wf.modeFor x.t x.mode && (x.flag || x.c == 0) && x.b == 0
  | .vdot x => x.t.isIn tsDot && Wf.modeFor x.t x.mode && (x.flag || x.c == 0)
  | .vrot x => x.t.isIn tsData
  | .vtopk x => decide (1 ≤ x.lit.val) && decide (x.lit.val ≤ 32) && decide (x.d.val % 2 = 0)
  | .vsig x => decide (x.lit.val < 16) && x.b == 0
  | .mma x | .msp x => Wf.mmul x
  | .mmv x => Wf.mmul x && x.k == 0
  | .mld x => !x.sat && x.mode.isZero && (if x.d.half == .full then x.t.isIn 0xE00 else x.t.isIn 0x600)
  | .mst x =>
    (if x.d.half == .full then x.t.isIn 0x3E00 else x.t.isIn 0x600)
      && (!(x.t == .f32 || x.d.half != .full) || (!x.sat && x.mode.isZero))
  | .mdir x | .mdirPush x => x.t.isIn tsMat
  | .msclRow x | .msclCol x => !x.h || x.d.half != .full
  | .msclAll x => !x.h || x.d.half != .full
  | .mrdEl x => !x.h || x.a.half != .full
  | .cpy x => x.c == 0
  | .cpyx3d x => decide (x.c.val ≤ 62)
  | .kst x => x.d == 0
  | .qsig x => x.d == 0 && x.c == 0
  | .bgat x | .bgatH1 x => x.c == 0 && x.gates.wait == none
  | _ => true

end Sys2Proof
end

