-- ==== Sys2Proof/Machine/Num.lean ====
section
/-! DEFINITION. Numbers: integers of a width, the five float formats as exact values, one rounding (R123 to R138),
Q4X blocks (R132 to R134), and the CRC-32C of a block (R156). -/

namespace Sys2Proof.Machine.Num

/-- The low `w` bits of `x`. -/
def low (w x : Nat) : Nat := x % 2 ^ w

/-- The low `w` bits of `x` as a two's-complement number. -/
def toInt (w x : Nat) : Int :=
  let y := x % 2 ^ w
  if y < 2 ^ (w - 1) then (y : Int) else (y : Int) - (2 ^ w : Nat)

/-- An integer's low `w` bits. -/
def ofInt (w : Nat) (i : Int) : Nat := (i % ((2 ^ w : Nat) : Int)).toNat

/-- A w-bit result extended to 64 bits as its type says (R113). -/
def extend (t : Ty) (x : Nat) : Word :=
  if t.signed then BitVec.ofInt 64 (toInt t.width x) else BitVec.ofNat 64 (low t.width x)

/-- An operand's value: signed for .i types, unsigned otherwise. -/
def value (t : Ty) (x : Nat) : Int :=
  if t.signed then toInt t.width x else ((low t.width x : Nat) : Int)

/-- The sign extension of OFF22 and IMM32. -/
def sext (w : Nat) (x : Nat) : Int := toInt w x

/-! ### Flags (R122) -/

def nx : Nat := 1
def uf : Nat := 2
def ovf : Nat := 4
def nv : Nat := 8
def satF : Nat := 16
def qx : Nat := 32

/-! ### Float values -/

/-- A float's value: NaN, an infinity, or the dyadic number (−1)^neg · m · 2^e. -/
inductive FV where
  | nan
  | inf (neg : Bool)
  | fin (neg : Bool) (m : Nat) (e : Int)
  deriving DecidableEq, Repr

/-- A float layout (R124): fraction bits, exponent bits, bias, whether it has infinities, and the
largest finite value as a mantissa and exponent. -/
structure Fmt where
  fb : Nat
  eb : Nat
  bias : Int
  infs : Bool
  maxM : Nat
  maxQ : Int
  deriving DecidableEq, Repr

def f32 : Fmt := { fb := 23, eb := 8, bias := 127, infs := true, maxM := 2 ^ 24 - 1, maxQ := 104 }
def bf16 : Fmt := { fb := 7, eb := 8, bias := 127, infs := true, maxM := 255, maxQ := 120 }
def f16 : Fmt := { fb := 10, eb := 5, bias := 15, infs := true, maxM := 2047, maxQ := 5 }
def e5m2 : Fmt := { fb := 2, eb := 5, bias := 15, infs := true, maxM := 7, maxQ := 13 }
def e4m3 : Fmt := { fb := 3, eb := 4, bias := 7, infs := false, maxM := 14, maxQ := 5 }

/-- The layout of a float type. -/
def fmtOf : Ty → Fmt
  | .f16 => f16
  | .bf16 => bf16
  | .e4m3 => e4m3
  | .e5m2 => e5m2
  | _ => f32

def Fmt.width (f : Fmt) : Nat := 1 + f.eb + f.fb

/-- The value of a format's bits (R124). -/
def Fmt.decode (f : Fmt) (bits : Nat) : FV :=
  let frac := bits % 2 ^ f.fb
  let ex := bits / 2 ^ f.fb % 2 ^ f.eb
  let neg := bits / 2 ^ (f.fb + f.eb) % 2 == 1
  if f.infs && ex == 2 ^ f.eb - 1 then
    if frac = 0 then .inf neg else .nan
  else if !f.infs && ex == 2 ^ f.eb - 1 && frac == 2 ^ f.fb - 1 then .nan
  else if ex = 0 then .fin neg frac (1 - f.bias - f.fb)
  else .fin neg (2 ^ f.fb + frac) ((ex : Int) - f.bias - f.fb)

/-- The canonical NaN (R125). -/
def Fmt.nanBits (f : Fmt) : Nat :=
  if f.infs then (2 ^ f.eb - 1) * 2 ^ f.fb + 2 ^ (f.fb - 1) else 2 ^ (f.fb + f.eb) - 1

def Fmt.signBit (f : Fmt) (neg : Bool) : Nat := if neg then 2 ^ (f.fb + f.eb) else 0

/-- An infinity: the canonical NaN where the format has none (R127). -/
def Fmt.infBits (f : Fmt) (neg : Bool) : Nat :=
  if f.infs then f.signBit neg + (2 ^ f.eb - 1) * 2 ^ f.fb else f.nanBits

/-- The bits of mant · 2^q, with q at least the exponent of the smallest subnormal. -/
def Fmt.pack (f : Fmt) (neg : Bool) (mant : Nat) (q : Int) : Nat :=
  if mant < 2 ^ f.fb then f.signBit neg + mant
  else f.signBit neg + (q + f.bias + f.fb).toNat * 2 ^ f.fb + (mant - 2 ^ f.fb)

/-- The largest finite value's bits. -/
def Fmt.maxBits (f : Fmt) (neg : Bool) : Nat := f.pack neg f.maxM f.maxQ

/-- Whether a discarded part `rem` of a unit `2^s` rounds the magnitude up. -/
def roundsUp (mode : RMode) (neg : Bool) (mant rem half : Nat) : Bool :=
  match mode with
  | .rne => decide (rem > half) || (rem == half && mant % 2 == 1)
  | .rtz => false
  | .rdn => neg && rem != 0
  | .rup => !neg && rem != 0

/-- m · 2^e as a whole number of units 2^q, rounded, and whether it was inexact. -/
def quantize (mode : RMode) (neg : Bool) (m : Nat) (e q : Int) : Nat × Bool :=
  if q ≤ e then (m * 2 ^ (e - q).toNat, false)
  else
    let s := (q - e).toNat
    let mant := m / 2 ^ s
    let rem := m % 2 ^ s
    (if roundsUp mode neg mant rem (2 ^ (s - 1)) then mant + 1 else mant, rem != 0)

/-- The overflow result of R127. -/
def Fmt.overflow (f : Fmt) (mode : RMode) (neg : Bool) : Nat :=
  match mode, neg with
  | .rtz, _ => f.maxBits neg
  | .rdn, false => f.maxBits false
  | .rup, true => f.maxBits true
  | _, _ => f.infBits neg

/-- Rounds a value once to a format: the bits and the flags (R125, R127, R128). An infinite operand that E4M3 writes as its
canonical NaN sets no nv (DEDUCED, log 107). -/
def Fmt.round (f : Fmt) (mode : RMode) (sat : Bool) : FV → Nat × Nat
  | .nan => (f.nanBits, 0)
  | .inf neg => if sat then (f.maxBits neg, satF) else (f.infBits neg, 0)
  | .fin neg m e =>
    if m = 0 then (f.signBit neg, 0)
    else
      let top : Int := e + Nat.log2 m
      let emin : Int := 1 - f.bias
      let q0 : Int := (if top < emin then emin else top) - f.fb
      let (mant0, inexact) := quantize mode neg m e q0
      let (mant, q) := if mant0 = 2 ^ (f.fb + 1) then (2 ^ f.fb, q0 + 1) else (mant0, q0)
      if decide (q > f.maxQ) || (q == f.maxQ && decide (mant > f.maxM)) then
        if sat then (f.maxBits neg, ovf ||| nx ||| satF) else (f.overflow mode neg, ovf ||| nx)
      else
        (f.pack neg mant q,
          (if inexact then nx else 0) ||| (if inexact && decide (top < emin) then uf else 0))

/-- Whether bits are a NaN's; a NaN made canonical, other bits unchanged. -/
def Fmt.canon (f : Fmt) (bits : Nat) : Nat :=
  match f.decode bits with
  | .nan => f.nanBits
  | _ => bits % 2 ^ f.width

def FV.neg : FV → FV
  | .nan => .nan
  | .inf s => .inf (!s)
  | .fin s m e => .fin (!s) m e

def FV.isNan : FV → Bool
  | .nan => true
  | _ => false

def FV.isZero : FV → Bool
  | .fin _ m _ => m == 0
  | _ => false

def FV.sign : FV → Bool
  | .nan => false
  | .inf s => s
  | .fin s _ _ => s

/-- A signed mantissa at exponent `q`, which is at most the value's own. -/
def scaled (neg : Bool) (m : Nat) (e q : Int) : Int :=
  let x : Int := ((m * 2 ^ (e - q).toNat : Nat) : Int)
  if neg then -x else x

/-- The dyadic number i · 2^e with the sign `z` when i is 0. -/
def FV.ofInt (i : Int) (e : Int) (z : Bool) : FV :=
  if i = 0 then .fin z 0 e else .fin (decide (i < 0)) i.natAbs e

/-- The exact sum of two values, and nv (R126, R129). -/
def FV.add (mode : RMode) : FV → FV → FV × Nat
  | .nan, _ | _, .nan => (.nan, 0)
  | .inf a, .inf b => if a = b then (.inf a, 0) else (.nan, nv)
  | .inf a, .fin .. => (.inf a, 0)
  | .fin .., .inf b => (.inf b, 0)
  | .fin s m e, .fin s' m' e' =>
    if m = 0 ∧ m' = 0 ∧ s = s' then (.fin s 0 e, 0)
    else
      let q := if e ≤ e' then e else e'
      (.ofInt (scaled s m e q + scaled s' m' e' q) q (mode == .rdn), 0)

/-- The exact product, and nv (R126). -/
def FV.mul : FV → FV → FV × Nat
  | .nan, _ | _, .nan => (.nan, 0)
  | .inf a, .inf b => (.inf (a != b), 0)
  | .inf a, .fin s m _ => if m = 0 then (.nan, nv) else (.inf (a != s), 0)
  | .fin s m _, .inf a => if m = 0 then (.nan, nv) else (.inf (a != s), 0)
  | .fin s m e, .fin s' m' e' => (.fin (s != s') (m * m') (e + e'), 0)

/-- a × b + c exactly, and nv. A product 0 × ∞ sets nv also when the addend is a NaN: R126 lists that product as invalid by
itself (DEDUCED, log 106). -/
def FV.fma (mode : RMode) (a b c : FV) : FV × Nat :=
  let (p, n) := a.mul b
  let (r, n') := p.add mode c
  (r, n ||| n')

/-- Compares two values that are not NaN as numbers; −0 equals +0. -/
def FV.lt : FV → FV → Bool
  | .nan, _ | _, .nan => false
  | .inf a, .inf b => a && !b
  | .inf a, .fin .. => a
  | .fin .., .inf b => !b
  | .fin s m e, .fin s' m' e' =>
    let q := if e ≤ e' then e else e'
    decide (scaled s m e q < scaled s' m' e' q)

def FV.eq : FV → FV → Bool
  | .nan, _ | _, .nan => false
  | .inf a, .inf b => a == b
  | .inf _, .fin .. | .fin .., .inf _ => false
  | .fin s m e, .fin s' m' e' =>
    let q := if e ≤ e' then e else e'
    decide (scaled s m e q = scaled s' m' e' q)

/-- The total order of minimum and maximum: −0 below +0 (R126). -/
def FV.below (a b : FV) : Bool :=
  a.lt b || (a.isZero && b.isZero && a.sign && !b.sign)

/-- Minimum and maximum of two bit patterns of a format (R126). -/
def Fmt.min (f : Fmt) (a b : Nat) : Nat :=
  let x := f.decode a
  let y := f.decode b
  if x.isNan || y.isNan then f.nanBits else if y.below x then low f.width b else low f.width a

def Fmt.max (f : Fmt) (a b : Nat) : Nat :=
  let x := f.decode a
  let y := f.decode b
  if x.isNan || y.isNan then f.nanBits else if x.below y then low f.width b else low f.width a

/-! ### Exact sums (R136 to R138) -/

/-- A running exact sum: NaN, infinities seen, terms aligned, whether every term is −0, flags. -/
structure Sum where
  nan : Bool
  pinf : Bool
  ninf : Bool
  v : Int
  e : Int
  terms : Nat
  allNegZero : Bool
  flags : Nat
  deriving DecidableEq, Repr

def Sum.empty : Sum :=
  { nan := false, pinf := false, ninf := false, v := 0, e := 0, terms := 0, allNegZero := true
    flags := 0 }

/-- Adds a term. -/
def Sum.term (s : Sum) : FV → Sum
  | .nan => { s with nan := true, terms := s.terms + 1, allNegZero := false }
  | .inf n =>
    { s with pinf := s.pinf || !n, ninf := s.ninf || n, terms := s.terms + 1, allNegZero := false }
  | .fin n m e =>
    let z := m == 0 && n
    if m = 0 then { s with terms := s.terms + 1, allNegZero := s.allNegZero && z }
    else if s.v = 0 then
      { s with v := scaled n m e e, e := e, terms := s.terms + 1, allNegZero := false }
    else
      let q := if e ≤ s.e then e else s.e
      { s with v := s.v * ((2 ^ (s.e - q).toNat : Nat) : Int) + scaled n m e q, e := q
               terms := s.terms + 1, allNegZero := false }

/-- Adds a product: an exact zero is no term; 0 × ∞ is NaN and sets nv (R138). -/
def Sum.product (s : Sum) (a b : FV) : Sum :=
  match a.mul b with
  | (.fin _ 0 _, _) => s
  | (p, n) => { s.term p with flags := s.flags ||| n }

/-- Adds a term of a sum of signed values, where a zero is no term (R138). -/
def Sum.signed (s : Sum) (neg : Bool) (x : FV) : Sum := s.product (.fin neg 1 0) x

/-- The exact sum, and nv. A NaN term keeps terms of both infinities from setting nv (R125; DEDUCED, log 106). -/
def Sum.value (s : Sum) : FV × Nat :=
  if s.nan then (.nan, s.flags)
  else if s.pinf && s.ninf then (.nan, s.flags ||| nv)
  else if s.pinf then (.inf false, s.flags)
  else if s.ninf then (.inf true, s.flags)
  else (.ofInt s.v s.e (s.allNegZero && s.terms != 0), s.flags)

/-! ### Conversions -/

/-- A float rounded to an integer under a mode, and whether it was inexact. -/
def integerOf (mode : RMode) (neg : Bool) (m : Nat) (e : Int) : Int × Bool :=
  let (k, ix) := quantize mode neg m e 0
  (if neg then -(k : Int) else (k : Int), ix)

def minOf (t : Ty) : Int := if t.signed then -((2 ^ (t.width - 1) : Nat) : Int) else 0
def maxOf (t : Ty) : Int :=
  if t.signed then ((2 ^ (t.width - 1) : Nat) : Int) - 1 else ((2 ^ t.width : Nat) : Int) - 1

/-- A float converted to an integer type: w bits and flags (R130). -/
def floatToInt (t : Ty) (mode : RMode) (sat : Bool) (v : FV) : Nat × Nat :=
  let bad : Nat := ofInt t.width (minOf t)
  let above := if sat then (ofInt t.width (maxOf t), satF) else (bad, nv)
  let under := if sat then (bad, satF) else (bad, nv)
  match v with
  | .nan => if sat then (0, nv) else (bad, nv)
  | .inf n => if n then under else above
  | .fin n m e =>
    let (i, ix) := integerOf mode n m e
    if i > maxOf t then above
    else if i < minOf t then under
    else (ofInt t.width i, if ix then nx else 0)

/-- The value of an integer of a type. -/
def intFV (t : Ty) (x : Nat) : FV := FV.ofInt (value t x) 0 false

/-- The value of an element of a type. -/
def elemFV (t : Ty) (x : Nat) : FV :=
  if t.isFloat then (fmtOf t).decode x else intFV t x

/-- Clamps an exact integer to a type, and sat (R128). -/
def clamp (t : Ty) (i : Int) : Nat × Nat :=
  if i > maxOf t then (ofInt t.width (maxOf t), satF)
  else if i < minOf t then (ofInt t.width (minOf t), satF)
  else (ofInt t.width i, 0)

/-- Converts an element between types (R127, R128, R130): w bits and flags. Between integers the plain form
wraps. -/
def convert (src dst : Ty) (mode : RMode) (sat : Bool) (x : Nat) : Nat × Nat :=
  if dst.isFloat then (fmtOf dst).round mode sat (elemFV src x)
  else if src.isFloat then floatToInt dst mode sat ((fmtOf src).decode x)
  else if sat then clamp dst (value src x)
  else (ofInt dst.width (value src x), 0)

/-! ### Q4X (R132 to R134) -/

/-- Four codes of a quad. -/
def quadCodes (x : Nat) : List Nat := [x % 16, x / 16 % 16, x / 256 % 16, x / 4096 % 16]

/-- The lowest position that holds the marker 1000. -/
def marker (cs : List Nat) : Option Nat := cs.findIdx? (· == 8)

/-- The element values of a quad before the scale, and qx (R133). -/
def quadValues (x : Nat) : List FV × Nat :=
  let cs := quadCodes x
  let at' (p : Nat) : Nat := cs.getD (p % 4) 0
  let ord (c : Nat) : FV := FV.ofInt (toInt 4 c) 0 false
  match marker cs with
  | none => (cs.map ord, 0)
  | some m =>
    let out := e4m3.decode (at' (m + 1) * 16 + at' (m + 2))
    let q := (m + 3) % 4
    let second := at' q == 8
    let val (p : Nat) : FV :=
      if p = m then out
      else if p = q then (if second then FV.fin false 0 0 else ord (at' q))
      else FV.fin false 0 0
    ([val 0, val 1, val 2, val 3], if second then qx else 0)

/-- Element × scale, exactly, and nv (R134). -/
def scaleElem (scale e : FV) : FV × Nat := e.mul scale

/-! ### CRC-32C (R156) -/

/-- One bit of the reflected polynomial 0x1EDC6F41. -/
def crcBit (c : Nat) : Nat := if c % 2 = 1 then (c / 2) ^^^ 0x82F63B78 else c / 2

/-- One byte. -/
def crcByte (c b : Nat) : Nat :=
  crcBit (crcBit (crcBit (crcBit (crcBit (crcBit (crcBit (crcBit (c ^^^ b))))))))

/-- `n` bytes of `x`, little-endian. -/
def crcBytes : Nat → Nat → Nat → Nat
  | 0, c, _ => c
  | n + 1, c, x => crcBytes n (crcByte c (x % 256)) (x / 256)

/-- The signature of a block's words, oldest first (R156). -/
def signature (words : List Nat) : Nat :=
  (words.foldl (fun c w => crcBytes 8 c w) (crcBytes 4 0xFFFFFFFF words.length)) ^^^ 0xFFFFFFFF

/-! ### Integer operations (R163 to R165) -/

/-- Leading zeros of the low `w` bits. -/
def clz (w x : Nat) : Nat := if low w x = 0 then w else w - 1 - Nat.log2 (low w x)

/-- Trailing zeros among `n` bits. -/
def ctzAux : Nat → Nat → Nat
  | 0, _ => 0
  | n + 1, x => if x % 2 = 1 then 0 else 1 + ctzAux n (x / 2)

def ctz (w x : Nat) : Nat := ctzAux w x

/-- Set bits among `n`. -/
def popAux : Nat → Nat → Nat
  | 0, _ => 0
  | n + 1, x => x % 2 + popAux n (x / 2)

def popc (w x : Nat) : Nat := popAux w x

/-- Rotates `w` bits left by s < w. -/
def rol (w x s : Nat) : Nat := low w (x * 2 ^ s) + low w x / 2 ^ (w - s)

/-- Arithmetic shift right of `w` bits. -/
def sra (w x s : Nat) : Nat := ofInt w (toInt w x / ((2 ^ s : Nat) : Int))

/-- Signed division truncated toward zero, and remainder (R164). -/
def sdiv (w x y : Nat) : Nat :=
  if low w y = 0 then 2 ^ w - 1 else ofInt w ((toInt w x).tdiv (toInt w y))

def srem (w x y : Nat) : Nat :=
  if low w y = 0 then low w x else ofInt w ((toInt w x).tmod (toInt w y))

def udiv (w x y : Nat) : Nat := if low w y = 0 then 2 ^ w - 1 else low w x / low w y
def urem (w x y : Nat) : Nat := if low w y = 0 then low w x else low w x % low w y

/-- `bext` (R165): control word in `c`. -/
def bext (t : Ty) (x c : Nat) : Nat :=
  let w := t.width
  let pos := c % 64
  let len := Nat.min (c / 256 % 128) (w - pos)
  if w ≤ pos ∨ len = 0 then 0
  else
    let f := low w x / 2 ^ pos % 2 ^ len
    if t.signed then ofInt w (toInt len f) else f

/-- `bins` (R165). -/
def bins (w x y c : Nat) : Nat :=
  let pos := c % 64
  let len := Nat.min (c / 256 % 128) (w - pos)
  if w ≤ pos ∨ len = 0 then low w x
  else
    let x' := low w x
    x' % 2 ^ pos + (low w y % 2 ^ len) * 2 ^ pos + x' / 2 ^ (pos + len) * 2 ^ (pos + len)

/-! ### Insertion sort, and splitting numbers into bytes -/

/-- Inserts before the first element that is not below `x`. -/
def insertBy {α : Type} (lt : α → α → Bool) (x : α) : List α → List α
  | [] => [x]
  | y :: rest => if lt y x then y :: insertBy lt x rest else x :: y :: rest

/-- A stable sort. -/
def sortBy {α : Type} (lt : α → α → Bool) : List α → List α
  | [] => []
  | x :: rest =>
    insertBy lt x (sortBy lt rest)

/-- `n` little-endian bytes of a number (R12). -/
def bytesOf : Nat → Nat → List Byte
  | 0, _ => []
  | n + 1, x => BitVec.ofNat 8 x :: bytesOf n (x / 256)

/-- A list's little-endian number. -/
def ofBytes : List Byte → Nat
  | [] => 0
  | b :: rest => b.toNat + 256 * ofBytes rest

end Sys2Proof.Machine.Num
end

