-- ==== Sys2Proof/Config.lean ====
section
/-! DEFINITION. What an implementation fixes, and the free values: constants with no body, of which nothing
can be proved but what holds for every value. -/

namespace Sys2Proof.Config

/-- FREE VALUE (log 4): how many cycles beyond one the step numbered `tick` takes (R11, R86). -/
opaque lateCycles : Nat → Nat

/-- FREE VALUE (log 38): whether a fetch that finds its line in an instruction cache takes the word held there or memory's (R159),
by the step's tick. -/
opaque fetchesHeld : Nat → Bool

/-- FREE VALUE (log 38): whether a fill of an instruction cache takes the next line of the page with it (R159), by the step's tick. -/
opaque prefetches : Nat → Bool

/-- FREE VALUE (log 7): how a mnemonic is coded in a ring word of a privilege fault (R162 names the mnemonic, no
rule codes it). The argument is the OP and FN of the word. -/
opaque mnemonicCode : Nat → BitVec 64

/-- FREE VALUE (log 8): what a device register's offset within the device register space reads as, by
the step's tick (R18 gives the space and no rule gives the offsets). -/
opaque deviceRegister : Nat → Nat → BitVec 8

/-- FREE VALUE (log 9): bytes of a save area, a core image, a dump section, a spill entry or a free list whose layout no rule gives
(R338, R392 to R394, R398), by tick and byte offset. -/
opaque saveByte : Nat → Nat → BitVec 8

/-- FREE VALUE (log 9): byte `i` of a record whose contents the spec lists and whose layout it leaves open (R393 from 0x500 on, R401),
by the contents in the listed order. -/
opaque packByte : List Nat → Nat → BitVec 8

/-- FREE VALUE (log 9): the word of a core image that holds the handle of the core's saved task numbered by the argument (R394 names
the handles and no rule places them). -/
opaque imagePlace : Nat → Nat

/-- FREE VALUE (log 10): a word that the spec leaves free, by tick; its one use is log 26. -/
opaque freeWord : Nat → BitVec 64

/-- FREE VALUE (log 21): how a relink or share message's kind is coded in a net fault's item (R326 names the kind, no rule
codes it). -/
opaque kindCode : Nat → BitVec 64

/-- FREE VALUE (log 27): the power in watts that the package would draw at a step (R414), by tick. -/
opaque packagePower : Nat → Nat

/-- FREE VALUE (log 29): the sending core that g9 of a launched task names (R334): the front hive is no core. -/
opaque launchSender : Nat

/-- FREE VALUE (log 134): how many corrected errors a stack's controller meets while it serves a request (R33), by the step's tick. -/
opaque correctedErrors : Nat → Nat

/-- FREE VALUE (log 30): the fault code in a dump's status record for a fault that R381 gives no code, a page fault or a
version trap (R398). -/
opaque dumpFault : Nat

/-- FREE VALUE (log 133): how many cycles a message to another device is in flight (R409), by the tick of its sending. -/
opaque farCycles : Nat → Nat

/-- The device's own number of cores, hives and lines, as figures of R2. -/
def cores : Nat := 8192
def hives : Nat := 512

end Sys2Proof.Config
end

