-- ==== Sys2Proof/Machine/State.lean ====
section
/-! DEFINITION. The machine's state as plain data: every piece of state the spec gives the device. -/

namespace Sys2Proof.Machine

/-- What stops the machine with a fault. -/
inductive Fault where
  /-- `exec` was asked to run an instruction word while no task of the focused core holds its scalar
  stream. `step` never asks it. Safe: the model stops where no hardware could be. -/
  | noRunningTask
  deriving DecidableEq, Repr

/-- What the model refuses to run. -/
inductive Refusal where
  /-- Raised by an arm of `exec` whose instruction has no meaning yet. Safe: the model stops. -/
  | notModelled (mnemonic : String)
  deriving DecidableEq, Repr

/-- A 128-byte vector register. -/
abbrev Vec := BitVec 1024

/-- An entry of a queue register or result FIFO (R115, R117): a word, or the place of a word still to
come, or a version trap that is delivered when the word is read (R266). -/
inductive QWord where
  | word (w : Tagged)
  | await (id : Nat)
  | trap (id cause sub : Nat) (regs : List Nat)
  deriving DecidableEq, Repr

/-- A result still within its latency (R160): register, words until it may be read, producer. -/
structure Sched where
  reg : Nat
  left : Nat
  pc : Nat
  deriving DecidableEq, Repr

/-- Where a result that is no g register's goes when its latency has passed: a queue register, an inbound link port of a core, or
FSTAT (R160, R169). -/
inductive LateTo where
  | queue (i : Nat) (w : Tagged)
  | link (core port : Nat) (w : Tagged)
  | flags (f : Nat)
  deriving DecidableEq, Repr

/-- A result on its way: words until it arrives. -/
structure Late where
  left : Nat
  dest : LateTo
  deriving DecidableEq, Repr

/-- A level of the loop stack (R174). -/
structure Loop where
  start : Nat
  last : Nat
  n : Nat
  rem : Nat
  deriving DecidableEq, Repr

/-- An open basic block (R154 to R156): address of its `blk`, expected signature, its words so far, newest
first. -/
structure Blk where
  addr : Nat
  sig : Nat
  words : List Nat
  deriving DecidableEq, Repr

/-- What a store remembers of its page (R304): the region when the page has keyreq = 1. -/
abbrev Keyed := Option Nat

/-- A buffered effect (R291): what takes effect at the commit point. `shadow` holds the bytes of an `scst` for the task's
own loads (R262) and has no effect; `eret` ends a trap handler (R186; how 0 retry, 1 next, 2 kill); `kst` keeps the place of a `kst` that has not executed (R249). -/
inductive Effect where
  | store (va pa : Nat) (bytes : List Byte) (tag : Nat) (keyed : Keyed)
  | shadow (pa : Nat) (bytes : List Byte) (tag : Nat)
  | stv (region va pa : Nat) (bytes : List Byte) (tag : Nat) (e : Option Nat) (keyed : Keyed)
  | vfloor (region f : Nat)
  | vclose (region : Nat)
  | update (u : Update) (keyed : Keyed)
  | log (e0 e1 e2 : Word) (tag : Nat)
  | send (m : Message)
  | child (m : Message) (core slot : Nat)
  | kpass (region : Nat) (holder : Option Nat)
  | tagen (mask values : Word)
  | tsset (tag : Nat) (entry control : Word)
  | gsync (group : Nat) (hdr : Word)
  | node (va pa : Nat) (w0 : Word) (pay : Bool)
  | push (r : Range)
  | fibreResume (handle : Nat)
  | fibreKill (handle : Nat)
  | eret (handle how : Nat)
  | link (l : Link)
  | summary (va : Nat) (isMax : Bool) (key : List Nat)
  | kst (id : Nat)
  deriving DecidableEq, Repr

/-- An entry of the commit buffer (R260): the effect, its units and its program counter. `control` is the lowest
nonzero poison tag of its control parts (R388). -/
structure Buffered where
  eff : Effect
  units : Nat
  pc : Nat
  control : Nat
  deriving DecidableEq, Repr

/-- An undo-log entry (R296): the line, and its bytes and tag when its written bit was 1. -/
structure Undo where
  line : Nat
  old : Option (List Byte × Nat)
  deriving DecidableEq, Repr

/-- What an outstanding load of a task will bring (R262, R265, R266, R289). -/
inductive LoadKind where
  | plain
  | sc
  | amo (owner : Nat)
  | version (eq : Bool) (v region line : Nat)
  deriving DecidableEq, Repr

/-- An outstanding load: its number, queue, element, physical pieces (address, bytes), and the bytes its
task held when it issued, by offset. -/
structure Load where
  id : Nat
  kind : LoadKind
  fifo : Nat
  t : Ty
  va : Nat
  parts : List (Nat × Nat)
  own : List (Nat × Byte)
  ownTag : Nat
  pc : Nat
  parked : Bool
  sectioned : Bool
  deriving DecidableEq, Repr

/-- A sequentially consistent operation awaiting its place (R289). -/
inductive ScOp where
  | st (id pa : Nat) (bytes : List Byte) (tag : Nat)
  | ld (id : Nat)
  | amo (id : Nat) (u : Update)
  deriving DecidableEq, Repr

/-- An announced operation (R289): core, slot, operation, and the window that announced it. -/
structure Sc where
  core : Nat
  slot : Nat
  op : ScOp
  window : Nat
  deriving DecidableEq, Repr

/-- A spin record (R309). -/
structure Spin where
  line : Nat
  count : Nat
  bytes : List Byte
  deriving DecidableEq, Repr

/-- A lock-elision section (R287): tracked lines, where its effects begin, target, and whether it
tracks no new lines. -/
structure Section where
  lines : List Nat
  base : Nat
  target : Nat
  closed : Bool
  dead : Option (Nat × Nat)
  deriving DecidableEq, Repr

/-- A range of bytes the task's bulk writes cover (R272, R299): physical start, length, program counter; for bytes whose page did not
translate as the command named them, their virtual start, by which a later read finds them. -/
structure Bulk where
  pa : Nat
  len : Nat
  pc : Nat
  va : Option Nat := none
  deriving DecidableEq, Repr

/-- A range taken from a deque (R356): the victim core and the range. -/
structure Taken where
  core : Nat
  r : Range
  deriving DecidableEq, Repr

/-- What an inline child restores at its `done` (R344). -/
structure Frame where
  g : Tab Tagged
  q : Tab (List QWord)
  fstat : BitVec 64
  loops : List Loop
  cc : Tab (BitVec 32)
  pc : Nat
  d : Nat
  deriving DecidableEq, Repr

/-- Why a task is parked (R366). -/
inductive Park where
  | version (id : Nat)
  | wtv (pa : Nat)
  | migrating (va : Nat)
  | spin (line deadline : Nat)
  deriving DecidableEq, Repr

/-- A ring entry (R382), as its eight words. -/
abbrev RingEntry := List Word

/-- A fault that waits for its hive's ring (R383, R384): that of the task held in a slot, that of a held task which has given its slot
up and is saved under a handle, or an entry that saves no task. -/
inductive HeldFault where
  | slot (k : Nat)
  | saved (handle : Nat)
  | entry (e : RingEntry)
  deriving DecidableEq, Repr

/-- What follows when a save has found its area (R380, R385, R392). -/
inductive SaveWhy where
  | trap (e : RingEntry)
  | upcall (cls : Nat) (regs : List Word) (handleAt : Nat)
  | preempt (park : Option Park) (e : RingEntry)
  | context (state : Nat) (e : RingEntry)
  | evict (park : Park)
  | evictHeld (e : RingEntry)
  | debug
  deriving DecidableEq, Repr

/-- What follows a kill (R391): nothing, or the redelivery of the starting message with its mark. -/
inductive KillWhy where
  | gone
  | redeliver (mark : Option Nat)
  deriving DecidableEq, Repr

/-- The state of an activation slot. `killing` is a killed task whose started vector and matrix commands still complete (R198,
R242); `failed` is left by a failed commit until the handler of its trap has started (R345). -/
inductive TStat where
  | free
  | reserved
  | ready
  | running
  | parked (p : Park)
  | held (e : RingEntry)
  | saving (w : SaveWhy)
  | killing (w : KillWhy)
  | committing
  | failed
  deriving DecidableEq, Repr

/-- A word that has issued and awaits an answer as a late arrival. -/
inductive Wait where
  | none
  | spawn (d : Nat) (m : Message)
  | steal (d : Nat) (victim : Nat)
  | merge (d : Nat)
  | heads
  | signature
  deriving DecidableEq, Repr

/-- An accumulator tile: words by index 32i + j, and the poison tag (R120, R218). -/
structure TileVal where
  words : Tab (BitVec 32)
  tag : Nat
  deriving DecidableEq, Repr

/-- A vector register and its poison tag. -/
structure VVal where
  v : Vec
  tag : Nat
  deriving DecidableEq, Repr

/-- A task in an activation slot: the register context of R112 and what the device keeps of the task. `grp` is the group that its
route tag was bound to when it started (R347); `waitFrom` is the cycle from which its ageing period counts (R364); `engFault` names the engine and the place of the command whose fault stopped it; `passed`
is the trapped word and whether it closes its block, for `eret.next` (log 16). `lastBlk` and `lastSig` are the address and the signature
of the block last left, for a breach where no block is open (R155, R389). `heads` are the heads that a `bgat` which issues again has
read, with its program counter (R258); `dense` is a dense fallback trap that waits until the task runs again (R252). -/
structure Task where
  stat : TStat
  ctx : Nat
  tid : Nat
  prio : Nat
  entryPrio : Nat
  level : Nat
  since : Nat
  waitFrom : Nat
  super : Bool
  start : Option Message
  grp : Option Nat
  pc : Nat
  g : Tab Tagged
  q : Tab (List QWord)
  v : Tab VVal
  m : Tab (BitVec 64)
  a : Tab TileVal
  cc : Tab (BitVec 32)
  fstat : BitVec 64
  velem : Option Nat
  loops : List Loop
  irc : Nat
  sched : List Sched
  late : List Late
  blk : Option Blk
  lastBlk : Nat
  lastSig : Nat
  wait : Wait
  commit : List Buffered
  undo : List Undo
  loads : List Load
  spins : List Spin
  replayable : Bool
  sect : Option Section
  inl : List Frame
  spawns : Nat
  nodes : List Nat
  freed : List Nat
  taken : List Taken
  pushes : Nat
  rsig : BitVec 512
  wsig : BitVec 512
  bulk : List Bulk
  bps : List Nat
  bpPass : Bool
  stopAsked : Bool
  failedSteals : Nat
  cycEnq : Nat
  cycStart : Nat
  engFault : Option (Engine × Nat)
  passed : Option (Nat × Bool)
  heads : Option (Nat × List Nat)
  dense : Option (List Word)
  deriving DecidableEq, Repr

/-- A command of an engine (R97): the word, the operand values read when it entered the coprocessor queue, its
gates, its task and program counter, its progress (R106), and for a `kst` the number of its place in the commit buffer
(R249). -/
structure Cmd where
  what : Decoded
  ops : List Tagged
  gates : Gates
  slot : Nat
  ctx : Nat
  tid : Nat
  pc : Nat
  progress : Nat
  resumed : Bool
  killed : Bool
  place : Nat
  deriving DecidableEq, Repr

/-- An engine's path (R97): coprocessor queue, held list, started commands, oldest first. -/
structure EngineQ where
  queue : List Cmd
  held : List Cmd
  started : List Cmd
  deriving DecidableEq, Repr

/-- A `get` or `put` in the port's queue (R270): local and remote addresses, control word, address of the index list, the list once
the port has read it, task, progress (elements below `first` have landed), the physical pieces of the elements issued since, those
landed, whether a fault has stopped it, whether its task was killed. -/
structure GetPut where
  isPut : Bool
  d : Nat
  a : Nat
  ctl : Word
  list : Nat
  known : Bool
  idx : List Nat
  slot : Nat
  ctx : Nat
  tid : Nat
  pc : Nat
  first : Nat
  els : List (List (Nat × Nat))
  landed : List Nat
  halted : Bool
  killed : Bool
  deriving DecidableEq, Repr

/-- A translation held by a TLB or by victim storage (R76, R78): context, page, leaf entry and level. -/
structure TlbEntry where
  ctx : Nat
  va : Nat
  size : Nat
  leaf : Nat
  level : Nat
  deriving DecidableEq, Repr

/-- A line of an instruction cache (R5, R84, R159): its physical address div 64, and the bytes it was filled with. -/
structure CacheLine where
  line : Nat
  bytes : List Byte
  deriving DecidableEq, Repr

/-- A performance counter (R399, R400): event, count, flags. -/
structure Pmc where
  event : Nat
  count : Nat
  ovf : Bool
  lost : Bool
  pending : Bool
  deriving DecidableEq, Repr

/-- A rule-cache entry (R319, R320). -/
structure Rule where
  ctx : Nat
  lo : Nat
  hi : Nat
  swap : Bool
  entry : Nat
  deriving DecidableEq, Repr

/-- A terminating region's record at a core (R357). -/
structure TermRec where
  engaged : Bool
  parent : Nat
  out : Nat
  /-- A fibre whose message engaged the core was killed, so that the deferred acknowledgement stays owed (R429; log 31). -/
  owed : Bool := false
  deriving DecidableEq, Repr

/-- A tile-directory entry (R239): block address, type code, nonzero elements, line mask. -/
structure DirEntry where
  addr : Nat
  t : Nat
  nz : Nat
  mask : Nat
  deriving DecidableEq, Repr

/-- A message in a spill queue or in the relink hold list: whether it is held, when it came, its ageing and the cycle from which its
period counts; `ahead` is a redelivered message that goes ahead of its own and lower priorities (R337, R364, R391); `came` is the cycle
of its arrival (R401). -/
structure Spilled where
  m : Message
  held : Bool
  level : Nat
  seq : Nat
  waitFrom : Nat
  ahead : Bool
  came : Nat
  deriving DecidableEq, Repr

/-- A message that a full spill queue returned to its sender, which keeps it from a cycle on (R337). -/
structure Returned where
  m : Message
  since : Nat
  deriving DecidableEq, Repr

/-- A core's hardware, whatever context it runs. -/
structure Core where
  running : Option Nat
  installed : Option Nat
  vq : EngineQ
  mq : EngineQ
  cq : EngineQ
  gp : List GetPut
  dir : List DirEntry
  resident : Option Nat
  sysQueue : List Message
  relink : List Spilled
  bounced : List Returned
  rules : List Rule
  rckey : Word
  rcent : Word
  keys : List Nat
  pmc : Tab Pmc
  tlbD : List TlbEntry
  tlbI : List TlbEntry
  victims : List (Nat × TlbEntry)
  icache : List CacheLine
  term : Tab TermRec
  merging : Bool
  breakQ : List Nat
  deriving DecidableEq, Repr

/-- A gate (R94). -/
structure Gate where
  count : Nat
  reload : Nat
  phase : Bool
  cmd : Bool
  ovf : Bool
  deriving DecidableEq, Repr

/-- A scratchpad tag-table entry (R90). -/
structure STag where
  state : Nat
  gate : Nat
  phase : Bool
  tag : Nat
  deriving DecidableEq, Repr

/-- A deque entry (R353): a range, or a reservation. -/
structure Deque where
  ranges : List Range
  reserved : Nat
  deriving DecidableEq, Repr

/-- What a core image holds (R394), installed or saved: the scratchpad of one context on one core and
what goes with it. -/
structure Space where
  present : Bool
  bytes : Memory
  written : Tab Bool
  tags : Tab Nat
  stags : Tab STag
  gates : Tab Gate
  proj : Memory
  projTag : Nat
  deque : Deque
  links : Tab (List Tagged)
  cursors : Option (Nat × List Nat)
  deriving DecidableEq, Repr

/-- A route-tag entry (R336). -/
structure TagEntry where
  entry : Nat
  en : Bool
  prio : Nat
  bound : Bool
  pend : Bool
  grp : Nat
  deriving DecidableEq, Repr

/-- A collected request of the hive task queue (R374). -/
inductive Request where
  | msg (m : Message)
  | steal (thief slot victim : Nat)
  | spawn (parent slot : Nat) (m : Message)
  deriving DecidableEq, Repr

/-- What a context keeps at a logical core (R336 to R339, R371, R278 to R281, R349). `holding` holds the updates of the
quantum being collected, of which `heldCount` have come, `late` those of later quanta, `mergeHeld` those that came
while a merge ran (R279, R282, R425). -/
structure CoreCtx where
  tags : Tab TagEntry
  spill : List Spilled
  spqBase : Word
  bounces : Nat
  grp : Tab Word
  sperr : Word
  sperra : Word
  dlog : Word
  logFull : Bool
  logCount : Nat
  holding : List Message
  late : List Message
  mergeHeld : List Message
  heldCount : Nat
  tidSeq : Nat
  updSeq : Nat
  quantumWords : Tab Nat
  quantumNo : Tab Nat
  ended : Tab Nat
  nodeCache : List Nat
  deriving DecidableEq, Repr

/-- Version state of a line that the directory does not hold: parked loads in arrival order (R58). -/
structure VParked where
  core : Nat
  slot : Nat
  id : Nat
  eq : Bool
  v : Nat
  region : Nat
  line : Nat
  deriving DecidableEq, Repr

/-- A region descriptor as the hives and version engines last loaded it (R50, R52). -/
structure Region where
  valid : Bool
  base : Nat
  closed : Bool
  floor : Nat
  lines : Nat
  dir : Nat
  held : Bool
  holder : Nat
  deriving DecidableEq, Repr

/-- A group as the hives last loaded it (R370), with the state that its owner keeps (R369, R348): the arrivals,
and the latest quantum in which one of them was committed (R426). -/
structure Group where
  valid : Bool
  ordered : Bool
  merge : Bool
  members : Nat
  bitmap : Nat
  quantum : Nat
  horizon : Nat
  arrivals : List (Nat × Word)
  arrQuantum : Nat
  qno : Nat
  collected : List (Nat × Request)
  deriving DecidableEq, Repr

/-- A context. `recUsed` lists the used heap records (frame × 2^24 + index) with the directory entry of their line; `sliceStart` and
`stopFrom` are the cycles from which its slice and its run limit count (R367, R368). -/
structure Ctx where
  installed : Bool
  resident : Bool
  stopping : Bool
  stopped : Bool
  code : Nat
  ptroot : Word
  vrbase : Word
  vhctl : Word
  releasing : List Nat
  frames : List Nat
  recUsed : List (Nat × Nat)
  vheapRaised : Bool
  regions : Tab Region
  vparked : List VParked
  rtab : Word
  nhbase : Word
  gtbase : Word
  groups : Tab Group
  age : Nat
  runlim : Nat
  slice : Nat
  sliceStart : Nat
  stopFrom : Nat
  detlvl : Nat
  svpool : Word
  svlow : Nat
  svUsed : List Nat
  lowPosted : Bool
  csvbase : Word
  trctl : Word
  trIndex : Nat
  debugRing : Option Nat
  debugIndex : Nat
  deriving DecidableEq, Repr

/-- A hive's shared parts: the fault ring (R383), its held faults oldest first, the
second-level TLB, its instruction cache with the victim storage in its idle lines (R78, R84), the invalidations that it has taken
and not finished (number, page size). `halted` is set when the hive's kernel executes `trap` (R184). -/
structure Hive where
  halted : Bool
  frbase : Word
  ovf : Bool
  cons : Nat
  prod : Nat
  heldFaults : List HeldFault
  tlb : List TlbEntry
  icache : List CacheLine
  victims : List TlbEntry
  inval : List (Nat × Nat)
  deriving DecidableEq, Repr

/-- A saved task (R392, R393): state, core, the task, its engine records, its fault when held, whether a
resume is pending, whether `eret` has named it, whether a slice expiry or a debugger saved it, and whether its wake fell together
with the save, so that it starts first among its priority (R377). -/
structure Saved where
  state : Nat
  core : Nat
  task : Task
  vq : List Cmd
  mq : List Cmd
  cq : List Cmd
  gp : List GetPut
  entry : RingEntry
  pending : Bool
  named : Bool
  sliced : Bool
  debug : Bool
  first : Bool
  deriving DecidableEq, Repr

/-- A device-scope invalidation that not every hive has finished (R80): its number, kind (0 page, 1 context, 2 all), operands, the
supervisor task that issued it, and the counter it names. -/
structure Inval where
  id : Nat
  kind : Nat
  va : Nat
  ctx : Nat
  tid : Nat
  cc : Nat
  deriving DecidableEq, Repr

/-- A host queue's launch in flight (R361, R362): its number, and when it opened no region the launched task's commit
ends it. -/
structure Flight where
  id : Nat
  queue : Nat
  ctx : Nat
  region : Nat
  w1 : Nat
  w2 : Word
  deriving DecidableEq, Repr

/-- A host queue's waiting (R361): whether a BARRIER or DETLEVEL waits at its head, the level gained by ageing, and the cycle from
which its period counts. -/
structure HostQ where
  waiting : Bool
  level : Nat
  waitFrom : Nat
  deriving DecidableEq, Repr

/-- A stack of HBM5 and its controller (R33 to R47): whether training has ended well or ill, the management port's mark, the
stack-loss record's tag of a lost stack, whether a retired one still answers with replay indications, the retirement threshold,
the corrected errors counted in the window under way (R33), the requests held under R42. -/
structure Stack where
  trained : Bool
  failed : Bool
  marked : Bool
  lost : Option Nat
  powered : Bool
  replaying : Bool
  thr : Nat
  corrected : Nat
  held : List HbmReq
  deriving DecidableEq, Repr

/-- The retirement machinery (R25 to R40). -/
structure Retire where
  phase : Nat
  active : Bool
  frame : Nat
  strip : Nat
  erec : Nat
  share : Nat
  stack : Nat
  refused : Bool
  rstate : Nat
  pend : Nat
  lostPend : Nat
  deriving DecidableEq, Repr

/-- A copy of the map (R36, R41): the broadcast it has taken, its phase, and the strip in motion that it knows. -/
structure MapCopy where
  version : Nat
  phase : Nat
  cursor : Option (Nat × Nat)
  deriving DecidableEq, Repr

/-- A fabric link (R407, R409). -/
structure LinkSt where
  failed : Bool
  laneFailures : Nat
  retries : Nat
  deriving DecidableEq, Repr

/-- What this device finds at a peer (R408): the bytes of its window that it serves, and the link record that tags what it does
not serve. -/
structure Peer where
  served : Nat
  tag : Nat
  deriving DecidableEq, Repr

/-- An answer that leaves the device for the host or for a peer that read its window (R405, R408): the bytes, the poison tag of their
lines, and whether the read returns poison because the window does not serve it. -/
structure Reply where
  toHost : Bool
  off : Nat
  bytes : List (BitVec 8)
  tag : Nat
  refused : Bool
  deriving DecidableEq, Repr

/-- What the environment and the device do next: a word of a core's scalar stream, a pending event by its place, or
an event from outside. -/
inductive Turn where
  | word (core : Nat)
  | pending (i : Nat)
  | event (e : Event)
  deriving DecidableEq, Repr

/-- The machine. -/
structure State where
  /-- Main memory by physical address: HBM5 frames, host memory, peer windows (R18). -/
  mem : Memory
  /-- Poison tags of lines of main memory, by PA div 64 (R20). -/
  lineTags : Tab Nat
  /-- Activation slots, keyed core × 8 + slot. -/
  tasks : Tab Task
  cores : Tab Core
  /-- Core images, installed or saved, keyed context × 8192 + core. -/
  spaces : Tab Space
  coreCtxs : Tab CoreCtx
  ctxs : Tab Ctx
  hives : Tab Hive
  /-- Saved tasks by handle (R392). -/
  saved : Tab Saved
  /-- Device registers and device-wide state. -/
  ret : Retire
  sset : List Nat
  hbm : Tab Stack
  mapCopies : Tab MapCopy
  outstanding : List HbmReq
  qtbase : Word
  queues : Tab HostQ
  flights : List Flight
  regionUse : List Nat
  rrQueue : Nat
  ctxres : Nat
  ctxresStatus : Nat
  erbase : Word
  erNext : Nat
  cmove : Word
  hostwin : Word
  devid : Nat
  pexp : Word
  stage : Nat
  /-- Whether the host link is trained, and whether every hive has passed its start test (R412). -/
  hostTrained : Bool
  tested : Bool
  slewHold : Bool
  slewLeft : Nat
  slewBudget : Nat
  links : Tab LinkSt
  routes : Tab (List Nat)
  peers : Tab Peer
  /-- Answers to reads of the host and of peers, newest last (R405, R408). -/
  replies : List Reply
  /-- Messages to other devices on their way: the device, and the cycle in which they arrive (R409). -/
  farOut : List (Nat × Nat)
  mailbox : List (List Word)
  mailboxLost : Nat
  machineErrors : List (Nat × Nat)
  failedCols : Tab (List Nat)
  mapVersion : Nat
  /-- Lines of the host's window whose back-invalidation awaits the host's acknowledgement, and those acknowledged whose write has not
  come (R406). -/
  backInvals : List Nat
  invalAcked : List Nat
  invals : List Inval
  invalDone : Tab (List Nat)
  announce : List Sc
  placed : List Sc
  /-- The number of the next waggle window that may announce (R289). -/
  window : Nat
  horizonReports : Tab (Option (Nat × Nat))
  /-- The nodes that commits have laid and that are not freed, by context and address, and their words, by context and address div 8,
  that were written in a way that R313 or R316 does not allow. -/
  nodeLines : List (Nat × Nat)
  netMarks : List (Nat × Nat)
  cyc : Nat
  /-- The model's own fields. `tick` counts steps and indexes the free values (log 4). -/
  tick : Nat
  /-- The core on which `exec` of a word acts (log 5). -/
  focus : Nat
  /-- The word that the focused core fetched, for the tumbler (log 11). -/
  ir : Nat
  /-- The next number for a load, a sequentially consistent operation, a launch, an invalidation or a `kst` place. -/
  nextId : Nat
  /-- What acts next, and the steps that the device owes in the order they arose (log 5). -/
  sched : List Turn
  pending : List Event
  deriving DecidableEq, Repr

/-- A free slot whose registers have never been written (log 3). -/
def Task.idle : Task :=
  { stat := .free, ctx := 0, tid := 0, prio := 0, entryPrio := 0, level := 0, since := 0, waitFrom := 0, super := false
    start := none, grp := none, pc := 0, g := [], q := [], v := [], m := [], a := [], cc := [], fstat := 0, velem := none
    loops := [], irc := 0, sched := [], late := [], blk := none, lastBlk := 0, lastSig := 0, wait := .none, commit := []
    undo := [], loads := [], spins := [], replayable := true, sect := none, inl := []
    spawns := 0, nodes := [], freed := [], taken := [], pushes := 0, rsig := 0, wsig := 0
    bulk := [], bps := [], bpPass := false, stopAsked := false, failedSteals := 0
    cycEnq := 0, cycStart := 0, engFault := none, passed := none, heads := none, dense := none }

def EngineQ.empty : EngineQ := { queue := [], held := [], started := [] }

def Core.idle : Core :=
  { running := none, installed := none, vq := .empty, mq := .empty, cq := .empty, gp := [], dir := []
    resident := none, sysQueue := [], relink := [], bounced := [], rules := [], rckey := 0, rcent := 0
    keys := [], pmc := [], tlbD := [], tlbI := [], victims := [], icache := [], term := [], merging := false
    breakQ := [] }

/-- A gate after reset (R94). -/
def Gate.zero : Gate := { count := 0, reload := 0, phase := false, cmd := false, ovf := false }

def STag.idle : STag := { state := 0, gate := 0, phase := false, tag := 0 }

/-- A scratchpad that nothing has written (R89). -/
def Space.empty : Space :=
  { present := false, bytes := [], written := [], tags := [], stags := [], gates := [], proj := []
    projTag := 0, deque := { ranges := [], reserved := 0 }, links := [], cursors := none }

/-- A route tag that nothing binds (R336). -/
def TagEntry.off : TagEntry :=
  { entry := 0, en := false, prio := 0, bound := false, pend := false, grp := 0 }

def CoreCtx.empty : CoreCtx :=
  { tags := [], spill := [], spqBase := 0, bounces := 0, grp := [], sperr := 0, sperra := 0, dlog := 0
    logFull := false, logCount := 0, holding := [], late := [], mergeHeld := [], heldCount := 0, tidSeq := 0, updSeq := 0
    quantumWords := [], quantumNo := [], ended := [], nodeCache := [] }

def Region.invalid : Region :=
  { valid := false, base := 0, closed := false, floor := 0, lines := 0, dir := 0, held := false
    holder := 0 }

def Group.invalid : Group :=
  { valid := false, ordered := false, merge := false, members := 0, bitmap := 0, quantum := 0
    horizon := 0, arrivals := [], arrQuantum := 0, qno := 0, collected := [] }

/-- A context nothing has installed, its registers at their reset values (R364, R367). -/
def Ctx.absent : Ctx :=
  { installed := false, resident := false, stopping := false, stopped := false, code := 0, ptroot := 0
    vrbase := 0, vhctl := 0, releasing := [], frames := [], recUsed := []
    vheapRaised := false, regions := [], vparked := [], rtab := 0, nhbase := 0, gtbase := 0, groups := []
    age := 100, runlim := 100, slice := 2000, sliceStart := 0, stopFrom := 0, detlvl := 0, svpool := 0, svlow := 0
    svUsed := [], lowPosted := false, csvbase := 0, trctl := 0, trIndex := 0, debugRing := none
    debugIndex := 0 }

def Hive.idle : Hive :=
  { halted := false, frbase := 0, ovf := false, cons := 0, prod := 0, heldFaults := [], tlb := []
    icache := [], victims := [], inval := [] }

def Saved.empty : Saved :=
  { state := 0, core := 0, task := .idle, vq := [], mq := [], cq := [], gp := [], entry := []
    pending := false, named := false, sliced := false, debug := false, first := false }

def HostQ.idle : HostQ := { waiting := false, level := 0, waitFrom := 0 }

/-- A stack before power is good (R33, R46). -/
def Stack.off : Stack :=
  { trained := false, failed := false, marked := false, lost := none, powered := false
    replaying := false, thr := 4096, corrected := 0, held := [] }

def MapCopy.none : MapCopy := { version := 0, phase := 0, cursor := Option.none }

def LinkSt.fresh : LinkSt := { failed := false, laneFailures := 0, retries := 0 }

def Peer.none : Peer := { served := 0, tag := 0 }

def Pmc.zero : Pmc := { event := 0, count := 0, ovf := false, lost := false, pending := false }

def TermRec.idle : TermRec := { engaged := false, parent := 0, out := 0 }

/-- The machine right after a cold reset. -/
def State.reset : State :=
  { mem := [], lineTags := [], tasks := [], cores := [], spaces := [], coreCtxs := [], ctxs := []
    hives := [], saved := []
    ret := { phase := 0, active := false, frame := 0, strip := 0, erec := 0, share := 20, stack := 0
             refused := false, rstate := 0, pend := 0, lostPend := 0 }
    sset := [], hbm := [], mapCopies := [], outstanding := [], qtbase := 0, queues := []
    flights := [], regionUse := [], rrQueue := 0, ctxres := 0, ctxresStatus := 0, erbase := 0, erNext := 1
    cmove := 0, hostwin := 0, devid := 0, pexp := 0, stage := 0, hostTrained := false, tested := false, slewHold := false, slewLeft := 0
    slewBudget := 0, links := [], routes := [], peers := [], replies := [], farOut := []
    mailbox := [], mailboxLost := 0, machineErrors := [], failedCols := [], mapVersion := 0
    backInvals := [], invalAcked := [], invals := [], invalDone := [], announce := [], placed := [], window := 0
    horizonReports := [], nodeLines := [], netMarks := [], cyc := 0, tick := 0, focus := 0, ir := 0, nextId := 1, sched := []
    pending := [] }

end Sys2Proof.Machine
end

