-- ==== Sys2Proof/Machine/Mem.lean ====
section
/-! DEFINITION. Reading and writing the parts of the state: tables, main memory with its poison tags,
scratchpads with their slots, and address translation. -/

namespace Sys2Proof.Machine

open Sys2Proof.Machine.Num

/-! ### Tables -/

namespace State

def core (s : State) (c : Nat) : Core := Tab.get .idle s.cores c
def setCore (s : State) (c : Nat) (v : Core) : State := { s with cores := Tab.set .idle s.cores c v }
def modCore (s : State) (c : Nat) (f : Core → Core) : State := s.setCore c (f (s.core c))

/-- The task of slot `k mod 8` of core `k div 8`. -/
def task (s : State) (k : Nat) : Task := Tab.get .idle s.tasks k
def setTask (s : State) (k : Nat) (t : Task) : State := { s with tasks := Tab.set .idle s.tasks k t }
def modTask (s : State) (k : Nat) (f : Task → Task) : State := s.setTask k (f (s.task k))

/-- Key of what a context keeps at a core. -/
def key (ctx core : Nat) : Nat := ctx * 8192 + core

def space (s : State) (ctx core : Nat) : Space := Tab.get .empty s.spaces (key ctx core)
def setSpace (s : State) (ctx core : Nat) (v : Space) : State :=
  { s with spaces := Tab.set .empty s.spaces (key ctx core) v }
def modSpace (s : State) (ctx core : Nat) (f : Space → Space) : State :=
  s.setSpace ctx core (f (s.space ctx core))

def cc (s : State) (ctx core : Nat) : CoreCtx := Tab.get .empty s.coreCtxs (key ctx core)
def modCc (s : State) (ctx core : Nat) (f : CoreCtx → CoreCtx) : State :=
  { s with coreCtxs := Tab.set .empty s.coreCtxs (key ctx core) (f (s.cc ctx core)) }

def ctx (s : State) (c : Nat) : Ctx := Tab.get .absent s.ctxs c
def modCtx (s : State) (c : Nat) (f : Ctx → Ctx) : State :=
  { s with ctxs := Tab.set .absent s.ctxs c (f (s.ctx c)) }

def hive (s : State) (h : Nat) : Hive := Tab.get .idle s.hives h
def modHive (s : State) (h : Nat) (f : Hive → Hive) : State :=
  { s with hives := Tab.set .idle s.hives h (f (s.hive h)) }

def stack (s : State) (n : Nat) : Stack := Tab.get .off s.hbm n
def modStack (s : State) (n : Nat) (f : Stack → Stack) : State :=
  { s with hbm := Tab.set .off s.hbm n (f (s.stack n)) }

/-- Adds an event to those waiting to happen. -/
def push (s : State) (e : Event) : State := { s with pending := s.pending ++ [e] }

/-- A number nothing else has. -/
def fresh (s : State) : Nat × State := (s.nextId, { s with nextId := s.nextId + 1 })

end State

/-! ### Cores and hives (R84) -/

def colOf (c : Nat) : Nat := c % 64
def rowOf (c : Nat) : Nat := c / 64
def coreAt (col row : Nat) : Nat := row * 64 + col

/-- The hive of a core. -/
def hiveOf (c : Nat) : Nat := rowOf c / 4 * 16 + colOf c / 4

/-- The core's index within its hive. -/
def localOf (c : Nat) : Nat := rowOf c % 4 * 4 + colOf c % 4

/-- Core h of a hive. -/
def hiveCore (hive h : Nat) : Nat := coreAt (hive % 16 * 4 + h % 4) (hive / 16 * 4 + h / 4)

/-- The neighbour on a port, none at the edge of the mesh (R116). -/
def neighbour (c : Nat) : Dir → Option Nat
  | .n => if rowOf c = 0 then none else some (coreAt (colOf c) (rowOf c - 1))
  | .s => if rowOf c = 127 then none else some (coreAt (colOf c) (rowOf c + 1))
  | .e => if colOf c = 63 then none else some (coreAt (colOf c + 1) (rowOf c))
  | .w => if colOf c = 0 then none else some (coreAt (colOf c - 1) (rowOf c))

def dirCode : Dir → Nat
  | .n => 0 | .e => 1 | .s => 2 | .w => 3

/-- The inbound port of the neighbour that a write to a port lands in (R116). -/
def dirOpposite : Dir → Dir
  | .n => .s | .s => .n | .e => .w | .w => .e

/-! ### Physical memory (R18 to R20) -/

/-- The parts of the physical address space (R18). -/
inductive PaKind where
  | hbm
  | aperture (core off : Nat)
  | registers
  | host
  | peer
  | reserved
  deriving DecidableEq, Repr

def paKind (pa : Nat) : PaKind :=
  if pa < 0x10000000000 then .hbm
  else if pa < 0x10080000000 then .aperture ((pa - 0x10000000000) / 0x40000) (pa % 0x40000)
  else if 0x20000000000 ≤ pa ∧ pa < 0x20100000000 then .registers
  else if 0x400000000000 ≤ pa ∧ pa < 0x800000000000 then .host
  else if 0x800000000000 ≤ pa ∧ pa < 0x1000000000000 then .peer
  else .reserved

/-- The physical address of a byte of a core's scratchpad in the aperture (R18). -/
def aperturePa (core off : Nat) : Nat := 0x10000000000 + core * 0x40000 + off

/-- ⌈L/S⌉ for L = 2^21 (R21). -/
def rowsPerFrame (n : Nat) : Nat := (2097152 + n - 1) / n

/-- Usable frames for a number of stacks (R23); none before stacks are in service (R46). -/
def capacity (n : Nat) : Nat := if n = 0 then 0 else 134217728 / rowsPerFrame n

/-- MCAP.frames. -/
def State.mcap (s : State) : Nat := capacity s.sset.length

/-- MCAPNEXT.frames (R26): the capacity with one stack less while a retirement is announced or in progress. -/
def State.mcapNext (s : State) : Nat := if s.ret.rstate = 0 then 0 else capacity (s.sset.length - 1)

/-- Frames that an access may name: from the acknowledgement of a retirement on, those below MCAPNEXT (R35). -/
def State.usableFrames (s : State) : Nat := if 2 ≤ s.ret.rstate then s.mcapNext else s.mcap

/-- The device of a peer window address, and the offset there (R18). -/
def peerOf (pa : Nat) : Nat := pa / 2 ^ 32 % 2 ^ 15

/-- Whether an access to a physical address raises no capacity fault (R19, R35, R408). -/
def State.paOk (s : State) (pa : Nat) : Bool :=
  match paKind pa with
  | .hbm => decide (pa / 2 ^ 30 < s.usableFrames)
  | .reserved => false
  | .peer => Tab.get [] s.routes (peerOf pa) != []
  | _ => true

/-- The stack of a granule under a list of surviving stacks (R21). -/
def placeOn (l : List Nat) (pa : Nat) : Nat :=
  let n := l.length
  let g := pa / 512 % 2 ^ 21
  let x := g / n
  l.getD ((g % n + (x % 64 + x / 64 % 64 + x / 4096 % 64) % n) % n) 0

/-- Whether the strip of an address has already moved to the new map (R41); a strip is 2 MiB. -/
def State.stripMoved (s : State) (pa : Nat) : Bool :=
  s.ret.active && decide (s.ret.frame * 512 + s.ret.strip < pa / 2 ^ 21)

/-- Whether a line is read by the migration engines now: in the strip in motion. -/
def State.inMotion (s : State) (pa : Nat) : Bool :=
  s.ret.active && s.ret.rstate == 2 && pa / 2 ^ 21 == s.ret.frame * 512 + s.ret.strip && decide (pa < 2 ^ 40)

/-- The stack on which a granule stands now. -/
def State.stackOf (s : State) (pa : Nat) : Nat :=
  placeOn (if s.stripMoved pa then s.sset.filter (· != s.ret.stack) else s.sset) pa

/-- The stack-loss tag of a granule on a lost stack (R39), else 0. -/
def State.lossTag (s : State) (pa : Nat) : Nat :=
  if s.hbm.all (fun p => p.2.lost.isNone) || decide (2 ^ 40 ≤ pa) then 0
  else (s.stack (s.stackOf pa)).lost.getD 0

/-- Whether a peer serves an address of its window (R408). -/
def State.peerServes (s : State) (pa : Nat) : Bool :=
  Tab.get [] s.routes (peerOf pa) != [] && decide (pa % 2 ^ 32 < (Tab.get Peer.none s.peers (peerOf pa)).served)

/-- One byte of main memory. -/
def State.byte (s : State) (pa : Nat) : Byte := Tab.get Memory.unlisted s.mem pa

/-- The bytes of a list of consecutive addresses. -/
def readList (f : Nat → Byte) : Nat → Nat → List Byte
  | _, 0 => []
  | a, n + 1 => f a :: readList f (a + 1) n

/-- The cells of consecutive bytes that differ from what an unlisted address reads as. -/
def cellsOf : Nat → List Byte → Memory
  | _, [] => []
  | a, b :: rest =>
    if b = Memory.unlisted then cellsOf (a + 1) rest else (a, b) :: cellsOf (a + 1) rest

/-- Replaces the cells of addresses `a` to `a + n − 1` by `cells`, which lie there. -/
def splice (m : Memory) (a n : Nat) (cells : Memory) : Memory :=
  m.filter (fun p => decide (p.1 < a)) ++ cells ++ m.filter (fun p => decide (a + n ≤ p.1))

/-- Writes consecutive bytes of a memory. -/
def writeList (m : Memory) (a : Nat) (bs : List Byte) : Memory :=
  splice m a bs.length (cellsOf a bs)

/-- `n` bytes of main memory. -/
def State.bytes (s : State) (pa n : Nat) : List Byte := readList s.byte pa n

/-! ### Region descriptors and group entries (R48, R369) -/

/-- The physical address of a region descriptor. -/
def Ctx.descAt (c : Ctx) (r : Nat) : Nat := c.vrbase.toNat / 2 ^ 12 % 2 ^ 28 * 4096 + r * 32

/-- The physical address of a group's entry (R369). -/
def Ctx.groupAt (c : Ctx) (g : Nat) : Nat := c.gtbase.toNat / 2 ^ 14 % 2 ^ 26 * 2 ^ 14 + g * 64

/-- An entry that software may not write while it is valid (R52, R370): its address, its length, and the byte and the bit that hold
valid. -/
structure Guard where
  at' : Nat
  len : Nat
  byte : Nat
  bit : Nat

/-- The descriptors and group entries that the device holds as valid. -/
def State.guards (s : State) : List Guard :=
  s.ctxs.flatMap (fun (p : Nat × Ctx) =>
    (p.2.regions.filter (fun x => x.2.valid)).map (fun x => ⟨p.2.descAt x.1, 32, p.2.descAt x.1, 0⟩)
    ++ (p.2.groups.filter (fun x => x.2.valid)).map (fun x => ⟨p.2.groupAt x.1, 64, p.2.groupAt x.1 + 7, 7⟩))

/-- The valid entry that a write of `bs` at `pa` changes and leaves valid, which R52 and R370 forbid; `look` gives the bytes before the
write. -/
def State.entryBroken (s : State) (look : Nat → Byte) (pa : Nat) (bs : List Byte) : Option Nat :=
  (s.guards.find? (fun g =>
    decide (pa < g.at' + g.len) && decide (g.at' < pa + bs.length) && (look g.byte).getLsbD g.bit &&
      (if pa ≤ g.byte then (bs.getD (g.byte - pa) (look g.byte)).getLsbD g.bit else true))).map (·.at')

/-- A little-endian number of `n` bytes of main memory (R12). -/
def State.num (s : State) (pa n : Nat) : Nat := ofBytes (s.bytes pa n)

/-- A 64-bit word of main memory. -/
def State.word (s : State) (pa : Nat) : Word := BitVec.ofNat 64 (s.num pa 8)

/-- The poison tag of a line of main memory: that of its metadata, or the stack-loss tag of a line on a lost stack. -/
def State.lineTag (s : State) (pa : Nat) : Nat :=
  let g := s.lossTag (pa / 64 * 64)
  if g = 0 then Tab.get 0 s.lineTags (pa / 64) else g

/-- The lowest nonzero tag of the lines that `n` bytes touch; `first` is a line number. -/
def tagsOf (f : Nat → Nat) : Nat → Nat → Nat
  | _, 0 => 0
  | l, k + 1 => minTag (f l) (tagsOf f (l + 1) k)

/-- How many lines `n` bytes at `a` touch. -/
def linesOf (a n : Nat) : Nat := if n = 0 then 0 else (a + n - 1) / 64 - a / 64 + 1

def State.tagAt (s : State) (pa n : Nat) : Nat :=
  tagsOf (fun l => s.lineTag (l * 64)) (pa / 64) (linesOf pa n)

/-- The tags of lines after a write of `n` bytes at `a` with tag `tag` (R387): a line that the write fills takes the tag,
another the lowest nonzero of its own and the tag. -/
def writeTags (t : Tab Nat) (a n tag : Nat) : Nat → Nat → Tab Nat
  | _, 0 => t
  | l, k + 1 =>
    let t' := writeTags t a n tag (l + 1) k
    let full := decide (a ≤ l * 64) && decide (l * 64 + 64 ≤ a + n)
    Tab.set 0 t' l (if full then tag else minTag (Tab.get 0 t' l) tag)

/-- Adds `n` lines to what error record `tag` counts, saturating (R386). -/
def State.countPoison (s : State) (tag n : Nat) : State :=
  if tag = 0 ∨ tag = 0xFFF ∨ !s.erbase.getLsbD 16 then s
  else
    let at' := s.erbase.toNat / 2 ^ 17 % 2 ^ 23 * 2 ^ 17 + tag * 32
    let c := Nat.min (s.num at' 4 + n) 0xFFFFFFFF
    { s with mem := writeList s.mem at' (bytesOf 4 c) }

/-- Stores bytes and their tag. -/
def State.putMem (s : State) (pa : Nat) (bs : List Byte) (tag : Nat) : State :=
  let s := { s with
    mem := writeList s.mem pa bs
    lineTags := writeTags s.lineTags pa bs.length tag (pa / 64) (linesOf pa bs.length) }
  s.countPoison tag (linesOf pa bs.length)

/-- Splits bytes into the parts that lie in one 64-byte line each; `fuel` bounds the parts. -/
def lineChunks {α : Type} : Nat → Nat → List α → List (Nat × List α)
  | 0, _, _ => []
  | _, _, [] => []
  | fuel + 1, a, l =>
    let n := 64 - a % 64
    (a, l.take n) :: lineChunks fuel (a + n) (l.drop n)

def chunks {α : Type} (a : Nat) (l : List α) : List (Nat × List α) := lineChunks (l.length / 64 + 2) a l

/-- Writes bytes and their tag to main memory; a write to a granule of a lost stack is dropped (R39, R40). -/
def State.writeMem (s : State) (pa : Nat) (bs : List Byte) (tag : Nat) : State :=
  if s.hbm.all (fun p => p.2.lost.isNone) then s.putMem pa bs tag
  else (chunks pa bs).foldl (fun s c => if s.lossTag c.1 = 0 then s.putMem c.1 c.2 tag else s) s

/-- Writes a 64-bit word. -/
def State.writeWord (s : State) (pa : Nat) (w : Word) : State :=
  s.writeMem pa (bytesOf 8 w.toNat) 0

/-- Writes consecutive 64-bit words. -/
def State.writeWords (s : State) (pa : Nat) : List Word → State
  | [] => s
  | w :: rest => (s.writeWord pa w).writeWords (pa + 8) rest

/-! ### Scratchpads (R85 to R92) -/

/-- The size of a scratchpad. -/
def spadBytes : Nat := 0x40000

/-- Where a scratchpad address of a core reaches (R85). -/
def spadTarget (core addr : Nat) : Option (Nat × Nat) :=
  if addr < 0x40000 then some (core, addr)
  else if 0x400000 ≤ addr ∧ addr < 0x800000 then
    some (hiveCore (hiveOf core) (addr / 0x40000 % 16), addr % 0x40000)
  else none

/-- Where byte `i` of an access at `addr` reaches: within the target of its first byte, or, when the first byte
is out of range, by its own address (R87). -/
def spadByte (core addr i : Nat) : Option (Nat × Nat) :=
  match spadTarget core addr with
  | some (c, off) => if off + i < spadBytes then some (c, off + i) else none
  | none => spadTarget core (addr + i)

/-- A byte of a scratchpad: zero on a line whose written bit is 0 (R89). -/
def Space.byte (sp : Space) (off : Nat) : Byte :=
  if Tab.get false sp.written (off / 64) then Tab.get Memory.unlisted sp.bytes off else 0

/-- The tag of a scratchpad line. -/
def Space.lineTag (sp : Space) (line : Nat) : Nat :=
  if Tab.get false sp.written line then Tab.get 0 sp.tags line else 0

def Space.stag (sp : Space) (slot : Nat) : STag := Tab.get .idle sp.stags slot

/-- Clears the written bits of a slot, and with them its bytes and tags (R89). -/
def Space.clearSlot (sp : Space) (slot : Nat) : Space :=
  { sp with
    bytes := sp.bytes.filter (fun p => p.1 / 1024 != slot)
    written := sp.written.filter (fun p => p.1 / 16 != slot)
    tags := sp.tags.filter (fun p => p.1 / 16 != slot) }

/-- A write into an idle slot makes it plain, its written bits cleared before the write lands (R91). -/
def Space.claim (sp : Space) (slot : Nat) : Space :=
  if (sp.stag slot).state = 0 then
    let sp' := sp.clearSlot slot
    { sp' with stags := Tab.set .idle sp'.stags slot { state := 3, gate := 0, phase := false, tag := 0 } }
  else sp

/-- Marks lines as written. -/
def markWritten (t : Tab Bool) : Nat → Nat → Tab Bool
  | _, 0 => t
  | l, k + 1 => Tab.set false (markWritten t (l + 1) k) l true

/-- The slots that `n` bytes at `off` touch. -/
def slotsOf (off n : Nat) : List Nat :=
  if n = 0 then [] else (List.range ((off + n - 1) / 1024 - off / 1024 + 1)).map (· + off / 1024)

/-- Writes bytes below the end of the scratchpad; idle slots are claimed first (R91). -/
def Space.writeBytes (sp : Space) (off : Nat) (bs : List Byte) : Space :=
  let sp := (slotsOf off bs.length).foldl Space.claim sp
  { sp with
    bytes := writeList sp.bytes off bs
    written := markWritten sp.written (off / 64) (linesOf off bs.length) }

/-- Writes bytes with their tag (R387). -/
def Space.write (sp : Space) (off : Nat) (bs : List Byte) (tag : Nat) : Space :=
  let sp := sp.writeBytes off bs
  { sp with tags := writeTags sp.tags off bs.length tag (off / 64) (linesOf off bs.length) }

/-- Victim storage lent by a slot is dropped when the slot is claimed (R78). -/
def State.dropVictims (s : State) (core slot : Nat) : State :=
  s.modCore core (fun c => { c with victims := c.victims.filter (fun p => p.1 != slot) })

/-- The context whose scratchpad the aperture and the memory port reach on a core; when none is installed, the physical
scratchpad as it stands, kept under key 4,096 (R85). -/
def State.installedCtx (s : State) (core : Nat) : Nat := (s.core core).installed.getD 4096

/-- Reads scratchpad bytes of a context on a core. -/
def State.spadRead (s : State) (ctx core off n : Nat) : List Byte :=
  readList (s.space ctx core).byte off n

def State.spadTag (s : State) (ctx core off n : Nat) : Nat :=
  tagsOf (s.space ctx core).lineTag (off / 64) (linesOf off n)

/-- What a task waits for while it is parked, in its slot or saved, also while its save waits for an area (R366, R377, R392). -/
def TStat.parkedOn : TStat → Option Park
  | .parked p => some p
  | .saving (.evict p) => some p
  | .saving (.preempt p _) => p
  | _ => none

/-- Whether a task polls a line that `n` bytes at `pa` touch (R309). -/
def Task.polls (t : Task) (pa n : Nat) : Bool :=
  match t.stat.parkedOn with
  | some (.spin line _) => decide (pa / 64 ≤ line) && decide (line < pa / 64 + linesOf pa n)
  | _ => false

/-- A saved task whose wake has come is ready; one that was evicted returns to its core (R60, R377). -/
def Saved.awake (r : Saved) : Saved :=
  { r with task := { r.task with stat := .ready }, pending := r.pending || !r.sliced }

/-- Wakes the saved tasks that `f` picks. -/
def State.wakeSaved (s : State) (f : Task → Bool) : State :=
  let hit := s.saved.filter (fun p => f p.2.task)
  if hit = [] then s
  else
    hit.foldl (fun s p => s.push (.spillWake p.2.task.ctx p.2.core))
      { s with saved := s.saved.map (fun (p : Nat × Saved) => if f p.2.task then (p.1, p.2.awake) else p) }

/-- A write to a polled line wakes the tasks that poll it, in a slot by an event, saved as ready (R309, R377). -/
def State.wakeSpins (s : State) (pa n : Nat) : State :=
  let s := s.tasks.foldl (fun s (p : Nat × Task) => if p.2.polls pa n then s.push (.spinWake (p.1 / 8) (p.1 % 8)) else s) s
  s.wakeSaved (fun t => t.polls pa n)

/-- Writes scratchpad bytes of a context on a core; claimed idle slots drop their victim entries, lines written as poison count in
their error record (R386), and tasks that poll the lines through the aperture wake. -/
def State.spadWrite (s : State) (ctx core off : Nat) (bs : List Byte) (tag : Nat) : State :=
  let s := s.modSpace ctx core (fun sp => sp.write off bs tag)
  let s := (slotsOf off bs.length).foldl (fun s sl => s.dropVictims core sl) s
  let s := s.countPoison tag (linesOf off bs.length)
  if ctx = s.installedCtx core then s.wakeSpins (aperturePa core off) bs.length else s

/-- Whether any slot that an access touches is filling (R92). -/
def State.filling (s : State) (ctx core off n : Nat) : Bool :=
  (slotsOf off n).any (fun sl => ((s.space ctx core).stag sl).state == 1)

/-- Whether a store that waits at a target's memory port, before place `place` of their order, reaches these bytes (R292). -/
def State.portBehind (s : State) (target off n : Nat) (place : Option Nat) : Bool :=
  s.pending.any (fun e => match e with
    | .memoryPortAccess _ t a (some (bs, _, p)) _ =>
      t == target && decide (off < a + bs.length) && decide (a < off + n)
        && (match place with | some q => decide (p < q) | none => true)
    | _ => false)

/-- Whether a physical address lies in the host range while CXL.cache does not work yet: before stage C (R412). -/
def State.cacheWaits (s : State) (pa : Nat) : Bool := paKind pa == .host && decide (s.stage < 3)

/-- Whether a piece of physical memory lies in the scratchpad aperture over a filling slot, which holds back every access of
the memory port (R92, log 103), or over bytes that a committed store still waits to reach (R293, R295), or in the host range before
stage C (R412). -/
def State.portHeld (s : State) (parts : List (Nat × Nat)) : Bool :=
  parts.any (fun p => match paKind p.1 with
    | .aperture c off => s.filling (s.installedCtx c) c off p.2 || s.portBehind c off p.2 none
    | _ => s.cacheWaits p.1)

/-- Whether an undo log holds a line that `n` bytes at `off` touch. -/
def Task.undoes (t : Task) (off n : Nat) : Bool :=
  t.undo.any (fun u => decide (off / 64 ≤ u.line) && decide (u.line < off / 64 + linesOf off n))

/-- Another core's memory-port access to a line held in an undo log makes its task non-replayable, in its slot or saved (R297). -/
def State.portSeen (s : State) (core off n : Nat) : State :=
  let here (ctx : Nat) : Bool := some ctx == (s.core core).installed
  let s := (List.range 8).foldl
    (fun (s : State) i =>
      let k := core * 8 + i
      let t := s.task k
      if t.stat != .free && here t.ctx && t.undoes off n then s.setTask k { t with replayable := false } else s) s
  { s with
    saved := s.saved.map (fun (p : Nat × Saved) =>
      if p.2.core == core && here p.2.task.ctx && p.2.task.undoes off n then
        (p.1, { p.2 with task := { p.2.task with replayable := false } })
      else p) }

/-- Records an out-of-range access (R88): unit, whether a write, lowest offending address. -/
def State.spErr (s : State) (ctx core unit : Nat) (write : Bool) (addr : Nat) : State :=
  s.modCc ctx core (fun c =>
    if c.sperr.getLsbD 63 then
      let n := c.sperr.toNat % 0x8000
      if n < 0x7FFF then { c with sperr := c.sperr + 1 } else c
    else
      { c with
        sperr := BitVec.ofNat 64 (2 ^ 63 + unit * 2 ^ 16 + (if write then 2 ^ 15 else 0) + 1)
        sperra := BitVec.ofNat 64 (addr % 2 ^ 23) })

/-- The first byte of an access of `n` bytes that is out of range. -/
def firstBad (core addr : Nat) : Nat → Nat → Option Nat
  | _, 0 => none
  | i, k + 1 => if (spadByte core addr i).isNone then some (addr + i) else firstBad core addr (i + 1) k

/-- Byte `i` of an access at an address of a core, zero out of range (R85, R87). -/
def State.spadByteAt (s : State) (ctx core addr i : Nat) : Byte :=
  match spadByte core addr i with
  | some (c, off) => (s.space (if c = core then ctx else s.installedCtx c) c).byte off
  | none => 0

/-- The tag of the line of byte `i` of an access. -/
def State.spadTagAt (s : State) (ctx core addr i : Nat) : Nat :=
  match spadByte core addr i with
  | some (c, off) => (s.space (if c = core then ctx else s.installedCtx c) c).lineTag (off / 64)
  | none => 0

/-- The lowest nonzero tag of bytes `i` to `i + n − 1` of an access. -/
def State.spadTagOf (s : State) (ctx core addr i n : Nat) : Nat :=
  (List.range n).foldl (fun t j => minTag t (s.spadTagAt ctx core addr (i + j))) 0

/-- Reads `n` bytes of scratchpad space at an address of a core, byte by byte (R85, R87): the bytes, the lowest tag,
and the state with SPERR and what the memory port saw. -/
def State.spadSpaceRead (s : State) (ctx core unit addr n : Nat) : List Byte × Nat × State :=
  let bs := (List.range n).map (s.spadByteAt ctx core addr)
  let tag := s.spadTagOf ctx core addr 0 n
  let s := match firstBad core addr 0 n with
    | some a => s.spErr ctx core unit false a
    | none => s
  let s := match spadTarget core addr with
    | some (c, off) => if c = core then s else s.portSeen c off n
    | none => s
  (bs, tag, s)

/-- The longest runs of bytes that land: (core, offset, bytes). -/
def runsOf (core addr : Nat) : Nat → List Byte → List (Nat × Nat × List Byte)
  | _, [] => []
  | i, b :: rest =>
    let more := runsOf core addr (i + 1) rest
    match spadByte core addr i with
    | none => more
    | some (c, off) =>
      match more with
      | (c', off', bs) :: tl =>
        if c' = c ∧ off' = off + 1 then (c, off, b :: bs) :: tl else (c, off, [b]) :: more
      | [] => [(c, off, [b])]

/-- Writes bytes to scratchpad space; bytes out of range are dropped (R87). -/
def State.spadSpaceWrite (s : State) (ctx core unit addr : Nat) (bs : List Byte) (tag : Nat) : State :=
  let s := match firstBad core addr 0 bs.length with
    | some a => s.spErr ctx core unit true a
    | none => s
  (runsOf core addr 0 bs).foldl
    (fun s (r : Nat × Nat × List Byte) =>
      let c := r.1
      if c = core then s.spadWrite ctx core r.2.1 r.2.2 tag
      else ((s.portSeen c r.2.1 r.2.2.length)).spadWrite (s.installedCtx c) c r.2.1 r.2.2 tag) s

/-- Reads physical memory anywhere but the device registers: HBM5, host, peers, or a scratchpad
through the aperture. -/
def State.physByte (s : State) (pa : Nat) : Byte :=
  match paKind pa with
  | .aperture c off => (s.space (s.installedCtx c) c).byte off
  | .registers => Config.deviceRegister s.tick pa
  | _ => s.byte pa

def State.physRead (s : State) (pa n : Nat) : List Byte := readList s.physByte pa n

def State.physTag (s : State) (pa n : Nat) : Nat :=
  match paKind pa with
  | .aperture c off => s.spadTag (s.installedCtx c) c off n
  | .peer =>
    if s.peerServes pa then s.tagAt pa n
    else (let g := (Tab.get Peer.none s.peers (peerOf pa)).tag; if g = 0 then 0xFFF else g)
  | _ => s.tagAt pa n

/-- Writes physical memory, `by'` naming the core that writes; the device register space keeps nothing (its offsets are not given).
An access through the aperture is seen by the tasks of another core than the writer's (R297). -/
def State.physWriteBy (s : State) (by' : Option Nat) (pa : Nat) (bs : List Byte) (tag : Nat) : State :=
  match paKind pa with
  | .aperture c off =>
    (if by' = some c then s else s.portSeen c off bs.length).spadWrite (s.installedCtx c) c off bs tag
  | .registers | .reserved => s
  | .peer => if s.peerServes pa then s.writeMem pa bs tag else s
  | _ => s.writeMem pa bs tag

/-- Writes physical memory for no core of the device in particular. -/
def State.physWrite (s : State) (pa : Nat) (bs : List Byte) (tag : Nat) : State := s.physWriteBy none pa bs tag

/-! ### Translation (R70 to R82) -/

/-- Fields of a page-table entry (R72). -/
def pteValid (e : Nat) : Bool := e % 2 == 1
def pteR (e : Nat) : Bool := e / 2 % 2 == 1
def pteW (e : Nat) : Bool := e / 4 % 2 == 1
def pteX (e : Nat) : Bool := e / 8 % 2 == 1
def pteSup (e : Nat) : Bool := e / 16 % 2 == 1
def pteVers (e : Nat) : Bool := e / 32 % 2 == 1
def pteKey (e : Nat) : Bool := e / 64 % 2 == 1
def pteSize (e : Nat) : Nat := e / 128 % 4
def pteMig (e : Nat) : Bool := e / 512 % 2 == 1
def pteHome (e : Nat) : Nat := e / 1024 % 4
def pteAddr (e : Nat) : Nat := e / 4096 % 2 ^ 36 * 4096
def pteRegion (e : Nat) : Nat := e / 2 ^ 52
def pteReserved (e : Nat) : Nat := e / 2 ^ 48 % 16

/-- What a walk finds (R72, R73, R79). -/
inductive Walk where
  | leaf (e level shift : Nat)
  | invalid (level : Nat)
  | fault
  deriving DecidableEq, Repr

/-- Whether the 16 leaves of a 64 KiB hint agree (R73): same attributes, contiguous aligned addresses. -/
def State.hintAgrees (s : State) (table idx e : Nat) : Bool :=
  let first := idx / 16 * 16
  let base := pteAddr e - (idx - first) * 4096
  base % 65536 == 0 && (List.range 16).all (fun i =>
    let x := s.num (table + (first + i) * 8) 8
    pteValid x && pteAddr x == base + i * 4096 && x % 4096 == e % 4096 && pteRegion x == pteRegion e
      && pteReserved x == 0)

/-- The walk from a level's table down (R70, R73): `level` tables remain. A pointer entry whose fields [63:52] or [11:1] are not
zero, and a malformed leaf that also has mig = 1, end the walk with the translation fault (R72, R82; DEDUCED, log 109). The tags of the
lines of page tables play no part: a walk uses the bytes that it reads (DESIGN CHOICE, log 135). -/
def State.walkFrom (s : State) (va : Nat) : Nat → Nat → Walk
  | 0, _ => .fault
  | level + 1, table =>
    let idx := va / 2 ^ (12 + 9 * level) % 512
    let e := s.num (table + idx * 8) 8
    let sz := pteSize e
    if !pteValid e then .invalid (level + 1)
    else if pteReserved e ≠ 0 then .fault
    else if level = 0 then
      if sz ≥ 2 ∨ pteHome e = 3 then .fault
      else .leaf e 1 (if sz = 1 ∧ s.hintAgrees table idx e then 16 else 12)
    else if sz = 0 then
      if pteRegion e ≠ 0 ∨ e / 2 % 2 ^ 11 ≠ 0 ∨ !s.paOk (pteAddr e) then .fault
      else s.walkFrom va level (pteAddr e)
    else if (level = 1 ∧ sz = 2) ∨ (level = 2 ∧ sz = 3) then
      let shift := 12 + 9 * level
      if pteAddr e % 2 ^ shift ≠ 0 ∨ pteHome e = 3 ∨ !s.paOk (pteAddr e) then .fault
      else .leaf e (level + 1) shift
    else .fault

/-- The level-5 table of a context (R71). -/
def Ctx.root (c : Ctx) : Nat := c.ptroot.toNat / 4096 % 2 ^ 28 * 4096

/-- A walk of a context's page table; a root at or above MCAP names no table (R71, R73; DEDUCED, log 110). -/
def State.walk (s : State) (ctx va : Nat) : Walk :=
  if s.paOk (s.ctx ctx).root then s.walkFrom va 5 (s.ctx ctx).root else .fault

/-- Whether the page of an address is migrating as the page table stands, so that an access of the device's own is held (R82); log 145. -/
def State.pageMoving (s : State) (ctx va : Nat) : Bool :=
  match s.walk ctx va with
  | .leaf e _ _ => pteMig e
  | _ => false

/-- The physical address of a virtual one as the page table stands, for the device's own accesses. -/
def State.lineAt (s : State) (ctx va : Nat) : Option Nat :=
  match s.walk ctx va with
  | .leaf e _ shift =>
    let base := if shift = 16 then e - e / 4096 % 16 * 4096 else e
    let pa := pteAddr base / 2 ^ shift * 2 ^ shift + va % 2 ^ shift
    if s.paOk pa then some pa else none
  | _ => none

def TlbEntry.covers (e : TlbEntry) (ctx va : Nat) : Bool :=
  e.ctx == ctx && va / 2 ^ e.size == e.va / 2 ^ e.size

/-- A lookup in the order of R76: the core's first-level TLB, its victim storage, the hive's second-level TLB, the hive's
victim storage. -/
def State.tlbFind (s : State) (core ctx va : Nat) (fetch : Bool) : Option TlbEntry :=
  let c := s.core core
  let h := s.hive (hiveOf core)
  let l1 := if fetch then c.tlbI else c.tlbD
  match l1.find? (·.covers ctx va) with
  | some e => some e
  | none =>
    match c.victims.find? (fun p => p.2.covers ctx va) with
    | some p => some p.2
    | none =>
      match h.tlb.find? (·.covers ctx va) with
      | some e => some e
      | none => h.victims.find? (·.covers ctx va)

/-- The lowest idle slot with room for a victim entry (R78). -/
def State.victimSlot (s : State) (core : Nat) : Option Nat :=
  let sp := s.space (s.installedCtx core) core
  (List.range 256).find? (fun sl =>
    (sp.stag sl).state == 0 && decide (((s.core core).victims.filter (·.1 == sl)).length < 64))

/-- Lends an idle slot to a victim entry: its written bits are cleared, so that a read of it returns zeros (R78, R89). -/
def State.lend (s : State) (core slot : Nat) (e : TlbEntry) : State :=
  (s.modSpace (s.installedCtx core) core (fun sp => sp.clearSlot slot)).modCore core (fun c =>
    { c with victims := c.victims ++ [(slot, e)] })

/-- The set of the second-level TLB that holds a translation, of 512 (R76): by its page number (DESIGN CHOICE, log 111). -/
def TlbEntry.set (e : TlbEntry) : Nat := e.va / 2 ^ e.size % 512

/-- The lines of a hive's instruction cache, and of a core's level zero (R5). -/
def hiveLines : Nat := 4096
def coreLines : Nat := 256

/-- The entries that the idle lines of a hive's instruction cache can hold: four each (R78). -/
def Hive.victimRoom (h : Hive) : Nat := 4 * (hiveLines - h.icache.length)

/-- Enters a translation into the second-level TLB, 8-way in 512 sets (R76); the entry entered longest ago leaves a full set for
the victim storage (R78). -/
def Hive.enter (h : Hive) (e : TlbEntry) : Hive :=
  let mine := h.tlb.filter (fun x => x.set == e.set)
  if h.tlb.any (fun x => x.covers e.ctx e.va) then h
  else if mine.length < 8 then { h with tlb := h.tlb ++ [e] }
  else
    match mine with
    | [] => { h with tlb := h.tlb ++ [e] }
    | v :: _ =>
      { h with
        tlb := h.tlb.erase v ++ [e]
        victims := ((v :: h.victims.filter (· != v)).take h.victimRoom) }

/-- Enters a translation into the first-level TLB and the hive's; the oldest entry of a full TLB moves to victim
storage, or is dropped (R74, R76, R78). -/
def State.tlbFill (s : State) (core : Nat) (fetch : Bool) (e : TlbEntry) : State :=
  let cap := if fetch then 32 else 128
  let c := s.core core
  let l1 := (if fetch then c.tlbI else c.tlbD) ++ [e]
  let (l1', out) := if cap < l1.length then (l1.drop 1, l1.head?) else (l1, none)
  let s := s.setCore core (if fetch then { c with tlbI := l1' } else { c with tlbD := l1' })
  let s := match out with
    | none => s
    | some v =>
      match s.victimSlot core with
      | none => s
      | some sl => s.lend core sl v
  s.modHive (hiveOf core) (·.enter e)

/-- Drops what a core and its hive hold of the page of an address, as R74 lets them at any time. -/
def State.tlbDrop (s : State) (core ctx va : Nat) : State :=
  let keep (e : TlbEntry) : Bool := !e.covers ctx va
  let s := s.modCore core (fun c =>
    { c with tlbD := c.tlbD.filter keep, tlbI := c.tlbI.filter keep, victims := c.victims.filter (fun p => keep p.2) })
  s.modHive (hiveOf core) (fun h => { h with tlb := h.tlb.filter keep, victims := h.victims.filter keep })

/-! ### Instruction caches (R5, R84, R159) -/

/-- A line held by a cache. -/
def heldLine (l : List CacheLine) (pa : Nat) : Option CacheLine := l.find? (fun x => x.line == pa / 64)

/-- A line as memory holds it. -/
def State.freshLine (s : State) (pa : Nat) : CacheLine := { line := pa / 64, bytes := s.physRead (pa / 64 * 64) 64 }

/-- A cache of `cap` lines with a line entered; the line entered longest ago makes room (DESIGN CHOICE, log 38). -/
def enterLine (cap : Nat) (l : List CacheLine) (x : CacheLine) : List CacheLine :=
  let l := l.filter (fun y => y.line != x.line)
  (if cap ≤ l.length then l.drop (l.length + 1 - cap) else l) ++ [x]

/-- The lines that a fill of the hive's cache brings: the one asked for, and with sequential prefetch the next of the page. -/
def State.filledLines (s : State) (pa : Nat) : List CacheLine :=
  s.freshLine pa ::
    (if Config.prefetches s.tick ∧ (pa / 64 + 1) % 64 ≠ 0 then [s.freshLine (pa + 64)] else [])

/-- Fills the caches of a core and its hive with a line that neither holds; the victim entries in a line that is taken are
dropped (R78). -/
def State.fillCaches (s : State) (core pa : Nat) : State :=
  let l := s.filledLines pa
  let s := s.modHive (hiveOf core) (fun h =>
    { h with
      icache := l.foldl (enterLine hiveLines) h.icache
      victims := h.victims.take (4 * (hiveLines - (l.foldl (enterLine hiveLines) h.icache).length)) })
  s.modCore core (fun c => { c with icache := enterLine coreLines c.icache (s.freshLine pa) })

/-- The word in a line at an address. -/
def CacheLine.word (x : CacheLine) (pa : Nat) : Nat := ofBytes ((x.bytes.drop (pa % 64)).take 8)

/-- The word that a fetch supplies (R159): memory's where no cache holds its line; where one does, the held word or memory's, each
fetch by itself. -/
def State.fetchWord (s : State) (core pa : Nat) : Nat × State :=
  let now := ofBytes (s.physRead pa 8)
  let pick (x : CacheLine) : Nat := if Config.fetchesHeld s.tick then x.word pa else now
  match heldLine (s.core core).icache pa with
  | some x => (pick x, s)
  | none =>
    match heldLine (s.hive (hiveOf core)).icache pa with
    | some x => (pick x, s.modCore core (fun c => { c with icache := enterLine coreLines c.icache x }))
    | none => (now, s.fillCaches core pa)

/-- Access kinds of R79. -/
inductive Acc where
  | load | store | fetch | engRead | engWrite | get | put
  deriving DecidableEq, Repr

def Acc.code : Acc → Nat
  | .load => 0 | .store => 1 | .fetch => 2 | .engRead => 3 | .engWrite => 4 | .get => 5 | .put => 6

def Acc.writes : Acc → Bool
  | .store | .engWrite | .put => true
  | _ => false

/-- What an access meets (R79, R82). -/
inductive Xlate where
  | ok (pa leaf : Nat)
  | page (cause level : Nat)
  | protection
  | translation
  | migrating
  deriving DecidableEq, Repr

/-- The checks of a leaf: a migrating page raises no fault (R82); the protection fault comes before a page
fault (R79). -/
def checkLeaf (super : Bool) (k : Acc) (e level va shift : Nat) : Xlate :=
  if pteMig e then .migrating
  else if pteSup e && !super then .protection
  else if k = .fetch && !pteX e then .page 4 level
  else if k ≠ .fetch && k.writes && !pteW e then .page 3 level
  else if k ≠ .fetch && !k.writes && !pteR e then .page 2 level
  else .ok (pteAddr e / 2 ^ shift * 2 ^ shift + va % 2 ^ shift) e

/-- Translates an address for a core's access: from a TLB, else by a walk. A walk decides every fault (R79): an entry that denies the
access gives way to one, as R74 lets it; a leaf that lets the access pass enters the TLBs. -/
def State.translate (s : State) (core ctx va : Nat) (super : Bool) (k : Acc) : Xlate × State :=
  let hit := (s.tlbFind core ctx va (k == .fetch)).map (fun e => checkLeaf super k e.leaf e.level va e.size)
  match hit with
  | some (.ok pa leaf) => (.ok pa leaf, s)
  | _ =>
    let s := if hit.isSome then s.tlbDrop core ctx va else s
    match s.walk ctx va with
    | .fault => (.translation, s)
    | .invalid level => (.page 1 level, s)
    | .leaf e level shift =>
      let base := if shift = 16 then e - e / 4096 % 16 * 4096 else e
      match checkLeaf super k base level va shift with
      | .ok pa leaf =>
        (.ok pa leaf, s.tlbFill core (k == .fetch)
          { ctx := ctx, va := va / 2 ^ shift * 2 ^ shift, size := shift, leaf := base, level := level })
      | x => (x, s)

/-- The owning core of a line (R75). -/
def ownerOf (leaf va : Nat) : Nat :=
  match pteHome leaf with
  | 0 => va / 2 ^ 6 % 8192
  | 1 => va / 2 ^ 12 % 8192
  | _ => va / 2 ^ 21 % 8192

end Sys2Proof.Machine
end

