-- ==== Sys2Proof/Machine/Writes.lean ====
section
/-! DEFINITION. Writes that others see: what they wake and abort (R265, R287, R309), bytes with their tags (R387), and the
landing of `get` and `put` elements (R270). -/

namespace Sys2Proof.Machine

open Sys2Proof.Machine.Num

/-- Who writes: a commit of the task of a slot, an atomic application, a `put` element, a sequentially consistent
operation of a slot, an engine of a core, or the host or a peer. -/
inductive Writer where
  | commit (k : Nat)
  | atomic
  | put (k : Nat)
  | sc (k : Nat)
  | engine (core : Nat)
  | bulk
  deriving DecidableEq, Repr

/-- The core whose own access such a write is (R297). -/
def Writer.core : Writer → Option Nat
  | .commit k | .put k | .sc k => some (k / 8)
  | .engine c => some c
  | .atomic | .bulk => none

/-- Whether a parked `wtv` re-reads after such a write (R265). -/
def Writer.wakesWtv : Writer → Bool
  | .commit _ | .atomic | .put _ => true
  | .sc _ | .engine _ | .bulk => false

/-- Whether such a write to a tracked line aborts the section of slot `k` (R287 cause 1): of commits, another task's. -/
def Writer.aborts (k : Nat) : Writer → Bool
  | .commit j => j != k
  | .put _ | .sc _ | .atomic => true
  | .engine _ | .bulk => false

/-- Whether `n` bytes at `pa` touch the line of `line * 64`. -/
def touches (pa n line : Nat) : Bool := decide (pa / 64 ≤ line) && decide (line < pa / 64 + linesOf pa n)

/-- A task as a write to memory leaves it: a section that tracks the line dies. The task of slot `k`; a saved one is in none (65,536). -/
def Task.seesWrite (t : Task) (k pa n : Nat) (w : Writer) : Task :=
  let t := match t.sect with
    | some x =>
      if x.dead.isNone && w.aborts k && x.lines.any (touches pa n) then
        { t with sect := some { x with dead := some (1, 0) } }
      else t
    | none => t
  t

/-- Whether a parked task waits for a write to these bytes; a scratchpad line wakes the tasks that poll it where it is written. -/
def Task.waitsFor (t : Task) (pa n : Nat) (w : Writer) : Bool :=
  match t.stat.parkedOn with
  | some (.wtv a) => w.wakesWtv && touches pa n (a / 64)
  | some (.spin _ _) => (match paKind pa with | .aperture .. => false | _ => true) && t.polls pa n
  | _ => false

/-- The lines of a span that lie in the host's window of HBM5 (R405). -/
def State.windowLines (s : State) (pa n : Nat) : List Nat :=
  let base := s.hostwin.toNat % 1024
  let count := s.hostwin.toNat / 2 ^ 16 % 1024
  if !s.hostwin.getLsbD 63 then []
  else ((List.range (linesOf pa n)).map (· + pa / 64)).filter (fun l =>
    decide (base ≤ l / 2 ^ 24) && decide (l / 2 ^ 24 < base + count))

/-- The lines of the host's window that a write reaches and for which the host has not acknowledged a back-invalidation (R406). -/
def State.hostOwes (s : State) (pa n : Nat) : List Nat := (s.windowLines pa n).filter (fun l => !s.invalAcked.contains l)

/-- Sends the back-invalidations that are not under way; the host's acknowledgements follow (R406, log 82). -/
def State.askHost (s : State) (lines : List Nat) : State :=
  let new := (lines.filter (fun l => !s.backInvals.contains l)).dedup
  new.foldl (fun s l => s.push (.backInvalidationAck l)) { s with backInvals := s.backInvals ++ new }

/-- Whether a write is a relink handler's (R316): its task runs in slot 7. -/
def Writer.relinks : Writer → Bool
  | .commit k => k % 8 == 7
  | _ => false

/-- The words of laid nodes that a write touches, unless a relink handler writes them, are written in no allowed way (R313,
R316). -/
def State.markNodes (s : State) (pa n : Nat) (w : Writer) : State :=
  if s.nodeLines = [] ∨ w.relinks then s
  else
    let touched (x : Nat × Nat) : List (Nat × Nat) :=
      match s.lineAt x.1 x.2 with
      | some p =>
        ((List.range 8).filter (fun i => decide (pa < p + 8 * i + 8) && decide (p + 8 * i < pa + n))).map (fun i => (x.1, x.2 / 8 + i))
      | none => []
    { s with netMarks := s.netMarks ++ (s.nodeLines.flatMap touched).filter (fun i => !s.netMarks.contains i) }

/-- A write has landed: the host's acknowledgements of its lines have served it (R406); slots that wait for it are woken by their
events, saved waiters become ready, and sections that track its lines die, those of saved tasks too (R287). -/
def State.landed (s : State) (pa n : Nat) (w : Writer) : State :=
  let wake (s : State) (p : Nat × Task) : State :=
    if p.2.waitsFor pa n w then
      s.push (match p.2.stat.parkedOn with
        | some (.wtv _) => .wtvWake (p.1 / 8) (p.1 % 8)
        | _ => .spinWake (p.1 / 8) (p.1 % 8))
    else s
  let s := (s.tasks.foldl wake s).markNodes pa n w
  ({ s with
    invalAcked := s.invalAcked.filter (fun l => !(s.windowLines pa n).contains l)
    tasks := s.tasks.map (fun (p : Nat × Task) => (p.1, p.2.seesWrite p.1 pa n w))
    saved := s.saved.map (fun (p : Nat × Saved) => (p.1, { p.2 with task := p.2.task.seesWrite 65536 pa n w })) }).wakeSaved (fun t => t.waitsFor pa n w)

/-- A write through the hive window has landed, as the aperture names its bytes (R265, R287). -/
def State.landedAt (s : State) (core addr n : Nat) (w : Writer) : State :=
  match spadTarget core addr with
  | some (c, off) => s.landed (aperturePa c off) (Nat.min n (spadBytes - off)) w
  | none => s

/-- Writes main memory and lets the write be seen. -/
def State.writeSeen (s : State) (pa : Nat) (bs : List Byte) (tag : Nat) (w : Writer) : State :=
  (s.physWriteBy w.core pa bs tag).landed pa bs.length w

/-! ### Bytes with tags (R387) -/

/-- The lowest tag among bytes. -/
def tagOfBytes (l : List (Byte × Nat)) : Nat := l.foldl (fun t p => minTag t p.2) 0

/-- Writes bytes with their tags to physical memory, line by line. -/
def State.physWriteT (s : State) (pa : Nat) (l : List (Byte × Nat)) (w : Writer) : State :=
  (chunks pa l).foldl (fun s c => s.writeSeen c.1 (c.2.map (·.1)) (tagOfBytes c.2) w) s

/-- Physical bytes with the tags of their lines. -/
def State.physReadT (s : State) (pa n : Nat) : List (Byte × Nat) :=
  (List.range n).map (fun i => (s.physByte (pa + i), s.physTag (pa + i) 1))

/-- Scratchpad-space bytes with tags, of an access of a unit at an address of a core (R85, R87). -/
def State.spadReadT (s : State) (ctx core unit addr n : Nat) : List (Byte × Nat) × State :=
  ((List.range n).map (fun i => (s.spadByteAt ctx core addr i, s.spadTagAt ctx core addr i)),
    (s.spadSpaceRead ctx core unit addr n).2.2)

/-- Writes bytes with tags to scratchpad space; bytes out of range are dropped. An access lies in the target of its first
byte. -/
def State.spadPutT (s : State) (ctx core addr : Nat) (l : List (Byte × Nat)) : State :=
  let fit := l.zipIdx.filterMap (fun p => (spadByte core addr p.2).map (fun x => (x, p.1)))
  match fit.head? with
  | none => s
  | some ((c, off), _) =>
    let here := fit.filter (fun x => x.1.1 == c)
    let bs := here.map (·.2)
    let own := decide (c = core)
    let s := if own then s else s.portSeen c off bs.length
    (chunks off bs).foldl
      (fun s x => s.spadWrite (if own then ctx else s.installedCtx c) c x.1 (x.2.map (·.1)) (tagOfBytes x.2)) s

/-- Writes bytes with tags, recording an access out of range (R88). -/
def State.spadWriteT (s : State) (ctx core unit addr : Nat) (l : List (Byte × Nat)) : State :=
  let s := match firstBad core addr 0 l.length with
    | some a => s.spErr ctx core unit true a
    | none => s
  s.spadPutT ctx core addr l

/-! ### Translating a span -/

/-- The pieces of a span: physical address, bytes and leaf of each page, up to the page that fails, with what it meets. -/
def State.spanPieces (s : State) (core ctx : Nat) (super : Bool) (k : Acc) :
    Nat → Nat → Nat → List (Nat × Nat × Nat) × Option (Xlate × Nat) × State
  | 0, _, _ => ([], none, s)
  | fuel + 1, va, n =>
    if n = 0 then ([], none, s)
    else
      let (x, s) := s.translate core ctx (va % 2 ^ 57) super k
      match x with
      | .ok pa leaf =>
        let m := Nat.min n (4096 - va % 4096)
        let (l, f, s) := s.spanPieces core ctx super k fuel (va + m) (n - m)
        ((pa, m, leaf) :: l, f, s)
      | x => ([], some (x, va % 2 ^ 57), s)

/-- All pieces of `n` bytes at a virtual address. -/
def State.pieces (s : State) (core ctx : Nat) (super : Bool) (k : Acc) (va n : Nat) :
    List (Nat × Nat × Nat) × Option (Xlate × Nat) × State :=
  s.spanPieces core ctx super k (n / 4096 + 2) va n

/-- The bytes of a span page by page: the physical ranges of those whose page translates, and the virtual ranges of the others. -/
def State.spanMapped (s : State) (core ctx : Nat) (super : Bool) (k : Acc) : Nat → Nat → Nat → List (Nat × Nat) × List (Nat × Nat)
  | 0, _, _ => ([], [])
  | fuel + 1, va, n =>
    if n = 0 then ([], [])
    else
      let m := Nat.min n (4096 - va % 4096)
      let (l, u) := s.spanMapped core ctx super k fuel (va + m) (n - m)
      match (s.translate core ctx (va % 2 ^ 57) super k).1 with
      | .ok pa _ => ((pa, m) :: l, u)
      | _ => (l, (va % 2 ^ 57, m) :: u)

/-- The ranges of `n` bytes at a virtual address, translated and not. -/
def State.mapped (s : State) (core ctx : Nat) (super : Bool) (k : Acc) (va n : Nat) : List (Nat × Nat) × List (Nat × Nat) :=
  s.spanMapped core ctx super k (n / 4096 + 2) va n

/-! ### Elements of `get` and `put` (R269 to R271) -/

def GetPut.hw (g : GetPut) : Bool := g.ctl.getLsbD 42
def GetPut.len (g : GetPut) : Nat := g.ctl.toNat / 256 % 2 ^ 24
def GetPut.cc (g : GetPut) : Nat := g.ctl.toNat / 2 ^ 32 % 16

/-- The remote address of element `i`. -/
def GetPut.remote (g : GetPut) (i : Nat) : Nat :=
  g.a + g.idx.getD i 0 * 2 ^ (g.ctl.toNat / 2 ^ 36 % 16)

/-- What an element of a command reaches outside the core's own scratchpad: the physical ranges of the pages that translate as the
table stands, or the target's aperture range for the hive window, and the virtual ranges of the other pages. -/
def State.elementSpan (s : State) (core : Nat) (super : Bool) (g : GetPut) (i : Nat) : List (Nat × Nat) × List (Nat × Nat) :=
  if g.hw then
    match spadTarget core (g.remote i) with
    | some (c, off) => (if c = core then [] else [(aperturePa c off, g.len)], [])
    | none => ([], [])
  else s.mapped core g.ctx super (if g.isPut then .put else .get) (g.remote i) g.len

/-- The physical ranges that an element of a command reaches outside the core's own scratchpad. -/
def State.elementRange (s : State) (core : Nat) (super : Bool) (g : GetPut) (i : Nat) : List (Nat × Nat) :=
  (s.elementSpan core super g i).1

/-- The core whose scratchpad a physical range names. -/
def apertureCore (pa : Nat) : Option Nat := match paKind pa with | .aperture c _ => some c | _ => none

/-- Whether a slot has a `put` outstanding that writes, or whose list is not read and so may write, a core's scratchpad (R308, note
d). -/
def State.putsTo (s : State) (k c : Nat) : Bool :=
  (s.core (k / 8)).gp.any (fun g => g.slot == k % 8 && g.isPut && !g.killed && (!g.known ||
    (List.range (g.idx.length - g.first)).any (fun i => !g.landed.contains (g.first + i) &&
      (s.elementRange (k / 8) (s.task k).super g (g.first + i)).any (fun p => apertureCore p.1 == some c))))

/-- Whether a task has a returning atomic outstanding that a core serves (R308, note d). -/
def Task.asks (t : Task) (c : Nat) : Bool := t.loads.any (fun l => l.kind == .amo c)

/-- Reads local bytes: those beyond the own scratchpad are out of range. -/
def State.localRead (s : State) (ctx core unit a n : Nat) : List (Byte × Nat) × State :=
  let sp := s.space ctx core
  let at' (i : Nat) : Byte × Nat :=
    if a + i < spadBytes then (sp.byte (a + i), sp.lineTag ((a + i) / 64)) else (0, 0)
  ((List.range n).map at',
    if spadBytes < a + n then s.spErr ctx core unit false (Nat.max a spadBytes) else s)

/-- Writes local bytes. -/
def State.localWrite (s : State) (ctx core unit a : Nat) (l : List (Byte × Nat)) : State :=
  let s := if spadBytes < a + l.length then s.spErr ctx core unit true (Nat.max a spadBytes) else s
  (chunks a (l.take (spadBytes - a))).foldl
    (fun s c => s.spadWrite ctx core c.1 (c.2.map (·.1)) (tagOfBytes c.2)) s

/-- Reads the pieces of an element with tags. -/
def State.piecesRead (s : State) (l : List (Nat × Nat)) : List (Byte × Nat) :=
  l.flatMap (fun p => s.physReadT p.1 p.2)

/-- A core's read through the aperture of another core's scratchpad is seen by the tasks there (R297). -/
def State.seeParts (s : State) (core : Nat) (parts : List (Nat × Nat)) : State :=
  parts.foldl (fun s p => match paKind p.1 with
    | .aperture c off => if c = core then s else s.portSeen c off p.2
    | _ => s) s

/-- Writes bytes with tags over pieces. -/
def State.piecesWrite (s : State) (w : Writer) : List (Nat × Nat) → List (Byte × Nat) → State
  | [], _ => s
  | p :: rest, l => (s.physWriteT p.1 (l.take p.2) w).piecesWrite w rest (l.drop p.2)

/-- Whether element `i` is held back: by a filling slot (R92) for its local bytes, and for a `get` the remote ones; a write by `put`
passes, but for one into the host range before stage C (R412), and one into the scratchpad of a core that still owes its task the
reply of an earlier atomic (R308, note d). -/
def State.elementHeld (s : State) (core : Nat) (g : GetPut) (i : Nat) : Bool :=
  s.filling g.ctx core (g.d + i * g.len) g.len ||
    (!g.isPut && if g.hw then
      match spadTarget core (g.remote i) with
      | some (c, off) => s.filling (if c = core then g.ctx else s.installedCtx c) c off g.len
      | none => false
    else s.portHeld (g.els.getD (i - g.first) [])) ||
    (g.isPut && !g.hw && (g.els.getD (i - g.first) []).any (fun p => s.cacheWaits p.1)) ||
    (g.isPut && (s.task (core * 8 + g.slot)).tid == g.tid &&
      (s.elementRange core (s.task (core * 8 + g.slot)).super g i).any (fun p => match apertureCore p.1 with
        | some c => (s.task (core * 8 + g.slot)).asks c
        | none => false))

/-- Lands one element of a command of a core: the bytes move, with their tags. -/
def State.moveElement (s : State) (core : Nat) (g : GetPut) (i : Nat) : State :=
  let loc := g.d + i * g.len
  let parts := g.els.getD (i - g.first) []
  if g.isPut then
    let (l, s) := s.localRead g.ctx core 5 loc g.len
    if g.hw then (s.spadWriteT g.ctx core 5 (g.remote i) l).landedAt core (g.remote i) l.length (.put (core * 8 + g.slot))
    else s.piecesWrite (.put (core * 8 + g.slot)) parts l
  else
    let (l, s) := if g.hw then s.spadReadT g.ctx core 4 (g.remote i) g.len
      else (s.piecesRead parts, s.seeParts core parts)
    s.localWrite g.ctx core 4 loc l

/-- The elements of a command that have been issued, in order, up to one that a filling slot holds back: that one and those
after it count as not issued. -/
def State.issuedEls (s : State) (core : Nat) (g : GetPut) : List Nat :=
  ((List.range g.els.length).map (· + g.first)).takeWhile (fun i => g.landed.contains i || !s.elementHeld core g i)

/-- Lands every issued element of a slot's commands (R271), whose progress then follows them. -/
def State.landIssued (s : State) (core slot : Nat) : State :=
  let one (s : State) (g : GetPut) : State :=
    if g.slot ≠ slot then s
    else
      (s.issuedEls core g).foldl (fun s i => if g.landed.contains i then s else s.moveElement core g i) s
  let count := (s.core core).gp.map (fun g => (s.issuedEls core g).length)
  let s := (s.core core).gp.foldl one s
  s.modCore core (fun c =>
    { c with
      gp := (c.gp.zip count).map (fun (p : GetPut × Nat) =>
        if p.1.slot = slot then
          { p.1 with first := p.1.first + p.2, els := [], landed := [], halted := false }
        else p.1) })

/-- Offers the elements of the command at the head of the port's queue to land; one whose list is not read yet offers its start. -/
def State.gpKick (s : State) (core : Nat) : State :=
  match (s.core core).gp with
  | [] => s
  | g :: _ =>
    if !g.known ∨ g.idx.length ≤ g.first then s.push (.getPutElementLand core g.first)
    else (List.range (g.idx.length - g.first)).foldl (fun s i => s.push (.getPutElementLand core (g.first + i))) s

end Sys2Proof.Machine
end

