-- ==== Sys2Proof/Machine/Loads.lean ====
section
/-! DEFINITION. Outstanding loads (R262, R265, R266, R289, R292): the bytes that a load returns, delivering its word, and spin
records (R309). -/

namespace Sys2Proof.Machine

open Sys2Proof.Machine.Num

/-- What a load writes (R178). -/
def loadValue (t : Ty) (x : Nat) : Word :=
  if t.isFloat then
    BitVec.ofNat 64 ((f32.round .rne false ((fmtOf t).decode x)).1)
  else extend t x

/-- The queue or result FIFO of a task: 0 to 7 are q0 to q7, 8 to 11 mres, vres, cres, ares. -/
def Task.queue (t : Task) (i : Nat) : List QWord := Tab.get [] t.q i
def Task.setQueue (t : Task) (i : Nat) (l : List QWord) : Task := { t with q := Tab.set [] t.q i l }

/-- The slot, or the handle, whose task has load `id`. -/
def State.loadSlot (s : State) (id : Nat) : Option Nat :=
  (s.tasks.find? (fun p => p.2.loads.any (fun l => l.id == id))).map (·.1)

def State.loadHandle (s : State) (id : Nat) : Option Nat :=
  (s.saved.find? (fun p => p.2.task.loads.any (fun l => l.id == id))).map (·.1)

/-- A word replaces its placeholder in a queue. -/
def fillPlace (l : List QWord) (id : Nat) (w : QWord) : List QWord :=
  l.map (fun x => match x with
    | .await j => if j = id then w else x
    | _ => x)

/-- A task with the word of a load delivered, also to a parent's queues behind an inline child: the load is no longer
outstanding. -/
def Task.deliver (t : Task) (id : Nat) (w : QWord) : Task :=
  match t.loads.find? (fun l => l.id == id) with
  | none => t
  | some l =>
    { t.setQueue l.fifo (fillPlace (t.queue l.fifo) id w) with
      loads := t.loads.filter (fun l => l.id != id)
      inl := t.inl.map (fun (f : Frame) => { f with q := f.q.map (fun p => (p.1, fillPlace p.2 id w)) }) }

/-- Delivers a load's word to its task, in a slot or saved. -/
def State.deliver (s : State) (id : Nat) (w : QWord) : State :=
  match s.loadSlot id with
  | some k => s.modTask k (·.deliver id w)
  | none =>
    match s.loadHandle id with
    | none => s
    | some h =>
      let r := Tab.get .empty s.saved h
      { s with saved := Tab.set .empty s.saved h { r with task := r.task.deliver id w } }

/-- The bytes that a task's own buffered stores give to piece `pa` of a load, by offset; later ones first. -/
def Task.ownBytes (t : Task) (parts : List (Nat × Nat)) : List (Nat × Byte) :=
  let stores := t.commit.foldl
    (fun (l : List (Nat × List Byte)) b => match b.eff with
      | .store _ pa bs _ _ => (pa, bs) :: l
      | .shadow pa bs _ => (pa, bs) :: l
      | .stv _ _ pa bs _ _ _ => (pa, bs) :: l
      | _ => l) []
  let one (off pa : Nat) : List (Nat × Byte) :=
    match stores.find? (fun x => decide (x.1 ≤ pa) && decide (pa < x.1 + x.2.length)) with
    | some x => [(off, x.2.getD (pa - x.1) 0)]
    | none => []
  (parts.foldl
    (fun (acc : Nat × List (Nat × Byte)) p =>
      (acc.1 + p.2, acc.2 ++ (List.range p.2).flatMap (fun i => one (acc.1 + i) (p.1 + i)))) (0, [])).2

/-- The lowest tag of the task's buffered stores that a load takes bytes from. -/
def Task.ownTag (t : Task) (parts : List (Nat × Nat)) : Nat :=
  t.commit.foldl
    (fun tag b =>
      let hit (pa n : Nat) : Bool := parts.any (fun p => decide (p.1 < pa + n) && decide (pa < p.1 + p.2))
      match b.eff with
      | .store _ pa bs g _ => if hit pa bs.length then minTag tag g else tag
      | .shadow pa bs g => if hit pa bs.length then minTag tag g else tag
      | .stv _ _ pa bs g _ _ => if hit pa bs.length then minTag tag g else tag
      | _ => tag) 0

/-- Reads the pieces of an element. -/
def State.readParts (s : State) (parts : List (Nat × Nat)) : List Byte :=
  parts.flatMap (fun p => s.physRead p.1 p.2)

def State.tagParts (s : State) (parts : List (Nat × Nat)) : Nat :=
  parts.foldl (fun t p => minTag t (s.physTag p.1 p.2)) 0

/-- The bytes with those the task held itself laid over. -/
def overlay (bs : List Byte) (own : List (Nat × Byte)) : List Byte :=
  bs.zipIdx.map (fun p => match own.find? (fun o => o.1 == p.2) with
    | some o => o.2
    | none => p.1)

/-! ### Spin records (R309) -/

/-- The record of a line. -/
def Task.spin (t : Task) (line : Nat) : Option Spin := t.spins.find? (fun x => x.line == line)

/-- A load of a line has returned these bytes: the record moves to the front of four, least recently used last. -/
def Task.spun (t : Task) (line : Nat) (bs : List Byte) : Task :=
  let c := match t.spin line with
    | some r => if r.bytes = bs then r.count + 1 else 0
    | none => 0
  { t with spins := ({ line := line, count := c, bytes := bs } :: t.spins.filter (fun x => x.line != line)).take 4 }

/-- The line of a load: that of its first byte. -/
def Load.line (l : Load) : Nat := (l.parts.head?.map (·.1)).getD 0 / 64

/-- The plain loads of a line that the task has outstanding: while the line does not change, each counts as one more. -/
def Task.spinning (t : Task) (line : Nat) : Nat := (t.loads.filter (fun l => l.kind == .plain && l.line == line)).length

/-- Whether a load of these bytes would be the 65th unchanged load of the line, those before it counted. -/
def Task.spinHeld (t : Task) (line : Nat) (bs : List Byte) : Bool :=
  match t.spin line with
  | some r => decide (64 ≤ r.count + t.spinning line) && decide (r.bytes = bs)
  | none => false


/-! ### Read points (R262, R292) -/

/-- Whether pieces of memory overlap. -/
def overlaps (l m : List (Nat × Nat)) : Bool :=
  l.any (fun p => m.any (fun q => decide (p.1 < q.1 + q.2) && decide (q.1 < p.1 + p.2)))

/-- The outstanding loads whose read point may still come: global loads, versioned ones among them (R291). -/
def LoadKind.reads : LoadKind → Bool
  | .plain | .version .. => true
  | .sc | .amo _ => false

/-- Whether an earlier outstanding global load of the task overlaps load `id` (R292). -/
def Task.earlierOverlap (t : Task) (l : Load) : Bool :=
  (t.loads.takeWhile (fun x => x.id != l.id)).any (fun x => x.kind.reads && overlaps x.parts l.parts)

/-- The parked version load on which a load of the task waits: itself, or an earlier one of the same bytes (R60, R266, R292). -/
def Task.parkedFor (t : Task) (id : Nat) : Option Nat :=
  match t.loads.find? (fun l => l.id == id) with
  | none => none
  | some l =>
    if l.parked then some id
    else ((t.loads.takeWhile (fun x => x.id != id)).find? (fun x => x.parked && overlaps x.parts l.parts)).map (·.id)

/-- The bytes a load returns at its read point, and their tag. -/
def State.loadBytes (s : State) (l : Load) : List Byte × Nat :=
  let bs := overlay (s.readParts l.parts) l.own
  let tag := if l.own.length = (l.parts.map (·.2)).sum then l.ownTag else minTag (s.tagParts l.parts) l.ownTag
  (bs, tag)

/-- Whether the read of a load waits: for an earlier overlapping load of its task (R292), or at a memory port (R92). -/
def State.readWaits (s : State) (k : Nat) (l : Load) : Bool := (s.task k).earlierOverlap l || s.portHeld l.parts

/-- The read point of a plain load and the arrival of its word (R262). -/
def State.readNow (s : State) (k : Nat) (l : Load) : State :=
  let (bs, tag) := s.loadBytes l
  (s.seeParts (k / 8) l.parts).modTask k (fun t =>
    (t.deliver l.id (.word { v := loadValue l.t (ofBytes bs), tag := tag })).spun l.line bs)

/-- The read point of a plain load, in issue order where loads overlap (R292); a filling slot holds a read through the aperture back
(R92). -/
def State.arrive (s : State) (k : Nat) (l : Load) : State :=
  if s.readWaits k l then s.push (.loadWordArrival (k / 8) (k % 8) l.id) else s.readNow k l

/-- The plain loads of a slot that may arrive do (R161, R395). -/
def State.landLoads (s : State) (k : Nat) : State :=
  (s.task k).loads.foldl (fun s l => if l.kind = .plain ∧ !s.readWaits k l then s.readNow k l else s) s

end Sys2Proof.Machine
end

