-- ==== Sys2Proof/Machine/Headers.lean ====
section
/-! DEFINITION. Message headers and route-tag entries (R333, R336), and what a task has of the message that started it: its
timestamp and its ordered group (R300). -/

namespace Sys2Proof.Machine

/-! ### Message headers (R333) -/

def hdrTs (h : Word) : Nat := h.toNat / 2 ^ 32
def hdrFar (h : Word) : Bool := h.getLsbD 31
def hdrCore (h : Word) : Nat := h.toNat / 2 ^ 18 % 8192
def hdrTag (h : Word) : Nat := h.toNat / 2 ^ 12 % 64
def hdrPrio (h : Word) : Nat := h.toNat / 2 ^ 9 % 8
def hdrLen (h : Word) : Nat := h.toNat / 2 ^ 5 % 16
def hdrTrm (h : Word) : Nat := h.toNat % 32

/-- A header from its fields. -/
def mkHdr (ts : Nat) (far : Bool) (core tag prio len trm : Nat) : Word :=
  BitVec.ofNat 64 (ts * 2 ^ 32 + (if far then 2 ^ 31 else 0) + core * 2 ^ 18 + tag * 2 ^ 12 + prio * 2 ^ 9
    + len * 2 ^ 5 + trm)

/-- The entry of a route tag at a core. -/
def State.tagEntry (s : State) (ctx core tag : Nat) : TagEntry := Tab.get .off (s.cc ctx core).tags tag

/-- The ordered group of a task (R300): the group that its route tag was bound to when it started (R347), while that group's ordered
flag is set. -/
def State.orderedGroup (s : State) (t : Task) : Option Nat :=
  t.grp.filter (fun g => (Tab.get .invalid (s.ctx t.ctx).groups g).ordered)

/-- A message's timestamp: one from another device counts as local with ts 0 (R333). -/
def messageTs (m : Message) : Nat := if hdrFar m.hdr then 0 else hdrTs m.hdr

/-- A task's timestamp: that of its starting message. -/
def Task.ts (t : Task) : Nat := (t.start.map messageTs).getD 0

/-- Whether a task must wait for the horizon before it becomes non-replayable (R302). -/
def State.beyondHorizon (s : State) (t : Task) : Bool :=
  match s.orderedGroup t with
  | some g => decide ((Tab.get .invalid (s.ctx t.ctx).groups g).horizon < t.ts)
  | none => false

end Sys2Proof.Machine
end

