-- ==== Sys2Proof/Machine/Flags.lean ====
section
/-! DEFINITION. FSTAT, the sticky arithmetic flags (R122), and results that arrive after their latency (R160, R169). -/

namespace Sys2Proof.Machine

/-- Merges flags (bits [5:0]) into FSTAT: flags are sticky and never trap. -/
def Task.raiseFlags (t : Task) (flags : Nat) : Task :=
  { t with fstat := t.fstat ||| BitVec.ofNat 64 (flags % 64) }

/-- Merges an engine command's flags into its issuing task's FSTAT, if the task still holds its slot. -/
def State.raiseFlags (s : State) (core slot tid flags : Nat) : State :=
  let k := core * 8 + slot
  if (s.task k).stat ≠ .free ∧ (s.task k).tid = tid then s.modTask k (·.raiseFlags flags) else s

/-- Writing 1 to a W1C bit of FSTAT clears it (R14). -/
def fstatWrite (old v : Word) : Word := old &&& ~~~v

/-! ### Late results (R160, R169) -/

/-- A late result arrives: a word enters its queue register or its neighbour's inbound port, flags enter FSTAT. Within one queue it stands
behind the place that an `ldg` took since (R115, R160; DEDUCED, log 136). -/
def State.arriveLate (s : State) (k : Nat) : LateTo → State
  | .queue i w => s.modTask k (fun t => t.setQueue i (t.queue i ++ [.word w]))
  | .link n port w =>
    s.modSpace (s.task k).ctx n (fun sp => { sp with links := Tab.set [] sp.links port (Tab.get [] sp.links port ++ [w]) })
  | .flags f => s.modTask k (·.raiseFlags f)

/-- One issued word less of every latency: the results whose latency has passed arrive, in program order. -/
def State.stepLate (s : State) (k : Nat) : State :=
  let l := (s.task k).late
  if l = [] then s
  else
    let rest := (l.filter (fun x => decide (1 < x.left))).map (fun (x : Late) => { x with left := x.left - 1 })
    let s := s.modTask k (fun t => { t with late := rest })
    (l.filter (fun x => decide (x.left ≤ 1))).foldl (fun s x => s.arriveLate k x.dest) s

/-- The longest latency (R160). -/
def longestLatency : Nat := 12

/-- Every result of a slot lands (R161). -/
def State.landLate (s : State) (k : Nat) : State := (List.range longestLatency).foldl (fun s _ => s.stepLate k) s

/-- The words on their way to queue `i`, and to a port of core `n`. -/
def Task.lateIn (t : Task) (i : Nat) : Nat :=
  (t.late.filter (fun x => match x.dest with | .queue j _ => j == i | _ => false)).length

def Task.lateOut (t : Task) (n port : Nat) : Nat :=
  (t.late.filter (fun x => match x.dest with | .link m p _ => m == n && p == port | _ => false)).length

end Sys2Proof.Machine
end

