-- ==== Sys2Proof/Machine/Commands.lean ====
section
/-! DEFINITION. Engine commands on their path (R97, R194, R222): what a command reads, writes and locks, when it may start, and
when a started one may take effect. -/

namespace Sys2Proof.Machine

open Sys2Proof.Machine.Num

/-! ### A command's operands and registers -/

/-- Operand `i` of a command. -/
def Cmd.val (c : Cmd) (i : Nat) : Nat := (c.ops.getD i { v := 0, tag := 0 }).v.toNat

/-- The address bits of operand `i`. -/
def Cmd.ptr (c : Cmd) (i : Nat) : Nat := c.val i % 2 ^ 57

/-- A destination whose old elements a predicate keeps. -/
def keepD (pred d : Nat) : List Nat := if pred = 0 then [] else [d]

/-- The vector registers that a command reads, and those it writes. -/
def vregsOf : Decoded → List Nat × List Nat
  | .std (.vadd x) | .std (.vsub x) | .std (.vmul x) | .std (.vmin x) | .std (.vmax x) | .std (.vand x)
  | .std (.vor x) | .std (.vxor x) | .std (.vshl x) | .std (.vshr x) | .std (.vsra x) | .std (.vperm x) =>
    (keepD x.pred.val x.d.val ++ [x.a.val, x.b.val], [x.d.val])
  | .std (.vfma x) | .std (.vfms x) => (keepD x.pred.val x.d.val ++ [x.a.val, x.b.val, x.c.val], [x.d.val])
  | .std (.vredsum x) => (if x.flag then [x.a.val, x.c.val] else [x.a.val], [x.d.val])
  | .std (.vdot x) => (if x.flag then [x.a.val, x.b.val, x.c.val] else [x.a.val, x.b.val], [x.d.val])
  | .std (.vabs x) | .std (.vneg x) | .std (.vrcp x) | .std (.vrsq x) | .std (.vexp x) | .std (.vtanh x)
  | .std (.vmov x) => (keepD x.pred.val x.d.val ++ [x.a.val], [x.d.val])
  | .std (.vredmax x) | .std (.vredmin x) => ([x.a.val], [x.d.val])
  | .std (.vcvt x) => ([x.d.val, x.a.val], [x.d.val])
  | .std (.vcmpEq x) | .std (.vcmpNe x) | .std (.vcmpLt x) | .std (.vcmpLe x) => ([x.a.val, x.b.val], [])
  | .std (.vsel x) => ([x.a.val, x.b.val], [x.d.val])
  | .std (.vbcast x) => (keepD x.pred.val x.d.val, [x.d.val])
  | .std (.vext x) => ([x.a.val], [])
  | .std (.vld x) | .std (.vldf x) => (keepD x.pred.val x.d.val, [x.d.val])
  | .std (.vst x) | .std (.vstf x) => ([x.d.val], [])
  | .std (.vldx x) => (keepD x.pred.val x.d.val ++ [x.b.val], [x.d.val])
  | .std (.vstx x) => ([x.d.val, x.b.val], [])
  | .std (.vpack x) => ([x.a.val, x.b.val], [x.d.val])
  | .std (.vunpk x) => ([x.a.val], [x.d.val])
  | .std (.vrot x) => (keepD x.pred.val x.d.val ++ [x.a.val], [x.d.val])
  | .std (.vtopk x) => ([x.d.val, x.d.val + 1, x.a.val, x.b.val], [x.d.val, x.d.val + 1])
  | .std (.vsig x) => ([x.d.val, x.a.val], [x.d.val])
  | .std (.msclRow x) | .std (.msclCol x) => ([x.a.val], [])
  | .std (.mrdRow x) | .std (.mrdCol x) => ([], [x.d.val])
  | .pbnd x => ([], [2 * x.half.val, 2 * x.half.val + 1])
  | _ => ([], [])

/-- The mask registers that a command writes. -/
def mregsOf : Decoded → List Nat
  | .std (.vcmpEq x) | .std (.vcmpNe x) | .std (.vcmpLt x) | .std (.vcmpLe x) => [x.d.val]
  | .std (.vmovGm x) => [x.d.val]
  | .std (.vmovMm x) | .std (.mand x) | .std (.mor x) | .std (.mnot x) => [x.d.val]
  | _ => []

/-- Engine commands that push into a result FIFO (R117, R118): 8 is mres, 9 vres. -/
def pushesFifo : Decoded → Option Nat
  | .std (.mrdEl _) | .std (.mdirPush _) => some 8
  | .std (.vext _) | .std (.vmovMq _) | .std (.mpop _) | .std (.mfirst _) => some 9
  | .qsig _ => some 9
  | _ => none

/-! ### Elements (R119, R193) -/

/-- Whether a predicate lets element `i` of width `w` take part: a mask bit governs two 8-bit elements. -/
def active (mask : BitVec 64) (pred w i : Nat) : Bool :=
  pred == 0 || mask.getLsbD (if w = 8 then i / 2 else i)

/-- Elements of width `w` of a vector. -/
def elems (w : Nat) (v : Vec) : List Nat := (List.range (1024 / w)).map (fun i => v.toNat / 2 ^ (w * i) % 2 ^ w)

/-- The vector of elements, the first lowest; elements beyond the list are 0. -/
def ofElems (w : Nat) (l : List Nat) : Vec :=
  BitVec.ofNat 1024 (l.foldr (fun x acc => x % 2 ^ w + acc * 2 ^ w) 0)

def State.vreg (s : State) (k n : Nat) : VVal := Tab.get { v := 0, tag := 0 } (s.task k).v n
def State.mreg (s : State) (k n : Nat) : BitVec 64 := Tab.get 0 (s.task k).m n

/-! ### Scratchpad accesses -/

/-- An address reduced to the 57 bits of a pointer. -/
def wrapAddr (a : Int) : Nat := (a % ((2 ^ 57 : Nat) : Int)).toNat

/-- An element's scratchpad address as it is formed (R206, R207): one below 0, with all the element's bytes, or beyond the 57 bits
is out of range (R87), and keeps its low bits (R88). -/
def farAddr (a : Int) : Nat :=
  if a < 0 then 2 ^ 57 + wrapAddr a else a.toNat

/-- The elements that take part, of `n`. -/
def parts (mask : BitVec 64) (pred w n : Nat) : List Nat := (List.range n).filter (active mask pred w)

/-- The bytes of an element of a format code (R123), Q4X apart. -/
def fmtBytes : Nat → Nat
  | 1 | 7 | 12 => 4
  | 2 | 3 | 9 | 11 => 2
  | _ => 1

/-- The blocks of a Q4X array (R132): elements of a block, and its bytes. -/
def blockElems (blog : Nat) : Nat := 2 ^ (blog + 4)
def blockBytes (blog : Nat) : Nat := 2 + 2 ^ (blog + 3)

/-- Where element `i` of a Q4X array at `base` lies: its block's scale, and the byte of its quad (R208). -/
def q4xAddr (base blog i : Nat) : Nat × Nat :=
  let nb := blockElems blog
  let at' := base + i / nb * blockBytes blog
  (at', at' + 2 + i % nb / 4 * 2)

/-- The accesses of a formatted load or store (R208): operand 0 the pointer, operand 1 the element index. -/
def Cmd.fmtAccess (c : Cmd) (t : Ty) (l : List Nat) : List (Nat × Nat) :=
  let p := c.val 0
  let fmt := p / 2 ^ 60
  let blog := p / 2 ^ 57 % 8
  let e := toInt 64 (c.val 1)
  let _ := t
  if fmt = 8 then
    (l.map (fun j => j / 4 * 4)).dedup.flatMap (fun j =>
      let (a, b) := q4xAddr (c.ptr 0) blog (e.toNat + j)
      [(a, 2), (b, 2)])
  else l.map (fun (j : Nat) => (wrapAddr ((c.ptr 0 : Int) + (e + (j : Int)) * (fmtBytes fmt : Int)), fmtBytes fmt))

/-- Whether a vector command stores. -/
def vstores : Decoded → Bool
  | .std (.vst _) | .std (.vstx _) | .std (.vstf _) => true
  | _ => false

/-- The scratchpad accesses, address and bytes, of a vector load or store (R206 to R208), lowest element first. -/
def State.vaccess (s : State) (k : Nat) (c : Cmd) : List (Nat × Nat) :=
  let plain (t : Ty) (pred : Nat) : List (Nat × Nat) :=
    if pred = 0 then [(c.ptr 0, 128)]
    else
      let w := t.width
      (parts (s.mreg k pred) pred w (1024 / w)).map (fun i => (c.ptr 0 + i * (w / 8), w / 8))
  let indexed (t : Ty) (b pred : Nat) : List (Nat × Nat) :=
    let w := t.width
    let idx := elems w (s.vreg k b).v
    (parts (s.mreg k pred) pred w (1024 / w)).map (fun i =>
      (farAddr ((c.ptr 0 : Int) + toInt w (idx.getD i 0) * ((w / 8 : Nat) : Int)), w / 8))
  let formatted (t : Ty) (pred : Nat) : List (Nat × Nat) :=
    c.fmtAccess t (parts (s.mreg k pred) pred t.width (1024 / t.width))
  match c.what with
  | .std (.vld x) => plain x.t x.pred.val
  | .std (.vst x) => plain x.t x.pred.val
  | .std (.vldx x) => indexed x.t x.b.val x.pred.val
  | .std (.vstx x) => indexed x.t x.b.val x.pred.val
  | .std (.vldf x) => formatted x.t x.pred.val
  | .std (.vstf x) => formatted x.t x.pred.val
  | _ => []

/-- The head dimension of a code (R246). -/
def dimOf (dcode : Nat) : Nat := 64 * 2 ^ dcode

/-- The head dimension that a descriptor names as it stands in scratchpad. -/
def State.descDim (s : State) (ctx core a : Nat) : Nat := dimOf ((s.spadByteAt ctx core a 48).toNat % 4)

/-- The scratchpad accesses of an attention command of the vector engine (R244, R249, R251, R255, R256). -/
def State.attAccess (s : State) (core : Nat) (c : Cmd) : List (Nat × Nat) :=
  match c.what with
  | .pjld _ _ => [(c.ptr 0, 4096)]
  | .kst _ => [(c.ptr 0, 64), (c.ptr 1, 2 * s.descDim c.ctx core (c.ptr 0))]
  | .qsig _ => [(c.ptr 0, 64), (c.ptr 1, 2 * s.descDim c.ctx core (c.ptr 0))]
  | .psum x => [(c.ptr 1, (x.rows.val + 1) * 2 * dimOf x.dcode.val), (c.ptr 0, 4 * dimOf x.dcode.val)]
  | .pbnd x => [(c.ptr 0, 2 * dimOf x.dcode.val), (c.ptr 1, (c.val 2 / 2 ^ 32 % 32 + 1) * 4 * dimOf x.dcode.val)]
  | _ => []

/-! ### Operand blocks of the matrix engine (R225) -/

/-- The bytes of a line of 16 elements; a block has 32 lines. -/
def lineBytes : Ty → Nat
  | .q4x => 10
  | .e4m3 | .e5m2 => 16
  | _ => 32

/-- The other input type of a product (R220). -/
def tbOf (x : MMul) : Ty :=
  if x.bx then (if x.t = .e4m3 then .e5m2 else .e4m3) else x.t

/-- The start of block `j` of an operand (R225): a stride of 0 is the block size. -/
def blockAt (base stride j : Nat) (t : Ty) : Nat :=
  base + j * (if stride = 0 then 32 * lineBytes t else stride)

/-- The row stride of `mld` and `mst` (R233). -/
def Cmd.rowStride (c : Cmd) (t : Ty) : Nat :=
  let rs := c.val 1 % 2 ^ 32
  if rs = 0 then 32 * (t.width / 8) else rs

/-- The lines of resident vector `i` of an `mmv` (R237). -/
def Cmd.resident (c : Cmd) (t : Ty) (i : Nat) : Nat :=
  let k := c.val 2 % 1024 + 1
  let rs := c.val 2 / 2 ^ 32
  c.ptr 0 + i * (if rs = 0 then k * lineBytes t else rs)

/-- The read ranges that a matrix command locks (R231). -/
def Cmd.readRanges (c : Cmd) : List (Nat × Nat) :=
  let product (x : MMul) : List (Nat × Nat) :=
    (List.range (x.k.val + 1)).flatMap (fun j =>
      [(blockAt (c.ptr 0) (c.val 2 % 2 ^ 32) j x.t, 32 * lineBytes x.t),
       (blockAt (c.ptr 1) (c.val 2 / 2 ^ 32) j (tbOf x), 32 * lineBytes (tbOf x))])
  match c.what with
  | .std (.mma x) => product x
  | .std (.msp x) => product x
  | .std (.mdir x) => [(c.ptr 0, 32 * lineBytes x.t)]
  | .std (.mdirPush x) => [(c.ptr 0, 32 * lineBytes x.t)]
  | .std (.mld x) => (List.range 32).map (fun i => (c.ptr 0 + i * c.rowStride x.t, 32 * (x.t.width / 8)))
  | .std (.mmv x) =>
    (List.range (c.val 2 / 1024 % 8 + 1)).map (fun i => (c.resident x.t i, (c.val 2 % 1024 + 1) * lineBytes x.t))
  | _ => []

/-- The rows that an `mst` writes. -/
def Cmd.writeRanges (c : Cmd) : List (Nat × Nat) :=
  match c.what with
  | .std (.mst x) => (List.range 32).map (fun i => (c.ptr 0 + i * c.rowStride x.t, 32 * (x.t.width / 8)))
  | _ => []

/-- The physical lines, core and line number, that `n` bytes at a scratchpad address of a core reach. -/
def linesAt (core a n : Nat) : List (Nat × Nat) :=
  let starts := 0 :: (List.range (n / 64 + 2)).map (fun i => (a / 64 + i + 1) * 64 - a)
  ((starts.filter (fun i => decide (i < n))).filterMap (fun i =>
    (spadByte core a i).map (fun p => (p.1, p.2 / 64)))).dedup

/-- The context whose scratchpad a core's access reaches on core `c`. -/
def State.spaceOf (s : State) (ctx core c : Nat) : Nat := if c = core then ctx else s.installedCtx c

/-- Whether an access touches a slot that is filling (R92); log 144. -/
def State.heldBack (s : State) (ctx core addr n : Nat) : Bool :=
  (linesAt core addr n).any (fun p => ((s.space (s.spaceOf ctx core p.1) p.1).stag (p.2 / 16)).state == 1)

/-! ### The attention descriptor (R246) -/

/-- An attention descriptor's fields. -/
structure AttDesc where
  kbase : Nat
  btab : Nat
  sbase : Nat
  hbase : Nat
  pool : Nat
  w6 : Nat
  w7 : Nat
  deriving DecidableEq, Repr

namespace AttDesc

def gen (x : AttDesc) : Nat := x.w6 / 2 ^ 32 % 2 ^ 16
def thr (x : AttDesc) : Nat := x.w6 / 2 ^ 16 % 2 ^ 9
def limit (x : AttDesc) : Nat := x.w6 / 2 ^ 8 % 2 ^ 8
def b (x : AttDesc) : Nat := x.w6 / 2 ^ 4 % 2 ^ 4 + 1
def tables (x : AttDesc) : Nat := x.w6 / 2 ^ 2 % 2 ^ 2 + 1
def dcode (x : AttDesc) : Nat := x.w6 % 4
def npages (x : AttDesc) : Nat := x.w7 % 2 ^ 32

/-- The head dimension; a dcode of 3 is charged as 256 (R249). -/
def d (x : AttDesc) : Nat := dimOf (Nat.min x.dcode 2)

/-- Whether a descriptor is valid. -/
def valid (x : AttDesc) : Bool :=
  x.dcode != 3 && decide (x.b ≤ 12) && x.limit != 0 && x.thr != 0 && decide (x.thr ≤ 256)
    && x.w6 / 2 ^ 48 == 0 && x.w6 / 2 ^ 25 % 2 ^ 7 == 0 && x.w7 / 2 ^ 32 == 0
    && x.sbase % 64 == 0 && x.hbase % 64 == 0 && x.pool % 64 == 0

/-- The commit-buffer units of a `kst` (R249). -/
def units (x : AttDesc) : Nat := x.d / 8 + x.tables

end AttDesc

/-- Bytes with tags of a scratchpad access, without a record. -/
def State.spadGet (s : State) (ctx core addr n : Nat) : List (Byte × Nat) :=
  (List.range n).map (fun i => (s.spadByteAt ctx core addr i, s.spadTagAt ctx core addr i))

/-- The descriptor at a scratchpad address, and its lowest tag. -/
def State.attDesc (s : State) (ctx core a : Nat) : AttDesc × Nat :=
  let l := s.spadGet ctx core a 64
  let w (i : Nat) : Nat := ofBytes (((l.drop (8 * i)).take 8).map (·.1))
  ({ kbase := w 0 % 2 ^ 57, btab := w 2 % 2 ^ 57, sbase := w 3 % 2 ^ 57, hbase := w 4 % 2 ^ 57
     pool := w 5 % 2 ^ 57, w6 := w 6, w7 := w 7 }, tagOfBytes l)

/-- Whether a `pgat` meets the attention fault or poison as its operands stand (R258, R259). -/
def State.pgatFaults (s : State) (core : Nat) (c : Cmd) : Bool :=
  let (x, dt) := s.attDesc c.ctx core (c.ptr 1)
  dt != 0 || !x.valid || tagOfBytes (s.spadGet c.ctx core (c.ptr 2) (4 * c.val 3)) != 0

/-! ### The path (R97, R98) -/

/-- The commands of a slot. -/
def EngineQ.of (q : EngineQ) (slot : Nat) : List Cmd :=
  (q.started ++ q.held ++ q.queue).filter (fun c => c.slot == slot && !c.killed)

/-- An engine without a slot's commands. -/
def EngineQ.without (q : EngineQ) (slot : Nat) : EngineQ :=
  let keep (l : List Cmd) := l.filter (fun c => !(c.slot == slot && !c.killed))
  { queue := keep q.queue, held := keep q.held, started := keep q.started }

/-- Whether a command is a `bgat`, or a `pgat` as well. -/
def isBgat : Decoded → Bool
  | .bgat _ | .bgatH1 _ => true
  | _ => false

def isGather : Decoded → Bool
  | .bgat _ | .bgatH1 _ | .pgatPg _ | .pgatTok _ => true
  | _ => false

def isPgat : Decoded → Bool
  | .pgatPg _ | .pgatTok _ => true
  | _ => false

def isMmv : Decoded → Bool
  | .std (.mmv _) => true
  | _ => false

/-- What a save records of an engine (R106, R198, R242): a started command resumes at its progress with its wait satisfied, the
started ones in their acceptance order (R423). A `bgat` whose word still waits for its heads issues again. -/
def EngineQ.saved (q : EngineQ) (slot : Nat) : List Cmd :=
  (sortBy (fun (a b : Cmd) => decide (a.place < b.place)) (q.started.map (fun (c : Cmd) => { c with resumed := true }))
    ++ q.held ++ q.queue).filter (fun c => c.slot == slot && !c.killed && !(isBgat c.what && c.progress == 0))

/-- Whether a recorded or held command is a started copy, which keeps its progress and is never dropped (R106, R107, R423). -/
def Cmd.copying (c : Cmd) : Bool := c.resumed && !isGather c.what

/-! ### Gates (R94, R95) -/

def gateOf (sp : Space) (n : Nat) : Gate := Tab.get .zero sp.gates n

/-- A gate changed; the slots that fill on its phase become valid (R91). -/
def Space.setGate (sp : Space) (g : Nat) (x : Gate) : Space :=
  { sp with
    gates := Tab.set .zero sp.gates g x
    stags := sp.stags.map (fun p =>
      if p.2.state = 1 ∧ p.2.gate = g ∧ p.2.phase = x.phase then
        (p.1, { p.2 with state := 2, gate := 0, phase := false })
      else p) }

/-- A toggle (R95). -/
def Gate.toggle (g : Gate) (ovf : Bool) : Gate :=
  { g with count := g.reload, phase := !g.phase, ovf := g.ovf || ovf }

/-- Takes the sum of engine decrements from a gate (R95); a decrement of 0 changes nothing (log 25). -/
def Gate.down (g : Gate) (d : Nat) : Gate :=
  if d = 0 then g
  else if d < g.count then { g with count := g.count - d }
  else g.toggle (decide (g.count < d))

/-- Changes a gate of a context on a core. -/
def State.modGate (s : State) (ctx core g : Nat) (f : Gate → Gate) : State :=
  s.modSpace ctx core (fun sp => sp.setGate g (f (gateOf sp g)))

/-- Landed bytes of a command, and whether it ends, at its signal gate (R95). -/
def State.signal (s : State) (core : Nat) (c : Cmd) (bytes : Nat) (ends : Bool) : State :=
  match c.gates.sig with
  | none => s
  | some g => s.modGate c.ctx core g.val (fun x => x.down (if x.cmd then (if ends then 1 else 0) else bytes))

/-! ### When a command may start, and what it waits for -/

/-- A held command is ready when it waits for no gate or its gate has the phase (R97). -/
def State.cmdReady (s : State) (core : Nat) (c : Cmd) : Bool :=
  c.resumed || (match c.gates.wait with
    | none => true
    | some (g, p) => (gateOf (s.space c.ctx core) g.val).phase == p)

/-- Whether the task of a slot has its engine commands run: not while it is saved or held, and not while it waits for a migrating
page, whose access stands at the hive until the invalidation (R82). -/
def TStat.live : TStat → Bool
  | .parked (.migrating _) => false
  | .ready | .running | .parked _ | .committing => true
  | _ => false

def State.cmdLive (s : State) (core : Nat) (c : Cmd) : Bool :=
  c.killed || (s.task (core * 8 + c.slot)).stat.live

/-- Whether a command's task is being killed (R198, R242). -/
def TStat.dying : TStat → Bool
  | .killing _ => true
  | _ => false

def State.cmdDying (s : State) (core : Nat) (c : Cmd) : Bool := (s.task (core * 8 + c.slot)).stat.dying

/-- Whether a command accesses memory as the supervisor's (R380): its task's mode, and for a task that a kill has ended its
context's. -/
def State.cmdSuper (s : State) (core : Nat) (c : Cmd) : Bool :=
  if c.killed then c.ctx == 0 else (s.task (core * 8 + c.slot)).super

/-- Whether an earlier command of the other engine still orders a command by a vector register (R223). -/
def clashes (c : Cmd) (other : EngineQ) : Bool :=
  let (r, w) := vregsOf c.what
  (other.started ++ other.held ++ other.queue).any (fun o =>
    o.slot == c.slot && decide (o.place < c.place) &&
      (let (r', w') := vregsOf o.what
       w'.any r.contains || r'.any w.contains))

/-- The gate, if any, on which the matrix command waits that locks one of these lines (R231, R232), among those that
`earlier` picks: `none` when none of them locks a line. -/
def State.lockBy (s : State) (core : Nat) (earlier : Cmd → Bool) (lines : List (Nat × Nat)) : Option (Option Nat) :=
  let q := (s.core core).mq
  let hits (c : Cmd) : Bool :=
    earlier c && c.readRanges.any (fun r => (linesAt core r.1 r.2).any (fun l => lines.contains l))
  if lines = [] then none
  else if q.started.any hits then some none
  else
    match q.held.find? hits with
    | some c => some (if s.cmdReady core c then none else c.gates.wait.map (fun g => g.1.val))
    | none => if q.queue.any hits then some none else none

/-- The lock that holds a store of the scalar stream: every matrix command issued before it may hold one. -/
def State.lockOn (s : State) (core : Nat) (lines : List (Nat × Nat)) : Option (Option Nat) :=
  s.lockBy core (fun _ => true) lines

/-- The lines that a vector store writes. -/
def State.storeLines (s : State) (core : Nat) (c : Cmd) : List (Nat × Nat) :=
  if vstores c.what then (s.vaccess (core * 8 + c.slot) c).flatMap (fun p => linesAt core p.1 p.2) else []

/-- The registers that decide the lines of a vector store: its mask, and the indices of a `vstx`. -/
def storeRegs : Decoded → List Nat × List Nat
  | .std (.vst x) | .std (.vstf x) => (if x.pred.val = 0 then [] else [x.pred.val], [])
  | .std (.vstx x) => (if x.pred.val = 0 then [] else [x.pred.val], [x.b.val])
  | _ => ([], [])

/-- Whether a started vector command still has to write a register that decides the lines of a store. -/
def State.linesOpen (s : State) (core : Nat) (c : Cmd) : Bool :=
  let (m, v) := storeRegs c.what
  (s.core core).vq.started.any (fun o =>
    o.slot == c.slot && ((mregsOf o.what).any m.contains || (vregsOf o.what).2.any v.contains))

/-- The lock that holds a vector store, once its lines are known. -/
def State.storeLock (s : State) (core : Nat) (c : Cmd) : Option (Option Nat) :=
  if vstores c.what && !s.linesOpen core c then
    s.lockBy core (fun o => decide (o.place < c.place)) (s.storeLines core c)
  else none

/-- Whether the vector engine may start a command: ready, its cross-engine registers in place, its store's lines known and not
locked (R197, R231). -/
def State.vecMayStart (s : State) (core : Nat) (c : Cmd) : Bool :=
  s.cmdReady core c && !clashes c (s.core core).mq && !s.linesOpen core c && (s.storeLock core c).isNone

/-- The copy engine's places in use: its started commands and the stream of a started `mmv` (R97, R238). -/
def Core.copyPlaces (x : Core) : Nat :=
  x.cq.started.length + (x.mq.started.filter (fun c => isMmv c.what)).length

/-- Whether the matrix engine may start a command: ready, its cross-engine registers in place, no `mmv` before it that a save or a
kill may still abandon (R242), and for an `mmv` a place of the copy engine. -/
def State.matMayStart (s : State) (core : Nat) (c : Cmd) : Bool :=
  let x := s.core core
  s.cmdReady core c && !clashes c x.vq && !x.mq.started.any (fun o => isMmv o.what)
    && (!(isMmv c.what) || decide (x.copyPlaces < 4))

/-- The engine of a core. -/
def Core.engine (x : Core) : Engine → EngineQ
  | .vector => x.vq
  | .matrix => x.mq
  | .copy => x.cq

def Core.setEngine (x : Core) (e : Engine) (q : EngineQ) : Core :=
  match e with
  | .vector => { x with vq := q }
  | .matrix => { x with mq := q }
  | .copy => { x with cq := q }

/-- Whether a copy command that has not started stands behind a `pgat` of its task whose attention fault would spare it: one that may
run, or that meets the fault as its operands stand (R195, R259; log 121). -/
def State.behindPgat (s : State) (core : Nat) (c : Cmd) : Bool :=
  let q := (s.core core).cq
  let before (o : Cmd) : Bool := o.slot == c.slot && !o.killed && isPgat o.what && decide (o.place < c.place)
  !c.resumed && (q.started.any before || (q.held ++ q.queue).any (fun o => before o && (s.cmdReady core o || s.pgatFaults core o)))

/-- Whether an earlier copy command of the task has still to complete before a fault in command order (R195, R259). -/
def State.copiesBefore (s : State) (core : Nat) (c : Cmd) : Bool :=
  ((s.core core).cq.of c.slot).any (fun o => decide (o.place < c.place))

/-- The held command that an engine starts next: the vector and matrix engines strictly in acceptance order, also behind one whose
task is held up (R194, R222), the copy engine any that is ready, while it has a place (R97). -/
def State.nextStart (s : State) (core : Nat) (e : Engine) : Option Cmd :=
  let x := s.core core
  let held := (x.engine e).held
  match e with
  | .vector => held.head?.filter (fun c => s.cmdLive core c && s.vecMayStart core c)
  | .matrix => held.head?.filter (fun c => s.cmdLive core c && s.matMayStart core c)
  | .copy =>
    if x.copyPlaces < 4 then held.find? (fun c => s.cmdLive core c && s.cmdReady core c && !s.behindPgat core c) else none

/-- Whether an engine takes a command from its coprocessor queue. -/
def EngineQ.accepts (q : EngineQ) : Bool := q.queue != [] && decide (q.held.length < 16)

/-- The lines of an engine's store to its own scratchpad that the task's undo log does not hold. -/
def State.unlogged (s : State) (core : Nat) (c : Cmd) (l : List (Nat × Nat)) : List Nat :=
  (((l.flatMap (fun p => linesAt core p.1 p.2)).filter (fun x => x.1 == core)).map (·.2)).dedup.filter
    (fun x => !((s.task (core * 8 + c.slot)).undo.any (fun u => u.line == x)))

/-- Whether a started store of an ordered task beyond the horizon would make it non-replayable: it waits (R302). -/
def State.storeEarly (s : State) (core : Nat) (c : Cmd) : Bool :=
  let k := core * 8 + c.slot
  let t := s.task k
  let l := (if vstores c.what then s.vaccess k c else []) ++ c.writeRanges
  t.replayable && s.beyondHorizon t &&
    (l.any (fun p => (linesAt core p.1 p.2).any (fun x => x.1 != core))
      || decide (64 < t.undo.length + (s.unlogged core c l).length))

/-- Whether a started command must push into a full result FIFO (R194, R222). -/
def State.fifoFull (s : State) (core : Nat) (c : Cmd) : Bool :=
  match pushesFifo c.what with
  | some i => decide (4 ≤ (Tab.get [] (s.task (core * 8 + c.slot)).q i).length)
  | none => false

/-- Whether a command of the vector or matrix engine touches a slot that is filling (R92). -/
def State.cmdFilling (s : State) (core : Nat) (c : Cmd) : Bool :=
  (s.vaccess (core * 8 + c.slot) c ++ s.attAccess core c ++ c.readRanges ++ c.writeRanges).any (fun p => s.heldBack c.ctx core p.1 p.2)

/-- Whether a started command of the vector or matrix engine waits: for a filling slot or a full result FIFO (R92, R194), for the
horizon (R302), or with its task for a migrating page (R82). A task being killed takes no result and waits for no horizon. -/
def State.cmdBlocked (s : State) (core : Nat) (c : Cmd) : Bool :=
  let migrating := match (s.task (core * 8 + c.slot)).stat with | .parked (.migrating _) => true | _ => false
  (!s.cmdDying core c && (s.fifoFull core c || s.storeEarly core c)) || migrating || s.cmdFilling core c

/-- Whether a started command cannot complete while the scalar stream and the copies of its task are stopped (log 112): its FIFO is
full, it waits for the horizon, or it touches a filling slot while its task's own copies stand. -/
def State.cmdStuck (s : State) (core : Nat) (c : Cmd) : Bool :=
  let runs := match (s.task (core * 8 + c.slot)).stat with
    | .ready | .running | .killing _ => true
    | _ => false
  !runs && (s.fifoFull core c || s.storeEarly core c || (s.cmdFilling core c && !((s.core core).cq.of c.slot).isEmpty))

/-- Whether a slot has started commands that a save lets complete (R198, R242, R258): all but an `mmv`, and those that cannot complete
or stand behind such a one of their engine (log 112); every `bgat` and `pgat` but one whose fault waits for copies that have
stopped. -/
def State.finishing (s : State) (core slot : Nat) : Bool :=
  let x := s.core core
  let mine (c : Cmd) : Bool := c.slot == slot && !c.killed
  let moving (q : EngineQ) : Bool :=
    (q.started.takeWhile (fun c => !s.cmdStuck core c)).any (fun c => mine c && !isMmv c.what)
  let waits (c : Cmd) : Bool := isPgat c.what && s.pgatFaults core c && s.copiesBefore core c
  moving x.vq || moving x.mq || x.cq.started.any (fun c => mine c && isGather c.what && !waits c)

/-- Whether a killed task's started commands of the vector and matrix engines still have to complete (R198, R242). -/
def State.completing (s : State) (core slot : Nat) : Bool :=
  let x := s.core core
  (x.vq.started ++ x.mq.started).any (fun c => c.slot == slot)

/-- Whether an engine has a started command or can make progress (R98). -/
def State.engineMoves (s : State) (core : Nat) (e : Engine) : Bool :=
  let q := (s.core core).engine e
  q.started != [] || (s.nextStart core e).isSome || q.accepts

/-- The wait gate on which a vector store stalls that stands next to start, held by the lock of a matrix command (R232). -/
def State.storeStall (s : State) (core : Nat) : Option Nat :=
  (((s.core core).vq.held.head?.filter (s.cmdLive core)).bind (s.storeLock core)).join

def State.enginesBusy (s : State) (core : Nat) : Bool :=
  s.engineMoves core .vector || s.engineMoves core .matrix || s.engineMoves core .copy

/-- What the engines of a core can do now, as events. -/
def State.engineEvents (s : State) (core : Nat) : List Event :=
  let x := s.core core
  let one (e : Engine) : List Event :=
    (if (x.engine e).accepts then [.engineCommandAccept core e] else [])
      ++ (if (s.nextStart core e).isSome then [.engineCommandStart core e] else [])
  one .vector ++ one .matrix ++ one .copy
    ++ (match x.vq.started.head? with
      | some c => if s.cmdBlocked core c then [] else [.vectorCommandComplete core]
      | none => [])
    ++ (match x.mq.started.head? with
      | some c => if s.cmdBlocked core c then [] else [.matrixCommandRetire core, .mmvStreamFault core]
      | none => [])
    ++ (List.range x.cq.started.length).map (fun i => .copyBeatLand core i)

end Sys2Proof.Machine
end

