-- ==== Sys2Proof/Machine/Ops.lean ====
section
/-! DEFINITION. The shared operations: starting and ending tasks, TAKING AN EXCEPTION and returning from one, saves,
kills, messages, and the frame in which an instruction word runs. -/

namespace Sys2Proof.Machine

open Sys2Proof.Machine.Num

/-! ### Messages (R333, R334) -/

/-- A header with another core, and g9 of a delivered message (R334): a launch's sender, the front hive, is no core, so its field
holds a free value (log 29). -/
def hdrSetCore (h : Word) (core : Nat) : Word :=
  mkHdr (hdrTs h) (hdrFar h) (if core < 8192 then core else Config.launchSender % 8192) (hdrTag h) (hdrPrio h) (hdrLen h) (hdrTrm h)

/-- A message of the device's own to a user slot: tag, context, payload. -/
def sysMessage (ts tag ctx src dst prio : Nat) (payload : List Word) : Message :=
  { hdr := mkHdr ts false dst tag prio payload.length 0, src := src, dst := dst, ctx := ctx
    payload := payload.map (fun w => { v := w, tag := 0 }), svc := .task, entry := none, mark := none
    tid := none, deferred := false, flight := none }

/-- The message that a ring entry sends to hive-local core 0 of its hive (R380): the kernel's task on tag 10 with the entry's words as
payload. Its prio is 6 (log 13). -/
def ringMessage (hv : Nat) (e : RingEntry) (src : Nat) : Message :=
  { sysMessage 0 10 0 src (hiveCore hv 0) 6 e with svc := .ring }

/-! ### Error records (R386) -/

/-- The address of error record `n`. -/
def State.errAddr (s : State) (n : Nat) : Nat := s.erbase.toNat / 2 ^ 17 % 2 ^ 23 * 2 ^ 17 + n * 32

/-- Allocates an error record and answers its tag. -/
def State.errorRecord (s : State) (source unit pa lines : Nat) : Nat × State :=
  if !s.erbase.getLsbD 16 then (0xFFF, s)
  else if 0xFFE < s.erNext then (0xFFF, s)
  else
    let n := s.erNext
    let s := { s with erNext := n + 1 }
    (n, s.writeWords (s.errAddr n)
      [BitVec.ofNat 64 (source * 2 ^ 56 + unit % 2 ^ 24 * 2 ^ 32 + lines), BitVec.ofNat 64 pa,
       BitVec.ofNat 64 s.cyc, 0])

/-- The first access to a part of a peer's window that the peer does not serve allocates the link record that tags what it reads
(R408). -/
def State.notePeer (s : State) (pa : Nat) : State :=
  let dev := peerOf pa
  let p := Tab.get Peer.none s.peers dev
  if paKind pa = .peer ∧ !s.peerServes pa ∧ p.tag = 0 then
    let (g, s) := s.errorRecord 4 ((Tab.get [] s.routes dev).headD 0) pa 1
    { s with peers := Tab.set Peer.none s.peers dev { p with tag := g } }
  else s

/-- The first consumer of a tag enters its record (R386, R391). -/
def State.consumed (s : State) (tag tid : Nat) : State :=
  if tag = 0 ∨ tag = 0xFFF ∨ !s.erbase.getLsbD 16 then s
  else if s.word (s.errAddr tag + 24) = 0 then s.writeWord (s.errAddr tag + 24) (BitVec.ofNat 64 tid)
  else s

/-- A record enters the management mailbox of 256 (R411): the oldest gives way when it is full. -/
def State.mail (s : State) (r : List Word) : State :=
  if s.mailbox.length < 256 then { s with mailbox := s.mailbox ++ [r] }
  else { s with mailbox := s.mailbox.drop 1 ++ [r], mailboxLost := s.mailboxLost + 1 }

/-- A machine error reported to the management port (R378, R411): a number for its kind, and what it names (log 28). -/
def State.machineError (s : State) (kind item : Nat) : State :=
  ({ s with machineErrors := s.machineErrors ++ [(kind, item)] }).mail [BitVec.ofNat 64 kind, BitVec.ofNat 64 item]

/-! ### Performance counters (R399, R400) -/

/-- Adds `n` occurrences of an event to one counter: the carry out of bit 47 wraps the count; the overflow flag follows in the
next cycle. -/
def Pmc.add (p : Pmc) (event n : Nat) : Pmc :=
  if event = 0 ∨ p.event ≠ event then p
  else if p.count + n < 2 ^ 48 then { p with count := p.count + n }
  else { p with count := (p.count + n) % 2 ^ 48, pending := true }

/-- The next cycle after a carry. -/
def Pmc.flag (p : Pmc) : Pmc := { p with ovf := p.ovf || p.pending, pending := false }

/-- Counts an event at a core. -/
def State.pmcEvent (s : State) (core event n : Nat) : State :=
  if (s.core core).pmc = [] then s
  else s.modCore core (fun c => { c with pmc := c.pmc.map (fun p => (p.1, p.2.add event n)) })

/-! ### Termination records (R357, R358) -/

def State.termRec (s : State) (core r : Nat) : TermRec := Tab.get .idle (s.core core).term r

def State.modTerm (s : State) (core r : Nat) (f : TermRec → TermRec) : State :=
  s.modCore core (fun c => { c with term := Tab.set .idle c.term r (f (Tab.get .idle c.term r)) })

/-- The region of a live task. -/
def Task.trm (t : Task) : Nat := match t.start with | some m => hdrTrm m.hdr | none => 0

/-! ### Contexts and slots -/

/-- Whether cores may start tasks of a context (R367, R368, R385). Context 0 is the hive kernel's and always resident
(log 12). -/
def State.canStart (s : State) (ctx : Nat) : Bool :=
  let c := s.ctx ctx
  (ctx == 0 || c.resident) && !c.stopping && !c.stopped

/-- Whether a core holds work of a context: a user slot, or a command of an engine or of the memory port. -/
def State.holdsWork (s : State) (ctx core : Nat) : Bool :=
  let c := s.core core
  (List.range 7).any (fun i => (s.task (core * 8 + i)).stat != .free && (s.task (core * 8 + i)).ctx == ctx)
    || [c.vq, c.mq, c.cq].any (fun q => (q.queue ++ q.held ++ q.started).any (fun x => x.ctx == ctx))
    || c.gp.any (fun g => g.ctx == ctx)

/-- The handles of a core's saved tasks of a context stand in its core image, at places that no rule gives (R385, R394). -/
def State.writeHandles (s : State) (ctx core : Nat) : State :=
  let base := (s.ctx ctx).csvbase.toNat + core * 2 ^ 19
  let mine := s.saved.filter (fun (p : Nat × Saved) => p.2.task.ctx == ctx && p.2.core == core)
  mine.zipIdx.foldl
    (fun s (p : (Nat × Saved) × Nat) => s.writeWord (base + Config.imagePlace p.2 % 2 ^ 16 * 8) (BitVec.ofNat 64 p.1.1)) s

/-- `n` bytes whose values no rule gives. -/
def freeBytes (tick : Nat) : Nat → Nat → List Byte
  | _, 0 => []
  | i, n + 1 => Config.saveByte tick i :: freeBytes tick (i + 1) n

/-- Writes bytes without poison: the lines that they fill take tag 0 (R387), and what a lost stack holds is dropped (R39). -/
def State.writeClean (s : State) (pa : Nat) (bs : List Byte) : State :=
  if s.hbm.all (fun p => p.2.lost.isNone) then
    { s with
      mem := writeList s.mem pa bs
      lineTags := s.lineTags.filter (fun p => decide (p.1 * 64 < pa) || decide (pa + bs.length < p.1 * 64 + 64)) }
  else s.writeMem pa bs 0

/-- The bytes of a core image of 512 KiB: no rule lays out what it holds (R394; log 9). -/
def State.imageBytes (s : State) (ctx core : Nat) : State :=
  s.writeClean ((s.ctx ctx).csvbase.toNat + core * 2 ^ 19) (freeBytes s.tick 0 (2 ^ 19))

/-- When the last user task of a context has left a core, its core image is written and its scratchpad leaves (R394, R395):
slots in state 0 are not saved. -/
def State.writeImage (s : State) (ctx core : Nat) : State :=
  if (List.range 7).any (fun i =>
      let t := s.task (core * 8 + i)
      t.stat != .free && t.stat != .reserved && t.ctx == ctx) then s
  else if (s.core core).installed ≠ some ctx then s
  else
    let sp := s.space ctx core
    let idle := (List.range 256).filter (fun sl => (sp.stag sl).state == 0)
    let s := s.setSpace 4096 core { Space.empty with bytes := sp.bytes, written := sp.written, tags := sp.tags }
    let s := ((s.setSpace ctx core (idle.foldl Space.clearSlot sp)).imageBytes ctx core).writeHandles ctx core
    s.modCore core (fun c => { c with installed := none, victims := [] })

/-- Whether a context's scratchpad is or may be installed on a core (R85): a context with no work left there gives the core up to
another (R366, log 102); context 0 takes no core (log 12). -/
def State.canInstall (s : State) (ctx core : Nat) : Bool :=
  match (s.core core).installed with
  | none => true
  | some c => c == ctx || c == 0 || ctx == 0 || !s.holdsWork c core

/-- Installs a context's scratchpad on a core: the image of the context that gives the core up is written, and the leftover of
an empty core is discarded. -/
def State.install (s : State) (ctx core : Nat) : State :=
  let fresh (s : State) : State :=
    let s := s.modCore core (fun x => { x with installed := some ctx, dir := [] })
    (s.setSpace 4096 core .empty).modSpace ctx core (fun sp => { sp with present := true })
  match (s.core core).installed with
  | some c => if c = ctx ∨ ctx = 0 then s
    else if c = 0 then s.modCore core (fun x => { x with installed := some ctx, dir := [] })
    else fresh (s.writeImage c core)
  | none => fresh s

/-- A freed slot: its vector registers and masks stay (R334). -/
def Task.freed' (t : Task) : Task := { Task.idle with v := t.v, m := t.m }

/-- A slot whose commit failed: nothing of its task is left but its context and identifier (R345). -/
def Task.failed (t : Task) : Task := { t.freed' with stat := .failed, ctx := t.ctx, tid := t.tid }

/-- The slot whose failed commit a message's handler reports: the slot that a ring entry's w0 and w1 name, or the slot of the
task that g7 of a version upcall names (R67, R382). -/
def State.failedSlot (s : State) (m : Message) : Option Nat :=
  let w (i : Nat) : Nat := ((m.payload[i]?).map (·.v.toNat)).getD 0
  let failed (tid k : Nat) : Bool := (s.task k).stat == .failed && (s.task k).ctx == m.ctx && (s.task k).tid == tid
  if hdrTag m.hdr ≠ 10 then none
  else if hdrTs m.hdr = 0 then
    let k := w 0 / 2 ^ 24 % 2 ^ 16
    if (s.task k).stat = .failed ∧ (s.task k).tid = w 1 then some k else none
  else ((List.range 7).map (m.dst * 8 + ·)).find? (failed (w 6))

/-- The slot of a failed commit is free (R345). -/
def State.freeFailed (s : State) (k : Nat) : State :=
  (s.setTask k (s.task k).freed').push (.spillWake (s.task k).ctx (k / 8))

/-- The handler of a failed commit's trap has started: the slot of the failed commit is free (R345). -/
def State.handlerStarted (s : State) (m : Message) : State :=
  match s.failedSlot m with
  | some k => s.freeFailed k
  | none => s

/-- The lowest free user slot of a core. -/
def State.freeSlot (s : State) (core : Nat) : Option Nat :=
  (List.range 7).find? (fun i => (s.task (core * 8 + i)).stat == .free)

/-- The slot that a message's task takes: a free one, else the slot of the failed commit that it reports (log 34). -/
def State.slotFor (s : State) (core : Nat) (m : Message) : Option Nat :=
  match s.freeSlot core, s.failedSlot m with
  | some i, _ => some i
  | none, some k => if k / 8 = core then some (k % 8) else none
  | none, none => none

/-- Effective priority order of ready slots (R365): higher level first, then ready longest. -/
def readyBefore (a b : Task) : Bool :=
  decide (b.level < a.level) || (a.level == b.level && decide (a.since < b.since))

/-- The ready user slot that a core selects. -/
def State.pickReady (s : State) (core : Nat) : Option Nat :=
  (List.range 7).foldl
    (fun (best : Option Nat) i =>
      let t := s.task (core * 8 + i)
      if t.stat != .ready || !s.canStart t.ctx then best
      else match best with
        | none => some i
        | some j => if readyBefore t (s.task (core * 8 + j)) then some i else best) none

/-- Selects a user task when none runs (R365); it runs at its entry priority (R364). -/
def State.select (s : State) (core : Nat) : State :=
  if (s.core core).running.isSome then s
  else
    match s.pickReady core with
    | none => s
    | some i =>
      let s := s.modTask (core * 8 + i) (fun t => { t with stat := .running, level := t.entryPrio })
      s.modCore core (fun c => { c with running := some i })

/-- The task of a slot leaves the running state. -/
def State.unrun (s : State) (k : Nat) : State :=
  if (s.core (k / 8)).running = some (k % 8) then
    s.modCore (k / 8) (fun c => { c with running := none })
  else s

/-- The registers of a task's start (R334). -/
def startRegs (m : Message) : Tab Tagged :=
  let pay := (m.payload.take 8).zipIdx.foldl
    (fun t (p : Tagged × Nat) => Tab.set { v := 0, tag := 0 } t (p.2 + 1) p.1) ([] : Tab Tagged)
  Tab.set { v := 0, tag := 0 } pay 9 { v := hdrSetCore m.hdr m.src, tag := m.htag }

/-- The group that a message's route tag is bound to now (R336, R347). -/
def State.boundGroup (s : State) (core : Nat) (m : Message) : Option Nat :=
  let te := s.tagEntry m.ctx core (hdrTag m.hdr)
  if te.bound then some te.grp else none

/-- Starts a task in a free slot (R334): entry, priority and registers g1 to g9. -/
def State.startAt (s : State) (core slot : Nat) (m : Message) (entry prio : Nat) (regs : Tab Tagged) :
    State :=
  let k := core * 8 + slot
  let old := s.task k
  let seq := (s.cc m.ctx core).tidSeq
  let tid := m.tid.getD (core * 2 ^ 35 + seq)
  let s := if m.tid.isSome then s else s.modCc m.ctx core (fun c => { c with tidSeq := (seq + 1) % 2 ^ 35 })
  let s := (s.install m.ctx core).pmcEvent core 5 1
  let s := s.setTask k
    { old.freed' with
      stat := .ready, ctx := m.ctx, tid := tid, prio := prio, entryPrio := prio, level := prio
      since := s.tick, waitFrom := s.cyc, super := m.ctx == 0, start := some m, grp := s.boundGroup core m, pc := entry
      g := regs, cycEnq := s.cyc, cycStart := s.cyc }
  s.handlerStarted m

/-! ### Node records (R312, R313) and meets (R319) -/

def hSym (w : Nat) : Nat := w / 2 ^ 48 % 65536
def hArity (w : Nat) : Nat := w / 2 ^ 45 % 8
def hPay (w : Nat) : Bool := w / 2 ^ 44 % 2 == 1
def hCons (w : Nat) : Bool := w / 2 ^ 43 % 2 == 1
def hHcnt (w : Nat) : Nat := w / 2 ^ 40 % 8
def hOwner (w : Nat) : Nat := w / 2 ^ 27 % 8192

/-- The owning core of a node (R312). -/
def nodeOwner (va : Nat) : Nat := va / 2 ^ 21 % 8192

/-- A link word's fields. -/
structure Lnk where
  kind : Nat
  absorb : Bool
  res : Bool
  addr : Nat
  deriving DecidableEq, Repr

def lnkOf (w : Nat) : Lnk :=
  { kind := w / 2 ^ 61, absorb := w / 2 ^ 60 % 2 == 1, res := w / 2 ^ 59 % 2 == 1, addr := w % 2 ^ 57 }

def Lnk.word (l : Lnk) : Nat :=
  l.kind * 2 ^ 61 + (if l.absorb then 2 ^ 60 else 0) + (if l.res then 2 ^ 59 else 0) + l.addr % 2 ^ 57

def kOpen : Nat := 0
def kPort : Nat := 1
def kHinge : Nat := 2
def kFused : Nat := 3
def kDrained : Nat := 4

/-- The node of a port address. -/
def nodeOf (port : Nat) : Nat := port / 64 * 64

/-- Whether a port address is valid in a node (R314). -/
def portOk (hdr port : Nat) : Bool :=
  let p := port % 8
  port / 8 % 8 == 0 && p != 7 && decide (p ≤ hArity hdr) && !(p == 6 && hPay hdr)

/-- Word `i` of the node at a physical address. -/
def State.nodeWord (s : State) (pa i : Nat) : Nat := ofBytes (s.physRead (pa + 8 * i) 8)

/-- Whether word `i` of a node was written in a way that R313 or R316 does not allow: no commit has laid the node since it was last
freed, or the word was written since otherwise than by the relink handler. -/
def State.netMarked (s : State) (ctx va i : Nat) : Bool :=
  !s.nodeLines.contains (ctx, va) || s.netMarks.contains (ctx, va / 8 + i)

/-- Whether a free chain names a node, within as many links as the list holds. -/
def State.chainHas (s : State) (ctx seg idx : Nat) : Nat → Nat → Bool
  | _, 0 => false
  | at', n + 1 =>
    at' != 0 && (at' == idx || match s.lineAt ctx (seg + at' * 64) with
      | some pa => s.chainHas ctx seg idx (s.nodeWord pa 1 % 2 ^ 15) n
      | none => false)

/-- Whether a node is free: in its owner's cache or on its chain (R349). -/
def State.nodeFree (s : State) (ctx va : Nat) : Bool :=
  let seg := va / 2 ^ 21 * 2 ^ 21
  (s.cc ctx (nodeOwner va)).nodeCache.contains va || match s.lineAt ctx seg with
    | some pa => s.chainHas ctx seg ((va - seg) / 64) (s.nodeWord pa 0 % 2 ^ 15) (s.nodeWord pa 1 % 2 ^ 16)
    | none => false

/-- A line holds no node any more: what was noted of its words is gone. -/
def State.dropNodeLine (s : State) (ctx va : Nat) : State :=
  { s with
    nodeLines := s.nodeLines.filter (· != (ctx, va))
    netMarks := s.netMarks.filter (fun w => (w.1, w.2 / 8) != (ctx, va / 64)) }

/-- A freed node goes to the cache, or to the head of the chain when the cache is full (R349); while a page of the chain moves (R82)
it stays in the cache (DESIGN CHOICE, log 129). -/
def State.freeNode (s : State) (ctx va : Nat) : State :=
  let s := s.dropNodeLine ctx va
  let core := nodeOwner va
  let seg := va / 2 ^ 21 * 2 ^ 21
  if (s.cc ctx core).nodeCache.length < 32 ∨ s.pageMoving ctx seg ∨ s.pageMoving ctx va then
    s.modCc ctx core (fun c => { c with nodeCache := c.nodeCache ++ [va] })
  else
    match s.lineAt ctx seg, s.lineAt ctx va with
    | some pa, some pn =>
      let w (i : Nat) : Nat := ofBytes (s.physRead (pa + 8 * i) 8)
      let s := s.physWrite (pn + 8) (bytesOf 8 (w 0 % 2 ^ 15)) 0
      let s := s.physWrite pa (bytesOf 8 (w 0 / 2 ^ 15 * 2 ^ 15 + (va - seg) / 64)) 0
      s.physWrite (pa + 8) (bytesOf 8 (w 1 / 2 ^ 16 * 2 ^ 16 + (w 1 + 1) % 2 ^ 16)) 0
    | _, _ => s

/-- Whether a header keeps the limits of R311 and R313. -/
def headerOk (va w : Nat) : Bool :=
  hSym w != 0 && decide (hArity w ≤ 6) && !(hPay w && hArity w == 6) && hOwner w == nodeOwner va
    && decide (hHcnt w ≤ hArity w)

/-- A node's header with its poison tag, as one read of memory finds it. -/
def State.nodeHeader (s : State) (ctx va : Nat) : Option Tagged :=
  (s.lineAt ctx va).map (fun pa => { v := BitVec.ofNat 64 (ofBytes (s.physRead pa 8)), tag := s.physTag pa 8 })

/-- Whether a node's header lets a meet start a handler: readable, within its limits, not consumed (R313, R319). -/
def State.meetsOk (s : State) (ctx va : Nat) : Bool :=
  match s.lineAt ctx va with
  | some pa => let h := s.nodeWord pa 0; headerOk va h && !hCons h && !s.netMarked ctx va 0
  | none => false

/-- Whether the headers of a meet let it start a handler. -/
def State.meetOk (s : State) (ctx lo hi : Nat) : Bool := s.meetsOk ctx lo && s.meetsOk ctx hi

/-- Whether a page of a meet's nodes is migrating, so that the reads of its delivery are held (R82). -/
def State.meetMoving (s : State) (ctx lo hi : Nat) : Bool := s.pageMoving ctx lo || s.pageMoving ctx hi

/-- The registers of a meet's handler: the two nodes, their headers, and the message's header. -/
def meetRegs (m : Message) (x y : Nat) (hx hy : Tagged) : Tab Tagged :=
  let z : Tagged := { v := 0, tag := 0 }
  [(1, { v := BitVec.ofNat 64 x, tag := 0 }), (2, { v := BitVec.ofNat 64 y, tag := 0 }), (3, hx), (4, hy),
   (9, { v := hdrSetCore m.hdr m.src, tag := m.htag })].foldl (fun t (p : Nat × Tagged) => Tab.set z t p.1 p.2) []

/-- Starts the handler of a meet whose headers allow it (R319): the rule's on a hit, which makes the rule the most recently
used; else the handler bound to tag 1. -/
def State.startMeet (s : State) (core slot : Nat) (m : Message) (lo hi : Nat) : State :=
  let te := s.tagEntry m.ctx core 1
  match s.nodeHeader m.ctx lo, s.nodeHeader m.ctx hi with
  | some a, some b =>
    let sa := hSym a.v.toNat
    let sb := hSym b.v.toNat
    let l := Nat.min sa sb
    let h := Nat.max sa sb
    match (s.core core).rules.find? (fun r => r.ctx == m.ctx && r.lo == l && r.hi == h) with
    | some r =>
      let s := s.modCore core (fun c => { c with rules := c.rules.filter (· != r) ++ [r] })
      let first := if sa = sb then true else (sa == (if r.swap then h else l))
      s.startAt core slot m r.entry te.prio (if first then meetRegs m lo hi a b else meetRegs m hi lo b a)
    | none => s.startAt core slot m te.entry te.prio (meetRegs m lo hi a b)
  | _, _ => s

/-- Starts a message's task by the entry of its route tag, or by the entry it carries (R334, R343). A meet whose headers
forbid a handler, or whose page migrates, goes to its event, which raises the net fault or waits. -/
def State.startTask (s : State) (core slot : Nat) (m : Message) : State :=
  let te := s.tagEntry m.ctx core (hdrTag m.hdr)
  match m.svc, m.entry with
  | .meet _ lo hi, _ =>
    if s.meetOk m.ctx lo hi ∧ !s.meetMoving m.ctx lo hi then s.startMeet core slot m lo hi else s.push (.meetDelivery m lo hi)
  | _, some e => s.startAt core slot m e (hdrPrio m.hdr) (startRegs m)
  | _, none => s.startAt core slot m te.entry te.prio (startRegs m)

/-- Starts the task of a spilled message, whose cycle of arrival its stamp keeps (R401). -/
def State.startSpilled (s : State) (core slot : Nat) (p : Spilled) : State :=
  let s := s.startTask core slot p.m
  if (s.task (core * 8 + slot)).stat = .ready then s.modTask (core * 8 + slot) (fun t => { t with cycEnq := p.came }) else s

/-! ### Groups and the hive task queue (R371, R373, R374) -/

/-- The groups that GRP0 to GRP3 of a core name. -/
def State.memberGroups (s : State) (ctx core : Nat) : List Nat :=
  (s.cc ctx core).grp.filterMap (fun r => if r.2.getLsbD 63 then some (r.2.toNat % 256) else none)

/-- The lowest group that two cores both name. -/
def State.sharedGroup (s : State) (ctx a b : Nat) : Option Nat :=
  ((s.memberGroups ctx a).filter (fun g => (s.memberGroups ctx b).contains g)).foldl
    (fun (m : Option Nat) g => some (match m with | some x => Nat.min x g | none => g)) none

def State.group (s : State) (ctx g : Nat) : Group := Tab.get .invalid (s.ctx ctx).groups g

def State.modGroup (s : State) (ctx g : Nat) (f : Group → Group) : State :=
  s.modCtx ctx (fun c => { c with groups := Tab.set .invalid c.groups g (f (Tab.get .invalid c.groups g)) })

/-- The quantum of a group in which a core works: as many as it has ended. -/
def State.quantumOf (s : State) (ctx core g : Nat) : Nat := Tab.get 0 (s.cc ctx core).quantumNo g

/-- The hive task queue collects a request for a quantum. -/
def State.collect (s : State) (ctx core g q : Nat) (r : Request) : State :=
  (s.modGroup ctx g (fun x => { x with collected := x.collected ++ [(q, r)] })).push (.quantumEnd ctx g core)

/-! ### Spill queues (R337) -/

/-- Whether a message's tag runs in a user slot (R335). -/
def userTag (tag : Nat) : Bool := tag == 1 || tag == 10 || tag == 13 || tag == 14 || decide (16 ≤ tag)

/-- Whether a message of a tag is collected at levels 1 and 2 (R374): it starts a user task, and no spawn (tag 14). -/
def collectedTag (tag : Nat) : Bool := userTag tag && tag != 14

/-- A message leaves core `src`: at levels 1 and 2 the hive task queue collects it, when its two cores share a group (R374). -/
def State.dispatch (s : State) (src : Nat) (m : Message) : State :=
  match (if (s.ctx m.ctx).detlvl = 0 ∨ !collectedTag (hdrTag m.hdr) then none else s.sharedGroup m.ctx src m.dst) with
  | some g => s.collect m.ctx src g (s.quantumOf m.ctx src g) (.msg m)
  | none => s.push (.messageArrival m)

/-- Whether a spilled message may start: not held, its context able to start on the core. -/
def State.eligible (s : State) (core : Nat) (p : Spilled) : Bool :=
  !p.held && s.canStart p.m.ctx && s.canInstall p.m.ctx core && userTag (hdrTag p.m.hdr)

/-- The spilled messages of every context at a core. -/
def State.spilled (s : State) (core : Nat) : List Spilled :=
  s.coreCtxs.foldl (fun l e => if e.1 % 8192 = core then l ++ e.2.spill else l) []

/-- Whether a spilled message goes before another: a redelivered one before those of its own and lower priorities (R391), else the
higher level, then the older (R337). -/
def spillBefore (b x : Spilled) : Bool :=
  if b.ahead && !x.ahead && decide (hdrPrio x.m.hdr ≤ hdrPrio b.m.hdr) then true
  else if x.ahead && !b.ahead && decide (hdrPrio b.m.hdr ≤ hdrPrio x.m.hdr) then false
  else decide (x.level < b.level) || (x.level == b.level && decide (b.seq < x.seq))

/-- The better of two spilled messages. -/
def betterSpill (a : Option Spilled) (b : Spilled) : Option Spilled :=
  match a with
  | none => some b
  | some x => if spillBefore b x then some b else a

def State.bestSpill (s : State) (core : Nat) : Option Spilled :=
  ((s.spilled core).filter (s.eligible core)).foldl betterSpill none

/-- Takes a spilled message out of its queue. -/
def State.unspill (s : State) (core : Nat) (p : Spilled) : State :=
  s.modCc p.m.ctx core (fun c => { c with spill := c.spill.filter (fun q => q.seq != p.seq) })

/-- A spill writes an entry of 128 bytes in the queue in HBM5 that SPQBASE names; the bytes are laid out by no rule (R338; log
119). -/
def State.spillEntry (s : State) (ctx core seq : Nat) : State :=
  s.writeClean ((s.cc ctx core).spqBase.toNat + seq % 4096 * 128) (freeBytes s.tick 0 128)

/-- Puts a message into the spill queue (R337): 4,096 entries; a full queue answers false. One that keeps its task's identifier is a
redelivered one of levels 1 and 2 and goes ahead of its own and lower priorities (R391), also when a full queue has returned it. -/
def State.spill (s : State) (core : Nat) (m : Message) (held : Bool) : Bool × State :=
  if 4096 ≤ (s.cc m.ctx core).spill.length then (false, s)
  else
    let (seq, s) := s.fresh
    let s := s.modCc m.ctx core (fun c =>
      { c with
        spill := c.spill ++ [{ m := m, held := held, level := hdrPrio m.hdr, seq := seq, waitFrom := s.cyc
                               ahead := m.tid.isSome, came := s.cyc }]
        tags := if held then
            Tab.set .off c.tags (hdrTag m.hdr) { Tab.get .off c.tags (hdrTag m.hdr) with pend := true }
          else c.tags })
    (true, (s.spillEntry m.ctx core seq).pmcEvent core 15 1)

/-- A full spill queue returns the message to its sender, whose network interface keeps it (R337). -/
def State.bounce (s : State) (core : Nat) (m : Message) : State :=
  let s := s.modCc m.ctx core (fun c => { c with bounces := Nat.min (c.bounces + 1) 0xFFFF })
  s.push (.messageBounce m)

/-- Spills, or bounces when the queue is full. -/
def State.spillOrBounce (s : State) (core : Nat) (m : Message) (held : Bool) : State :=
  let (ok, s') := s.spill core m held
  if ok then s' else s.bounce core m

/-! ### Time -/

/-- The cycles of the step to come (log 4). -/
def State.stepCycles (s : State) : Nat := 1 + Config.lateCycles s.tick

/-- What a core's counters count in each cycle (R399): event and occurrences. -/
def State.cycleEvents (s : State) (core : Nat) : List (Nat × Nat) :=
  let t := (s.core core).running.map (fun i => s.task (core * 8 + i))
  let users := (List.range 7).map (fun i => s.task (core * 8 + i))
  let waits := (users.filter (fun t => t.stat == .ready)).length + ((s.spilled core).filter (s.eligible core)).length
  let searching (t : Task) : Bool := match t.wait with | .steal .. => true | _ => false
  let one (b : Bool) : Nat := if b then 1 else 0
  [(1, 1), (3, one (t.any (fun t => t.wait != .none))), (10, waits), (11, one (t.any (fun t => searching t))),
   (12, one (t.any (fun t => !t.super && !searching t))),
   (14, one (t.isNone && decide (Config.packagePower s.tick < s.slewBudget)))]

/-- The counters of a core after one step's cycles: a carry of an earlier cycle sets its flag. -/
def State.countCycles (s : State) (core : Nat) (pmc : Tab Pmc) : Tab Pmc :=
  if pmc = [] then []
  else
    let l := s.cycleEvents core
    pmc.map (fun p => (p.1, l.foldl (fun q e => q.add e.1 (e.2 * s.stepCycles)) p.2.flag))

/-- One step's cycles (log 4): cyc advances by one and by a free number, and the cycle counters with it. -/
def State.cycle (s : State) : State :=
  { s with
    tick := s.tick + 1
    cyc := s.cyc + s.stepCycles
    cores := s.cores.map (fun c => (c.1, { c.2 with pmc := s.countCycles c.1 c.2.pmc })) }

/-! ### Save areas (R392, R393) -/

def Ctx.svCount (c : Ctx) : Nat := c.svpool.toNat / 2 ^ 40
def Ctx.svBase (c : Ctx) : Nat := c.svpool.toNat / 2 ^ 17 % 2 ^ 23 * 2 ^ 17

/-- Areas free (SVSTAT.free): area 0 is never handed out. -/
def Ctx.svFree (c : Ctx) : Nat := c.svCount - 1 - c.svUsed.length

/-- The lowest free area. -/
def Ctx.svPick (c : Ctx) : Option Nat :=
  ((List.range (c.svUsed.length + 1)).map (· + 1)).find? (fun i =>
    decide (i < c.svCount) && !c.svUsed.contains i)

/-- The header, g registers and their tags of a task's area, as R393 lays them out. -/
def saveHead (state core : Nat) (t : Task) : List Byte :=
  let z : Tagged := { v := 0, tag := 0 }
  let hdr : List Nat :=
    [state, t.tid, t.pc, t.prio + t.entryPrio * 2 ^ 32, core,
     (if t.replayable then 1 else 0) + (if (t.start.bind (·.mark)).isSome then 2 else 0) + t.inl.length * 4,
     (match t.blk with | some b => signature b.words.reverse + b.words.length * 2 ^ 32 | none => 0), t.ctx]
  hdr.flatMap (bytesOf 8) ++ (List.range 64).flatMap (fun i => bytesOf 8 (Tab.get z t.g i).v.toNat)
    ++ (List.range 64).flatMap (fun i => bytesOf 2 (Tab.get z t.g i).tag)

/-- The 1,024 words of a tile. -/
def tileBytes (a : TileVal) : List Byte := (List.range 1024).flatMap (fun i => bytesOf 4 (Tab.get 0 a.words i).toNat)

/-- The word of a queue's entry; the place of a word still to come holds 0 (log 9). -/
def QWord.bits : QWord → Nat
  | .word w => w.v.toNat
  | .await _ | .trap .. => 0

/-- The queues of an area, at 0x2C0: for each of q0 to q7, mres, vres, cres and ares four words and a count; then the outstanding
requests. -/
def saveQueues (t : Task) : List Byte :=
  (List.range 12).flatMap (fun i =>
    let q := Tab.get [] t.q i
    (List.range 4).flatMap (fun j => bytesOf 8 ((q[j]?.map QWord.bits).getD 0)) ++ bytesOf 8 q.length)
    ++ (List.range 96).map (Config.packByte (t.loads.flatMap (fun l => [l.id, l.fifo, l.va, l.pc])))

/-- What an area holds from 0x500 on, in the order of R393: loop stack, cc0 to cc15, FSTAT, VELEM, m0 to m7, breakpoints, spin
records. -/
def slotContents (t : Task) : List Nat :=
  t.loops.flatMap (fun l => [l.start, l.last, l.n, l.rem])
    ++ (List.range 16).map (fun i => (Tab.get 0 t.cc i).toNat) ++ [t.fstat.toNat, t.velem.getD 0]
    ++ (List.range 8).map (fun i => (Tab.get 0 t.m i).toNat) ++ t.bps ++ t.spins.flatMap (fun x => [x.line, x.count])

/-- A recorded command: program counter, progress, operand values. -/
def Cmd.contents (c : Cmd) : List Nat := c.pc :: c.progress :: c.ops.map (fun w => w.v.toNat)

/-- The engine records of an area (R393). -/
def engineContents (c : Core) (slot : Nat) (t : Task) : List Nat :=
  (c.vq.saved slot ++ c.mq.saved slot ++ c.cq.saved slot).flatMap Cmd.contents
    ++ (c.gp.filter (fun g => g.slot == slot && !g.killed)).flatMap (fun g => [g.d, g.a, g.ctl.toNat, g.first])
    ++ t.inl.flatMap (fun f => [f.pc, f.d])

/-- The undo log of an area, at 0x4000: 64 entries of line address, written bit and tag, then 64 lines. -/
def saveUndo (t : Task) : List Byte :=
  (List.range 64).flatMap (fun i => match t.undo[i]? with
    | some u => bytesOf 8 (u.line * 64) ++ (List.range 8).map (Config.packByte (match u.old with | some o => [1, o.2] | none => [0, 0]))
    | none => List.replicate 16 0)
    ++ (List.range 64).flatMap (fun i => match t.undo[i]?.bind (·.old) with
      | some o => o.1
      | none => List.replicate 64 0)

/-- The commit buffer of an area, at 0x6000: 256 units, which no rule lays out, then a program counter for each. -/
def saveCommit (tick : Nat) (t : Task) : List Byte :=
  let pcs := t.commit.flatMap (fun b => List.replicate b.units b.pc)
  freeBytes tick 0x6000 8192 ++ (List.range 256).flatMap (fun i => bytesOf 8 (pcs.getD i 0))

/-- The first part of an area, to 0x1FFF: what `dump` writes as its section 1 (R393, R398). -/
def saveFirst (state core : Nat) (c : Core) (slot : Nat) (t : Task) : List Byte :=
  saveHead state core t ++ saveQueues t ++ (List.range 256).map (Config.packByte (slotContents t))
    ++ (List.range 6656).map (Config.packByte (engineContents c slot t))

/-- The vector registers and their tags, and the tiles and theirs. -/
def saveVecs (t : Task) : List Byte :=
  let zv : VVal := { v := 0, tag := 0 }
  (List.range 32).flatMap (fun i => bytesOf 128 (Tab.get zv t.v i).v.toNat)
    ++ (List.range 32).flatMap (fun i => bytesOf 2 (Tab.get zv t.v i).tag)
def Task.tile (t : Task) (i : Nat) : TileVal := Tab.get { words := [], tag := 0 } t.a i
def saveTileTags (t : Task) : List Byte := (List.range 16).flatMap (fun i => bytesOf 4 (t.tile i).tag)
def saveTiles (t : Task) : List Byte := (List.range 16).flatMap (fun i => tileBytes (t.tile i))

/-- Writes the area of a slot's task (R393); bytes whose layout no rule gives are free values (log 9). -/
def State.writeArea (s : State) (handle state core slot : Nat) (t : Task) : State :=
  let s := s.writeClean handle (saveFirst state core (s.core core) slot t)
  let s := s.writeClean (handle + 0x2000) (saveVecs t)
  let s := s.writeClean (handle + 0x4000) (saveUndo t)
  let s := s.writeClean (handle + 0x6000) (saveCommit s.tick t)
  let s := s.writeClean (handle + 0xC000) (saveTileTags t)
  s.writeClean (handle + 0x10000) (saveTiles t)

/-- The g registers an area holds. -/
def State.areaRegs (s : State) (handle : Nat) : Tab Tagged :=
  ((List.range 64).reverse).foldl
    (fun t i =>
      Tab.set { v := 0, tag := 0 } t i
        { v := s.word (handle + 0x40 + i * 8), tag := s.num (handle + 0x240 + i * 2) 2 % 4096 }) []

/-! ### The fault ring (R382 to R384) -/

/-- A ring entry's words. -/
def ringEntry (code cause core slot ctx tag tid pc handle : Nat) (items : List Word) : RingEntry :=
  BitVec.ofNat 64 (code * 2 ^ 48 + cause % 256 * 2 ^ 40 + core * 2 ^ 27 + slot * 2 ^ 24 + ctx * 2 ^ 12 + tag)
    :: BitVec.ofNat 64 tid :: BitVec.ofNat 64 pc :: BitVec.ofNat 64 handle
    :: (items ++ [0, 0, 0, 0]).take 4

/-- The entry with its save-area handle. -/
def entryHandle (e : RingEntry) (handle : Nat) : RingEntry := e.set 3 (BitVec.ofNat 64 handle)

/-- Whether a hive's ring takes an entry now (R383, R384). -/
def Hive.takes (h : Hive) : Bool := h.frbase.getLsbD 0 && decide ((h.prod + 256 - h.cons) % 256 < 128)

def Hive.ringAt (h : Hive) (i : Nat) : Nat := h.frbase.toNat / 2 ^ 13 % 2 ^ 27 * 2 ^ 13 + i % 128 * 64

/-- Writes an entry into a ring that takes it, and sends the message that starts the kernel's task on hive-local core 0,
on tag 10 (R380). -/
def State.postEntry (s : State) (hv : Nat) (e : RingEntry) (src : Nat) : State :=
  let h := s.hive hv
  let s := s.writeWords (h.ringAt h.prod) e
  let s := s.modHive hv (fun h => { h with prod := (h.prod + 1) % 256 })
  s.push (.messageArrival (ringMessage hv e src))

/-- A fault waits for its ring; a full ring sets over (R383, R384). -/
def State.hold (s : State) (hv : Nat) (f : HeldFault) : State :=
  s.modHive hv (fun h => { h with ovf := h.ovf || h.frbase.getLsbD 0, heldFaults := h.heldFaults ++ [f] })

/-- A ring takes an entry, or keeps it until one is freed. -/
def State.postOrKeep (s : State) (hv : Nat) (e : RingEntry) (src : Nat) : State :=
  if (s.hive hv).takes then s.postEntry hv e src else s.hold hv (.entry e)

/-- An interrupt: an entry with handle 0 on the front hive's ring (R380); it waits when the ring is full. -/
def State.interrupt (s : State) (code cause ctx : Nat) (items : List Word) : State :=
  s.postOrKeep 0 (ringEntry code cause 0 0 ctx 0 0 0 0 items) 0

/-- The free list of a pool stands in the last 64 KiB of its area 0, laid out by no rule (R392; log 9). -/
def State.writeFreeList (s : State) (ctx : Nat) : State :=
  s.writeClean ((s.ctx ctx).svBase + 0x10000) (freeBytes s.tick 0 65536)

/-- Judges a pool after a change of its free areas or of its threshold (R392): above the threshold the interrupt may be posted again;
below it, it is posted once. -/
def State.judgePool (s : State) (ctx : Nat) : State :=
  let s := s.modCtx ctx (fun c => { c with lowPosted := c.lowPosted && decide (c.svFree ≤ c.svlow) })
  let c := s.ctx ctx
  if c.svFree < c.svlow ∧ !c.lowPosted then
    (s.modCtx ctx (fun c => { c with lowPosted := true })).interrupt 32 0 ctx []
  else s

/-- Draws an area from a context's pool (R392). -/
def State.allocArea (s : State) (ctx : Nat) : Option (Nat × State) :=
  let c := s.ctx ctx
  match c.svPick with
  | none => none
  | some i =>
    some (c.svBase + i * 0x20000,
      ((s.modCtx ctx (fun c => { c with svUsed := i :: c.svUsed })).writeFreeList ctx).judgePool ctx)

/-- Returns an area; saves that wait may then go on (R392). -/
def State.freeArea (s : State) (ctx handle : Nat) : State :=
  let s := s.modCtx ctx (fun c => { c with svUsed := c.svUsed.filter (fun i => c.svBase + i * 0x20000 != handle) })
  ((s.writeFreeList ctx).judgePool ctx).push (.saveAreaFreed ctx handle)

/-! ### Quiescing and saving (R395) -/

/-- The effects buffered since an open section began. -/
def Task.sectionEffects (t : Task) : List Buffered :=
  match t.sect with
  | none => []
  | some x => t.commit.drop x.base

/-- The nodes that an open section has allocated, and those that it has freed. -/
def Task.droppedNodes (t : Task) : List Nat :=
  t.sectionEffects.filterMap (fun b => match b.eff with | .node va _ _ _ => some va | _ => none)

def Task.droppedFrees (t : Task) : List Nat :=
  t.sectionEffects.filterMap (fun b => match b.eff with
    | .send m => (match m.svc with | .nfree _ n => some n | _ => none)
    | _ => none)

/-- The deque entries that an open section has reserved. -/
def Task.droppedPushes (t : Task) : Nat :=
  (t.sectionEffects.filter (fun b => match b.eff with | .push _ => true | _ => false)).length

/-- A lock-elision section of a task is dropped, and control goes to its target (R288). -/
def Task.abortSection (t : Task) (cause code : Nat) : Task :=
  match t.sect with
  | none => t
  | some x =>
    { t with
      commit := t.commit.take x.base
      loads := t.loads.filter (fun l => !l.sectioned)
      q := t.q.map (fun p => (p.1, p.2.filter (fun w => match w with
        | .await id => !(t.loads.any (fun l => l.id == id && l.sectioned))
        | _ => true)))
      g := Tab.set { v := 0, tag := 0 } t.g 1 { v := BitVec.ofNat 64 (cause + code * 256), tag := 0 }
      sched := t.sched.filter (fun e => e.reg != 1)
      velem := none
      nodes := t.nodes.filter (fun n => !(t.droppedNodes.contains n))
      freed := t.freed.filter (fun n => !(t.droppedFrees.contains n))
      pushes := t.pushes - t.droppedPushes
      pc := x.target
      bpPass := false
      sect := none
      blk := none
      lastBlk := match t.blk with | some b => b.addr | none => t.lastBlk
      lastSig := match t.blk with | some b => signature b.words.reverse | none => t.lastSig }

/-- What dropped effects held comes free: the slots reserved for children, the reserved deque entries, the nodes (R343, R350,
R356). -/
def State.releaseEffects (s : State) (ctx core : Nat) (l : List Buffered) : State :=
  l.foldl (fun s b => match b.eff with
    | .child _ c sl => (s.setTask (c * 8 + sl) (s.task (c * 8 + sl)).freed').push (.spillWake ctx c)
    | .push _ =>
      s.modSpace ctx core (fun sp => { sp with deque := { sp.deque with reserved := sp.deque.reserved - 1 } })
    | _ => s) s

/-- Withdraws parked version loads (R266): a line with no other waiter loses its wait bit. -/
def State.withdraw (s : State) (ctx : Nat) (ids : List Nat) : State :=
  let gone := (s.ctx ctx).vparked.filter (fun v => ids.contains v.id)
  let s := if gone = [] then s else
    s.modCtx ctx (fun c => { c with vparked := c.vparked.filter (fun v => !ids.contains v.id) })
  gone.foldl
    (fun s v =>
      if (s.ctx ctx).vparked.any (fun w => w.line == v.line) then s
      else s.writeWord (v.line + 8) (BitVec.ofNat 64 (s.num (v.line + 8) 8 % 2 ^ 63))) s

/-- Aborts the open section of a slot's task (R288): its effects are dropped, what they held comes free, and its parked version loads
are withdrawn (R266). -/
def State.abortSection (s : State) (k cause code : Nat) : State :=
  let t := s.task k
  let s := if t.sect.isNone then s else s.withdraw t.ctx ((t.loads.filter (·.sectioned)).map (·.id))
  let s := t.droppedNodes.foldl (fun s n => s.freeNode t.ctx n) s
  (s.releaseEffects t.ctx (k / 8) t.sectionEffects).modTask k (·.abortSection cause code)

/-- Whether a task's `mrg` is under way. -/
def Task.merges (t : Task) : Bool :=
  match t.wait with
  | .merge _ => true
  | _ => false

/-- Whether an event is the wake of the task of slot `k` that waits on `p`. -/
def wakes (k : Nat) (p : Option Park) : Event → Bool
  | .wtvWake c sl | .spinWake c sl | .tlbWalkComplete c sl _ => c * 8 + sl == k
  | .versionWake _ _ id => p == some (.version id)
  | _ => false

/-- Whether the wake of a parked task has come and not yet acted (R377). -/
def State.wakePending (s : State) (k : Nat) : Bool := s.pending.any (wakes k (s.task k).stat.parkedOn)

/-- Whether a save ends an open section with cause 7: an upcall's, or a pre-emption, by a slice or a context fault of another task
(R287). -/
def SaveWhy.aborts : SaveWhy → Bool
  | .upcall .. | .preempt .. | .context .. => true
  | .trap _ | .evict _ | .evictHeld _ | .debug => false

def TStat.aborts : TStat → Bool
  | .saving w => w.aborts
  | _ => false

/-- Before a save the results in flight land (R395), and an open section ends where the save aborts it. -/
def State.settleTask (s : State) (k : Nat) : State :=
  let s := ((s.landIssued (k / 8) (k % 8)).landLoads k).landLate k
  if (s.task k).stat.aborts then s.abortSection k 7 0 else s

/-- A task as its save area holds it: ready, or parked on what it waits for. -/
def Task.stopped (t : Task) (park : Option Park) : Task :=
  { t with sched := [], wait := .none, stat := match park with | some p => .parked p | none => .ready }

/-- What a save of a slot takes from its core's engines and memory port; a task that its slot gave up and whose wake has come returns
to its core (R60). -/
def Core.saved (c : Core) (core slot state : Nat) (t : Task) (e : RingEntry) (sliced dbg woken : Bool) : Saved :=
  { state := state, core := core, task := t, vq := c.vq.saved slot, mq := c.mq.saved slot
    cq := c.cq.saved slot, gp := c.gp.filter (fun g => g.slot == slot && !g.killed), entry := e
    pending := woken && !sliced, named := false, sliced := sliced, debug := dbg, first := woken }

/-- A core without a slot's commands, elements and registers. -/
def Core.withoutSlot (c : Core) (slot : Nat) (merges : Bool) : Core :=
  { c with
    vq := c.vq.without slot, mq := c.mq.without slot, cq := c.cq.without slot
    gp := c.gp.filter (fun g => !(g.slot == slot && !g.killed))
    resident := if c.resident = some slot then none else c.resident
    running := if c.running = some slot then none else c.running
    merging := c.merging && !merges }

/-- A slot whose task has left it: nothing of the task remains at its core. -/
def State.vacate (s : State) (k : Nat) : State :=
  let core := k / 8
  let t := s.task k
  let c := s.core core
  let s := s.setCore core (c.withoutSlot (k % 8) t.merges)
  let s := if (s.core core).gp.head? = c.gp.head? then s else s.gpKick core
  let s := s.modHive (hiveOf core) (fun h => { h with heldFaults := h.heldFaults.filter (· != .slot k) })
  ({ s with pending := s.pending.filter (fun e => !wakes k t.stat.parkedOn e) } : State).setTask k t.freed'

/-- Moves a slot's task to a save area (R395): the scalar stream has stopped, engine commands are
recorded with their progress, results in flight have landed. A parked task keeps what it waits for, unless its wake has come or its
section has been aborted, so that it goes on at the abort target (R288, R377). -/
def State.saveTask (s : State) (k handle state : Nat) (e : RingEntry) (park : Option Park) (sliced dbg : Bool) :
    State :=
  let core := k / 8
  let cut := (s.task k).stat.aborts && (s.task k).sect.isSome
  let s := s.settleTask k
  let woken := park.isSome && (cut || s.wakePending k)
  let t := (s.task k).stopped (if woken then none else park)
  let r := (s.core core).saved core (k % 8) state t e sliced dbg woken
  let s := s.writeArea handle state core (k % 8) t
  State.vacate { s with saved := Tab.set .empty s.saved handle r } k

/-! ### Filling slots (R337, R396) -/

/-- A saved task returns to a slot (R396): pc and g registers come from its area; the pc of a task is a multiple of 8 (log 113). A held
fault is raised again: with room in the ring the task is saved for it, else it is held again (R384). -/
def State.restore (s : State) (handle core slot : Nat) : State :=
  let r := Tab.get .empty s.saved handle
  let t := r.task
  let k := core * 8 + slot
  let s := s.install t.ctx core
  let faults := r.entry ≠ [] ∧ r.state ≠ 2
  let takes := (s.hive (hiveOf core)).takes
  let s := s.setTask k
    { t with
      stat := if faults then (if takes then .saving (.trap r.entry) else .held r.entry) else t.stat
      since := if r.first then 0 else s.tick, waitFrom := s.cyc
      pc := s.num (handle + 16) 8 % 2 ^ 57 / 8 * 8, g := s.areaRegs handle }
  let s := if faults ∧ !takes then s.hold (hiveOf core) (.slot k) else s
  let s := s.modHive (hiveOf r.core) (fun h => { h with heldFaults := h.heldFaults.filter (· != HeldFault.saved handle) })
  let c := s.core core
  let mine (l : List Cmd) := l.map (fun x => { x with slot := slot })
  -- recorded started copies go on as started ones, as far as there are places (R423)
  let copies := mine (r.cq.filter (·.copying))
  let room := 4 - c.copyPlaces
  let s := s.setCore core
    { c with
      vq := { c.vq with held := mine r.vq ++ c.vq.held }
      mq := { c.mq with held := mine r.mq ++ c.mq.held }
      cq := { c.cq with
        started := c.cq.started ++ copies.take room
        held := copies.drop room ++ mine (r.cq.filter (fun x => !x.copying)) ++ c.cq.held }
      gp := c.gp ++ r.gp.map (fun g => { g with slot := slot }) }
  let s := { s with saved := Tab.erase s.saved handle }
  let s := t.loads.foldl (fun s l =>
    match l.kind with
    | .version .. => if l.parked then s else s.push (.versionRequest core slot l.id)
    | _ => s.push (.loadWordArrival core slot l.id)) s
  let s := if r.vq = [] then s else s.push (.engineCommandStart core .vector)
  let s := if r.mq = [] then s else s.push (.engineCommandStart core .matrix)
  let s := if r.cq = [] then s else s.push (.engineCommandStart core .copy)
  let s := if c.gp = [] then s.gpKick core else s
  (s.freeArea t.ctx handle)

/-- The saved task that a core would bring back first: highest level, of one level those first whose wake had come (R377). -/
def State.bestSaved (s : State) (core : Nat) : Option (Nat × Saved) :=
  s.saved.foldl
    (fun best e =>
      if e.2.core ≠ core || !e.2.pending || !s.canStart e.2.task.ctx || !s.canInstall e.2.task.ctx core then best
      else match best with
        | none => some e
        | some b =>
          let higher := decide (b.2.task.level < e.2.task.level)
            || (b.2.task.level == e.2.task.level && e.2.first && !b.2.first)
          if higher then some e else best) none

/-- The spilled messages whose handlers report failed commits of a core without a free slot. -/
def State.failedSpill (s : State) (core : Nat) : Option Spilled :=
  ((s.spilled core).filter (fun p => s.eligible core p && (s.slotFor core p.m).isSome)).foldl betterSpill none

/-- Fills one free user slot: a resuming task goes ahead of messages of the same or lower priority (R79,
R337). -/
def State.fillOne (s : State) (core : Nat) : State :=
  match s.freeSlot core with
  | none =>
    match s.failedSpill core with
    | some p => (s.unspill core p).startSpilled core (((s.slotFor core p.m)).getD 0) p
    | none => s
  | some slot =>
    match s.bestSaved core, s.bestSpill core with
    | some (h, r), some p =>
      if p.level ≤ r.task.level then s.restore h core slot
      else (s.unspill core p).startSpilled core slot p
    | some (h, _), none => s.restore h core slot
    | none, some p => (s.unspill core p).startSpilled core slot p
    | none, none => s

/-- Fills the free slots and selects a task. -/
def State.fill (s : State) (core : Nat) : State :=
  ((List.range 7).foldl (fun s _ => s.fillOne core) s).select core

/-! ### Host queue descriptors (R360, R363) -/

/-- The descriptor of a host queue. -/
def State.queueAt (s : State) (q : Nat) : Nat := s.qtbase.toNat / 2 ^ 22 % 2 ^ 18 * 2 ^ 22 + q * 32

/-- The queues whose descriptor holds anything, while the table is in use. -/
def State.queueList (s : State) : List Nat :=
  let base := s.queueAt 0
  if !s.qtbase.getLsbD 0 then []
  else ((s.mem.filter (fun p => decide (base ≤ p.1) && decide (p.1 < base + 2 ^ 22))).map (fun p => (p.1 - base) / 32)).dedup

/-- The context of a queue. -/
def State.queueCtx (s : State) (q : Nat) : Nat := s.num (s.queueAt q + 8) 8 / 2 ^ 44 % 4096

/-- Halts a queue with a cause. -/
def State.haltQueue (s : State) (q cause : Nat) : State :=
  let w1 := s.num (s.queueAt q + 8) 8
  s.writeWord (s.queueAt q + 8) (BitVec.ofNat 64 (w1 - w1 / 2 ^ 62 % 2 * 2 ^ 62 - w1 / 2 ^ 32 % 256 * 2 ^ 32
    + 2 ^ 62 + cause * 2 ^ 32))

/-! ### TAKING AN EXCEPTION (R378 to R385) -/

/-- Halts every host queue of a context with cause 7 (R385): w1 of each loaded descriptor. -/
def State.haltQueues (s : State) (ctx : Nat) : State :=
  s.queueList.foldl (fun s q => if s.queueCtx q = ctx then s.haltQueue q 7 else s) s

/-- What follows once a task's area is found (R380, R79, R385). -/
def State.finishSave (s : State) (k handle : Nat) : SaveWhy → State
  | .trap e =>
    let hv := hiveOf (k / 8)
    let s := s.saveTask k handle 2 (entryHandle e handle) none false false
    ((s.postOrKeep hv (entryHandle e handle) (k / 8)).fill (k / 8))
  | .upcall cls regs at' =>
    let core := k / 8
    let t := s.task k
    let s := (s.saveTask k handle 1 [] none false false).pmcEvent core 16 1
    let pay := regs.set at' (BitVec.ofNat 64 handle)
    -- the upcall task belongs to the region of its fibre (R429)
    let m : Message :=
      { sysMessage cls 10 t.ctx core core t.prio pay with hdr := mkHdr cls false core 10 t.prio pay.length t.trm }
    let s := if t.trm = 0 then s else s.modTerm core t.trm (fun r => { r with out := r.out + 1 })
    let te := s.tagEntry t.ctx core 10
    if te.en && s.canStart t.ctx then (s.startAt core (k % 8) m te.entry t.prio (startRegs m)).select core
    else (s.spillOrBounce core m (!te.en)).fill core
  | .preempt park e =>
    let ctx := (s.task k).ctx
    let s := s.saveTask k handle (if e = [] then 3 else 4) e park true false
    (s.writeImage ctx (k / 8)).fill (k / 8)
  | .context state e =>
    let ctx := (s.task k).ctx
    let s := s.saveTask k handle state e none false false
    s.writeImage ctx (k / 8)
  | .evict park =>
    let ctx := (s.task k).ctx
    let s := ((s.saveTask k handle 3 [] (some park) false false).writeImage ctx (k / 8)).fill (k / 8)
    if (s.bestSpill (k / 8)).isSome then s.push (.spillWake ctx (k / 8)) else s
  | .evictHeld e =>
    let ctx := (s.task k).ctx
    let hv := hiveOf (k / 8)
    -- the fault keeps its place among those that wait for the ring (R384)
    let s := s.modHive hv (fun h => { h with heldFaults := h.heldFaults.map (fun f => if f = .slot k then .saved handle else f) })
    let s := ((s.saveTask k handle 4 e none false false).writeImage ctx (k / 8)).fill (k / 8)
    if (s.bestSpill (k / 8)).isSome then s.push (.spillWake ctx (k / 8)) else s
  | .debug =>
    let ctx := (s.task k).ctx
    let s := (s.saveTask k handle 3 [] none false true).writeImage ctx (k / 8)
    s.fill (k / 8)

/-- Whether a word awaits a late arrival that a save lets resolve (R395). -/
def Task.lateArrival (t : Task) : Bool :=
  match t.wait with
  | .spawn .. | .steal .. => true
  | _ => false

/-- Whether returning atomics have still to reply (R395). -/
def Task.awaitsAmo (t : Task) : Bool := t.loads.any (fun l => match l.kind with | .amo _ => true | _ => false)

/-- Whether a ring entry is a context fault's (R381). -/
def RingEntry.stops (e : RingEntry) : Bool := decide (64 ≤ (e.headD 0).toNat / 2 ^ 48)

/-- Whether a slot's task is itself stopped by a context fault, whose entry comes after the other saves (R385). -/
def TStat.faulted : TStat → Bool
  | .saving (.trap e) => RingEntry.stops e
  | _ => false

/-- Whether a task of a stopped context, other than those that faulted, has still to be saved (R385). -/
def State.unsaved (s : State) (ctx : Nat) : Bool :=
  s.tasks.any (fun p => p.2.ctx == ctx && p.1 % 8 != 7 && !p.2.stat.faulted
    && (match p.2.stat with | .free | .reserved | .failed | .killing _ => false | _ => true))

/-- What a save waits for before it looks for an area (R395, R397, R385): a late arrival, started commands, returning atomics, the block
of a merge, and for a context fault the saves of the context's other tasks. -/
def State.saveWaits (s : State) (k : Nat) : Bool :=
  let t := s.task k
  t.lateArrival || t.awaitsAmo || s.finishing (k / 8) (k % 8) || (t.merges && (s.core (k / 8)).merging)
    || (t.stat.faulted && s.unsaved t.ctx)

/-- The saves of a context's faulting tasks that waited for its last other save go on (R385). -/
def State.nextSaves (s : State) (ctx handle : Nat) : State :=
  if s.tasks.any (fun p => p.2.ctx == ctx && p.2.stat.faulted) then s.push (.saveAreaFreed ctx handle) else s

/-- A save finds an area at once, or waits with its task in its slot (R392). -/
def State.trySave (s : State) (k : Nat) : State :=
  let t := s.task k
  match t.stat with
  | .saving w =>
    if s.saveWaits k then s
    else match s.allocArea t.ctx with
    | none => (s.unrun k).select (k / 8)
    | some (h, s) => (s.finishSave k h w).nextSaves t.ctx h
  | _ => s

/-- Puts a task down for a save. -/
def State.beginSave (s : State) (k : Nat) (w : SaveWhy) : State :=
  let s := s.modTask k (fun t => { t with stat := .saving w })
  s.trySave k

/-- Whether the tasks of a context in user slots that do not run are saved at once: its slice has expired (R368). -/
def State.expiring (s : State) (k : Nat) : Bool := (s.ctx (s.task k).ctx).stopping && k % 8 != 7

/-- PARKS the task of a slot (R366): its results in flight land (R161), and its core runs another. With its slice expired it is
saved (R368). -/
def State.park (s : State) (k : Nat) (p : Park) : State :=
  let s := (s.landLate k).modTask k (fun t => { t with stat := .parked p, since := s.tick, sched := [] })
  let s := (s.unrun k).fill (k / 8)
  if s.expiring k then s.beginSave k (.preempt (some p) []) else s

/-- The longest-parked task of a core whose user slots are all occupied (R60, R366); a held one keeps its slot only as a version
waiter does (R384). -/
def State.longestParked (s : State) (core : Nat) : Option Nat :=
  if (s.freeSlot core).isSome then none
  else
    (List.range 7).foldl
      (fun (best : Option Nat) i =>
        match (s.task (core * 8 + i)).stat with
        | .parked _ | .held _ =>
          match best with
          | none => some i
          | some j => if (s.task (core * 8 + i)).since < (s.task (core * 8 + j)).since then some i else best
        | _ => best) none

/-- A message that waits for a slot takes that of the longest-parked task, which is saved (R60, R366). -/
def State.evict (s : State) (core : Nat) : State :=
  match s.bestSpill core, s.longestParked core with
  | some _, some i =>
    match (s.task (core * 8 + i)).stat with
    | .parked p => s.beginSave (core * 8 + i) (.evict p)
    | .held e => s.beginSave (core * 8 + i) (.evictHeld e)
    | _ => s
  | _, _ => s

/-- The state number with which a context fault saves a task, and its held fault (R385). -/
def contextSave : TStat → SaveWhy
  | .held e => .context 4 e
  | _ => .context 3 []

/-- A task's fault is raised: with room in the ring it is saved and the entry posted; else it is held in its slot, and saved with its
fault when its slice has expired (R368, R384). -/
def State.raiseFault (s : State) (k : Nat) (e : RingEntry) : State :=
  let hv := hiveOf (k / 8)
  if (s.hive hv).takes then s.beginSave k (.trap e)
  else
    let s := (s.modTask k (fun t => { t with stat := .held e, since := s.tick })).hold hv (.slot k)
    let s := (s.unrun k).select (k / 8)
    if s.expiring k then s.beginSave k (.preempt none e) else s

/-- Saves the tasks of a context in user slots, but for the one whose fault stops it (R385). -/
def State.saveContext (s : State) (ctx : Nat) (k : Option Nat) : State :=
  s.tasks.foldl
    (fun s p =>
      let t := s.task p.1
      match t.stat with
      | .free | .reserved | .saving _ | .killing _ => s
      | .failed => if t.ctx = ctx then s.freeFailed p.1 else s
      | st =>
        if t.ctx = ctx ∧ p.1 % 8 ≠ 7 ∧ some p.1 ≠ k then s.beginSave p.1 (contextSave st) else s) s

/-- The handles of a context's saved tasks, fibres among them, stand in the core images of their cores (R385, R394). -/
def State.placeHandles (s : State) (ctx : Nat) : State :=
  ((s.saved.filter (fun p => p.2.task.ctx == ctx)).map (fun p => p.2.core)).dedup.foldl (fun s c => s.writeHandles ctx c) s

/-- A context fault (R385): cores stop starting its tasks, every task of it is saved, the entry is posted, its host
queues are halted. The entry of a fault that saves no task is posted when the saves have begun (DEDUCED, log 146). -/
def State.contextFault (s : State) (ctx code : Nat) (e : RingEntry) (hv src : Nat) (k : Option Nat) :
    State :=
  let s := s.modCtx ctx (fun c => { c with stopped := true, code := if c.stopped then c.code else code })
  let s := (s.saveContext ctx k).placeHandles ctx
  let s := match k with
    | none => s.postOrKeep hv e src
    | some k => s.raiseFault k e
  s.haltQueues ctx

/-- A context fault of a core's handler or unit, which no task of a slot raises. -/
def State.deviceFault (s : State) (ctx core code tag : Nat) (items : List Word) : State :=
  s.contextFault ctx code (ringEntry code 0 core 7 ctx tag 0 0 0 items) (hiveOf core) core none

/-- The state after a unit's write, judged from the state before it: a write that changes a valid descriptor or group entry and leaves
it valid is the context fault of R17, which names the entry (log 132). -/
def State.judgeEntries (s' s : State) (ctx core : Nat) (parts : List (Nat × Nat)) : State :=
  match parts.findSome? (fun p => s.entryBroken s.byte p.1 (s'.bytes p.1 p.2)) with
  | some a => s'.deviceFault ctx core 69 0 [BitVec.ofNat 64 a]
  | none => s'

/-- TAKING A SUPERVISOR TRAP OR A CONTEXT FAULT (R380): code and cause of R381, the program counter that it names, the
items after the identifier and the program counter. With the ring full or not in use the task is held in its slot (R384);
otherwise it is saved from its context's pool, the entry is posted with the area's handle, and the hive kernel's task is
started. A context fault (code 64 and above) also stops the context. Only code 64 carries a poison tag (R382). The cause of a loop
fault stands in word 0 alone (DEDUCED, log 139). -/
def State.takeTrapAt (s : State) (k code cause tag : Nat) (items : List Word) (pc : Nat) : State :=
  let t := s.task k
  let core := k / 8
  let hv := hiveOf core
  let e := ringEntry code cause core (k % 8) t.ctx (if code = 64 then tag else 0) t.tid pc 0 items
  if 64 ≤ code then s.contextFault t.ctx code e hv core (some k) else s.raiseFault k e

/-- Taking a trap at the task's own word. -/
def State.takeTrap (s : State) (k code cause tag : Nat) (items : List Word) : State :=
  s.takeTrapAt k code cause tag items (s.task k).pc

/-- TAKING A USER UPCALL (R79, R379): the task is saved as a fibre and the handler starts on tag 10 with
ts = the class, the fibre's handle in register g(handleAt + 1). -/
def State.takeUpcall (s : State) (k cls : Nat) (regs : List Word) (handleAt : Nat) : State :=
  s.beginSave k (.upcall cls regs handleAt)

/-- An upcall message of a class that saves no fibre (R66, R67); at levels 1 and 2 it is collected (R374). -/
def State.upcallMessage (s : State) (core ctx prio cls : Nat) (regs : List Word) : State :=
  s.dispatch core (sysMessage cls 10 ctx core core prio regs)

/-- The held fault of a saved task is posted (R384): the task is trapped, its area's header says so, and the entry names the area. -/
def State.raiseSaved (s : State) (hv handle : Nat) : State :=
  let r := Tab.get .empty s.saved handle
  let e := entryHandle r.entry handle
  if r.entry = [] then s
  else
    let s := { s with saved := Tab.set .empty s.saved handle { r with state := 2, entry := [], pending := false } }
    (s.writeWord handle 2).postEntry hv e r.core

/-- The oldest held fault is raised again when the ring takes it (R384). -/
def State.raiseHeld (s : State) (hv : Nat) : State :=
  let h := s.hive hv
  if !h.takes then s
  else
    match h.heldFaults with
    | .entry e :: rest => (s.modHive hv (fun h => { h with heldFaults := rest })).postEntry hv e 0
    | .saved h :: rest => (s.modHive hv (fun h => { h with heldFaults := rest })).raiseSaved hv h
    | .slot k :: rest =>
      let s := s.modHive hv (fun h => { h with heldFaults := rest })
      match (s.task k).stat with
      | .held e => s.beginSave k (.trap e)
      | _ => s
    | [] => s

/-- Raises as many held faults as `n` freed entries. -/
def State.raiseHeldN (s : State) (hv : Nat) : Nat → State
  | 0 => s
  | n + 1 => (s.raiseHeld hv).raiseHeldN hv n

/-! ### Kills and redelivery (R390, R391) -/

/-- Restores the lines of an undo log, kept oldest first, in reverse order (R296). -/
def Space.rollback (sp : Space) : List Undo → Space
  | [] => sp
  | u :: rest =>
    let sp := sp.rollback rest
    match u.old with
    | some (bs, tag) =>
      { sp with
        bytes := writeList sp.bytes (u.line * 64) bs
        written := Tab.set false sp.written u.line true
        tags := Tab.set 0 sp.tags u.line tag }
    | none =>
      { sp with
        bytes := splice sp.bytes (u.line * 64) 64 []
        written := Tab.set false sp.written u.line false
        tags := Tab.set 0 sp.tags u.line 0 }

/-- Gives a taken range back to the old end of its deque, into its reserved entry (R356). -/
def State.giveBack (s : State) (ctx : Nat) (x : Taken) : State :=
  s.modSpace ctx x.core (fun sp =>
    { sp with deque := { ranges := x.r :: sp.deque.ranges, reserved := sp.deque.reserved - 1 } })

/-- The slot that a target has reserved for the child of a slot's waiting `spawn` comes free (R343). -/
def State.unreserve (s : State) (k : Nat) : State :=
  match (s.task k).wait with
  | .spawn _ m =>
    match (List.range 7).find? (fun i =>
        let x := s.task (m.dst * 8 + i)
        x.stat == .reserved && x.tid == (s.task k).tid && x.start == some m) with
    | some i => (s.setTask (m.dst * 8 + i) (s.task (m.dst * 8 + i)).freed').push (.spillWake m.ctx m.dst)
    | none => s
  | _ => s

/-- Requests and answers of a slot's waiting word that are still under way come to nothing; a slot reserved for its child comes
free. -/
def State.forget (s : State) (core slot ctx : Nat) : State :=
  let s := s.unreserve (core * 8 + slot)
  let stale (e : Event) : Bool := match e with
    | .stealRequest c sl _ | .stealReply c sl _ _ | .spawnSlotRequest c sl _ | .spawnAnswer c sl _ => c == core && sl == slot
    | _ => false
  let staleR (r : Request) : Bool := match r with
    | .steal c sl _ | .spawn c sl _ => c == core && sl == slot
    | .msg _ => false
  let s := { s with pending := s.pending.filter (fun e => !stale e) }
  if (s.ctx ctx).detlvl = 0 then s
  else
    s.modCtx ctx (fun c =>
      { c with groups := c.groups.map (fun g =>
        (g.1, { g.2 with collected := g.2.collected.filter (fun r => !staleR r.2) })) })

def Cmd.kill (c : Cmd) : Cmd := { c with killed := true }

/-- Redelivers a task's starting message at its prio (R391), held when its tag is off; a full queue returns it. At levels 1 and 2
it goes ahead of the eligible messages of its prio and lower, and the task keeps its identifier. -/
def State.redeliver (s : State) (core : Nat) (t : Task) (mark : Option Nat) : State :=
  match t.start with
  | none => s
  | some m =>
    let m' : Message :=
      { m with mark := if mark.isSome then mark else m.mark
               tid := if (s.ctx t.ctx).detlvl = 0 then none else some t.tid }
    let off := m.entry.isNone && !(s.tagEntry t.ctx core (hdrTag m.hdr)).en
    let (ok, s') := s.spill core m' off
    (if ok then s' else s.bounce core m').pmcEvent core 8 1

/-- What a kill gives back at once, whether its task is in a slot or saved (R390): parked loads are withdrawn, deque ranges and
reservations, nodes and spawn reservations come free. The cache of node addresses keeps its bound (R349). -/
def State.dropTask (s : State) (core : Nat) (t : Task) : State :=
  let s := s.withdraw t.ctx (t.loads.map (·.id))
  let s := t.taken.foldl (fun s x => s.giveBack t.ctx x) s
  let s := t.nodes.foldl (fun s n => s.freeNode t.ctx n) s
  s.releaseEffects t.ctx core t.commit

/-- The end of a kill: the writes to the own scratchpad are rolled back, the slot comes free, and the starting message is
redelivered (R296, R391). -/
def State.endKill (s : State) (k : Nat) (why : KillWhy) : State :=
  let core := k / 8
  let t := s.task k
  let s := s.modSpace t.ctx core (fun sp => sp.rollback t.undo)
  let s := s.modCore core (fun c => { c with resident := if c.resident = some (k % 8) then none else c.resident })
  let s := s.setTask k t.freed'
  let s := match why with
    | .gone => s
    | .redeliver mark => s.redeliver core t mark
  s.fill core

/-- A kill ends once no started command of the vector and matrix engines is left to complete (R198, R242). -/
def State.tryKill (s : State) (k : Nat) : State :=
  match (s.task k).stat with
  | .killing why => if s.completing (k / 8) (k % 8) then s else s.endKill k why
  | _ => s

/-- KILLS the task of a slot (R390): commit buffer, queue words, counters, and engine work that has not started are dropped; a
started `mmv` is abandoned; what has started completes, copy commands also beyond the slot's end (R107, R198, R242, R258,
R271). -/
def State.killTask (s : State) (k : Nat) (why : KillWhy) : State :=
  let core := k / 8
  let slot := k % 8
  let s := (s.landLate k).landIssued core slot
  let t := s.task k
  let s := if t.wait = .none then s else s.forget core slot t.ctx
  let s := (s.dropTask core t).pmcEvent core 7 1
  let keep (l : List Cmd) : List Cmd := l.filter (fun c => c.slot != slot || c.killed)
  let drop (q : EngineQ) : EngineQ :=
    { queue := keep q.queue, held := keep q.held, started := q.started.filter (fun c => !(c.slot == slot && isMmv c.what)) }
  let gone (c : Cmd) : Cmd := if c.slot == slot then c.kill else c
  let goes (c : Cmd) : Bool := c.slot == slot && c.copying
  let old := (s.core core).gp
  let s := s.modCore core (fun c =>
    { c with
      vq := drop c.vq, mq := drop c.mq
      cq := { queue := keep c.cq.queue, held := keep (c.cq.held.map (fun x => if goes x then x.kill else x))
              started := c.cq.started.map gone }
      gp := c.gp.filter (fun g => g.slot != slot || g.killed)
      running := if c.running = some slot then none else c.running
      merging := c.merging && !t.merges })
  let s := if (s.core core).gp.head? = old.head? then s else s.gpKick core
  let s := s.setTask k
    { t with
      stat := .killing why, q := [], cc := [], sched := [], late := [], wait := .none, commit := [], loads := [], sect := none
      nodes := [], freed := [], taken := [], pushes := 0 }
  (s.tryKill k).select core

/-- Consumed poison (R388 to R391): a replayable task whose message is unmarked is killed and its message marked and
redelivered; any other is a containment context fault, code 64, that names the tag. -/
def State.poisonKill (s : State) (k tag : Nat) : State :=
  let t := s.task k
  let s := s.consumed tag t.tid
  let marked := (t.start.bind (·.mark)).isSome
  if t.replayable ∧ !marked ∧ t.start.isSome then
    s.killTask k (.redeliver (some (2 ^ 57)))
  else s.takeTrap k 64 0 tag [BitVec.ofNat 64 tag]

/-- A tumbler mismatch in the block whose `blk` stands at `addr`, forming signature `sig` (R389): a record of source 7
and a kill; a second mismatch in the same block is the signature fault, code 65. -/
def State.tumblerKill (s : State) (k addr sig : Nat) : State :=
  let t := s.task k
  let (tag, s) := s.errorRecord 7 (k / 8) 0 0
  match t.start.bind (·.mark) with
  | some a =>
    if a = addr then s.takeTrap k 65 0 0 [BitVec.ofNat 64 addr, BitVec.ofNat 64 sig]
    else s.takeTrap k 64 0 tag [BitVec.ofNat 64 tag]
  | none =>
    if t.replayable ∧ t.start.isSome then
      s.killTask k (.redeliver (some addr))
    else s.takeTrap k 64 0 tag [BitVec.ofNat 64 tag]

/-! ### RETURNING FROM AN EXCEPTION (R186, R385) -/

/-- What an `eret` does with the trapped task. -/
inductive Ret where
  | retry | next | kill
  deriving DecidableEq, Repr

/-- The bytes of scratchpad that a recorded command of the vector or matrix engine writes; the task stands in a slot of no core. -/
def State.savedBytes (s : State) (t : Task) (c : Cmd) : Nat :=
  let s := s.setTask 65536 t
  (((if vstores c.what then s.vaccess 65536 c else []) ++ c.writeRanges).map (·.2)).sum

/-- The recorded commands of a killed task that had started complete and signal their gates (R198, R242); what they write to the own
scratchpad is rolled back with the rest. -/
def State.signalSaved (s : State) (r : Saved) : State :=
  ((r.vq ++ r.mq).filter (fun c => c.resumed && !isMmv c.what)).foldl
    (fun s c => s.signal r.core c (s.savedBytes r.task c) true) s

/-- Kills a saved task: its effects are dropped, its writes rolled back, its area freed (R185, R186); its started copy commands go
on from their progress and signal their gates (R107). -/
def State.killSaved (s : State) (handle : Nat) : State :=
  let r := Tab.get .empty s.saved handle
  let s := s.signalSaved r
  let s := s.modHive (hiveOf r.core) (fun h => { h with heldFaults := h.heldFaults.filter (· != HeldFault.saved handle) })
  let s := (s.dropTask r.core r.task).pmcEvent r.core 7 1
  let s := s.modSpace r.task.ctx r.core (fun sp => sp.rollback r.task.undo)
  let going := (r.cq.filter (·.resumed)).map Cmd.kill
  let s := s.modCore r.core (fun c => { c with cq := { c.cq with held := c.cq.held ++ going } })
  let s := if going = [] then s else s.push (.engineCommandStart r.core .copy)
  ({ s with saved := Tab.erase s.saved handle }).freeArea r.task.ctx handle

/-- The end of a loop body (R174): one pass less, back to the start or on past the end. -/
def Task.loopEnd (t : Task) : Task :=
  match t.loops.getLast? with
  | none => t
  | some l =>
    let outer := t.loops.dropLast
    if 1 < l.rem then { t with loops := outer ++ [({ l with rem := l.rem - 1 } : Loop)], pc := l.start }
    else { t with loops := outer, pc := l.last + 8 }

/-- Whether the word at the pc is the last of the innermost body. -/
def Task.atLast (t : Task) : Bool :=
  match t.loops.getLast? with
  | some l => t.pc == l.last
  | none => false

/-- The open block is left; a breach that finds no block open names it and its signature (R155, R389). -/
def Task.leaveBlk (t : Task) : Task :=
  match t.blk with
  | some b => { t with blk := none, lastBlk := b.addr, lastSig := b.sig }
  | none => t

/-- A word counts in its block, and ends it when it closes it (R154). -/
def Task.noteWord (t : Task) (closes : Bool) (w : Nat) : Task :=
  if closes then t.leaveBlk else { t with blk := t.blk.map (fun (b : Blk) => { b with words := w :: b.words }) }

/-- Goes past the trapped word (R186): it counts in its block and ends a loop body as if it had retired (log 16). -/
def Task.passWord (t : Task) : Task :=
  let t := { t with bpPass := false }
  let t' := match t.passed with
    | none => t
    | some (w, closes) => { t with passed := none }.noteWord closes w
  if t.atLast then t'.loopEnd else { t' with pc := (t.pc + 8) % 2 ^ 57 }

/-- Steps a saved task past its trapped word, or discards the engine command that faulted (R186). -/
def Saved.skip (r : Saved) : Saved :=
  match r.task.engFault with
  | some (.vector, i) => { r with vq := r.vq.filter (fun c => c.place != i) }
  | some (.matrix, i) => { r with mq := r.mq.filter (fun c => c.place != i) }
  | some (.copy, i) => { r with cq := r.cq.filter (fun c => c.place != i) }
  | none => { r with task := r.task.passWord }

/-- The breach or mismatch that the word which `eret.next` passes makes, as its `blk` and the signature formed (R154 to R156): it
follows a block that is left, it runs past 1,024 words, or it ends a block whose words do not give its signature. -/
def Saved.mismatch (r : Saved) : Option (Nat × Nat) :=
  match r.task.passed, r.task.blk with
  | none, _ => none
  | some _, none => some (r.task.lastBlk, r.task.lastSig)
  | some (w, closes), some b =>
    if 1024 ≤ b.words.length then some (b.addr, signature b.words.reverse)
    else
      let sig := signature (w :: b.words).reverse
      if !closes ∨ sig = b.sig then none else some (b.addr, sig)

/-- A tumbler mismatch of a saved task (R389), as `tumblerKill` has it for one in a slot. -/
def State.tumblerSaved (s : State) (handle addr sig : Nat) : State :=
  let r := Tab.get .empty s.saved handle
  let t := r.task
  let (tag, s) := s.errorRecord 7 r.core 0 0
  let fault (code tag : Nat) (items : List Word) : State :=
    s.contextFault t.ctx code (ringEntry code 0 r.core 0 t.ctx tag t.tid t.pc handle items) (hiveOf r.core) r.core none
  match t.start.bind (·.mark) with
  | some a =>
    if a = addr then fault 65 0 [BitVec.ofNat 64 addr, BitVec.ofNat 64 sig] else fault 64 tag [BitVec.ofNat 64 tag]
  | none =>
    if t.replayable ∧ t.start.isSome then (s.killSaved handle).redeliver r.core t (some addr)
    else fault 64 tag [BitVec.ofNat 64 tag]

/-- RETURNING FROM A SUPERVISOR TRAP, at the handler's commit (R186): the trapped task is re-executed, continued, or
killed. A passed word that ends its block is judged with it (R156). In a stopped context it is only marked (R385). A held fault (state 4)
that `eret.retry` names is raised again when the task resumes (R384). -/
def State.eret (s : State) (handle : Nat) (how : Ret) : State :=
  let r := Tab.get .empty s.saved handle
  let s := match how with
    | Ret.kill => s.killSaved handle
    | _ =>
      let skips := decide (how = Ret.next) && (r.state == 2 || r.state == 4)
      match (if skips && r.task.engFault.isNone then r.mismatch else none) with
      | some (addr, sig) => s.tumblerSaved handle addr sig
      | none =>
      let t := ({ r.task with pc := s.num (handle + 16) 8 } : Task).passWord
      let s := if skips && r.task.engFault.isNone then s.writeWord (handle + 16) (BitVec.ofNat 64 t.pc) else s
      let r' := if skips then r.skip else r
      let stopped := (s.ctx r.task.ctx).stopped
      let s := s.modHive (hiveOf r.core) (fun h => { h with heldFaults := h.heldFaults.filter (· != HeldFault.saved handle) })
      { s with saved := Tab.set .empty s.saved handle
                 { r' with named := true, pending := r.pending || !stopped, entry := if skips || r.state == 2 then [] else r.entry
                           task := { r'.task with engFault := none } } }
  s.fill r.core

/-! ### Debug events (R402, R403) -/

/-- Posts a debug event to the attached event ring of a context: 64 records in host memory (R402, R403). The record
holds the task identifier, the program counter and the status, and for `dbgb` the value of A (log 14). -/
def State.debugEvent (s : State) (ctx tid pc status : Nat) (a : Word) : State :=
  match (s.ctx ctx).debugRing with
  | none => s
  | some ring =>
    let i := (s.ctx ctx).debugIndex
    let s := s.writeWords (ring + i % 64 * 32)
      [BitVec.ofNat 64 tid, BitVec.ofNat 64 pc, BitVec.ofNat 64 status, a]
    s.modCtx ctx (fun c => { c with debugIndex := (i + 1) % 64 })

end Sys2Proof.Machine
end

