-- ==== Sys2Proof/Machine/Operands.lean ====
section
/-! DEFINITION. The frame of an instruction word: reading and writing operands, the static schedule, addresses, and how
a word ends. -/

namespace Sys2Proof.Machine

open Sys2Proof.Machine.Num

/-- How a word ends without its effect: all of these leave the state as it was before the word, but for what
`keep` names. -/
inductive Exit where
  /-- It stalls on a gate, a queue, a link or a lock (R399 event 4); with a gate number, or 63 for a full queue, the gate deadlock of R98
  is judged. -/
  | stall (gate : Option Nat)
  /-- It is held for another reason; `late` is a late arrival, during which the core stalls as one unit (R86, R92, R160). -/
  | hold (late : Bool)
  /-- A precise supervisor trap or a context fault: code and cause of R381, items. -/
  | trap (code cause : Nat) (items : List Word)
  /-- It consumes poison (R388). -/
  | poison (tag : Nat)
  /-- A tumbler mismatch in the block at `addr`, signature formed (R389). -/
  | tumbler (addr sig : Nat)
  /-- A user upcall of a class (R79, R379). -/
  | upcall (cls : Nat) (regs : List Word) (handleAt : Nat) (keep : Option State)
  /-- The task parks (R366). -/
  | park (p : Park)
  /-- A lock-elision abort (R288). -/
  | abort (cause code : Nat)
  deriving DecidableEq

/-- A word's meaning: it changes the state or ends in an exit. -/
abbrev W := StateT State (Except Exit)

def exit {α : Type} (e : Exit) : W α := throw e

/-- Where control goes after a word. -/
inductive Ctl where
  | next
  | jump (pc : Nat)
  | stay
  deriving DecidableEq, Repr

/-- The slot whose task holds the focused core's scalar stream. -/
def State.current (s : State) : Option Nat :=
  (s.core s.focus).running.map (fun i => s.focus * 8 + i)

def curKey : W Nat := do return ((← get).current).getD 0
def curCore : W Nat := do return (← get).focus
def curTask : W Task := do return (← get).task (← curKey)
def modCur (f : Task → Task) : W Unit := do
  let k ← curKey
  modify (fun s => s.modTask k f)

/-- A supervisor trap of the current word. -/
def trap {α : Type} (code : Nat) (cause : Nat := 0) (items : List Word := []) : W α :=
  exit (.trap code cause items)

/-! ### Fault codes (R381) -/

def fIllegal := 1
def fSchedule := 2
def fControl := 3
def fLoop := 4
def fTag := 5
def fPrivilege := 6
def fFibre := 7
def fCounter := 8
def fPointer := 9
def fFormat := 10
def fCapacity := 11
def fTranslation := 12
def fProtection := 13
def fRegion := 14
def fCopy := 15
def fGate := 16
def fDeadlock := 17
def fLink := 18
def fQueue := 19
def fMatrix := 20
def fAttention := 21
def fMessage := 22
def fGet := 23
def fBulk := 24
def fCompletion := 25
def fAtomic := 26
def fKey := 27
def fRace := 28
def fOverflow := 29

/-! ### Registers and the static schedule (R160, R161) -/

def zeroT : Tagged := { v := 0, tag := 0 }

def Task.reg (t : Task) (n : Nat) : Tagged := Tab.get zeroT t.g n

/-- A g register written: g0 discards (R112). -/
def Task.setReg (t : Task) (n : Nat) (w : Tagged) : Task :=
  if n = 0 then t else { t with g := Tab.set zeroT t.g n w }

/-- A schedule fault when a register is still within a result's latency: it names the register and the producer. -/
def checkSched (n : Nat) : W Unit := do
  match (← curTask).sched.find? (fun e => e.reg == n) with
  | some e => trap fSchedule 0 [BitVec.ofNat 64 n, BitVec.ofNat 64 e.pc]
  | none => return ()

def readG (n : Nat) : W Tagged := do
  if n = 0 then return zeroT
  checkSched n
  return (← curTask).reg n

/-- Writes a g register with latency `lat`: words issued before then may not touch it. -/
def writeG (n : Nat) (w : Tagged) (lat : Nat) : W Unit := do
  if n = 0 then return ()
  checkSched n
  modCur (fun t =>
    let t := t.setReg n w
    if lat ≤ 1 then t
    -- the word's own retirement counts one
    else { t with sched := { reg := n, left := lat, pc := t.pc } :: t.sched })

def fifoIndex : Fifo → Nat
  | .mres => 8 | .vres => 9 | .cres => 10 | .ares => 11

/-- Whether a command of the task will still fill a result FIFO. -/
def Core.fills (c : Core) (slot fifo : Nat) (pushes : Decoded → Option Nat) : Bool :=
  (c.vq.of slot ++ c.mq.of slot ++ c.cq.of slot).any (fun x => pushes x.what == some fifo)

/-- A queue fault names the specifier (R118). -/
def queueFault {α : Type} (i : Nat) : W α :=
  trap fQueue 0 [BitVec.ofNat 64 (if i < 8 then 64 + i else 68 + i)]

/-- The specials (R114). -/
def special (k : Special) : W Word := do
  let s ← get
  let t ← curTask
  let key ← curKey
  return BitVec.ofNat 64 (match k with
    | .tid => t.tid
    | .cid => s.focus
    | .hid => hiveOf s.focus
    | .ctx => t.ctx
    | .slot => key % 8
    | .cyc => s.cyc
    | .irc => t.irc)

/-- The registers of a version trap (R67); g8 receives the fibre's handle. -/
def versionRegs (cause sub va ver newest floor pc tid : Nat) : List Word :=
  [cause + sub * 256, va / 64 * 64, ver, newest, floor, pc, tid, 0].map (BitVec.ofNat 64)

/-- Pops a queue or FIFO: an empty one blocks while something outstanding fills it, else raises the queue fault; a parked
version load parks the task; a trap answer is delivered (R115, R118, R266). -/
def popQueue (i : Nat) : W Tagged := do
  let t ← curTask
  match t.queue i with
  | .word w :: rest =>
    modCur (·.setQueue i rest)
    return w
  | .await id :: _ =>
    match t.parkedFor id with
    | some v => exit (.park (.version v))
    | none => exit (.stall none)
  | .trap _ cause sub regs :: _ =>
    exit (.upcall 2 (versionRegs cause sub (regs.getD 0 0) (regs.getD 1 0) (regs.getD 2 0) (regs.getD 3 0)
      (regs.getD 4 0) t.tid) 7 none)
  | [] =>
    let s ← get
    let key ← curKey
    if t.lateIn i ≠ 0 then exit (.stall none)
    -- a filler held by a lock counts as a stall on the gate of the command that locks (R232)
    if (s.core s.focus).fills (key % 8) i pushesFifo then exit (.stall (s.storeStall s.focus)) else queueFault i

/-- A result that leaves the word with latency `lat` arrives `lat` words later, its own retirement counting one (R160). -/
def later (lat : Nat) (dest : LateTo) : W Unit := modCur (fun t => { t with late := t.late ++ [{ left := lat, dest := dest }] })

/-- Pushes a word into a queue register, which it enters after its latency (R115, R160). A word still on its way counts among the four
(DEDUCED, log 138). -/
def pushQueue (i : Nat) (w : Tagged) (lat : Nat) : W Unit := do
  let t ← curTask
  if 4 ≤ (t.queue i).length + t.lateIn i then queueFault i
  if lat ≤ 1 then modCur (·.setQueue i (t.queue i ++ [.word w])) else later lat (.queue i w)

/-- A port with no neighbour raises the link fault at issue (R116). -/
def checkPort (d : Dir) : W Nat := do
  match neighbour (← curCore) d with
  | none => trap fLink
  | some n => return n

/-- Reads a source operand (R147): queues, FIFOs and ports pop. -/
def readO : Opnd → W Tagged
  | .g n => readG n.val
  | .q n => popQueue n.val
  | .fifo f => popQueue (fifoIndex f)
  | .special k => do return { v := ← special k, tag := 0 }
  | .link d => do
    let _ ← checkPort d
    let s ← get
    let t ← curTask
    match Tab.get [] (s.space t.ctx s.focus).links (dirCode d) with
    | [] => exit (.stall none)
    | w :: rest =>
      modify (fun s => s.modSpace t.ctx s.focus (fun sp => { sp with links := Tab.set [] sp.links (dirCode d) rest }))
      return w

/-- Writes a destination operand (R147): queues and ports push. -/
def writeO (d : Opnd) (w : Tagged) (lat : Nat) : W Unit :=
  match d with
  | .g n => writeG n.val w lat
  | .q n => pushQueue n.val w lat
  | .link p => do
    let n ← checkPort p
    let s ← get
    let t ← curTask
    let port := dirCode (dirOpposite p)
    let l := Tab.get [] (s.space t.ctx n).links port
    if 4 ≤ l.length + t.lateOut n port then exit (.stall none)
    if lat ≤ 1 then set (s.modSpace t.ctx n (fun sp => { sp with links := Tab.set [] sp.links port (l ++ [w]) }))
    else later lat (.link n port w)
  | .fifo _ | .special _ => trap fIllegal 8

/-- A word's use of poison as an address, condition, target or count (R162, R388). -/
def useWord (w : Tagged) : W Word := do
  if w.tag ≠ 0 then exit (.poison w.tag)
  return w.v

/-- The flags of a scalar word, which FSTAT receives when the result is written, `lat` words later (R169). -/
def flags (f : Nat) (lat : Nat) : W Unit :=
  if lat ≤ 1 then modCur (·.raiseFlags f) else if f % 64 = 0 then pure () else later lat (.flags f)

/-! ### Addresses (R143) -/

/-- The virtual address in a fat pointer. -/
def vaOf (p : Word) : Nat := p.toNat % 2 ^ 57
def fmtCode (p : Word) : Nat := p.toNat / 2 ^ 60
def blogOf (p : Word) : Nat := p.toNat / 2 ^ 57 % 8

/-- The address of a MEM word, or the pointer fault. -/
def address (base index : Word) (scale : Nat) (off : BitVec 22) : W Nat :=
  let a : Int := (vaOf base : Int) + index.toInt * ((2 ^ scale : Nat) : Int) + off.toInt
  if a < 0 ∨ ((2 ^ 57 : Nat) : Int) ≤ a then trap fPointer else return a.toNat

/-- How an element is treated (R178): bytes, and whether it is a signed, unsigned or float type. -/
def tyOfFmt : Nat → Option Ty
  | 0 => some .n64 | 1 => some .f32 | 2 => some .bf16 | 3 => some .f16 | 4 => some .e4m3 | 5 => some .e5m2
  | 6 => some .i8 | 7 => some .i32 | 9 => some .i16 | 10 => some .n8 | 11 => some .n16 | 12 => some .n32
  | _ => none

/-- The element type of a load or store: T, or the base pointer's fmt when T = 0; fmt 8 and 13 to 15 raise the format
fault (R69, R178). -/
def elemTy (t : Ty) (base : Word) : W Ty :=
  match t with
  | .none =>
    match tyOfFmt (fmtCode base) with
    | some t => return t
    | none => trap fFormat
  | t => return t

/-- The bytes of an element. -/
def tyBytes (t : Ty) : Nat := t.width / 8

/-- What a store writes, and its flags (R178). -/
def storeValue (t : Ty) (w : Word) : Nat × Nat :=
  if t.isFloat then (fmtOf t).round .rne false (f32.decode (w.toNat % 2 ^ 32))
  else (low t.width w.toNat, 0)

/-! ### Global accesses -/

/-- A page-fault upcall's registers (R79); g6 receives the fibre's handle. -/
def pageRegs (cause level va kind pc tid : Nat) : List Word :=
  [cause + level * 256, va, kind, pc, tid, 0].map (BitVec.ofNat 64)

/-- Translates for the current task; `keep` is what of the word stands when it faults. -/
def xlate (va : Nat) (k : Acc) (keep : Option State := none) : W (Nat × Nat) := do
  let s ← get
  let t ← curTask
  let (r, s') := s.translate s.focus t.ctx va t.super k
  match r with
  | .ok pa leaf =>
    set s'
    return (pa, leaf)
  | .page cause level => exit (.upcall 1 (pageRegs cause level va k.code t.pc t.tid) 5 keep)
  | .protection => trap fProtection
  | .translation => trap fTranslation
  | .migrating => exit (.park (.migrating va))

/-- The capacity fault of R19 names the physical address. A read that the peer does not serve allocates the link record; a write is
posted at the peer (R408). -/
def checkCapacity (pa : Nat) (reads : Bool) : W Unit := do
  if !(← get).paOk pa then trap fCapacity 0 [BitVec.ofNat 64 pa]
  if reads then modify (fun s => s.notePeer pa)

/-- A piece of an access: virtual and physical address, bytes, and the leaf of its page. -/
structure Piece where
  va : Nat
  pa : Nat
  n : Nat
  leaf : Nat
  deriving DecidableEq, Repr

/-- The pieces as physical ranges. -/
def ranges (l : List Piece) : List (Nat × Nat) := l.map (fun p => (p.pa, p.n))

/-- The pieces of an access of at most 16 bytes: one page, or two when it crosses. -/
def xlateSpan (va n : Nat) (k : Acc) (keep : Option State := none) : W (List Piece) := do
  let (pa, leaf) ← xlate va k keep
  checkCapacity pa !k.writes
  if va / 4096 = (va + n - 1) / 4096 then return [{ va := va, pa := pa, n := n, leaf := leaf }]
  else
    let first := 4096 - va % 4096
    let va' := (va + first) % 2 ^ 57
    let (pa', leaf') ← xlate va' k keep
    checkCapacity pa' !k.writes
    return [{ va := va, pa := pa, n := first, leaf := leaf }, { va := va', pa := pa', n := n - first, leaf := leaf' }]

/-- The region of a page with keyreq = 1. -/
def keyedOf (leaf : Nat) : Keyed := if pteKey leaf then some (pteRegion leaf) else none

/-- A version trap at issue (R67). -/
def versionTrap {α : Type} (cause sub va ver : Nat) : W α := do
  let t ← curTask
  exit (.upcall 2 (versionRegs cause sub va ver 0 0 t.pc t.tid) 7 none)

/-- A plain write to a versioned page raises VORDER sub-cause 4 (R53). -/
def checkPlainWrite (leaf va : Nat) : W Unit :=
  if pteVers leaf then versionTrap 1 4 va 0 else return ()

/-- The bytes of an element by its pieces. -/
def byParts : List (Nat × Nat) → List Byte → List (Nat × List Byte)
  | [], _ => []
  | p :: rest, bs => (p.1, bs.take p.2) :: byParts rest (bs.drop p.2)

/-- The valid descriptor or group entry that a task's store breaks; the task's own buffered bytes stand before memory's (R262). -/
def State.storeBreaks (s : State) (t : Task) (parts : List (Nat × List Byte)) : Option Nat :=
  let look (a : Nat) : Byte := (((t.ownBytes [(a, 1)]).head?).map (·.2)).getD (s.byte a)
  parts.findSome? (fun p => s.entryBroken look p.1 p.2)

/-- A store to a valid descriptor or group entry that leaves it valid is the context fault of R17, which names the entry (log 132). -/
def checkEntries (parts : List (Nat × List Byte)) : W Unit := do
  match (← get).storeBreaks (← curTask) parts with
  | some a => trap 69 0 [BitVec.ofNat 64 a]
  | none => return ()

/-- A race fault (R305): level 2, keyreq without vers, the key with another core. -/
def checkRace (leaf : Nat) : W Unit := do
  let s ← get
  let t ← curTask
  let c := s.ctx t.ctx
  if c.detlvl = 2 ∧ pteKey leaf ∧ !pteVers leaf then
    let r := Tab.get .invalid c.regions (pteRegion leaf)
    if r.held ∧ r.holder ≠ s.focus then
      trap fRace 0 [BitVec.ofNat 64 (pteRegion leaf), BitVec.ofNat 64 r.holder]

/-- A bulk read waits until every earlier `put` of its task has read its list (R272). -/
def awaitPuts : W Unit := do
  let s ← get
  let k ← curKey
  if (s.core s.focus).gp.any (fun g => g.slot == k % 8 && g.isPut && !g.known && !g.killed) then exit (.hold false)

/-- Whether two ranges of a start and a length have a byte in common. -/
def spansMeet (a m b n : Nat) : Bool := decide (a < b + n) && decide (b < a + m)

/-- Whether a bulk write covers a byte of a physical range: one recorded by its virtual address, as that translates now. -/
def State.bulkMeets (s : State) (core : Nat) (t : Task) (pa n : Nat) (b : Bulk) : Bool :=
  match b.va with
  | none => spansMeet b.pa b.len pa n
  | some va => ((s.mapped core t.ctx t.super .engWrite va b.len).1).any (fun p => spansMeet p.1 p.2 pa n)

/-- The bulk-read fault (R272, R299): a byte that an earlier put or copy of the task writes. -/
def checkBulk (pa n : Nat) : W Unit := do
  let s ← get
  let t ← curTask
  match t.bulk.find? (s.bulkMeets s.focus t pa n) with
  | some b => trap fBulk 0 [BitVec.ofNat 64 b.pc]
  | none => return ()

/-- The same for bytes whose page does not translate, by their virtual addresses. -/
def checkBulkAt (va n : Nat) : W Unit := do
  match (← curTask).bulk.find? (fun b => match b.va with | some v => spansMeet v b.len va n | none => false) with
  | some b => trap fBulk 0 [BitVec.ofNat 64 b.pc]
  | none => return ()

/-- Commit-buffer units in use. -/
def Task.units (t : Task) : Nat := (t.commit.map (·.units)).foldl (· + ·) 0

/-- The commit-buffer overflow fault at issue (R298). -/
def checkUnits (need : Nat) : W Unit := do
  let t ← curTask
  if 256 < t.units + need then
    trap fOverflow 0 [BitVec.ofNat 64 t.units, BitVec.ofNat 64 need]

/-- Buffers an effect. -/
def buffer (eff : Effect) (units : Nat) (control : Nat := 0) : W Unit := do
  checkUnits units
  modCur (fun t => { t with commit := t.commit ++ [{ eff := eff, units := units, pc := t.pc, control := control }] })

/-- Signature bits of a line (R301). -/
def sigBits (pa : Nat) : BitVec 512 :=
  let l := pa / 64
  let f (hi lo : Nat) : Nat := l / 2 ^ lo % 2 ^ (hi - lo + 1)
  let h1 := f 8 0 ^^^ f 17 9 ^^^ f 26 18
  let h2 := f 35 27 ^^^ f 41 36 ^^^ f 12 4
  (1#512 <<< h1) ||| (1#512 <<< h2)

def noteRead (pa : Nat) : W Unit := modCur (fun t => { t with rsig := t.rsig ||| sigBits pa })
def noteWrite (pa : Nat) : W Unit := modCur (fun t => { t with wsig := t.wsig ||| sigBits pa })

/-- A word that makes the task non-replayable; in an ordered task it first waits for the horizon (R302). A section aborts
with cause 5 when the word is one R287 lists. -/
def nonReplayable (abortsSection : Bool) : W Unit := do
  let s ← get
  let t ← curTask
  if s.beyondHorizon t then exit (.hold false)
  if abortsSection ∧ t.sect.isSome then exit (.abort 5 0)
  modCur (fun t => { t with replayable := false })

/-- Privileged words (R162): a privilege fault names the mnemonic (log 7) and a system register's number. -/
def supervisorOnly (mnemonic : Nat) (num : Option Nat) : W Unit := do
  if !(← curTask).super then
    trap fPrivilege 0 (Config.mnemonicCode mnemonic :: (match num with | some n => [BitVec.ofNat 64 n] | none => []))

/-! ### Blocks and loops (R154, R155, R174, R175) -/

/-- A taken branch or `jmp` to outside the innermost level pops it, and so on (R175): innermost first. -/
def popLoops (target : Nat) : List Loop → List Loop
  | [] => []
  | l :: rest => if l.start ≤ target ∧ target ≤ l.last then l :: rest else popLoops target rest

/-- The block with the current word, judged when the word closes it: the tumbler compares before the word takes effect
(R156, R389). -/
def closeBlock (words : List Nat) (b : Blk) : W Unit :=
  let sig := signature words.reverse
  if sig = b.sig then return () else exit (.tumbler b.addr sig)

/-- Whether a user word waits because its core has ended a quantum that has not begun everywhere (R373). -/
def State.quantumHolds (s : State) (core : Nat) (t : Task) : Bool :=
  (s.ctx t.ctx).detlvl != 0 && !t.super &&
    (s.memberGroups t.ctx core).any (fun g => decide ((s.group t.ctx g).qno + 2 ≤ s.quantumOf t.ctx core g))

/-- Before any word: an answer awaited, a quantum not begun, a dense fallback trap or an abort due (R252, R288). -/
def ready : W Unit := do
  let t ← curTask
  if t.wait ≠ .none ∨ (← get).quantumHolds (← curCore) t then exit (.hold false)
  match t.dense with
  | some regs =>
    let k ← curKey
    exit (.upcall 3 regs 5 (some ((← get).modTask k (fun t => { t with dense := none }))))
  | none => pure ()
  match t.sect with
  | some x =>
    match x.dead with
    | some (cause, code) => exit (.abort cause code)
    | none => pure ()
  | none => pure ()

/-- Before a word but `blk`: the block open and not too long, and, for the last word of a body or a control word, the
block's signature (R154, R155). A control word ending a body raises loop fault cause 3. A breach where no block is open names the block
last left and its signature; at a task's entry none was left, and it names 0 and 0 (DESIGN CHOICE, log 128). -/
def prelude (control : Bool) : W Unit := do
  ready
  let s ← get
  let t ← curTask
  if control ∧ t.atLast then trap fLoop 3
  match t.blk with
  | none => exit (.tumbler t.lastBlk t.lastSig)
  | some b =>
    if 1024 ≤ b.words.length then exit (.tumbler b.addr (signature b.words.reverse))
    if control ∨ t.atLast then closeBlock (s.ir :: b.words) b

/-- The words a core counts for each group it names (R373): at levels 1 and 2, the Q-th word ends the quantum. -/
def State.countQuantum (s : State) (core : Nat) (t : Task) : State :=
  if (s.ctx t.ctx).detlvl = 0 ∨ t.super then s
  else
    (s.memberGroups t.ctx core).foldl
      (fun s g =>
        let q := (s.group t.ctx g).quantum
        let n := Tab.get 0 (s.cc t.ctx core).quantumWords g + 1
        if n < (if q = 0 then 8192 else q) then
          s.modCc t.ctx core (fun c => { c with quantumWords := Tab.set 0 c.quantumWords g n })
        else
          (s.modCc t.ctx core (fun c =>
            { c with quantumWords := Tab.set 0 c.quantumWords g 0
                     quantumNo := Tab.set 0 c.quantumNo g (Tab.get 0 c.quantumNo g + 1) })).push
            (.quantumEnd t.ctx g core)) s

/-- One issued word less of every latency (R160). -/
def stepSched (l : List Sched) : List Sched :=
  (l.map (fun (e : Sched) => { e with left := e.left - 1 })).filter (fun e => e.left != 0)

/-- What a core counts for a retired word of a task: quantum words and user words (R373, R399). -/
def State.countWord (s : State) (core : Nat) (t : Task) : State :=
  let s := s.countQuantum core t
  let s := s.pmcEvent core 3 (Config.lateCycles s.tick)
  if t.super then s else s.pmcEvent core 2 1

def counted (t : Task) : W Unit := do
  let k ← curKey
  modify (fun s => s.countWord (k / 8) t)

/-- Retires a word: the instruction count, the schedule and late results, the block, the loop end, the pc. -/
def retire (control : Bool) (c : Ctl) : W Unit := do
  match c with
  | .stay => return ()
  | _ =>
    let s ← get
    let k ← curKey
    let t := s.task k
    let closes := control || t.atLast
    let t' := ({ t with irc := t.irc + 1, bpPass := false, sched := stepSched t.sched } : Task).noteWord closes s.ir
    let t' := match c with
      | .jump pc => { t' with pc := pc }
      | _ => if t.atLast then t'.loopEnd else { t' with pc := t.pc + 8 }
    set ((s.setTask k t').stepLate k)
    counted t

/-- A word that awaits an answer: it stays at the pc, and its retirement follows the answer. -/
def holdWord (w : Wait) (control : Bool) : W Ctl := do
  let s ← get
  modCur (fun t => { t with wait := w, passed := some (s.ir, control || t.atLast) })
  return .stay

/-- The retirement of a word whose answer has come. -/
def State.completeWord (s : State) (k : Nat) : State :=
  let t := s.task k
  let s := s.setTask k
    { t.passWord with wait := .none, irc := t.irc + 1, bpPass := false, sched := stepSched t.sched }
  (s.stepLate k).countWord (k / 8) t

/-! ### Running a word -/

/-- The trapped word, for `eret.next`. -/
def State.notePassed (s : State) (k : Nat) (control : Bool) : State :=
  s.modTask k (fun t => { t with passed := some (s.ir, control || t.atLast) })

/-- A stalled ordered task beyond the horizon awaits a waggle window (R300, R302). -/
def State.askHorizon (s : State) (k : Nat) : State :=
  let t := s.task k
  match s.orderedGroup t with
  | some g =>
    if (s.group t.ctx g).horizon < t.ts ∧ !s.pending.contains (.horizonWindow t.ctx g) then
      s.push (.horizonWindow t.ctx g)
    else s
  | none => s

/-- The line that a parked `wtv` waits on is in its task's read signature (R301). -/
def State.noteParked (s : State) (k : Nat) : Park → State
  | .wtv pa => s.modTask k (fun t => { t with rsig := t.rsig ||| sigBits pa })
  | _ => s

/-- Ends a word by an exit: the state before the word, but for what the exit keeps. -/
def State.finish (s : State) (k : Nat) (control : Bool) : Exit → State
  | .hold false => (s.askHorizon k).stepLate k
  | .hold true => s.pmcEvent (k / 8) 3 s.stepCycles
  | .stall none => ((s.pmcEvent (k / 8) 4 s.stepCycles).askHorizon k).stepLate k
  | .stall (some g) =>
    if s.enginesBusy (k / 8) then (s.pmcEvent (k / 8) 4 s.stepCycles).stepLate k
    else (s.notePassed k control).takeTrap k fDeadlock 0 0 [BitVec.ofNat 64 g]
  | .trap code cause items => (s.notePassed k control).takeTrap k code cause 0 items
  | .poison tag => s.poisonKill k tag
  | .tumbler addr sig => s.tumblerKill k addr sig
  | .upcall cls regs at' keep => (keep.getD s).takeUpcall k cls regs at'
  | .park p => ((s.noteParked k p).park k p).evict (k / 8)
  | .abort cause code => s.abortSection k cause code

/-- Runs what a word does for the focused core's running task, or ends it by its exit. -/
def runFrame (control : Bool) (m : W Unit) (s : State) : Host.Outcome State Fault Refusal :=
  match s.current with
  | none => .fault .noRunningTask
  | some k =>
    match m.run s with
    | .ok (_, s') => .next s'.cycle
    | .error e => .next (s.finish k control e).cycle

/-- Runs a word of the focused core's running task. -/
def runWord (control : Bool) (m : W Ctl) (s : State) : Host.Outcome State Fault Refusal :=
  runFrame control (do prelude control; let c ← m; retire control c) s

/-- A plain word: the next word follows. -/
def plain (m : W Unit) (s : State) : Host.Outcome State Fault Refusal :=
  runWord false (do m; return .next) s

/-- An event of the device. -/
def event (s : State) : Host.Outcome State Fault Refusal := .next s.cycle

end Sys2Proof.Machine
end

