-- ==== Sys2Proof/Machine/Control.lean ====
section
/-! DEFINITION. Branches, jumps, hardware loops and blocks (R172 to R177). -/

namespace Sys2Proof.Machine

open Sys2Proof.Machine.Num

/-- The outcome of a step. -/
abbrev Outc := Host.Outcome State Fault Refusal

/-- The check of a control transfer's target (R173): the fault names the target address. -/
def checkTarget (t : Int) : W Nat :=
  if t < 0 ∨ ((2 ^ 57 : Nat) : Int) ≤ t ∨ t % 8 ≠ 0 then trap fControl 0 [BitVec.ofInt 64 t]
  else return t.toNat

/-- The target of a BR word (R144). -/
def brTarget (off : BitVec 32) : W Nat := do
  checkTarget (((← curTask).pc : Int) + 8 * off.toInt)

/-- A taken branch or a `jmp`: loop levels that the target leaves are popped (R175). -/
def branchTo (off : BitVec 32) : W Ctl := do
  let t ← brTarget off
  modCur (fun x => { x with loops := (popLoops t x.loops.reverse).reverse })
  return .jump t

/-- A conditional branch (R172): D pops before A. -/
def condBranch (x : BrArg) (taken : Word → Word → Bool) (s : State) : Outc :=
  runWord true (do
    let a ← readO x.a
    let b ← readO x.b
    let a ← useWord a
    let b ← useWord b
    if taken a b then branchTo x.off else return .next) s

def execBeq (x : BrArg) (s : State) : Outc := condBranch x (fun a b => a == b) s
def execBne (x : BrArg) (s : State) : Outc := condBranch x (fun a b => a != b) s
/-- `blt`: signed (R172). -/
def execBlt (x : BrArg) (s : State) : Outc := condBranch x (fun a b => BitVec.slt a b) s
def execBge (x : BrArg) (s : State) : Outc := condBranch x (fun a b => BitVec.sle b a) s
/-- `bltn`: unsigned (R172). -/
def execBltn (x : BrArg) (s : State) : Outc := condBranch x (fun a b => BitVec.ult a b) s
def execBgen (x : BrArg) (s : State) : Outc := condBranch x (fun a b => BitVec.ule b a) s

/-- `jmp` (R173). -/
def execJmp (_hint : Hint) (off : BitVec 32) (s : State) : Outc :=
  runWord true (branchTo off) s

/-- `jal` (R173): the loop stack is unchanged (R175). -/
def execJal (d : Opnd) (_hint : Hint) (off : BitVec 32) (s : State) : Outc :=
  runWord true (do
    let t ← brTarget off
    writeO d { v := BitVec.ofNat 64 ((← curTask).pc + 8), tag := 0 } 1
    return .jump t) s

/-- `jr` (R173): the target is read before D is written. -/
def execJr (d a : Opnd) (s : State) : Outc :=
  runWord true (do
    let x ← useWord (← readO a)
    let t ← checkTarget (vaOf x : Int)
    writeO d { v := BitVec.ofNat 64 ((← curTask).pc + 8), tag := 0 } 1
    return .jump t) s

/-- A loop word with its count (R174). -/
def openLoop (cnt : Nat) (n : BitVec 12) : W Ctl := do
  let t ← curTask
  let last := t.pc + 8 * n.toNat
  if cnt = 0 then
    let t' ← checkTarget ((last + 8 : Nat) : Int)
    return .jump t'
  else if t.loops.length = 4 then trap fLoop 1
  else
    match t.loops.getLast? with
    | some l => if l.last ≤ last then trap fLoop 2
    | none => pure ()
    modCur (fun t => { t with loops := t.loops ++ [{ start := t.pc + 8, last := last, n := n.toNat, rem := cnt }] })
    return .next

/-- `loop gA, end` (R174): A[31:0] passes. -/
def execLoopReg (a : Opnd) (n : BitVec 12) (s : State) : Outc :=
  runWord true (do
    let x ← useWord (← readO a)
    openLoop (x.toNat % 2 ^ 32) n) s

/-- `loop count, end` (R174). -/
def execLoopImm (count : BitVec 20) (n : BitVec 12) (s : State) : Outc :=
  runWord true (openLoop count.toNat n) s

/-- The end of a loop body (R174), which the retirement of its last word contains: one pass less, back to the start or on
past the end. With no task at a body's last word nothing changes. -/
def execLoopBodyEnd (s : State) : Outc :=
  match s.current with
  | none => event s
  | some k => event (if (s.task k).atLast then s.modTask k (·.loopEnd) else s)

/-- `blk` (R154, R177): a `blk` in an open block closes it, its words so far; the new block opens. As a body's last word, a control
word, it ends its own block, of no words, and the body's end follows (log 17). -/
def execBlk (sig : BitVec 32) (s : State) : Outc :=
  runFrame false (do
    ready
    match (← curTask).blk with
    | some b => closeBlock b.words b
    | none => pure ()
    let t ← curTask
    let b : Blk := { addr := t.pc, sig := sig.toNat, words := [] }
    let t' := { t with irc := t.irc + 1, bpPass := false, sched := stepSched t.sched }
    if t.atLast then
      closeBlock [] b
      modCur (fun _ => ({ t' with blk := some b } : Task).leaveBlk.loopEnd)
    else
      modCur (fun _ => { t' with blk := some b, pc := t.pc + 8 })
    let k ← curKey
    modify (fun s => s.stepLate k)
    counted t) s

/-- `nop` (R177). -/
def execNop (s : State) : Outc := plain (pure ()) s

end Sys2Proof.Machine
end

