-- ==== Sys2Proof/Machine/Scratch.lean ====
section
/-! DEFINITION. Scratchpad loads and stores and the tag-table words (R178 to R183), with the undo log (R296). -/

namespace Sys2Proof.Machine

open Sys2Proof.Machine.Num

/-- The lines of the core's own scratchpad that an access touches. -/
def ownLines (core addr n : Nat) : List Nat :=
  ((List.range n).filterMap (fun i =>
    match spadByte core addr i with
    | some (c, off) => if c = core then some (off / 64) else none
    | none => none)).dedup

/-- Whether an access reaches another core. -/
def reachesOther (core addr n : Nat) : Bool :=
  (List.range n).any (fun i =>
    match spadByte core addr i with
    | some (c, _) => c != core
    | none => false)

/-- Records a line in the undo log of a task before its first write (R296); a 65th entry makes the task
non-replayable (R297). -/
def State.logLine (s : State) (k line : Nat) : State :=
  let t := s.task k
  if t.undo.any (fun u => u.line == line) then s
  else if 64 ≤ t.undo.length then s.setTask k { t with replayable := false }
  else
    let sp := s.space t.ctx (k / 8)
    let old := if Tab.get false sp.written line then
        some (readList sp.byte (line * 64) 64, sp.lineTag line)
      else none
    s.setTask k { t with undo := t.undo ++ [{ line := line, old := old }] }

/-- Whether logging these lines would take a 65th entry. -/
def Task.logFull (t : Task) (lines : List Nat) : Bool :=
  decide (64 < t.undo.length + (lines.filter (fun l => !t.undo.any (fun u => u.line == l))).length)

/-- A scratchpad read by the scalar stream (unit 0). -/
def scratchRead (addr n : Nat) : W (List Byte × Nat) := do
  let s ← get
  let t ← curTask
  if s.heldBack t.ctx s.focus addr n then exit (.hold true)
  let (bs, tag, s) := s.spadSpaceRead t.ctx s.focus 0 addr n
  set s
  return (bs, tag)

/-- A store through the hive window ends an open section with cause 5 at the next word (R287, R288, log 62). -/
def Task.storedOut (t : Task) : Task :=
  { t with sect := t.sect.map (fun (x : Section) => { x with dead := if x.dead.isNone then some (5, 0) else x.dead }) }

/-- Whether a store through the hive window waits for a `put` or a returning atomic of its task that the same core serves (R308, note
d). -/
def State.windowWaits (s : State) (k : Nat) (t : Task) (addr n : Nat) : Bool :=
  (List.range n).any (fun i => match spadByte (k / 8) addr i with
    | some (c, _) => c != k / 8 && (t.asks c || s.putsTo k c)
    | none => false)

/-- A scratchpad write by the scalar stream: undo-logged in the own scratchpad, and through the hive window it takes effect at
the target and makes the task non-replayable (R181). A line that a matrix command locks holds it (R231, R232). -/
def scratchWrite (addr : Nat) (bs : List Byte) (tag : Nat) : W Unit := do
  let s ← get
  let t ← curTask
  if s.heldBack t.ctx s.focus addr bs.length then exit (.hold true)
  match s.lockOn s.focus (linesAt s.focus addr bs.length) with
  | some g => exit (.stall g)
  | none => pure ()
  let out := reachesOther s.focus addr bs.length
  if out then
    if s.windowWaits (← curKey) t addr bs.length then exit (.hold false)
    nonReplayable false
  let lines := ownLines s.focus addr bs.length
  if t.logFull lines then nonReplayable false
  let k ← curKey
  modify (fun s => (lines.foldl (fun s l => s.logLine k l) s).spadSpaceWrite t.ctx s.focus 0 addr bs tag)
  if out then modCur (·.storedOut)

/-- The address of a scratchpad MEM word (R143). -/
def memAddress (base index : Opnd) (scale : Nat) (off : BitVec 22) : W (Word × Nat) := do
  let b ← readO base
  let x ← readO index
  let b ← useWord b
  let x ← useWord x
  return (b, ← address b x scale off)

/-- `ld` (R178): latency 3. -/
def execLd (x : MemArg) (s : State) : Outc :=
  plain (do
    let (b, a) ← memAddress x.base x.index x.scale.val x.off
    let t ← elemTy x.t b
    let (bs, tag) ← scratchRead a (tyBytes t)
    writeO x.d { v := loadValue t (ofBytes bs), tag := tag } 3) s

/-- `st` (R178, R181): the data source D pops before A and B (log 18). -/
def execSt (x : MemArg) (s : State) : Outc :=
  plain (do
    let d ← readO x.d
    let (b, a) ← memAddress x.base x.index x.scale.val x.off
    let t ← elemTy x.t b
    let (v, fl) := storeValue t d.v
    scratchWrite a (bytesOf (tyBytes t) v) d.tag
    flags fl 1) s

/-- `ldp` (R179): g(D) and g(D + 1). -/
def execLdp (x : PairArg) (s : State) : Outc :=
  plain (do
    let (_, a) ← memAddress x.base x.index x.scale.val x.off
    let s ← get
    let t ← curTask
    let tag (i : Nat) : Nat := s.spadTagOf t.ctx s.focus a i 8
    let (bs, _) ← scratchRead a 16
    writeG x.d.val { v := BitVec.ofNat 64 (ofBytes (bs.take 8)), tag := tag 0 } 3
    writeG (x.d.val + 1) { v := BitVec.ofNat 64 (ofBytes (bs.drop 8)), tag := tag 8 } 3) s

/-- `stp` (R179). -/
def execStp (x : PairArg) (s : State) : Outc :=
  plain (do
    let d0 ← readG x.d.val
    let d1 ← readG (x.d.val + 1)
    let (_, a) ← memAddress x.base x.index x.scale.val x.off
    scratchWrite a (bytesOf 8 d0.v.toNat ++ bytesOf 8 d1.v.toNat) (minTag d0.tag d1.tag)) s

/-- The lowest slot in state 1 or 2 whose tag is `tag` (R92). -/
def Space.findTag (sp : Space) (tag : Nat) : Nat :=
  ((List.range 256).find? (fun sl =>
    let e := sp.stag sl
    e.tag == tag && (e.state == 1 || e.state == 2))).getD 0xFFFF

/-- `ltag` (R182). -/
def execLtag (d a : Opnd) (s : State) : Outc :=
  plain (do
    let x ← readO a
    let s ← get
    let t ← curTask
    writeO d
      { v := BitVec.ofNat 64 ((s.space t.ctx s.focus).findTag (x.v.toNat % 2 ^ 48)), tag := x.tag } 2) s

/-- A tag-table entry in the layout of R90. -/
def stagOf (v : Word) : STag :=
  let st := v.toNat / 2 ^ 62
  { state := st
    gate := if st = 1 then v.toNat / 2 ^ 57 % 32 else 0
    phase := st == 1 && v.getLsbD 56
    tag := v.toNat % 2 ^ 48 }

/-- Sets an entry of the tag table; the slot's written bits are cleared and its victim entries dropped (R182). -/
def State.setTag (s : State) (ctx core slot : Nat) (e : STag) : State :=
  let s := s.modSpace ctx core (fun sp =>
    let sp := sp.clearSlot slot
    { sp with stags := Tab.set .idle sp.stags slot e })
  s.dropVictims core slot

/-- `tset` (R182): a tag fault names the offending operand value. Of the two sources the slot number is consumed as an address, and the
entry is not (R388; DEDUCED, log 140); an entry whose fill is complete is written live, with gate and phase 0 (DEDUCED, log 141). -/
def execTset (a b : Opnd) (s : State) : Outc :=
  plain (do
    let x ← useWord (← readO a)
    let y ← readO b
    if 256 ≤ x.toNat then trap fTag 0 [x]
    let e := stagOf y.v
    if e.state = 0 ∨ e.state = 3 then trap fTag 0 [y.v]
    let s ← get
    let t ← curTask
    let g := gateOf (s.space t.ctx s.focus) e.gate
    let e := if e.state = 1 ∧ g.phase = e.phase then
        ({ state := 2, gate := 0, phase := false, tag := e.tag } : STag) else e
    set (s.setTag t.ctx s.focus x.toNat e)) s

/-- `tclr` (R91, R182): a filling entry stalls the stream until it is valid. The slot number is consumed as an address (log 140). -/
def execTclr (a : Opnd) (s : State) : Outc :=
  plain (do
    let x ← useWord (← readO a)
    if 256 ≤ x.toNat then trap fTag 0 [x]
    let s ← get
    let t ← curTask
    let e := (s.space t.ctx s.focus).stag x.toNat
    if e.state = 1 then exit (.stall (some e.gate))
    set (s.modSpace t.ctx s.focus (fun sp =>
      { sp with stags := Tab.set .idle sp.stags x.toNat { e with state := 0, gate := 0, phase := false } }))) s

end Sys2Proof.Machine
end

