-- ==== Sys2Proof/Machine/Effects.lean ====
section
/-! DEFINITION. Waking a parked task (R365, R366). -/

namespace Sys2Proof.Machine

open Sys2Proof.Machine.Num

/-- A parked task of a slot becomes ready, and runs when its core runs nothing (R365, R366). -/
def State.wake (s : State) (k : Nat) : State :=
  match (s.task k).stat with
  | .parked _ => (s.modTask k (fun t => { t with stat := .ready, since := s.tick, waitFrom := s.cyc })).select (k / 8)
  | _ => s

end Sys2Proof.Machine
end

