-- ==== Sys2Proof/Machine/Global.lean ====
section
/-! DEFINITION. Global loads and stores, spin parking, `wtv` and `pref` (R262 to R265, R309). -/

namespace Sys2Proof.Machine

open Sys2Proof.Machine.Num

/-- The address of a global MEM word (R143), and its base pointer. -/
def globalAddress (base index : GReg) (scale : Nat) (off : BitVec 22) : W (Word × Nat) := do
  let b ← useWord (← readG base.val)
  let x ← useWord (← readG index.val)
  return (b, ← address b x scale off)

/-- A section tracks the line of a load; a 65th line aborts it with cause 3 (R287). -/
def track (pa : Nat) : W Unit := do
  match (← curTask).sect with
  | some x =>
    if x.closed ∨ x.lines.contains (pa / 64) then return ()
    if 64 ≤ x.lines.length then exit (.abort 3 0)
    modCur (fun t => { t with sect := some { x with lines := x.lines ++ [pa / 64] } })
  | none => return ()

/-- The addresses of the lines of pieces. -/
def lineAddrs (parts : List (Nat × Nat)) : List Nat :=
  parts.flatMap (fun p => (List.range (linesOf p.1 p.2)).map (fun i => (p.1 / 64 + i) * 64))

/-- A queue that holds or awaits 4 words: nothing pops it while the stream is blocked, for no engine command reads a queue
register, so the block is the queue fault (R118, R262). -/
def roomFor (q : Nat) : W Unit := do
  let t ← curTask
  if 4 ≤ (t.queue q).length + t.lateIn q then queueFault q

/-- Issues a load into queue `q`: the placeholder at its place, and the load record; the number of the load. -/
def issueLoad (kind : LoadKind) (q : Nat) (t : Ty) (va : Nat) (parts : List (Nat × Nat))
    (extra : Nat := 0) : W Nat := do
  let (id, s) := (← get).fresh
  set s
  modCur (fun x =>
    let l : Load :=
      { id := id, kind := kind, fifo := q, t := t, va := va, parts := parts
        own := match kind with | .sc => [] | _ => x.ownBytes parts
        ownTag := minTag extra (match kind with | .sc => 0 | _ => x.ownTag parts)
        pc := x.pc, parked := false, sectioned := x.sect.isSome }
    { x.setQueue q (x.queue q ++ [.await id]) with loads := x.loads ++ [l] })
  return id

/-- Adds an event that concerns the current slot. -/
def pushHere (f : Nat → Nat → Event) : W Unit := do
  let k ← curKey
  modify (fun s => s.push (f (k / 8) (k % 8)))

/-- The 65th unchanged load of a line is held and its task parks (R309). -/
def spinCheck (parts : List (Nat × Nat)) : W Unit := do
  let s ← get
  let line := (parts.head?.map (·.1)).getD 0 / 64
  let t ← curTask
  if t.spinHeld line (overlay (s.readParts parts) (t.ownBytes parts)) then
    exit (.park (.spin line (s.cyc + 65536)))

/-- The same for `scld`, which reads memory alone (R290, R309). -/
def rawSpinCheck (parts : List (Nat × Nat)) : W Unit := do
  let s ← get
  let line := (parts.head?.map (·.1)).getD 0 / 64
  if (← curTask).spinHeld line (s.readParts parts) then exit (.park (.spin line (s.cyc + 65536)))

/-- `ldg` (R262): the word's place is taken at issue and filled at its arrival. -/
def execLdg (x : GLoad) (s : State) : Outc :=
  plain (do
    let (b, a) ← globalAddress x.base x.index x.scale.val x.off
    let t ← elemTy x.t b
    roomFor x.q.val
    let ps ← xlateSpan a (tyBytes t) .load
    ps.forM (fun p => checkRace p.leaf)
    let parts := ranges ps
    awaitPuts
    parts.forM (fun p => checkBulk p.1 p.2)
    spinCheck parts
    (lineAddrs parts).forM noteRead
    (lineAddrs parts).forM track
    let id ← issueLoad .plain x.q.val t a parts
    pushHere (fun c sl => .loadWordArrival c sl id)) s

/-- LOAD_WORD_ARRIVAL: the word of load `id` of a slot; a load of no live task is discarded (R115). -/
def execLoadWordArrival (core slot id : Nat) (s : State) : Outc :=
  let k := core * 8 + slot
  event (match (s.task k).loads.find? (fun l => l.id == id) with
    | some l => if l.kind = .plain then s.arrive k l else s
    | none => s)

/-- SPIN_WAKE (R309): a write to the polled line; the held load is issued again. The wake of a task whose save waits comes with its
save (R377). -/
def execSpinWake (core slot : Nat) (s : State) : Outc :=
  let k := core * 8 + slot
  event (match (s.task k).stat with
    | .parked (.spin _ _) => s.wake k
    | st => (match st.parkedOn with | some (.spin _ _) => s.push (.spinWake core slot) | _ => s))

/-- The spin count of a line restarts at 0 (R309). -/
def Task.respin (t : Task) (line : Nat) : Task :=
  { t with spins := t.spins.map (fun (x : Spin) => if x.line = line then { x with count := 0 } else x) }

/-- The saved tasks whose spin time has passed are ready, their counts restarted (R309, R377). -/
def State.spinSaved (s : State) : State :=
  let due (t : Task) : Option Nat := match t.stat with
    | .parked (.spin line deadline) => if deadline ≤ s.cyc then some line else none
    | _ => none
  let s' : State := { s with saved := s.saved.map (fun (p : Nat × Saved) =>
    match due p.2.task with
    | some line => (p.1, ({ p.2 with task := p.2.task.respin line } : Saved).awake)
    | none => p) }
  if s.saved.any (fun p => (due p.2.task).isSome) then
    (s.saved.filter (fun p => (due p.2.task).isSome)).foldl (fun s p => s.push (.spillWake p.2.task.ctx p.2.core)) s'
  else s

/-- SPIN_TIMEOUT (R309): 65,536 cycles after the parking; the count restarts at 0. A task that its slot has given up wakes likewise. -/
def execSpinTimeout (core slot : Nat) (s : State) : Outc :=
  let k := core * 8 + slot
  event (match (s.task k).stat with
    | .parked (.spin line deadline) =>
      let s := { s with cyc := Nat.max s.cyc deadline }
      (s.modTask k (·.respin line)).wake k
    | st => match st.parkedOn with
      | some (.spin line deadline) =>
        if deadline ≤ s.cyc then (s.modTask k (·.respin line)).push (.spinWake core slot) else s
      | _ => s.spinSaved)

/-- Buffers the pieces of a store, each with the key region of its own page; the first carries the unit. -/
def storePieces (l : List Piece) (bs : List Byte) (tag : Nat) : W Unit :=
  match l with
  | [p] => buffer (.store p.va p.pa bs tag (keyedOf p.leaf)) 1
  | p :: q :: _ => do
    buffer (.store p.va p.pa (bs.take p.n) tag (keyedOf p.leaf)) 1
    buffer (.store q.va q.pa (bs.drop p.n) tag (keyedOf q.leaf)) 0
  | [] => pure ()

/-- `stg` (R263): buffered, with its program counter; an element that crosses a page is two pieces of one unit. -/
def execStg (x : GStore) (s : State) : Outc :=
  plain (do
    let d ← readG x.d.val
    let (b, a) ← globalAddress x.base x.index x.scale.val x.off
    let t ← elemTy x.t b
    let (v, fl) := storeValue t d.v
    let bs := bytesOf (tyBytes t) v
    let ps ← xlateSpan a (tyBytes t) .store
    ps.forM (fun p => checkPlainWrite p.leaf p.va)
    checkEntries (byParts (ranges ps) bs)
    (lineAddrs (ranges ps)).forM noteWrite
    storePieces ps bs d.tag
    flags fl 1) s

/-- An atomic fault (R275). -/
def atomicFault {α : Type} (cause : Nat) : W α := trap fAtomic cause

/-- The determinism level of the current context (R372). -/
def detLevel : W Nat := do
  let s ← get
  return (s.ctx (← curTask).ctx).detlvl

/-- A word that reads global memory at its issue waits for the task's earlier loads of the same bytes (R292), parked for a version load
among them that is (R60), and at a memory port (R92, R295). -/
def readInOrder (parts : List (Nat × Nat)) : W Unit := do
  let t ← curTask
  match t.loads.find? (fun l => l.parked && overlaps l.parts parts) with
  | some l => exit (.park (.version l.id))
  | none => pure ()
  if t.loads.any (fun l => (l.kind.reads || l.kind == .sc) && overlaps l.parts parts) || (← get).portHeld parts then
    exit (.hold false)

/-- `wtv` (R265): reads committed memory; a hit pushes the word, else the task parks and the word is issued again. -/
def waitValue (x : WtvArg) (want : Bool) (s : State) : Outc :=
  plain (do
    let p ← useWord (← readG x.a.val)
    let b ← readG x.b.val
    let c ← readG x.c.val
    let a := vaOf p
    let n := tyBytes x.t
    if a % n ≠ 0 then atomicFault 1
    if (← detLevel) = 2 then atomicFault 3
    match x.q with
    | some q => roomFor q.val
    | none => pure ()
    let parts := ranges (← xlateSpan a n .load)
    let pa := (parts.head?.map (·.1)).getD 0
    readInOrder parts
    noteRead pa
    let s ← get
    let v := loadValue x.t (ofBytes (s.readParts parts))
    set (s.seeParts s.focus parts)
    let hit := low (8 * n) (((v ^^^ b.v) &&& c.v).toNat) == 0
    if hit = want then
      match x.q with
      | some q => pushQueue q.val { v := v, tag := minTag (s.tagParts parts) (minTag b.tag c.tag) } 1
      | none => pure ()
    else exit (.park (.wtv pa))) s

/-- `wtv.eq` (R265). -/
def execWtvEq (x : WtvArg) (s : State) : Outc := waitValue x true s

/-- `wtv.ne` (R265): the hit is negated. -/
def execWtvNe (x : WtvArg) (s : State) : Outc := waitValue x false s

/-- WTV_WAKE (R265): the task is ready, and its `wtv` re-reads. The wake of a task whose save waits comes with its save (R377). -/
def execWtvWake (core slot : Nat) (s : State) : Outc :=
  let k := core * 8 + slot
  event (match (s.task k).stat with
    | .parked (.wtv _) => s.wake k
    | st => (match st.parkedOn with | some (.wtv _) => s.push (.wtvWake core slot) | _ => s))

/-- `pref` (R264): fills the TLBs, or ends silently. -/
def execPref (base index : GReg) (scale : Fin 8) (off : BitVec 22) (s : State) : Outc :=
  plain (do
    let b ← useWord (← readG base.val)
    let x ← useWord (← readG index.val)
    let a : Int := (vaOf b : Int) + x.toInt * ((2 ^ scale.val : Nat) : Int) + off.toInt
    let s ← get
    let t ← curTask
    if 0 ≤ a ∧ a < ((2 ^ 57 : Nat) : Int) then
      match s.translate s.focus t.ctx a.toNat t.super .load with
      | (.ok _ _, s') => set s'
      | _ => pure ()) s

end Sys2Proof.Machine
end

