-- ==== Sys2Proof/Machine/Versions.lean ====
section
/-! DEFINITION. Versioned regions: descriptors, directories, heap records, the decision of a version load, the
creation of a version, and the version words (R48 to R67, R266 to R268). -/

namespace Sys2Proof.Machine

open Sys2Proof.Machine.Num

/-! ### Descriptors (R48 to R52) -/

/-- The region as its descriptor in memory reads. -/
def State.readDesc (s : State) (ctx r : Nat) : Region :=
  let a := (s.ctx ctx).descAt r
  let w0 := s.num a 8
  let w1 := s.num (a + 8) 8
  let w2 := s.num (a + 16) 8
  let w3 := s.num (a + 24) 8
  { valid := w0 % 2 == 1, base := w0 / 4096 % 2 ^ 45 * 4096, closed := w0 / 2 % 2 == 1
    floor := w1 / 2 ^ 32, lines := w1 % 2 ^ 32, dir := w2 / 64 % 2 ^ 34 * 64
    held := w3 / 2 ^ 63 == 1, holder := w3 % 8192 }

/-- A region as the hives and version engines hold it. -/
def State.region (s : State) (ctx r : Nat) : Region := Tab.get .invalid (s.ctx ctx).regions r

def State.setRegion (s : State) (ctx r : Nat) (v : Region) : State :=
  s.modCtx ctx (fun c => { c with regions := Tab.set .invalid c.regions r v })

/-- The version engines' writes of a descriptor's words: w0, w1 and w3. -/
def State.writeDesc (s : State) (ctx r : Nat) : State :=
  let a := (s.ctx ctx).descAt r
  let v := s.region ctx r
  let s := s.writeWord a (BitVec.ofNat 64 (v.base + (if v.closed then 2 else 0) + (if v.valid then 1 else 0)))
  let s := s.writeWord (a + 8) (BitVec.ofNat 64 (v.floor * 2 ^ 32 + v.lines))
  s.writeWord (a + 24) (BitVec.ofNat 64 ((if v.held then 2 ^ 63 else 0) + v.holder))

/-- Changes a region, at the engines and in its descriptor. -/
def State.modRegion (s : State) (ctx r : Nat) (f : Region → Region) : State :=
  (s.setRegion ctx r (f (s.region ctx r))).writeDesc ctx r

/-- VRSYNC (R52): every hive and version engine reloads the descriptor; true when the declaration fails. The heap records that the lines
of a region so withdrawn still hold stay counted as used (DESIGN CHOICE, log 127). -/
def State.vrsync (s : State) (ctx r : Nat) : Bool × State :=
  let d := s.readDesc ctx r
  if d.valid && (d.lines == 0 || decide (s.mcap ≤ d.dir / 2 ^ 30)) then (true, s)
  else (false, s.setRegion ctx r (if d.valid then d else .invalid))

/-- Whether a task has a version instruction of a region outstanding: a load, parked or not, or a `stv`, `vfloor` or `vclose` that has
not committed. -/
def Task.usesRegion (t : Task) (r : Nat) : Bool :=
  t.loads.any (fun l => match l.kind with
    | .version _ _ g _ => g == r
    | _ => false)
  || t.commit.any (fun b => match b.eff with
    | .stv g .. | .vfloor g _ | .vclose g => g == r
    | _ => false)

/-- Whether a write of VRSYNC withdraws a region that a task of the context still uses, which R52 forbids and names no fault for
(R17). -/
def State.regionBusy (s : State) (ctx r : Nat) : Bool :=
  !(s.readDesc ctx r).valid &&
    (s.tasks.any (fun (p : Nat × Task) => p.2.stat != .free && p.2.ctx == ctx && p.2.usesRegion r)
      || s.saved.any (fun (p : Nat × Saved) => p.2.task.ctx == ctx && p.2.task.usesRegion r))

/-- Whether a write of VRSYNC declares a region whose directory is not zero, which R51 forbids and names no fault for (R17). -/
def State.directoryDirty (s : State) (ctx r : Nat) : Bool :=
  let d := s.readDesc ctx r
  d.valid && !(s.region ctx r).valid &&
    s.mem.any (fun (p : Host.Cell) => decide (d.dir ≤ p.1) && decide (p.1 < d.dir + 16 * d.lines))

/-- Whether a write of VRSYNC breaks a duty for which R51 and R52 name no fault. -/
def State.vrsyncBreaks (s : State) (ctx r : Nat) : Bool := s.regionBusy ctx r || s.directoryDirty ctx r

/-- VRSYNC_WRITE (R52): the reload of the region named in bits [11:0]; a breach of R51 or R52 is the context fault of R17, which names
the descriptor. -/
def execVrsyncWrite (ctx : Nat) (v : Word) (s : State) : Outc :=
  let r := v.toNat % 4096
  event (if s.vrsyncBreaks ctx r then s.deviceFault ctx 0 69 0 [BitVec.ofNat 64 ((s.ctx ctx).descAt r)] else (s.vrsync ctx r).2)

/-! ### Directories and records (R51, R63) -/

/-- The newest version and the kept count of a directory entry. -/
def State.newest (s : State) (e : Nat) : Nat := s.num e 8 / 2 ^ 32
def State.kept (s : State) (e : Nat) : Nat := s.num e 8 % 2 ^ 32

/-- A heap pointer, frame × 2^24 + index: bits [33:24] and [23:0] of d1 and h1. -/
def heapPtr (w : Nat) : Nat := w % 2 ^ 34

/-- Records of a frame. -/
def recsPerFrame : Nat := 13421568

/-- The header and the data of a record. -/
def recHead (p : Nat) : Nat := p / 2 ^ 24 * 2 ^ 30 + p % 2 ^ 24 * 16
def recData (p : Nat) : Nat := p / 2 ^ 24 * 2 ^ 30 + (3355392 + p % 2 ^ 24) * 64

/-- The granted frames that no release is emptying (R64). -/
def Ctx.keptFrames (c : Ctx) : List Nat := c.frames.filter (fun f => !c.releasing.contains f)

/-- The records that a release has still to copy (R64). -/
def Ctx.toCopy (c : Ctx) : Nat := (c.recUsed.filter (fun p => c.releasing.contains (p.1 / 2 ^ 24))).length

/-- Free records of a context's heap (R65): those of a frame that is being released take no version. -/
def Ctx.freeRecs (c : Ctx) : Nat :=
  c.keptFrames.length * recsPerFrame - (c.recUsed.filter (fun p => c.keptFrames.contains (p.1 / 2 ^ 24))).length

/-- Whether a commit that needs `n` records stalls (R64, R66): they are not free, or a release waits for records. -/
def Ctx.lacksRecs (c : Ctx) (n : Nat) : Bool := n != 0 && (decide (c.freeRecs < n) || decide (c.freeRecs < c.toCopy))

/-- A free record outside the frames that are being released: of several the lowest index of the first granted frame with room
(log 116). -/
def Ctx.pickRec (c : Ctx) : Option Nat :=
  let used := c.recUsed.map (·.1)
  c.keptFrames.findSome? (fun f =>
    let inF := (used.filter (fun p => p / 2 ^ 24 == f)).length
    ((List.range (Nat.min (inF + 1) recsPerFrame)).find? (fun i => !used.contains (f * 2 ^ 24 + i))).map
      (fun i => f * 2 ^ 24 + i))

/-- The chain of a line's older records, newest first: pointer and version; `n` records. -/
def State.chain (s : State) : Nat → Nat → List (Nat × Nat)
  | _, 0 => []
  | p, n + 1 => (p, s.num (recHead p) 8 / 2 ^ 32) :: s.chain (heapPtr (s.num (recHead p + 8) 8)) n

def State.records (s : State) (e : Nat) : List (Nat × Nat) :=
  s.chain (heapPtr (s.num (e + 8) 8)) (s.kept e)

/-- Writes a line's directory entry: newest, and its chain as pointers with versions; the headers hold the links. -/
def State.writeChain (s : State) (e newest : Nat) (wait : Bool) (l : List (Nat × Nat)) : State :=
  let s := s.writeWord e (BitVec.ofNat 64 (newest * 2 ^ 32 + l.length))
  let head := (l.head?.map (·.1)).getD 0
  let s := s.writeWord (e + 8) (BitVec.ofNat 64 ((if wait then 2 ^ 63 else 0) + head))
  (l.zip (l.drop 1 |>.map (fun x => some x.1)) ++ (match l.getLast? with | some x => [(x, none)] | none => [])).foldl
    (fun s x =>
      s.writeWords (recHead x.1.1)
        [BitVec.ofNat 64 (x.1.2 * 2 ^ 32),
         BitVec.ofNat 64 (match x.2 with | some p => p | none => 2 ^ 63)]) s

/-- The wait bit of a directory entry. -/
def State.setWait (s : State) (e : Nat) (w : Bool) : State :=
  s.writeWord (e + 8) (BitVec.ofNat 64 ((if w then 2 ^ 63 else 0) + s.num (e + 8) 8 % 2 ^ 63))

/-- The threshold of VHCTL in records (R64). -/
def Ctx.heapThreshold (c : Ctx) : Nat := c.vhctl.toNat / 2 ^ 32 % 2 ^ 24 * 1024

/-- After records come free: VHEAP may be raised again, a release that waits goes on, stalled commits proceed (R64, R66). -/
def State.recsFreed (s : State) (ctx n : Nat) : State :=
  let s := s.modCtx ctx (fun c => { c with vheapRaised := c.vheapRaised && decide (c.freeRecs ≤ c.heapThreshold) })
  let s := if (s.ctx ctx).releasing = [] then s else s.push (.heapReleaseComplete ctx)
  s.push (.versionRecordsFreed ctx n)

/-! ### Answers (R58, R60) -/

/-- The word that version bytes of a line give a load. -/
def Load.word (l : Load) (bs : List Byte) (tag : Nat) : QWord :=
  .word { v := loadValue l.t (ofBytes ((bs.drop (l.va % 64)).take (tyBytes l.t))), tag := minTag tag l.ownTag }

/-- What the version engine answers: the bytes and tag of a version, a trap, or a park. -/
inductive Answer where
  | bytes (bs : List Byte) (tag : Nat)
  | trap (cause sub newest floor : Nat)
  | park
  deriving DecidableEq, Repr

/-- The bytes of version `v`: in place when newest, else of its record. -/
def State.versionBytes (s : State) (e pa v : Nat) : List Byte × Nat :=
  if v = s.newest e then (s.bytes pa 64, s.lineTag pa)
  else
    match (s.records e).find? (fun x => x.2 == v) with
    | some x => (s.bytes (recData x.1) 64, s.lineTag (recData x.1))
    | none => (s.bytes pa 64, s.lineTag pa)

/-- The decision of R58 for version `v` of the line at `pa` with directory entry `e`. -/
def State.decideVersion (s : State) (r : Region) (eq : Bool) (v e pa : Nat) : Answer :=
  let n := s.newest e
  if v < Nat.min r.floor n then .trap 2 0 n r.floor
  else if v ≤ n then let b := s.versionBytes e pa v; .bytes b.1 b.2
  else if !r.closed then .park
  else if eq then .trap 3 0 n r.floor
  else .bytes (s.bytes pa 64) (s.lineTag pa)

/-- The load of a task, in a slot or saved. -/
def State.findLoad (s : State) (id : Nat) : Option Load :=
  match s.loadSlot id with
  | some k => (s.task k).loads.find? (fun l => l.id == id)
  | none =>
    match s.loadHandle id with
    | some h => (Tab.get .empty s.saved h).task.loads.find? (fun l => l.id == id)
    | none => none

/-- Gives a load its answer. -/
def State.answer (s : State) (l : Load) (v : Nat) : Answer → State
  | .bytes bs tag => s.deliver l.id (l.word bs tag)
  | .trap cause sub n f => s.deliver l.id (.trap l.id cause sub [l.va, v, n, f, l.pc])
  | .park => s

/-- Answers a parked load, and wakes the task that waits for it. -/
def State.answerParked (s : State) (ctx : Nat) (p : VParked) (a : Answer) : State :=
  let s := s.modCtx ctx (fun c => { c with vparked := c.vparked.filter (fun x => x.id != p.id) })
  match s.findLoad p.id with
  | none => s
  | some l => (s.answer l p.v a).push (.versionWake p.core p.slot p.id)

/-- VERSION_REQUEST (R58): the version engine decides, after the task's earlier loads of the same bytes (R292); a load that parks sets
the line's wait bit. -/
def execVersionRequest (core slot id : Nat) (s : State) : Outc :=
  let k := core * 8 + slot
  event (match (s.task k).loads.find? (fun l => l.id == id) with
    | none => s
    | some l =>
      match l.kind with
      | .version eq v region e =>
        if (s.task k).earlierOverlap l then s.push (.versionRequest core slot id)
        else
        let ctx := (s.task k).ctx
        match s.decideVersion (s.region ctx region) eq v e ((l.parts.head?.map (·.1)).getD 0 / 64 * 64) with
        | .park =>
          let s := s.modCtx ctx (fun c =>
            { c with
              vparked := c.vparked.filter (fun x => x.id != id) ++
                [{ core := core, slot := slot, id := id, eq := eq, v := v, region := region, line := e }] })
          let s := s.modTask k (fun t =>
            { t with loads := t.loads.map (fun (x : Load) => if x.id = id then { x with parked := true } else x) })
          s.setWait e true
        | a => s.answer l v a
      | _ => s)

/-- VERSION_WAKE (R60, R266): the task parked on the answered load resumes; an evicted waiter returns to the first free
user slot. The wake of a task whose save waits comes with its save (R377). -/
def execVersionWake (core slot id : Nat) (s : State) : Outc :=
  let waits (t : Task) : Bool := t.stat.parkedOn == some (.version id)
  event (match s.tasks.find? (fun p => waits p.2) with
    | some (k, t) => if t.stat = .parked (.version id) then s.wake k else s.push (.versionWake core slot id)
    | none => s.wakeSaved waits)

/-! ### Creation, floor, closing (R55 to R57, R61) -/

/-- Creates the next version of a line from the bytes laid over it, by offset; the displaced content goes to a record when
the old newest is at or above the floor. Parked loads of the new version are answered. -/
def State.createVersion (s : State) (ctx region e pa : Nat) (laid : List (Nat × Byte)) (tag k : Nat) : State :=
  let r := s.region ctx region
  let n := s.newest e
  let old := s.bytes pa 64
  let oldTag := s.lineTag pa
  let wait := s.num (e + 8) 8 / 2 ^ 63 == 1
  let s := match (if r.floor ≤ n then (s.ctx ctx).pickRec else none) with
    | some p =>
      let l := s.records e
      let s := s.modCtx ctx (fun c => { c with recUsed := (p, e) :: c.recUsed })
      (s.writeMem (recData p) old oldTag).writeChain e (n + 1) wait ((p, n) :: l)
    | none => s.writeChain e (n + 1) wait (s.records e)
  let new := overlay old laid
  let full := (List.range 64).all (fun i => laid.any (fun o => o.1 == i))
  let s := s.writeMem pa new (if full then tag else minTag oldTag tag)
  let s := s.landed pa 64 (.commit k)
  let hit := (s.ctx ctx).vparked.filter (fun p => p.line == e && p.v == n + 1)
  let s := hit.foldl (fun s p => s.answerParked ctx p (.bytes (s.bytes pa 64) (s.lineTag pa))) s
  if (s.ctx ctx).vparked.any (fun p => p.line == e) then s else s.setWait e false

/-- `vfloor` at commit (R61): the floor never falls; records below it are reclaimed in the background. -/
def State.raiseFloor (s : State) (ctx region f : Nat) : State :=
  let s := s.modRegion ctx region (fun r => { r with floor := Nat.max r.floor f })
  let r := s.region ctx region
  let lines := (((s.ctx ctx).recUsed.map (·.2)).filter
    (fun e => decide (r.dir ≤ e) && decide (e < r.dir + r.lines * 16))).dedup
  lines.foldl (fun s e => s.push (.versionReclaim ctx e)) s

/-- `vclose` at commit (R58, R61): every parked load of the region is answered. -/
def State.closeRegion (s : State) (ctx region : Nat) : State :=
  let s := s.modRegion ctx region (fun r => { r with closed := true })
  let r := s.region ctx region
  let ps := (s.ctx ctx).vparked.filter (fun p => p.region == region)
  ps.foldl
    (fun s p =>
      let pa := match s.findLoad p.id with
        | some l => (l.parts.head?.map (·.1)).getD 0 / 64 * 64
        | none => 0
      let n := s.newest p.line
      let s := s.answerParked ctx p
        (if p.eq then .trap 3 0 n r.floor else .bytes (s.bytes pa 64) (s.lineTag pa))
      s.setWait p.line false) s

/-- The region of a directory entry. -/
def Ctx.regionOf (c : Ctx) (e : Nat) : Region :=
  match c.regions.find? (fun p => decide (p.2.dir ≤ e) && decide (e < p.2.dir + p.2.lines * 16)) with
  | some p => p.2
  | none => .invalid

/-- VERSION_RECLAIM (R62): the records of a line below K are freed. -/
def execVersionReclaim (ctx line : Nat) (s : State) : Outc :=
  let r := (s.ctx ctx).regionOf line
  let n := s.newest line
  let l := s.records line
  let keep := l.filter (fun x => decide (Nat.min r.floor n ≤ x.2))
  let gone := (l.filter (fun x => decide (x.2 < Nat.min r.floor n))).map (·.1)
  event (if gone = [] then s else
    let s := s.writeChain line n (s.num (line + 8) 8 / 2 ^ 63 == 1) keep
    let s := s.modCtx ctx (fun c => { c with recUsed := c.recUsed.filter (fun p => !gone.contains p.1) })
    s.recsFreed ctx gone.length)

/-! ### The heap (R63 to R65) -/

/-- Copies the records of a frame out of it as far as other frames have room: the data, the headers, the chains. -/
def State.moveOut (s : State) (ctx frame : Nat) : Nat → State
  | 0 => s
  | n + 1 =>
    match (s.ctx ctx).recUsed.find? (fun p => p.1 / 2 ^ 24 == frame), (s.ctx ctx).pickRec with
    | some (p, e), some q =>
      let l := (s.records e).map (fun x => if x.1 = p then (q, x.2) else x)
      let s := s.writeMem (recData q) (s.bytes (recData p) 64) (s.lineTag (recData p))
      let s := s.writeChain e (s.newest e) (s.num (e + 8) 8 / 2 ^ 63 == 1) l
      let s := s.modCtx ctx (fun c =>
        { c with recUsed := c.recUsed.map (fun x => if x.1 = p then (q, e) else x) })
      s.moveOut ctx frame n
    | _, _ => s

/-- VHCTL.release (R64): the release starts; it is complete once no record is left in the frame. Releases are worked off in the
order of their writes; one that names a frame not granted changes nothing (log 117). -/
def State.release (s : State) (ctx frame : Nat) : State :=
  if (s.ctx ctx).frames.contains frame ∧ !(s.ctx ctx).releasing.contains frame then
    (s.modCtx ctx (fun c => { c with releasing := c.releasing ++ [frame] })).push (.heapReleaseComplete ctx)
  else s

/-- VHCTL.grant (R64): true when the frame is already granted or at or above MCAP. A formatted frame's free-list state
is the version engines' own; its lines read zero. -/
def State.grant (s : State) (ctx frame : Nat) : Bool × State :=
  if (s.ctx ctx).frames.contains frame ∨ s.mcap ≤ frame then (true, s)
  else
    let s := { s with mem := splice s.mem (frame * 2 ^ 30 + 16776960 * 64) 16384 [] }
    (false, (s.modCtx ctx (fun c => { c with frames := c.frames ++ [frame] })).recsFreed ctx recsPerFrame)

def frameOf (v : Word) : Nat := v.toNat / 2 ^ 16 % 1024

/-- A VHCTL write: threshold and frame are kept; a grant that fails leaves the register unchanged (log 19). With both bits set the
grant comes first (log 117). -/
def State.vhctlWrite (s : State) (ctx : Nat) (v : Word) : Bool × State :=
  let (bad, s') := if v.getLsbD 0 then s.grant ctx (frameOf v) else (false, s)
  if bad then (true, s)
  else
    let s' := s'.modCtx ctx (fun c =>
      { c with vhctl := BitVec.ofNat 64 (v.toNat / 2 ^ 32 % 2 ^ 24 * 2 ^ 32 + frameOf v * 2 ^ 16) })
    (false, if v.getLsbD 1 then s'.release ctx (frameOf v) else s')

/-- VHCTL_GRANT and VHCTL_RELEASE (R64). -/
def execVhctlGrant (ctx : Nat) (v : Word) (s : State) : Outc := event (s.vhctlWrite ctx (v ||| 1)).2
def execVhctlRelease (ctx : Nat) (v : Word) (s : State) : Outc := event (s.vhctlWrite ctx (v ||| 2)).2

/-- The oldest release goes on (R64): records are copied out while there is room; an emptied frame is returned, and commits that
stalled meanwhile are judged again. A release that still waits does so until records are freed or granted. -/
def State.stepRelease (s : State) (ctx : Nat) : State :=
  match (s.ctx ctx).releasing with
  | [] => s
  | f :: rest =>
    let s := s.moveOut ctx f (s.ctx ctx).recUsed.length
    if (s.ctx ctx).recUsed.any (fun p => p.1 / 2 ^ 24 == f) then s
    else (s.modCtx ctx (fun c => { c with frames := c.frames.filter (· != f), releasing := rest })).recsFreed ctx 0

/-- HEAP_RELEASE_COMPLETE (R64). -/
def execHeapReleaseComplete (ctx : Nat) (s : State) : Outc := event (s.stepRelease ctx)

/-! ### Version words (R266 to R268) -/

/-- A region fault: a supervisor trap. -/
def regionFault {α : Type} : W α := trap fRegion

/-- The region of a leaf, checked for a version instruction: enabled, versioned, valid, within lines, one line. -/
def versionLine (leaf va n : Nat) : W (Nat × Nat) := do
  let s ← get
  let c := s.ctx (← curTask).ctx
  let r := pteRegion leaf
  let d := s.region (← curTask).ctx r
  if !c.vrbase.getLsbD 0 ∨ !pteVers leaf ∨ !d.valid ∨ va < d.base ∨ d.lines ≤ (va - d.base) / 64
      ∨ va / 64 ≠ (va + n - 1) / 64 then regionFault
  return (r, d.dir + (va - d.base) / 64 * 16)

/-- Whether a task holds a pending `stv` on a line. -/
def Task.pendingStv (t : Task) (pa : Nat) : Option (Option Nat) :=
  t.commit.findSome? (fun b => match b.eff with
    | .stv _ _ p _ _ e _ => if p / 64 = pa / 64 then some e else none
    | _ => none)

/-- The leaf of an access's first page: a version word's element lies in one line, so in one page. -/
def firstLeaf (l : List Piece) : Nat := (l.head?.map (·.leaf)).getD 0

/-- A version load (R266). -/
def versionLoad (eq : Bool) (q : Fin 8) (base ver : GReg) (t : Ty) (off : BitVec 22) (s : State) : Outc :=
  plain (do
    let b ← useWord (← readG base.val)
    let vt ← readG ver.val
    let v := vt.v
    let a ← address b 0 0 off
    let t ← elemTy t b
    roomFor q.val
    let ps ← xlateSpan a (tyBytes t) .load
    let (r, e) ← versionLine (firstLeaf ps) a (tyBytes t)
    let parts := ranges ps
    let pa := (parts.head?.map (·.1)).getD 0
    if ((← curTask).pendingStv pa).isSome then versionTrap 1 3 a (v.toNat % 2 ^ 32)
    noteRead pa
    track pa
    let id ← issueLoad (.version eq (v.toNat % 2 ^ 32) r e) q.val t a parts vt.tag
    pushHere (fun c sl => .versionRequest c sl id)) s

/-- `ldv.eq` (R266). -/
def execLdvEq (q : Fin 8) (base ver : GReg) (t : Ty) (off : BitVec 22) (s : State) : Outc :=
  versionLoad true q base ver t off s

/-- `ldv.le` (R266). -/
def execLdvLe (q : Fin 8) (base ver : GReg) (t : Ty) (off : BitVec 22) (s : State) : Outc :=
  versionLoad false q base ver t off s

/-- A version store (R267): for `.at`, another `.at` of the task on the line with a different e raises VORDER. -/
def versionStore (d base : GReg) (t : Ty) (off : BitVec 22) (e : Option GReg) (s : State) : Outc :=
  plain (do
    let x ← readG d.val
    let b ← useWord (← readG base.val)
    let e ← (match e with
      | none => pure none
      | some g => do
        let w ← readG g.val
        return some w)
    let a ← address b 0 0 off
    let t ← elemTy t b
    let (v, fl) := storeValue t x.v
    let ps ← xlateSpan a (tyBytes t) .store
    let (r, _) ← versionLine (firstLeaf ps) a (tyBytes t)
    let pa := ((ranges ps).head?.map (·.1)).getD 0
    let ev := e.map (fun w => w.v.toNat % 2 ^ 32)
    let clash := (← curTask).commit.any (fun b => match b.eff with
      | .stv _ _ p _ _ (some e') _ => p / 64 == pa / 64 && ev.isSome && some e' != ev
      | _ => false)
    if clash then versionTrap 1 2 a (ev.getD 0)
    noteWrite pa
    buffer (.stv r a pa (bytesOf (tyBytes t) v) x.tag ev (keyedOf (firstLeaf ps))) 1 ((e.map (·.tag)).getD 0)
    flags fl 1) s

/-- `stv` (R267). -/
def execStv (d base : GReg) (t : Ty) (off : BitVec 22) (s : State) : Outc := versionStore d base t off none s

/-- `stv.at` (R267). -/
def execStvAt (d base e : GReg) (t : Ty) (off : BitVec 22) (s : State) : Outc :=
  versionStore d base t off (some e) s

/-- A region operand: reserved bits or an invalid descriptor raise the region fault (R268). -/
def regionOperand (w : Tagged) : W Nat := do
  let s ← get
  let t ← curTask
  let r := w.v.toNat % 4096
  if 4096 ≤ w.v.toNat ∨ !(s.ctx t.ctx).vrbase.getLsbD 0 ∨ !(s.region t.ctx r).valid then regionFault
  return r

/-- `vfloor` (R268): the floor is a version number, a control part of the effect (R388). -/
def execVfloor (a b : GReg) (s : State) : Outc :=
  plain (do
    let x ← readG a.val
    let y ← readG b.val
    let r ← regionOperand x
    buffer (.vfloor r (y.v.toNat % 2 ^ 32)) 1 (minTag x.tag y.tag)) s

/-- `vclose` (R268). -/
def execVclose (a : GReg) (s : State) : Outc :=
  plain (do
    let x ← readG a.val
    let r ← regionOperand x
    buffer (.vclose r) 1 x.tag) s

end Sys2Proof.Machine
end

