-- ==== Sys2Proof/Machine/Bulk.lean ====
section
/-! DEFINITION. `get` and `put`, the completion counters, and a scratchpad's memory port (R86, R111, R269 to R273). -/

namespace Sys2Proof.Machine

open Sys2Proof.Machine.Num

/-- The index list of a command as the scratchpad holds it (R269, R270): the entries, their poison tag, and the accesses recorded. -/
def State.readIndexList (s : State) (core : Nat) (g : GetPut) : List Nat × Nat × State :=
  let unit := if g.isPut then 5 else 4
  let hdr := g.ctl.getLsbD 43
  let (h, s) := if hdr then s.localRead g.ctx core unit g.list 8 else ([], s)
  let n := if hdr then Nat.min (ofBytes ((h.map (·.1)).take 4)) 256 else g.ctl.toNat % 256 + 1
  let (l, s) := s.localRead g.ctx core unit (g.list + if hdr then 8 else 0) (4 * n)
  ((List.range n).map (fun i => ofBytes (((l.drop (4 * i)).take 4).map (·.1))), minTag (tagOfBytes h) (tagOfBytes l), s)

/-- A command whose list is known. -/
def GetPut.listed (g : GetPut) (idx : List Nat) : GetPut := { g with known := true, idx := idx }

/-- Whether a filling slot holds back the list of a command (R92). -/
def State.listHeld (s : State) (core : Nat) (g : GetPut) : Bool :=
  let hdr := g.ctl.getLsbD 43
  (hdr && s.filling g.ctx core g.list 8) ||
    s.filling g.ctx core (g.list + if hdr then 8 else 0) (4 * (s.readIndexList core g).1.length)

/-- What the elements of a command reach, as far as their pages translate. -/
def State.reach (s : State) (core : Nat) (super : Bool) (g : GetPut) : List (Nat × Nat) :=
  (List.range g.idx.length).flatMap (s.elementRange core super g)

/-- The virtual ranges that the elements of a command reach on pages that do not translate. -/
def State.misses (s : State) (core : Nat) (super : Bool) (g : GetPut) : List (Nat × Nat) :=
  (List.range g.idx.length).flatMap (fun i => (s.elementSpan core super g i).2)

/-- Whether an earlier bulk write of the task covers a range. -/
def Task.covers (t : Task) (p : Nat × Nat) : Bool :=
  t.bulk.any (fun b => b.va.isNone && decide (b.pa ≤ p.1) && decide (p.1 + p.2 ≤ b.pa + b.len))

/-- A task's bulk writes and signatures with what a command reaches (R272, R299, R301): the lines of a `put` enter the write
signature, the HBM5 lines of a `get` the read signature. -/
def Task.reaches (t : Task) (g : GetPut) (l : List (Nat × Nat)) : Task :=
  if g.isPut then
    { t with
      bulk := (l.filter (fun p => !t.covers p)).map (fun p => ({ pa := p.1, len := p.2, pc := g.pc } : Bulk)) ++ t.bulk
      wsig := (lineAddrs l).foldl (fun x a => x ||| sigBits a) t.wsig }
  else
    { t with rsig := (lineAddrs (l.filter (fun p => decide (p.1 < 0x10000000000)))).foldl (fun x a => x ||| sigBits a) t.rsig }

/-- A task's bulk writes with the virtual ranges that a command will write on pages that do not translate yet (R299). -/
def Task.reachesAt (t : Task) (pc : Nat) (l : List (Nat × Nat)) : Task :=
  { t with bulk := l.map (fun p => ({ pa := 0, len := p.2, pc := pc, va := some p.1 } : Bulk)) ++ t.bulk }

/-- `get` and `put` (R269, R270): operands, control word and queue. The port reads the list when the command executes; what the
list names as the word issues enters the signatures (R301), and a `get` is judged on it for the bulk-read fault (R272; log
20). -/
def issueGetPut (isPut : Bool) (x : GD3) (s : State) : Outc :=
  plain (do
    let d ← useWord (← readG x.d.val)
    let a ← useWord (← readG x.a.val)
    let b ← useWord (← readG x.b.val)
    let c := (← readG x.c.val).v
    let len := c.toNat / 256 % 2 ^ 24
    let hdr := c.getLsbD 43
    if c.toNat / 2 ^ 44 ≠ 0 ∨ c.toNat / 2 ^ 40 % 4 ≠ 0 ∨ len = 0 ∨ (hdr ∧ c.toNat % 256 ≠ 0) then trap fGet 1
    if 0x40000 ≤ vaOf d ∨ 0x40000 ≤ vaOf b then trap fGet 3
    let s ← get
    if 8 ≤ (s.core s.focus).gp.length then exit (.stall none)
    let t ← curTask
    if t.sect.isSome then exit (.abort 5 0)
    let k ← curKey
    let g : GetPut :=
      { isPut := isPut, d := vaOf d, a := vaOf a, ctl := c, list := vaOf b, known := false, idx := [], slot := k % 8
        ctx := t.ctx, tid := t.tid, pc := t.pc, first := 0, els := [], landed := [], halted := false, killed := false }
    let named := g.listed (s.readIndexList s.focus g).1
    let l := s.reach s.focus t.super named
    if !isPut then
      awaitPuts
      l.forM (fun p => checkBulk p.1 p.2)
      (s.misses s.focus t.super named).forM (fun p => checkBulkAt p.1 p.2)
    modCur (fun t => { t.reaches g l with bulk := t.bulk })
    modify (fun s =>
      let first := (s.core s.focus).gp = []
      let s := s.modCore s.focus (fun c => { c with gp := c.gp ++ [g] })
      if first then s.gpKick s.focus else s)) s

/-- `get` (R270). -/
def execGet (x : GD3) (s : State) : Outc := issueGetPut false x s

/-- `put` (R270). -/
def execPut (x : GD3) (s : State) : Outc := issueGetPut true x s

/-- What stops an engine's or the port's access at a page (R79, R19, R53, R304, R305). -/
inductive Stop where
  | upcall (cls : Nat) (regs : List Word) (handleAt : Nat)
  | trap (code cause : Nat) (items : List Word)
  | migrating (va : Nat)
  deriving DecidableEq, Repr

/-- The stop of a translation. -/
def stopOf (x : Xlate) (k : Acc) (va pc tid : Nat) : Stop :=
  match x with
  | .page cause level => .upcall 1 (pageRegs cause level va k.code pc tid) 5
  | .protection => .trap fProtection 0 []
  | .migrating => .migrating va
  | _ => .trap fTranslation 0 []

/-- The checks of a translated piece: the capacity fault, VORDER on a versioned page for a write, the writer key at level 2
for a write and the race for a read. -/
def State.pieceStop (s : State) (core ctx : Nat) (k : Acc) (p : Nat × Nat × Nat) (va pc tid : Nat) : Option Stop :=
  let leaf := p.2.2
  let r := Tab.get .invalid (s.ctx ctx).regions (pteRegion leaf)
  if !s.paOk p.1 then some (.trap fCapacity 0 [BitVec.ofNat 64 p.1])
  else if k.writes ∧ pteVers leaf then some (.upcall 2 (versionRegs 1 4 va 0 0 0 pc tid) 7)
  else if (s.ctx ctx).detlvl = 2 ∧ pteKey leaf then
    if k.writes then
      if (s.core core).keys.contains (ctx * 4096 + pteRegion leaf) then none
      else some (.trap fKey 0 [BitVec.ofNat 64 (pteRegion leaf)])
    else if !pteVers leaf ∧ r.held ∧ r.holder ≠ core then
      some (.trap fRace 0 [BitVec.ofNat 64 (pteRegion leaf), BitVec.ofNat 64 r.holder])
    else none
  else none

/-- The pieces of a span with the virtual address of each. -/
def pieceAddrs : Nat → List (Nat × Nat × Nat) → List (Nat × Nat × Nat × Nat)
  | _, [] => []
  | va, p :: rest => (va % 2 ^ 57, p) :: pieceAddrs (va + p.2.1) rest

/-- Translates a span for an engine or the port, with every check: its pieces, or the first stop. -/
def State.spanChecked (s : State) (core ctx : Nat) (super : Bool) (k : Acc) (va n pc tid : Nat) :
    Except Stop (List (Nat × Nat)) × State :=
  let (l, f, s) := s.pieces core ctx super k va n
  match (pieceAddrs va l).findSome? (fun p => s.pieceStop core ctx k p.2 p.1 pc tid), f with
  | some st, _ => (.error st, s)
  | none, some (x, at') => (.error (stopOf x k at' pc tid), s)
  | none, none => (.ok (l.map (fun p => (p.1, p.2.1))), if k.writes then s else l.foldl (fun s p => s.notePeer p.1) s)

/-- Whether the task of a slot can be stopped by a fault of a command of its own. -/
def Task.stoppable (t : Task) : Bool :=
  match t.stat with
  | .ready | .running | .parked _ | .committing => true
  | _ => false

/-- Delivers the stop of a command to its task; `e` names the engine and the command that faulted, for `eret` (R186). A migrating page
parks the task until the invalidation (R82). -/
def State.deliverStop (s : State) (k : Nat) (pc : Nat) (e : Option (Engine × Nat)) : Stop → State
  | .upcall cls regs at' => if (s.task k).stoppable then s.takeUpcall k cls regs at' else s
  | .trap code cause items =>
    if !(s.task k).stoppable then s
    else (s.modTask k (fun t => { t with engFault := e })).takeTrapAt k code cause 0 items pc
  | .migrating va =>
    match (s.task k).stat with
    | .ready | .running => (s.park k (.migrating va)).evict (k / 8)
    | _ => s

/-- Translates the elements of a command from its progress on, up to the first that stops. -/
def State.issueEls (s : State) (core : Nat) (super : Bool) (g : GetPut) : Nat → Nat → List (List (Nat × Nat)) × Bool × State
  | _, 0 => ([], false, s)
  | i, n + 1 =>
    match s.spanChecked core g.ctx super (if g.isPut then .put else .get) (g.remote i) g.len g.pc g.tid with
    | (.ok l, s) =>
      let (more, f, s) := s.issueEls core super g (i + 1) n
      (l :: more, f, s)
    | (.error _, s) => ([], true, s)

/-- Issues the head command's elements. -/
def State.gpIssue (s : State) (core : Nat) (g : GetPut) : GetPut × State :=
  if g.els ≠ [] ∨ g.halted ∨ g.idx.length ≤ g.first then (g, s)
  else if g.hw then ({ g with els := List.replicate (g.idx.length - g.first) [] }, s)
  else
    let (els, f, s) := s.issueEls core (s.task (core * 8 + g.slot)).super g g.first (g.idx.length - g.first)
    ({ g with els := els, halted := f }, s.modTask (core * 8 + g.slot) (·.reaches g els.flatten))

/-- A completed command decrements its counter (R111). -/
def State.counterDown (s : State) (k tid cc : Nat) : State :=
  if (s.task k).stat ≠ .free ∧ (s.task k).tid = tid then
    s.modTask k (fun t => { t with cc := Tab.set 0 t.cc cc (Tab.get 0 t.cc cc - 1) })
  else s

/-- The fault at the element where a command stopped; the elements below it have landed. -/
def State.gpFault (s : State) (core : Nat) (g : GetPut) : State :=
  let k := core * 8 + g.slot
  let j := g.first + g.els.length
  match s.spanChecked core g.ctx (s.task k).super (if g.isPut then .put else .get) (g.remote j) g.len g.pc g.tid with
  | (.error st, s) =>
    let s := s.modCore core (fun c =>
      { c with gp := { g with first := j, els := [], landed := [], halted := false } :: c.gp.drop 1 })
    s.deliverStop k g.pc none st
  | (.ok _, s) =>
    (s.modCore core (fun c =>
      { c with gp := { g with first := j, els := [], landed := [], halted := false } :: c.gp.drop 1 })).gpKick core

/-- The command at the head of the port's queue executes (R270): the port reads its list; a poisoned list is consumed. -/
def State.gpList (s : State) (core : Nat) (g : GetPut) : State :=
  let k := core * 8 + g.slot
  let (idx, tag, s') := s.readIndexList core g
  if s.listHeld core g ∨ (tag ≠ 0 ∧ !(s.task k).stoppable) then s.push (.getPutElementLand core 0)
  else if tag ≠ 0 then s'.poisonKill k tag
  else
    let g := g.listed idx
    let s := s'.modCore core (fun c => { c with gp := g :: c.gp.drop 1 })
    let missed := if g.isPut then s.misses core (s.task k).super g else []
    (s.modTask k (fun t => (t.reaches g (s.reach core t.super g)).reachesAt g.pc missed)).gpKick core

/-- Whether a command's task waits for a migrating page, and the command with it (R82). -/
def State.gpWaits (s : State) (core : Nat) (g : GetPut) : Bool :=
  match (s.task (core * 8 + g.slot)).stat with
  | .parked (.migrating _) => !g.killed
  | _ => false

/-- GET_PUT_ELEMENT_LAND (R270): the command at the head of the port's queue reads its list; then its elements land, in any
order, and after the last the counter is decremented. -/
def execGetPutElementLand (core i : Nat) (s : State) : Outc :=
  event (match (s.core core).gp with
    | [] => s
    | g :: _ =>
      if s.gpWaits core g then s.push (.getPutElementLand core i)
      else if !g.known then s.gpList core g
      else
      let (g, s) := s.gpIssue core g
      let fresh := decide (g.first ≤ i) && decide (i < g.first + g.els.length) && !g.landed.contains i
      if fresh && s.elementHeld core g i then
        (s.modCore core (fun c => { c with gp := g :: c.gp.drop 1 })).push (.getPutElementLand core i)
      else
      let parts := if fresh && g.isPut && !g.hw then g.els.getD (i - g.first) [] else []
      let s' := if fresh then s.moveElement core g i else s
      let g := if fresh then { g with landed := i :: g.landed } else g
      let s' := s'.modCore core (fun c => { c with gp := g :: c.gp.drop 1 })
      (if g.landed.length < g.els.length then s'
        else if g.halted then s'.gpFault core g
        else if g.idx.length ≤ g.first + g.els.length then
          let s' := s'.modCore core (fun c => { c with gp := c.gp.drop 1 })
          (s'.counterDown (core * 8 + g.slot) g.tid g.cc).gpKick core
        else s').judgeEntries s g.ctx core parts)

/-- `ccset` (R273). -/
def execCcset (c : Fin 16) (a : GReg) (s : State) : Outc :=
  plain (do
    let x ← readG a.val
    modCur (fun t => { t with cc := Tab.set 0 t.cc c.val (x.v.truncate 32) })) s

/-- Whether a `get`, `put` or device-scope `tlbi` of the slot names a counter. -/
def State.names (s : State) (k cc : Nat) : Bool :=
  (s.core (k / 8)).gp.any (fun g => g.slot == k % 8 && g.cc == cc)
    || ((s.task k).super && s.invals.any (fun i => i.tid == (s.task k).tid && i.cc == cc))

/-- `ccwait` (R273): a completion fault when nothing will decrement a counter above 0. -/
def execCcwait (c : Fin 16) (s : State) : Outc :=
  plain (do
    let s ← get
    let k ← curKey
    if 0 < (Tab.get 0 (s.task k).cc c.val).toInt then
      if s.names k c.val then exit (.hold false) else trap fCompletion 0 [BitVec.ofNat 64 c.val]) s

/-- A core's access of `n` bytes to a target's scratchpad at the target's memory port (R86, R92, R297): a filling slot holds it
back, and so does an earlier store that waits for the same bytes (R292); the tasks of the target see it; a write lands. A write
carries its bytes, their tag, and its place among the stores of commits. -/
def State.portAccess (s : State) (core target addr : Nat) (write : Option (List Byte × Nat × Nat)) (len : Nat) : State :=
  let n := Nat.min (match write with | some (bs, _, _) => bs.length | none => len) (spadBytes - addr)
  let ctx := s.installedCtx target
  if s.filling ctx target addr n || s.portBehind target addr n (write.map (fun w => w.2.2)) then s.push (.memoryPortAccess core target addr write len)
  else
    let s := if core = target then s else s.portSeen target addr n
    match write with
    | some (bs, tag, _) =>
      (s.spadWrite ctx target addr (bs.take n) tag).landed (aperturePa target addr) n (.commit (core * 8 + 7))
    | none => s

/-- MEMORY_PORT_ACCESS (R86, R92, R297). -/
def execMemoryPortAccess (core target addr : Nat) (write : Option (List Byte × Nat × Nat)) (len : Nat) (s : State) : Outc :=
  event (s.portAccess core target addr write len)

end Sys2Proof.Machine
end

