-- ==== Sys2Proof/Machine/Owner.lean ====
section
/-! DEFINITION. What owners do: sending messages with termination records, atomic functions, the log, join arrivals and
share counts (R274 to R283, R330, R357, R358, R425). -/

namespace Sys2Proof.Machine

open Sys2Proof.Machine.Num

/-! ### Termination records (R357, R358) -/

/-- Whether a message counts in its region. -/
def counted' (hdr : Word) : Bool :=
  let t := hdrTag hdr
  hdrTrm hdr != 0 && !hdrFar hdr && !(t == 5 || t == 6 || t == 7 || t == 8 || t == 12)

/-- Whether a core is idle for a region (R357). -/
def State.termQuiet (s : State) (core r : Nat) : Bool :=
  let c := s.core core
  let mine (m : Message) : Bool := hdrTrm m.hdr == r
  (s.termRec core r).out == 0 && !(s.termRec core r).owed
    && !(List.range 8).any (fun i => (s.task (core * 8 + i)).stat != .free && (s.task (core * 8 + i)).trm == r)
    && !(s.spilled core).any (fun p => mine p.m)
    && !c.sysQueue.any mine && !c.relink.any (fun p => mine p.m)
    && !s.pending.any (fun e => match e with
      | .meetDelivery m _ _ => m.dst == core && mine m
      | .messageBounce m | .messageArrival m => m.deferred && m.dst == core && mine m
      | _ => false)
    && !s.cores.any (fun x => x.2.bounced.any (fun p => p.m.deferred && p.m.dst == core && mine p.m))
    && !s.saved.any (fun p => p.2.core == core && p.2.task.trm == r)
    && !s.coreCtxs.any (fun p => p.1 % 8192 == core && (p.2.holding ++ p.2.late ++ p.2.mergeHeld).any mine)

/-- The front hive's place in a parent field: no core. -/
def frontHive : Nat := 8192

/-- A core that has become idle for a region acknowledges its first activation. -/
def State.termSettle (s : State) (core r : Nat) : State :=
  let t := s.termRec core r
  if r ≠ 0 ∧ t.engaged ∧ s.termQuiet core r then
    (s.modTerm core r (fun t => { t with engaged := false })).push (.terminationAck t.parent r)
  else s

/-- A region message arrives: its acknowledgement is deferred when it engages the core. A redelivered message that a full queue
returned has engaged it already (R391). -/
def State.termArrive (s : State) (core : Nat) (m : Message) : Message × State :=
  let r := hdrTrm m.hdr
  if !counted' m.hdr ∨ m.deferred then (m, s)
  else if (s.termRec core r).engaged then ({ m with deferred := false }, s)
  else ({ m with deferred := true }, s.modTerm core r (fun t => { t with engaged := true, parent := m.src }))

/-- The task that a message started, or that served it, has committed. -/
def State.termDone (s : State) (core : Nat) (m : Message) : State :=
  let r := hdrTrm m.hdr
  if !counted' m.hdr then s
  else
    let s := if m.deferred then s else s.push (.terminationAck m.src r)
    s.termSettle core r

/-! ### Sending -/

/-- A header as it leaves: a far message to the local device is a local one with timestamp 0 (R333). -/
def hdrLeaves (h : Word) (trm : Nat) : Word :=
  if hdrFar h then mkHdr 0 false (hdrCore h) (hdrTag h) (hdrPrio h) (hdrLen h) 0
  else mkHdr (hdrTs h) false (hdrCore h) (hdrTag h) (hdrPrio h) (hdrLen h) trm

/-- Sends a message of a task or handler of region `trm`; one for another device leaves the machine. At levels 1 and 2 a
message that starts a user task waits in the hive task queue (R374). A message to another device is in flight for cycles that no rule
gives (R409). -/
def State.emit (s : State) (core trm : Nat) (m : Message) : State :=
  if hdrFar m.hdr ∧ hdrTs m.hdr % 2 ^ 15 ≠ 0x7FFF ∧ hdrTs m.hdr % 2 ^ 15 ≠ s.devid then
    { s with farOut := s.farOut.filter (fun p => decide (s.cyc < p.2))
               ++ [(hdrTs m.hdr % 2 ^ 15, s.cyc + 1 + Config.farCycles s.tick)] }
  else
    let h := hdrLeaves m.hdr trm
    let m := { m with hdr := h, src := core, dst := hdrCore h, deferred := false }
    let s := if counted' h then s.modTerm core trm (fun t => { t with out := t.out + 1 }) else s
    s.dispatch core m

/-- A message for a slot-7 service. -/
def svcMessage (tag dst ctx : Nat) (svc : Svc) : Message :=
  { hdr := mkHdr 0 false dst tag 7 0 0, src := 0, dst := dst, ctx := ctx, payload := [], svc := svc, entry := none
    mark := none, tid := none, deferred := false, flight := none }

/-! ### Atomic functions (R274) -/

/-- The new value of an element. -/
def amoNew (f : AFn) (t : Ty) (old b c : Nat) : Nat :=
  let w := t.width
  match f with
  | .add => low w (old + b)
  | .fadd =>
    let fm := fmtOf t
    (fm.round .rne false ((fm.decode (low w old)).add .rne (fm.decode (low w b))).1).1
  | .min =>
    if t.isFloat then (fmtOf t).min old b
    else if value t b < value t old then low w b else low w old
  | .max =>
    if t.isFloat then (fmtOf t).max old b
    else if value t old < value t b then low w b else low w old
  | .and => low w (old &&& b)
  | .or => low w (old ||| b)
  | .xor => low w (old ^^^ b)
  | .swap => low w b
  | .cas => if low w old = low w c then low w b else low w old

/-- Applies a function to an element of main memory: the old value with its tag, and the state. -/
def State.amoAt (s : State) (pa : Nat) (f : AFn) (t : Ty) (b c : Word) (tag : Nat) (w : Writer) : Tagged × State :=
  let n := tyBytes t
  let old := s.num pa n
  ({ v := extend t old, tag := s.tagAt pa n },
    s.writeSeen pa (bytesOf n (amoNew f t old b.toNat c.toNat)) tag w)

/-! ### The log (R280, R281) -/

def CoreCtx.logAt (c : CoreCtx) (i : Nat) : Nat := c.dlog.toNat / 64 % 2 ^ 34 * 64 + i * 32
def CoreCtx.logCap (c : CoreCtx) : Nat := c.dlog.toNat / 2 ^ 44 * 64

/-- The log fault (R280): the log and the count. -/
def State.logFault (s : State) (ctx core n : Nat) : State :=
  let s := s.modCc ctx core (fun c => { c with logFull := true })
  s.deviceFault ctx core 67 0 [BitVec.ofNat 64 ((s.cc ctx core).logAt 0), BitVec.ofNat 64 n]

/-- Appends an entry that the log has room for. -/
def State.logAppend (s : State) (ctx core : Nat) (e0 e1 e2 : Word) (tag : Nat) : State :=
  let c := s.cc ctx core
  let s := s.writeMem (c.logAt c.logCount) ([e0, e1, e2, 0].flatMap (fun w => bytesOf 8 w.toNat)) tag
  s.modCc ctx core (fun c => { c with logCount := c.logCount + 1 })

/-- The function code of an update's log entry (R274, R425). -/
def updCode : UpdKind → Nat
  | .amo f => f.code
  | .tshr => 9 | .tdrop => 10 | .tseal => 11 | .join => 12
  | .jset => 0

/-- Word e2 of an entry. -/
def logControl (u : Update) : Word :=
  let t := match u.kind with | .amo _ => u.t.code | _ => 0
  BitVec.ofNat 64 (u.issuer * 2 ^ 51 + u.seq % 2 ^ 24 * 2 ^ 27 + updCode u.kind * 2 ^ 12 + t * 2 ^ 8)

/-- An owner appends an update to its own log (R425), or raises the log fault. -/
def State.logUpdate (s : State) (core : Nat) (u : Update) : State :=
  let c := s.cc u.ctx core
  if c.logCount < c.logCap then
    s.logAppend u.ctx core (BitVec.ofNat 64 u.va) (match u.kind with | .amo _ => u.operand | _ => 0) (logControl u) u.tag
  else s.logFault u.ctx core c.logCount

/-! ### Join arrivals and share counts (R283, R330) -/

/-- A message built from a line in memory: header, payload. -/
def lineMessage (hdr : Word) (core ctx tag : Nat) (payload : List Word) : Message :=
  { hdr := hdr, src := core, dst := hdrCore hdr, ctx := ctx
    payload := (payload.take (hdrLen hdr)).map (fun w => { v := w, tag := tag }), svc := .task, entry := none
    mark := none, tid := none, deferred := false, flight := none }

/-- Sends a message whose header stands in memory: a poisoned header is consumed by the handler (R388). -/
def State.sendLine (s : State) (core ctx trm tag : Nat) (hdr : Word) (payload : List Word) : State :=
  if tag ≠ 0 then s.deviceFault ctx core 64 tag [BitVec.ofNat 64 tag]
  else s.emit core trm (lineMessage hdr core ctx tag payload)

/-- A join arrival (R283). -/
def State.joinAt (s : State) (core ctx trm pa : Nat) : State :=
  let c := (s.num pa 4 + 2 ^ 32 - 1) % 2 ^ 32
  let tag := s.lineTag pa
  let s := s.writeSeen pa (bytesOf 8 c) 0 .atomic
  if c = 0 then
    s.sendLine core ctx trm tag (s.word (pa + 8))
      (((List.range 6).map (fun i => s.word (pa + 16 + 8 * i))) ++ [0, 0])
  else s

/-- A share update of a payload header (R330), at its physical line, HBM5 or scratchpad aperture. -/
def State.shareAt (s : State) (core ctx trm va pa : Nat) (k : UpdKind) : State :=
  let word (i : Nat) : Word := BitVec.ofNat 64 (ofBytes (s.physRead (pa + 8 * i) 8))
  let count := (word 0).toNat % 2 ^ 32
  let netFault := s.deviceFault ctx core 66 0
    [BitVec.ofNat 64 va, word 0, Config.kindCode (updCode k)]
  let hi := (word 0).toNat / 2 ^ 32 * 2 ^ 32
  match k with
  | .tshr =>
    if count = 2 ^ 32 - 1 then netFault else s.writeSeen pa (bytesOf 8 (hi + count + 1)) 0 .atomic
  | .tdrop =>
    if count = 0 then netFault
    else
      let s := s.writeSeen pa (bytesOf 8 (hi + count - 1)) 0 .atomic
      if count = 1 then
        s.sendLine core ctx trm (s.physTag pa 64) (word 2)
          (BitVec.ofNat 64 va :: ((List.range 5).map (fun i => word (i + 3))) ++ [0, 0])
      else s
  | .tseal => s.writeSeen (pa + 8) (bytesOf 8 ((word 1).toNat % 2 ^ 63 + 2 ^ 63)) 0 .atomic
  | _ => s

/-- Applies an update at its owner now: the reply of a returning form goes to its task. -/
def State.applyUpdate (s : State) (core trm : Nat) (u : Update) : State :=
  match u.kind with
  | .amo f =>
    let (old, s') := s.amoAt u.pa f u.t u.operand u.compare u.tag .atomic
    (match u.reply with
      | some (k, place) => s'.push (.atomicReply (k / 8) (k % 8) place old)
      | none => s').judgeEntries s u.ctx core [(u.pa, tyBytes u.t)]
  | .join => s.joinAt core u.ctx trm u.pa
  | .jset =>
    s.writeSeen u.pa ((bytesOf 8 (u.operand.toNat % 2 ^ 32)) ++ bytesOf 8 u.compare.toNat) u.tag .atomic
  | k => s.shareAt core u.ctx trm u.va u.pa k

/-! ### The handler (R275, R279, R282, R425) -/

/-- Whether the word that a core's running user task has issued awaits a late arrival, which a slot-7 task lets resolve (R365;
DEDUCED, log 126). -/
def State.awaitsLate (s : State) (core : Nat) : Bool :=
  match (s.core core).running with
  | some j => (s.task (core * 8 + j)).lateArrival
  | none => false

/-! ### The system queue (R337, R420) -/

/-- The event that serves a slot-7 message. -/
def svcEvent (m : Message) : Option Event :=
  match m.svc with
  | .update u =>
    match u.kind with
    | .join | .jset => some (.joinArrival u)
    | .amo _ => some (.atomicApply u)
    | _ => some (.shareUpdate u)
  | .summary c va x k => some (.summaryUpdate c va x k)
  | .keyPass c r h => some (.keyPassApply c r h)
  | .link l => some (.bucketLink l)
  | .hinge c x z => some (.hinge c x z)
  | .fuse c x y => some (.fuse c x y)
  | .fuse2 c x y z => some (.fuse2 c x y z)
  | .fuse3 c x y => some (.fuse3 c x y)
  | .join2 c t p e => some (.join2 c t p e)
  | .join1 c t p e => some (.join1 c t p e)
  | .fix c t p => some (.fix c t p)
  | .drain c x => some (.drain c x)
  | .nfree c n => some (.nfreeMessage c n)
  | .debug c ws =>
    match (ws.getD 0 0).toNat % 256 with
    | 1 => some (.debugAttach c m.dst ws)
    | 2 => some (.debugDetach c m.dst ws)
    | 3 => some (.debugSetBreakpoint c m.dst ws)
    | 4 => some (.debugClearBreakpoint c m.dst ws)
    | 5 => some (.debugStop c m.dst ws)
    | 6 => some (.debugCopy c m.dst ws)
    | 7 => some (.debugRelease c m.dst ws)
    | _ => none
  | .task | .meet .. | .ring => none

/-- A slot-7 message goes to slot 7, or waits behind the one there. -/
def State.enterSys (s : State) (core : Nat) (m : Message) : State :=
  let s := s.modCore core (fun c => { c with sysQueue := c.sysQueue ++ [m] })
  match svcEvent m with | some e => s.push e | none => s

/-- The spilled slot-7 messages of a core that may run; relink messages that a slot holds are not among them. -/
def State.spilledSvc (s : State) (core : Nat) : List Spilled :=
  (s.spilled core).filter (fun p => !p.held && !userTag (hdrTag p.m.hdr) && s.canStart p.m.ctx)

/-- A slot-7 message (R337): with slot 7 busy it enters the system queue of 16; behind older ones that wait in the spill queue (R420),
or when the queue is full, the spill queue; none when that is full too. The first of `sysQueue` is the one in slot 7. The enable of a
tag's entry is judged for user tags (DEDUCED, log 120). -/
def State.queueSvc (s : State) (core : Nat) (m : Message) : Option State :=
  if s.canStart m.ctx ∧ (s.core core).sysQueue.length < 17 ∧ s.spilledSvc core = [] then some (s.enterSys core m)
  else
    let (ok, s) := s.spill core m false
    if ok then some (s.push (.spillWake m.ctx core)) else none

/-- The oldest spilled slot-7 message of a core that may run enters the system queue when there is room; relink messages that a
slot holds stay. -/
def State.refillSys (s : State) (core : Nat) : State :=
  if 17 ≤ (s.core core).sysQueue.length then s
  else
    let old := (s.spilledSvc core).foldl
      (fun (best : Option Spilled) p => match best with
        | some b => if p.seq < b.seq then some p else some b
        | none => some p) none
    match old with
    | none => s
    | some p => (s.unspill core p).enterSys core p.m

/-- Takes a slot-7 message out of the system queue when it stands at its core's head, and the oldest spilled one takes the place behind
(R420); `none` when it waits there behind others or for a late arrival of the running task (R365), and `(none, s)` inside when no queue
holds it. -/
def State.takeSvc (s : State) (svc : Svc) : Option (Option (Nat × Message) × State) :=
  match s.cores.find? (fun c => c.2.sysQueue.any (fun m => m.svc == svc)) with
  | none => some (none, s)
  | some (c, x) =>
    match x.sysQueue with
    | m :: rest =>
      if m.svc = svc ∧ !s.awaitsLate c then some (some (c, m), (s.modCore c (fun c => { c with sysQueue := rest })).refillSys c) else none
    | [] => some (none, s)

/-- The update of a message. -/
def msgUpdate (m : Message) : Option Update := match m.svc with | .update u => some u | _ => none

/-- The one merge-domain group that GRP0 to GRP3 of a core name (R278, R371). -/
def State.mergeGroup (s : State) (ctx core : Nat) : Option Nat :=
  (s.cc ctx core).grp.findSome? (fun r =>
    let g := r.2.toNat % 256
    if r.2.getLsbD 63 ∧ (Tab.get .invalid (s.ctx ctx).groups g).merge then some g else none)

/-- An update reaches its owner's handler: held while a merge runs; at level 2 held or logged for its quantum; else
applied (R275, R279). -/
def State.serveUpdate (s : State) (core : Nat) (m : Message) (u : Update) : State :=
  let trm := hdrTrm m.hdr
  if (s.core core).merging then s.modCc u.ctx core (fun c => { c with mergeHeld := c.mergeHeld ++ [m] })
  else if (s.ctx u.ctx).detlvl = 2 ∧ u.kind ≠ .jset then
    let q := match s.mergeGroup u.ctx core with
      | some g => (Tab.get .invalid (s.ctx u.ctx).groups g).qno
      | none => u.quantum
    if q < u.quantum then s.modCc u.ctx core (fun c => { c with late := c.late ++ [m] })
    else
      let n := (s.cc u.ctx core).heldCount
      let s := s.modCc u.ctx core (fun c => { c with heldCount := n + 1 })
      if n < 16 then s.modCc u.ctx core (fun c => { c with holding := c.holding ++ [m] })
      else (s.logUpdate core u).termDone core m
  else (s.applyUpdate core trm u).termDone core m

/-- The order in which held updates and log entries are applied (R279, R282). -/
def updateBefore (a b : Nat × Nat × Nat) : Bool :=
  decide (a.1 < b.1) || (a.1 == b.1 && (decide (a.2.1 < b.2.1) || (a.2.1 == b.2.1 && decide (a.2.2 < b.2.2))))

def updKey (u : Update) : Nat × Nat × Nat := (u.va, u.issuer, u.seq)

/-- SETTLEMENT of an owner's quantum (R279, R425): at most 16 updates are applied in order, else they are all
logged. -/
def State.settle (s : State) (ctx core : Nat) : State :=
  let c := s.cc ctx core
  let ms := c.holding
  let n := c.heldCount
  let s := s.modCc ctx core (fun c => { c with heldCount := 0 })
  let out (s : State) (m : Message) : State := s.modCc ctx core (fun c => { c with holding := c.holding.erase m })
  let key (m : Message) : Nat × Nat × Nat := match msgUpdate m with | some u => updKey u | none => (0, 0, 0)
  if n ≤ 16 then
    (sortBy (fun a b => updateBefore (key a) (key b)) ms).foldl
      (fun s m => match msgUpdate m with
        | some u => ((out s m).applyUpdate core (hdrTrm m.hdr) u).termDone core m
        | none => out s m) s
  else
    ms.foldl (fun s m => match msgUpdate m with
      | some u => ((out s m).logUpdate core u).termDone core m
      | none => out s m) s

/-- The lines whose acknowledgement by the host the settlement of an owner's quantum awaits (R406). -/
def State.settleOwes (s : State) (ctx core : Nat) : List Nat :=
  let c := s.cc ctx core
  if 16 < c.heldCount then []
  else c.holding.flatMap (fun m => match msgUpdate m with | some u => s.hostOwes u.pa 1 | none => [])

/-- The updates of later quanta come up when their quantum is collected. -/
def State.bringUp (s : State) (ctx core : Nat) : State :=
  (s.cc ctx core).late.foldl (fun s m =>
    let s := s.modCc ctx core (fun c => { c with late := c.late.erase m })
    match msgUpdate m with
    | some u => s.serveUpdate core m u
    | none => s) s

/-- The owner of an update with no message behind it. -/
def State.ownerAt (s : State) (ctx va : Nat) : Nat :=
  match s.walk ctx va with
  | .leaf e _ _ => ownerOf e va
  | _ => 0

/-- Serves an update's event: in the order of the system queue, or directly when no message stands behind it. -/
def State.updateEvent (s : State) (u : Update) (again : Event) : State :=
  if s.hostOwes u.pa 1 ≠ [] then (s.askHost (s.hostOwes u.pa 1)).push again
  else
  match s.takeSvc (.update u) with
  | none => s.push again
  | some (some (core, m), s) => s.serveUpdate core m u
  | some (none, s) =>
    let core := s.ownerAt u.ctx u.va
    s.serveUpdate core (svcMessage 2 core u.ctx (.update u)) u

/-- ATOMIC_APPLY (R275). -/
def execAtomicApply (u : Update) (s : State) : Outc := event (s.updateEvent u (.atomicApply u))

/-- JOIN_ARRIVAL (R283). -/
def execJoinArrival (u : Update) (s : State) : Outc := event (s.updateEvent u (.joinArrival u))

/-- SHARE_UPDATE (R330); a filling slot under the aperture holds it back (R92). -/
def execShareUpdate (u : Update) (s : State) : Outc :=
  event (if s.portHeld [(u.pa, 64)] then s.push (.shareUpdate u) else s.updateEvent u (.shareUpdate u))

/-- ATOMIC_REPLY (R275): the reply fills its place in ares; a save that waited for it goes on (R395). -/
def execAtomicReply (core slot place : Nat) (w : Tagged) (s : State) : Outc :=
  event ((s.deliver place (.word w)).trySave (core * 8 + slot))

/-! ### Merging (R282, R397) -/

/-- A log entry's key, and its parts. -/
structure LogEntry where
  pos : Nat
  va : Nat
  operand : Word
  control : Word
  tag : Nat
  deriving DecidableEq, Repr

def LogEntry.key (e : LogEntry) : Nat × Nat × Nat :=
  (e.va, e.control.toNat / 2 ^ 51, e.control.toNat / 2 ^ 27 % 2 ^ 24)

/-- The entries of a log. -/
def State.logEntries (s : State) (ctx core : Nat) : List LogEntry :=
  let c := s.cc ctx core
  (List.range c.logCount).map (fun i =>
    { pos := i, va := s.num (c.logAt i) 8 % 2 ^ 57, operand := s.word (c.logAt i + 8)
      control := s.word (c.logAt i + 16), tag := s.lineTag (c.logAt i) })

/-- The functions by code. -/
def afnOf : Nat → Option AFn
  | 0 => some .add | 1 => some .fadd | 2 => some .min | 3 => some .max | 4 => some .and | 5 => some .or
  | 6 => some .xor | 7 => some .swap | _ => none

/-- The types by code (R145). -/
def tyOf (n : Nat) : Ty :=
  match n with
  | 1 => .i8 | 2 => .i16 | 3 => .i32 | 4 => .i64 | 5 => .n8 | 6 => .n16 | 7 => .n32 | 8 => .n64 | 9 => .f16
  | 10 => .bf16 | 11 => .f32 | 12 => .e4m3 | 13 => .e5m2 | 14 => .q4x | _ => .none

/-- What an entry asks for: an atomic function and type, or a share update or join arrival; `none` is an entry that no
rule defines. -/
def LogEntry.kind (e : LogEntry) : Option (UpdKind × Ty) :=
  let f := e.control.toNat / 2 ^ 12 % 16
  let t := e.control.toNat / 2 ^ 8 % 16
  match f with
  | 9 => if t = 0 then some (.tshr, .none) else none
  | 10 => if t = 0 then some (.tdrop, .none) else none
  | 11 => if t = 0 then some (.tseal, .none) else none
  | 12 => if t = 0 then some (.join, .none) else none
  | _ =>
    match afnOf f with
    | some g => if t ≠ 15 ∧ (tyOf t).isIn g.types then some (.amo g, tyOf t) else none
    | none => none

/-- The physical address of an entry's element: HBM5 below MCAP, or for a share update the aperture. -/
def State.entryPa (s : State) (ctx va : Nat) (share : Bool) : Option Nat :=
  match s.walk ctx va with
  | .leaf e _ shift =>
    let base := if shift = 16 then e - e / 4096 % 16 * 4096 else e
    let pa := pteAddr base / 2 ^ shift * 2 ^ shift + va % 2 ^ shift
    match paKind pa with
    | .hbm => if s.paOk pa then some pa else none
    | .aperture _ _ => if share then some pa else none
    | _ => none
  | _ => none

/-- What the application of an entry waits for: lines that the host has to give up (R406), and whether its page is migrating (R82) or a
filling slot holds its line (R92). -/
def State.entryHolds (s : State) (ctx : Nat) (e : LogEntry) : List Nat × Bool :=
  match e.kind with
  | none => ([], false)
  | some (k, t) =>
    let share := k == .tshr || k == .tdrop || k == .tseal
    if s.pageMoving ctx e.va then ([], true)
    else match s.entryPa ctx e.va share with
      | none => ([], false)
      | some pa => (s.hostOwes pa (if t = .none then 64 else tyBytes t), share && s.portHeld [(pa, 64)])

/-- Applies entries in order until one that no rule defines (the log fault, naming its position) or that reaches no memory
(a breach, code 69): how many were applied, whether it stopped, and the state. What they send counts in the region of the task whose
`mrg` it is (R357, R425). -/
def State.applyEntries (s : State) (ctx core trm : Nat) : List LogEntry → Nat → Nat × Bool × State
  | [], n => (n, false, s)
  | e :: rest, n =>
    match e.kind with
    | none => (n, true, s.logFault ctx core e.pos)
    | some (k, t) =>
      match s.entryPa ctx e.va (k == .tshr || k == .tdrop || k == .tseal) with
      | none => (n, true, s.deviceFault ctx core 69 0 [BitVec.ofNat 64 e.va])
      | some pa =>
        let u : Update :=
          { ctx := ctx, va := e.va, pa := pa, kind := k, t := t, operand := e.operand, compare := 0, tag := e.tag
            issuer := e.key.2.1, seq := e.key.2.2, quantum := 0, reply := none }
        if pa % (if t = .none then 64 else tyBytes t) ≠ 0 then (n, true, s.deviceFault ctx core 69 0 [BitVec.ofNat 64 e.va])
        else (s.applyUpdate core trm u).applyEntries ctx core trm rest (n + 1)

/-- The entries still to apply, in order: those that stored cursors do not count as applied. -/
def State.mergeOrder (s : State) (ctx core : Nat) : Nat × List LogEntry :=
  let (n, done) := ((s.space ctx core).cursors).getD (0, [])
  (n, sortBy (fun a b => updateBefore a.key b.key) ((s.logEntries ctx core).filter (fun e => !done.contains e.pos)))

/-- The cursors of a merge that stops: the applied count, and the entries applied (R397). -/
def State.storeCursors (s : State) (ctx core n : Nat) (applied : List LogEntry) : State :=
  s.modSpace ctx core (fun sp => { sp with cursors := some (n, (sp.cursors.getD (0, [])).2 ++ applied.map (·.pos)) })

/-- The updates of a context that a merge held are applied or settled after it (R282). -/
def State.releaseMerge (s : State) (ctx core : Nat) : State :=
  (s.cc ctx core).mergeHeld.foldl (fun s m =>
    let s := s.modCc ctx core (fun c => { c with mergeHeld := c.mergeHeld.erase m })
    match msgUpdate m with
    | some u => s.serveUpdate core m u
    | none => s) s

/-- The lines whose acknowledgement by the host the updates that a core held for a merge await (R406). -/
def State.heldOwes (s : State) (core : Nat) : List Nat :=
  s.coreCtxs.flatMap (fun e =>
    if e.1 % 8192 = core then
      e.2.mergeHeld.flatMap (fun m => match msgUpdate m with | some u => s.hostOwes u.pa 1 | none => [])
    else [])

/-- The updates that a core held for a merge, whatever their context, once none runs. -/
def State.releaseHeld (s : State) (core : Nat) : State :=
  if (s.core core).merging then s
  else
    s.coreCtxs.foldl
      (fun s e => if e.1 % 8192 = core ∧ e.2.mergeHeld ≠ [] then s.releaseMerge (e.1 / 8192) core else s) s

/-- A merge has ended, completed or stopped: the updates held for it follow (R282). -/
def State.endMerge (s : State) (core : Nat) : State := (s.modCore core (fun c => { c with merging := false })).releaseHeld core

/-- The slot whose `mrg` a core's merge tree serves: the running task's, or that of a task whose save waits for it (R397). -/
def State.merger (s : State) (core : Nat) : Option Nat :=
  let merges (i : Nat) : Bool := (s.task (core * 8 + i)).merges
  if !(s.core core).merging then none
  else match (s.core core).running with
    | some j => if merges j then some j else (List.range 7).find? merges
    | none => (List.range 7).find? merges

/-- MERGE_COMPLETE (R282): every entry is applied in order, the count is set to 0, and the `mrg` word retires with the number applied.
For a task that is being saved the current block of 64 entries is finished, the cursors are stored, and the save goes on (R397). It
waits for the host's acknowledgements (R406), migrating pages (R82) and filling slots (R92). -/
def execMergeComplete (core : Nat) (s : State) : Outc :=
  event (match s.merger core with
    | none => if s.heldOwes core = [] then s.releaseHeld core else (s.askHost (s.heldOwes core)).push (.mergeComplete core)
    | some slot =>
      let k := core * 8 + slot
      let t := s.task k
      let saves : Bool := match t.stat with | .saving _ => true | _ => false
      let (n, all) := s.mergeOrder t.ctx core
      let l := if saves then all.take 64 else all
      let holds := l.map (s.entryHolds t.ctx)
      let owed := holds.flatMap (·.1) ++ s.heldOwes core
      if owed ≠ [] ∨ holds.any (·.2) then (s.askHost owed).push (.mergeComplete core)
      else
        let (m, stopped, s) := s.applyEntries t.ctx core t.trm l n
        if stopped ∨ saves then ((s.storeCursors t.ctx core m (l.take (m - n))).endMerge core).trySave k
        else
          let s := s.modCc t.ctx core (fun c => { c with logCount := 0 })
          let s := s.modSpace t.ctx core (fun sp => { sp with cursors := none })
          let s := match t.wait with
            | .merge d => (s.completeWord k).modTask k (·.setReg d { v := BitVec.ofNat 64 m, tag := 0 })
            | _ => s
          s.endMerge core)

end Sys2Proof.Machine
end

