-- ==== Sys2Proof/Machine/Sync.lean ====
section
/-! DEFINITION. Atomic words, the log and merge, joins, fences, writer keys, lock elision, and the sequentially consistent
operations (R274 to R290). -/

namespace Sys2Proof.Machine

open Sys2Proof.Machine.Num

/-! ### Atomics (R274, R275) -/

/-- The target of an atomic: aligned, writable (and readable for a returning form), in HBM5 below MCAP, not versioned; at
level 2 a returning form is turned away. -/
def atomicTarget (p : Word) (n : Nat) (returning : Bool) : W (Nat × Nat × Nat) := do
  let a := vaOf p
  if a % n ≠ 0 then atomicFault 1
  let (pa, leaf) ← xlate a .store
  if returning then
    let _ ← xlate a .load
  if paKind pa ≠ .hbm ∨ !(← get).paOk pa then atomicFault 2
  if returning ∧ (← detLevel) = 2 then atomicFault 3
  checkPlainWrite leaf a
  return (a, pa, leaf)

/-- An update of the current task, its issuer and sequence still to be given at commit. -/
def newUpdate (a pa : Nat) (kind : UpdKind) (t : Ty) (b c : Word) (tag : Nat) : W Update := do
  return { ctx := (← curTask).ctx, va := a, pa := pa, kind := kind, t := t, operand := b, compare := c, tag := tag
           issuer := ← curCore, seq := 0, quantum := 0, reply := none }

/-- The message of an update to its owner. -/
def updateMessage (u : Update) (owner ts : Nat) : Message :=
  { svcMessage 2 owner u.ctx (.update u) with hdr := mkHdr ts false owner 2 7 0 0 }

/-- A returning atomic (R275): sent at issue, after the task's own `put`s to the owner's scratchpad (R308, note d), its reply placed in
ares in program order. A reply beyond the four words of ares waits
behind them (DEDUCED, log 114). -/
def returningAtomic (f : AFn) (x : AmoArg) (s : State) : Outc :=
  plain (do
    let p ← useWord (← readG x.a.val)
    let b ← readG x.b.val
    let c ← readG x.c.val
    let (a, pa, leaf) ← atomicTarget p (tyBytes x.t) true
    noteWrite pa
    nonReplayable true
    let owner := ownerOf leaf a
    if (← get).putsTo (← curKey) owner then exit (.hold false)
    let id ← issueLoad (.amo owner) 11 x.t a [(pa, tyBytes x.t)]
    let u ← newUpdate a pa (.amo f) x.t b.v c.v (minTag b.tag c.tag)
    let k ← curKey
    let t ← curTask
    modify (fun s => s.emit s.focus t.trm (updateMessage { u with reply := some (k, id) } owner t.ts))) s

def execAmoAdd (x : AmoArg) (s : State) : Outc := returningAtomic .add x s
def execAmoFadd (x : AmoArg) (s : State) : Outc := returningAtomic .fadd x s
def execAmoMin (x : AmoArg) (s : State) : Outc := returningAtomic .min x s
def execAmoMax (x : AmoArg) (s : State) : Outc := returningAtomic .max x s
def execAmoAnd (x : AmoArg) (s : State) : Outc := returningAtomic .and x s
def execAmoOr (x : AmoArg) (s : State) : Outc := returningAtomic .or x s
def execAmoXor (x : AmoArg) (s : State) : Outc := returningAtomic .xor x s
def execAmoSwap (x : AmoArg) (s : State) : Outc := returningAtomic .swap x s
/-- `amo.cas` (R274): the compare value is in C. -/
def execAmoCas (x : AmoArg) (s : State) : Outc := returningAtomic .cas x s

/-- A non-returning atomic (R275): buffered, one unit. -/
def bufferedAtomic (f : AFn) (x : AmoArg) (s : State) : Outc :=
  plain (do
    let p ← useWord (← readG x.a.val)
    let b ← readG x.b.val
    let (a, pa, leaf) ← atomicTarget p (tyBytes x.t) false
    noteWrite pa
    let u ← newUpdate a pa (.amo f) x.t b.v 0 b.tag
    buffer (.update u (keyedOf leaf)) 1) s

def execAmoNrAdd (x : AmoArg) (s : State) : Outc := bufferedAtomic .add x s
def execAmoNrFadd (x : AmoArg) (s : State) : Outc := bufferedAtomic .fadd x s
def execAmoNrMin (x : AmoArg) (s : State) : Outc := bufferedAtomic .min x s
def execAmoNrMax (x : AmoArg) (s : State) : Outc := bufferedAtomic .max x s
def execAmoNrAnd (x : AmoArg) (s : State) : Outc := bufferedAtomic .and x s
def execAmoNrOr (x : AmoArg) (s : State) : Outc := bufferedAtomic .or x s
def execAmoNrXor (x : AmoArg) (s : State) : Outc := bufferedAtomic .xor x s
def execAmoNrSwap (x : AmoArg) (s : State) : Outc := bufferedAtomic .swap x s

/-! ### The log (R280, R282) -/

/-- `logp` (R280): the control word is checked at issue. -/
def execLogp (x : G3) (s : State) : Outc :=
  plain (do
    let a ← readG x.a.val
    let b ← readG x.b.val
    let c ← readG x.c.val
    let f := c.v.toNat / 2 ^ 12 % 16
    let t := c.v.toNat / 2 ^ 8 % 16
    let ok := match afnOf f with
      | some g => t ≠ 15 && (tyOf t).isIn g.types
      | none => false
    if !ok ∨ c.v.toNat / 2 ^ 16 % 2 ^ 11 ≠ 0 ∨ c.v.toNat % 256 ≠ 0 then atomicFault 7
    buffer (.log (BitVec.ofNat 64 (vaOf a.v)) b.v c.v (minTag b.tag c.tag)) 1 a.tag) s

/-- `mrg` (R282): the stream stalls until MERGE_COMPLETE. -/
def execMrg (d : GReg) (s : State) : Outc :=
  runWord false (do
    checkSched d.val
    modify (fun s => (s.modCore s.focus (fun c => { c with merging := true })).push (.mergeComplete s.focus))
    holdWord (.merge d.val) false) s

/-! ### Joins (R283) -/

/-- The target of a join word: a line in HBM5. -/
def joinTarget (p : Tagged) : W (Nat × Nat × Nat) := do
  let p ← useWord p
  atomicTarget p 64 false

/-- `jset` (R283): the count and the header are control parts of the effect (R388). -/
def execJset (x : G3) (s : State) : Outc :=
  plain (do
    let (a, pa, leaf) ← joinTarget (← readG x.a.val)
    let b ← readG x.b.val
    let c ← readG x.c.val
    if b.v.toNat = 0 ∨ 2 ^ 31 ≤ b.v.toNat then atomicFault 5
    let u ← newUpdate a pa .jset .none b.v c.v 0
    buffer (.update u (keyedOf leaf)) 1 (minTag b.tag c.tag)) s

/-- `arr` (R283). -/
def execArr (a : GReg) (s : State) : Outc :=
  plain (do
    let (va, pa, leaf) ← joinTarget (← readG a.val)
    let u ← newUpdate va pa .join .none 0 0 0
    buffer (.update u (keyedOf leaf)) 1) s

/-! ### Fences (R284) -/

/-- The least fence that covers a target: 0 the hive, 1 the device, 2 the system. -/
def scopeOf (hive pa : Nat) : Nat :=
  match paKind pa with
  | .aperture c _ => if hiveOf c = hive then 0 else 1
  | .host | .peer => 2
  | _ => 1

/-- Whether an element of a `get` or `put` may have its target within a fence's scope: one of the hive window has, and so has one whose
page does not translate as the table stands. -/
def State.elementWithin (s : State) (core scope : Nat) (super : Bool) (g : GetPut) (i : Nat) : Bool :=
  let (r, missed) := s.elementSpan core super g i
  g.hw || !missed.isEmpty || r.any (fun p => decide (scopeOf (hiveOf core) p.1 ≤ scope))

/-- Whether an outstanding operation of the task has a target within a fence's scope; a command whose index list is not read yet may
have (R270). -/
def State.fenceHolds (s : State) (k scope : Nat) : Bool :=
  let t := s.task k
  let hv := hiveOf (k / 8)
  t.loads.any (fun l => match l.kind with
    | .amo o => decide ((if hiveOf o = hv then 0 else 1) ≤ scope)
    | .sc => l.parts.any (fun p => decide (scopeOf hv p.1 ≤ scope))
    | _ => false)
  || (s.core (k / 8)).gp.any (fun g => g.slot == k % 8 && !g.killed && (!g.known ||
    (List.range (g.idx.length - g.first)).any (fun i =>
      !g.landed.contains (g.first + i) && s.elementWithin (k / 8) scope t.super g (g.first + i))))

/-- A fence (R284): stalls until every earlier operation within its scope has been acknowledged. -/
def fence (scope : Nat) (s : State) : Outc :=
  plain (do
    if (← get).fenceHolds (← curKey) scope then exit (.hold false)) s

/-- `fence.h` (R284). -/
def execFenceH (s : State) : Outc := fence 0 s
/-- `fence.d` (R284). -/
def execFenceD (s : State) : Outc := fence 1 s
/-- `fence.s` (R284). -/
def execFenceS (s : State) : Outc := fence 2 s

/-! ### Writer keys (R285, R286) -/

/-- A region's key passes to a core or is released: descriptor w3, every hive's copy, and the key sets (R285). -/
def State.keyPass (s : State) (ctx region : Nat) (holder : Option Nat) : State :=
  let id := ctx * 4096 + region
  let old := s.region ctx region
  let s := s.modRegion ctx region (fun r =>
    { r with held := holder.isSome, holder := holder.getD r.holder })
  let s := if old.held then s.modCore old.holder (fun c => { c with keys := c.keys.filter (· != id) }) else s
  match holder with
  | some h => s.modCore h (fun c => { c with keys := c.keys ++ [id] })
  | none => s

/-- KEY_PASS_APPLY (R285). -/
def execKeyPassApply (ctx region : Nat) (holder : Option Nat) (s : State) : Outc :=
  event (match s.takeSvc (.keyPass ctx region holder) with
    | none => s.push (.keyPassApply ctx region holder)
    | some (some (core, m), s) => (s.keyPass ctx region holder).termDone core m
    | some (none, s) => s.keyPass ctx region holder)

/-- `kpass` (R285): the region and the holder are control parts (R388). -/
def execKpass (a b : GReg) (s : State) : Outc :=
  plain (do
    let x ← readG a.val
    let y ← readG b.val
    let r := x.v.toNat % 4096
    let keyFault : W Unit := trap fKey 0 [BitVec.ofNat 64 r]
    if 4096 ≤ x.v.toNat ∨ 2 ^ 14 ≤ y.v.toNat then keyFault
    let s ← get
    let t ← curTask
    let d := s.region t.ctx r
    if !d.valid then regionFault
    if t.commit.any (fun b => match b.eff with | .kpass r' _ => r' == r | _ => false) then keyFault
    let mine := (s.core s.focus).keys.contains (t.ctx * 4096 + r)
    if !mine ∧ !(t.super ∧ !d.held) then keyFault
    buffer (.kpass r (if y.v.getLsbD 13 then none else some (y.v.toNat % 8192))) 1 (minTag x.tag y.tag)) s

/-- `kqry` (R286). -/
def execKqry (d a : GReg) (s : State) : Outc :=
  plain (do
    let x ← readG a.val
    let s ← get
    let r := s.region (← curTask).ctx (x.v.toNat % 4096)
    writeG d.val
      { v := BitVec.ofNat 64 ((if r.held then 2 ^ 63 else 0) + r.holder), tag := x.tag } 4) s

/-! ### Lock elision (R287, R288) -/

/-- An elision that finds its lock held: the section opens and aborts with cause 2. -/
def Task.failElision (t : Task) (x : Section) : Task :=
  let t := { t with sect := some x, irc := t.irc + 1 }
  t.abortSection 2 0

/-- `lkel` (R287): the lock's line is read and tracked at once; a nonzero lock aborts with cause 2. The target must be a word's
address, as a jump's must (R140; DEDUCED, log 113). -/
def execLkel (a b : GReg) (s : State) : Outc :=
  runWord false (do
    let p ← useWord (← readG a.val)
    let q ← useWord (← readG b.val)
    if (← curTask).sect.isSome then exit (.abort 6 0)
    let target ← checkTarget (vaOf q : Int)
    let va := vaOf p
    if va % 8 ≠ 0 then atomicFault 1
    let ps ← xlateSpan va 8 .load
    ps.forM (fun p => checkRace p.leaf)
    let parts := ranges ps
    readInOrder parts
    (lineAddrs parts).forM noteRead
    let s ← get
    let t ← curTask
    let lock := overlay (s.readParts parts) (t.ownBytes parts)
    let x : Section :=
      { lines := (lineAddrs parts).map (· / 64), base := t.commit.length, target := target, closed := false
        dead := none }
    if ofBytes lock = 0 then
      modCur (fun t => { t with sect := some x })
      return .next
    else
      modCur (·.failElision x)
      return .stay) s

/-- `lkex` (R288): stops the tracking of new lines. -/
def execLkex (s : State) : Outc :=
  plain (modCur (fun t => { t with sect := t.sect.map (fun (x : Section) => { x with closed := true }) })) s

/-- `lkab` (R287): cause 4 with the code A[7:0]; without a section it does nothing. -/
def execLkab (a : GReg) (s : State) : Outc :=
  plain (do
    let x ← readG a.val
    if (← curTask).sect.isSome then exit (.abort 4 (x.v.toNat % 256))) s

/-! ### Sequentially consistent operations (R289, R290) -/

/-- Announces an operation on the waggle network. -/
def announce (op : ScOp) : W Unit := do
  let k ← curKey
  modify (fun s =>
    let s : State := { s with announce := s.announce ++ [{ core := k / 8, slot := k % 8, op := op, window := 0 }] }
    s.push .waggleWindow)

/-- An outstanding operation without a queue place. -/
def issueSc (t : Ty) (va pa : Nat) : W Nat := do
  let (id, s) := (← get).fresh
  set s
  modCur (fun x =>
    { x with loads := x.loads ++ [{ id := id, kind := .sc, fifo := 12, t := t, va := va, parts := [(pa, tyBytes t)]
                                    own := [], ownTag := 0, pc := x.pc, parked := false, sectioned := x.sect.isSome }] })
  return id

/-- The key check of `scst` at issue (R304). -/
def checkKeyNow (leaf : Nat) : W Unit := do
  let s ← get
  let t ← curTask
  if (s.ctx t.ctx).detlvl = 2 ∧ pteKey leaf ∧ !(s.core s.focus).keys.contains (t.ctx * 4096 + pteRegion leaf) then
    trap fKey 0 [BitVec.ofNat 64 (pteRegion leaf)]

/-- `scst` (R290). -/
def execScst (x : GStore) (s : State) : Outc :=
  plain (do
    let d ← readG x.d.val
    let (_, a) ← globalAddress x.base x.index x.scale.val x.off
    let (_, pa, leaf) ← atomicTarget (BitVec.ofNat 64 a) (tyBytes x.t) false
    checkKeyNow leaf
    let (v, fl) := storeValue x.t d.v
    let bs := bytesOf (tyBytes x.t) v
    checkEntries [(pa, bs)]
    noteWrite pa
    nonReplayable true
    buffer (.shadow pa bs d.tag) 0
    let id ← issueSc x.t a pa
    announce (.st id pa bs d.tag)
    flags fl 1) s

/-- `scld` (R290): its place in the queue is taken at issue. -/
def execScld (x : GLoad) (s : State) : Outc :=
  plain (do
    let (_, a) ← globalAddress x.base x.index x.scale.val x.off
    let n := tyBytes x.t
    if a % n ≠ 0 then atomicFault 1
    roomFor x.q.val
    let (pa, leaf) ← xlate a .load
    if paKind pa ≠ .hbm ∨ !(← get).paOk pa then atomicFault 2
    checkPlainWrite leaf a
    checkRace leaf
    awaitPuts
    checkBulk pa n
    rawSpinCheck [(pa, n)]
    noteRead pa
    nonReplayable true
    let id ← issueLoad .sc x.q.val x.t a [(pa, n)]
    announce (.ld id)) s

/-- `scamo` (R290). -/
def scAtomic (f : AFn) (x : AmoArg) (s : State) : Outc :=
  plain (do
    let p ← useWord (← readG x.a.val)
    let b ← readG x.b.val
    let c ← readG x.c.val
    let (a, pa, _) ← atomicTarget p (tyBytes x.t) true
    noteWrite pa
    nonReplayable true
    let id ← issueLoad .sc 11 x.t a [(pa, tyBytes x.t)]
    let u ← newUpdate a pa (.amo f) x.t b.v c.v (minTag b.tag c.tag)
    announce (.amo id u)) s

def execScamoAdd (x : AmoArg) (s : State) : Outc := scAtomic .add x s
def execScamoFadd (x : AmoArg) (s : State) : Outc := scAtomic .fadd x s
def execScamoMin (x : AmoArg) (s : State) : Outc := scAtomic .min x s
def execScamoMax (x : AmoArg) (s : State) : Outc := scAtomic .max x s
def execScamoAnd (x : AmoArg) (s : State) : Outc := scAtomic .and x s
def execScamoOr (x : AmoArg) (s : State) : Outc := scAtomic .or x s
def execScamoXor (x : AmoArg) (s : State) : Outc := scAtomic .xor x s
def execScamoSwap (x : AmoArg) (s : State) : Outc := scAtomic .swap x s
def execScamoCas (x : AmoArg) (s : State) : Outc := scAtomic .cas x s

/-- The first announcement of each core. -/
def firstByCore : List Nat → List Sc → List Sc
  | _, [] => []
  | seen, x :: rest => if seen.contains x.core then firstByCore seen rest else x :: firstByCore (x.core :: seen) rest

/-- The number of the waggle window of a cycle: windows of 8 cycles from cycle 0 (R289; log 22). -/
def windowOf (cyc : Nat) : Nat := cyc / 8

/-- The core from which window `w` takes announcements: the start advances by 32 each window (R289). -/
def windowStart (w : Nat) : Nat := w * 32 % 8192

/-- The first cycle in which an operation of window `w` may take effect: 96 cycles after the window (R289). -/
def effectCycle (w : Nat) : Nat := (w + 1) * 8 + 96

/-- WAGGLE_WINDOW (R289): at most one announcement per core and 32 in all, in core order from the window's start; they take
their places by core number. Each window announces once. -/
def execWaggleWindow (s : State) : Outc :=
  let w := windowOf s.cyc
  let first := firstByCore [] s.announce
  let fromStart (x : Sc) : Nat := (x.core + 8192 - windowStart w) % 8192
  let taken := (sortBy (fun a b => decide (fromStart a < fromStart b)) first).take 32
  let placed := (sortBy (fun a b => decide (a.core < b.core)) taken).map (fun (x : Sc) => { x with window := w })
  let s' : State := { s with
    announce := taken.foldl (fun l x => l.erase x) s.announce
    placed := s.placed ++ placed
    window := w + 1 }
  let s' := placed.foldl (fun s _ => s.push .scEffect) s'
  event (if s.announce = [] then s
    else if w < s.window then s.push .waggleWindow
    else if s'.announce = [] then s' else s'.push .waggleWindow)

/-- The bytes that an announced store or load reaches. -/
def State.scParts (s : State) (x : Sc) : List (Nat × Nat) :=
  match x.op with
  | .st _ pa bs _ => [(pa, bs.length)]
  | .ld id => ((s.findLoad id).map (·.parts)).getD []
  | .amo _ _ => []

/-- The bytes that an announced operation writes. -/
def scWrites (op : ScOp) : List (Nat × Nat) :=
  match op with
  | .st _ pa bs _ => [(pa, bs.length)]
  | .amo _ u => [(u.pa, tyBytes u.t)]
  | .ld _ => []

/-- SC_EFFECT (R289, R303): the operation at the head of the order takes effect at its place, 96 cycles after its window; a filling
slot under the aperture holds it back (R92), and a line of the host's window that the host has not given up (R406). -/
def execScEffect (s : State) : Outc :=
  event (match s.placed with
    | [] => s
    | x :: rest =>
      let owed := (scWrites x.op).flatMap (fun p => s.hostOwes p.1 p.2)
      if s.cyc < effectCycle x.window || s.portHeld (s.scParts x) then s.push .scEffect
      else if owed ≠ [] then (s.askHost owed).push .scEffect
      else
      let s := { s with placed := rest }
      let k := x.core * 8 + x.slot
      match x.op with
      | .st id pa bs tag => (s.writeSeen pa bs tag (.sc k)).deliver id (.word zeroT)
      | .ld id =>
        match s.findLoad id with
        | none => s
        | some l =>
          let (bs, tag) := s.loadBytes l
          let s := match s.loadSlot id with
            | some j => s.modTask j (fun t => t.spun (((l.parts.head?.map (fun (p : Nat × Nat) => p.1)).getD 0) / 64) bs)
            | none => s
          s.deliver id (.word { v := loadValue l.t (ofBytes bs), tag := tag })
      | .amo id u =>
        match u.kind with
        | .amo f =>
          let (old, s') := s.amoAt u.pa f u.t u.operand u.compare u.tag (.sc k)
          (s'.deliver id (.word old)).judgeEntries s u.ctx x.core [(u.pa, tyBytes u.t)]
        | _ => s)

end Sys2Proof.Machine
end

