-- ==== Sys2Proof/Machine/Commit.lean ====
section
/-! DEFINITION. The commit of a task (R293, R431): its conditions, the checks that can fail it, its effects, and `done`. -/

namespace Sys2Proof.Machine

open Sys2Proof.Machine.Num

/-! ### Conditions (R293) -/

/-- Whether every engine command, `get`, `put`, returning atomic and sequentially consistent operation of a task is
complete. -/
def State.commitReady (s : State) (k : Nat) : Bool :=
  let c := s.core (k / 8)
  let slot := k % 8
  (c.vq.of slot).isEmpty && (c.mq.of slot).isEmpty && (c.cq.of slot).isEmpty
    && !c.gp.any (fun g => g.slot == slot && !g.killed)
    && !(s.task k).loads.any (fun l => match l.kind with
      | .amo _ | .sc => true
      | _ => false)

/-! ### Tag entries (R336, R346, R347) -/

/-- Writes a tag entry; when its enable rises, the tag's held messages become eligible and pend clears. -/
def State.writeTag (s : State) (ctx core tag : Nat) (e : TagEntry) : State :=
  let old := s.tagEntry ctx core tag
  let rises := e.en && !old.en
  let s := s.modCc ctx core (fun c =>
    { c with
      tags := Tab.set .off c.tags tag { e with pend := if rises then false else old.pend }
      spill := if rises then
          c.spill.map (fun (p : Spilled) => if hdrTag p.m.hdr = tag then { p with held := false, waitFrom := s.cyc } else p)
        else c.spill })
  if rises && (s.cc ctx core).spill.any (fun (p : Spilled) => hdrTag p.m.hdr == tag) then s.push (.spillWake ctx core) else s

/-- The enable bits of a core as a mask. -/
def State.enMask (s : State) (ctx core : Nat) : Nat :=
  (List.range 64).foldl (fun m i => if (s.tagEntry ctx core i).en then m + 2 ^ i else m) 0

def State.pendMask (s : State) (ctx core : Nat) : Nat :=
  (List.range 64).foldl (fun m i => if (s.tagEntry ctx core i).pend then m + 2 ^ i else m) 0

/-- A `tagen` at commit. -/
def State.setEnables (s : State) (ctx core : Nat) (mask values : Word) : State :=
  (List.range 64).foldl
    (fun s i =>
      if mask.getLsbD i then s.writeTag ctx core i { s.tagEntry ctx core i with en := values.getLsbD i } else s) s

/-- The entry that `tsset` writes. -/
def tagEntryOf (entry control : Word) : TagEntry :=
  { entry := entry.toNat, en := control.getLsbD 15, prio := control.toNat / 2 ^ 12 % 8, bound := control.getLsbD 11
    pend := false, grp := control.toNat % 256 }

/-! ### Checks (R304, R278, R280, R56, R431) -/

/-- The region and program counter of a store that the writer keys judge. -/
def Buffered.keyedStore (b : Buffered) : Option (Nat × Nat) :=
  match b.eff with
  | .store _ _ _ _ k => k.map (fun r => (r, b.pc))
  | .stv _ _ _ _ _ _ k => k.map (fun r => (r, b.pc))
  | .update u k => match u.kind with
    | .amo _ => k.map (fun r => (r, b.pc))
    | _ => none
  | _ => none

/-- The first store whose region's key the core does not hold. -/
def State.keyFails (s : State) (core : Nat) (t : Task) : Option (Nat × Nat) :=
  if (s.ctx t.ctx).detlvl ≠ 2 then none
  else (t.commit.filterMap (·.keyedStore)).find? (fun x => !(s.core core).keys.contains (t.ctx * 4096 + x.1))

/-- Whether an update is one of R278. -/
def counted278 (u : Update) : Bool :=
  match u.kind with
  | .jset => false
  | _ => true

/-- The updates of a commit that R278 counts. -/
def Task.detUpdates (t : Task) : List Update :=
  t.commit.filterMap (fun b => match b.eff with
    | .update u _ => if counted278 u then some u else none
    | _ => none)

/-- Whether a core is a member of a group, by the group's bitmap in memory (R369). -/
def State.memberBit (s : State) (ctx g core : Nat) : Bool :=
  (s.byte ((s.group ctx g).bitmap + core / 8)).getLsbD (core % 8)

/-- The cause of the atomic fault that the deterministic updates raise, if any (R278). -/
def State.detFails (s : State) (core : Nat) (t : Task) : Option Nat :=
  let us := t.detUpdates
  if (s.ctx t.ctx).detlvl ≠ 2 ∨ us = [] then none
  else
    match s.mergeGroup t.ctx core with
    | none => some 6
    | some g =>
      if us.any (fun u => !s.memberBit t.ctx g (s.ownerAt t.ctx u.va)) then some 6
      else if 2 ^ 24 < (s.cc t.ctx core).updSeq + us.length then some 4
      else none

/-- The log entries of a commit. -/
def Task.logCount (t : Task) : Nat :=
  (t.commit.filter (fun b => match b.eff with | .log .. => true | _ => false)).length

/-- A line of versions that a commit creates: region, line address, physical line, its stores in program order as
(physical address, bytes, tag, e, virtual address, program counter). -/
structure VLine where
  region : Nat
  line : Nat
  stores : List (Nat × List Byte × Nat × Option Nat × Nat × Nat)
  deriving DecidableEq, Repr

/-- Adds a store to the lines of a commit, which stand in the order of their first store. -/
def addStv (l : List VLine) (region pa : Nat) (x : Nat × List Byte × Nat × Option Nat × Nat × Nat) : List VLine :=
  if l.any (fun v => v.line == pa / 64) then
    l.map (fun (v : VLine) => if v.line = pa / 64 then { v with stores := v.stores ++ [x] } else v)
  else l ++ [{ region := region, line := pa / 64, stores := [x] }]

def Task.versionLines (t : Task) : List VLine :=
  t.commit.foldl
    (fun l b => match b.eff with
      | .stv r va pa bs tag e _ => addStv l r pa (pa, bs, tag, e, va, b.pc)
      | _ => l) []

/-- The directory entry of a version line. -/
def State.vlineEntry (s : State) (ctx : Nat) (v : VLine) : Nat :=
  let r := s.region ctx v.region
  let va := (v.stores.head?.map (fun x => x.2.2.2.2.1)).getD 0
  r.dir + (va - r.base) / 64 * 16

/-- A version check that fails: cause, sub-cause, address, e, newest, floor, program counter. -/
structure VFail where
  cause : Nat
  sub : Nat
  va : Nat
  e : Nat
  newest : Nat
  floor : Nat
  pc : Nat
  deriving DecidableEq, Repr

/-- The checks of one line (R56, R431). -/
def State.vlineFails (s : State) (ctx : Nat) (v : VLine) : Option VFail :=
  let r := s.region ctx v.region
  let n := s.newest (s.vlineEntry ctx v)
  match v.stores with
  | [] => none
  | (_, _, _, e0, va, pc) :: _ =>
    if r.closed then some { cause := 3, sub := 1, va := va, e := e0.getD 0, newest := n, floor := r.floor, pc := pc }
    else if n = 2 ^ 32 - 1 then
      some { cause := 1, sub := 1, va := va, e := e0.getD 0, newest := n, floor := r.floor, pc := pc }
    else
      (v.stores.find? (fun x => match x.2.2.2.1 with | some e => e != n + 1 | none => false)).map (fun x =>
        { cause := 1, sub := 0, va := x.2.2.2.2.1, e := x.2.2.2.1.getD 0, newest := n, floor := r.floor
          pc := x.2.2.2.2.2 })

/-- The floor of a region after a commit's own `vfloor` words (R57). -/
def State.floorAfter (s : State) (t : Task) (region : Nat) : Nat :=
  t.commit.foldl
    (fun f b => match b.eff with
      | .vfloor r x => if r = region then Nat.max f x else f
      | _ => f) (s.region t.ctx region).floor

/-- The heap records that a commit needs. -/
def State.recordsNeeded (s : State) (t : Task) : Nat :=
  (t.versionLines.filter (fun v =>
    decide (s.floorAfter t v.region ≤ s.newest (s.vlineEntry t.ctx v)))).length

/-! ### Effects -/

/-- The words of an open node: every link OPEN, or w7 = 0 under pay = 1 (R350). -/
def nodeBytes (w0 : Word) : List Byte := bytesOf 8 w0.toNat ++ List.replicate 56 0

/-- The memory effects of a commit: stores and node lines in program order; a store through the scratchpad aperture is written
by the target's memory port (R263). -/
def State.commitStore (s : State) (k : Nat) (b : Buffered) : State :=
  match b.eff with
  | .store _ pa bs tag _ =>
    match paKind pa with
    | .aperture c off =>
      let (place, s) := s.fresh
      s.portAccess (k / 8) c off (some (bs, tag, place)) bs.length
    | _ => s.writeSeen pa bs tag (.commit k)
  | .node _ pa w0 _ => s.writeSeen pa (nodeBytes w0) 0 (.commit k)
  | _ => s

/-- A version line's creation. -/
def State.commitVersion (s : State) (k ctx : Nat) (v : VLine) : State :=
  let laid := v.stores.foldl
    (fun (l : List (Nat × Byte)) x =>
      (x.2.1.zipIdx.map (fun p => (x.1 % 64 + p.2, p.1))) ++ l.filter (fun o =>
        !(decide (x.1 % 64 ≤ o.1) && decide (o.1 < x.1 % 64 + x.2.1.length)))) []
  let tag := v.stores.foldl (fun t x => minTag t x.2.2.1) 0
  s.createVersion ctx v.region (s.vlineEntry ctx v) (v.line * 64) laid tag k

/-- A message of an ordered task to its own group is raised to the task's timestamp (R300). -/
def State.raiseTs (s : State) (k : Nat) (m : Message) : Message :=
  let t := s.task k
  match s.orderedGroup t with
  | none => m
  | some g =>
    let te := s.tagEntry t.ctx (hdrCore m.hdr) (hdrTag m.hdr)
    if !hdrFar m.hdr ∧ te.bound ∧ te.grp = g ∧ hdrTs m.hdr < t.ts then
      { m with hdr := mkHdr t.ts false (hdrCore m.hdr) (hdrTag m.hdr) (hdrPrio m.hdr) (hdrLen m.hdr) (hdrTrm m.hdr) }
    else m

/-- An update with its issuer, sequence and quantum (R278). -/
def State.stampUpdate (s : State) (core : Nat) (u : Update) : Update × State :=
  if (s.ctx u.ctx).detlvl = 2 ∧ counted278 u then
    let seq := (s.cc u.ctx core).updSeq
    let q := match s.mergeGroup u.ctx core with
      | some g => s.quantumOf u.ctx core g
      | none => 0
    ({ u with issuer := core, seq := seq, quantum := q }, s.modCc u.ctx core (fun c => { c with updSeq := seq + 1 }))
  else ({ u with issuer := core }, s)

/-- A child enters its reserved slot (R343); a core that cannot start its context now gives the slot up and keeps the message. -/
def State.startChild (s : State) (core trm : Nat) (m : Message) (dst slot : Nat) : State :=
  let m := { m with hdr := hdrLeaves m.hdr trm, src := core, dst := dst, deferred := false }
  let s := if counted' m.hdr then s.modTerm core trm (fun t => { t with out := t.out + 1 }) else s
  if s.canStart m.ctx ∧ s.canInstall m.ctx dst then
    let (m, s) := s.termArrive dst m
    (s.startTask dst slot m).select dst
  else (s.setTask (dst * 8 + slot) (s.task (dst * 8 + slot)).freed').push (.messageArrival m)

/-- A fibre is marked for its return (R79, R185). -/
def State.resumeFibre (s : State) (handle : Nat) : State :=
  let r := Tab.get .empty s.saved handle
  if r.state = 1 then
    ({ s with saved := Tab.set .empty s.saved handle { r with pending := true } }).fill r.core
  else s

/-- What the starting message of a killed fibre owes its region stays owed, since the fibre never commits (R429, R358; log 31). -/
def State.oweAck (s : State) (r : Saved) : State :=
  if r.task.start.any (fun m => m.deferred) then s.modTerm r.core r.task.trm (fun t => { t with owed := true }) else s

/-- The effects that leave the core. -/
def State.commitSend (s : State) (k : Nat) (t : Task) (b : Buffered) : State :=
  let core := k / 8
  let trm := t.trm
  match b.eff with
  | .update u _ =>
    let (u, s) := s.stampUpdate core u
    s.emit core trm (updateMessage u (s.ownerAt u.ctx u.va) t.ts)
  | .log e0 e1 e2 tag => s.logAppend t.ctx core e0 e1 e2 tag
  | .send m => s.emit core trm (s.raiseTs k m)
  | .child m dst slot => s.startChild core trm m dst slot
  | .kpass region holder => s.keyPass t.ctx region holder
  | .tagen mask values => s.setEnables t.ctx core mask values
  | .tsset tag entry control => s.writeTag t.ctx core tag (tagEntryOf entry control)
  | .gsync group hdr =>
    let s := if trm = 0 then s else s.modTerm core trm (fun r => { r with out := r.out + 1 })
    s.push (.gsyncArrival t.ctx (s.quantumOf t.ctx core group * 256 + group) core (hdrLeaves hdr trm))
  | .push r =>
    s.modSpace t.ctx core (fun sp =>
      { sp with deque := { ranges := sp.deque.ranges ++ [r], reserved := sp.deque.reserved - 1 } })
  | .fibreResume h => s.resumeFibre h
  | .fibreKill h =>
    if (Tab.get .empty s.saved h).state = 1 then
      let r := Tab.get .empty s.saved h
      ((s.oweAck r).killSaved h).termSettle r.core r.task.trm
    else s
  | .eret h 0 => s.eret h .retry
  | .eret h 1 => s.eret h .next
  | .eret h _ =>
    let r := Tab.get .empty s.saved h
    ((s.oweAck r).eret h .kill).termSettle r.core r.task.trm
  | .link l =>
    s.emit core trm (svcMessage 11 (s.ownerAt l.ctx ((l.hbase + 64 * l.bucket) % 2 ^ 57)) l.ctx (.link l))
  | .summary va isMax key =>
    s.emit core trm (svcMessage 2 (s.ownerAt t.ctx va) t.ctx (.summary t.ctx va isMax key))
  | _ => s

/-- The reservations of taken ranges come free (R356). -/
def State.releaseTaken (s : State) (ctx core : Nat) (x : Taken) : State :=
  if x.core = core then
    s.modSpace ctx core (fun sp => { sp with deque := { sp.deque with reserved := sp.deque.reserved - 1 } })
  else s.push (.entryRelease ctx x.core)

/-- A task-stamp record (R401): its contents are listed, its layout is not (log 9). -/
def State.taskStamp (s : State) (core : Nat) (t : Task) : State :=
  let ctx := t.ctx
  let c := s.ctx ctx
  let tag := match t.start with | some m => hdrTag m.hdr | none => 0
  let contents := [t.tid, t.cycEnq, t.cycStart, s.cyc, core, tag, t.failedSteals]
  let size := c.trctl.toNat / 2 ^ 40 % 2 ^ 23 * 1024
  if !c.trctl.getLsbD 63 ∨ size = 0 then s
  else
    let at' := c.trctl.toNat / 32 % 2 ^ 35 * 32 + c.trIndex % size * 32
    (s.writeMem at' ((List.range 32).map (Config.packByte contents)) 0).modCtx ctx (fun c =>
      { c with trIndex := (c.trIndex + 1) % size })

/-- A completion (R362): w2 is written to w1. -/
def State.complete (s : State) (w1 : Nat) (w2 : Word) : State :=
  if w1 = 0 then s else s.writeWord w1 w2

/-- A launch without a region completes with its task's commit (R362). -/
def State.endFlight (s : State) (id : Nat) : State :=
  match s.flights.find? (fun f => f.id == id) with
  | none => s
  | some f => ({ s with flights := s.flights.filter (fun x => x.id != id) }).complete f.w1 f.w2

/-- The slot of an ended task is free, and the next message or task takes it (R337, R345). Its words in flight land: one written to a
port still reaches the neighbour (R116). -/
def State.freeTask (s : State) (k : Nat) : State :=
  let s := s.landLate k
  let t := s.task k
  let s := s.withdraw t.ctx (t.loads.map (·.id))
  let s := (s.unrun k).setTask k (s.task k).freed'
  let s := s.modCore (k / 8) (fun c => { c with resident := if c.resident = some (k % 8) then none else c.resident })
  ((match t.start with
    | some m => s.termDone (k / 8) m
    | none => s).termSettle (k / 8) t.trm).fill (k / 8)

/-- Raises VHEAP at a core, once until free records rise above the threshold (R66, R67). -/
def State.raiseVheap (s : State) (k : Nat) : State :=
  let t := s.task k
  if (s.ctx t.ctx).vheapRaised then s
  else
    let prio := match t.start with
      | some m => (s.tagEntry t.ctx (k / 8) (hdrTag m.hdr)).prio
      | none => t.entryPrio
    (s.modCtx t.ctx (fun c => { c with vheapRaised := true })).upcallMessage (k / 8) t.ctx prio 2
      (versionRegs 4 0 0 0 0 0 t.pc t.tid)

/-- A FAILED COMMIT (R56, R345): none of its effects takes place, its undo log is rolled back, and its starting message is not
redelivered; for termination it is a commit that sent nothing. `deliver` posts the trap, and the slot stays taken until the
handler has started (log 34). -/
def State.failCommit (s : State) (k : Nat) (deliver : State → State) : State :=
  let s := s.landLate k
  let t := s.task k
  let core := k / 8
  let s := (s.dropTask core t).modSpace t.ctx core (fun sp => sp.rollback t.undo)
  let s := (s.unrun k).setTask k t.failed
  let s := s.modCore core (fun c => { c with resident := if c.resident = some (k % 8) then none else c.resident })
  let s := match t.start with
    | some m => s.termDone core m
    | none => s
  (deliver (s.termSettle core t.trm)).select core

/-- Whether the node at `pa` was laid within the limits of R313. -/
def State.laidHeader (s : State) (va pa : Nat) : Bool :=
  let h := s.nodeWord pa 0
  headerOk va h && !hCons h && hHcnt h == hArity h

/-- Whether port `p` of a node is laid as R316 asks: linked to a slot of another node of the same commit, with both ends written,
two principal slots with the commit's `meet`; the principal slot may be OPEN. -/
def State.laidLink (s : State) (t : Task) (mine : List (Nat × Nat)) (va pa p : Nat) : Bool :=
  let l := lnkOf (s.nodeWord pa (p + 1))
  if l.kind = kOpen then p == 0
  else
    l.kind == kPort && match mine.find? (fun x => x.1 == nodeOf l.addr) with
    | none => false
    | some (va2, pa2) =>
      let back := lnkOf (s.nodeWord pa2 (l.addr % 8 + 1))
      va2 != va && portOk (s.nodeWord pa2 0) l.addr && back.kind == kPort && back.addr == va + p
        && (p != 0 || l.addr % 8 != 0 || t.commit.any (fun b => match b.eff with
          | .send m => m.svc == .meet t.ctx (Nat.min va va2) (Nat.max va va2)
          | _ => false))

/-- The words of a commit's new nodes that it laid otherwise than R313 and R316 ask: header and link words. -/
def State.laidWrong (s : State) (t : Task) : List (Nat × Nat) :=
  let mine := t.commit.filterMap (fun b => match b.eff with | .node va pa _ _ => some (va, pa) | _ => none)
  mine.flatMap (fun x =>
    let h := s.nodeWord x.2 0
    let ports := Nat.min (hArity h) (if hPay h then 5 else 6) + 1
    (if s.laidHeader x.1 x.2 then [] else [(t.ctx, x.1 / 8)])
      ++ ((List.range ports).filter (fun p => !s.laidLink t mine x.1 x.2 p)).map (fun p => (t.ctx, x.1 / 8 + p + 1)))

/-- After a commit's stores its new nodes are the relink handler's, and the words laid wrong are noted (R313, R316). -/
def State.layNodes (s : State) (t : Task) : State :=
  let nodes := t.commit.filterMap (fun b => match b.eff with | .node va _ _ _ => some (t.ctx, va) | _ => none)
  if nodes = [] then s
  else
    { s with
      nodeLines := s.nodeLines.filter (fun l => !nodes.contains l) ++ nodes
      netMarks := s.netMarks.filter (fun w => !nodes.contains (w.1, w.2 / 8 * 64)) ++ s.laidWrong t }

/-- The tagged lines of main memory that the stores of a commit fill whole: they take the tag of what is written alone (R387). -/
def State.wholeLines (s : State) (t : Task) : List Nat :=
  let stores := t.commit.filterMap (fun b => match b.eff with | .store _ pa bs _ _ => some (pa, bs.length) | _ => none)
  let tagged := (stores.map (fun p => p.1 / 64)).dedup.filter (fun l => Tab.get 0 s.lineTags l != 0)
  tagged.filter (fun l => (List.range 64).all (fun i =>
    stores.any (fun p => decide (p.1 ≤ l * 64 + i) && decide (l * 64 + i < p.1 + p.2))))

/-- What a commit changes in memory: the floors, the stores, the nodes, the versions, the closings. Stores to host memory and peer
windows land and are acknowledged with the others (R307; DEDUCED, log 124). -/
def State.commitMemory (s : State) (k : Nat) (t : Task) : State :=
  let s := t.commit.foldl
    (fun (s : State) b => match b.eff with | .vfloor r f => s.raiseFloor t.ctx r f | _ => s) s
  let s : State := { s with lineTags := (s.wholeLines t).foldl (fun l i => Tab.set 0 l i 0) s.lineTags }
  let s := (t.commit.foldl (fun (s : State) b => s.commitStore k b) s).layNodes t
  let s := t.versionLines.foldl (fun (s : State) v => s.commitVersion k t.ctx v) s
  t.commit.foldl (fun (s : State) b => match b.eff with | .vclose r => s.closeRegion t.ctx r | _ => s) s

/-- What follows a commit before which `free` records were free: VHEAP when it crossed the threshold (R66), the count, the task
stamp, the launch's completion, the free slot. -/
def State.commitEnd (s : State) (k : Nat) (t : Task) (free : Nat) : State :=
  let core := k / 8
  let thr := (s.ctx t.ctx).heapThreshold
  let low := decide (thr ≤ free) && decide ((s.ctx t.ctx).freeRecs < thr)
  let s := if low then s.raiseVheap k else s
  let s := (s.pmcEvent core 6 1).taskStamp core t
  let s := match t.start.bind (fun m => m.flight) with
    | some id => s.endFlight id
    | none => s
  s.freeTask k

/-- THE COMMIT POINT (R293): memory; then what leaves the core, in program order; the undo log goes, the slot is free. -/
def State.commitPoint (s : State) (k : Nat) : State :=
  let t := s.task k
  let core := k / 8
  let free := (s.ctx t.ctx).freeRecs
  let s := s.commitMemory k t
  let s := t.commit.foldl (fun (s : State) b => s.commitSend k t b) s
  let s := t.taken.foldl (fun (s : State) x => s.releaseTaken t.ctx core x) s
  let s := s.commitEnd k t free
  if (s.ctx t.ctx).detlvl = 0 then s
  else (s.memberGroups t.ctx core).foldl (fun (s : State) g => s.push (.quantumEnd t.ctx g core)) s

/-- What killed an open or closed section of a task (R287). -/
def Task.deadSection (t : Task) : Option (Nat × Nat) := t.sect.bind (·.dead)

/-- The lines of the host's window that a commit writes and the host has not acknowledged (R406). -/
def State.commitOwes (s : State) (t : Task) : List Nat :=
  t.commit.flatMap (fun b => match b.eff with
    | .store _ pa bs _ _ => s.hostOwes pa bs.length
    | .stv _ _ pa bs _ _ _ => s.hostOwes pa bs.length
    | .node _ pa _ _ => s.hostOwes pa 64
    | _ => [])

/-- Judges a commit and performs it (R431), every other condition holding: an abort of the section that has come (R288), poisoned
control parts (R388), then the checks in order, then the records, then the host's acknowledgement of the lines of its window (R406).
A `done` counts as retired when its commit is decided (R373). -/
def State.commitTask (s : State) (k : Nat) : State :=
  match (s.task k).deadSection with
  | some (cause, code) => s.abortSection k cause code
  | none =>
  let t := s.task k
  let core := k / 8
  let hv := hiveOf core
  let poison := t.commit.foldl (fun g b => minTag g b.control) 0
  let entry (code cause pc : Nat) (items : List Word) : RingEntry :=
    ringEntry code cause core (k % 8) t.ctx 0 t.tid pc 0 items
  if poison ≠ 0 then s.poisonKill k poison
  else
    match s.keyFails core t, s.detFails core t with
    | some (r, pc), _ =>
      (s.failCommit k (fun s => s.postOrKeep hv (entry fKey 0 pc [BitVec.ofNat 64 r]) core)).countWord core t
    | none, some cause =>
      (s.failCommit k (fun s => s.postOrKeep hv (entry fAtomic cause t.pc []) core)).countWord core t
    | none, none =>
      let cc := s.cc t.ctx core
      if cc.logCap < cc.logCount + t.logCount ∧ t.logCount ≠ 0 then
        (s.modCc t.ctx core (fun c => { c with logFull := true })).takeTrap k 67 0 0
          [BitVec.ofNat 64 (cc.logAt 0), BitVec.ofNat 64 cc.logCount]
      else
        match t.versionLines.findSome? (s.vlineFails t.ctx) with
        | some f =>
          (s.failCommit k (fun s => s.upcallMessage core t.ctx t.entryPrio 2
            (versionRegs f.cause f.sub f.va f.e f.newest f.floor f.pc t.tid))).countWord core t
        | none =>
          if (s.ctx t.ctx).lacksRecs (s.recordsNeeded t) then
            (s.modTask k (fun t => { t with stat := .committing })).raiseVheap k
          else if s.commitOwes t ≠ [] then
            (s.modTask k (fun t => { t with stat := .committing })).askHost (s.commitOwes t)
          else (s.commitPoint k).countWord core t

/-! ### Ordered groups (R300, R301) -/

/-- Whether a message goes to an ordered group: its route tag, which starts user tasks, is bound to the group (R300). -/
def State.goesTo (s : State) (ctx g : Nat) (m : Message) : Bool :=
  let te := s.tagEntry ctx m.dst (hdrTag m.hdr)
  m.ctx == ctx && userTag (hdrTag m.hdr) && te.bound && te.grp == g

/-- Whether a task is an uncommitted ordered task of a group, a killed one whose message is to come again among them. -/
def State.inGroup (s : State) (ctx g : Nat) (t : Task) : Bool :=
  t.ctx == ctx && t.stat != .free && t.stat != .killing .gone && s.orderedGroup t == some g

/-- The messages that a core has not taken yet: spilled, returned, collected, on their way, or a meet about to be delivered. -/
def State.undelivered (s : State) (ctx g : Nat) : List Message :=
  s.coreCtxs.flatMap (fun p => p.2.spill.map (·.m)) ++ s.cores.flatMap (fun p => p.2.bounced.map (·.m))
    ++ (s.group ctx g).collected.filterMap (fun p => match p.2 with | .msg m => some m | _ => none)
    ++ s.pending.filterMap (fun e => match e with
      | .messageArrival m | .messageBounce m | .meetDelivery m _ _ => some m
      | _ => none)

/-- The lowest of timestamps. -/
def lowestTs (l : List Nat) : Option Nat :=
  l.foldl (fun a ts => some (match a with | some x => Nat.min x ts | none => ts)) none

/-- The lowest timestamp of a group's uncommitted ordered tasks and undelivered messages: what one window reports (R300). -/
def State.horizonReport (s : State) (ctx g : Nat) : Option Nat :=
  lowestTs (((s.tasks.filter (fun p => s.inGroup ctx g p.2)).map (·.2.ts))
    ++ ((s.saved.filter (fun p => s.inGroup ctx g p.2.task)).map (·.2.task.ts))
    ++ (((s.undelivered ctx g).filter (s.goesTo ctx g)).map messageTs))

/-- HORIZON_WINDOW (R300): a report takes effect 96 cycles after its window, the horizon never falling; then the members report
again. A window in which no member has anything to report changes nothing (log 22). -/
def execHorizonWindow (ctx group : Nat) (s : State) : Outc :=
  let key := ctx * 256 + group
  event (match Tab.get none s.horizonReports key with
    | some (at', v) =>
      if s.cyc < effectCycle (windowOf at') then s.push (.horizonWindow ctx group)
      else
        let h := Nat.max (s.group ctx group).horizon v
        let s := s.modGroup ctx group (fun g => { g with horizon := h })
        let s := s.writeMem (((s.ctx ctx).gtbase.toNat / 2 ^ 14 % 2 ^ 26) * 2 ^ 14 + group * 64 + 32) (bytesOf 4 h) 0
        { s with horizonReports := Tab.set none s.horizonReports key none }
    | none =>
      match s.horizonReport ctx group with
      | none => s
      | some v =>
        ({ s with horizonReports := Tab.set none s.horizonReports key (some (s.cyc, v)) } : State).push
          (.horizonWindow ctx group))

/-- Aborts an ordered task: a kill without a fault, its message redelivered unmarked (R301). -/
def State.orderedAbort (s : State) (k : Nat) : State := s.killTask k (.redeliver none)

/-- Whether a task of a group loses against a write signature: a later timestamp and a shared bit (R301). -/
def State.loses (s : State) (t : Task) (g : Nat) (x : Task) : Bool :=
  x.ctx == t.ctx && s.orderedGroup x == some g && decide (t.ts < x.ts) && (x.rsig &&& t.wsig) != 0

/-- The tasks of a group that a write signature aborts: a later timestamp and a shared bit. -/
def State.conflicting (s : State) (k : Nat) (t : Task) (g : Nat) : List Nat :=
  (s.tasks.filter (fun p => p.1 != k && p.2.stat != .free && !p.2.stat.dying && s.loses t g p.2)).map (·.1)

/-- The saved ordered tasks of a group that a write signature aborts. -/
def State.conflictingSaved (s : State) (t : Task) (g : Nat) : List Nat :=
  (s.saved.filter (fun p => s.loses t g p.2.task)).map (·.1)

/-- ORDERED_SIGNATURE_CHECK (R301): the write signature of a task at its `done` reaches every member hive, the conflicting
tasks are aborted, and the commit point follows. -/
def execOrderedSignatureCheck (core slot : Nat) (s : State) : Outc :=
  let k := core * 8 + slot
  let t := s.task k
  event (if t.wait ≠ .signature then s else
    match s.orderedGroup t with
    | none => s
    | some g =>
      let hit := s.conflicting k t g
      let saved := s.conflictingSaved t g
      let s := hit.foldl (fun s j => s.orderedAbort j) s
      let s := saved.foldl
        (fun s h =>
          let r := Tab.get .empty s.saved h
          ((s.killSaved h).redeliver r.core r.task none).fill r.core) s
      (s.modTask k (fun t => { t with wait := .none })).commitTask k)

/-- VERSION_RECORDS_FREED (R66): after a release that waits, commits that wait for records are judged again, in the order of
their slots (log 118). -/
def execVersionRecordsFreed (ctx n : Nat) (s : State) : Outc :=
  let _ := n
  let s := s.stepRelease ctx
  event (s.tasks.foldl
    (fun s p =>
      if (s.task p.1).stat = .committing ∧ (s.task p.1).ctx = ctx then
        (s.modTask p.1 (fun t => { t with stat := .running })).commitTask p.1
      else s) s)

/-- BACK_INVALIDATION_ACK (R406): the host has acknowledged a line; the commits that wait for it are judged again, and a line whose
acknowledgement one of them has used is asked for again. -/
def execBackInvalidationAck (line : Nat) (s : State) : Outc :=
  event (if !s.backInvals.contains line then s
    else
      let s : State := { s with backInvals := s.backInvals.erase line, invalAcked := s.invalAcked ++ [line] }
      s.tasks.foldl
        (fun s p =>
          if (s.task p.1).stat = .committing ∧ s.commitOwes (s.task p.1) = [] then
            (s.modTask p.1 (fun t => { t with stat := .running })).commitTask p.1
          else if (s.task p.1).stat = .committing then s.askHost (s.commitOwes (s.task p.1))
          else s) s)

/-! ### `done` (R344, R345) -/

/-- An inline child's `done` (R344): the parent is restored, 1 in its D, at the word after its `spawn`. Its FSTAT is that of the `spawn`:
what its engine commands raised meanwhile went to the child's (R122; DESIGN CHOICE, log 137). -/
def Task.endInline (t : Task) (f : Frame) (rest : List Frame) : Task :=
  let t := { t with
    g := f.g, q := (List.range 12).foldl
      (fun q i => Tab.set [] q i (if i < 8 then Tab.get [] f.q i else Tab.get [] t.q i)) []
    fstat := f.fstat, loops := f.loops, cc := f.cc, inl := rest, sched := [] }
  t.setReg f.d { v := 1, tag := 0 }

/-- What `done` and `eret` do at a task's end: the commit conditions, stage C for stores to the host's memory (R412), the ordered
group's, then the commit. -/
def endTask : W Unit := do
  let s ← get
  let k ← curKey
  let t ← curTask
  if !s.commitReady k then
    match s.storeStall (k / 8) with
    | some g => exit (.stall (some g))
    | none => exit (.hold false)
  if t.commit.any (fun b => match b.eff with | .store _ pa _ _ _ => s.cacheWaits pa | _ => false) then exit (.hold false)
  match s.orderedGroup t with
  | some g =>
    if (s.group t.ctx g).horizon < t.ts then exit (.hold false)
    set ((s.modTask k (fun t => { t with wait := .signature })).push (.orderedSignatureCheck (k / 8) (k % 8)))
  | none => modify (fun s => s.commitTask k)

/-- `done` (R345). -/
def execDone (s : State) : Outc :=
  runWord true (do
    let t ← curTask
    match t.inl with
    | f :: rest =>
      let k ← curKey
      modify (fun s => s.landLate k)
      modCur (·.endInline f rest)
      return .jump f.pc
    | [] =>
      endTask
      return .stay) s

end Sys2Proof.Machine
end

