-- ==== Sys2Proof/Machine/Tasks.lean ====
section
/-! DEFINITION. Sending, spawning, route tags and group barriers (R340 to R348). -/

namespace Sys2Proof.Machine

open Sys2Proof.Machine.Num

/-! ### Headers (R333, R340) -/

/-- A message fault with its cause. -/
def messageFault {α : Type} (cause : Nat) : W α := trap fMessage cause

/-- Whether the fabric has a route to a device. -/
def State.hasRoute (s : State) (dev : Nat) : Bool :=
  dev == 0x7FFF || dev == s.devid || Tab.get [] s.routes dev != []

/-- The checks of a header's length and register run (R340). -/
def checkLength (h : Word) (run : Nat) : W Unit := do
  if 8 < hdrLen h then messageFault 1
  if run ≠ 0 ∧ hdrLen h ≠ 0 ∧ 63 < run + hdrLen h - 1 then messageFault 2

/-- The checks of a header, the lowest cause first: length and register run, tag, far, trm (R340). -/
def checkHeader (h : Word) (run : Nat) (tagged far : Bool) : W Unit := do
  let s ← get
  let t ← curTask
  checkLength h run
  let tag := hdrTag h
  if tagged ∧ (tag = 0 ∨ tag = 15 ∨ (!t.super ∧ tag < 15)) then messageFault 3
  if far ∧ hdrFar h ∧ (h.toNat / 2 ^ 47 ≠ 0 ∨ !s.hasRoute (hdrTs h % 2 ^ 15)) then messageFault 4
  if hdrTrm h ≠ 0 then messageFault 5

/-- The priority with which a header is sent: a user-mode 7 is sent as 6. -/
def sentPrio (t : Task) (h : Word) : Nat := if !t.super ∧ hdrPrio h = 7 then 6 else hdrPrio h

/-- The payload registers from `first` on: zeros from g0. -/
def payload (first n : Nat) : W (List Tagged) :=
  if first = 0 then return List.replicate n zeroT else (List.range n).mapM (fun i => readG (first + i))

/-- A message of the current task. -/
def taskMessage (h : Word) (pay : List Tagged) : W Message := do
  return { hdr := h, src := ← curCore, dst := hdrCore h, ctx := (← curTask).ctx, payload := pay, svc := .task
           entry := none, mark := none, tid := none, deferred := false, flight := none }

/-- Commit-buffer units of a message of `n` words behind its header. -/
def messageUnits (n : Nat) : Nat := (n + 4) / 4

/-- `send` (R342). -/
def execSend (a b : GReg) (s : State) : Outc :=
  plain (do
    let h ← readG a.val
    checkHeader h.v b.val true true
    let pay ← payload b.val (hdrLen h.v)
    let t ← curTask
    let h' := mkHdr (hdrTs h.v) (hdrFar h.v) (hdrCore h.v) (hdrTag h.v) (sentPrio t h.v) (hdrLen h.v) 0
    buffer (.send (← taskMessage h' pay)) (messageUnits (hdrLen h.v)) h.tag) s

/-- `sendo` (R342): to the owning core of C's line. -/
def execSendo (a b c : GReg) (s : State) : Outc :=
  plain (do
    let h ← readG a.val
    checkHeader h.v b.val true false
    let pay ← payload b.val (hdrLen h.v)
    let p ← useWord (← readG c.val)
    let (_, leaf) ← xlate (vaOf p) .load
    let t ← curTask
    let h' := mkHdr (hdrTs h.v) false (ownerOf leaf (vaOf p)) (hdrTag h.v) (sentPrio t h.v) (hdrLen h.v) 0
    buffer (.send (← taskMessage h' pay)) (messageUnits (hdrLen h.v)) h.tag) s

/-! ### Spawning (R343, R344) -/

/-- `spawn` (R343): the slot request goes to the target, or to its hive's task queue; the word awaits the answer. A nonzero
tag is cause 3, far = 1 is cause 4 (log 23). -/
def execSpawn (x : GD3) (s : State) : Outc :=
  runWord true (do
    let h ← useWord (← readG x.a.val)
    let e ← useWord (← readG x.b.val)
    checkLength h x.c.val
    if hdrTag h ≠ 0 then messageFault 3
    if hdrFar h then messageFault 4
    if hdrTrm h ≠ 0 then messageFault 5
    if e.toNat % 8 ≠ 0 ∨ 2 ^ 57 ≤ e.toNat then messageFault 6
    checkSched x.d.val
    let pay ← payload x.c.val (hdrLen h)
    checkUnits (messageUnits (hdrLen h + 1))
    let t ← curTask
    let m ← taskMessage (mkHdr (t.spawns % 2 ^ 32) false (hdrCore h) 14 (sentPrio t h) (hdrLen h) 0) pay
    let m := { m with entry := some e.toNat }
    let k ← curKey
    modify (fun s =>
      match (if (s.ctx t.ctx).detlvl = 0 then none else s.sharedGroup t.ctx s.focus m.dst) with
      | some g => s.collect t.ctx s.focus g (s.quantumOf t.ctx s.focus g) (.spawn (k / 8) (k % 8) m)
      | none => s.push (.spawnSlotRequest (k / 8) (k % 8) m))
    holdWord (.spawn x.d.val m) true) s

/-- Whether a target takes a child: a free user slot, its context able to start there, and no eligible message of the same or
higher priority waiting. -/
def State.acceptsChild (s : State) (m : Message) : Bool :=
  (s.freeSlot m.dst).isSome && s.canStart m.ctx && s.canInstall m.ctx m.dst
    && !(s.cc m.ctx m.dst).spill.any (fun p => s.eligible m.dst p && decide (hdrPrio m.hdr ≤ p.level))

/-- SPAWN_SLOT_REQUEST (R343): the target reserves its lowest free slot, or refuses. The reserved slot keeps the child's
message and the parent's identifier. -/
def State.slotRequest (s : State) (parent slot : Nat) (m : Message) : State :=
  let t := s.task (parent * 8 + slot)
  match t.wait with
  | .spawn _ m' =>
    if m' ≠ m then s
    else if s.acceptsChild m then
      match s.freeSlot m.dst with
      | some sl =>
        let s := s.install m.ctx m.dst
        let k := m.dst * 8 + sl
        let s := s.setTask k
          { (s.task k).freed' with stat := .reserved, ctx := m.ctx, tid := t.tid, start := some m }
        s.push (.spawnAnswer parent slot true)
      | none => s.push (.spawnAnswer parent slot false)
    else s.push (.spawnAnswer parent slot false)
  | _ => s

def execSpawnSlotRequest (parent slot : Nat) (m : Message) (s : State) : Outc := event (s.slotRequest parent slot m)

/-- An inline child (R344): the parent's registers are put aside, the child starts at its entry; its header names the parent's
region, as that of an accepted child does. -/
def Task.startInline (t : Task) (d core : Nat) (m : Message) : Task :=
  let f : Frame :=
    { g := t.g, q := t.q.filter (fun p => decide (p.1 < 8)), fstat := t.fstat, loops := t.loops, cc := t.cc
      pc := t.pc, d := d }
  { t with
    inl := f :: t.inl, g := startRegs { m with src := core, hdr := hdrLeaves m.hdr t.trm }, q := t.q.filter (fun p => decide (8 ≤ p.1))
    fstat := 0, loops := [], cc := [], velem := none, sched := [], pc := m.entry.getD 0 }

/-- The slot that a target reserved for a child. -/
def State.reservedSlot (s : State) (m : Message) (tid : Nat) : Option Nat :=
  (List.range 7).find? (fun i =>
    let x := s.task (m.dst * 8 + i)
    x.stat == .reserved && x.tid == tid && x.start == some m)

/-- A reserved slot is given up. -/
def State.releaseSlot (s : State) (k : Nat) : State := (s.setTask k (s.task k).freed').fill (k / 8)

/-- The answer reaches the parent's word: D, and the child buffered, inline, or sent (R343, R344). -/
def State.spawnAnswer (s : State) (k d : Nat) (m : Message) (accepted : Bool) : State :=
  let t := s.task k
  let units := messageUnits (hdrLen m.hdr + 1)
  let keep (t : Task) (e : Effect) : Task :=
    { t with commit := t.commit ++ [{ eff := e, units := units, pc := t.pc, control := 0 }], spawns := t.spawns + 1 }
  let z (n : Nat) : Tagged := { v := BitVec.ofNat 64 n, tag := 0 }
  if accepted then
    match s.reservedSlot m t.tid with
    | some sl => ((s.modTask k (fun t => keep t (.child m m.dst sl))).completeWord k).modTask k (·.setReg d (z 0))
    | none => s
  else if t.inl.length < 4 then
    (((s.landLate k).modTask k (fun t => { t with spawns := t.spawns + 1 })).completeWord k).modTask k (·.startInline d (k / 8) m)
  else ((s.modTask k (fun t => keep t (.send m))).completeWord k).modTask k (·.setReg d (z 2))

/-- Reserved slots of a core whose parent no longer waits for them are given up. -/
def State.dropReserved (s : State) (ctx : Nat) : State :=
  let wanted (m : Message) (tid k : Nat) : Bool :=
    s.tasks.any (fun p => p.2.tid == tid && p.2.ctx == m.ctx && (p.2.wait != .none ||
      p.2.commit.any (fun b => match b.eff with | .child _ c sl => c * 8 + sl == k | _ => false)))
    || s.saved.any (fun p => p.2.task.tid == tid && p.2.task.ctx == m.ctx &&
      p.2.task.commit.any (fun b => match b.eff with | .child _ c sl => c * 8 + sl == k | _ => false))
  s.tasks.foldl
    (fun s p =>
      match p.2.stat, p.2.start with
      | .reserved, some m => if p.2.ctx = ctx ∧ !wanted m p.2.tid p.1 then s.releaseSlot p.1 else s
      | _, _ => s) s

/-- SPAWN_ANSWER (R343): an answer for a task that no longer waits gives its slot up. -/
def execSpawnAnswer (core slot : Nat) (accepted : Bool) (s : State) : Outc :=
  let k := core * 8 + slot
  event (match (s.task k).wait with
    | .spawn d m => (s.spawnAnswer k d m accepted).trySave k
    | _ => s.dropReserved (s.task k).ctx)

/-! ### Route tags (R346, R347) -/

/-- `tagen` (R346): D is the mask of enables as committed, with this task's earlier `tagen` words applied. -/
def execTagen (d a b : GReg) (s : State) : Outc :=
  plain (do
    let m ← readG a.val
    let v ← readG b.val
    let t ← curTask
    if m.v.toNat % 65536 ≠ 0 then supervisorOnly 0x63 none
    let s ← get
    let old := t.commit.foldl
      (fun (x : Word) e => match e.eff with
        | .tagen m v => (x &&& ~~~m) ||| (v &&& m)
        | _ => x) (BitVec.ofNat 64 (s.enMask t.ctx s.focus))
    buffer (.tagen m.v v.v) 1
    writeG d.val { v := old, tag := 0 } 1) s

/-- `tagp` (R346). -/
def execTagp (d : GReg) (s : State) : Outc :=
  plain (do
    let s ← get
    writeG d.val { v := BitVec.ofNat 64 (s.pendMask (← curTask).ctx s.focus), tag := 0 } 1) s

/-- `tsset` (R347): the entry address is a control part (R388). -/
def execTsset (x : G3) (s : State) : Outc :=
  plain (do
    let a ← readG x.a.val
    let b ← readG x.b.val
    let c ← readG x.c.val
    let t ← curTask
    let tag := a.v.toNat % 64
    if (!t.super ∧ tag < 16) ∨ c.v.toNat / 65536 ≠ 0 ∨ c.v.toNat / 512 % 4 ≠ 0 ∨ c.v.toNat / 4096 % 8 = 7
        ∨ 64 ≤ a.v.toNat ∨ b.v.toNat % 8 ≠ 0 ∨ 2 ^ 57 ≤ b.v.toNat then messageFault 7
    buffer (.tsset tag b.v c.v) 1 b.tag) s

/-! ### Group barriers (R348) -/

/-- `gsync` (R348): the continuation header's core, len and trm are the device's to fill in. -/
def execGsync (a b : GReg) (s : State) : Outc :=
  plain (do
    let x ← readG a.val
    let h ← readG b.val
    let s ← get
    let t ← curTask
    let g := x.v.toNat % 256
    checkHeader (mkHdr (hdrTs h.v) (hdrFar h.v) 0 (hdrTag h.v) 0 2 (hdrTrm h.v)) 0 true true
    if !(s.memberGroups t.ctx s.focus).contains g then messageFault 8
    buffer (.gsync g (mkHdr (hdrTs h.v) (hdrFar h.v) s.focus (hdrTag h.v) (sentPrio t h.v) 2 0)) 1 h.tag) s

/-- The owner of a group's entry under home policy 0 (R369). -/
def Ctx.groupOwner (c : Ctx) (g : Nat) : Nat := c.groupAt g / 64 % 8192

/-- A continuation leaves the owner: collected for the barrier's group in the quantum of the last arrival (R426), or sent. -/
def State.continuation (s : State) (ctx g q owner : Nat) (hdr : Word) (phase : Nat) : State :=
  let h := hdrLeaves hdr (hdrTrm hdr)
  let m : Message :=
    { sysMessage 0 (hdrTag h) ctx owner (hdrCore h) 0 [BitVec.ofNat 64 g, BitVec.ofNat 64 phase] with hdr := h }
  let s := if counted' h then s.modTerm owner (hdrTrm h) (fun t => { t with out := t.out + 1 }) else s
  if (s.ctx ctx).detlvl ≠ 0 ∧ collectedTag (hdrTag h) then s.collect ctx owner g q (.msg m)
  else s.push (.messageArrival m)

/-- The last arrival (R348): the phase toggles, the count restarts, each member receives its continuation in core order; for a
merge-domain group the sequences restart (R278). -/
def State.barrierDone (s : State) (ctx g q : Nat) (l : List (Nat × Word)) : State :=
  let at' := (s.ctx ctx).groupAt g
  let owner := (s.ctx ctx).groupOwner g
  let phase := 1 - s.num at' 8 % 2
  let s := s.writeWord at' (BitVec.ofNat 64 (s.num at' 8 / 2 * 2 + phase))
  let s := (s.writeMem (at' + 8) (bytesOf 4 0) 0).modGroup ctx g (fun x => { x with arrivals := [] })
  let s := if (s.group ctx g).merge then
      l.foldl (fun (s : State) a => s.modCc ctx a.1 (fun c => { c with updSeq := 0 })) s
    else s
  (sortBy (fun a b => decide (a.1 < b.1)) l).foldl
    (fun (s : State) a => s.continuation ctx g q owner a.2 phase) s

/-- GSYNC_ARRIVAL (R348): the owner counts the arrival of a core; `group` holds the index in its low eight bits and above them
the quantum of the arriving commit; the last of these is the barrier's (R426). A second arrival in one phase is a context fault. -/
def execGsyncArrival (ctx group core : Nat) (hdr : Word) (s : State) : Outc :=
  let g := group % 256
  let owner := (s.ctx ctx).groupOwner g
  let note : Message := { svcMessage 2 owner ctx .task with hdr := mkHdr 0 false owner 2 7 0 (hdrTrm hdr), src := core }
  let (note, s) := s.termArrive owner note
  let l := (s.group ctx g).arrivals
  let s := if l.any (fun a => a.1 == core) then
      s.deviceFault ctx owner 68 0 [BitVec.ofNat 64 g, BitVec.ofNat 64 core]
    else
      let l := l ++ [(core, hdr)]
      if l.length < (s.group ctx g).members then
        (s.writeMem ((s.ctx ctx).groupAt g + 8) (bytesOf 4 l.length) 0).modGroup ctx g (fun x =>
          { x with arrivals := l, arrQuantum := Nat.max (group / 256) x.arrQuantum })
      else (s.barrierDone ctx g (Nat.max (group / 256) (s.group ctx g).arrQuantum) l).modGroup ctx g (fun x => { x with arrQuantum := 0 })
  event (s.termDone owner note)

end Sys2Proof.Machine
end

