-- ==== Sys2Proof/Machine/Deques.lean ====
section
/-! DEFINITION. The deque (R353 to R356). -/

namespace Sys2Proof.Machine

open Sys2Proof.Machine.Num

/-- Whether an entry is free. -/
def Deque.room (q : Deque) : Bool := decide (q.ranges.length + q.reserved < 32)

/-- A range's first ⌈n/2⌉ coordinates, and the rest. -/
def splitRange (r : Range) : Range × Range :=
  let h := (r.hi - r.lo + 1) / 2
  ({ r with hi := r.lo + h }, { r with lo := r.lo + h })

/-- Splits a range, or takes it whole when it has one coordinate or no entry is free for the reservation. -/
def Deque.cut (q : Deque) (r : Range) : Range × List Range :=
  if r.hi - r.lo = 1 ∨ !q.room then (r, []) else ((splitRange r).1, [(splitRange r).2])

/-- Takes from the young end: whole, or its first half. -/
def Deque.takeYoung (q : Deque) (whole : Bool) : Option (Range × Deque) :=
  q.ranges.getLast?.map (fun r =>
    let (x, left) := if whole then (r, []) else q.cut r
    (x, { ranges := q.ranges.dropLast ++ left, reserved := q.reserved + 1 }))

/-- Takes from the old end, for a thief. -/
def Deque.takeOld (q : Deque) : Option (Range × Deque) :=
  match q.ranges with
  | [] => none
  | r :: rest =>
    let (x, left) := q.cut r
    some (x, { ranges := left ++ rest, reserved := q.reserved + 1 })

/-- The pair of words of a taken range (R355). -/
def rangeWords : Option Range → Word × Word
  | some r => (BitVec.ofNat 64 (r.hi * 2 ^ 32 + r.lo), BitVec.ofNat 64 r.tag)
  | none => (0, 0)

def writePair (d : Nat) (r : Option Range) : W Unit := do
  writeG d { v := (rangeWords r).1, tag := 0 } 1
  writeG (d + 1) { v := (rangeWords r).2, tag := 0 } 1

/-- The deque of the current task's context on its core. -/
def curDeque : W Deque := do
  let s ← get
  return (s.space (← curTask).ctx s.focus).deque

def setDeque (q : Deque) : W Unit := do
  let t ← curTask
  modify (fun s => s.modSpace t.ctx s.focus (fun sp => { sp with deque := q }))

/-- `dpush` (R354). -/
def execDpush (d a b : GReg) (s : State) : Outc :=
  plain (do
    let x ← readG a.val
    let y ← readG b.val
    let r : Range := { lo := x.v.toNat % 2 ^ 32, hi := x.v.toNat / 2 ^ 32, tag := y.v.toNat % 2 ^ 32 }
    let q ← curDeque
    let status := if r.hi ≤ r.lo then 2 else if q.room then 0 else 1
    if status = 0 then
      buffer (.push r) 1
      setDeque { q with reserved := q.reserved + 1 }
      modCur (fun t => { t with pushes := t.pushes + 1 })
    writeG d.val { v := BitVec.ofNat 64 status, tag := 0 } 1) s

/-- A taking word on the own deque. -/
def takeOwn (d : GReg) (whole : Bool) (s : State) : Outc :=
  plain (do
    let c ← curCore
    match (← curDeque).takeYoung whole with
    | none => writePair d.val none
    | some (r, q) =>
      setDeque q
      modCur (fun t => { t with taken := t.taken ++ [{ core := c, r := r }] })
      writePair d.val (some r)) s

/-- `dpop` (R355). -/
def execDpop (d : GReg) (s : State) : Outc := takeOwn d true s

/-- `dsplit` (R355). -/
def execDsplit (d : GReg) (s : State) : Outc := takeOwn d false s

/-- `dlen` (R355). -/
def execDlen (d : GReg) (s : State) : Outc :=
  plain (do
    let q ← curDeque
    writeG d.val { v := BitVec.ofNat 64 q.ranges.length, tag := 0 } 1) s

/-- `dsteal` (R355): the request goes to the victim, or to its hive's task queue. -/
def execDsteal (d a : GReg) (s : State) : Outc :=
  runWord false (do
    let v ← useWord (← readG a.val)
    let victim := v.toNat % 8192
    checkSched d.val
    checkSched (d.val + 1)
    let k ← curKey
    let t ← curTask
    modify (fun s =>
      match (if (s.ctx t.ctx).detlvl = 0 then none else s.sharedGroup t.ctx s.focus victim) with
      | some g => s.collect t.ctx s.focus g (s.quantumOf t.ctx s.focus g) (.steal (k / 8) (k % 8) victim)
      | none => s.push (.stealRequest (k / 8) (k % 8) victim))
    holdWord (.steal d.val victim) false) s

/-- STEAL_REQUEST (R355): the victim's deque splits its old entry for a thief that waits, and the thief holds the range. -/
def State.stealRequest (s : State) (thief slot victim : Nat) : State :=
  let t := s.task (thief * 8 + slot)
  match t.wait with
  | .steal _ v =>
    if v ≠ victim then s
    else
      match (s.space t.ctx victim).deque.takeOld with
      | none => s.push (.stealReply thief slot victim none)
      | some (r, q) =>
        let s := s.modTask (thief * 8 + slot) (fun t => { t with taken := t.taken ++ [{ core := victim, r := r }] })
        (s.modSpace t.ctx victim (fun sp => { sp with deque := q })).push (.stealReply thief slot victim (some r))
  | _ => s

def execStealRequest (thief slot victim : Nat) (s : State) : Outc := event (s.stealRequest thief slot victim)

/-- STEAL_REPLY (R355): the thief's word completes with the range, which it holds since its request was served, or with
nothing, a failed steal. -/
def execStealReply (thief slot victim : Nat) (taken : Option Range) (s : State) : Outc :=
  let k := thief * 8 + slot
  let t := s.task k
  event (match t.wait with
    | .steal d v =>
      let held := match taken with
        | some r => t.taken.contains { core := victim, r := r }
        | none => true
      if v ≠ victim ∨ !held then s
      else
        let w := rangeWords taken
        let s := s.completeWord k
        let s := s.modTask k (fun t =>
          let t := (t.setReg d { v := w.1, tag := 0 }).setReg (d + 1) { v := w.2, tag := 0 }
          if taken.isSome then t else { t with failedSteals := t.failedSteals + 1 })
        let s := if taken.isSome then s else s.pmcEvent thief 9 1
        s.trySave k
    | _ => s)

/-- ENTRY_RELEASE (R356): the release of a thief's reservation at its commit. -/
def execEntryRelease (ctx core : Nat) (s : State) : Outc :=
  event (s.modSpace ctx core (fun sp => { sp with deque := { sp.deque with reserved := sp.deque.reserved - 1 } }))

end Sys2Proof.Machine
end

