-- ==== Sys2Proof/Machine/Nets.lean ====
section
/-! DEFINITION. Nodes, net words, the relink handler, meets and share words (R311 to R332, R349 to R352). -/

namespace Sys2Proof.Machine

open Sys2Proof.Machine.Num

/-! ### The node heap (R349, R350) -/

/-- The virtual address of a core's segment. -/
def Ctx.segment (c : Ctx) (core : Nat) : Nat := c.nhbase.toNat / 2 ^ 34 % 2 ^ 23 * 2 ^ 34 + core * 2 ^ 21

/-- Takes one free node into a core's cache: from the chain, else the next line never used. -/
def State.refillOne (s : State) (ctx core : Nat) : State :=
  let seg := (s.ctx ctx).segment core
  if !(s.ctx ctx).nhbase.getLsbD 0 ∨ 32 ≤ (s.cc ctx core).nodeCache.length then s
  else
    match s.lineAt ctx seg with
    | none => s
    | some pa =>
      let w (i : Nat) : Nat := ofBytes (s.physRead (pa + 8 * i) 8)
      let head := w 0 % 2 ^ 15
      let put (s : State) (n : Nat) : State :=
        s.modCc ctx core (fun c => { c with nodeCache := c.nodeCache ++ [seg + n * 64] })
      if head ≠ 0 then
        match (if s.pageMoving ctx (seg + head * 64) then none else s.lineAt ctx (seg + head * 64)) with
        | none => s
        | some pn =>
          let next := ofBytes (s.physRead (pn + 8) 8) % 2 ^ 15
          let s := s.physWrite pa (bytesOf 8 (w 0 / 2 ^ 15 * 2 ^ 15 + next)) 0
          put (s.physWrite (pa + 8) (bytesOf 8 (w 1 / 2 ^ 16 * 2 ^ 16 + (w 1 + 2 ^ 16 - 1) % 2 ^ 16)) 0) head
      else if w 2 % 2 ^ 16 < 32767 then put (s.physWrite (pa + 16) (bytesOf 8 (w 2 + 1)) 0) (w 2 % 2 ^ 16 + 1)
      else s

/-- Whether a migrating page holds a refill of the cache (R82): that of the segment's line 0, or that of the chain's head. -/
def State.refillMoves (s : State) (ctx core : Nat) : Bool :=
  let seg := (s.ctx ctx).segment core
  s.pageMoving ctx seg || match s.lineAt ctx seg with
    | some pa => let head := ofBytes (s.physRead pa 8) % 2 ^ 15; head != 0 && s.pageMoving ctx (seg + head * 64)
    | none => false

/-- Fills a core's cache of free nodes. -/
def State.refill (s : State) (ctx core : Nat) : State := (List.range 32).foldl (fun s _ => s.refillOne ctx core) s

/-- NODE_CACHE_REFILL (R349); it waits while a page that it reads is migrating (R82). -/
def execNodeCacheRefill (ctx core : Nat) (s : State) : Outc :=
  event (if s.refillMoves ctx core then s.push (.nodeCacheRefill ctx core) else s.refill ctx core)

/-- A net fault that an instruction raises (R326). -/
def netFault {α : Type} : W α := trap 66

/-- A fresh header (R313). -/
def nodeHeaderOf (a : Nat) (owner : Nat) : Word :=
  let sym := a % 65536
  let arity := a / 65536 % 8
  BitVec.ofNat 64 (sym * 2 ^ 48 + arity * 2 ^ 45 + a / 2 ^ 19 % 2 * 2 ^ 44 + arity * 2 ^ 40 + owner * 2 ^ 27)

/-- `nalloc` (R350): an empty cache waits for its refill, which this word contains, and which a migrating page holds (R82); the line is
written at commit. A node whose page has not home policy 2 breaks R349, which names no fault: the context fault of R17. -/
def execNalloc (d a : GReg) (s : State) : Outc :=
  plain (do
    let x ← readG a.val
    let t ← curTask
    let v := x.v.toNat
    let arity := v / 65536 % 8
    let pay := v / 2 ^ 19 % 2 == 1
    if v % 65536 = 0 ∨ 2 ^ 20 ≤ v ∨ 6 < arity ∨ (pay ∧ arity = 6) ∨ !((← get).ctx t.ctx).nhbase.getLsbD 0 then netFault
    let c ← curCore
    if ((← get).cc t.ctx c).nodeCache = [] then
      if (← get).refillMoves t.ctx c then exit (.hold false)
      modify (·.refill t.ctx c)
    match ((← get).cc t.ctx c).nodeCache with
    | [] => netFault
    | va :: rest =>
      let (pa, leaf) ← xlate va .store
      checkCapacity pa false
      if pteHome leaf ≠ 2 then trap 69 0 [BitVec.ofNat 64 va]
      buffer (.node va pa (nodeHeaderOf v c) pay) 2
      modify (fun s => s.modCc t.ctx c (fun k => { k with nodeCache := rest }))
      modCur (fun t => { t with nodes := t.nodes ++ [va] })
      writeG d.val { v := BitVec.ofNat 64 va, tag := x.tag } 1) s

/-! ### Net words (R351, R352) -/

/-- The low 57 bits of an address operand. -/
def netAddr (w : Tagged) : Nat := w.v.toNat % 2 ^ 57

/-- Buffers a device message of the current task: tag, owner, what it asks for; the addresses are control parts (R388). -/
def bufferSvc (tag dst control : Nat) (pay : List Word) (svc : Svc) : W Unit := do
  let t ← curTask
  let m : Message := { sysMessage t.ts tag t.ctx (← curCore) dst 7 pay with svc := svc }
  buffer (.send { m with hdr := mkHdr t.ts false dst tag (if tag = 1 then 6 else 7) pay.length 0 }) 1 control

/-- `nfree` (R351). -/
def execNfree (a : GReg) (s : State) : Outc :=
  plain (do
    let x ← readG a.val
    let n := netAddr x
    if n % 64 ≠ 0 then netFault
    bufferSvc 3 (nodeOwner n) x.tag [] (.nfree (← curTask).ctx n)
    modCur (fun t => { t with freed := n :: t.freed })) s

/-- Whether the task has issued `nfree` on the node of a port. -/
def Task.freedNode (t : Task) (port : Nat) : Bool := t.freed.contains (port / 64 * 64)

/-- `rlk` (R351). -/
def execRlk (a b : GReg) (s : State) : Outc :=
  plain (do
    let x ← readG a.val
    let z ← readG b.val
    let t ← curTask
    let p := netAddr x
    let q := netAddr z
    if p % 8 = 0 ∨ p % 8 = 7 ∨ q % 8 ≠ 0 ∨ !t.nodes.contains q ∨ t.freedNode p then netFault
    bufferSvc 3 (nodeOwner p) (minTag x.tag z.tag) [] (.hinge t.ctx p q)) s

/-- `rfuse` (R351). -/
def execRfuse (a b : GReg) (s : State) : Outc :=
  plain (do
    let x ← readG a.val
    let y ← readG b.val
    let t ← curTask
    let p := netAddr x
    let q := netAddr y
    if p % 8 = 0 ∨ p % 8 = 7 ∨ q % 8 = 0 ∨ q % 8 = 7 ∨ p = q ∨ t.freedNode p ∨ t.freedNode q then netFault
    bufferSvc 3 (nodeOwner p) (minTag x.tag y.tag) [] (.fuse t.ctx p q)) s

/-- The payload of a meet, lower node first. -/
def meetWords (a b : Nat) : List Word := [BitVec.ofNat 64 (Nat.min a b), BitVec.ofNat 64 (Nat.max a b)]

/-- `meet` (R351). -/
def execMeet (a b : GReg) (s : State) : Outc :=
  plain (do
    let x ← readG a.val
    let y ← readG b.val
    let p := netAddr x
    let q := netAddr y
    if p % 64 ≠ 0 ∨ q % 64 ≠ 0 ∨ p = q then netFault
    bufferSvc 1 (nodeOwner (Nat.min p q)) (minTag x.tag y.tag) (meetWords p q)
      (.meet (← curTask).ctx (Nat.min p q) (Nat.max p q))) s

/-- A share word (R352): the header line below the data, in HBM5 or on the scratchpad aperture (R275, R329). -/
def shareWord (k : UpdKind) (a : GReg) (s : State) : Outc :=
  plain (do
    let x ← useWord (← readG a.val)
    let data := vaOf x
    if data % 64 ≠ 0 then netFault
    let va := (data + 2 ^ 57 - 64) % 2 ^ 57
    let (pa, leaf) ← xlate va .store
    match paKind pa with
    | .hbm => if !(← get).paOk pa then atomicFault 2
    | .aperture _ _ => pure ()
    | _ => atomicFault 2
    checkPlainWrite leaf va
    buffer (.update (← newUpdate va pa k .none 0 0 0) none) 1) s

/-- `tshr` (R352). -/
def execTshr (a : GReg) (s : State) : Outc := shareWord .tshr a s
/-- `tdrop` (R352). -/
def execTdrop (a : GReg) (s : State) : Outc := shareWord .tdrop a s
/-- `tseal` (R352). -/
def execTseal (a : GReg) (s : State) : Outc := shareWord .tseal a s

/-! ### The slots of nodes -/

/-- Writes one word of a node's line, as the handler's commit on a core (R321). -/
def State.nodeWrite (s : State) (core pa i w : Nat) : State :=
  s.writeSeen (pa + 8 * i) (bytesOf 8 w) 0 (.commit (core * 8 + 7))

/-! ### The relink handler (R323 to R327) -/

/-- The slot that a relink message acts on; none for NFREE. -/
def relinkSlot : Svc → Option Nat
  | .hinge _ x _ | .fuse _ x _ | .fuse2 _ x _ _ | .fuse3 _ x _ => some x
  | .join2 _ t _ _ | .join1 _ t _ _ => some t
  | .fix _ t _ => some t
  | .drain _ x => some x
  | _ => none

/-- The code of a relink message's kind in a net fault (log 21). -/
def relinkKind : Svc → Nat
  | .hinge .. => 100 | .fuse .. => 101 | .fuse2 .. => 102 | .fuse3 .. => 103 | .join2 .. => 104 | .join1 .. => 105
  | .fix .. => 106 | .drain .. => 107 | .nfree .. => 108
  | _ => 109

/-- What a message does to its slot: held, a net fault, or a new link word, relink messages to send, whether the node's hcnt
falls, and the partner of a write that the wire check judges. -/
inductive Relink where
  | held
  | fault
  | act (l : Lnk) (out : List Svc) (drained : Bool) (written : Option Nat)
  deriving DecidableEq, Repr

/-- A slot written with a partner: PORT, with the absorb bit that the row gives it. -/
def linkTo (p : Nat) (absorb : Bool) : Lnk := { kind := kPort, absorb := absorb, res := false, addr := p }

/-- The join rows. -/
def joinRow (ctx : Nat) (two : Bool) (t p e : Nat) (l : Lnk) : Relink :=
  let follow := .drain ctx e :: (if two then [Svc.fix ctx p t] else [])
  if l.kind = kPort ∧ l.addr = e then .act (linkTo p l.absorb) follow false (some p)
  else if l.kind = kOpen ∨ (l.kind = kPort ∧ !l.absorb) then .act (linkTo p true) follow false (some p)
  else if l.kind = kPort then .act { l with absorb := false } [.drain ctx e] false none
  else if l.kind = kHinge then
    if two then
      .act { kind := kDrained, absorb := false, res := false, addr := 0 }
        (if t < e then [.fix ctx p l.addr, .fix ctx l.addr p] else []) true none
    else .act l [.drain ctx e] false none
  else if l.kind = kFused ∧ l.res then
    .act l [if two then .join2 ctx l.addr p e else .join1 ctx l.addr p e] false none
  else .fault

/-- THE TABLE OF R323: the first matching row. -/
def relinkRow (m : Svc) (l : Lnk) : Relink :=
  let fusedOpen : Bool := l.kind == kFused && !l.res
  let consume : Bool := match m with | .hinge .. | .fuse .. | .fuse2 .. => true | _ => false
  match m with
  | .fuse3 _ _ y2 => if fusedOpen then .act { l with addr := y2, res := true } [] false none else .fault
  | m =>
    if fusedOpen then .held
    else if consume ∧ l.kind = kPort ∧ l.absorb then .held
    else
      match m with
      | .hinge ctx x z =>
        if l.kind = kPort then .act { l with kind := kHinge, addr := z } [.join2 ctx l.addr z x] false none else .fault
      | .fuse ctx x1 x2 =>
        if l.kind = kPort then
          .act { l with kind := kFused, res := false, addr := x2 } [.fuse2 ctx x2 x1 l.addr] false none
        else .fault
      | .fuse2 ctx x2 x1 y1 =>
        if l.kind = kPort then
          .act { l with kind := kFused, res := true, addr := y1 }
            [.fuse3 ctx x1 l.addr, .join1 ctx l.addr y1 x2, .join1 ctx y1 l.addr x1] false none
        else .fault
      | .join2 ctx t p e => joinRow ctx true t p e l
      | .join1 ctx t p e => joinRow ctx false t p e l
      | .fix _ _ p =>
        if l.kind = kOpen then .act (linkTo p l.absorb) [] false (some p)
        else if l.kind = kPort ∧ l.absorb then .act { l with absorb := false } [] false none
        else .fault
      | .drain _ _ =>
        if l.kind = kHinge ∨ (l.kind = kFused ∧ l.res) then
          .act { kind := kDrained, absorb := false, res := false, addr := 0 } [] true none
        else .fault
      | _ => .fault

/-- The owner of the slot that a relink message acts on. -/
def relinkOwner (m : Svc) : Nat :=
  match m with
  | .nfree _ n => nodeOwner n
  | m => nodeOwner ((relinkSlot m).getD 0)

/-- Sends a relink message from a handler's commit. -/
def State.sendRelink (s : State) (core ctx trm : Nat) (m : Svc) : State :=
  s.emit core trm (svcMessage 3 (relinkOwner m) ctx m)

/-- Whether a FIX to a node is under way: sent and not served. -/
def State.fixFlies (s : State) (ctx node : Nat) : Bool :=
  let fix (m : Message) : Bool := match m.svc with | .fix c t _ => c == ctx && nodeOf t == node | _ => false
  s.pending.any (fun e => match e with | .messageArrival m | .messageBounce m => fix m | _ => false)
    || s.cores.any (fun c => c.2.sysQueue.any fix || c.2.bounced.any (fun p => fix p.m))
    || s.coreCtxs.any (fun c => c.2.spill.any (fun p => fix p.m))

/-- Frees a node when it is consumed, drained, free of absorbing slots and of held messages (R327), and no FIX to it is under way, so
that no write lands in a freed node (R328; DEDUCED, log 105). -/
def State.nodeCheck (s : State) (ctx node : Nat) : State :=
  match s.lineAt ctx node with
  | none => s
  | some pa =>
    let w (i : Nat) : Nat := ofBytes (s.physRead (pa + 8 * i) 8)
    let h := w 0
    let links := Nat.min (hArity h + 1) (if hPay h then 6 else 7)
    let absorbs := (List.range links).any (fun i => (lnkOf (w (i + 1))).absorb)
    let mine (p : Spilled) : Bool :=
      p.held && p.m.ctx == ctx && (match relinkSlot p.m.svc with | some x => nodeOf x == node | none => false)
    let held := (s.core (nodeOwner node)).relink.any mine || (s.cc ctx (nodeOwner node)).spill.any mine
    if hCons h ∧ hHcnt h = 0 ∧ !absorbs ∧ !held ∧ !s.fixFlies ctx node ∧ !s.nodeFree ctx node then s.freeNode ctx node else s

/-- The wire check after a write (R325). -/
def State.wireCheck (s : State) (core ctx trm t p hdr : Nat) : State :=
  if t % 8 = 0 ∧ p % 8 = 0 ∧ nodeOf t < nodeOf p ∧ !hCons hdr then
    let lo := nodeOf t
    let hi := nodeOf p
    let m : Message :=
      { sysMessage 0 1 ctx core core 6 (meetWords lo hi) with svc := .meet ctx lo hi }
    s.emit core trm m
  else s

/-- A held message waits in the hold list of 16, else at the tail of the spill queue (R321), which returns it when it is full
(R337). -/
def State.holdRelink (s : State) (core : Nat) (m : Message) : State :=
  let (seq, s') := s.fresh
  let p : Spilled := { m := m, held := true, level := hdrPrio m.hdr, seq := seq, waitFrom := s.cyc, ahead := false, came := s.cyc }
  if (s.core core).relink.length < 16 then s'.modCore core (fun c => { c with relink := c.relink ++ [p] })
  else if (s.cc m.ctx core).spill.length < 4096 then
    (s'.modCc m.ctx core (fun c => { c with spill := c.spill ++ [p] })).spillEntry m.ctx core seq
  else s.bounce core m

/-- The node of a relink message. -/
def relinkNode : Svc → Nat
  | .nfree _ n => n
  | v => nodeOf ((relinkSlot v).getD 0)

/-- Whether a row of R323 takes an address out of the link word that it finds: the destination or an operand of what it sends, so that
the line's poison is consumed (R388; DEDUCED, log 130). -/
def relinkFollows (m : Svc) (l : Lnk) : Bool :=
  match m with
  | .hinge .. | .fuse .. | .fuse2 .. => l.kind == kPort
  | .join2 _ t _ e => (l.kind == kHinge && decide (t < e)) || l.kind == kFused
  | .join1 .. => l.kind == kFused
  | _ => false

/-- Applies one relink message at its owner: the state, whether the slot changed, whether it was held. -/
def State.relinkOne (s : State) (core : Nat) (m : Message) : State × Bool × Bool :=
  let ctx := m.ctx
  let trm := hdrTrm m.hdr
  let node := relinkNode m.svc
  -- the link word found: that of the message's slot, of the principal for NFREE
  let found (pa : Nat) : Nat := s.nodeWord pa (((relinkSlot m.svc).getD 0) % 8 + 1)
  let fault (link : Nat) : State × Bool × Bool :=
    ((s.deviceFault ctx core 66 0
      [BitVec.ofNat 64 ((relinkSlot m.svc).getD node), BitVec.ofNat 64 link, Config.kindCode (relinkKind m.svc)]).termDone
        core m, false, false)
  match s.lineAt ctx node with
  | none => fault 0
  | some pa =>
    let h := s.nodeWord pa 0
    let isFix : Bool := match m.svc with | .fix .. => true | _ => false
    -- no write lands in a freed node (R328; log 105)
    if isFix ∧ s.nodeFree ctx node then (s.termDone core m, false, false)
    else if !headerOk node h ∨ s.netMarked ctx node 0 then fault (found pa)
    else
      match relinkSlot m.svc with
      | none =>
        let s := if hCons h then s else s.nodeWrite core pa 0 (h + 2 ^ 43)
        ((s.nodeCheck ctx node).termDone core m, false, false)
      | some x =>
        let i := x % 8 + 1
        if !portOk h x ∨ s.netMarked ctx node i then fault (found pa)
        else
          let l := lnkOf (s.nodeWord pa i)
          match relinkRow m.svc l with
          | .held => (s.holdRelink core m, false, true)
          | .fault => fault (found pa)
          | .act l' out drained written =>
            if drained ∧ hHcnt h = 0 then fault (found pa)
            else if s.lineTag pa ≠ 0 ∧ relinkFollows m.svc l then
              ((s.deviceFault ctx core 64 (s.lineTag pa) [BitVec.ofNat 64 (s.lineTag pa)]).termDone core m, false, false)
            else
            let s := if l' = l then s else s.nodeWrite core pa i l'.word
            let s := if drained then s.nodeWrite core pa 0 (h - 2 ^ 40) else s
            let s := out.foldl (fun s v => s.sendRelink core ctx trm v) s
            let s := match written with
              | some p => s.wireCheck core ctx trm x p h
              | none => s
            ((s.nodeCheck ctx node).termDone core m, l' != l, false)

/-- Serves a relink message, and when its slot has changed the messages held for the slot, in arrival order; `fuel` bounds the
chain of releases. -/
def State.relinkServe (s : State) (core : Nat) : Nat → Message → State
  | 0, m => (s.relinkOne core m).1
  | fuel + 1, m =>
    let (s, changed, _) := s.relinkOne core m
    if !changed then s
    else
      let mine (p : Spilled) : Bool := p.held && p.m.ctx == m.ctx && relinkSlot p.m.svc == relinkSlot m.svc
      let held := (s.core core).relink.filter mine ++ (s.cc m.ctx core).spill.filter mine
      let s := s.modCore core (fun c => { c with relink := c.relink.filter (fun p => !mine p) })
      let s := s.modCc m.ctx core (fun c => { c with spill := c.spill.filter (fun p => !mine p) })
      (sortBy (fun a b => decide (a.seq < b.seq)) held).foldl (fun s p => s.relinkServe core fuel p.m) s

/-- Serves a slot-7 message at the head of its queue, or one with no message behind it. -/
def State.serve (s : State) (svc : Svc) (tag ctx dst : Nat) (again : Event) (f : State → Nat → Message → State) : State :=
  match s.takeSvc svc with
  | none => s.push again
  | some (some (core, m), s) => f s core m
  | some (none, s) => f s dst (svcMessage tag dst ctx svc)

/-- The lines that a relink message's task may write: the node, and its segment's line 0. -/
def relinkLines (svc : Svc) : List Nat := [relinkNode svc, relinkNode svc / 2 ^ 21 * 2 ^ 21]

/-- The lines of the host's window among those of a context's addresses that the host has not given up (R406). -/
def State.linesOwed (s : State) (ctx : Nat) (vas : List Nat) : List Nat :=
  vas.flatMap (fun va => match s.lineAt ctx va with | some pa => s.hostOwes pa 64 | none => [])

/-- A relink message's event: it waits while a page of its lines is migrating (R82), and for the host's acknowledgements (R406). -/
def relinkEvent (svc : Svc) (ctx : Nat) (again : Event) (s : State) : Outc :=
  event (if (relinkLines svc).any (s.pageMoving ctx) then s.push again
    else if s.linesOwed ctx (relinkLines svc) ≠ [] then (s.askHost (s.linesOwed ctx (relinkLines svc))).push again
    else s.serve svc 3 ctx (relinkOwner svc) again (fun s core m =>
    s.relinkServe core (Nat.min 64 ((s.core core).relink.length + (s.cc ctx core).spill.length + 1)) m))

/-- HINGE (R323). -/
def execHinge (ctx x z : Nat) (s : State) : Outc := relinkEvent (.hinge ctx x z) ctx (.hinge ctx x z) s
/-- FUSE (R323). -/
def execFuse (ctx x1 x2 : Nat) (s : State) : Outc := relinkEvent (.fuse ctx x1 x2) ctx (.fuse ctx x1 x2) s
/-- FUSE2 (R323). -/
def execFuse2 (ctx x2 x1 y1 : Nat) (s : State) : Outc := relinkEvent (.fuse2 ctx x2 x1 y1) ctx (.fuse2 ctx x2 x1 y1) s
/-- FUSE3 (R323). -/
def execFuse3 (ctx x1 y2 : Nat) (s : State) : Outc := relinkEvent (.fuse3 ctx x1 y2) ctx (.fuse3 ctx x1 y2) s
/-- JOIN2 (R323). -/
def execJoin2 (ctx t p e : Nat) (s : State) : Outc := relinkEvent (.join2 ctx t p e) ctx (.join2 ctx t p e) s
/-- JOIN1 (R323). -/
def execJoin1 (ctx t p e : Nat) (s : State) : Outc := relinkEvent (.join1 ctx t p e) ctx (.join1 ctx t p e) s
/-- FIX (R323). -/
def execFix (ctx t p : Nat) (s : State) : Outc := relinkEvent (.fix ctx t p) ctx (.fix ctx t p) s
/-- DRAIN (R323). -/
def execDrain (ctx x : Nat) (s : State) : Outc := relinkEvent (.drain ctx x) ctx (.drain ctx x) s
/-- NFREE_MESSAGE (R323). -/
def execNfreeMessage (ctx n : Nat) (s : State) : Outc := relinkEvent (.nfree ctx n) ctx (.nfreeMessage ctx n) s

/-! ### Meets (R319) -/

/-- MEET_DELIVERY (R319): both headers are read; a consumed node, or a header outside its limits, is the net fault, and the
message is acknowledged (R358); else the handler starts in a free slot, or the message waits. -/
def State.deliverMeet (s : State) (m : Message) (lo hi : Nat) : State :=
  let core := m.dst
  if s.meetOk m.ctx lo hi then
    match s.freeSlot core with
    | some sl => if s.canStart m.ctx then (s.startMeet core sl m lo hi).select core else s.spillOrBounce core m false
    | none => (s.spillOrBounce core m false).evict core
  else
    let bad := if s.meetsOk m.ctx lo then hi else lo
    -- the slot is the principal port's
    let w := match s.lineAt m.ctx bad with | some pa => s.nodeWord pa 1 | none => 0
    (s.deviceFault m.ctx core 66 0 [BitVec.ofNat 64 bad, BitVec.ofNat 64 w, Config.kindCode 110]).termDone core m

/-- MEET_DELIVERY as an event: it waits while a page of its nodes is migrating (R82). -/
def execMeetDelivery (m : Message) (lo hi : Nat) (s : State) : Outc :=
  event (if s.meetMoving m.ctx lo hi then s.push (.meetDelivery m lo hi) else s.deliverMeet m lo hi)

end Sys2Proof.Machine
end

