-- ==== Sys2Proof/Machine/Messages.lean ====
section
/-! DEFINITION. Messages at a core's network interface (R335, R337), and the end of terminating regions (R358, R359). -/

namespace Sys2Proof.Machine

/-- Tags that no task serves, and the tags that no message names (R335). -/
def noTask (tag : Nat) : Bool :=
  tag == 0 || tag == 5 || tag == 6 || tag == 7 || tag == 8 || tag == 12 || tag == 15

/-- Whether the spill queue holds an eligible message of the same or higher priority for the same context. -/
def State.spillAhead (s : State) (core : Nat) (m : Message) : Bool :=
  (s.cc m.ctx core).spill.any (fun p => s.eligible core p && decide (hdrPrio m.hdr ≤ p.level))

/-- A message enters the spill queue; none when that is full. -/
def State.spillOr (s : State) (core : Nat) (m : Message) (held : Bool) : Option State :=
  let (ok, s) := s.spill core m held
  if ok then some s else none

/-- A message enters the spill queue and waits for a slot, that of the longest-parked task when all are taken (R60). -/
def State.spillWait (s : State) (core : Nat) (m : Message) : Option State :=
  (s.spillOr core m false).map (fun s => (s.fill core).evict core)

/-- A message of a user tag: the first matching row of R337. A child sent at depth 4 enters the spill queue (R344). -/
def State.placeUser (s : State) (core : Nat) (m : Message) : Option State :=
  if m.entry.isSome then s.spillWait core m
  else if !(s.tagEntry m.ctx core (hdrTag m.hdr)).en then s.spillOr core m true
  else if !s.canStart m.ctx ∨ !s.canInstall m.ctx core then s.spillOr core m false
  else if s.spillAhead core m then s.spillWait core m
  else
    match s.slotFor core m with
    | some sl => some ((s.startTask core sl m).select core)
    | none => s.spillWait core m

/-- A message of a slot-7 tag. One that asks for nothing a handler does is dropped and acknowledged; a debug operation without
an op writes an event of status 1 (R402). -/
def State.placeSvc (s : State) (core : Nat) (m : Message) : Option State :=
  match svcEvent m with
  | some _ => s.queueSvc core m
  | none =>
    let s := match m.svc with
      | .debug c ws => s.debugEvent c ((ws.getD 1 0).toNat % 2 ^ 48) 0 1 0
      | _ => s
    some (s.termDone core m)

/-- The network interface decides an arriving message (R337); none when it finds the spill queue full. -/
def State.place (s : State) (core : Nat) (m : Message) : Option State :=
  if noTask (hdrTag m.hdr) then some (s.termDone core m)
  else if userTag (hdrTag m.hdr) then s.placeUser core m
  else s.placeSvc core m

/-- A message arrives: its region's record takes its step (R358) once it is taken; a full queue returns it. A DEBUG packet
completes when its message is delivered (R362). -/
def State.receive (s : State) (m : Message) : State :=
  let (m', s') := s.termArrive m.dst m
  match s'.place m.dst m' with
  | none => s.bounce m.dst m
  | some s =>
    match m.svc, m.flight with
    | .debug .., some id => s.endFlight id
    | _, _ => s

/-- The core that a message on its way reached the network from, and the one it goes to: messages, and the arrivals of `gsync`, which
travel as atomics to the group's owner (R348). -/
def State.wayOf (s : State) : Event → Option (Nat × Nat)
  | .messageArrival m => some (m.src, m.dst)
  | .gsyncArrival ctx group core _ => some (core, (s.ctx ctx).groupOwner (group % 256))
  | _ => none

/-- A message that is sent again, or that waits for one, goes before those of its source and destination that are on their way
(R294). -/
def State.resend (s : State) (m : Message) : State :=
  let (a, b) := s.pending.span (fun e => s.wayOf e != some (m.src, m.dst))
  { s with pending := a ++ .messageArrival m :: b }

/-- Whether a full queue has returned an earlier message of the same source and destination, which is to be delivered before (R294). -/
def State.returnedBefore (s : State) (m : Message) : Bool :=
  let same (x : Message) : Bool := x.src == m.src && x.dst == m.dst
  (s.core m.src).bounced.any (fun p => same p.m)
    || s.pending.any (fun e => match e with | .messageBounce x => same x | _ => false)

/-- MESSAGE_ARRIVAL (R337); it waits while an earlier message of its source and destination is returned (R294; log 125). -/
def execMessageArrival (m : Message) (s : State) : Outc := event (if s.returnedBefore m then s.resend m else s.receive m)

/-- MESSAGE_BOUNCE (R337): the sender's network interface keeps the message. -/
def execMessageBounce (m : Message) (s : State) : Outc :=
  event ((s.modCore m.src (fun c => { c with bounced := c.bounced ++ [{ m := m, since := s.cyc }] })).push (.bounceResend m.src))

/-- The place of the pending event that a turn for place `i` takes. Of the messages of one source and destination the one sent first
arrives first (R294), and before every other message at a core come those that its own commits have sent it (R420). -/
def State.pendingPlace (s : State) (i : Nat) : Nat :=
  match s.pending[i]?.bind s.wayOf with
  | some (src, dst) =>
    match s.pending.findIdx? (fun e => s.wayOf e == some (dst, dst)) with
    | some j => j
    | none => (s.pending.findIdx? (fun e => s.wayOf e == some (src, dst))).getD i
  | none => i

/-- BOUNCE_RESEND (R337): the oldest message kept is sent again 1,024 cycles after its return. -/
def execBounceResend (core : Nat) (s : State) : Outc :=
  event (match (s.core core).bounced with
    | [] => s
    | p :: rest =>
      if s.cyc < p.since + 1024 then s.push (.bounceResend core)
      else (s.modCore core (fun c => { c with bounced := rest })).resend p.m)

/-- SPILL_WAKE (R337): free slots take eligible entries, one that still waits takes the slot of a parked task (R60), and the system
queue takes the oldest slot-7 message. -/
def execSpillWake (ctx core : Nat) (s : State) : Outc :=
  let s' := ((s.refillSys core).fill core).evict core
  let waits := s'.canStart ctx &&
    (s'.cc ctx core).spill.any (fun p => !p.held && !userTag (hdrTag p.m.hdr)) && !(s'.core core).sysQueue.isEmpty
  event (if waits then s'.push (.spillWake ctx core) else s')

/-- REGION_END (R359): the region's number is free, and the launch that opened it completes. -/
def State.regionEnd (s : State) (r : Nat) : State :=
  let s := { s with regionUse := s.regionUse.filter (· != r) }
  match s.flights.find? (fun f => f.region == r) with
  | some f => s.endFlight f.id
  | none => s

/-- TERMINATION_ACK (R358): at the front hive it ends the region. -/
def execTerminationAck (core region : Nat) (s : State) : Outc :=
  event (if core = frontHive then s.regionEnd region
    else (s.modTerm core region (fun t => { t with out := t.out - 1 })).termSettle core region)

end Sys2Proof.Machine
end

