-- ==== Sys2Proof/Machine/VecNum.lean ====
section
/-! DEFINITION. Arithmetic of the vector engine: reciprocals, roots, exponentials and hyperbolic tangents rounded once (R201),
and the Q4X encoder (R135, R209). -/

namespace Sys2Proof.Machine.VecNum

open Sys2Proof.Machine.Num

/-! ### Values known to more digits than any rounding needs

A value that is not a dyadic number is given as twice its floor at a fine exponent, plus 1 when something is left over: that rounds as the value
itself does. -/

/-- A value between q · 2^e and (q + 1) · 2^e, or the lower end when `exact`. -/
def between (neg : Bool) (q : Nat) (exact : Bool) (e : Int) : FV :=
  .fin neg (2 * q + (if exact then 0 else 1)) (e - 1)

/-- The quotient of two magnitudes. -/
def quotient (neg : Bool) (m : Nat) (e : Int) (m' : Nat) (e' : Int) : FV :=
  let k := Nat.log2 m' + 64
  let q := m * 2 ^ k / m'
  between neg q (q * m' == m * 2 ^ k) (e - e' - (k : Int))

/-- 1/a (R201). -/
def rcp : FV → FV × Nat
  | .nan => (.nan, 0)
  | .inf n => (.fin n 0 0, 0)
  | .fin n m e => if m = 0 then (.inf n, 0) else (quotient n 1 0 m e, 0)

/-- The bits of a square root from bit `i − 1` down. -/
def isqrt : Nat → Nat → Nat → Nat
  | 0, _, r => r
  | i + 1, x, r => isqrt i x (if (r + 2 ^ i) * (r + 2 ^ i) ≤ x then r + 2 ^ i else r)

/-- 1/√a (R201). -/
def rsq : FV → FV × Nat
  | .nan => (.nan, 0)
  | .inf n => if n then (.nan, nv) else (.fin false 0 0, 0)
  | .fin n m e =>
    if m = 0 then (.inf n, 0)
    else if n then (.nan, nv)
    else
      let odd := decide (e % 2 ≠ 0)
      let m' := if odd then 2 * m else m
      let e' := if odd then e - 1 else e
      let k := Nat.log2 m' + 64
      let q := isqrt (k + 1) (2 ^ (2 * k) / m') 0
      (between false q (q * q * m' == 2 ^ (2 * k)) (-(k : Int) - e' / 2), 0)

/-- Terms i, i + 1, … of the exponential series at y, `p` fraction bits. -/
def expSum (p y : Nat) : Nat → Nat → Nat → Nat → Nat
  | 0, _, _, acc => acc
  | n + 1, i, term, acc =>
    let t := term * y / 2 ^ p / i
    expSum p y n (i + 1) t (acc + t)

/-- Repeated squaring with `p` fraction bits. -/
def squares (p : Nat) : Nat → Nat → Nat
  | 0, x => x
  | n + 1, x => squares p n (x * x / 2 ^ p)

/-- e^x for x in fixed point with `p` fraction bits, x below 256. -/
def expFix (p x : Nat) : Nat := squares p 16 (expSum p (x / 2 ^ 16) 60 1 (2 ^ p) (2 ^ p))

/-- The fraction bits that decide every rounding of an exponential, and of a hyperbolic tangent (log 24). -/
def expBits : Nat := 448
def tanhBits : Nat := 704

/-- e^a (R201). Beyond ±256 every format overflows or rounds a tiny number. -/
def exp : FV → FV × Nat
  | .nan => (.nan, 0)
  | .inf n => if n then (.fin false 0 0, 0) else (.inf false, 0)
  | .fin n m e =>
    if m = 0 then (.fin false 1 0, 0)
    else if 8 ≤ e + (Nat.log2 m : Int) then (.fin false 3 (if n then -600 else 600), 0)
    else
      let x := m * 2 ^ (e + (expBits : Int)).toNat
      let y := expFix expBits x
      (between false (if n then 2 ^ (2 * expBits) / y else y) false (-(expBits : Int)), 0)

/-- tanh a (R201). -/
def tanh : FV → FV × Nat
  | .nan => (.nan, 0)
  | .inf n => (.fin n 1 0, 0)
  | .fin n m e =>
    if m = 0 then (.fin n 0 0, 0)
    else if 6 ≤ e + (Nat.log2 m : Int) then (.fin n (2 ^ 150 - 1) (-150), 0)
    else
      let y := expFix tanhBits (2 * (m * 2 ^ (e + (tanhBits : Int)).toNat))
      let one := 2 ^ tanhBits
      (between n ((y - one) * one / (y + one)) false (-(tanhBits : Int)), 0)

/-! ### Packing Q4X (R135, R209) -/

/-- The magnitude of a value divided by a scale that is finite and not 0, with its sign. -/
def over' (x s : FV) : FV :=
  match x, s with
  | .fin n m e, .fin n' m' e' => if m = 0 then .fin (n != n') 0 0 else quotient (n != n') m e m' e'
  | .inf n, .fin n' _ _ => .inf (n != n')
  | _, _ => .nan

/-- A value rounded to the nearest integer, clamped to −7 to 7, and whether it was clamped. -/
def code4 (q : FV) (free : Int) : Int × Bool :=
  match q with
  | .nan => (free, false)
  | .inf n => (if n then -7 else 7, true)
  | .fin n m e =>
    let i := (integerOf .rne n m e).1
    if 7 < i then (7, true) else if i < -7 then (-7, true) else (i, false)

/-- Whether |a| is below |b|, a NaN counting as largest. -/
def magBelow (a b : FV) : Bool :=
  match a, b with
  | .nan, _ => false
  | _, .nan => true
  | .inf _, _ => false
  | .fin .., .inf _ => true
  | .fin _ m e, .fin _ m' e' => (FV.fin false m e).lt (.fin false m' e')

/-- The lowest position with the largest magnitude. -/
def largest (qs : List FV) : Nat :=
  qs.zipIdx.foldl (fun best p => if magBelow (qs.getD best .nan) p.1 then p.2 else best) 0

/-- Whether byte `b` of an outlier at position `m` would place the code 1000 below `m`. -/
def collides (m b : Nat) : Bool :=
  (decide ((m + 1) % 4 < m) && b / 16 == 8) || (decide ((m + 2) % 4 < m) && b % 16 == 8)

/-- The outlier byte written for `b` at position `m` (R135); `none` when the element is written as an ordinary one. -/
def outlierByte (m b : Nat) : Option Nat :=
  if !collides m b then some b
  else ((List.range (b % 128)).reverse.map (· + b / 128 * 128)).find? (fun x => !collides m x)

/-- The codes of a quad as one 16-bit number (R132, R209), and flags. `free` stands for the code of a NaN that is no outlier. -/
def encodeQuad (qs : List FV) (sat : Bool) (free : Int) : Nat × Nat :=
  let at' (p : Nat) : FV := qs.getD (p % 4) .nan
  let m := largest qs
  let big : Bool := match at' m with
    | .fin _ k e => decide (7 < (integerOf .rne false k e).1)
    | _ => true
  let put (l : List (Nat × Nat)) : Nat := l.foldl (fun x p => x + p.2 % 16 * 16 ^ (p.1 % 4)) 0
  let ord (p : Nat) : Nat × Nat := (p, ofInt 4 (code4 (at' p) free).1)
  let all := put ((List.range 4).map ord)
  if !big then (all, 0)
  else
    let (b, fl) := e4m3.round .rne sat (at' m)
    match outlierByte m b with
    | none => (all, satF)
    | some b =>
      (put [(m, 8), (m + 1, b / 16), (m + 2, b % 16), ord (m + 3)],
        fl ||| (if (code4 (at' (m + 3)) free).2 then satF else 0))

/-- The block of 2^(L+4) FP32 values with the FP32 scale `b` (R209): its bytes as a number, and flags. -/
def packBlock (l : Nat) (xs : List Nat) (b : Nat) (sat : Bool) (free : Int) : Nat × Nat :=
  let (sb, sf) := bf16.round .rne false (f32.decode b)
  let s := bf16.decode sb
  let bad : Bool := match s with | .fin _ m _ => m == 0 | _ => true
  let vals := xs.map f32.decode
  let quad (j : Nat) : Nat × Nat :=
    if bad then (0, 0) else encodeQuad (((vals.drop (4 * j)).take 4).map (fun x => over' x s)) sat free
  let qs := (List.range (2 ^ (l + 2))).map quad
  let differs (j : Nat) : Bool :=
    (List.range 4).any (fun p =>
      let v := (((quadValues (qs.getD j (0, 0)).1).1.getD p .nan).mul s).1
      let x := vals.getD (4 * j + p) .nan
      !(v.eq x) && !(v.isNan && x.isNan))
  let flags := qs.foldl (fun f q => f ||| q.2) (sf ||| (if bad then nv else 0))
  let flags := if (List.range (2 ^ (l + 2))).any differs then flags ||| nx else flags
  (sb + 2 ^ 16 * qs.foldr (fun q acc => q.1 + 2 ^ 16 * acc) 0, flags)

end Sys2Proof.Machine.VecNum
end

