-- ==== Sys2Proof/Machine/Engines.lean ====
section
/-! DEFINITION. The engines' shared operations: gates (R94 to R96, R109, R110), entering a coprocessor queue, acceptance and
start (R97), completion, and the faults of a command. -/

namespace Sys2Proof.Machine

open Sys2Proof.Machine.Num

/-! ### Gates (R109, R110) -/

/-- `gset` (R110). -/
def Gate.set (g : Gate) (cmd : Bool) (count reload : Nat) : Gate :=
  if count = 0 then { count := reload, reload := reload, phase := !g.phase, cmd := cmd, ovf := false }
  else { count := count, reload := reload, phase := g.phase, cmd := cmd, ovf := false }

/-- `gadd` (R110). -/
def Gate.add (g : Gate) (a : Int) : Gate :=
  let t := (g.count : Int) + a
  if t ≤ 0 then g.toggle (decide (t < 0))
  else if ((2 ^ 24 - 1 : Nat) : Int) < t then { g with count := 2 ^ 24 - 1, ovf := true }
  else { g with count := t.toNat }

/-- A gate fault (R110). -/
def gateFault {α : Type} : W α := trap fGate

/-- Changes a gate of the current task's context. -/
def modGate (g : Nat) (f : Gate → Gate) : W Unit := do
  let t ← curTask
  modify (fun s => s.modGate t.ctx s.focus g f)

/-- `gset` (R110). -/
def execGset (gate : Fin 32) (cmd : Bool) (a b : GReg) (s : State) : Outc :=
  plain (do
    let x ← useWord (← readG a.val)
    let y ← useWord (← readG b.val)
    if 2 ^ 24 ≤ x.toNat ∨ 2 ^ 24 ≤ y.toNat ∨ y.toNat = 0 then gateFault
    modGate gate.val (fun g => g.set cmd x.toNat y.toNat)) s

/-- `gadd` (R110). -/
def execGadd (gate : Fin 32) (a : GReg) (s : State) : Outc :=
  plain (do
    let x ← useWord (← readG a.val)
    if 2 ^ 24 ≤ x.toInt.natAbs then gateFault
    modGate gate.val (fun g => g.add x.toInt)) s

/-- `gwt` (R110): stalls until the phase is reached; the gate deadlock of R98 is judged while it stalls. -/
def execGwt (gate : Fin 32) (phase : Bool) (s : State) : Outc :=
  plain (do
    let s ← get
    let t ← curTask
    if (gateOf (s.space t.ctx s.focus) gate.val).phase ≠ phase then exit (.stall (some gate.val))) s

/-- The word that `gpoll` writes (R110). -/
def Gate.word (g : Gate) : Word :=
  BitVec.ofNat 64 ((if g.phase then 2 ^ 63 else 0) + (if g.cmd then 2 ^ 62 else 0) + (if g.ovf then 2 ^ 61 else 0)
    + g.reload * 2 ^ 24 + g.count)

/-- `gpoll` (R110). -/
def execGpoll (d : GReg) (gate : Fin 32) (s : State) : Outc :=
  plain (do
    let s ← get
    let t ← curTask
    writeG d.val { v := (gateOf (s.space t.ctx s.focus) gate.val).word, tag := 0 } 1) s

/-! ### Entering a queue (R97, R194) -/

/-- A full coprocessor queue stalls the stream; with the vector engine waiting on a full vres it raises the queue fault of
R194; a vector store held by a lock stalls on the wait gate of the locking command (R232). -/
def engineRoom (e : Engine) : W Unit := do
  let s ← get
  let x := s.core s.focus
  if 2 ≤ (x.engine e).queue.length then
    match e, x.vq.started.head? with
    | .vector, some c =>
      if pushesFifo c.what = some 9 ∧ 4 ≤ ((s.task (s.focus * 8 + c.slot)).queue 9).length then queueFault 9
    | _, _ => pure ()
    exit (.stall (some (match e with | .vector => (s.storeStall s.focus).getD 63 | _ => 63)))

/-- A command of the current task. -/
def newCmd (what : Decoded) (gates : Gates) (ops : List Tagged) : W Cmd := do
  let k ← curKey
  let t ← curTask
  let (id, s) := (← get).fresh
  set s
  return { what := what, ops := ops, gates := gates, slot := k % 8, ctx := t.ctx, tid := t.tid, pc := t.pc, progress := 0
           resumed := false, killed := false, place := id }

/-- Puts a command into its engine's coprocessor queue. -/
def enqueue (e : Engine) (c : Cmd) : W Unit :=
  modify (fun s => s.modCore s.focus (fun x =>
    let q := x.engine e
    x.setEngine e { q with queue := q.queue ++ [c] }))

/-- A word that sends a command to an engine: room, operands with their checks, the queue. -/
def engineWord (e : Engine) (what : Decoded) (gates : Gates) (ops : W (List Tagged)) (s : State) : Outc :=
  plain (do
    engineRoom e
    let l ← ops
    enqueue e (← newCmd what gates l)) s

/-- A g operand that is an address, index or count of an engine command (R195, R388), and one that is data. -/
def useG (g : GReg) : W Tagged := do
  let w ← readG g.val
  let _ ← useWord w
  return w

/-- An address as an operand. -/
def addrOp (a : Nat) : Tagged := { v := BitVec.ofNat 64 a, tag := 0 }

/-- Whether ranges of scratchpad accesses reach another core. -/
def reachOther (core : Nat) (l : List (Nat × Nat)) : Bool :=
  l.any (fun p => (linesAt core p.1 p.2).any (fun x => x.1 != core))

/-- The lines of the own scratchpad among ranges. -/
def ownOf (core : Nat) (l : List (Nat × Nat)) : List Nat :=
  (l.flatMap (fun p => ((linesAt core p.1 p.2).filter (fun x => x.1 == core)).map (·.2))).dedup

/-- In an ordered task beyond the horizon a store of an engine that would make the task non-replayable waits at issue
(R302); earlier commands are done first, so that what it writes is known. -/
def orderedStore (ranges : State → List (Nat × Nat)) : W Unit := do
  let s ← get
  let k ← curKey
  let t ← curTask
  if !s.beyondHorizon t then return ()
  let x := s.core s.focus
  if !(x.vq.of (k % 8)).isEmpty || !(x.mq.of (k % 8)).isEmpty then exit (.hold false)
  let l := ranges s
  if reachOther s.focus l || t.logFull (ownOf s.focus l) then exit (.hold false)

/-! ### Acceptance and start (R97) -/

/-- ENGINE_COMMAND_ACCEPT (R97): the next command enters the held list of 16. -/
def execEngineCommandAccept (core : Nat) (e : Engine) (s : State) : Outc :=
  event (
    let q := (s.core core).engine e
    match q.queue with
    | c :: rest =>
      if q.held.length < 16 then
        s.modCore core (fun x => x.setEngine e { q with queue := rest, held := q.held ++ [c] })
      else s
    | [] => s)

/-- ENGINE_COMMAND_START (R97, R194, R222): the next ready command starts; a matrix command of another slot than the resident
one first swaps the tiles (R218). -/
def execEngineCommandStart (core : Nat) (e : Engine) (s : State) : Outc :=
  event (match s.nextStart core e with
    | none => s
    | some c =>
      s.modCore core (fun x =>
        let q := x.engine e
        let x := x.setEngine e { q with held := q.held.filter (fun o => o.place != c.place), started := q.started ++ [c] }
        match e with
        | .matrix => { x with resident := some c.slot }
        | _ => x))

/-! ### Completion and faults -/

/-- A started command leaves its engine. -/
def State.dropStarted (s : State) (core : Nat) (e : Engine) (c : Cmd) : State :=
  s.modCore core (fun x =>
    let q := x.engine e
    x.setEngine e { q with started := q.started.filter (fun o => o.place != c.place) })

/-- Pushes a result into a FIFO of a task. -/
def Task.pushResult (t : Task) (i : Nat) (w : Tagged) : Task := t.setQueue i (t.queue i ++ [.word w])

/-- A save or a kill that waited for a started command goes on. -/
def State.settleSlot (s : State) (k : Nat) : State := (s.trySave k).tryKill k

/-- A command completes: it leaves its engine, merges its flags, pushes its result and signals its gate (R122, R194, R196); a task
that is being killed takes no result, its queue words being dropped (R390). -/
def State.endCmd (s : State) (core : Nat) (e : Engine) (c : Cmd) (flags : Nat) (push : Option (Nat × Tagged))
    (bytes : Nat) : State :=
  let k := core * 8 + c.slot
  let s := s.dropStarted core e c
  let s := if c.killed then s
    else s.modTask k (fun t =>
      let t := t.raiseFlags flags
      match push with
      | some (i, w) => if t.stat.dying then t else t.pushResult i w
      | none => t)
  (s.signal core c bytes true).settleSlot k

/-- What stops a command: poison that it consumes, or a fault. -/
inductive CmdStop where
  | poison (tag : Nat)
  | stop (st : Stop)
  deriving DecidableEq, Repr

/-- A command whose fault is raised in command order goes back, with the later started ones of its task, to the head of the
held list (R195). The copy engine keeps its started commands at their beats, this one first (R100); a gather goes back alone
(R258). -/
def State.requeue (s : State) (core : Nat) (e : Engine) (c : Cmd) : State :=
  s.modCore core (fun x =>
    let q := x.engine e
    let again (o : Cmd) : Cmd := { o with resumed := true }
    match e with
    | .copy =>
      let rest := q.started.filter (fun o => o.place != c.place)
      if isGather c.what then x.setEngine e { q with started := rest, held := again c :: q.held }
      else x.setEngine e { q with started := c :: rest }
    | _ =>
      let mine (o : Cmd) : Bool := o.slot == c.slot && !o.killed && decide (c.place ≤ o.place)
      x.setEngine e
        { q with
          started := q.started.filter (fun o => !mine o)
          held := (q.started.filter mine).map again ++ q.held })

/-- The stop of a command: at a migrating page the access is held, the command keeping its place, and its task parks (R82, R107);
another stop abandons a command whose task is killed; else the task takes the poison kill, the upcall or the trap, which names the
command. -/
def State.stopCmd (s : State) (core : Nat) (e : Engine) (c : Cmd) (st : CmdStop) : State :=
  let k := core * 8 + c.slot
  let gone := c.killed || s.cmdDying core c
  match st with
  | .stop (.migrating va) => if gone then s else s.deliverStop k c.pc none (.migrating va)
  | st =>
  if gone then (s.dropStarted core e c).tryKill k
  else
    match st with
    | .poison tag => (s.requeue core e c).poisonKill k tag
    | .stop st =>
      let s := s.requeue core e c
      if (s.task k).stoppable then s.deliverStop k c.pc (some (e, c.place)) st else s.trySave k

/-- A vector or matrix store to scratchpad: the undo log in the own scratchpad, which a kill rolls back, and the target through the
hive window, which makes the task non-replayable and ends an open section (R198, R234, R287). -/
def State.engineStore (s : State) (core : Nat) (c : Cmd) (a : Nat) (l : List (Byte × Nat)) : State :=
  let k := core * 8 + c.slot
  let lines := linesAt core a l.length
  let others := lines.any (fun x => x.1 != core)
  let s := ((lines.filter (fun x => x.1 == core)).map (·.2)).foldl (fun s x => s.logLine k x) s
  let s := if others then s.modTask k (fun t => { t.storedOut with replayable := false }) else s
  s.spadPutT c.ctx core a l

/-- Records the accesses out of range of a command (R87, R88): one record for a single contiguous access, else one each. -/
def State.noteBad (s : State) (ctx core unit : Nat) (write single : Bool) (l : List (Nat × Nat)) : State :=
  let bad := l.filterMap (fun p => firstBad core p.1 0 p.2)
  (if single then bad.take 1 else bad).foldl (fun s a => s.spErr ctx core unit write a) s

/-- Reads through a memory port are seen by the tasks of its core (R297). -/
def State.seeReads (s : State) (core : Nat) (l : List (Nat × Nat)) : State :=
  l.foldl (fun s p => match spadTarget core p.1 with
    | some (c, off) => if c = core then s else s.portSeen c off p.2
    | none => s) s

end Sys2Proof.Machine
end

