-- ==== Sys2Proof/Machine/VecOps.lean ====
section
/-! DEFINITION. What each vector and mask command computes (R200 to R216): its results from the registers, the masks and the
bytes it loads. -/

namespace Sys2Proof.Machine

open Sys2Proof.Machine.Num

/-- What a vector command does when it executes: registers and masks written, a result pushed into vres, accesses written to
scratchpad, flags. -/
structure VOut where
  v : List (Nat × VVal)
  m : List (Nat × BitVec 64)
  push : Option Tagged
  writes : List (Nat × List (Byte × Nat))
  flags : Nat
  deriving DecidableEq, Repr

def VOut.none : VOut := { v := [], m := [], push := Option.none, writes := [], flags := 0 }

/-- The setting of a vector command: the state, its slot (core × 8 + slot), the command, and what its accesses loaded. -/
structure VIn where
  s : State
  k : Nat
  c : Cmd
  data : List (List (Byte × Nat))

namespace VIn

def reg (x : VIn) (n : Nat) : VVal := x.s.vreg x.k n
def els (x : VIn) (n w : Nat) : List Nat := elems w (x.reg n).v
def tags (x : VIn) (l : List Nat) : Nat := l.foldl (fun t n => minTag t (x.reg n).tag) 0
def mask (x : VIn) (pred : Nat) : BitVec 64 := x.s.mreg x.k pred

/-- The elements that a predicate lets take part. -/
def parts (x : VIn) (pred w : Nat) : List Nat := Machine.parts (x.mask pred) pred w (1024 / w)

/-- Writes one whole register. -/
def put (d : Nat) (v : Vec) (tag flags : Nat) : VOut := { VOut.none with v := [(d, { v := v, tag := tag })], flags := flags }

/-- An element-wise command: element `i` takes `f i` and its flags where it takes part, and keeps its value elsewhere (R193);
the result's tag is the lowest of its inputs, the kept elements among them (R121). -/
def elementwise (x : VIn) (d pred w : Nat) (srcs : List Nat) (f : Nat → Nat × Nat) : VOut :=
  let old := x.els d w
  let m := x.mask pred
  let l := old.zipIdx.map (fun p => if active m pred w p.2 then f p.2 else (p.1, 0))
  put d (ofElems w (l.map (·.1))) (x.tags (keepD pred d ++ srcs)) (l.foldl (fun g p => g ||| p.2) 0)

/-- Element `i` of a list. -/
def at' (l : List Nat) (i : Nat) : Nat := l.getD i 0

/-! ### Element-wise arithmetic (R200 to R202) -/

/-- An exact integer in a type: clamped, or modulo 2^w (R131). -/
def intResult (t : Ty) (sat : Bool) (i : Int) : Nat × Nat := if sat then clamp t i else (ofInt t.width i, 0)

/-- An exact float rounded once, with the flags of forming it. -/
def floatResult (t : Ty) (mode : RMode) (sat : Bool) (r : FV × Nat) : Nat × Nat :=
  let (b, fl) := (fmtOf t).round mode sat r.1
  (b, r.2 ||| fl)

/-- A command of two sources. -/
def arith (x : VIn) (o : V3) (fi : Int → Int → Int) (ff : FV → FV → FV × Nat) : VOut :=
  let w := o.t.width
  let a := x.els o.a.val w
  let b := x.els o.b.val w
  x.elementwise o.d.val o.pred.val w [o.a.val, o.b.val] (fun i =>
    if o.t.isFloat then
      floatResult o.t o.mode o.sat (ff ((fmtOf o.t).decode (at' a i)) ((fmtOf o.t).decode (at' b i)))
    else intResult o.t o.sat (fi (value o.t (at' a i)) (value o.t (at' b i))))

def vadd (x : VIn) (o : V3) : VOut := x.arith o (· + ·) (fun a b => a.add o.mode b)
def vsub (x : VIn) (o : V3) : VOut := x.arith o (· - ·) (fun a b => a.add o.mode b.neg)
def vmul (x : VIn) (o : V3) : VOut := x.arith o (· * ·) (fun a b => a.mul b)

/-- A command of three sources. -/
def fused (x : VIn) (o : V4) (fi : Int → Int → Int → Int) (ff : FV → FV → FV → FV × Nat) : VOut :=
  let w := o.t.width
  let a := x.els o.a.val w
  let b := x.els o.b.val w
  let c := x.els o.c.val w
  x.elementwise o.d.val o.pred.val w [o.a.val, o.b.val, o.c.val] (fun i =>
    if o.t.isFloat then
      let f (l : List Nat) : FV := (fmtOf o.t).decode (at' l i)
      floatResult o.t o.mode o.flag (ff (f a) (f b) (f c))
    else intResult o.t o.flag (fi (value o.t (at' a i)) (value o.t (at' b i)) (value o.t (at' c i))))

def vfma (x : VIn) (o : V4) : VOut := x.fused o (fun a b c => a * b + c) (fun a b c => a.fma o.mode b c)
def vfms (x : VIn) (o : V4) : VOut := x.fused o (fun a b c => a * b - c) (fun a b c => a.fma o.mode b c.neg)

/-- A command of two sources that forms bits and no flag. -/
def bits2 (x : VIn) (o : V3) (f : Nat → Nat → Nat) : VOut :=
  let w := o.t.width
  let a := x.els o.a.val w
  let b := x.els o.b.val w
  x.elementwise o.d.val o.pred.val w [o.a.val, o.b.val] (fun i => (f (at' a i) (at' b i), 0))

/-- Minimum and maximum in a type's order (R126). -/
def minOf2 (t : Ty) (a b : Nat) : Nat :=
  if t.isFloat then (fmtOf t).min a b else if value t b < value t a then b else a

def maxOf2 (t : Ty) (a b : Nat) : Nat :=
  if t.isFloat then (fmtOf t).max a b else if value t a < value t b then b else a

def vmin (x : VIn) (o : V3) : VOut := x.bits2 o (minOf2 o.t)
def vmax (x : VIn) (o : V3) : VOut := x.bits2 o (maxOf2 o.t)
def vand (x : VIn) (o : V3) : VOut := x.bits2 o (fun a b => a &&& b)
def vor (x : VIn) (o : V3) : VOut := x.bits2 o (fun a b => a ||| b)
def vxor (x : VIn) (o : V3) : VOut := x.bits2 o (fun a b => a ^^^ b)
def vshl (x : VIn) (o : V3) : VOut := x.bits2 o (fun a b => low o.t.width (a * 2 ^ (b % o.t.width)))
def vshr (x : VIn) (o : V3) : VOut := x.bits2 o (fun a b => a / 2 ^ (b % o.t.width))
def vsra (x : VIn) (o : V3) : VOut := x.bits2 o (fun a b => sra o.t.width a (b % o.t.width))

/-- A command of one source. -/
def unary (x : VIn) (o : V2) (f : Nat → Nat × Nat) : VOut :=
  let a := x.els o.a.val o.t.width
  x.elementwise o.d.val o.pred.val o.t.width [o.a.val] (fun i => f (at' a i))

/-- The sign bit of a float set as given; a NaN is made canonical (R200). -/
def withSign (t : Ty) (a : Nat) (s : Nat) : Nat :=
  let f := fmtOf t
  if (f.decode a).isNan then f.nanBits else a % 2 ^ (t.width - 1) + s % 2 * 2 ^ (t.width - 1)

def vabs (x : VIn) (o : V2) : VOut :=
  x.unary o (fun a =>
    if o.t.isFloat then (withSign o.t a 0, 0) else intResult o.t o.sat ((value o.t a).natAbs : Int))

def vneg (x : VIn) (o : V2) : VOut :=
  x.unary o (fun a =>
    if o.t.isFloat then (withSign o.t a (a / 2 ^ (o.t.width - 1) + 1), 0) else intResult o.t o.sat (-(value o.t a)))

/-- A function of R201. -/
def special (x : VIn) (o : V2) (f : FV → FV × Nat) : VOut :=
  x.unary o (fun a => floatResult o.t o.mode o.sat (f ((fmtOf o.t).decode a)))

def vrcp (x : VIn) (o : V2) : VOut := x.special o VecNum.rcp
def vrsq (x : VIn) (o : V2) : VOut := x.special o VecNum.rsq
def vexp (x : VIn) (o : V2) : VOut := x.special o VecNum.exp
def vtanh (x : VIn) (o : V2) : VOut := x.special o VecNum.tanh
def vmov (x : VIn) (o : V2) : VOut := x.unary o (fun a => (a, 0))

/-! ### Compare, select, moves (R203, R204) -/

/-- A comparison: bit i of the mask; excluded elements and bits beyond the elements are 0. -/
def compare (x : VIn) (o : VCmp) (fi : Int → Int → Bool) (ff : FV → FV → Bool) : VOut :=
  let w := o.t.width
  let a := x.els o.a.val w
  let b := x.els o.b.val w
  let bit (i : Nat) : Bool :=
    if o.t.isFloat then ff ((fmtOf o.t).decode (at' a i)) ((fmtOf o.t).decode (at' b i))
    else fi (value o.t (at' a i)) (value o.t (at' b i))
  let m := (x.parts o.pred.val w).foldl (fun m i => if bit i then m + 2 ^ i else m) 0
  { VOut.none with m := [(o.d.val, BitVec.ofNat 64 m)] }

def vcmpEq (x : VIn) (o : VCmp) : VOut := x.compare o (fun a b => a == b) FV.eq
def vcmpNe (x : VIn) (o : VCmp) : VOut := x.compare o (fun a b => a != b) (fun a b => !(a.eq b))
def vcmpLt (x : VIn) (o : VCmp) : VOut := x.compare o (fun a b => decide (a < b)) FV.lt
def vcmpLe (x : VIn) (o : VCmp) : VOut := x.compare o (fun a b => decide (a ≤ b)) (fun a b => a.lt b || a.eq b)

def vsel (x : VIn) (o : VSel) : VOut :=
  let w := o.t.width
  let a := x.els o.a.val w
  let b := x.els o.b.val w
  let m := x.mask o.m.val
  put o.d.val (ofElems w ((List.range (1024 / w)).map (fun i => if active m 1 w i then at' a i else at' b i)))
    (x.tags [o.a.val, o.b.val]) 0

def vmovGm (x : VIn) (o : VMovGm) : VOut := { VOut.none with m := [(o.d.val, BitVec.ofNat 64 (x.c.val 0))] }
def vmovMm (x : VIn) (o : MaskArg) : VOut := { VOut.none with m := [(o.d.val, x.mask o.a.val)] }
def vmovMq (x : VIn) (o : MaskArg) : VOut := { VOut.none with push := some { v := x.mask o.a.val, tag := 0 } }

def vbcast (x : VIn) (o : VG) : VOut :=
  let r := x.elementwise o.d.val o.pred.val o.t.width [] (fun _ => (low o.t.width (x.c.val 0), 0))
  let tag := (x.c.ops.getD 0 zeroT).tag
  { r with v := r.v.map (fun p => (p.1, { p.2 with tag := minTag p.2.tag tag })) }

/-- What `vext` pushes (R204). -/
def extValue (t : Ty) (a : Nat) : Word :=
  match t with
  | .f32 => BitVec.ofNat 64 a
  | t => loadValue t a

def vext (x : VIn) (o : VExt) : VOut :=
  { VOut.none with
    push := some { v := extValue o.t (at' (x.els o.a.val o.t.width) o.index.val), tag := (x.reg o.a.val).tag } }

/-! ### Conversion (R205) -/

/-- The function conv: with S = T the value is kept and only NaNs are made canonical. -/
def conv (o : VCvt) (a : Nat) : Nat × Nat :=
  if o.src = o.t then (if o.t.isFloat then (fmtOf o.t).canon a else low o.t.width a, 0)
  else convert o.src o.t o.mode o.sat a

def vcvt (x : VIn) (o : VCvt) : VOut :=
  let ws := o.src.width
  let wt := o.t.width
  let w := Nat.max ws wt
  let n := 1024 / w
  let a := x.els o.a.val ws
  let m := x.mask o.pred.val
  let one (i : Nat) : Nat × Nat := conv o (at' a i)
  let p := o.part.val
  let l := (x.els o.d.val wt).zipIdx.map (fun q =>
    if wt < ws then
      let j := q.2 - p * n
      if decide (p * n ≤ q.2) && decide (j < n) && active m o.pred.val w j then one j else (q.1, 0)
    else if active m o.pred.val w q.2 then one (p * n + q.2)
    else (q.1, 0))
  let keep := if wt < ws then [o.d.val] else keepD o.pred.val o.d.val
  put o.d.val (ofElems wt (l.map (·.1))) (x.tags (keep ++ [o.a.val])) (l.foldl (fun g r => g ||| r.2) 0)

/-! ### Loads and stores (R206 to R208) -/

/-- The bytes of the elements of a register that take part. -/
def storeBytes (x : VIn) (d : Nat) (t : Ty) (pred : Nat) : List (List (Byte × Nat)) :=
  let tag := (x.reg d).tag
  if pred = 0 then [(bytesOf 128 (x.reg d).v.toNat).map (fun b => (b, tag))]
  else
    let e := x.els d t.width
    (x.parts pred t.width).map (fun i => (bytesOf (t.width / 8) (at' e i)).map (fun b => (b, tag)))

/-- The register that loaded elements leave, those that take part in order. -/
def loaded (x : VIn) (d w pred : Nat) (vals : List (Nat × Nat)) (tag : Nat) : VOut :=
  let m := x.mask pred
  let step (acc : List (Nat × Nat) × List (Nat × Nat)) (p : Nat × Nat) : List (Nat × Nat) × List (Nat × Nat) :=
    if active m pred w p.2 then
      match acc.2 with
      | v :: rest => (v :: acc.1, rest)
      | [] => ((p.1, 0) :: acc.1, [])
    else ((p.1, 0) :: acc.1, acc.2)
  let l := ((x.els d w).zipIdx.foldl step ([], vals)).1.reverse
  put d (ofElems w (l.map (·.1))) (minTag tag (x.tags (keepD pred d))) (l.foldl (fun g p => g ||| p.2) 0)

def number (l : List (Byte × Nat)) : Nat := ofBytes (l.map (·.1))

def dataTag (x : VIn) : Nat := x.data.foldl (fun t l => minTag t (tagOfBytes l)) 0

def vld (x : VIn) (o : VMem) : VOut :=
  if o.pred.val = 0 then put o.d.val (BitVec.ofNat 1024 (number (x.data.getD 0 []))) x.dataTag 0
  else x.loaded o.d.val o.t.width o.pred.val (x.data.map (fun l => (number l, 0))) x.dataTag

def vldx (x : VIn) (o : VIdx) : VOut :=
  x.loaded o.d.val o.t.width o.pred.val (x.data.map (fun l => (number l, 0))) x.dataTag

def vst (x : VIn) (o : VMem) : VOut :=
  { VOut.none with writes := ((x.s.vaccess x.k x.c).map (·.1)).zip (x.storeBytes o.d.val o.t o.pred.val) }

def vstx (x : VIn) (o : VIdx) : VOut :=
  let tag := (x.reg o.d.val).tag
  let e := x.els o.d.val o.t.width
  { VOut.none with
    writes := ((x.s.vaccess x.k x.c).map (·.1)).zip
      ((x.parts o.pred.val o.t.width).map (fun i => (bytesOf (o.t.width / 8) (at' e i)).map (fun b => (b, tag)))) }

/-- The elements of a Q4X access: for each element that takes part, its place in its quad's values (R133, R134, R208). -/
def q4xLoad (x : VIn) (o : VMem) : List (Nat × Nat) :=
  let ps := x.parts o.pred.val o.t.width
  let quads := (ps.map (fun j => j / 4 * 4)).dedup
  ps.map (fun j =>
    let i := quads.findIdx (· == j / 4 * 4)
    let scale := bf16.decode (number (x.data.getD (2 * i) []))
    let (vs, qf) := quadValues (number (x.data.getD (2 * i + 1) []))
    let (v, n) := scaleElem scale (vs.getD (j % 4) .nan)
    let (b, fl) := (fmtOf o.t).round o.mode false v
    (b, qf ||| n ||| fl))

def vldf (x : VIn) (o : VMem) : VOut :=
  let fmt := x.c.val 0 / 2 ^ 60
  let vals := if fmt = 8 then x.q4xLoad o
    else
      let src := (tyOfFmt fmt).getD .n8
      x.data.map (fun l => convert src o.t o.mode false (number l))
  x.loaded o.d.val o.t.width o.pred.val vals x.dataTag

def vstf (x : VIn) (o : VMem) : VOut :=
  let t := (tyOfFmt (x.c.val 0 / 2 ^ 60)).getD .n8
  let tag := (x.reg o.d.val).tag
  let e := x.els o.d.val o.t.width
  let vals := (x.parts o.pred.val o.t.width).map (fun i => convert o.t t o.mode o.sat (at' e i))
  { VOut.none with
    writes := ((x.s.vaccess x.k x.c).map (·.1)).zip
      (vals.map (fun v => (bytesOf (t.width / 8) v.1).map (fun b => (b, tag))))
    flags := vals.foldl (fun g v => g ||| v.2) 0 }

/-! ### Q4X (R209, R210) -/

/-- The code of a NaN that is no outlier is a free value (log 26). -/
def freeCode (x : VIn) : Int := ((Config.freeWord x.s.tick).toNat % 15 : Nat) - 7

def vpack (x : VIn) (o : VPk) : VOut :=
  let l := if o.l then 1 else 0
  let (b, fl) := VecNum.packBlock l ((x.els o.a.val 32).take (2 ^ (l + 4))) (at' (x.els o.b.val 32) 0) o.sat x.freeCode
  put o.d.val (BitVec.ofNat 1024 b) (x.tags [o.a.val, o.b.val]) fl

def vunpk (x : VIn) (o : VPk) : VOut :=
  let l := if o.l then 1 else 0
  let a := (x.reg o.a.val).v.toNat
  let scale := bf16.decode (a % 2 ^ 16)
  let quads := (List.range (2 ^ (l + 2))).map (fun j => quadValues (a / 2 ^ (16 + 16 * j) % 2 ^ 16))
  let vals := quads.flatMap (fun q => q.1.map (fun e =>
    let (v, n) := scaleElem scale e
    let (b, fl) := f32.round .rne false v
    (b, n ||| fl)))
  put o.d.val (ofElems 32 (vals.map (·.1))) (x.tags [o.a.val])
    (vals.foldl (fun g v => g ||| v.2) (quads.foldl (fun g q => g ||| q.2) 0))

/-! ### Reductions and dot products (R211, R212) -/

/-- An exact sum rounded once to FP32 in lane 0, every other byte 0. -/
def sumF32 (d : Nat) (mode : RMode) (sum : Sum) (tag : Nat) : VOut :=
  let (v, n) := sum.value
  let (b, fl) := f32.round mode false v
  put d (BitVec.ofNat 1024 b) tag (n ||| fl)

def vredsum (x : VIn) (o : V4) : VOut :=
  let w := o.t.width
  let a := x.els o.a.val w
  let ps := x.parts o.pred.val w
  let tag := x.tags (if o.flag then [o.a.val, o.c.val] else [o.a.val])
  if o.t.isFloat then
    let s0 := if o.flag then Sum.empty.term (f32.decode (at' (x.els o.c.val 32) 0)) else Sum.empty
    sumF32 o.d.val o.mode (ps.foldl (fun s i => s.term ((fmtOf o.t).decode (at' a i))) s0) tag
  else
    let acc : Int := if o.flag then ((x.reg o.c.val).v.toNat % 2 ^ 64 : Nat) else 0
    put o.d.val (BitVec.ofNat 1024 (ofInt 64 (ps.foldl (fun s i => s + value o.t (at' a i)) acc))) tag 0

/-- The identity of a maximum or minimum (R211). -/
def identity (t : Ty) (isMax : Bool) : Nat :=
  if t.isFloat then (fmtOf t).infBits isMax else ofInt t.width (if isMax then minOf t else maxOf t)

def reduce (x : VIn) (o : V2) (isMax : Bool) : VOut :=
  let w := o.t.width
  let a := x.els o.a.val w
  let r := (x.parts o.pred.val w).foldl
    (fun r i => if isMax then maxOf2 o.t r (at' a i) else minOf2 o.t r (at' a i)) (identity o.t isMax)
  put o.d.val (BitVec.ofNat 1024 r) (x.tags [o.a.val]) 0

def vredmax (x : VIn) (o : V2) : VOut := x.reduce o true
def vredmin (x : VIn) (o : V2) : VOut := x.reduce o false

def vdot (x : VIn) (o : V4) : VOut :=
  let w := o.t.width
  let a := x.els o.a.val w
  let b := x.els o.b.val w
  let ps := x.parts o.pred.val w
  let tag := x.tags (if o.flag then [o.a.val, o.b.val, o.c.val] else [o.a.val, o.b.val])
  if o.t.isFloat then
    let f (l : List Nat) (i : Nat) : FV := (fmtOf o.t).decode (at' l i)
    let s0 := if o.flag then Sum.empty.term (f32.decode (at' (x.els o.c.val 32) 0)) else Sum.empty
    sumF32 o.d.val o.mode (ps.foldl (fun s i => s.product (f a i) (f b i)) s0) tag
  else
    let acc : Int := if o.flag then ((x.reg o.c.val).v.toNat % 2 ^ 64 : Nat) else 0
    put o.d.val
      (BitVec.ofNat 1024 (ofInt 64 (ps.foldl (fun s i => s + value o.t (at' a i) * value o.t (at' b i)) acc))) tag 0

/-! ### Permutes, selection, projections (R213 to R215) -/

def vperm (x : VIn) (o : V3) : VOut :=
  let w := o.t.width
  let n := 1024 / w
  let a := x.els o.a.val w
  let b := x.els o.b.val w
  x.elementwise o.d.val o.pred.val w [o.a.val, o.b.val] (fun i => (at' a (at' b i % n), 0))

def vrot (x : VIn) (o : VRot) : VOut :=
  let w := o.t.width
  let n := 1024 / w
  let a := x.els o.a.val w
  let r := x.elementwise o.d.val o.pred.val w [o.a.val] (fun i => (at' a ((i + n - x.c.val 0 % n) % n), 0))
  let tag := (x.c.ops.getD 0 zeroT).tag
  { r with v := r.v.map (fun p => (p.1, { p.2 with tag := minTag p.2.tag tag })) }

/-- The order of `vtopk`: higher key first, then lower index. -/
def better (a b : Nat × Nat) : Bool :=
  let x := f32.decode a.1
  let y := f32.decode b.1
  y.below x || (!x.below y && decide (a.2 < b.2))

def vtopk (x : VIn) (o : VLit) : VOut :=
  let k := o.lit.val
  let d := o.d.val
  let keys := x.els d 32
  let idx := x.els (d + 1) 32
  let a := x.els o.a.val 32
  let b := x.els o.b.val 32
  let cand := (List.range k).map (fun i => (at' keys i, at' idx i))
    ++ (x.parts o.pred.val 32).map (fun j => (at' a j, at' b j))
  let best := (sortBy better (cand.filter (fun c => !(f32.decode c.1).isNan))).take k
  let pad (i : Nat) : Nat × Nat := best.getD i (f32.infBits true, 0xFFFFFFFF)
  let l := (List.range 32).map pad
  let tag := x.tags [d, d + 1, o.a.val, o.b.val]
  { VOut.none with
    v := [(d, { v := ofElems 32 (l.map (·.1)), tag := tag }), (d + 1, { v := ofElems 32 (l.map (·.2)), tag := tag })] }

/-- Bit `d` of projection `j` (R215). -/
def projBit (sp : Space) (j d : Nat) : Bool := (Tab.get Memory.unlisted sp.proj (32 * j + d / 8)).getLsbD (d % 8)

def vsig (x : VIn) (o : VLit) : VOut :=
  let sp := x.s.space x.c.ctx (x.k / 8)
  let ch := o.lit.val % 4
  let g := o.lit.val / 4 % 4
  let a := (x.els o.a.val 16).map bf16.decode
  let old := x.els o.d.val 32
  let r := x.elementwise o.d.val o.pred.val 32 [o.d.val, o.a.val] (fun l =>
    let sum := a.zipIdx.foldl
      (fun (s : Sum) p => s.signed (projBit sp (32 * g + l) (64 * ch + p.2)) p.1)
      (Sum.empty.term (f32.decode (at' old l)))
    let (v, n) := sum.value
    let (b, fl) := f32.round .rne false v
    (b, n ||| fl))
  { r with v := r.v.map (fun p => (p.1, { p.2 with tag := minTag p.2.tag sp.projTag })) }

/-! ### Masks (R216) -/

def maskOp (x : VIn) (o : MaskArg) (f : BitVec 64 → BitVec 64 → BitVec 64) : VOut :=
  { VOut.none with m := [(o.d.val, f (x.mask o.a.val) (x.mask o.b.val))] }

def mand (x : VIn) (o : MaskArg) : VOut := x.maskOp o (fun a b => a &&& b)
def mor (x : VIn) (o : MaskArg) : VOut := x.maskOp o (fun a b => a ||| b)
def mnot (x : VIn) (o : MaskArg) : VOut := x.maskOp o (fun a _ => ~~~a)

def mpop (x : VIn) (o : MaskArg) : VOut :=
  { VOut.none with push := some { v := BitVec.ofNat 64 (popc 64 (x.mask o.a.val).toNat), tag := 0 } }

def mfirst (x : VIn) (o : MaskArg) : VOut :=
  { VOut.none with push := some { v := BitVec.ofNat 64 (ctz 64 (x.mask o.a.val).toNat), tag := 0 } }

end VIn

end Sys2Proof.Machine
end

