-- ==== Sys2Proof/Machine/Vector.lean ====
section
/-! DEFINITION. The vector and mask words (R192 to R216): what each checks and sends to the vector engine. Their effects are those
of VecOps, at VECTOR_COMMAND_COMPLETE. -/

namespace Sys2Proof.Machine

open Sys2Proof.Machine.Num

/-- A vector command without a g operand. -/
def vecWord (what : Instr) (g : Gates) (s : State) : Outc := engineWord .vector (.std what) g (pure []) s

/-- A vector command with one g operand as data. -/
def vecG (what : Instr) (g : Gates) (a : GReg) (s : State) : Outc :=
  engineWord .vector (.std what) g (do return [← readG a.val]) s

/-- The address of `vld` and `vst` (R206), checked at issue. -/
def vecAddress (a b : GReg) : W (List Tagged) := do
  let x ← useWord (← readG a.val)
  let y ← useWord (← readG b.val)
  return [addrOp (← address x y 0 0)]

/-- The base of `vldx` and `vstx` (R207). -/
def vecBase (a : GReg) : W (List Tagged) := do
  let x ← useWord (← readG a.val)
  return [addrOp (vaOf x)]

/-- The pointer and element index of `vldf` and `vstf` with the checks of R208. -/
def fmtOps (a b : GReg) (n : Nat) (store : Bool) : W (List Tagged) := do
  let x ← useG a
  let y ← useG b
  let f := fmtCode x.v
  let e := y.v.toInt
  if f = 0 ∨ 13 ≤ f ∨ (store ∧ f = 8) then trap fFormat
  if f = 8 then
    if e < 0 ∨ e % 4 ≠ 0 then trap fFormat
  else
    let lo : Int := (vaOf x.v : Int) + e * (fmtBytes f : Int)
    let hi : Int := lo + ((n - 1) * fmtBytes f : Nat)
    if lo < 0 ∨ ((2 ^ 57 : Nat) : Int) ≤ hi then trap fPointer
  return [x, y]

/-- A store of the vector engine: in an ordered task it may wait (R302). -/
def vecStore (what : Instr) (g : Gates) (ops : W (List Tagged)) (s : State) : Outc :=
  plain (do
    engineRoom .vector
    let l ← ops
    let c ← newCmd (.std what) g l
    orderedStore (fun s => s.vaccess (s.focus * 8 + c.slot) c)
    enqueue .vector c) s

/-- `vadd` (R200). -/
def execVadd (x : V3) (s : State) : Outc := vecWord (.vadd x) x.gates s

/-- `vsub` (R200). -/
def execVsub (x : V3) (s : State) : Outc := vecWord (.vsub x) x.gates s

/-- `vmul` (R200). -/
def execVmul (x : V3) (s : State) : Outc := vecWord (.vmul x) x.gates s

/-- `vfma` (R200). -/
def execVfma (x : V4) (s : State) : Outc := vecWord (.vfma x) x.gates s

/-- `vfms` (R200). -/
def execVfms (x : V4) (s : State) : Outc := vecWord (.vfms x) x.gates s

/-- `vmin` (R200). -/
def execVmin (x : V3) (s : State) : Outc := vecWord (.vmin x) x.gates s

/-- `vmax` (R200). -/
def execVmax (x : V3) (s : State) : Outc := vecWord (.vmax x) x.gates s

/-- `vabs` (R200). -/
def execVabs (x : V2) (s : State) : Outc := vecWord (.vabs x) x.gates s

/-- `vneg` (R200). -/
def execVneg (x : V2) (s : State) : Outc := vecWord (.vneg x) x.gates s

/-- `vrcp` (R201). -/
def execVrcp (x : V2) (s : State) : Outc := vecWord (.vrcp x) x.gates s

/-- `vrsq` (R201). -/
def execVrsq (x : V2) (s : State) : Outc := vecWord (.vrsq x) x.gates s

/-- `vexp` (R201). -/
def execVexp (x : V2) (s : State) : Outc := vecWord (.vexp x) x.gates s

/-- `vtanh` (R201). -/
def execVtanh (x : V2) (s : State) : Outc := vecWord (.vtanh x) x.gates s

/-- `vcvt` (R205). -/
def execVcvt (x : VCvt) (s : State) : Outc := vecWord (.vcvt x) x.gates s

/-- `vand` (R202). -/
def execVand (x : V3) (s : State) : Outc := vecWord (.vand x) x.gates s

/-- `vor` (R202). -/
def execVor (x : V3) (s : State) : Outc := vecWord (.vor x) x.gates s

/-- `vxor` (R202). -/
def execVxor (x : V3) (s : State) : Outc := vecWord (.vxor x) x.gates s

/-- `vshl` (R202). -/
def execVshl (x : V3) (s : State) : Outc := vecWord (.vshl x) x.gates s

/-- `vshr` (R202). -/
def execVshr (x : V3) (s : State) : Outc := vecWord (.vshr x) x.gates s

/-- `vsra` (R202). -/
def execVsra (x : V3) (s : State) : Outc := vecWord (.vsra x) x.gates s

/-- `vcmp.eq` (R203). -/
def execVcmpEq (x : VCmp) (s : State) : Outc := vecWord (.vcmpEq x) x.gates s

/-- `vcmp.ne` (R203). -/
def execVcmpNe (x : VCmp) (s : State) : Outc := vecWord (.vcmpNe x) x.gates s

/-- `vcmp.lt` (R203). -/
def execVcmpLt (x : VCmp) (s : State) : Outc := vecWord (.vcmpLt x) x.gates s

/-- `vcmp.le` (R203). -/
def execVcmpLe (x : VCmp) (s : State) : Outc := vecWord (.vcmpLe x) x.gates s

/-- `vsel` (R203). -/
def execVsel (x : VSel) (s : State) : Outc := vecWord (.vsel x) x.gates s

/-- `vmov` (R204). -/
def execVmov (x : V2) (s : State) : Outc := vecWord (.vmov x) x.gates s

/-- `vmov.gm` (R204). -/
def execVmovGm (x : VMovGm) (s : State) : Outc := vecG (.vmovGm x) x.gates x.a s

/-- `vmov.mm` (R204). -/
def execVmovMm (x : MaskArg) (s : State) : Outc := vecWord (.vmovMm x) x.gates s

/-- `vmov.mq` (R204). -/
def execVmovMq (x : MaskArg) (s : State) : Outc := vecWord (.vmovMq x) x.gates s

/-- `vbcast` (R204). -/
def execVbcast (x : VG) (s : State) : Outc := vecG (.vbcast x) x.gates x.a s

/-- `vext` (R204). -/
def execVext (x : VExt) (s : State) : Outc := vecWord (.vext x) x.gates s

/-- `vld` (R206). -/
def execVld (x : VMem) (s : State) : Outc := engineWord .vector (.std (.vld x)) x.gates (vecAddress x.a x.b) s

/-- `vst` (R206). -/
def execVst (x : VMem) (s : State) : Outc := vecStore (.vst x) x.gates (vecAddress x.a x.b) s

/-- `vldx` (R207). -/
def execVldx (x : VIdx) (s : State) : Outc := engineWord .vector (.std (.vldx x)) x.gates (vecBase x.a) s

/-- `vstx` (R207). -/
def execVstx (x : VIdx) (s : State) : Outc := vecStore (.vstx x) x.gates (vecBase x.a) s

/-- `vldf` (R208). -/
def execVldf (x : VMem) (s : State) : Outc := 
  engineWord .vector (.std (.vldf x)) x.gates (fmtOps x.a x.b (1024 / x.t.width) false) s

/-- `vstf` (R208). -/
def execVstf (x : VMem) (s : State) : Outc := 
  vecStore (.vstf x) x.gates (fmtOps x.a x.b (1024 / x.t.width) true) s

/-- `vpack` (R209). -/
def execVpack (x : VPk) (s : State) : Outc := vecWord (.vpack x) x.gates s

/-- `vunpk` (R210). -/
def execVunpk (x : VPk) (s : State) : Outc := vecWord (.vunpk x) x.gates s

/-- `vredsum` (R211). -/
def execVredsum (x : V4) (s : State) : Outc := vecWord (.vredsum x) x.gates s

/-- `vredmax` (R211). -/
def execVredmax (x : V2) (s : State) : Outc := vecWord (.vredmax x) x.gates s

/-- `vredmin` (R211). -/
def execVredmin (x : V2) (s : State) : Outc := vecWord (.vredmin x) x.gates s

/-- `vdot` (R212). -/
def execVdot (x : V4) (s : State) : Outc := vecWord (.vdot x) x.gates s

/-- `vperm` (R213). -/
def execVperm (x : V3) (s : State) : Outc := vecWord (.vperm x) x.gates s

/-- `vrot` (R213). -/
def execVrot (x : VRot) (s : State) : Outc := vecG (.vrot x) x.gates x.b s

/-- `vtopk` (R214). -/
def execVtopk (x : VLit) (s : State) : Outc := vecWord (.vtopk x) x.gates s

/-- `vsig` (R215). -/
def execVsig (x : VLit) (s : State) : Outc := vecWord (.vsig x) x.gates s

/-- `mand` (R216). -/
def execMand (x : MaskArg) (s : State) : Outc := vecWord (.mand x) x.gates s

/-- `mor` (R216). -/
def execMor (x : MaskArg) (s : State) : Outc := vecWord (.mor x) x.gates s

/-- `mnot` (R216). -/
def execMnot (x : MaskArg) (s : State) : Outc := vecWord (.mnot x) x.gates s

/-- `mpop` (R216). -/
def execMpop (x : MaskArg) (s : State) : Outc := vecWord (.mpop x) x.gates s

/-- `mfirst` (R216). -/
def execMfirst (x : MaskArg) (s : State) : Outc := vecWord (.mfirst x) x.gates s

/-- What a vector or mask command computes. -/
def vecOut (x : VIn) : VOut :=
  match x.c.what with
  | .std (.vadd o) => x.vadd o
  | .std (.vsub o) => x.vsub o
  | .std (.vmul o) => x.vmul o
  | .std (.vfma o) => x.vfma o
  | .std (.vfms o) => x.vfms o
  | .std (.vmin o) => x.vmin o
  | .std (.vmax o) => x.vmax o
  | .std (.vabs o) => x.vabs o
  | .std (.vneg o) => x.vneg o
  | .std (.vrcp o) => x.vrcp o
  | .std (.vrsq o) => x.vrsq o
  | .std (.vexp o) => x.vexp o
  | .std (.vtanh o) => x.vtanh o
  | .std (.vcvt o) => x.vcvt o
  | .std (.vand o) => x.vand o
  | .std (.vor o) => x.vor o
  | .std (.vxor o) => x.vxor o
  | .std (.vshl o) => x.vshl o
  | .std (.vshr o) => x.vshr o
  | .std (.vsra o) => x.vsra o
  | .std (.vcmpEq o) => x.vcmpEq o
  | .std (.vcmpNe o) => x.vcmpNe o
  | .std (.vcmpLt o) => x.vcmpLt o
  | .std (.vcmpLe o) => x.vcmpLe o
  | .std (.vsel o) => x.vsel o
  | .std (.vmov o) => x.vmov o
  | .std (.vmovGm o) => x.vmovGm o
  | .std (.vmovMm o) => x.vmovMm o
  | .std (.vmovMq o) => x.vmovMq o
  | .std (.vbcast o) => x.vbcast o
  | .std (.vext o) => x.vext o
  | .std (.vld o) => x.vld o
  | .std (.vst o) => x.vst o
  | .std (.vldx o) => x.vldx o
  | .std (.vstx o) => x.vstx o
  | .std (.vldf o) => x.vldf o
  | .std (.vstf o) => x.vstf o
  | .std (.vpack o) => x.vpack o
  | .std (.vunpk o) => x.vunpk o
  | .std (.vredsum o) => x.vredsum o
  | .std (.vredmax o) => x.vredmax o
  | .std (.vredmin o) => x.vredmin o
  | .std (.vdot o) => x.vdot o
  | .std (.vperm o) => x.vperm o
  | .std (.vrot o) => x.vrot o
  | .std (.vtopk o) => x.vtopk o
  | .std (.vsig o) => x.vsig o
  | .std (.mand o) => x.mand o
  | .std (.mor o) => x.mor o
  | .std (.mnot o) => x.mnot o
  | .std (.mpop o) => x.mpop o
  | .std (.mfirst o) => x.mfirst o
  | _ => VOut.none

/-- Whether a vector command's accesses are one contiguous one, for the record of R88. -/
def contiguous : Decoded → Bool
  | .std (.vld _) | .std (.vst _) => true
  | _ => false

/-- The index register of an indexed access: its poison is consumed (R195, R388). -/
def indexReg : Decoded → Option Nat
  | .std (.vldx x) | .std (.vstx x) => some x.b.val
  | _ => none

/-- Writes the registers of a command's slot. -/
def Task.putRegs (t : Task) (v : List (Nat × VVal)) (m : List (Nat × BitVec 64)) : Task :=
  { t with
    v := v.foldl (fun t p => Tab.set { v := 0, tag := 0 } t p.1 p.2) t.v
    m := m.foldl (fun t p => Tab.set 0 t p.1 p.2) t.m }

/-- Executes a vector or mask command, not of the attention family (R194 to R198): loads, results, stores, then the end of the
command. -/
def State.runVector (s : State) (core : Nat) (c : Cmd) : State :=
  let k := core * 8 + c.slot
  match (indexReg c.what).filter (fun n => (s.vreg k n).tag != 0) with
  | some n => s.stopCmd core .vector c (.poison (s.vreg k n).tag)
  | none =>
    let acc := s.vaccess k c
    let isStore := vstores c.what
    let data := if isStore then [] else acc.map (fun p => s.spadGet c.ctx core p.1 p.2)
    let out := vecOut { s := s, k := k, c := c, data := data }
    let s := s.noteBad c.ctx core 1 isStore (contiguous c.what) acc
    let s := if isStore then s else s.seeReads core acc
    let s := out.writes.foldl (fun s w => s.engineStore core c w.1 w.2) s
    let s := s.modTask k (·.putRegs out.v out.m)
    s.endCmd core .vector c out.flags (out.push.map (fun w => (9, w)))
      (if isStore then (acc.map (·.2)).foldl (· + ·) 0 else 0)

end Sys2Proof.Machine
end

