-- ==== Sys2Proof/Machine/Matrix.lean ====
section
/-! DEFINITION. The matrix engine (R218 to R243): its words with their checks at issue, what each command does when it retires,
and MATRIX_COMMAND_RETIRE and MMV_STREAM_FAULT. -/

namespace Sys2Proof.Machine

open Sys2Proof.Machine.Num

/-! ### Checks at issue (R221, R226) -/

/-- A matrix fault (R221): 1 an unaligned stream source, 2 reserved bits. -/
def matrixFault {α : Type} (cause : Nat) : W α := trap fMatrix cause

/-- The format code of a type in R226. -/
def matFmt : Ty → Nat
  | .f32 => 1 | .bf16 => 2 | .f16 => 3 | .e4m3 => 4 | .e5m2 => 5 | .q4x => 8 | _ => 0

/-- A pointer that must hold fmt 0 or its type's code; for q4x with blog 0 (R226). -/
def matPtr (g : GReg) (t : Ty) : W Tagged := do
  let w ← useG g
  let f := fmtCode w.v
  if f ≠ 0 ∧ (f ≠ matFmt t ∨ (f = 8 ∧ blogOf w.v ≠ 0)) then trap fFormat
  return w

/-- An operand register some of whose bits must be zero. -/
def zeroAbove (g : GReg) (bits : Nat) : W Tagged := do
  let w ← useG g
  if 2 ^ bits ≤ w.v.toNat then matrixFault 2
  return w

/-- Sends a command to the matrix engine. -/
def matWord (what : Instr) (g : Gates) (ops : W (List Tagged)) (s : State) : Outc :=
  engineWord .matrix (.std what) g ops s

/-- `mmz` (R227). -/
def execMmz (d : Tile) (g : Gates) (s : State) : Outc := matWord (.mmz d g) g (pure []) s

/-- The operands of a tile product (R225, R226). -/
def productOps (x : MMul) : W (List Tagged) := do
  return [← matPtr x.a x.t, ← matPtr x.b (tbOf x), ← useG x.c]

/-- `mma` (R228). -/
def execMma (x : MMul) (s : State) : Outc := matWord (.mma x) x.gates (productOps x) s

/-- `msp` (R228, R241). -/
def execMsp (x : MMul) (s : State) : Outc := matWord (.msp x) x.gates (productOps x) s

/-- `mmv` (R237, R238). -/
def execMmv (x : MMul) (s : State) : Outc :=
  matWord (.mmv x) x.gates (do
    let a ← matPtr x.a x.t
    let b ← matPtr x.b (tbOf x)
    let c ← useG x.c
    if vaOf b.v % 64 ≠ 0 then matrixFault 1
    if c.v.toNat / 2 ^ 13 % 2 ^ 19 ≠ 0 then matrixFault 2
    return [a, b, c]) s

/-- `mld` (R233). -/
def execMld (x : MMem) (s : State) : Outc :=
  matWord (.mld x) x.gates (do return [← matPtr x.a x.t, ← zeroAbove x.b 32]) s

/-- `mst` (R234). -/
def execMst (x : MMem) (s : State) : Outc :=
  plain (do
    engineRoom .matrix
    let a ← matPtr x.a x.t
    let b ← zeroAbove x.b 32
    let c ← newCmd (.std (.mst x)) x.gates [a, b]
    orderedStore (fun _ => c.writeRanges)
    enqueue .matrix c) s

/-- `mdir` (R240). -/
def execMdir (x : MDir) (s : State) : Outc := matWord (.mdir x) x.gates (do return [← matPtr x.a x.t]) s

/-- `mdir.push` (R240). -/
def execMdirPush (x : MDir) (s : State) : Outc := matWord (.mdirPush x) x.gates (do return [← matPtr x.a x.t]) s

/-- `mscl.row` (R235). -/
def execMsclRow (x : MScl) (s : State) : Outc := matWord (.msclRow x) x.gates (pure []) s

/-- `mscl.col` (R235). -/
def execMsclCol (x : MScl) (s : State) : Outc := matWord (.msclCol x) x.gates (pure []) s

/-- `mscl.all` (R235): the scale is data. -/
def execMsclAll (x : MSclAll) (s : State) : Outc := matWord (.msclAll x) x.gates (do return [← readG x.a.val]) s

/-- `mrd.row` (R236). -/
def execMrdRow (x : MRd) (s : State) : Outc := matWord (.mrdRow x) x.gates (pure []) s

/-- `mrd.col` (R236). -/
def execMrdCol (x : MRd) (s : State) : Outc := matWord (.mrdCol x) x.gates (pure []) s

/-- `mrd.el` (R236). -/
def execMrdEl (x : MRdEl) (s : State) : Outc :=
  matWord (.mrdEl x) x.gates (do return [← zeroAbove x.b 10]) s

/-! ### Tiles (R120, R218) -/

def noTile : TileVal := { words := [], tag := 0 }

def State.tile (s : State) (k n : Nat) : TileVal := Tab.get noTile (s.task k).a n

/-- The 1,024 words of a tile. -/
def TileVal.list (a : TileVal) : List Nat := (List.range 1024).map (fun i => (Tab.get 0 a.words i).toNat)

/-- The table of a list of words. -/
def wordTab (l : List Nat) : Tab (BitVec 32) :=
  l.zipIdx.filterMap (fun p => if p.1 % 2 ^ 32 = 0 then none else some (p.2, BitVec.ofNat 32 p.1))

/-- An element as its tile holds it: all 32 bits, or a half's 16. -/
def halfOf (h : Half) (w : Nat) : Nat :=
  match h with
  | .full => w
  | .lo => w % 2 ^ 16
  | .hi => w / 2 ^ 16

/-- A word with an element written; a write to one half leaves the other (R120). -/
def withHalf (h : Half) (old x : Nat) : Nat :=
  match h with
  | .full => x
  | .lo => old / 2 ^ 16 * 2 ^ 16 + x % 2 ^ 16
  | .hi => x % 2 ^ 16 * 2 ^ 16 + old % 2 ^ 16

/-- The elements of a full or half tile. -/
def State.tileElems (s : State) (k : Nat) (t : Tile) : List Nat := (s.tile k t.n.val).list.map (halfOf t.half)

/-- Writes the elements of a tile. -/
def State.putTile (s : State) (k : Nat) (t : Tile) (l : List Nat) (tag : Nat) : State :=
  let old := (s.tile k t.n.val).list
  let v : TileVal := { words := wordTab ((old.zip l).map (fun p => withHalf t.half p.1 p.2)), tag := tag }
  s.modTask k (fun x => { x with a := Tab.set noTile x.a t.n.val v })

/-- The tag of a tile that a command writes: its own counts when the tile is an input or the other half stays (R218). -/
def State.tileTag (s : State) (k : Nat) (t : Tile) (input : Bool) (tag : Nat) : Nat :=
  if input || t.half != .full then minTag (s.tile k t.n.val).tag tag else tag

/-- The format of a tile's elements: FP32, or a half's FP16 or BF16 (R219, R235). -/
def tileFmt (half : Half) (h : Bool) : Fmt :=
  match half with
  | .full => f32
  | _ => if h then bf16 else f16

/-! ### Operand blocks (R225) -/

/-- The sixteen elements of a line, and flags. -/
def lineElems (t : Ty) (l : List Byte) : List FV × Nat :=
  match t with
  | .q4x =>
    let scale := bf16.decode (ofBytes (l.take 2))
    (List.range 4).foldl
      (fun (acc : List FV × Nat) j =>
        let (vs, qf) := quadValues (ofBytes ((l.drop (2 + 2 * j)).take 2))
        let es := vs.map (scaleElem scale)
        (acc.1 ++ es.map (·.1), es.foldl (fun f e => f ||| e.2) (acc.2 ||| qf))) ([], 0)
  | t =>
    let n := tyBytes t
    ((List.range 16).map (fun u => (fmtOf t).decode (ofBytes ((l.drop (u * n)).take n))), 0)

/-- The 32 lines of a block's bytes. -/
def blockLines (t : Ty) (l : List Byte) : List (List FV) × Nat :=
  let ls := (List.range 32).map (fun i => lineElems t ((l.drop (i * lineBytes t)).take (lineBytes t)))
  (ls.map (·.1), ls.foldl (fun f x => f ||| x.2) 0)

/-- The unit of SPERR for a matrix operand (R226): 2 in the own scratchpad, 6 remote. -/
def matUnit (core a : Nat) : Nat :=
  match spadTarget core a with
  | some (c, _) => if c = core then 2 else 6
  | none => 2

/-- Reads a scratchpad range for the matrix engine: bytes, lowest tag, and the record of R88. -/
def State.matRead (s : State) (core ctx a n : Nat) : List Byte × Nat × State :=
  let l := s.spadGet ctx core a n
  (l.map (·.1), tagOfBytes l, (s.noteBad ctx core (matUnit core a) false true [(a, n)]).seeReads core [(a, n)])

/-- One output element (R136, R228): chunk by chunk, each rounded once to the accumulator's format. -/
def dotChunks (f : Fmt) : List (List FV × List FV) → Nat → Nat → Nat × Nat
  | [], acc, fl => (acc, fl)
  | (a, b) :: rest, acc, fl =>
    let sum := (a.zip b).foldl (fun (s : Sum) p => s.product p.1 p.2) (Sum.empty.term (f.decode acc))
    let (v, n) := sum.value
    let (bits, r) := f.round .rne false v
    dotChunks f rest bits (fl ||| n ||| r)

/-- The rows of A times the columns of B for `m` rows: elements and flags. -/
def matProduct (f : Fmt) (chunks : List (List (List FV) × List (List FV))) (m : Nat) (acc : List Nat) :
    List Nat × Nat :=
  let one (i j : Nat) : Nat × Nat :=
    dotChunks f (chunks.map (fun c => (c.1.getD i [], c.2.getD j []))) (acc.getD (32 * i + j) 0) 0
  let l := (List.range m).flatMap (fun i => (List.range 32).map (one i))
  (l.map (·.1), l.foldl (fun g x => g ||| x.2) 0)

/-- Reads the chunks of a product: blocks of A and B, the lowest tag, flags. -/
def State.readChunks (s : State) (core : Nat) (c : Cmd) (x : MMul) :
    List Nat → List (List (List FV) × List (List FV)) × Nat × Nat × State
  | [] => ([], 0, 0, s)
  | j :: rest =>
    let (a, ta, s) := s.matRead core c.ctx (blockAt (c.ptr 0) (c.val 2 % 2 ^ 32) j x.t) (32 * lineBytes x.t)
    let (b, tb, s) := s.matRead core c.ctx (blockAt (c.ptr 1) (c.val 2 / 2 ^ 32) j (tbOf x)) (32 * lineBytes (tbOf x))
    let (la, fa) := blockLines x.t a
    let (lb, fb) := blockLines (tbOf x) b
    let (more, tag, fl, s) := s.readChunks core c x rest
    ((la, lb) :: more, minTag (minTag ta tb) tag, fl ||| fa ||| fb, s)

/-! ### What each command does when it retires -/

/-- The end of a command that writes no scratchpad. -/
def State.endMat (s : State) (core : Nat) (c : Cmd) (flags : Nat) (push : Option Tagged) : State :=
  s.endCmd core .matrix c flags (push.map (fun w => (8, w))) 0

/-- Writes a tile of a command's task. -/
def State.putTileOf (s : State) (core : Nat) (c : Cmd) (t : Tile) (l : List Nat) (tag : Nat) : State :=
  s.putTile (core * 8 + c.slot) t l tag

/-- `mmz` (R227). -/
def runMmz (s : State) (core : Nat) (c : Cmd) (d : Tile) : State :=
  let k := core * 8 + c.slot
  let tag := if d.half = .full then 0 else (s.tile k d.n.val).tag
  (s.putTileOf core c d (List.replicate 1024 0) tag).endMat core c 0 none

/-- `mma` and `msp` (R228): the same bits, tag and flags. -/
def runProduct (s : State) (core : Nat) (c : Cmd) (x : MMul) : State :=
  let k := core * 8 + c.slot
  let f := tileFmt x.d.half x.h
  let acc := if x.z then List.replicate 1024 0 else s.tileElems k x.d
  let (ch, tag, fl, s') := s.readChunks core c x (List.range (x.k.val + 1))
  let (l, fl') := matProduct f ch 32 acc
  (s'.putTileOf core c x.d l (s.tileTag k x.d (!x.z) tag)).endMat core c (fl ||| fl') none

/-- `mld` (R233). -/
def runMld (s : State) (core : Nat) (c : Cmd) (x : MMem) : State :=
  let k := core * 8 + c.slot
  let n := tyBytes x.t
  let rows := c.readRanges.map (fun r => s.spadGet c.ctx core r.1 r.2)
  let elem (b : List (Byte × Nat)) (j : Nat) : Nat := ofBytes (((b.drop (j * n)).take n).map (·.1))
  let conv (b : Nat) : Nat :=
    if x.d.half = .full ∧ x.t ≠ .f32 then (f32.round .rne false ((fmtOf x.t).decode b)).1 else b
  let l := rows.flatMap (fun b => (List.range 32).map (fun j => conv (elem b j)))
  let tag := rows.foldl (fun t b => minTag t (tagOfBytes b)) 0
  let s' := c.readRanges.foldl
    (fun (s : State) r => (s.noteBad c.ctx core (matUnit core r.1) false true [r]).seeReads core [r]) s
  (s'.putTileOf core c x.d l (s.tileTag k x.d false tag)).endMat core c 0 none

/-- `mst` (R234). -/
def runMst (s : State) (core : Nat) (c : Cmd) (x : MMem) : State :=
  let k := core * 8 + c.slot
  let n := tyBytes x.t
  let l := s.tileElems k x.d
  let tag := (s.tile k x.d.n.val).tag
  let conv (b : Nat) : Nat × Nat :=
    if x.d.half = .full ∧ x.t ≠ .f32 then (fmtOf x.t).round x.mode x.sat (f32.decode b) else (b, 0)
  let vals := l.map conv
  let row (i : Nat) : List (Byte × Nat) :=
    ((vals.drop (32 * i)).take 32).flatMap (fun v => (bytesOf n v.1).map (fun b => (b, tag)))
  let s := c.writeRanges.zipIdx.foldl
    (fun (s : State) r =>
      (s.noteBad c.ctx core (matUnit core r.1.1) true true [r.1]).engineStore core c r.1.1 (row r.2)) s
  s.endCmd core .matrix c (vals.foldl (fun g v => g ||| v.2) 0) none (1024 * n)

/-- `mscl` (R235): each element times the scale `f i j`, rounded once. -/
def runMscl (s : State) (core : Nat) (c : Cmd) (d : Tile) (h sat : Bool) (mode : RMode) (tag : Nat)
    (f : Nat → Nat → Nat) : State :=
  let k := core * 8 + c.slot
  let fm := tileFmt d.half h
  let l := (s.tileElems k d).zipIdx.map (fun p =>
    let (v, n) := (fm.decode p.1).mul (f32.decode (f (p.2 / 32) (p.2 % 32) % 2 ^ 32))
    let (b, fl) := fm.round mode sat v
    (b, n ||| fl))
  (s.putTileOf core c d (l.map (·.1)) (s.tileTag k d true tag)).endMat core c (l.foldl (fun g p => g ||| p.2) 0) none

/-- `mrd.row` and `mrd.col` (R236): the elements picked by `f`. -/
def runMrd (s : State) (core : Nat) (c : Cmd) (x : MRd) (f : Nat → Nat) : State :=
  let k := core * 8 + c.slot
  let e := s.tileElems k x.a
  let l := (List.range 32).map (fun j => e.getD (f j) 0)
  let v := ofElems (if x.a.half = .full then 32 else 16) l
  let s' := s.modTask k (·.putRegs [(x.d.val, { v := v, tag := (s.tile k x.a.n.val).tag })] [])
  s'.endMat core c 0 none

/-- `mrd.el` (R236). -/
def runMrdEl (s : State) (core : Nat) (c : Cmd) (x : MRdEl) : State :=
  let k := core * 8 + c.slot
  let e := (s.tileElems k x.a).getD (c.val 0 % 1024) 0
  let v := if x.a.half = .full then e else (f32.round .rne false ((tileFmt x.a.half x.h).decode e)).1
  s.endMat core c 0 (some { v := BitVec.ofNat 64 v, tag := (s.tile k x.a.n.val).tag })

/-- Whether each of the sixteen elements of a line is nonzero, and flags: Q4X elements as R133 decodes them, before the scale
(R240). -/
def lineNonzero (t : Ty) (l : List Byte) : List Bool × Nat :=
  match t with
  | .q4x =>
    let qs := (List.range 4).map (fun j => quadValues (ofBytes ((l.drop (2 + 2 * j)).take 2)))
    (qs.flatMap (fun q => q.1.map (fun v => !v.isZero)), qs.foldl (fun f q => f ||| q.2) 0)
  | t => ((lineElems t l).1.map (fun v => !v.isZero), 0)

/-- `mdir` (R239, R240): the block's nonzero elements and line mask enter the directory. A second marker raises qx, as R133's
decoding says; no scale is applied, so no nv is raised (DEDUCED, log 108). -/
def runMdir (s : State) (core : Nat) (c : Cmd) (x : MDir) (push : Bool) : State :=
  let (b, tag, s) := s.matRead core c.ctx (c.ptr 0) (32 * lineBytes x.t)
  let ls := (List.range 32).map (fun i => lineNonzero x.t ((b.drop (i * lineBytes x.t)).take (lineBytes x.t)))
  let flags := ls.foldl (fun f l => f ||| l.2) 0
  let count (l : List Bool × Nat) : Nat := (l.1.filter (· == true)).length
  let nz := (ls.map count).foldl (· + ·) 0
  let mask := ls.zipIdx.foldl (fun m p => if count p.1 = 0 then m else m + 2 ^ p.2) 0
  let e : DirEntry := { addr := c.ptr 0 % 2 ^ 23, t := x.t.code, nz := nz, mask := mask }
  let s := s.modCore core (fun y =>
    let rest := y.dir.filter (fun o => !(o.addr == e.addr && o.t == e.t))
    { y with dir := (if 64 ≤ rest.length then rest.drop 1 else rest) ++ [e] })
  s.endMat core c flags (if push then some { v := BitVec.ofNat 64 nz, tag := tag } else none)

/-! ### Stream mode (R237, R238) -/

/-- Bytes of main memory for an engine, through the commit buffer of its task (R108), with tags. -/
def State.engineRead (s : State) (core : Nat) (c : Cmd) (pieces : List (Nat × Nat)) : List (Byte × Nat) :=
  let l := s.piecesRead pieces
  if c.killed then l
  else
    let t := s.task (core * 8 + c.slot)
    let own := t.ownBytes pieces
    if own = [] then l
    else
      let tag := t.ownTag pieces
      l.zipIdx.map (fun p => match own.find? (fun o => o.1 == p.2) with
        | some o => (o.2, tag)
        | none => p.1)

/-- Reads the weight blocks of a stream, translated as engine reads, up to the first that stops. -/
def State.readStream (s : State) (core : Nat) (c : Cmd) (t : Ty) : List Nat → Except Stop (List (List (Byte × Nat))) × State
  | [] => (.ok [], s)
  | j :: rest =>
    let n := 32 * lineBytes t
    match s.spanChecked core c.ctx (s.cmdSuper core c) .engRead ((c.ptr 1 + j * n) % 2 ^ 57) n c.pc c.tid with
    | (.error st, s) => (.error st, s)
    | (.ok ps, s) =>
      let b := s.engineRead core c ps
      match (s.seeParts core ps).readStream core c t rest with
      | (.ok l, s) => (.ok (b :: l), s)
      | (.error st, s) => (.error st, s)

/-- The lines of the resident vectors in chunk `j`. -/
def State.readResident (s : State) (core : Nat) (c : Cmd) (t : Ty) (m j : Nat) : List (List FV) × Nat × Nat :=
  (List.range m).foldl
    (fun (acc : List (List FV) × Nat × Nat) i =>
      let b := s.spadGet c.ctx core (c.resident t i + j * lineBytes t) (lineBytes t)
      let (l, fl) := lineElems t (b.map (·.1))
      (acc.1 ++ [l], minTag acc.2.1 (tagOfBytes b), acc.2.2 ||| fl)) ([], 0, 0)

/-- `mmv` whose stream has been read (R237): rows m to 31 are unchanged. -/
def runMmv (s : State) (core : Nat) (c : Cmd) (x : MMul) (blocks : List (List (Byte × Nat))) : State :=
  let k := core * 8 + c.slot
  let m := c.val 2 / 1024 % 8 + 1
  let f := tileFmt x.d.half x.h
  let old := s.tileElems k x.d
  let acc := if x.z then List.replicate 1024 0 else old
  let parts := blocks.zipIdx.map (fun b =>
    let r := s.readResident core c x.t m b.2
    let w := blockLines (tbOf x) (b.1.map (·.1))
    ((r.1, w.1), minTag r.2.1 (tagOfBytes b.1), r.2.2 ||| w.2))
  let (l, fl) := matProduct f (parts.map (·.1)) m acc
  let tag := parts.foldl (fun t p => minTag t p.2.1) 0
  let fl := parts.foldl (fun g p => g ||| p.2.2) fl
  let s' := c.readRanges.foldl
    (fun (s : State) r => (s.noteBad c.ctx core (matUnit core r.1) false true [r]).seeReads core [r]) s
  (s'.putTileOf core c x.d (l ++ old.drop (32 * m)) (minTag (s.tile k x.d.n.val).tag tag)).endMat core c fl none

/-- Executes a matrix command. -/
def State.runMatrix (s : State) (core : Nat) (c : Cmd) : State :=
  let k := core * 8 + c.slot
  match c.what with
  | .std (.mmz d _) => runMmz s core c d
  | .std (.mma x) => runProduct s core c x
  | .std (.msp x) => runProduct s core c x
  | .std (.mld x) => runMld s core c x
  | .std (.mst x) => runMst s core c x
  | .std (.mdir x) => runMdir s core c x false
  | .std (.mdirPush x) => runMdir s core c x true
  | .std (.msclRow x) =>
    let v := s.vreg k x.a.val
    runMscl s core c x.d x.h x.sat x.mode v.tag (fun i _ => (elems 32 v.v).getD i 0)
  | .std (.msclCol x) =>
    let v := s.vreg k x.a.val
    runMscl s core c x.d x.h x.sat x.mode v.tag (fun _ j => (elems 32 v.v).getD j 0)
  | .std (.msclAll x) => runMscl s core c x.d x.h x.sat x.mode (c.ops.getD 0 zeroT).tag (fun _ _ => c.val 0)
  | .std (.mrdRow x) => runMrd s core c x (fun j => 32 * x.i.val + j)
  | .std (.mrdCol x) => runMrd s core c x (fun i => 32 * i + x.i.val)
  | .std (.mrdEl x) => runMrdEl s core c x
  | .std (.mmv x) =>
    match s.readStream core c (tbOf x) (List.range (c.val 2 % 1024 + 1)) with
    | (.ok l, s) => runMmv s core c x l
    | (.error _, _) => s
  | _ => s.endMat core c 0 none

/-- MATRIX_COMMAND_RETIRE (R222): the oldest started command retires, unless it waits; an `mmv` whose stream is halted waits
for its fault. -/
def execMatrixCommandRetire (core : Nat) (s : State) : Outc :=
  event (match (s.core core).mq.started with
    | [] => s
    | c :: _ => if s.cmdBlocked core c then s else s.runMatrix core c)

/-- MMV_STREAM_FAULT (R238): a fault halts the stream of the oldest started command, an `mmv`, which is abandoned without
effect and stands at the head of the held list. -/
def execMmvStreamFault (core : Nat) (s : State) : Outc :=
  event (match (s.core core).mq.started with
    | [] => s
    | c :: _ =>
      match c.what with
      | .std (.mmv x) =>
        match s.readStream core c (tbOf x) (List.range (c.val 2 % 1024 + 1)) with
        | (.ok _, _) => s
        | (.error st, s) => s.stopCmd core .matrix c (.stop st)
      | _ => s)

end Sys2Proof.Machine
end

