-- ==== Sys2Proof/Machine/Copy.lean ====
section
/-! DEFINITION. The copy engine (R99 to R108): its words with their checks, and the beats of a started command. -/

namespace Sys2Proof.Machine

open Sys2Proof.Machine.Num

/-! ### Beats (R97, R101 to R105) -/

/-- A beat of a copy command: what it reads (space, address, bytes), where it writes, and how many bytes. -/
structure Beat where
  src : Option (Bool × Nat × Nat)
  dsp : Bool
  dst : Nat
  n : Nat
  deriving DecidableEq, Repr

/-- The fields of a `cpyx` shape (R102). -/
def rowBytes (b : Nat) : Nat := b % 2 ^ 24
def shapeRows (b : Nat) : Nat := b / 2 ^ 24 % 2 ^ 20
def shapePlanes (b : Nat) : Nat := b / 2 ^ 44

/-- The bytes of an element of a format code in a copy (R123); q4x is read in blocks. -/
def copyElem (fmt : Nat) : Nat := fmtBytes fmt

/-- How many destination bytes a copy command writes. -/
def Cmd.total (c : Cmd) : Nat :=
  match c.what with
  | .cpy _ => c.val 2
  | .cpyx2d _ => rowBytes (c.val 2) * shapeRows (c.val 2)
  | .cpyx3d _ => rowBytes (c.val 2) * shapeRows (c.val 2) * shapePlanes (c.val 2)
  | .cpyc _ => c.val 2 % 2 ^ 32 * copyElem (c.val 0 / 2 ^ 60)
  | .cfill _ => c.val 2
  | _ => 0

/-- Where an address of a copy of a core stands in its space: a scratchpad address by the core and offset that it reaches, so that the
hive window names the same bytes as the own addresses (R85). -/
def spotOf (core : Nat) (scratch : Bool) (a : Nat) : Nat :=
  if scratch then (match spadTarget core a with | some (c, off) => aperturePa c off | none => 2 ^ 60 + a) else a

/-- Whether a `cpy` issues its beats in descending order: overlap in one space with the destination above (R101). -/
def descends (core : Nat) (dsp ssp : Bool) (d s len : Nat) : Bool :=
  let d := spotOf core dsp d
  let s := spotOf core ssp s
  dsp == ssp && decide (s < d) && decide (d < s + len)

/-- The beat of a `cpyx` at progress `p` (R102). -/
def Cmd.rowBeat (c : Cmd) (x : CopyArg) (p : Nat) (three : Bool) : Beat :=
  let b := c.val 2
  let rb := rowBytes b
  let q := p / rb
  let i := p % rb
  let r := q % shapeRows b
  let pl := q / shapeRows b
  let n := Nat.min 64 (rb - i)
  let stride (op sh : Nat) : Int := toInt 32 (c.val op / 2 ^ sh % 2 ^ 32)
  let at' (base : Nat) (rs ps : Int) : Nat :=
    wrapAddr ((base : Int) + (r : Int) * rs + (if three then (pl : Int) * ps else 0) + (i : Int))
  { src := some (x.ssp, at' (c.ptr 1) (stride 3 0) (stride 4 0), n)
    dsp := x.dsp, dst := at' (c.ptr 0) (stride 3 32) (stride 4 32), n := n }

/-- The next beat of a started command of a core: 64 bytes of its order, or 32 elements of a `cpyc`. -/
def Cmd.beat (c : Cmd) (core : Nat) : Beat :=
  let p := c.progress
  match c.what with
  | .cpy x =>
    let len := c.val 2
    let n := Nat.min 64 (len - p)
    let off := if descends core x.dsp x.ssp (c.ptr 0) (c.ptr 1) len then len - p - n else p
    { src := some (x.ssp, (c.ptr 1 + off) % 2 ^ 57, n), dsp := x.dsp, dst := (c.ptr 0 + off) % 2 ^ 57, n := n }
  | .cpyx2d x => c.rowBeat x p false
  | .cpyx3d x => c.rowBeat x p true
  | .cpyc x =>
    let df := c.val 0 / 2 ^ 60
    let sf := c.val 1 / 2 ^ 60
    let blog := c.val 1 / 2 ^ 57 % 8
    let e := p / copyElem df
    let m := Nat.min 32 (c.val 2 % 2 ^ 32 - e)
    let src : Nat × Nat :=
      if m = 0 then (0, 0)
      else if sf = 8 then
        let b0 := e / blockElems blog
        let b1 := (e + m - 1) / blockElems blog
        ((c.ptr 1 + b0 * blockBytes blog) % 2 ^ 57, (b1 + 1 - b0) * blockBytes blog)
      else ((c.ptr 1 + e * copyElem sf) % 2 ^ 57, m * copyElem sf)
    { src := some (x.ssp, src.1, src.2), dsp := x.dsp, dst := (c.ptr 0 + p) % 2 ^ 57, n := m * copyElem df }
  | .cfill x => { src := none, dsp := x.dsp, dst := (c.ptr 0 + p) % 2 ^ 57, n := Nat.min 64 (c.val 2 - p) }
  | _ => { src := none, dsp := true, dst := 0, n := 0 }

/-- Element `i` of a `cpyc` source whose beat read `l` from element `e` on, as a value of the source, with flags, rounded to the
destination (R103). -/
def cpycElem (sf blog : Nat) (dt : Ty) (mode : RMode) (sat : Bool) (l : List Byte) (e i : Nat) : Nat × Nat :=
  if sf = 8 then
    let first := e / blockElems blog * blockElems blog
    let (a, b) := q4xAddr 0 blog (e + i - first)
    let scale := bf16.decode (ofBytes ((l.drop a).take 2))
    let (vs, qf) := quadValues (ofBytes ((l.drop b).take 2))
    let (v, n) := scaleElem scale (vs.getD ((e + i) % 4) .nan)
    if dt.isFloat then
      let (x, fl) := (fmtOf dt).round mode sat v
      (x, qf ||| n ||| fl)
    else
      let (x, fl) := floatToInt dt mode sat v
      (x, qf ||| n ||| fl)
  else
    let n := copyElem sf
    convert ((tyOfFmt sf).getD .n8) dt mode sat (ofBytes ((l.drop (i * n)).take n))

/-- The bytes that a beat writes, from those it read, with flags. -/
def Cmd.beatBytes (c : Cmd) (b : Beat) (l : List (Byte × Nat)) : List (Byte × Nat) × Nat :=
  match c.what with
  | .cpyc x =>
    let df := c.val 0 / 2 ^ 60
    let dt := (tyOfFmt df).getD .n8
    let e := c.progress / copyElem df
    let tag := tagOfBytes l
    let vals := (List.range (b.n / copyElem df)).map
      (cpycElem (c.val 1 / 2 ^ 60) (c.val 1 / 2 ^ 57 % 8) dt x.mode x.sat (l.map (·.1)) e)
    (vals.flatMap (fun v => (bytesOf (copyElem df) v.1).map (fun y => (y, tag))), vals.foldl (fun g v => g ||| v.2) 0)
  | .cfill x =>
    let w := 2 ^ x.lw.val
    let tag := (c.ops.getD 1 zeroT).tag
    ((List.range b.n).map (fun i => (BitVec.ofNat 8 (c.val 1 / 256 ^ ((c.progress + i) % w)), tag)), 0)
  | _ => (l, 0)

/-- Whether a memory-port access of a beat waits for a filling slot of another core (R92). -/
def State.portFilling (s : State) (core : Nat) (scratch : Bool) (a n : Nat) (pieces : List (Nat × Nat)) : Bool :=
  if scratch then
    (linesAt core a n).any (fun p => p.1 != core &&
      ((s.space (s.installedCtx p.1) p.1).stag (p.2 / 16)).state == 1)
  else s.portHeld pieces

/-- Translates a range of a copy command: nothing for scratchpad, pieces for virtual memory. -/
def State.copyPieces (s : State) (core : Nat) (c : Cmd) (scratch : Bool) (k : Acc) (a n : Nat) :
    Except Stop (List (Nat × Nat)) × State :=
  if scratch ∨ n = 0 then (.ok [], s)
  else s.spanChecked core c.ctx (s.cmdSuper core c) k a n c.pc c.tid

/-- Reads a beat's source. -/
def State.copyRead (s : State) (core : Nat) (c : Cmd) (scratch : Bool) (a n : Nat) (ps : List (Nat × Nat)) :
    List (Byte × Nat) × State :=
  if scratch then
    (s.spadGet c.ctx core a n, (s.noteBad c.ctx core 3 false true [(a, n)]).seeReads core [(a, n)])
  else (s.engineRead core c ps, s.seeParts core ps)

/-- A task's bulk writes with the pieces that a beat writes (R299). -/
def Task.copies (t : Task) (pc : Nat) (l : List (Nat × Nat)) : Task :=
  { t with bulk := (l.filter (fun p => !t.covers p)).map (fun p => ({ pa := p.1, len := p.2, pc := pc } : Bulk)) ++ t.bulk }

/-- Progress of a started copy command. -/
def State.copyProgress (s : State) (core : Nat) (c : Cmd) (n : Nat) : State :=
  s.modCore core (fun x =>
    { x with cq := { x.cq with started := x.cq.started.map (fun (o : Cmd) =>
      if o.place = c.place then { o with progress := o.progress + n } else o) } })

/-- Whether a piece of a beat lies in the strip in motion: the stack holds its request, and the beat waits (R42, R44). -/
def State.beatInMotion (s : State) (l : List (Nat × Nat)) : Bool := l.any (fun p => decide (p.1 < 2 ^ 40) && s.inMotion p.1)

/-- The virtual ranges that a `cpy` has written before its next beat, which writes `n` bytes at offset `off`. -/
def Cmd.written (c : Cmd) (off n : Nat) : List (Nat × Nat) :=
  match c.what with
  | .cpy x =>
    if x.dsp ∨ x.ssp then []
    else if descends 0 x.dsp x.ssp (c.ptr 0) (c.ptr 1) (c.val 2) then [(c.ptr 0 + off + n, c.val 2 - off - n)]
    else [(c.ptr 0, off)]
  | _ => []

/-- What a beat of a `cpy` writes: a byte whose source the command has already overwritten, through another virtual address of the
same physical page, leaves its destination as it was (R101). -/
def State.unaliased (s : State) (core : Nat) (c : Cmd) (off n : Nat) (sp dp : List (Nat × Nat)) (l : List (Byte × Nat)) :
    List (Byte × Nat) :=
  let done := (c.written off n).flatMap (fun r => ((s.pieces core c.ctx (s.cmdSuper core c) .engWrite (r.1 % 2 ^ 57) r.2).1).map
    (fun p => (p.1, p.2.1)))
  if !overlaps sp done then l
  else
    let addrs := sp.flatMap (fun p => (List.range p.2).map (· + p.1))
    let old := s.piecesRead dp
    l.zipIdx.map (fun p =>
      let pa := addrs.getD p.2 0
      if done.any (fun d => decide (d.1 ≤ pa) && decide (pa < d.1 + d.2)) then old.getD p.2 p.1 else p.1)

/-- Lands the next beat of a command (R95, R97, R100, R106): both ranges are translated, then the bytes move; a stop halts the
command at this beat, and a line of the host's window waits for the host's acknowledgement (R406). What a beat writes outside the own scratchpad counts for later reads of the task (R299). -/
def State.copyBeat (s : State) (core : Nat) (c : Cmd) : State :=
  let b := c.beat core
  let (sc, sa, sn) := b.src.getD (true, 0, 0)
  match s.copyPieces core c sc .engRead sa sn with
  | (.error st, s) => s.stopCmd core .copy c (.stop st)
  | (.ok sp, s) =>
    match s.copyPieces core c b.dsp .engWrite b.dst b.n with
    | (.error st, s) => s.stopCmd core .copy c (.stop st)
    | (.ok dp, s) =>
      if s.portFilling core sc sa sn sp || s.portFilling core b.dsp b.dst b.n dp || s.beatInMotion (sp ++ dp) then s
      else if dp.flatMap (fun p => s.hostOwes p.1 p.2) ≠ [] then s.askHost (dp.flatMap (fun p => s.hostOwes p.1 p.2))
      else
        let k := core * 8 + c.slot
        let (l, s) := if b.src.isSome then s.copyRead core c sc sa sn sp else ([], s)
        let l := s.unaliased core c (b.dst - c.ptr 0) b.n sp dp l
        let (out, fl) := c.beatBytes b l
        let s' := if c.killed then s else s.modTask k (·.copies c.pc dp)
        let s' := if b.dsp then (s'.spadWriteT c.ctx core 3 b.dst out).landedAt core b.dst out.length (.engine core)
          else s'.piecesWrite (.engine core) dp out
        (if c.total ≤ c.progress + b.n then s'.endCmd core .copy c fl none b.n
          else
            let s' := if c.killed then s' else s'.modTask k (·.raiseFlags fl)
            (s'.copyProgress core c b.n).signal core c b.n false).judgeEntries s c.ctx core dp

/-! ### The words (R99, R100) -/

/-- A copy fault (R100). -/
def copyFault {α : Type} (cause : Nat) : W α := trap fCopy cause

/-- The physical ranges outside the own scratchpad of ranges that a copy touches, as the translation stands, and the virtual ranges on
pages that do not translate. -/
def State.copyRanges (s : State) (core ctx : Nat) (super : Bool) (scratch : Bool) (k : Acc) (l : List (Nat × Nat)) :
    List (Nat × Nat) × List (Nat × Nat) :=
  let one (p : Nat × Nat) : List (Nat × Nat) × List (Nat × Nat) :=
    if scratch then
      match spadTarget core p.1 with
      | some (c, off) => (if c = core then [] else [(aperturePa c off, p.2)], [])
      | none => ([], [])
    else s.mapped core ctx super k p.1 p.2
  ((l.map one).flatMap (·.1), (l.map one).flatMap (·.2))

/-- What an earlier copy or `put` of the task writes and this command reads is the bulk-read fault (R299); what it writes
itself counts for later words. -/
def noteCopy (src dst : List (Nat × Nat)) (ssp dsp : Bool) : W Unit := do
  let s ← get
  let t ← curTask
  if src ≠ [] then awaitPuts
  let (read, missed) := s.copyRanges s.focus t.ctx t.super ssp .engRead src
  read.forM (fun p => checkBulk p.1 p.2)
  missed.forM (fun p => checkBulkAt p.1 p.2)
  let (l, u) := s.copyRanges s.focus t.ctx t.super dsp .engWrite dst
  modCur (fun t => ({ t with bulk := l.map (fun (p : Nat × Nat) => ({ pa := p.1, len := p.2, pc := t.pc } : Bulk)) ++ t.bulk }).reachesAt t.pc u)

/-- Sends a command to the copy engine. -/
def copyWord (what : Decoded) (g : Gates) (ops : W (List Tagged)) (s : State) : Outc := engineWord .copy what g ops s

/-- `cpy` (R101). -/
def execCpy (x : CopyArg) (s : State) : Outc :=
  copyWord (.cpy x) x.gates (do
    let d ← useG x.d
    let a ← useG x.a
    let b ← useG x.b
    if 2 ^ 24 ≤ b.v.toNat then copyFault 1
    noteCopy [(vaOf a.v, b.v.toNat)] [(vaOf d.v, b.v.toNat)] x.ssp x.dsp
    return [d, a, b]) s

/-- The operands of `cpyx` (R102). More than one plane in the .2d form raises cause 1, as a shape field beyond its limit (DEDUCED,
log 115). -/
def rowOps (x : CopyArg) (three : Bool) : W (List Tagged) := do
  let d ← useG x.d
  let a ← useG x.a
  let b ← useG x.b
  let c ← useG x.c
  let e ← if three then useG (x.c + 1) else pure zeroT
  let sh := b.v.toNat
  let planes := if three then shapePlanes sh else 1
  if rowBytes sh = 0 ∨ shapeRows sh = 0 ∨ planes = 0 ∨ (!three ∧ 1 < shapePlanes sh) then copyFault 1
  if 2 ^ 32 ≤ 2 * (rowBytes sh * shapeRows sh * planes) then copyFault 2
  let stride (w : Tagged) (k : Nat) : Int := toInt 32 (w.v.toNat / 2 ^ k % 2 ^ 32)
  let rows (base : Word) (k : Nat) : List (Nat × Nat) :=
    (List.range (shapeRows sh * planes)).map (fun q =>
      (wrapAddr ((vaOf base : Int) + ((q % shapeRows sh : Nat) : Int) * stride c k
        + ((q / shapeRows sh : Nat) : Int) * stride e k), rowBytes sh))
  noteCopy (rows a.v 0) (rows d.v 32) x.ssp x.dsp
  return [d, a, b, c, e]

/-- `cpyx.2d` (R102). -/
def execCpyx2d (x : CopyArg) (s : State) : Outc := copyWord (.cpyx2d x) x.gates (rowOps x false) s

/-- `cpyx.3d` (R102). -/
def execCpyx3d (x : CopyArg) (s : State) : Outc := copyWord (.cpyx3d x) x.gates (rowOps x true) s

/-- The bytes of `n` elements of a format at a pointer (R103): whole blocks for q4x. -/
def elementsBytes (p : Word) (n : Nat) : Nat :=
  if fmtCode p = 8 then (n + blockElems (blogOf p) - 1) / blockElems (blogOf p) * blockBytes (blogOf p)
  else n * copyElem (fmtCode p)

/-- `cpyc` (R103). -/
def execCpyc (x : CpycArg) (s : State) : Outc :=
  copyWord (.cpyc x) x.gates (do
    let d ← useG x.d
    let a ← useG x.a
    let b ← useG x.b
    let bad (f : Nat) : Bool := f == 0 || decide (13 ≤ f)
    if bad (fmtCode d.v) || bad (fmtCode a.v) || fmtCode d.v == 8 then trap fFormat
    let n := b.v.toNat % 2 ^ 32
    if 2 ^ 32 ≤ elementsBytes a.v n + elementsBytes d.v n then copyFault 2
    if fmtCode a.v = 8 ∧ n % blockElems (blogOf a.v) ≠ 0 then copyFault 3
    noteCopy [(vaOf a.v, elementsBytes a.v n)] [(vaOf d.v, elementsBytes d.v n)] x.ssp x.dsp
    return [d, a, b]) s

/-- `cfill` (R104): the pattern is data. -/
def execCfill (x : CfillArg) (s : State) : Outc :=
  copyWord (.cfill x) x.gates (do
    let d ← useG x.d
    let a ← readG x.a.val
    let b ← useG x.b
    if 2 ^ 24 ≤ b.v.toNat then copyFault 1
    noteCopy [] [(vaOf d.v, b.v.toNat)] true x.dsp
    return [d, a, b]) s

end Sys2Proof.Machine
end

