-- ==== Sys2Proof/Machine/Attention.lean ====
section
/-! DEFINITION. The attention family (R244 to R259): projections, signatures, buckets, page summaries and bounds, and the events
that complete vector and copy commands. -/

namespace Sys2Proof.Machine

open Sys2Proof.Machine.Num

/-- The attention fault of an engine (R259). -/
def attStop (cause : Nat) : CmdStop := .stop (.trap fAttention cause [])

/-! ### Signatures (R245) -/

/-- Little-endian 16-bit elements. -/
def bfElems (l : List (Byte × Nat)) (n : Nat) : List Nat :=
  (List.range n).map (fun i => ofBytes (((l.drop (2 * i)).take 2).map (·.1)))

/-- Bit `j` of the signatures of a vector: whether its exact sum is above 0. -/
def sigBit (sp : Space) (x : List FV) (j : Nat) : Bool :=
  let sum := x.zipIdx.foldl
    (fun (acc : Sum) p => acc.term (if VIn.projBit sp j p.2 then p.1.neg else p.1)) Sum.empty
  (FV.fin false 0 0).lt sum.value.1

/-- The bucket number of a vector in table `t`. -/
def sigOf (sp : Space) (x : List FV) (b t : Nat) : Nat :=
  (List.range b).foldl (fun h i => h + (if sigBit sp x (t * b + i) then 2 ^ i else 0)) 0

/-! ### The words (R259) -/

/-- An attention fault at issue. -/
def attFault {α : Type} (cause : Nat) : W α := trap fAttention cause

/-- A descriptor operand: aligned to 64 bytes. -/
def useDesc (g : GReg) : W Tagged := do
  let w ← useG g
  if w.v.toNat % 64 ≠ 0 then attFault 3
  return w

/-- A pointer to BF16 elements. -/
def useBf (g : GReg) : W Tagged := do
  let w ← useG g
  if fmtCode w.v ≠ 0 ∧ fmtCode w.v ≠ 2 then trap fFormat
  return w

/-- `pjld` (R244). -/
def execPjld (a : GReg) (g : Gates) (s : State) : Outc :=
  engineWord .vector (.pjld a g) g (do return [← useG a]) s

/-- `kst` (R249): its units are charged at issue, from the descriptor as it stands; a descriptor in a filling slot stalls. -/
def execKst (x : AttArg) (s : State) : Outc :=
  plain (do
    engineRoom .vector
    let a ← useDesc x.a
    let b ← useBf x.b
    let c ← useG x.c
    let s ← get
    let t ← curTask
    if s.heldBack t.ctx s.focus (vaOf a.v) 64 then exit (.hold true)
    let cmd ← newCmd (.kst x) x.gates [a, b, c]
    buffer (.kst cmd.place) (s.attDesc t.ctx s.focus (vaOf a.v)).1.units
    enqueue .vector cmd) s

/-- `qsig` (R251). -/
def execQsig (x : AttArg) (s : State) : Outc :=
  engineWord .vector (.qsig x) x.gates (do return [← useDesc x.a, ← useBf x.b]) s

/-- `psum` (R255). -/
def execPsum (x : PsumArg) (s : State) : Outc :=
  engineWord .vector (.psum x) x.gates (do return [← useBf x.d, ← useBf x.a]) s

/-- `pbnd` (R256). -/
def execPbnd (x : PbndArg) (s : State) : Outc :=
  engineWord .vector (.pbnd x) x.gates (do
    let a ← useBf x.a
    let b ← useBf x.b
    let c ← useG x.c
    if c.v.toNat / 2 ^ 37 ≠ 0 then attFault 3
    return [a, b, c]) s

/-- `pgat` (R257): the count is within its limit. -/
def pgatWord (what : Decoded) (x : AttArg) (most : Nat) (s : State) : Outc :=
  engineWord .copy what x.gates (do
    let d ← useG x.d
    let a ← useDesc x.a
    let b ← useG x.b
    let c ← useG x.c
    if c.v.toNat = 0 ∨ most < c.v.toNat then attFault 3
    return [d, a, b, c]) s

/-- `pgat.pg` (R257). -/
def execPgatPg (x : AttArg) (s : State) : Outc := pgatWord (.pgatPg x) x 16 s

/-- `pgat.tok` (R257). -/
def execPgatTok (x : AttArg) (s : State) : Outc := pgatWord (.pgatTok x) x 256 s

/-- `bgat` (R251): the stream stalls until the heads have been read. -/
def bgatWord (what : Decoded) (x : AttArg) (s : State) : Outc :=
  runWord false (do
    engineRoom .copy
    let d ← useG x.d
    let a ← useDesc x.a
    let b ← useG x.b
    enqueue .copy (← newCmd what x.gates [d, a, b])
    holdWord .heads false) s

/-- `bgat` (R251). -/
def execBgat (x : AttArg) (s : State) : Outc := bgatWord (.bgat x) x s

/-- `bgat.h1` (R251). -/
def execBgatH1 (x : AttArg) (s : State) : Outc := bgatWord (.bgatH1 x) x s

/-! ### Vector-engine attention commands -/

/-- `pjld` executes (R244): 4 KiB replace the store. -/
def runPjld (s : State) (core : Nat) (c : Cmd) : State :=
  let l := s.spadGet c.ctx core (c.ptr 0) 4096
  let s := s.modSpace c.ctx core (fun sp => { sp with proj := cellsOf 0 (l.map (·.1)), projTag := tagOfBytes l })
  s.endCmd core .vector c 0 none 0

/-- The stop of a row store's page: a global store's, at the address of the piece (R53, R67, R249). -/
def kstStop (s : State) (l : List (Nat × Nat × Nat × Nat)) (f : Option (Xlate × Nat)) (pc tid : Nat) : Option Stop :=
  match l.findSome? (fun p =>
      if !s.paOk p.2.1 then some (Stop.trap fCapacity 0 [BitVec.ofNat 64 p.2.1])
      else if pteVers p.2.2.2 then some (.upcall 2 (versionRegs 1 4 p.1 0 0 0 pc tid) 7)
      else none), f with
  | some st, _ => some st
  | none, some (x, at') => some (stopOf x .store at' pc tid)
  | none, none => none

/-- The stop of a summary update's line: that of a non-returning atomic (R254, R275). -/
def summaryStop (s : State) (l : List (Nat × Nat × Nat × Nat)) (f : Option (Xlate × Nat)) (pc tid : Nat) : Option Stop :=
  match l.findSome? (fun p =>
      if paKind p.2.1 ≠ .hbm ∨ !s.paOk p.2.1 then some (Stop.trap fAtomic 2 [])
      else if pteVers p.2.2.2 then some (.upcall 2 (versionRegs 1 4 p.1 0 0 0 pc tid) 7)
      else none), f with
  | some st, _ => some st
  | none, some (x, at') => some (stopOf x .store at' pc tid)
  | none, none => none

/-- Translates the summary lines of a `kst`, up to the first that stops. -/
def State.summaryLines (s : State) (core : Nat) (c : Cmd) : List Nat → Option Stop × State
  | [] => (none, s)
  | va :: rest =>
    let (ps, f, s) := s.pieces core c.ctx (s.cmdSuper core c) .store va 64
    match summaryStop s (pieceAddrs va ps) f c.pc c.tid with
    | some st => (some st, s)
    | none => s.summaryLines core c rest

/-- The row store's pieces as buffered stores. -/
def rowStores : Nat → List (Nat × Nat × Nat) → List Byte → List Effect
  | _, [], _ => []
  | va, p :: rest, bs =>
    .store (va % 2 ^ 57) p.1 (bs.take p.2.1) 0 (keyedOf p.2.2) :: rowStores (va + p.2.1) rest (bs.drop p.2.1)

/-- The address of line `m` of a page's summary (R253). -/
def summaryAt (x : AttDesc) (page m : Nat) : Nat := (x.sbase + 4 * x.d * page + 64 * m) % 2 ^ 57

/-- The summary updates of a key (R253, R254): one for each line of the page's summary. -/
def summaryEffects (x : AttDesc) (key : List Nat) (page : Nat) : List Effect :=
  let half := x.d / 32
  (List.range (2 * half)).map (fun m =>
    .summary (summaryAt x page m) (decide (half ≤ m)) ((key.drop (32 * (m % half))).take 32))

/-- The bucket links of a key (R248, R249). -/
def linkEffects (x : AttDesc) (ctx n : Nat) (sp : Space) (key : List FV) : List Effect :=
  (List.range x.tables).map (fun t =>
    .link { ctx := ctx, n := n, bucket := t * 2 ^ x.b + sigOf sp key x.b t, gen := x.gen, hbase := x.hbase
            pool := x.pool, limit := x.limit })

/-- The place of a `kst` in the commit buffer receives its effects; the first carries the units. -/
def Task.fillKst (t : Task) (c : Cmd) (effs : List Effect) (lines : List Nat) : Task :=
  match t.commit.findIdx? (fun b => b.eff == .kst c.place) with
  | none => t
  | some i =>
    let units := (t.commit.getD i { eff := .kst 0, units := 0, pc := 0, control := 0 }).units
    let l : List Buffered := effs.zipIdx.map (fun p =>
      { eff := p.1, units := if p.2 = 0 then units else 0, pc := c.pc, control := 0 })
    { t with
      commit := t.commit.take i ++ l ++ t.commit.drop (i + 1)
      sect := t.sect.map (fun (x : Section) => if i < x.base then { x with base := x.base + l.length - 1 } else x)
      wsig := lines.foldl (fun g a => g ||| sigBits a) t.wsig }

/-- `kst` executes (R249): a `kst` whose place an aborted section has dropped has no effect. -/
def runKst (s : State) (core : Nat) (c : Cmd) : State :=
  let t := s.task (core * 8 + c.slot)
  match t.commit.find? (fun b => b.eff == .kst c.place) with
  | none => s.endCmd core .vector c 0 none 0
  | some place =>
    let (x, dt) := s.attDesc c.ctx core (c.ptr 0)
    let sp := s.space c.ctx core
    let l := s.spadGet c.ctx core (c.ptr 1) (2 * x.d)
    let tag := minTag dt (minTag (tagOfBytes l) sp.projTag)
    let n := c.val 2 % 2 ^ 32
    if tag ≠ 0 then s.stopCmd core .vector c (.poison tag)
    else if !x.valid ∨ x.units ≠ place.units then s.stopCmd core .vector c (attStop 1)
    else if x.npages ≤ n / 16 then s.stopCmd core .vector c (attStop 2)
    else
      let va := (x.kbase + (16 * (c.val 2 / 2 ^ 32) + n % 16) * (2 * x.d)) % 2 ^ 57
      let (ps, f, s) := s.pieces core c.ctx t.super .store va (2 * x.d)
      match kstStop s (pieceAddrs va ps) f c.pc c.tid with
      | some st => s.stopCmd core .vector c (.stop st)
      | none =>
      match s.summaryLines core c ((List.range (x.d / 16)).map (summaryAt x (n / 16))) with
      | (some st, s) => s.stopCmd core .vector c (.stop st)
      | (none, s) =>
        let key := bfElems l x.d
        let effs := rowStores va ps (l.map (·.1)) ++ summaryEffects x key (n / 16)
          ++ linkEffects x c.ctx n sp (key.map bf16.decode)
        let s := s.modTask (core * 8 + c.slot) (fun t => t.fillKst c effs (lineAddrs (ps.map (fun p => (p.1, p.2.1)))))
        s.endCmd core .vector c 0 none 0

/-- `qsig` executes (R251). -/
def runQsig (s : State) (core : Nat) (c : Cmd) : State :=
  let (x, dt) := s.attDesc c.ctx core (c.ptr 0)
  if dt ≠ 0 then s.stopCmd core .vector c (.poison dt)
  else if !x.valid then s.stopCmd core .vector c (attStop 1)
  else
    let sp := s.space c.ctx core
    let l := s.spadGet c.ctx core (c.ptr 1) (2 * x.d)
    let q := (bfElems l x.d).map bf16.decode
    let w := (List.range x.tables).foldl (fun w t => w + sigOf sp q x.b t * 2 ^ (16 * t)) 0
    s.endCmd core .vector c 0 (some (9, { v := BitVec.ofNat 64 w, tag := minTag (tagOfBytes l) sp.projTag })) 0

/-- Element `e` of rows of `d` elements: their minimum or maximum in the order of R126, with the tag of its bytes. -/
def rowBound (isMax : Bool) (l : List (Byte × Nat)) (rows d e : Nat) : Nat × Nat :=
  (List.range rows).foldl
    (fun (acc : Nat × Nat) r =>
      let y := (l.drop (2 * (r * d + e))).take 2
      let v := ofBytes (y.map (·.1))
      (if isMax then bf16.max acc.1 v else bf16.min acc.1 v, minTag acc.2 (tagOfBytes y)))
    (if isMax then 0xFF80 else 0x7F80, 0)

/-- `psum` executes (R255). -/
def runPsum (s : State) (core : Nat) (c : Cmd) (x : PsumArg) : State :=
  let d := dimOf x.dcode.val
  let rows := x.rows.val + 1
  let l := s.spadGet c.ctx core (c.ptr 1) (rows * 2 * d)
  let side (isMax : Bool) : List (Byte × Nat) :=
    (List.range d).flatMap (fun e =>
      let (v, tag) := rowBound isMax l rows d e
      (bytesOf 2 v).map (fun y => (y, tag)))
  let out := side false ++ side true
  let s := s.spadPutT c.ctx core (c.ptr 0) out
  s.endCmd core .vector c 0 none (4 * d)

/-- The bound of a page whose minima and maxima are given, with flags (R256). -/
def pageBound (q mn mx : List FV) : Nat × Nat :=
  let z := (q.zip mn).zip mx
  let empty := z.any (fun p => p.2.lt p.1.2)
  let open' := z.any (fun p => p.1.1.isNan || p.1.2.isNan || p.2.isNan
    || (match p.1.1 with | .inf _ => p.1.2.isZero || p.2.isZero | _ => false))
  if empty then (f32.infBits true, 0)
  else if open' then (f32.infBits false, 0)
  else
    let terms := (z.filter (fun p => !p.1.1.isZero)).filterMap (fun p =>
      let a := (p.1.1.mul p.1.2).1
      let b := (p.1.1.mul p.2).1
      let m := if a.lt b then b else a
      if m.isNan then some (FV.inf false) else if m.isZero then none else some m)
    if terms.any (fun m => m == .inf false) then (f32.infBits false, 0)
    else f32.round .rup false (terms.foldl Sum.term Sum.empty).value.1

/-- `pbnd` executes (R256). -/
def runPbnd (s : State) (core : Nat) (c : Cmd) (x : PbndArg) : State :=
  let k := core * 8 + c.slot
  let d := dimOf x.dcode.val
  let p0 := c.val 2 % 2 ^ 32
  let np := c.val 2 / 2 ^ 32 % 32 + 1
  let ql := s.spadGet c.ctx core (c.ptr 0) (2 * d)
  let sl := s.spadGet c.ctx core (c.ptr 1) (np * 4 * d)
  let q := (bfElems ql d).map bf16.decode
  let lane (i : Nat) : Nat × Nat :=
    if np ≤ i then (f32.infBits true, 0)
    else
      let e := (bfElems (sl.drop (4 * d * i)) (2 * d)).map bf16.decode
      pageBound q (e.take d) (e.drop d)
  let ls := (List.range 32).map lane
  let idx := (List.range 32).map (fun i => if np ≤ i then 0xFFFFFFFF else (p0 + i) % 2 ^ 32)
  let tag := minTag (tagOfBytes ql) (tagOfBytes sl)
  let dst := 2 * x.half.val
  let s := s.modTask k (·.putRegs
    [(dst, { v := ofElems 32 (ls.map (·.1)), tag := tag }), (dst + 1, { v := ofElems 32 idx, tag := tag })] [])
  s.endCmd core .vector c (ls.foldl (fun g p => g ||| p.2) 0) none 0

/-- Executes a vector-engine command of the attention family: the accesses out of range are recorded, the reads are seen. -/
def State.runAttention (s : State) (core : Nat) (c : Cmd) : State :=
  let acc := s.attAccess core c
  let (reads, writes) := match c.what with
    | .psum _ => (acc.take 1, acc.drop 1)
    | _ => (acc, [])
  let s := ((s.noteBad c.ctx core 1 false false reads).noteBad c.ctx core 1 true false writes).seeReads core reads
  match c.what with
  | .pjld _ _ => runPjld s core c
  | .kst _ => runKst s core c
  | .qsig _ => runQsig s core c
  | .psum x => runPsum s core c x
  | .pbnd x => runPbnd s core c x
  | _ => s

/-- Whether a vector-engine command is of the attention family. -/
def isAttention : Decoded → Bool
  | .pjld _ _ | .kst _ | .qsig _ | .psum _ | .pbnd _ => true
  | _ => false

/-- VECTOR_COMMAND_COMPLETE (R194): the oldest started command executes and completes, unless it waits. -/
def execVectorCommandComplete (core : Nat) (s : State) : Outc :=
  event (match (s.core core).vq.started with
    | [] => s
    | c :: _ =>
      if s.cmdBlocked core c then s
      else if isAttention c.what then s.runAttention core c
      else s.runVector core c)

/-! ### Gathering (R251, R252, R257, R258) -/

/-- Reads of main memory by a gather, as engine reads, in order up to the first that stops: address and bytes. A poisoned read
consumes the poison. -/
def State.gatherUpTo (s : State) (core : Nat) (c : Cmd) : List (Nat × Nat) → List Nat × Option CmdStop × State
  | [] => ([], none, s)
  | (va, n) :: rest =>
    match s.spanChecked core c.ctx (s.cmdSuper core c) .engRead (va % 2 ^ 57) n c.pc c.tid with
    | (.error st, s) => ([], some (.stop st), s)
    | (.ok ps, s) =>
      let l := s.engineRead core c ps
      if tagOfBytes l ≠ 0 then ([], some (.poison (tagOfBytes l)), s)
      else
        let (more, st, s) := (s.seeParts core ps).gatherUpTo core c rest
        (ofBytes (l.map (·.1)) :: more, st, s)

/-- Reads of which none may stop. -/
def State.gatherRead (s : State) (core : Nat) (c : Cmd) (l : List (Nat × Nat)) : Except CmdStop (List Nat) × State :=
  match s.gatherUpTo core c l with
  | (xs, none, s) => (.ok xs, s)
  | (_, some st, s) => (.error st, s)

/-- The buckets that a `bgat` reads: the tables' own, then the probes, each once, with the table that names it. -/
def bgatHeads (x : AttDesc) (w : Nat) (h1 : Bool) : List (Nat × Nat) :=
  let h (t : Nat) : Nat := w / 2 ^ (16 * t) % 2 ^ 12
  let own := (List.range x.tables).map (fun t => (t * 2 ^ x.b + h t, t))
  let probes := (List.range x.tables).flatMap (fun t =>
    (List.range x.b).map (fun i => (t * 2 ^ x.b + (h t ^^^ 2 ^ i), t)))
  (own ++ (if h1 then probes else [])).foldl (fun l p => if l.any (fun q => q.1 == p.1) then l else l ++ [p]) []

/-- A head's fields (R247). -/
def headGen (h : Nat) : Nat := h / 2 ^ 48 % 2 ^ 16
def headSpilled (h : Nat) : Bool := h / 2 ^ 47 % 2 == 1
def headTokens (h : Nat) : Nat := h % 2 ^ 32
def headFirst (h : Nat) : Nat := h / 2 ^ 64 % 2 ^ 32

/-- A list's bytes (R251): header, then entries. -/
def listBytes (count status skipped : Nat) (l : List Nat) : List (Byte × Nat) :=
  (bytesOf 8 (count + status * 2 ^ 32 + skipped * 2 ^ 48) ++ l.flatMap (bytesOf 4)).map (fun b => (b, 0))

/-- The cause and the deciding head's table of a `bgat` (R251, R252). -/
def bgatCause (x : AttDesc) (heads : List (Nat × Nat)) : Nat × Nat :=
  match heads.find? (fun p => headSpilled p.1) with
  | some p => (1, p.2)
  | none =>
    match heads.find? (fun p => decide (0 < headTokens p.1) && headGen p.1 != x.gen) with
    | some p => (3, p.2)
    | none => if x.thr < (heads.map (fun p => headTokens p.1)).sum then (2, 0xFF) else (0, 0)

/-- A `bgat` that stops before its heads are read leaves the engine: its word issues again (R259, precise). One that meets a
migrating page waits with its task (R82). -/
def State.stopBgat (s : State) (core : Nat) (c : Cmd) (st : CmdStop) : State :=
  let k := core * 8 + c.slot
  match st with
  | .stop (.migrating va) => s.deliverStop k c.pc none (.migrating va)
  | _ =>
    let s := s.dropStarted core .copy c
    if c.killed then s
    else
      let s := s.modTask k (fun t => { t with wait := .none })
      if !(s.task k).stoppable then s.trySave k
      else
        match st with
        | .poison tag => s.poisonKill k tag
        | .stop st => s.deliverStop k c.pc none st

/-- Whether a `bgat` has the Hamming-1 probes. -/
def isH1 : Decoded → Bool
  | .bgatH1 _ => true
  | _ => false

/-- The reads of a gather from scratchpad: out of range they are recorded (R88), in another core's scratchpad they are seen
(R297). -/
def State.noteGather (s : State) (core : Nat) (c : Cmd) (l : List (Nat × Nat)) : State :=
  (s.noteBad c.ctx core 3 false false l).seeReads core l

/-- The heads that a `bgat` has read before it issued again (R258). -/
def Task.headsOf (t : Task) (pc : Nat) : List Nat :=
  match t.heads with
  | some (p, l) => if p = pc then l else []
  | none => []

/-- The first phase of `bgat` (R251, R252): heads that it read before it issued again are not read again (R258). The dense fallback
trap of a task that is being saved or held waits until the task runs again. -/
def State.bgatFirst (s : State) (core : Nat) (c : Cmd) : State :=
  let k := core * 8 + c.slot
  let (x, dt) := s.attDesc c.ctx core (c.ptr 1)
  let s := s.noteGather core c [(c.ptr 1, 64)]
  if dt ≠ 0 then s.stopBgat core c (.poison dt)
  else if !x.valid then s.stopBgat core c (attStop 1)
  else
    let hs := bgatHeads x (c.val 2) (isH1 c.what)
    let known := if c.killed then [] else (s.task k).headsOf c.pc
    match s.gatherUpTo core c ((hs.drop known.length).map (fun p => (x.hbase + 64 * p.1, 64))) with
    | (more, some st, s) =>
      (if c.killed then s else s.modTask k (fun t => { t with heads := some (c.pc, known ++ more) })).stopBgat core c st
    | (more, none, s) =>
      let ls := known ++ more
      let heads := ls.zip (hs.map (·.2))
      let (cause, table) := bgatCause x heads
      let done (s : State) : State := if c.killed then s else (s.completeWord k).modTask k (fun t => { t with heads := none })
      if cause = 0 then
        let facts := [x.pool, x.limit] ++ ls.flatMap (fun h => [headTokens h, headFirst h])
        let s := s.modCore core (fun y =>
          { y with cq := { y.cq with started := y.cq.started.map (fun (o : Cmd) =>
            if o.place = c.place then { o with progress := 1, ops := o.ops ++ facts.map addrOp } else o) } })
        (done s).trySave k
      else
        let sum := (heads.map (fun p => headTokens p.1)).sum
        let regs := [8 + cause * 256 + table * 65536, c.ptr 1, sum, c.pc, c.tid, 0, c.val 2].map (BitVec.ofNat 64)
        let s := s.spadWriteT c.ctx core 3 (c.ptr 0) (listBytes 0 cause 0 [])
        if c.killed then s.endCmd core .copy c 0 none 8
        else if (s.task k).stoppable then (done (s.endCmd core .copy c 0 none 8)).takeUpcall k 3 regs 5
        else ((done s).modTask k (fun t => { t with dense := some regs })).endCmd core .copy c 0 none 8

/-- Walks a chain: block index, entries still to take, blocks at most. -/
def State.walkChain (s : State) (core : Nat) (c : Cmd) (pool : Nat) : Nat → Nat → Nat → Except CmdStop (List Nat) × State
  | 0, _, _ => (.ok [], s)
  | fuel + 1, i, n =>
    if n = 0 ∨ i = 0xFFFFFFFF then (.ok [], s)
    else
      match s.gatherRead core c [(pool + 64 * i, 64)] with
      | (.error st, s) => (.error st, s)
      | (.ok l, s) =>
        let blk := l.headD 0
        let m := Nat.min n (Nat.min 14 (blk / 2 ^ 480 % 256))
        match s.walkChain core c pool fuel (blk / 2 ^ 448 % 2 ^ 32) (n - m) with
        | (.error st, s) => (.error st, s)
        | (.ok more, s) => (.ok ((List.range m).map (fun j => blk / 2 ^ (32 * j) % 2 ^ 32) ++ more), s)

/-- Walks the chains of recorded heads: pairs of entries to take and first block. -/
def State.walkChains (s : State) (core : Nat) (c : Cmd) (pool limit : Nat) :
    List (Nat × Nat) → Except CmdStop (List Nat) × State
  | [] => (.ok [], s)
  | h :: rest =>
    match s.walkChain core c pool limit h.2 (Nat.min h.1 (14 * limit)) with
    | (.error st, s) => (.error st, s)
    | (.ok l, s) =>
      match s.walkChains core c pool limit rest with
      | (.error st, s) => (.error st, s)
      | (.ok more, s) => (.ok (l ++ more), s)

/-- Pairs of consecutive numbers. -/
def pairsOf : List Nat → List (Nat × Nat)
  | a :: b :: rest => (a, b) :: pairsOf rest
  | _ => []

/-- Inserts a number into a rising list. -/
def insertOnce (x : Nat) : List Nat → List Nat
  | [] => [x]
  | y :: rest => if x < y then x :: y :: rest else if x = y then y :: rest else y :: insertOnce x rest

/-- The second phase of `bgat` (R251): the chains, and the list, which a filling slot of another core holds back (R92). -/
def State.bgatSecond (s : State) (core : Nat) (c : Cmd) : State :=
  let facts := (c.ops.drop 3).map (fun w => w.v.toNat)
  match s.walkChains core c (facts.getD 0 0) (facts.getD 1 0) (pairsOf (facts.drop 2)) with
  | (.error st, s) => s.stopCmd core .copy c st
  | (.ok l, s') =>
    let l := l.foldl (fun acc x => insertOnce x acc) []
    if s.portFilling core true (c.ptr 0) (8 + 4 * l.length) [] then s
    else (s'.spadWriteT c.ctx core 3 (c.ptr 0) (listBytes l.length 0 0 l)).endCmd core .copy c 0 none (8 + 4 * l.length)

/-- `pgat` (R257): entries in input order, those outside the table skipped; what it reads and writes of another core's scratchpad is
held back by a filling slot (R92). -/
def State.runPgat (s : State) (core : Nat) (c : Cmd) (pages : Bool) : State :=
  let (x, dt) := s.attDesc c.ctx core (c.ptr 1)
  let n := c.val 3
  let l := s.spadGet c.ctx core (c.ptr 2) (4 * n)
  let tag := minTag dt (tagOfBytes l)
  -- a fault in command order follows the earlier commands of the task (R195, R259)
  if s.pgatFaults core c ∧ s.copiesBefore core c then s
  else if s.portFilling core true (c.ptr 1) 64 [] || s.portFilling core true (c.ptr 2) (4 * n) [] then s
  else
  let s0 := s
  let s := s.noteGather core c [(c.ptr 1, 64), (c.ptr 2, 4 * n)]
  if tag ≠ 0 then s.stopCmd core .copy c (.poison tag)
  else if !x.valid then s.stopCmd core .copy c (attStop 1)
  else
    let es := (List.range n).map (fun i => ofBytes (((l.drop (4 * i)).take 4).map (·.1)))
    let page (e : Nat) : Nat := if pages then e else e / 16
    let taken := es.filter (fun e => e != 0xFFFFFFFF && decide (page e < x.npages))
    match s.gatherRead core c (taken.map (fun e => (x.btab + 4 * page e, 4))) with
    | (.error st, s) => s.stopCmd core .copy c st
    | (.ok bt, s) =>
      let rows := (taken.zip bt).flatMap (fun p =>
        (if pages then List.range 16 else [p.1 % 16]).map (fun r => (16 * p.2 + r) % 2 ^ 32))
      if s0.portFilling core true (c.ptr 0) (8 + 4 * rows.length) [] then s0
      else
        let s := s.spadWriteT c.ctx core 3 (c.ptr 0) (listBytes rows.length 0 (n - taken.length) rows)
        s.endCmd core .copy c 0 none (8 + 4 * rows.length)

/-- COPY_BEAT_LAND (R97): a started command of the copy engine goes on: a beat lands, or a gather runs. -/
def execCopyBeatLand (core i : Nat) (s : State) : Outc :=
  event (match (s.core core).cq.started[i]? with
    | none => s
    | some c =>
      if !(s.cmdLive core c || isGather c.what) then s
      else
        match c.what with
        | .bgat _ | .bgatH1 _ => if c.progress = 0 then s.bgatFirst core c else s.bgatSecond core c
        | .pgatPg _ => s.runPgat core c true
        | .pgatTok _ => s.runPgat core c false
        | _ => s.copyBeat core c)

/-! ### The owners' handlers (R248, R254) -/

/-- A bucket link at the physical address of its head (R248). -/
def State.linkAt (s : State) (core : Nat) (l : Link) (pa : Nat) : State :=
  let h := s.num pa 16
  let gen := headGen h
  let tokens := headTokens h
  let spilled := headSpilled h || (decide (0 < tokens) && gen != l.gen)
  let gen := if tokens = 0 then l.gen else gen
  let tokens := Nat.min (tokens + 1) (2 ^ 32 - 1)
  let blocks := h / 2 ^ 32 % 2 ^ 8
  let keep := h / 2 ^ 40 % 2 ^ 7
  let last := h / 2 ^ 96 % 2 ^ 32
  let write (s : State) (sp : Bool) (blocks last first : Nat) : State :=
    s.writeSeen pa (bytesOf 16 (gen * 2 ^ 48 + (if sp then 2 ^ 47 else 0) + keep * 2 ^ 40 + blocks * 2 ^ 32 + tokens
      + last * 2 ^ 96 + first * 2 ^ 64)) 0 (.commit (core * 8 + 7))
  let put (s : State) (a : Nat) (bs : List Byte) : State := s.writeSeen a bs 0 (.commit (core * 8 + 7))
  let blockAt (i : Nat) : Option Nat := s.lineAt l.ctx ((l.pool + 64 * i) % 2 ^ 57)
  let lost (s : State) (i : Nat) : State := s.deviceFault l.ctx core 69 0 [BitVec.ofNat 64 ((l.pool + 64 * i) % 2 ^ 57)]
  let poisoned (s : State) (a : Nat) : State := s.deviceFault l.ctx core 64 (s.lineTag a) [BitVec.ofNat 64 (s.lineTag a)]
  let grow (s : State) : State :=
    if blocks < l.limit then
      let i := l.bucket * l.limit + blocks
      match blockAt i with
      | none => lost s i
      | some a =>
        let fresh := bytesOf 4 l.n ++ List.replicate 52 0 ++ bytesOf 4 0xFFFFFFFF ++ bytesOf 4 1
        if blocks = 0 then write (put s a fresh) false 1 i i
        else
          match blockAt last with
          | none => lost s last
          | some b =>
            if s.lineTag b ≠ 0 then poisoned s b
            else write (put (put s a fresh) (b + 56) (bytesOf 4 i)) false (blocks + 1) i (headFirst h)
    else write s true blocks last (headFirst h)
  if s.lineTag pa ≠ 0 then poisoned s pa
  else if spilled then write s true blocks last (headFirst h)
  else if blocks = 0 then grow s
  else
    match blockAt last with
    | none => lost s last
    | some b =>
      let count := s.num (b + 60) 1
      if s.lineTag b ≠ 0 then poisoned s b
      else if count < 14 then
        write (put (put s (b + 4 * count) (bytesOf 4 l.n)) (b + 60) (bytesOf 1 (count + 1))) false blocks last (headFirst h)
      else grow s

/-- The addresses that a bucket link may touch: the head's, the last block's, and a new block's. -/
def State.linkAddrs (s : State) (l : Link) : List Nat :=
  let va := (l.hbase + 64 * l.bucket) % 2 ^ 57
  let block (i : Nat) : Nat := (l.pool + 64 * i) % 2 ^ 57
  let blocks := match s.lineAt l.ctx va with
    | none => []
    | some pa =>
      let h := s.num pa 16
      [block (h / 2 ^ 96 % 2 ^ 32), block (l.bucket * l.limit + h / 2 ^ 32 % 2 ^ 8)]
  va :: blocks

/-- The lines of the host's window among a handler's addresses whose back-invalidation the host has not acknowledged (R406). -/
def State.handlerOwes (s : State) (ctx : Nat) (l : List Nat) : List Nat :=
  l.flatMap (fun va => match s.lineAt ctx va with | some pa => s.hostOwes pa 1 | none => [])

/-- BUCKET_LINK (R248). -/
def execBucketLink (l : Link) (s : State) : Outc :=
  let va := (l.hbase + 64 * l.bucket) % 2 ^ 57
  event (if (s.linkAddrs l).any (s.pageMoving l.ctx) then s.push (.bucketLink l) else s.serve (.link l) 11 l.ctx (s.ownerAt l.ctx va) (.bucketLink l) (fun s core m =>
    (match s.lineAt l.ctx va with
      | none => s.deviceFault l.ctx core 69 0 [BitVec.ofNat 64 va]
      | some pa => s.linkAt core l pa).termDone core m))

/-- SUMMARY_UPDATE (R254): each element's minimum or maximum; the line keeps its tag. An atomic (R254), it waits for the host's
acknowledgement (R406). -/
def execSummaryUpdate (ctx va : Nat) (isMax : Bool) (key : List Nat) (s : State) : Outc :=
  event (if s.pageMoving ctx va then s.push (.summaryUpdate ctx va isMax key)
  else if s.handlerOwes ctx [va] ≠ [] then (s.askHost (s.handlerOwes ctx [va])).push (.summaryUpdate ctx va isMax key)
  else s.serve (.summary ctx va isMax key) 2 ctx (s.ownerAt ctx va) (.summaryUpdate ctx va isMax key) (fun s core m =>
    (match s.lineAt ctx va with
      | none => s.deviceFault ctx core 69 0 [BitVec.ofNat 64 va]
      | some pa =>
        let line (i : Nat) : Nat := s.num (pa + 2 * i) 2
        let new := key.zipIdx.flatMap (fun (p : Nat × Nat) =>
          bytesOf 2 (if isMax then bf16.max (line p.2) p.1 else bf16.min (line p.2) p.1))
        s.writeSeen pa new (s.lineTag pa) .atomic).termDone core m))

/-! ### Vector atomics (R276, R277) -/

/-- Elements of 32 bits of a vector register, and the lanes of a `vamo`: index, operand. -/
def vamoLanes (t : Ty) (b c : Vec) (mask : BitVec 64) (m : Nat) : List (Nat × Int × Nat) :=
  let idx := elems 32 b
  let n := if t.width = 64 then 16 else 32
  let data := if t.width = 64 then elems 64 c else elems 32 c
  ((List.range n).filter (fun i => m == 0 || mask.getLsbD i)).map (fun i =>
    (i, toInt 32 (idx.getD i 0), low t.width (data.getD i 0)))

/-- Buffers the lanes from a list on; a page fault keeps the lanes below it and sets VELEM (R276, R277). -/
def vamoBuffer (f : AFn) (t : Ty) (base tag : Nat) : List (Nat × Int × Nat) → W Unit
  | [] => modCur (fun t => { t with velem := none })
  | (i, idx, v) :: rest => do
    let a : Int := (base : Int) + idx * ((tyBytes t : Nat) : Int)
    if a < 0 ∨ ((2 ^ 57 : Nat) : Int) ≤ a then trap fPointer
    let a := a.toNat
    if a % tyBytes t ≠ 0 then atomicFault 1
    let k ← curKey
    let keep := (← get).modTask k (fun t => { t with velem := some i })
    let (pa, leaf) ← xlate a .store (some keep)
    if paKind pa ≠ .hbm ∨ !(← get).paOk pa then atomicFault 2
    checkPlainWrite leaf a
    noteWrite pa
    let u ← newUpdate a pa (.amo f) t (BitVec.ofNat 64 v) 0 tag
    buffer (.update u (keyedOf leaf)) 1
    vamoBuffer f t base tag rest

/-- Whether an earlier vector or matrix command of the slot still writes a register of a `vamo`. -/
def State.vamoWaits (s : State) (k : Nat) (x : VAmoArg) : Bool :=
  let c := s.core (k / 8)
  (c.vq.of (k % 8) ++ c.mq.of (k % 8)).any (fun o =>
    (vregsOf o.what).2.any (fun r => r == x.b.val || r == x.c.val) || (x.m.val != 0 && (mregsOf o.what).contains x.m.val))

/-- A `vamo` (R276). -/
def vectorAtomic (f : AFn) (x : VAmoArg) (s : State) : Outc :=
  plain (do
    let p ← useWord (← readG x.a.val)
    let s ← get
    let k ← curKey
    if s.vamoWaits k x then exit (.hold false)
    let b := s.vreg k x.b.val
    let c := s.vreg k x.c.val
    if b.tag ≠ 0 then exit (.poison b.tag)
    let t ← curTask
    let lanes := (vamoLanes x.t b.v c.v (s.mreg k x.m.val) x.m.val).filter (fun l => decide (t.velem.getD 0 ≤ l.1))
    checkUnits lanes.length
    vamoBuffer f x.t (vaOf p) c.tag lanes) s

/-- `vamo.add` (R276). -/
def execVamoAdd (x : VAmoArg) (s : State) : Outc := vectorAtomic .add x s
/-- `vamo.fadd` (R276). -/
def execVamoFadd (x : VAmoArg) (s : State) : Outc := vectorAtomic .fadd x s
/-- `vamo.min` (R276). -/
def execVamoMin (x : VAmoArg) (s : State) : Outc := vectorAtomic .min x s
/-- `vamo.max` (R276). -/
def execVamoMax (x : VAmoArg) (s : State) : Outc := vectorAtomic .max x s
/-- `vamo.and` (R276). -/
def execVamoAnd (x : VAmoArg) (s : State) : Outc := vectorAtomic .and x s
/-- `vamo.or` (R276). -/
def execVamoOr (x : VAmoArg) (s : State) : Outc := vectorAtomic .or x s
/-- `vamo.xor` (R276). -/
def execVamoXor (x : VAmoArg) (s : State) : Outc := vectorAtomic .xor x s
/-- `vamo.swap` (R276). -/
def execVamoSwap (x : VAmoArg) (s : State) : Outc := vectorAtomic .swap x s

end Sys2Proof.Machine
end

