-- ==== Sys2Proof/Machine/Scheduling.lean ====
section
/-! DEFINITION. Ageing, slices and residency (R364 to R368, R430), groups (R369 to R371), quanta and the hive task queue (R373 to
R376). -/

namespace Sys2Proof.Machine

open Sys2Proof.Machine.Num

/-! ### Ageing (R364) -/

/-- The cycles of a microsecond at the clock of R1. -/
def usCycles : Nat := 1250

/-- The ageing period of a context in cycles; AGE holds 1 or more. -/
def Ctx.period (c : Ctx) : Nat := Nat.max 1 c.age * usCycles

/-- A level after `n` more ageing periods: at most 6; a level above stays. -/
def aged (l n : Nat) : Nat := if l < 6 then Nat.min 6 (l + n) else l

/-- AGEING_PERIOD (R364): ready tasks of user slots and eligible spilled messages of the context gain one level for every period that
each has waited; the rest of a period goes on counting. -/
def execAgeingPeriod (ctx : Nat) (s : State) : Outc :=
  let p := (s.ctx ctx).period
  let n (since : Nat) : Nat := (s.cyc - since) / p
  let spill (e : Nat × CoreCtx) : Nat × CoreCtx :=
    if e.1 / 8192 ≠ ctx then e
    else
      (e.1, { e.2 with spill := e.2.spill.map (fun (x : Spilled) =>
        if s.eligible (e.1 % 8192) x then
          { x with level := aged x.level (n x.waitFrom), waitFrom := x.waitFrom + n x.waitFrom * p }
        else x) })
  event
    { s with
      tasks := s.tasks.map (fun (e : Nat × Task) =>
        if e.2.stat = .ready ∧ e.2.ctx = ctx ∧ e.1 % 8 ≠ 7 then
          (e.1, { e.2 with level := aged e.2.level (n e.2.waitFrom), waitFrom := e.2.waitFrom + n e.2.waitFrom * p })
        else e)
      coreCtxs := s.coreCtxs.map spill }

/-- A write of AGE: 0 is stored as 1. -/
def State.writeAge (s : State) (ctx : Nat) (v : Word) : State :=
  s.modCtx ctx (fun c => { c with age := Nat.max 1 (v.toNat % 65536) })

/-- AGE_WRITE (R364). -/
def execAgeWrite (ctx : Nat) (v : Word) (s : State) : Outc := event (s.writeAge ctx v)

/-! ### Slices and residency (R367, R368, R430) -/

/-- A write of SLICE: a resident context starts a new slice. -/
def State.writeSlice (s : State) (ctx : Nat) (v : Word) : State :=
  s.modCtx ctx (fun c =>
    { c with
      runlim := Nat.max 1 (v.toNat / 2 ^ 32 % 65536), slice := v.toNat % 2 ^ 32
      sliceStart := if c.resident then s.cyc else c.sliceStart })

/-- SLICE_WRITE (R367). -/
def execSliceWrite (ctx : Nat) (v : Word) (s : State) : Outc := event (s.writeSlice ctx v)

/-- The user slots that hold a task of a context, by key. -/
def State.slotsOfCtx (s : State) (ctx : Nat) : List Nat :=
  (s.tasks.filter (fun p => p.2.ctx == ctx && p.1 % 8 != 7 && p.2.stat != .free && p.2.stat != .reserved)).map (·.1)

/-- Pre-empts a task: ready, parked and held ones at once; a running one when `force` says so. -/
def State.preempt (s : State) (force : Bool) (k : Nat) : State :=
  match (s.task k).stat with
  | .ready => s.beginSave k (.preempt none [])
  | .parked p => s.beginSave k (.preempt (some p) [])
  | .held e => s.beginSave k (.preempt none e)
  | .failed => s.freeFailed k
  | .running | .committing =>
    if force then s.beginSave k (.preempt none []) else s
  | _ => s

/-- Whether a context's slice has run out: a slice of 0 never does (R367). -/
def State.sliceOver (s : State) (ctx : Nat) : Bool :=
  let c := s.ctx ctx
  c.resident && !c.stopping && c.slice != 0 && decide (c.sliceStart + c.slice * usCycles ≤ s.cyc)

/-- SLICE_EXPIRY (R368): once the slice has run out, cores stop starting the context's user tasks; its ready and parked tasks are
saved. -/
def execSliceExpiry (ctx : Nat) (s : State) : Outc :=
  event (if !s.sliceOver ctx then s
    else
      let s := s.modCtx ctx (fun c => { c with stopping := true, stopFrom := s.cyc })
      (s.slotsOfCtx ctx).foldl (fun s k => s.preempt false k) s)

/-- Whether an expired context has had its run limit (R368). -/
def State.limitOver (s : State) (ctx : Nat) : Bool :=
  let c := s.ctx ctx
  c.stopping && decide (c.stopFrom + c.runlim * usCycles ≤ s.cyc)

/-- RUN_LIMIT_EXPIRY (R368): what still runs after the run limit is pre-empted. -/
def execRunLimitExpiry (ctx : Nat) (s : State) : Outc :=
  event (if !s.limitOver ctx then s else (s.slotsOfCtx ctx).foldl (fun s k => s.preempt true k) s)

/-- Whether every core has saved or finished its tasks of an expired context. -/
def State.sliceDone (s : State) (ctx : Nat) : Bool := (s.ctx ctx).stopping && (s.slotsOfCtx ctx).isEmpty

/-- CONTEXT_SAVED (R368, R395): its images are written, it is no longer resident, and the front hive's kernel receives the
slice-expiry trap. -/
def execContextSaved (ctx : Nat) (s : State) : Outc :=
  event (if !s.sliceDone ctx then s
    else
      let s := s.cores.foldl (fun s c => if c.2.installed = some ctx then s.writeImage ctx c.1 else s) s
      let s := s.modCtx ctx (fun c => { c with resident := false, stopping := false })
      s.interrupt 31 0 ctx [])

/-- The cores at which a context has work that waits: spilled messages or saved tasks. -/
def State.coresOfCtx (s : State) (ctx : Nat) : List Nat :=
  ((s.coreCtxs.filter (fun (e : Nat × CoreCtx) => e.1 / 8192 == ctx && !e.2.spill.isEmpty)).map (fun (e : Nat × CoreCtx) => e.1 % 8192)
    ++ (s.saved.filter (fun (e : Nat × Saved) => e.2.task.ctx == ctx)).map (fun (e : Nat × Saved) => e.2.core)).dedup

/-- Every core looks again for work of a context. -/
def State.wakeCtx (s : State) (ctx : Nat) : State :=
  (s.coresOfCtx ctx).foldl (fun s c => s.push (.spillWake ctx c)) s

/-- Whether a context is installed (log 12). -/
def State.isInstalled (s : State) (ctx : Nat) : Bool := ctx == 0 || (s.ctx ctx).installed

/-- The status of a write to CTXRES with go = 1; of several the lowest (log 70). Context 0 counts as installed (log 12). -/
def State.ctxresOutcome (s : State) (ctx : Nat) : Nat :=
  if (s.ctx ctx).resident then 1
  else if 64 ≤ (s.ctxs.filter (fun c => c.2.resident)).length then 2
  else if !s.isInstalled ctx then 3
  else 0

/-- A context becomes resident (R430): its slice starts, the tasks that a slice expiry saved return, its cores look for work; its
messages wait for their ageing from now. -/
def State.makeResident (s : State) (ctx : Nat) : State :=
  let s := s.modCtx ctx (fun c => { c with resident := true, stopping := false, sliceStart := s.cyc })
  let s := { s with
    coreCtxs := s.coreCtxs.map (fun (e : Nat × CoreCtx) =>
      if e.1 / 8192 = ctx then
        (e.1, { e.2 with spill := e.2.spill.map (fun (x : Spilled) => { x with waitFrom := s.cyc }) })
      else e)
    saved := s.saved.map (fun (e : Nat × Saved) =>
      if e.2.task.ctx = ctx ∧ e.2.sliced then (e.1, { e.2 with pending := true, sliced := false }) else e) }
  s.wakeCtx ctx

/-- A write of CTXRES (R430). -/
def State.writeCtxres (s : State) (v : Word) : State :=
  let ctx := v.toNat % 4096
  let s := { s with ctxres := ctx }
  if !v.getLsbD 63 then s
  else
    let st := s.ctxresOutcome ctx
    let s := { s with ctxresStatus := st }
    if st = 0 then s.makeResident ctx else s

/-- CTXRES_WRITE (R430). -/
def execCtxresWrite (v : Word) (s : State) : Outc := event (s.writeCtxres v)

/-! ### Groups (R369 to R371) -/

/-- The hives load a group's entry. -/
def State.loadGroup (s : State) (ctx g : Nat) : State :=
  let a := (s.ctx ctx).groupAt g
  let w0 := s.num a 8
  s.modGroup ctx g (fun x =>
    { x with
      valid := w0 / 2 ^ 63 == 1, ordered := w0 / 2 ^ 62 % 2 == 1, merge := w0 / 2 ^ 61 % 2 == 1
      members := w0 / 2 ^ 32 % 2 ^ 14, bitmap := s.num (a + 16) 8 / 2 ^ 10 % 2 ^ 30 * 2 ^ 10
      quantum := s.num (a + 24) 4, horizon := s.num (a + 32) 4 })

/-- The bits that are set in `n` bytes of main memory. -/
def State.bitCount (s : State) (a n : Nat) : Nat :=
  ((List.range n).map (fun i => ((List.range 8).filter (fun b => (s.byte (a + i)).getLsbD b)).length)).sum

/-- Whether a group entry breaks R369: a valid one whose member count is not the number of its bitmap's bits, or whose table does not
lie in HBM5 below MCAP. -/
def State.groupBad (s : State) (ctx g : Nat) : Bool :=
  let a := (s.ctx ctx).groupAt g
  !s.paOk a || (s.num a 8 / 2 ^ 63 == 1 &&
    s.num a 8 / 2 ^ 32 % 2 ^ 14 != s.bitCount (s.num (a + 16) 8 / 2 ^ 10 % 2 ^ 30 * 2 ^ 10) 1024)

/-- A write of GTSYNC (R370): bits [63:8] are ignored. -/
def State.writeGtsync (s : State) (ctx : Nat) (v : Word) : State := s.loadGroup ctx (v.toNat % 256)

/-- GTSYNC_WRITE (R370); an entry that breaks R369 is the context fault of R17, which names it. -/
def execGtsyncWrite (ctx : Nat) (v : Word) (s : State) : Outc :=
  let g := v.toNat % 256
  event (if s.groupBad ctx g then s.deviceFault ctx 0 69 0 [BitVec.ofNat 64 ((s.ctx ctx).groupAt g)]
    else s.writeGtsync ctx v)

/-- Whether a write of GRPi breaks R371: a group named twice, one whose bitmap lacks the core, a second merge domain. -/
def State.grpBad (s : State) (ctx core i : Nat) (v : Word) : Bool :=
  let g := v.toNat % 256
  let others := ((s.cc ctx core).grp.filter (fun r => r.1 != i && r.2.getLsbD 63)).map (fun r => r.2.toNat % 256)
  v.getLsbD 63 && (others.contains g || !s.memberBit ctx g core
    || ((s.group ctx g).merge && others.any (fun o => (s.group ctx o).merge)))

/-- A write of GRPi that keeps R371: a core that joins a group takes part from its current quantum. -/
def State.writeGrp (s : State) (ctx core i : Nat) (v : Word) : State :=
  let g := v.toNat % 256
  let q := (s.group ctx g).qno
  let joins := v.getLsbD 63 && !(s.memberGroups ctx core).contains g
  s.modCc ctx core (fun c =>
    let c := { c with grp := Tab.set 0 c.grp i (BitVec.ofNat 64 ((if v.getLsbD 63 then 2 ^ 63 else 0) + g)) }
    if joins then
      { c with quantumWords := Tab.set 0 c.quantumWords g 0, quantumNo := Tab.set 0 c.quantumNo g q
               ended := Tab.set 0 c.ended g q }
    else c)

/-- GRP_WRITE (R371): a write that breaks R371 leaves the register unchanged. -/
def execGrpWrite (ctx core : Nat) (i : Fin 4) (v : Word) (s : State) : Outc :=
  event (if s.grpBad ctx core i.val v then s else s.writeGrp ctx core i.val v)

/-! ### Quanta (R373, R424) -/

/-- The member cores of a group. -/
def State.membersOf (s : State) (ctx g : Nat) : List Nat := (List.range 8192).filter (s.memberBit ctx g)

/-- How many quanta of a group a member has ended. -/
def State.endedOf (s : State) (ctx g core : Nat) : Nat := Tab.get 0 (s.cc ctx core).ended g

/-- Whether a task keeps its core's quantum going: it runs, is ready or waits at its commit, and awaits no spawn answer or steal
reply (R373). -/
def Task.works (t : Task) : Bool :=
  match t.stat with
  | .running | .ready | .committing => !t.lateArrival
  | _ => false

/-- Whether a core has no user task of a context that keeps a quantum going (R373). -/
def State.quantumIdle (s : State) (ctx core : Nat) : Bool :=
  (List.range 7).all (fun i => (s.task (core * 8 + i)).ctx != ctx || !(s.task (core * 8 + i)).works)

/-- Whether an update that a core committed in quantum `q` or before has not reached its owner's holding buffer or log (R279, R424): it
travels, or it waits in a queue or in the spill queue, or a merge holds it. -/
def State.updatesFly (s : State) (ctx core q : Nat) : Bool :=
  let mine (m : Message) : Bool := match m.svc with
    | .update u => u.ctx == ctx && u.issuer == core && decide (u.quantum ≤ q)
    | _ => false
  s.pending.any (fun e => match e with
    | .messageArrival m | .messageBounce m => mine m
    | _ => false)
  || s.cores.any (fun c => c.2.bounced.any (fun p => mine p.m) || c.2.sysQueue.any mine)
  || s.coreCtxs.any (fun e => e.2.mergeHeld.any mine || e.2.spill.any (fun p => mine p.m))

/-- Whether a `gsync` arrival at a group that a core committed in quantum `q` or before has not been counted: its continuations, if it is
the last, belong to that quantum (R426). -/
def State.arrivalsFly (s : State) (ctx g core q : Nat) : Bool :=
  s.pending.any (fun e => match e with
    | .gsyncArrival c x core' _ => c == ctx && core' == core && x % 256 == g && decide (x / 256 ≤ q)
    | _ => false)

/-- Whether a member's quantum of a group cannot end yet: its updates travel to a merge-domain group's owners (R424), or its arrivals at a
barrier of the group (R426). -/
def State.quantumFlies (s : State) (ctx g core q : Nat) : Bool :=
  ((s.group ctx g).merge && s.updatesFly ctx core q) || s.arrivalsFly ctx g core q

/-- A member ends a quantum: by its words, or because it is idle. -/
def State.endQuantum (s : State) (ctx g core : Nat) : State :=
  let e := s.endedOf ctx g core
  let n := s.quantumOf ctx core g
  if s.quantumFlies ctx g core e then s
  else if e < n then s.modCc ctx core (fun c => { c with ended := Tab.set 0 c.ended g (e + 1) })
  else if s.quantumIdle ctx core ∧ n ≤ (s.group ctx g).qno then
    s.modCc ctx core (fun c =>
      { c with quantumWords := Tab.set 0 c.quantumWords g 0, quantumNo := Tab.set 0 c.quantumNo g (n + 1)
               ended := Tab.set 0 c.ended g (e + 1) })
  else s

/-- Whether every member of a group has ended its current quantum. -/
def State.quantumOver (s : State) (ctx g : Nat) : Bool :=
  (s.membersOf ctx g).all (fun c => decide ((s.group ctx g).qno < s.endedOf ctx g c))

/-- Whether a hive still has to serve the current quantum of a group. -/
def State.serving (s : State) (ctx g : Nat) : Bool :=
  s.pending.any (fun e => match e with
    | .quantumService c g' _ => c == ctx && g' == g
    | _ => false)

/-- QUANTUM_END (R373): a member ends a quantum, as do the idle ones; when all have, their hives serve it. What the member has sent and
its quantum awaits (R424, R426) makes it come again. -/
def execQuantumEnd (ctx group core : Nat) (s : State) : Outc :=
  let bad : Bool := (s.ctx ctx).detlvl == 0 || !(s.group ctx group).valid || !(s.membersOf ctx group).contains core
  event (if bad then s
    else if s.serving ctx group then s.push (.quantumEnd ctx group core)
    else
      let again := s.quantumFlies ctx group core (s.endedOf ctx group core) && !s.pending.contains (.quantumEnd ctx group core)
      let s := s.endQuantum ctx group core
      let s := if again then s.push (.quantumEnd ctx group core) else s
      let q := (s.group ctx group).qno
      let s := (s.membersOf ctx group).foldl
        (fun s c => if s.endedOf ctx group c ≤ q then s.endQuantum ctx group c else s) s
      if s.quantumOver ctx group then
        (((s.membersOf ctx group).map hiveOf).dedup).foldl (fun s h => s.push (.quantumService ctx group h)) s
      else s)

/-! ### The hive task queue (R374) -/

/-- The core that a request is for. -/
def Request.target : Request → Nat
  | .msg m => m.dst
  | .steal _ _ v => v
  | .spawn _ _ m => m.dst

/-- The order of a request within a quantum: its row, then the row's order. -/
def State.requestKey (s : State) : Request → Nat × Nat × Nat
  | .msg m => (0, m.src, 0)
  | .steal t _ _ => (1, t, 0)
  | .spawn p sl m => (2, (s.task (p * 8 + sl)).tid, hdrTs m.hdr)

/-- Whether a collected request is served before another. -/
def State.requestBefore (s : State) (a b : Nat × Request) : Bool :=
  let x := s.requestKey a.2
  let y := s.requestKey b.2
  decide (a.1 < b.1) || (a.1 == b.1 && updateBefore x y)

/-- Serves one request. -/
def State.serveRequest (s : State) : Request → State
  | .msg m => s.receive m
  | .steal t sl v => s.stealRequest t sl v
  | .spawn p sl m => s.slotRequest p sl m

/-- The quantum of a group ends: the next one begins, and the updates that wait for it come up. -/
def State.nextQuantum (s : State) (ctx g : Nat) : State :=
  let q := (s.group ctx g).qno + 1
  let s := s.modGroup ctx g (fun x => { x with qno := q })
  let s := if (s.group ctx g).merge then (s.membersOf ctx g).foldl (fun s c => s.bringUp ctx c) s else s
  match (s.membersOf ctx g).find? (fun c => decide (q < s.endedOf ctx g c)) with
  | some c => s.push (.quantumEnd ctx g c)
  | none => s

/-- The owners of a hive whose merge-domain group is a group (R278, R374). -/
def State.ownersOf (s : State) (ctx g hive : Nat) : List Nat :=
  ((List.range 8192).filter (fun c => hiveOf c == hive)).filter (fun c => s.mergeGroup ctx c == some g)

/-- QUANTUM_SERVICE (R374): a hive settles the owners of the group, then serves the requests collected for its cores, 256 in all; a
settlement is a request of an owner that holds updates, and waits for the host's acknowledgements (R406). -/
def execQuantumService (ctx group hive : Nat) (s : State) : Outc :=
  event (if !s.quantumOver ctx group then s
    else
      let owners := (s.ownersOf ctx group hive).filter (fun c => (s.cc ctx c).heldCount != 0)
      let owed := owners.flatMap (s.settleOwes ctx)
      if owed ≠ [] then (s.askHost owed).push (.quantumService ctx group hive)
      else
      let room := 256 - owners.length
      let s := owners.foldl (fun s c => s.settle ctx c) s
      let q := (s.group ctx group).qno
      let all := (s.group ctx group).collected
      let mine (r : Nat × Request) : Bool := hiveOf r.2.target == hive && decide (r.1 ≤ q)
      let l := sortBy s.requestBefore (all.filter mine)
      let s := s.modGroup ctx group (fun x => { x with collected := all.filter (fun r => !mine r) ++ l.drop room })
      let s := (l.take room).foldl (fun s r => s.serveRequest r.2) s
      if s.serving ctx group then s else s.nextQuantum ctx group)

/-! ### Changing the level (R376) -/

/-- The updates that owners hold for a quantum are settled, and those of later quanta applied, as a level ends. -/
def State.settleAll (s : State) (ctx : Nat) : State :=
  let cores := (s.coreCtxs.filter (fun (e : Nat × CoreCtx) =>
    e.1 / 8192 == ctx && !(e.2.holding.isEmpty && e.2.late.isEmpty))).map (fun e => e.1 % 8192)
  let s := cores.foldl (fun s c => s.settle ctx c) s
  cores.foldl (fun s c => s.bringUp ctx c) (s.modCtx ctx (fun c => { c with detlvl := 0 }))

/-- The lines whose acknowledgement by the host a change of level awaits (R406). -/
def State.levelOwes (s : State) (ctx : Nat) : List Nat :=
  s.coreCtxs.flatMap (fun e =>
    if e.1 / 8192 = ctx then
      s.settleOwes ctx (e.1 % 8192) ++ e.2.late.flatMap (fun m => match msgUpdate m with | some u => s.hostOwes u.pa 1 | none => [])
    else [])

/-- A context's level changes: every member starts quantum 0, identifiers count from 0 (R375); requests collected at the old
level are served. -/
def State.setLevel (s : State) (ctx level : Nat) : State :=
  let s := s.settleAll ctx
  let reqs := (s.ctx ctx).groups.flatMap (fun g => g.2.collected)
  let s := s.modCtx ctx (fun c =>
    { c with detlvl := level
             groups := c.groups.map (fun (g : Nat × Group) => (g.1, { g.2 with qno := 0, collected := [] })) })
  let s := { s with
    coreCtxs := s.coreCtxs.map (fun (e : Nat × CoreCtx) =>
      if e.1 / 8192 = ctx then
        (e.1, { e.2 with tidSeq := 0, quantumWords := [], quantumNo := [], ended := [] })
      else e) }
  reqs.foldl (fun s r => s.serveRequest r.2) s

end Sys2Proof.Machine
end

