-- ==== Sys2Proof/Machine/Translation.lean ====
section
/-! DEFINITION. Walks that end, and invalidations of translations (R76, R80, R82, R188). -/

namespace Sys2Proof.Machine

open Sys2Proof.Machine.Num

/-! ### What an invalidation removes (R188) -/

/-- Whether an invalidation (kind 0 page, 1 context, 2 all) removes a translation. -/
def killsEntry (kind va ctx : Nat) (e : TlbEntry) : Bool :=
  match kind with
  | 0 => e.covers ctx va
  | 1 => e.ctx == ctx
  | _ => true

/-- Whether an invalidation covers address `a` of context `c`, a page of which has `size` bits. -/
def coversAddr (kind va ctx size c a : Nat) : Bool :=
  match kind with
  | 0 => c == ctx && a / 2 ^ size == va / 2 ^ size
  | 1 => c == ctx
  | _ => true

/-- The cores of a hive. -/
def hiveCores (h : Nat) : List Nat := (List.range 16).map (hiveCore h)

/-- The translations that a core holds. -/
def Core.entries (c : Core) : List TlbEntry := c.tlbD ++ c.tlbI ++ c.victims.map (·.2)

/-- The size, in bits, of the page of an address as the page table has it. -/
def State.pageSize (s : State) (ctx va : Nat) : Nat :=
  match s.walk ctx va with
  | .leaf _ _ shift => shift
  | _ => 12

/-- The largest page, in bits, that an invalidation covers: among the translations that it removes from these cores and, when it acts on
a hive, its second level, and, since an access in flight may have outlived its translation, as the page table has it; at least 4 KiB. -/
def State.killSize (s : State) (cores : List Nat) (hive : Option Nat) (kind va ctx : Nat) : Nat :=
  let l := cores.flatMap (fun c => (s.core c).entries) ++ (match hive with
    | some h => (s.hive h).tlb ++ (s.hive h).victims
    | none => [])
  ((l.filter (killsEntry kind va ctx)).map (·.size)).foldl Nat.max (if kind = 0 then s.pageSize ctx va else 12)

/-- Removes translations from a core's first-level TLBs and victim storage. -/
def State.killCore (s : State) (kind va ctx core : Nat) : State :=
  s.modCore core (fun c =>
    { c with
      tlbD := c.tlbD.filter (fun e => !killsEntry kind va ctx e)
      tlbI := c.tlbI.filter (fun e => !killsEntry kind va ctx e)
      victims := c.victims.filter (fun p => !killsEntry kind va ctx p.2) })

/-- Removes translations from a whole hive. -/
def State.killHive (s : State) (kind va ctx hive : Nat) : State :=
  let s := (hiveCores hive).foldl (fun s c => s.killCore kind va ctx c) s
  s.modHive hive (fun h =>
    { h with
      tlb := h.tlb.filter (fun e => !killsEntry kind va ctx e)
      victims := h.victims.filter (fun e => !killsEntry kind va ctx e) })

/-- The virtual addresses of a task's accesses that have translated and are not served: buffered writes and updates, and loads and
atomics outstanding. A parked version load waits for a version and for no page. -/
def Task.accessAddrs (t : Task) : List Nat :=
  t.commit.filterMap (fun b => match b.eff with
    | .store va _ _ _ _ => some va
    | .stv _ va _ _ _ _ _ => some va
    | .node va _ _ _ => some va
    | .update u _ => some u.va
    | _ => none)
  ++ (t.loads.filter (fun l => !l.parked)).map (·.va)

/-- The update that an event or a message brings. -/
def updateOf (m : Message) : Option Update :=
  match m.svc with
  | .update u => some u
  | _ => none

def eventUpdate : Event → Option Update
  | .messageArrival m | .messageBounce m => updateOf m
  | .atomicApply u | .joinArrival u | .shareUpdate u => some u
  | _ => none

/-- The updates that no owner has applied yet: on their way, returned, queued, spilled, held for a quantum or for a merge, or
collected. -/
def State.updatesAbroad (s : State) : List Update :=
  let at' (p : Nat × CoreCtx) : List Message := p.2.spill.map (·.m) ++ p.2.holding ++ p.2.late ++ p.2.mergeHeld
  let core (p : Nat × Core) : List Message := p.2.sysQueue ++ p.2.relink.map (·.m) ++ p.2.bounced.map (·.m)
  let group (p : Nat × Group) : List Message := p.2.collected.filterMap (fun r => match r.2 with | .msg m => some m | _ => none)
  s.pending.filterMap eventUpdate
    ++ (s.coreCtxs.flatMap at' ++ s.cores.flatMap core ++ s.ctxs.flatMap (fun p => p.2.groups.flatMap group)).filterMap updateOf

/-- Whether a `get` or `put` of a core has elements of a context under way. -/
def Core.elementsOut (c : Core) (kind ctx : Nat) : Bool :=
  c.gp.any (fun g => decide (g.landed.length < g.els.length) && (kind == 2 || g.ctx == ctx))

/-- Whether an access from these cores, of a task other than `but`, that translated through a removed page is not served (R80): one
of a task in a slot or saved, an update under way, an element of `get` or `put`, a sequentially consistent operation that waits
for its place, a write that waits at a memory port. -/
def State.accessesCovered (s : State) (cores : List Nat) (kind va ctx size : Nat) (but : Nat × Nat) : Bool :=
  let hit (t : Task) : Bool := (t.ctx, t.tid) != but && t.accessAddrs.any (coversAddr kind va ctx size t.ctx)
  s.tasks.any (fun (p : Nat × Task) => p.2.stat != .free && cores.contains (p.1 / 8) && hit p.2)
    || s.saved.any (fun (p : Nat × Saved) => cores.contains p.2.core && hit p.2.task)
    || s.updatesAbroad.any (fun u => cores.contains u.issuer && coversAddr kind va ctx size u.ctx u.va)
    || cores.any (fun c => (s.core c).elementsOut kind ctx)
    || (s.announce ++ s.placed).any (fun (x : Sc) => cores.contains x.core)
    || s.pending.any (fun e => match e with
      | .memoryPortAccess c _ _ (some _) _ => cores.contains c
      | _ => false)

/-! ### Walks again (R76, R82) -/

/-- TLB_WALK_COMPLETE (R76, R82): a walk for the task of a slot ends. A leaf enters the TLBs; a task parked on the page goes on
unless the page still migrates, and a walk that faults leaves the fault to its access. The wake of a task whose save waits comes with
its save (R377). -/
def execTlbWalkComplete (core slot va : Nat) (s : State) : Outc :=
  let k := core * 8 + slot
  let t := s.task k
  event (if t.stat = .free then s
    else
      let (x, s) := s.translate core t.ctx va t.super .load
      match x, t.stat with
      | .migrating, _ => s
      | _, .parked (.migrating a) => if a / 4096 = va / 4096 then s.wake k else s
      | _, st => match st.parkedOn with
        | some (.migrating a) => if a / 4096 = va / 4096 then s.push (.tlbWalkComplete core slot va) else s
        | _ => s)

/-- What waits at a hive for a page that an invalidation covers walks again (R82): parked tasks, saved ones, the ports'
commands. -/
def State.rewalk (s : State) (hive kind va ctx : Nat) : State :=
  let cores := hiveCores hive
  let covered (t : Task) : Option Nat := match t.stat.parkedOn with
    | some (.migrating a) => if coversAddr kind va ctx (s.pageSize t.ctx a) t.ctx a then some a else none
    | _ => none
  let s := s.tasks.foldl
    (fun s (p : Nat × Task) =>
      if !cores.contains (p.1 / 8) then s
      else match covered p.2 with
        | some a => s.push (.tlbWalkComplete (p.1 / 8) (p.1 % 8) a)
        | none => s) s
  let hit := s.saved.filter (fun (p : Nat × Saved) => cores.contains p.2.core && (covered p.2.task).isSome)
  let s := { s with
    saved := s.saved.map (fun (p : Nat × Saved) =>
      if cores.contains p.2.core && (covered p.2.task).isSome then (p.1, p.2.awake) else p) }
  let s := hit.foldl (fun s (p : Nat × Saved) => s.push (.spillWake p.2.task.ctx p.2.core)) s
  cores.foldl (fun s c => if (s.core c).gp = [] then s else s.gpKick c) s

/-! ### Invalidations of device scope (R80) -/

/-- INVALIDATION_MESSAGE (R80): the hive removes the matching translations; what waits for the page walks again. -/
def execInvalidationMessage (hive id : Nat) (s : State) : Outc :=
  event (match s.invals.find? (fun (i : Inval) => i.id == id) with
    | none => s
    | some i =>
      let size := s.killSize (hiveCores hive) (some hive) i.kind i.va i.ctx
      let s := (s.killHive i.kind i.va i.ctx hive).rewalk hive i.kind i.va i.ctx
      (s.modHive hive (fun h => { h with inval := h.inval ++ [(id, size)] })).push (.invalidationDone hive id))

/-- The task that issued an invalidation has its counter decremented, in its slot or saved. -/
def State.invalCount (s : State) (i : Inval) : State :=
  let down (t : Task) : Task :=
    if t.stat != .free && t.super && t.tid == i.tid then { t with cc := Tab.set 0 t.cc i.cc (Tab.get 0 t.cc i.cc - 1) }
    else t
  { s with
    tasks := s.tasks.map (fun (p : Nat × Task) => (p.1, down p.2))
    saved := s.saved.map (fun (p : Nat × Saved) => (p.1, { p.2 with task := down p.2.task })) }

/-- INVALIDATION_DONE (R80): once no access of the hive's tasks that translated through a removed entry is unserved, the hive
decrements the counter; after the last hive the invalidation is over. -/
def execInvalidationDone (hive id : Nat) (s : State) : Outc :=
  event (match s.invals.find? (fun (i : Inval) => i.id == id), (s.hive hive).inval.find? (fun (p : Nat × Nat) => p.1 == id) with
    | some i, some (_, size) =>
      if s.accessesCovered (hiveCores hive) i.kind i.va i.ctx size (0, i.tid) then s.push (.invalidationDone hive id)
      else
        let s := s.modHive hive (fun h => { h with inval := h.inval.filter (fun p => p.1 != id) })
        let done := hive :: Tab.get [] s.invalDone id
        let s := { s with invalDone := Tab.set [] s.invalDone id (if done.length = 512 then [] else done) }
        let s := if done.length = 512 then { s with invals := s.invals.filter (fun (i : Inval) => i.id != id) } else s
        s.invalCount i
    | _, _ => s)

/-- A device-scope invalidation starts (R80): the counter is 512, and one message goes to every hive. -/
def State.invalidateDevice (s : State) (k kind va ctx cc : Nat) : State :=
  let (id, s) := s.fresh
  let s := s.modTask k (fun t => { t with cc := Tab.set 0 t.cc cc 512 })
  let s := { s with
    invals := s.invals ++ [{ id := id, kind := kind, va := va, ctx := ctx, tid := (s.task k).tid, cc := cc }] }
  (List.range 512).foldl (fun s h => s.push (.invalidationMessage h id)) s

end Sys2Proof.Machine
end

