-- ==== Sys2Proof/Machine/Faults.lean ====
section
/-! DEFINITION. Writes of the fault-ring, context-stop, save-pool, image-move and rule-cache registers, saves that wait, and
uncorrectable errors (R88, R320, R383 to R396). -/

namespace Sys2Proof.Machine

open Sys2Proof.Machine.Num

/-! ### The fault ring (R383, R384) -/

/-- A write of FRBASE: the write that sets en posts the held faults, oldest first. -/
def State.writeFrbase (s : State) (hive : Nat) (v : Word) : State :=
  let h := s.hive hive
  let w := BitVec.ofNat 64 (v.toNat / 2 ^ 13 % 2 ^ 27 * 2 ^ 13 + v.toNat % 2)
  let s := s.modHive hive (fun h => { h with frbase := w })
  if v.getLsbD 0 && !h.frbase.getLsbD 0 then s.raiseHeldN hive h.heldFaults.length else s

/-- FRBASE_ENABLE (R383). -/
def execFrbaseEnable (hive : Nat) (v : Word) (s : State) : Outc := event (s.writeFrbase hive v)

/-- A write of FRING: over is cleared by a 1; the entries that the new cons frees raise as many held faults (R384). -/
def State.writeFring (s : State) (hive : Nat) (v : Word) : State :=
  let h := s.hive hive
  let cons := v.toNat / 256 % 256
  let freed := (h.prod + 256 - h.cons) % 256 - (h.prod + 256 - cons) % 256
  (s.modHive hive (fun h => { h with cons := cons, ovf := h.ovf && !v.getLsbD 63 })).raiseHeldN hive freed

/-- FRING_CONS_WRITE (R384). -/
def execFringConsWrite (hive : Nat) (v : Word) (s : State) : Outc := event (s.writeFring hive v)

/-! ### A stopped context goes on (R385) -/

/-- Whether a saved task of a context resumes when the context's stop is cleared: marked by `eret`, or of state 3 and named by
none. -/
def Saved.resumes (r : Saved) : Bool := r.named || r.state == 3

/-- A task that resumes so is ready, whatever it was saved on: what it waited for it judges again. -/
def Saved.resumed (r : Saved) : Saved :=
  { r with pending := true, debug := false, sliced := false, task := { r.task with stat := .ready } }

/-- A write of CTXST: 1 in stopped lets the cores start tasks again. -/
def State.writeCtxst (s : State) (ctx : Nat) (v : Word) : State :=
  if !v.getLsbD 63 || !(s.ctx ctx).stopped then s
  else
    let s := s.modCtx ctx (fun c => { c with stopped := false })
    let s := { s with
      saved := s.saved.map (fun (p : Nat × Saved) =>
        if p.2.task.ctx = ctx ∧ p.2.resumes then (p.1, p.2.resumed) else p) }
    s.wakeCtx ctx

/-- CTXST_RESUME (R385). -/
def execCtxstResume (ctx : Nat) (v : Word) (s : State) : Outc := event (s.writeCtxst ctx v)

/-! ### Save areas (R392) -/

/-- The saves of a context that wait look for an area again. -/
def State.retrySaves (s : State) (ctx : Nat) : State :=
  s.tasks.foldl
    (fun s (p : Nat × Task) => match p.2.stat with
      | .saving _ => if p.2.ctx = ctx then s.trySave p.1 else s
      | _ => s) s

/-- SAVE_AREA_FREED (R392). -/
def execSaveAreaFreed (ctx handle : Nat) (s : State) : Outc :=
  let _ := handle
  event (s.retrySaves ctx)

/-- A write of SVPOOL; another base is another pool, of which nothing is handed out. The free areas are judged against the threshold
(R392). -/
def State.writeSvpool (s : State) (ctx : Nat) (v : Word) : State :=
  let w := BitVec.ofNat 64 (v.toNat / 2 ^ 17 * 2 ^ 17)
  ((s.modCtx ctx (fun c =>
    let c' := { c with svpool := w }
    { c' with svUsed := if c'.svBase = c.svBase then c.svUsed else [] })).judgePool ctx).retrySaves ctx

/-- SVPOOL_WRITE (R392): saves that wait find an area. -/
def execSvpoolWrite (ctx : Nat) (v : Word) (s : State) : Outc := event (s.writeSvpool ctx v)

/-! ### Moving a core image (R396, R422) -/

/-- Whether a core has a live slot of a context. -/
def State.liveAt (s : State) (ctx core : Nat) : Bool :=
  (List.range 7).any (fun i =>
    let t := s.task (core * 8 + i)
    t.stat != .free && t.ctx == ctx)

/-- The status of a move: the first of 2, 1, 3 that holds, else 0. -/
def State.cmoveStatus (s : State) (ctx src dst : Nat) : Nat :=
  if !(s.space ctx src).present || (s.core src).installed == some ctx || s.liveAt ctx src then 2
  else if s.liveAt ctx dst || s.saved.any (fun (p : Nat × Saved) => p.2.task.ctx == ctx && p.2.core == dst)
      || (s.space ctx dst).deque.ranges != [] || (s.space ctx dst).deque.reserved != 0 then 1
  else if (s.space ctx src).deque.reserved != 0 then 3
  else 0

/-- The regions of moved tasks engage the target, as if the source had sent it a message. -/
def State.moveRegion (s : State) (src dst r : Nat) : State :=
  let s := if (s.termRec dst r).engaged then s
    else (s.modTerm dst r (fun t => { t with engaged := true, parent := src })).modTerm src r (fun t => { t with out := t.out + 1 })
  s.termSettle src r

/-- Moves the image and the saved tasks of a context from one core to another. -/
def State.moveImage (s : State) (ctx src dst : Nat) : State :=
  let mine := s.saved.filter (fun (p : Nat × Saved) => p.2.task.ctx == ctx && p.2.core == src)
  let s := s.modCore dst (fun c => if c.installed = some ctx then { c with installed := none, victims := [], dir := [] } else c)
  let s := (s.setSpace ctx dst (s.space ctx src)).setSpace ctx src .empty
  let s := { s with
    saved := s.saved.map (fun (p : Nat × Saved) =>
      if p.2.task.ctx == ctx && p.2.core == src then (p.1, { p.2 with core := dst }) else p) }
  let s := (mine.foldl (fun s (p : Nat × Saved) => s.writeWord (p.1 + 32) (BitVec.ofNat 64 dst)) s).writeHandles ctx dst
  let s := ((mine.map (fun (p : Nat × Saved) => p.2.task.trm)).dedup.filter (· != 0)).foldl (fun s r => s.moveRegion src dst r) s
  s.push (.spillWake ctx dst)

/-- A write of CMOVE for a context. -/
def State.writeCmove (s : State) (ctx : Nat) (v : Word) : State :=
  let src := v.toNat / 2 ^ 13 % 8192
  let dst := v.toNat % 8192
  let old := s.cmove.toNat / 2 ^ 61 % 4
  let st := if v.getLsbD 63 then s.cmoveStatus ctx src dst else old
  let s := { s with cmove := BitVec.ofNat 64 (st * 2 ^ 61 + src * 2 ^ 13 + dst) }
  if v.getLsbD 63 && st == 0 then s.moveImage ctx src dst else s

/-- CMOVE_WRITE (R396): the move that an `ssr` starts for the context of its ring entry; with context 0 nothing moves (R422). -/
def execCmoveWrite (ctx : Nat) (v : Word) (s : State) : Outc := event (if ctx = 0 then s else s.writeCmove ctx v)

/-! ### The rule cache (R319, R320) -/

/-- A write of RCENT installs an entry for a context under the key in RCKEY, in place of one with that key; of 256 entries the
least recently used gives way. -/
def State.writeRcent (s : State) (ctx core : Nat) (v : Word) : State :=
  s.modCore core (fun c =>
    let lo := c.rckey.toNat / 65536 % 65536
    let hi := c.rckey.toNat % 65536
    let r : Rule :=
      { ctx := ctx, lo := lo, hi := hi, swap := v.getLsbD 63, entry := v.toNat / 8 % 2 ^ 54 * 8 }
    let rest := c.rules.filter (fun x => !(x.ctx == ctx && x.lo == lo && x.hi == hi))
    { c with
      rcent := BitVec.ofNat 64 (v.toNat / 2 ^ 63 * 2 ^ 63 + v.toNat / 8 % 2 ^ 54 * 8)
      rules := (if rest.length < 256 then rest else rest.drop 1) ++ [r] })

/-- RCENT_WRITE (R320). -/
def execRcentWrite (ctx core : Nat) (v : Word) (s : State) : Outc := event (s.writeRcent ctx core v)

/-! ### SPERR (R88) -/

/-- A write of SPERR: 1 in valid clears SPERR and SPERRA. -/
def State.writeSperr (s : State) (ctx core : Nat) (v : Word) : State :=
  if v.getLsbD 63 then s.modCc ctx core (fun c => { c with sperr := 0, sperra := 0 }) else s

/-- SPERR_CLEAR (R88). -/
def execSperrClear (ctx core : Nat) (v : Word) (s : State) : Outc := event (s.writeSperr ctx core v)

/-! ### Uncorrectable errors (R37, R387) -/

/-- The tag of the retirement's error record (R37). -/
def State.erecTag (s : State) : Nat := if s.ret.erec = 0 then 0xFFF else s.ret.erec

/-- Poisons a line of main memory, its bytes kept. -/
def State.poisonLine (s : State) (pa tag : Nat) : State :=
  { s with lineTags := Tab.set 0 s.lineTags (pa / 64) tag }

/-- A message with a poisoned word: payload words 0 to 7, and 8 the header, which the task that it starts finds in g9 (R387). -/
def poisonWord (m : Message) (i tag : Nat) : Message :=
  if i = 8 then { m with htag := tag }
  else { m with payload := m.payload.zipIdx.map (fun p => if p.2 = i then { p.1 with tag := tag } else p.1) }

/-- UNCORRECTABLE_ERROR (R387): the damaged item takes a new record's tag; an error in control state is consumption by the task,
or a machine error when no task owns it (R378). A line that the migration engines read lands under the retirement's record
(R37). -/
def execUncorrectableError (d : Damaged) (source : Nat) (s : State) : Outc :=
  event (match d with
    | .hbmLine pa =>
      if s.inMotion pa then (s.poisonLine pa s.erecTag).countPoison s.erecTag 1
      else
        let (tag, s) := s.errorRecord source (s.stackOf pa) (pa / 64 * 64) 1
        s.poisonLine pa tag
    | .spadLine core line =>
      let (tag, s) := s.errorRecord source core (0x10000000000 + core * 0x40000 + line * 64) 1
      s.modSpace (s.installedCtx core) core (fun sp => { sp with tags := Tab.set 0 sp.tags line tag })
    | .greg core slot n =>
      let (tag, s) := s.errorRecord source core 0 0
      s.modTask (core * 8 + slot) (fun t => t.setReg n { t.reg n with tag := tag })
    | .vreg core slot n =>
      let (tag, s) := s.errorRecord source core 0 0
      s.modTask (core * 8 + slot) (fun t =>
        { t with v := Tab.set { v := 0, tag := 0 } t.v n { Tab.get { v := 0, tag := 0 } t.v n with tag := tag } })
    | .tile core slot n =>
      let (tag, s) := s.errorRecord source core 0 0
      s.modTask (core * 8 + slot) (fun t =>
        { t with a := Tab.set { words := [], tag := 0 } t.a n { Tab.get { words := [], tag := 0 } t.a n with tag := tag } })
    | .control core slot =>
      let (tag, s) := s.errorRecord source core 0 0
      if (s.task (core * 8 + slot)).stoppable then s.poisonKill (core * 8 + slot) tag else s.machineError 7 core
    | .messageWord n i =>
      match s.pending[n]? with
      | some (.messageArrival m) =>
        let (tag, s) := s.errorRecord source m.src 0 0
        { s with pending := s.pending.set n (.messageArrival (poisonWord m i tag)) }
      | _ => s)

end Sys2Proof.Machine
end

