-- ==== Sys2Proof/Machine/HostQueues.lean ====
section
/-! DEFINITION. The front hive's host queues and their packets (R360 to R363, R376, R412). -/

namespace Sys2Proof.Machine

open Sys2Proof.Machine.Num

/-! ### Descriptors and packets -/

/-- A queue descriptor's fields (R360). -/
structure Desc where
  base : Nat
  en : Bool
  halted : Bool
  prio : Nat
  ctx : Nat
  lsz : Nat
  cons : Nat
  prod : Nat
  deriving DecidableEq, Repr

def State.desc (s : State) (q : Nat) : Desc :=
  let a := s.queueAt q
  let w1 := s.num (a + 8) 8
  { base := s.num a 8 / 64 % 2 ^ 42 * 64, en := w1 / 2 ^ 63 == 1, halted := w1 / 2 ^ 62 % 2 == 1
    prio := Nat.min 6 (w1 / 2 ^ 59 % 8), ctx := w1 / 2 ^ 44 % 4096, lsz := w1 / 2 ^ 40 % 16, cons := w1 % 2 ^ 32
    prod := s.num (a + 16) 4 }

/-- Whether the front hive may take a packet from a queue. -/
def Desc.ready (d : Desc) : Bool := d.en && !d.halted && d.cons != d.prod

/-- A word of the packet at a queue's head (R361, R362). -/
def State.packet (s : State) (d : Desc) (i : Nat) : Nat := s.num (d.base + d.cons % 2 ^ (d.lsz + 4) * 64 + i * 8) 8

/-- A packet's type. -/
def State.packetType (s : State) (d : Desc) : Nat := s.packet d 0 % 256

def State.hostQ (s : State) (q : Nat) : HostQ := Tab.get .idle s.queues q

/-- A queue's effective priority (R361). -/
def State.effective (s : State) (q : Nat) : Nat := Nat.min 6 ((s.desc q).prio + (s.hostQ q).level)

/-! ### What holds a packet back -/

/-- Whether the start stage lets the front hive act on a type (R412). -/
def State.stageAllows (s : State) (type : Nat) : Bool := s.stage == 4 || (s.stage == 2 || s.stage == 3) && type == 4

/-- The launches in flight of a queue, and of a context; a debug packet under way has region 32. -/
def State.queueFlights (s : State) (q : Nat) : Bool := s.flights.any (fun f => f.queue == q && f.region != 32)
def State.ctxFlights (s : State) (ctx : Nat) : Bool := s.flights.any (fun f => f.ctx == ctx && f.region != 32)

/-- Whether a DETLEVEL packet of a context has been taken and waits (R376). -/
def State.levelWaits (s : State) (ctx : Nat) : Bool :=
  s.queueList.any (fun q => (s.hostQ q).waiting && (s.desc q).ctx == ctx && s.packetType (s.desc q) == 3)

/-- Whether the packet at a queue's head can be taken now: a BARRIER or DETLEVEL that waits goes on only when its launches have
completed; launches of a context whose DETLEVEL waits are not taken. -/
def State.takeable (s : State) (q : Nat) : Bool :=
  let d := s.desc q
  let type := s.packetType d
  d.ready && s.stageAllows type
    && !((s.hostQ q).waiting && (if type = 2 then s.queueFlights q else type == 3 && s.ctxFlights d.ctx))
    && !(type == 1 && s.levelWaits d.ctx)

/-- Whether queue `a` is served before queue `b`: higher effective priority, then the next after the last served. -/
def State.queueBefore (s : State) (a b : Nat) : Bool :=
  let turn (q : Nat) : Nat := (q + 131072 - s.rrQueue - 1) % 131072
  decide (s.effective b < s.effective a) || (s.effective a == s.effective b && decide (turn a < turn b))

/-- The queue that the front hive serves next (R361). -/
def State.nextQueue (s : State) : Option Nat :=
  (s.queueList.filter s.takeable).foldl
    (fun (best : Option Nat) q => match best with
      | some b => if s.queueBefore q b then some q else some b
      | none => some q) none

/-! ### Queue errors (R363) -/

/-- The bits of w0 that a type defines (R362). -/
def packetBits (type : Nat) : Nat :=
  match type with
  | 1 => 0x1FFF1FFF
  | 3 => 0x3000000FF
  | 4 => 0x1FFF00FF
  | _ => 0xFF

/-- The lowest cause of a queue error that a head packet meets, if any. Cause 3 cannot arise: the field has 13 bits. -/
def State.packetCause (s : State) (d : Desc) : Option Nat :=
  let w0 := s.packet d 0
  let w1 := s.packet d 1
  let type := w0 % 256
  let region := w0 / 256 % 32
  if type = 0 ∨ 5 < type ∨ w0 &&& packetBits type ≠ w0 then some 1
  else if type = 1 ∧ region ≠ 0 ∧ s.regionUse.contains region then some 2
  else if type = 3 ∧ w0 / 2 ^ 32 % 4 = 3 then some 4
  else if w1 ≠ 0 ∧ (w1 % 8 ≠ 0 ∨ paKind w1 ≠ .host) then some 5
  else if !s.isInstalled d.ctx then some 6
  else none

/-! ### Acting on a packet (R362) -/

/-- A packet has been acted on: cons passes it, the queue's level is its prio again. -/
def State.passPacket (s : State) (q : Nat) : State :=
  let d := s.desc q
  let s := s.writeMem (s.queueAt q + 8) (bytesOf 4 ((d.cons + 1) % 2 ^ 32)) 0
  { s with queues := Tab.set .idle s.queues q { HostQ.idle with waitFrom := s.cyc }, rrQueue := q }

/-- A BARRIER or DETLEVEL is taken and waits at its queue's head: the queue's level is its prio again. -/
def State.holdPacket (s : State) (q : Nat) : State :=
  { s with queues := Tab.set .idle s.queues q { waiting := true, level := 0, waitFrom := s.cyc }, rrQueue := q }

/-- The payload words w3 to w7 of a packet. -/
def State.payload (s : State) (d : Desc) : List Word := (List.range 5).map (fun i => BitVec.ofNat 64 (s.packet d (3 + i)))

/-- The message of a LAUNCH (R362). -/
def State.launchMessage (s : State) (d : Desc) (region core id : Nat) : Message :=
  { hdr := mkHdr 0 false core 13 d.prio 5 region, src := frontHive, dst := core, ctx := d.ctx
    payload := (s.payload d).map (fun w => { v := w, tag := 0 }), svc := .task, entry := none, mark := none
    tid := none, deferred := false, flight := if region = 0 then some id else none }

/-- A LAUNCH: a message on tag 13; the launch is in flight until it completes. -/
def State.actLaunch (s : State) (q : Nat) : State :=
  let d := s.desc q
  let w0 := s.packet d 0
  let region := w0 / 256 % 32
  let (id, s) := s.fresh
  let f : Flight :=
    { id := id, queue := q, ctx := d.ctx, region := region, w1 := s.packet d 1, w2 := BitVec.ofNat 64 (s.packet d 2) }
  let m := s.launchMessage d region (w0 / 65536 % 8192) id
  let s := { s with flights := s.flights ++ [f], regionUse := if region = 0 then s.regionUse else region :: s.regionUse }
  (s.push (.messageArrival m)).passPacket q

/-- A DEBUG packet: w3 to w7 travel on tag 9; it completes when the message has been delivered. -/
def State.actDebug (s : State) (q : Nat) : State :=
  let d := s.desc q
  let core := s.packet d 0 / 65536 % 8192
  let (id, s) := s.fresh
  let f : Flight :=
    { id := id, queue := q, ctx := d.ctx, region := 32, w1 := s.packet d 1, w2 := BitVec.ofNat 64 (s.packet d 2) }
  let m : Message :=
    { svcMessage 9 core d.ctx (.debug d.ctx (s.payload d)) with src := frontHive, flight := some id }
  (({ s with flights := s.flights ++ [f] } : State).push (.messageArrival m)).passPacket q

/-- A packet that completes when it is acted on. -/
def State.actDone (s : State) (q : Nat) : State :=
  let d := s.desc q
  (s.complete (s.packet d 1) (BitVec.ofNat 64 (s.packet d 2))).passPacket q

/-- A packet of one of the five types, or of none: its error, else its action. -/
def State.actPacket (s : State) (q : Nat) : State :=
  let d := s.desc q
  match s.packetCause d, s.packetType d with
  | some c, _ => s.haltQueue q c
  | none, 1 => s.actLaunch q
  | none, 2 => if s.queueFlights q then s.holdPacket q else s.actDone q
  | none, 3 =>
    if s.ctxFlights d.ctx then s.holdPacket q
    else if s.levelOwes d.ctx ≠ [] then (s.askHost (s.levelOwes d.ctx)).holdPacket q
    else (s.setLevel d.ctx (s.packet d 0 / 2 ^ 32 % 4)).actDone q
  | none, 4 => s.actDebug q
  | none, _ => s.actDone q

/-- The event of a packet type; a type that R362 does not define is found by the taking of a launch. -/
def packetEvent (type q : Nat) : Event :=
  match type with
  | 2 => .barrier q
  | 3 => .detlevel q
  | 4 => .debug q
  | 5 => .signal q
  | _ => .launch q

/-- The event of the packet that the front hive takes next. -/
def State.hostEvent (s : State) : Option Event := s.nextQueue.map (fun q => packetEvent (s.packetType (s.desc q)) q)

/-- Takes a packet when it is the one that the front hive takes next. -/
def takePacket (e : Event) (q : Nat) (s : State) : Outc :=
  event (if s.hostEvent = some e then s.actPacket q else s)

/-- LAUNCH (R362). -/
def execLaunch (queue : Nat) (s : State) : Outc := takePacket (.launch queue) queue s
/-- BARRIER (R362). -/
def execBarrier (queue : Nat) (s : State) : Outc := takePacket (.barrier queue) queue s
/-- DETLEVEL (R376). -/
def execDetlevel (queue : Nat) (s : State) : Outc := takePacket (.detlevel queue) queue s
/-- DEBUG (R362). -/
def execDebug (queue : Nat) (s : State) : Outc := takePacket (.debug queue) queue s
/-- SIGNAL (R362). -/
def execSignal (queue : Nat) (s : State) : Outc := takePacket (.signal queue) queue s

/-- A doorbell: prod takes bits [31:0] of the value; the queue waits with a packet ready from the write that gives it one. -/
def State.doorbell (s : State) (queue : Nat) (v : Word) : State :=
  let waits := (s.desc queue).ready
  let s := s.writeMem (s.queueAt queue + 16) (bytesOf 4 (v.toNat % 2 ^ 32)) 0
  if waits then s
  else { s with queues := Tab.set .idle s.queues queue { s.hostQ queue with waitFrom := s.cyc } }

/-- DOORBELL_WRITE (R361): dropped while QTBASE.en = 0 (R360). -/
def execDoorbellWrite (queue : Nat) (v : Word) (s : State) : Outc :=
  event (if s.qtbase.getLsbD 0 then s.doorbell queue v else s)

/-- QUEUE_AGEING (R361): a queue gains one level, up to 6, for every AGE of its context that it has waited with a packet ready. -/
def execQueueAgeing (queue : Nat) (s : State) : Outc :=
  let h := s.hostQ queue
  let p := (s.ctx (s.desc queue).ctx).period
  let n := (s.cyc - h.waitFrom) / p
  let h' : HostQ := { h with level := Nat.min (6 - (s.desc queue).prio) (h.level + n), waitFrom := h.waitFrom + n * p }
  event (if s.qtbase.getLsbD 0 && (s.desc queue).ready && !h.waiting then
      { s with queues := Tab.set .idle s.queues queue h' }
    else s)

end Sys2Proof.Machine
end

