-- ==== Sys2Proof/Machine/Debugger.lean ====
section
/-! DEFINITION. The debug handler of a core (R402, R403). -/

namespace Sys2Proof.Machine

open Sys2Proof.Machine.Num

/-- Where the handler finds a task of the core: a slot, or a save area. -/
inductive Found where
  | slot (k : Nat)
  | area (handle : Nat)
  | foreign
  | absent
  deriving DecidableEq, Repr

/-- Whether a slot holds a task that an operation may act on: not one that is reserved, has failed or is being killed. -/
def TStat.isTask : TStat → Bool
  | .free | .reserved | .failed | .killing _ => false
  | _ => true

/-- Finds a task by identifier on a core, for the queue's context: context 0 may act on any (R402). -/
def State.findTask (s : State) (ctx core tid : Nat) : Found :=
  let ok (t : Task) : Bool := ctx == 0 || t.ctx == ctx
  let slots := (List.range 8).filter (fun i => (s.task (core * 8 + i)).stat.isTask && (s.task (core * 8 + i)).tid == tid)
  let areas := s.saved.filter (fun (p : Nat × Saved) => p.2.core == core && p.2.task.tid == tid)
  match slots.find? (fun i => ok (s.task (core * 8 + i))), areas.find? (fun (p : Nat × Saved) => ok p.2.task) with
  | some i, _ => .slot (core * 8 + i)
  | none, some (h, _) => .area h
  | none, none => if slots.isEmpty && areas.isEmpty then .absent else .foreign

/-- Changes a task in its slot or area. -/
def State.modFound (s : State) (x : Found) (f : Task → Task) : State :=
  match x with
  | .slot k => s.modTask k f
  | .area h =>
    let r := Tab.get .empty s.saved h
    { s with saved := Tab.set .empty s.saved h { r with task := f r.task } }
  | _ => s

def State.foundTask (s : State) : Found → Task
  | .slot k => s.task k
  | .area h => (Tab.get .empty s.saved h).task
  | _ => .idle

/-- Operand word `i` of a packet, w3 first. -/
def opWord (w : List Word) (i : Nat) : Nat := (w.getD i 0).toNat

/-- The task that an operation names in w4. -/
def opTask (w : List Word) : Nat := opWord w 1 % 2 ^ 48

/-- Runs an operation on the task that w4 names; one that is foreign or absent writes its status (R402). -/
def State.onTask (s : State) (ctx core : Nat) (w : List Word) (f : State → Found → State) : State :=
  match s.findTask ctx core (opTask w) with
  | .foreign => s.debugEvent ctx (opTask w) 0 1 0
  | .absent => s.debugEvent ctx (opTask w) 0 2 0
  | x => f s x

/-- The handler performs an operation for its message. -/
def debugOp (ctx core : Nat) (w : List Word) (again : Event) (f : State → State) (s : State) : Outc :=
  event (s.serve (.debug ctx w) 9 ctx core again (fun s c m => (f s).termDone c m))

/-- DEBUG_ATTACH (R402): breakpoints and `dbgb` are enabled for the context, with its event ring. -/
def execDebugAttach (ctx core : Nat) (w : List Word) (s : State) : Outc :=
  debugOp ctx core w (.debugAttach ctx core w)
    (fun s => s.modCtx ctx (fun c => { c with debugRing := some (opWord w 1), debugIndex := 0 })) s

/-- DEBUG_DETACH (R402): every breakpoint of the context on the core is cleared; the ring is no longer attached. -/
def execDebugDetach (ctx core : Nat) (w : List Word) (s : State) : Outc :=
  debugOp ctx core w (.debugDetach ctx core w)
    (fun s =>
      let clear (t : Task) : Task := if t.ctx = ctx then { t with bps := [] } else t
      let s := { s with
        tasks := s.tasks.map (fun (p : Nat × Task) => if p.1 / 8 = core then (p.1, clear p.2) else p)
        saved := s.saved.map (fun (p : Nat × Saved) =>
          if p.2.core = core then (p.1, { p.2 with task := clear p.2.task }) else p) }
      s.modCtx ctx (fun c => { c with debugRing := none })) s

/-- DEBUG_SET_BREAKPOINT (R402, R403): a task holds at most four; a fifth writes status 3. -/
def execDebugSetBreakpoint (ctx core : Nat) (w : List Word) (s : State) : Outc :=
  let pc := opWord w 2 % 2 ^ 57
  debugOp ctx core w (.debugSetBreakpoint ctx core w)
    (fun s => s.onTask ctx core w (fun s x =>
      let t := s.foundTask x
      if t.bps.contains pc then s
      else if 4 ≤ t.bps.length then s.debugEvent ctx t.tid t.pc 3 0
      else s.modFound x (fun t => { t with bps := t.bps ++ [pc] }))) s

/-- DEBUG_CLEAR_BREAKPOINT (R402). -/
def execDebugClearBreakpoint (ctx core : Nat) (w : List Word) (s : State) : Outc :=
  let pc := opWord w 2 % 2 ^ 57
  debugOp ctx core w (.debugClearBreakpoint ctx core w)
    (fun s => s.onTask ctx core w (fun s x => s.modFound x (fun t => { t with bps := t.bps.filter (· != pc) }))) s

/-- DEBUG_STOP (R402): the task stops at its next word boundary; one that the debugger has stopped stays so. -/
def execDebugStop (ctx core : Nat) (w : List Word) (s : State) : Outc :=
  debugOp ctx core w (.debugStop ctx core w)
    (fun s => s.onTask ctx core w (fun s x =>
      match x with
      | .area h => if (Tab.get .empty s.saved h).debug then s else s.modFound x (fun t => { t with stopAsked := true })
      | _ => s.modFound x (fun t => { t with stopAsked := true }))) s

/-- The save area of a task that the debugger has stopped. -/
def State.stoppedArea (s : State) (x : Found) : Option Nat :=
  match x with
  | .area h => if (Tab.get .empty s.saved h).debug then some h else none
  | _ => none

/-- DEBUG_COPY (R402): bytes of the save area of a stopped task go to the host; those beyond the area's end are left out. -/
def execDebugCopy (ctx core : Nat) (w : List Word) (s : State) : Outc :=
  debugOp ctx core w (.debugCopy ctx core w)
    (fun s => s.onTask ctx core w (fun s x =>
      match s.stoppedArea x with
      | none => s.debugEvent ctx (opTask w) 0 2 0
      | some h =>
        let off := Nat.min (opWord w 2) 0x20000
        s.writeMem (opWord w 4) (s.bytes (h + off) (Nat.min (opWord w 3) (0x20000 - off))) 0)) s

/-- DEBUG_RELEASE (R402, R403): a stopped task goes on, and issues its word without stopping at it again. -/
def execDebugRelease (ctx core : Nat) (w : List Word) (s : State) : Outc :=
  debugOp ctx core w (.debugRelease ctx core w)
    (fun s => s.onTask ctx core w (fun s x =>
      match s.stoppedArea x with
      | none => s.debugEvent ctx (opTask w) 0 2 0
      | some h =>
        let r := Tab.get .empty s.saved h
        ({ s with saved := Tab.set .empty s.saved h { r with pending := true, debug := false } } : State).fill core)) s

end Sys2Proof.Machine
end

