-- ==== Sys2Proof/Machine/Scalar.lean ====
section
/-! DEFINITION. Integer words, constants and fat-pointer words (R163 to R168). -/

namespace Sys2Proof.Machine

open Sys2Proof.Machine.Num

/-- What a word answers. -/
abbrev Run := Host.Outcome State Fault Refusal

/-- An integer word of two sources (R163): `f` forms w bits from the operands' bits; the result is extended, carries the
lowest tag, and has latency `lat` (R160). -/
def int2 (x : R3) (lat : Nat) (f : Nat → Nat → Nat → Nat) (s : State) : Run :=
  plain (do
    let a ← readO x.a
    let b ← readO x.b
    writeO x.d { v := extend x.t (f x.t.width a.v.toNat b.v.toNat), tag := minTag a.tag b.tag } lat) s

/-- An integer word of one source. -/
def int1 (x : R2) (f : Nat → Nat → Nat) (s : State) : Run :=
  plain (do
    let a ← readO x.a
    writeO x.d { v := extend x.t (f x.t.width a.v.toNat), tag := a.tag } 1) s

/-- A comparison of two sources: 1 or 0. -/
def intCmp (x : R3) (f : Nat → Nat → Nat → Bool) (s : State) : Run :=
  plain (do
    let a ← readO x.a
    let b ← readO x.b
    writeO x.d
      { v := if f x.t.width a.v.toNat b.v.toNat then 1 else 0, tag := minTag a.tag b.tag } 1) s

/-- An RI word (R166): y is the low w bits of the sign-extended IMM32. -/
def intImm (x : RI) (f : Nat → Nat → Nat → Nat) (s : State) : Run :=
  plain (do
    let a ← readO x.a
    writeO x.d
      { v := extend x.t (f x.t.width a.v.toNat (ofInt 64 x.imm.toInt)), tag := a.tag } 1) s

/-! What each operation forms in w bits. -/

def opAdd (w x y : Nat) : Nat := low w (x + y)
def opSub (w x y : Nat) : Nat := ofInt w (toInt w x - toInt w y)
def opMul (w x y : Nat) : Nat := low w (x * y)
def opMulh (w x y : Nat) : Nat := ofInt w (toInt w x * toInt w y / ((2 ^ w : Nat) : Int))
def opMulhn (w x y : Nat) : Nat := low w x * low w y / 2 ^ w
def opAnd (w x y : Nat) : Nat := low w (x &&& y)
def opOr (w x y : Nat) : Nat := low w (x ||| y)
def opXor (w x y : Nat) : Nat := low w (x ^^^ y)
def opAndn (w x y : Nat) : Nat := low w x &&& (2 ^ w - 1 - low w y)
def opOrn (w x y : Nat) : Nat := low w x ||| (2 ^ w - 1 - low w y)
/-- The shift count is y mod w. -/
def opShl (w x y : Nat) : Nat := low w (x * 2 ^ (y % w))
def opShr (w x y : Nat) : Nat := low w x / 2 ^ (y % w)
def opSra (w x y : Nat) : Nat := sra w x (y % w)
def opRol (w x y : Nat) : Nat := rol w x (y % w)
def opRor (w x y : Nat) : Nat := rol w x ((w - y % w) % w)
def opMin (w x y : Nat) : Nat := if toInt w x ≤ toInt w y then low w x else low w y
def opMax (w x y : Nat) : Nat := if toInt w x ≤ toInt w y then low w y else low w x
def opMinn (w x y : Nat) : Nat := Nat.min (low w x) (low w y)
def opMaxn (w x y : Nat) : Nat := Nat.max (low w x) (low w y)
/-- The minimum of the type gives itself. -/
def opAbs (w x : Nat) : Nat := low w (toInt w x).natAbs

def cmpEq (w x y : Nat) : Bool := low w x == low w y
def cmpNe (w x y : Nat) : Bool := low w x != low w y
def cmpLt (w x y : Nat) : Bool := decide (toInt w x < toInt w y)
def cmpLe (w x y : Nat) : Bool := decide (toInt w x ≤ toInt w y)
def cmpLtn (w x y : Nat) : Bool := decide (low w x < low w y)
def cmpLen (w x y : Nat) : Bool := decide (low w x ≤ low w y)

/-- `add` (R163). -/
def execAdd (x : R3) (s : State) : Run := int2 x 1 opAdd s

/-- `sub` (R163). -/
def execSub (x : R3) (s : State) : Run := int2 x 1 opSub s

/-- `mul` (R163). -/
def execMul (x : R3) (s : State) : Run := int2 x 2 opMul s

/-- `mulh` (R163). -/
def execMulh (x : R3) (s : State) : Run := int2 x 2 opMulh s

/-- `mulhn` (R163). -/
def execMulhn (x : R3) (s : State) : Run := int2 x 2 opMulhn s

/-- `div` (R163, R164). -/
def execDiv (x : R3) (s : State) : Run := int2 x 12 sdiv s

/-- `divn` (R163, R164). -/
def execDivn (x : R3) (s : State) : Run := int2 x 12 udiv s

/-- `rem` (R163, R164). -/
def execRem (x : R3) (s : State) : Run := int2 x 12 srem s

/-- `remn` (R163, R164). -/
def execRemn (x : R3) (s : State) : Run := int2 x 12 urem s

/-- `and` (R163). -/
def execAnd (x : R3) (s : State) : Run := int2 x 1 opAnd s

/-- `or` (R163). -/
def execOr (x : R3) (s : State) : Run := int2 x 1 opOr s

/-- `xor` (R163). -/
def execXor (x : R3) (s : State) : Run := int2 x 1 opXor s

/-- `andn` (R163). -/
def execAndn (x : R3) (s : State) : Run := int2 x 1 opAndn s

/-- `orn` (R163). -/
def execOrn (x : R3) (s : State) : Run := int2 x 1 opOrn s

/-- `shl` (R163). -/
def execShl (x : R3) (s : State) : Run := int2 x 1 opShl s

/-- `shr` (R163). -/
def execShr (x : R3) (s : State) : Run := int2 x 1 opShr s

/-- `sra` (R163). -/
def execSra (x : R3) (s : State) : Run := int2 x 1 opSra s

/-- `rol` (R163). -/
def execRol (x : R3) (s : State) : Run := int2 x 1 opRol s

/-- `ror` (R163). -/
def execRor (x : R3) (s : State) : Run := int2 x 1 opRor s

/-- `min` (R163). -/
def execMin (x : R3) (s : State) : Run := int2 x 1 opMin s

/-- `max` (R163). -/
def execMax (x : R3) (s : State) : Run := int2 x 1 opMax s

/-- `minn` (R163). -/
def execMinn (x : R3) (s : State) : Run := int2 x 1 opMinn s

/-- `maxn` (R163). -/
def execMaxn (x : R3) (s : State) : Run := int2 x 1 opMaxn s

/-- `abs` (R163). -/
def execAbs (x : R2) (s : State) : Run := int1 x opAbs s

/-- `clz` (R163). -/
def execClz (x : R2) (s : State) : Run := int1 x clz s

/-- `ctz` (R163). -/
def execCtz (x : R2) (s : State) : Run := int1 x ctz s

/-- `popc` (R163). -/
def execPopc (x : R2) (s : State) : Run := int1 x popc s

/-- `sext` (R163). -/
def execSext (x : R2) (s : State) : Run := int1 x low s

/-- `zext` (R163). -/
def execZext (x : R2) (s : State) : Run := int1 x low s

/-- `seq` (R163). -/
def execSeq (x : R3) (s : State) : Run := intCmp x cmpEq s

/-- `sne` (R163). -/
def execSne (x : R3) (s : State) : Run := intCmp x cmpNe s

/-- `slt` (R163). -/
def execSlt (x : R3) (s : State) : Run := intCmp x cmpLt s

/-- `sle` (R163). -/
def execSle (x : R3) (s : State) : Run := intCmp x cmpLe s

/-- `sltn` (R163). -/
def execSltn (x : R3) (s : State) : Run := intCmp x cmpLtn s

/-- `slen` (R163). -/
def execSlen (x : R3) (s : State) : Run := intCmp x cmpLen s

/-- `addi` (R166). -/
def execAddi (x : RI) (s : State) : Run := intImm x opAdd s

/-- `andi` (R166). -/
def execAndi (x : RI) (s : State) : Run := intImm x opAnd s

/-- `ori` (R166). -/
def execOri (x : RI) (s : State) : Run := intImm x opOr s

/-- `xori` (R166). -/
def execXori (x : RI) (s : State) : Run := intImm x opXor s

/-- `shli` (R166). -/
def execShli (x : RI) (s : State) : Run := intImm x opShl s

/-- `shri` (R166). -/
def execShri (x : RI) (s : State) : Run := intImm x opShr s

/-- `srai` (R166). -/
def execSrai (x : RI) (s : State) : Run := intImm x opSra s

/-- `slti` (R166). -/
def execSlti (x : RI) (s : State) : Run := intImm x (fun w a b => if cmpLt w a b then 1 else 0) s

/-- `sltni` (R166). -/
def execSltni (x : RI) (s : State) : Run := intImm x (fun w a b => if cmpLtn w a b then 1 else 0) s

/-- `sel` (R163): D = A if C ≠ 0 in all 64 bits, else B. The result takes the lowest tag of its operands (R121). -/
def execSel (d a b c : Opnd) (s : State) : Run :=
  plain (do
    let x ← readO a
    let y ← readO b
    let z ← readO c
    writeO d { v := if z.v ≠ 0 then x.v else y.v, tag := minTag x.tag (minTag y.tag z.tag) } 1) s

/-- `bext` (R165): the control word in B is read in all 64 bits. -/
def execBext (x : R3) (s : State) : Run :=
  plain (do
    let a ← readO x.a
    let b ← readO x.b
    writeO x.d
      { v := extend x.t (bext x.t a.v.toNat b.v.toNat), tag := minTag a.tag b.tag } 1) s

/-- `bins` (R165): base A, value B, control word C. -/
def execBins (x : R4) (s : State) : Run :=
  plain (do
    let a ← readO x.a
    let b ← readO x.b
    let c ← readO x.c
    writeO x.d
      { v := extend x.t (bins x.t.width a.v.toNat b.v.toNat c.v.toNat)
        tag := minTag a.tag (minTag b.tag c.tag) } 1) s

/-- `li` (R167). -/
def execLi (d : Opnd) (imm : BitVec 32) (s : State) : Run :=
  plain (writeO d { v := imm.signExtend 64, tag := 0 } 1) s

/-- `lih` (R167): IMM32 << 32 | A[31:0]. -/
def execLih (d a : Opnd) (imm : BitVec 32) (s : State) : Run :=
  plain (do
    let x ← readO a
    writeO d { v := imm ++ x.v.truncate 32, tag := x.tag } 1) s

/-- `padd` (R168): a carry or borrow out of bit 56 raises the pointer fault. -/
def execPadd (d a b : Opnd) (s : State) : Run :=
  plain (do
    let x ← readO a
    let y ← readO b
    let t : Int := (vaOf x.v : Int) + y.v.toInt
    if t < 0 ∨ ((2 ^ 57 : Nat) : Int) ≤ t then trap fPointer
    writeO d
      { v := BitVec.ofNat 64 (x.v.toNat / 2 ^ 57 * 2 ^ 57 + t.toNat), tag := minTag x.tag y.tag } 1) s

/-- `pfmt` (R168): B[6:0] << 57 | A[56:0]. -/
def execPfmt (d a b : Opnd) (s : State) : Run :=
  plain (do
    let x ← readO a
    let y ← readO b
    writeO d
      { v := BitVec.ofNat 64 (y.v.toNat % 128 * 2 ^ 57 + vaOf x.v), tag := minTag x.tag y.tag } 1) s

/-- `pget` (R168): A[63:57]. -/
def execPget (d a : Opnd) (s : State) : Run :=
  plain (do
    let x ← readO a
    writeO d { v := x.v >>> 57, tag := x.tag } 1) s

/-- `pstrip` (R168): A[56:0]. -/
def execPstrip (d a : Opnd) (s : State) : Run :=
  plain (do
    let x ← readO a
    writeO d { v := BitVec.ofNat 64 (vaOf x.v), tag := x.tag } 1) s

end Sys2Proof.Machine
end

