-- ==== Sys2Proof/Machine/Float.lean ====
section
/-! DEFINITION. Scalar float words (R169 to R171). -/

namespace Sys2Proof.Machine

open Sys2Proof.Machine.Num

/-- The FP32 value in bits [31:0] of an operand (R113). -/
def f32Of (w : Word) : FV := f32.decode (w.toNat % 2 ^ 32)

/-- A scalar float word of two sources: the exact value, rounded once, and its flags (R127). -/
def float2 (d a b : Opnd) (f : FV → FV → FV × Nat) (s : State) : Run :=
  plain (do
    let x ← readO a
    let y ← readO b
    let (v, n) := f (f32Of x.v) (f32Of y.v)
    let (bits, fl) := f32.round .rne false v
    flags (n ||| fl) 4
    writeO d { v := BitVec.ofNat 64 bits, tag := minTag x.tag y.tag } 4) s

/-- A float word that forms bits and no flag. -/
def floatBits (d a b : Opnd) (f : Nat → Nat → Nat) (s : State) : Run :=
  plain (do
    let x ← readO a
    let y ← readO b
    writeO d
      { v := BitVec.ofNat 64 (f (x.v.toNat % 2 ^ 32) (y.v.toNat % 2 ^ 32)), tag := minTag x.tag y.tag } 1) s

/-- `fadd` (R169). -/
def execFadd (d a b : Opnd) (s : State) : Run := float2 d a b (fun x y => x.add .rne y) s

/-- `fsub` (R169, R129): the second operand negated. -/
def execFsub (d a b : Opnd) (s : State) : Run := float2 d a b (fun x y => x.add .rne y.neg) s

/-- `fmul` (R169). -/
def execFmul (d a b : Opnd) (s : State) : Run := float2 d a b (fun x y => x.mul y) s

/-- `fmin` (R126, R169). -/
def execFmin (d a b : Opnd) (s : State) : Run := floatBits d a b f32.min s

/-- `fmax` (R126, R169). -/
def execFmax (d a b : Opnd) (s : State) : Run := floatBits d a b f32.max s

/-- A with B's sign; a NaN A is made canonical (R169). -/
def signOf (a b : Nat) : Nat :=
  if (f32.decode a).isNan then f32.nanBits else a % 2 ^ 31 + b / 2 ^ 31 * 2 ^ 31

/-- `fsgn` (R169). -/
def execFsgn (d a b : Opnd) (s : State) : Run := floatBits d a b signOf s

/-- `ffma` (R169): rounded once in the mode of FN[1:0]. -/
def execFfma (d a b c : Opnd) (mode : RMode) (s : State) : Run :=
  plain (do
    let x ← readO a
    let y ← readO b
    let z ← readO c
    let (v, n) := (f32Of x.v).fma mode (f32Of y.v) (f32Of z.v)
    let (bits, fl) := f32.round mode false v
    flags (n ||| fl) 4
    writeO d { v := BitVec.ofNat 64 bits, tag := minTag x.tag (minTag y.tag z.tag) } 4) s

/-- `feq` (R169). -/
def execFeq (d a b : Opnd) (s : State) : Run :=
  floatBits d a b (fun x y => if (f32.decode x).eq (f32.decode y) then 1 else 0) s

/-- `flt` (R169). -/
def execFlt (d a b : Opnd) (s : State) : Run :=
  floatBits d a b (fun x y => if (f32.decode x).lt (f32.decode y) then 1 else 0) s

/-- `fle` (R169). -/
def execFle (d a b : Opnd) (s : State) : Run :=
  floatBits d a b (fun x y =>
    if (f32.decode x).lt (f32.decode y) || (f32.decode x).eq (f32.decode y) then 1 else 0) s

/-- What `fcvt` forms (R170): the result in all 64 bits, and flags. -/
def fcvtValue (t : Ty) (toF32 sat : Bool) (mode : RMode) (a : Word) : Word × Nat :=
  if toF32 then
    let (bits, fl) := convert t .f32 mode false (a.toNat % 2 ^ t.width)
    (BitVec.ofNat 64 bits, fl)
  else
    let (bits, fl) := convert .f32 t mode sat (a.toNat % 2 ^ 32)
    (if t.isFloat then BitVec.ofNat 64 bits else extend t bits, fl)

/-- `fcvt` (R170). -/
def execFcvt (d a : Opnd) (t : Ty) (toF32 sat : Bool) (mode : RMode) (s : State) : Run :=
  plain (do
    let x ← readO a
    let (v, fl) := fcvtValue t toF32 sat mode x.v
    flags fl 4
    writeO d { v := v, tag := x.tag } 4) s

/-- The one-hot class of FP32 bits (R171). -/
def classOf (x : Nat) : Nat :=
  match f32.decode x with
  | .nan => 2 ^ 8
  | .inf true => 2 ^ 0
  | .inf false => 2 ^ 7
  | .fin neg m _ =>
    if m = 0 then (if neg then 2 ^ 3 else 2 ^ 4)
    else if m < 2 ^ 23 then (if neg then 2 ^ 2 else 2 ^ 5)
    else (if neg then 2 ^ 1 else 2 ^ 6)

/-- `fcls` (R171). -/
def execFcls (d a : Opnd) (s : State) : Run :=
  plain (do
    let x ← readO a
    writeO d { v := BitVec.ofNat 64 (classOf (x.v.toNat % 2 ^ 32)), tag := x.tag } 1) s

end Sys2Proof.Machine
end

