-- ==== Sys2Proof/Machine/Retirement.lean ====
section
/-! DEFINITION. Stack retirement and the requests between map phases (R24 to R44). -/

namespace Sys2Proof.Machine

open Sys2Proof.Machine.Num

/-! ### The map and its copies (R36, R41) -/

/-- The map copies: the hives' 0 to 511, the host-link interface's 512, the base dies' 513 to 528. -/
def mapCopyCount : Nat := 529

def State.mapCopy (s : State) (i : Nat) : MapCopy := Tab.get .none s.mapCopies i

/-- The strip in motion, none while the engines move nothing. -/
def State.cursor (s : State) : Option (Nat × Nat) := if s.ret.active then some (s.ret.frame, s.ret.strip) else none

/-- A new value of the map is broadcast. -/
def State.broadcast (s : State) : State := { s with mapVersion := s.mapVersion + 1 }

/-- Whether every copy has taken the newest broadcast. -/
def State.mapTaken (s : State) : Bool :=
  (List.range mapCopyCount).all (fun i => (s.mapCopy i).version == s.mapVersion)

/-- Whether a strip lies above a cursor in the descending order. -/
def aboveCursor (c : Option (Nat × Nat)) (frame strip : Nat) : Bool :=
  match c with
  | some (f, k) => decide (f * 512 + k < frame * 512 + strip)
  | none => false

/-! ### Triggers (R33, R34, R40) -/

/-- A retirement event reaches the front hive's supervisor and the mailbox (R34, R411). -/
def State.retireNotice (s : State) (code : Nat) : State :=
  (s.interrupt code 0 0 []).mail [BitVec.ofNat 64 code, BitVec.ofNat 64 s.ret.stack]

/-- No retirement remains (R40): refused is set, and a lost stack is a machine error. -/
def State.refuse (s : State) (stack : Nat) : State :=
  let s := { s with ret := { s.ret with refused := true } }
  if (s.stack stack).lost.isSome then s.machineError 3 stack else s

/-- A retirement is announced (R34). -/
def State.announceRetire (s : State) (stack : Nat) : State :=
  let (tag, s) := s.errorRecord 5 stack 0 0
  let clear (m : Nat) : Nat := if m.testBit stack then m - 2 ^ stack else m
  ({ s with ret :=
    { s.ret with rstate := 1, stack := stack, erec := if tag = 0xFFF then 0 else tag
                 pend := clear s.ret.pend, lostPend := clear s.ret.lostPend } } : State).retireNotice 33

/-- A retirement trigger (R33). -/
def State.trigger (s : State) (stack : Nat) : State :=
  let n := s.sset.length
  let lost := (s.stack stack).lost.isSome
  if !s.sset.contains stack then s
  else if s.ret.rstate = 0 then
    if 8 < n then s.announceRetire stack else s.refuse stack
  else if 8 < n - 1 then
    if stack = s.ret.stack then s
    else
      { s with ret :=
        { s.ret with pend := s.ret.pend ||| 2 ^ stack
                     lostPend := if lost then s.ret.lostPend ||| 2 ^ stack else s.ret.lostPend } }
  else if stack = s.ret.stack then { s with ret := { s.ret with refused := true } }
  else s.refuse stack

/-- A stack's controller counts corrected errors (R33): the count that passes the threshold raises a trigger, once in a window. -/
def State.countCorrected (s : State) (stack n : Nat) : State :=
  let x := s.stack stack
  let s := s.modStack stack (fun x => { x with corrected := x.corrected + n })
  if x.corrected ≤ x.thr ∧ x.thr < x.corrected + n then s.trigger stack else s

/-- ERROR_WINDOW_EXPIRY (R33): the errors that the controller met in the window besides those of the requests shown here are counted
and judged, and the count starts anew. -/
def execErrorWindowExpiry (stack count : Nat) (s : State) : Outc :=
  event ((s.countCorrected stack count).modStack stack (fun x => { x with corrected := 0 }))

/-- MGMT_SET_THRESHOLD (R33): a count that the new threshold leaves above it raises a trigger, unless it has passed the old one. -/
def execMgmtSetThreshold (stack n : Nat) (s : State) : Outc :=
  let x := s.stack stack
  let s := s.modStack stack (fun x => { x with thr := n })
  event (if x.corrected ≤ x.thr ∧ n < x.corrected then s.trigger stack else s)

/-- MGMT_RETIREMENT_TRIGGER (R33). -/
def execMgmtRetirementTrigger (stack : Nat) (s : State) : Outc := event (s.trigger stack)

/-- MGMT_WITHDRAW_TRIGGER (R34): only state 1 can be withdrawn. -/
def execMgmtWithdrawTrigger (s : State) : Outc :=
  event (if s.ret.rstate = 1 then ({ s with ret := { s.ret with rstate := 0 } } : State).retireNotice 34 else s)

/-- Whether an acknowledgement of the announced retirement breaks a duty: a context's heap holds a frame at or above MCAPNEXT (R66), or
the host's window reaches above it (R405). -/
def State.ackBreaks (s : State) : Bool :=
  s.ret.rstate == 1 &&
    (s.ctxs.any (fun p => p.2.frames.any (fun f => decide (s.mcapNext ≤ f)))
      || (s.hostwin.getLsbD 63 && decide (s.mcapNext < s.hostwin.toNat % 1024 + s.hostwin.toNat / 2 ^ 16 % 1024)))

/-- The acknowledgement of an announced retirement (R34): the cursor stands at the last strip below MCAPNEXT. -/
def State.ackRetire (s : State) : State :=
  if s.ret.rstate ≠ 1 then s
  else
    ({ s with ret := { s.ret with rstate := 2, active := true, frame := s.mcapNext - 1, strip := 511 } } : State).broadcast

/-- MRETIRE_ACK (R29, R34); one that breaks R66 or R405 is the context fault of R17, which names the register. -/
def execMretireAck (s : State) : Outc :=
  event (if s.ackBreaks then s.deviceFault 0 0 69 0 [0x104] else s.ackRetire)

/-- A write of MRETIRE (R29). -/
def State.writeMretire (s : State) (v : Word) : State :=
  let share := v.toNat / 2 ^ 32 % 256
  let s := { s with ret :=
    { s.ret with share := if share < 5 then 5 else if 50 < share then 50 else share
                 refused := s.ret.refused && !v.getLsbD 15 } }
  if v.getLsbD 14 then s.ackRetire else s

/-! ### Moving strips (R36, R37) -/

/-- The lines of the strip in motion that the engines read from a lost stack land as poison of the retirement's record. -/
def State.stripPoison (s : State) : State :=
  if s.hbm.all (fun p => p.2.lost.isNone) then s
  else
    let base := (s.ret.frame * 512 + s.ret.strip) * 2 ^ 21
    (List.range 4096).foldl
      (fun s g =>
        let pa := base + g * 512
        if (s.stack (placeOn s.sset pa)).lost.isNone then s
        else
          ((List.range 8).foldl (fun s i => s.poisonLine (pa + i * 64) s.erecTag) s).countPoison s.erecTag 8) s

/-- STRIP_MOVE_COMPLETE (R36): the cursor steps to the next lower strip, and its value is broadcast; after strip 0 of frame 0 the
retirement commits. No rule steps the cursor there: it stays active at strip 0 of frame 0, requests to which are held as in motion,
until the broadcast of the commit (DEDUCED, log 123). -/
def execStripMoveComplete (s : State) : Outc :=
  event (if s.ret.rstate ≠ 2 then s
    else
      let s := s.stripPoison
      let r := s.ret
      ({ s with ret :=
        if 0 < r.strip then { r with strip := r.strip - 1 }
        else if 0 < r.frame then { r with frame := r.frame - 1, strip := 511 }
        else { r with rstate := 3 } } : State).broadcast)

/-! ### The commit of a retirement (R38) -/

/-- The recorded trigger that is served next (R33): a lost stack's first, then the lowest. -/
def Retire.nextPend (r : Retire) : Option Nat :=
  match (List.range 16).find? (fun i => r.lostPend.testBit i && r.pend.testBit i) with
  | some i => some i
  | none => (List.range 16).find? (fun i => r.pend.testBit i)

/-- MRPEND is examined at a commit (R33). -/
def State.examinePend (s : State) : State :=
  match s.ret.nextPend with
  | none => s
  | some st =>
    if 8 < s.sset.length then s.announceRetire st
    else
      let waiting := (List.range 16).filter (fun i => s.ret.pend.testBit i)
      waiting.foldl (fun s i => s.refuse i) { s with ret := { s.ret with pend := 0, lostPend := 0 } }

/-- RETIREMENT_COMMIT (R38): once every map copy has taken the new map, the stack leaves SSET and the phase steps. -/
def execRetirementCommit (s : State) : Outc :=
  event (if s.ret.rstate ≠ 3 ∨ !s.mapTaken then s
    else
      let st := s.ret.stack
      let s := { s with
        sset := s.sset.filter (· != st)
        ret := { s.ret with rstate := 0, active := false, phase := (s.ret.phase + 1) % 65536 } }
      let s := s.modStack st (fun x => { x with replaying := true, lost := none })
      (s.broadcast.retireNotice 34).examinePend)

/-! ### Requests (R41 to R43) -/

/-- The stamp that a map copy gives a line: phase and map bit. -/
def MapCopy.stamp (c : MapCopy) (r : HbmReq) : Nat × Bool := (c.phase, aboveCursor c.cursor r.frame r.strip)

/-- A request with the stamp and the route that its requester's map copy gives it now. -/
def State.restamp (s : State) (r : HbmReq) : HbmReq :=
  let (phase, bit) := (s.mapCopy r.requester).stamp r
  { r with
    phase := phase, mapBit := bit
    stack := placeOn (if bit then s.sset.filter (· != s.ret.stack) else s.sset) (r.line * 64) }

/-- A request is no longer outstanding. -/
def State.served (s : State) (r : HbmReq) : State := { s with outstanding := s.outstanding.filter (fun x => x.id != r.id) }

/-- A request leaves its requester: it takes the stamp and the route that the requester's map copy gives, or those of another of its
requests outstanding to the same line (R41); then it is on its way. -/
def State.sendRequest (s : State) (r : HbmReq) : State :=
  let r := match s.outstanding.find? (fun x => x.requester == r.requester && x.line == r.line) with
    | some x => { r with phase := x.phase, mapBit := x.mapBit, stack := x.stack }
    | none => s.restamp r
  ({ s with outstanding := s.outstanding ++ [r] } : State).push (.hbmRequestArrival r)

/-- The decision on a request that arrives at a stack's controller (R42): the first row that matches decides. Serving it, the
controller may meet corrected errors (R33). -/
def State.requestArrives (s : State) (r : HbmReq) : State :=
  let x := s.stack r.stack
  let ctl := s.mapCopy (513 + r.stack)
  if x.lost.isSome then s.served r
  else if x.replaying || ctl.phase != r.phase then s.push (.replayIndication r)
  else if ctl.cursor = some (r.frame, r.strip) then
    if x.held.length < 256 then s.modStack r.stack (fun x => { x with held := x.held ++ [r] })
    else s.push (.replayIndication r)
  else if !r.mapBit && aboveCursor ctl.cursor r.frame r.strip then s.push (.replayIndication r)
  else (s.served r).countCorrected r.stack (Config.correctedErrors s.tick)

/-- HBM_REQUEST_ARRIVAL (R42): a request that is outstanding arrives; another is sent first, and arrives with the stamp of its sending
(R41; DEDUCED, log 122). -/
def execHbmRequestArrival (r : HbmReq) (s : State) : Outc :=
  event (match s.outstanding.find? (fun x => x.id == r.id) with
    | some r => s.requestArrives r
    | none => s.sendRequest r)

/-- Whether an event concerns one of these requests. -/
def ofRequests (ids : List Nat) : Event → Bool
  | .hbmRequestArrival r => ids.contains r.id
  | .replayIndication r => ids.contains r.id
  | _ => false

/-- REPLAY_INDICATION (R43): once the requester's copy gives another route, the request and every later one to its line are
issued again, in order; until then the indication waits. -/
def execReplayIndication (r : HbmReq) (s : State) : Outc :=
  event (if !s.outstanding.any (fun x => x.id == r.id) then s
    else if (s.mapCopy r.requester).stamp r = (r.phase, r.mapBit) then s.push (.replayIndication r)
    else
      let mine (x : HbmReq) : Bool := x.requester == r.requester && x.line == r.line && decide (r.id ≤ x.id)
      let again := (s.outstanding.filter mine).map s.restamp
      let ids := again.map (·.id)
      let s := { s with
        outstanding := s.outstanding.map (fun x => if mine x then s.restamp x else x)
        pending := s.pending.filter (fun e => !ofRequests ids e)
        hbm := s.hbm.map (fun (p : Nat × Stack) =>
          (p.1, { p.2 with held := p.2.held.filter (fun x => !ids.contains x.id) })) }
      again.foldl (fun s x => s.push (.hbmRequestArrival x)) s)

/-- MAP_BROADCAST_RECEIVED (R36): a copy takes the newest map; a controller answers the requests whose strip has moved with
replay indications (R42). -/
def execMapBroadcastReceived (requester : Nat) (s : State) : Outc :=
  let copy : MapCopy := { version := s.mapVersion, phase := s.ret.phase, cursor := s.cursor }
  let s := { s with mapCopies := Tab.set .none s.mapCopies requester copy }
  let stays (r : HbmReq) : Bool := copy.cursor == some (r.frame, r.strip)
  event (if requester < 513 then s
    else
      let st := requester - 513
      let held := (s.stack st).held
      let s := s.modStack st (fun x => { x with held := held.filter stays })
      (held.filter (fun r => !stays r)).foldl (fun s r => s.push (.replayIndication r)) s)

/-- RETIRED_STACK_POWER_DOWN (R38): once every map copy has confirmed the commit. -/
def execRetiredStackPowerDown (stack : Nat) (s : State) : Outc :=
  event (if (s.stack stack).replaying && (List.range mapCopyCount).all (fun i => (s.mapCopy i).phase == s.ret.phase) then
      s.modStack stack (fun x => { x with replaying := false, powered := false })
    else s)

/-- Whether no retirement remains for a stack that is lost now: the device has 8 stacks, or is retiring another down to 8 (R40). -/
def State.noRetirement (s : State) (stack : Nat) : Bool :=
  if s.ret.rstate = 0 then decide (s.sset.length ≤ 8) else s.ret.stack != stack && decide (s.sset.length ≤ 9)

/-- STACK_LOST (R39): a stack that stops answering; what it is asked for returns poison of a stack-loss record, and a machine
error is reported. One that cannot be retired sets refused, and a machine error says that no retirement remains (R40). -/
def execStackLost (stack : Nat) (s : State) : Outc :=
  event (if !s.sset.contains stack || (s.stack stack).lost.isSome then s
    else
      let (tag, s) := s.errorRecord 6 stack 0 0
      let s := (s.modStack stack (fun x => { x with lost := some tag })).machineError 2 stack
      if s.noRetirement stack then s.refuse stack else s)

end Sys2Proof.Machine
end

