-- ==== Sys2Proof/Machine/Platform.lean ====
section
/-! DEFINITION. Start-up, resets and the management port (R46, R47, R410 to R413), links, the host window and peers (R405 to R409),
power (R414 to R417). -/

namespace Sys2Proof.Machine

open Sys2Proof.Machine.Num

/-! ### Stages (R412) -/

/-- Whether every stack's training has ended, or its mark keeps it out (R47). -/
def State.stacksDecided (s : State) : Bool :=
  (List.range 16).all (fun i => (s.stack i).trained || (s.stack i).failed || (s.stack i).marked)

/-- A die with more than two failed columns (R413). -/
def State.columnsBad (s : State) : Bool := s.failedCols.any (fun p => decide (2 < p.2.length))

/-- Whether the stage after the present one is reached. -/
def State.nextStage (s : State) : Bool :=
  match s.stage with
  | 1 => s.hostTrained
  | 2 => !s.sset.isEmpty
  | 3 => s.stacksDecided && s.tested && decide (8 ≤ s.sset.length) && !s.columnsBad
  | _ => false

/-- The stage steps on as far as its conditions allow; what waited for it is taken up. -/
def State.advance (s : State) : Nat → State
  | 0 => s
  | n + 1 => if s.nextStage then ({ s with stage := s.stage + 1 } : State).advance n else s

/-- POWER_GOOD (R412): stage A. -/
def execPowerGood (s : State) : Outc :=
  event (if s.stage = 0 then ({ s with stage := 1 } : State).advance 3 else s)

/-- HOST_LINK_TRAINED (R412): stage B. -/
def execHostLinkTrained (s : State) : Outc := event (({ s with hostTrained := true } : State).advance 3)

/-- START_TEST_PASSED (R412): every hive has passed its start test. -/
def execStartTestPassed (s : State) : Outc := event (({ s with tested := true } : State).advance 3)

/-- Enters a stack number in ascending order. -/
def insertStack : Nat → List Nat → List Nat
  | x, [] => [x]
  | x, y :: l => if x ≤ y then x :: y :: l else y :: insertStack x l

/-- The contents of HBM5 are undefined at a change of SSET during stage C (R46): nothing is written there. -/
def State.dropHbm (s : State) : State :=
  { s with mem := s.mem.filter (fun p => decide (2 ^ 40 ≤ p.1)), lineTags := s.lineTags.filter (fun p => decide (2 ^ 34 ≤ p.1)) }

/-- What the end of a stack's training or its mark brings (R46): with every stack decided now and fewer than 8 trained the device stays
in stage C and reports it; the stage goes on as far as it may. `was` says whether every stack was decided before. -/
def State.trainingEnds (s : State) (was : Bool) : State :=
  (if s.stacksDecided && !was && decide (s.sset.length < 8) then s.machineError 4 s.sset.length else s).advance 3

/-- STACK_TRAINED (R46): before stage D a stack joins SSET when it completes training, unless it is marked as failed (R47). -/
def execStackTrained (stack : Nat) (s : State) : Outc :=
  let x := s.stack stack
  event (if 16 ≤ stack || x.trained || x.failed || x.marked || s.stage == 0 || s.stage == 4 then s
    else
      let s := s.modStack stack (fun x => { x with trained := true, powered := true })
      let s := { s with sset := insertStack stack s.sset, ret := { s.ret with phase := (s.ret.phase + 1) % 65536 } }
      s.dropHbm.broadcast.trainingEnds false)

/-- STACK_TRAINING_FAILED (R46): the stack never joins; with fewer than 8 the device stays in stage C and reports it. -/
def execStackTrainingFailed (stack : Nat) (s : State) : Outc :=
  let x := s.stack stack
  event (if 16 ≤ stack || x.trained || x.failed || s.stage == 0 || s.stage == 4 then s
    else
      (s.modStack stack (fun x => { x with failed := true })).trainingEnds s.stacksDecided)

/-! ### Resets and the management port (R47, R410, R413) -/

/-- A reset: every register and memory of the device at its reset value. What lies outside it stays: the management controller's
marks, thresholds, column map and mailbox, the memory of the host and of peers, the fabric. -/
def State.restart (s : State) (cols : Tab (List Nat)) : State :=
  { State.reset with
    mem := s.mem.filter (fun p => decide (0x400000000000 ≤ p.1))
    lineTags := s.lineTags.filter (fun p => decide (0x400000000000 / 64 ≤ p.1))
    hbm := (List.range 16).foldl
      (fun t i => Tab.set .off t i { Stack.off with marked := (s.stack i).marked, thr := (s.stack i).thr }) []
    failedCols := cols, mailbox := s.mailbox, mailboxLost := s.mailboxLost, machineErrors := s.machineErrors
    links := s.links, routes := s.routes, replies := s.replies
    peers := (s.peers.map (fun (p : Nat × Peer) => (p.1, { p.2 with tag := 0 }))).filter (fun p => p.2 != Peer.none)
    sched := s.sched, tick := s.tick, nextId := s.nextId }

/-- A die with more than two failed columns is a machine error (R413). -/
def State.checkColumns (s : State) : State := if s.columnsBad then s.machineError 5 0 else s

/-- COLD_RESET (R47, R413): the column map of the management controller is applied. -/
def execColdReset (s : State) : Outc := event (s.restart s.failedCols).checkColumns

/-- The column map of a maintenance reset's test, by die: 34 physical columns each (R2). -/
def columnMap (failed : List Nat) : Tab (List Nat) :=
  failed.dedup.foldl (fun t n => Tab.set [] t (n / 34) (Tab.get [] t (n / 34) ++ [n % 34])) []

/-- MAINTENANCE_RESET (R413): the columns are tested again. -/
def execMaintenanceReset (failed : List Nat) (s : State) : Outc := event (s.restart (columnMap failed)).checkColumns

/-- MGMT_MARK_FAILED (R47): the mark keeps a stack out of SSET at the next training; during stage C it may be the last that decides. -/
def execMgmtMarkFailed (stack : Nat) (failed : Bool) (s : State) : Outc :=
  let s' := s.modStack stack (fun x => { x with marked := failed })
  event (if 16 ≤ stack then s else if s.stage = 0 ∨ s.stage = 4 then s' else s'.trainingEnds s.stacksDecided)

/-- MGMT_SET_DEVID (R407): 15 bits; 0x7FFF is never assigned. -/
def execMgmtSetDevid (id : Nat) (s : State) : Outc :=
  event (if id % 2 ^ 15 = 0x7FFF then s else { s with devid := id % 2 ^ 15 })

/-! ### Links (R409) -/

/-- The device's links: twelve (R7, R407). -/
def linkCount : Nat := 12

/-- Changes a link; there is none beyond the last. -/
def State.modLink (s : State) (l : Nat) (f : LinkSt → LinkSt) : State :=
  if linkCount ≤ l then s else
  { s with links := Tab.set .fresh s.links l (f (Tab.get .fresh s.links l)) }

/-- LINK_FLIT_RETRY (R409): visible only as latency. -/
def execLinkFlitRetry (link : Nat) (s : State) : Outc := event (s.modLink link (fun x => { x with retries := x.retries + 1 }))

/-- LANE_FAILURE (R409): a spare lane takes over, visible only as latency. -/
def execLaneFailure (link : Nat) (s : State) : Outc :=
  event (s.modLink link (fun x => { x with laneFailures := x.laneFailures + 1 }))

/-- A peer that no link reaches any more: what is read from it is poison of a link record. -/
def State.loseRoute (s : State) (link dev : Nat) : State :=
  let p := Tab.get Peer.none s.peers dev
  if p.tag ≠ 0 then s
  else
    let (tag, s) := s.errorRecord 4 link 0 0
    { s with peers := Tab.set Peer.none s.peers dev { p with tag := tag } }

/-- Whether a message to one of these devices is in flight (R409). -/
def State.flying (s : State) (devs : List Nat) : Bool := s.farOut.any (fun p => devs.contains p.1 && decide (s.cyc < p.2))

/-- LINK_FAILURE (R409): traffic goes over the remaining links; where none reaches a peer, reads return poison, and messages in
flight are dropped and reported as a machine error. Such a message counts in no region (R357), so its acknowledgement changes nothing. -/
def execLinkFailure (link : Nat) (s : State) : Outc :=
  let cut := (s.routes.filter (fun (p : Nat × List Nat) => p.2.contains link && p.2.all (· == link))).map (·.1)
  let s' := s.modLink link (fun x => { x with failed := true })
  let s' := { s' with
    routes := (s'.routes.map (fun (p : Nat × List Nat) => (p.1, p.2.filter (· != link)))).filter (fun p => p.2 != []) }
  let s' := cut.foldl (fun s d => s.loseRoute link d) s'
  let s' := { s' with farOut := s'.farOut.filter (fun p => !cut.contains p.1) }
  event (if linkCount ≤ link then s else if s.flying cut then s'.machineError 6 link else s')

/-! ### The host's window and peers' accesses (R405, R406, R408) -/

/-- The answer to a read of the host or a peer: the bytes with the tag of their lines, or poison where the window does not serve it. -/
def State.reply (s : State) (toHost ok : Bool) (off pa n : Nat) : State :=
  { s with replies := s.replies ++
    [if ok then ⟨toHost, off, s.bytes pa n, s.tagAt pa n, false⟩ else ⟨toHost, off, [], 0, true⟩] }

/-- HOST_CXL_MEM_ACCESS (R405): a host's access reaches the window's frame; where the window does not serve it, a write is dropped and
a read returns CXL poison. -/
def execHostCxlMemAccess (off : Nat) (write : Option (List Byte)) (len : Nat) (s : State) : Outc :=
  let n := match write with | some bs => bs.length | none => len
  let base := s.hostwin.toNat % 1024
  let count := s.hostwin.toNat / 2 ^ 16 % 1024
  let pa := base * 2 ^ 30 + off
  let ok := s.hostwin.getLsbD 63 && decide (off + n ≤ count * 2 ^ 30) && decide (pa + n ≤ s.mcap * 2 ^ 30)
  event (match write with
    | some bs => if ok then s.writeSeen pa bs 0 .bulk else s
    | none => s.reply true ok off pa n)

/-- PEER_ACCESS (R408): a peer's access reaches the exported window; where the window does not serve it, a write is dropped and its
record is posted here, and a read returns poison, which the reading device tags with a link record of its own. -/
def execPeerAccess (off : Nat) (write : Option (List Byte)) (len : Nat) (s : State) : Outc :=
  let n := match write with | some bs => bs.length | none => len
  let pa := s.pexp.toNat % 256 * 2 ^ 32 + off
  let ok := s.pexp.getLsbD 63 && decide (off + n ≤ 2 ^ 32) && decide (pa + n ≤ s.mcap * 2 ^ 30)
  event (match write with
    | some bs => if ok then s.writeSeen pa bs 0 .bulk else (s.errorRecord 4 0 pa 0).2
    | none => s.reply false ok off pa n)

/-! ### Power (R414 to R417) -/

/-- SLEW_TICK (R414): each microsecond the budget follows the package's power by at most 4 W; under a hold it does not rise. -/
def execSlewTick (s : State) : Outc :=
  let p := Config.packagePower s.tick
  let b := s.slewBudget
  let b' := if p < b then Nat.max p (b - 4) else if s.slewHold then b else Nat.min p (b + 4)
  let s := { s with slewBudget := b', slewLeft := s.slewLeft - 1 }
  event (if s.slewHold && s.slewLeft == 0 then s.push .staggerHoldEnd else s)

/-- A write of STAGGER: device 0x7FFF applies it here; for another device the message leaves. -/
def State.writeStagger (s : State) (v : Word) : State :=
  let dev := v.toNat / 2 ^ 32 % 2 ^ 15
  if dev = 0x7FFF ∨ dev = s.devid then s.push (.staggerArrival (v.toNat / 256 % 4096) (Nat.max 1 (v.toNat % 256))) else s

/-- STAGGER_WRITE (R416). -/
def execStaggerWrite (v : Word) (s : State) : Outc := event (s.writeStagger v)

/-- STAGGER_ARRIVAL (R416): the budget's rise is frozen for k × w µs, in place of any hold under way; k = 0 ends it. -/
def execStaggerArrival (k w : Nat) (s : State) : Outc :=
  event { s with slewHold := k != 0, slewLeft := k * Nat.max 1 w }

/-- STAGGER_HOLD_END (R416): the budget may rise again. -/
def execStaggerHoldEnd (s : State) : Outc := event (if s.slewLeft = 0 then { s with slewHold := false } else s)

end Sys2Proof.Machine
end

