-- ==== Sys2Proof/Machine/System.lean ====
section
/-! DEFINITION. System words (R184 to R191): the software trap, fibres, the return from a trap, system registers, invalidations,
breakpoints, dumps and counters. -/

namespace Sys2Proof.Machine

open Sys2Proof.Machine.Num

/-! ### The software trap (R184) -/

/-- `trap`: code 30 with IMM32[15:0]; in supervisor mode the hive kernel halts and a machine error is reported. -/
def execTrap (code : BitVec 16) (s : State) : Outc :=
  runWord true (do
    if (← curTask).super then
      modify (fun s => (s.modHive (hiveOf s.focus) (fun h => { h with halted := true })).machineError 1 s.focus)
      return .stay
    else trap 30 0 [BitVec.ofNat 64 code.toNat]) s

/-! ### Fibres (R185) -/

/-- Whether a handle names a fibre saved from a core and a context. -/
def State.isFibre (s : State) (core ctx handle : Nat) : Bool :=
  let r := Tab.get .empty s.saved handle
  r.state == 1 && r.core == core && r.task.ctx == ctx

/-- The handle of a fibre that the word names, or the fibre fault. -/
def fibreOperand (a : Opnd) : W Nat := do
  let h ← useWord (← readO a)
  let s ← get
  let t ← curTask
  if s.isFibre s.focus t.ctx h.toNat then return h.toNat else trap fFibre 0 [h]

/-- `sys.resume`: at the caller's commit the fibre returns to a slot. -/
def execSysResume (a : Opnd) (s : State) : Outc :=
  runWord true (do
    buffer (.fibreResume (← fibreOperand a)) 0
    return .next) s

/-- `sys.kill`: at the caller's commit the fibre is killed. -/
def execSysKill (a : Opnd) (s : State) : Outc :=
  runWord true (do
    buffer (.fibreKill (← fibreOperand a)) 0
    return .next) s

/-- Whether a task has a resume of a fibre in its commit buffer. -/
def Task.resumes (t : Task) (handle : Nat) : Bool := t.commit.any (fun b => b.eff == .fibreResume handle)

/-- What `sys.state` reports: 0 no such fibre, 1 saved, 2 a resume pending at the commit of a task, saved ones among them; a fibre whose
resume has committed and that waits for a free slot is reported as 2 too (DESIGN CHOICE, log 131). -/
def State.fibreState (s : State) (core ctx handle : Nat) : Nat :=
  if !s.isFibre core ctx handle then 0
  else if (Tab.get .empty s.saved handle).pending || s.tasks.any (fun (p : Nat × Task) => p.2.stat != .free && p.2.resumes handle)
      || s.saved.any (fun p => p.2.task.resumes handle) then 2
  else 1

/-- `sys.state`. -/
def execSysState (d a : Opnd) (s : State) : Outc :=
  runWord true (do
    let h ← useWord (← readO a)
    let s ← get
    let t ← curTask
    writeO d { v := BitVec.ofNat 64 (s.fibreState s.focus t.ctx h.toNat), tag := 0 } 4
    return .next) s

/-! ### RETURNING FROM A TRAP (R186, R385) -/

/-- Whether `eret` accepts a handle: a trapped task that no `eret` has named, or a task in state 2, 3 or 4 of a stopped context. -/
def State.eretAccepts (s : State) (handle : Nat) : Bool :=
  let r := Tab.get .empty s.saved handle
  (r.state == 2 && !r.named) || ((s.ctx r.task.ctx).stopped && (r.state == 2 || r.state == 3 || r.state == 4))

/-- `eret`: the handler commits as at `done`; at its commit point the trapped task is re-executed (how 0), continued (1) or
killed (2). -/
def eretWord (how : Nat) (a : Opnd) (s : State) : Outc :=
  runWord true (do
    supervisorOnly (0x3A * 128 + how) none
    let h ← useWord (← readO a)
    if !(← get).eretAccepts h.toNat then trap fFibre 0 [h]
    buffer (.eret h.toNat how) 0
    endTask
    return .stay) s

/-- `eret.retry`. -/
def execEretRetry (a : Opnd) (s : State) : Outc := eretWord 0 a s
/-- `eret.next`. -/
def execEretNext (a : Opnd) (s : State) : Outc := eretWord 1 a s
/-- `eret.kill`. -/
def execEretKill (a : Opnd) (s : State) : Outc := eretWord 2 a s

/-! ### System registers (R187) -/

/-- Who may do something to a system register. -/
inductive Who where
  | nobody | supervisor | everyone
  deriving DecidableEq, Repr

def Who.allows (w : Who) (super : Bool) : Bool :=
  match w with
  | .nobody => false
  | .supervisor => super
  | .everyone => true

/-- Who may read and who may write a system register. That nobody reads GTSYNC, of which R370 gives the writer only, is the model's
choice, as for VRSYNC (DESIGN CHOICE, log 104), and so is that FSTAT and SPERR may be written in every mode (log 142). -/
def sysAccess (num : Nat) : Who × Who :=
  match num with
  | 0x100 | 0x102 | 0x103 | 0x113 | 0x131 | 0x150 | 0x151 | 0x152 | 0x153 | 0x162 | 0x1A4 | 0x1C1 | 0x1C3 | 0x1C4 =>
    (.everyone, .nobody)
  | 0x101 | 0x105 | 0x106 => (.supervisor, .nobody)
  | 0x111 | 0x192 => (.nobody, .supervisor)
  | 0x130 | 0x140 | 0x171 | 0x172 => (.everyone, .everyone)
  | 0x161 | 0x170 | 0x181 | 0x182 | 0x1A0 | 0x1A1 | 0x1A2 | 0x1A3 | 0x1B3 | 0x1B6 => (.everyone, .supervisor)
  | _ => (.supervisor, .supervisor)

/-- A flag at a bit. -/
def bitAt (b : Bool) (i : Nat) : Nat := if b then 2 ^ i else 0

/-- The registers of main memory (R25 to R31). -/
def State.readMemReg (s : State) (num : Nat) : Nat :=
  let n := s.sset.length
  let r := s.ret
  match num with
  | 0x100 => n * 2 ^ 16 + s.mcap
  | 0x101 => if r.rstate = 0 then 0 else 2 ^ 31 + (n - 1) * 2 ^ 16 + s.mcapNext
  | 0x102 => r.phase
  | 0x103 => bitAt r.active 31 + r.frame * 2 ^ 9 + r.strip
  | 0x104 =>
    r.erec * 2 ^ 40 + r.share * 2 ^ 32 + r.stack * 2 ^ 20 + bitAt (r.pend != 0) 16 + bitAt r.refused 15 + r.rstate * 2 ^ 8
  | 0x105 => s.sset.foldr (fun x acc => x + acc * 16) 0
  | _ => r.lostPend * 2 ^ 16 + r.pend

/-- A level of the loop stack (R176). -/
def Task.loopReg (t : Task) (i : Nat) : Nat :=
  match t.loops[i]? with
  | some l => 2 ^ 63 + l.n * 2 ^ 32 + l.rem
  | none => 0

/-- The registers of a context, and those that it keeps at a core. -/
def State.readCtxReg (s : State) (core ctx num : Nat) : Nat :=
  let c := s.ctx ctx
  let cc := s.cc ctx core
  match num with
  | 0x110 => c.vrbase.toNat
  | 0x112 => c.vhctl.toNat
  | 0x113 => bitAt (!c.releasing.isEmpty) 63 + c.frames.length * 2 ^ 34 + c.freeRecs
  | 0x120 => c.ptroot.toNat + ctx
  | 0x130 => cc.sperr.toNat
  | 0x131 => cc.sperra.toNat
  | 0x160 => cc.dlog.toNat
  | 0x161 => bitAt cc.logFull 63 + cc.logCount
  | 0x170 => c.rtab.toNat
  | 0x180 => cc.spqBase.toNat
  | 0x181 => cc.bounces * 2 ^ 32 + (cc.spill.filter (·.held)).length * 2 ^ 16 + cc.spill.length
  | 0x182 => c.nhbase.toNat
  | 0x191 => c.gtbase.toNat
  | 0x196 => c.age
  | 0x197 => c.runlim * 2 ^ 32 + c.slice
  | 0x1A0 => (Tab.get 0 cc.grp 0).toNat
  | 0x1A1 => (Tab.get 0 cc.grp 1).toNat
  | 0x1A2 => (Tab.get 0 cc.grp 2).toNat
  | 0x1A3 => (Tab.get 0 cc.grp 3).toNat
  | 0x1A4 => c.detlvl
  | 0x1B3 => bitAt c.stopped 63 + c.code
  | 0x1B5 => c.svpool.toNat
  | 0x1B6 => c.svlow * 2 ^ 40 + c.svFree
  | 0x1B7 => c.csvbase.toNat
  | _ => c.trctl.toNat

/-- The registers of a hive, a core and the device. -/
def State.readDevReg (s : State) (core num : Nat) : Nat :=
  let h := s.hive (hiveOf core)
  match num with
  | 0x171 => (s.core core).rckey.toNat
  | 0x172 => (s.core core).rcent.toNat
  | 0x190 => s.qtbase.toNat
  | 0x198 => s.ctxresStatus * 2 ^ 61 + s.ctxres
  | 0x1B0 => h.frbase.toNat
  | 0x1B1 => bitAt h.ovf 63 + h.cons * 256 + h.prod
  | 0x1B2 => (h.heldFaults.filter (fun x => match x with | .slot _ | .saved _ => true | .entry _ => false)).length
  | 0x1B4 => s.erbase.toNat + Nat.min s.erNext 0xFFF
  | 0x1B8 => s.cmove.toNat
  | 0x1C0 => s.hostwin.toNat
  | 0x1C1 => s.devid
  | 0x1C2 => s.pexp.toNat
  | 0x1C3 => (s.hbm.filter (fun (p : Nat × Stack) => p.2.trained)).length * 2 ^ 16 + s.stage
  | 0x1C4 => bitAt s.slewHold 63 + s.slewLeft * 2 ^ 32 + s.slewBudget % 2 ^ 13
  | _ => 0

/-- The context that the ring entry that started a task names (R422): w0[23:12] in its g1 at the start; 0 for a task that no ring entry
started. -/
def Task.ringCtx (t : Task) : Nat :=
  match t.start with
  | some m =>
    if m.svc = .ring then (m.payload.headD { v := 0, tag := 0 }).v.toNat / 2 ^ 12 % 4096 else 0
  | none => 0

/-- The context whose registers a task's `gsr` and `ssr` reach: that of the ring entry it serves, as R422 says of CMOVE, else its own
(DEDUCED, log 75). -/
def Task.regCtx (t : Task) : Nat := if t.ringCtx = 0 then t.ctx else t.ringCtx

/-- The value of a system register as a task reads it; a write-only field reads zero (R14). -/
def State.readSys (s : State) (k num : Nat) : Word :=
  let t := s.task k
  BitVec.ofNat 64 (match num with
    | 0x140 => t.fstat.toNat
    | 0x150 => t.loopReg 0
    | 0x151 => t.loopReg 1
    | 0x152 => t.loopReg 2
    | 0x153 => t.loopReg 3
    | 0x162 => (match t.velem with | some l => 2 ^ 63 + l | none => 0)
    | 0x100 | 0x101 | 0x102 | 0x103 | 0x104 | 0x105 | 0x106 => s.readMemReg num
    | 0x171 | 0x172 | 0x190 | 0x198 | 0x1B0 | 0x1B1 | 0x1B2 | 0x1B4 | 0x1B8 | 0x1C0 | 0x1C1 | 0x1C2 | 0x1C3 | 0x1C4 | 0x1C5 =>
      s.readDevReg (k / 8) num
    | _ => s.readCtxReg (k / 8) t.regCtx num)

/-- `gsr`: the value at issue; a mode that may not read the register raises the privilege fault. -/
def execGsr (d : Opnd) (num : BitVec 16) (s : State) : Outc :=
  plain (do
    let t ← curTask
    if !(sysAccess num.toNat).1.allows t.super then
      trap fPrivilege 0 [Config.mnemonicCode (0x3B * 128), BitVec.ofNat 64 num.toNat]
    let k ← curKey
    writeO d { v := (← get).readSys k num.toNat, tag := 0 } 4) s

/-- Bits `hi` down to `lo` of a value, in place. -/
def keepBits (v : Word) (hi lo : Nat) : Nat := v.toNat / 2 ^ lo % 2 ^ (hi - lo + 1) * 2 ^ lo

/-- RTAB (R318): a size other than 4 to 20 stores 0. -/
def rtabValue (v : Word) : Nat :=
  let n := v.toNat % 32
  keepBits v 39 12 + (if 4 ≤ n ∧ n ≤ 20 then n else 0)

/-- Writes of the registers of a context that only store. -/
def State.writeCtxReg (s : State) (core ctx num : Nat) (v : Word) : State :=
  let put (n : Nat) : Word := BitVec.ofNat 64 n
  match num with
  | 0x110 => s.modCtx ctx (fun c => { c with vrbase := put (keepBits v 39 12 + v.toNat % 2) })
  | 0x120 => s.modCtx ctx (fun c => { c with ptroot := put (keepBits v 39 12), installed := true })
  | 0x130 => s.writeSperr ctx core v
  | 0x160 => s.modCc ctx core (fun c => { c with dlog := put (keepBits v 63 44 + keepBits v 39 6) })
  | 0x161 => if v.getLsbD 63 then s.modCc ctx core (fun c => { c with logFull := false }) else s
  | 0x170 => s.modCtx ctx (fun c => { c with rtab := put (rtabValue v) })
  | 0x180 => s.modCc ctx core (fun c => { c with spqBase := put (keepBits v 39 19) })
  | 0x181 => if v.getLsbD 47 then s.modCc ctx core (fun c => { c with bounces := 0 }) else s
  | 0x182 => s.modCtx ctx (fun c => { c with nhbase := put (keepBits v 56 34 + v.toNat % 2) })
  | 0x191 => s.modCtx ctx (fun c => { c with gtbase := put (keepBits v 39 14) })
  | 0x192 => s.writeGtsync ctx v
  | 0x196 => s.writeAge ctx v
  | 0x197 => s.writeSlice ctx v
  | 0x1B3 => s.writeCtxst ctx v
  | 0x1B5 => s.writeSvpool ctx v
  | 0x1B6 => (s.modCtx ctx (fun c => { c with svlow := v.toNat / 2 ^ 40 })).judgePool ctx
  | 0x1B7 => s.modCtx ctx (fun c => { c with csvbase := put (keepBits v 39 22) })
  | 0x1B9 => s.modCtx ctx (fun c => { c with trctl := put (keepBits v 63 5) })
  | _ => s

/-- Writes of the registers of a hive, a core and the device. -/
def State.writeDevReg (s : State) (core num : Nat) (v : Word) : State :=
  match num with
  | 0x104 => s.writeMretire v
  | 0x171 => s.modCore core (fun c => { c with rckey := BitVec.ofNat 64 (v.toNat % 2 ^ 32) })
  | 0x190 => { s with qtbase := BitVec.ofNat 64 (keepBits v 39 22 + v.toNat % 2) }
  | 0x198 => s.writeCtxres v
  | 0x1B0 => s.writeFrbase (hiveOf core) v
  | 0x1B1 => s.writeFring (hiveOf core) v
  | 0x1B4 => { s with erbase := BitVec.ofNat 64 (keepBits v 39 16) }
  | 0x1C0 => { s with hostwin := BitVec.ofNat 64 (keepBits v 63 63 + keepBits v 25 16 + keepBits v 9 0) }
  | 0x1C2 => { s with pexp := BitVec.ofNat 64 (keepBits v 63 63 + keepBits v 7 0) }
  | 0x1C5 => s.writeStagger v
  | _ => s

/-- The table of main memory that a write of a context's register names, when it must lie below MCAP (R49, R71, R369). -/
def tableOf (num : Nat) (v : Word) : Option Nat :=
  match num with
  | 0x110 | 0x120 => some (keepBits v 39 12)
  | 0x191 => some (keepBits v 39 14)
  | _ => none

/-- Whether a write of a context's register breaks a duty for which its rule names no fault, the context fault of R17 then. -/
def State.breaksDuty (s : State) (ctx num : Nat) (v : Word) : Bool :=
  match num with
  | 0x104 => v.getLsbD 14 && s.ackBreaks
  | 0x111 => s.vrsyncBreaks ctx (v.toNat % 4096)
  | 0x192 => s.groupBad ctx (v.toNat % 256)
  | _ => match tableOf num v with
    | some a => decide (s.mcap ≤ a / 2 ^ 30)
    | none => false

/-- The effect of `ssr` (R187); a register's own rule may raise a fault in place of the write, and a breach of a duty is the context
fault that names the register (R17). -/
def sysWrite (num : Nat) (v : Word) : W Unit := do
  let s ← get
  let k ← curKey
  let t ← curTask
  let core := k / 8
  let ctx := t.regCtx
  let privilege : W Unit := trap fPrivilege 0 [Config.mnemonicCode (0x3C * 128), BitVec.ofNat 64 num]
  if s.breaksDuty ctx num v then trap 69 0 [BitVec.ofNat 64 num]
  match num with
  | 0x111 =>
    let (bad, s') := s.vrsync ctx (v.toNat % 4096)
    if bad then regionFault else set s'
  | 0x112 =>
    let (bad, s') := s.vhctlWrite ctx v
    if bad then regionFault else set s'
  | 0x140 => modCur (fun t => { t with fstat := fstatWrite t.fstat v })
  | 0x1A0 | 0x1A1 | 0x1A2 | 0x1A3 =>
    if s.grpBad ctx core (num - 0x1A0) v then privilege else set (s.writeGrp ctx core (num - 0x1A0) v)
  | 0x1B8 => if t.ringCtx = 0 then privilege else set (s.writeCmove t.ringCtx v)
  | 0x172 => set (s.writeRcent t.ctx core v)
  | 0x104 | 0x171 | 0x190 | 0x198 | 0x1B0 | 0x1B1 | 0x1B4 | 0x1C0 | 0x1C2 | 0x1C5 =>
    set (s.writeDevReg core num v)
  | _ => set (s.writeCtxReg core ctx num v)

/-- `ssr`: it waits for every earlier result; a mode that may neither read nor write the register raises the privilege fault, and
the write of one that may only read is ignored. -/
def execSsr (num : BitVec 16) (a : Opnd) (s : State) : Outc :=
  plain (do
    let t ← curTask
    let (r, w) := sysAccess num.toNat
    if !r.allows t.super && !w.allows t.super then
      trap fPrivilege 0 [Config.mnemonicCode (0x3C * 128), BitVec.ofNat 64 num.toNat]
    if t.loads ≠ [] then exit (.hold false)
    let k ← curKey
    modify (fun s => s.landLate k)
    let v ← readO a
    if w.allows t.super then sysWrite num.toNat v.v) s

/-! ### Invalidations (R80, R188) -/

/-- `tlbi` of a kind: at core and hive scope it waits until no unserved access of another task there has translated through
what it removes; at device scope it starts and goes on. -/
def tlbiWord (mnemonic kind : Nat) (x : TlbiArg) (s : State) : Outc :=
  plain (do
    supervisorOnly mnemonic none
    let va ← if kind = 0 then (do let w ← useWord (← readO x.a); pure (vaOf w)) else pure 0
    let ctx ← if kind = 2 then pure 0 else (do let w ← readO x.b; pure (w.v.toNat % 4096))
    let s ← get
    let t ← curTask
    let core := s.focus
    let hive := hiveOf core
    match x.scope with
    | .core =>
      if s.accessesCovered [core] kind va ctx (s.killSize [core] none kind va ctx) (t.ctx, t.tid) then exit (.hold false)
      set (s.killCore kind va ctx core)
    | .hive =>
      if s.accessesCovered (hiveCores hive) kind va ctx (s.killSize (hiveCores hive) (some hive) kind va ctx) (t.ctx, t.tid) then
        exit (.hold false)
      set ((s.killHive kind va ctx hive).rewalk hive kind va ctx)
    | .dev => set (s.invalidateDevice (← curKey) kind va ctx x.cc.val)) s

/-- `tlbi.page`. -/
def execTlbiPage (x : TlbiArg) (s : State) : Outc := tlbiWord (0x3D * 128) 0 x s
/-- `tlbi.ctx`. -/
def execTlbiCtx (x : TlbiArg) (s : State) : Outc := tlbiWord (0x3D * 128 + 4) 1 x s
/-- `tlbi.all`. -/
def execTlbiAll (x : TlbiArg) (s : State) : Outc := tlbiWord (0x3D * 128 + 8) 2 x s

/-! ### Breakpoints (R189) -/

/-- `dbgb`: with a debugger attached to the context the task stops with an event that reports A, and goes on at the next word when
it is released. -/
def execDbgb (a : Opnd) (s : State) : Outc :=
  runFrame false (do
    prelude false
    let w ← readO a
    let s ← get
    let k ← curKey
    let t := s.task k
    retire false .next
    if (s.ctx t.ctx).debugRing.isSome then
      modify (fun s => (s.beginSave k .debug).debugEvent t.ctx t.tid t.pc 0 w.v)) s

/-! ### Dumps (R190, R398) -/

/-- A tag-table entry in the layout of R90. -/
def STag.word (e : STag) : Word := BitVec.ofNat 64 (e.state * 2 ^ 62 + e.gate * 2 ^ 57 + bitAt e.phase 56 + e.tag)

/-- What section `n` of a dump holds (R398): section 1 is the first part of R393's save area; the others hold what R398 lists, in the
order in which it lists it, each item as R393 and R90 lay it out (DEDUCED, log 30). -/
def State.dumpHead (s : State) (k n : Nat) : List Byte :=
  let t := s.task k
  let sp := s.space t.ctx (k / 8)
  match n with
  | 1 => saveFirst 0 (k / 8) (s.core (k / 8)) (k % 8) t
  | 2 =>
    let zv : VVal := { v := 0, tag := 0 }
    (List.range 32).flatMap (fun i => bytesOf 128 (Tab.get zv t.v i).v.toNat)
      ++ (List.range 8).flatMap (fun i => bytesOf 8 (Tab.get 0 t.m i).toNat)
      ++ (List.range 32).flatMap (fun i => bytesOf 2 (Tab.get zv t.v i).tag)
  | 3 => saveTiles t ++ saveTileTags t
  | 4 => saveCommit s.tick t ++ saveUndo t
  | 5 => (List.range 256).flatMap (fun i => bytesOf 8 (sp.stag i).word.toNat)
      ++ (List.range 32).flatMap (fun i => bytesOf 8 (gateOf sp i).word.toNat)
  | _ => ((List.range 256).filter (fun sl => (sp.stag sl).state != 0)).flatMap (fun sl => readList sp.byte (sl * 1024) 1024)

/-- The bytes of section `n`, in whole lines (R398, log 30). -/
def State.dumpSection (s : State) (k n : Nat) : List Byte :=
  let head := s.dumpHead k n
  head ++ List.replicate ((head.length + 63) / 64 * 64 - head.length) 0

/-- A section with its header: number and length. -/
def State.dumpPart (s : State) (k n : Nat) : List Byte :=
  let b := s.dumpSection k n
  bytesOf 8 n ++ bytesOf 8 b.length ++ List.replicate 48 0 ++ b

/-- The sections that fit into a buffer beyond what stands there: the bytes, the last complete section, whether all fitted. -/
def State.dumpFill (s : State) (k size : Nat) : List Nat → List Byte → Nat → List Byte × Nat × Bool
  | [], acc, last => (acc, last, true)
  | n :: rest, acc, last =>
    let p := s.dumpPart k n
    if acc.length + p.length ≤ size then s.dumpFill k size rest (acc ++ p) n else (acc, last, false)

/-- The body of a dump, from offset 0 with an invalid header: the bytes, the last complete section, whether it is complete. -/
def State.dumpBody (s : State) (k size : Nat) : List Byte × Nat × Bool :=
  let (b, last, all) := s.dumpFill k size [1, 2, 3, 4, 5, 6] (List.replicate 64 0) 0
  if all || decide (size < b.length + 64) then (b, last, all) else (b ++ bytesOf 8 last ++ List.replicate 56 0, last, all)

/-- The header of a dump, written last. -/
def dumpHeader (tid bytes last : Nat) : List Byte :=
  bytesOf 4 0x4B444D50 ++ bytesOf 4 1 ++ bytesOf 8 tid ++ bytesOf 8 bytes ++ bytesOf 8 last

/-- The pieces up to the first that no check stops, and the address and the code of the fault at the first that one does. -/
def State.dumpPieces (s : State) (core : Nat) (t : Task) (va : Nat) :
    List (Nat × Nat × Nat) → List (Nat × Nat) × Option (Nat × Nat)
  | [] => ([], none)
  | p :: rest =>
    match s.pieceStop core t.ctx .engWrite p va t.pc t.tid with
    | some (.trap code _ _) => ([], some (va, code))
    | some _ => ([], some (va, Config.dumpFault))
    | none =>
      let (l, f) := s.dumpPieces core t (va + p.2.1) rest
      ((p.1, p.2.1) :: l, f)

/-- The code of a translation's fault. -/
def xlateCode : Xlate → Nat
  | .protection => fProtection
  | .translation => fTranslation
  | _ => Config.dumpFault

/-- Writes a dump at `va` of `size` bytes: the status and the state. -/
def State.dump (s : State) (k va size : Nat) : Nat × State :=
  let t := s.task k
  let core := k / 8
  let (body, last, all) := s.dumpBody k size
  let (l, f, s) := s.pieces core t.ctx t.super .engWrite va body.length
  let (ok, stop) := s.dumpPieces core t va l
  let fault : Option (Nat × Nat) := match stop, f with
    | some x, _ => some x
    | none, some (x, a) => some (a, xlateCode x)
    | none, none => none
  let s := s.piecesWrite (.engine core) ok (body.map (fun b => (b, 0)))
  match fault, ok with
  | some (a, code), _ => (2, s.mail [BitVec.ofNat 64 a, BitVec.ofNat 64 code, BitVec.ofNat 64 t.tid])
  | none, _ => (if all then 0 else 1, s.piecesWrite (.engine core) ok ((dumpHeader t.tid body.length last).map (fun b => (b, 0))))

/-- `dump` (R190): status 3 for an unaligned buffer, of which nothing is written. -/
def execDump (d a b : Opnd) (s : State) : Outc :=
  plain (do
    let x ← useWord (← readO a)
    let y ← readO b
    let s ← get
    let k ← curKey
    let va := vaOf x
    let n := y.v.toNat
    if va % 64 ≠ 0 ∨ n = 0 ∨ n % 64 ≠ 0 then writeO d { v := 3, tag := y.tag } 4
    else
      let (st, s) := s.dump k va n
      set s
      writeO d { v := BitVec.ofNat 64 st, tag := y.tag } 4) s

/-! ### Performance counters (R191, R399, R400) -/

/-- What a read of a counter returns: all ones with the flag clear in the cycle of an overflow. -/
def Pmc.read (p : Pmc) : Nat :=
  (if p.pending then 2 ^ 48 - 1 else p.count) + bitAt p.ovf 63 + bitAt p.lost 62

/-- A clear; in the cycle of an overflow the increment is lost. -/
def Pmc.clear (p : Pmc) : Pmc := { p with count := 0, ovf := false, lost := p.pending, pending := false }

/-- A reprogramming; in the cycle of an overflow the flag is set. -/
def Pmc.program (p : Pmc) (event : Nat) : Pmc :=
  { event := event, count := 0, ovf := p.pending, lost := false, pending := false }

/-- `pctl`: A the counter, B the control word; op 0 reads, 1 clears, 2 programs. The event code is judged for op 2 alone (R191, R399;
DEDUCED, log 143). -/
def pctlWord (d a b : Opnd) (s : State) : Outc :=
  plain (do
    let x ← readO a
    let y ← readO b
    let n := x.v.toNat
    let op := y.v.toNat / 2 ^ 62
    let ev := y.v.toNat % 2 ^ 16
    if 16 ≤ n ∨ op = 3 ∨ y.v.toNat / 2 ^ 16 % 2 ^ 46 ≠ 0 ∨ (op = 2 ∧ 0x10 < ev) then trap fCounter 0 [y.v]
    if op ≠ 0 then supervisorOnly (0x3F * 128 + 1) none
    let p := Tab.get .zero ((← get).core (← curCore)).pmc n
    let p' := match op with
      | 0 => p
      | 1 => p.clear
      | _ => p.program ev
    modify (fun s => s.modCore s.focus (fun c => { c with pmc := Tab.set .zero c.pmc n p' }))
    writeO d { v := BitVec.ofNat 64 p.read, tag := minTag x.tag y.tag } 4) s

/-- PCTL_READ (R191). -/
def execPctlRead (d a b : Opnd) (s : State) : Outc := pctlWord d a b s
/-- PCTL_CLEAR (R191): the word whose B holds op 1. -/
def execPctlClear (d a b : Opnd) (s : State) : Outc := pctlWord d a b s
/-- PCTL_PROGRAM (R191): the word whose B holds op 2. -/
def execPctlProgram (d a b : Opnd) (s : State) : Outc := pctlWord d a b s

/-- COUNTER_CARRY (R400): an increment carries out of bit 47; the count wraps, and the flag is set in the next cycle. -/
def execCounterCarry (core n : Nat) (s : State) : Outc :=
  let p := Tab.get .zero (s.core core).pmc n
  event (if p.event ≠ 0 ∧ p.count = 2 ^ 48 - 1 then
      s.modCore core (fun c => { c with pmc := Tab.set .zero c.pmc n { p with count := 0, pending := true } })
    else s)

end Sys2Proof.Machine
end

