-- ==== Sys2Proof/Machine/Dispatch.lean ====
section
/-! DEFINITION. One arm per step of the opcode table, each the call of its meaning. -/

namespace Sys2Proof.Machine

open Host

def exec (i : Instr) (s : State) : Host.Outcome State Fault Refusal :=
  match i with
  | .add x => Sys2Proof.Machine.execAdd x s
  | .sub x => Sys2Proof.Machine.execSub x s
  | .mul x => Sys2Proof.Machine.execMul x s
  | .mulh x => Sys2Proof.Machine.execMulh x s
  | .mulhn x => Sys2Proof.Machine.execMulhn x s
  | .div x => Sys2Proof.Machine.execDiv x s
  | .divn x => Sys2Proof.Machine.execDivn x s
  | .rem x => Sys2Proof.Machine.execRem x s
  | .remn x => Sys2Proof.Machine.execRemn x s
  | .and x => Sys2Proof.Machine.execAnd x s
  | .or x => Sys2Proof.Machine.execOr x s
  | .xor x => Sys2Proof.Machine.execXor x s
  | .andn x => Sys2Proof.Machine.execAndn x s
  | .orn x => Sys2Proof.Machine.execOrn x s
  | .shl x => Sys2Proof.Machine.execShl x s
  | .shr x => Sys2Proof.Machine.execShr x s
  | .sra x => Sys2Proof.Machine.execSra x s
  | .rol x => Sys2Proof.Machine.execRol x s
  | .ror x => Sys2Proof.Machine.execRor x s
  | .min x => Sys2Proof.Machine.execMin x s
  | .max x => Sys2Proof.Machine.execMax x s
  | .minn x => Sys2Proof.Machine.execMinn x s
  | .maxn x => Sys2Proof.Machine.execMaxn x s
  | .abs x => Sys2Proof.Machine.execAbs x s
  | .clz x => Sys2Proof.Machine.execClz x s
  | .ctz x => Sys2Proof.Machine.execCtz x s
  | .popc x => Sys2Proof.Machine.execPopc x s
  | .bext x => Sys2Proof.Machine.execBext x s
  | .bins x => Sys2Proof.Machine.execBins x s
  | .sext x => Sys2Proof.Machine.execSext x s
  | .zext x => Sys2Proof.Machine.execZext x s
  | .seq x => Sys2Proof.Machine.execSeq x s
  | .sne x => Sys2Proof.Machine.execSne x s
  | .slt x => Sys2Proof.Machine.execSlt x s
  | .sle x => Sys2Proof.Machine.execSle x s
  | .sltn x => Sys2Proof.Machine.execSltn x s
  | .slen x => Sys2Proof.Machine.execSlen x s
  | .sel d a b c => Sys2Proof.Machine.execSel d a b c s
  | .addi x => Sys2Proof.Machine.execAddi x s
  | .andi x => Sys2Proof.Machine.execAndi x s
  | .ori x => Sys2Proof.Machine.execOri x s
  | .xori x => Sys2Proof.Machine.execXori x s
  | .shli x => Sys2Proof.Machine.execShli x s
  | .shri x => Sys2Proof.Machine.execShri x s
  | .srai x => Sys2Proof.Machine.execSrai x s
  | .slti x => Sys2Proof.Machine.execSlti x s
  | .sltni x => Sys2Proof.Machine.execSltni x s
  | .li d imm => Sys2Proof.Machine.execLi d imm s
  | .lih d a imm => Sys2Proof.Machine.execLih d a imm s
  | .padd d a b => Sys2Proof.Machine.execPadd d a b s
  | .pfmt d a b => Sys2Proof.Machine.execPfmt d a b s
  | .pget d a => Sys2Proof.Machine.execPget d a s
  | .pstrip d a => Sys2Proof.Machine.execPstrip d a s
  | .fadd d a b => Sys2Proof.Machine.execFadd d a b s
  | .fsub d a b => Sys2Proof.Machine.execFsub d a b s
  | .fmul d a b => Sys2Proof.Machine.execFmul d a b s
  | .fmin d a b => Sys2Proof.Machine.execFmin d a b s
  | .fmax d a b => Sys2Proof.Machine.execFmax d a b s
  | .fsgn d a b => Sys2Proof.Machine.execFsgn d a b s
  | .ffma d a b c mode => Sys2Proof.Machine.execFfma d a b c mode s
  | .feq d a b => Sys2Proof.Machine.execFeq d a b s
  | .flt d a b => Sys2Proof.Machine.execFlt d a b s
  | .fle d a b => Sys2Proof.Machine.execFle d a b s
  | .fcvt d a t toF32 sat mode => Sys2Proof.Machine.execFcvt d a t toF32 sat mode s
  | .fcls d a => Sys2Proof.Machine.execFcls d a s
  | .beq x => Sys2Proof.Machine.execBeq x s
  | .bne x => Sys2Proof.Machine.execBne x s
  | .blt x => Sys2Proof.Machine.execBlt x s
  | .bge x => Sys2Proof.Machine.execBge x s
  | .bltn x => Sys2Proof.Machine.execBltn x s
  | .bgen x => Sys2Proof.Machine.execBgen x s
  | .jmp hint off => Sys2Proof.Machine.execJmp hint off s
  | .jal d hint off => Sys2Proof.Machine.execJal d hint off s
  | .jr d a => Sys2Proof.Machine.execJr d a s
  | .loopReg a n => Sys2Proof.Machine.execLoopReg a n s
  | .loopImm count n => Sys2Proof.Machine.execLoopImm count n s
  | .blk sig => Sys2Proof.Machine.execBlk sig s
  | .ld x => Sys2Proof.Machine.execLd x s
  | .st x => Sys2Proof.Machine.execSt x s
  | .ldp x => Sys2Proof.Machine.execLdp x s
  | .stp x => Sys2Proof.Machine.execStp x s
  | .ltag d a => Sys2Proof.Machine.execLtag d a s
  | .tset a b => Sys2Proof.Machine.execTset a b s
  | .tclr a => Sys2Proof.Machine.execTclr a s
  | .trap code => Sys2Proof.Machine.execTrap code s
  | .sysResume a => Sys2Proof.Machine.execSysResume a s
  | .sysKill a => Sys2Proof.Machine.execSysKill a s
  | .sysState d a => Sys2Proof.Machine.execSysState d a s
  | .eretRetry a => Sys2Proof.Machine.execEretRetry a s
  | .eretNext a => Sys2Proof.Machine.execEretNext a s
  | .eretKill a => Sys2Proof.Machine.execEretKill a s
  | .gsr d num => Sys2Proof.Machine.execGsr d num s
  | .ssr num a => Sys2Proof.Machine.execSsr num a s
  | .tlbiPage x => Sys2Proof.Machine.execTlbiPage x s
  | .tlbiCtx x => Sys2Proof.Machine.execTlbiCtx x s
  | .tlbiAll x => Sys2Proof.Machine.execTlbiAll x s
  | .dbgb a => Sys2Proof.Machine.execDbgb a s
  | .dump d a b => Sys2Proof.Machine.execDump d a b s
  | .pctlRead d a b => Sys2Proof.Machine.execPctlRead d a b s
  | .ldg x => Sys2Proof.Machine.execLdg x s
  | .stg x => Sys2Proof.Machine.execStg x s
  | .wtvEq x => Sys2Proof.Machine.execWtvEq x s
  | .wtvNe x => Sys2Proof.Machine.execWtvNe x s
  | .pref base index scale off => Sys2Proof.Machine.execPref base index scale off s
  | .ldvEq q base ver t off => Sys2Proof.Machine.execLdvEq q base ver t off s
  | .ldvLe q base ver t off => Sys2Proof.Machine.execLdvLe q base ver t off s
  | .stv d base t off => Sys2Proof.Machine.execStv d base t off s
  | .stvAt d base e t off => Sys2Proof.Machine.execStvAt d base e t off s
  | .vfloor a b => Sys2Proof.Machine.execVfloor a b s
  | .vclose a => Sys2Proof.Machine.execVclose a s
  | .get x => Sys2Proof.Machine.execGet x s
  | .put x => Sys2Proof.Machine.execPut x s
  | .ccset c a => Sys2Proof.Machine.execCcset c a s
  | .ccwait c => Sys2Proof.Machine.execCcwait c s
  | .amoAdd x => Sys2Proof.Machine.execAmoAdd x s
  | .amoFadd x => Sys2Proof.Machine.execAmoFadd x s
  | .amoMin x => Sys2Proof.Machine.execAmoMin x s
  | .amoMax x => Sys2Proof.Machine.execAmoMax x s
  | .amoAnd x => Sys2Proof.Machine.execAmoAnd x s
  | .amoOr x => Sys2Proof.Machine.execAmoOr x s
  | .amoXor x => Sys2Proof.Machine.execAmoXor x s
  | .amoSwap x => Sys2Proof.Machine.execAmoSwap x s
  | .amoCas x => Sys2Proof.Machine.execAmoCas x s
  | .amoNrAdd x => Sys2Proof.Machine.execAmoNrAdd x s
  | .amoNrFadd x => Sys2Proof.Machine.execAmoNrFadd x s
  | .amoNrMin x => Sys2Proof.Machine.execAmoNrMin x s
  | .amoNrMax x => Sys2Proof.Machine.execAmoNrMax x s
  | .amoNrAnd x => Sys2Proof.Machine.execAmoNrAnd x s
  | .amoNrOr x => Sys2Proof.Machine.execAmoNrOr x s
  | .amoNrXor x => Sys2Proof.Machine.execAmoNrXor x s
  | .amoNrSwap x => Sys2Proof.Machine.execAmoNrSwap x s
  | .vamoAdd x => Sys2Proof.Machine.execVamoAdd x s
  | .vamoFadd x => Sys2Proof.Machine.execVamoFadd x s
  | .vamoMin x => Sys2Proof.Machine.execVamoMin x s
  | .vamoMax x => Sys2Proof.Machine.execVamoMax x s
  | .vamoAnd x => Sys2Proof.Machine.execVamoAnd x s
  | .vamoOr x => Sys2Proof.Machine.execVamoOr x s
  | .vamoXor x => Sys2Proof.Machine.execVamoXor x s
  | .vamoSwap x => Sys2Proof.Machine.execVamoSwap x s
  | .logp x => Sys2Proof.Machine.execLogp x s
  | .mrg d => Sys2Proof.Machine.execMrg d s
  | .jset x => Sys2Proof.Machine.execJset x s
  | .arr a => Sys2Proof.Machine.execArr a s
  | .kpass a b => Sys2Proof.Machine.execKpass a b s
  | .kqry d a => Sys2Proof.Machine.execKqry d a s
  | .lkel a b => Sys2Proof.Machine.execLkel a b s
  | .lkab a => Sys2Proof.Machine.execLkab a s
  | .scst x => Sys2Proof.Machine.execScst x s
  | .scld x => Sys2Proof.Machine.execScld x s
  | .scamoAdd x => Sys2Proof.Machine.execScamoAdd x s
  | .scamoFadd x => Sys2Proof.Machine.execScamoFadd x s
  | .scamoMin x => Sys2Proof.Machine.execScamoMin x s
  | .scamoMax x => Sys2Proof.Machine.execScamoMax x s
  | .scamoAnd x => Sys2Proof.Machine.execScamoAnd x s
  | .scamoOr x => Sys2Proof.Machine.execScamoOr x s
  | .scamoXor x => Sys2Proof.Machine.execScamoXor x s
  | .scamoSwap x => Sys2Proof.Machine.execScamoSwap x s
  | .scamoCas x => Sys2Proof.Machine.execScamoCas x s
  | .send a b => Sys2Proof.Machine.execSend a b s
  | .sendo a b c => Sys2Proof.Machine.execSendo a b c s
  | .spawn x => Sys2Proof.Machine.execSpawn x s
  | .tagen d a b => Sys2Proof.Machine.execTagen d a b s
  | .tagp d => Sys2Proof.Machine.execTagp d s
  | .tsset x => Sys2Proof.Machine.execTsset x s
  | .gsync a b => Sys2Proof.Machine.execGsync a b s
  | .nalloc d a => Sys2Proof.Machine.execNalloc d a s
  | .nfree a => Sys2Proof.Machine.execNfree a s
  | .rlk a b => Sys2Proof.Machine.execRlk a b s
  | .rfuse a b => Sys2Proof.Machine.execRfuse a b s
  | .meet a b => Sys2Proof.Machine.execMeet a b s
  | .tshr a => Sys2Proof.Machine.execTshr a s
  | .tdrop a => Sys2Proof.Machine.execTdrop a s
  | .tseal a => Sys2Proof.Machine.execTseal a s
  | .dpush d a b => Sys2Proof.Machine.execDpush d a b s
  | .dpop d => Sys2Proof.Machine.execDpop d s
  | .dsplit d => Sys2Proof.Machine.execDsplit d s
  | .dsteal d a => Sys2Proof.Machine.execDsteal d a s
  | .dlen d => Sys2Proof.Machine.execDlen d s
  | .vadd x => Sys2Proof.Machine.execVadd x s
  | .vsub x => Sys2Proof.Machine.execVsub x s
  | .vmul x => Sys2Proof.Machine.execVmul x s
  | .vfma x => Sys2Proof.Machine.execVfma x s
  | .vfms x => Sys2Proof.Machine.execVfms x s
  | .vmin x => Sys2Proof.Machine.execVmin x s
  | .vmax x => Sys2Proof.Machine.execVmax x s
  | .vabs x => Sys2Proof.Machine.execVabs x s
  | .vneg x => Sys2Proof.Machine.execVneg x s
  | .vrcp x => Sys2Proof.Machine.execVrcp x s
  | .vrsq x => Sys2Proof.Machine.execVrsq x s
  | .vexp x => Sys2Proof.Machine.execVexp x s
  | .vtanh x => Sys2Proof.Machine.execVtanh x s
  | .vcvt x => Sys2Proof.Machine.execVcvt x s
  | .vand x => Sys2Proof.Machine.execVand x s
  | .vor x => Sys2Proof.Machine.execVor x s
  | .vxor x => Sys2Proof.Machine.execVxor x s
  | .vshl x => Sys2Proof.Machine.execVshl x s
  | .vshr x => Sys2Proof.Machine.execVshr x s
  | .vsra x => Sys2Proof.Machine.execVsra x s
  | .vcmpEq x => Sys2Proof.Machine.execVcmpEq x s
  | .vcmpNe x => Sys2Proof.Machine.execVcmpNe x s
  | .vcmpLt x => Sys2Proof.Machine.execVcmpLt x s
  | .vcmpLe x => Sys2Proof.Machine.execVcmpLe x s
  | .vsel x => Sys2Proof.Machine.execVsel x s
  | .vmov x => Sys2Proof.Machine.execVmov x s
  | .vmovGm x => Sys2Proof.Machine.execVmovGm x s
  | .vmovMm x => Sys2Proof.Machine.execVmovMm x s
  | .vmovMq x => Sys2Proof.Machine.execVmovMq x s
  | .vbcast x => Sys2Proof.Machine.execVbcast x s
  | .vext x => Sys2Proof.Machine.execVext x s
  | .vld x => Sys2Proof.Machine.execVld x s
  | .vst x => Sys2Proof.Machine.execVst x s
  | .vldx x => Sys2Proof.Machine.execVldx x s
  | .vstx x => Sys2Proof.Machine.execVstx x s
  | .vldf x => Sys2Proof.Machine.execVldf x s
  | .vstf x => Sys2Proof.Machine.execVstf x s
  | .vpack x => Sys2Proof.Machine.execVpack x s
  | .vunpk x => Sys2Proof.Machine.execVunpk x s
  | .vredsum x => Sys2Proof.Machine.execVredsum x s
  | .vredmax x => Sys2Proof.Machine.execVredmax x s
  | .vredmin x => Sys2Proof.Machine.execVredmin x s
  | .vdot x => Sys2Proof.Machine.execVdot x s
  | .vperm x => Sys2Proof.Machine.execVperm x s
  | .vrot x => Sys2Proof.Machine.execVrot x s
  | .vtopk x => Sys2Proof.Machine.execVtopk x s
  | .vsig x => Sys2Proof.Machine.execVsig x s
  | .mand x => Sys2Proof.Machine.execMand x s
  | .mor x => Sys2Proof.Machine.execMor x s
  | .mnot x => Sys2Proof.Machine.execMnot x s
  | .mpop x => Sys2Proof.Machine.execMpop x s
  | .mfirst x => Sys2Proof.Machine.execMfirst x s
  | .mmz d g => Sys2Proof.Machine.execMmz d g s
  | .mma x => Sys2Proof.Machine.execMma x s
  | .mld x => Sys2Proof.Machine.execMld x s
  | .mst x => Sys2Proof.Machine.execMst x s
  | .mmv x => Sys2Proof.Machine.execMmv x s
  | .msp x => Sys2Proof.Machine.execMsp x s
  | .mdir x => Sys2Proof.Machine.execMdir x s
  | .mdirPush x => Sys2Proof.Machine.execMdirPush x s
  | .msclRow x => Sys2Proof.Machine.execMsclRow x s
  | .msclCol x => Sys2Proof.Machine.execMsclCol x s
  | .msclAll x => Sys2Proof.Machine.execMsclAll x s
  | .mrdRow x => Sys2Proof.Machine.execMrdRow x s
  | .mrdCol x => Sys2Proof.Machine.execMrdCol x s
  | .mrdEl x => Sys2Proof.Machine.execMrdEl x s
  | .cpy x => Sys2Proof.Machine.execCpy x s
  | .cpyx2d x => Sys2Proof.Machine.execCpyx2d x s
  | .cpyx3d x => Sys2Proof.Machine.execCpyx3d x s
  | .cpyc x => Sys2Proof.Machine.execCpyc x s
  | .cfill x => Sys2Proof.Machine.execCfill x s
  | .gset gate cmd a b => Sys2Proof.Machine.execGset gate cmd a b s
  | .gadd gate a => Sys2Proof.Machine.execGadd gate a s
  | .gwt gate phase => Sys2Proof.Machine.execGwt gate phase s
  | .gpoll d gate => Sys2Proof.Machine.execGpoll d gate s
  | .pjld a g => Sys2Proof.Machine.execPjld a g s
  | .kst x => Sys2Proof.Machine.execKst x s
  | .qsig x => Sys2Proof.Machine.execQsig x s
  | .bgat x => Sys2Proof.Machine.execBgat x s
  | .bgatH1 x => Sys2Proof.Machine.execBgatH1 x s
  | .psum x => Sys2Proof.Machine.execPsum x s
  | .pbnd x => Sys2Proof.Machine.execPbnd x s
  | .pgatPg x => Sys2Proof.Machine.execPgatPg x s
  | .pgatTok x => Sys2Proof.Machine.execPgatTok x s
  | .nop => Sys2Proof.Machine.execNop s
  | .fenceH => Sys2Proof.Machine.execFenceH s
  | .fenceD => Sys2Proof.Machine.execFenceD s
  | .fenceS => Sys2Proof.Machine.execFenceS s
  | .lkex => Sys2Proof.Machine.execLkex s
  | .done => Sys2Proof.Machine.execDone s
  | .loopBodyEnd => Sys2Proof.Machine.execLoopBodyEnd s
  | .pctlClear d a b => Sys2Proof.Machine.execPctlClear d a b s
  | .pctlProgram d a b => Sys2Proof.Machine.execPctlProgram d a b s
  | .spinTimeout core slot => Sys2Proof.Machine.execSpinTimeout core slot s
  | .spinWake core slot => Sys2Proof.Machine.execSpinWake core slot s
  | .wtvWake core slot => Sys2Proof.Machine.execWtvWake core slot s
  | .getPutElementLand core n => Sys2Proof.Machine.execGetPutElementLand core n s
  | .mergeComplete core => Sys2Proof.Machine.execMergeComplete core s
  | .waggleWindow => Sys2Proof.Machine.execWaggleWindow s
  | .scEffect => Sys2Proof.Machine.execScEffect s
  | .spawnAnswer core slot accepted => Sys2Proof.Machine.execSpawnAnswer core slot accepted s
  | .versionRecordsFreed ctx n => Sys2Proof.Machine.execVersionRecordsFreed ctx n s
  | .orderedSignatureCheck core slot => Sys2Proof.Machine.execOrderedSignatureCheck core slot s
  | .horizonWindow ctx group => Sys2Proof.Machine.execHorizonWindow ctx group s
  | .gsyncArrival ctx group core hdr => Sys2Proof.Machine.execGsyncArrival ctx group core hdr s
  | .nodeCacheRefill ctx core => Sys2Proof.Machine.execNodeCacheRefill ctx core s
  | .stealRequest thief slot victim => Sys2Proof.Machine.execStealRequest thief slot victim s
  | .stealReply thief slot victim taken => Sys2Proof.Machine.execStealReply thief slot victim taken s
  | .entryRelease ctx core => Sys2Proof.Machine.execEntryRelease ctx core s
  | .vectorCommandComplete core => Sys2Proof.Machine.execVectorCommandComplete core s
  | .mmvStreamFault core => Sys2Proof.Machine.execMmvStreamFault core s
  | .matrixCommandRetire core => Sys2Proof.Machine.execMatrixCommandRetire core s
  | .engineCommandAccept core e => Sys2Proof.Machine.execEngineCommandAccept core e s
  | .engineCommandStart core e => Sys2Proof.Machine.execEngineCommandStart core e s
  | .copyBeatLand core n => Sys2Proof.Machine.execCopyBeatLand core n s
  | .bucketLink l => Sys2Proof.Machine.execBucketLink l s
  | .summaryUpdate ctx va isMax key => Sys2Proof.Machine.execSummaryUpdate ctx va isMax key s
  | .atomicApply u => Sys2Proof.Machine.execAtomicApply u s
  | .atomicReply core slot place w => Sys2Proof.Machine.execAtomicReply core slot place w s
  | .joinArrival u => Sys2Proof.Machine.execJoinArrival u s
  | .shareUpdate u => Sys2Proof.Machine.execShareUpdate u s
  | .keyPassApply ctx region holder => Sys2Proof.Machine.execKeyPassApply ctx region holder s
  | .meetDelivery m lo hi => Sys2Proof.Machine.execMeetDelivery m lo hi s
  | .hinge ctx x z => Sys2Proof.Machine.execHinge ctx x z s
  | .fuse ctx x1 x2 => Sys2Proof.Machine.execFuse ctx x1 x2 s
  | .fuse2 ctx x2 x1 y1 => Sys2Proof.Machine.execFuse2 ctx x2 x1 y1 s
  | .fuse3 ctx x1 y2 => Sys2Proof.Machine.execFuse3 ctx x1 y2 s
  | .join2 ctx t p e => Sys2Proof.Machine.execJoin2 ctx t p e s
  | .join1 ctx t p e => Sys2Proof.Machine.execJoin1 ctx t p e s
  | .fix ctx t p => Sys2Proof.Machine.execFix ctx t p s
  | .drain ctx x => Sys2Proof.Machine.execDrain ctx x s
  | .nfreeMessage ctx n => Sys2Proof.Machine.execNfreeMessage ctx n s
  | .messageArrival m => Sys2Proof.Machine.execMessageArrival m s
  | .messageBounce m => Sys2Proof.Machine.execMessageBounce m s
  | .bounceResend core => Sys2Proof.Machine.execBounceResend core s
  | .spillWake ctx core => Sys2Proof.Machine.execSpillWake ctx core s
  | .spawnSlotRequest parent slot m => Sys2Proof.Machine.execSpawnSlotRequest parent slot m s
  | .terminationAck core region => Sys2Proof.Machine.execTerminationAck core region s
  | .ageingPeriod ctx => Sys2Proof.Machine.execAgeingPeriod ctx s
  | .sliceExpiry ctx => Sys2Proof.Machine.execSliceExpiry ctx s
  | .runLimitExpiry ctx => Sys2Proof.Machine.execRunLimitExpiry ctx s
  | .contextSaved ctx => Sys2Proof.Machine.execContextSaved ctx s
  | .ctxresWrite v => Sys2Proof.Machine.execCtxresWrite v s
  | .sliceWrite ctx v => Sys2Proof.Machine.execSliceWrite ctx v s
  | .ageWrite ctx v => Sys2Proof.Machine.execAgeWrite ctx v s
  | .gtsyncWrite ctx v => Sys2Proof.Machine.execGtsyncWrite ctx v s
  | .grpWrite ctx core n v => Sys2Proof.Machine.execGrpWrite ctx core n v s
  | .quantumEnd ctx group core => Sys2Proof.Machine.execQuantumEnd ctx group core s
  | .quantumService ctx group hive => Sys2Proof.Machine.execQuantumService ctx group hive s
  | .doorbellWrite queue v => Sys2Proof.Machine.execDoorbellWrite queue v s
  | .queueAgeing queue => Sys2Proof.Machine.execQueueAgeing queue s
  | .launch queue => Sys2Proof.Machine.execLaunch queue s
  | .barrier queue => Sys2Proof.Machine.execBarrier queue s
  | .detlevel queue => Sys2Proof.Machine.execDetlevel queue s
  | .debug queue => Sys2Proof.Machine.execDebug queue s
  | .signal queue => Sys2Proof.Machine.execSignal queue s
  | .debugAttach ctx core w => Sys2Proof.Machine.execDebugAttach ctx core w s
  | .debugDetach ctx core w => Sys2Proof.Machine.execDebugDetach ctx core w s
  | .debugSetBreakpoint ctx core w => Sys2Proof.Machine.execDebugSetBreakpoint ctx core w s
  | .debugClearBreakpoint ctx core w => Sys2Proof.Machine.execDebugClearBreakpoint ctx core w s
  | .debugStop ctx core w => Sys2Proof.Machine.execDebugStop ctx core w s
  | .debugCopy ctx core w => Sys2Proof.Machine.execDebugCopy ctx core w s
  | .debugRelease ctx core w => Sys2Proof.Machine.execDebugRelease ctx core w s
  | .tlbWalkComplete core slot va => Sys2Proof.Machine.execTlbWalkComplete core slot va s
  | .invalidationMessage hive id => Sys2Proof.Machine.execInvalidationMessage hive id s
  | .invalidationDone hive id => Sys2Proof.Machine.execInvalidationDone hive id s
  | .memoryPortAccess core target addr write len => Sys2Proof.Machine.execMemoryPortAccess core target addr write len s
  | .versionRequest core slot id => Sys2Proof.Machine.execVersionRequest core slot id s
  | .versionWake core slot id => Sys2Proof.Machine.execVersionWake core slot id s
  | .versionReclaim ctx line => Sys2Proof.Machine.execVersionReclaim ctx line s
  | .vrsyncWrite ctx v => Sys2Proof.Machine.execVrsyncWrite ctx v s
  | .vhctlGrant ctx v => Sys2Proof.Machine.execVhctlGrant ctx v s
  | .vhctlRelease ctx v => Sys2Proof.Machine.execVhctlRelease ctx v s
  | .heapReleaseComplete ctx => Sys2Proof.Machine.execHeapReleaseComplete ctx s
  | .errorWindowExpiry stack count => Sys2Proof.Machine.execErrorWindowExpiry stack count s
  | .mgmtRetirementTrigger stack => Sys2Proof.Machine.execMgmtRetirementTrigger stack s
  | .mgmtWithdrawTrigger => Sys2Proof.Machine.execMgmtWithdrawTrigger s
  | .mretireAck => Sys2Proof.Machine.execMretireAck s
  | .stripMoveComplete => Sys2Proof.Machine.execStripMoveComplete s
  | .mapBroadcastReceived requester => Sys2Proof.Machine.execMapBroadcastReceived requester s
  | .retirementCommit => Sys2Proof.Machine.execRetirementCommit s
  | .retiredStackPowerDown stack => Sys2Proof.Machine.execRetiredStackPowerDown stack s
  | .stackLost stack => Sys2Proof.Machine.execStackLost stack s
  | .hbmRequestArrival r => Sys2Proof.Machine.execHbmRequestArrival r s
  | .replayIndication r => Sys2Proof.Machine.execReplayIndication r s
  | .uncorrectableError d source => Sys2Proof.Machine.execUncorrectableError d source s
  | .fringConsWrite hive v => Sys2Proof.Machine.execFringConsWrite hive v s
  | .frbaseEnable hive v => Sys2Proof.Machine.execFrbaseEnable hive v s
  | .ctxstResume ctx v => Sys2Proof.Machine.execCtxstResume ctx v s
  | .cmoveWrite ctx v => Sys2Proof.Machine.execCmoveWrite ctx v s
  | .saveAreaFreed ctx handle => Sys2Proof.Machine.execSaveAreaFreed ctx handle s
  | .rcentWrite ctx core v => Sys2Proof.Machine.execRcentWrite ctx core v s
  | .sperrClear ctx core v => Sys2Proof.Machine.execSperrClear ctx core v s
  | .powerGood => Sys2Proof.Machine.execPowerGood s
  | .hostLinkTrained => Sys2Proof.Machine.execHostLinkTrained s
  | .stackTrained stack => Sys2Proof.Machine.execStackTrained stack s
  | .startTestPassed => Sys2Proof.Machine.execStartTestPassed s
  | .coldReset => Sys2Proof.Machine.execColdReset s
  | .maintenanceReset failed => Sys2Proof.Machine.execMaintenanceReset failed s
  | .mgmtMarkFailed stack failed => Sys2Proof.Machine.execMgmtMarkFailed stack failed s
  | .mgmtSetThreshold stack n => Sys2Proof.Machine.execMgmtSetThreshold stack n s
  | .mgmtSetDevid id => Sys2Proof.Machine.execMgmtSetDevid id s
  | .linkFlitRetry link => Sys2Proof.Machine.execLinkFlitRetry link s
  | .laneFailure link => Sys2Proof.Machine.execLaneFailure link s
  | .linkFailure link => Sys2Proof.Machine.execLinkFailure link s
  | .hostCxlMemAccess off write len => Sys2Proof.Machine.execHostCxlMemAccess off write len s
  | .backInvalidationAck line => Sys2Proof.Machine.execBackInvalidationAck line s
  | .peerAccess off write len => Sys2Proof.Machine.execPeerAccess off write len s
  | .slewTick => Sys2Proof.Machine.execSlewTick s
  | .staggerWrite v => Sys2Proof.Machine.execStaggerWrite v s
  | .staggerArrival k w => Sys2Proof.Machine.execStaggerArrival k w s
  | .staggerHoldEnd => Sys2Proof.Machine.execStaggerHoldEnd s
  | .loadWordArrival core slot id => Sys2Proof.Machine.execLoadWordArrival core slot id s
  | .stackTrainingFailed stack => Sys2Proof.Machine.execStackTrainingFailed stack s
  | .svpoolWrite ctx v => Sys2Proof.Machine.execSvpoolWrite ctx v s
  | .counterCarry core n => Sys2Proof.Machine.execCounterCarry core n s

end Sys2Proof.Machine
end

