-- ==== Sys2Proof/Machine/Events.lean ====
section
/-! DEFINITION. Running an event, and running a decoded word, each by its meaning. -/

namespace Sys2Proof.Machine

/-- Runs an event: the meaning that its arm of `exec` calls. -/
def runEvent (e : Event) (s : State) : Host.Outcome State Fault Refusal :=
  match e with
  | .spinTimeout core slot => execSpinTimeout core slot s
  | .spinWake core slot => execSpinWake core slot s
  | .wtvWake core slot => execWtvWake core slot s
  | .getPutElementLand core n => execGetPutElementLand core n s
  | .mergeComplete core => execMergeComplete core s
  | .waggleWindow => execWaggleWindow s
  | .scEffect => execScEffect s
  | .spawnAnswer core slot accepted => execSpawnAnswer core slot accepted s
  | .versionRecordsFreed ctx n => execVersionRecordsFreed ctx n s
  | .orderedSignatureCheck core slot => execOrderedSignatureCheck core slot s
  | .horizonWindow ctx group => execHorizonWindow ctx group s
  | .gsyncArrival ctx group core hdr => execGsyncArrival ctx group core hdr s
  | .nodeCacheRefill ctx core => execNodeCacheRefill ctx core s
  | .stealRequest thief slot victim => execStealRequest thief slot victim s
  | .stealReply thief slot victim taken => execStealReply thief slot victim taken s
  | .entryRelease ctx core => execEntryRelease ctx core s
  | .vectorCommandComplete core => execVectorCommandComplete core s
  | .mmvStreamFault core => execMmvStreamFault core s
  | .matrixCommandRetire core => execMatrixCommandRetire core s
  | .engineCommandAccept core e => execEngineCommandAccept core e s
  | .engineCommandStart core e => execEngineCommandStart core e s
  | .copyBeatLand core n => execCopyBeatLand core n s
  | .bucketLink l => execBucketLink l s
  | .summaryUpdate ctx va isMax key => execSummaryUpdate ctx va isMax key s
  | .atomicApply u => execAtomicApply u s
  | .atomicReply core slot place w => execAtomicReply core slot place w s
  | .joinArrival u => execJoinArrival u s
  | .shareUpdate u => execShareUpdate u s
  | .keyPassApply ctx region holder => execKeyPassApply ctx region holder s
  | .meetDelivery m lo hi => execMeetDelivery m lo hi s
  | .hinge ctx x z => execHinge ctx x z s
  | .fuse ctx x1 x2 => execFuse ctx x1 x2 s
  | .fuse2 ctx x2 x1 y1 => execFuse2 ctx x2 x1 y1 s
  | .fuse3 ctx x1 y2 => execFuse3 ctx x1 y2 s
  | .join2 ctx t p e => execJoin2 ctx t p e s
  | .join1 ctx t p e => execJoin1 ctx t p e s
  | .fix ctx t p => execFix ctx t p s
  | .drain ctx x => execDrain ctx x s
  | .nfreeMessage ctx n => execNfreeMessage ctx n s
  | .messageArrival m => execMessageArrival m s
  | .messageBounce m => execMessageBounce m s
  | .bounceResend core => execBounceResend core s
  | .spillWake ctx core => execSpillWake ctx core s
  | .spawnSlotRequest parent slot m => execSpawnSlotRequest parent slot m s
  | .terminationAck core region => execTerminationAck core region s
  | .ageingPeriod ctx => execAgeingPeriod ctx s
  | .sliceExpiry ctx => execSliceExpiry ctx s
  | .runLimitExpiry ctx => execRunLimitExpiry ctx s
  | .contextSaved ctx => execContextSaved ctx s
  | .ctxresWrite v => execCtxresWrite v s
  | .sliceWrite ctx v => execSliceWrite ctx v s
  | .ageWrite ctx v => execAgeWrite ctx v s
  | .gtsyncWrite ctx v => execGtsyncWrite ctx v s
  | .grpWrite ctx core n v => execGrpWrite ctx core n v s
  | .quantumEnd ctx group core => execQuantumEnd ctx group core s
  | .quantumService ctx group hive => execQuantumService ctx group hive s
  | .doorbellWrite queue v => execDoorbellWrite queue v s
  | .queueAgeing queue => execQueueAgeing queue s
  | .launch queue => execLaunch queue s
  | .barrier queue => execBarrier queue s
  | .detlevel queue => execDetlevel queue s
  | .debug queue => execDebug queue s
  | .signal queue => execSignal queue s
  | .debugAttach ctx core w => execDebugAttach ctx core w s
  | .debugDetach ctx core w => execDebugDetach ctx core w s
  | .debugSetBreakpoint ctx core w => execDebugSetBreakpoint ctx core w s
  | .debugClearBreakpoint ctx core w => execDebugClearBreakpoint ctx core w s
  | .debugStop ctx core w => execDebugStop ctx core w s
  | .debugCopy ctx core w => execDebugCopy ctx core w s
  | .debugRelease ctx core w => execDebugRelease ctx core w s
  | .tlbWalkComplete core slot va => execTlbWalkComplete core slot va s
  | .invalidationMessage hive id => execInvalidationMessage hive id s
  | .invalidationDone hive id => execInvalidationDone hive id s
  | .memoryPortAccess core target addr write len => execMemoryPortAccess core target addr write len s
  | .versionRequest core slot id => execVersionRequest core slot id s
  | .versionWake core slot id => execVersionWake core slot id s
  | .versionReclaim ctx line => execVersionReclaim ctx line s
  | .vrsyncWrite ctx v => execVrsyncWrite ctx v s
  | .vhctlGrant ctx v => execVhctlGrant ctx v s
  | .vhctlRelease ctx v => execVhctlRelease ctx v s
  | .heapReleaseComplete ctx => execHeapReleaseComplete ctx s
  | .errorWindowExpiry stack count => execErrorWindowExpiry stack count s
  | .mgmtRetirementTrigger stack => execMgmtRetirementTrigger stack s
  | .mgmtWithdrawTrigger => execMgmtWithdrawTrigger s
  | .mretireAck => execMretireAck s
  | .stripMoveComplete => execStripMoveComplete s
  | .mapBroadcastReceived requester => execMapBroadcastReceived requester s
  | .retirementCommit => execRetirementCommit s
  | .retiredStackPowerDown stack => execRetiredStackPowerDown stack s
  | .stackLost stack => execStackLost stack s
  | .hbmRequestArrival r => execHbmRequestArrival r s
  | .replayIndication r => execReplayIndication r s
  | .uncorrectableError d source => execUncorrectableError d source s
  | .fringConsWrite hive v => execFringConsWrite hive v s
  | .frbaseEnable hive v => execFrbaseEnable hive v s
  | .ctxstResume ctx v => execCtxstResume ctx v s
  | .cmoveWrite ctx v => execCmoveWrite ctx v s
  | .saveAreaFreed ctx handle => execSaveAreaFreed ctx handle s
  | .rcentWrite ctx core v => execRcentWrite ctx core v s
  | .sperrClear ctx core v => execSperrClear ctx core v s
  | .powerGood => execPowerGood s
  | .hostLinkTrained => execHostLinkTrained s
  | .stackTrained stack => execStackTrained stack s
  | .startTestPassed => execStartTestPassed s
  | .coldReset => execColdReset s
  | .maintenanceReset failed => execMaintenanceReset failed s
  | .mgmtMarkFailed stack failed => execMgmtMarkFailed stack failed s
  | .mgmtSetThreshold stack n => execMgmtSetThreshold stack n s
  | .mgmtSetDevid id => execMgmtSetDevid id s
  | .linkFlitRetry link => execLinkFlitRetry link s
  | .laneFailure link => execLaneFailure link s
  | .linkFailure link => execLinkFailure link s
  | .hostCxlMemAccess off write len => execHostCxlMemAccess off write len s
  | .backInvalidationAck line => execBackInvalidationAck line s
  | .peerAccess off write len => execPeerAccess off write len s
  | .slewTick => execSlewTick s
  | .staggerWrite v => execStaggerWrite v s
  | .staggerArrival k w => execStaggerArrival k w s
  | .staggerHoldEnd => execStaggerHoldEnd s
  | .loadWordArrival core slot id => execLoadWordArrival core slot id s
  | .stackTrainingFailed stack => execStackTrainingFailed stack s
  | .svpoolWrite ctx v => execSvpoolWrite ctx v s
  | .counterCarry core n => execCounterCarry core n s

/-- Runs a decoded word: as `exec` runs the instruction it is. -/
def runDecoded (d : Decoded) (s : State) : Host.Outcome State Fault Refusal :=
  match d with
  | .std i => exec i s
  | .cpy x => execCpy x s
  | .cpyx2d x => execCpyx2d x s
  | .cpyx3d x => execCpyx3d x s
  | .cpyc x => execCpyc x s
  | .cfill x => execCfill x s
  | .gset gate cmd a b => execGset gate cmd a b s
  | .gadd gate a => execGadd gate a s
  | .gwt gate phase => execGwt gate phase s
  | .gpoll d gate => execGpoll d gate s
  | .pjld a g => execPjld a g s
  | .kst x => execKst x s
  | .qsig x => execQsig x s
  | .bgat x => execBgat x s
  | .bgatH1 x => execBgatH1 x s
  | .psum x => execPsum x s
  | .pbnd x => execPbnd x s
  | .pgatPg x => execPgatPg x s
  | .pgatTok x => execPgatTok x s

end Sys2Proof.Machine
end

