-- ==== Sys2Proof/Decode.lean ====
section
/-! DEFINITION. The decoder, total on any word and naming every cause of an illegal instruction (R146),
and the encoder, both from the word formats of R140 to R142 and the opcode map of R149. -/

namespace Sys2Proof

/-- Bits [lo + n − 1 : lo] of a word, as a number. -/
def bitsOf (w lo n : Nat) : Nat := w / 2 ^ lo % 2 ^ n

/-- The type with code `c` (R145). -/
def Ty.ofCode (c : Nat) : Ty :=
  match c with
  | 0 => .none | 1 => .i8 | 2 => .i16 | 3 => .i32 | 4 => .i64 | 5 => .n8 | 6 => .n16 | 7 => .n32
  | 8 => .n64 | 9 => .f16 | 10 => .bf16 | 11 => .f32 | 12 => .e4m3 | 13 => .e5m2 | _ => .q4x

/-- Rounding mode codes (R99, R127). -/
def RMode.code : RMode → Nat
  | .rne => 0 | .rtz => 1 | .rdn => 2 | .rup => 3

def RMode.ofCode (c : Nat) : RMode :=
  match c with
  | 0 => .rne | 1 => .rtz | 2 => .rdn | _ => .rup

/-- Hint codes (R144). -/
def Hint.code : Hint → Nat
  | .none => 0 | .taken => 1 | .notTaken => 2

def Hint.ofCode (c : Nat) : Hint :=
  match c with
  | 0 => .none | 1 => .taken | _ => .notTaken

/-- Specifier codes (R147). -/
def Opnd.code : Opnd → Nat
  | .g n => n.val
  | .q n => 64 + n.val
  | .link .n => 72 | .link .e => 73 | .link .s => 74 | .link .w => 75
  | .fifo .mres => 76 | .fifo .vres => 77 | .fifo .cres => 78 | .fifo .ares => 79
  | .special .tid => 80 | .special .cid => 81 | .special .hid => 82 | .special .ctx => 83
  | .special .slot => 84 | .special .cyc => 85 | .special .irc => 86

def Opnd.ofCode (c : Nat) : Opnd :=
  if c < 64 then .g (Fin.ofNat 64 c)
  else if c < 72 then .q (Fin.ofNat 8 (c - 64))
  else match c with
  | 72 => .link .n | 73 => .link .e | 74 => .link .s | 75 => .link .w
  | 76 => .fifo .mres | 77 => .fifo .vres | 78 => .fifo .cres | 79 => .fifo .ares
  | 80 => .special .tid | 81 => .special .cid | 82 => .special .hid | 83 => .special .ctx
  | 84 => .special .slot | 85 => .special .cyc | _ => .special .irc

/-- Tile field codes (R148). -/
def Tile.code (t : Tile) : Nat :=
  t.n.val + (match t.half with | .full => 0 | .lo => 16 | .hi => 32)

def Tile.ofCode (c : Nat) : Tile :=
  { n := Fin.ofNat 16 c
    half := match c / 16 with | 0 => .full | 1 => .lo | _ => .hi }

/-- Scope codes (R188). -/
def Scope.code : Scope → Nat
  | .core => 0 | .hive => 1 | .dev => 2

/-- The six formats (R141), and the gate instructions' own fields (R109). -/
inductive Fmt where
  | rr | ri | mem | br | eng | sys | gate
  deriving DecidableEq, Repr

/-- What a field may hold: zero, a destination or source specifier, g0 to g63, a pair g0 to g62, a queue,
a queue or g0, a vector register, an even one, a mask, a counter, a tile, or a literal (R147, R148). -/
inductive FieldKind where
  | zero | dst | src | greg | pair | queue | queueOrG0 | vreg | veven | mask | cc | tile | lit
  deriving DecidableEq, Repr

/-- Whether a field's value is legal for its kind. -/
def FieldKind.legal : FieldKind → Nat → Bool
  | .zero, v => v == 0
  | .dst, v => decide (v ≤ 75)
  | .src, v => decide (v ≤ 86)
  | .greg, v => decide (v ≤ 63)
  | .pair, v => decide (v ≤ 62)
  | .queue, v => decide (64 ≤ v) && decide (v ≤ 71)
  | .queueOrG0, v => v == 0 || (decide (64 ≤ v) && decide (v ≤ 71))
  | .vreg, v => decide (v ≤ 31)
  | .veven, v => decide (v ≤ 30) && v % 2 == 0
  | .mask, v => decide (v ≤ 7)
  | .cc, v => decide (v ≤ 15)
  | .tile, v => decide (v < 64) && v / 16 != 3
  | .lit, _ => true

/-- The cause-mask bits of R146: 0 OP, 1 FN, 2 zero field, 3 operand field, 4 other field. -/
def causeOp : Nat := 1
def causeFn : Nat := 2
def causeZero : Nat := 4
def causeOperand : Nat := 8
def causeOther : Nat := 16

/-- A cause when a check fails. -/
def unlessOk (ok : Bool) (cause : Nat) : Nat := if ok then 0 else cause

def FieldKind.cause (k : FieldKind) (v : Nat) : Nat :=
  unlessOk (k.legal v) (if k = .zero then causeZero else causeOperand)

/-- The fields of a word (R140, R141, R142), as numbers. -/
structure Fields where
  w : Nat
  fn : Nat
  d : Nat
  a : Nat
  b : Nat
  c : Nat
  deriving DecidableEq, Repr

def Fields.of (w : Nat) : Fields :=
  { w := w, fn := bitsOf w 50 6, d := bitsOf w 43 7, a := bitsOf w 36 7, b := bitsOf w 29 7
    c := bitsOf w 22 7 }

namespace Fields
variable (f : Fields)
/-- T of the RR, RI and MEM formats, and of an engine immediate. -/
def tRR : Nat := bitsOf f.w 18 4
def tRI : Nat := bitsOf f.w 32 4
def tMem : Nat := bitsOf f.w 22 4
def tEng : Nat := bitsOf f.w 5 4
def imm : Nat := bitsOf f.w 0 32
def scale : Nat := bitsOf f.w 26 3
def off : Nat := bitsOf f.w 0 22
def hint : Nat := bitsOf f.w 34 2
def num : Nat := bitsOf f.w 20 16
def gate : Nat := bitsOf f.w 16 6
def sig : Nat := bitsOf f.w 10 6
def wph : Nat := bitsOf f.w 9 1
def pred : Nat := bitsOf f.w 2 3
def x : Nat := bitsOf f.w 0 2
def low : Nat := bitsOf f.w 0 9
def imm16 : Nat := bitsOf f.w 0 16
/-- The bits of the format that are always zero (R141). -/
def zeroBits (f : Fields) : Fmt → Nat
  | .rr => bitsOf f.w 0 18
  | .br => bitsOf f.w 32 2
  | .sys => bitsOf f.w 0 20
  | _ => 0
def gates : Gates :=
  { wait := if f.gate = 63 then none else some (Fin.ofNat 32 f.gate, f.wph == 1)
    sig := if f.sig = 63 then none else some (Fin.ofNat 32 f.sig) }
/-- The gate fields of R142: gate and sig name 0 to 31 or 63 (R148), and wph is zero without a wait gate. -/
def gateCause : Nat :=
  unlessOk ((decide (f.gate ≤ 31) || f.gate == 63) && (decide (f.sig ≤ 31) || f.sig == 63)) causeOperand
    ||| unlessOk (f.gate != 63 || f.wph == 0) causeOther
def od : Opnd := .ofCode f.d
def oa : Opnd := .ofCode f.a
def ob : Opnd := .ofCode f.b
def oc : Opnd := .ofCode f.c
def gd : GReg := Fin.ofNat 64 f.d
def ga : GReg := Fin.ofNat 64 f.a
def gb : GReg := Fin.ofNat 64 f.b
def gc : GReg := Fin.ofNat 64 f.c
def vd : VReg := Fin.ofNat 32 f.d
def va : VReg := Fin.ofNat 32 f.a
def vb : VReg := Fin.ofNat 32 f.b
def vc : VReg := Fin.ofNat 32 f.c
def md : MReg := Fin.ofNat 8 f.d
def ma : MReg := Fin.ofNat 8 f.a
def mb : MReg := Fin.ofNat 8 f.b
def mc : MReg := Fin.ofNat 8 f.c
def td : Tile := .ofCode f.d
def ta : Tile := .ofCode f.a
def qd : Fin 8 := Fin.ofNat 8 (f.d - 64)
def fnBit : Bool := f.fn % 2 == 1
def mode : RMode := .ofCode f.x
def ty : Ty := .ofCode f.tEng
def p8 : Fin 8 := Fin.ofNat 8 f.pred
def off22 : BitVec 22 := BitVec.ofNat 22 f.off
def imm32 : BitVec 32 := BitVec.ofNat 32 f.imm
def r3 : R3 := { d := f.od, a := f.oa, b := f.ob, t := .ofCode f.tRR }
def r2 : R2 := { d := f.od, a := f.oa, t := .ofCode f.tRR }
def r4 : R4 := { d := f.od, a := f.oa, b := f.ob, c := f.oc, t := .ofCode f.tRR }
def ri : RI := { d := f.od, a := f.oa, t := .ofCode f.tRI, imm := f.imm32 }
def brArg : BrArg := { a := f.od, b := f.oa, hint := .ofCode f.hint, off := f.imm32 }
def memArg : MemArg :=
  { d := f.od, base := f.oa, index := f.ob, scale := Fin.ofNat 8 f.scale, t := .ofCode f.tMem
    off := f.off22 }
def pairArg : PairArg :=
  { d := f.gd, base := f.oa, index := f.ob, scale := Fin.ofNat 8 f.scale, off := f.off22 }
def gload : GLoad :=
  { q := f.qd, base := f.ga, index := f.gb, scale := Fin.ofNat 8 f.scale, t := .ofCode f.tMem
    off := f.off22 }
def gstore : GStore :=
  { d := f.gd, base := f.ga, index := f.gb, scale := Fin.ofNat 8 f.scale, t := .ofCode f.tMem
    off := f.off22 }
def amoArg : AmoArg := { a := f.ga, b := f.gb, c := f.gc, t := .ofCode f.tRR }
def vamoArg : VAmoArg := { m := f.md, a := f.ga, b := f.vb, c := f.vc, t := .ofCode f.tRR }
def wtvArg : WtvArg :=
  { q := if f.d = 0 then none else some f.qd, a := f.ga, b := f.gb, c := f.gc, t := .ofCode f.tRR }
def tlbiArg : TlbiArg :=
  { a := f.oa, b := f.ob
    scope := match f.fn % 4 with | 0 => .core | 1 => .hive | _ => .dev
    cc := Fin.ofNat 16 f.c }
def g3 : G3 := { a := f.ga, b := f.gb, c := f.gc }
def gd3 : GD3 := { d := f.gd, a := f.ga, b := f.gb, c := f.gc }
def v3 : V3 :=
  { d := f.vd, a := f.va, b := f.vb, sat := f.fnBit, t := f.ty, mode := f.mode, pred := f.p8
    gates := f.gates }
def v4 : V4 :=
  { d := f.vd, a := f.va, b := f.vb, c := f.vc, flag := f.fnBit, t := f.ty, mode := f.mode, pred := f.p8
    gates := f.gates }
def v2 : V2 :=
  { d := f.vd, a := f.va, sat := f.fnBit, t := f.ty, mode := f.mode, pred := f.p8, gates := f.gates }
def vcmpArg : VCmp :=
  { d := f.md, a := f.va, b := f.vb, t := f.ty, pred := f.p8, gates := f.gates }
def vmem : VMem :=
  { d := f.vd, a := f.ga, b := f.gb, sat := f.fnBit, t := f.ty, mode := f.mode, pred := f.p8
    gates := f.gates }
def vidx : VIdx := { d := f.vd, a := f.ga, b := f.vb, t := f.ty, pred := f.p8, gates := f.gates }
def vpk : VPk :=
  { d := f.vd, a := f.va, b := f.vb, sat := f.fnBit, l := f.x % 2 == 1, gates := f.gates }
def vlit : VLit :=
  { d := f.vd, a := f.va, b := f.vb, lit := Fin.ofNat 128 f.c, pred := f.p8, gates := f.gates }
def maskArg : MaskArg := { d := f.md, a := f.ma, b := f.mb, gates := f.gates }
def matT : Ty := .ofCode f.tEng
def bx : Bool := bitsOf f.w 4 1 == 1
def h : Bool := bitsOf f.w 3 1 == 1
def msat : Bool := bitsOf f.w 2 1 == 1
def mmul : MMul :=
  { d := f.td, a := f.ga, b := f.gb, c := f.gc, z := f.fn / 16 % 2 == 1, k := Fin.ofNat 16 f.fn, t := f.matT
    bx := f.bx, h := f.h, gates := f.gates }
def mmem : MMem :=
  { d := f.td, a := f.ga, b := f.gb, t := f.matT, sat := f.msat, mode := f.mode, gates := f.gates }
def mdir : MDir := { a := f.ga, t := f.matT, gates := f.gates }
def mscl : MScl :=
  { d := f.td, a := f.va, h := f.h, sat := f.msat, mode := f.mode, gates := f.gates }
def msclAll : MSclAll :=
  { d := f.td, a := f.ga, h := f.h, sat := f.msat, mode := f.mode, gates := f.gates }
def mrd : MRd := { d := f.vd, a := f.ta, i := Fin.ofNat 32 f.c, gates := f.gates }
def mrdEl : MRdEl := { a := f.ta, b := f.gb, h := f.h, gates := f.gates }
def dsp : Bool := bitsOf f.w 8 1 == 1
def ssp : Bool := bitsOf f.w 7 1 == 1
def op7 : Nat := bitsOf f.w 0 7
def copyArg : CopyArg :=
  { d := f.gd, a := f.ga, b := f.gb, c := f.gc, dsp := f.dsp, ssp := f.ssp, gates := f.gates }
def cpycArg : CpycArg :=
  { d := f.gd, a := f.ga, b := f.gb, dsp := f.dsp, ssp := f.ssp, sat := f.msat, mode := f.mode
    gates := f.gates }
def cfillArg : CfillArg :=
  { d := f.gd, a := f.ga, b := f.gb, dsp := f.dsp, lw := Fin.ofNat 4 f.x, gates := f.gates }
def attArg : AttArg := { d := f.gd, a := f.ga, b := f.gb, c := f.gc, gates := f.gates }
def psumArg : PsumArg :=
  { d := f.gd, a := f.ga, rows := Fin.ofNat 16 f.c, dcode := Fin.ofNat 3 f.x, gates := f.gates }
def pbndArg : PbndArg :=
  { half := Fin.ofNat 16 (f.d / 2), a := f.ga, b := f.gb, c := f.gc, dcode := Fin.ofNat 3 f.x
    gates := f.gates }
end Fields

/-- How one OP and FN uses its fields: the format, the kinds of D, A, B and C, the accepted T (none when
the format has no T or T is a zero field of the row), further causes, and the instruction. -/
structure Row where
  fmt : Fmt
  d : FieldKind
  a : FieldKind
  b : FieldKind
  c : FieldKind
  ts : Option Nat
  extra : Fields → Nat
  build : Fields → Decoded

/-- The T field of a word of format `fmt`. -/
def Fields.tOf (f : Fields) : Fmt → Nat
  | .rr => f.tRR
  | .ri => f.tRI
  | .mem => f.tMem
  | _ => f.tEng

/-- Every cause that a word of this row meets (R146). -/
def Row.cause (r : Row) (f : Fields) : Nat :=
  r.d.cause f.d ||| r.a.cause f.a
    ||| (if r.fmt = .rr ∨ r.fmt = .mem ∨ r.fmt = .eng then r.b.cause f.b else 0)
    ||| (if r.fmt = .rr ∨ r.fmt = .eng then r.c.cause f.c else 0)
    ||| (match r.ts with
         | some ts => unlessOk (Nat.testBit ts (f.tOf r.fmt)) causeOther
         | none => 0)
    ||| unlessOk (f.zeroBits r.fmt == 0) causeZero
    ||| (if r.fmt = .eng then f.gateCause else 0)
    ||| r.extra f

namespace Rows

def noExtra (_ : Fields) : Nat := 0

/-- RR words: D, A, B and C kinds, T. -/
def rr (d a b c : FieldKind) (ts : Nat) (mk : Fields → Instr) : Option Row :=
  some { fmt := .rr, d := d, a := a, b := b, c := c, ts := some ts, extra := noExtra
         build := fun f => .std (mk f) }

/-- RR words with a destination and two sources. -/
def rr3 (ts : Nat) (mk : R3 → Instr) : Option Row :=
  rr .dst .src .src .zero ts (fun f => mk f.r3)

def rr2 (ts : Nat) (mk : R2 → Instr) : Option Row :=
  rr .dst .src .zero .zero ts (fun f => mk f.r2)

def ops3 (mk : Opnd → Opnd → Opnd → Instr) (ts : Nat) : Option Row :=
  rr .dst .src .src .zero ts (fun f => mk f.od f.oa f.ob)

def ops2 (mk : Opnd → Opnd → Instr) (ts : Nat) : Option Row :=
  rr .dst .src .zero .zero ts (fun f => mk f.od f.oa)

def ri (ts : Nat) (mk : RI → Instr) : Option Row :=
  some { fmt := .ri, d := .dst, a := .src, b := .lit, c := .lit, ts := some ts, extra := noExtra
         build := fun f => .std (mk f.ri) }

/-- `shli`, `shri`, `srai`: IMM32 below the width (R166). -/
def riShift (mk : RI → Instr) : Option Row :=
  some { fmt := .ri, d := .dst, a := .src, b := .lit, c := .lit, ts := some tsInt
         extra := fun f => unlessOk (decide (f.imm < (Ty.ofCode f.tRI).width)) causeOther
         build := fun f => .std (mk f.ri) }

/-- RI words with T = 0 and further checks. -/
def ri0 (d a : FieldKind) (extra : Fields → Nat) (mk : Fields → Instr) : Option Row :=
  some { fmt := .ri, d := d, a := a, b := .lit, c := .lit, ts := some 1, extra := extra
         build := fun f => .std (mk f) }

/-- RI words whose T is a zero field. -/
def riZ (extra : Fields → Nat) (mk : Fields → Instr) : Option Row :=
  some { fmt := .ri, d := .zero, a := .zero, b := .lit, c := .lit, ts := none
         extra := fun f => unlessOk (f.tRI == 0) causeZero ||| extra f
         build := fun f => .std (mk f) }

def br (mk : BrArg → Instr) : Option Row :=
  some { fmt := .br, d := .src, a := .src, b := .lit, c := .lit, ts := none
         extra := fun f => unlessOk (f.hint != 3) causeOther
         build := fun f => .std (mk f.brArg) }

def br0 (d : FieldKind) (mk : Fields → Instr) : Option Row :=
  some { fmt := .br, d := d, a := .zero, b := .lit, c := .lit, ts := none
         extra := fun f => unlessOk (f.hint != 3) causeOther
         build := fun f => .std (mk f) }

/-- MEM words: the index g0 takes scale 0 (R143). -/
def mem (d a b : FieldKind) (ts : Nat) (mk : Fields → Instr) : Option Row :=
  some { fmt := .mem, d := d, a := a, b := b, c := .lit, ts := some ts
         extra := fun f => unlessOk (f.b != 0 || f.scale == 0) causeOther
         build := fun f => .std (mk f) }

/-- MEM words whose B is a version operand: the scale is 0 (R261). -/
def memV (d b : FieldKind) (mk : Fields → Instr) : Option Row :=
  some { fmt := .mem, d := d, a := .greg, b := b, c := .lit, ts := some tsMem
         extra := fun f => unlessOk (f.scale == 0) causeOther
         build := fun f => .std (mk f) }

def sysw (d a : FieldKind) (mk : Fields → Instr) : Option Row :=
  some { fmt := .sys, d := d, a := a, b := .lit, c := .lit, ts := none
         extra := fun f => unlessOk (sysregNumbers.contains f.num) causeOther
         build := fun f => .std (mk f) }

/-- Atomics (R274): C is a zero field but for `cas`. -/
def amo (fn : AFn) (mk : AmoArg → Instr) : Option Row :=
  rr .zero .greg .greg (if fn = .cas then .greg else .zero) fn.types (fun f => mk f.amoArg)

def vamo (fn : AFn) (mk : VAmoArg → Instr) : Option Row :=
  rr .mask .greg .vreg .vreg fn.types (fun f => mk f.vamoArg)

/-- Engine words whose instruction `Decoded` holds itself. -/
def engD (d a b c : FieldKind) (extra : Fields → Nat) (mk : Fields → Decoded) : Option Row :=
  some { fmt := .eng, d := d, a := a, b := b, c := c, ts := none, extra := extra, build := mk }

/-- Engine words. -/
def eng (d a b c : FieldKind) (ts : Option Nat) (extra : Fields → Nat) (mk : Fields → Instr) :
    Option Row :=
  some { fmt := .eng, d := d, a := a, b := b, c := c, ts := ts, extra := extra
         build := fun f => .std (mk f) }

/-- The predicate field: none, any, or only under T ≠ 0 (R193). -/
def predNone (f : Fields) : Nat := unlessOk (f.pred == 0) causeZero
def predT (f : Fields) : Nat := unlessOk (f.pred == 0 || f.tEng != 0) causeOther

/-- The x field: zero, or a rounding mode for float types (R199). -/
def xZero (f : Fields) : Nat := unlessOk (f.x == 0) causeZero
def xFloat (f : Fields) : Nat :=
  unlessOk (f.x == 0 || Nat.testBit tsFloat f.tEng) causeZero

/-- FN of a row where FN[0] alone may be set, and of a row that takes FN 0. -/
def fn1 (f : Fields) : Nat := unlessOk (decide (f.fn ≤ 1)) causeFn
def fn0 (f : Fields) : Nat := unlessOk (f.fn == 0) causeFn

def v3sat (mk : V3 → Instr) : Option Row :=
  eng .vreg .vreg .vreg .zero (some tsArith) (fun f => fn1 f ||| xFloat f) (fun f => mk f.v3)

def v3 (ts : Nat) (mk : V3 → Instr) : Option Row :=
  eng .vreg .vreg .vreg .zero (some ts) (fun f => fn0 f ||| xZero f ||| predT f) (fun f => mk f.v3)

def v4 (mk : V4 → Instr) : Option Row :=
  eng .vreg .vreg .vreg .vreg (some tsArith) (fun f => fn1 f ||| xFloat f) (fun f => mk f.v4)

/-- Reductions with an optional accumulator: C is a zero field when FN[0] is 0 (R199). -/
def vacc (b : FieldKind) (ts : Nat) (mk : V4 → Instr) : Option Row :=
  eng .vreg .vreg b .lit (some ts)
    (fun f => fn1 f ||| xFloat f
      ||| (if f.fn % 2 = 0 then FieldKind.zero.cause f.c else FieldKind.vreg.cause f.c)) (fun f => mk f.v4)

def v2 (ts : Nat) (mk : V2 → Instr) : Option Row :=
  eng .vreg .vreg .zero .zero (some ts) (fun f => fn0 f ||| xZero f ||| predT f) (fun f => mk f.v2)

/-- `vabs`, `vneg`: sat must be 0 for the float types. -/
def v2abs (mk : V2 → Instr) : Option Row :=
  eng .vreg .vreg .zero .zero (some tsArith)
    (fun f => fn1 f ||| xZero f ||| unlessOk (f.fn == 0 || !Nat.testBit tsFloat f.tEng) causeFn)
    (fun f => mk f.v2)

def v2math (mk : V2 → Instr) : Option Row :=
  eng .vreg .vreg .zero .zero (some tsFloat) fn1 (fun f => mk f.v2)

def vcmp (mk : VCmp → Instr) : Option Row :=
  eng .mask .vreg .vreg .zero (some tsCmp) xZero (fun f => mk f.vcmpArg)

def vmem (ts : Nat) (mk : VMem → Instr) : Option Row :=
  eng .vreg .greg .greg .zero (some ts) (fun f => fn0 f ||| xZero f ||| predT f) (fun f => mk f.vmem)

def vidx (mk : VIdx → Instr) : Option Row :=
  eng .vreg .greg .vreg .zero (some tsCmp) (fun f => fn0 f ||| xZero f) (fun f => mk f.vidx)

/-- Mask commands: T, pred and x are zero. -/
def mask (d a b : FieldKind) (extra : Fields → Nat) (mk : MaskArg → Instr) : Option Row :=
  eng d a b .zero (some 1) (fun f => xZero f ||| predNone f ||| extra f) (fun f => mk f.maskArg)

/-- The rest of the vector immediate: pred and x zero. -/
def noPredX (f : Fields) : Nat := xZero f ||| predNone f

/-- Matrix products (R219, R220): sat and mode are zero fields. -/
def mmulCause (f : Fields) : Nat :=
  unlessOk (bitsOf f.w 0 3 == 0) causeZero
    ||| unlessOk (if Nat.testBit 0x600 f.tEng then f.td.half != .full || !f.h
          else Nat.testBit 0x7000 f.tEng && !f.h) causeOther
    ||| unlessOk (!f.bx || Nat.testBit 0x3000 f.tEng) causeOther

def mscl (a : FieldKind) (mk : Fields → Instr) : Option Row :=
  eng .tile a .zero .zero none
    (fun f => unlessOk (f.tEng == 0 && !f.bx) causeZero
      ||| unlessOk (!f.h || f.td.half != .full) causeOther) mk

def mrdRow (mk : MRd → Instr) : Option Row :=
  eng .vreg .tile .zero .lit none
    (fun f => unlessOk (f.low == 0 && decide (f.c ≤ 31)) causeZero) (fun f => mk f.mrd)

/-- Attention commands: immediate bits [8:2] zero, and [1:0] where they carry no dcode (R259). -/
def att (d a b c : FieldKind) (extra : Fields → Nat) (mk : Fields → Decoded) : Option Row :=
  engD d a b c (fun f => unlessOk (f.low == 0) causeZero ||| extra f) mk

def attD (d a b c : FieldKind) (extra : Fields → Nat) (mk : Fields → Decoded) : Option Row :=
  engD d a b c
    (fun f => unlessOk (f.low / 4 == 0) causeZero ||| unlessOk (f.x != 3) causeOther ||| extra f) mk

/-- Gate instructions (R109): a gate of 0 to 31; the immediate is zero but for the phase of `gwt`. -/
def gatew (d a b : FieldKind) (allowed : Nat) (mk : Fields → Decoded) : Option Row :=
  some { fmt := .gate, d := d, a := a, b := .lit, c := .lit, ts := none
         extra := fun f => b.cause f.b ||| unlessOk (f.c == 0) causeZero
           ||| unlessOk (decide (f.gate ≤ 31)) causeOperand
           ||| unlessOk (f.imm16 == 0 || f.imm16 == allowed) causeZero
         build := mk }

/-- OP 0x01 to 0x06: integer words (R163, R165). -/
def int (op fn : Nat) : Option Row :=
  match op, fn with
  | 0x01, 0 => rr3 tsInt .add | 0x01, 1 => rr3 tsInt .sub | 0x01, 2 => rr3 tsInt .mul
  | 0x01, 3 => rr3 tsSigned .mulh | 0x01, 4 => rr3 tsUnsigned .mulhn | 0x01, 5 => rr3 tsSigned .div
  | 0x01, 6 => rr3 tsUnsigned .divn | 0x01, 7 => rr3 tsSigned .rem | 0x01, 8 => rr3 tsUnsigned .remn
  | 0x02, 0 => rr3 tsInt .and | 0x02, 1 => rr3 tsInt .or | 0x02, 2 => rr3 tsInt .xor
  | 0x02, 3 => rr3 tsInt .andn | 0x02, 4 => rr3 tsInt .orn
  | 0x03, 0 => rr3 tsInt .shl | 0x03, 1 => rr3 tsInt .shr | 0x03, 2 => rr3 tsInt .sra
  | 0x03, 3 => rr3 tsInt .rol | 0x03, 4 => rr3 tsInt .ror
  | 0x04, 0 => rr3 tsSigned .min | 0x04, 1 => rr3 tsSigned .max | 0x04, 2 => rr3 tsUnsigned .minn
  | 0x04, 3 => rr3 tsUnsigned .maxn | 0x04, 4 => rr2 tsSigned .abs
  | 0x05, 0 => rr2 tsInt .clz | 0x05, 1 => rr2 tsInt .ctz | 0x05, 2 => rr2 tsInt .popc
  | 0x05, 3 => rr3 tsInt .bext
  | 0x05, 4 => rr .dst .src .src .src tsInt (fun f => .bins f.r4)
  | 0x05, 5 => rr2 tsSigned .sext | 0x05, 6 => rr2 tsUnsigned .zext
  | 0x06, 0 => rr3 tsInt .seq | 0x06, 1 => rr3 tsInt .sne | 0x06, 2 => rr3 tsSigned .slt
  | 0x06, 3 => rr3 tsSigned .sle | 0x06, 4 => rr3 tsUnsigned .sltn | 0x06, 5 => rr3 tsUnsigned .slen
  | 0x06, 6 => rr .dst .src .src .src 1 (fun f => .sel f.od f.oa f.ob f.oc)
  | _, _ => none

/-- OP 0x08 to 0x17: immediates, constants and fat pointers (R166 to R168). -/
def imms (op fn : Nat) : Option Row :=
  match op, fn with
  | 0x08, 0 => ri tsInt .addi | 0x09, 0 => ri tsInt .andi | 0x0A, 0 => ri tsInt .ori
  | 0x0B, 0 => ri tsInt .xori | 0x0C, 0 => riShift .shli | 0x0D, 0 => riShift .shri
  | 0x0E, 0 => riShift .srai | 0x0F, 0 => ri tsSigned .slti | 0x10, 0 => ri tsUnsigned .sltni
  | 0x11, 0 => ri0 .dst .zero noExtra (fun f => .li f.od f.imm32)
  | 0x12, 0 => ri0 .dst .src noExtra (fun f => .lih f.od f.oa f.imm32)
  | 0x14, 0 => ops3 .padd 1 | 0x15, 0 => ops3 .pfmt 1 | 0x16, 0 => ops2 .pget 1
  | 0x17, 0 => ops2 .pstrip 1
  | _, _ => none

/-- OP 0x20 to 0x24: scalar float (R169 to R171). -/
def floats (op fn : Nat) : Option Row :=
  match op with
  | 0x20 =>
    match fn with
    | 0 => ops3 .fadd 0x800 | 1 => ops3 .fsub 0x800 | 2 => ops3 .fmul 0x800 | 3 => ops3 .fmin 0x800
    | 4 => ops3 .fmax 0x800 | 5 => ops3 .fsgn 0x800 | _ => none
  | 0x21 =>
    some { fmt := .rr, d := .dst, a := .src, b := .src, c := .src, ts := some 0x800
           extra := fun f => unlessOk (decide (f.fn < 4)) (causeFn ||| causeZero)
           build := fun f => .std (.ffma f.od f.oa f.ob f.oc (.ofCode (f.fn % 4))) }
  | 0x22 =>
    match fn with
    | 0 => ops3 .feq 0x800 | 1 => ops3 .flt 0x800 | 2 => ops3 .fle 0x800 | _ => none
  | 0x23 =>
    some { fmt := .rr, d := .dst, a := .src, b := .zero, c := .zero, ts := some 0x37FE
           extra := fun f => unlessOk (decide (f.fn < 16)) (causeFn ||| causeZero)
             ||| unlessOk (f.fn / 4 % 4 != 3) causeFn
           build := fun f => .std (.fcvt f.od f.oa (.ofCode f.tRR) (f.fn / 8 % 2 == 1)
             (f.fn / 4 % 2 == 1) (.ofCode (f.fn % 4))) }
  | 0x24 => if fn = 0 then ops2 .fcls 0x800 else none
  | _ => none

/-- OP 0x28 to 0x2D: control words (R172 to R177). -/
def control (op fn : Nat) : Option Row :=
  match op, fn with
  | 0x28, 0 => br .beq | 0x28, 1 => br .bne | 0x28, 2 => br .blt | 0x28, 3 => br .bge
  | 0x28, 4 => br .bltn | 0x28, 5 => br .bgen
  | 0x29, 0 => br0 .zero (fun f => .jmp (.ofCode f.hint) f.imm32)
  | 0x29, 1 => br0 .dst (fun f => .jal f.od (.ofCode f.hint) f.imm32)
  | 0x2A, 0 => ops2 .jr 1
  | 0x2B, 0 =>
    ri0 .zero .src (fun f => unlessOk (bitsOf f.w 12 20 == 0) causeZero
        ||| unlessOk (bitsOf f.w 0 12 != 0) causeOther)
      (fun f => .loopReg f.oa (BitVec.ofNat 12 (bitsOf f.w 0 12)))
  | 0x2B, 1 =>
    ri0 .zero .zero (fun f => unlessOk (bitsOf f.w 0 12 != 0) causeOther)
      (fun f => .loopImm (BitVec.ofNat 20 (bitsOf f.w 12 20)) (BitVec.ofNat 12 (bitsOf f.w 0 12)))
  | 0x2C, 0 => riZ noExtra (fun f => .blk f.imm32)
  | 0x2D, 0 =>
    some { fmt := .rr, d := .zero, a := .zero, b := .zero, c := .zero, ts := none
           extra := fun f => unlessOk (f.tRR == 0) causeZero
           build := fun _ => .std .nop }
  | _, _ => none

/-- OP 0x30 to 0x3F: scratchpad, tag table, system (R178 to R191). -/
def system (op fn : Nat) : Option Row :=
  match op, fn with
  | 0x30, 0 => mem .dst .src .src tsMem (fun f => .ld f.memArg)
  | 0x31, 0 => mem .src .src .src tsMem (fun f => .st f.memArg)
  | 0x32, 0 => mem .pair .src .src 1 (fun f => .ldp f.pairArg)
  | 0x33, 0 => mem .pair .src .src 1 (fun f => .stp f.pairArg)
  | 0x34, 0 => ops2 .ltag 1
  | 0x35, 0 => rr .zero .src .src .zero 1 (fun f => .tset f.oa f.ob)
  | 0x36, 0 => rr .zero .src .zero .zero 1 (fun f => .tclr f.oa)
  | 0x38, 0 => riZ (fun f => unlessOk (bitsOf f.w 16 16 == 0) causeZero)
      (fun f => .trap (BitVec.ofNat 16 f.imm))
  | 0x3A, 0 => rr .zero .src .zero .zero 1 (fun f => .eretRetry f.oa)
  | 0x3A, 1 => rr .zero .src .zero .zero 1 (fun f => .eretNext f.oa)
  | 0x3A, 2 => rr .zero .src .zero .zero 1 (fun f => .eretKill f.oa)
  | 0x3B, 0 => sysw .dst .zero (fun f => .gsr f.od (BitVec.ofNat 16 f.num))
  | 0x3C, 0 => sysw .zero .src (fun f => .ssr (BitVec.ofNat 16 f.num) f.oa)
  | 0x3E, 0 => rr .zero .src .zero .zero 1 (fun f => .dbgb f.oa)
  | 0x3F, 0 => ops3 .dump 1
  | 0x3F, 1 => ops3 .pctlRead 1
  | _, _ => none

/-- `sys` (R185): the function stands in IMM32. -/
def sysFn (fn imm : Nat) : Option Row :=
  if fn ≠ 0 then none
  else match imm with
  | 0 => ri0 .zero .src noExtra (fun f => .sysResume f.oa)
  | 1 => ri0 .zero .src noExtra (fun f => .sysKill f.oa)
  | 2 => ri0 .dst .src noExtra (fun f => .sysState f.od f.oa)
  | _ => ri0 .dst .src (fun _ => causeOther) (fun f => .sysState f.od f.oa)

/-- `tlbi` (R188): FN[1:0] scope, FN[3:2] kind, FN[5:4] a zero field. -/
def tlbi (fn : Nat) : Option Row :=
  let kind := fn / 4 % 4
  let row (a b : FieldKind) (mk : TlbiArg → Instr) : Option Row :=
    some { fmt := .rr, d := .zero, a := a, b := b, c := if fn % 4 = 2 then .cc else .zero, ts := some 1
           extra := fun f => unlessOk (decide (f.fn < 16)) (causeFn ||| causeZero)
             ||| unlessOk (fn % 4 != 3 && kind != 3) causeFn
           build := fun f => .std (mk f.tlbiArg) }
  match kind with
  | 0 => row .src .src .tlbiPage
  | 1 => row .zero .src .tlbiCtx
  | 2 => row .zero .zero .tlbiAll
  | _ => row .lit .lit .tlbiAll

/-- OP 0x40 to 0x5E: global memory, atomics, synchronisation (R261). -/
def glob (op fn : Nat) : Option Row :=
  match op, fn with
  | 0x40, 0 => mem .queue .greg .greg tsMem (fun f => .ldg f.gload)
  | 0x41, 0 => mem .greg .greg .greg tsMem (fun f => .stg f.gstore)
  | 0x42, 0 => rr .queueOrG0 .greg .greg .greg 0x180 (fun f => .wtvEq f.wtvArg)
  | 0x42, 1 => rr .queueOrG0 .greg .greg .greg 0x180 (fun f => .wtvNe f.wtvArg)
  | 0x43, 0 => mem .zero .greg .greg 1 (fun f => .pref f.ga f.gb (Fin.ofNat 8 f.scale) f.off22)
  | 0x44, 0 => memV .queue .greg (fun f => .ldvEq f.qd f.ga f.gb (.ofCode f.tMem) f.off22)
  | 0x44, 1 => memV .queue .greg (fun f => .ldvLe f.qd f.ga f.gb (.ofCode f.tMem) f.off22)
  | 0x45, 0 => memV .greg .zero (fun f => .stv f.gd f.ga (.ofCode f.tMem) f.off22)
  | 0x45, 1 => memV .greg .greg (fun f => .stvAt f.gd f.ga f.gb (.ofCode f.tMem) f.off22)
  | 0x46, 0 => rr .zero .greg .greg .zero 1 (fun f => .vfloor f.ga f.gb)
  | 0x47, 0 => rr .zero .greg .zero .zero 1 (fun f => .vclose f.ga)
  | 0x48, 0 => rr .greg .greg .greg .greg 1 (fun f => .get f.gd3)
  | 0x49, 0 => rr .greg .greg .greg .greg 1 (fun f => .put f.gd3)
  | 0x4A, 0 => rr .cc .greg .zero .zero 1 (fun f => .ccset (Fin.ofNat 16 f.d) f.ga)
  | 0x4B, 0 => rr .cc .zero .zero .zero 1 (fun f => .ccwait (Fin.ofNat 16 f.d))
  | 0x50, 0 => amo .add .amoAdd | 0x50, 1 => amo .fadd .amoFadd | 0x50, 2 => amo .min .amoMin
  | 0x50, 3 => amo .max .amoMax | 0x50, 4 => amo .and .amoAnd | 0x50, 5 => amo .or .amoOr
  | 0x50, 6 => amo .xor .amoXor | 0x50, 7 => amo .swap .amoSwap | 0x50, 8 => amo .cas .amoCas
  | 0x50, 16 => amo .add .amoNrAdd | 0x50, 17 => amo .fadd .amoNrFadd | 0x50, 18 => amo .min .amoNrMin
  | 0x50, 19 => amo .max .amoNrMax | 0x50, 20 => amo .and .amoNrAnd | 0x50, 21 => amo .or .amoNrOr
  | 0x50, 22 => amo .xor .amoNrXor | 0x50, 23 => amo .swap .amoNrSwap
  | 0x51, 0 => vamo .add .vamoAdd | 0x51, 1 => vamo .fadd .vamoFadd | 0x51, 2 => vamo .min .vamoMin
  | 0x51, 3 => vamo .max .vamoMax | 0x51, 4 => vamo .and .vamoAnd | 0x51, 5 => vamo .or .vamoOr
  | 0x51, 6 => vamo .xor .vamoXor | 0x51, 7 => vamo .swap .vamoSwap
  | 0x52, 0 => rr .zero .greg .greg .greg 1 (fun f => .logp f.g3)
  | 0x53, 0 => rr .greg .zero .zero .zero 1 (fun f => .mrg f.gd)
  | 0x54, 0 => rr .zero .zero .zero .zero 1 (fun _ => .fenceH)
  | 0x54, 1 => rr .zero .zero .zero .zero 1 (fun _ => .fenceD)
  | 0x54, 2 => rr .zero .zero .zero .zero 1 (fun _ => .fenceS)
  | 0x55, 0 => rr .zero .greg .greg .greg 1 (fun f => .jset f.g3)
  | 0x56, 0 => rr .zero .greg .zero .zero 1 (fun f => .arr f.ga)
  | 0x57, 0 => rr .zero .greg .greg .zero 1 (fun f => .kpass f.ga f.gb)
  | 0x58, 0 => rr .greg .greg .zero .zero 1 (fun f => .kqry f.gd f.ga)
  | 0x59, 0 => rr .zero .greg .greg .zero 1 (fun f => .lkel f.ga f.gb)
  | 0x5A, 0 => rr .zero .zero .zero .zero 1 (fun _ => .lkex)
  | 0x5B, 0 => rr .zero .greg .zero .zero 1 (fun f => .lkab f.ga)
  | 0x5C, 0 => mem .greg .greg .greg tsSc (fun f => .scst f.gstore)
  | 0x5D, 0 => mem .queue .greg .greg tsSc (fun f => .scld f.gload)
  | 0x5E, 0 => amo .add .scamoAdd | 0x5E, 1 => amo .fadd .scamoFadd | 0x5E, 2 => amo .min .scamoMin
  | 0x5E, 3 => amo .max .scamoMax | 0x5E, 4 => amo .and .scamoAnd | 0x5E, 5 => amo .or .scamoOr
  | 0x5E, 6 => amo .xor .scamoXor | 0x5E, 7 => amo .swap .scamoSwap | 0x5E, 8 => amo .cas .scamoCas
  | _, _ => none

/-- OP 0x60 to 0x6D: tasks, messages, nets, deque (R341). -/
def task (op fn : Nat) : Option Row :=
  match op, fn with
  | 0x60, 0 => rr .zero .greg .greg .zero 1 (fun f => .send f.ga f.gb)
  | 0x60, 1 => rr .zero .greg .greg .greg 1 (fun f => .sendo f.ga f.gb f.gc)
  | 0x61, 0 => rr .greg .greg .greg .greg 1 (fun f => .spawn f.gd3)
  | 0x62, 0 => rr .zero .zero .zero .zero 1 (fun _ => .done)
  | 0x63, 0 => rr .greg .greg .greg .zero 1 (fun f => .tagen f.gd f.ga f.gb)
  | 0x63, 1 => rr .greg .zero .zero .zero 1 (fun f => .tagp f.gd)
  | 0x64, 0 => rr .zero .greg .greg .greg 1 (fun f => .tsset f.g3)
  | 0x65, 0 => rr .zero .greg .greg .zero 1 (fun f => .gsync f.ga f.gb)
  | 0x66, 0 => rr .greg .greg .zero .zero 1 (fun f => .nalloc f.gd f.ga)
  | 0x66, 1 => rr .zero .greg .zero .zero 1 (fun f => .nfree f.ga)
  | 0x67, 0 => rr .zero .greg .greg .zero 1 (fun f => .rlk f.ga f.gb)
  | 0x67, 1 => rr .zero .greg .greg .zero 1 (fun f => .rfuse f.ga f.gb)
  | 0x68, 0 => rr .zero .greg .greg .zero 1 (fun f => .meet f.ga f.gb)
  | 0x69, 0 => rr .zero .greg .zero .zero 1 (fun f => .tshr f.ga)
  | 0x69, 1 => rr .zero .greg .zero .zero 1 (fun f => .tdrop f.ga)
  | 0x69, 2 => rr .zero .greg .zero .zero 1 (fun f => .tseal f.ga)
  | 0x6A, 0 => rr .greg .greg .greg .zero 1 (fun f => .dpush f.gd f.ga f.gb)
  | 0x6A, 1 => rr .pair .zero .zero .zero 1 (fun f => .dpop f.gd)
  | 0x6B, 0 => rr .pair .zero .zero .zero 1 (fun f => .dsplit f.gd)
  | 0x6C, 0 => rr .pair .greg .zero .zero 1 (fun f => .dsteal f.gd f.ga)
  | 0x6D, 0 => rr .greg .zero .zero .zero 1 (fun f => .dlen f.gd)
  | _, _ => none

/-- OP 0x80 to 0xAD: the vector engine (R199). -/
def vec (op fn : Nat) : Option Row :=
  match op with
  | 0x80 => v3sat .vadd | 0x81 => v3sat .vsub | 0x82 => v3sat .vmul
  | 0x83 => v4 .vfma | 0x84 => v4 .vfms
  | 0x85 => v3 tsArith .vmin | 0x86 => v3 tsArith .vmax
  | 0x87 => v2abs .vabs | 0x88 => v2abs .vneg
  | 0x89 => v2math .vrcp | 0x8A => v2math .vrsq | 0x8B => v2math .vexp | 0x8C => v2math .vtanh
  | 0x8D =>
    eng .vreg .vreg .zero .lit (some tsData)
      (fun f => unlessOk (f.fn % 4 == 0) (causeFn ||| causeZero) ||| unlessOk (Nat.testBit tsData (f.fn / 4)) causeFn
        ||| unlessOk (decide (f.c < 16)) causeZero
        ||| (if Nat.testBit tsData (f.fn / 4) && Nat.testBit tsData f.tEng then
              let sS := Wf.esize (.ofCode (f.fn / 4))
              let sT := Wf.esize f.ty
              unlessOk (decide (f.c / 2 % 8 < Nat.max sS sT / Nat.min sS sT)) causeOther
            else 0))
      (fun f => .vcvt { d := f.vd, a := f.va, src := .ofCode (f.fn / 4), part := Fin.ofNat 8 (f.c / 2)
                        sat := f.c % 2 == 1, t := f.ty, mode := f.mode, pred := f.p8, gates := f.gates })
  | 0x8E => v3 tsLogic .vand | 0x8F => v3 tsLogic .vor | 0x90 => v3 tsLogic .vxor
  | 0x91 => v3 tsInt .vshl | 0x92 => v3 tsInt .vshr | 0x93 => v3 tsInt .vsra
  | 0x94 =>
    match fn with
    | 0 => vcmp .vcmpEq | 1 => vcmp .vcmpNe | 2 => vcmp .vcmpLt | 3 => vcmp .vcmpLe | _ => none
  | 0x95 =>
    eng .vreg .vreg .vreg .mask (some tsData) (fun f => fn0 f ||| noPredX f)
      (fun f => .vsel { d := f.vd, a := f.va, b := f.vb, m := f.mc, t := f.ty, gates := f.gates })
  | 0x96 =>
    match fn with
    | 0 => v2 tsMem .vmov
    | 1 => eng .mask .greg .zero .zero (some 1) noPredX
        (fun f => .vmovGm { d := f.md, a := f.ga, gates := f.gates })
    | 2 => mask .mask .mask .zero noExtra .vmovMm
    | 3 => mask .zero .mask .zero noExtra .vmovMq
    | _ => none
  | 0x97 =>
    eng .vreg .greg .zero .zero (some tsData) (fun f => fn0 f ||| xZero f)
      (fun f => .vbcast { d := f.vd, a := f.ga, t := f.ty, pred := f.p8, gates := f.gates })
  | 0x98 =>
    eng .zero .vreg .zero .lit (some tsData)
      (fun f => fn0 f ||| noPredX f
        ||| (if Nat.testBit tsData f.tEng then
              unlessOk (decide (f.c < 128 / Wf.esize f.ty)) causeOther else 0))
      (fun f => .vext { a := f.va, index := Fin.ofNat 128 f.c, t := f.ty, gates := f.gates })
  | 0x99 => vmem tsMem .vld | 0x9A => vmem tsMem .vst
  | 0x9B => vidx .vldx | 0x9C => vidx .vstx
  | 0x9D => eng .vreg .greg .greg .zero (some tsFloat) fn0 (fun f => .vldf f.vmem)
  | 0x9E => eng .vreg .greg .greg .zero (some tsFloat) fn1 (fun f => .vstf f.vmem)
  | 0x9F =>
    eng .vreg .vreg .vreg .zero (some 0x4000)
      (fun f => fn1 f ||| predNone f ||| unlessOk (decide (f.x ≤ 1)) causeOther) (fun f => .vpack f.vpk)
  | 0xA0 =>
    eng .vreg .vreg .zero .zero (some 0x800)
      (fun f => fn0 f ||| predNone f ||| unlessOk (decide (f.x ≤ 1)) causeOther) (fun f => .vunpk f.vpk)
  | 0xA1 => vacc .zero tsSum .vredsum
  | 0xA2 => v2 tsArith .vredmax | 0xA3 => v2 tsArith .vredmin
  | 0xA4 => vacc .vreg tsDot .vdot
  | 0xA5 => v3 tsData .vperm
  | 0xA6 =>
    eng .vreg .vreg .greg .zero (some tsData) (fun f => fn0 f ||| xZero f)
      (fun f => .vrot { d := f.vd, a := f.va, b := f.gb, t := f.ty, pred := f.p8, gates := f.gates })
  | 0xA7 =>
    eng .veven .vreg .vreg .lit (some 0x800)
      (fun f => fn0 f ||| xZero f ||| unlessOk (decide (1 ≤ f.c) && decide (f.c ≤ 32)) causeOther)
      (fun f => .vtopk f.vlit)
  | 0xA8 =>
    eng .vreg .vreg .zero .lit (some 0x400)
      (fun f => fn0 f ||| xZero f ||| unlessOk (decide (f.c < 16)) causeZero) (fun f => .vsig f.vlit)
  | 0xA9 => mask .mask .mask .mask fn0 .mand | 0xAA => mask .mask .mask .mask fn0 .mor
  | 0xAB => mask .mask .mask .zero fn0 .mnot
  | 0xAC => mask .zero .mask .zero fn0 .mpop | 0xAD => mask .zero .mask .zero fn0 .mfirst
  | _ => none

/-- OP 0xC0 to 0xC8: the matrix engine (R220). -/
def mat (op fn : Nat) : Option Row :=
  match op with
  | 0xC0 => eng .tile .zero .zero .zero none (fun f => fn0 f ||| unlessOk (f.low == 0) causeZero)
      (fun f => .mmz f.td f.gates)
  | 0xC1 => eng .tile .greg .greg .greg none
      (fun f => mmulCause f ||| unlessOk (decide (f.fn < 32)) causeFn) (fun f => .mma f.mmul)
  | 0xC2 =>
    eng .tile .greg .greg .zero none
      (fun f => fn0 f ||| unlessOk (bitsOf f.w 0 5 == 0) causeZero
        ||| unlessOk (Nat.testBit (if f.td.half = .full then 0xE00 else 0x600) f.tEng) causeOther)
      (fun f => .mld f.mmem)
  | 0xC3 =>
    eng .tile .greg .greg .zero none
      (fun f => fn0 f ||| unlessOk (bitsOf f.w 3 2 == 0) causeZero
        ||| unlessOk (Nat.testBit (if f.td.half = .full then 0x3E00 else 0x600) f.tEng) causeOther
        ||| unlessOk (bitsOf f.w 0 3 == 0 || (f.tEng != 11 && f.td.half == .full)) causeOther)
      (fun f => .mst f.mmem)
  | 0xC4 => eng .tile .greg .greg .greg none
      (fun f => mmulCause f ||| unlessOk (f.fn == 0 || f.fn == 16) causeFn) (fun f => .mmv f.mmul)
  | 0xC5 => eng .tile .greg .greg .greg none
      (fun f => mmulCause f ||| unlessOk (decide (f.fn < 32)) causeFn) (fun f => .msp f.mmul)
  | 0xC6 =>
    eng .zero .greg .zero .zero (some tsMat)
      (fun f => fn1 f ||| unlessOk (bitsOf f.w 0 5 == 0) causeZero)
      (fun f => if fn = 1 then .mdirPush f.mdir else .mdir f.mdir)
  | 0xC7 =>
    match fn with
    | 0 => mscl .vreg (fun f => .msclRow f.mscl)
    | 1 => mscl .vreg (fun f => .msclCol f.mscl)
    | 2 => mscl .greg (fun f => .msclAll f.msclAll)
    | _ => none
  | 0xC8 =>
    match fn with
    | 0 => mrdRow .mrdRow
    | 1 => mrdRow .mrdCol
    | 2 =>
      eng .zero .tile .greg .zero none
        (fun f => unlessOk (bitsOf f.w 4 5 == 0 && bitsOf f.w 0 3 == 0) causeZero
          ||| unlessOk (!f.h || f.ta.half != .full) causeOther)
        (fun f => .mrdEl f.mrdEl)
    | _ => none
  | _ => none

/-- OP 0xE0 to 0xEB: copy commands and gates (R99, R109). -/
def copy (op fn : Nat) : Option Row :=
  match op, fn with
  | 0xE0, 0 => engD .greg .greg .greg .zero (fun f => unlessOk (f.op7 == 0) causeZero)
      (fun f => .cpy f.copyArg)
  | 0xE1, 0 => engD .greg .greg .greg .greg (fun f => unlessOk (f.op7 == 0) causeZero)
      (fun f => .cpyx2d f.copyArg)
  | 0xE1, 1 => engD .greg .greg .greg .pair (fun f => unlessOk (f.op7 == 0) causeZero)
      (fun f => .cpyx3d f.copyArg)
  | 0xE2, 0 => engD .greg .greg .greg .zero (fun f => unlessOk (decide (f.op7 < 8)) causeZero)
      (fun f => .cpyc f.cpycArg)
  | 0xE3, 0 => engD .greg .greg .greg .zero
      (fun f => unlessOk (decide (f.op7 < 4) && !f.ssp) causeZero) (fun f => .cfill f.cfillArg)
  | 0xE8, 0 => gatew .zero .greg .greg 0 (fun f => .gset (Fin.ofNat 32 f.gate) false f.ga f.gb)
  | 0xE8, 1 => gatew .zero .greg .greg 0 (fun f => .gset (Fin.ofNat 32 f.gate) true f.ga f.gb)
  | 0xE9, 0 => gatew .zero .greg .zero 0 (fun f => .gadd (Fin.ofNat 32 f.gate) f.ga)
  | 0xEA, 0 => gatew .zero .zero .zero 0x200 (fun f => .gwt (Fin.ofNat 32 f.gate) (f.imm16 != 0))
  | 0xEB, 0 => gatew .greg .zero .zero 0 (fun f => .gpoll f.gd (Fin.ofNat 32 f.gate))
  | _, _ => none

/-- OP 0xF0 to 0xF6: attention (R259). -/
def attn (op fn : Nat) : Option Row :=
  match op, fn with
  | 0xF0, 0 => att .zero .greg .zero .zero noExtra (fun f => .pjld f.ga f.gates)
  | 0xF1, 0 => att .zero .greg .greg .greg noExtra (fun f => .kst f.attArg)
  | 0xF2, 0 => att .zero .greg .greg .zero noExtra (fun f => .qsig f.attArg)
  | 0xF3, 0 => att .greg .greg .greg .zero (fun f => unlessOk (f.gate == 63) causeOther)
      (fun f => .bgat f.attArg)
  | 0xF3, 1 => att .greg .greg .greg .zero (fun f => unlessOk (f.gate == 63) causeOther)
      (fun f => .bgatH1 f.attArg)
  | 0xF4, 0 => attD .greg .greg .zero .lit (fun f => unlessOk (decide (f.c < 16)) causeOther)
      (fun f => .psum f.psumArg)
  | 0xF5, 0 => attD .veven .greg .greg .greg noExtra (fun f => .pbnd f.pbndArg)
  | 0xF6, 0 => att .greg .greg .greg .greg noExtra (fun f => .pgatPg f.attArg)
  | 0xF6, 1 => att .greg .greg .greg .greg noExtra (fun f => .pgatTok f.attArg)
  | _, _ => none

end Rows

/-- The row of an OP and FN (R149). -/
def rowOf (op fn imm : Nat) : Option Row :=
  if op < 0x08 then Rows.int op fn
  else if op < 0x18 then Rows.imms op fn
  else if op < 0x28 then Rows.floats op fn
  else if op < 0x30 then Rows.control op fn
  else if op = 0x39 then Rows.sysFn fn imm
  else if op = 0x3D then Rows.tlbi fn
  else if op < 0x40 then Rows.system op fn
  else if op < 0x60 then Rows.glob op fn
  else if op < 0x70 then Rows.task op fn
  else if op < 0xC0 then Rows.vec op fn
  else if op < 0xE0 then Rows.mat op fn
  else if op < 0xF0 then Rows.copy op fn
  else Rows.attn op fn

/-- The format of an assigned OP, none for an unassigned one (R149). -/
def opFormat (op : Nat) : Option Fmt :=
  if op = 0 ∨ op = 7 ∨ op = 0x13 ∨ (0x18 ≤ op ∧ op ≤ 0x1F) ∨ (0x25 ≤ op ∧ op ≤ 0x27) then none
  else if op < 8 then some .rr
  else if op < 0x14 then some .ri
  else if op < 0x28 then some .rr
  else if op = 0x28 ∨ op = 0x29 then some .br
  else if op = 0x2A ∨ op = 0x2D then some .rr
  else if op = 0x2B ∨ op = 0x2C then some .ri
  else if op < 0x30 ∨ op = 0x37 then none
  else if op < 0x34 then some .mem
  else if op < 0x37 then some .rr
  else if op < 0x3A then some .ri
  else if op = 0x3B ∨ op = 0x3C then some .sys
  else if op < 0x40 then some .rr
  else if 0x4C ≤ op ∧ op ≤ 0x4F ∨ op = 0x5F ∨ (0x6E ≤ op ∧ op ≤ 0x7F) then none
  else if op = 0x40 ∨ op = 0x41 ∨ (0x43 ≤ op ∧ op ≤ 0x45) ∨ op = 0x5C ∨ op = 0x5D then some .mem
  else if op < 0x80 then some .rr
  else if (0xAE ≤ op ∧ op ≤ 0xBF) ∨ (0xC9 ≤ op ∧ op ≤ 0xDF) ∨ (0xE4 ≤ op ∧ op ≤ 0xE7)
      ∨ (0xEC ≤ op ∧ op ≤ 0xEF) ∨ 0xF7 ≤ op then none
  else some .eng

/-- The bits of FN that an atomic keeps zero: FN[5], and FN[4] but in `amo` (R274). -/
def fnZeroBits (op : Nat) (f : Fields) : Nat :=
  if op = 0x50 then f.fn / 32 else if op = 0x51 ∨ op = 0x5E then f.fn / 16 else 0

/-- The causes of a word whose OP or FN R149 does not assign. Beside an unassigned FN, the fields that
the format alone fixes are judged: its zero bits, a T of 15, a hint of 3 (DEDUCED, log 6); and the zero bits
within the FN of an atomic (R274). -/
def unassignedCause (op : Nat) (f : Fields) : Nat :=
  match opFormat op with
  | none => causeOp
  | some fmt =>
    causeFn ||| unlessOk (fnZeroBits op f == 0) causeZero ||| unlessOk (f.zeroBits fmt == 0) causeZero
      ||| (if fmt = .rr ∨ fmt = .ri ∨ fmt = .mem then unlessOk (f.tOf fmt != 15) causeOther else 0)
      ||| (if fmt = .br then unlessOk (f.hint != 3) causeOther else 0)

/-- Decodes one 64-bit word: what it stands for, or the cause mask of the illegal-instruction fault
(R146). -/
def decodeWord (w : Nat) : Except Nat Decoded :=
  let f := Fields.of w
  let op := bitsOf w 56 8
  match rowOf op f.fn f.imm with
  | none => .error (unassignedCause op f)
  | some r =>
    let bad := r.cause f
    if bad = 0 then .ok (r.build f) else .error bad

/-- Decodes one 64-bit word: an instruction, or the cause mask (R146). -/
noncomputable def decode (w : Nat) : Except Nat Instr :=
  match decodeWord w with
  | .ok x => .ok x.toInstr
  | .error e => .error e

/-- The little-endian number of a byte list (R12). -/
def leNat : List Byte → Nat
  | [] => 0
  | b :: rest => b.toNat + 256 * leNat rest

/-- Decoding a byte stream: the instruction and the rest, or the cause; none when fewer than eight bytes
remain. -/
noncomputable def decodeBytes (bs : List Byte) : Option (Except Nat (Instr × List Byte)) :=
  if bs.length < 8 then none
  else
    match decode (leNat (bs.take 8)) with
    | .ok i => some (.ok (i, bs.drop 8))
    | .error e => some (.error e)

/-- What the decoder reads from a table word: every word is 64 bits (R140), and a shorter row's upper
bits are zero. -/
noncomputable def decodeTableWord (nbits w : Nat) : Option Instr :=
  match decode (w % 2 ^ Nat.min nbits 64) with
  | .ok i => some i
  | .error _ => none

/-! ### The encoder -/

namespace Enc

/-- Bits [63:36] of every word (R140). -/
def head (op fn d a : Nat) : Nat := op * 2 ^ 56 + fn * 2 ^ 50 + d * 2 ^ 43 + a * 2 ^ 36

def rr (op fn d a b c t : Nat) : Nat := head op fn d a + b * 2 ^ 29 + c * 2 ^ 22 + t * 2 ^ 18
def ri (op fn d a t imm : Nat) : Nat := head op fn d a + t * 2 ^ 32 + imm
def mem (op fn d a b scale t off : Nat) : Nat :=
  head op fn d a + b * 2 ^ 29 + scale * 2 ^ 26 + t * 2 ^ 22 + off
def br (op fn d a hint off : Nat) : Nat := head op fn d a + hint * 2 ^ 34 + off
def sys (op d a num : Nat) : Nat := head op 0 d a + num * 2 ^ 20
def gateNum (g : Gates) : Nat := match g.wait with | none => 63 | some (n, _) => n.val
def sigNum (g : Gates) : Nat := match g.sig with | none => 63 | some n => n.val
def wph (g : Gates) : Nat := match g.wait with | some (_, true) => 1 | _ => 0
/-- An engine word: `low` is immediate bits [8:0]. -/
def eng (op fn d a b c : Nat) (g : Gates) (low : Nat) : Nat :=
  head op fn d a + b * 2 ^ 29 + c * 2 ^ 22 + gateNum g * 2 ^ 16 + sigNum g * 2 ^ 10 + wph g * 2 ^ 9 + low
/-- A gate instruction: the gate in [21:16], the immediate in [15:0]. -/
def gatew (op fn d a b gate imm : Nat) : Nat := head op fn d a + b * 2 ^ 29 + gate * 2 ^ 16 + imm
def bit (b : Bool) : Nat := if b then 1 else 0
def low (t pred x : Nat) : Nat := t * 2 ^ 5 + pred * 2 ^ 2 + x

def r3 (op fn : Nat) (x : R3) : Option Nat := some (rr op fn x.d.code x.a.code x.b.code 0 x.t.code)
def r2 (op fn : Nat) (x : R2) : Option Nat := some (rr op fn x.d.code x.a.code 0 0 x.t.code)
def riw (op : Nat) (x : RI) : Option Nat := some (ri op 0 x.d.code x.a.code x.t.code x.imm.toNat)
def o3 (op fn t : Nat) (d a b : Opnd) : Option Nat := some (rr op fn d.code a.code b.code 0 t)
def o2 (op fn t : Nat) (d a : Opnd) : Option Nat := some (rr op fn d.code a.code 0 0 t)
def brw (fn : Nat) (x : BrArg) : Option Nat :=
  some (br 0x28 fn x.a.code x.b.code x.hint.code x.off.toNat)
def memw (op : Nat) (x : MemArg) : Option Nat :=
  some (mem op 0 x.d.code x.base.code x.index.code x.scale.val x.t.code x.off.toNat)
def pairw (op : Nat) (x : PairArg) : Option Nat :=
  some (mem op 0 x.d.val x.base.code x.index.code x.scale.val 0 x.off.toNat)
def gloadw (op : Nat) (x : GLoad) : Option Nat :=
  some (mem op 0 (64 + x.q.val) x.base.val x.index.val x.scale.val x.t.code x.off.toNat)
def gstorew (op : Nat) (x : GStore) : Option Nat :=
  some (mem op 0 x.d.val x.base.val x.index.val x.scale.val x.t.code x.off.toNat)
def amow (op fn : Nat) (x : AmoArg) : Option Nat :=
  some (rr op fn 0 x.a.val x.b.val x.c.val x.t.code)
def vamow (fn : Nat) (x : VAmoArg) : Option Nat :=
  some (rr 0x51 fn x.m.val x.a.val x.b.val x.c.val x.t.code)
def wtvw (fn : Nat) (x : WtvArg) : Option Nat :=
  some (rr 0x42 fn (match x.q with | none => 0 | some q => 64 + q.val) x.a.val x.b.val x.c.val x.t.code)
def tlbiw (kind : Nat) (x : TlbiArg) : Option Nat :=
  some (rr 0x3D (kind * 4 + x.scope.code) 0 x.a.code x.b.code x.cc.val 0)
def gw (op fn d a b c : Nat) : Option Nat := some (rr op fn d a b c 0)
def v3 (op : Nat) (x : V3) : Option Nat :=
  some (eng op (bit x.sat) x.d.val x.a.val x.b.val 0 x.gates (low x.t.code x.pred.val x.mode.code))
def v4 (op : Nat) (x : V4) : Option Nat :=
  some (eng op (bit x.flag) x.d.val x.a.val x.b.val x.c.val x.gates
    (low x.t.code x.pred.val x.mode.code))
def v2 (op fn : Nat) (x : V2) : Option Nat :=
  some (eng op (fn + bit x.sat) x.d.val x.a.val 0 0 x.gates (low x.t.code x.pred.val x.mode.code))
def vcmp (fn : Nat) (x : VCmp) : Option Nat :=
  some (eng 0x94 fn x.d.val x.a.val x.b.val 0 x.gates (low x.t.code x.pred.val 0))
def vmem (op : Nat) (x : VMem) : Option Nat :=
  some (eng op (bit x.sat) x.d.val x.a.val x.b.val 0 x.gates (low x.t.code x.pred.val x.mode.code))
def vidx (op : Nat) (x : VIdx) : Option Nat :=
  some (eng op 0 x.d.val x.a.val x.b.val 0 x.gates (low x.t.code x.pred.val 0))
def maskw (op fn : Nat) (x : MaskArg) : Option Nat :=
  some (eng op fn x.d.val x.a.val x.b.val 0 x.gates 0)
def vlit (op t : Nat) (x : VLit) : Option Nat :=
  some (eng op 0 x.d.val x.a.val x.b.val x.lit.val x.gates (low t x.pred.val 0))
def mlow (t : Ty) (bx h sat : Bool) (m : RMode) : Nat :=
  t.code * 2 ^ 5 + bit bx * 2 ^ 4 + bit h * 2 ^ 3 + bit sat * 2 ^ 2 + m.code
def mmul (op : Nat) (x : MMul) : Option Nat :=
  some (eng op (bit x.z * 16 + x.k.val) x.d.code x.a.val x.b.val x.c.val x.gates
    (mlow x.t x.bx x.h false .rne))
def mmem (op : Nat) (x : MMem) : Option Nat :=
  some (eng op 0 x.d.code x.a.val x.b.val 0 x.gates (mlow x.t false false x.sat x.mode))
def spaces (d s : Bool) (op : Nat) : Nat := bit d * 2 ^ 8 + bit s * 2 ^ 7 + op
def att (op fn : Nat) (x : AttArg) : Option Nat :=
  some (eng op fn x.d.val x.a.val x.b.val x.c.val x.gates 0)

end Enc

/-- The word of an instruction (R140 to R142, R149); none for an event. `pctlClear` and `pctlProgram` share
`pctlRead`'s word: their operation stands in a register (R191), so the decoder answers `pctlRead`. -/
def encode : Instr → Option Nat
  | .add x => Enc.r3 0x01 0 x | .sub x => Enc.r3 0x01 1 x | .mul x => Enc.r3 0x01 2 x
  | .mulh x => Enc.r3 0x01 3 x | .mulhn x => Enc.r3 0x01 4 x | .div x => Enc.r3 0x01 5 x
  | .divn x => Enc.r3 0x01 6 x | .rem x => Enc.r3 0x01 7 x | .remn x => Enc.r3 0x01 8 x
  | .and x => Enc.r3 0x02 0 x | .or x => Enc.r3 0x02 1 x | .xor x => Enc.r3 0x02 2 x
  | .andn x => Enc.r3 0x02 3 x | .orn x => Enc.r3 0x02 4 x
  | .shl x => Enc.r3 0x03 0 x | .shr x => Enc.r3 0x03 1 x | .sra x => Enc.r3 0x03 2 x
  | .rol x => Enc.r3 0x03 3 x | .ror x => Enc.r3 0x03 4 x
  | .min x => Enc.r3 0x04 0 x | .max x => Enc.r3 0x04 1 x | .minn x => Enc.r3 0x04 2 x
  | .maxn x => Enc.r3 0x04 3 x | .abs x => Enc.r2 0x04 4 x
  | .clz x => Enc.r2 0x05 0 x | .ctz x => Enc.r2 0x05 1 x | .popc x => Enc.r2 0x05 2 x
  | .bext x => Enc.r3 0x05 3 x
  | .bins x => some (Enc.rr 0x05 4 x.d.code x.a.code x.b.code x.c.code x.t.code)
  | .sext x => Enc.r2 0x05 5 x | .zext x => Enc.r2 0x05 6 x
  | .seq x => Enc.r3 0x06 0 x | .sne x => Enc.r3 0x06 1 x | .slt x => Enc.r3 0x06 2 x
  | .sle x => Enc.r3 0x06 3 x | .sltn x => Enc.r3 0x06 4 x | .slen x => Enc.r3 0x06 5 x
  | .sel d a b c => some (Enc.rr 0x06 6 d.code a.code b.code c.code 0)
  | .addi x => Enc.riw 0x08 x | .andi x => Enc.riw 0x09 x | .ori x => Enc.riw 0x0A x
  | .xori x => Enc.riw 0x0B x | .shli x => Enc.riw 0x0C x | .shri x => Enc.riw 0x0D x
  | .srai x => Enc.riw 0x0E x | .slti x => Enc.riw 0x0F x | .sltni x => Enc.riw 0x10 x
  | .li d imm => some (Enc.ri 0x11 0 d.code 0 0 imm.toNat)
  | .lih d a imm => some (Enc.ri 0x12 0 d.code a.code 0 imm.toNat)
  | .padd d a b => Enc.o3 0x14 0 0 d a b | .pfmt d a b => Enc.o3 0x15 0 0 d a b
  | .pget d a => Enc.o2 0x16 0 0 d a | .pstrip d a => Enc.o2 0x17 0 0 d a
  | .fadd d a b => Enc.o3 0x20 0 11 d a b | .fsub d a b => Enc.o3 0x20 1 11 d a b
  | .fmul d a b => Enc.o3 0x20 2 11 d a b | .fmin d a b => Enc.o3 0x20 3 11 d a b
  | .fmax d a b => Enc.o3 0x20 4 11 d a b | .fsgn d a b => Enc.o3 0x20 5 11 d a b
  | .ffma d a b c m => some (Enc.rr 0x21 m.code d.code a.code b.code c.code 11)
  | .feq d a b => Enc.o3 0x22 0 11 d a b | .flt d a b => Enc.o3 0x22 1 11 d a b
  | .fle d a b => Enc.o3 0x22 2 11 d a b
  | .fcvt d a t toF32 sat m =>
    some (Enc.rr 0x23 (Enc.bit toF32 * 8 + Enc.bit sat * 4 + m.code) d.code a.code 0 0 t.code)
  | .fcls d a => Enc.o2 0x24 0 11 d a
  | .beq x => Enc.brw 0 x | .bne x => Enc.brw 1 x | .blt x => Enc.brw 2 x | .bge x => Enc.brw 3 x
  | .bltn x => Enc.brw 4 x | .bgen x => Enc.brw 5 x
  | .jmp h off => some (Enc.br 0x29 0 0 0 h.code off.toNat)
  | .jal d h off => some (Enc.br 0x29 1 d.code 0 h.code off.toNat)
  | .jr d a => Enc.o2 0x2A 0 0 d a
  | .loopReg a n => some (Enc.ri 0x2B 0 0 a.code 0 n.toNat)
  | .loopImm count n => some (Enc.ri 0x2B 1 0 0 0 (count.toNat * 2 ^ 12 + n.toNat))
  | .blk sig => some (Enc.ri 0x2C 0 0 0 0 sig.toNat)
  | .nop => some (Enc.rr 0x2D 0 0 0 0 0 0)
  | .ld x => Enc.memw 0x30 x | .st x => Enc.memw 0x31 x
  | .ldp x => Enc.pairw 0x32 x | .stp x => Enc.pairw 0x33 x
  | .ltag d a => Enc.o2 0x34 0 0 d a
  | .tset a b => some (Enc.rr 0x35 0 0 a.code b.code 0 0)
  | .tclr a => some (Enc.rr 0x36 0 0 a.code 0 0 0)
  | .trap code => some (Enc.ri 0x38 0 0 0 0 code.toNat)
  | .sysResume a => some (Enc.ri 0x39 0 0 a.code 0 0)
  | .sysKill a => some (Enc.ri 0x39 0 0 a.code 0 1)
  | .sysState d a => some (Enc.ri 0x39 0 d.code a.code 0 2)
  | .eretRetry a => some (Enc.rr 0x3A 0 0 a.code 0 0 0)
  | .eretNext a => some (Enc.rr 0x3A 1 0 a.code 0 0 0)
  | .eretKill a => some (Enc.rr 0x3A 2 0 a.code 0 0 0)
  | .gsr d num => some (Enc.sys 0x3B d.code 0 num.toNat)
  | .ssr num a => some (Enc.sys 0x3C 0 a.code num.toNat)
  | .tlbiPage x => Enc.tlbiw 0 x | .tlbiCtx x => Enc.tlbiw 1 x | .tlbiAll x => Enc.tlbiw 2 x
  | .dbgb a => some (Enc.rr 0x3E 0 0 a.code 0 0 0)
  | .dump d a b => Enc.o3 0x3F 0 0 d a b
  | .pctlRead d a b => Enc.o3 0x3F 1 0 d a b
  | .ldg x => Enc.gloadw 0x40 x | .stg x => Enc.gstorew 0x41 x
  | .wtvEq x => Enc.wtvw 0 x | .wtvNe x => Enc.wtvw 1 x
  | .pref b i s off => some (Enc.mem 0x43 0 0 b.val i.val s.val 0 off.toNat)
  | .ldvEq q b v t off => some (Enc.mem 0x44 0 (64 + q.val) b.val v.val 0 t.code off.toNat)
  | .ldvLe q b v t off => some (Enc.mem 0x44 1 (64 + q.val) b.val v.val 0 t.code off.toNat)
  | .stv d b t off => some (Enc.mem 0x45 0 d.val b.val 0 0 t.code off.toNat)
  | .stvAt d b e t off => some (Enc.mem 0x45 1 d.val b.val e.val 0 t.code off.toNat)
  | .vfloor a b => Enc.gw 0x46 0 0 a.val b.val 0 | .vclose a => Enc.gw 0x47 0 0 a.val 0 0
  | .get x => Enc.gw 0x48 0 x.d.val x.a.val x.b.val x.c.val
  | .put x => Enc.gw 0x49 0 x.d.val x.a.val x.b.val x.c.val
  | .ccset c a => Enc.gw 0x4A 0 c.val a.val 0 0 | .ccwait c => Enc.gw 0x4B 0 c.val 0 0 0
  | .amoAdd x => Enc.amow 0x50 0 x | .amoFadd x => Enc.amow 0x50 1 x | .amoMin x => Enc.amow 0x50 2 x
  | .amoMax x => Enc.amow 0x50 3 x | .amoAnd x => Enc.amow 0x50 4 x | .amoOr x => Enc.amow 0x50 5 x
  | .amoXor x => Enc.amow 0x50 6 x | .amoSwap x => Enc.amow 0x50 7 x | .amoCas x => Enc.amow 0x50 8 x
  | .amoNrAdd x => Enc.amow 0x50 16 x | .amoNrFadd x => Enc.amow 0x50 17 x
  | .amoNrMin x => Enc.amow 0x50 18 x | .amoNrMax x => Enc.amow 0x50 19 x
  | .amoNrAnd x => Enc.amow 0x50 20 x | .amoNrOr x => Enc.amow 0x50 21 x
  | .amoNrXor x => Enc.amow 0x50 22 x | .amoNrSwap x => Enc.amow 0x50 23 x
  | .vamoAdd x => Enc.vamow 0 x | .vamoFadd x => Enc.vamow 1 x | .vamoMin x => Enc.vamow 2 x
  | .vamoMax x => Enc.vamow 3 x | .vamoAnd x => Enc.vamow 4 x | .vamoOr x => Enc.vamow 5 x
  | .vamoXor x => Enc.vamow 6 x | .vamoSwap x => Enc.vamow 7 x
  | .logp x => Enc.gw 0x52 0 0 x.a.val x.b.val x.c.val
  | .mrg d => Enc.gw 0x53 0 d.val 0 0 0
  | .fenceH => Enc.gw 0x54 0 0 0 0 0 | .fenceD => Enc.gw 0x54 1 0 0 0 0 | .fenceS => Enc.gw 0x54 2 0 0 0 0
  | .jset x => Enc.gw 0x55 0 0 x.a.val x.b.val x.c.val
  | .arr a => Enc.gw 0x56 0 0 a.val 0 0 | .kpass a b => Enc.gw 0x57 0 0 a.val b.val 0
  | .kqry d a => Enc.gw 0x58 0 d.val a.val 0 0 | .lkel a b => Enc.gw 0x59 0 0 a.val b.val 0
  | .lkex => Enc.gw 0x5A 0 0 0 0 0 | .lkab a => Enc.gw 0x5B 0 0 a.val 0 0
  | .scst x => Enc.gstorew 0x5C x | .scld x => Enc.gloadw 0x5D x
  | .scamoAdd x => Enc.amow 0x5E 0 x | .scamoFadd x => Enc.amow 0x5E 1 x
  | .scamoMin x => Enc.amow 0x5E 2 x | .scamoMax x => Enc.amow 0x5E 3 x
  | .scamoAnd x => Enc.amow 0x5E 4 x | .scamoOr x => Enc.amow 0x5E 5 x
  | .scamoXor x => Enc.amow 0x5E 6 x | .scamoSwap x => Enc.amow 0x5E 7 x
  | .scamoCas x => Enc.amow 0x5E 8 x
  | .send a b => Enc.gw 0x60 0 0 a.val b.val 0 | .sendo a b c => Enc.gw 0x60 1 0 a.val b.val c.val
  | .spawn x => Enc.gw 0x61 0 x.d.val x.a.val x.b.val x.c.val | .done => Enc.gw 0x62 0 0 0 0 0
  | .tagen d a b => Enc.gw 0x63 0 d.val a.val b.val 0 | .tagp d => Enc.gw 0x63 1 d.val 0 0 0
  | .tsset x => Enc.gw 0x64 0 0 x.a.val x.b.val x.c.val | .gsync a b => Enc.gw 0x65 0 0 a.val b.val 0
  | .nalloc d a => Enc.gw 0x66 0 d.val a.val 0 0 | .nfree a => Enc.gw 0x66 1 0 a.val 0 0
  | .rlk a b => Enc.gw 0x67 0 0 a.val b.val 0 | .rfuse a b => Enc.gw 0x67 1 0 a.val b.val 0
  | .meet a b => Enc.gw 0x68 0 0 a.val b.val 0
  | .tshr a => Enc.gw 0x69 0 0 a.val 0 0 | .tdrop a => Enc.gw 0x69 1 0 a.val 0 0
  | .tseal a => Enc.gw 0x69 2 0 a.val 0 0
  | .dpush d a b => Enc.gw 0x6A 0 d.val a.val b.val 0 | .dpop d => Enc.gw 0x6A 1 d.val 0 0 0
  | .dsplit d => Enc.gw 0x6B 0 d.val 0 0 0 | .dsteal d a => Enc.gw 0x6C 0 d.val a.val 0 0
  | .dlen d => Enc.gw 0x6D 0 d.val 0 0 0
  | .vadd x => Enc.v3 0x80 x | .vsub x => Enc.v3 0x81 x | .vmul x => Enc.v3 0x82 x
  | .vfma x => Enc.v4 0x83 x | .vfms x => Enc.v4 0x84 x | .vmin x => Enc.v3 0x85 x
  | .vmax x => Enc.v3 0x86 x | .vabs x => Enc.v2 0x87 0 x | .vneg x => Enc.v2 0x88 0 x
  | .vrcp x => Enc.v2 0x89 0 x | .vrsq x => Enc.v2 0x8A 0 x | .vexp x => Enc.v2 0x8B 0 x
  | .vtanh x => Enc.v2 0x8C 0 x
  | .vcvt x =>
    some (Enc.eng 0x8D (x.src.code * 4) x.d.val x.a.val 0 (x.part.val * 2 + Enc.bit x.sat) x.gates
      (Enc.low x.t.code x.pred.val x.mode.code))
  | .vand x => Enc.v3 0x8E x | .vor x => Enc.v3 0x8F x | .vxor x => Enc.v3 0x90 x
  | .vshl x => Enc.v3 0x91 x | .vshr x => Enc.v3 0x92 x | .vsra x => Enc.v3 0x93 x
  | .vcmpEq x => Enc.vcmp 0 x | .vcmpNe x => Enc.vcmp 1 x | .vcmpLt x => Enc.vcmp 2 x
  | .vcmpLe x => Enc.vcmp 3 x
  | .vsel x => some (Enc.eng 0x95 0 x.d.val x.a.val x.b.val x.m.val x.gates (Enc.low x.t.code 0 0))
  | .vmov x => Enc.v2 0x96 0 x
  | .vmovGm x => some (Enc.eng 0x96 1 x.d.val x.a.val 0 0 x.gates 0)
  | .vmovMm x => Enc.maskw 0x96 2 x | .vmovMq x => Enc.maskw 0x96 3 x
  | .vbcast x => some (Enc.eng 0x97 0 x.d.val x.a.val 0 0 x.gates (Enc.low x.t.code x.pred.val 0))
  | .vext x => some (Enc.eng 0x98 0 0 x.a.val 0 x.index.val x.gates (Enc.low x.t.code 0 0))
  | .vld x => Enc.vmem 0x99 x | .vst x => Enc.vmem 0x9A x | .vldx x => Enc.vidx 0x9B x
  | .vstx x => Enc.vidx 0x9C x | .vldf x => Enc.vmem 0x9D x | .vstf x => Enc.vmem 0x9E x
  | .vpack x =>
    some (Enc.eng 0x9F (Enc.bit x.sat) x.d.val x.a.val x.b.val 0 x.gates (Enc.low 14 0 (Enc.bit x.l)))
  | .vunpk x => some (Enc.eng 0xA0 0 x.d.val x.a.val 0 0 x.gates (Enc.low 11 0 (Enc.bit x.l)))
  | .vredsum x => Enc.v4 0xA1 x | .vredmax x => Enc.v2 0xA2 0 x | .vredmin x => Enc.v2 0xA3 0 x
  | .vdot x => Enc.v4 0xA4 x | .vperm x => Enc.v3 0xA5 x
  | .vrot x =>
    some (Enc.eng 0xA6 0 x.d.val x.a.val x.b.val 0 x.gates (Enc.low x.t.code x.pred.val 0))
  | .vtopk x => Enc.vlit 0xA7 11 x | .vsig x => Enc.vlit 0xA8 10 x
  | .mand x => Enc.maskw 0xA9 0 x | .mor x => Enc.maskw 0xAA 0 x | .mnot x => Enc.maskw 0xAB 0 x
  | .mpop x => Enc.maskw 0xAC 0 x | .mfirst x => Enc.maskw 0xAD 0 x
  | .mmz d g => some (Enc.eng 0xC0 0 d.code 0 0 0 g 0)
  | .mma x => Enc.mmul 0xC1 x | .mld x => Enc.mmem 0xC2 x | .mst x => Enc.mmem 0xC3 x
  | .mmv x => Enc.mmul 0xC4 x | .msp x => Enc.mmul 0xC5 x
  | .mdir x => some (Enc.eng 0xC6 0 0 x.a.val 0 0 x.gates (Enc.mlow x.t false false false .rne))
  | .mdirPush x => some (Enc.eng 0xC6 1 0 x.a.val 0 0 x.gates (Enc.mlow x.t false false false .rne))
  | .msclRow x => some (Enc.eng 0xC7 0 x.d.code x.a.val 0 0 x.gates (Enc.mlow .none false x.h x.sat x.mode))
  | .msclCol x => some (Enc.eng 0xC7 1 x.d.code x.a.val 0 0 x.gates (Enc.mlow .none false x.h x.sat x.mode))
  | .msclAll x => some (Enc.eng 0xC7 2 x.d.code x.a.val 0 0 x.gates (Enc.mlow .none false x.h x.sat x.mode))
  | .mrdRow x => some (Enc.eng 0xC8 0 x.d.val x.a.code 0 x.i.val x.gates 0)
  | .mrdCol x => some (Enc.eng 0xC8 1 x.d.val x.a.code 0 x.i.val x.gates 0)
  | .mrdEl x => some (Enc.eng 0xC8 2 0 x.a.code x.b.val 0 x.gates (Enc.mlow .none false x.h false .rne))
  | .cpy x => some (Enc.eng 0xE0 0 x.d.val x.a.val x.b.val x.c.val x.gates (Enc.spaces x.dsp x.ssp 0))
  | .cpyx2d x => some (Enc.eng 0xE1 0 x.d.val x.a.val x.b.val x.c.val x.gates (Enc.spaces x.dsp x.ssp 0))
  | .cpyx3d x => some (Enc.eng 0xE1 1 x.d.val x.a.val x.b.val x.c.val x.gates (Enc.spaces x.dsp x.ssp 0))
  | .cpyc x =>
    some (Enc.eng 0xE2 0 x.d.val x.a.val x.b.val 0 x.gates
      (Enc.spaces x.dsp x.ssp (Enc.bit x.sat * 4 + x.mode.code)))
  | .cfill x => some (Enc.eng 0xE3 0 x.d.val x.a.val x.b.val 0 x.gates (Enc.spaces x.dsp false x.lw.val))
  | .gset g cmd a b => some (Enc.gatew 0xE8 (Enc.bit cmd) 0 a.val b.val g.val 0)
  | .gadd g a => some (Enc.gatew 0xE9 0 0 a.val 0 g.val 0)
  | .gwt g p => some (Enc.gatew 0xEA 0 0 0 0 g.val (Enc.bit p * 0x200))
  | .gpoll d g => some (Enc.gatew 0xEB 0 d.val 0 0 g.val 0)
  | .pjld a g => some (Enc.eng 0xF0 0 0 a.val 0 0 g 0)
  | .kst x => Enc.att 0xF1 0 x | .qsig x => Enc.att 0xF2 0 x
  | .bgat x => Enc.att 0xF3 0 x | .bgatH1 x => Enc.att 0xF3 1 x
  | .psum x => some (Enc.eng 0xF4 0 x.d.val x.a.val 0 x.rows.val x.gates x.dcode.val)
  | .pbnd x => some (Enc.eng 0xF5 0 (x.half.val * 2) x.a.val x.b.val x.c.val x.gates x.dcode.val)
  | .pgatPg x => Enc.att 0xF6 0 x | .pgatTok x => Enc.att 0xF6 1 x
  | _ => none

end Sys2Proof
end

