-- ==== Sys2Proof/Machine/Fetch.lean ====
section
/-! DEFINITION. Whose turn it is, fetching a word, and how an outside loader places a program. -/

namespace Sys2Proof.Machine

open Sys2Proof.Machine.Num

/-- What a turn does when a core's scalar stream is to run its next word. -/
inductive Fetched where
  | idle (s : State)
  | word (d : Decoded) (s : State)
  | stop (s : State)

/-- A breakpoint stops the task before the word whose address matches, unless it was just released there
(R403); a debugger's stop request does the same at any word boundary (R402). -/
def Task.breaks (t : Task) (attached : Bool) : Bool := t.stopAsked || (attached && t.bps.contains t.pc && !t.bpPass)

/-- Stops a task for the debugger: it is saved with state 3 and an event goes to the ring (R403). -/
def State.debugStop (s : State) (k : Nat) : State :=
  let t := s.task k
  let s := s.modTask k (fun t => { t with stopAsked := false, bpPass := true })
  (s.beginSave k .debug).debugEvent t.ctx t.tid t.pc 0 0

/-- Whether a core's scalar stream may run: only hive 0 before stage D, and nothing before stage A (R412). -/
def State.released (s : State) (core : Nat) : Bool :=
  s.stage == 4 || (s.stage != 0 && hiveOf core == 0)

/-- The fetch of the running task's next word: translated as access kind 2 (R173), decoded; an illegal word
raises the illegal-instruction fault, which names the word and its cause mask (R146). -/
def fetch (c : Nat) (s : State) : Fetched :=
  let s := ({ s with focus := c }).select c
  match s.current with
  | none => .idle s
  | some k =>
    let t := s.task k
    if t.wait ≠ .none ∨ (t.super ∧ (s.hive (hiveOf c)).halted) ∨ !s.released c then .idle s
    else if t.breaks (s.ctx t.ctx).debugRing.isSome then .stop (s.debugStop k)
    else
      let (x, s') := s.translate c t.ctx t.pc t.super .fetch
      let bad := s.modTask k (fun t => { t with passed := none })
      match x with
      | .page cause level => .stop (bad.takeUpcall k 1 (pageRegs cause level t.pc 2 t.pc t.tid) 5)
      | .protection => .stop (bad.takeTrap k fProtection 0 0 [])
      | .translation => .stop (bad.takeTrap k fTranslation 0 0 [])
      | .migrating => .stop (s.finish k false (.park (.migrating t.pc)))
      | .ok pa _ =>
        if !s.paOk pa then .stop (bad.takeTrap k fCapacity 0 0 [BitVec.ofNat 64 pa])
        else
          let (w, s') := s'.fetchWord c pa
          match decodeWord w with
          | .ok d => .word d { s' with ir := w }
          | .error cause => .stop ((({ s' with ir := w }).notePassed k false).takeTrap k fIllegal cause 0 [BitVec.ofNat 64 w])

/-- Whether a core has a task to run words of. -/
def State.busy (s : State) (core : Nat) : Bool :=
  s.released core && ((s.core core).running.isSome || (s.pickReady core).isSome)

/-- The core after `c` in the table's order, cyclically, that has words to run. -/
def State.nextCore (s : State) (c : Nat) : Option Nat :=
  let busy := (s.cores.filter (fun p => s.busy p.1)).map (·.1)
  match busy.find? (fun x => decide (c < x)) with
  | some x => some x
  | none => busy.head?

/-! ### Whose turn it is (log 5) -/

/-- Whether a task's spin timer has run out (R309). -/
def Task.spinDue (t : Task) (cyc : Nat) : Bool :=
  match t.stat.parkedOn with
  | some (.spin _ deadline) => decide (deadline ≤ cyc)
  | _ => false

/-- Spin timers that have run out (R309): of tasks in slots, of those whose wake is not under way, and of saved ones, which no slot
names. -/
def State.dueTimers (s : State) : List Event :=
  ((s.tasks.filter (fun (p : Nat × Task) => p.2.spinDue s.cyc && !s.wakePending p.1)).map (fun p => .spinTimeout (p.1 / 8) (p.1 % 8)))
    ++ (s.saved.filter (fun (p : Nat × Saved) => p.2.task.spinDue s.cyc && !p.2.pending)).map (fun p => .spinTimeout p.2.core 7)

/-- What the engines can do now. -/
def State.engineTurns (s : State) : List Event := s.cores.flatMap (fun p => s.engineEvents p.1)

/-- Whether something waits for a group's quantum to end (R373, R374). -/
def State.quantumWanted (s : State) (ctx g : Nat) : Bool :=
  (s.group ctx g).valid && !s.serving ctx g &&
    (!(s.group ctx g).collected.isEmpty ||
      (s.membersOf ctx g).any (fun c =>
        decide ((s.group ctx g).qno < s.quantumOf ctx c g) || !(s.cc ctx c).holding.isEmpty))

/-- Idle members that have not ended the quantum that others wait for: such a member ends it now (R373). -/
def State.quantumTurns (s : State) : List Event :=
  (s.ctxs.filter (fun p => p.2.detlvl != 0)).flatMap (fun p =>
    p.2.groups.filterMap (fun (g : Nat × Group) =>
      if s.quantumWanted p.1 g.1 then
        ((s.membersOf p.1 g.1).find? (fun c => s.quantumIdle p.1 c && decide (s.endedOf p.1 g.1 c ≤ (s.group p.1 g.1).qno))).map
          (fun c => .quantumEnd p.1 g.1 c)
      else none))

/-- Contexts that a slice expiry has stopped and whose tasks are all saved (R367). -/
def State.savedTurns (s : State) : List Event :=
  (s.ctxs.filter (fun p => s.sliceDone p.1)).map (fun p => .contextSaved p.1)

/-- Whether a ready task or an eligible spilled message of a context has waited an ageing period and can still gain a level (R364). -/
def State.ageDue (s : State) (ctx : Nat) : Bool :=
  let due (level since : Nat) : Bool := decide (level < 6) && decide (since + (s.ctx ctx).period ≤ s.cyc)
  s.tasks.any (fun (p : Nat × Task) =>
    p.2.stat == .ready && p.2.ctx == ctx && p.1 % 8 != 7 && due p.2.level p.2.waitFrom)
  || s.coreCtxs.any (fun (p : Nat × CoreCtx) =>
    p.1 / 8192 == ctx && p.2.spill.any (fun x => due x.level x.waitFrom && s.eligible (p.1 % 8192) x))

/-- Whether an expired context whose run limit is over still runs a task (R368). -/
def State.limitDue (s : State) (ctx : Nat) : Bool :=
  s.limitOver ctx && (s.slotsOfCtx ctx).any (fun k => (s.task k).stat == .running || (s.task k).stat == .committing)

/-- Whether a host queue has waited an ageing period with a packet ready and can still gain a level (R361). -/
def State.queueDue (s : State) (q : Nat) : Bool :=
  let h := s.hostQ q
  (s.desc q).ready && !h.waiting && decide (s.effective q < 6)
    && decide (h.waitFrom + (s.ctx (s.desc q).ctx).period ≤ s.cyc)

/-- The slices, run limits and ageing periods that are over (R361, R364, R367, R368). -/
def State.duePeriods (s : State) : List Event :=
  let ctxs := s.ctxs.map (·.1)
  (ctxs.filter s.sliceOver).map .sliceExpiry ++ (ctxs.filter s.limitDue).map .runLimitExpiry
    ++ (ctxs.filter s.ageDue).map .ageingPeriod ++ ((s.queueList).filter s.queueDue).map .queueAgeing

/-- The sources of turns, each with what it has now. -/
def State.sources (s : State) : List (List Turn) :=
  [match s.pending with
    | [] => []
    | _ :: _ => [.pending 0],
   (match s.nextCore s.focus with
    | some c => [Turn.word c]
    | none => []),
   s.engineTurns.map .event, (s.dueTimers ++ s.savedTurns ++ s.duePeriods).map .event,
   (s.hostEvent.toList ++ s.quantumTurns).map .event]

/-- The turns of a source, the others' after them; of a source's own, first one then another. -/
def rotated {α : Type} (n : Nat) (l : List α) : List α := l.drop (n % l.length) ++ l.take (n % l.length)

/-- Whose turn it is: as `sched` says, else the sources take turns. -/
def State.turn (s : State) : Option Turn × State :=
  match s.sched with
  | t :: rest => (some t, { s with sched := rest })
  | [] => (((rotated s.tick s.sources).map (rotated (s.tick / 5))).flatten.head?, s)

/-- Takes a pending event by its place, messages in the order of R294 and R420. -/
def State.takePending (s : State) (i : Nat) : Option Event × State :=
  let j := s.pendingPlace i
  (s.pending[j]?, { s with pending := s.pending.eraseIdx j })

/-! ### How an outside loader places a word (log 15) -/

/-- Where `withFetchWord` puts the page table of context 0 and the code page. -/
def loadTable : Nat := 0x100000
def loadCode : Nat := 0x200000

/-- The word that a table row's bits stand for, 64 bits, stored little-endian (R12, R140). -/
def loadWord (nbits w : Nat) : Nat := w % 2 ^ Nat.min nbits 64

/-- A state in which core 0 runs one supervisor task whose next word is `w`: sixteen stacks in service when none are, a
page table that maps address 0 to the code page, the block open with the signature that lets `w` close it. -/
def State.load (s : State) (w : Nat) : State :=
  let s := if s.sset = [] then { s with sset := List.range 16 } else s
  let s := if s.released 0 then s else { s with stage := 4 }
  let s := s.modCtx 0 (fun c => { c with installed := true, ptroot := BitVec.ofNat 64 loadTable, stopped := false })
  let s := s.writeWords loadTable [BitVec.ofNat 64 (loadTable + 0x1000 + 1)]
  let s := s.writeWords (loadTable + 0x1000) [BitVec.ofNat 64 (loadTable + 0x2000 + 1)]
  let s := s.writeWords (loadTable + 0x2000) [BitVec.ofNat 64 (loadTable + 0x3000 + 1)]
  let s := s.writeWords (loadTable + 0x3000) [BitVec.ofNat 64 (loadTable + 0x4000 + 1)]
  let s := s.writeWords (loadTable + 0x4000) [BitVec.ofNat 64 (loadCode + 0xF)]
  let s := s.writeWord loadCode (BitVec.ofNat 64 w)
  let sig := match decodeWord w with
    | .ok (.std (.blk _)) => signature []
    | _ => signature [w]
  let s := s.setTask 0
    { (s.task 0) with
      stat := .running, ctx := 0, super := true, pc := 0, wait := .none, loops := [], sched := [], sect := none
      bps := [], stopAsked := false, blk := some { addr := 0, sig := sig, words := [] } }
  let s := s.modCore 0 (fun c => { c with running := some 0, installed := some 0, tlbI := [], victims := [], icache := [] })
  let s := s.modHive 0 (fun h => { h with tlb := [], victims := [], icache := [] })
  { s with focus := 0, sched := [.word 0] }

end Sys2Proof.Machine
end

