-- ==== Sys2Proof/Machine/Step.lean ====
section
/-! DEFINITION. One step of the machine, and placing a word where the next step fetches it. -/

namespace Sys2Proof.Machine

/-- Runs a core's next word: the word it fetches, decoded, run by `exec`'s meaning. -/
def wordTurn (c : Nat) (s : State) : Host.Outcome State Fault Refusal :=
  match fetch c s with
  | .idle s => event s
  | .stop s => event s
  | .word d s => runDecoded d s

/-- One step: a word, or an event. -/
def step (s : State) : Host.Outcome State Fault Refusal :=
  match s.turn with
  | (none, s) => event s
  | (some (.word c), s) => wordTurn c s
  | (some (.event e), s) => runEvent e s
  | (some (.pending i), s) =>
    match s.takePending i with
    | (some e, s) => runEvent e s
    | (none, s) => event s

/-- The state with a table word stored where `step` fetches its next instruction. -/
def State.withFetchWord (s : State) (nbits w : Nat) : State := s.load (loadWord nbits w)

end Sys2Proof.Machine
end

