-- ==== Sys2Proof/Safety.lean ====
section
/-! DEFINITION. What a safe run keeps: the invariants of the state that statements use. -/

namespace Sys2Proof.Machine

/-- `m`, run from `s`, answers `a` and leaves `s'`: it neither stalls nor traps. -/
def Gives {α : Type} (m : W α) (s : State) (a : α) (s' : State) : Prop := m.run s = .ok (a, s')

/-- The task of slot `k` runs on the focused core and its next word may start: no answer is awaited, no section is dead,
no quantum holds it, a block is open that is not too long, and where the word closes it, its signature agrees. -/
def Starts (control : Bool) (s : State) (k : Nat) : Prop :=
  s.current = some k ∧ Gives (prelude control) s () s

/-- The state after a word of slot `k` has retired (R155, R160, R174): it counts, latencies step and late results arrive, its block grows or closes,
and control goes on, round a loop, or to `c`'s target. -/
def retired (control : Bool) (c : Ctl) (k : Nat) (s : State) : State :=
  let t := s.task k
  let closes := control || t.atLast
  let t' : Task :=
    { t with
      irc := t.irc + 1
      bpPass := false
      sched := stepSched t.sched }
  let t' := t'.noteWord closes s.ir
  let t' := match c with
    | .jump pc => { t' with pc := pc }
    | _ => if t.atLast then t'.loopEnd else { t' with pc := t.pc + 8 }
  (((s.setTask k t').stepLate k).countWord (k / 8) t).cycle

/-- The memory is in its canonical form. -/
abbrev Memory.wf (m : Memory) : Bool := Tab.wf Memory.unlisted m

/-- Main memory and its tags are canonical. -/
def State.inv (s : State) : Bool := Memory.wf s.mem && Tab.wf 0 s.lineTags

end Sys2Proof.Machine
end

