-- ==== Sys2Proof/Certificates/Slice0/Obligations.lean ====
section
/-! DEFINITION. The statements for the provers, with the names they use: each formalises rules of the spec. -/

namespace Sys2Proof.Claims

open Sys2Proof.Machine

/-! ### Running a word -/

/-- A step's answer is a next state. -/
abbrev Next (r : Host.Outcome State Fault Refusal) (t : State) : Prop := r = .next t

/-- What a word that names no memory leaves alone: memory, contexts, saved tasks, rings, every scratchpad, every other
task, and of its own task everything but the registers that `d` and the sources name, the flags, a queue that an earlier word's late
result may enter (R160), and what retirement moves. -/
structure RegisterOnly (s t : State) (k : Nat) (d : Option Opnd) (srcs : List Opnd) : Prop where
  mem : t.mem = s.mem
  lineTags : t.lineTags = s.lineTags
  ctxs : t.ctxs = s.ctxs
  hives : t.hives = s.hives
  saved : t.saved = s.saved
  spaces : ∀ ctx c, (t.space ctx c).bytes = (s.space ctx c).bytes ∧ (t.space ctx c).written = (s.space ctx c).written
    ∧ (t.space ctx c).tags = (s.space ctx c).tags ∧ (t.space ctx c).stags = (s.space ctx c).stags
    ∧ (t.space ctx c).gates = (s.space ctx c).gates
  others : ∀ j, j ≠ k → t.task j = s.task j
  g : ∀ n, (∀ i, d = some (.g i) → i.val ≠ n) → (t.task k).reg n = (s.task k).reg n
  q : ∀ n : Fin 8, d ≠ some (.q n) → Opnd.q n ∉ srcs → (s.task k).lateIn n.val = 0 →
    (t.task k).queue n.val = (s.task k).queue n.val
  v : (t.task k).v = (s.task k).v
  m : (t.task k).m = (s.task k).m
  a : (t.task k).a = (s.task k).a
  cc : (t.task k).cc = (s.task k).cc
  commit : (t.task k).commit = (s.task k).commit
  undo : (t.task k).undo = (s.task k).undo
  loads : (t.task k).loads = (s.task k).loads
  super : (t.task k).super = (s.task k).super
  tid : (t.task k).tid = (s.task k).tid

/-! ### Integer words (R163 to R167) -/

/-- The low `w` bits of a value as a signed number. -/
def sgn (w x : Nat) : Int := (BitVec.ofNat w x).toInt

/-- A signed number in `w` bits. -/
def bits (w : Nat) (x : Int) : Nat := (BitVec.ofInt w x).toNat

/-- The integer words of two sources (R163, R164): constructor, latency (R160), and the w bits of the result. -/
def intRows : List ((R3 → Instr) × Nat × (Nat → Nat → Nat → Nat)) :=
  [(.add, 1, fun w x y => (x + y) % 2 ^ w),
   (.sub, 1, fun w x y => bits w ((x : Int) - (y : Int))),
   (.mul, 2, fun w x y => x * y % 2 ^ w),
   (.mulh, 2, fun w x y => bits w (sgn w x * sgn w y / 2 ^ w)),
   (.mulhn, 2, fun w x y => x % 2 ^ w * (y % 2 ^ w) / 2 ^ w),
   (.div, 12, fun w x y => if sgn w y = 0 then 2 ^ w - 1 else bits w ((sgn w x).tdiv (sgn w y))),
   (.rem, 12, fun w x y => if sgn w y = 0 then x % 2 ^ w else bits w ((sgn w x).tmod (sgn w y))),
   (.divn, 12, fun w x y => if y % 2 ^ w = 0 then 2 ^ w - 1 else x % 2 ^ w / (y % 2 ^ w)),
   (.remn, 12, fun w x y => x % 2 ^ w % (y % 2 ^ w)),
   (.and, 1, fun w x y => (BitVec.ofNat w x &&& BitVec.ofNat w y).toNat),
   (.or, 1, fun w x y => (BitVec.ofNat w x ||| BitVec.ofNat w y).toNat),
   (.xor, 1, fun w x y => (BitVec.ofNat w x ^^^ BitVec.ofNat w y).toNat),
   (.andn, 1, fun w x y => (BitVec.ofNat w x &&& ~~~BitVec.ofNat w y).toNat),
   (.orn, 1, fun w x y => (BitVec.ofNat w x ||| ~~~BitVec.ofNat w y).toNat),
   (.shl, 1, fun w x y => (BitVec.ofNat w x <<< (y % w)).toNat),
   (.shr, 1, fun w x y => (BitVec.ofNat w x >>> (y % w)).toNat),
   (.sra, 1, fun w x y => ((BitVec.ofNat w x).sshiftRight (y % w)).toNat),
   (.rol, 1, fun w x y => ((BitVec.ofNat w x).rotateLeft (y % w)).toNat),
   (.ror, 1, fun w x y => ((BitVec.ofNat w x).rotateRight (y % w)).toNat),
   (.min, 1, fun w x y => bits w (Min.min (sgn w x) (sgn w y))),
   (.max, 1, fun w x y => bits w (Max.max (sgn w x) (sgn w y))),
   (.minn, 1, fun w x y => Min.min (x % 2 ^ w) (y % 2 ^ w)),
   (.maxn, 1, fun w x y => Max.max (x % 2 ^ w) (y % 2 ^ w)),
   (.seq, 1, fun w x y => if x % 2 ^ w = y % 2 ^ w then 1 else 0),
   (.sne, 1, fun w x y => if x % 2 ^ w = y % 2 ^ w then 0 else 1),
   (.slt, 1, fun w x y => if sgn w x < sgn w y then 1 else 0),
   (.sle, 1, fun w x y => if sgn w x ≤ sgn w y then 1 else 0),
   (.sltn, 1, fun w x y => if x % 2 ^ w < y % 2 ^ w then 1 else 0),
   (.slen, 1, fun w x y => if x % 2 ^ w ≤ y % 2 ^ w then 1 else 0)]

/-- How a result of `w` bits of type `t` is written to 64 bits (R113): signed types extend their sign. -/
def widen (t : Ty) (x : Nat) : Word :=
  if t.signed then (BitVec.ofNat t.width x).signExtend 64 else (BitVec.ofNat t.width x).setWidth 64

/-- The integer types of the width at hand. -/
def intType (t : Ty) : Bool := t.isIn tsInt

/-- The integer words of one source (R163). -/
def unaryRows : List ((R2 → Instr) × (Nat → Nat → Nat)) :=
  [(.abs, fun w x => bits w |sgn w x|),
   (.clz, fun w x => (BitVec.ofNat w x).clz.toNat),
   (.ctz, fun w x => (BitVec.ofNat w x).reverse.clz.toNat),
   (.popc, fun w x => ((List.range w).filter (fun i => x.testBit i)).length),
   (.sext, fun w x => x % 2 ^ w),
   (.zext, fun w x => x % 2 ^ w)]

/-- The RI words (R166): what the operation of the same name forms, y the low w bits of the sign-extended IMM32. -/
def immRows : List ((RI → Instr) × (Nat → Nat → Nat → Nat)) :=
  [(.addi, fun w x y => (x + y) % 2 ^ w),
   (.andi, fun w x y => (BitVec.ofNat w x &&& BitVec.ofNat w y).toNat),
   (.ori, fun w x y => (BitVec.ofNat w x ||| BitVec.ofNat w y).toNat),
   (.xori, fun w x y => (BitVec.ofNat w x ^^^ BitVec.ofNat w y).toNat),
   (.shli, fun w x y => (BitVec.ofNat w x <<< (y % w)).toNat),
   (.shri, fun w x y => (BitVec.ofNat w x >>> (y % w)).toNat),
   (.srai, fun w x y => ((BitVec.ofNat w x).sshiftRight (y % w)).toNat),
   (.slti, fun w x y => if sgn w x < sgn w y then 1 else 0),
   (.sltni, fun w x y => if x % 2 ^ w < y % 2 ^ w then 1 else 0)]

/-- `len′` of R165. -/
def fieldLen (w c : Nat) : Nat := Min.min (c / 2 ^ 8 % 128) (w - c % 64)

/-- What `bext` forms (R165): control word `c`. -/
def bextBits (t : Ty) (x c : Nat) : Nat :=
  if t.width ≤ c % 64 ∨ fieldLen t.width c = 0 then 0
  else
    let f := x % 2 ^ t.width / 2 ^ (c % 64) % 2 ^ fieldLen t.width c
    if t.signed then bits t.width (sgn (fieldLen t.width c) f) else f

/-- What `bins` forms (R165): base `x`, value `y`, control word `c`. -/
def binsBits (w x y c : Nat) : Nat :=
  if w ≤ c % 64 ∨ fieldLen w c = 0 then x % 2 ^ w
  else x % 2 ^ w - x % 2 ^ w / 2 ^ (c % 64) % 2 ^ fieldLen w c * 2 ^ (c % 64) + y % 2 ^ fieldLen w c * 2 ^ (c % 64)

/-! ### Scalar floats (R169) -/

/-- The FP32 value of an operand's low 32 bits. -/
def fp (w : Word) : Num.FV := Num.f32.decode (w.toNat % 2 ^ 32)

/-- The float words of two sources that round (R169): the exact result and the flags of forming it. -/
def floatRows : List ((Opnd → Opnd → Opnd → Instr) × (Num.FV → Num.FV → Num.FV × Nat)) :=
  [(.fadd, fun x y => x.add .rne y), (.fsub, fun x y => x.add .rne y.neg), (.fmul, fun x y => x.mul y)]

/-- The float words of two sources that raise no flag (R126, R169): their result from the FP32 bits. -/
def floatBitRows : List ((Opnd → Opnd → Opnd → Instr) × (Nat → Nat → Nat)) :=
  [(.fmin, Num.f32.min), (.fmax, Num.f32.max),
   (.fsgn, fun x y => if Num.f32.decode x = .nan then 0x7FC00000 else x % 2 ^ 31 + y / 2 ^ 31 * 2 ^ 31),
   (.feq, fun x y => if (Num.f32.decode x).eq (Num.f32.decode y) then 1 else 0),
   (.flt, fun x y => if (Num.f32.decode x).lt (Num.f32.decode y) then 1 else 0),
   (.fle, fun x y => if (Num.f32.decode x).lt (Num.f32.decode y) || (Num.f32.decode x).eq (Num.f32.decode y) then 1 else 0)]

/-- The class mask of FP32 bits (R171). -/
def floatClass (x : Nat) : Nat :=
  let neg := x / 2 ^ 31 = 1
  let ex := x / 2 ^ 23 % 2 ^ 8
  let fr := x % 2 ^ 23
  if ex = 255 ∧ fr ≠ 0 then 2 ^ 8
  else if ex = 255 then (if neg then 2 ^ 0 else 2 ^ 7)
  else if ex ≠ 0 then (if neg then 2 ^ 1 else 2 ^ 6)
  else if fr ≠ 0 then (if neg then 2 ^ 2 else 2 ^ 5)
  else if neg then 2 ^ 3 else 2 ^ 4

/-- FSTAT of slot `k` with flags merged: they are sticky (R122). -/
def withFlags (s : State) (k : Nat) (f : Nat) : State :=
  s.modTask k (fun t => { t with fstat := t.fstat ||| BitVec.ofNat 64 (f % 64) })

/-- Slot `k` with the flags of a word on their way, which FSTAT receives when the word's result is written, four words later (R169). -/
def flagsComing (s : State) (k : Nat) (f : Nat) : State :=
  if f % 64 = 0 then s else s.modTask k (fun t => { t with late := t.late ++ [{ left := 4, dest := .flags f }] })

/-! ### Control (R172 to R175) -/

/-- The conditional branches and when they are taken (R172). -/
def branchRows : List ((BrArg → Instr) × (Word → Word → Prop)) :=
  [(.beq, fun a b => a = b), (.bne, fun a b => a ≠ b), (.blt, fun a b => a.toInt < b.toInt),
   (.bge, fun a b => b.toInt ≤ a.toInt), (.bltn, fun a b => a.toNat < b.toNat), (.bgen, fun a b => b.toNat ≤ a.toNat)]

/-- The target of a branch at `pc` (R144). -/
def target (pc : Nat) (off : BitVec 32) : Int := pc + 8 * off.toInt

/-- A target that raises no control fault (R173). -/
abbrev goodTarget (t : Int) : Prop := 0 ≤ t ∧ t < 2 ^ 57 ∧ t % 8 = 0

/-- The state after a branch of slot `k` to `t` has dropped the loop levels that `t` lies outside (R175). -/
def leavesLoops (s : State) (k : Nat) (t : Nat) : State :=
  s.modTask k (fun x => { x with
    loops := (x.loops.reverse.dropWhile (fun l => !(decide (l.start ≤ t) && decide (t ≤ l.last)))).reverse })

/-- A supervisor trap of slot `k`'s word (R380): the trapped word is kept for `eret.next`, and the trap is taken. -/
def trapped (s : State) (k : Nat) (control : Bool) (code cause : Nat) (items : List Word) : State :=
  ((s.notePassed k control).takeTrap k code cause 0 items).cycle

/-- The end of a body at its innermost level `l` under `outer` (R174). -/
def bodyEnd (t : Task) (outer : List Loop) (l : Loop) : Task :=
  if 1 < l.rem then { t with loops := outer ++ [{ start := l.start, last := l.last, n := l.n, rem := l.rem - 1 }], pc := l.start }
  else { t with loops := outer, pc := l.last + 8 }

/-- Where a task goes from a word that is no control word: on, or round the innermost loop whose last word it is. -/
def onward (t : Task) : Task :=
  match t.loops.getLast? with
  | some l => if t.pc = l.last then bodyEnd t t.loops.dropLast l else { t with pc := t.pc + 8 }
  | none => { t with pc := t.pc + 8 }

/-! ### Addresses and element types (R143, R178) -/

/-- The address of a MEM word: base, index, scale, offset; good when it lies in 0 to 2^57 − 1. -/
def memAddr (b x : Word) (scale : Nat) (off : BitVec 22) : Int :=
  ((b.toNat % 2 ^ 57 : Nat) : Int) + x.toInt * 2 ^ scale + off.toInt

/-- The type of an element: T, or the base pointer's fmt when T = 0; none where the word raises the format fault. -/
def elemType (t : Ty) (b : Word) : Option Ty :=
  if t ≠ .none then some t
  else
    match b.toNat / 2 ^ 60 with
    | 0 => some .n64 | 1 => some .f32 | 2 => some .bf16 | 3 => some .f16 | 4 => some .e4m3 | 5 => some .e5m2
    | 6 => some .i8 | 7 => some .i32 | 9 => some .i16 | 10 => some .n8 | 11 => some .n16 | 12 => some .n32
    | _ => none

/-- The bytes of an element. -/
def elemBytes : Ty → Nat
  | .i8 | .n8 | .e4m3 | .e5m2 => 1
  | .i16 | .n16 | .f16 | .bf16 => 2
  | .i32 | .n32 | .f32 => 4
  | .i64 | .n64 => 8
  | .none => 8
  | .q4x => 0

/-- What a load writes from an element's bytes, taken as a little-endian number (R178). -/
def loaded (t : Ty) (x : Nat) : Word :=
  if t.isFloat then BitVec.ofNat 64 (Num.f32.round .rne false ((Num.fmtOf t).decode x)).1 else widen t x

/-- What a store puts into an element, and its flags (R178). -/
def stored (t : Ty) (w : Word) : Nat × Nat :=
  if t.isFloat then (Num.fmtOf t).round .rne false (fp w) else (w.toNat % 2 ^ t.width, 0)

/-- The entry of a slot holds a tag and is filling or valid (R92). -/
abbrev holdsTag (s : State) (ctx core slot tag : Nat) : Prop :=
  ((s.space ctx core).stag slot).tag = tag ∧
    (((s.space ctx core).stag slot).state = 1 ∨ ((s.space ctx core).stag slot).state = 2)

/-! ### Words that act on global memory (R262 to R268, R291) -/

/-- The task of slot `k` with an effect buffered at its word's program counter (R260, R291). -/
def buffering (s : State) (k : Nat) (e : Effect) (units control : Nat) : State :=
  s.modTask k (fun t => { t with commit := t.commit ++ [{ eff := e, units := units, pc := t.pc, control := control }] })

/-- Whether the commit buffer of slot `k` has room for `n` more units of its 256 (R298). -/
abbrev room (s : State) (k n : Nat) : Prop := (s.task k).units + n ≤ 256

/-- The task of slot `k` with a load issued: its place at the end of its queue, its record, the event that brings its word. -/
def issuing (s : State) (k : Nat) (kind : LoadKind) (q : Nat) (t : Ty) (va : Nat) (parts : List (Nat × Nat)) (tag : Nat) :
    State :=
  ({ s with nextId := s.nextId + 1 } : State).modTask k (fun x =>
    { x.setQueue q (x.queue q ++ [.await s.nextId]) with
      loads := x.loads ++ [{ id := s.nextId, kind := kind, fifo := q, t := t, va := va, parts := parts
                             own := x.ownBytes parts, ownTag := minTag tag (x.ownTag parts), pc := x.pc
                             parked := false, sectioned := x.sect.isSome }] })

/-- Queue `q` of slot `k` has room for a word: fewer than 4 stand in it or are on their way to it (R114, R262). -/
abbrev queueHasRoom (s : State) (k : Nat) (q : Fin 8) : Prop := ((s.task k).queue q.val).length + (s.task k).lateIn q.val < 4

/-- The word that a `wtv` waits for is there (R265). -/
abbrev waitHit (n : Nat) (x b c : Word) : Prop := ((x ^^^ b) &&& c).toNat % 2 ^ (8 * n) = 0

/-- The words that send an atomic and await its reply, with their functions (R274, R275). -/
def amoRows : List ((AmoArg → Instr) × AFn) :=
  [(.amoAdd, .add), (.amoFadd, .fadd), (.amoMin, .min), (.amoMax, .max), (.amoAnd, .and), (.amoOr, .or), (.amoXor, .xor),
   (.amoSwap, .swap), (.amoCas, .cas)]

/-- The words that buffer an atomic. -/
def amoNrRows : List ((AmoArg → Instr) × AFn) :=
  [(.amoNrAdd, .add), (.amoNrFadd, .fadd), (.amoNrMin, .min), (.amoNrMax, .max), (.amoNrAnd, .and), (.amoNrOr, .or),
   (.amoNrXor, .xor), (.amoNrSwap, .swap)]

/-- The words that announce an atomic (R290). -/
def scamoRows : List ((AmoArg → Instr) × AFn) :=
  [(.scamoAdd, .add), (.scamoFadd, .fadd), (.scamoMin, .min), (.scamoMax, .max), (.scamoAnd, .and), (.scamoOr, .or),
   (.scamoXor, .xor), (.scamoSwap, .swap), (.scamoCas, .cas)]

/-- An update of slot `k`'s task as its word forms it. -/
def updateOf (s : State) (k a pa : Nat) (kind : UpdKind) (t : Ty) (b c : Word) (tag : Nat) : Update :=
  { ctx := (s.task k).ctx, va := a, pa := pa, kind := kind, t := t, operand := b, compare := c, tag := tag
    issuer := s.focus, seq := 0, quantum := 0, reply := none }

/-- The next number of outstanding work is taken. -/
def numbered (s : State) : State := { s with nextId := s.nextId + 1 }

/-- An sc operation of slot `k` is announced (R289). -/
def announcing (s : State) (k : Nat) (op : ScOp) : State :=
  ({ s with announce := s.announce ++ [{ core := k / 8, slot := k % 8, op := op, window := 0 }] } : State).push .waggleWindow

/-- An sc operation without a queue place is outstanding. -/
def scIssuing (s : State) (k : Nat) (t : Ty) (va pa : Nat) : State :=
  (numbered s).modTask k (fun x =>
    { x with loads := x.loads ++ [{ id := s.nextId, kind := .sc, fifo := 12, t := t, va := va, parts := [(pa, elemBytes t)]
                                    own := [], ownTag := 0, pc := x.pc, parked := false, sectioned := x.sect.isSome }] })

/-- An sc operation with a place in queue `q` is outstanding. -/
def scPlaced (s : State) (k q : Nat) (t : Ty) (va : Nat) (parts : List (Nat × Nat)) : State :=
  (numbered s).modTask k (fun x =>
    { x.setQueue q (x.queue q ++ [.await s.nextId]) with
      loads := x.loads ++ [{ id := s.nextId, kind := .sc, fifo := q, t := t, va := va, parts := parts, own := []
                             ownTag := 0, pc := x.pc, parked := false, sectioned := x.sect.isSome }] })

/-! ### Bulk words, counters, joins, fences, keys, lock elision (R269 to R288) -/

/-- The control word of a `get` or `put` that R270 accepts. -/
abbrev goodControl (c : Word) : Prop :=
  c.toNat / 2 ^ 44 = 0 ∧ c.toNat / 2 ^ 40 % 4 = 0 ∧ c.toNat / 256 % 2 ^ 24 ≠ 0 ∧ (c.getLsbD 43 = true → c.toNat % 256 = 0)

/-- The command that a `get` or `put` of slot `k` sends to its core's memory port. -/
def bulkCommand (s : State) (k : Nat) (isPut : Bool) (d a b c : Word) : GetPut :=
  { isPut := isPut, d := d.toNat % 2 ^ 57, a := a.toNat % 2 ^ 57, ctl := c, list := b.toNat % 2 ^ 57, known := false, idx := []
    slot := k % 8, ctx := (s.task k).ctx, tid := (s.task k).tid, pc := (s.task k).pc, first := 0, els := [], landed := []
    halted := false, killed := false }

/-- The ranges that a command reaches as its list stands when its word issues (R272, R301). -/
def reachedBy (s : State) (k : Nat) (g : GetPut) : List (Nat × Nat) :=
  s.reach s.focus (s.task k).super (g.listed (s.readIndexList s.focus g).1)

/-- A command has entered the memory port's queue: what it reaches is in the task's signatures (R301), and the port, if it stood
still, takes the command up. -/
def bulkSent (s : State) (k : Nat) (g : GetPut) : State :=
  let s1 := (s.modTask k (fun t => { t.reaches g (reachedBy s k g) with bulk := t.bulk })).modCore s.focus
    (fun c => { c with gp := c.gp ++ [g] })
  if (s.core s.focus).gp = [] then s1.push (.getPutElementLand s.focus 0) else s1

/-- Earlier operations of slot `k` that a fence of a scope (0 the hive, 1 the device, 2 the system) waits for (R284): returning atomics,
sc operations and elements of `get` and `put`, each with a target within the scope, or one that is not known yet: a list not read, a page
that does not translate. -/
abbrev fenceWaits (s : State) (k scope : Nat) : Prop :=
  (∃ l ∈ (s.task k).loads, (∃ o, l.kind = .amo o ∧ (if hiveOf o = hiveOf (k / 8) then 0 else 1) ≤ scope) ∨
    (l.kind = .sc ∧ ∃ p ∈ l.parts, scopeOf (hiveOf (k / 8)) p.1 ≤ scope)) ∨
  (∃ g ∈ (s.core (k / 8)).gp, g.slot = k % 8 ∧ g.killed = false ∧
    (g.known = false ∨ ∃ j < g.idx.length - g.first, g.first + j ∉ g.landed ∧
      (g.hw = true ∨ (s.elementSpan (k / 8) (s.task k).super g (g.first + j)).2 ≠ [] ∨
        ∃ p ∈ s.elementRange (k / 8) (s.task k).super g (g.first + j), scopeOf (hiveOf (k / 8)) p.1 ≤ scope)))

/-- The three fences. -/
def fenceRows : List (Instr × Nat) := [(.fenceH, 0), (.fenceD, 1), (.fenceS, 2)]

/-- A word of slot `k` stands still and awaits `w`. -/
def awaiting (s : State) (k : Nat) (w : Wait) (control : Bool) : State :=
  s.modTask k (fun t => { t with wait := w, passed := some (s.ir, control || (s.task k).atLast) })

/-! ### Tasks and messages (R333, R340 to R348) -/

/-- The header checks of R340 on a header of slot `k`'s task pass: length, register run, tag, far, trm. -/
abbrev headerGood (s : State) (k : Nat) (h : Word) (run : Nat) (far : Bool) : Prop :=
  hdrLen h ≤ 8 ∧ (run = 0 ∨ hdrLen h = 0 ∨ run + hdrLen h ≤ 64) ∧
    hdrTag h ≠ 0 ∧ hdrTag h ≠ 15 ∧ ((s.task k).super = true ∨ 16 ≤ hdrTag h) ∧
    (far = true → hdrFar h = true → h.toNat / 2 ^ 47 = 0 ∧ s.hasRoute (hdrTs h % 2 ^ 15) = true) ∧ hdrTrm h = 0

/-- The prio with which a task of slot `k` sends. -/
def prioOf (s : State) (k : Nat) (h : Word) : Nat := if (s.task k).super = false ∧ hdrPrio h = 7 then 6 else hdrPrio h

/-- The payload registers from `first` on; from g0, zeros. -/
def payloadOf (s : State) (k first n : Nat) : List Tagged :=
  (List.range n).map (fun i => if first = 0 then zeroT else (s.task k).reg (first + i))

/-- No latency forbids the payload registers. -/
abbrev payloadReady (s : State) (k first n : Nat) : Prop :=
  first = 0 ∨ ∀ i < n, ∀ e ∈ (s.task k).sched, e.reg ≠ first + i

/-- A message of slot `k`'s task. -/
def messageOf (s : State) (k : Nat) (hdr : Word) (pay : List Tagged) : Message :=
  { hdr := hdr, src := s.focus, dst := hdrCore hdr, ctx := (s.task k).ctx, payload := pay, svc := .task
    entry := none, mark := none, tid := none, deferred := false, flight := none }

/-- The units of `n` words behind a header: a quarter of n + 1, rounded up (R340). -/
def unitsOf (n : Nat) : Nat := (n + 1 + 3) / 4

/-- The control word of `tsset` that R347 refuses in slot `k`'s task. -/
abbrev badTsset (s : State) (k : Nat) (a b c : Word) : Prop :=
  ((s.task k).super = false ∧ a.toNat % 64 < 16) ∨ 2 ^ 16 ≤ c.toNat ∨ c.toNat / 512 % 4 ≠ 0 ∨ c.toNat / 4096 % 8 = 7 ∨
    64 ≤ a.toNat ∨ b.toNat % 8 ≠ 0 ∨ 2 ^ 57 ≤ b.toNat

/-- The enables of a core's route tags as a mask. -/
def enables (s : State) (ctx core : Nat) (i : Nat) : Bool := (s.tagEntry ctx core i).en

/-- The half of a range that a splitting word takes, and the rest: ⌈n/2⌉ coordinates from the low end (R355). -/
def firstHalf (r : Range) : Range := { r with hi := r.lo + (r.hi - r.lo + 1) / 2 }
def secondHalf (r : Range) : Range := { r with lo := r.lo + (r.hi - r.lo + 1) / 2 }

/-- The deque of slot `k`'s task on its core. -/
def dequeOf (s : State) (k : Nat) : Deque := (s.space (s.task k).ctx s.focus).deque

/-- With another deque. -/
def withDeque (s : State) (k : Nat) (q : Deque) : State :=
  s.modSpace (s.task k).ctx s.focus (fun sp => { sp with deque := q })

/-- A range is held by slot `k`'s task until its commit (R356). -/
def holding (s : State) (k : Nat) (r : Range) : State :=
  s.modTask k (fun t => { t with taken := t.taken ++ [{ core := s.focus, r := r }] })

/-- A device message of slot `k`'s task: tag, owner, payload, what it asks for (R351). -/
def serviceOf (s : State) (k tag dst : Nat) (pay : List Word) (svc : Svc) : Message :=
  { sysMessage (s.task k).ts tag (s.task k).ctx s.focus dst 7 pay with
    svc := svc, hdr := mkHdr (s.task k).ts false dst tag (if tag = 1 then 6 else 7) pay.length 0 }

/-! ### System words (R184 to R191) -/

/-- The saved task of a handle. -/
def savedOf (s : State) (h : Nat) : Saved := Tab.get .empty s.saved h

/-- A handle names a fibre saved from slot `k`'s core and context (R185). -/
abbrev namesFibre (s : State) (k h : Nat) : Prop :=
  (savedOf s h).state = 1 ∧ (savedOf s h).core = s.focus ∧ (savedOf s h).task.ctx = (s.task k).ctx

/-- An `eret` of any form accepts a handle (R186, R385). -/
abbrev eretTakes (s : State) (h : Nat) : Prop :=
  ((savedOf s h).state = 2 ∧ (savedOf s h).named = false) ∨
    ((s.ctx (savedOf s h).task.ctx).stopped = true ∧ 2 ≤ (savedOf s h).state ∧ (savedOf s h).state ≤ 4)

/-- A buffered store of slot `k`'s task reaches host memory while CXL.cache does not work yet (R412). -/
abbrev waitsForHost (s : State) (k : Nat) : Prop :=
  ∃ b ∈ (s.task k).commit, ∃ va pa bs tag key, b.eff = .store va pa bs tag key ∧ s.cacheWaits pa = true

/-- The three returns from a trap with the number that their effect bears. -/
def eretRows : List ((Opnd → Instr) × Nat) := [(.eretRetry, 0), (.eretNext, 1), (.eretKill, 2)]

/-- The privilege fault names the mnemonic, whose code the spec leaves open (log 7), and for a system register its number. -/
def privileged (s : State) (k word : Nat) (num : Option Nat) : State :=
  trapped s k false 6 0 (Config.mnemonicCode word :: (num.toList.map (BitVec.ofNat 64)))

/-- System registers that every task reads, and what each holds of slot `k`'s task; those of a context are its own, or in the kernel's handler of a
ring entry those of the context that the entry names (R422; log 75). -/
def openRegs : List (Nat × (State → Nat → Nat)) :=
  [(0x140, fun s k => (s.task k).fstat.toNat),
   (0x150, fun s k => match (s.task k).loops[0]? with | some l => 2 ^ 63 + l.n * 2 ^ 32 + l.rem | none => 0),
   (0x153, fun s k => match (s.task k).loops[3]? with | some l => 2 ^ 63 + l.n * 2 ^ 32 + l.rem | none => 0),
   (0x171, fun s k => (s.core (k / 8)).rckey.toNat),
   (0x170, fun s k => (s.ctx (s.task k).regCtx).rtab.toNat),
   (0x1A4, fun s k => (s.ctx (s.task k).regCtx).detlvl),
   (0x1C1, fun s _ => s.devid)]

/-- A removed translation is in none of a core's tables. -/
abbrev noneLeft (c : Core) (kind va ctx : Nat) : Prop :=
  ∀ e, (e ∈ c.tlbD ∨ e ∈ c.tlbI ∨ ∃ n, (n, e) ∈ c.victims) → killsEntry kind va ctx e = false

/-- The invalidations with their kind and the code of their mnemonic. -/
def tlbiRows : List ((TlbiArg → Instr) × Nat) := [(.tlbiPage, 0), (.tlbiCtx, 1), (.tlbiAll, 2)]

/-- Counter `n` of the focused core. -/
def counterOf (s : State) (n : Nat) : Pmc := Tab.get .zero (s.core s.focus).pmc n

/-- A counter of the focused core replaced. -/
def withCounter (s : State) (n : Nat) (p : Pmc) : State :=
  s.modCore s.focus (fun c => { c with pmc := Tab.set .zero c.pmc n p })

/-- What a `pctl` writes to D (R191, R400). -/
def counterWord (p : Pmc) : Word :=
  BitVec.ofNat 64 ((if p.pending then 2 ^ 48 - 1 else p.count) + (if p.ovf then 2 ^ 63 else 0) + (if p.lost then 2 ^ 62 else 0))

/-! ### Commands on their way to the engines (R97, R192 to R259) -/

/-- The command that slot `k`'s word sends. -/
def commandOf (s : State) (k : Nat) (what : Decoded) (g : Gates) (ops : List Tagged) : Cmd :=
  { what := what, ops := ops, gates := g, slot := k % 8, ctx := (s.task k).ctx, tid := (s.task k).tid, pc := (s.task k).pc
    progress := 0, resumed := false, killed := false, place := s.nextId }

/-- A command has entered its engine's coprocessor queue. -/
def sending (s : State) (e : Engine) (c : Cmd) : State :=
  (numbered s).modCore s.focus (fun x => x.setEngine e { x.engine e with queue := (x.engine e).queue ++ [c] })

/-- The coprocessor queue of the focused core has a place (R97: it holds two commands). -/
abbrev queueRoom (s : State) (e : Engine) : Prop := ((s.core s.focus).engine e).queue.length < 2

/-- The vector and mask words that take no g register, with their gates. -/
abbrev vectorWord (i : Instr) (g : Gates) : Prop :=
  (∃ x : V3, g = x.gates ∧ (i = .vadd x ∨ i = .vsub x ∨ i = .vmul x ∨ i = .vmin x ∨ i = .vmax x ∨ i = .vand x ∨ i = .vor x ∨
    i = .vxor x ∨ i = .vshl x ∨ i = .vshr x ∨ i = .vsra x ∨ i = .vperm x)) ∨
  (∃ x : V4, g = x.gates ∧ (i = .vfma x ∨ i = .vfms x ∨ i = .vredsum x ∨ i = .vdot x)) ∨
  (∃ x : V2, g = x.gates ∧ (i = .vabs x ∨ i = .vneg x ∨ i = .vrcp x ∨ i = .vrsq x ∨ i = .vexp x ∨ i = .vtanh x ∨ i = .vmov x ∨
    i = .vredmax x ∨ i = .vredmin x)) ∨
  (∃ x : VCvt, g = x.gates ∧ i = .vcvt x) ∨ (∃ x : VSel, g = x.gates ∧ i = .vsel x) ∨ (∃ x : VExt, g = x.gates ∧ i = .vext x) ∨
  (∃ x : VCmp, g = x.gates ∧ (i = .vcmpEq x ∨ i = .vcmpNe x ∨ i = .vcmpLt x ∨ i = .vcmpLe x)) ∨
  (∃ x : MaskArg, g = x.gates ∧ (i = .vmovMm x ∨ i = .vmovMq x ∨ i = .mand x ∨ i = .mor x ∨ i = .mnot x ∨ i = .mpop x ∨
    i = .mfirst x)) ∨
  (∃ x : VPk, g = x.gates ∧ (i = .vpack x ∨ i = .vunpk x)) ∨ (∃ x : VLit, g = x.gates ∧ (i = .vtopk x ∨ i = .vsig x))

/-- The matrix words that take no g register. -/
abbrev matrixWord (i : Instr) (g : Gates) : Prop :=
  (∃ d : Tile, i = .mmz d g) ∨ (∃ x : MScl, g = x.gates ∧ (i = .msclRow x ∨ i = .msclCol x)) ∨
  (∃ x : MRd, g = x.gates ∧ (i = .mrdRow x ∨ i = .mrdCol x))

/-- The words with one g register as data: constructor, engine, gates, register. -/
abbrev dataWord (i : Instr) (e : Engine) (g : Gates) (a : GReg) : Prop :=
  (∃ x : VMovGm, i = .vmovGm x ∧ e = .vector ∧ g = x.gates ∧ a = x.a) ∨
  (∃ x : VG, i = .vbcast x ∧ e = .vector ∧ g = x.gates ∧ a = x.a) ∨
  (∃ x : VRot, i = .vrot x ∧ e = .vector ∧ g = x.gates ∧ a = x.b) ∨
  (∃ x : MSclAll, i = .msclAll x ∧ e = .matrix ∧ g = x.gates ∧ a = x.a)

/-- The value of a g register, without poison, that nothing holds back. -/
abbrev holdsG (s : State) (r : GReg) (v : Word) : Prop := Gives (readG r.val) s { v := v, tag := 0 } s

/-- An operand of a command. -/
def op (v : Word) : Tagged := { v := v, tag := 0 }

/-- The fmt codes of the matrix engine's types (R226). -/
def pointerFmt : List (Ty × Nat) := [(.f32, 1), (.bf16, 2), (.f16, 3), (.e4m3, 4), (.e5m2, 5), (.q4x, 8)]

/-- A pointer that the matrix engine takes for a type (R226): fmt 0, or the type's code, q4x with block 16. -/
abbrev matrixPointer (v : Word) (t : Ty) : Prop :=
  v.toNat / 2 ^ 60 = 0 ∨ ((t, v.toNat / 2 ^ 60) ∈ pointerFmt ∧ (t = .q4x → v.toNat / 2 ^ 57 % 8 = 0))

/-- The vector atomics with their functions (R276). -/
def vamoRows : List ((VAmoArg → Instr) × AFn) :=
  [(.vamoAdd, .add), (.vamoFadd, .fadd), (.vamoMin, .min), (.vamoMax, .max), (.vamoAnd, .and), (.vamoOr, .or), (.vamoXor, .xor),
   (.vamoSwap, .swap)]

/-- The lanes of a vector atomic from VELEM on (R276, R277): those that mask m lets take part, each with its signed index and its operand. -/
def vamoLanesOf (s : State) (k : Nat) (x : VAmoArg) : List (Nat × Int × Nat) :=
  ((List.range (if x.t.width = 64 then 16 else 32)).filter (fun i =>
      (x.m.val == 0 || (s.mreg k x.m.val).getLsbD i) && decide ((s.task k).velem.getD 0 ≤ i))).map (fun i =>
    (i, sgn 32 ((s.vreg k x.b.val).v.toNat / 2 ^ (32 * i) % 2 ^ 32),
      (s.vreg k x.c.val).v.toNat / 2 ^ ((if x.t.width = 64 then 64 else 32) * i) % 2 ^ x.t.width))

/-- No horizon holds a store of slot `k`'s engine command back (R302). -/
abbrev unordered (s : State) (k : Nat) : Prop := s.orderedGroup (s.task k) = none

/-- A word of slot `k` sends its command and retires. -/
abbrev Sends (i : Instr) (s : State) (k : Nat) (e : Engine) (g : Gates) (what : Decoded) (ops : List Tagged) : Prop :=
  Next (exec i s) (retired false .next k (sending s e (commandOf s k what g ops)))

/-! ### What the vector engine computes (R193 to R216) -/

/-- Element `i` of width `w`. -/
def elemOf (w : Nat) (v : Vec) (i : Nat) : Nat := v.toNat / 2 ^ (w * i) % 2 ^ w

/-- The slot of a command. -/
def slotOf (core : Nat) (c : Cmd) : Nat := core * 8 + c.slot

/-- Element `i` takes part under the predicate (R193): a mask bit governs two elements of 8 bits. -/
abbrev takesPart (s : State) (k pred w i : Nat) : Prop := pred = 0 ∨ (s.mreg k pred).getLsbD (if w = 8 then i / 2 else i) = true

/-- The value of an element. -/
def elemVal (t : Ty) (x : Nat) : Int := if t.signed then sgn t.width x else ((x % 2 ^ t.width : Nat) : Int)

/-- The least and the greatest value of an integer type. -/
def leastOf (t : Ty) : Int := if t.signed then -(2 ^ (t.width - 1) : Nat) else 0
def greatestOf (t : Ty) : Int := if t.signed then ((2 ^ (t.width - 1) - 1 : Nat) : Int) else ((2 ^ t.width - 1 : Nat) : Int)

/-- An exact integer in a type (R131): modulo 2^w, or clamped with the SAT flag. -/
def intoType (t : Ty) (sat : Bool) (x : Int) : Nat × Nat :=
  if !sat then (bits t.width x, 0)
  else if x < leastOf t then (bits t.width (leastOf t), 16)
  else if greatestOf t < x then (bits t.width (greatestOf t), 16)
  else (bits t.width x, 0)

/-- An exact float rounded once (R127), with the flags of forming it. -/
def rounded (t : Ty) (mode : RMode) (sat : Bool) (v : Num.FV × Nat) : Nat × Nat :=
  (((Num.fmtOf t).round mode sat v.1).1, v.2 ||| ((Num.fmtOf t).round mode sat v.1).2)

/-- The float of an element. -/
def elemFp (t : Ty) (x : Nat) : Num.FV := (Num.fmtOf t).decode x

/-- The element-wise commands of two sources with what they form of two elements, and its flags (R200, R202, R126). -/
def vector2Rows : List ((V3 → Instr) × (V3 → Nat → Nat → Nat × Nat)) :=
  [(.vadd, fun x a b => if x.t.isFloat then rounded x.t x.mode x.sat ((elemFp x.t a).add x.mode (elemFp x.t b))
      else intoType x.t x.sat (elemVal x.t a + elemVal x.t b)),
   (.vsub, fun x a b => if x.t.isFloat then rounded x.t x.mode x.sat ((elemFp x.t a).add x.mode (elemFp x.t b).neg)
      else intoType x.t x.sat (elemVal x.t a - elemVal x.t b)),
   (.vmul, fun x a b => if x.t.isFloat then rounded x.t x.mode x.sat ((elemFp x.t a).mul (elemFp x.t b))
      else intoType x.t x.sat (elemVal x.t a * elemVal x.t b)),
   (.vmin, fun x a b => (if x.t.isFloat then (Num.fmtOf x.t).min a b else if elemVal x.t b < elemVal x.t a then b else a, 0)),
   (.vmax, fun x a b => (if x.t.isFloat then (Num.fmtOf x.t).max a b else if elemVal x.t a < elemVal x.t b then b else a, 0)),
   (.vand, fun _ a b => (a &&& b, 0)), (.vor, fun _ a b => (a ||| b, 0)), (.vxor, fun _ a b => (a ^^^ b, 0)),
   (.vshl, fun x a b => (a * 2 ^ (b % x.t.width) % 2 ^ x.t.width, 0)),
   (.vshr, fun x a b => (a / 2 ^ (b % x.t.width), 0)),
   (.vsra, fun x a b => (bits x.t.width (sgn x.t.width a / 2 ^ (b % x.t.width)), 0))]

/-- The fused commands (R200). -/
def vector3Rows : List ((V4 → Instr) × (V4 → Nat → Nat → Nat → Nat × Nat)) :=
  [(.vfma, fun x a b c => if x.t.isFloat then rounded x.t x.mode x.flag ((elemFp x.t a).fma x.mode (elemFp x.t b) (elemFp x.t c))
      else intoType x.t x.flag (elemVal x.t a * elemVal x.t b + elemVal x.t c)),
   (.vfms, fun x a b c => if x.t.isFloat then rounded x.t x.mode x.flag ((elemFp x.t a).fma x.mode (elemFp x.t b) (elemFp x.t c).neg)
      else intoType x.t x.flag (elemVal x.t a * elemVal x.t b - elemVal x.t c))]

/-- The commands of one source (R200, R201, R204). -/
def vector1Rows : List ((V2 → Instr) × (V2 → Nat → Nat × Nat)) :=
  [(.vabs, fun x a => if x.t.isFloat then (if elemFp x.t a = .nan then (Num.fmtOf x.t).nanBits else a % 2 ^ (x.t.width - 1), 0)
      else intoType x.t x.sat |elemVal x.t a|),
   (.vneg, fun x a => if x.t.isFloat then (if elemFp x.t a = .nan then (Num.fmtOf x.t).nanBits
        else a % 2 ^ (x.t.width - 1) + (1 - a / 2 ^ (x.t.width - 1)) * 2 ^ (x.t.width - 1), 0)
      else intoType x.t x.sat (-(elemVal x.t a))),
   (.vrcp, fun x a => rounded x.t x.mode x.sat (VecNum.rcp (elemFp x.t a))),
   (.vrsq, fun x a => rounded x.t x.mode x.sat (VecNum.rsq (elemFp x.t a))),
   (.vexp, fun x a => rounded x.t x.mode x.sat (VecNum.exp (elemFp x.t a))),
   (.vtanh, fun x a => rounded x.t x.mode x.sat (VecNum.tanh (elemFp x.t a))),
   (.vmov, fun _ a => (a, 0))]

/-- The comparisons (R203). -/
def compareRows : List ((VCmp → Instr) × (Ty → Nat → Nat → Bool)) :=
  [(.vcmpEq, fun t a b => if t.isFloat then (elemFp t a).eq (elemFp t b) else decide (elemVal t a = elemVal t b)),
   (.vcmpNe, fun t a b => if t.isFloat then !((elemFp t a).eq (elemFp t b)) else decide (elemVal t a ≠ elemVal t b)),
   (.vcmpLt, fun t a b => if t.isFloat then (elemFp t a).lt (elemFp t b) else decide (elemVal t a < elemVal t b)),
   (.vcmpLe, fun t a b => if t.isFloat then (elemFp t a).lt (elemFp t b) || (elemFp t a).eq (elemFp t b)
      else decide (elemVal t a ≤ elemVal t b))]

/-- The oldest started command of a core's vector engine, of a task that runs or is ready, that neither waits nor was killed. -/
structure Executing (s : State) (core : Nat) (c : Cmd) (what : Decoded) : Prop where
  started : (s.core core).vq.started.head? = some c
  free : s.cmdBlocked core c = false
  what : c.what = what
  alive : c.killed = false
  runs : (s.task (slotOf core c)).stat = .running ∨ (s.task (slotOf core c)).stat = .ready

/-- A command has completed (R194, R196, R122): it has left its engine, its flags are merged, and main memory, other tasks, and its own task's g, q and
accumulator registers, loads and buffered effects stay. -/
structure Completed (s t : State) (core : Nat) (c : Cmd) (flag : Nat → Prop) : Prop where
  gone : ∀ o ∈ (t.core core).vq.started, o.place ≠ c.place
  flags : ∀ b, b < 64 → ((t.task (slotOf core c)).fstat.getLsbD b = true ↔
    (s.task (slotOf core c)).fstat.getLsbD b = true ∨ flag b)
  mem : t.mem = s.mem
  others : ∀ j, j ≠ slotOf core c → t.task j = s.task j
  g : (t.task (slotOf core c)).g = (s.task (slotOf core c)).g
  a : (t.task (slotOf core c)).a = (s.task (slotOf core c)).a
  pc : (t.task (slotOf core c)).pc = (s.task (slotOf core c)).pc
  commit : (t.task (slotOf core c)).commit = (s.task (slotOf core c)).commit
  bytes : ∀ x n, (t.space x n).bytes = (s.space x n).bytes

/-- The registers of a slot after an element-wise command with destination `d` (R193, R121): each element that takes part as `f` says, the others
kept; the tag the lowest nonzero one of what was read. -/
structure Elementwise (s t : State) (k d pred w : Nat) (srcs : List Nat) (f : Nat → Nat × Nat) : Prop where
  taken : ∀ i, i < 1024 / w → takesPart s k pred w i → elemOf w (t.vreg k d).v i = (f i).1 % 2 ^ w
  kept : ∀ i, i < 1024 / w → ¬ takesPart s k pred w i → elemOf w (t.vreg k d).v i = elemOf w (s.vreg k d).v i
  tag : (t.vreg k d).tag = ((if pred = 0 then [] else [d]) ++ srcs).foldl (fun g n => minTag g (s.vreg k n).tag) 0
  others : ∀ n, n ≠ d → t.vreg k n = s.vreg k n
  masks : (t.task k).m = (s.task k).m

/-- The flags that the elements that take part raise. -/
abbrev raisedBy (s : State) (k pred w : Nat) (f : Nat → Nat × Nat) (b : Nat) : Prop :=
  b < 6 ∧ ∃ i, i < 1024 / w ∧ takesPart s k pred w i ∧ (f i).2.testBit b = true

/-- No flag. -/
abbrev noFlag (_ : Nat) : Prop := False

/-- The exact sum, from `z` on, of the elements that take part. -/
def sumOf (s : State) (k pred w : Nat) (z : Num.Sum) (f : Nat → Num.FV) : Num.Sum :=
  ((List.range (1024 / w)).filter (fun i => active (s.mreg k pred) pred w i)).foldl (fun a i => a.term (f i)) z

/-! ### The matrix and copy engines, gates (R94 to R110, R218 to R236) -/

/-- The oldest started command of a core's matrix engine, of a task that runs or is ready, that neither waits nor was killed. -/
structure Multiplying (s : State) (core : Nat) (c : Cmd) (what : Decoded) : Prop where
  started : (s.core core).mq.started.head? = some c
  free : s.cmdBlocked core c = false
  what : c.what = what
  alive : c.killed = false
  runs : (s.task (slotOf core c)).stat = .running ∨ (s.task (slotOf core c)).stat = .ready

/-- A matrix command has retired: it has left its engine; memory, every scratchpad byte, other tasks and its task's g registers stay. -/
structure Retired (s t : State) (core : Nat) (c : Cmd) : Prop where
  gone : ∀ o ∈ (t.core core).mq.started, o.place ≠ c.place
  mem : t.mem = s.mem
  others : ∀ j, j ≠ slotOf core c → t.task j = s.task j
  g : (t.task (slotOf core c)).g = (s.task (slotOf core c)).g
  pc : (t.task (slotOf core c)).pc = (s.task (slotOf core c)).pc
  bytes : ∀ x n, (t.space x n).bytes = (s.space x n).bytes

/-- Element (i, j) of a tile as its 32 bits. -/
def tileWord (s : State) (k n i j : Nat) : Nat := (Tab.get 0 (s.tile k n).words (32 * i + j)).toNat

/-- `n` scratchpad bytes at an address as a core sees them, as a number. -/
def spadNum (s : State) (ctx core a n : Nat) : Nat :=
  Num.ofBytes ((List.range n).map (fun i => s.spadByteAt ctx core a i))

/-- Element `u` of line `i` of the packed 16-bit operand block at `a` (R225). -/
def blockElem (s : State) (c : Cmd) (core a : Nat) (t : Ty) (i u : Nat) : Num.FV :=
  elemFp t (spadNum s c.ctx core (a + (i * 16 + u) * 2) 2)

/-- The exact value of one product element of one chunk on accumulator bits `z` (R136, R228). -/
def chunkSum (s : State) (c : Cmd) (core : Nat) (x : MMul) (z i j : Nat) : Num.FV × Nat :=
  ((List.range 16).foldl (fun a u => a.product (blockElem s c core (c.ptr 0) x.t i u) (blockElem s c core (c.ptr 1) x.t j u))
    (Num.Sum.empty.term (Num.f32.decode z))).value

/-- A gate of a core's context. -/
def gateAt (s : State) (ctx core g : Nat) : Gate := gateOf (s.space ctx core) g

/-- A gate set, with the slots that fill on the phase it reaches. -/
def withGate (s : State) (k g : Nat) (x : Gate) : State := s.modSpace (s.task k).ctx s.focus (fun sp => sp.setGate g x)

/-! ### Events -/

/-- The task parked in slot `k` is ready again, and its core selects (R366). -/
def woken (s : State) (k : Nat) : State :=
  (s.modTask k (fun t => { t with stat := .ready, since := s.tick, waitFrom := s.cyc })).select (k / 8)

/-- A slot-7 message stands at the head of its core's system queue; taken out, the state is `s1` (R337). -/
abbrev Served (s : State) (svc : Svc) (core : Nat) (m : Message) (s1 : State) : Prop :=
  s.takeSvc svc = some (some (core, m), s1)

/-- An owner that is not merging and whose context does not hold updates back for a quantum (R275, R279). -/
abbrev appliesNow (s : State) (core ctx : Nat) : Prop := (s.core core).merging = false ∧ (s.ctx ctx).detlvl ≠ 2

/-- The number of cores that have sent their arrival to a group's barrier. -/
def arrivalsOf (s : State) (ctx g : Nat) : List (Nat × Word) := (s.group ctx g).arrivals

/-- The state in which element `i` of the command at the head of the port's queue has landed (R270). -/
def landedElement (s : State) (core : Nat) (g : GetPut) (i : Nat) : State :=
  (s.moveElement core g i).modCore core (fun c => { c with gp := { g with landed := i :: g.landed } :: c.gp.drop 1 })

/-- The main memory that element `i` of a command writes: a `put`'s remote bytes outside the hive window. -/
def wroteBy (g : GetPut) (i : Nat) : List (Nat × Nat) := if g.isPut && !g.hw then g.els.getD (i - g.first) [] else []

/-- No stack is lost (R38). -/
abbrev noLoss (s : State) : Prop := s.hbm.all (fun p => p.2.lost.isNone) = true

/-- The word of a node's line in `n`'s segment (R349). -/
def segWord (s : State) (pa i : Nat) : Nat := Num.ofBytes (s.physRead (pa + 8 * i) 8)

/-- Task slot `k` has outstanding load `id` (R266): `l`, of version `v` of the line whose directory entry is at `e`. -/
abbrev VersionLoad (s : State) (k id : Nat) (l : Load) (eq : Bool) (v region e : Nat) : Prop :=
  (s.task k).loads.find? (fun x => x.id == id) = some l ∧ l.kind = .version eq v region e

/-- The physical line of a load. -/
def lineOf (l : Load) : Nat := (l.parts.head?.map (·.1)).getD 0 / 64 * 64

/-- The records of a line below K, and the others (R62). -/
def belowK (s : State) (ctx e : Nat) : List (Nat × Nat) :=
  (s.records e).filter (fun x => decide (x.2 < Nat.min ((s.ctx ctx).regionOf e).floor (s.newest e)))
def atOrAboveK (s : State) (ctx e : Nat) : List (Nat × Nat) :=
  (s.records e).filter (fun x => decide (Nat.min ((s.ctx ctx).regionOf e).floor (s.newest e) ≤ x.2))

/-- A PORT link word to `y` without a stale write in flight (R315). -/
def portTo (y : Nat) : Lnk := { kind := 1, absorb := false, res := false, addr := y }

/-- A slot that relink messages other than FUSE3 find held: FUSED with res 0. -/
def halfFused (x : Nat) : Lnk := { kind := 3, absorb := false, res := false, addr := x }

/-- A relink event of a context, with the message that it serves (R321). -/
abbrev Relinking (ctx : Nat) (i : Instr) (v : Svc) : Prop :=
  (∃ x z, i = .hinge ctx x z ∧ v = .hinge ctx x z) ∨ (∃ x y, i = .fuse ctx x y ∧ v = .fuse ctx x y) ∨
  (∃ x y z, i = .fuse2 ctx x y z ∧ v = .fuse2 ctx x y z) ∨ (∃ x y, i = .fuse3 ctx x y ∧ v = .fuse3 ctx x y) ∨
  (∃ t p e, i = .join2 ctx t p e ∧ v = .join2 ctx t p e) ∨ (∃ t p e, i = .join1 ctx t p e ∧ v = .join1 ctx t p e) ∨
  (∃ t p, i = .fix ctx t p ∧ v = .fix ctx t p) ∨ (∃ x, i = .drain ctx x ∧ v = .drain ctx x) ∨
  (∃ n, i = .nfreeMessage ctx n ∧ v = .nfree ctx n)

/-- THE ROWS OF R323: message, link word found, link word left, messages sent, whether hcnt falls, partner of a write. -/
def relinkActs : Svc → Lnk → Lnk → List Svc → Bool → Option Nat → Prop := fun m l l' out drained written =>
  relinkRow m l = .act l' out drained written

/-- A user message arrives that its tag's entry takes at once: enabled, its context able to start, none ahead, a slot free (R337). -/
abbrev startsAtOnce (s : State) (m : Message) (slot : Nat) : Prop :=
  s.returnedBefore m = false ∧ hdrTrm m.hdr = 0 ∧ m.svc = .task ∧ m.entry = none ∧ userTag (hdrTag m.hdr) = true ∧
    (s.tagEntry m.ctx m.dst (hdrTag m.hdr)).en = true ∧ s.canStart m.ctx = true ∧ s.canInstall m.ctx m.dst = true ∧
    s.spillAhead m.dst m = false ∧ s.slotFor m.dst m = some slot

/-- The task of slot `k` with an effect of a spawn buffered, and its call index advanced (R343). -/
def spawned (s : State) (k : Nat) (e : Effect) (units : Nat) : State :=
  s.modTask k (fun t =>
    { t with commit := t.commit ++ [{ eff := e, units := units, pc := t.pc, control := 0 }], spawns := t.spawns + 1 })

/-- Core `core`'s word with a reply has completed with the pair `w` in g(d) and g(d+1) (R355). -/
def repliedPair (s : State) (k d : Nat) (w : Word × Word) : State :=
  (s.completeWord k).modTask k (fun t => (t.setReg d { v := w.1, tag := 0 }).setReg (d + 1) { v := w.2, tag := 0 })

/-- The packet that the front hive takes next is the head of `q`, of a type, and meets no error (R361 to R363). -/
abbrev takesNext (s : State) (e : Event) (q type : Nat) : Prop :=
  s.hostEvent = some e ∧ s.packetCause (s.desc q) = none ∧ s.packetType (s.desc q) = type

/-- A flight of a packet (R362). -/
def flightOf (s : State) (q region : Nat) : Flight :=
  { id := s.nextId, queue := q, ctx := (s.desc q).ctx, region := region, w1 := s.packet (s.desc q) 1
    w2 := BitVec.ofNat 64 (s.packet (s.desc q) 2) }

/-- The member cores of a group that have not ended the current quantum end it when `core`'s end comes (R373). -/
def quantaEnded (s : State) (ctx g core : Nat) : State :=
  ((s.endQuantum ctx g core).membersOf ctx g).foldl
    (fun x c => if x.endedOf ctx g c ≤ ((s.endQuantum ctx g core).group ctx g).qno then x.endQuantum ctx g c else x)
    (s.endQuantum ctx g core)

/-- The operation words of a debug packet: the task that w4 names, found in slot `k` (R402). -/
abbrev debugFinds (s : State) (ctx core : Nat) (w : List Word) (k : Nat) : Prop :=
  s.findTask ctx core ((w.getD 1 0).toNat % 2 ^ 48) = .slot k

/-- A context after a write of SVPOOL: another base is another pool, of which nothing is handed out (R392). -/
def poolSet (c : Ctx) (v : Word) : Ctx :=
  { c with svpool := BitVec.ofNat 64 (v.toNat / 2 ^ 17 * 2 ^ 17)
           svUsed := if v.toNat / 2 ^ 17 % 2 ^ 23 = c.svpool.toNat / 2 ^ 17 % 2 ^ 23 then c.svUsed else [] }

/-- The task that w4 names lies stopped by the debugger in the save area `h`. -/
abbrev debugStopped (s : State) (ctx core : Nat) (w : List Word) (h : Nat) : Prop :=
  s.findTask ctx core ((w.getD 1 0).toNat % 2 ^ 48) = .area h ∧ (savedOf s h).debug = true

/-- A saved task replaced. -/
def withSaved (s : State) (h : Nat) (r : Saved) : State := { s with saved := Tab.set .empty s.saved h r }

/-- A retirement can be announced for a stack: nothing is under way and more than 8 are in service (R33). -/
abbrev canRetire (s : State) (st : Nat) : Prop := st ∈ s.sset ∧ s.ret.rstate = 0 ∧ 8 < s.sset.length

/-- The replies with one more (R405, R408). -/
def replied (s : State) (r : Reply) : State := { s with replies := s.replies ++ [r] }

/-- A request has left its requester: it is outstanding and on its way (R41). -/
def sentRequest (s : State) (r : HbmReq) : State :=
  ({ s with outstanding := s.outstanding ++ [r] } : State).push (.hbmRequestArrival r)

/-- A request is outstanding with the stamp it was sent with. -/
abbrev standsOut (s : State) (r : HbmReq) : Prop := s.outstanding.find? (fun x => x.id == r.id) = some r

/-- A request is served. -/
def withoutRequest (s : State) (r : HbmReq) : State := { s with outstanding := s.outstanding.filter (fun x => x.id != r.id) }

/-! ### Decoding, steps, traps and reset -/

/-- An engine word without gates. -/
def noGates : Gates := { wait := none, sig := none }

/-- Words of the spec's examples, with the instructions they stand for. -/
noncomputable def someWords : List (Nat × Instr) :=
  [(0x010860B160100000, .mul { d := .g 12, a := .g 11, b := .g 11, t := .i64 }),
   (0x01024C80A00C0000, .add { d := .link .e, a := .link .n, b := .g 5, t := .i32 }),
   (0x08003874FFFFFFF8, .addi { d := .g 7, a := .g 7, t := .i64, imm := 0xFFFFFFF8 }),
   (0x23142860000C0000, .fcvt (.g 5) (.g 6) .i32 false true .rtz),
   (0x28041804FFFFFFFE, .bne { a := .g 3, b := .g 0, hint := .taken, off := 0xFFFFFFFE }),
   (0x300018A168C00010, .ld { d := .g 3, base := .g 10, index := .g 11, scale := 2, t := .i32, off := 16 }),
   (0x3C00005011200000, .ssr 0x112 (.g 5)),
   (0x400200A000C00010, .ldg { q := 0, base := 10, index := 0, scale := 0, t := .i32, off := 16 }),
   (0x50440040A02C0000, .amoNrFadd { a := 4, b := 5, c := 0, t := .f32 }),
   (0x61001840A1800000, .spawn { d := 3, a := 4, b := 5, c := 6 }),
   (0xA1001820003FFD60, .vredsum
     { d := 3, a := 2, b := 0, c := 0, flag := false, t := .f32, mode := .rne, pred := 0, gates := noGates }),
   (0xC1400040A001FF40, .mma
     { d := { n := 0, half := .full }, a := 4, b := 5, c := 0, z := true, k := 0, t := .bf16, bx := false, h := false
       gates := { wait := some (1, true), sig := none } }),
   (0xE00088C240051A80, .cpy
     { d := 17, a := 12, b := 18, c := 0, dsp := false, ssp := true, gates := { wait := some (5, true), sig := some 6 } }),
   (0xE804013260060000, .gset 6 true 19 19),
   (0xF50010A1633FFC00, .pbnd { half := 1, a := 10, b := 11, c := 12, dcode := 0, gates := noGates })]

/-- The constructor of `Instr` of an event. -/
noncomputable def eventInstr : Event → Instr
  | .spinTimeout core slot => .spinTimeout core slot
  | .spinWake core slot => .spinWake core slot
  | .wtvWake core slot => .wtvWake core slot
  | .getPutElementLand core n => .getPutElementLand core n
  | .mergeComplete core => .mergeComplete core
  | .waggleWindow => .waggleWindow
  | .scEffect => .scEffect
  | .spawnAnswer core slot accepted => .spawnAnswer core slot accepted
  | .versionRecordsFreed ctx n => .versionRecordsFreed ctx n
  | .orderedSignatureCheck core slot => .orderedSignatureCheck core slot
  | .horizonWindow ctx group => .horizonWindow ctx group
  | .gsyncArrival ctx group core hdr => .gsyncArrival ctx group core hdr
  | .nodeCacheRefill ctx core => .nodeCacheRefill ctx core
  | .stealRequest thief slot victim => .stealRequest thief slot victim
  | .stealReply thief slot victim taken => .stealReply thief slot victim taken
  | .entryRelease ctx core => .entryRelease ctx core
  | .vectorCommandComplete core => .vectorCommandComplete core
  | .mmvStreamFault core => .mmvStreamFault core
  | .matrixCommandRetire core => .matrixCommandRetire core
  | .engineCommandAccept core e => .engineCommandAccept core e
  | .engineCommandStart core e => .engineCommandStart core e
  | .copyBeatLand core n => .copyBeatLand core n
  | .bucketLink l => .bucketLink l
  | .summaryUpdate ctx va isMax key => .summaryUpdate ctx va isMax key
  | .atomicApply u => .atomicApply u
  | .atomicReply core slot place w => .atomicReply core slot place w
  | .joinArrival u => .joinArrival u
  | .shareUpdate u => .shareUpdate u
  | .keyPassApply ctx region holder => .keyPassApply ctx region holder
  | .meetDelivery m lo hi => .meetDelivery m lo hi
  | .hinge ctx x z => .hinge ctx x z
  | .fuse ctx x1 x2 => .fuse ctx x1 x2
  | .fuse2 ctx x2 x1 y1 => .fuse2 ctx x2 x1 y1
  | .fuse3 ctx x1 y2 => .fuse3 ctx x1 y2
  | .join2 ctx t p e => .join2 ctx t p e
  | .join1 ctx t p e => .join1 ctx t p e
  | .fix ctx t p => .fix ctx t p
  | .drain ctx x => .drain ctx x
  | .nfreeMessage ctx n => .nfreeMessage ctx n
  | .messageArrival m => .messageArrival m
  | .messageBounce m => .messageBounce m
  | .bounceResend core => .bounceResend core
  | .spillWake ctx core => .spillWake ctx core
  | .spawnSlotRequest parent slot m => .spawnSlotRequest parent slot m
  | .terminationAck core region => .terminationAck core region
  | .ageingPeriod ctx => .ageingPeriod ctx
  | .sliceExpiry ctx => .sliceExpiry ctx
  | .runLimitExpiry ctx => .runLimitExpiry ctx
  | .contextSaved ctx => .contextSaved ctx
  | .ctxresWrite v => .ctxresWrite v
  | .sliceWrite ctx v => .sliceWrite ctx v
  | .ageWrite ctx v => .ageWrite ctx v
  | .gtsyncWrite ctx v => .gtsyncWrite ctx v
  | .grpWrite ctx core n v => .grpWrite ctx core n v
  | .quantumEnd ctx group core => .quantumEnd ctx group core
  | .quantumService ctx group hive => .quantumService ctx group hive
  | .doorbellWrite queue v => .doorbellWrite queue v
  | .queueAgeing queue => .queueAgeing queue
  | .launch queue => .launch queue
  | .barrier queue => .barrier queue
  | .detlevel queue => .detlevel queue
  | .debug queue => .debug queue
  | .signal queue => .signal queue
  | .debugAttach ctx core w => .debugAttach ctx core w
  | .debugDetach ctx core w => .debugDetach ctx core w
  | .debugSetBreakpoint ctx core w => .debugSetBreakpoint ctx core w
  | .debugClearBreakpoint ctx core w => .debugClearBreakpoint ctx core w
  | .debugStop ctx core w => .debugStop ctx core w
  | .debugCopy ctx core w => .debugCopy ctx core w
  | .debugRelease ctx core w => .debugRelease ctx core w
  | .tlbWalkComplete core slot va => .tlbWalkComplete core slot va
  | .invalidationMessage hive id => .invalidationMessage hive id
  | .invalidationDone hive id => .invalidationDone hive id
  | .memoryPortAccess core target addr write len => .memoryPortAccess core target addr write len
  | .versionRequest core slot id => .versionRequest core slot id
  | .versionWake core slot id => .versionWake core slot id
  | .versionReclaim ctx line => .versionReclaim ctx line
  | .vrsyncWrite ctx v => .vrsyncWrite ctx v
  | .vhctlGrant ctx v => .vhctlGrant ctx v
  | .vhctlRelease ctx v => .vhctlRelease ctx v
  | .heapReleaseComplete ctx => .heapReleaseComplete ctx
  | .errorWindowExpiry stack count => .errorWindowExpiry stack count
  | .mgmtRetirementTrigger stack => .mgmtRetirementTrigger stack
  | .mgmtWithdrawTrigger => .mgmtWithdrawTrigger
  | .mretireAck => .mretireAck
  | .stripMoveComplete => .stripMoveComplete
  | .mapBroadcastReceived requester => .mapBroadcastReceived requester
  | .retirementCommit => .retirementCommit
  | .retiredStackPowerDown stack => .retiredStackPowerDown stack
  | .stackLost stack => .stackLost stack
  | .hbmRequestArrival r => .hbmRequestArrival r
  | .replayIndication r => .replayIndication r
  | .uncorrectableError d source => .uncorrectableError d source
  | .fringConsWrite hive v => .fringConsWrite hive v
  | .frbaseEnable hive v => .frbaseEnable hive v
  | .ctxstResume ctx v => .ctxstResume ctx v
  | .cmoveWrite ctx v => .cmoveWrite ctx v
  | .saveAreaFreed ctx handle => .saveAreaFreed ctx handle
  | .rcentWrite ctx core v => .rcentWrite ctx core v
  | .sperrClear ctx core v => .sperrClear ctx core v
  | .powerGood => .powerGood
  | .hostLinkTrained => .hostLinkTrained
  | .stackTrained stack => .stackTrained stack
  | .startTestPassed => .startTestPassed
  | .coldReset => .coldReset
  | .maintenanceReset failed => .maintenanceReset failed
  | .mgmtMarkFailed stack failed => .mgmtMarkFailed stack failed
  | .mgmtSetThreshold stack n => .mgmtSetThreshold stack n
  | .mgmtSetDevid id => .mgmtSetDevid id
  | .linkFlitRetry link => .linkFlitRetry link
  | .laneFailure link => .laneFailure link
  | .linkFailure link => .linkFailure link
  | .hostCxlMemAccess off write len => .hostCxlMemAccess off write len
  | .backInvalidationAck line => .backInvalidationAck line
  | .peerAccess off write len => .peerAccess off write len
  | .slewTick => .slewTick
  | .staggerWrite v => .staggerWrite v
  | .staggerArrival k w => .staggerArrival k w
  | .staggerHoldEnd => .staggerHoldEnd
  | .loadWordArrival core slot id => .loadWordArrival core slot id
  | .stackTrainingFailed stack => .stackTrainingFailed stack
  | .svpoolWrite ctx v => .svpoolWrite ctx v
  | .counterCarry core n => .counterCarry core n

/-- The words of a ring entry of a task's fault (R382): `items` fill words 4 to 7. -/
def ringWords (s : State) (k code cause tag pc handle : Nat) (items : List Word) : List Word :=
  [BitVec.ofNat 64 (code * 2 ^ 48 + cause % 256 * 2 ^ 40 + k / 8 * 2 ^ 27 + k % 8 * 2 ^ 24 + (s.task k).ctx * 2 ^ 12 + tag),
   BitVec.ofNat 64 (s.task k).tid, BitVec.ofNat 64 pc, BitVec.ofNat 64 handle, items.getD 0 0, items.getD 1 0, items.getD 2 0,
   items.getD 3 0]

/-- The user task of slot `k` can be put down for a save at once, with nothing else for its core to start: no answer is awaited,
no command finishes first, no `get` or `put` stands, no plain load and no late result is under way, no other slot is ready, no saved
task is resumed, no message waits. -/
structure PutsDown (s : State) (k : Nat) : Prop where
  user : k % 8 ≠ 7
  noLoads : ∀ l ∈ (s.task k).loads, l.kind ≠ .plain ∧ ∀ u, l.kind ≠ .amo u
  noMerge : (s.task k).merges = false
  noLate : (s.task k).late = []
  sect : (s.task k).sect = none
  late : (s.task k).lateArrival = false
  finished : s.finishing (k / 8) (k % 8) = false
  noPort : (s.core (k / 8)).gp = []
  noReady : ∀ j, j / 8 = k / 8 → (s.task j).stat ≠ .ready
  noSaved : ∀ p ∈ s.saved, p.2.pending = false
  noMessage : s.spilled (k / 8) = []

/-- Area `i` is the lowest free one of context `c`, and drawing it raises no interrupt (R392). -/
abbrev draws (s : State) (c i : Nat) : Prop :=
  (s.ctx c).svPick = some i ∧ ((s.ctx c).svlow < (s.ctx c).svFree ∨ (s.ctx c).lowPosted = true)

/-- A physical address outside the four bytes in which the error record that a tag names counts the lines written as poison (R386). -/
abbrev outsideRecord (s : State) (tag pa : Nat) : Prop :=
  pa < s.erbase.toNat / 2 ^ 17 % 2 ^ 23 * 2 ^ 17 + tag * 32 ∨ s.erbase.toNat / 2 ^ 17 % 2 ^ 23 * 2 ^ 17 + tag * 32 + 4 ≤ pa

/-- Main memory after a write of scratchpad bytes with a tag: unchanged but for the count of the record that the tag names (R386). -/
abbrev countedOnly (s t : State) (tag : Nat) : Prop :=
  (tag = 0 ∨ tag = 0xFFF ∨ s.erbase.getLsbD 16 = false → t.mem = s.mem) ∧ ∀ pa, outsideRecord s tag pa → t.byte pa = s.byte pa

end Sys2Proof.Claims

section

open Sys2Proof Sys2Proof.Machine Sys2Proof.Claims

/-- R160, R161, R163, R164, R113, R121: each integer word of two sources, on operands that can be read and a destination that can
be written, writes its w-bit result extended, with the lowest nonzero tag of its sources, and retires. It leaves
everything else alone. -/
def Obligations.IntegerResults : Prop :=
  ∀ r ∈ intRows, ∀ (x : R3) (s s1 s2 s3 : State) (k : Nat) (a b : Tagged), intType x.t = true →
    Starts false s k → Gives (readO x.a) s a s1 → Gives (readO x.b) s1 b s2 →
    Gives (writeO x.d { v := widen x.t (r.2.2 x.t.width a.v.toNat b.v.toNat), tag := minTag a.tag b.tag } r.2.1) s2 () s3 →
    Next (exec (r.1 x) s) (retired false .next k s3) ∧ RegisterOnly s (retired false .next k s3) k (some x.d) [x.a, x.b]

/-- R160, R163: the integer words of one source, likewise.

R165, R163: `bext`, `bins` and `sel`. -/
def Obligations.UnaryAndFieldResults : Prop :=
  (∀ r ∈ unaryRows, ∀ (x : R2) (s s1 s2 : State) (k : Nat) (a : Tagged), intType x.t = true →
    Starts false s k → Gives (readO x.a) s a s1 →
    Gives (writeO x.d { v := widen x.t (r.2 x.t.width a.v.toNat), tag := a.tag } 1) s1 () s2 →
    Next (exec (r.1 x) s) (retired false .next k s2) ∧ RegisterOnly s (retired false .next k s2) k (some x.d) [x.a]) ∧
  ((∀ (x : R3) (s s1 s2 s3 : State) (k : Nat) (a b : Tagged), intType x.t = true → Starts false s k →
    Gives (readO x.a) s a s1 → Gives (readO x.b) s1 b s2 →
    Gives (writeO x.d { v := widen x.t (bextBits x.t a.v.toNat b.v.toNat), tag := minTag a.tag b.tag } 1) s2 () s3 →
    Next (exec (.bext x) s) (retired false .next k s3)) ∧
  (∀ (x : R4) (s s1 s2 s3 s4 : State) (k : Nat) (a b c : Tagged), intType x.t = true → Starts false s k →
    Gives (readO x.a) s a s1 → Gives (readO x.b) s1 b s2 → Gives (readO x.c) s2 c s3 →
    Gives (writeO x.d { v := widen x.t (binsBits x.t.width a.v.toNat b.v.toNat c.v.toNat)
                        tag := minTag a.tag (minTag b.tag c.tag) } 1) s3 () s4 →
    Next (exec (.bins x) s) (retired false .next k s4)) ∧
  (∀ (d x y z : Opnd) (s s1 s2 s3 s4 : State) (k : Nat) (a b c : Tagged), Starts false s k →
    Gives (readO x) s a s1 → Gives (readO y) s1 b s2 → Gives (readO z) s2 c s3 →
    Gives (writeO d { v := if c.v = 0 then b.v else a.v, tag := minTag a.tag (minTag b.tag c.tag) } 1) s3 () s4 →
    Next (exec (.sel d x y z) s) (retired false .next k s4)))

/-- R166, R167: the RI words, `li` and `lih`. -/
def Obligations.ImmediateResults : Prop :=
  (∀ r ∈ immRows, ∀ (x : RI) (s s1 s2 : State) (k : Nat) (a : Tagged), intType x.t = true →
    Starts false s k → Gives (readO x.a) s a s1 →
    Gives (writeO x.d { v := widen x.t (r.2 x.t.width a.v.toNat (x.imm.signExtend 64).toNat), tag := a.tag } 1) s1 () s2 →
    Next (exec (r.1 x) s) (retired false .next k s2) ∧ RegisterOnly s (retired false .next k s2) k (some x.d) [x.a]) ∧
  (∀ (d : Opnd) (imm : BitVec 32) (s s1 : State) (k : Nat), Starts false s k →
    Gives (writeO d { v := imm.signExtend 64, tag := 0 } 1) s () s1 →
    Next (exec (.li d imm) s) (retired false .next k s1)) ∧
  (∀ (d x : Opnd) (imm : BitVec 32) (s s1 s2 : State) (k : Nat) (a : Tagged), Starts false s k → Gives (readO x) s a s1 →
    Gives (writeO d { v := BitVec.ofNat 64 (imm.toNat * 2 ^ 32 + a.v.toNat % 2 ^ 32), tag := a.tag } 1) s1 () s2 →
    Next (exec (.lih d x imm) s) (retired false .next k s2))

/-- R168: the fat-pointer words; `padd` out of 0 to 2^57 − 1 raises the pointer fault, code 9, with D unwritten. -/
def Obligations.PointerResults : Prop :=
  (∀ (d x y : Opnd) (s s1 s2 s3 : State) (k : Nat) (a b : Tagged) (t : Nat), Starts false s k →
    Gives (readO x) s a s1 → Gives (readO y) s1 b s2 → ((a.v.toNat % 2 ^ 57 : Nat) : Int) + b.v.toInt = t → t < 2 ^ 57 →
    Gives (writeO d { v := BitVec.ofNat 64 (a.v.toNat / 2 ^ 57 * 2 ^ 57 + t), tag := minTag a.tag b.tag } 1) s2 () s3 →
    Next (exec (.padd d x y) s) (retired false .next k s3)) ∧
  (∀ (d x y : Opnd) (s s1 s2 : State) (k : Nat) (a b : Tagged), Starts false s k →
    Gives (readO x) s a s1 → Gives (readO y) s1 b s2 →
    (((a.v.toNat % 2 ^ 57 : Nat) : Int) + b.v.toInt < 0 ∨ 2 ^ 57 ≤ ((a.v.toNat % 2 ^ 57 : Nat) : Int) + b.v.toInt) →
    Next (exec (.padd d x y) s) (trapped s k false 9 0 [])) ∧
  (∀ (d x y : Opnd) (s s1 s2 s3 : State) (k : Nat) (a b : Tagged), Starts false s k →
    Gives (readO x) s a s1 → Gives (readO y) s1 b s2 →
    Gives (writeO d { v := BitVec.ofNat 64 (b.v.toNat % 2 ^ 7 * 2 ^ 57 + a.v.toNat % 2 ^ 57), tag := minTag a.tag b.tag } 1)
      s2 () s3 →
    Next (exec (.pfmt d x y) s) (retired false .next k s3)) ∧
  (∀ (d x : Opnd) (s s1 s2 : State) (k : Nat) (a : Tagged), Starts false s k → Gives (readO x) s a s1 →
    Gives (writeO d { v := BitVec.ofNat 64 (a.v.toNat / 2 ^ 57), tag := a.tag } 1) s1 () s2 →
    Next (exec (.pget d x) s) (retired false .next k s2)) ∧
  (∀ (d x : Opnd) (s s1 s2 : State) (k : Nat) (a : Tagged), Starts false s k → Gives (readO x) s a s1 →
    Gives (writeO d { v := BitVec.ofNat 64 (a.v.toNat % 2 ^ 57), tag := a.tag } 1) s1 () s2 →
    Next (exec (.pstrip d x) s) (retired false .next k s2))

/-- R169, R170, R171, R122: scalar float words: rounded once, the flags merged into FSTAT when the result is written, four words later; the
others raise none. -/
def Obligations.FloatResults : Prop :=
  (∀ r ∈ floatRows, ∀ (d x y : Opnd) (s s1 s2 s3 : State) (k : Nat) (a b : Tagged), Starts false s k →
    Gives (readO x) s a s1 → Gives (readO y) s1 b s2 →
    let v := r.2 (fp a.v) (fp b.v)
    let z := Num.f32.round .rne false v.1
    Gives (writeO d { v := BitVec.ofNat 64 z.1, tag := minTag a.tag b.tag } 4) (flagsComing s2 k (v.2 ||| z.2)) () s3 →
    Next (exec (r.1 d x y) s) (retired false .next k s3)) ∧
  (∀ r ∈ floatBitRows, ∀ (d x y : Opnd) (s s1 s2 s3 : State) (k : Nat) (a b : Tagged), Starts false s k →
    Gives (readO x) s a s1 → Gives (readO y) s1 b s2 →
    Gives (writeO d { v := BitVec.ofNat 64 (r.2 (a.v.toNat % 2 ^ 32) (b.v.toNat % 2 ^ 32)), tag := minTag a.tag b.tag } 1)
      s2 () s3 →
    Next (exec (r.1 d x y) s) (retired false .next k s3)) ∧
  (∀ (d x y w : Opnd) (mode : RMode) (s s1 s2 s3 s4 : State) (k : Nat) (a b c : Tagged), Starts false s k →
    Gives (readO x) s a s1 → Gives (readO y) s1 b s2 → Gives (readO w) s2 c s3 →
    let v := (fp a.v).fma mode (fp b.v) (fp c.v)
    let z := Num.f32.round mode false v.1
    Gives (writeO d { v := BitVec.ofNat 64 z.1, tag := minTag a.tag (minTag b.tag c.tag) } 4)
      (flagsComing s3 k (v.2 ||| z.2)) () s4 →
    Next (exec (.ffma d x y w mode) s) (retired false .next k s4)) ∧
  (∀ (d x : Opnd) (t : Ty) (sat : Bool) (mode : RMode) (s s1 s2 : State) (k : Nat) (a : Tagged), Starts false s k →
    Gives (readO x) s a s1 →
    let z := Num.convert .f32 t mode sat (a.v.toNat % 2 ^ 32)
    Gives (writeO d { v := if t.isFloat then BitVec.ofNat 64 z.1 else widen t z.1, tag := a.tag } 4)
      (flagsComing s1 k z.2) () s2 →
    Next (exec (.fcvt d x t false sat mode) s) (retired false .next k s2)) ∧
  (∀ (d x : Opnd) (t : Ty) (sat : Bool) (mode : RMode) (s s1 s2 : State) (k : Nat) (a : Tagged), Starts false s k →
    Gives (readO x) s a s1 →
    let z := Num.convert t .f32 mode false (a.v.toNat % 2 ^ t.width)
    Gives (writeO d { v := BitVec.ofNat 64 z.1, tag := a.tag } 4) (flagsComing s1 k z.2) () s2 →
    Next (exec (.fcvt d x t true sat mode) s) (retired false .next k s2)) ∧
  (∀ (d x : Opnd) (s s1 s2 : State) (k : Nat) (a : Tagged), Starts false s k → Gives (readO x) s a s1 →
    Gives (writeO d { v := BitVec.ofNat 64 (floatClass (a.v.toNat % 2 ^ 32)), tag := a.tag } 1) s1 () s2 →
    Next (exec (.fcls d x) s) (retired false .next k s2))

/-- R172, R173, R175, R162: a conditional branch on operands without poison goes to its target when its condition holds, dropping
the loop levels that the target leaves, and goes on otherwise.

R173, R175: `jmp` drops the loop levels that its target leaves; `jal` and `jr` write PC + 8 and keep the loop stack; `jr`'s target
is read before D is written. A taken branch, a `jmp`, a `jal` or a `jr` whose target is no multiple of 8 or lies outside the address
space raises the control fault, code 3, with the target. -/
def Obligations.BranchAndJumpResults : Prop :=
  (∀ r ∈ branchRows, ∀ (x : BrArg) (s s1 s2 : State) (k : Nat) (a b : Word), Starts true s k →
    Gives (readO x.a) s { v := a, tag := 0 } s1 → Gives (readO x.b) s1 { v := b, tag := 0 } s2 →
    (∀ t : Nat, r.2 a b → target (s.task k).pc x.off = t → goodTarget t →
      Next (exec (r.1 x) s) (retired true (.jump t) k (leavesLoops s2 k t))) ∧
    (¬ r.2 a b → Next (exec (r.1 x) s) (retired true .next k s2)) ∧
    (r.2 a b → ¬ goodTarget (target (s.task k).pc x.off) →
      Next (exec (r.1 x) s) (trapped s k true 3 0 [BitVec.ofInt 64 (target (s.task k).pc x.off)]))) ∧
  (∀ r ∈ [(Instr.beq, 0), (Instr.bne, 1), (Instr.blt, 2), (Instr.bge, 3), (Instr.bltn, 4), (Instr.bgen, 5)],
    ∀ (x : BrArg) (w : Nat), encode (r.1 x) = some w → bitsOf w 50 6 = r.2) ∧
  (∀ (h : Hint) (off : BitVec 32) (s : State) (k t : Nat), Starts true s k → target (s.task k).pc off = t → goodTarget t →
    Next (exec (.jmp h off) s) (retired true (.jump t) k (leavesLoops s k t))) ∧
  (∀ (d : Opnd) (h : Hint) (off : BitVec 32) (s s1 : State) (k t : Nat), Starts true s k →
    target (s.task k).pc off = t → goodTarget t →
    Gives (writeO d { v := BitVec.ofNat 64 ((s.task k).pc + 8), tag := 0 } 1) s () s1 →
    Next (exec (.jal d h off) s) (retired true (.jump t) k s1)) ∧
  (∀ (d x : Opnd) (s s1 s2 : State) (k : Nat) (a : Word), Starts true s k → Gives (readO x) s { v := a, tag := 0 } s1 →
    (a.toNat % 8 = 0 → Gives (writeO d { v := BitVec.ofNat 64 ((s.task k).pc + 8), tag := 0 } 1) s1 () s2 →
      Next (exec (.jr d x) s) (retired true (.jump (a.toNat % 2 ^ 57)) k s2)) ∧
    (a.toNat % 8 ≠ 0 → Next (exec (.jr d x) s) (trapped s k true 3 0 [BitVec.ofNat 64 (a.toNat % 2 ^ 57)]))) ∧
  (∀ (h : Hint) (d : Opnd) (off : BitVec 32) (s : State) (k : Nat), Starts true s k → ¬ goodTarget (target (s.task k).pc off) →
    Next (exec (.jmp h off) s) (trapped s k true 3 0 [BitVec.ofInt 64 (target (s.task k).pc off)]) ∧
    Next (exec (.jal d h off) s) (trapped s k true 3 0 [BitVec.ofInt 64 (target (s.task k).pc off)]))

/-- R174: a loop word with count 0 goes past the body; with another it opens a level, the fourth at most and strictly inside the
innermost; else it raises the loop fault, code 4, with its cause. -/
def Obligations.LoopResults : Prop :=
  ∀ (i : Instr) (s s1 : State) (k cnt : Nat) (n : BitVec 12), Starts true s k →
    ((∃ x a, i = .loopReg x n ∧ Gives (readO x) s { v := a, tag := 0 } s1 ∧ cnt = a.toNat % 2 ^ 32) ∨
      (∃ c : BitVec 20, i = .loopImm c n ∧ s1 = s ∧ cnt = c.toNat)) →
    let pc := (s.task k).pc
    let last := pc + 8 * n.toNat
    (cnt = 0 → goodTarget ((last + 8 : Nat) : Int) → Next (exec i s) (retired true (.jump (last + 8)) k s1)) ∧
    (cnt ≠ 0 → (s.task k).loops.length ≠ 4 → (∀ l, (s.task k).loops.getLast? = some l → last < l.last) →
      Next (exec i s) (retired true .next k (s1.modTask k (fun t =>
        { t with loops := t.loops ++ [{ start := pc + 8, last := last, n := n.toNat, rem := cnt }] })))) ∧
    (cnt ≠ 0 → (s.task k).loops.length = 4 → Next (exec i s) (trapped s k true 4 1 [])) ∧
    (∀ l, cnt ≠ 0 → (s.task k).loops.length ≠ 4 → (s.task k).loops.getLast? = some l → l.last ≤ last →
      Next (exec i s) (trapped s k true 4 2 []))

/-- R154, R155, R156, R174, R177: `blk` closes the open block when its words form the signature that its `blk` gave, and opens a
block; as the last word of a loop body it ends its own block of no words, and the body ends (the model's choice, log 17); `nop` retires; the end of a loop body takes one
pass off, back to the start or past the end. -/
def Obligations.BlockAndNopResults : Prop :=
  (∀ (sig : BitVec 32) (s : State) (k : Nat), s.current = some k → Gives ready s () s →
    (∀ b, (s.task k).blk = some b → Num.signature b.words.reverse = b.sig) → (s.task k).atLast = false →
    let t := s.task k
    let t' := { t with blk := some { addr := t.pc, sig := sig.toNat, words := [] }, pc := t.pc + 8 }
    Next (exec (.blk sig) s)
      (((s.setTask k { t' with irc := t.irc + 1, bpPass := false, sched := stepSched t.sched }).stepLate k).countWord (k / 8)
        t).cycle) ∧
  (∀ (sig : BitVec 32) (s : State) (k : Nat), s.current = some k → Gives ready s () s →
    (∀ b, (s.task k).blk = some b → Num.signature b.words.reverse = b.sig) → (s.task k).atLast = true →
    let t := s.task k
    (Num.signature [] = sig.toNat →
      Next (exec (.blk sig) s) (((s.setTask k (onward
        { t with blk := none, lastBlk := t.pc, lastSig := sig.toNat, irc := t.irc + 1, bpPass := false, sched := stepSched t.sched })).stepLate
          k).countWord (k / 8) t).cycle) ∧
    (Num.signature [] ≠ sig.toNat → Next (exec (.blk sig) s) (s.tumblerKill k t.pc (Num.signature [])).cycle)) ∧
  (∀ (sig : BitVec 32) (s : State) (k : Nat) (b : Blk), s.current = some k → Gives ready s () s → (s.task k).blk = some b →
    Num.signature b.words.reverse ≠ b.sig →
    Next (exec (.blk sig) s) (s.tumblerKill k b.addr (Num.signature b.words.reverse)).cycle) ∧
  (∀ (s : State) (k : Nat), Starts false s k → Next (exec .nop s) (retired false .next k s)) ∧
  (∀ (s : State) (k : Nat) (l : Loop), s.current = some k → (s.task k).loops.getLast? = some l → (s.task k).pc = l.last →
    Next (exec .loopBodyEnd s) (s.setTask k (bodyEnd (s.task k) (s.task k).loops.dropLast l)).cycle)

/-- R154 to R156, R175: a word starts when nothing holds it (`ready`) and its block is open, has fewer than 1,024 words, and, when the
word closes it, forms the signature with it; a control word that ends a loop body raises the loop fault of cause 3. -/
def Obligations.WordsStart : Prop :=
  ∀ (control : Bool) (s : State) (k : Nat) (b : Blk), s.current = some k → Gives ready s () s → (s.task k).blk = some b →
    b.words.length < 1024 → ((control = true ∨ (s.task k).atLast = true) → Num.signature (s.ir :: b.words).reverse = b.sig) →
    (¬ (control = true ∧ (s.task k).atLast = true) → Starts control s k) ∧
    (control = true → (s.task k).atLast = true → ∀ m : W Ctl, Next (runWord control m s) (trapped s k control 4 3 []))

/-- R143, R178, R85, R87, R160: `ld` reads the element at its address, in no filling slot, extends or converts it and writes D with
latency 3; every byte of memory stays.

R179: `ldp` writes g(D) and g(D + 1) from 16 bytes; `stp` stores both, g0 as zeros. -/
def Obligations.ScratchpadLoadAndPairResults : Prop :=
  (∀ (x : MemArg) (s s1 s2 s4 : State) (k a : Nat) (b i : Word) (t : Ty), Starts false s k →
    Gives (readO x.base) s { v := b, tag := 0 } s1 → Gives (readO x.index) s1 { v := i, tag := 0 } s2 →
    memAddr b i x.scale.val x.off = a → a < 2 ^ 57 → elemType x.t b = some t → t ≠ .q4x →
    s2.heldBack (s.task k).ctx s.focus a (elemBytes t) = false →
    let r := s2.spadSpaceRead (s.task k).ctx s.focus 0 a (elemBytes t)
    Gives (writeO x.d { v := loaded t (Num.ofBytes r.1), tag := r.2.1 } 3) r.2.2 () s4 →
    Next (exec (.ld x) s) (retired false .next k s4) ∧ (retired false .next k s4).mem = s.mem) ∧
  ((∀ (x : PairArg) (s s1 s2 s3 s4 : State) (k a : Nat) (b i : Word), Starts false s k →
    Gives (readO x.base) s { v := b, tag := 0 } s1 → Gives (readO x.index) s1 { v := i, tag := 0 } s2 →
    memAddr b i x.scale.val x.off = a → a < 2 ^ 57 → s2.heldBack (s.task k).ctx s.focus a 16 = false →
    let r := s2.spadSpaceRead (s.task k).ctx s.focus 0 a 16
    Gives (writeG x.d.val { v := BitVec.ofNat 64 (Num.ofBytes (r.1.take 8))
                            tag := s2.spadTagOf (s.task k).ctx s.focus a 0 8 } 3) r.2.2 () s3 →
    Gives (writeG (x.d.val + 1) { v := BitVec.ofNat 64 (Num.ofBytes (r.1.drop 8))
                                  tag := s2.spadTagOf (s.task k).ctx s.focus a 8 8 } 3) s3 () s4 →
    Next (exec (.ldp x) s) (retired false .next k s4)) ∧
  (∀ (x : PairArg) (s s1 s2 s3 : State) (k a : Nat) (b i : Word) (d e : Tagged), Starts false s k →
    Gives (readG x.d.val) s d s → Gives (readG (x.d.val + 1)) s e s →
    Gives (readO x.base) s { v := b, tag := 0 } s1 → Gives (readO x.index) s1 { v := i, tag := 0 } s2 →
    memAddr b i x.scale.val x.off = a → a < 2 ^ 57 →
    Gives (scratchWrite a (Num.bytesOf 8 d.v.toNat ++ Num.bytesOf 8 e.v.toNat) (minTag d.tag e.tag)) s2 () s3 →
    Next (exec (.stp x) s) (retired false .next k s3)))

/-- R178, R181, R122: `st` puts the low bytes or the rounded float of D at its address by the scratchpad write of R181, and merges the
flags; D pops before A and B (the model's choice, log 18). -/
def Obligations.ScratchpadStoreResults : Prop :=
  ∀ (x : MemArg) (s s1 s2 s3 s4 : State) (k a : Nat) (b i : Word) (d : Tagged) (t : Ty), Starts false s k →
    Gives (readO x.d) s d s1 → Gives (readO x.base) s1 { v := b, tag := 0 } s2 →
    Gives (readO x.index) s2 { v := i, tag := 0 } s3 →
    memAddr b i x.scale.val x.off = a → a < 2 ^ 57 → elemType x.t b = some t → t ≠ .q4x →
    Gives (scratchWrite a (Num.bytesOf (elemBytes t) (stored t d.v).1) d.tag) s3 () s4 →
    Next (exec (.st x) s) (retired false .next k (withFlags s4 k (stored t d.v).2))

/-- R181, R296, R87, R89, R91, R386: a write below the end of the core's own scratchpad, to slots that do not fill and lines that no matrix
command locks, with room in the undo log: the bytes read back; every byte of main memory stays, but that a write of poison counts in
its error record; and so does every byte of the scratchpad outside those written, but for the slots that were idle, which the write claims
and whose other bytes read 0. A line that was not written holds no bytes, and its other bytes read 0 after the write as before. -/
def Obligations.OwnScratchpadWrite : Prop :=
  ∀ (s : State) (k a tag : Nat) (bs : List Byte), s.current = some k → a + bs.length ≤ 0x40000 →
    s.heldBack (s.task k).ctx s.focus a bs.length = false → s.lockOn s.focus (linesAt s.focus a bs.length) = none →
    (s.task k).logFull (ownLines s.focus a bs.length) = false →
    ∃ t, Gives (scratchWrite a bs tag) s () t ∧ countedOnly s t tag ∧ t.lineTags = s.lineTags ∧
      (∀ i (h : i < bs.length), (t.space (s.task k).ctx s.focus).byte (a + i) = bs[i]) ∧
      (∀ off, (off < a ∨ a + bs.length ≤ off) → ¬ (off / 1024 ∈ slotsOf a bs.length) →
        (t.space (s.task k).ctx s.focus).byte off = (s.space (s.task k).ctx s.focus).byte off) ∧
      (∀ off, (off < a ∨ a + bs.length ≤ off) → off / 1024 ∈ slotsOf a bs.length →
        ((s.space (s.task k).ctx s.focus).stag (off / 1024)).state = 0 → (t.space (s.task k).ctx s.focus).byte off = 0) ∧
      (∀ off, (off < a ∨ a + bs.length ≤ off) → ((s.space (s.task k).ctx s.focus).stag (off / 1024)).state ≠ 0 →
        Tab.get false (s.space (s.task k).ctx s.focus).written (off / 64) = true →
        (t.space (s.task k).ctx s.focus).byte off = (s.space (s.task k).ctx s.focus).byte off) ∧
      (∀ off, (off < a ∨ a + bs.length ≤ off) → ((s.space (s.task k).ctx s.focus).stag (off / 1024)).state ≠ 0 →
        Tab.get false (s.space (s.task k).ctx s.focus).written (off / 64) = false →
        Tab.get Memory.unlisted (s.space (s.task k).ctx s.focus).bytes off = Memory.unlisted →
        (t.space (s.task k).ctx s.focus).byte off = 0)

/-- R92, R182, R91: `ltag` answers the lowest slot that holds the tag, else 0xFFFF; `tset` sets an entry, valid at once when its gate is
already at the phase; `tclr` makes an entry idle; a slot or state that none of them takes raises the tag fault, code 5, naming it. -/
def Obligations.TagTableResults : Prop :=
  (∀ (d x : Opnd) (s s1 s2 : State) (k n : Nat) (a : Tagged), Starts false s k → Gives (readO x) s a s1 →
    (n < 256 ∧ holdsTag s1 (s.task k).ctx s.focus n (a.v.toNat % 2 ^ 48) ∧
        (∀ m < n, ¬ holdsTag s1 (s.task k).ctx s.focus m (a.v.toNat % 2 ^ 48)) ∨
      n = 0xFFFF ∧ ∀ m < 256, ¬ holdsTag s1 (s.task k).ctx s.focus m (a.v.toNat % 2 ^ 48)) →
    Gives (writeO d { v := BitVec.ofNat 64 n, tag := a.tag } 2) s1 () s2 →
    Next (exec (.ltag d x) s) (retired false .next k s2)) ∧
  (∀ (x y : Opnd) (s s1 s2 : State) (k : Nat) (a : Word) (b : Tagged), Starts false s k →
    Gives (readO x) s { v := a, tag := 0 } s1 → Gives (readO y) s1 b s2 → a.toNat < 256 →
    let g := gateOf (s2.space (s.task k).ctx s.focus) (b.v.toNat / 2 ^ 57 % 32)
    (b.v.toNat / 2 ^ 62 = 2 ∨ b.v.toNat / 2 ^ 62 = 1 ∧ g.phase = b.v.getLsbD 56 →
      Next (exec (.tset x y) s) (retired false .next k (s2.setTag (s.task k).ctx s.focus a.toNat
        { state := 2, gate := 0, phase := false, tag := b.v.toNat % 2 ^ 48 }))) ∧
    (b.v.toNat / 2 ^ 62 = 1 → g.phase ≠ b.v.getLsbD 56 →
      Next (exec (.tset x y) s) (retired false .next k (s2.setTag (s.task k).ctx s.focus a.toNat
        { state := 1, gate := b.v.toNat / 2 ^ 57 % 32, phase := b.v.getLsbD 56, tag := b.v.toNat % 2 ^ 48 }))) ∧
    (b.v.toNat / 2 ^ 62 = 0 ∨ b.v.toNat / 2 ^ 62 = 3 → Next (exec (.tset x y) s) (trapped s k false 5 0 [b.v]))) ∧
  (∀ (x y : Opnd) (s s1 s2 : State) (k : Nat) (a : Word) (b : Tagged), Starts false s k →
    Gives (readO x) s { v := a, tag := 0 } s1 → Gives (readO y) s1 b s2 → 256 ≤ a.toNat →
    Next (exec (.tset x y) s) (trapped s k false 5 0 [a])) ∧
  (∀ (x : Opnd) (s s1 : State) (k : Nat) (a : Word), Starts false s k → Gives (readO x) s { v := a, tag := 0 } s1 →
    let e := (s1.space (s.task k).ctx s.focus).stag a.toNat
    (a.toNat < 256 → e.state ≠ 1 →
      Next (exec (.tclr x) s) (retired false .next k (s1.modSpace (s.task k).ctx s.focus (fun sp =>
        { sp with stags := Tab.set .idle sp.stags a.toNat { e with state := 0, gate := 0, phase := false } })))) ∧
    (256 ≤ a.toNat → Next (exec (.tclr x) s) (trapped s k false 5 0 [a])))

/-- R262, R143, R115: `ldg` translates as a load, and with room in its queue, no race on a page of its element, no bulk write of its own
below and no spin to park for, takes the word's place in the queue and leaves its load outstanding. It reads no memory yet, and writes none. -/
def Obligations.GlobalLoadResults : Prop :=
  ∀ (x : GLoad) (s s1 s2 s3 : State) (k a : Nat) (b i : Word) (t : Ty) (ps : List Piece), Starts false s k →
    Gives (readG x.base.val) s { v := b, tag := 0 } s → Gives (readG x.index.val) s { v := i, tag := 0 } s →
    memAddr b i x.scale.val x.off = a → a < 2 ^ 57 → elemType x.t b = some t → t ≠ .q4x →
    queueHasRoom s k x.q → Gives (xlateSpan a (elemBytes t) .load) s ps s1 →
    (∀ p ∈ ps, Gives (checkRace p.leaf) s1 () s1) → Gives awaitPuts s1 () s1 →
    let parts := ranges ps
    (∀ p ∈ parts, Gives (checkBulk p.1 p.2) s1 () s1) →
    Gives (spinCheck parts) s1 () s1 → Gives ((lineAddrs parts).forM noteRead) s1 () s2 →
    Gives ((lineAddrs parts).forM track) s2 () s3 →
    let s4 := (issuing s3 k .plain x.q.val t a parts 0).push (.loadWordArrival (k / 8) (k % 8) s3.nextId)
    Next (exec (.ldg x) s) (retired false .next k s4) ∧
      ((∀ p ∈ parts, paKind p.1 ≠ .peer) → (retired false .next k s4).mem = s.mem)

/-- R263, R291, R298, R53: `stg` to pages that are not versioned buffers the converted bytes of D with their translation, one unit, and
merges the flags; an element that crosses a page is two pieces of one unit, each with the key region of its own page. No byte of memory
changes before the commit. A store that changes a valid region descriptor or group entry and leaves it valid, which R52 and R370 forbid,
takes instead the context fault of R17, code 69, which names the entry (the model's choice of when, log 132). -/
def Obligations.GlobalStoreResults : Prop :=
  ∀ (x : GStore) (s s1 s2 : State) (k a : Nat) (d : Tagged) (b i : Word) (t : Ty) (ps : List Piece),
    Starts false s k → Gives (readG x.d.val) s d s →
    Gives (readG x.base.val) s { v := b, tag := 0 } s → Gives (readG x.index.val) s { v := i, tag := 0 } s →
    memAddr b i x.scale.val x.off = a → a < 2 ^ 57 → elemType x.t b = some t → t ≠ .q4x →
    Gives (xlateSpan a (elemBytes t) .store) s ps s1 → (∀ p ∈ ps, pteVers p.leaf = false) →
    Gives ((lineAddrs (ranges ps)).forM noteWrite) s1 () s2 → room s2 k 1 →
    let bs := Num.bytesOf (elemBytes t) (stored t d.v).1
    let broken := s1.storeBreaks (s1.task k) (byParts (ranges ps) bs)
    (∀ e, broken = some e → Next (exec (.stg x) s) (trapped s k false 69 0 [BitVec.ofNat 64 e])) ∧
    (broken = none →
    let key (p : Piece) := if pteKey p.leaf then some (pteRegion p.leaf) else none
    (∀ p, ps = [p] →
      let s3 := withFlags (buffering s2 k (.store a p.pa bs d.tag (key p)) 1 0) k (stored t d.v).2
      Next (exec (.stg x) s) (retired false .next k s3) ∧
        (paKind p.pa ≠ .peer → (retired false .next k s3).mem = s.mem)) ∧
    (∀ p q, ps = [p, q] →
      Next (exec (.stg x) s) (retired false .next k (withFlags
        (buffering (buffering s2 k (.store a p.pa (bs.take p.n) d.tag (key p)) 1 0) k
          (.store ((a + p.n) % 2 ^ 57) q.pa (bs.drop p.n) d.tag (key q)) 0 0) k (stored t d.v).2))))

/-- R265, R275: `wtv` reads the word; when the bits that C selects hold B's, or for `.ne` do not, the word goes to the queue, else the task
parks on the line; a misaligned address is the atomic fault of cause 1, code 26.

R264: `pref` fills the TLBs where its address translates, else changes nothing; either way it retires, and no byte of memory changes. -/
def Obligations.WaitAndPrefetchResults : Prop :=
  (∀ (r : (WtvArg → Instr) × (Prop → Prop)) (x : WtvArg) (s s1 s2 : State) (k : Nat) (y : Piece) (p : Word) (b c : Tagged),
    r ∈ [(Instr.wtvEq, fun h => h), (Instr.wtvNe, fun h => ¬ h)] → Starts false s k → (x.t = .n32 ∨ x.t = .n64) →
    Gives (readG x.a.val) s { v := p, tag := 0 } s → Gives (readG x.b.val) s b s → Gives (readG x.c.val) s c s →
    let a := p.toNat % 2 ^ 57
    (a % elemBytes x.t ≠ 0 → Next (exec (r.1 x) s) (trapped s k false 26 1 [])) ∧
    (a % elemBytes x.t = 0 → (s.ctx (s.task k).ctx).detlvl ≠ 2 →
      (∀ q, x.q = some q → queueHasRoom s k q) →
      Gives (xlateSpan a (elemBytes x.t) .load) s [y] s1 → Gives (readInOrder [(y.pa, y.n)]) s1 () s1 →
      Gives (noteRead y.pa) s1 () s2 →
      let pa := y.pa
      let v := widen x.t (Num.ofBytes (s2.readParts [(pa, elemBytes x.t)]))
      let s3 := s2.seeParts s2.focus [(pa, elemBytes x.t)]
      (r.2 (waitHit (elemBytes x.t) v b.v c.v) → ∀ s4,
        (match x.q with
          | some q => Gives (pushQueue q.val
              { v := v, tag := minTag (s2.tagParts [(pa, elemBytes x.t)]) (minTag b.tag c.tag) } 1) s3 () s4
          | none => s4 = s3) →
        Next (exec (r.1 x) s) (retired false .next k s4)) ∧
      (¬ r.2 (waitHit (elemBytes x.t) v b.v c.v) →
        Next (exec (r.1 x) s) (s.finish k false (.park (.wtv pa))).cycle))) ∧
  (∀ (base index : GReg) (scale : Fin 8) (off : BitVec 22) (s : State) (k : Nat) (b i : Word), Starts false s k →
    Gives (readG base.val) s { v := b, tag := 0 } s → Gives (readG index.val) s { v := i, tag := 0 } s →
    let a := memAddr b i scale.val off
    let r := s.translate s.focus (s.task k).ctx a.toNat (s.task k).super .load
    let good := 0 ≤ a ∧ a < 2 ^ 57 ∧ ∃ pa leaf, r.1 = .ok pa leaf
    (good → Next (exec (.pref base index scale off) s) (retired false .next k r.2) ∧
      (retired false .next k r.2).mem = s.mem) ∧
    (¬ good → Next (exec (.pref base index scale off) s) (retired false .next k s)))

/-- R266: a version load with its line in a valid versioned region, no own `stv` to the line, and room in its queue takes its place
there and asks the version engine.

R267, R268: the version stores buffer the converted bytes, for `.at` with its version number; `vfloor` and `vclose` buffer their
effect on a valid region; a bad region operand raises the region fault, code 14. -/
def Obligations.VersionResults : Prop :=
  (∀ (r : (Fin 8 → GReg → GReg → Ty → BitVec 22 → Instr) × Bool) (q : Fin 8) (base ver : GReg) (t0 t : Ty) (off : BitVec 22)
    (s s1 s2 s3 : State) (k a rg e : Nat) (y : Piece) (b : Word) (v : Tagged),
    r ∈ [(Instr.ldvEq, true), (Instr.ldvLe, false)] → Starts false s k →
    Gives (readG base.val) s { v := b, tag := 0 } s → Gives (readG ver.val) s v s →
    memAddr b 0 0 off = a → a < 2 ^ 57 → elemType t0 b = some t → t ≠ .q4x → queueHasRoom s k q →
    Gives (xlateSpan a (elemBytes t) .load) s [y] s1 → y.n = elemBytes t →
    Gives (versionLine y.leaf a (elemBytes t)) s1 (rg, e) s1 → (s1.task k).pendingStv y.pa = none →
    Gives (noteRead y.pa) s1 () s2 → Gives (track y.pa) s2 () s3 →
    Next (exec (r.1 q base ver t0 off) s) (retired false .next k
      ((issuing s3 k (.version r.2 (v.v.toNat % 2 ^ 32) rg e) q.val t a [(y.pa, y.n)] v.tag).push
        (.versionRequest (k / 8) (k % 8) s3.nextId)))) ∧
  ((∀ (e : Option GReg) (d base : GReg) (t0 t : Ty) (off : BitVec 22) (s s1 s2 : State) (k a rg en : Nat)
      (y : Piece) (x w : Tagged) (b : Word), Starts false s k → Gives (readG d.val) s x s →
    Gives (readG base.val) s { v := b, tag := 0 } s → (∀ g, e = some g → Gives (readG g.val) s w s) →
    memAddr b 0 0 off = a → a < 2 ^ 57 → elemType t0 b = some t → t ≠ .q4x →
    Gives (xlateSpan a (elemBytes t) .store) s [y] s1 → let pa := y.pa; let leaf := y.leaf
    Gives (versionLine leaf a (elemBytes t)) s1 (rg, en) s1 → (∀ z ∈ (s1.task k).commit, ∀ r' va' p' bs' g' e' ky', z.eff = .stv r' va' p' bs' g' (some e') ky' → p' / 64 = pa / 64 →
      e = none ∨ e' = w.v.toNat % 2 ^ 32) →
    Gives (noteWrite pa) s1 () s2 → room s2 k 1 →
    let ev := e.map (fun _ => w.v.toNat % 2 ^ 32)
    let i := match e with
      | none => Instr.stv d base t0 off
      | some g => Instr.stvAt d base g t0 off
    Next (exec i s) (retired false .next k (withFlags
      (buffering s2 k (.stv rg a pa (Num.bytesOf (elemBytes t) (stored t x.v).1) x.tag ev
        (if pteKey leaf then some (pteRegion leaf) else none)) 1 (if e.isSome then w.tag else 0)) k (stored t x.v).2))) ∧
  (∀ (a b : GReg) (s : State) (k : Nat) (x y : Tagged), Starts false s k → Gives (readG a.val) s x s →
    Gives (readG b.val) s y s →
    let ok := x.v.toNat < 4096 ∧ (s.ctx (s.task k).ctx).vrbase.getLsbD 0 = true ∧
      (s.region (s.task k).ctx (x.v.toNat % 4096)).valid = true
    (ok → room s k 1 → Next (exec (.vfloor a b) s)
      (retired false .next k (buffering s k (.vfloor x.v.toNat (y.v.toNat % 2 ^ 32)) 1 (minTag x.tag y.tag)))) ∧
    (ok → room s k 1 → Next (exec (.vclose a) s) (retired false .next k (buffering s k (.vclose x.v.toNat) 1 x.tag))) ∧
    (¬ ok → Next (exec (.vfloor a b) s) (trapped s k false 14 0 []) ∧
      Next (exec (.vclose a) s) (trapped s k false 14 0 []))))

/-- R274, R275, R308: a returning atomic on a good target makes its task non-replayable, takes a place in ares and goes to its owner; while
a `put` of its task to the scratchpad of the owning core is outstanding, it is held; a
non-returning one is buffered, one unit, and no byte of memory changes before its commit. -/
def Obligations.AtomicResults : Prop :=
  (∀ r ∈ amoRows, ∀ (x : AmoArg) (s s1 s2 s3 : State) (k a pa leaf : Nat) (p : Word) (b c : Tagged), Starts false s k →
    Gives (readG x.a.val) s { v := p, tag := 0 } s → Gives (readG x.b.val) s b s → Gives (readG x.c.val) s c s →
    Gives (atomicTarget p (tyBytes x.t) true) s (a, pa, leaf) s1 → Gives (noteWrite pa) s1 () s2 →
    Gives (nonReplayable true) s2 () s3 →
    let s4 := issuing s3 k (.amo (ownerOf leaf a)) 11 x.t a [(pa, tyBytes x.t)] 0
    let u : Update := { updateOf s4 k a pa (.amo r.2) x.t b.v c.v (minTag b.tag c.tag) with reply := some (k, s3.nextId) }
    (s3.putsTo k (ownerOf leaf a) = false → Next (exec (r.1 x) s) (retired false .next k
      (s4.emit s.focus (s4.task k).trm (updateMessage u (ownerOf leaf a) (s4.task k).ts)))) ∧
    (s3.putsTo k (ownerOf leaf a) = true → Next (exec (r.1 x) s) (s.finish k false (.hold false)).cycle)) ∧
  (∀ r ∈ amoNrRows, ∀ (x : AmoArg) (s s1 s2 : State) (k a pa leaf : Nat) (p : Word) (b : Tagged), Starts false s k →
    Gives (readG x.a.val) s { v := p, tag := 0 } s → Gives (readG x.b.val) s b s →
    Gives (atomicTarget p (tyBytes x.t) false) s (a, pa, leaf) s1 → Gives (noteWrite pa) s1 () s2 → room s2 k 1 →
    let s3 := buffering s2 k (.update (updateOf s2 k a pa (.amo r.2) x.t b.v 0 b.tag)
      (if pteKey leaf then some (pteRegion leaf) else none)) 1 0
    Next (exec (r.1 x) s) (retired false .next k s3) ∧ (retired false .next k s3).mem = s.mem)

/-- R274: what an owner puts in memory for an atomic, and the old value that it answers. -/
def Obligations.AtomicFunctions : Prop :=
  ∀ (t : Ty) (old b c : Nat), intType t = true →
    let w := t.width
    let num (x : Nat) : Int := if t.signed then sgn w x else ((x % 2 ^ w : Nat) : Int)
    amoNew .add t old b c = (old + b) % 2 ^ w ∧
    amoNew .and t old b c = (BitVec.ofNat w old &&& BitVec.ofNat w b).toNat ∧
    amoNew .or t old b c = (BitVec.ofNat w old ||| BitVec.ofNat w b).toNat ∧
    amoNew .xor t old b c = (BitVec.ofNat w old ^^^ BitVec.ofNat w b).toNat ∧
    amoNew .swap t old b c = b % 2 ^ w ∧
    num (amoNew .min t old b c) = Min.min (num old) (num b) ∧
    num (amoNew .max t old b c) = Max.max (num old) (num b) ∧
    amoNew .cas t old b c = if old % 2 ^ w = c % 2 ^ w then b % 2 ^ w else old % 2 ^ w

/-- R290, R289: the sequentially consistent words, on a good target of a page that is not versioned, make their task non-replayable, leave an operation outstanding and
announce it; the `scst` holds its bytes for the task's own loads, with no unit, and on a valid region descriptor or group entry that it
leaves valid takes the context fault of R17, code 69 (log 132). -/
def Obligations.SequentiallyConsistentResults : Prop :=
  (∀ (x : GStore) (s s1 s2 s3 : State) (k a pa leaf : Nat) (d : Tagged) (b i : Word), Starts false s k →
    Gives (readG x.d.val) s d s → Gives (readG x.base.val) s { v := b, tag := 0 } s →
    Gives (readG x.index.val) s { v := i, tag := 0 } s → memAddr b i x.scale.val x.off = a → a < 2 ^ 57 →
    Gives (atomicTarget (BitVec.ofNat 64 a) (tyBytes x.t) false) s (a, pa, leaf) s1 → Gives (checkKeyNow leaf) s1 () s1 →
    Gives (noteWrite pa) s1 () s2 → Gives (nonReplayable true) s2 () s3 → x.t ≠ .none → x.t ≠ .q4x → room s3 k 0 →
    let bs := Num.bytesOf (elemBytes x.t) (stored x.t d.v).1
    let s4 := buffering s3 k (.shadow pa bs d.tag) 0 0
    (s1.storeBreaks (s1.task k) [(pa, bs)] = none → Next (exec (.scst x) s) (retired false .next k (withFlags
      (announcing (scIssuing s4 k x.t a pa) k (.st s4.nextId pa bs d.tag)) k (stored x.t d.v).2))) ∧
    (∀ e, s1.storeBreaks (s1.task k) [(pa, bs)] = some e →
      Next (exec (.scst x) s) (trapped s k false 69 0 [BitVec.ofNat 64 e]))) ∧
  (∀ (x : GLoad) (s s1 s2 s3 : State) (k a pa leaf : Nat) (b i : Word), Starts false s k →
    Gives (readG x.base.val) s { v := b, tag := 0 } s → Gives (readG x.index.val) s { v := i, tag := 0 } s →
    memAddr b i x.scale.val x.off = a → a < 2 ^ 57 → a % tyBytes x.t = 0 → queueHasRoom s k x.q →
    Gives (xlate a .load) s (pa, leaf) s1 → paKind pa = .hbm → s1.paOk pa = true → pteVers leaf = false →
    Gives (checkRace leaf) s1 () s1 → Gives awaitPuts s1 () s1 →
    Gives (checkBulk pa (tyBytes x.t)) s1 () s1 → Gives (rawSpinCheck [(pa, tyBytes x.t)]) s1 () s1 →
    Gives (noteRead pa) s1 () s2 → Gives (nonReplayable true) s2 () s3 →
    Next (exec (.scld x) s) (retired false .next k
      (announcing (scPlaced s3 k x.q.val x.t a [(pa, tyBytes x.t)]) k (.ld s3.nextId)))) ∧
  (∀ r ∈ scamoRows, ∀ (x : AmoArg) (s s1 s2 s3 : State) (k a pa leaf : Nat) (p : Word) (b c : Tagged), Starts false s k →
    Gives (readG x.a.val) s { v := p, tag := 0 } s → Gives (readG x.b.val) s b s → Gives (readG x.c.val) s c s →
    Gives (atomicTarget p (tyBytes x.t) true) s (a, pa, leaf) s1 → Gives (noteWrite pa) s1 () s2 →
    Gives (nonReplayable true) s2 () s3 →
    let s4 := scPlaced s3 k 11 x.t a [(pa, tyBytes x.t)]
    Next (exec (r.1 x) s) (retired false .next k (announcing s4 k
      (.amo s3.nextId (updateOf s4 k a pa (.amo r.2) x.t b.v c.v (minTag b.tag c.tag))))))

/-- R269, R270, R271, R272: `get` and `put` with a good control word and addresses in the scratchpad enter the memory port's queue when it has
room among its 8, a `get` when every earlier `put` of its task has read its list and no earlier bulk write of its task covers a byte that
its list names, by its physical or, where the page does not translate, its virtual address, and the task goes on; the queue's head
reads its list when it executes. With 8 commands in the queue the word stalls. A bad control word is the get fault of cause 1, code 23, a bad
address that of cause 3.

R111, R273: `ccset` sets a counter to 32 bits; `ccwait` retires at a counter of 0 or below, is held while something will decrement
one above 0, and raises the completion fault, code 25, when nothing will. -/
def Obligations.GetPutAndCounterResults : Prop :=
  (∀ (r : (GD3 → Instr) × Bool) (x : GD3) (s : State) (k : Nat) (d a b : Word) (c : Tagged),
    r ∈ [(Instr.get, false), (Instr.put, true)] → Starts false s k →
    Gives (readG x.d.val) s { v := d, tag := 0 } s → Gives (readG x.a.val) s { v := a, tag := 0 } s →
    Gives (readG x.b.val) s { v := b, tag := 0 } s → Gives (readG x.c.val) s c s →
    (¬ goodControl c.v → Next (exec (r.1 x) s) (trapped s k false 23 1 [])) ∧
    (goodControl c.v → (0x40000 ≤ d.toNat % 2 ^ 57 ∨ 0x40000 ≤ b.toNat % 2 ^ 57) →
      Next (exec (r.1 x) s) (trapped s k false 23 3 [])) ∧
    (goodControl c.v → d.toNat % 2 ^ 57 < 0x40000 → b.toNat % 2 ^ 57 < 0x40000 →
      (8 ≤ (s.core s.focus).gp.length → Next (exec (r.1 x) s) (s.finish k false (.stall none)).cycle) ∧
      ((s.core s.focus).gp.length < 8 → (s.task k).sect = none →
        let g := bulkCommand s k r.2 d a b c.v
        (r.2 = true ∨ (Gives awaitPuts s () s ∧ (∀ p ∈ reachedBy s k g, Gives (checkBulk p.1 p.2) s () s) ∧
          ∀ p ∈ s.misses s.focus (s.task k).super (g.listed (s.readIndexList s.focus g).1), Gives (checkBulkAt p.1 p.2) s () s)) →
        Next (exec (r.1 x) s) (retired false .next k (bulkSent s k g))))) ∧
  ((∀ (c : Fin 16) (a : GReg) (s : State) (k : Nat) (x : Tagged), Starts false s k → Gives (readG a.val) s x s →
    Next (exec (.ccset c a) s) (retired false .next k (s.modTask k (fun t =>
      { t with cc := Tab.set 0 t.cc c.val (x.v.setWidth 32) })))) ∧
  (∀ (c : Fin 16) (s : State) (k : Nat), Starts false s k →
    let v := (Tab.get 0 (s.task k).cc c.val).toInt
    (v ≤ 0 → Next (exec (.ccwait c) s) (retired false .next k s)) ∧
    (0 < v → s.names k c.val = true → Next (exec (.ccwait c) s) (s.finish k false (.hold false)).cycle) ∧
    (0 < v → s.names k c.val = false → Next (exec (.ccwait c) s) (trapped s k false 25 0 [BitVec.ofNat 64 c.val]))))

/-- R280, R282: `logp` with a control word that names a function and a type it takes buffers its entry; `mrg` stands still, its merge
under way, and goes on with what MERGE_COMPLETE brings.

R283: `jset` buffers a count from 1 to 2^31 − 1 and a header for a line; `arr` buffers an arrival; a count outside is the atomic fault
of cause 5, code 26.

R284: a fence retires when nothing it waits for is outstanding, changing nothing else, and is held otherwise. -/
def Obligations.LogJoinAndFenceResults : Prop :=
  ((∀ (x : G3) (s : State) (k : Nat) (a b c : Tagged) (f : AFn), Starts false s k → Gives (readG x.a.val) s a s →
    Gives (readG x.b.val) s b s → Gives (readG x.c.val) s c s →
    (c.v.toNat / 2 ^ 16 % 2 ^ 11 = 0 → c.v.toNat % 2 ^ 8 = 0 → c.v.toNat / 2 ^ 12 % 16 = f.code → f ≠ .cas →
      c.v.toNat / 2 ^ 8 % 16 ≠ 15 → (tyOf (c.v.toNat / 2 ^ 8 % 16)).isIn f.types = true → room s k 1 →
      Next (exec (.logp x) s) (retired false .next k (buffering s k
        (.log (BitVec.ofNat 64 (a.v.toNat % 2 ^ 57)) b.v c.v (minTag b.tag c.tag)) 1 a.tag))) ∧
    (c.v.toNat % 2 ^ 8 ≠ 0 ∨ c.v.toNat / 2 ^ 16 % 2 ^ 11 ≠ 0 ∨ 8 ≤ c.v.toNat / 2 ^ 12 % 16 →
      Next (exec (.logp x) s) (trapped s k false 26 7 []))) ∧
  (∀ (d : GReg) (s : State) (k : Nat), Starts false s k → (∀ e ∈ (s.task k).sched, e.reg ≠ d.val) →
    Next (exec (.mrg d) s) (awaiting ((s.modCore s.focus (fun c => { c with merging := true })).push
      (.mergeComplete s.focus)) k (.merge d.val) false).cycle)) ∧
  (∀ (x : G3) (s s1 : State) (k a pa leaf : Nat) (p b c : Tagged), Starts false s k → Gives (readG x.a.val) s p s →
    Gives (joinTarget p) s (a, pa, leaf) s1 →
    let key := if pteKey leaf then some (pteRegion leaf) else none
    (Gives (readG x.b.val) s1 b s1 → Gives (readG x.c.val) s1 c s1 →
      (b.v.toNat ≠ 0 → b.v.toNat < 2 ^ 31 → room s1 k 1 →
        Next (exec (.jset x) s) (retired false .next k (buffering s1 k
          (.update (updateOf s1 k a pa .jset .none b.v c.v 0) key) 1 (minTag b.tag c.tag)))) ∧
      ((b.v.toNat = 0 ∨ 2 ^ 31 ≤ b.v.toNat) → Next (exec (.jset x) s) (trapped s k false 26 5 []))) ∧
    (room s1 k 1 → Next (exec (.arr x.a) s) (retired false .next k (buffering s1 k
      (.update (updateOf s1 k a pa .join .none 0 0 0) key) 1 0)))) ∧
  (∀ r ∈ fenceRows, ∀ (s : State) (k : Nat), Starts false s k →
    (¬ fenceWaits s k r.2 → Next (exec r.1 s) (retired false .next k s)) ∧
    (fenceWaits s k r.2 → Next (exec r.1 s) (s.finish k false (.hold false)).cycle))

/-- R285, R286: `kpass` by the core that holds a valid region's key buffers the pass or, with bit 13, the release; reserved bits, a key
not held, or a second pass is the key fault, code 27, naming the region; `kqry` writes whether the key is held and by whom. -/
def Obligations.KeyResults : Prop :=
  (∀ (a b : GReg) (s : State) (k : Nat) (x y : Tagged), Starts false s k → Gives (readG a.val) s x s →
    Gives (readG b.val) s y s →
    let r := x.v.toNat % 4096
    let again := ∃ e ∈ (s.task k).commit, ∃ h, e.eff = .kpass r h
    let mine := (s.task k).ctx * 4096 + r ∈ (s.core s.focus).keys
    (x.v.toNat < 4096 → y.v.toNat < 2 ^ 14 → (s.region (s.task k).ctx r).valid = true → ¬ again → mine → room s k 1 →
      Next (exec (.kpass a b) s) (retired false .next k (buffering s k
        (.kpass r (if y.v.getLsbD 13 then none else some (y.v.toNat % 8192))) 1 (minTag x.tag y.tag)))) ∧
    ((4096 ≤ x.v.toNat ∨ 2 ^ 14 ≤ y.v.toNat ∨ (s.region (s.task k).ctx r).valid = true ∧ (again ∨
        ¬ mine ∧ ((s.task k).super = false ∨ (s.region (s.task k).ctx r).held = true))) →
      Next (exec (.kpass a b) s) (trapped s k false 27 0 [BitVec.ofNat 64 r]))) ∧
  (∀ (d a : GReg) (s s1 : State) (k : Nat) (x : Tagged), Starts false s k → Gives (readG a.val) s x s →
    let r := s.region (s.task k).ctx (x.v.toNat % 4096)
    Gives (writeG d.val { v := BitVec.ofNat 64 ((if r.held then 2 ^ 63 else 0) + r.holder), tag := x.tag } 4) s () s1 →
    Next (exec (.kqry d a) s) (retired false .next k s1))

/-- R287, R288: `lkel` on a free lock opens a section at its line; on a held one, the section aborts at once with cause 2 and control goes to
the target; `lkex` stops the tracking; `lkab` aborts with cause 4 and its code, and does nothing outside a section. -/
def Obligations.LockElisionResults : Prop :=
  (∀ (a b : GReg) (s s1 s2 : State) (k : Nat) (p q : Word) (ps : List Piece), Starts false s k →
    Gives (readG a.val) s { v := p, tag := 0 } s → Gives (readG b.val) s { v := q, tag := 0 } s →
    (s.task k).sect = none → p.toNat % 8 = 0 → q.toNat % 8 = 0 → Gives (xlateSpan (p.toNat % 2 ^ 57) 8 .load) s ps s1 →
    (∀ y ∈ ps, Gives (checkRace y.leaf) s1 () s1) → let parts := ranges ps
    Gives (readInOrder parts) s1 () s1 → Gives ((lineAddrs parts).forM noteRead) s1 () s2 →
    let x : Section := { lines := (lineAddrs parts).map (· / 64), base := (s2.task k).commit.length
                         target := q.toNat % 2 ^ 57, closed := false, dead := none }
    let lock := Num.ofBytes (overlay (s2.readParts parts) ((s2.task k).ownBytes parts))
    (lock = 0 → Next (exec (.lkel a b) s) (retired false .next k (s2.modTask k (fun t => { t with sect := some x })))) ∧
    (lock ≠ 0 → ∃ t, Next (exec (.lkel a b) s) t ∧ (t.task k).pc = q.toNat % 2 ^ 57 ∧ (t.task k).sect = none ∧
      (t.task k).reg 1 = { v := 2, tag := 0 })) ∧
  (∀ (s : State) (k : Nat), Starts false s k →
    Next (exec .lkex s) (retired false .next k (s.modTask k (fun t =>
      { t with sect := t.sect.map (fun (x : Section) => { x with closed := true }) })))) ∧
  (∀ (a : GReg) (s : State) (k : Nat) (x : Tagged), Starts false s k → Gives (readG a.val) s x s →
    ((s.task k).sect = none → Next (exec (.lkab a) s) (retired false .next k s)) ∧
    ((s.task k).sect ≠ none → Next (exec (.lkab a) s) (s.abortSection k 4 (x.v.toNat % 256)).cycle))

/-- R340, R342: `send` with a good header buffers its message, with prio 7 of a user task sent as 6, in a quarter of len + 1 units rounded up;
`sendo` likewise to the owning core of its line; a length above 8 is the message fault of cause 1, code 22.

R343: `spawn` with a good header of tag 0, far 0 and trm 0, an aligned entry and room for its units sends the slot request to the target at
level 0 and stands still until the answer; an entry that is not aligned is the message fault of cause 6. -/
def Obligations.SendAndSpawnResults : Prop :=
  (∀ (a b : GReg) (s : State) (k : Nat) (h : Tagged), Starts false s k → Gives (readG a.val) s h s →
    (headerGood s k h.v b.val true → payloadReady s k b.val (hdrLen h.v) → room s k (unitsOf (hdrLen h.v)) →
      let m := messageOf s k
        (mkHdr (hdrTs h.v) (hdrFar h.v) (hdrCore h.v) (hdrTag h.v) (prioOf s k h.v) (hdrLen h.v) 0)
        (payloadOf s k b.val (hdrLen h.v))
      Next (exec (.send a b) s) (retired false .next k (buffering s k (.send m) (unitsOf (hdrLen h.v)) h.tag))) ∧
    (8 < hdrLen h.v → Next (exec (.send a b) s) (trapped s k false 22 1 []))) ∧
  (∀ (a b c : GReg) (s s1 : State) (k pa leaf : Nat) (h : Tagged) (p : Word), Starts false s k →
    Gives (readG a.val) s h s → headerGood s k h.v b.val false → payloadReady s k b.val (hdrLen h.v) →
    Gives (readG c.val) s { v := p, tag := 0 } s → Gives (xlate (p.toNat % 2 ^ 57) .load) s (pa, leaf) s1 →
    room s1 k (unitsOf (hdrLen h.v)) →
    let m := messageOf s1 k
      (mkHdr (hdrTs h.v) false (ownerOf leaf (p.toNat % 2 ^ 57)) (hdrTag h.v) (prioOf s k h.v) (hdrLen h.v) 0)
      (payloadOf s k b.val (hdrLen h.v))
    Next (exec (.sendo a b c) s) (retired false .next k (buffering s1 k (.send m) (unitsOf (hdrLen h.v)) h.tag))) ∧
  (∀ (x : GD3) (s : State) (k : Nat) (h e : Word), Starts true s k → Gives (readG x.a.val) s { v := h, tag := 0 } s →
    Gives (readG x.b.val) s { v := e, tag := 0 } s → hdrLen h ≤ 8 →
    (x.c.val = 0 ∨ hdrLen h = 0 ∨ x.c.val + hdrLen h ≤ 64) → hdrTrm h = 0 → hdrTag h = 0 → hdrFar h = false →
    (e.toNat % 8 = 0 → e.toNat < 2 ^ 57 → (∀ y ∈ (s.task k).sched, y.reg ≠ x.d.val) → payloadReady s k x.c.val (hdrLen h) →
      room s k (unitsOf (hdrLen h + 1)) → (s.ctx (s.task k).ctx).detlvl = 0 →
      let m : Message := { messageOf s k
        (mkHdr ((s.task k).spawns % 2 ^ 32) false (hdrCore h) 14 (prioOf s k h) (hdrLen h) 0)
        (payloadOf s k x.c.val (hdrLen h)) with entry := some e.toNat }
      Next (exec (.spawn x) s)
        (awaiting (s.push (.spawnSlotRequest (k / 8) (k % 8) m)) k (.spawn x.d.val m) true).cycle) ∧
    (e.toNat % 8 ≠ 0 → Next (exec (.spawn x) s) (trapped s k true 22 6 [])))

/-- R346, R347: `tagen` buffers its masks and writes the enables as its task leaves them, a user task barred from the low 16 tags by the
privilege fault; `tagp` writes the pending mask; `tsset` buffers a good entry, and a bad one is the message fault of cause 7.

R348, R340: `gsync` of a group that the core names buffers its arrival, the continuation's core, len and trm filled in by the device;
another group is the message fault of cause 8. -/
def Obligations.RouteTagAndBarrierResults : Prop :=
  ((∀ (d a b : GReg) (s : State) (k : Nat) (m v : Tagged) (old : Word), Starts false s k → Gives (readG a.val) s m s →
    Gives (readG b.val) s v s → ((s.task k).super = true ∨ m.v.toNat % 2 ^ 16 = 0) → room s k 1 →
    (∀ e ∈ (s.task k).commit, ∀ x y, e.eff ≠ .tagen x y) →
    (∀ i, i < 64 → old.getLsbD i = enables s (s.task k).ctx s.focus i) →
    ∀ s1, Gives (writeG d.val { v := old, tag := 0 } 1) (buffering s k (.tagen m.v v.v) 1 0) () s1 →
    Next (exec (.tagen d a b) s) (retired false .next k s1)) ∧
  (∀ (d : GReg) (s s1 : State) (k : Nat) (w : Word), Starts false s k →
    (∀ i, i < 64 → w.getLsbD i = (s.tagEntry (s.task k).ctx s.focus i).pend) →
    Gives (writeG d.val { v := w, tag := 0 } 1) s () s1 →
    Next (exec (.tagp d) s) (retired false .next k s1)) ∧
  (∀ (x : G3) (s : State) (k : Nat) (a b c : Tagged), Starts false s k → Gives (readG x.a.val) s a s →
    Gives (readG x.b.val) s b s → Gives (readG x.c.val) s c s →
    (¬ badTsset s k a.v b.v c.v → room s k 1 →
      Next (exec (.tsset x) s) (retired false .next k (buffering s k (.tsset a.v.toNat b.v c.v) 1 b.tag))) ∧
    (badTsset s k a.v b.v c.v → Next (exec (.tsset x) s) (trapped s k false 22 7 [])))) ∧
  (∀ (a b : GReg) (s : State) (k : Nat) (x h : Tagged), Starts false s k → Gives (readG a.val) s x s →
    Gives (readG b.val) s h s → hdrTag h.v ≠ 0 → hdrTag h.v ≠ 15 → ((s.task k).super = true ∨ 16 ≤ hdrTag h.v) →
    hdrFar h.v = false → hdrTrm h.v = 0 →
    let g := x.v.toNat % 256
    (g ∈ s.memberGroups (s.task k).ctx s.focus → s.focus < 8192 → room s k 1 →
      Next (exec (.gsync a b) s) (retired false .next k (buffering s k
        (.gsync g (mkHdr (hdrTs h.v) false s.focus (hdrTag h.v) (prioOf s k h.v) 2 0)) 1 h.tag))) ∧
    (g ∉ s.memberGroups (s.task k).ctx s.focus → Next (exec (.gsync a b) s) (trapped s k false 22 8 [])))

/-- R344, R345, R293, R412: the `done` of an inline child, whose late results arrive first, restores its parent at the word after its `spawn`
with 1 in D; another `done` whose engine work is complete commits, but for one with a store to host memory before stage C, which is held;
one whose engine work is not complete stalls on the gate of the lock that holds the next store back (R232), or is held. -/
def Obligations.DoneResults : Prop :=
  (∀ (s : State) (k : Nat) (f : Frame) (rest : List Frame), Starts true s k → (s.task k).inl = f :: rest →
    let t := retired true (.jump f.pc) k ((s.landLate k).modTask k (·.endInline f rest))
    Next (exec .done s) t ∧ (t.task k).pc = f.pc ∧ (t.task k).inl = rest ∧ (t.task k).loops = f.loops ∧
      (f.d ≠ 0 → (t.task k).reg f.d = { v := 1, tag := 0 }) ∧
      (∀ n, n ≠ f.d → (t.task k).reg n = Tab.get zeroT f.g n)) ∧
  (∀ (s : State) (k : Nat), Starts true s k → (s.task k).inl = [] → s.orderedGroup (s.task k) = none →
    (s.commitReady k = true → ¬ waitsForHost s k → Next (exec .done s) (s.commitTask k).cycle) ∧
    (s.commitReady k = true → waitsForHost s k → Next (exec .done s) (s.finish k true (.hold false)).cycle) ∧
    (∀ g, s.commitReady k = false → s.storeStall (k / 8) = some g →
      Next (exec .done s) (s.finish k true (.stall (some g))).cycle) ∧
    (s.commitReady k = false → s.storeStall (k / 8) = none → Next (exec .done s) (s.finish k true (.hold false)).cycle))

/-- R353 to R356: `dpush` reserves an entry and buffers its range, or writes 1 when the deque is full and 2 when the range is empty; `dpop` takes
the youngest entry, `dsplit` its first half, each held until the commit; an empty deque gives zeros; `dlen` writes the count; `dsteal` sends
its request at level 0 and stands still. -/
def Obligations.DequeResults : Prop :=
  (∀ (d a b : GReg) (s s1 : State) (k : Nat) (x y : Tagged), Starts false s k → Gives (readG a.val) s x s →
    Gives (readG b.val) s y s →
    let r : Range := { lo := x.v.toNat % 2 ^ 32, hi := x.v.toNat / 2 ^ 32, tag := y.v.toNat % 2 ^ 32 }
    let q := dequeOf s k
    (r.lo < r.hi → q.ranges.length + q.reserved < 32 → room s k 1 →
      Gives (writeG d.val { v := 0, tag := 0 } 1)
        ((withDeque (buffering s k (.push r) 1 0) k { q with reserved := q.reserved + 1 }).modTask k
          (fun t => { t with pushes := t.pushes + 1 })) () s1 →
      Next (exec (.dpush d a b) s) (retired false .next k s1)) ∧
    (r.lo < r.hi → 32 ≤ q.ranges.length + q.reserved → Gives (writeG d.val { v := 1, tag := 0 } 1) s () s1 →
      Next (exec (.dpush d a b) s) (retired false .next k s1)) ∧
    (r.hi ≤ r.lo → Gives (writeG d.val { v := 2, tag := 0 } 1) s () s1 →
      Next (exec (.dpush d a b) s) (retired false .next k s1))) ∧
  (∀ (d : GReg) (s s1 : State) (k : Nat) (l : List Range) (r : Range), Starts false s k →
    (dequeOf s k).ranges = l ++ [r] →
    let q := dequeOf s k
    (Gives (writePair d.val (some r)) (holding (withDeque s k { ranges := l, reserved := q.reserved + 1 }) k r) () s1 →
      Next (exec (.dpop d) s) (retired false .next k s1)) ∧
    (r.hi - r.lo ≠ 1 → q.ranges.length + q.reserved < 32 →
      Gives (writePair d.val (some (firstHalf r)))
        (holding (withDeque s k { ranges := l ++ [secondHalf r], reserved := q.reserved + 1 }) k (firstHalf r)) () s1 →
      Next (exec (.dsplit d) s) (retired false .next k s1)) ∧
    ((r.hi - r.lo = 1 ∨ 32 ≤ q.ranges.length + q.reserved) →
      Gives (writePair d.val (some r)) (holding (withDeque s k { ranges := l, reserved := q.reserved + 1 }) k r) () s1 →
      Next (exec (.dsplit d) s) (retired false .next k s1))) ∧
  (∀ (d : GReg) (s s1 : State) (k : Nat), Starts false s k → (dequeOf s k).ranges = [] →
    Gives (writePair d.val none) s () s1 →
    Next (exec (.dpop d) s) (retired false .next k s1) ∧ Next (exec (.dsplit d) s) (retired false .next k s1)) ∧
  (∀ (d : GReg) (s s1 : State) (k : Nat), Starts false s k →
    Gives (writeG d.val { v := BitVec.ofNat 64 (dequeOf s k).ranges.length, tag := 0 } 1) s () s1 →
    Next (exec (.dlen d) s) (retired false .next k s1)) ∧
  (∀ (d a : GReg) (s : State) (k : Nat) (v : Word), Starts false s k → Gives (readG a.val) s { v := v, tag := 0 } s →
    (∀ y ∈ (s.task k).sched, y.reg ≠ d.val ∧ y.reg ≠ d.val + 1) → (s.ctx (s.task k).ctx).detlvl = 0 →
    Next (exec (.dsteal d a) s) (awaiting (s.push (.stealRequest (k / 8) (k % 8) (v.toNat % 8192))) k
      (.steal d.val (v.toNat % 8192)) false).cycle)

/-- R350, R351, R352, R313: `nalloc` takes a node from its core's cache and buffers its open line in two units; `nfree`, `rlk`, `rfuse` and `meet`
buffer their messages to the owner of the node, with prio 7 for those of slot 7 and prio 6 for a meet, which is the model's choice and not
R335's (log 13); the share words buffer their update of the header line 64 bytes below. -/
def Obligations.NetWordResults : Prop :=
  (∀ (d a : GReg) (s s1 s3 : State) (k va pa leaf : Nat) (rest : List Nat) (x : Tagged), Starts false s k →
    Gives (readG a.val) s x s → x.v.toNat % 2 ^ 16 ≠ 0 → x.v.toNat < 2 ^ 20 → x.v.toNat / 2 ^ 16 % 8 ≤ 6 →
    ¬ (x.v.toNat / 2 ^ 19 = 1 ∧ x.v.toNat / 2 ^ 16 % 8 = 6) → (s.ctx (s.task k).ctx).nhbase.getLsbD 0 = true →
    (s.cc (s.task k).ctx s.focus).nodeCache = va :: rest → Gives (xlate va .store) s (pa, leaf) s1 →
    Gives (checkCapacity pa false) s1 () s1 → pteHome leaf = 2 → room s1 k 2 →
    let w0 := nodeHeaderOf x.v.toNat s.focus
    let s2 := ((buffering s1 k (.node va pa w0 (x.v.toNat / 2 ^ 19 % 2 == 1)) 2 0).modCc (s.task k).ctx s.focus
      (fun c => { c with nodeCache := rest })).modTask k (fun t => { t with nodes := t.nodes ++ [va] })
    Gives (writeG d.val { v := BitVec.ofNat 64 va, tag := x.tag } 1) s2 () s3 →
    Next (exec (.nalloc d a) s) (retired false .next k s3)) ∧
  (∀ (a b : GReg) (s : State) (k : Nat) (x y : Tagged), Starts false s k → Gives (readG a.val) s x s →
    Gives (readG b.val) s y s → room s k 1 →
    let p := x.v.toNat % 2 ^ 57
    let q := y.v.toNat % 2 ^ 57
    let ctx := (s.task k).ctx
    (p % 64 = 0 → Next (exec (.nfree a) s) (retired false .next k
      ((buffering s k (.send (serviceOf s k 3 (nodeOwner p) [] (.nfree ctx p))) 1 x.tag).modTask k
        (fun t => { t with freed := p :: t.freed })))) ∧
    (p % 64 ≠ 0 → Next (exec (.nfree a) s) (trapped s k false 66 0 [])) ∧
    (p % 8 ≠ 0 → p % 8 ≠ 7 → q % 8 = 0 → q ∈ (s.task k).nodes → p / 64 * 64 ∉ (s.task k).freed →
      Next (exec (.rlk a b) s) (retired false .next k
        (buffering s k (.send (serviceOf s k 3 (nodeOwner p) [] (.hinge ctx p q))) 1 (minTag x.tag y.tag)))) ∧
    (p % 8 ≠ 0 → p % 8 ≠ 7 → q % 8 ≠ 0 → q % 8 ≠ 7 → p ≠ q → p / 64 * 64 ∉ (s.task k).freed →
      q / 64 * 64 ∉ (s.task k).freed →
      Next (exec (.rfuse a b) s) (retired false .next k
        (buffering s k (.send (serviceOf s k 3 (nodeOwner p) [] (.fuse ctx p q))) 1 (minTag x.tag y.tag)))) ∧
    (p % 64 = 0 → q % 64 = 0 → p ≠ q →
      Next (exec (.meet a b) s) (retired false .next k
        (buffering s k (.send (serviceOf s k 1 (nodeOwner (Min.min p q))
          [BitVec.ofNat 64 (Min.min p q), BitVec.ofNat 64 (Max.max p q)] (.meet ctx (Min.min p q) (Max.max p q)))) 1
          (minTag x.tag y.tag))))) ∧
  (∀ (r : (GReg → Instr) × UpdKind) (a : GReg) (s s1 : State) (k pa leaf : Nat) (x : Word),
    r ∈ [(Instr.tshr, .tshr), (Instr.tdrop, .tdrop), (Instr.tseal, .tseal)] → Starts false s k →
    Gives (readG a.val) s { v := x, tag := 0 } s → x.toNat % 64 = 0 →
    let va := (x.toNat % 2 ^ 57 + 2 ^ 57 - 64) % 2 ^ 57
    Gives (xlate va .store) s (pa, leaf) s1 → paKind pa = .hbm → s1.paOk pa = true → pteVers leaf = false → room s1 k 1 →
    Next (exec (r.1 a) s) (retired false .next k
      (buffering s1 k (.update (updateOf s1 k va pa r.2 .none 0 0 0) none) 1 0)))

/-- R184, R185: `trap` of a user task takes the software trap, code 30, with its number; in supervisor mode the hive kernel halts and a
machine error (of the model's number 1, log 28) is reported. `sys.resume` and `sys.kill` buffer their effect until the commit; a handle that
names no fibre of this core and context raises the fibre fault, code 7; `sys.state` writes 0, 1 or 2, and 2 also for a fibre whose resume has
committed and waits for a slot (the model's choice, log 131). -/
def Obligations.TrapAndFibreResults : Prop :=
  (∀ (c : BitVec 16) (s : State) (k : Nat), Starts true s k →
    ((s.task k).super = false → Next (exec (.trap c) s) (trapped s k true 30 0 [c.setWidth 64])) ∧
    ((s.task k).super = true → ∃ t, Next (exec (.trap c) s) t ∧ (t.hive (hiveOf s.focus)).halted = true ∧
      t.machineErrors = s.machineErrors ++ [(1, s.focus)] ∧ t.task k = s.task k)) ∧
  (∀ (r : (Opnd → Instr) × (Nat → Effect)) (x : Opnd) (s s1 : State) (k : Nat) (h : Word),
    r ∈ [(Instr.sysResume, Effect.fibreResume), (.sysKill, .fibreKill)] → Starts true s k →
    Gives (readO x) s { v := h, tag := 0 } s1 →
    (namesFibre s1 k h.toNat → room s1 k 0 →
      Next (exec (r.1 x) s) (retired true .next k (buffering s1 k (r.2 h.toNat) 0 0))) ∧
    (¬ namesFibre s1 k h.toNat → Next (exec (r.1 x) s) (trapped s k true 7 0 [h]))) ∧
  (∀ (d x : Opnd) (s s1 s2 : State) (k n : Nat) (h : Word), Starts true s k → Gives (readO x) s { v := h, tag := 0 } s1 →
    (n = 0 ∧ ¬ namesFibre s1 k h.toNat ∨
      n = 1 ∧ namesFibre s1 k h.toNat ∧ (savedOf s1 h.toNat).pending = false ∧
        (∀ p ∈ s1.tasks, p.2.stat = .free ∨ ∀ b ∈ p.2.commit, b.eff ≠ .fibreResume h.toNat) ∧
        (∀ p ∈ s1.saved, ∀ b ∈ p.2.task.commit, b.eff ≠ .fibreResume h.toNat) ∨
      n = 2 ∧ namesFibre s1 k h.toNat ∧ ((savedOf s1 h.toNat).pending = true ∨
        (∃ p ∈ s1.tasks, p.2.stat ≠ .free ∧ ∃ b ∈ p.2.commit, b.eff = .fibreResume h.toNat) ∨
        ∃ p ∈ s1.saved, ∃ b ∈ p.2.task.commit, b.eff = .fibreResume h.toNat)) →
    Gives (writeO d { v := BitVec.ofNat 64 n, tag := 0 } 4) s1 () s2 →
    Next (exec (.sysState d x) s) (retired true .next k s2))

/-- R186: an `eret` of a supervisor task, on a handle that it takes, commits its handler as at `done` with the return buffered; a user task
raises the privilege fault, code 6; another handle the fibre fault, code 7.

R186, R385: what the return does at the handler's commit. A trapped task that `eret.retry` names is resumed where it stands, one that
`eret.next` names past its trapped word or without its faulting command, each once the context may run; `eret.kill` frees its area (with
no other saved task about to return to the core, and a trapped word that closes its block closing one whose signature agrees, R156). That the
word passed over counts as retired, in its block, at a loop's end and in this judgement of its signature, is the model's reading of R186 (log
16), which says no more than that the task continues at the next word. -/
def Obligations.TrapReturnResults : Prop :=
  (∀ r ∈ eretRows, ∀ (x : Opnd) (s s1 : State) (k : Nat) (h : Word), Starts true s k →
    ((s.task k).super = false → ∃ n, Next (exec (r.1 x) s) (trapped s k true 6 0 [Config.mnemonicCode n])) ∧
    ((s.task k).super = true → Gives (readO x) s { v := h, tag := 0 } s1 →
      (¬ eretTakes s1 h.toNat → Next (exec (r.1 x) s) (trapped s k true 7 0 [h])) ∧
      (eretTakes s1 h.toNat → room s1 k 0 →
        let s2 := buffering s1 k (.eret h.toNat r.2) 0 0
        (s2.orderedGroup (s2.task k) = none → s2.commitReady k = true → ¬ waitsForHost s2 k →
          Next (exec (r.1 x) s) (s2.commitTask k).cycle)))) ∧
  (∀ (s : State) (h : Nat), (∀ p ∈ s.saved, p.2.pending = true → s.canStart p.2.task.ctx = false) →
    (savedOf s h).state = 2 →
    (s.ctx (savedOf s h).task.ctx).stopped = true → s.num (h + 16) 8 = (savedOf s h).task.pc → (savedOf s h).mismatch = none →
    (∀ r, r = savedOf (s.eret h .retry) h → r.state = 2 ∧ r.named = true ∧ r.pending = (savedOf s h).pending ∧ r.task.pc = (savedOf s h).task.pc ∧
        r.task.g = (savedOf s h).task.g ∧ r.vq = (savedOf s h).vq) ∧
    (∀ r, r = savedOf (s.eret h .next) h → r.named = true ∧ r.task.g = (savedOf s h).task.g ∧
        ((savedOf s h).task.engFault = none → r.task.pc = (savedOf s h).task.passWord.pc ∧
          (s.eret h .next).word (h + 16) = BitVec.ofNat 64 (savedOf s h).task.passWord.pc ∧ r.vq = (savedOf s h).vq) ∧
        (∀ i, (savedOf s h).task.engFault = some (.vector, i) → r.task.pc = (savedOf s h).task.pc ∧
          r.vq = (savedOf s h).vq.filter (fun c => c.place != i))) ∧
    savedOf (s.eret h .kill) h = .empty)

/-- R187, R162: `gsr` writes what a register holds at issue; a mode that may not read it raises the privilege fault. `ssr` is held while a result
is outstanding, and every late one arrives first; its write of a register that the mode may only read is ignored; FSTAT clears the flags written
as 1 (R122). -/
def Obligations.SystemRegisterResults : Prop :=
  (∀ (d : Opnd) (num : BitVec 16) (s s1 : State) (k : Nat), Starts false s k →
    ((sysAccess num.toNat).1.allows (s.task k).super = true →
      Gives (writeO d { v := s.readSys k num.toNat, tag := 0 } 4) s () s1 →
      Next (exec (.gsr d num) s) (retired false .next k s1)) ∧
    ((sysAccess num.toNat).1.allows (s.task k).super = false →
      ∃ n, Next (exec (.gsr d num) s) (privileged s k n (some num.toNat)))) ∧
  (∀ r ∈ openRegs, ∀ (s : State) (k : Nat), s.readSys k r.1 = BitVec.ofNat 64 (r.2 s k) ∧
    (sysAccess r.1).1.allows false = true) ∧
  (∀ (x : Opnd) (num : BitVec 16) (s s1 s2 : State) (k : Nat) (a : Tagged), Starts false s k →
    (((sysAccess num.toNat).1.allows (s.task k).super = true ∨ (sysAccess num.toNat).2.allows (s.task k).super = true) →
      ((s.task k).loads ≠ [] → Next (exec (.ssr num x) s) (s.finish k false (.hold false)).cycle) ∧
      ((s.task k).loads = [] → Gives (readO x) (s.landLate k) a s1 →
        ((sysAccess num.toNat).2.allows (s.task k).super = false →
          Next (exec (.ssr num x) s) (retired false .next k s1)) ∧
        ((sysAccess num.toNat).2.allows (s.task k).super = true → Gives (sysWrite num.toNat a.v) s1 () s2 →
          Next (exec (.ssr num x) s) (retired false .next k s2)) ∧
        (num.toNat = 0x140 → Next (exec (.ssr num x) s) (retired false .next k
          (s1.modTask k (fun t => { t with fstat := t.fstat &&& ~~~a.v })))))) ∧
    ((sysAccess num.toNat).1.allows (s.task k).super = false → (sysAccess num.toNat).2.allows (s.task k).super = false →
      ∃ n, Next (exec (.ssr num x) s) (privileged s k n (some num.toNat))))

/-- R188, R80: an invalidation by a supervisor task: at core scope it removes what it names from the core's tables, at hive scope from those of
every core of the hive and the hive's second level, each once no access of another task there that used it is unserved (R80 and R188 say every
access; that the issuing task's own are excluded is the model's reading, log 79); at device scope it sets
its counter to 512, tells every hive and goes on. In user mode it raises the privilege fault. -/
def Obligations.InvalidationWords : Prop :=
  ∀ r ∈ tlbiRows, ∀ (x : TlbiArg) (s s1 s2 : State) (k va ctx : Nat) (a : Word) (b : Tagged), Starts false s k →
    ((s.task k).super = false → ∃ n, Next (exec (r.1 x) s) (privileged s k n none)) ∧
    ((s.task k).super = true →
      (if r.2 = 0 then Gives (readO x.a) s { v := a, tag := 0 } s1 ∧ va = a.toNat % 2 ^ 57 else s1 = s ∧ va = 0) →
      (if r.2 = 2 then s2 = s1 ∧ ctx = 0 else Gives (readO x.b) s1 b s2 ∧ ctx = b.v.toNat % 4096) →
      (x.scope = .core →
        s2.accessesCovered [s.focus] r.2 va ctx (s2.killSize [s.focus] none r.2 va ctx) ((s2.task k).ctx, (s2.task k).tid) = false →
        ∃ t, Next (exec (r.1 x) s) (retired false .next k t) ∧ noneLeft (t.core s.focus) r.2 va ctx ∧
          t.mem = s2.mem ∧ t.tasks = s2.tasks ∧ (∀ c, c ≠ s.focus → t.core c = s2.core c)) ∧
      (x.scope = .hive →
        s2.accessesCovered (hiveCores (hiveOf s.focus)) r.2 va ctx
          (s2.killSize (hiveCores (hiveOf s.focus)) (some (hiveOf s.focus)) r.2 va ctx) ((s2.task k).ctx, (s2.task k).tid) = false →
        ∃ t, Next (exec (r.1 x) s) (retired false .next k t) ∧ (∀ c ∈ hiveCores (hiveOf s.focus), noneLeft (t.core c) r.2 va ctx) ∧
          (∀ e, e ∈ (t.hive (hiveOf s.focus)).tlb ∨ e ∈ (t.hive (hiveOf s.focus)).victims → killsEntry r.2 va ctx e = false) ∧
          t.mem = s2.mem ∧ t.tasks = s2.tasks) ∧
      (x.scope = .dev →
        ∃ t, Next (exec (r.1 x) s) (retired false .next k t) ∧ Tab.get 0 (t.task k).cc x.cc.val = 512 ∧ t.mem = s2.mem ∧
          t.pending = s2.pending ++ (List.range 512).map (fun h => .invalidationMessage h s2.nextId) ∧
          t.invals = s2.invals ++ [{ id := s2.nextId, kind := r.2, va := va, ctx := ctx, tid := (s2.task k).tid, cc := x.cc.val }]))

/-- R189, R190, R191, R399, R400: `dbgb` without a debugger reads A and retires, with one it stops its task at the next word; `dump` of an unaligned
buffer writes 3 and nothing else, another writes the status of its dump; `pctl` writes the counter as it was, and op 1 clears it, op 2 programs
it; a bad control word is the counter fault, code 8, and a write in user mode the privilege fault. -/
def Obligations.DebugAndCounterResults : Prop :=
  (∀ (x : Opnd) (s s1 : State) (k : Nat) (a : Tagged), Starts false s k → Gives (readO x) s a s1 →
    ((s1.ctx (s1.task k).ctx).debugRing = none → Next (exec (.dbgb x) s) (retired false .next k s1)) ∧
    (∀ s2, (s1.ctx (s1.task k).ctx).debugRing ≠ none → Gives (retire false .next) s1 () s2 →
      (s2.ctx (s1.task k).ctx).debugRing = (s1.ctx (s1.task k).ctx).debugRing →
      Next (exec (.dbgb x) s)
        ((s2.beginSave k .debug).debugEvent (s1.task k).ctx (s1.task k).tid (s1.task k).pc 0 a.v).cycle)) ∧
  (∀ (d x y : Opnd) (s s1 s2 s3 : State) (k : Nat) (a : Word) (b : Tagged), Starts false s k →
    Gives (readO x) s { v := a, tag := 0 } s1 → Gives (readO y) s1 b s2 →
    let va := a.toNat % 2 ^ 57
    let n := b.v.toNat
    ((va % 64 ≠ 0 ∨ n = 0 ∨ n % 64 ≠ 0) → Gives (writeO d { v := 3, tag := b.tag } 4) s2 () s3 →
      Next (exec (.dump d x y) s) (retired false .next k s3)) ∧
    (va % 64 = 0 → n ≠ 0 → n % 64 = 0 →
      Gives (writeO d { v := BitVec.ofNat 64 (s2.dump k va n).1, tag := b.tag } 4) (s2.dump k va n).2 () s3 →
      Next (exec (.dump d x y) s) (retired false .next k s3) ∧ (s2.dump k va n).1 < 3)) ∧
  (∀ (i : Instr) (d x y : Opnd) (s s1 s2 s3 : State) (k : Nat) (a b : Tagged),
    (i = .pctlRead d x y ∨ i = .pctlClear d x y ∨ i = .pctlProgram d x y) → Starts false s k →
    Gives (readO x) s a s1 → Gives (readO y) s1 b s2 →
    let n := a.v.toNat
    let op := b.v.toNat / 2 ^ 62
    let ev := b.v.toNat % 2 ^ 16
    let bad := 16 ≤ n ∨ op = 3 ∨ b.v.toNat / 2 ^ 16 % 2 ^ 46 ≠ 0 ∨ (op = 2 ∧ 0x10 < ev)
    let p := counterOf s2 n
    (bad → Next (exec i s) (trapped s k false 8 0 [b.v])) ∧
    (¬ bad → op ≠ 0 → (s2.task k).super = false → ∃ m, Next (exec i s) (privileged s k m none)) ∧
    (∀ q : Pmc, ¬ bad → (op = 0 ∧ q = p ∨ (s2.task k).super = true ∧
        (op = 1 ∧ q = { event := p.event, count := 0, ovf := false, lost := p.pending, pending := false } ∨
          op = 2 ∧ q = { event := ev, count := 0, ovf := p.pending, lost := false, pending := false })) →
      Gives (writeO d { v := counterWord p, tag := minTag a.tag b.tag } 4) (withCounter s2 n q) () s3 →
      Next (exec i s) (retired false .next k s3)))

/-- R97, R194, R195, R206 to R208, R216: a vector or mask word, with a place in its queue and its g operands readable and checked, puts its command
there and retires; the third command of a full queue stalls its stream, on the gate of the lock that holds the next store back (R232), or on
none. -/
def Obligations.VectorWordsIssue : Prop :=
  (∀ (i : Instr) (g : Gates) (s : State) (k : Nat), vectorWord i g → Starts false s k → queueRoom s .vector →
    Sends i s k .vector g (.std i) []) ∧
  (∀ (i : Instr) (g : Gates) (a : GReg) (s : State) (k : Nat) (x : Tagged), dataWord i .vector g a → Starts false s k →
    queueRoom s .vector → Gives (readG a.val) s x s → Sends i s k .vector g (.std i) [x]) ∧
  (∀ (x : VMem) (i : Instr) (s : State) (k a : Nat) (p o : Word), (i = .vld x ∨ i = .vst x ∧ unordered s k) → Starts false s k →
    queueRoom s .vector → holdsG s x.a p → holdsG s x.b o →
    ((p.toNat % 2 ^ 57 : Nat) : Int) + o.toInt = a → a < 2 ^ 57 →
    Sends i s k .vector x.gates (.std i) [op (BitVec.ofNat 64 a)]) ∧
  (∀ (x : VMem) (s : State) (k : Nat) (p o : Word), Starts false s k → queueRoom s .vector → holdsG s x.a p → holdsG s x.b o →
    (((p.toNat % 2 ^ 57 : Nat) : Int) + o.toInt < 0 ∨ 2 ^ 57 ≤ ((p.toNat % 2 ^ 57 : Nat) : Int) + o.toInt) →
    Next (exec (.vld x) s) (trapped s k false 9 0 [])) ∧
  (∀ (x : VIdx) (i : Instr) (s : State) (k : Nat) (p : Word), (i = .vldx x ∨ i = .vstx x ∧ unordered s k) → Starts false s k →
    queueRoom s .vector → holdsG s x.a p →
    Sends i s k .vector x.gates (.std i) [op (BitVec.ofNat 64 (p.toNat % 2 ^ 57))]) ∧
  (∀ (x : VMem) (i : Instr) (s : State) (k : Nat) (p e : Word), (i = .vldf x ∨ i = .vstf x ∧ unordered s k) → Starts false s k →
    queueRoom s .vector → holdsG s x.a p → holdsG s x.b e → p.toNat / 2 ^ 60 ∈ [1, 2, 3, 4, 5, 6, 7, 9, 10, 11, 12] →
    0 ≤ ((p.toNat % 2 ^ 57 : Nat) : Int) + e.toInt * (fmtBytes (p.toNat / 2 ^ 60) : Int) →
    ((p.toNat % 2 ^ 57 : Nat) : Int) + (e.toInt + ((1024 / x.t.width - 1 : Nat) : Int)) * (fmtBytes (p.toNat / 2 ^ 60) : Int) < 2 ^ 57 →
    Sends i s k .vector x.gates (.std i) [op p, op e]) ∧
  (∀ (x : VMem) (s : State) (k : Nat) (p e : Word), Starts false s k → queueRoom s .vector → holdsG s x.a p → holdsG s x.b e →
    p.toNat / 2 ^ 60 ∈ [0, 13, 14, 15] →
    Next (exec (.vldf x) s) (trapped s k false 10 0 []) ∧ Next (exec (.vstf x) s) (trapped s k false 10 0 [])) ∧
  (∀ (i : Instr) (g : Gates) (s : State) (k : Nat), vectorWord i g → Starts false s k → ¬ queueRoom s .vector →
    (s.core s.focus).vq.started = [] →
    Next (exec i s) (s.finish k false (.stall (some ((s.storeStall s.focus).getD 63)))).cycle)

/-- R97, R221, R226, R233 to R240: a matrix word likewise, with its pointers of their type's format and its reserved bits zero; reserved bits set
are the matrix fault of cause 2, code 20, an unaligned stream that of cause 1. -/
def Obligations.MatrixWordsIssue : Prop :=
  (∀ (i : Instr) (g : Gates) (s : State) (k : Nat), matrixWord i g → Starts false s k → queueRoom s .matrix →
    Sends i s k .matrix g (.std i) []) ∧
  (∀ (i : Instr) (g : Gates) (a : GReg) (s : State) (k : Nat) (x : Tagged), dataWord i .matrix g a → Starts false s k →
    queueRoom s .matrix → Gives (readG a.val) s x s → Sends i s k .matrix g (.std i) [x]) ∧
  (∀ (x : MMul) (i : Instr) (s : State) (k : Nat) (a b c : Word), (i = .mma x ∨ i = .msp x ∨ i = .mmv x) → Starts false s k →
    queueRoom s .matrix → holdsG s x.a a → holdsG s x.b b → holdsG s x.c c → matrixPointer a x.t →
    matrixPointer b (tbOf x) →
    ((i = .mmv x → b.toNat % 64 = 0 ∧ c.toNat / 2 ^ 13 % 2 ^ 19 = 0) →
      Sends i s k .matrix x.gates (.std i) [op a, op b, op c]) ∧
    (b.toNat % 64 ≠ 0 → Next (exec (.mmv x) s) (trapped s k false 20 1 []))) ∧
  (∀ (x : MMem) (i : Instr) (s : State) (k : Nat) (a b : Word), (i = .mld x ∨ i = .mst x ∧ unordered s k) → Starts false s k →
    queueRoom s .matrix → holdsG s x.a a → holdsG s x.b b → matrixPointer a x.t →
    (b.toNat < 2 ^ 32 → Sends i s k .matrix x.gates (.std i) [op a, op b]) ∧
    (2 ^ 32 ≤ b.toNat → Next (exec i s) (trapped s k false 20 2 []))) ∧
  (∀ (x : MDir) (i : Instr) (s : State) (k : Nat) (a : Word), (i = .mdir x ∨ i = .mdirPush x) → Starts false s k →
    queueRoom s .matrix → holdsG s x.a a → matrixPointer a x.t → Sends i s k .matrix x.gates (.std i) [op a]) ∧
  (∀ (x : MRdEl) (s : State) (k : Nat) (b : Word), Starts false s k → queueRoom s .matrix → holdsG s x.b b →
    (b.toNat < 2 ^ 10 → Sends (.mrdEl x) s k .matrix x.gates (.std (.mrdEl x)) [op b]) ∧
    (2 ^ 10 ≤ b.toNat → Next (exec (.mrdEl x) s) (trapped s k false 20 2 [])))

/-- R99 to R104, R299, R249, R251, R255 to R257: a copy word or a word of the attention family likewise: lengths and formats checked (copy fault, code
15; attention fault, code 21), what a copy will write noted for the bulk-read fault, the units of a `kst` charged from its descriptor, the
stream of a `bgat` standing still until its heads are read. -/
def Obligations.CopyAndAttentionWordsIssue : Prop :=
  (∀ (x : CopyArg) (s s1 : State) (k : Nat) (d a b : Word), Starts false s k → queueRoom s .copy → holdsG s x.d d → holdsG s x.a a →
    holdsG s x.b b →
    (b.toNat < 2 ^ 24 → Gives (noteCopy [(vaOf a, b.toNat)] [(vaOf d, b.toNat)] x.ssp x.dsp) s () s1 →
      Next (exec (.cpy x) s) (retired false .next k (sending s1 .copy (commandOf s1 k (.cpy x) x.gates [op d, op a, op b])))) ∧
    (2 ^ 24 ≤ b.toNat → Next (exec (.cpy x) s) (trapped s k false 15 1 []))) ∧
  (∀ (x : CopyArg) (s s1 : State) (k : Nat) (d a b c : Word) (src dst : List (Nat × Nat)), Starts false s k → queueRoom s .copy →
    holdsG s x.d d → holdsG s x.a a → holdsG s x.b b → holdsG s x.c c →
    let rb := b.toNat % 2 ^ 24
    let rows := b.toNat / 2 ^ 24 % 2 ^ 20
    let planes := b.toNat / 2 ^ 44
    rb ≠ 0 → rows ≠ 0 →
    (planes ≤ 1 → rb * rows < 2 ^ 31 →
      src = (List.range rows).map (fun q => (wrapAddr (((a.toNat % 2 ^ 57 : Nat) : Int) + (q : Int) * sgn 32 (c.toNat % 2 ^ 32)), rb)) →
      dst = (List.range rows).map (fun q => (wrapAddr (((d.toNat % 2 ^ 57 : Nat) : Int) + (q : Int) * sgn 32 (c.toNat / 2 ^ 32)), rb)) →
      Gives (noteCopy src dst x.ssp x.dsp) s () s1 →
      Next (exec (.cpyx2d x) s)
        (retired false .next k (sending s1 .copy (commandOf s1 k (.cpyx2d x) x.gates [op d, op a, op b, op c, op 0])))) ∧
    (∀ e, holdsG s (x.c + 1) e → planes ≠ 0 → rb * rows * planes < 2 ^ 31 →
      src = (List.range (rows * planes)).map (fun q => (wrapAddr (((a.toNat % 2 ^ 57 : Nat) : Int)
        + ((q % rows : Nat) : Int) * sgn 32 (c.toNat % 2 ^ 32) + ((q / rows : Nat) : Int) * sgn 32 (e.toNat % 2 ^ 32)), rb)) →
      dst = (List.range (rows * planes)).map (fun q => (wrapAddr (((d.toNat % 2 ^ 57 : Nat) : Int)
        + ((q % rows : Nat) : Int) * sgn 32 (c.toNat / 2 ^ 32) + ((q / rows : Nat) : Int) * sgn 32 (e.toNat / 2 ^ 32)), rb)) →
      Gives (noteCopy src dst x.ssp x.dsp) s () s1 →
      Next (exec (.cpyx3d x) s)
        (retired false .next k (sending s1 .copy (commandOf s1 k (.cpyx3d x) x.gates [op d, op a, op b, op c, op e]))))) ∧
  (∀ (x : CpycArg) (s s1 : State) (k : Nat) (d a b : Word), Starts false s k → queueRoom s .copy → holdsG s x.d d → holdsG s x.a a →
    holdsG s x.b b → d.toNat / 2 ^ 60 ∈ [1, 2, 3, 4, 5, 6, 7, 9, 10, 11, 12] → a.toNat / 2 ^ 60 ∈ [1, 2, 3, 4, 5, 6, 7, 8, 9, 10, 11, 12] →
    elementsBytes a (b.toNat % 2 ^ 32) + elementsBytes d (b.toNat % 2 ^ 32) < 2 ^ 32 →
    (a.toNat / 2 ^ 60 = 8 → b.toNat % 2 ^ 32 % blockElems (blogOf a) = 0) →
    Gives (noteCopy [(vaOf a, elementsBytes a (b.toNat % 2 ^ 32))] [(vaOf d, elementsBytes d (b.toNat % 2 ^ 32))] x.ssp x.dsp)
      s () s1 →
    Next (exec (.cpyc x) s) (retired false .next k (sending s1 .copy (commandOf s1 k (.cpyc x) x.gates [op d, op a, op b])))) ∧
  (∀ (x : CfillArg) (s s1 : State) (k : Nat) (d b : Word) (a : Tagged), Starts false s k → queueRoom s .copy → holdsG s x.d d →
    Gives (readG x.a.val) s a s → holdsG s x.b b → b.toNat < 2 ^ 24 → Gives (noteCopy [] [(vaOf d, b.toNat)] true x.dsp) s () s1 →
    Next (exec (.cfill x) s) (retired false .next k (sending s1 .copy (commandOf s1 k (.cfill x) x.gates [op d, a, op b])))) ∧
  (∀ (a : GReg) (g : Gates) (s : State) (k : Nat) (x : Word), Starts false s k → queueRoom s .vector → holdsG s a x →
    Next (exec (.pjld a g) s) (retired false .next k (sending s .vector (commandOf s k (.pjld a g) g [op x])))) ∧
  (∀ (x : AttArg) (s : State) (k : Nat) (a b c : Word), Starts false s k → queueRoom s .vector → holdsG s x.a a → holdsG s x.b b →
    holdsG s x.c c → b.toNat / 2 ^ 60 ∈ [0, 2] →
    (a.toNat % 64 = 0 → Next (exec (.qsig x) s) (retired false .next k (sending s .vector (commandOf s k (.qsig x) x.gates [op a, op b])))) ∧
    (a.toNat % 64 = 0 → s.heldBack (s.task k).ctx s.focus (a.toNat % 2 ^ 57) 64 = false →
      let units := (s.attDesc (s.task k).ctx s.focus (a.toNat % 2 ^ 57)).1.units
      room s k units → Next (exec (.kst x) s) (retired false .next k
        (((numbered s).modTask k (fun t =>
          { t with commit := t.commit ++ [{ eff := .kst s.nextId, units := units, pc := t.pc, control := 0 }] })).modCore s.focus
            (fun y => { y with vq := { y.vq with queue := y.vq.queue ++ [commandOf s k (.kst x) x.gates [op a, op b, op c]] } })))) ∧
    (a.toNat % 64 ≠ 0 → Next (exec (.qsig x) s) (trapped s k false 21 3 []) ∧ Next (exec (.kst x) s) (trapped s k false 21 3 []))) ∧
  (∀ (x : PsumArg) (s : State) (k : Nat) (d a : Word), Starts false s k → queueRoom s .vector → holdsG s x.d d → holdsG s x.a a →
    d.toNat / 2 ^ 60 ∈ [0, 2] → a.toNat / 2 ^ 60 ∈ [0, 2] →
    Next (exec (.psum x) s) (retired false .next k (sending s .vector (commandOf s k (.psum x) x.gates [op d, op a])))) ∧
  (∀ (x : PbndArg) (s : State) (k : Nat) (a b c : Word), Starts false s k → queueRoom s .vector → holdsG s x.a a → holdsG s x.b b →
    holdsG s x.c c → a.toNat / 2 ^ 60 ∈ [0, 2] → b.toNat / 2 ^ 60 ∈ [0, 2] → c.toNat < 2 ^ 37 →
    Next (exec (.pbnd x) s) (retired false .next k (sending s .vector (commandOf s k (.pbnd x) x.gates [op a, op b, op c])))) ∧
  (∀ (x : AttArg) (s : State) (k : Nat) (d a b c : Word), Starts false s k → queueRoom s .copy → holdsG s x.d d → holdsG s x.a a →
    holdsG s x.b b → a.toNat % 64 = 0 →
    (holdsG s x.c c → c.toNat ≠ 0 → c.toNat ≤ 16 → Next (exec (.pgatPg x) s)
      (retired false .next k (sending s .copy (commandOf s k (.pgatPg x) x.gates [op d, op a, op b, op c])))) ∧
    (holdsG s x.c c → c.toNat ≠ 0 → c.toNat ≤ 256 → Next (exec (.pgatTok x) s)
      (retired false .next k (sending s .copy (commandOf s k (.pgatTok x) x.gates [op d, op a, op b, op c])))) ∧
    (Next (exec (.bgat x) s) (awaiting (sending s .copy (commandOf s k (.bgat x) x.gates [op d, op a, op b])) k .heads false).cycle) ∧
    (Next (exec (.bgatH1 x) s)
      (awaiting (sending s .copy (commandOf s k (.bgatH1 x) x.gates [op d, op a, op b])) k .heads false).cycle))

/-- R276, R277: a vector atomic buffers one update for each lane that takes part, in lane order from VELEM on, and clears VELEM: each at base plus index
times the element's size, aligned and in HBM5, on a page without versions. An address out of range is the pointer fault. -/
def Obligations.VectorAtomicResults : Prop :=
  (∀ r ∈ vamoRows, ∀ (x : VAmoArg) (s s1 : State) (k : Nat) (p : Word), Starts false s k → holdsG s x.a p →
    s.vamoWaits k x = false → (s.vreg k x.b.val).tag = 0 → room s k (vamoLanesOf s k x).length →
    (x.t.width = 32 ∨ x.t.width = 64) →
    Gives (vamoBuffer r.2 x.t (p.toNat % 2 ^ 57) (s.vreg k x.c.val).tag (vamoLanesOf s k x)) s () s1 →
    Next (exec (r.1 x) s) (retired false .next k s1)) ∧
  (∀ (f : AFn) (t : Ty) (base tag k : Nat) (s : State), s.current = some k →
    Gives (vamoBuffer f t base tag []) s () (s.modTask k (fun y => { y with velem := none }))) ∧
  (∀ (f : AFn) (t : Ty) (base tag k i v pa leaf a : Nat) (idx : Int) (rest : List (Nat × Int × Nat)) (s s1 s2 s3 : State),
    s.current = some k → (base : Int) + idx * (tyBytes t : Int) = a → a < 2 ^ 57 → a % tyBytes t = 0 →
    Gives (xlate a .store (some (s.modTask k (fun y => { y with velem := some i })))) s (pa, leaf) s1 →
    paKind pa = .hbm → s1.paOk pa = true → pteVers leaf = false → Gives (noteWrite pa) s1 () s2 → room s2 k 1 →
    s2.current = some k →
    Gives (vamoBuffer f t base tag rest)
      (buffering s2 k (.update (updateOf s2 k a pa (.amo f) t (BitVec.ofNat 64 v) 0 tag) (if pteKey leaf then some (pteRegion leaf) else none)) 1 0)
      () s3 →
    Gives (vamoBuffer f t base tag ((i, idx, v) :: rest)) s () s3) ∧
  (∀ (f : AFn) (t : Ty) (base tag i v : Nat) (idx : Int) (rest : List (Nat × Int × Nat)) (s : State),
    ((base : Int) + idx * (tyBytes t : Int) < 0 ∨ 2 ^ 57 ≤ (base : Int) + idx * (tyBytes t : Int)) →
    (vamoBuffer f t base tag ((i, idx, v) :: rest)).run s = .error (.trap 9 0 []))

/-- R193, R194, R196, R200, R201, R202, R204, R131, R121, R122: an element-wise vector command, oldest of those started and free of waits, forms each
element that takes part from its sources' (exactly, then into its type: rounded once, clamped, or modulo 2^w), keeps the others, and
completes. `vperm` takes element `B[i] mod n` of A (R213); that the tag of its index register goes into the tag of the result is the model's choice
(log 58), and so are the functions of R201, whose exactness no rule states digit by digit (log 24). -/
def Obligations.VectorElementResults : Prop :=
  (∀ r ∈ vector2Rows, ∀ (x : V3) (s : State) (core : Nat) (c : Cmd), Executing s core c (.std (r.1 x)) → 8 ≤ x.t.width →
    let k := slotOf core c
    let f := fun i => r.2 x (elemOf x.t.width (s.vreg k x.a.val).v i) (elemOf x.t.width (s.vreg k x.b.val).v i)
    ∃ t, Next (exec (.vectorCommandComplete core) s) t ∧
      Elementwise s t k x.d.val x.pred.val x.t.width [x.a.val, x.b.val] f ∧
      Completed s t core c (raisedBy s k x.pred.val x.t.width f)) ∧
  (∀ r ∈ vector3Rows, ∀ (x : V4) (s : State) (core : Nat) (c : Cmd), Executing s core c (.std (r.1 x)) → 8 ≤ x.t.width →
    let k := slotOf core c
    let f := fun i => r.2 x (elemOf x.t.width (s.vreg k x.a.val).v i) (elemOf x.t.width (s.vreg k x.b.val).v i)
      (elemOf x.t.width (s.vreg k x.c.val).v i)
    ∃ t, Next (exec (.vectorCommandComplete core) s) t ∧
      Elementwise s t k x.d.val x.pred.val x.t.width [x.a.val, x.b.val, x.c.val] f ∧
      Completed s t core c (raisedBy s k x.pred.val x.t.width f)) ∧
  (∀ r ∈ vector1Rows, ∀ (x : V2) (s : State) (core : Nat) (c : Cmd), Executing s core c (.std (r.1 x)) → 8 ≤ x.t.width →
    let k := slotOf core c
    let f := fun i => r.2 x (elemOf x.t.width (s.vreg k x.a.val).v i)
    ∃ t, Next (exec (.vectorCommandComplete core) s) t ∧
      Elementwise s t k x.d.val x.pred.val x.t.width [x.a.val] f ∧ Completed s t core c (raisedBy s k x.pred.val x.t.width f)) ∧
  (∀ (x : V3) (s : State) (core : Nat) (c : Cmd), Executing s core c (.std (.vperm x)) → 8 ≤ x.t.width →
    let k := slotOf core c
    let n := 1024 / x.t.width
    ∃ t, Next (exec (.vectorCommandComplete core) s) t ∧
      Elementwise s t k x.d.val x.pred.val x.t.width [x.a.val, x.b.val] (fun i =>
        (elemOf x.t.width (s.vreg k x.a.val).v (elemOf x.t.width (s.vreg k x.b.val).v i % n), 0)) ∧
      Completed s t core c noFlag)

/-- R203, R204, R211, R216: comparisons write a mask of the elements that take part; `vsel` takes each element of A or B as its mask says;
the mask commands, `vmov.mq`, `mpop` and `mfirst` write a mask or push a word into vres; a float sum is exact, rounded once into lane 0. That masks
carry no tag, so that the pushed word has tag 0, is the model's choice (log 59). -/
def Obligations.VectorMaskAndReductionResults : Prop :=
  (∀ r ∈ compareRows, ∀ (x : VCmp) (s : State) (core : Nat) (c : Cmd), Executing s core c (.std (r.1 x)) → 8 ≤ x.t.width →
    let k := slotOf core c
    ∃ t, Next (exec (.vectorCommandComplete core) s) t ∧ (t.task k).v = (s.task k).v ∧
      (∀ i, i < 64 → ((t.mreg k x.d.val).getLsbD i = true ↔ i < 1024 / x.t.width ∧ takesPart s k x.pred.val x.t.width i ∧
        r.2 x.t (elemOf x.t.width (s.vreg k x.a.val).v i) (elemOf x.t.width (s.vreg k x.b.val).v i) = true)) ∧
      (∀ n, n ≠ x.d.val → t.mreg k n = s.mreg k n) ∧ Completed s t core c noFlag) ∧
  (∀ (x : VSel) (s : State) (core : Nat) (c : Cmd), Executing s core c (.std (.vsel x)) → 8 ≤ x.t.width →
    let k := slotOf core c
    ∃ t, Next (exec (.vectorCommandComplete core) s) t ∧ Completed s t core c noFlag ∧
      ∀ i, i < 1024 / x.t.width → elemOf x.t.width (t.vreg k x.d.val).v i =
        if (s.mreg k x.m.val).getLsbD (if x.t.width = 8 then i / 2 else i) then elemOf x.t.width (s.vreg k x.a.val).v i
        else elemOf x.t.width (s.vreg k x.b.val).v i) ∧
  (∀ (i : Instr) (x : MaskArg) (s : State) (core : Nat) (c : Cmd) (w : BitVec 64), Executing s core c (.std i) →
    (i = .mand x ∧ w = s.mreg (slotOf core c) x.a.val &&& s.mreg (slotOf core c) x.b.val ∨
      i = .mor x ∧ w = s.mreg (slotOf core c) x.a.val ||| s.mreg (slotOf core c) x.b.val ∨
      i = .mnot x ∧ w = ~~~ s.mreg (slotOf core c) x.a.val ∨ i = .vmovMm x ∧ w = s.mreg (slotOf core c) x.a.val) →
    ∃ t, Next (exec (.vectorCommandComplete core) s) t ∧ t.mreg (slotOf core c) x.d.val = w ∧
      (∀ n, n ≠ x.d.val → t.mreg (slotOf core c) n = s.mreg (slotOf core c) n) ∧ Completed s t core c noFlag) ∧
  (∀ (i : Instr) (x : MaskArg) (s : State) (core : Nat) (c : Cmd) (w : Nat), Executing s core c (.std i) →
    let m := s.mreg (slotOf core c) x.a.val
    (i = .vmovMq x ∧ w = m.toNat ∨ i = .mpop x ∧ w = ((List.range 64).filter (fun j => m.getLsbD j)).length ∨
      i = .mfirst x ∧ (m = 0 ∧ w = 64 ∨ w < 64 ∧ m.getLsbD w = true ∧ ∀ j, j < w → m.getLsbD j = false)) →
    ∃ t, Next (exec (.vectorCommandComplete core) s) t ∧
      (t.task (slotOf core c)).queue 9 = (s.task (slotOf core c)).queue 9 ++ [.word { v := BitVec.ofNat 64 w, tag := 0 }] ∧
      (t.task (slotOf core c)).m = (s.task (slotOf core c)).m ∧ Completed s t core c noFlag) ∧
  (∀ (x : V4) (s : State) (core : Nat) (c : Cmd), Executing s core c (.std (.vredsum x)) → x.t.isFloat = true →
    let k := slotOf core c
    let z := if x.flag then Num.Sum.empty.term (Num.f32.decode (elemOf 32 (s.vreg k x.c.val).v 0)) else Num.Sum.empty
    let v := (sumOf s k x.pred.val x.t.width z (fun i => elemFp x.t (elemOf x.t.width (s.vreg k x.a.val).v i))).value
    ∃ t, Next (exec (.vectorCommandComplete core) s) t ∧
      (t.vreg k x.d.val).v = BitVec.ofNat 1024 (Num.f32.round x.mode false v.1).1 ∧
      Completed s t core c (fun b => b < 6 ∧ (v.2 ||| (Num.f32.round x.mode false v.1).2).testBit b = true))

/-- R206, R193, R87, R91, R386: an unpredicated `vld` reads 128 bytes of scratchpad, an unpredicated `vst` writes its register to them, in the core's
own scratchpad; every byte of main memory stays, but that a write of poison counts in its error record; and so does every byte of the
scratchpad outside those written, but for the slots that were idle, which the write claims and whose other bytes read 0. A line that was not
written holds no bytes, and its other bytes read 0 after the write as before. -/
def Obligations.VectorMemoryResults : Prop :=
  (∀ (x : VMem) (s : State) (core a : Nat) (c : Cmd), Executing s core c (.std (.vld x)) → x.pred.val = 0 → c.ptr 0 = a →
    a + 128 ≤ 0x40000 →
    ∃ t, Next (exec (.vectorCommandComplete core) s) t ∧ Completed s t core c noFlag ∧
      ∀ i, i < 128 → elemOf 8 (t.vreg (slotOf core c) x.d.val).v i = (s.spadByteAt c.ctx core a i).toNat) ∧
  (∀ (x : VMem) (s : State) (core a : Nat) (c : Cmd), Executing s core c (.std (.vst x)) → x.pred.val = 0 → c.ptr 0 = a →
    a + 128 ≤ 0x40000 → s.heldBack c.ctx core a 128 = false → c.gates.sig = none →
    ∃ t, Next (exec (.vectorCommandComplete core) s) t ∧ countedOnly s t (s.vreg (slotOf core c) x.d.val).tag ∧
      (t.task (slotOf core c)).g = (s.task (slotOf core c)).g ∧ (t.task (slotOf core c)).v = (s.task (slotOf core c)).v ∧
      (∀ i, i < 128 → ((t.space c.ctx core).byte (a + i)).toNat = elemOf 8 (s.vreg (slotOf core c) x.d.val).v i) ∧
      (∀ off, (off < a ∨ a + 128 ≤ off) → ¬ (off / 1024 ∈ slotsOf a 128) →
        (t.space c.ctx core).byte off = (s.space c.ctx core).byte off) ∧
      (∀ off, (off < a ∨ a + 128 ≤ off) → off / 1024 ∈ slotsOf a 128 →
        ((s.space c.ctx core).stag (off / 1024)).state = 0 → (t.space c.ctx core).byte off = 0) ∧
      (∀ off, (off < a ∨ a + 128 ≤ off) → ((s.space c.ctx core).stag (off / 1024)).state ≠ 0 →
        Tab.get false (s.space c.ctx core).written (off / 64) = true →
        (t.space c.ctx core).byte off = (s.space c.ctx core).byte off) ∧
      (∀ off, (off < a ∨ a + 128 ≤ off) → ((s.space c.ctx core).stag (off / 1024)).state ≠ 0 →
        Tab.get false (s.space c.ctx core).written (off / 64) = false →
        Tab.get Memory.unlisted (s.space c.ctx core).bytes off = Memory.unlisted → (t.space c.ctx core).byte off = 0))

/-- R120, R218, R222, R225, R227, R228, R233, R234, R236: the oldest started matrix command, free of waits, retires: `mmz` clears its tile; a product of one chunk of
16-bit elements on a full tile adds to each element the exact dot product of its row and column, rounded once; `mld` of FP32 fills a full
tile from its rows, `mst` writes them back; `mrd.row` reads a row, `mrd.el` pushes an element into mres. -/
def Obligations.MatrixResults : Prop :=
  (∀ (d : Tile) (g : Gates) (s : State) (core : Nat) (c : Cmd), Multiplying s core c (.std (.mmz d g)) → d.half = .full →
    ∃ t, Next (exec (.matrixCommandRetire core) s) t ∧ Retired s t core c ∧
      (∀ i j, i < 32 → j < 32 → tileWord t (slotOf core c) d.n.val i j = 0) ∧ (t.tile (slotOf core c) d.n.val).tag = 0 ∧
      (∀ n, n ≠ d.n.val → t.tile (slotOf core c) n = s.tile (slotOf core c) n)) ∧
  (∀ (x : MMul) (i : Instr) (s : State) (core : Nat) (c : Cmd), (i = .mma x ∨ i = .msp x) → Multiplying s core c (.std i) →
    x.d.half = .full → (x.t = .f16 ∨ x.t = .bf16) → x.bx = false → x.k.val = 0 →
    c.ptr 0 + 1024 ≤ 0x40000 → c.ptr 1 + 1024 ≤ 0x40000 →
    ∃ t, Next (exec (.matrixCommandRetire core) s) t ∧ Retired s t core c ∧
      ∀ a b, a < 32 → b < 32 → tileWord t (slotOf core c) x.d.n.val a b =
        (Num.f32.round .rne false
          (chunkSum s c core x (if x.z then 0 else tileWord s (slotOf core c) x.d.n.val a b) a b).1).1) ∧
  (∀ (x : MMem) (s : State) (core st : Nat) (c : Cmd), Multiplying s core c (.std (.mld x)) → x.d.half = .full → x.t = .f32 →
    st = (if c.val 1 % 2 ^ 32 = 0 then 128 else c.val 1 % 2 ^ 32) → c.ptr 0 + 31 * st + 128 ≤ 0x40000 →
    ∃ t, Next (exec (.matrixCommandRetire core) s) t ∧ Retired s t core c ∧
      ∀ i j, i < 32 → j < 32 → tileWord t (slotOf core c) x.d.n.val i j = spadNum s c.ctx core (c.ptr 0 + i * st + 4 * j) 4) ∧
  (∀ (x : MMem) (s : State) (core st : Nat) (c : Cmd), Multiplying s core c (.std (.mst x)) → x.d.half = .full → x.t = .f32 →
    st = (if c.val 1 % 2 ^ 32 = 0 then 128 else c.val 1 % 2 ^ 32) → 128 ≤ st → c.ptr 0 + 31 * st + 128 ≤ 0x40000 →
    ∃ t, Next (exec (.matrixCommandRetire core) s) t ∧ countedOnly s t (s.tile (slotOf core c) x.d.n.val).tag ∧
      (t.task (slotOf core c)).a = (s.task (slotOf core c)).a ∧
      ∀ i j, i < 32 → j < 32 →
        Num.ofBytes ((List.range 4).map (fun b => (t.space c.ctx core).byte (c.ptr 0 + i * st + 4 * j + b))) =
          tileWord s (slotOf core c) x.d.n.val i j) ∧
  (∀ (x : MRd) (s : State) (core : Nat) (c : Cmd), Multiplying s core c (.std (.mrdRow x)) → x.a.half = .full →
    ∃ t, Next (exec (.matrixCommandRetire core) s) t ∧ Retired s t core c ∧
      (t.vreg (slotOf core c) x.d.val).tag = (s.tile (slotOf core c) x.a.n.val).tag ∧
      ∀ j, j < 32 → elemOf 32 (t.vreg (slotOf core c) x.d.val).v j = tileWord s (slotOf core c) x.a.n.val x.i.val j) ∧
  (∀ (x : MRdEl) (s : State) (core : Nat) (c : Cmd), Multiplying s core c (.std (.mrdEl x)) → x.a.half = .full →
    ∃ t, Next (exec (.matrixCommandRetire core) s) t ∧ Retired s t core c ∧
      (t.task (slotOf core c)).queue 8 = (s.task (slotOf core c)).queue 8 ++
        [.word { v := BitVec.ofNat 64 (tileWord s (slotOf core c) x.a.n.val (c.val 0 % 1024 / 32) (c.val 0 % 32))
                 tag := (s.tile (slotOf core c) x.a.n.val).tag }])

/-- R95, R110, R122, R182: `gset`, `gadd` and `gpoll` as R110 says; operands out of range raise the gate fault, code 16, and leave the gate; `gwt` retires
when its phase is there and stalls otherwise, while an engine of its core can move; when none can, it raises the gate deadlock fault, code 17 (R98),
at once, which is the model's choice of when (log 41). A slot that fills on a phase is valid once its gate has it. -/
def Obligations.GateResults : Prop :=
  (∀ (gate : Fin 32) (cmd : Bool) (a b : GReg) (s : State) (k : Nat) (x y : Word), Starts false s k → holdsG s a x → holdsG s b y →
    let g := gateAt s (s.task k).ctx s.focus gate.val
    (x.toNat < 2 ^ 24 → y.toNat < 2 ^ 24 → y.toNat ≠ 0 →
      Next (exec (.gset gate cmd a b) s) (retired false .next k (withGate s k gate.val
        { count := if x.toNat = 0 then y.toNat else x.toNat, reload := y.toNat
          phase := if x.toNat = 0 then !g.phase else g.phase, cmd := cmd, ovf := false }))) ∧
    ((2 ^ 24 ≤ x.toNat ∨ 2 ^ 24 ≤ y.toNat ∨ y.toNat = 0) → Next (exec (.gset gate cmd a b) s) (trapped s k false 16 0 []))) ∧
  (∀ (gate : Fin 32) (a : GReg) (s : State) (k : Nat) (x : Word), Starts false s k → holdsG s a x →
    let g := gateAt s (s.task k).ctx s.focus gate.val
    let t := (g.count : Int) + x.toInt
    (|x.toInt| < 2 ^ 24 →
      Next (exec (.gadd gate a) s) (retired false .next k (withGate s k gate.val
        (if t ≤ 0 then { g with count := g.reload, phase := !g.phase, ovf := g.ovf || decide (t < 0) }
         else if 2 ^ 24 - 1 < t then { g with count := 2 ^ 24 - 1, ovf := true }
         else { g with count := t.toNat })))) ∧
    (2 ^ 24 ≤ |x.toInt| → Next (exec (.gadd gate a) s) (trapped s k false 16 0 []))) ∧
  (∀ (gate : Fin 32) (ph : Bool) (s : State) (k : Nat), Starts false s k →
    ((gateAt s (s.task k).ctx s.focus gate.val).phase = ph → Next (exec (.gwt gate ph) s) (retired false .next k s)) ∧
    ((gateAt s (s.task k).ctx s.focus gate.val).phase ≠ ph → s.enginesBusy (k / 8) = true →
      Next (exec (.gwt gate ph) s) ((s.pmcEvent (k / 8) 4 s.stepCycles).stepLate k).cycle) ∧
    ((gateAt s (s.task k).ctx s.focus gate.val).phase ≠ ph → s.enginesBusy (k / 8) = false →
      Next (exec (.gwt gate ph) s) (trapped s k false 17 0 [BitVec.ofNat 64 gate.val]))) ∧
  (∀ (d : GReg) (gate : Fin 32) (s s1 : State) (k : Nat), Starts false s k →
    let g := gateAt s (s.task k).ctx s.focus gate.val
    Gives (writeG d.val { v := BitVec.ofNat 64 (g.count + g.reload * 2 ^ 24 + (if g.ovf then 2 ^ 61 else 0) +
      (if g.cmd then 2 ^ 62 else 0) + (if g.phase then 2 ^ 63 else 0)), tag := 0 } 1) s () s1 →
    Next (exec (.gpoll d gate) s) (retired false .next k s1)) ∧
  (∀ (sp : Space) (g : Nat) (x : Gate), gateOf (sp.setGate g x) g = x ∧ (∀ j, j ≠ g → gateOf (sp.setGate g x) j = gateOf sp j) ∧
    (∀ n, (sp.stag n).state = 1 → (sp.stag n).gate = g → (sp.stag n).phase = x.phase → ((sp.setGate g x).stag n).state = 2)) ∧
  (∀ (g : Gate) (d : Nat), d ≠ 0 → g.down d =
    if (g.count : Int) - d ≤ 0 then { g with count := g.reload, phase := !g.phase, ovf := g.ovf || decide ((g.count : Int) - d < 0) }
    else { g with count := g.count - d })

/-- R97, R101, R222, R106, R238: a command moves from its queue to the held list of 16, and from there starts when its engine may start it; a matrix command that
starts makes its slot's tiles resident; a copy of at most 64 bytes within the scratchpad moves its bytes in one beat and completes, a beat of 64
bytes being the model's choice (log 53); an `mmv` whose stream reads to its end is not faulted. R218 has the swap of tiles write the save area; that
memory stays as it was at such a start is the model's choice (log 61). -/
def Obligations.EnginePathEvents : Prop :=
  (∀ (core : Nat) (e : Engine) (s : State) (c : Cmd) (rest : List Cmd), ((s.core core).engine e).queue = c :: rest →
    ((s.core core).engine e).held.length < 16 →
    ∃ t, Next (exec (.engineCommandAccept core e) s) t ∧ ((t.core core).engine e).queue = rest ∧
      ((t.core core).engine e).held = ((s.core core).engine e).held ++ [c] ∧
      ((t.core core).engine e).started = ((s.core core).engine e).started ∧ t.tasks = s.tasks ∧ t.mem = s.mem) ∧
  (∀ (core : Nat) (e : Engine) (s : State) (c : Cmd), s.nextStart core e = some c →
    ∃ t, Next (exec (.engineCommandStart core e) s) t ∧
      ((t.core core).engine e).started = ((s.core core).engine e).started ++ [c] ∧
      (∀ o ∈ ((t.core core).engine e).held, o.place ≠ c.place) ∧
      (e = .matrix → (t.core core).resident = some c.slot) ∧ t.tasks = s.tasks ∧ t.mem = s.mem) ∧
  (∀ (core : Nat) (s : State) (c : Cmd) (x : CopyArg), (s.core core).cq.started = [c] → c.what = .cpy x → x.dsp = true → x.ssp = true →
    c.progress = 0 → s.cmdLive core c = true → c.val 2 ≤ 64 → c.ptr 0 + c.val 2 ≤ 0x40000 → c.ptr 1 + c.val 2 ≤ 0x40000 →
    ((s.task (slotOf core c)).stat = .running ∨ (s.task (slotOf core c)).stat = .ready ∨
      (c.killed = true ∧ (s.task (slotOf core c)).stat = .free)) →
    ∃ t, Next (exec (.copyBeatLand core 0) s) t ∧ (∀ o ∈ (t.core core).cq.started, o.place ≠ c.place) ∧
      ((∀ i, i < c.val 2 → (s.space c.ctx core).lineTag ((c.ptr 1 + i) / 64) = 0) → t.mem = s.mem) ∧
      (∀ pa, (∀ i, i < c.val 2 → outsideRecord s ((s.space c.ctx core).lineTag ((c.ptr 1 + i) / 64)) pa) → t.byte pa = s.byte pa) ∧
      ∀ i, i < c.val 2 → (t.space c.ctx core).byte (c.ptr 0 + i) = (s.space c.ctx core).byte (c.ptr 1 + i)) ∧
  (∀ (core : Nat) (s : State) (c : Cmd) (x : MMul) (l : List (List (Byte × Nat))) (s1 : State),
    (s.core core).mq.started.head? = some c → c.what = .std (.mmv x) →
    s.readStream core c (tbOf x) (List.range (c.val 2 % 1024 + 1)) = (.ok l, s1) →
    Next (exec (.mmvStreamFault core) s) s.cycle) ∧
  (∀ (core : Nat) (s s1 : State) (c : Cmd) (x : MMul) (st : Stop), (s.core core).mq.started.head? = some c → c.what = .std (.mmv x) →
    s.readStream core c (tbOf x) (List.range (c.val 2 % 1024 + 1)) = (.error st, s1) →
    Next (exec (.mmvStreamFault core) s) (s1.stopCmd core .matrix c (.stop st)).cycle)

/-- R115, R262, R265, R270, R86, R289, R309, R406: the word of a load reaches its place; a parked task wakes at its wake or timeout; a
waggle window places at most 32 announcements, one per core, by core number, and each window once; the operation at the head of the order
takes effect 96 cycles after its window, a write to a line of the host's window once the host has acknowledged it; the port's head command
reads its list, its elements land, and the last one counts its counter down; a port serves an access, behind earlier stores to the same
bytes. A filling slot under the aperture, under a command's list or under an element's local bytes, holds each of them back (R92). The
model's choices: the list is read at the head of the queue (log 20), the spin time is judged against cyc (log 94), what orders the accesses
of a port (logs 47, 103), and that a write to a valid entry of a table is judged as it lands (log 132). -/
def Obligations.ArrivalEvents : Prop :=
  (∀ (core slot id : Nat) (s : State) (l : Load), (s.task (core * 8 + slot)).loads.find? (fun x => x.id == id) = some l →
    l.kind = .plain → (s.task (core * 8 + slot)).earlierOverlap l = false → s.portHeld l.parts = false →
    Next (exec (.loadWordArrival core slot id) s)
      ((s.seeParts ((core * 8 + slot) / 8) l.parts).modTask (core * 8 + slot) (fun t =>
        (t.deliver id (.word { v := loaded l.t (Num.ofBytes (s.loadBytes l).1), tag := (s.loadBytes l).2 })).spun
          ((l.parts.head?.map (·.1)).getD 0 / 64) (s.loadBytes l).1)).cycle) ∧
  (∀ (core slot id : Nat) (s : State) (l : Load), (s.task (core * 8 + slot)).loads.find? (fun x => x.id == id) = some l →
    l.kind = .plain → ((s.task (core * 8 + slot)).earlierOverlap l = true ∨ s.portHeld l.parts = true) →
    Next (exec (.loadWordArrival core slot id) s)
      (s.push (.loadWordArrival ((core * 8 + slot) / 8) ((core * 8 + slot) % 8) l.id)).cycle) ∧
  (∀ (t : Task) (id : Nat) (w : QWord) (l : Load), t.loads.find? (fun x => x.id == id) = some l →
    (t.deliver id w).loads = t.loads.filter (fun x => x.id != id) ∧
    (t.deliver id w).queue l.fifo = (t.queue l.fifo).map (fun x => if x = .await id then w else x) ∧
    ∀ n, n ≠ l.fifo → (t.deliver id w).queue n = t.queue n) ∧
  (∀ (core slot : Nat) (s : State) (line deadline : Nat), (s.task (core * 8 + slot)).stat = .parked (.spin line deadline) →
    Next (exec (.spinWake core slot) s) (woken s (core * 8 + slot)).cycle ∧
    Next (exec (.spinTimeout core slot) s)
      (woken (({ s with cyc := Nat.max s.cyc deadline } : State).modTask (core * 8 + slot) (fun t =>
        { t with spins := t.spins.map (fun (x : Spin) => if x.line = line then { x with count := 0 } else x) }))
        (core * 8 + slot)).cycle) ∧
  (∀ (core slot : Nat) (s : State) (pa : Nat), (s.task (core * 8 + slot)).stat = .parked (.wtv pa) →
    Next (exec (.wtvWake core slot) s) (woken s (core * 8 + slot)).cycle) ∧
  (∀ (s : State), ∃ t, ∃ new : List Sc, Next (exec .waggleWindow s) t ∧ t.placed = s.placed ++ new ∧ new.length ≤ 32 ∧
    (∀ x ∈ new, ∃ y, s.announce.find? (fun z => z.core == x.core) = some y ∧ x = { y with window := s.cyc / 8 }) ∧
    (new.map (·.core)).Pairwise (· < ·) ∧ (s.cyc / 8 < s.window → new = []) ∧
    (s.window ≤ s.cyc / 8 → (s.announce.map (·.core)).dedup.length ≤ 32 → ∀ x ∈ s.announce, ∃ y ∈ new, y.core = x.core) ∧
    t.tasks = s.tasks ∧ t.mem = s.mem) ∧
  (∀ (s : State) (core slot id pa w : Nat) (bs : List Byte) (tag : Nat) (rest : List Sc), (w + 1) * 8 + 96 ≤ s.cyc →
    s.placed = { core := core, slot := slot, op := .st id pa bs tag, window := w } :: rest → s.portHeld [(pa, bs.length)] = false →
    s.hostOwes pa bs.length = [] →
    Next (exec .scEffect s)
      ((({ s with placed := rest } : State).writeSeen pa bs tag (.sc (core * 8 + slot))).deliver id (.word zeroT)).cycle) ∧
  (∀ (s : State) (core slot id k w : Nat) (l : Load) (rest : List Sc), (w + 1) * 8 + 96 ≤ s.cyc →
    s.placed = { core := core, slot := slot, op := .ld id, window := w } :: rest → s.loadSlot id = some k → s.findLoad id = some l →
    s.portHeld l.parts = false →
    Next (exec .scEffect s)
      ((({ s with placed := rest } : State).modTask k (fun t =>
        t.spun ((l.parts.head?.map (·.1)).getD 0 / 64) (s.loadBytes l).1)).deliver id
          (.word { v := loaded l.t (Num.ofBytes (s.loadBytes l).1), tag := (s.loadBytes l).2 })).cycle) ∧
  (∀ (s : State) (x : Sc) (rest : List Sc), s.placed = x :: rest →
    (s.cyc < (x.window + 1) * 8 + 96 ∨ s.portHeld (s.scParts x) = true) →
    Next (exec .scEffect s) (s.push .scEffect).cycle) ∧
  (∀ (s : State) (core slot id pa w : Nat) (bs : List Byte) (tag : Nat) (rest : List Sc), (w + 1) * 8 + 96 ≤ s.cyc →
    s.placed = { core := core, slot := slot, op := .st id pa bs tag, window := w } :: rest → s.portHeld [(pa, bs.length)] = false →
    s.hostOwes pa bs.length ≠ [] →
    Next (exec .scEffect s) ((s.askHost (s.hostOwes pa bs.length)).push .scEffect).cycle) ∧
  (∀ (s : State) (core slot id w : Nat) (u : Update) (f : AFn) (rest : List Sc), (w + 1) * 8 + 96 ≤ s.cyc →
    s.placed = { core := core, slot := slot, op := .amo id u, window := w } :: rest → u.kind = .amo f →
    s.hostOwes u.pa (elemBytes u.t) = [] →
    Next (exec .scEffect s)
      (((({ s with placed := rest } : State).writeSeen u.pa
        (Num.bytesOf (elemBytes u.t) (amoNew f u.t (s.num u.pa (elemBytes u.t)) u.operand.toNat u.compare.toNat)) u.tag
          (.sc (core * 8 + slot))).deliver id
        (.word { v := widen u.t (s.num u.pa (elemBytes u.t)), tag := s.tagAt u.pa (elemBytes u.t) })).judgeEntries
          { s with placed := rest } u.ctx core [(u.pa, elemBytes u.t)]).cycle) ∧
  (∀ (core i : Nat) (s : State) (g : GetPut) (rest : List GetPut), (s.core core).gp = g :: rest → s.gpWaits core g = false →
    g.known = false →
    (s.listHeld core g = true → Next (exec (.getPutElementLand core i) s) (s.push (.getPutElementLand core 0)).cycle) ∧
    (s.listHeld core g = false → (s.readIndexList core g).2.1 = 0 → ∃ t, Next (exec (.getPutElementLand core i) s) t ∧
      (t.core core).gp = g.listed (s.readIndexList core g).1 :: rest ∧ t.mem = s.mem)) ∧
  (∀ (core : Nat) (s : State) (g : GetPut), g.ctl.getLsbD 43 = false → g.list + 4 * (g.ctl.toNat % 256 + 1) ≤ 0x40000 →
    (s.readIndexList core g).1.length = g.ctl.toNat % 256 + 1 ∧
    ∀ i, i < g.ctl.toNat % 256 + 1 → (s.readIndexList core g).1.getD i 0 =
      Num.ofBytes ((List.range 4).map (fun j => (s.space g.ctx core).byte (g.list + 4 * i + j)))) ∧
  (∀ (core i : Nat) (s : State) (g : GetPut) (rest : List GetPut), (s.core core).gp = g :: rest → s.gpWaits core g = false →
    g.known = true → g.els ≠ [] → g.first ≤ i → i < g.first + g.els.length → i ∉ g.landed →
    (s.elementHeld core g i = true →
      Next (exec (.getPutElementLand core i) s)
        ((s.modCore core (fun c => { c with gp := g :: c.gp.drop 1 })).push (.getPutElementLand core i)).cycle) ∧
    (s.elementHeld core g i = false → g.landed.length + 1 < g.els.length →
      Next (exec (.getPutElementLand core i) s) ((landedElement s core g i).judgeEntries s g.ctx core (wroteBy g i)).cycle) ∧
    (s.elementHeld core g i = false → g.landed.length + 1 = g.els.length → g.halted = false → g.idx.length ≤ g.first + g.els.length →
      Next (exec (.getPutElementLand core i) s)
        (((((landedElement s core g i).modCore core (fun c => { c with gp := c.gp.drop 1 })).counterDown (core * 8 + g.slot) g.tid
          g.cc).gpKick core).judgeEntries s g.ctx core (wroteBy g i)).cycle)) ∧
  (∀ (s : State) (k tid cc : Nat), (s.task k).stat ≠ .free → (s.task k).tid = tid →
    Tab.get 0 ((s.counterDown k tid cc).task k).cc cc = Tab.get 0 (s.task k).cc cc - 1) ∧
  (∀ (core target addr len tag place : Nat) (bs : List Byte) (s : State), core ≠ target → addr + bs.length ≤ 0x40000 →
    s.filling (s.installedCtx target) target addr bs.length = false →
    s.portBehind target addr bs.length (some place) = false →
    Next (exec (.memoryPortAccess core target addr (some (bs, tag, place)) len) s)
      (((s.portSeen target addr bs.length).spadWrite (s.installedCtx target) target addr bs tag).landed
        (0x10000000000 + target * 0x40000 + addr) bs.length (.commit (core * 8 + 7))).cycle) ∧
  (∀ (core target addr len : Nat) (s : State), core ≠ target → addr + len ≤ 0x40000 →
    s.filling (s.installedCtx target) target addr len = false → s.portBehind target addr len none = false →
    Next (exec (.memoryPortAccess core target addr none len) s) (s.portSeen target addr len).cycle) ∧
  (∀ (core target addr len : Nat) (w : Option (List Byte × Nat × Nat)) (s : State),
    let n := Nat.min (match w with | some x => x.1.length | none => len) (0x40000 - addr)
    (s.filling (s.installedCtx target) target addr n = true ∨ s.portBehind target addr n (w.map (·.2.2)) = true) →
    Next (exec (.memoryPortAccess core target addr w len) s) (s.push (.memoryPortAccess core target addr w len)).cycle)

/-- R274, R275, R406, R280, R282, R283, R285, R330, R348, R349, R356, R248, R254, R278: what the owners' handlers do with the message
at the head of their system queue: an update is applied and its message acknowledged, once the host has acknowledged a line of its
window (R406); a reply reaches its place; a merge retires with its number; a key passes; a barrier counts an arrival and at the last one
opens; a bucket's first token makes its first block; a summary takes each element's extreme; the node cache refills; a reservation is
released. Handlers wait for a page whose migration mark is set (R82). Which of them ask the host, and that a bucket link does not, is the
model's choice (log 82), and so is that a write to a valid entry of a table is judged as it is applied (R17, log 132). -/
def Obligations.OwnerEvents : Prop :=
  (∀ (s s1 : State) (core : Nat) (m : Message) (u : Update) (f : AFn), u.kind = .amo f → s.hostOwes u.pa 1 = [] →
    Served s (.update u) core m s1 → appliesNow s1 core u.ctx →
    Next (exec (.atomicApply u) s) ((s1.applyUpdate core (hdrTrm m.hdr) u).termDone core m).cycle) ∧
  (∀ (s s1 : State) (core : Nat) (m : Message) (u : Update), u.kind = .join → s.hostOwes u.pa 1 = [] →
    Served s (.update u) core m s1 → appliesNow s1 core u.ctx →
    Next (exec (.joinArrival u) s) ((s1.applyUpdate core (hdrTrm m.hdr) u).termDone core m).cycle) ∧
  (∀ (s s1 : State) (core : Nat) (m : Message) (u : Update), u.kind = .tshr ∨ u.kind = .tdrop ∨ u.kind = .tseal →
    s.portHeld [(u.pa, 64)] = false → s.hostOwes u.pa 1 = [] → Served s (.update u) core m s1 → appliesNow s1 core u.ctx →
    Next (exec (.shareUpdate u) s) ((s1.applyUpdate core (hdrTrm m.hdr) u).termDone core m).cycle) ∧
  (∀ (s : State) (u : Update), s.portHeld [(u.pa, 64)] = true →
    Next (exec (.shareUpdate u) s) (s.push (.shareUpdate u)).cycle) ∧
  (∀ (s : State) (u : Update), s.hostOwes u.pa 1 ≠ [] →
    Next (exec (.atomicApply u) s) ((s.askHost (s.hostOwes u.pa 1)).push (.atomicApply u)).cycle ∧
    Next (exec (.joinArrival u) s) ((s.askHost (s.hostOwes u.pa 1)).push (.joinArrival u)).cycle) ∧
  (∀ (s : State) (core trm k place : Nat) (u : Update) (f : AFn), u.kind = .amo f → u.reply = some (k, place) →
    s.applyUpdate core trm u =
      ((s.writeSeen u.pa
        (Num.bytesOf (elemBytes u.t) (amoNew f u.t (s.num u.pa (elemBytes u.t)) u.operand.toNat u.compare.toNat)) u.tag .atomic).push
        (.atomicReply (k / 8) (k % 8) place { v := widen u.t (s.num u.pa (elemBytes u.t)), tag := s.tagAt u.pa (elemBytes u.t) })).judgeEntries
          s u.ctx core [(u.pa, elemBytes u.t)]) ∧
  (∀ (s s' : State) (ctx core : Nat) (parts : List (Nat × Nat)),
    ((∀ p ∈ parts, s.entryBroken s.byte p.1 (s'.bytes p.1 p.2) = none) → s'.judgeEntries s ctx core parts = s') ∧
    (∀ a rest n pa, parts = (pa, n) :: rest → s.entryBroken s.byte pa (s'.bytes pa n) = some a →
      s'.judgeEntries s ctx core parts = s'.deviceFault ctx core 69 0 [BitVec.ofNat 64 a])) ∧
  (∀ (s : State) (core trm : Nat) (u : Update), u.kind = .join →
    (s.num u.pa 4 ≠ 1 → s.applyUpdate core trm u =
      s.writeSeen u.pa (Num.bytesOf 8 ((s.num u.pa 4 + 2 ^ 32 - 1) % 2 ^ 32)) 0 .atomic) ∧
    (s.num u.pa 4 = 1 → s.lineTag u.pa = 0 → ∀ w, w = s.writeSeen u.pa (Num.bytesOf 8 0) 0 .atomic →
      s.applyUpdate core trm u = w.emit core trm (lineMessage (w.word (u.pa + 8)) core u.ctx 0
        [w.word (u.pa + 16), w.word (u.pa + 24), w.word (u.pa + 32), w.word (u.pa + 40), w.word (u.pa + 48), w.word (u.pa + 56), 0, 0]))) ∧
  (∀ (s : State) (core trm : Nat) (u : Update),
    (u.kind = .tshr → segWord s u.pa 0 % 2 ^ 32 ≠ 2 ^ 32 - 1 →
      s.applyUpdate core trm u = s.writeSeen u.pa (Num.bytesOf 8 (segWord s u.pa 0 + 1)) 0 .atomic) ∧
    (u.kind = .tdrop → 1 < segWord s u.pa 0 % 2 ^ 32 →
      s.applyUpdate core trm u = s.writeSeen u.pa (Num.bytesOf 8 (segWord s u.pa 0 - 1)) 0 .atomic) ∧
    (u.kind = .tseal →
      s.applyUpdate core trm u = s.writeSeen (u.pa + 8) (Num.bytesOf 8 (segWord s u.pa 1 % 2 ^ 63 + 2 ^ 63)) 0 .atomic)) ∧
  (∀ (core slot place : Nat) (w : Tagged) (s : State),
    Next (exec (.atomicReply core slot place w) s) ((s.deliver place (.word w)).trySave (core * 8 + slot)).cycle ∧
    ((∀ why, ((s.deliver place (.word w)).task (core * 8 + slot)).stat ≠ .saving why) →
      Next (exec (.atomicReply core slot place w) s) (s.deliver place (.word w)).cycle)) ∧
  (∀ (core slot d n : Nat) (l : List LogEntry) (s : State), (s.core core).merging = true → (s.core core).running = some slot →
    (s.task (core * 8 + slot)).wait = .merge d → (∀ why, (s.task (core * 8 + slot)).stat ≠ .saving why) →
    s.mergeOrder (s.task (core * 8 + slot)).ctx core = (n, l) →
    let owed := (l.map (s.entryHolds (s.task (core * 8 + slot)).ctx)).flatMap (·.1) ++ s.heldOwes core
    owed ≠ [] ∨ (∃ e ∈ l, (s.entryHolds (s.task (core * 8 + slot)).ctx e).2 = true) →
    Next (exec (.mergeComplete core) s) ((s.askHost owed).push (.mergeComplete core)).cycle) ∧
  (∀ (core slot d n m : Nat) (l : List LogEntry) (s s1 : State), (s.core core).merging = true → (s.core core).running = some slot →
    (s.task (core * 8 + slot)).wait = .merge d → (∀ why, (s.task (core * 8 + slot)).stat ≠ .saving why) →
    s.mergeOrder (s.task (core * 8 + slot)).ctx core = (n, l) →
    (∀ e ∈ l, s.entryHolds (s.task (core * 8 + slot)).ctx e = ([], false)) → s.heldOwes core = [] →
    s.applyEntries (s.task (core * 8 + slot)).ctx core (s.task (core * 8 + slot)).trm l n = (m, false, s1) →
    Next (exec (.mergeComplete core) s)
      ((((((s1.modCc (s.task (core * 8 + slot)).ctx core (fun c => { c with logCount := 0 })).modSpace
        (s.task (core * 8 + slot)).ctx core (fun sp => { sp with cursors := none })).completeWord (core * 8 + slot)).modTask
          (core * 8 + slot) (fun t => t.setReg d { v := BitVec.ofNat 64 m, tag := 0 })).endMerge core)).cycle) ∧
  (∀ (ctx region core : Nat) (holder : Option Nat) (m : Message) (s s1 : State), Served s (.keyPass ctx region holder) core m s1 →
    Next (exec (.keyPassApply ctx region holder) s) ((s1.keyPass ctx region holder).termDone core m).cycle) ∧
  (∀ (ctx region : Nat) (holder : Option Nat) (s : State),
    (s.keyPass ctx region holder).region ctx region =
      { s.region ctx region with held := holder.isSome, holder := holder.getD (s.region ctx region).holder } ∧
    (∀ h, holder = some h → ctx * 4096 + region ∈ ((s.keyPass ctx region holder).core h).keys) ∧
    ((s.region ctx region).held = true → holder ≠ some (s.region ctx region).holder →
      ctx * 4096 + region ∉ ((s.keyPass ctx region holder).core (s.region ctx region).holder).keys)) ∧
  (∀ (ctx group core : Nat) (hdr : Word) (s : State), hdrTrm hdr = 0 →
    (∀ a ∈ arrivalsOf s ctx (group % 256), a.1 ≠ core) →
    ((arrivalsOf s ctx (group % 256)).length + 1 < (s.group ctx (group % 256)).members →
      Next (exec (.gsyncArrival ctx group core hdr) s)
        ((s.writeMem ((s.ctx ctx).groupAt (group % 256) + 8)
          (Num.bytesOf 4 ((arrivalsOf s ctx (group % 256)).length + 1)) 0).modGroup ctx (group % 256) (fun x =>
            { x with arrivals := arrivalsOf s ctx (group % 256) ++ [(core, hdr)]
                     arrQuantum := Nat.max (group / 256) x.arrQuantum })).cycle) ∧
    ((s.group ctx (group % 256)).members ≤ (arrivalsOf s ctx (group % 256)).length + 1 →
      Next (exec (.gsyncArrival ctx group core hdr) s)
        ((s.barrierDone ctx (group % 256) (Nat.max (group / 256) (s.group ctx (group % 256)).arrQuantum)
          (arrivalsOf s ctx (group % 256) ++ [(core, hdr)])).modGroup ctx (group % 256) (fun x => { x with arrQuantum := 0 })).cycle)) ∧
  (∀ (ctx group core : Nat) (hdr : Word) (s : State), hdrTrm hdr = 0 → (∃ a ∈ arrivalsOf s ctx (group % 256), a.1 = core) →
    Next (exec (.gsyncArrival ctx group core hdr) s)
      (s.deviceFault ctx ((s.ctx ctx).groupOwner (group % 256)) 68 0 [BitVec.ofNat 64 (group % 256), BitVec.ofNat 64 core]).cycle) ∧
  (∀ (ctx g q : Nat) (l : List (Nat × Word)) (s : State), arrivalsOf (s.barrierDone ctx g q l) ctx g = [] ∧
    (noLoss s → (s.barrierDone ctx g q l).num ((s.ctx ctx).groupAt g) 8 =
      s.num ((s.ctx ctx).groupAt g) 8 / 2 * 2 + (1 - s.num ((s.ctx ctx).groupAt g) 8 % 2))) ∧
  (∀ (l : Link) (s : State), (s.linkAddrs l).any (s.pageMoving l.ctx) = true →
    Next (exec (.bucketLink l) s) (s.push (.bucketLink l)).cycle) ∧
  (∀ (ctx va : Nat) (isMax : Bool) (key : List Nat) (s : State),
    (s.pageMoving ctx va = true → Next (exec (.summaryUpdate ctx va isMax key) s) (s.push (.summaryUpdate ctx va isMax key)).cycle) ∧
    (s.pageMoving ctx va = false → s.handlerOwes ctx [va] ≠ [] →
      Next (exec (.summaryUpdate ctx va isMax key) s)
        ((s.askHost (s.handlerOwes ctx [va])).push (.summaryUpdate ctx va isMax key)).cycle)) ∧
  (∀ (l : Link) (core pa : Nat) (m : Message) (s s1 : State), (s.linkAddrs l).any (s.pageMoving l.ctx) = false →
    Served s (.link l) core m s1 →
    s1.lineAt l.ctx ((l.hbase + 64 * l.bucket) % 2 ^ 57) = some pa →
    Next (exec (.bucketLink l) s) ((s1.linkAt core l pa).termDone core m).cycle) ∧
  (∀ (s : State) (core : Nat) (l : Link) (pa a : Nat), s.lineTag pa = 0 → s.num pa 16 = 0 → 0 < l.limit →
    s.lineAt l.ctx ((l.pool + 64 * (l.bucket * l.limit)) % 2 ^ 57) = some a →
    s.linkAt core l pa =
      (s.writeSeen a (Num.bytesOf 4 l.n ++ List.replicate 52 0 ++ Num.bytesOf 4 0xFFFFFFFF ++ Num.bytesOf 4 1) 0 (.commit (core * 8 + 7))).writeSeen
        pa (Num.bytesOf 16 (l.gen * 2 ^ 48 + 2 ^ 32 + 1 + l.bucket * l.limit * 2 ^ 96 + l.bucket * l.limit * 2 ^ 64)) 0 (.commit (core * 8 + 7))) ∧
  (∀ (ctx va core pa : Nat) (isMax : Bool) (key : List Nat) (m : Message) (s s1 : State),
    s.pageMoving ctx va = false → s.handlerOwes ctx [va] = [] →
    Served s (.summary ctx va isMax key) core m s1 → s1.lineAt ctx va = some pa →
    Next (exec (.summaryUpdate ctx va isMax key) s)
      ((s1.writeSeen pa ((List.range key.length).flatMap (fun i => Num.bytesOf 2
        (if isMax then Num.bf16.max (s1.num (pa + 2 * i) 2) (key.getD i 0) else Num.bf16.min (s1.num (pa + 2 * i) 2) (key.getD i 0))))
        (s1.lineTag pa) .atomic).termDone core m).cycle) ∧
  (∀ (ctx core : Nat) (s : State),
    (s.refillMoves ctx core = false →
      Next (exec (.nodeCacheRefill ctx core) s) ((List.range 32).foldl (fun x _ => x.refillOne ctx core) s).cycle) ∧
    (s.refillMoves ctx core = true → Next (exec (.nodeCacheRefill ctx core) s) (s.push (.nodeCacheRefill ctx core)).cycle)) ∧
  (∀ (ctx core pa : Nat) (s : State), (s.ctx ctx).nhbase.getLsbD 0 = true → (s.cc ctx core).nodeCache.length < 32 →
    s.lineAt ctx ((s.ctx ctx).segment core) = some pa →
    (segWord s pa 0 % 2 ^ 15 = 0 → segWord s pa 2 % 2 ^ 16 < 32767 →
      s.refillOne ctx core = (s.physWrite (pa + 16) (Num.bytesOf 8 (segWord s pa 2 + 1)) 0).modCc ctx core (fun c =>
        { c with nodeCache := c.nodeCache ++ [(s.ctx ctx).segment core + (segWord s pa 2 % 2 ^ 16 + 1) * 64] })) ∧
    (∀ pn, segWord s pa 0 % 2 ^ 15 ≠ 0 → s.pageMoving ctx ((s.ctx ctx).segment core + segWord s pa 0 % 2 ^ 15 * 64) = false →
      s.lineAt ctx ((s.ctx ctx).segment core + segWord s pa 0 % 2 ^ 15 * 64) = some pn →
      s.refillOne ctx core =
        ((s.physWrite pa (Num.bytesOf 8 (segWord s pa 0 / 2 ^ 15 * 2 ^ 15 + segWord s pn 1 % 2 ^ 15)) 0).physWrite (pa + 8)
          (Num.bytesOf 8 (segWord s pa 1 / 2 ^ 16 * 2 ^ 16 + (segWord s pa 1 + 2 ^ 16 - 1) % 2 ^ 16)) 0).modCc ctx core (fun c =>
            { c with nodeCache := c.nodeCache ++ [(s.ctx ctx).segment core + segWord s pa 0 % 2 ^ 15 * 64] }))) ∧
  (∀ (ctx core : Nat) (s : State), Next (exec (.entryRelease ctx core) s)
    (s.modSpace ctx core (fun sp => { sp with deque := { sp.deque with reserved := sp.deque.reserved - 1 } })).cycle)

/-- R52, R58, R60, R62, R64, R66, R300, R301: the decision of a version load and its wake; the reclaiming of records below K; the
reload of a descriptor, or the fault of R17 where R51 or R52 is broken; frames granted and released; commits judged again when records come
free; a horizon report that takes effect 96 cycles after its window; and the check of a write signature, after which the task commits. The
model's choices: the oldest release first (log 117), the order in which stalled commits are judged (log 118), the signature's check as one
event (log 40), the window of a horizon report (log 22), and that code 69 names the broken duty of R17 with the address of the entry (logs 110, 132). -/
def Obligations.VersionEvents : Prop :=
  (∀ (core slot id v region e : Nat) (eq : Bool) (l : Load) (s : State) (r : Region), VersionLoad s (core * 8 + slot) id l eq v region e →
    r = s.region (s.task (core * 8 + slot)).ctx region → (s.task (core * 8 + slot)).earlierOverlap l = false →
    (v < Nat.min r.floor (s.newest e) → Next (exec (.versionRequest core slot id) s)
      (s.deliver id (.trap id 2 0 [l.va, v, s.newest e, r.floor, l.pc])).cycle) ∧
    (Nat.min r.floor (s.newest e) ≤ v → v ≤ s.newest e → Next (exec (.versionRequest core slot id) s)
      (s.deliver id (l.word (s.versionBytes e (lineOf l) v).1 (s.versionBytes e (lineOf l) v).2)).cycle) ∧
    (s.newest e < v → r.closed = true → eq = true → Next (exec (.versionRequest core slot id) s)
      (s.deliver id (.trap id 3 0 [l.va, v, s.newest e, r.floor, l.pc])).cycle) ∧
    (s.newest e < v → r.closed = true → eq = false → Next (exec (.versionRequest core slot id) s)
      (s.deliver id (l.word (s.bytes (lineOf l) 64) (s.lineTag (lineOf l)))).cycle) ∧
    (s.newest e < v → r.closed = false → ∃ t, Next (exec (.versionRequest core slot id) s) t ∧
      { core := core, slot := slot, id := id, eq := eq, v := v, region := region, line := e } ∈
        (t.ctx (s.task (core * 8 + slot)).ctx).vparked ∧
      (∀ x ∈ (t.task (core * 8 + slot)).loads, x.id = id → x.parked = true) ∧
      (noLoss s → t.num (e + 8) 8 = 2 ^ 63 + s.num (e + 8) 8 % 2 ^ 63))) ∧
  (∀ (core slot id v region e : Nat) (eq : Bool) (l : Load) (s : State), VersionLoad s (core * 8 + slot) id l eq v region e →
    (s.task (core * 8 + slot)).earlierOverlap l = true →
    Next (exec (.versionRequest core slot id) s) (s.push (.versionRequest core slot id)).cycle) ∧
  (∀ (s : State) (e pa : Nat), s.versionBytes e pa (s.newest e) = (s.bytes pa 64, s.lineTag pa)) ∧
  (∀ (s : State) (e pa v p : Nat), v ≠ s.newest e → (s.records e).find? (fun x => x.2 == v) = some (p, v) →
    s.versionBytes e pa v = (s.bytes (recData p) 64, s.lineTag (recData p))) ∧
  (∀ (core slot j id : Nat) (s : State), (s.task j).stat = .parked (.version id) →
    (∀ p ∈ s.tasks, p.2.stat.parkedOn = some (.version id) → p.1 = j) →
    Next (exec (.versionWake core slot id) s) (woken s j).cycle) ∧
  (∀ (core slot id : Nat) (s : State), (∃ p ∈ s.tasks, p.2.stat.parkedOn = some (.version id)) →
    (∀ p ∈ s.tasks, p.2.stat ≠ .parked (.version id)) →
    Next (exec (.versionWake core slot id) s) (s.push (.versionWake core slot id)).cycle) ∧
  (∀ (core slot id : Nat) (s : State), (∀ p ∈ s.tasks, p.2.stat.parkedOn ≠ some (.version id)) →
    Next (exec (.versionWake core slot id) s) (s.wakeSaved (fun t => t.stat.parkedOn == some (.version id))).cycle) ∧
  (∀ (ctx e : Nat) (s : State),
    (belowK s ctx e = [] → Next (exec (.versionReclaim ctx e) s) s.cycle) ∧
    (belowK s ctx e ≠ [] → Next (exec (.versionReclaim ctx e) s)
      (((s.writeChain e (s.newest e) (s.num (e + 8) 8 / 2 ^ 63 == 1) (atOrAboveK s ctx e)).modCtx ctx (fun c =>
        { c with recUsed := c.recUsed.filter (fun p => !((belowK s ctx e).map (·.1)).contains p.1) })).recsFreed ctx
          (belowK s ctx e).length).cycle)) ∧
  (∀ (ctx : Nat) (v : Word) (s : State), s.vrsyncBreaks ctx (v.toNat % 4096) = true →
    Next (exec (.vrsyncWrite ctx v) s)
      (s.deviceFault ctx 0 69 0 [BitVec.ofNat 64 ((s.ctx ctx).descAt (v.toNat % 4096))]).cycle) ∧
  (∀ (ctx : Nat) (v : Word) (s : State) (d : Region), d = s.readDesc ctx (v.toNat % 4096) → s.vrsyncBreaks ctx (v.toNat % 4096) = false →
    (d.valid = true → d.lines ≠ 0 → d.dir / 2 ^ 30 < s.mcap →
      Next (exec (.vrsyncWrite ctx v) s) (s.setRegion ctx (v.toNat % 4096) d).cycle) ∧
    (d.valid = true → d.lines = 0 ∨ s.mcap ≤ d.dir / 2 ^ 30 → Next (exec (.vrsyncWrite ctx v) s) s.cycle) ∧
    (d.valid = false → ∃ t, Next (exec (.vrsyncWrite ctx v) s) t ∧ (t.region ctx (v.toNat % 4096)).valid = false ∧
      (∀ r, r ≠ v.toNat % 4096 → t.region ctx r = s.region ctx r) ∧ t.mem = s.mem)) ∧
  (∀ (ctx f : Nat) (v : Word) (s : State), f = v.toNat / 2 ^ 16 % 1024 → v.getLsbD 1 = false → f ∉ (s.ctx ctx).frames →
    f < s.mcap → (s.ctx ctx).releasing = [] →
    ∃ t, Next (exec (.vhctlGrant ctx v) s) t ∧ (t.ctx ctx).frames = (s.ctx ctx).frames ++ [f] ∧
      (t.ctx ctx).vhctl.toNat = v.toNat / 2 ^ 32 % 2 ^ 24 * 2 ^ 32 + f * 2 ^ 16 ∧
      t.pending = s.pending ++ [.versionRecordsFreed ctx recsPerFrame] ∧ t.tasks = s.tasks) ∧
  (∀ (ctx f : Nat) (v : Word) (s : State), f = v.toNat / 2 ^ 16 % 1024 → v.getLsbD 0 = false → f ∈ (s.ctx ctx).frames →
    f ∉ (s.ctx ctx).releasing →
    ∃ t, Next (exec (.vhctlRelease ctx v) s) t ∧ (t.ctx ctx).releasing = (s.ctx ctx).releasing ++ [f] ∧ (t.ctx ctx).frames = (s.ctx ctx).frames ∧
      t.pending = s.pending ++ [.heapReleaseComplete ctx] ∧ t.mem = s.mem ∧ t.tasks = s.tasks) ∧
  (∀ (ctx f : Nat) (rest : List Nat) (s s1 : State), (s.ctx ctx).releasing = f :: rest → s1 = s.moveOut ctx f (s.ctx ctx).recUsed.length →
    ((∀ p ∈ (s1.ctx ctx).recUsed, p.1 / 2 ^ 24 ≠ f) →
      Next (exec (.heapReleaseComplete ctx) s)
        ((s1.modCtx ctx (fun c => { c with frames := c.frames.filter (· != f), releasing := rest })).recsFreed ctx 0).cycle) ∧
    ((∃ p ∈ (s1.ctx ctx).recUsed, p.1 / 2 ^ 24 = f) → Next (exec (.heapReleaseComplete ctx) s) s1.cycle)) ∧
  (∀ (ctx f n p q e : Nat) (s : State), (s.ctx ctx).recUsed.find? (fun x => x.1 / 2 ^ 24 == f) = some (p, e) →
    (s.ctx ctx).pickRec = some q →
    s.moveOut ctx f (n + 1) =
      ((((s.writeMem (recData q) (s.bytes (recData p) 64) (s.lineTag (recData p))).writeChain e
        ((s.writeMem (recData q) (s.bytes (recData p) 64) (s.lineTag (recData p))).newest e)
        ((s.writeMem (recData q) (s.bytes (recData p) 64) (s.lineTag (recData p))).num (e + 8) 8 / 2 ^ 63 == 1)
        ((s.records e).map (fun x => if x.1 = p then (q, x.2) else x)))).modCtx ctx (fun c =>
          { c with recUsed := c.recUsed.map (fun x => if x.1 = p then (q, e) else x) })).moveOut ctx f n) ∧
  (∀ (ctx n : Nat) (s s1 : State), s1 = s.stepRelease ctx → Next (exec (.versionRecordsFreed ctx n) s)
    (s1.tasks.foldl (fun x p => if (x.task p.1).stat = .committing ∧ (x.task p.1).ctx = ctx then
      (x.modTask p.1 (fun t => { t with stat := .running })).commitTask p.1 else x) s1).cycle) ∧
  (∀ (ctx g : Nat) (s : State),
    (∀ v, Tab.get none s.horizonReports (ctx * 256 + g) = none → s.horizonReport ctx g = some v →
      Next (exec (.horizonWindow ctx g) s)
        (({ s with horizonReports := Tab.set none s.horizonReports (ctx * 256 + g) (some (s.cyc, v)) } : State).push
          (.horizonWindow ctx g)).cycle) ∧
    (∀ at' v, Tab.get none s.horizonReports (ctx * 256 + g) = some (at', v) → (at' / 8 + 1) * 8 + 96 ≤ s.cyc →
      ∃ t, Next (exec (.horizonWindow ctx g) s) t ∧ (t.group ctx g).horizon = Nat.max (s.group ctx g).horizon v ∧
        Tab.get none t.horizonReports (ctx * 256 + g) = none ∧ t.tasks = s.tasks) ∧
    (∀ at' v, Tab.get none s.horizonReports (ctx * 256 + g) = some (at', v) → s.cyc < (at' / 8 + 1) * 8 + 96 →
      Next (exec (.horizonWindow ctx g) s) (s.push (.horizonWindow ctx g)).cycle)) ∧
  (∀ (core slot g : Nat) (s : State), (s.task (core * 8 + slot)).wait = .signature →
    s.orderedGroup (s.task (core * 8 + slot)) = some g →
    s.conflictingSaved (s.task (core * 8 + slot)) g = [] →
    Next (exec (.orderedSignatureCheck core slot) s)
      ((((s.conflicting (core * 8 + slot) (s.task (core * 8 + slot)) g).foldl (fun x j => x.orderedAbort j) s).modTask (core * 8 + slot)
        (fun t => { t with wait := .none })).commitTask (core * 8 + slot)).cycle) ∧
  (∀ (k g j : Nat) (s : State) (t : Task), j ∈ s.conflicting k t g ↔ ∃ p ∈ s.tasks, p.1 = j ∧ j ≠ k ∧ p.2.stat ≠ .free ∧ p.2.stat.dying = false ∧
    p.2.ctx = t.ctx ∧ s.orderedGroup p.2 = some g ∧ t.ts < p.2.ts ∧ p.2.rsig &&& t.wsig ≠ 0)

/-- R334, R337, R343, R344, R355, R358, R359, R319, R323: a message starts its task, waits, is held, is returned, is sent again 1,024 cycles later;
spilled messages are looked at again; a slot is reserved for a child or refused, and the answer completes its `spawn`; a
deque is split for a thief and the reply completes its `dsteal`; an acknowledgement ends a region or takes its record's step; a
meet starts its handler; each relink message is served by the row of R323 for its slot, once its node's page does not move (R82) and the host
has acknowledged a line of its window (R406). The model's choices: a slot-7 message is taken whatever the enable of its tag's entry (log 120);
the place of a message sent again (log 125); a meet's priority (log 13); the poison that a relink message consumes (log 130). -/
def Obligations.MessageEvents : Prop :=
  (∀ (m : Message) (slot : Nat) (s : State), startsAtOnce s m slot →
    Next (exec (.messageArrival m) s)
      ((s.startAt m.dst slot m (s.tagEntry m.ctx m.dst (hdrTag m.hdr)).entry (s.tagEntry m.ctx m.dst (hdrTag m.hdr)).prio
        (startRegs m)).select m.dst).cycle) ∧
  (∀ (m : Message), Tab.get zeroT (startRegs m) 9 = { v := hdrSetCore m.hdr m.src, tag := 0 } ∧
    (∀ i, i < 8 → Tab.get zeroT (startRegs m) (i + 1) = m.payload.getD i zeroT) ∧
    ∀ n, n = 0 ∨ 9 < n → Tab.get zeroT (startRegs m) n = zeroT) ∧
  (∀ (m : Message) (s : State), s.returnedBefore m = true → Next (exec (.messageArrival m) s) (s.resend m).cycle) ∧
  (∀ (m : Message) (s : State), s.returnedBefore m = false → hdrTrm m.hdr = 0 → m.svc = .task → m.entry = none →
    userTag (hdrTag m.hdr) = true →
    (s.tagEntry m.ctx m.dst (hdrTag m.hdr)).en = false →
    ((s.cc m.ctx m.dst).spill.length < 4096 → ∃ t, Next (exec (.messageArrival m) s) t ∧
      (t.cc m.ctx m.dst).spill = (s.cc m.ctx m.dst).spill ++
        [{ m := m, held := true, level := hdrPrio m.hdr, seq := s.nextId, waitFrom := s.cyc, ahead := m.tid.isSome, came := s.cyc }] ∧
      (t.tagEntry m.ctx m.dst (hdrTag m.hdr)).pend = true ∧ t.tasks = s.tasks) ∧
    (4096 ≤ (s.cc m.ctx m.dst).spill.length → Next (exec (.messageArrival m) s)
      ((s.modCc m.ctx m.dst (fun c => { c with bounces := Nat.min (c.bounces + 1) 0xFFFF })).push (.messageBounce m)).cycle)) ∧
  (∀ (m : Message) (e : Event) (s : State), hdrTrm m.hdr = 0 → m.flight = none → noTask (hdrTag m.hdr) = false →
    userTag (hdrTag m.hdr) = false → svcEvent m = some e → s.canStart m.ctx = true → (s.core m.dst).sysQueue.length < 17 →
    s.spilledSvc m.dst = [] → s.returnedBefore m = false →
    Next (exec (.messageArrival m) s)
      ((s.modCore m.dst (fun c => { c with sysQueue := c.sysQueue ++ [m] })).push e).cycle) ∧
  (∀ (m : Message) (s : State), Next (exec (.messageBounce m) s)
    ((s.modCore m.src (fun c => { c with bounced := c.bounced ++ [{ m := m, since := s.cyc }] })).push (.bounceResend m.src)).cycle) ∧
  (∀ (core : Nat) (p : Returned) (rest : List Returned) (s : State), (s.core core).bounced = p :: rest →
    (s.cyc < p.since + 1024 → Next (exec (.bounceResend core) s) (s.push (.bounceResend core)).cycle) ∧
    (p.since + 1024 ≤ s.cyc →
      (∀ e ∈ s.pending, s.wayOf e ≠ some (p.m.src, p.m.dst)) →
      Next (exec (.bounceResend core) s) ((s.modCore core (fun c => { c with bounced := rest })).push (.messageArrival p.m)).cycle) ∧
    (p.since + 1024 ≤ s.cyc → Next (exec (.bounceResend core) s) ((s.modCore core (fun c => { c with bounced := rest })).resend p.m).cycle)) ∧
  (∀ (ctx core : Nat) (s s1 : State), s1 = ((s.refillSys core).fill core).evict core → (s1.core core).sysQueue = [] →
    Next (exec (.spillWake ctx core) s) s1.cycle) ∧
  (∀ (core slot : Nat) (p : Spilled) (s : State), s.freeSlot core = some slot → s.bestSaved core = none → s.bestSpill core = some p →
    s.fillOne core = (s.unspill core p).startSpilled core slot p) ∧
  (∀ (core slot : Nat) (p : Spilled) (s : State),
    (((s.startTask core slot p.m).task (core * 8 + slot)).stat = .ready →
      s.startSpilled core slot p = (s.startTask core slot p.m).modTask (core * 8 + slot) (fun t => { t with cycEnq := p.came })) ∧
    (((s.startTask core slot p.m).task (core * 8 + slot)).stat ≠ .ready → s.startSpilled core slot p = s.startTask core slot p.m)) ∧
  (∀ (parent slot d sl : Nat) (m : Message) (s : State), (s.task (parent * 8 + slot)).wait = .spawn d m →
    (s.acceptsChild m = true → s.freeSlot m.dst = some sl →
      ∃ t, Next (exec (.spawnSlotRequest parent slot m) s) t ∧ (t.task (m.dst * 8 + sl)).stat = .reserved ∧
        (t.task (m.dst * 8 + sl)).tid = (s.task (parent * 8 + slot)).tid ∧ (t.task (m.dst * 8 + sl)).start = some m ∧
        t.pending = s.pending ++ [.spawnAnswer parent slot true] ∧ t.mem = s.mem ∧
        ∀ j, j ≠ m.dst * 8 + sl → t.task j = s.task j) ∧
    (s.acceptsChild m = false → Next (exec (.spawnSlotRequest parent slot m) s) (s.push (.spawnAnswer parent slot false)).cycle)) ∧
  (∀ (core slot d : Nat) (m : Message) (s : State), (s.task (core * 8 + slot)).wait = .spawn d m →
    (s.task (core * 8 + slot)).stat = .running →
    (∀ sl, s.reservedSlot m (s.task (core * 8 + slot)).tid = some sl →
      Next (exec (.spawnAnswer core slot true) s)
        (((spawned s (core * 8 + slot) (.child m m.dst sl) (unitsOf (hdrLen m.hdr + 1))).completeWord (core * 8 + slot)).modTask
          (core * 8 + slot) (fun t => t.setReg d { v := 0, tag := 0 })).cycle) ∧
    ((s.task (core * 8 + slot)).inl.length < 4 → Next (exec (.spawnAnswer core slot false) s)
      ((((s.landLate (core * 8 + slot)).modTask (core * 8 + slot) (fun t => { t with spawns := t.spawns + 1 })).completeWord
        (core * 8 + slot)).modTask
        (core * 8 + slot) (fun t => t.startInline d ((core * 8 + slot) / 8) m)).cycle) ∧
    (4 ≤ (s.task (core * 8 + slot)).inl.length → Next (exec (.spawnAnswer core slot false) s)
      (((spawned s (core * 8 + slot) (.send m) (unitsOf (hdrLen m.hdr + 1))).completeWord (core * 8 + slot)).modTask
        (core * 8 + slot) (fun t => t.setReg d { v := 2, tag := 0 })).cycle)) ∧
  (∀ (t : Task) (d core : Nat) (m : Message), (t.startInline d core m).pc = m.entry.getD 0 ∧
    (t.startInline d core m).g = startRegs { m with src := core, hdr := hdrLeaves m.hdr t.trm } ∧ (t.startInline d core m).v = t.v ∧
    (t.startInline d core m).m = t.m ∧ (t.startInline d core m).a = t.a ∧ (t.startInline d core m).commit = t.commit ∧
    ∀ f rest, (t.startInline d core m).inl = f :: rest → rest = t.inl ∧ f.g = t.g ∧ f.pc = t.pc ∧ f.loops = t.loops ∧ f.cc = t.cc) ∧
  (∀ (thief slot d victim : Nat) (s : State), (s.task (thief * 8 + slot)).wait = .steal d victim →
    ((s.space (s.task (thief * 8 + slot)).ctx victim).deque.ranges = [] →
      Next (exec (.stealRequest thief slot victim) s) (s.push (.stealReply thief slot victim none)).cycle) ∧
    (∀ r q, (s.space (s.task (thief * 8 + slot)).ctx victim).deque.takeOld = some (r, q) →
      Next (exec (.stealRequest thief slot victim) s)
        (((s.modTask (thief * 8 + slot) (fun t => { t with taken := t.taken ++ [{ core := victim, r := r }] })).modSpace
          (s.task (thief * 8 + slot)).ctx victim (fun sp => { sp with deque := q })).push
            (.stealReply thief slot victim (some r))).cycle)) ∧
  (∀ (q : Deque) (r : Range) (rest : List Range), q.ranges = r :: rest →
    (r.hi - r.lo ≠ 1 → rest.length + 1 + q.reserved < 32 →
      q.takeOld = some (firstHalf r, { ranges := secondHalf r :: rest, reserved := q.reserved + 1 })) ∧
    (r.hi - r.lo = 1 ∨ 32 ≤ rest.length + 1 + q.reserved →
      q.takeOld = some (r, { ranges := rest, reserved := q.reserved + 1 }))) ∧
  (∀ (thief slot d victim : Nat) (s : State), (s.task (thief * 8 + slot)).wait = .steal d victim →
    (s.task (thief * 8 + slot)).stat = .running →
    (∀ r, { core := victim, r := r } ∈ (s.task (thief * 8 + slot)).taken →
      Next (exec (.stealReply thief slot victim (some r)) s)
        (repliedPair s (thief * 8 + slot) d (BitVec.ofNat 64 (r.hi * 2 ^ 32 + r.lo), BitVec.ofNat 64 r.tag)).cycle) ∧
    ∃ t, Next (exec (.stealReply thief slot victim none) s) t ∧ (t.task (thief * 8 + slot)).wait = .none ∧
      (d < 63 → d ≠ 0 → ((t.task (thief * 8 + slot)).reg d).v = 0 ∧ ((t.task (thief * 8 + slot)).reg (d + 1)).v = 0) ∧
      (t.task (thief * 8 + slot)).failedSteals = (s.task (thief * 8 + slot)).failedSteals + 1) ∧
  (∀ (region : Nat) (s : State), (∀ f ∈ s.flights, f.region ≠ region) →
    Next (exec (.terminationAck 8192 region) s) ({ s with regionUse := s.regionUse.filter (· != region) } : State).cycle) ∧
  (∀ (region : Nat) (f : Flight) (s : State), s.flights.find? (fun x => x.region == region) = some f →
    Next (exec (.terminationAck 8192 region) s)
      (({ s with regionUse := s.regionUse.filter (· != region) } : State).endFlight f.id).cycle) ∧
  (∀ (core region : Nat) (s s1 : State), core ≠ 8192 → s1 = s.modTerm core region (fun t => { t with out := t.out - 1 }) →
    (region ≠ 0 → (s1.termRec core region).engaged = true → s1.termQuiet core region = true →
      Next (exec (.terminationAck core region) s)
        ((s1.modTerm core region (fun t => { t with engaged := false })).push
          (.terminationAck (s1.termRec core region).parent region)).cycle) ∧
    (s1.termQuiet core region = false → Next (exec (.terminationAck core region) s) s1.cycle)) ∧
  (∀ (m : Message) (lo hi : Nat) (s : State), s.meetMoving m.ctx lo hi = true →
    Next (exec (.meetDelivery m lo hi) s) (s.push (.meetDelivery m lo hi)).cycle) ∧
  (∀ (m : Message) (lo hi slot : Nat) (s : State), s.meetMoving m.ctx lo hi = false → s.meetOk m.ctx lo hi = true → s.canStart m.ctx = true →
    s.freeSlot m.dst = some slot → Next (exec (.meetDelivery m lo hi) s) ((s.startMeet m.dst slot m lo hi).select m.dst).cycle) ∧
  (∀ (m : Message) (core slot lo hi : Nat) (a b : Tagged) (r : Rule) (s : State), s.nodeHeader m.ctx lo = some a →
    s.nodeHeader m.ctx hi = some b →
    (s.core core).rules.find? (fun r => r.ctx == m.ctx && r.lo == Nat.min (hSym a.v.toNat) (hSym b.v.toNat)
      && r.hi == Nat.max (hSym a.v.toNat) (hSym b.v.toNat)) = some r →
    s.startMeet core slot m lo hi =
      (s.modCore core (fun c => { c with rules := c.rules.filter (· != r) ++ [r] })).startAt core slot m r.entry
        (s.tagEntry m.ctx core 1).prio
        (if hSym a.v.toNat = hSym b.v.toNat ∨ hSym a.v.toNat = (if r.swap then r.hi else r.lo) then meetRegs m lo hi a b
         else meetRegs m hi lo b a)) ∧
  (∀ (m : Message) (s : State) (v : Svc) (i : Instr) (e : Event) (ctx : Nat), Relinking ctx i v → svcEvent { m with svc := v } = some e →
    ((relinkLines v).any (s.pageMoving ctx) = true → Next (exec i s) (s.push e).cycle) ∧
    ((relinkLines v).any (s.pageMoving ctx) = false → s.linesOwed ctx (relinkLines v) ≠ [] →
      Next (exec i s) ((s.askHost (s.linesOwed ctx (relinkLines v))).push e).cycle)) ∧
  (∀ (ctx core : Nat) (i : Instr) (v : Svc) (m : Message) (s s1 : State), Relinking ctx i v →
    (relinkLines v).any (s.pageMoving ctx) = false → s.linesOwed ctx (relinkLines v) = [] → Served s v core m s1 →
    Next (exec i s)
      (s1.relinkServe core (Nat.min 64 ((s1.core core).relink.length + (s1.cc ctx core).spill.length + 1)) m).cycle) ∧
  (∀ (core fuel x pa : Nat) (m : Message) (s : State), relinkSlot m.svc = some x → s.lineAt m.ctx (x / 64 * 64) = some pa →
    headerOk (x / 64 * 64) (segWord s pa 0) = true → portOk (segWord s pa 0) x = true →
    s.netMarked m.ctx (x / 64 * 64) 0 = false → s.netMarked m.ctx (x / 64 * 64) (x % 8 + 1) = false → s.nodeFree m.ctx (x / 64 * 64) = false →
    (relinkRow m.svc (lnkOf (segWord s pa (x % 8 + 1))) = .held → s.relinkServe core (fuel + 1) m = s.holdRelink core m) ∧
    (∀ l' out drained written, relinkActs m.svc (lnkOf (segWord s pa (x % 8 + 1))) l' out drained written →
      l' = lnkOf (segWord s pa (x % 8 + 1)) → drained = false → written = none →
      (s.lineTag pa = 0 ∨ relinkFollows m.svc l' = false) →
      s.relinkServe core (fuel + 1) m =
        (((out.foldl (fun y v => y.sendRelink core m.ctx (hdrTrm m.hdr) v) s).nodeCheck m.ctx (x / 64 * 64)).termDone core m)) ∧
    (∀ l' out, relinkActs m.svc (lnkOf (segWord s pa (x % 8 + 1))) l' out false none → l' ≠ lnkOf (segWord s pa (x % 8 + 1)) →
      (s.lineTag pa = 0 ∨ relinkFollows m.svc (lnkOf (segWord s pa (x % 8 + 1))) = false) →
      s.relinkOne core m =
        ((((out.foldl (fun y v => y.sendRelink core m.ctx (hdrTrm m.hdr) v) (s.nodeWrite core pa (x % 8 + 1) l'.word)).nodeCheck m.ctx
          (x / 64 * 64)).termDone core m), true, false)) ∧
    (∀ l' out written, relinkActs m.svc (lnkOf (segWord s pa (x % 8 + 1))) l' out false written → s.lineTag pa ≠ 0 →
      relinkFollows m.svc (lnkOf (segWord s pa (x % 8 + 1))) = true →
      s.relinkOne core m =
        (((s.deviceFault m.ctx core 64 (s.lineTag pa) [BitVec.ofNat 64 (s.lineTag pa)]).termDone core m), false, false))) ∧
  (∀ (ctx x y z t p e : Nat) (a : Bool),
    relinkRow (.hinge ctx x z) (portTo y) = .act { portTo z with kind := 2 } [.join2 ctx y z x] false none ∧
    relinkRow (.hinge ctx x z) { portTo y with absorb := true } = .held ∧ relinkRow (.hinge ctx x z) (halfFused y) = .held ∧
    relinkRow (.fuse ctx x z) (portTo y) = .act (halfFused z) [.fuse2 ctx z x y] false none ∧
    relinkRow (.fuse2 ctx x t p) (portTo y) =
      .act { halfFused p with res := true } [.fuse3 ctx t y, .join1 ctx y p x, .join1 ctx p y t] false none ∧
    relinkRow (.fuse3 ctx x z) (halfFused y) = .act { halfFused z with res := true } [] false none ∧
    relinkRow (.join2 ctx t p e) { portTo e with absorb := a } =
      .act { portTo p with absorb := a } [.drain ctx e, .fix ctx p t] false (some p) ∧
    relinkRow (.join1 ctx t p e) { portTo e with absorb := a } = .act { portTo p with absorb := a } [.drain ctx e] false (some p) ∧
    (y ≠ e → relinkRow (.join2 ctx t p e) (portTo y) =
      .act { portTo p with absorb := true } [.drain ctx e, .fix ctx p t] false (some p)) ∧
    (y ≠ e → relinkRow (.join2 ctx t p e) { portTo y with absorb := true } = .act (portTo y) [.drain ctx e] false none) ∧
    relinkRow (.join2 ctx t p e) { portTo y with kind := 2 } =
      .act { portTo 0 with kind := 4 } (if t < e then [.fix ctx p y, .fix ctx y p] else []) true none ∧
    relinkRow (.join1 ctx t p e) { portTo y with kind := 2 } = .act { portTo y with kind := 2 } [.drain ctx e] false none ∧
    relinkRow (.join2 ctx t p e) { halfFused y with res := true } = .act { halfFused y with res := true } [.join2 ctx y p e] false none ∧
    relinkRow (.fix ctx t p) { portTo 0 with kind := 0 } = .act (portTo p) [] false (some p) ∧
    relinkRow (.fix ctx t p) { portTo y with absorb := true } = .act (portTo y) [] false none ∧
    relinkRow (.drain ctx x) { portTo y with kind := 2 } = .act { portTo 0 with kind := 4 } [] true none ∧
    relinkRow (.fix ctx t p) (portTo y) = .fault) ∧
  (∀ (core pa n : Nat) (m : Message) (s : State), m.svc = .nfree m.ctx n → s.lineAt m.ctx n = some pa →
    headerOk n (segWord s pa 0) = true → s.netMarked m.ctx n 0 = false → hCons (segWord s pa 0) = false →
    s.relinkOne core m =
      ((((s.nodeWrite core pa 0 (segWord s pa 0 + 2 ^ 43)).nodeCheck m.ctx n).termDone core m), false, false))

/-- R364, R367, R368, R430, R370, R371, R373, R374, R360, R361, R362, R376: ageing; slices, their expiry and what it pre-empts; the
register writes of scheduling and groups; quanta that end and the hives that serve them; doorbells, and the packets of the
host queues that the front hive takes. The model's choices: which status of CTXRES comes first (log 70), when the timers act (log 94), the fault
of a group table that breaks R369 (log 110), and that context 0 counts as installed for CTXRES (log 12). -/
def Obligations.SchedulingEvents : Prop :=
  (∀ (ctx period : Nat) (s : State), period = (if (s.ctx ctx).age = 0 then 1 else (s.ctx ctx).age) * 1250 →
    ∃ t, Next (exec (.ageingPeriod ctx) s) t ∧
    (∀ k n, n = (s.cyc - (s.task k).waitFrom) / period → t.task k =
      if (s.task k).stat = .ready ∧ (s.task k).ctx = ctx ∧ k % 8 ≠ 7 then
        { s.task k with level := if (s.task k).level < 6 then Min.min 6 ((s.task k).level + n) else (s.task k).level
                        waitFrom := (s.task k).waitFrom + n * period }
      else s.task k) ∧
    (∀ core, core < 8192 → (t.cc ctx core).spill = (s.cc ctx core).spill.map (fun p =>
      if s.eligible core p then
        { p with level := if p.level < 6 then Min.min 6 (p.level + (s.cyc - p.waitFrom) / period) else p.level
                 waitFrom := p.waitFrom + (s.cyc - p.waitFrom) / period * period }
      else p)) ∧
    t.mem = s.mem ∧ t.ctxs = s.ctxs) ∧
  (∀ (ctx : Nat) (v : Word) (s : State), Next (exec (.ageWrite ctx v) s)
    (s.modCtx ctx (fun c => { c with age := if v.toNat % 2 ^ 16 = 0 then 1 else v.toNat % 2 ^ 16 })).cycle) ∧
  (∀ (ctx : Nat) (v : Word) (s : State), Next (exec (.sliceWrite ctx v) s)
    (s.modCtx ctx (fun c => { c with
      runlim := if v.toNat / 2 ^ 32 % 2 ^ 16 = 0 then 1 else v.toNat / 2 ^ 32 % 2 ^ 16, slice := v.toNat % 2 ^ 32
      sliceStart := if c.resident then s.cyc else c.sliceStart })).cycle) ∧
  (∀ (ctx : Nat) (s : State), (s.ctx ctx).resident = true → (s.ctx ctx).stopping = false → (s.ctx ctx).slice ≠ 0 →
    ((s.ctx ctx).sliceStart + (s.ctx ctx).slice * 1250 ≤ s.cyc → Next (exec (.sliceExpiry ctx) s)
      (((s.modCtx ctx (fun c => { c with stopping := true, stopFrom := s.cyc })).slotsOfCtx ctx).foldl (fun x k => x.preempt false k)
        (s.modCtx ctx (fun c => { c with stopping := true, stopFrom := s.cyc }))).cycle) ∧
    (s.cyc < (s.ctx ctx).sliceStart + (s.ctx ctx).slice * 1250 → Next (exec (.sliceExpiry ctx) s) s.cycle)) ∧
  (∀ (ctx : Nat) (s : State), (s.ctx ctx).stopping = true →
    ((s.ctx ctx).stopFrom + (s.ctx ctx).runlim * 1250 ≤ s.cyc →
      Next (exec (.runLimitExpiry ctx) s) ((s.slotsOfCtx ctx).foldl (fun x k => x.preempt true k) s).cycle) ∧
    (s.cyc < (s.ctx ctx).stopFrom + (s.ctx ctx).runlim * 1250 → Next (exec (.runLimitExpiry ctx) s) s.cycle)) ∧
  (∀ (k : Nat) (force : Bool) (s : State),
    ((s.task k).stat = .ready → s.preempt force k = s.beginSave k (.preempt none [])) ∧
    (∀ p, (s.task k).stat = .parked p → s.preempt force k = s.beginSave k (.preempt (some p) [])) ∧
    ((s.task k).stat = .running → s.preempt false k = s) ∧
    ((s.task k).stat = .running ∨ (s.task k).stat = .committing →
      s.preempt true k = s.beginSave k (.preempt none [])) ∧
    (∀ e, (s.task k).stat = .held e → s.preempt force k = s.beginSave k (.preempt none e))) ∧
  (∀ (ctx : Nat) (s : State), (s.ctx ctx).stopping = true → s.slotsOfCtx ctx = [] →
    Next (exec (.contextSaved ctx) s)
      (((s.cores.foldl (fun x c => if c.2.installed = some ctx then x.writeImage ctx c.1 else x) s).modCtx ctx (fun c =>
        { c with resident := false, stopping := false })).interrupt 31 0 ctx []).cycle) ∧
  (∀ (v : Word) (s : State),
    (v.getLsbD 63 = false → Next (exec (.ctxresWrite v) s) ({ s with ctxres := v.toNat % 4096 } : State).cycle) ∧
    (v.getLsbD 63 = true → s.ctxresOutcome (v.toNat % 4096) ≠ 0 → Next (exec (.ctxresWrite v) s)
      ({ s with ctxres := v.toNat % 4096, ctxresStatus := s.ctxresOutcome (v.toNat % 4096) } : State).cycle) ∧
    (v.getLsbD 63 = true → s.ctxresOutcome (v.toNat % 4096) = 0 → ∃ t, Next (exec (.ctxresWrite v) s) t ∧
      t.ctxres = v.toNat % 4096 ∧ t.ctxresStatus = 0 ∧ (t.ctx (v.toNat % 4096)).resident = true ∧
      (t.ctx (v.toNat % 4096)).sliceStart = s.cyc ∧ t.tasks = s.tasks ∧ t.mem = s.mem)) ∧
  (∀ (ctx : Nat) (s : State), s.ctxresOutcome ctx =
    if (s.ctx ctx).resident then 1 else if 64 ≤ (s.ctxs.filter (fun c => c.2.resident)).length then 2
    else if ctx = 0 ∨ (s.ctx ctx).installed = true then 0 else 3) ∧
  (∀ (ctx g : Nat) (v : Word) (s : State), g = v.toNat % 256 → s.groupBad ctx g = true →
    Next (exec (.gtsyncWrite ctx v) s) (s.deviceFault ctx 0 69 0 [BitVec.ofNat 64 ((s.ctx ctx).groupAt g)]).cycle) ∧
  (∀ (ctx g a : Nat) (v : Word) (s : State), g = v.toNat % 256 → a = (s.ctx ctx).groupAt g → s.groupBad ctx g = false →
    ∃ t, Next (exec (.gtsyncWrite ctx v) s) t ∧ ((t.group ctx g).valid = true ↔ s.num a 8 / 2 ^ 63 = 1) ∧
      ((t.group ctx g).ordered = true ↔ s.num a 8 / 2 ^ 62 % 2 = 1) ∧ ((t.group ctx g).merge = true ↔ s.num a 8 / 2 ^ 61 % 2 = 1) ∧
      (t.group ctx g).members = s.num a 8 / 2 ^ 32 % 2 ^ 14 ∧ (t.group ctx g).quantum = s.num (a + 24) 4 ∧
      (t.group ctx g).horizon = s.num (a + 32) 4 ∧ (∀ j, j ≠ g → t.group ctx j = s.group ctx j) ∧ t.mem = s.mem) ∧
  (∀ (ctx core : Nat) (i : Fin 4) (v : Word) (s : State),
    (s.grpBad ctx core i.val v = true → Next (exec (.grpWrite ctx core i v) s) s.cycle) ∧
    (s.grpBad ctx core i.val v = false → ∃ t, Next (exec (.grpWrite ctx core i v) s) t ∧
      Tab.get 0 (t.cc ctx core).grp i.val = BitVec.ofNat 64 ((if v.getLsbD 63 then 2 ^ 63 else 0) + v.toNat % 256) ∧
      (∀ j, j ≠ i.val → Tab.get 0 (t.cc ctx core).grp j = Tab.get 0 (s.cc ctx core).grp j) ∧ t.tasks = s.tasks)) ∧
  (∀ (ctx g core : Nat) (s s0 : State), (s.ctx ctx).detlvl ≠ 0 → (s.group ctx g).valid = true → core ∈ s.membersOf ctx g →
    s.serving ctx g = false →
    s0 = (if s.quantumFlies ctx g core (s.endedOf ctx g core) = true ∧ .quantumEnd ctx g core ∉ s.pending
      then s.push (.quantumEnd ctx g core) else s) →
    ((quantaEnded s0 ctx g core).quantumOver ctx g = false → Next (exec (.quantumEnd ctx g core) s) (quantaEnded s0 ctx g core).cycle) ∧
    ((quantaEnded s0 ctx g core).quantumOver ctx g = true → Next (exec (.quantumEnd ctx g core) s)
      (((((quantaEnded s0 ctx g core).membersOf ctx g).map hiveOf).dedup).foldl (fun x h => x.push (.quantumService ctx g h))
        (quantaEnded s0 ctx g core)).cycle)) ∧
  (∀ (ctx g core : Nat) (s : State), s.quantumFlies ctx g core (s.endedOf ctx g core) = true → s.endQuantum ctx g core = s) ∧
  (∀ (ctx g hive : Nat) (s : State), s.quantumOver ctx g = true →
    let owed := ((s.ownersOf ctx g hive).filter (fun c => (s.cc ctx c).heldCount != 0)).flatMap (s.settleOwes ctx)
    owed ≠ [] → Next (exec (.quantumService ctx g hive) s) ((s.askHost owed).push (.quantumService ctx g hive)).cycle) ∧
  (∀ (ctx g hive : Nat) (s : State), s.quantumOver ctx g = true → (s.group ctx g).merge = false →
    (s.group ctx g).collected = [] → s.serving ctx g = false → ∃ t, Next (exec (.quantumService ctx g hive) s) t ∧
      (t.group ctx g).qno = (s.group ctx g).qno + 1 ∧ t.tasks = s.tasks ∧ t.mem = s.mem) ∧
  (∀ (q : Nat) (v : Word) (s : State),
    let m := s.writeMem (s.queueAt q + 16) (Num.bytesOf 4 (v.toNat % 2 ^ 32)) 0
    (s.qtbase.getLsbD 0 = true → (s.desc q).ready = true → Next (exec (.doorbellWrite q v) s) m.cycle) ∧
    (s.qtbase.getLsbD 0 = true → (s.desc q).ready = false → Next (exec (.doorbellWrite q v) s)
      ({ m with queues := Tab.set .idle m.queues q { s.hostQ q with waitFrom := s.cyc } } : State).cycle) ∧
    (s.qtbase.getLsbD 0 = false → Next (exec (.doorbellWrite q v) s) s.cycle)) ∧
  (∀ (q period n : Nat) (s : State), s.qtbase.getLsbD 0 = true → (s.desc q).ready = true → (s.hostQ q).waiting = false →
    period = (if (s.ctx (s.desc q).ctx).age = 0 then 1 else (s.ctx (s.desc q).ctx).age) * 1250 →
    n = (s.cyc - (s.hostQ q).waitFrom) / period →
    ∃ t, Next (exec (.queueAgeing q) s) t ∧ t.effective q = Min.min 6 (s.effective q + n) ∧
      (t.hostQ q).waitFrom = (s.hostQ q).waitFrom + n * period ∧ t.mem = s.mem) ∧
  (∀ (q region core : Nat) (s : State), takesNext s (.launch q) q 1 → region = s.packet (s.desc q) 0 / 2 ^ 8 % 32 →
    core = s.packet (s.desc q) 0 / 2 ^ 16 % 8192 → ∃ t, Next (exec (.launch q) s) t ∧ t.flights = s.flights ++ [flightOf s q region] ∧
      t.pending = s.pending ++ [.messageArrival (s.launchMessage (s.desc q) region core s.nextId)] ∧
      (region ≠ 0 → region ∈ t.regionUse) ∧ t.rrQueue = q ∧
      (noLoss s → t.num (s.queueAt q + 8) 4 = ((s.desc q).cons + 1) % 2 ^ 32)) ∧
  (∀ (q c : Nat) (s : State), s.hostEvent = some (.launch q) → s.packetCause (s.desc q) = some c →
    Next (exec (.launch q) s) (s.haltQueue q c).cycle) ∧
  (∀ (q : Nat) (s : State), takesNext s (.barrier q) q 2 →
    (s.queueFlights q = false → Next (exec (.barrier q) s)
      ((s.complete (s.packet (s.desc q) 1) (BitVec.ofNat 64 (s.packet (s.desc q) 2))).passPacket q).cycle) ∧
    (s.queueFlights q = true → Next (exec (.barrier q) s) (s.holdPacket q).cycle)) ∧
  (∀ (q : Nat) (s : State), takesNext s (.detlevel q) q 3 →
    (s.ctxFlights (s.desc q).ctx = false → s.levelOwes (s.desc q).ctx ≠ [] → Next (exec (.detlevel q) s)
      ((s.askHost (s.levelOwes (s.desc q).ctx)).holdPacket q).cycle) ∧
    (s.ctxFlights (s.desc q).ctx = false → s.levelOwes (s.desc q).ctx = [] → Next (exec (.detlevel q) s)
      ((s.setLevel (s.desc q).ctx (s.packet (s.desc q) 0 / 2 ^ 32 % 4)).actDone q).cycle) ∧
    (s.ctxFlights (s.desc q).ctx = true → Next (exec (.detlevel q) s) (s.holdPacket q).cycle)) ∧
  (∀ (ctx level : Nat) (s : State), (∀ p ∈ (s.ctx ctx).groups, p.2.collected = []) →
    ((s.setLevel ctx level).ctx ctx).detlvl = level ∧ (∀ g, ((s.setLevel ctx level).group ctx g).qno = 0) ∧ ∀ core, core < 8192 → ((s.setLevel ctx level).cc ctx core).tidSeq = 0) ∧
  (∀ (q core : Nat) (s : State), takesNext s (.debug q) q 4 → core = s.packet (s.desc q) 0 / 2 ^ 16 % 8192 →
    ∃ t m, Next (exec (.debug q) s) t ∧ t.flights = s.flights ++ [flightOf s q 32] ∧ t.pending = s.pending ++ [.messageArrival m] ∧
      hdrTag m.hdr = 9 ∧ m.dst = core ∧ m.svc = .debug (s.desc q).ctx (s.payload (s.desc q)) ∧ t.rrQueue = q) ∧
  (∀ (q : Nat) (s : State), takesNext s (.signal q) q 5 → Next (exec (.signal q) s)
    ((s.complete (s.packet (s.desc q) 1) (BitVec.ofNat 64 (s.packet (s.desc q) 2))).passPacket q).cycle)

/-- R76, R80, R82, R402, R403: a walk that ends; an invalidation at a hive and its end; the operations of the debug handler. The model's
choices: a detach drops the ring (log 78), which accesses an invalidation waits for (log 79), and a walk within its step (log 36). -/
def Obligations.TranslationAndDebugEvents : Prop :=
  (∀ (core slot va : Nat) (x : Xlate) (s s1 : State), (s.task (core * 8 + slot)).stat ≠ .free →
    s.translate core (s.task (core * 8 + slot)).ctx va (s.task (core * 8 + slot)).super .load = (x, s1) →
    (x = .migrating → Next (exec (.tlbWalkComplete core slot va) s) s1.cycle) ∧
    (∀ a, x ≠ .migrating → (s.task (core * 8 + slot)).stat = .parked (.migrating a) → a / 4096 = va / 4096 →
      Next (exec (.tlbWalkComplete core slot va) s) (s1.wake (core * 8 + slot)).cycle) ∧
    (∀ a, x ≠ .migrating → (∀ p, (s.task (core * 8 + slot)).stat ≠ .parked p) →
      (s.task (core * 8 + slot)).stat.parkedOn = some (.migrating a) → a / 4096 = va / 4096 →
      Next (exec (.tlbWalkComplete core slot va) s) (s1.push (.tlbWalkComplete core slot va)).cycle) ∧
    (x ≠ .migrating → (∀ a, (s.task (core * 8 + slot)).stat.parkedOn ≠ some (.migrating a)) →
      Next (exec (.tlbWalkComplete core slot va) s) s1.cycle)) ∧
  (∀ (hive id : Nat) (i : Inval) (s : State), s.invals.find? (fun x => x.id == id) = some i →
    Next (exec (.invalidationMessage hive id) s)
      (((((s.killHive i.kind i.va i.ctx hive).rewalk hive i.kind i.va i.ctx).modHive hive (fun h =>
        { h with inval := h.inval ++ [(id, s.killSize (hiveCores hive) (some hive) i.kind i.va i.ctx)] })).push
          (.invalidationDone hive id))).cycle) ∧
  (∀ (kind va ctx hive core : Nat) (s : State), core ∈ hiveCores hive →
    noneLeft ((s.killHive kind va ctx hive).core core) kind va ctx ∧
    (∀ e ∈ ((s.killHive kind va ctx hive).hive hive).tlb, killsEntry kind va ctx e = false) ∧
    ∀ e ∈ ((s.killHive kind va ctx hive).hive hive).victims, killsEntry kind va ctx e = false) ∧
  (∀ (hive id size : Nat) (i : Inval) (s : State), s.invals.find? (fun x => x.id == id) = some i →
    (s.hive hive).inval.find? (fun x => x.1 == id) = some (id, size) →
    (s.accessesCovered (hiveCores hive) i.kind i.va i.ctx size (0, i.tid) = true →
      Next (exec (.invalidationDone hive id) s) (s.push (.invalidationDone hive id)).cycle) ∧
    (s.accessesCovered (hiveCores hive) i.kind i.va i.ctx size (0, i.tid) = false →
      ∃ t, Next (exec (.invalidationDone hive id) s) t ∧ (∀ x ∈ (t.hive hive).inval, x.1 ≠ id) ∧
        (∀ k, (s.task k).stat ≠ .free → (s.task k).super = true → (s.task k).tid = i.tid →
          Tab.get 0 (t.task k).cc i.cc = Tab.get 0 (s.task k).cc i.cc - 1) ∧
        (∀ k, (s.task k).tid ≠ i.tid → t.task k = s.task k) ∧
        ((Tab.get [] s.invalDone id).length = 511 → ∀ x ∈ t.invals, x.id ≠ id) ∧ t.mem = s.mem)) ∧
  (∀ (ctx core c : Nat) (w : List Word) (m : Message) (s s1 : State), Served s (.debug ctx w) c m s1 →
    Next (exec (.debugAttach ctx core w) s)
      ((s1.modCtx ctx (fun x => { x with debugRing := some (w.getD 1 0).toNat, debugIndex := 0 })).termDone c m).cycle ∧
    (hdrTrm m.hdr = 0 → ∃ t, Next (exec (.debugDetach ctx core w) s) t ∧ (t.ctx ctx).debugRing = none ∧
      (∀ k, k / 8 = core → (t.task k).ctx = ctx → (t.task k).bps = []) ∧
      (∀ k, k / 8 ≠ core ∨ (s1.task k).ctx ≠ ctx → t.task k = s1.task k) ∧ t.mem = s1.mem) ∧
    (∀ k, debugFinds s1 ctx core w k →
      ((w.getD 2 0).toNat % 2 ^ 57 ∉ (s1.task k).bps → (s1.task k).bps.length < 4 →
        Next (exec (.debugSetBreakpoint ctx core w) s)
          ((s1.modTask k (fun t => { t with bps := t.bps ++ [(w.getD 2 0).toNat % 2 ^ 57] })).termDone c m).cycle) ∧
      ((w.getD 2 0).toNat % 2 ^ 57 ∉ (s1.task k).bps → 4 ≤ (s1.task k).bps.length →
        Next (exec (.debugSetBreakpoint ctx core w) s)
          ((s1.debugEvent ctx (s1.task k).tid (s1.task k).pc 3 0).termDone c m).cycle) ∧
      Next (exec (.debugClearBreakpoint ctx core w) s)
        ((s1.modTask k (fun t => { t with bps := t.bps.filter (· != (w.getD 2 0).toNat % 2 ^ 57) })).termDone c m).cycle ∧
      Next (exec (.debugStop ctx core w) s) ((s1.modTask k (fun t => { t with stopAsked := true })).termDone c m).cycle) ∧
    (∀ h, debugStopped s1 ctx core w h →
      ((w.getD 2 0).toNat + (w.getD 3 0).toNat ≤ 0x20000 → Next (exec (.debugCopy ctx core w) s)
        ((s1.writeMem (w.getD 4 0).toNat (s1.bytes (h + (w.getD 2 0).toNat) (w.getD 3 0).toNat) 0).termDone c m).cycle) ∧
      Next (exec (.debugRelease ctx core w) s)
        (((withSaved s1 h { savedOf s1 h with pending := true, debug := false }).fill core).termDone c m).cycle)) ∧
  (∀ (ctx core c : Nat) (w : List Word) (m : Message) (s s1 : State), Served s (.debug ctx w) c m s1 →
    (s1.findTask ctx core ((w.getD 1 0).toNat % 2 ^ 48) = .foreign →
      Next (exec (.debugStop ctx core w) s) ((s1.debugEvent ctx ((w.getD 1 0).toNat % 2 ^ 48) 0 1 0).termDone c m).cycle) ∧
    (s1.findTask ctx core ((w.getD 1 0).toNat % 2 ^ 48) = .absent →
      Next (exec (.debugStop ctx core w) s) ((s1.debugEvent ctx ((w.getD 1 0).toNat % 2 ^ 48) 0 2 0).termDone c m).cycle))

/-- R320, R383, R384, R385, R387, R392, R396, R400, R88: writes of the fault ring's registers, of CTXST, SVPOOL, CMOVE, RCENT and
SPERR, a save area that comes free, uncorrectable errors, and the carry of a counter. The model's choices: machine error 7 (log 28), and when a
carry that is pending becomes the overflow (log 90). -/
def Obligations.FaultRegisterEvents : Prop :=
  (∀ (hive cons : Nat) (v : Word) (s : State), cons = v.toNat / 2 ^ 8 % 2 ^ 8 → (s.hive hive).heldFaults = [] → ∃ t, Next (exec (.fringConsWrite hive v) s) t ∧ (t.hive hive).cons = cons ∧
      (t.hive hive).ovf = ((s.hive hive).ovf && !v.getLsbD 63) ∧ (t.hive hive).prod = (s.hive hive).prod ∧ t.tasks = s.tasks ∧
      t.mem = s.mem) ∧
  (∀ (hive : Nat) (v : Word) (s : State), Next (exec (.fringConsWrite hive v) s)
    ((s.modHive hive (fun h => { h with cons := v.toNat / 2 ^ 8 % 2 ^ 8, ovf := h.ovf && !v.getLsbD 63 })).raiseHeldN hive
      (((s.hive hive).prod + 256 - (s.hive hive).cons) % 256 - ((s.hive hive).prod + 256 - v.toNat / 2 ^ 8 % 2 ^ 8) % 256)).cycle) ∧
  (∀ (hive k : Nat) (rest : List HeldFault) (e : RingEntry) (s : State), (s.hive hive).takes = true →
    ((s.hive hive).heldFaults = .slot k :: rest → (s.task k).stat = .held e →
      s.raiseHeldN hive 1 = (s.modHive hive (fun h => { h with heldFaults := rest })).beginSave k (.trap e)) ∧
    (∀ h, (s.hive hive).heldFaults = .saved h :: rest → (savedOf s h).entry ≠ [] →
      s.raiseHeldN hive 1 =
        ((withSaved (s.modHive hive (fun x => { x with heldFaults := rest })) h
          { savedOf s h with state := 2, entry := [], pending := false }).writeWord h 2).postEntry hive
            (entryHandle (savedOf s h).entry h) (savedOf s h).core) ∧
    ((s.hive hive).heldFaults = .entry e :: rest →
      s.raiseHeldN hive 1 = (s.modHive hive (fun h => { h with heldFaults := rest })).postEntry hive e 0)) ∧
  (∀ (hive : Nat) (v : Word) (s : State), v.getLsbD 0 = false ∨ (s.hive hive).frbase.getLsbD 0 = true →
    Next (exec (.frbaseEnable hive v) s)
      (s.modHive hive (fun h => { h with frbase := BitVec.ofNat 64 (v.toNat / 2 ^ 13 % 2 ^ 27 * 2 ^ 13 + v.toNat % 2) })).cycle) ∧
  (∀ (hive : Nat) (v : Word) (s : State), v.getLsbD 0 = true → (s.hive hive).frbase.getLsbD 0 = false →
    Next (exec (.frbaseEnable hive v) s)
      ((s.modHive hive (fun h => { h with frbase := BitVec.ofNat 64 (v.toNat / 2 ^ 13 % 2 ^ 27 * 2 ^ 13 + v.toNat % 2) })).raiseHeldN
        hive (s.hive hive).heldFaults.length).cycle) ∧
  (∀ (ctx : Nat) (v : Word) (s : State), v.getLsbD 63 = true → (s.ctx ctx).stopped = true →
    ∃ t, Next (exec (.ctxstResume ctx v) s) t ∧ (t.ctx ctx).stopped = false ∧
      (∀ h, (savedOf s h).task.ctx = ctx → (savedOf s h).named = true ∨ (savedOf s h).state = 3 → h ∈ s.saved.map (·.1) →
        (savedOf t h).pending = true ∧ (savedOf t h).task.stat = .ready) ∧
      t.tasks = s.tasks ∧ t.mem = s.mem) ∧
  (∀ (ctx : Nat) (v : Word) (s : State), v.getLsbD 63 = false ∨ (s.ctx ctx).stopped = false →
    Next (exec (.ctxstResume ctx v) s) s.cycle) ∧
  (∀ (ctx k h : Nat) (w : SaveWhy) (p : Task) (s s1 : State), s.tasks = [(k, p)] → p.stat = .saving w → p.ctx = ctx →
    s.saveWaits k = false → s.allocArea ctx = some (h, s1) →
    Next (exec (.saveAreaFreed ctx h) s) ((s1.finishSave k h w).nextSaves ctx h).cycle) ∧
  (∀ (ctx : Nat) (v : Word) (s : State), (∀ p ∈ s.tasks, ∀ w, p.2.stat ≠ .saving w) →
    Next (exec (.svpoolWrite ctx v) s) ((s.modCtx ctx (fun c => poolSet c v)).judgePool ctx).cycle) ∧
  (∀ (ctx : Nat) (s : State),
    ((s.ctx ctx).svlow ≤ (s.ctx ctx).svFree ∨ (s.ctx ctx).lowPosted = true →
      (s.judgePool ctx).mem = s.mem ∧ (s.judgePool ctx).pending = s.pending ∧
      ((s.judgePool ctx).ctx ctx).lowPosted = ((s.ctx ctx).lowPosted && decide ((s.ctx ctx).svFree ≤ (s.ctx ctx).svlow))) ∧
    ((s.ctx ctx).svFree < (s.ctx ctx).svlow → (s.ctx ctx).lowPosted = false → ((s.judgePool ctx).ctx ctx).lowPosted = true ∧
      ∃ s' : State, s'.mem = s.mem ∧ s'.hives = s.hives ∧ s'.pending = s.pending ∧ s.judgePool ctx = s'.interrupt 32 0 ctx [])) ∧
  (∀ (ctx : Nat) (v : Word) (c : Ctx) (s : State), (∀ p ∈ s.tasks, ∀ w, p.2.stat ≠ .saving w) → c = poolSet (s.ctx ctx) v →
    (c.svlow ≤ c.svFree ∨ c.lowPosted = true) →
    ∃ t, Next (exec (.svpoolWrite ctx v) s) t ∧ (t.ctx ctx).svpool.toNat = v.toNat / 2 ^ 17 * 2 ^ 17 ∧ t.tasks = s.tasks ∧ t.mem = s.mem) ∧
  (∀ (v : Word) (s : State), Next (exec (.cmoveWrite 0 v) s) s.cycle) ∧
  (∀ (ctx src dst : Nat) (v : Word) (s : State), ctx ≠ 0 → src = v.toNat / 2 ^ 13 % 8192 → dst = v.toNat % 8192 →
    (v.getLsbD 63 = true → s.cmoveStatus ctx src dst ≠ 0 → Next (exec (.cmoveWrite ctx v) s)
      ({ s with cmove := BitVec.ofNat 64 (s.cmoveStatus ctx src dst * 2 ^ 61 + src * 2 ^ 13 + dst) } : State).cycle) ∧
    (v.getLsbD 63 = true → s.cmoveStatus ctx src dst = 0 → src ≠ dst → ∃ t, Next (exec (.cmoveWrite ctx v) s) t ∧
      t.cmove.toNat = src * 2 ^ 13 + dst ∧ t.space ctx dst = s.space ctx src ∧ (t.space ctx src).present = false ∧
      (∀ h, (savedOf s h).task.ctx = ctx → (savedOf s h).core = src → h ∈ s.saved.map (·.1) → (savedOf t h).core = dst) ∧
      t.tasks = s.tasks)) ∧
  (∀ (ctx src dst : Nat) (s : State), s.cmoveStatus ctx src dst =
    if (s.space ctx src).present = false ∨ (s.core src).installed = some ctx ∨ s.liveAt ctx src = true then 2
    else if s.liveAt ctx dst = true ∨ (∃ p ∈ s.saved, p.2.task.ctx = ctx ∧ p.2.core = dst) ∨ (s.space ctx dst).deque.ranges ≠ [] ∨
      (s.space ctx dst).deque.reserved ≠ 0 then 1
    else if (s.space ctx src).deque.reserved ≠ 0 then 3 else 0) ∧
  (∀ (ctx core lo hi : Nat) (v : Word) (s : State), lo = (s.core core).rckey.toNat / 2 ^ 16 % 2 ^ 16 →
    hi = (s.core core).rckey.toNat % 2 ^ 16 → ∃ t, Next (exec (.rcentWrite ctx core v) s) t ∧
      (t.core core).rcent.toNat = v.toNat / 2 ^ 63 * 2 ^ 63 + v.toNat / 8 % 2 ^ 54 * 8 ∧
      ((t.core core).rules.filter (fun r => r.ctx == ctx && r.lo == lo && r.hi == hi)) =
        [{ ctx := ctx, lo := lo, hi := hi, swap := v.getLsbD 63, entry := v.toNat / 8 % 2 ^ 54 * 8 }] ∧
      ((s.core core).rules.length ≤ 256 → (t.core core).rules.length ≤ 256) ∧ t.tasks = s.tasks ∧ t.mem = s.mem) ∧
  (∀ (ctx core : Nat) (v : Word) (s : State),
    (v.getLsbD 63 = true → Next (exec (.sperrClear ctx core v) s) (s.modCc ctx core (fun c => { c with sperr := 0, sperra := 0 })).cycle) ∧
    (v.getLsbD 63 = false → Next (exec (.sperrClear ctx core v) s) s.cycle)) ∧
  (∀ (source pa tag : Nat) (s s1 : State), s.inMotion pa = false → s.errorRecord source (s.stackOf pa) (pa / 64 * 64) 1 = (tag, s1) →
    ∃ t, Next (exec (.uncorrectableError (.hbmLine pa) source) s) t ∧ Tab.get 0 t.lineTags (pa / 64) = tag ∧
      (∀ l, l ≠ pa / 64 → Tab.get 0 t.lineTags l = Tab.get 0 s1.lineTags l) ∧ t.mem = s1.mem ∧ t.tasks = s.tasks) ∧
  (∀ (source core line tag : Nat) (s s1 : State),
    s.errorRecord source core (0x10000000000 + core * 0x40000 + line * 64) 1 = (tag, s1) →
    Next (exec (.uncorrectableError (.spadLine core line) source) s)
      (s1.modSpace (s.installedCtx core) core (fun sp => { sp with tags := Tab.set 0 sp.tags line tag })).cycle) ∧
  (∀ (source core slot n tag : Nat) (s s1 : State), s.errorRecord source core 0 0 = (tag, s1) → n ≠ 0 →
    (∃ t, Next (exec (.uncorrectableError (.greg core slot n) source) s) t ∧
      (t.task (core * 8 + slot)).reg n = { (s.task (core * 8 + slot)).reg n with tag := tag } ∧
      ∀ j, j ≠ n → (t.task (core * 8 + slot)).reg j = (s.task (core * 8 + slot)).reg j) ∧
    ((s.task (core * 8 + slot)).stoppable = true → Next (exec (.uncorrectableError (.control core slot) source) s)
      (s1.poisonKill (core * 8 + slot) tag).cycle) ∧
    ((s.task (core * 8 + slot)).stoppable = false → Next (exec (.uncorrectableError (.control core slot) source) s)
      (s1.machineError 7 core).cycle)) ∧
  (∀ (core n : Nat) (s : State), (Tab.get .zero (s.core core).pmc n).event ≠ 0 → (Tab.get .zero (s.core core).pmc n).count = 2 ^ 48 - 1 →
    Next (exec (.counterCarry core n) s)
      (s.modCore core (fun c => { c with pmc := Tab.set .zero c.pmc n { Tab.get .zero c.pmc n with count := 0, pending := true } })).cycle)

/-- R33 to R43, R46, R47: what triggers a retirement, its acknowledgement, the strips it moves and its commit; the map's copies; how a request
is sent, how a stack's controller decides it and what a replay indication does; a stack that is lost. The model's choices: erec 0 when no
record is left (log 86), the cursor after the last strip (log 123), a trigger at the smallest configuration (log 85), the numbers of the machine
errors and the mailbox's records (log 28), a request that is sent before it arrives (log 122), and the fault of an acknowledgement that breaks R66
or R405 (R17, log 132). -/
def Obligations.RetirementEvents : Prop :=
  (∀ (st n tag : Nat) (s s1 : State), canRetire s st → s.errorRecord 5 st 0 0 = (tag, s1) →
    ∀ i, (i = .mgmtRetirementTrigger st ∨
        i = .errorWindowExpiry st n ∧ (s.stack st).corrected ≤ (s.stack st).thr ∧ (s.stack st).thr < (s.stack st).corrected + n ∨
        i = .mgmtSetThreshold st n ∧ (s.stack st).corrected ≤ (s.stack st).thr ∧ n < (s.stack st).corrected) →
    ∃ t, Next (exec i s) t ∧ (i = .errorWindowExpiry st n → (t.stack st).corrected = 0) ∧
      (i = .mgmtSetThreshold st n → (t.stack st).thr = n) ∧
      t.ret.rstate = 1 ∧ t.ret.stack = st ∧ t.ret.erec = (if tag = 0xFFF then 0 else tag) ∧ t.mcapNext = capacity (s.sset.length - 1) ∧
      t.sset = s.sset ∧ t.tasks = s.tasks) ∧
  (∀ (st n : Nat) (s : State), (s.stack st).corrected + n ≤ (s.stack st).thr ∨ (s.stack st).thr < (s.stack st).corrected →
    Next (exec (.errorWindowExpiry st n) s)
      ((s.modStack st (fun x => { x with corrected := x.corrected + n })).modStack st (fun x => { x with corrected := 0 })).cycle) ∧
  (∀ (st : Nat) (s : State), st ∈ s.sset → s.ret.rstate ≠ 0 →
    (8 < s.sset.length - 1 → st ≠ s.ret.stack → ∃ t, Next (exec (.mgmtRetirementTrigger st) s) t ∧
      t.ret = { s.ret with pend := s.ret.pend ||| 2 ^ st
                           lostPend := if (s.stack st).lost.isSome then s.ret.lostPend ||| 2 ^ st else s.ret.lostPend } ∧ t.mem = s.mem) ∧
    (s.sset.length - 1 ≤ 8 → (s.stack st).lost = none → ∃ t, Next (exec (.mgmtRetirementTrigger st) s) t ∧
      t.ret = { s.ret with refused := true } ∧ t.mem = s.mem)) ∧
  (∀ (st : Nat) (s : State), st ∈ s.sset → s.ret.rstate = 0 → s.sset.length ≤ 8 → (s.stack st).lost.isSome = true →
    Next (exec (.mgmtRetirementTrigger st) s) (({ s with ret := { s.ret with refused := true } } : State).machineError 3 st).cycle) ∧
  (∀ s : State, s.ret.rstate = 1 →
    Next (exec .mgmtWithdrawTrigger s)
      ((({ s with ret := { s.ret with rstate := 0 } } : State).interrupt 34 0 0 []).mail [34, BitVec.ofNat 64 s.ret.stack]).cycle ∧
    (s.ackBreaks = true → Next (exec .mretireAck s) (s.deviceFault 0 0 69 0 [0x104]).cycle) ∧
    (s.ackBreaks = false → Next (exec .mretireAck s)
      ({ s with ret := { s.ret with rstate := 2, active := true, frame := s.mcapNext - 1, strip := 511 }
                mapVersion := s.mapVersion + 1 } : State).cycle)) ∧
  (∀ s : State, s.ackBreaks = true ↔ s.ret.rstate = 1 ∧ ((∃ p ∈ s.ctxs, ∃ f ∈ p.2.frames, s.mcapNext ≤ f) ∨
    s.hostwin.getLsbD 63 = true ∧ s.mcapNext < s.hostwin.toNat % 2 ^ 10 + s.hostwin.toNat / 2 ^ 16 % 2 ^ 10)) ∧
  (∀ s : State, s.ret.rstate ≠ 1 → Next (exec .mgmtWithdrawTrigger s) s.cycle ∧ Next (exec .mretireAck s) s.cycle) ∧
  (∀ s : State, s.ret.rstate = 2 → noLoss s →
    Next (exec .stripMoveComplete s)
      ({ s with
        mapVersion := s.mapVersion + 1
        ret := if 0 < s.ret.strip then { s.ret with strip := s.ret.strip - 1 }
               else if 0 < s.ret.frame then { s.ret with frame := s.ret.frame - 1, strip := 511 }
               else { s.ret with rstate := 3 } } : State).cycle) ∧
  (∀ (n : Nat) (s : State), ∃ t, Next (exec (.mapBroadcastReceived n) s) t ∧
    Tab.get .none t.mapCopies n = { version := s.mapVersion, phase := s.ret.phase, cursor := s.cursor } ∧
    (∀ j, j ≠ n → Tab.get .none t.mapCopies j = Tab.get .none s.mapCopies j) ∧
    (n < 513 → t.pending = s.pending) ∧ t.ret = s.ret ∧ t.mem = s.mem) ∧
  (∀ s : State, s.ret.rstate = 3 → s.mapTaken = true → s.ret.pend = 0 → ∃ t, Next (exec .retirementCommit s) t ∧
    t.sset = s.sset.filter (· != s.ret.stack) ∧ t.ret.rstate = 0 ∧ t.ret.active = false ∧
    t.ret.phase = (s.ret.phase + 1) % 2 ^ 16 ∧ t.mcap = capacity t.sset.length ∧ t.mcapNext = 0 ∧
    (t.stack s.ret.stack).replaying = true ∧ t.tasks = s.tasks) ∧
  (∀ s : State, s.ret.rstate = 3 → s.mapTaken = false → Next (exec .retirementCommit s) s.cycle) ∧
  (∀ (st : Nat) (s : State), (s.stack st).replaying = true → (∀ i, i < 529 → (s.mapCopy i).phase = s.ret.phase) →
    Next (exec (.retiredStackPowerDown st) s) (s.modStack st (fun x => { x with replaying := false, powered := false })).cycle) ∧
  (∀ (st tag : Nat) (s s1 : State), st ∈ s.sset → (s.stack st).lost = none → s.errorRecord 6 st 0 0 = (tag, s1) →
    let s2 := (s1.modStack st (fun x => { x with lost := some tag })).machineError 2 st
    let left := if s.ret.rstate = 0 then 8 < s.sset.length else s.ret.stack = st ∨ 9 < s.sset.length
    (left → Next (exec (.stackLost st) s) s2.cycle) ∧
    (¬ left → Next (exec (.stackLost st) s) (({ s2 with ret := { s2.ret with refused := true } } : State).machineError 3 st).cycle)) ∧
  (∀ (r : HbmReq) (s : State), (∀ x ∈ s.outstanding, x.id ≠ r.id) →
    ((∀ x ∈ s.outstanding, ¬ (x.requester = r.requester ∧ x.line = r.line)) →
      Next (exec (.hbmRequestArrival r) s) (sentRequest s (s.restamp r)).cycle) ∧
    (∀ x rest, s.outstanding = x :: rest → x.requester = r.requester → x.line = r.line →
      Next (exec (.hbmRequestArrival r) s) (sentRequest s { r with phase := x.phase, mapBit := x.mapBit, stack := x.stack }).cycle)) ∧
  (∀ (r : HbmReq) (s : State), standsOut s r → (s.stack r.stack).lost.isSome = true →
    Next (exec (.hbmRequestArrival r) s) (withoutRequest s r).cycle) ∧
  (∀ (r : HbmReq) (s : State), standsOut s r → (s.stack r.stack).lost = none → (s.stack r.stack).replaying = true →
    Next (exec (.hbmRequestArrival r) s) (s.push (.replayIndication r)).cycle) ∧
  (∀ (r : HbmReq) (s : State), standsOut s r → (s.stack r.stack).lost = none → (s.stack r.stack).replaying = false →
    ((s.mapCopy (513 + r.stack)).phase ≠ r.phase → Next (exec (.hbmRequestArrival r) s) (s.push (.replayIndication r)).cycle) ∧
    ((s.mapCopy (513 + r.stack)).phase = r.phase → (s.mapCopy (513 + r.stack)).cursor = some (r.frame, r.strip) →
      ((s.stack r.stack).held.length < 256 → Next (exec (.hbmRequestArrival r) s)
        (s.modStack r.stack (fun x => { x with held := x.held ++ [r] })).cycle) ∧
      (256 ≤ (s.stack r.stack).held.length → Next (exec (.hbmRequestArrival r) s)
        (s.push (.replayIndication r)).cycle)) ∧
    ((s.mapCopy (513 + r.stack)).phase = r.phase → (s.mapCopy (513 + r.stack)).cursor ≠ some (r.frame, r.strip) →
      (r.mapBit = false → aboveCursor (s.mapCopy (513 + r.stack)).cursor r.frame r.strip = true →
        Next (exec (.hbmRequestArrival r) s) (s.push (.replayIndication r)).cycle) ∧
      (r.mapBit = true ∨ aboveCursor (s.mapCopy (513 + r.stack)).cursor r.frame r.strip = false →
        ((s.stack r.stack).corrected + Config.correctedErrors s.tick ≤ (s.stack r.stack).thr ∨
          (s.stack r.stack).thr < (s.stack r.stack).corrected →
          Next (exec (.hbmRequestArrival r) s) ((withoutRequest s r).modStack r.stack (fun x =>
            { x with corrected := x.corrected + Config.correctedErrors s.tick })).cycle) ∧
        ((s.stack r.stack).corrected ≤ (s.stack r.stack).thr →
          (s.stack r.stack).thr < (s.stack r.stack).corrected + Config.correctedErrors s.tick →
          Next (exec (.hbmRequestArrival r) s) (((withoutRequest s r).modStack r.stack (fun x =>
            { x with corrected := x.corrected + Config.correctedErrors s.tick })).trigger r.stack).cycle)))) ∧
  (∀ (r : HbmReq) (s : State), s.outstanding = [r] →
    ((s.mapCopy r.requester).stamp r = (r.phase, r.mapBit) → Next (exec (.replayIndication r) s) (s.push (.replayIndication r)).cycle) ∧
    ((s.mapCopy r.requester).stamp r ≠ (r.phase, r.mapBit) → ∃ t, Next (exec (.replayIndication r) s) t ∧
      t.outstanding = [s.restamp r] ∧ .hbmRequestArrival (s.restamp r) ∈ t.pending ∧ t.mem = s.mem))

/-- R46, R47, R405 to R417: start-up by its stages, resets, the management port's settings, links that fail, accesses of the
host and of peers with their replies, the host's acknowledgement of a back-invalidation, with which the commits that wait for it go on (R406),
the slew budget and its hold. The model's choices: machine errors 4, 5 and 6 (log 28), what a reset keeps (log 88), that HBM5 reads as unlisted
after one (logs 2, 87), and how long a far message flies (log 133). -/
def Obligations.PlatformEvents : Prop :=
  (∀ s : State, s.stage = 0 → s.hostTrained = false → Next (exec .powerGood s) ({ s with stage := 1 } : State).cycle) ∧
  (∀ s : State, s.stage = 1 → s.sset = [] → Next (exec .hostLinkTrained s) ({ s with hostTrained := true, stage := 2 } : State).cycle) ∧
  (∀ s : State, s.stage = 3 → s.stacksDecided = true → 8 ≤ s.sset.length → s.columnsBad = false →
    Next (exec .startTestPassed s) ({ s with tested := true, stage := 4 } : State).cycle) ∧
  (∀ (st : Nat) (s : State), st < 16 → (s.stack st).trained = false → (s.stack st).failed = false → (s.stack st).marked = false →
    s.stage = 3 → s.tested = false → ∃ t, Next (exec (.stackTrained st) s) t ∧ t.sset = insertStack st s.sset ∧ (t.stack st).trained = true ∧
      t.stage = 3 ∧ t.ret.phase = (s.ret.phase + 1) % 2 ^ 16 ∧ t.tasks = s.tasks ∧
      ((s.modStack st (fun x => { x with trained := true })).stacksDecided = true → s.sset.length + 1 < 8 →
        (4, s.sset.length + 1) ∈ t.machineErrors) ∧
      ∀ a, 2 ^ 40 ≤ a → Tab.get Memory.unlisted t.mem a = Tab.get Memory.unlisted s.mem a) ∧
  (∀ (st : Nat) (s : State), (s.stack st).marked = true → Next (exec (.stackTrained st) s) s.cycle) ∧
  (∀ (st : Nat) (s s1 : State), st < 16 → (s.stack st).trained = false → (s.stack st).failed = false → s.stage = 3 → s.sset.length < 8 →
    s1 = s.modStack st (fun x => { x with failed := true }) →
    (s1.stacksDecided = true → s.stacksDecided = false →
      Next (exec (.stackTrainingFailed st) s) (s1.machineError 4 s.sset.length).cycle) ∧
    (s1.stacksDecided = false ∨ s.stacksDecided = true → Next (exec (.stackTrainingFailed st) s) s1.cycle)) ∧
  (∀ s : State, ∃ t, Next (exec .coldReset s) t ∧ t.tasks = [] ∧ t.cores = [] ∧ t.ctxs = [] ∧ t.spaces = [] ∧ t.stage = 0 ∧ t.sset = [] ∧
    t.hives = [] ∧ t.failedCols = s.failedCols ∧ (∀ st, st < 16 → (t.stack st).marked = (s.stack st).marked ∧ (t.stack st).thr = (s.stack st).thr) ∧
    (s.columnsBad = true → (5, 0) ∈ t.machineErrors) ∧
    (∀ a, a < 2 ^ 40 → Tab.get Memory.unlisted t.mem a = Memory.unlisted)) ∧
  (∀ (failed : List Nat) (s : State), ∃ t, Next (exec (.maintenanceReset failed) s) t ∧ t.tasks = [] ∧ t.stage = 0 ∧ t.sset = [] ∧
    t.failedCols = columnMap failed ∧ (t.columnsBad = true → (5, 0) ∈ t.machineErrors)) ∧
  (∀ (st n id : Nat) (b : Bool) (s : State),
    (st < 16 → s.stage = 0 ∨ s.stage = 4 →
      Next (exec (.mgmtMarkFailed st b) s) (s.modStack st (fun x => { x with marked := b })).cycle) ∧
    (st < 16 → s.stage = 3 → s.sset.length < 8 → (s.modStack st (fun x => { x with marked := b })).stacksDecided = true →
      s.stacksDecided = false → Next (exec (.mgmtMarkFailed st b) s)
        ((s.modStack st (fun x => { x with marked := b })).machineError 4 s.sset.length).cycle) ∧
    (st < 16 → s.stage = 3 → (s.modStack st (fun x => { x with marked := b })).stacksDecided = false →
      Next (exec (.mgmtMarkFailed st b) s) (s.modStack st (fun x => { x with marked := b })).cycle) ∧
    ((s.stack st).thr < (s.stack st).corrected ∨ (s.stack st).corrected ≤ n →
      Next (exec (.mgmtSetThreshold st n) s) (s.modStack st (fun x => { x with thr := n })).cycle) ∧
    (id % 2 ^ 15 ≠ 0x7FFF → Next (exec (.mgmtSetDevid id) s) ({ s with devid := id % 2 ^ 15 } : State).cycle)) ∧
  (∀ (l : Nat) (s : State), 12 ≤ l → Next (exec (.linkFlitRetry l) s) s.cycle ∧ Next (exec (.laneFailure l) s) s.cycle ∧
    Next (exec (.linkFailure l) s) s.cycle) ∧
  (∀ (l : Nat) (s : State), l < 12 →
    (∃ t, Next (exec (.linkFlitRetry l) s) t ∧ t.tasks = s.tasks ∧ t.mem = s.mem ∧
      (Tab.get .fresh t.links l).retries = (Tab.get .fresh s.links l).retries + 1) ∧
    (∃ t, Next (exec (.laneFailure l) s) t ∧ t.tasks = s.tasks ∧ t.mem = s.mem ∧
      (Tab.get .fresh t.links l).laneFailures = (Tab.get .fresh s.links l).laneFailures + 1) ∧
    ∃ t, Next (exec (.linkFailure l) s) t ∧ (Tab.get .fresh t.links l).failed = true ∧ (∀ p ∈ t.routes, l ∉ p.2) ∧
      ((∃ p ∈ s.routes, p.2 = [l] ∧ ∃ q ∈ s.farOut, q.1 = p.1 ∧ s.cyc < q.2) → (6, l) ∈ t.machineErrors) ∧
      ((∀ p ∈ s.routes, l ∈ p.2 → (∀ x ∈ p.2, x = l) → ∀ q ∈ s.farOut, q.1 = p.1 → q.2 ≤ s.cyc) → t.machineErrors = s.machineErrors) ∧
      t.tasks = s.tasks) ∧
  (∀ (off len : Nat) (bs : List Byte) (s : State), s.hostwin.getLsbD 63 = true →
    off + bs.length ≤ s.hostwin.toNat / 2 ^ 16 % 2 ^ 10 * 2 ^ 30 →
    s.hostwin.toNat % 2 ^ 10 * 2 ^ 30 + off + bs.length ≤ s.mcap * 2 ^ 30 →
    Next (exec (.hostCxlMemAccess off (some bs) len) s) (s.writeSeen (s.hostwin.toNat % 2 ^ 10 * 2 ^ 30 + off) bs 0 .bulk).cycle) ∧
  (∀ (off len : Nat) (bs : List Byte) (s : State), s.hostwin.getLsbD 63 = false →
    Next (exec (.hostCxlMemAccess off (some bs) len) s) s.cycle) ∧
  (∀ (off len pa : Nat) (s : State), pa = s.hostwin.toNat % 2 ^ 10 * 2 ^ 30 + off →
    (s.hostwin.getLsbD 63 = true → off + len ≤ s.hostwin.toNat / 2 ^ 16 % 2 ^ 10 * 2 ^ 30 → pa + len ≤ s.mcap * 2 ^ 30 →
      Next (exec (.hostCxlMemAccess off none len) s) (replied s ⟨true, off, s.bytes pa len, s.tagAt pa len, false⟩).cycle) ∧
    (s.hostwin.getLsbD 63 = false ∨ s.hostwin.toNat / 2 ^ 16 % 2 ^ 10 * 2 ^ 30 < off + len ∨ s.mcap * 2 ^ 30 < pa + len →
      Next (exec (.hostCxlMemAccess off none len) s) (replied s ⟨true, off, [], 0, true⟩).cycle)) ∧
  (∀ (off len pa : Nat) (s : State), pa = s.pexp.toNat % 2 ^ 8 * 2 ^ 32 + off →
    (s.pexp.getLsbD 63 = true → off + len ≤ 2 ^ 32 → pa + len ≤ s.mcap * 2 ^ 30 →
      Next (exec (.peerAccess off none len) s) (replied s ⟨false, off, s.bytes pa len, s.tagAt pa len, false⟩).cycle) ∧
    (s.pexp.getLsbD 63 = false ∨ 2 ^ 32 < off + len ∨ s.mcap * 2 ^ 30 < pa + len →
      Next (exec (.peerAccess off none len) s) (replied s ⟨false, off, [], 0, true⟩).cycle)) ∧
  (∀ (line : Nat) (s : State), line ∉ s.backInvals → Next (exec (.backInvalidationAck line) s) s.cycle) ∧
  (∀ (line : Nat) (s : State), line ∈ s.backInvals → (∀ p ∈ s.tasks, (s.task p.1).stat ≠ .committing) →
    Next (exec (.backInvalidationAck line) s)
      ({ s with backInvals := s.backInvals.erase line, invalAcked := s.invalAcked ++ [line] } : State).cycle) ∧
  (∀ (line k : Nat) (s : State), line ∈ s.backInvals → s.tasks.map (·.1) = [k] → (s.task k).stat = .committing →
    let s1 : State := { s with backInvals := s.backInvals.erase line, invalAcked := s.invalAcked ++ [line] }
    (s1.commitOwes (s1.task k) = [] →
      Next (exec (.backInvalidationAck line) s) ((s1.modTask k (fun t => { t with stat := .running })).commitTask k).cycle) ∧
    (s1.commitOwes (s1.task k) ≠ [] →
      Next (exec (.backInvalidationAck line) s) (s1.askHost (s1.commitOwes (s1.task k))).cycle)) ∧
  (∀ (off len : Nat) (bs : List Byte) (s : State), s.pexp.getLsbD 63 = true → off + bs.length ≤ 2 ^ 32 →
    s.pexp.toNat % 2 ^ 8 * 2 ^ 32 + off + bs.length ≤ s.mcap * 2 ^ 30 →
    Next (exec (.peerAccess off (some bs) len) s) (s.writeSeen (s.pexp.toNat % 2 ^ 8 * 2 ^ 32 + off) bs 0 .bulk).cycle) ∧
  (∀ (off len tag : Nat) (bs : List Byte) (s s1 : State), s.pexp.getLsbD 63 = false →
    s.errorRecord 4 0 (s.pexp.toNat % 2 ^ 8 * 2 ^ 32 + off) 0 = (tag, s1) →
    Next (exec (.peerAccess off (some bs) len) s) s1.cycle) ∧
  (∀ s : State, ∃ t, Next (exec .slewTick s) t ∧ t.slewBudget ≤ s.slewBudget + 4 ∧ s.slewBudget ≤ t.slewBudget + 4 ∧
    (s.slewHold = true → t.slewBudget ≤ s.slewBudget) ∧ t.slewHold = s.slewHold ∧ t.slewLeft = s.slewLeft - 1 ∧ t.tasks = s.tasks ∧ t.mem = s.mem) ∧
  (∀ (v : Word) (s : State),
    (v.toNat / 2 ^ 32 % 2 ^ 15 = 0x7FFF → Next (exec (.staggerWrite v) s)
      (s.push (.staggerArrival (v.toNat / 2 ^ 8 % 2 ^ 12) (if v.toNat % 2 ^ 8 = 0 then 1 else v.toNat % 2 ^ 8))).cycle) ∧
    (v.toNat / 2 ^ 32 % 2 ^ 15 ≠ 0x7FFF → v.toNat / 2 ^ 32 % 2 ^ 15 ≠ s.devid → Next (exec (.staggerWrite v) s) s.cycle)) ∧
  (∀ (k w : Nat) (s : State), w ≠ 0 → Next (exec (.staggerArrival k w) s)
    ({ s with slewHold := k != 0, slewLeft := k * w } : State).cycle) ∧
  (∀ s : State, s.slewLeft = 0 → Next (exec .staggerHoldEnd s) ({ s with slewHold := false } : State).cycle)

/-- R140 to R149: words that the spec writes out decode to the instructions they stand for; the all-zero word, a word with a nonzero
zero field and one with a forbidden operand are refused, each with its cause. -/
def Obligations.SomeWordsDecode : Prop :=
  (∀ p ∈ someWords, decode p.1 = .ok p.2) ∧ decode 0 = .error 1 ∧ decode 0x010860B160100001 = .error 4 ∧
  decode 0x0108F0B160100000 = .ok (.mul { d := .g 30, a := .g 11, b := .g 11, t := .i64 }) ∧
  decode 0x010A60B160100000 = .error 8

/-- R140 to R149: a well-formed instruction's word is 64 bits wide and decodes to that instruction. -/
def Obligations.DecodeOfEncode : Prop :=
  ∀ (i : Instr) (w : Nat), wellFormed i = true → encode i = some w → w < 2 ^ 64 ∧ decode w = .ok i

/-- R140 to R149: what a 64-bit word decodes to is well formed, and the word is its encoding: no two words stand for one instruction, and
no bit of a word is dropped. -/
def Obligations.EncodeOfDecode : Prop :=
  ∀ (i : Instr) (w : Nat), w < 2 ^ 64 → decode w = .ok i → wellFormed i = true ∧ encode i = some w

/-- R114, R140, R146, R159, R173: on a core's turn its running task's next word is read at the translated program counter (from memory, or
where an instruction cache holds its line, the held word or memory's, which of them being a free value) and the step is
`exec` of the instruction that it decodes to; a word that decodes to none raises the illegal-instruction fault, code 1, with the cause
mask and the word. On an event's turn the step is `exec` of the event; of the messages on their way the first of a source and destination
arrives first (R294), those that a core's own commits sent it before all others at it (R420). Which turn it is follows `sched` (the model's order, log 5). -/
def Obligations.StepRunsTheDecodedWord : Prop :=
  (∀ (c k pa leaf w : Nat) (s s1 s2 s3 s4 : State), s.turn = (some (.word c), s1) → s2 = ({ s1 with focus := c } : State).select c →
    s2.current = some k → (s2.task k).wait = .none → ((s2.task k).super = true → (s2.hive (hiveOf c)).halted = false) →
    s2.released c = true → (s2.task k).breaks (s2.ctx (s2.task k).ctx).debugRing.isSome = false →
    s2.translate c (s2.task k).ctx (s2.task k).pc (s2.task k).super .fetch = (.ok pa leaf, s3) → s2.paOk pa = true →
    s3.fetchWord c pa = (w, s4) →
    (∀ i, decode w = .ok i → step s = exec i ({ s4 with ir := w } : State)) ∧
    (∀ cause, decode w = .error cause → Next (step s)
      ((({ s4 with ir := w } : State).notePassed k false).takeTrap k 1 cause 0 [BitVec.ofNat 64 w]).cycle)) ∧
  (∀ (c pa : Nat) (s : State), heldLine (s.core c).icache pa = none → heldLine (s.hive (hiveOf c)).icache pa = none →
    (s.fetchWord c pa).1 = Num.ofBytes (s.physRead pa 8)) ∧
  (∀ (c pa : Nat) (x : CacheLine) (s : State),
    heldLine (s.core c).icache pa = some x ∨ heldLine (s.core c).icache pa = none ∧ heldLine (s.hive (hiveOf c)).icache pa = some x →
    (s.fetchWord c pa).1 = if Config.fetchesHeld s.tick then x.word pa else Num.ofBytes (s.physRead pa 8)) ∧
  (∀ (e : Event) (s s1 : State), s.turn = (some (.event e), s1) → step s = exec (eventInstr e) s1) ∧
  (∀ (n : Nat) (e : Event) (s s1 : State), s.turn = (some (.pending n), s1) → s1.pending[s1.pendingPlace n]? = some e →
    step s = exec (eventInstr e) ({ s1 with pending := s1.pending.eraseIdx (s1.pendingPlace n) } : State)) ∧
  (∀ (n : Nat) (e : Event) (s : State), s.pending[n]? = some e → s.wayOf e = none → s.pendingPlace n = n) ∧
  (∀ (n src dst : Nat) (e : Event) (s : State), s.pending[n]? = some e → s.wayOf e = some (src, dst) →
    ∃ x : Event, s.pending[s.pendingPlace n]? = some x ∧ (s.wayOf x = some (src, dst) ∨ s.wayOf x = some (dst, dst)) ∧
      (s.wayOf x ≠ some (dst, dst) → ∀ y ∈ s.pending, s.wayOf y ≠ some (dst, dst)) ∧
      ∀ (j : Nat) (y : Event), j < s.pendingPlace n → s.pending[j]? = some y → s.wayOf y ≠ s.wayOf x) ∧
  (∀ (m : Message) (ctx group core : Nat) (hdr : Word) (s : State), s.wayOf (.messageArrival m) = some (m.src, m.dst) ∧
    s.wayOf (.gsyncArrival ctx group core hdr) = some (core, (s.ctx ctx).groupOwner (group % 256))) ∧
  (∀ (x : Turn) (l : List Turn) (s : State), s.sched = x :: l → s.turn = (some x, { s with sched := l }))

/-- R18, R20, R12: main memory and its tags stay in their one canonical form through every step, and every step of such a state
answers a next state. -/
def Obligations.StepKeepsMemoryCanonical : Prop :=
  ∀ s : State, State.inv s = true → ∃ t, Next (step s) t ∧ State.inv t = true

/-- R380, R382, R384, R385, R392: TAKING A SUPERVISOR TRAP OR A CONTEXT FAULT. With room in the hive's ring and an area in the pool of its
context, the faulting task is saved in state 2 with its program counter and g registers, its slot is free, the entry stands in the ring
with the area's handle, and the message that starts the kernel's task on tag 10 of the hive's core 0 is sent; no other slot changes. With
no area it keeps its slot. With the ring full, or not in use, it is held in its slot with its fault, and `over` is set only for a ring in
use; when its context's slice has expired it is saved with its fault instead (R368). A context fault also stops the context and keeps the code of
the first. That the kernel's message has priority 6 is the model's choice (log 13). -/
def Obligations.TakingATrap : Prop :=
  (∀ (s t : State) (k code cause tag pc i h : Nat) (items ent : List Word), code < 64 → (s.hive (hiveOf (k / 8))).takes = true →
    s.hbm.all (fun p => p.2.lost.isNone) = true → PutsDown s k → draws s (s.task k).ctx i →
    h = (s.ctx (s.task k).ctx).svBase + i * 0x20000 → ent = ringWords s k code cause tag pc h items → t = s.takeTrapAt k code cause tag items pc →
    (savedOf t h).state = 2 ∧ (savedOf t h).core = k / 8 ∧ (savedOf t h).task.pc = (s.task k).pc ∧
    (savedOf t h).task.g = (s.task k).g ∧ (savedOf t h).task.tid = (s.task k).tid ∧ (savedOf t h).task.commit = (s.task k).commit ∧
    (t.task k).stat = .free ∧ (∀ j, j ≠ k → t.task j = s.task j) ∧
    (∀ j, j < 8 → t.word ((s.hive (hiveOf (k / 8))).ringAt (s.hive (hiveOf (k / 8))).prod + 8 * j) = ent.getD j 0) ∧
    (t.hive (hiveOf (k / 8))).prod = ((s.hive (hiveOf (k / 8))).prod + 1) % 256 ∧
    .messageArrival { sysMessage 0 10 0 (k / 8) (hiveCore (hiveOf (k / 8)) 0) 6 ent with svc := .ring } ∈ t.pending) ∧
  (∀ (s t : State) (k code cause tag pc : Nat) (items : List Word), code < 64 → (s.hive (hiveOf (k / 8))).takes = true →
    (s.ctx (s.task k).ctx).svPick = none →
    t = s.takeTrapAt k code cause tag items pc →
    (∃ w, (t.task k).stat = .saving w) ∧ (t.task k).pc = (s.task k).pc ∧ (t.task k).g = (s.task k).g ∧ t.mem = s.mem ∧
    t.saved = s.saved ∧ t.hives = s.hives) ∧
  (∀ (s t : State) (k code cause tag pc : Nat) (items ent : List Word), code < 64 → (s.hive (hiveOf (k / 8))).takes = false →
    s.expiring k = false → ent = ringWords s k code cause tag pc 0 items → t = s.takeTrapAt k code cause tag items pc →
    (t.task k) = { s.task k with stat := .held ent, since := s.tick } ∧ t.mem = s.mem ∧ t.saved = s.saved ∧ t.pending = s.pending ∧
    (t.hive (hiveOf (k / 8))).heldFaults = (s.hive (hiveOf (k / 8))).heldFaults ++ [.slot k] ∧
    (t.hive (hiveOf (k / 8))).prod = (s.hive (hiveOf (k / 8))).prod ∧
    (t.hive (hiveOf (k / 8))).ovf = ((s.hive (hiveOf (k / 8))).ovf || (s.hive (hiveOf (k / 8))).frbase.getLsbD 0)) ∧
  (∀ (s t : State) (k code cause tag pc : Nat) (items ent : List Word), code < 64 → (s.hive (hiveOf (k / 8))).takes = false →
    s.expiring k = true → ent = ringWords s k code cause tag pc 0 items → t = s.takeTrapAt k code cause tag items pc →
    t = (((((s.modTask k (fun x => { x with stat := .held ent, since := s.tick })).hold (hiveOf (k / 8)) (.slot k)).unrun k).select
      (k / 8)).beginSave k (.preempt none ent))) ∧
  (∀ (s t : State) (p : Task) (k code cause tag pc i h : Nat) (items : List Word), 64 ≤ code →
    (s.hive (hiveOf (k / 8))).takes = true → s.tasks = [(k, p)] → PutsDown s k → draws s p.ctx i →
    h = (s.ctx p.ctx).svBase + i * 0x20000 → t = s.takeTrapAt k code cause tag items pc →
    (t.ctx p.ctx).stopped = true ∧ (t.ctx p.ctx).code = (if (s.ctx p.ctx).stopped then (s.ctx p.ctx).code else code) ∧
    (savedOf t h).state = 2 ∧ (savedOf t h).task.pc = p.pc ∧ (t.task k).stat = .free)

/-- R12, R25 to R31, R33, R46, R47, R63, R66, R71, R94, R318, R349, R360, R364, R367, R369, R372, R383 to R386, R392, R394, R396, R401, R405,
R408, R412, R417: what a cold reset leaves, where the spec gives a value; the memory is in its canonical form. -/
def Obligations.ResetState : Prop :=
  State.inv State.reset = true ∧ State.reset.stage = 0 ∧ State.reset.sset = [] ∧ State.reset.mcap = 0 ∧ State.reset.mcapNext = 0 ∧
  State.reset.ret = { phase := 0, active := false, frame := 0, strip := 0, erec := 0, share := 20, stack := 0, refused := false
                      rstate := 0, pend := 0, lostPend := 0 } ∧
  State.reset.qtbase = 0 ∧ State.reset.ctxres = 0 ∧ State.reset.erbase = 0 ∧ State.reset.erNext = 1 ∧ State.reset.cmove = 0 ∧
  State.reset.hostwin = 0 ∧ State.reset.pexp = 0 ∧ State.reset.slewHold = false ∧ State.reset.slewBudget = 0 ∧ State.reset.cyc = 0 ∧
  State.reset.mailbox = [] ∧ State.reset.saved = [] ∧
  (∀ st, (State.reset.stack st).thr = 4096 ∧ (State.reset.stack st).trained = false) ∧
  (∀ c, (State.reset.ctx c).age = 100 ∧ (State.reset.ctx c).runlim = 100 ∧ (State.reset.ctx c).slice = 2000 ∧
    (State.reset.ctx c).detlvl = 0 ∧ (State.reset.ctx c).stopped = false ∧ (State.reset.ctx c).ptroot = 0 ∧
    (State.reset.ctx c).vrbase = 0 ∧ (State.reset.ctx c).vhctl = 0 ∧ (State.reset.ctx c).rtab = 0 ∧ (State.reset.ctx c).nhbase = 0 ∧
    (State.reset.ctx c).gtbase = 0 ∧ (State.reset.ctx c).svpool = 0 ∧ (State.reset.ctx c).csvbase = 0 ∧ (State.reset.ctx c).trctl = 0 ∧
    (State.reset.ctx c).resident = false) ∧
  (∀ h, (State.reset.hive h).frbase = 0 ∧ (State.reset.hive h).ovf = false ∧ (State.reset.hive h).cons = 0 ∧
    (State.reset.hive h).prod = 0 ∧ (State.reset.hive h).heldFaults = [] ∧ (State.reset.hive h).tlb = []) ∧
  (∀ c core, (State.reset.cc c core).tags = [] ∧ (State.reset.cc c core).spqBase = 0 ∧ (State.reset.cc c core).sperr = 0 ∧
    (State.reset.cc c core).sperra = 0 ∧ (State.reset.cc c core).dlog = 0 ∧ (State.reset.space c core).written = [] ∧
    ∀ g, Tab.get .zero (State.reset.space c core).gates g = .zero) ∧
  (∀ k, (State.reset.task k).stat = .free) ∧
  (∀ core, (State.reset.core core).running = none ∧ (State.reset.core core).keys = [] ∧ (State.reset.core core).tlbD = [] ∧
    (State.reset.core core).tlbI = [])

end
end

