-- ==== Sys2Proof/Laws/Tab.lean ====
section
/-! SUPPORT. Laws of the sparse tables: the canonical form as an order and a condition on entries, that every
operation keeps it, and reading after writing. -/

namespace Sys2Proof.Tab

variable {α : Type}

/-- Every key of the table is above `k`. -/
def Above (k : Nat) (t : Tab α) : Prop := ∀ p ∈ t, k < p.1

@[simp] theorem above_nil (k : Nat) : Above k ([] : Tab α) := by simp [Above]

@[simp] theorem above_cons (k : Nat) (p : Nat × α) (t : Tab α) : Above k (p :: t) ↔ k < p.1 ∧ Above k t := by
  simp [Above]

theorem Above.mono {j k : Nat} {t : Tab α} (h : Above k t) (hj : j ≤ k) : Above j t :=
  fun p hp => lt_of_le_of_lt hj (h p hp)

/-- The canonical form as a proposition: keys strictly rise, no entry equals the unlisted value. -/
def Canon (d : α) : Tab α → Prop
  | [] => True
  | p :: t => p.2 ≠ d ∧ Above p.1 t ∧ Canon d t

@[simp] theorem canon_nil (d : α) : Canon d ([] : Tab α) := trivial

@[simp] theorem canon_cons (d : α) (p : Nat × α) (t : Tab α) :
    Canon d (p :: t) ↔ p.2 ≠ d ∧ Above p.1 t ∧ Canon d t := Iff.rfl

theorem wf_iff_canon [DecidableEq α] (d : α) (t : Tab α) : wf d t = true ↔ Canon d t := by
  induction t with
  | nil => simp [wf]
  | cons p t ih =>
    cases t with
    | nil => simp [wf]
    | cons q u =>
      rw [wf, Bool.and_eq_true, Bool.and_eq_true, ih]
      simp only [decide_eq_true_eq, canon_cons, above_cons]
      constructor
      · rintro ⟨⟨h1, h2⟩, h3, h4, h5⟩
        exact ⟨h1, ⟨h2, h4.mono (le_of_lt h2)⟩, h3, h4, h5⟩
      · rintro ⟨h1, ⟨h2, -⟩, h3⟩
        exact ⟨⟨h1, h2⟩, h3⟩

theorem get_of_above (d : α) {k : Nat} {t : Tab α} (h : Above k t) : get d t k = d := by
  induction t with
  | nil => rfl
  | cons p t ih =>
    simp only [above_cons] at h
    have hk : k ≠ p.1 := by omega
    simp [get, hk, ih h.2]

/-! ### Erasing and entering -/

theorem above_filter {k : Nat} {t : Tab α} (f : Nat × α → Bool) (h : Above k t) : Above k (t.filter f) :=
  fun p hp => h p (List.mem_filter.1 hp).1

theorem canon_filter {d : α} {t : Tab α} (f : Nat × α → Bool) (h : Canon d t) : Canon d (t.filter f) := by
  induction t with
  | nil => simp
  | cons p t ih =>
    simp only [canon_cons] at h
    simp only [List.filter_cons]
    split
    · exact ⟨h.1, above_filter f h.2.1, ih h.2.2⟩
    · exact ih h.2.2

theorem above_erase {j k : Nat} {t : Tab α} (h : Above j t) : Above j (erase t k) := above_filter _ h

theorem canon_erase {d : α} {k : Nat} {t : Tab α} (h : Canon d t) : Canon d (erase t k) := canon_filter _ h

theorem above_put {j k : Nat} {v : α} {t : Tab α} (h : Above j t) (hk : j < k) : Above j (put t k v) := by
  induction t with
  | nil => simpa [put] using hk
  | cons p t ih =>
    simp only [above_cons] at h
    simp only [put]
    split
    · simpa using ⟨hk, h⟩
    · split
      · simpa using ⟨hk, h.2⟩
      · simpa using ⟨h.1, ih h.2⟩

theorem canon_put {d : α} {k : Nat} {v : α} {t : Tab α} (hv : v ≠ d) (h : Canon d t) : Canon d (put t k v) := by
  induction t with
  | nil => simpa [put] using hv
  | cons p t ih =>
    simp only [canon_cons] at h
    simp only [put]
    split
    · rename_i hk
      simpa using ⟨hv, ⟨hk, h.2.1.mono (le_of_lt hk)⟩, h⟩
    · split
      · rename_i hk
        subst hk
        simpa using ⟨hv, h.2.1, h.2.2⟩
      · simp only [canon_cons]
        exact ⟨h.1, above_put h.2.1 (by omega), ih h.2.2⟩

/-- Every write keeps the canonical form. -/
theorem wf_set [DecidableEq α] {d : α} {k : Nat} {v : α} {t : Tab α} (h : wf d t = true) :
    wf d (set d t k v) = true := by
  rw [wf_iff_canon] at h ⊢
  unfold set
  split
  · exact canon_erase h
  · exact canon_put ‹_› h

/-- Dropping entries keeps the canonical form. -/
theorem wf_filter [DecidableEq α] {d : α} {t : Tab α} (f : Nat × α → Bool) (h : wf d t = true) :
    wf d (t.filter f) = true := by
  rw [wf_iff_canon] at h ⊢
  exact canon_filter f h

/-! ### Reading after writing -/

theorem get_put_self (d : α) (t : Tab α) (k : Nat) (v : α) : get d (put t k v) k = v := by
  induction t with
  | nil => simp [put, get]
  | cons p t ih =>
    simp only [put]
    split
    · simp [get]
    · split
      · simp [get]
      · simp [get, *]

theorem get_put_other (d : α) {t : Tab α} {j k : Nat} (hjk : j ≠ k) (v : α) : get d (put t k v) j = get d t j := by
  induction t with
  | nil => simp [put, get, hjk]
  | cons p t ih =>
    simp only [put]
    split
    · simp [get, hjk]
    · split
      · rename_i hk
        subst hk
        simp [get, hjk]
      · simp [get, ih]

@[simp] theorem get_erase_self (d : α) (t : Tab α) (k : Nat) : get d (erase t k) k = d := by
  induction t with
  | nil => simp [erase, get]
  | cons p t ih =>
    unfold erase at ih ⊢
    by_cases hk : p.1 = k
    · simpa [List.filter_cons, hk] using ih
    · have hk' : k ≠ p.1 := fun h => hk h.symm
      simpa [List.filter_cons, hk, get, hk'] using ih

theorem get_erase_other (d : α) {t : Tab α} {j k : Nat} (hjk : j ≠ k) : get d (erase t k) j = get d t j := by
  induction t with
  | nil => simp [erase]
  | cons p t ih =>
    unfold erase at ih ⊢
    by_cases hk : p.1 = k
    · have hj : j ≠ p.1 := by omega
      simp [hk, get, ih, hjk]
    · simp [hk, get, ih]

variable [DecidableEq α]

/-- Reading the key just written, in any table. -/
@[simp] theorem get_set_self (d : α) (t : Tab α) (k : Nat) (v : α) : get d (set d t k v) k = v := by
  unfold set
  split
  · rename_i hv; simp [hv]
  · exact get_put_self d t k v

/-- A write leaves every other key alone. -/
theorem get_set_other {d : α} {t : Tab α} {j k : Nat} (hjk : j ≠ k) (v : α) : get d (set d t k v) j = get d t j := by
  unfold set
  split
  · exact get_erase_other d hjk
  · exact get_put_other d hjk v

end Sys2Proof.Tab
end

