-- ==== Sys2Proof/Laws/Memory.lean ====
section
/-! SUPPORT. Laws of memories: every operation keeps the canonical form; a byte read after a write; bytes outside a
write stay. -/

namespace Sys2Proof.Machine

open Sys2Proof.Tab hiding get

theorem above_append {α : Type} {k : Nat} {t u : Tab α} : Above k (t ++ u) ↔ Above k t ∧ Above k u := by
  simp only [Above, List.mem_append]
  exact ⟨fun h => ⟨fun p hp => h p (.inl hp), fun p hp => h p (.inr hp)⟩,
    fun h p hp => hp.elim (h.1 p) (h.2 p)⟩

/-- Two canonical tables, the first's keys below the second's. -/
theorem canon_append {α : Type} {d : α} {t u : Tab α} (ht : Canon d t) (hu : Canon d u)
    (h : ∀ p ∈ t, Above p.1 u) : Canon d (t ++ u) := by
  induction t with
  | nil => simpa using hu
  | cons p t ih =>
    simp only [canon_cons] at ht
    refine ⟨ht.1, above_append.2 ⟨ht.2.1, h p (by simp)⟩, ih ht.2.2 fun q hq => h q (by simp [hq])⟩

theorem cellsOf_bounds (bs : List Byte) (a : Nat) : ∀ p ∈ cellsOf a bs, a ≤ p.1 ∧ p.1 < a + bs.length := by
  induction bs generalizing a with
  | nil => simp [cellsOf]
  | cons b bs ih =>
    intro p hp
    have hr : ∀ p ∈ cellsOf (a + 1) bs, a ≤ p.1 ∧ p.1 < a + (b :: bs).length := fun p hp => by
      have := ih (a + 1) p hp
      simp only [List.length_cons]
      omega
    simp only [cellsOf] at hp
    split at hp
    · exact hr p hp
    · rcases List.mem_cons.1 hp with rfl | hp
      · simp
      · exact hr p hp

theorem canon_cellsOf (bs : List Byte) (a : Nat) : Canon Memory.unlisted (cellsOf a bs) := by
  induction bs generalizing a with
  | nil => simp [cellsOf]
  | cons b bs ih =>
    simp only [cellsOf]
    split
    · exact ih (a + 1)
    · exact ⟨‹_›, fun p hp => by have := cellsOf_bounds bs (a + 1) p hp; omega, ih (a + 1)⟩

/-- Replacing a span by canonical cells that lie in it keeps the canonical form. -/
theorem canon_splice {m : Memory} {a n : Nat} {cells : Memory} (hm : Canon Memory.unlisted m)
    (hc : Canon Memory.unlisted cells) (hb : ∀ p ∈ cells, a ≤ p.1 ∧ p.1 < a + n) :
    Canon Memory.unlisted (splice m a n cells) := by
  unfold splice
  refine canon_append (canon_append (canon_filter _ hm) hc ?_) (canon_filter _ hm) ?_
  · intro p hp q hq
    have h1 : p.1 < a := by simpa using (List.mem_filter.1 hp).2
    have := (hb q hq).1
    omega
  · intro p hp q hq
    have h2 : a + n ≤ q.1 := by simpa using (List.mem_filter.1 hq).2
    rcases List.mem_append.1 hp with hp | hp
    · have h1 : p.1 < a := by simpa using (List.mem_filter.1 hp).2
      omega
    · have := (hb p hp).2
      omega

/-- Clearing a span keeps the canonical form. -/
theorem wf_splice_nil {m : Memory} (h : Tab.wf Memory.unlisted m = true) (a n : Nat) :
    Tab.wf Memory.unlisted (splice m a n []) = true := by
  rw [wf_iff_canon] at h ⊢
  exact canon_splice h trivial (by simp)

/-- Writing bytes keeps the canonical form. -/
theorem wf_writeList {m : Memory} (h : Tab.wf Memory.unlisted m = true) (a : Nat) (bs : List Byte) :
    Tab.wf Memory.unlisted (writeList m a bs) = true := by
  rw [wf_iff_canon] at h ⊢
  exact canon_splice h (canon_cellsOf bs a) (cellsOf_bounds bs a)

/-- The tags of written lines keep the canonical form. -/
theorem wf_writeTags {t : Tab Nat} (h : Tab.wf 0 t = true) (a n tag l k : Nat) :
    Tab.wf 0 (writeTags t a n tag l k) = true := by
  induction k generalizing l with
  | zero => exact h
  | succ k ih => exact wf_set (ih (l + 1))

/-! ### Reading after writing -/

theorem get_append_of_above {α : Type} (d : α) {t u : Tab α} {k : Nat} (h : Above k u) :
    Tab.get d (t ++ u) k = Tab.get d t k := by
  induction t with
  | nil => simpa [Tab.get] using get_of_above d h
  | cons p t ih => simp only [List.cons_append, Tab.get, ih]

theorem get_append_right {α : Type} (d : α) {t u : Tab α} {k : Nat} (h : ∀ p ∈ t, p.1 < k) :
    Tab.get d (t ++ u) k = Tab.get d u k := by
  induction t with
  | nil => rfl
  | cons p t ih =>
    have hp := h p (by simp)
    simp only [List.cons_append, Tab.get]
    rw [if_neg (by omega)]
    exact ih fun q hq => h q (by simp [hq])

theorem get_filter {α : Type} (d : α) (t : Tab α) (f : Nat → Bool) {k : Nat} (hk : f k = true) :
    Tab.get d (t.filter fun p => f p.1) k = Tab.get d t k := by
  induction t with
  | nil => rfl
  | cons p t ih =>
    simp only [List.filter_cons]
    split
    · simp only [Tab.get, ih]
    · rename_i hp
      have hne : k ≠ p.1 := fun h => hp (h ▸ hk)
      simp only [Tab.get, hne, if_false, ih]

/-- A byte outside a replaced span stays. -/
theorem get_splice_other {m : Memory} {a n k : Nat} {cells : Memory}
    (hb : ∀ p ∈ cells, a ≤ p.1 ∧ p.1 < a + n) (hk : k < a ∨ a + n ≤ k) :
    Tab.get Memory.unlisted (splice m a n cells) k = Tab.get Memory.unlisted m k := by
  unfold splice
  rcases hk with hk | hk
  · have h1 : Above k (cells ++ m.filter fun p => decide (a + n ≤ p.1)) := by
      rw [above_append]
      refine ⟨fun p hp => ?_, fun p hp => ?_⟩
      · have := (hb p hp).1; omega
      · have : a + n ≤ p.1 := by simpa using (List.mem_filter.1 hp).2
        omega
    rw [List.append_assoc, get_append_of_above _ h1]
    exact get_filter _ m (fun x => decide (x < a)) (by simpa using hk)
  · have h1 : ∀ p ∈ (m.filter fun p => decide (p.1 < a)) ++ cells, p.1 < k := by
      intro p hp
      rcases List.mem_append.1 hp with hp | hp
      · have : p.1 < a := by simpa using (List.mem_filter.1 hp).2
        omega
      · have := (hb p hp).2; omega
    rw [get_append_right _ h1]
    exact get_filter _ m (fun x => decide (a + n ≤ x)) (by simpa using hk)

/-- Every byte outside those written stays. -/
theorem get_writeList_other {m : Memory} {a k : Nat} {bs : List Byte}
    (hk : k < a ∨ a + bs.length ≤ k) :
    Tab.get Memory.unlisted (writeList m a bs) k = Tab.get Memory.unlisted m k :=
  get_splice_other (cellsOf_bounds bs a) hk

theorem get_cellsOf (bs : List Byte) (a i : Nat) (hi : i < bs.length) :
    Tab.get Memory.unlisted (cellsOf a bs) (a + i) = bs[i] := by
  induction bs generalizing a i with
  | nil => simp at hi
  | cons b bs ih =>
    have hab : Above a (cellsOf (a + 1) bs) := fun p hp => by
      have := cellsOf_bounds bs (a + 1) p hp; omega
    simp only [cellsOf]
    cases i with
    | zero =>
      split
      · rename_i hb
        simpa [hb] using get_of_above Memory.unlisted hab
      · simp [Tab.get]
    | succ i =>
      have hr := ih (a + 1) i (by simpa using hi)
      rw [show a + 1 + i = a + (i + 1) by omega] at hr
      split
      · simpa using hr
      · simp only [Tab.get]
        rw [if_neg (by omega)]
        simpa using hr

/-- A byte just written reads back. -/
theorem get_writeList_self (m : Memory) (a i : Nat) (bs : List Byte) (hi : i < bs.length) :
    Tab.get Memory.unlisted (writeList m a bs) (a + i) = bs[i] := by
  unfold writeList splice
  have h1 : Above (a + i) (m.filter fun p => decide (a + bs.length ≤ p.1)) := fun p hp => by
    have : a + bs.length ≤ p.1 := by simpa using (List.mem_filter.1 hp).2
    omega
  have h2 : ∀ p ∈ m.filter (fun p => decide (p.1 < a)), p.1 < a + i := fun p hp => by
    have : p.1 < a := by simpa using (List.mem_filter.1 hp).2
    omega
  rw [get_append_of_above _ h1, get_append_right _ h2, get_cellsOf bs a i hi]

/-! ### The state's memory operations keep both tables canonical -/

/-- Main memory and its tags are canonical. -/
def State.memCanon (s : State) : Prop := Tab.wf Memory.unlisted s.mem = true ∧ Tab.wf 0 s.lineTags = true

theorem countPoison_memCanon {s : State} (h : s.memCanon) (tag n : Nat) : (s.countPoison tag n).memCanon := by
  simp only [State.countPoison]
  split
  · exact h
  · exact ⟨wf_writeList h.1 _ _, h.2⟩

theorem putMem_memCanon {s : State} (h : s.memCanon) (pa : Nat) (bs : List Byte) (tag : Nat) :
    (s.putMem pa bs tag).memCanon :=
  countPoison_memCanon ⟨wf_writeList h.1 _ _, wf_writeTags h.2 _ _ _ _ _⟩ _ _

/-- A property that each step of a fold keeps, the fold keeps. -/
theorem foldl_keeps {α β : Type} (P : β → Prop) (f : β → α → β) (hf : ∀ b a, P b → P (f b a)) (l : List α) (b : β)
    (hb : P b) : P (l.foldl f b) := by
  induction l generalizing b with
  | nil => exact hb
  | cons a l ih => exact ih _ (hf b a hb)

theorem writeMem_memCanon {s : State} (h : s.memCanon) (pa : Nat) (bs : List Byte) (tag : Nat) :
    (s.writeMem pa bs tag).memCanon := by
  unfold State.writeMem
  split
  · exact putMem_memCanon h _ _ _
  · refine foldl_keeps State.memCanon _ (fun s c hs => ?_) _ _ h
    split
    · exact putMem_memCanon hs _ _ _
    · exact hs

theorem writeWord_memCanon {s : State} (h : s.memCanon) (pa : Nat) (w : Word) : (s.writeWord pa w).memCanon :=
  writeMem_memCanon h _ _ _

theorem writeWords_memCanon {s : State} (h : s.memCanon) (pa : Nat) (ws : List Word) :
    (s.writeWords pa ws).memCanon := by
  induction ws generalizing s pa with
  | nil => exact h
  | cons w ws ih => exact ih (writeWord_memCanon h pa w) (pa + 8)

theorem reset_memCanon : State.reset.memCanon := ⟨rfl, rfl⟩

end Sys2Proof.Machine
end

