-- ==== Sys2Proof/Laws/State.lean ====
section
/-! SUPPORT. What each update of the state leaves alone, field by field, and what its own field becomes. -/

namespace Sys2Proof.Machine.State

variable (s : State)

@[simp] theorem modTask_eq (k : Nat) (f : Task → Task) : s.modTask k f = s.setTask k (f (s.task k)) := rfl
@[simp] theorem modCore_eq (c : Nat) (f : Core → Core) : s.modCore c f = s.setCore c (f (s.core c)) := rfl
@[simp] theorem modSpace_eq (ctx core : Nat) (f : Space → Space) :
    s.modSpace ctx core f = s.setSpace ctx core (f (s.space ctx core)) := rfl
@[simp] theorem fresh_fst : s.fresh.1 = s.nextId := rfl

/-! ### setTask -/

section

variable (k : Nat) (t : Task)

@[simp] theorem setTask_mem : (s.setTask k t).mem = s.mem := rfl
@[simp] theorem setTask_lineTags : (s.setTask k t).lineTags = s.lineTags := rfl
@[simp] theorem setTask_tasks : (s.setTask k t).tasks = Tab.set .idle s.tasks k t := rfl
@[simp] theorem setTask_cores : (s.setTask k t).cores = s.cores := rfl
@[simp] theorem setTask_spaces : (s.setTask k t).spaces = s.spaces := rfl
@[simp] theorem setTask_coreCtxs : (s.setTask k t).coreCtxs = s.coreCtxs := rfl
@[simp] theorem setTask_ctxs : (s.setTask k t).ctxs = s.ctxs := rfl
@[simp] theorem setTask_hives : (s.setTask k t).hives = s.hives := rfl
@[simp] theorem setTask_saved : (s.setTask k t).saved = s.saved := rfl
@[simp] theorem setTask_ret : (s.setTask k t).ret = s.ret := rfl
@[simp] theorem setTask_sset : (s.setTask k t).sset = s.sset := rfl
@[simp] theorem setTask_hbm : (s.setTask k t).hbm = s.hbm := rfl
@[simp] theorem setTask_mapCopies : (s.setTask k t).mapCopies = s.mapCopies := rfl
@[simp] theorem setTask_outstanding : (s.setTask k t).outstanding = s.outstanding := rfl
@[simp] theorem setTask_qtbase : (s.setTask k t).qtbase = s.qtbase := rfl
@[simp] theorem setTask_queues : (s.setTask k t).queues = s.queues := rfl
@[simp] theorem setTask_flights : (s.setTask k t).flights = s.flights := rfl
@[simp] theorem setTask_regionUse : (s.setTask k t).regionUse = s.regionUse := rfl
@[simp] theorem setTask_rrQueue : (s.setTask k t).rrQueue = s.rrQueue := rfl
@[simp] theorem setTask_ctxres : (s.setTask k t).ctxres = s.ctxres := rfl
@[simp] theorem setTask_ctxresStatus : (s.setTask k t).ctxresStatus = s.ctxresStatus := rfl
@[simp] theorem setTask_erbase : (s.setTask k t).erbase = s.erbase := rfl
@[simp] theorem setTask_erNext : (s.setTask k t).erNext = s.erNext := rfl
@[simp] theorem setTask_cmove : (s.setTask k t).cmove = s.cmove := rfl
@[simp] theorem setTask_hostwin : (s.setTask k t).hostwin = s.hostwin := rfl
@[simp] theorem setTask_devid : (s.setTask k t).devid = s.devid := rfl
@[simp] theorem setTask_pexp : (s.setTask k t).pexp = s.pexp := rfl
@[simp] theorem setTask_stage : (s.setTask k t).stage = s.stage := rfl
@[simp] theorem setTask_hostTrained : (s.setTask k t).hostTrained = s.hostTrained := rfl
@[simp] theorem setTask_tested : (s.setTask k t).tested = s.tested := rfl
@[simp] theorem setTask_slewHold : (s.setTask k t).slewHold = s.slewHold := rfl
@[simp] theorem setTask_slewLeft : (s.setTask k t).slewLeft = s.slewLeft := rfl
@[simp] theorem setTask_slewBudget : (s.setTask k t).slewBudget = s.slewBudget := rfl
@[simp] theorem setTask_links : (s.setTask k t).links = s.links := rfl
@[simp] theorem setTask_routes : (s.setTask k t).routes = s.routes := rfl
@[simp] theorem setTask_peers : (s.setTask k t).peers = s.peers := rfl
@[simp] theorem setTask_mailbox : (s.setTask k t).mailbox = s.mailbox := rfl
@[simp] theorem setTask_mailboxLost : (s.setTask k t).mailboxLost = s.mailboxLost := rfl
@[simp] theorem setTask_machineErrors : (s.setTask k t).machineErrors = s.machineErrors := rfl
@[simp] theorem setTask_replies : (s.setTask k t).replies = s.replies := rfl
@[simp] theorem setTask_farOut : (s.setTask k t).farOut = s.farOut := rfl
@[simp] theorem setTask_failedCols : (s.setTask k t).failedCols = s.failedCols := rfl
@[simp] theorem setTask_mapVersion : (s.setTask k t).mapVersion = s.mapVersion := rfl
@[simp] theorem setTask_backInvals : (s.setTask k t).backInvals = s.backInvals := rfl
@[simp] theorem setTask_invalAcked : (s.setTask k t).invalAcked = s.invalAcked := rfl
@[simp] theorem setTask_invals : (s.setTask k t).invals = s.invals := rfl
@[simp] theorem setTask_invalDone : (s.setTask k t).invalDone = s.invalDone := rfl
@[simp] theorem setTask_announce : (s.setTask k t).announce = s.announce := rfl
@[simp] theorem setTask_placed : (s.setTask k t).placed = s.placed := rfl
@[simp] theorem setTask_window : (s.setTask k t).window = s.window := rfl
@[simp] theorem setTask_horizonReports : (s.setTask k t).horizonReports = s.horizonReports := rfl
@[simp] theorem setTask_nodeLines : (s.setTask k t).nodeLines = s.nodeLines := rfl
@[simp] theorem setTask_netMarks : (s.setTask k t).netMarks = s.netMarks := rfl
@[simp] theorem setTask_cyc : (s.setTask k t).cyc = s.cyc := rfl
@[simp] theorem setTask_tick : (s.setTask k t).tick = s.tick := rfl
@[simp] theorem setTask_focus : (s.setTask k t).focus = s.focus := rfl
@[simp] theorem setTask_ir : (s.setTask k t).ir = s.ir := rfl
@[simp] theorem setTask_nextId : (s.setTask k t).nextId = s.nextId := rfl
@[simp] theorem setTask_sched : (s.setTask k t).sched = s.sched := rfl
@[simp] theorem setTask_pending : (s.setTask k t).pending = s.pending := rfl

end

/-! ### setCore -/

section

variable (c : Nat) (v : Core)

@[simp] theorem setCore_mem : (s.setCore c v).mem = s.mem := rfl
@[simp] theorem setCore_lineTags : (s.setCore c v).lineTags = s.lineTags := rfl
@[simp] theorem setCore_tasks : (s.setCore c v).tasks = s.tasks := rfl
@[simp] theorem setCore_cores : (s.setCore c v).cores = Tab.set .idle s.cores c v := rfl
@[simp] theorem setCore_spaces : (s.setCore c v).spaces = s.spaces := rfl
@[simp] theorem setCore_coreCtxs : (s.setCore c v).coreCtxs = s.coreCtxs := rfl
@[simp] theorem setCore_ctxs : (s.setCore c v).ctxs = s.ctxs := rfl
@[simp] theorem setCore_hives : (s.setCore c v).hives = s.hives := rfl
@[simp] theorem setCore_saved : (s.setCore c v).saved = s.saved := rfl
@[simp] theorem setCore_ret : (s.setCore c v).ret = s.ret := rfl
@[simp] theorem setCore_sset : (s.setCore c v).sset = s.sset := rfl
@[simp] theorem setCore_hbm : (s.setCore c v).hbm = s.hbm := rfl
@[simp] theorem setCore_mapCopies : (s.setCore c v).mapCopies = s.mapCopies := rfl
@[simp] theorem setCore_outstanding : (s.setCore c v).outstanding = s.outstanding := rfl
@[simp] theorem setCore_qtbase : (s.setCore c v).qtbase = s.qtbase := rfl
@[simp] theorem setCore_queues : (s.setCore c v).queues = s.queues := rfl
@[simp] theorem setCore_flights : (s.setCore c v).flights = s.flights := rfl
@[simp] theorem setCore_regionUse : (s.setCore c v).regionUse = s.regionUse := rfl
@[simp] theorem setCore_rrQueue : (s.setCore c v).rrQueue = s.rrQueue := rfl
@[simp] theorem setCore_ctxres : (s.setCore c v).ctxres = s.ctxres := rfl
@[simp] theorem setCore_ctxresStatus : (s.setCore c v).ctxresStatus = s.ctxresStatus := rfl
@[simp] theorem setCore_erbase : (s.setCore c v).erbase = s.erbase := rfl
@[simp] theorem setCore_erNext : (s.setCore c v).erNext = s.erNext := rfl
@[simp] theorem setCore_cmove : (s.setCore c v).cmove = s.cmove := rfl
@[simp] theorem setCore_hostwin : (s.setCore c v).hostwin = s.hostwin := rfl
@[simp] theorem setCore_devid : (s.setCore c v).devid = s.devid := rfl
@[simp] theorem setCore_pexp : (s.setCore c v).pexp = s.pexp := rfl
@[simp] theorem setCore_stage : (s.setCore c v).stage = s.stage := rfl
@[simp] theorem setCore_hostTrained : (s.setCore c v).hostTrained = s.hostTrained := rfl
@[simp] theorem setCore_tested : (s.setCore c v).tested = s.tested := rfl
@[simp] theorem setCore_slewHold : (s.setCore c v).slewHold = s.slewHold := rfl
@[simp] theorem setCore_slewLeft : (s.setCore c v).slewLeft = s.slewLeft := rfl
@[simp] theorem setCore_slewBudget : (s.setCore c v).slewBudget = s.slewBudget := rfl
@[simp] theorem setCore_links : (s.setCore c v).links = s.links := rfl
@[simp] theorem setCore_routes : (s.setCore c v).routes = s.routes := rfl
@[simp] theorem setCore_peers : (s.setCore c v).peers = s.peers := rfl
@[simp] theorem setCore_mailbox : (s.setCore c v).mailbox = s.mailbox := rfl
@[simp] theorem setCore_mailboxLost : (s.setCore c v).mailboxLost = s.mailboxLost := rfl
@[simp] theorem setCore_machineErrors : (s.setCore c v).machineErrors = s.machineErrors := rfl
@[simp] theorem setCore_replies : (s.setCore c v).replies = s.replies := rfl
@[simp] theorem setCore_farOut : (s.setCore c v).farOut = s.farOut := rfl
@[simp] theorem setCore_failedCols : (s.setCore c v).failedCols = s.failedCols := rfl
@[simp] theorem setCore_mapVersion : (s.setCore c v).mapVersion = s.mapVersion := rfl
@[simp] theorem setCore_backInvals : (s.setCore c v).backInvals = s.backInvals := rfl
@[simp] theorem setCore_invalAcked : (s.setCore c v).invalAcked = s.invalAcked := rfl
@[simp] theorem setCore_invals : (s.setCore c v).invals = s.invals := rfl
@[simp] theorem setCore_invalDone : (s.setCore c v).invalDone = s.invalDone := rfl
@[simp] theorem setCore_announce : (s.setCore c v).announce = s.announce := rfl
@[simp] theorem setCore_placed : (s.setCore c v).placed = s.placed := rfl
@[simp] theorem setCore_window : (s.setCore c v).window = s.window := rfl
@[simp] theorem setCore_horizonReports : (s.setCore c v).horizonReports = s.horizonReports := rfl
@[simp] theorem setCore_nodeLines : (s.setCore c v).nodeLines = s.nodeLines := rfl
@[simp] theorem setCore_netMarks : (s.setCore c v).netMarks = s.netMarks := rfl
@[simp] theorem setCore_cyc : (s.setCore c v).cyc = s.cyc := rfl
@[simp] theorem setCore_tick : (s.setCore c v).tick = s.tick := rfl
@[simp] theorem setCore_focus : (s.setCore c v).focus = s.focus := rfl
@[simp] theorem setCore_ir : (s.setCore c v).ir = s.ir := rfl
@[simp] theorem setCore_nextId : (s.setCore c v).nextId = s.nextId := rfl
@[simp] theorem setCore_sched : (s.setCore c v).sched = s.sched := rfl
@[simp] theorem setCore_pending : (s.setCore c v).pending = s.pending := rfl

end

/-! ### setSpace -/

section

variable (ctx core : Nat) (v : Space)

@[simp] theorem setSpace_mem : (s.setSpace ctx core v).mem = s.mem := rfl
@[simp] theorem setSpace_lineTags : (s.setSpace ctx core v).lineTags = s.lineTags := rfl
@[simp] theorem setSpace_tasks : (s.setSpace ctx core v).tasks = s.tasks := rfl
@[simp] theorem setSpace_cores : (s.setSpace ctx core v).cores = s.cores := rfl
@[simp] theorem setSpace_spaces : (s.setSpace ctx core v).spaces = Tab.set .empty s.spaces (key ctx core) v := rfl
@[simp] theorem setSpace_coreCtxs : (s.setSpace ctx core v).coreCtxs = s.coreCtxs := rfl
@[simp] theorem setSpace_ctxs : (s.setSpace ctx core v).ctxs = s.ctxs := rfl
@[simp] theorem setSpace_hives : (s.setSpace ctx core v).hives = s.hives := rfl
@[simp] theorem setSpace_saved : (s.setSpace ctx core v).saved = s.saved := rfl
@[simp] theorem setSpace_ret : (s.setSpace ctx core v).ret = s.ret := rfl
@[simp] theorem setSpace_sset : (s.setSpace ctx core v).sset = s.sset := rfl
@[simp] theorem setSpace_hbm : (s.setSpace ctx core v).hbm = s.hbm := rfl
@[simp] theorem setSpace_mapCopies : (s.setSpace ctx core v).mapCopies = s.mapCopies := rfl
@[simp] theorem setSpace_outstanding : (s.setSpace ctx core v).outstanding = s.outstanding := rfl
@[simp] theorem setSpace_qtbase : (s.setSpace ctx core v).qtbase = s.qtbase := rfl
@[simp] theorem setSpace_queues : (s.setSpace ctx core v).queues = s.queues := rfl
@[simp] theorem setSpace_flights : (s.setSpace ctx core v).flights = s.flights := rfl
@[simp] theorem setSpace_regionUse : (s.setSpace ctx core v).regionUse = s.regionUse := rfl
@[simp] theorem setSpace_rrQueue : (s.setSpace ctx core v).rrQueue = s.rrQueue := rfl
@[simp] theorem setSpace_ctxres : (s.setSpace ctx core v).ctxres = s.ctxres := rfl
@[simp] theorem setSpace_ctxresStatus : (s.setSpace ctx core v).ctxresStatus = s.ctxresStatus := rfl
@[simp] theorem setSpace_erbase : (s.setSpace ctx core v).erbase = s.erbase := rfl
@[simp] theorem setSpace_erNext : (s.setSpace ctx core v).erNext = s.erNext := rfl
@[simp] theorem setSpace_cmove : (s.setSpace ctx core v).cmove = s.cmove := rfl
@[simp] theorem setSpace_hostwin : (s.setSpace ctx core v).hostwin = s.hostwin := rfl
@[simp] theorem setSpace_devid : (s.setSpace ctx core v).devid = s.devid := rfl
@[simp] theorem setSpace_pexp : (s.setSpace ctx core v).pexp = s.pexp := rfl
@[simp] theorem setSpace_stage : (s.setSpace ctx core v).stage = s.stage := rfl
@[simp] theorem setSpace_hostTrained : (s.setSpace ctx core v).hostTrained = s.hostTrained := rfl
@[simp] theorem setSpace_tested : (s.setSpace ctx core v).tested = s.tested := rfl
@[simp] theorem setSpace_slewHold : (s.setSpace ctx core v).slewHold = s.slewHold := rfl
@[simp] theorem setSpace_slewLeft : (s.setSpace ctx core v).slewLeft = s.slewLeft := rfl
@[simp] theorem setSpace_slewBudget : (s.setSpace ctx core v).slewBudget = s.slewBudget := rfl
@[simp] theorem setSpace_links : (s.setSpace ctx core v).links = s.links := rfl
@[simp] theorem setSpace_routes : (s.setSpace ctx core v).routes = s.routes := rfl
@[simp] theorem setSpace_peers : (s.setSpace ctx core v).peers = s.peers := rfl
@[simp] theorem setSpace_mailbox : (s.setSpace ctx core v).mailbox = s.mailbox := rfl
@[simp] theorem setSpace_mailboxLost : (s.setSpace ctx core v).mailboxLost = s.mailboxLost := rfl
@[simp] theorem setSpace_machineErrors : (s.setSpace ctx core v).machineErrors = s.machineErrors := rfl
@[simp] theorem setSpace_replies : (s.setSpace ctx core v).replies = s.replies := rfl
@[simp] theorem setSpace_farOut : (s.setSpace ctx core v).farOut = s.farOut := rfl
@[simp] theorem setSpace_failedCols : (s.setSpace ctx core v).failedCols = s.failedCols := rfl
@[simp] theorem setSpace_mapVersion : (s.setSpace ctx core v).mapVersion = s.mapVersion := rfl
@[simp] theorem setSpace_backInvals : (s.setSpace ctx core v).backInvals = s.backInvals := rfl
@[simp] theorem setSpace_invalAcked : (s.setSpace ctx core v).invalAcked = s.invalAcked := rfl
@[simp] theorem setSpace_invals : (s.setSpace ctx core v).invals = s.invals := rfl
@[simp] theorem setSpace_invalDone : (s.setSpace ctx core v).invalDone = s.invalDone := rfl
@[simp] theorem setSpace_announce : (s.setSpace ctx core v).announce = s.announce := rfl
@[simp] theorem setSpace_placed : (s.setSpace ctx core v).placed = s.placed := rfl
@[simp] theorem setSpace_window : (s.setSpace ctx core v).window = s.window := rfl
@[simp] theorem setSpace_horizonReports : (s.setSpace ctx core v).horizonReports = s.horizonReports := rfl
@[simp] theorem setSpace_nodeLines : (s.setSpace ctx core v).nodeLines = s.nodeLines := rfl
@[simp] theorem setSpace_netMarks : (s.setSpace ctx core v).netMarks = s.netMarks := rfl
@[simp] theorem setSpace_cyc : (s.setSpace ctx core v).cyc = s.cyc := rfl
@[simp] theorem setSpace_tick : (s.setSpace ctx core v).tick = s.tick := rfl
@[simp] theorem setSpace_focus : (s.setSpace ctx core v).focus = s.focus := rfl
@[simp] theorem setSpace_ir : (s.setSpace ctx core v).ir = s.ir := rfl
@[simp] theorem setSpace_nextId : (s.setSpace ctx core v).nextId = s.nextId := rfl
@[simp] theorem setSpace_sched : (s.setSpace ctx core v).sched = s.sched := rfl
@[simp] theorem setSpace_pending : (s.setSpace ctx core v).pending = s.pending := rfl

end

/-! ### modCc -/

section

variable (ctx core : Nat) (f : CoreCtx → CoreCtx)

@[simp] theorem modCc_mem : (s.modCc ctx core f).mem = s.mem := rfl
@[simp] theorem modCc_lineTags : (s.modCc ctx core f).lineTags = s.lineTags := rfl
@[simp] theorem modCc_tasks : (s.modCc ctx core f).tasks = s.tasks := rfl
@[simp] theorem modCc_cores : (s.modCc ctx core f).cores = s.cores := rfl
@[simp] theorem modCc_spaces : (s.modCc ctx core f).spaces = s.spaces := rfl
@[simp] theorem modCc_coreCtxs : (s.modCc ctx core f).coreCtxs = Tab.set .empty s.coreCtxs (key ctx core) (f (s.cc ctx core)) := rfl
@[simp] theorem modCc_ctxs : (s.modCc ctx core f).ctxs = s.ctxs := rfl
@[simp] theorem modCc_hives : (s.modCc ctx core f).hives = s.hives := rfl
@[simp] theorem modCc_saved : (s.modCc ctx core f).saved = s.saved := rfl
@[simp] theorem modCc_ret : (s.modCc ctx core f).ret = s.ret := rfl
@[simp] theorem modCc_sset : (s.modCc ctx core f).sset = s.sset := rfl
@[simp] theorem modCc_hbm : (s.modCc ctx core f).hbm = s.hbm := rfl
@[simp] theorem modCc_mapCopies : (s.modCc ctx core f).mapCopies = s.mapCopies := rfl
@[simp] theorem modCc_outstanding : (s.modCc ctx core f).outstanding = s.outstanding := rfl
@[simp] theorem modCc_qtbase : (s.modCc ctx core f).qtbase = s.qtbase := rfl
@[simp] theorem modCc_queues : (s.modCc ctx core f).queues = s.queues := rfl
@[simp] theorem modCc_flights : (s.modCc ctx core f).flights = s.flights := rfl
@[simp] theorem modCc_regionUse : (s.modCc ctx core f).regionUse = s.regionUse := rfl
@[simp] theorem modCc_rrQueue : (s.modCc ctx core f).rrQueue = s.rrQueue := rfl
@[simp] theorem modCc_ctxres : (s.modCc ctx core f).ctxres = s.ctxres := rfl
@[simp] theorem modCc_ctxresStatus : (s.modCc ctx core f).ctxresStatus = s.ctxresStatus := rfl
@[simp] theorem modCc_erbase : (s.modCc ctx core f).erbase = s.erbase := rfl
@[simp] theorem modCc_erNext : (s.modCc ctx core f).erNext = s.erNext := rfl
@[simp] theorem modCc_cmove : (s.modCc ctx core f).cmove = s.cmove := rfl
@[simp] theorem modCc_hostwin : (s.modCc ctx core f).hostwin = s.hostwin := rfl
@[simp] theorem modCc_devid : (s.modCc ctx core f).devid = s.devid := rfl
@[simp] theorem modCc_pexp : (s.modCc ctx core f).pexp = s.pexp := rfl
@[simp] theorem modCc_stage : (s.modCc ctx core f).stage = s.stage := rfl
@[simp] theorem modCc_hostTrained : (s.modCc ctx core f).hostTrained = s.hostTrained := rfl
@[simp] theorem modCc_tested : (s.modCc ctx core f).tested = s.tested := rfl
@[simp] theorem modCc_slewHold : (s.modCc ctx core f).slewHold = s.slewHold := rfl
@[simp] theorem modCc_slewLeft : (s.modCc ctx core f).slewLeft = s.slewLeft := rfl
@[simp] theorem modCc_slewBudget : (s.modCc ctx core f).slewBudget = s.slewBudget := rfl
@[simp] theorem modCc_links : (s.modCc ctx core f).links = s.links := rfl
@[simp] theorem modCc_routes : (s.modCc ctx core f).routes = s.routes := rfl
@[simp] theorem modCc_peers : (s.modCc ctx core f).peers = s.peers := rfl
@[simp] theorem modCc_mailbox : (s.modCc ctx core f).mailbox = s.mailbox := rfl
@[simp] theorem modCc_mailboxLost : (s.modCc ctx core f).mailboxLost = s.mailboxLost := rfl
@[simp] theorem modCc_machineErrors : (s.modCc ctx core f).machineErrors = s.machineErrors := rfl
@[simp] theorem modCc_replies : (s.modCc ctx core f).replies = s.replies := rfl
@[simp] theorem modCc_farOut : (s.modCc ctx core f).farOut = s.farOut := rfl
@[simp] theorem modCc_failedCols : (s.modCc ctx core f).failedCols = s.failedCols := rfl
@[simp] theorem modCc_mapVersion : (s.modCc ctx core f).mapVersion = s.mapVersion := rfl
@[simp] theorem modCc_backInvals : (s.modCc ctx core f).backInvals = s.backInvals := rfl
@[simp] theorem modCc_invalAcked : (s.modCc ctx core f).invalAcked = s.invalAcked := rfl
@[simp] theorem modCc_invals : (s.modCc ctx core f).invals = s.invals := rfl
@[simp] theorem modCc_invalDone : (s.modCc ctx core f).invalDone = s.invalDone := rfl
@[simp] theorem modCc_announce : (s.modCc ctx core f).announce = s.announce := rfl
@[simp] theorem modCc_placed : (s.modCc ctx core f).placed = s.placed := rfl
@[simp] theorem modCc_window : (s.modCc ctx core f).window = s.window := rfl
@[simp] theorem modCc_horizonReports : (s.modCc ctx core f).horizonReports = s.horizonReports := rfl
@[simp] theorem modCc_nodeLines : (s.modCc ctx core f).nodeLines = s.nodeLines := rfl
@[simp] theorem modCc_netMarks : (s.modCc ctx core f).netMarks = s.netMarks := rfl
@[simp] theorem modCc_cyc : (s.modCc ctx core f).cyc = s.cyc := rfl
@[simp] theorem modCc_tick : (s.modCc ctx core f).tick = s.tick := rfl
@[simp] theorem modCc_focus : (s.modCc ctx core f).focus = s.focus := rfl
@[simp] theorem modCc_ir : (s.modCc ctx core f).ir = s.ir := rfl
@[simp] theorem modCc_nextId : (s.modCc ctx core f).nextId = s.nextId := rfl
@[simp] theorem modCc_sched : (s.modCc ctx core f).sched = s.sched := rfl
@[simp] theorem modCc_pending : (s.modCc ctx core f).pending = s.pending := rfl

end

/-! ### modCtx -/

section

variable (c : Nat) (f : Ctx → Ctx)

@[simp] theorem modCtx_mem : (s.modCtx c f).mem = s.mem := rfl
@[simp] theorem modCtx_lineTags : (s.modCtx c f).lineTags = s.lineTags := rfl
@[simp] theorem modCtx_tasks : (s.modCtx c f).tasks = s.tasks := rfl
@[simp] theorem modCtx_cores : (s.modCtx c f).cores = s.cores := rfl
@[simp] theorem modCtx_spaces : (s.modCtx c f).spaces = s.spaces := rfl
@[simp] theorem modCtx_coreCtxs : (s.modCtx c f).coreCtxs = s.coreCtxs := rfl
@[simp] theorem modCtx_ctxs : (s.modCtx c f).ctxs = Tab.set .absent s.ctxs c (f (s.ctx c)) := rfl
@[simp] theorem modCtx_hives : (s.modCtx c f).hives = s.hives := rfl
@[simp] theorem modCtx_saved : (s.modCtx c f).saved = s.saved := rfl
@[simp] theorem modCtx_ret : (s.modCtx c f).ret = s.ret := rfl
@[simp] theorem modCtx_sset : (s.modCtx c f).sset = s.sset := rfl
@[simp] theorem modCtx_hbm : (s.modCtx c f).hbm = s.hbm := rfl
@[simp] theorem modCtx_mapCopies : (s.modCtx c f).mapCopies = s.mapCopies := rfl
@[simp] theorem modCtx_outstanding : (s.modCtx c f).outstanding = s.outstanding := rfl
@[simp] theorem modCtx_qtbase : (s.modCtx c f).qtbase = s.qtbase := rfl
@[simp] theorem modCtx_queues : (s.modCtx c f).queues = s.queues := rfl
@[simp] theorem modCtx_flights : (s.modCtx c f).flights = s.flights := rfl
@[simp] theorem modCtx_regionUse : (s.modCtx c f).regionUse = s.regionUse := rfl
@[simp] theorem modCtx_rrQueue : (s.modCtx c f).rrQueue = s.rrQueue := rfl
@[simp] theorem modCtx_ctxres : (s.modCtx c f).ctxres = s.ctxres := rfl
@[simp] theorem modCtx_ctxresStatus : (s.modCtx c f).ctxresStatus = s.ctxresStatus := rfl
@[simp] theorem modCtx_erbase : (s.modCtx c f).erbase = s.erbase := rfl
@[simp] theorem modCtx_erNext : (s.modCtx c f).erNext = s.erNext := rfl
@[simp] theorem modCtx_cmove : (s.modCtx c f).cmove = s.cmove := rfl
@[simp] theorem modCtx_hostwin : (s.modCtx c f).hostwin = s.hostwin := rfl
@[simp] theorem modCtx_devid : (s.modCtx c f).devid = s.devid := rfl
@[simp] theorem modCtx_pexp : (s.modCtx c f).pexp = s.pexp := rfl
@[simp] theorem modCtx_stage : (s.modCtx c f).stage = s.stage := rfl
@[simp] theorem modCtx_hostTrained : (s.modCtx c f).hostTrained = s.hostTrained := rfl
@[simp] theorem modCtx_tested : (s.modCtx c f).tested = s.tested := rfl
@[simp] theorem modCtx_slewHold : (s.modCtx c f).slewHold = s.slewHold := rfl
@[simp] theorem modCtx_slewLeft : (s.modCtx c f).slewLeft = s.slewLeft := rfl
@[simp] theorem modCtx_slewBudget : (s.modCtx c f).slewBudget = s.slewBudget := rfl
@[simp] theorem modCtx_links : (s.modCtx c f).links = s.links := rfl
@[simp] theorem modCtx_routes : (s.modCtx c f).routes = s.routes := rfl
@[simp] theorem modCtx_peers : (s.modCtx c f).peers = s.peers := rfl
@[simp] theorem modCtx_mailbox : (s.modCtx c f).mailbox = s.mailbox := rfl
@[simp] theorem modCtx_mailboxLost : (s.modCtx c f).mailboxLost = s.mailboxLost := rfl
@[simp] theorem modCtx_machineErrors : (s.modCtx c f).machineErrors = s.machineErrors := rfl
@[simp] theorem modCtx_replies : (s.modCtx c f).replies = s.replies := rfl
@[simp] theorem modCtx_farOut : (s.modCtx c f).farOut = s.farOut := rfl
@[simp] theorem modCtx_failedCols : (s.modCtx c f).failedCols = s.failedCols := rfl
@[simp] theorem modCtx_mapVersion : (s.modCtx c f).mapVersion = s.mapVersion := rfl
@[simp] theorem modCtx_backInvals : (s.modCtx c f).backInvals = s.backInvals := rfl
@[simp] theorem modCtx_invalAcked : (s.modCtx c f).invalAcked = s.invalAcked := rfl
@[simp] theorem modCtx_invals : (s.modCtx c f).invals = s.invals := rfl
@[simp] theorem modCtx_invalDone : (s.modCtx c f).invalDone = s.invalDone := rfl
@[simp] theorem modCtx_announce : (s.modCtx c f).announce = s.announce := rfl
@[simp] theorem modCtx_placed : (s.modCtx c f).placed = s.placed := rfl
@[simp] theorem modCtx_window : (s.modCtx c f).window = s.window := rfl
@[simp] theorem modCtx_horizonReports : (s.modCtx c f).horizonReports = s.horizonReports := rfl
@[simp] theorem modCtx_nodeLines : (s.modCtx c f).nodeLines = s.nodeLines := rfl
@[simp] theorem modCtx_netMarks : (s.modCtx c f).netMarks = s.netMarks := rfl
@[simp] theorem modCtx_cyc : (s.modCtx c f).cyc = s.cyc := rfl
@[simp] theorem modCtx_tick : (s.modCtx c f).tick = s.tick := rfl
@[simp] theorem modCtx_focus : (s.modCtx c f).focus = s.focus := rfl
@[simp] theorem modCtx_ir : (s.modCtx c f).ir = s.ir := rfl
@[simp] theorem modCtx_nextId : (s.modCtx c f).nextId = s.nextId := rfl
@[simp] theorem modCtx_sched : (s.modCtx c f).sched = s.sched := rfl
@[simp] theorem modCtx_pending : (s.modCtx c f).pending = s.pending := rfl

end

/-! ### modHive -/

section

variable (h : Nat) (f : Hive → Hive)

@[simp] theorem modHive_mem : (s.modHive h f).mem = s.mem := rfl
@[simp] theorem modHive_lineTags : (s.modHive h f).lineTags = s.lineTags := rfl
@[simp] theorem modHive_tasks : (s.modHive h f).tasks = s.tasks := rfl
@[simp] theorem modHive_cores : (s.modHive h f).cores = s.cores := rfl
@[simp] theorem modHive_spaces : (s.modHive h f).spaces = s.spaces := rfl
@[simp] theorem modHive_coreCtxs : (s.modHive h f).coreCtxs = s.coreCtxs := rfl
@[simp] theorem modHive_ctxs : (s.modHive h f).ctxs = s.ctxs := rfl
@[simp] theorem modHive_hives : (s.modHive h f).hives = Tab.set .idle s.hives h (f (s.hive h)) := rfl
@[simp] theorem modHive_saved : (s.modHive h f).saved = s.saved := rfl
@[simp] theorem modHive_ret : (s.modHive h f).ret = s.ret := rfl
@[simp] theorem modHive_sset : (s.modHive h f).sset = s.sset := rfl
@[simp] theorem modHive_hbm : (s.modHive h f).hbm = s.hbm := rfl
@[simp] theorem modHive_mapCopies : (s.modHive h f).mapCopies = s.mapCopies := rfl
@[simp] theorem modHive_outstanding : (s.modHive h f).outstanding = s.outstanding := rfl
@[simp] theorem modHive_qtbase : (s.modHive h f).qtbase = s.qtbase := rfl
@[simp] theorem modHive_queues : (s.modHive h f).queues = s.queues := rfl
@[simp] theorem modHive_flights : (s.modHive h f).flights = s.flights := rfl
@[simp] theorem modHive_regionUse : (s.modHive h f).regionUse = s.regionUse := rfl
@[simp] theorem modHive_rrQueue : (s.modHive h f).rrQueue = s.rrQueue := rfl
@[simp] theorem modHive_ctxres : (s.modHive h f).ctxres = s.ctxres := rfl
@[simp] theorem modHive_ctxresStatus : (s.modHive h f).ctxresStatus = s.ctxresStatus := rfl
@[simp] theorem modHive_erbase : (s.modHive h f).erbase = s.erbase := rfl
@[simp] theorem modHive_erNext : (s.modHive h f).erNext = s.erNext := rfl
@[simp] theorem modHive_cmove : (s.modHive h f).cmove = s.cmove := rfl
@[simp] theorem modHive_hostwin : (s.modHive h f).hostwin = s.hostwin := rfl
@[simp] theorem modHive_devid : (s.modHive h f).devid = s.devid := rfl
@[simp] theorem modHive_pexp : (s.modHive h f).pexp = s.pexp := rfl
@[simp] theorem modHive_stage : (s.modHive h f).stage = s.stage := rfl
@[simp] theorem modHive_hostTrained : (s.modHive h f).hostTrained = s.hostTrained := rfl
@[simp] theorem modHive_tested : (s.modHive h f).tested = s.tested := rfl
@[simp] theorem modHive_slewHold : (s.modHive h f).slewHold = s.slewHold := rfl
@[simp] theorem modHive_slewLeft : (s.modHive h f).slewLeft = s.slewLeft := rfl
@[simp] theorem modHive_slewBudget : (s.modHive h f).slewBudget = s.slewBudget := rfl
@[simp] theorem modHive_links : (s.modHive h f).links = s.links := rfl
@[simp] theorem modHive_routes : (s.modHive h f).routes = s.routes := rfl
@[simp] theorem modHive_peers : (s.modHive h f).peers = s.peers := rfl
@[simp] theorem modHive_mailbox : (s.modHive h f).mailbox = s.mailbox := rfl
@[simp] theorem modHive_mailboxLost : (s.modHive h f).mailboxLost = s.mailboxLost := rfl
@[simp] theorem modHive_machineErrors : (s.modHive h f).machineErrors = s.machineErrors := rfl
@[simp] theorem modHive_replies : (s.modHive h f).replies = s.replies := rfl
@[simp] theorem modHive_farOut : (s.modHive h f).farOut = s.farOut := rfl
@[simp] theorem modHive_failedCols : (s.modHive h f).failedCols = s.failedCols := rfl
@[simp] theorem modHive_mapVersion : (s.modHive h f).mapVersion = s.mapVersion := rfl
@[simp] theorem modHive_backInvals : (s.modHive h f).backInvals = s.backInvals := rfl
@[simp] theorem modHive_invalAcked : (s.modHive h f).invalAcked = s.invalAcked := rfl
@[simp] theorem modHive_invals : (s.modHive h f).invals = s.invals := rfl
@[simp] theorem modHive_invalDone : (s.modHive h f).invalDone = s.invalDone := rfl
@[simp] theorem modHive_announce : (s.modHive h f).announce = s.announce := rfl
@[simp] theorem modHive_placed : (s.modHive h f).placed = s.placed := rfl
@[simp] theorem modHive_window : (s.modHive h f).window = s.window := rfl
@[simp] theorem modHive_horizonReports : (s.modHive h f).horizonReports = s.horizonReports := rfl
@[simp] theorem modHive_nodeLines : (s.modHive h f).nodeLines = s.nodeLines := rfl
@[simp] theorem modHive_netMarks : (s.modHive h f).netMarks = s.netMarks := rfl
@[simp] theorem modHive_cyc : (s.modHive h f).cyc = s.cyc := rfl
@[simp] theorem modHive_tick : (s.modHive h f).tick = s.tick := rfl
@[simp] theorem modHive_focus : (s.modHive h f).focus = s.focus := rfl
@[simp] theorem modHive_ir : (s.modHive h f).ir = s.ir := rfl
@[simp] theorem modHive_nextId : (s.modHive h f).nextId = s.nextId := rfl
@[simp] theorem modHive_sched : (s.modHive h f).sched = s.sched := rfl
@[simp] theorem modHive_pending : (s.modHive h f).pending = s.pending := rfl

end

/-! ### modStack -/

section

variable (n : Nat) (f : Stack → Stack)

@[simp] theorem modStack_mem : (s.modStack n f).mem = s.mem := rfl
@[simp] theorem modStack_lineTags : (s.modStack n f).lineTags = s.lineTags := rfl
@[simp] theorem modStack_tasks : (s.modStack n f).tasks = s.tasks := rfl
@[simp] theorem modStack_cores : (s.modStack n f).cores = s.cores := rfl
@[simp] theorem modStack_spaces : (s.modStack n f).spaces = s.spaces := rfl
@[simp] theorem modStack_coreCtxs : (s.modStack n f).coreCtxs = s.coreCtxs := rfl
@[simp] theorem modStack_ctxs : (s.modStack n f).ctxs = s.ctxs := rfl
@[simp] theorem modStack_hives : (s.modStack n f).hives = s.hives := rfl
@[simp] theorem modStack_saved : (s.modStack n f).saved = s.saved := rfl
@[simp] theorem modStack_ret : (s.modStack n f).ret = s.ret := rfl
@[simp] theorem modStack_sset : (s.modStack n f).sset = s.sset := rfl
@[simp] theorem modStack_hbm : (s.modStack n f).hbm = Tab.set .off s.hbm n (f (s.stack n)) := rfl
@[simp] theorem modStack_mapCopies : (s.modStack n f).mapCopies = s.mapCopies := rfl
@[simp] theorem modStack_outstanding : (s.modStack n f).outstanding = s.outstanding := rfl
@[simp] theorem modStack_qtbase : (s.modStack n f).qtbase = s.qtbase := rfl
@[simp] theorem modStack_queues : (s.modStack n f).queues = s.queues := rfl
@[simp] theorem modStack_flights : (s.modStack n f).flights = s.flights := rfl
@[simp] theorem modStack_regionUse : (s.modStack n f).regionUse = s.regionUse := rfl
@[simp] theorem modStack_rrQueue : (s.modStack n f).rrQueue = s.rrQueue := rfl
@[simp] theorem modStack_ctxres : (s.modStack n f).ctxres = s.ctxres := rfl
@[simp] theorem modStack_ctxresStatus : (s.modStack n f).ctxresStatus = s.ctxresStatus := rfl
@[simp] theorem modStack_erbase : (s.modStack n f).erbase = s.erbase := rfl
@[simp] theorem modStack_erNext : (s.modStack n f).erNext = s.erNext := rfl
@[simp] theorem modStack_cmove : (s.modStack n f).cmove = s.cmove := rfl
@[simp] theorem modStack_hostwin : (s.modStack n f).hostwin = s.hostwin := rfl
@[simp] theorem modStack_devid : (s.modStack n f).devid = s.devid := rfl
@[simp] theorem modStack_pexp : (s.modStack n f).pexp = s.pexp := rfl
@[simp] theorem modStack_stage : (s.modStack n f).stage = s.stage := rfl
@[simp] theorem modStack_hostTrained : (s.modStack n f).hostTrained = s.hostTrained := rfl
@[simp] theorem modStack_tested : (s.modStack n f).tested = s.tested := rfl
@[simp] theorem modStack_slewHold : (s.modStack n f).slewHold = s.slewHold := rfl
@[simp] theorem modStack_slewLeft : (s.modStack n f).slewLeft = s.slewLeft := rfl
@[simp] theorem modStack_slewBudget : (s.modStack n f).slewBudget = s.slewBudget := rfl
@[simp] theorem modStack_links : (s.modStack n f).links = s.links := rfl
@[simp] theorem modStack_routes : (s.modStack n f).routes = s.routes := rfl
@[simp] theorem modStack_peers : (s.modStack n f).peers = s.peers := rfl
@[simp] theorem modStack_mailbox : (s.modStack n f).mailbox = s.mailbox := rfl
@[simp] theorem modStack_mailboxLost : (s.modStack n f).mailboxLost = s.mailboxLost := rfl
@[simp] theorem modStack_machineErrors : (s.modStack n f).machineErrors = s.machineErrors := rfl
@[simp] theorem modStack_replies : (s.modStack n f).replies = s.replies := rfl
@[simp] theorem modStack_farOut : (s.modStack n f).farOut = s.farOut := rfl
@[simp] theorem modStack_failedCols : (s.modStack n f).failedCols = s.failedCols := rfl
@[simp] theorem modStack_mapVersion : (s.modStack n f).mapVersion = s.mapVersion := rfl
@[simp] theorem modStack_backInvals : (s.modStack n f).backInvals = s.backInvals := rfl
@[simp] theorem modStack_invalAcked : (s.modStack n f).invalAcked = s.invalAcked := rfl
@[simp] theorem modStack_invals : (s.modStack n f).invals = s.invals := rfl
@[simp] theorem modStack_invalDone : (s.modStack n f).invalDone = s.invalDone := rfl
@[simp] theorem modStack_announce : (s.modStack n f).announce = s.announce := rfl
@[simp] theorem modStack_placed : (s.modStack n f).placed = s.placed := rfl
@[simp] theorem modStack_window : (s.modStack n f).window = s.window := rfl
@[simp] theorem modStack_horizonReports : (s.modStack n f).horizonReports = s.horizonReports := rfl
@[simp] theorem modStack_nodeLines : (s.modStack n f).nodeLines = s.nodeLines := rfl
@[simp] theorem modStack_netMarks : (s.modStack n f).netMarks = s.netMarks := rfl
@[simp] theorem modStack_cyc : (s.modStack n f).cyc = s.cyc := rfl
@[simp] theorem modStack_tick : (s.modStack n f).tick = s.tick := rfl
@[simp] theorem modStack_focus : (s.modStack n f).focus = s.focus := rfl
@[simp] theorem modStack_ir : (s.modStack n f).ir = s.ir := rfl
@[simp] theorem modStack_nextId : (s.modStack n f).nextId = s.nextId := rfl
@[simp] theorem modStack_sched : (s.modStack n f).sched = s.sched := rfl
@[simp] theorem modStack_pending : (s.modStack n f).pending = s.pending := rfl

end

/-! ### push -/

section

variable (e : Event)

@[simp] theorem push_mem : (s.push e).mem = s.mem := rfl
@[simp] theorem push_lineTags : (s.push e).lineTags = s.lineTags := rfl
@[simp] theorem push_tasks : (s.push e).tasks = s.tasks := rfl
@[simp] theorem push_cores : (s.push e).cores = s.cores := rfl
@[simp] theorem push_spaces : (s.push e).spaces = s.spaces := rfl
@[simp] theorem push_coreCtxs : (s.push e).coreCtxs = s.coreCtxs := rfl
@[simp] theorem push_ctxs : (s.push e).ctxs = s.ctxs := rfl
@[simp] theorem push_hives : (s.push e).hives = s.hives := rfl
@[simp] theorem push_saved : (s.push e).saved = s.saved := rfl
@[simp] theorem push_ret : (s.push e).ret = s.ret := rfl
@[simp] theorem push_sset : (s.push e).sset = s.sset := rfl
@[simp] theorem push_hbm : (s.push e).hbm = s.hbm := rfl
@[simp] theorem push_mapCopies : (s.push e).mapCopies = s.mapCopies := rfl
@[simp] theorem push_outstanding : (s.push e).outstanding = s.outstanding := rfl
@[simp] theorem push_qtbase : (s.push e).qtbase = s.qtbase := rfl
@[simp] theorem push_queues : (s.push e).queues = s.queues := rfl
@[simp] theorem push_flights : (s.push e).flights = s.flights := rfl
@[simp] theorem push_regionUse : (s.push e).regionUse = s.regionUse := rfl
@[simp] theorem push_rrQueue : (s.push e).rrQueue = s.rrQueue := rfl
@[simp] theorem push_ctxres : (s.push e).ctxres = s.ctxres := rfl
@[simp] theorem push_ctxresStatus : (s.push e).ctxresStatus = s.ctxresStatus := rfl
@[simp] theorem push_erbase : (s.push e).erbase = s.erbase := rfl
@[simp] theorem push_erNext : (s.push e).erNext = s.erNext := rfl
@[simp] theorem push_cmove : (s.push e).cmove = s.cmove := rfl
@[simp] theorem push_hostwin : (s.push e).hostwin = s.hostwin := rfl
@[simp] theorem push_devid : (s.push e).devid = s.devid := rfl
@[simp] theorem push_pexp : (s.push e).pexp = s.pexp := rfl
@[simp] theorem push_stage : (s.push e).stage = s.stage := rfl
@[simp] theorem push_hostTrained : (s.push e).hostTrained = s.hostTrained := rfl
@[simp] theorem push_tested : (s.push e).tested = s.tested := rfl
@[simp] theorem push_slewHold : (s.push e).slewHold = s.slewHold := rfl
@[simp] theorem push_slewLeft : (s.push e).slewLeft = s.slewLeft := rfl
@[simp] theorem push_slewBudget : (s.push e).slewBudget = s.slewBudget := rfl
@[simp] theorem push_links : (s.push e).links = s.links := rfl
@[simp] theorem push_routes : (s.push e).routes = s.routes := rfl
@[simp] theorem push_peers : (s.push e).peers = s.peers := rfl
@[simp] theorem push_mailbox : (s.push e).mailbox = s.mailbox := rfl
@[simp] theorem push_mailboxLost : (s.push e).mailboxLost = s.mailboxLost := rfl
@[simp] theorem push_machineErrors : (s.push e).machineErrors = s.machineErrors := rfl
@[simp] theorem push_replies : (s.push e).replies = s.replies := rfl
@[simp] theorem push_farOut : (s.push e).farOut = s.farOut := rfl
@[simp] theorem push_failedCols : (s.push e).failedCols = s.failedCols := rfl
@[simp] theorem push_mapVersion : (s.push e).mapVersion = s.mapVersion := rfl
@[simp] theorem push_backInvals : (s.push e).backInvals = s.backInvals := rfl
@[simp] theorem push_invalAcked : (s.push e).invalAcked = s.invalAcked := rfl
@[simp] theorem push_invals : (s.push e).invals = s.invals := rfl
@[simp] theorem push_invalDone : (s.push e).invalDone = s.invalDone := rfl
@[simp] theorem push_announce : (s.push e).announce = s.announce := rfl
@[simp] theorem push_placed : (s.push e).placed = s.placed := rfl
@[simp] theorem push_window : (s.push e).window = s.window := rfl
@[simp] theorem push_horizonReports : (s.push e).horizonReports = s.horizonReports := rfl
@[simp] theorem push_nodeLines : (s.push e).nodeLines = s.nodeLines := rfl
@[simp] theorem push_netMarks : (s.push e).netMarks = s.netMarks := rfl
@[simp] theorem push_cyc : (s.push e).cyc = s.cyc := rfl
@[simp] theorem push_tick : (s.push e).tick = s.tick := rfl
@[simp] theorem push_focus : (s.push e).focus = s.focus := rfl
@[simp] theorem push_ir : (s.push e).ir = s.ir := rfl
@[simp] theorem push_nextId : (s.push e).nextId = s.nextId := rfl
@[simp] theorem push_sched : (s.push e).sched = s.sched := rfl
@[simp] theorem push_pending : (s.push e).pending = s.pending ++ [e] := rfl

end

end Sys2Proof.Machine.State
end

