-- ==== Sys2Proof/Laws/Words.lean ====
section
/-! SUPPORT. Running words: how a composed meaning runs, what the shared operations of an instruction word answer, and how
a word that reaches its end retires. -/

namespace Sys2Proof.Machine

theorem gives_pure {α : Type} (a : α) (s : State) : Gives (pure a) s a s := rfl

theorem Gives.bind {α β : Type} {m : W α} {f : α → W β} {s s' t : State} {a : α} {b : β} (h : Gives m s a s')
    (hf : Gives (f a) s' b t) : Gives (m >>= f) s b t := by
  unfold Gives at *
  simp only [StateT.run_bind, h]
  exact hf

theorem gives_get (s : State) : Gives (get : W State) s s s := rfl
theorem gives_set (s t : State) : Gives (set t : W PUnit) s ⟨⟩ t := rfl
theorem gives_modify (s : State) (f : State → State) : Gives (modify f : W PUnit) s ⟨⟩ (f s) := rfl

/-- An exit ends what follows it. -/
theorem exit_bind {α β : Type} (e : Exit) (f : α → W β) (s : State) : ((exit e : W α) >>= f).run s = .error e := rfl

theorem gives_curKey {s : State} {k : Nat} (h : s.current = some k) : Gives curKey s k s := by
  simp [Gives, curKey, h]; rfl

theorem gives_curCore (s : State) : Gives curCore s s.focus s := rfl

theorem gives_curTask {s : State} {k : Nat} (h : s.current = some k) : Gives curTask s (s.task k) s := by
  simp [Gives, curTask, curKey, h]; rfl

theorem gives_modCur {s : State} {k : Nat} (h : s.current = some k) (f : Task → Task) :
    Gives (modCur f) s () (s.modTask k f) := by
  simp [Gives, modCur, curKey, h]; rfl

/-- Writing a task leaves the running task where it is. -/
@[simp] theorem current_setTask (s : State) (k : Nat) (t : Task) : (s.setTask k t).current = s.current := rfl

/-! ### What a composed meaning that answers has done -/

theorem gives_bind_iff {α β : Type} {m : W α} {f : α → W β} {s t : State} {b : β} :
    Gives (m >>= f) s b t ↔ ∃ a s', Gives m s a s' ∧ Gives (f a) s' b t := by
  constructor
  · intro h
    unfold Gives at h ⊢
    rw [StateT.run_bind] at h
    cases hm : m.run s with
    | error e => rw [hm] at h; cases h
    | ok p => exact ⟨p.1, p.2, rfl, by rw [hm] at h; exact h⟩
  · rintro ⟨a, s', h1, h2⟩
    exact h1.bind h2

@[simp] theorem gives_pure_iff {α : Type} {a b : α} {s t : State} : Gives (pure a) s b t ↔ a = b ∧ s = t := by
  simp [Gives, pure, StateT.pure, Except.pure, StateT.run]

@[simp] theorem gives_get_iff {s a t : State} : Gives (get : W State) s a t ↔ a = s ∧ t = s := by
  simp [Gives, get, getThe, MonadStateOf.get, StateT.get, pure, Except.pure, StateT.run, eq_comm]

@[simp] theorem gives_set_iff {u s t : State} : Gives (set u : W PUnit) s ⟨⟩ t ↔ t = u := by
  simp [Gives, set, StateT.set, pure, Except.pure, StateT.run, eq_comm]

@[simp] theorem gives_modify_iff {f : State → State} {s t : State} :
    Gives (modify f : W PUnit) s ⟨⟩ t ↔ t = f s := by
  simp [Gives, modify, modifyGet, MonadStateOf.modifyGet, StateT.modifyGet, pure, Except.pure, StateT.run, eq_comm]

@[simp] theorem gives_exit_iff {α : Type} {e : Exit} {s t : State} {a : α} : Gives (exit e : W α) s a t ↔ False := by
  simp [Gives, exit, throw, throwThe, MonadExceptOf.throw, StateT.lift, StateT.run]

@[simp] theorem gives_trap_iff {α : Type} {c d : Nat} {l : List Word} {s t : State} {a : α} :
    Gives (trap c d l : W α) s a t ↔ False := gives_exit_iff

theorem gives_curTask_iff {s t : State} {k : Nat} (h : s.current = some k) {a : Task} :
    Gives curTask s a t ↔ a = s.task k ∧ t = s := by
  constructor
  · intro g; rw [Gives, gives_curTask h] at g; cases g; exact ⟨rfl, rfl⟩
  · rintro ⟨rfl, rfl⟩; exact gives_curTask h

theorem gives_modCur_iff {s t : State} {k : Nat} (h : s.current = some k) {f : Task → Task} :
    Gives (modCur f) s () t ↔ t = s.modTask k f := by
  constructor
  · intro g; rw [Gives, gives_modCur h] at g; cases g; rfl
  · rintro rfl; exact gives_modCur h f

/-! ### Registers and queues -/

theorem gives_checkSched {s t : State} {k n : Nat} (h : s.current = some k) :
    Gives (checkSched n) s () t ↔ t = s ∧ ∀ e ∈ (s.task k).sched, e.reg ≠ n := by
  unfold checkSched
  simp only [gives_bind_iff, gives_curTask_iff h]
  constructor
  · rintro ⟨a, s', ⟨rfl, rfl⟩, h2⟩
    split at h2
    · simp at h2
    · rename_i hn
      simp only [gives_pure_iff, true_and] at h2
      exact ⟨h2.symm, by simpa [List.find?_eq_none] using hn⟩
  · rintro ⟨rfl, hn⟩
    refine ⟨_, _, ⟨rfl, rfl⟩, ?_⟩
    split
    · rename_i e he
      exact absurd (by simpa using List.find?_some he) (hn e (List.mem_of_find?_eq_some he))
    · simp

/-- Reading a register changes nothing: g0 reads zero, another its value, when no latency forbids it. -/
theorem gives_readG {s t : State} {k n : Nat} (h : s.current = some k) {w : Tagged} :
    Gives (readG n) s w t ↔
      t = s ∧ (n = 0 ∧ w = zeroT ∨ n ≠ 0 ∧ w = (s.task k).reg n ∧ ∀ e ∈ (s.task k).sched, e.reg ≠ n) := by
  unfold readG
  by_cases hn : n = 0
  · simp [hn, eq_comm, and_comm]
  · simp only [hn, if_false, gives_bind_iff, gives_checkSched h]
    constructor
    · rintro ⟨-, s', ⟨rfl, h1⟩, a, s'', h2, h3⟩
      obtain ⟨rfl, rfl⟩ := (gives_curTask_iff h).1 h2
      simp only [gives_pure_iff] at h3
      exact ⟨h3.2.symm, .inr ⟨hn, h3.1.symm, h1⟩⟩
    · rintro ⟨rfl, ⟨h0, -⟩ | ⟨-, rfl, h1⟩⟩
      · exact absurd h0 (by simp)
      · exact ⟨(), _, ⟨rfl, h1⟩, _, _, gives_curTask h, by simp⟩

/-- Writing a register changes the running task alone: g0 discards, another takes the value and its latency. -/
theorem gives_writeG {s t : State} {k n lat : Nat} (h : s.current = some k) {w : Tagged} :
    Gives (writeG n w lat) s () t ↔
      (n = 0 ∧ t = s) ∨ (n ≠ 0 ∧ (∀ e ∈ (s.task k).sched, e.reg ≠ n) ∧
        t = s.modTask k (fun x =>
          if lat ≤ 1 then x.setReg n w
          else { x.setReg n w with sched := { reg := n, left := lat, pc := (x.setReg n w).pc } :: (x.setReg n w).sched })) := by
  unfold writeG
  by_cases hn : n = 0
  · simp [hn, eq_comm]
  · simp only [hn, if_false, gives_bind_iff, gives_checkSched h]
    constructor
    · rintro ⟨-, s', ⟨rfl, h1⟩, h2⟩
      exact .inr ⟨hn, h1, (gives_modCur_iff h).1 h2⟩
    · rintro (⟨h0, -⟩ | ⟨-, h1, h2⟩)
      · exact absurd h0 (by simp)
      · exact ⟨(), s, ⟨rfl, h1⟩, (gives_modCur_iff h).2 h2⟩

/-- Pushing a queue register changes the running task alone: the word goes to the end of at most four, at once or after its
latency. -/
theorem gives_pushQueue {s t : State} {k i lat : Nat} (h : s.current = some k) {w : Tagged} :
    Gives (pushQueue i w lat) s () t ↔
      ((s.task k).queue i).length + (s.task k).lateIn i < 4 ∧
        t = if lat ≤ 1 then s.modTask k (fun x => x.setQueue i ((s.task k).queue i ++ [.word w]))
          else s.modTask k (fun x => { x with late := x.late ++ [{ left := lat, dest := .queue i w }] }) := by
  unfold pushQueue
  simp only [gives_bind_iff, gives_curTask_iff h]
  constructor
  · rintro ⟨a, s', ⟨rfl, rfl⟩, h2⟩
    split at h2
    · simp [queueFault, gives_bind_iff] at h2
    · refine ⟨by omega, ?_⟩
      split at h2
      · rw [if_pos ‹_›]; exact (gives_modCur_iff h).1 h2
      · rw [if_neg ‹_›]; exact (gives_modCur_iff h).1 h2
  · rintro ⟨h1, h2⟩
    refine ⟨_, _, ⟨rfl, rfl⟩, ?_⟩
    rw [if_neg (by omega)]
    split at h2
    · rw [if_pos ‹_›]; exact (gives_modCur_iff h).2 h2
    · rw [if_neg ‹_›]; exact (gives_modCur_iff h).2 h2

/-- Popping a queue or result FIFO takes the word at its front. -/
theorem gives_popQueue {s t : State} {k i : Nat} (h : s.current = some k) {w : Tagged} :
    Gives (popQueue i) s w t ↔
      ∃ rest, (s.task k).queue i = .word w :: rest ∧ t = s.modTask k (fun x => x.setQueue i rest) := by
  unfold popQueue
  simp only [gives_bind_iff, gives_curTask_iff h]
  constructor
  · rintro ⟨a, s', ⟨rfl, rfl⟩, h2⟩
    split at h2
    · rename_i v rest hq
      simp only [gives_bind_iff, gives_pure_iff] at h2
      obtain ⟨_, s2, h3, rfl, rfl⟩ := h2
      exact ⟨rest, hq, (gives_modCur_iff h).1 h3⟩
    · split at h2 <;> simp at h2
    · simp at h2
    · simp only [gives_bind_iff, gives_get_iff] at h2
      obtain ⟨_, _, ⟨rfl, rfl⟩, k', _, -, h4⟩ := h2
      split at h4
      · exact absurd h4 (by simp [gives_bind_iff])
      · split at h4 <;> simp [queueFault] at h4
  · rintro ⟨rest, hq, ht⟩
    refine ⟨_, _, ⟨rfl, rfl⟩, ?_⟩
    rw [hq]
    exact ((gives_modCur_iff h).2 ht).bind (gives_pure _ _)

/-! ### How a word ends -/

/-- A word of a running task always answers a next state: what its meaning leaves, or what its exit makes of the state. -/
theorem runFrame_next {control : Bool} {m : W Unit} {s : State} {k : Nat} (h : s.current = some k) :
    ∃ t, runFrame control m s = .next t ∧
      (∃ s', Gives m s () s' ∧ t = s'.cycle ∨ ∃ e, m.run s = .error e ∧ t = (s.finish k control e).cycle) := by
  unfold runFrame
  simp only [h]
  cases hm : m.run s with
  | ok p => exact ⟨_, rfl, p.2, .inl ⟨hm, rfl⟩⟩
  | error e => exact ⟨_, rfl, s, .inr ⟨e, rfl, rfl⟩⟩

/-- Only a word with no running task faults. -/
theorem runFrame_fault {control : Bool} {m : W Unit} {s : State} (h : s.current = none) :
    runFrame control m s = .fault .noRunningTask := by
  unfold runFrame; simp [h]

/-- A word whose meaning answers leaves what it answers. -/
theorem runFrame_gives {control : Bool} {m : W Unit} {s s' : State} {k : Nat} (h : s.current = some k)
    (hm : Gives m s () s') : runFrame control m s = .next s'.cycle := by
  unfold runFrame; simp only [h]; rw [show m.run s = _ from hm]

theorem gives_counted {s : State} {k : Nat} (h : s.current = some k) (t : Task) :
    Gives (counted t) s () (s.countWord (k / 8) t) :=
  (gives_curKey h).bind (gives_modify s fun s => s.countWord (k / 8) t)

/-- Late results leave the running task where it is. -/
theorem current_arriveLate (s : State) (k : Nat) (l : LateTo) : (s.arriveLate k l).current = s.current := by
  cases l <;> simp [State.arriveLate, State.current, State.core]

theorem current_arrivals (k : Nat) (l : List Late) (s : State) :
    (l.foldl (fun s x => s.arriveLate k x.dest) s).current = s.current := by
  induction l generalizing s with
  | nil => rfl
  | cons x l ih => rw [List.foldl_cons, ih, current_arriveLate]

theorem current_stepLate (s : State) (k : Nat) : (s.stepLate k).current = s.current := by
  unfold State.stepLate
  simp only
  split
  · rfl
  · rw [current_arrivals]; exact current_setTask s k _

theorem gives_retire {control : Bool} {c : Ctl} {s : State} {k : Nat} (h : s.current = some k) (hc : c ≠ .stay) :
    ∃ s', Gives (retire control c) s () s' ∧ s'.cycle = retired control c k s := by
  cases c with
  | stay => exact absurd rfl hc
  | next =>
    exact ⟨_, (gives_get s).bind ((gives_curKey h).bind ((gives_set _ _).bind
      (gives_counted (by rw [current_stepLate, current_setTask]; exact h) _))), rfl⟩
  | jump pc =>
    exact ⟨_, (gives_get s).bind ((gives_curKey h).bind ((gives_set _ _).bind
      (gives_counted (by rw [current_stepLate, current_setTask]; exact h) _))), rfl⟩

/-- A word that may start, whose meaning answers and leaves the task running, retires. -/
theorem runWord_retires {control : Bool} {m : W Ctl} {c : Ctl} {s s' : State} {k : Nat} (h : Starts control s k)
    (hm : Gives m s c s') (hr : s'.current = some k) (hc : c ≠ .stay) :
    runWord control m s = .next (retired control c k s') := by
  obtain ⟨t, h1, h2⟩ := gives_retire (control := control) hr hc
  rw [← h2]
  exact runFrame_gives h.1 (h.2.bind (hm.bind h1))

/-- A plain word that may start, whose meaning answers and leaves the task running, retires. -/
theorem plain_retires {m : W Unit} {s s' : State} {k : Nat} (h : Starts false s k) (hm : Gives m s () s')
    (hr : s'.current = some k) : plain m s = .next (retired false .next k s') :=
  runWord_retires h (hm.bind (gives_pure Ctl.next s')) hr (by simp)

end Sys2Proof.Machine
end

