-- ==== Sys2Proof/Tests/Slice0.lean ====
section
/-! SUPPORT. Tests: ill-formed terms, words written out from the spec's encoding, and for each statement concrete states that meet
its hypotheses, clause by clause. -/

namespace Sys2Proof.Tests

open Sys2Proof Sys2Proof.Machine Sys2Proof.Claims

set_option Elab.async false
set_option synthInstance.maxSize 2000
set_option synthInstance.maxHeartbeats 400000

/-! ### Small states -/

/-- Core 0 runs a supervisor task of context 0 that is about to run `w`, with the g registers `rs`. -/
def at0 (w : Nat) (rs : List (Nat × Nat)) : State :=
  ({ State.reset.load w with ir := w, sched := [] } : State).modTask 0 (fun t =>
    { t with g := rs.map (fun p => (p.1, { v := BitVec.ofNat 64 p.2, tag := 0 })) })

/-- The same in user mode. -/
def user0 (w : Nat) (rs : List (Nat × Nat)) : State := (at0 w rs).modTask 0 (fun t => { t with super := false })

/-- The state that a piece of a word leaves. -/
def after {α : Type} (m : W α) (s : State) : State :=
  match m.run s with
  | .ok (_, t) => t
  | .error _ => s

/-- Whether an outcome is a given next state, the chip clock aside: how far a word moves that is a free value (log 4). -/
def nextIs (r : Host.Outcome State Fault Refusal) (t : State) : Bool :=
  match r with
  | .next u => decide (({ u with cyc := 0 } : State) = ({ t with cyc := 0 } : State))
  | _ => false

/-- An operand without poison. -/
def val (n : Nat) : Tagged := { v := BitVec.ofNat 64 n, tag := 0 }


/-! ### Words written out from the spec's encodings -/

/-- Every word of the list decodes to the instruction beside it. -/
abbrev decodesAll (l : List (Nat × Instr)) : Prop := l.map (fun p => decode p.1) = l.map (fun p => .ok p.2)

/-- Words of the integer family, written from the spec's encoding (R140 to R149), and what they stand for. -/
noncomputable def integerWords : List (Nat × Instr) :=
  [(0x010860B160100000, .mul { d := .g 12, a := .g 11, b := .g 11, t := .i64 }),
    (0x010470D140100000, .sub { d := .g 14, a := .g 13, b := .g 10, t := .i64 }),
    (0x01024C80A00C0000, .add { d := .link .e, a := .link .n, b := .g 5, t := .i32 }),
    (0x01006CD000100000, .add { d := .g 13, a := .fifo .vres, b := .g 0, t := .i64 }),
    (0x010C60B140100000, .mulh { d := .g 12, a := .g 11, b := .g 10, t := .i64 }),
    (0x011460B140100000, .div { d := .g 12, a := .g 11, b := .g 10, t := .i64 }),
    (0x011C60B140100000, .rem { d := .g 12, a := .g 11, b := .g 10, t := .i64 }),
    (0x011060B140200000, .mulhn { d := .g 12, a := .g 11, b := .g 10, t := .n64 }),
    (0x011860B140200000, .divn { d := .g 12, a := .g 11, b := .g 10, t := .n64 }),
    (0x012060B140200000, .remn { d := .g 12, a := .g 11, b := .g 10, t := .n64 }),
    (0x020060B1401C0000, .and { d := .g 12, a := .g 11, b := .g 10, t := .n32 }),
    (0x020460B1401C0000, .or { d := .g 12, a := .g 11, b := .g 10, t := .n32 }),
    (0x020860B1401C0000, .xor { d := .g 12, a := .g 11, b := .g 10, t := .n32 }),
    (0x020C60B1401C0000, .andn { d := .g 12, a := .g 11, b := .g 10, t := .n32 }),
    (0x021060B1401C0000, .orn { d := .g 12, a := .g 11, b := .g 10, t := .n32 }),
    (0x030060B140080000, .shl { d := .g 12, a := .g 11, b := .g 10, t := .i16 }),
    (0x030460B140080000, .shr { d := .g 12, a := .g 11, b := .g 10, t := .i16 }),
    (0x030860B140080000, .sra { d := .g 12, a := .g 11, b := .g 10, t := .i16 }),
    (0x030C60B140080000, .rol { d := .g 12, a := .g 11, b := .g 10, t := .i16 }),
    (0x031060B140080000, .ror { d := .g 12, a := .g 11, b := .g 10, t := .i16 }),
    (0x040060B140040000, .min { d := .g 12, a := .g 11, b := .g 10, t := .i8 }),
    (0x040460B140040000, .max { d := .g 12, a := .g 11, b := .g 10, t := .i8 }),
    (0x040860B140140000, .minn { d := .g 12, a := .g 11, b := .g 10, t := .n8 }),
    (0x040C60B140140000, .maxn { d := .g 12, a := .g 11, b := .g 10, t := .n8 }),
    (0x04103890000C0000, .abs { d := .g 7, a := .g 9, t := .i32 }),
    (0x0500389000180000, .clz { d := .g 7, a := .g 9, t := .n16 }),
    (0x0504389000180000, .ctz { d := .g 7, a := .g 9, t := .n16 }),
    (0x0508389000180000, .popc { d := .g 7, a := .g 9, t := .n16 }),
    (0x050C082060100000, .bext { d := .g 1, a := .g 2, b := .g 3, t := .i64 }),
    (0x0510082061100000, .bins { d := .g 1, a := .g 2, b := .g 3, c := .g 4, t := .i64 }),
    (0x051603F000040000, .sext { d := .q 0, a := .g 63, t := .i8 }),
    (0x051A3D6000200000, .zext { d := .q 7, a := .special .irc, t := .n64 }),
    (0x060060B1400C0000, .seq { d := .g 12, a := .g 11, b := .g 10, t := .i32 }),
    (0x060460B1400C0000, .sne { d := .g 12, a := .g 11, b := .g 10, t := .i32 }),
    (0x060860B140100000, .slt { d := .g 12, a := .g 11, b := .g 10, t := .i64 }),
    (0x060C60B140100000, .sle { d := .g 12, a := .g 11, b := .g 10, t := .i64 }),
    (0x061060B140200000, .sltn { d := .g 12, a := .g 11, b := .g 10, t := .n64 }),
    (0x061460B140200000, .slen { d := .g 12, a := .g 11, b := .g 10, t := .n64 }),
    (0x061878F224800000, .sel (.g 15) (.g 15) (.g 17) (.g 18))]

/-- Words of the immediate family, written from the spec's encoding (R140 to R149), and what they stand for. -/
noncomputable def immediateWords : List (Nat × Instr) :=
  [(0x08003874FFFFFFF8, .addi { d := .g 7, a := .g 7, t := .i64, imm := 0xFFFFFFF8 }),
    (0x08006514FFFFFFFC, .addi { d := .g 12, a := .special .cid, t := .i64, imm := 0xFFFFFFFC }),
    (0x0900184800001234, .andi { d := .g 3, a := .g 4, t := .n64, imm := 0x1234 }),
    (0x0A00184800001234, .ori { d := .g 3, a := .g 4, t := .n64, imm := 0x1234 }),
    (0x0B00184800001234, .xori { d := .g 3, a := .g 4, t := .n64, imm := 0x1234 }),
    (0x0C00285400000006, .shli { d := .g 5, a := .g 5, t := .i64, imm := 6 }),
    (0x0D00284800000020, .shri { d := .g 5, a := .g 4, t := .n64, imm := 32 }),
    (0x0E0018430000001F, .srai { d := .g 3, a := .g 4, t := .i32, imm := 31 }),
    (0x0F00184200000005, .slti { d := .g 3, a := .g 4, t := .i16, imm := 5 }),
    (0x1000184600000005, .sltni { d := .g 3, a := .g 4, t := .n16, imm := 5 }),
    (0x1100480000012345, .li (.g 9) 0x12345),
    (0x12004880ABCD0123, .lih (.g 9) (.g 8) 0xABCD0123),
    (0x14002040A0000000, .padd (.g 4) (.g 4) (.g 5)),
    (0x1500E1C3A0000000, .pfmt (.g 28) (.g 28) (.g 29)),
    (0x1600184000000000, .pget (.g 3) (.g 4)),
    (0x1700184000000000, .pstrip (.g 3) (.g 4))]

/-- Words of the float family, written from the spec's encoding (R140 to R149), and what they stand for. -/
noncomputable def floatWords : List (Nat × Instr) :=
  [(0x20001840A02C0000, .fadd (.g 3) (.g 4) (.g 5)),
    (0x20041840A02C0000, .fsub (.g 3) (.g 4) (.g 5)),
    (0x20081840A02C0000, .fmul (.g 3) (.g 4) (.g 5)),
    (0x200C1840A02C0000, .fmin (.g 3) (.g 4) (.g 5)),
    (0x20101840A02C0000, .fmax (.g 3) (.g 4) (.g 5)),
    (0x20141840A02C0000, .fsgn (.g 3) (.g 4) (.g 5)),
    (0x21041840A1AC0000, .ffma (.g 3) (.g 4) (.g 5) (.g 6) .rtz),
    (0x22001840A02C0000, .feq (.g 3) (.g 4) (.g 5)),
    (0x22041840A02C0000, .flt (.g 3) (.g 4) (.g 5)),
    (0x22081840A02C0000, .fle (.g 3) (.g 4) (.g 5)),
    (0x23142860000C0000, .fcvt (.g 5) (.g 6) .i32 false true .rtz),
    (0x23009C0000100000, .fcvt (.g 19) (.q 0) .i64 false false .rne),
    (0x232162B000100000, .fcvt (.g 44) (.g 43) .i64 true false .rne),
    (0x24001840002C0000, .fcls (.g 3) (.g 4))]

/-- Words of the control family, written from the spec's encoding (R140 to R149), and what they stand for. -/
noncomputable def controlWords : List (Nat × Instr) :=
  [(0x2800184000000003, .beq { a := .g 3, b := .g 4, hint := .none, off := 3 }),
    (0x28041804FFFFFFFE, .bne { a := .g 3, b := .g 0, hint := .taken, off := 0xFFFFFFFE }),
    (0x2808184800000007, .blt { a := .g 3, b := .g 4, hint := .notTaken, off := 7 }),
    (0x280C184800000007, .bge { a := .g 3, b := .g 4, hint := .notTaken, off := 7 }),
    (0x2810184800000007, .bltn { a := .g 3, b := .g 4, hint := .notTaken, off := 7 }),
    (0x2814184800000007, .bgen { a := .g 3, b := .g 4, hint := .notTaken, off := 7 }),
    (0x2900000000000009, .jmp .none 9),
    (0x2905F8000000000A, .jal (.g 63) .none 10),
    (0x2A0003F000000000, .jr (.g 0) (.g 63)),
    (0x2B00002000000008, .loopReg (.g 2) 8),
    (0x2B04000000005004, .loopImm 5 4),
    (0x2C0000003B9E0417, .blk 0x3B9E0417),
    (0x2D00000000000000, .nop),
    (0x380000000000BEEF, .trap 0xBEEF),
    (0x3900005000000000, .sysResume (.g 5)),
    (0x3900005000000001, .sysKill (.g 5)),
    (0x3900305000000002, .sysState (.g 6) (.g 5)),
    (0x3A00003000000000, .eretRetry (.g 3)),
    (0x3A04003000000000, .eretNext (.g 3)),
    (0x3A08003000000000, .eretKill (.g 3)),
    (0x3B00200010200000, .gsr (.g 4) 0x102),
    (0x3C00005011200000, .ssr 0x112 (.g 5)),
    (0x3D080040A0800000, .tlbiPage { a := .g 4, b := .g 5, scope := .dev, cc := 2 }),
    (0x3D100000A0000000, .tlbiCtx { a := .g 0, b := .g 5, scope := .core, cc := 0 }),
    (0x3D24000000000000, .tlbiAll { a := .g 0, b := .g 0, scope := .hive, cc := 0 }),
    (0x3E00007000000000, .dbgb (.g 7)),
    (0x3F001840A0000000, .dump (.g 3) (.g 4) (.g 5)),
    (0x3F04307100000000, .pctlRead (.g 6) (.g 7) (.g 8))]

/-- Words of the scratchpad family, written from the spec's encoding (R140 to R149), and what they stand for. -/
noncomputable def scratchpadWords : List (Nat × Instr) :=
  [(0x300018A168C00010, .ld { d := .g 3, base := .g 10, index := .g 11, scale := 2, t := .i32, off := 16 }),
    (0x3100500001000200, .st { d := .g 10, base := .g 0, index := .g 0, scale := 0, t := .i64, off := 0x200 }),
    (0x320020A000000020, .ldp { d := 4, base := .g 10, index := .g 0, scale := 0, off := 32 }),
    (0x330020A16C3FFFF0, .stp { d := 4, base := .g 10, index := .g 11, scale := 3, off := 0x3FFFF0 }),
    (0x3400307000000000, .ltag (.g 6) (.g 7)),
    (0x3500008120000000, .tset (.g 8) (.g 9)),
    (0x3600008000000000, .tclr (.g 8))]

/-- Words of the global family, written from the spec's encoding (R140 to R149), and what they stand for. -/
noncomputable def globalWords : List (Nat × Instr) :=
  [(0x400200A000C00010, .ldg { q := 0, base := 10, index := 0, scale := 0, t := .i32, off := 16 }),
    (0x4100384002C00008, .stg { d := 7, base := 4, index := 0, scale := 0, t := .f32, off := 8 }),
    (0x4202101040E00000, .wtvEq { q := some 2, a := 1, b := 2, c := 3, t := .n64 }),
    (0x4204001040DC0000, .wtvNe { q := none, a := 1, b := 2, c := 3, t := .n32 }),
    (0x43000050C4000040, .pref 5 6 1 64),
    (0x44020850C1000000, .ldvEq 1 5 6 .i64 0),
    (0x440200A162C00000, .ldvEq 0 10 11 .f32 0),
    (0x44060850C1000008, .ldvLe 1 5 6 .i64 8),
    (0x4500284002000000, .stv 5 4 .n64 0),
    (0x45042840C2000010, .stvAt 5 4 6 .n64 16),
    (0x46000040A0000000, .vfloor 4 5),
    (0x4700004000000000, .vclose 4),
    (0x4800409142C00000, .get { d := 8, a := 9, b := 10, c := 11 }),
    (0x4900409142C00000, .put { d := 8, a := 9, b := 10, c := 11 }),
    (0x4A00105000000000, .ccset 2 5),
    (0x4B00180000000000, .ccwait 3)]

/-- Words of the atomic family, written from the spec's encoding (R140 to R149), and what they stand for. -/
noncomputable def atomicWords : List (Nat × Instr) :=
  [(0x50000040A0200000, .amoAdd { a := 4, b := 5, c := 0, t := .n64 }),
    (0x50400040A0200000, .amoNrAdd { a := 4, b := 5, c := 0, t := .n64 }),
    (0x51001040A1A00000, .vamoAdd { m := 2, a := 4, b := 5, c := 6, t := .n64 }),
    (0x5E000040A0200000, .scamoAdd { a := 4, b := 5, c := 0, t := .n64 }),
    (0x50040040A02C0000, .amoFadd { a := 4, b := 5, c := 0, t := .f32 }),
    (0x50440040A02C0000, .amoNrFadd { a := 4, b := 5, c := 0, t := .f32 }),
    (0x51041040A1AC0000, .vamoFadd { m := 2, a := 4, b := 5, c := 6, t := .f32 }),
    (0x5E040040A02C0000, .scamoFadd { a := 4, b := 5, c := 0, t := .f32 }),
    (0x50080040A0200000, .amoMin { a := 4, b := 5, c := 0, t := .n64 }),
    (0x50480040A0200000, .amoNrMin { a := 4, b := 5, c := 0, t := .n64 }),
    (0x51081040A1A00000, .vamoMin { m := 2, a := 4, b := 5, c := 6, t := .n64 }),
    (0x5E080040A0200000, .scamoMin { a := 4, b := 5, c := 0, t := .n64 }),
    (0x500C0040A0200000, .amoMax { a := 4, b := 5, c := 0, t := .n64 }),
    (0x504C0040A0200000, .amoNrMax { a := 4, b := 5, c := 0, t := .n64 }),
    (0x510C1040A1A00000, .vamoMax { m := 2, a := 4, b := 5, c := 6, t := .n64 }),
    (0x5E0C0040A0200000, .scamoMax { a := 4, b := 5, c := 0, t := .n64 }),
    (0x50100040A0200000, .amoAnd { a := 4, b := 5, c := 0, t := .n64 }),
    (0x50500040A0200000, .amoNrAnd { a := 4, b := 5, c := 0, t := .n64 }),
    (0x51101040A1A00000, .vamoAnd { m := 2, a := 4, b := 5, c := 6, t := .n64 }),
    (0x5E100040A0200000, .scamoAnd { a := 4, b := 5, c := 0, t := .n64 }),
    (0x50140040A0200000, .amoOr { a := 4, b := 5, c := 0, t := .n64 }),
    (0x50540040A0200000, .amoNrOr { a := 4, b := 5, c := 0, t := .n64 }),
    (0x51141040A1A00000, .vamoOr { m := 2, a := 4, b := 5, c := 6, t := .n64 }),
    (0x5E140040A0200000, .scamoOr { a := 4, b := 5, c := 0, t := .n64 }),
    (0x50180040A0200000, .amoXor { a := 4, b := 5, c := 0, t := .n64 }),
    (0x50580040A0200000, .amoNrXor { a := 4, b := 5, c := 0, t := .n64 }),
    (0x51181040A1A00000, .vamoXor { m := 2, a := 4, b := 5, c := 6, t := .n64 }),
    (0x5E180040A0200000, .scamoXor { a := 4, b := 5, c := 0, t := .n64 }),
    (0x501C0040A0200000, .amoSwap { a := 4, b := 5, c := 0, t := .n64 }),
    (0x505C0040A0200000, .amoNrSwap { a := 4, b := 5, c := 0, t := .n64 }),
    (0x511C1040A1A00000, .vamoSwap { m := 2, a := 4, b := 5, c := 6, t := .n64 }),
    (0x5E1C0040A0200000, .scamoSwap { a := 4, b := 5, c := 0, t := .n64 }),
    (0x50200040A1A00000, .amoCas { a := 4, b := 5, c := 6, t := .n64 }),
    (0x5E200040A1A00000, .scamoCas { a := 4, b := 5, c := 6, t := .n64 })]

/-- Words of the sync family, written from the spec's encoding (R140 to R149), and what they stand for. -/
noncomputable def syncWords : List (Nat × Instr) :=
  [(0x52000040A1800000, .logp { a := 4, b := 5, c := 6 }),
    (0x5300500000000000, .mrg 10),
    (0x5400000000000000, .fenceH),
    (0x5404000000000000, .fenceD),
    (0x5408000000000000, .fenceS),
    (0x55000040A1800000, .jset { a := 4, b := 5, c := 6 }),
    (0x5600004000000000, .arr 4),
    (0x57000040A0000000, .kpass 4 5),
    (0x5800184000000000, .kqry 3 4),
    (0x59000040A0000000, .lkel 4 5),
    (0x5A00000000000000, .lkex),
    (0x5B00004000000000, .lkab 4),
    (0x5C00384001000000, .scst { d := 7, base := 4, index := 0, scale := 0, t := .i64, off := 0 }),
    (0x5D023040AAC00008, .scld { q := 6, base := 4, index := 5, scale := 2, t := .f32, off := 8 })]

/-- Words of the task family, written from the spec's encoding (R140 to R149), and what they stand for. -/
noncomputable def taskWords : List (Nat × Instr) :=
  [(0x60000040A0000000, .send 4 5),
    (0x60040040A1800000, .sendo 4 5 6),
    (0x61001840A1800000, .spawn { d := 3, a := 4, b := 5, c := 6 }),
    (0x6200000000000000, .done),
    (0x63001840A0000000, .tagen 3 4 5),
    (0x6304180000000000, .tagp 3),
    (0x64000040A1800000, .tsset { a := 4, b := 5, c := 6 }),
    (0x65000040A0000000, .gsync 4 5),
    (0x660050B000000000, .nalloc 10 11),
    (0x6604004000000000, .nfree 4),
    (0x67000040A0000000, .rlk 4 5),
    (0x67040040A0000000, .rfuse 4 5),
    (0x68000040A0000000, .meet 4 5),
    (0x690000C000000000, .tshr 12),
    (0x690400C000000000, .tdrop 12),
    (0x6908004000000000, .tseal 4),
    (0x6A001840A0000000, .dpush 3 4 5),
    (0x6A04300000000000, .dpop 6),
    (0x6B00300000000000, .dsplit 6),
    (0x6C00307000000000, .dsteal 6 7),
    (0x6D00300000000000, .dlen 6)]

/-- Words of the vector family, written from the spec's encoding (R140 to R149), and what they stand for. -/
noncomputable def vectorWords : List (Nat × Instr) :=
  [(0x8004082060051B4E, .vadd { d := 1, a := 2, b := 3, sat := true, t := .bf16, mode := .rdn, pred := 3, gates := { wait := some (5, true), sig := some 6 } }),
    (0x8104082060051B4E, .vsub { d := 1, a := 2, b := 3, sat := true, t := .bf16, mode := .rdn, pred := 3, gates := { wait := some (5, true), sig := some 6 } }),
    (0x8204082060051B4E, .vmul { d := 1, a := 2, b := 3, sat := true, t := .bf16, mode := .rdn, pred := 3, gates := { wait := some (5, true), sig := some 6 } }),
    (0x83000820613FFD61, .vfma { d := 1, a := 2, b := 3, c := 4, flag := false, t := .f32, mode := .rtz, pred := 0, gates := noGates }),
    (0x84000820613FFD61, .vfms { d := 1, a := 2, b := 3, c := 4, flag := false, t := .f32, mode := .rtz, pred := 0, gates := noGates }),
    (0x85000820603FFC68, .vmin { d := 1, a := 2, b := 3, sat := false, t := .i32, mode := .rne, pred := 2, gates := noGates }),
    (0x86000820603FFD20, .vmax { d := 1, a := 2, b := 3, sat := false, t := .f16, mode := .rne, pred := 0, gates := noGates }),
    (0x87040820003FFC40, .vabs { d := 1, a := 2, sat := true, t := .i16, mode := .rne, pred := 0, gates := noGates }),
    (0x88000820003FFD60, .vneg { d := 1, a := 2, sat := false, t := .f32, mode := .rne, pred := 0, gates := noGates }),
    (0x89000820003FFD63, .vrcp { d := 1, a := 2, sat := false, t := .f32, mode := .rup, pred := 0, gates := noGates }),
    (0x8A040820003FFD40, .vrsq { d := 1, a := 2, sat := true, t := .bf16, mode := .rne, pred := 0, gates := noGates }),
    (0x8B0050A0003FFD60, .vexp { d := 10, a := 10, sat := false, t := .f32, mode := .rne, pred := 0, gates := noGates }),
    (0x8C000820003FFD31, .vtanh { d := 1, a := 2, sat := false, t := .f16, mode := .rtz, pred := 4, gates := noGates }),
    (0x8D10082001FFFD62, .vcvt { d := 1, a := 2, src := .i8, part := 3, sat := true, t := .f32, mode := .rdn, pred := 0, gates := noGates }),
    (0x8E000820603FFC00, .vand { d := 1, a := 2, b := 3, sat := false, t := .none, mode := .rne, pred := 0, gates := noGates }),
    (0x8F000820603FFC00, .vor { d := 1, a := 2, b := 3, sat := false, t := .none, mode := .rne, pred := 0, gates := noGates }),
    (0x90000820603FFD14, .vxor { d := 1, a := 2, b := 3, sat := false, t := .n64, mode := .rne, pred := 5, gates := noGates }),
    (0x91000820603FFC20, .vshl { d := 1, a := 2, b := 3, sat := false, t := .i8, mode := .rne, pred := 0, gates := noGates }),
    (0x92000820603FFCC0, .vshr { d := 1, a := 2, b := 3, sat := false, t := .n16, mode := .rne, pred := 0, gates := noGates }),
    (0x93000820603FFC60, .vsra { d := 1, a := 2, b := 3, sat := false, t := .i32, mode := .rne, pred := 0, gates := noGates }),
    (0x94001820203FFC9C, .vcmpEq { d := 3, a := 2, b := 1, t := .i64, pred := 7, gates := noGates }),
    (0x94041820203FFC9C, .vcmpNe { d := 3, a := 2, b := 1, t := .i64, pred := 7, gates := noGates }),
    (0x94081820203FFC9C, .vcmpLt { d := 3, a := 2, b := 1, t := .i64, pred := 7, gates := noGates }),
    (0x940C1820203FFC9C, .vcmpLe { d := 3, a := 2, b := 1, t := .i64, pred := 7, gates := noGates }),
    (0x95001010007FFD60, .vsel { d := 2, a := 1, b := 0, m := 1, t := .f32, gates := noGates }),
    (0x96000820003FFC00, .vmov { d := 1, a := 2, sat := false, t := .none, mode := .rne, pred := 0, gates := noGates }),
    (0x960408C0003FFC00, .vmovGm { d := 1, a := 12, gates := noGates }),
    (0x96081840003FFC00, .vmovMm { d := 3, a := 4, b := 0, gates := noGates }),
    (0x960C0040003FFC00, .vmovMq { d := 0, a := 4, b := 0, gates := noGates }),
    (0x970000A0003FFD60, .vbcast { d := 0, a := 10, t := .f32, pred := 0, gates := noGates }),
    (0x98000030003FFD60, .vext { a := 3, index := 0, t := .f32, gates := noGates })]

/-- Words of the memory family, written from the spec's encoding (R140 to R149), and what they stand for. -/
noncomputable def memoryWords : List (Nat × Instr) :=
  [(0x99000820603FFDA0, .vld { d := 1, a := 2, b := 3, sat := false, t := .e5m2, mode := .rne, pred := 0, gates := noGates }),
    (0x9A000050C03F0400, .vst { d := 0, a := 5, b := 6, sat := false, t := .none, mode := .rne, pred := 0, gates := { wait := none, sig := some 1 } }),
    (0x9B000820603FFCE4, .vldx { d := 1, a := 2, b := 3, t := .n32, pred := 1, gates := noGates }),
    (0x9C000820603FFD60, .vstx { d := 1, a := 2, b := 3, t := .f32, pred := 0, gates := noGates }),
    (0x9D00AAB4E03FFD60, .vldf { d := 21, a := 43, b := 39, sat := false, t := .f32, mode := .rne, pred := 0, gates := noGates }),
    (0x9E040820603FFD43, .vstf { d := 1, a := 2, b := 3, sat := true, t := .bf16, mode := .rup, pred := 0, gates := noGates }),
    (0x9F040820603FFDC1, .vpack { d := 1, a := 2, b := 3, sat := true, l := true, gates := noGates }),
    (0xA0000820003FFD60, .vunpk { d := 1, a := 2, b := 0, sat := false, l := false, gates := noGates }),
    (0xA1001820003FFD60, .vredsum { d := 3, a := 2, b := 0, c := 0, flag := false, t := .f32, mode := .rne, pred := 0, gates := noGates }),
    (0xA2000820003FFC80, .vredmax { d := 1, a := 2, sat := false, t := .i64, mode := .rne, pred := 0, gates := noGates }),
    (0xA3000820003FFD40, .vredmin { d := 1, a := 2, sat := false, t := .bf16, mode := .rne, pred := 0, gates := noGates }),
    (0xA404615022FFFD40, .vdot { d := 12, a := 21, b := 1, c := 11, flag := true, t := .bf16, mode := .rne, pred := 0, gates := noGates }),
    (0xA5000820603FFD80, .vperm { d := 1, a := 2, b := 3, sat := false, t := .e4m3, mode := .rne, pred := 0, gates := noGates }),
    (0xA6000820603FFC60, .vrot { d := 1, a := 2, b := 3, t := .i32, pred := 0, gates := noGates }),
    (0xA7002020623FFD60, .vtopk { d := 4, a := 2, b := 3, lit := 8, pred := 0, gates := noGates }),
    (0xA800082003FFFD40, .vsig { d := 1, a := 2, b := 0, lit := 15, pred := 0, gates := noGates }),
    (0xA9000820603FFC00, .mand { d := 1, a := 2, b := 3, gates := noGates }),
    (0xAA000820603FFC00, .mor { d := 1, a := 2, b := 3, gates := noGates }),
    (0xAB000820003FFC00, .mnot { d := 1, a := 2, b := 0, gates := noGates }),
    (0xAC000020003FFC00, .mpop { d := 0, a := 2, b := 0, gates := noGates }),
    (0xAD000020003FFC00, .mfirst { d := 0, a := 2, b := 0, gates := noGates })]

/-- Words of the matrix family, written from the spec's encoding (R140 to R149), and what they stand for. -/
noncomputable def matrixWords : List (Nat × Instr) :=
  [(0xC0009800003FFC00, .mmz { n := 3, half := .lo } noGates),
    (0xC1400040A001FF40, .mma { d := { n := 0, half := .full }, a := 4, b := 5, c := 0, z := true, k := 0, t := .bf16, bx := false, h := false, gates := { wait := some (1, true), sig := none } }),
    (0xC1042953203FFD40, .mma { d := { n := 5, half := .full }, a := 21, b := 25, c := 0, z := false, k := 1, t := .bf16, bx := false, h := false, gates := noGates }),
    (0xC2010820603FFD20, .mld { d := { n := 1, half := .hi }, a := 2, b := 3, t := .f16, sat := false, mode := .rne, gates := noGates }),
    (0xC3000070003F0D60, .mst { d := { n := 0, half := .full }, a := 7, b := 0, t := .f32, sat := false, mode := .rne, gates := { wait := none, sig := some 3 } }),
    (0xC4401030817FFD90, .mmv { d := { n := 2, half := .full }, a := 3, b := 4, c := 5, z := true, k := 0, t := .e4m3, bx := true, h := false, gates := noGates }),
    (0xC53C9030817FFD28, .msp { d := { n := 2, half := .lo }, a := 3, b := 4, c := 5, z := false, k := 15, t := .f16, bx := false, h := true, gates := noGates }),
    (0xC6000030003FFDC0, .mdir { a := 3, t := .q4x, gates := noGates }),
    (0xC6040030003FFD40, .mdirPush { a := 3, t := .bf16, gates := noGates }),
    (0xC7012050003FFC0F, .msclRow { d := { n := 4, half := .hi }, a := 5, h := true, sat := true, mode := .rup, gates := noGates }),
    (0xC7042050003FFC01, .msclCol { d := { n := 4, half := .full }, a := 5, h := false, sat := false, mode := .rtz, gates := noGates }),
    (0xC70822D0003FFC00, .msclAll { d := { n := 4, half := .full }, a := 45, h := false, sat := false, mode := .rne, gates := noGates }),
    (0xC800F800003F0800, .mrdRow { d := 31, a := { n := 0, half := .full }, i := 0, gates := { wait := none, sig := some 2 } }),
    (0xC804192007FFFC00, .mrdCol { d := 3, a := { n := 2, half := .lo }, i := 31, gates := noGates }),
    (0xC8080001003FFC00, .mrdEl { a := { n := 0, half := .full }, b := 8, h := false, gates := noGates })]

/-- Words of the engine family, written from the spec's encoding (R140 to R149), and what they stand for. -/
noncomputable def engineWords : List (Nat × Instr) :=
  [(0xE00088C240051A80, .cpy { d := 17, a := 12, b := 18, c := 0, dsp := false, ssp := true, gates := { wait := some (5, true), sig := some 6 } }),
    (0xE0002820803F0100, .cpy { d := 5, a := 2, b := 4, c := 0, dsp := true, ssp := false, gates := { wait := none, sig := some 0 } }),
    (0xE1000820613FFD80, .cpyx2d { d := 1, a := 2, b := 3, c := 4, dsp := true, ssp := true, gates := noGates }),
    (0xE1040820613FFC80, .cpyx3d { d := 1, a := 2, b := 3, c := 4, dsp := false, ssp := true, gates := noGates }),
    (0xE2000820603FFD07, .cpyc { d := 1, a := 2, b := 3, dsp := true, ssp := false, sat := true, mode := .rup, gates := noGates }),
    (0xE3004091403FFC02, .cfill { d := 8, a := 9, b := 10, dsp := false, lw := 2, gates := noGates }),
    (0xE8000142A0050000, .gset 5 false 20 21),
    (0xE804013260060000, .gset 6 true 19 19),
    (0xE900007000040000, .gadd 4 7),
    (0xEA00000000060200, .gwt 6 true),
    (0xEA00000000000000, .gwt 0 false),
    (0xEB003800001F0000, .gpoll 7 31),
    (0xF0000040003FFC00, .pjld 4 noGates),
    (0xF1000040A1BFFC00, .kst { d := 0, a := 4, b := 5, c := 6, gates := noGates }),
    (0xF2000040E03FFC00, .qsig { d := 0, a := 4, b := 7, c := 0, gates := noGates }),
    (0xF3005841403F0800, .bgat { d := 11, a := 4, b := 10, c := 0, gates := { wait := none, sig := some 2 } }),
    (0xF3044041203F0800, .bgatH1 { d := 8, a := 4, b := 9, c := 0, gates := { wait := none, sig := some 2 } }),
    (0xF400184003FFFC01, .psum { d := 3, a := 4, rows := 15, dcode := 1, gates := noGates }),
    (0xF50010A1633FFC00, .pbnd { half := 1, a := 10, b := 11, c := 12, dcode := 0, gates := noGates }),
    (0xF50010F1A404FE01, .pbnd { half := 1, a := 15, b := 13, c := 16, dcode := 1, gates := { wait := some (4, true), sig := none } }),
    (0xF600902224C50E00, .pgatPg { d := 18, a := 2, b := 17, c := 19, gates := { wait := some (5, true), sig := some 3 } }),
    (0xF604902224FFFC00, .pgatTok { d := 18, a := 2, b := 17, c := 19, gates := noGates })]

theorem test_decode_integer : decodesAll integerWords := rfl
theorem test_decode_immediate : decodesAll immediateWords := rfl
theorem test_decode_float : decodesAll floatWords := rfl
theorem test_decode_control : decodesAll controlWords := rfl
theorem test_decode_scratchpad : decodesAll scratchpadWords := rfl
theorem test_decode_global : decodesAll globalWords := rfl
theorem test_decode_atomic : decodesAll atomicWords := rfl
theorem test_decode_sync : decodesAll syncWords := rfl
theorem test_decode_task : decodesAll taskWords := rfl
theorem test_decode_vector : decodesAll vectorWords := rfl
theorem test_decode_memory : decodesAll memoryWords := rfl
theorem test_decode_matrix : decodesAll matrixWords := rfl
theorem test_decode_engine : decodesAll engineWords := rfl
/-! ### Scalar words -/

def sA : State := at0 0x010860B160100000 [(10, 7), (11, 0x8000000000000000), (12, 2 ^ 64 - 1)]

/-- IntegerResults at the corner of R164: the least number over −1, and a zero divisor. -/
theorem witness_IntegerResults : intType .i64 = true ∧ Starts false sA 0 ∧ Gives (readO (.g 11)) sA (val 0x8000000000000000) sA ∧
    Gives (readO (.g 12)) sA (val (2 ^ 64 - 1)) sA ∧
    Gives (writeO (.g 3) { v := widen .i64 (bits 64 ((sgn 64 0x8000000000000000).tdiv (sgn 64 (2 ^ 64 - 1)))), tag := 0 } 12) sA ()
      (after (writeO (.g 3) { v := 0x8000000000000000, tag := 0 } 12) sA) ∧
    Gives (writeO (.g 0) { v := widen .i8 255, tag := 0 } 12) sA () (after (writeO (.g 0) (val 1) 12) sA) := by
  delta Starts Gives; decide +kernel

theorem test_div_overflow : nextIs (exec (.div { d := .g 3, a := .g 11, b := .g 12, t := .i64 }) sA)
    (retired false .next 0 (after (writeO (.g 3) { v := 0x8000000000000000, tag := 0 } 12) sA)) = true := by decide +kernel

theorem test_rem_by_zero : nextIs (exec (.rem { d := .g 3, a := .g 12, b := .g 4, t := .i64 }) sA)
    (retired false .next 0 (after (writeO (.g 3) (val (2 ^ 64 - 1)) 12) sA)) = true := by decide +kernel

theorem test_mul_i8_extends : nextIs (exec (.mul { d := .g 3, a := .g 12, b := .g 10, t := .i8 }) sA)
    (retired false .next 0 (after (writeO (.g 3) (val (2 ^ 64 - 7)) 2) sA)) = true := by decide +kernel

theorem test_sub_n16_wraps : nextIs (exec (.sub { d := .g 3, a := .g 4, b := .g 10, t := .n16 }) sA)
    (retired false .next 0 (after (writeO (.g 3) (val 65529) 1) sA)) = true := by decide +kernel

theorem test_sra_count_mod_width : nextIs (exec (.sra { d := .g 3, a := .g 11, b := .g 10, t := .i64 }) sA)
    (retired false .next 0 (after (writeO (.g 3) (val 0xFF00000000000000) 1) sA)) = true := by decide +kernel

theorem witness_UnaryAndFieldResults : intType .i8 = true ∧ Starts false sA 0 ∧ Gives (readO (.g 12)) sA (val (2 ^ 64 - 1)) sA ∧
    Gives (writeO (.g 3) { v := widen .i8 (bits 8 |sgn 8 (2 ^ 64 - 1)|), tag := 0 } 1) sA () (after (writeO (.g 3) (val 1) 1) sA) ∧
    Gives (readO (.g 10)) sA (val 7) sA ∧
    Gives (writeO (.g 3) { v := widen .i8 (bextBits .i8 (2 ^ 64 - 1) 7), tag := 0 } 1) sA () (after (writeO (.g 3) (val 0) 1) sA) ∧
    Gives (writeO (.g 3) { v := widen .i8 (binsBits 8 7 0 0x107), tag := 0 } 1) sA () (after (writeO (.g 3) (val 7) 1) sA) ∧
    Gives (readO (.g 4)) sA (val 0) sA := by
  delta Starts Gives; decide +kernel

theorem test_bext_sign : nextIs (exec (.bext { d := .g 3, a := .g 12, b := .g 5, t := .i64 }) (sA.modTask 0 (fun t => t.setReg 5 (val 0x308))))
    (retired false .next 0 (after (writeO (.g 3) (val (2 ^ 64 - 1)) 1) (sA.modTask 0 (fun t => t.setReg 5 (val 0x308))))) = true := by
  decide +kernel

theorem test_sel_zero : nextIs (exec (.sel (.g 3) (.g 11) (.g 10) (.g 4)) sA)
    (retired false .next 0 (after (writeO (.g 3) (val 7) 1) sA)) = true := by decide +kernel

theorem witness_ImmediateResults : intType .n64 = true ∧ Starts false sA 0 ∧ Gives (readO (.g 12)) sA (val (2 ^ 64 - 1)) sA ∧
    Gives (writeO (.g 3) { v := widen .n64 ((2 ^ 64 - 1 + ((0xFFFFFFFF : BitVec 32).signExtend 64).toNat) % 2 ^ 64), tag := 0 } 1) sA ()
      (after (writeO (.g 3) (val (2 ^ 64 - 2)) 1) sA) ∧
    Gives (writeO (.g 3) { v := (0x80000000 : BitVec 32).signExtend 64, tag := 0 } 1) sA ()
      (after (writeO (.g 3) (val 0xFFFFFFFF80000000) 1) sA) := by
  delta Starts Gives; decide +kernel

theorem test_addi_negative : nextIs (exec (.addi { d := .g 3, a := .g 10, t := .i64, imm := 0xFFFFFFF8 }) sA)
    (retired false .next 0 (after (writeO (.g 3) (val (2 ^ 64 - 1)) 1) sA)) = true := by decide +kernel

theorem test_lih : nextIs (exec (.lih (.g 3) (.g 12) 0x12345678) sA)
    (retired false .next 0 (after (writeO (.g 3) (val 0x12345678FFFFFFFF) 1) sA)) = true := by decide +kernel

def sP : State := at0 0x14002040A0000000 [(4, 0x2000000000000000 + 2 ^ 57 - 1), (5, 1), (6, 2 ^ 64 - 1)]

/-- PointerResults at the top of the address space: −1 stays inside, 1 falls outside. -/
theorem witness_PointerResults : Starts false sP 0 ∧ Gives (readO (.g 4)) sP (val (0x2000000000000000 + 2 ^ 57 - 1)) sP ∧
    Gives (readO (.g 6)) sP (val (2 ^ 64 - 1)) sP ∧ Gives (readO (.g 5)) sP (val 1) sP ∧
    (((0x2000000000000000 + 2 ^ 57 - 1) % 2 ^ 57 : Nat) : Int) + (BitVec.ofNat 64 (2 ^ 64 - 1)).toInt = ((2 ^ 57 - 2 : Nat) : Int) ∧
    (2 ^ 57 ≤ (((0x2000000000000000 + 2 ^ 57 - 1) % 2 ^ 57 : Nat) : Int) + (1 : Word).toInt) ∧
    Gives (writeO (.g 3) (val (0x2000000000000000 + 2 ^ 57 - 2)) 1) sP () (after (writeO (.g 3) (val (0x2000000000000000 + 2 ^ 57 - 2)) 1) sP) := by
  delta Starts Gives; decide +kernel

theorem test_padd_top : nextIs (exec (.padd (.g 3) (.g 4) (.g 6)) sP)
    (retired false .next 0 (after (writeO (.g 3) (val (0x2000000000000000 + 2 ^ 57 - 2)) 1) sP)) = true := by decide +kernel

theorem test_padd_outside : nextIs (exec (.padd (.g 3) (.g 4) (.g 5)) sP) (trapped sP 0 false 9 0 []) = true := by decide +kernel

theorem test_pget : nextIs (exec (.pget (.g 3) (.g 4)) sP) (retired false .next 0 (after (writeO (.g 3) (val 16) 1) sP)) = true := by
  decide +kernel

def sF : State := at0 0x20001840A02C0000 [(4, 0x3F800000), (5, 0x33800000), (6, 0x7F800001), (7, 0xFF800000)]

/-- FloatResults: 1 + 2^−24 ties to the even 1, inexact; a NaN; a negative infinity. -/
theorem witness_FloatResults : Starts false sF 0 ∧ Gives (readO (.g 4)) sF (val 0x3F800000) sF ∧ Gives (readO (.g 5)) sF (val 0x33800000) sF ∧
    Num.f32.round .rne false ((fp 0x3F800000).add .rne (fp 0x33800000)).1 = (0x3F800000, 1) ∧
    Gives (writeO (.g 3) (val 0x3F800000) 4) (flagsComing sF 0 1) () (after (writeO (.g 3) (val 0x3F800000) 4) (flagsComing sF 0 1)) ∧
    Gives (readO (.g 6)) sF (val 0x7F800001) sF ∧
    Gives (writeO (.g 3) (val 0x7FC00000) 1) sF () (after (writeO (.g 3) (val 0x7FC00000) 1) sF) ∧ Gives (readO (.g 7)) sF (val 0xFF800000) sF ∧
    Gives (writeO (.g 3) (val 1) 1) sF () (after (writeO (.g 3) (val 1) 1) sF) := by
  delta Starts Gives; decide +kernel

theorem test_fadd_ties_to_even : nextIs (exec (.fadd (.g 3) (.g 4) (.g 5)) sF)
    (retired false .next 0 (after (writeO (.g 3) (val 0x3F800000) 4) (flagsComing sF 0 1))) = true := by decide +kernel

theorem test_fcls_minus_infinity : nextIs (exec (.fcls (.g 3) (.g 7)) sF)
    (retired false .next 0 (after (writeO (.g 3) (val 1) 1) sF)) = true := by decide +kernel

theorem test_fmin_nan : nextIs (exec (.fmin (.g 3) (.g 4) (.g 6)) sF)
    (retired false .next 0 (after (writeO (.g 3) (val 0x7FC00000) 1) sF)) = true := by decide +kernel

theorem test_fcvt_saturates : nextIs (exec (.fcvt (.g 3) (.g 7) .i32 false true .rtz) sF)
    (retired false .next 0 (after (writeO (.g 3) (val 0xFFFFFFFF80000000) 4) (flagsComing sF 0 16))) = true := by
  decide +kernel

theorem test_ffma : nextIs (exec (.ffma (.g 3) (.g 4) (.g 4) (.g 4) .rne) sF)
    (retired false .next 0 (after (writeO (.g 3) (val 0x40000000) 4) sF)) = true := by decide +kernel

theorem test_fcvt_from_int : nextIs (exec (.fcvt (.g 3) (.g 4) .i8 true false .rne) (sF.modTask 0 (fun t => t.setReg 4 (val 0xFF))))
    (retired false .next 0 (after (writeO (.g 3) (val 0xBF800000) 4) (sF.modTask 0 (fun t => t.setReg 4 (val 0xFF))))) = true := by
  decide +kernel

def sB : State := at0 0x2800184000000003 [(3, 2 ^ 64 - 1), (4, 1), (5, 0x1004)]

theorem witness_BranchAndJumpResults : Starts true sB 0 ∧ Gives (readO (.g 3)) sB (val (2 ^ 64 - 1)) sB ∧
    Gives (readO (.g 4)) sB (val 1) sB ∧ (BitVec.ofNat 64 (2 ^ 64 - 1)).toInt < (1 : Word).toInt ∧ target (sB.task 0).pc 3 = (24 : Nat) ∧
    goodTarget 24 ∧ ¬ goodTarget (target (sB.task 0).pc 0xFFFFFFFF) ∧ encode (.bgen { a := .g 3, b := .g 4, hint := .none, off := 3 }) =
      some 0x2814184000000003 ∧
    Gives (writeO (.g 63) (val 8) 1) sB () (after (writeO (.g 63) (val 8) 1) sB) ∧ Gives (readO (.g 5)) sB (val 0x1004) sB := by
  delta Starts Gives; decide +kernel

theorem test_blt_signed : nextIs (exec (.blt { a := .g 3, b := .g 4, hint := .none, off := 3 }) sB)
    (retired true (.jump 24) 0 (leavesLoops sB 0 24)) = true := by decide +kernel

theorem test_bltn_unsigned : nextIs (exec (.bltn { a := .g 3, b := .g 4, hint := .none, off := 3 }) sB)
    (retired true .next 0 sB) = true := by decide +kernel

theorem test_jal : nextIs (exec (.jal (.g 63) .none 10) sB)
    (retired true (.jump 80) 0 (after (writeO (.g 63) (val 8) 1) sB)) = true := by decide +kernel

theorem test_jmp_below_zero : nextIs (exec (.jmp .none 0xFFFFFFFF) sB) (trapped sB 0 true 3 0 [BitVec.ofInt 64 (-8)]) = true := by
  decide +kernel

theorem test_jr_misaligned : nextIs (exec (.jr (.g 0) (.g 5)) sB) (trapped sB 0 true 3 0 [0x1004]) = true := by decide +kernel

def loopAt (l : List Loop) (w : Nat) : State := (at0 w [(2, 0)]).modTask 0 (fun t => { t with loops := l })

theorem witness_LoopResults : Starts true (loopAt [] 0x2B04000000005004) 0 ∧ (5 : BitVec 20).toNat ≠ 0 ∧
    ((loopAt [] 0x2B04000000005004).task 0).loops.length ≠ 4 ∧
    Gives (readO (.g 2)) (loopAt [] 0x2B00002000000008) (val 0) (loopAt [] 0x2B00002000000008) ∧ goodTarget ((0 + 8 * 8 + 8 : Nat) : Int) ∧
    Starts true (loopAt [{ start := 0, last := 32, n := 4, rem := 2 }] 0x2B04000000005004) 0 ∧
    Starts true (loopAt (List.replicate 4 { start := 0, last := 800, n := 4, rem := 2 }) 0x2B04000000005004) 0 := by
  delta Starts Gives; decide +kernel

theorem test_loop_opens : nextIs (exec (.loopImm 5 4) (loopAt [] 0x2B04000000005004))
    (retired true .next 0 (loopAt [{ start := 8, last := 32, n := 4, rem := 5 }] 0x2B04000000005004)) = true := by decide +kernel

theorem test_loop_not_inside : nextIs (exec (.loopImm 5 4) (loopAt [{ start := 0, last := 32, n := 4, rem := 2 }] 0x2B04000000005004))
    (trapped (loopAt [{ start := 0, last := 32, n := 4, rem := 2 }] 0x2B04000000005004) 0 true 4 2 []) = true := by decide +kernel

theorem test_loop_zero_skips : nextIs (exec (.loopReg (.g 2) 8) (loopAt [] 0x2B00002000000008))
    (retired true (.jump 72) 0 (loopAt [] 0x2B00002000000008)) = true := by decide +kernel

def sBlk : State := at0 0x2C0000003B9E0417 []

theorem witness_BlockAndNopResults : sBlk.current = some 0 ∧ Gives ready sBlk () sBlk ∧
    (∀ b ∈ (sBlk.task 0).blk, Num.signature b.words.reverse = b.sig) ∧ Starts false sBlk 0 ∧
    (let s := sBlk.modTask 0 (fun t => { t with blk := some { addr := 0, sig := 0, words := [] } });
      Gives ready s () s ∧ ∀ b ∈ (s.task 0).blk, Num.signature b.words.reverse ≠ b.sig) ∧
    ((loopAt [{ start := 0, last := 0, n := 0, rem := 2 }] 0).task 0).pc = 0 := by
  delta Starts Gives; decide +kernel

theorem test_nop : nextIs (exec .nop sBlk) (retired false .next 0 sBlk) = true := by decide +kernel

theorem test_loop_end_goes_round : nextIs (exec .loopBodyEnd (loopAt [{ start := 16, last := 0, n := 0, rem := 2 }] 0))
    (((loopAt [{ start := 16, last := 0, n := 0, rem := 1 }] 0).modTask 0 (fun t => { t with pc := 16 })).cycle) = true := by decide +kernel

theorem witness_WordsStart : sB.current = some 0 ∧ Gives ready sB () sB ∧
    (sB.task 0).blk = some { addr := 0, sig := Num.signature [0x2800184000000003], words := [] } ∧
    Num.signature [sB.ir] = Num.signature [0x2800184000000003] ∧ (sB.task 0).atLast = false ∧
    (let s := sB.modTask 0 (fun t => { t with loops := [{ start := 0, last := 0, n := 0, rem := 1 }] });
      Gives ready s () s ∧ (s.task 0).atLast = true) := by
  delta Gives; decide +kernel


/-! ### Scratchpad and tag words -/

/-- A register reads as a number and changes nothing. -/
abbrev reads (s : State) (n : Fin 64) (v : Nat) : Prop := Gives (readO (.g n)) s (val v) s

/-- A step of a word answers and leaves what `after` names. -/
abbrev runs {α : Type} (m : W α) (s : State) (a : α) : Prop := Gives m s a (after m s)

def sL : State := at0 0x300018A168C00010 [(10, 0x100), (11, 2), (12, 0x3FFF8), (13, 0x8000000000000000 + 2 ^ 57 - 1)]

theorem witness_ScratchpadLoadAndPairResults : Starts false sL 0 ∧ reads sL 10 0x100 ∧ reads sL 11 2 ∧
    memAddr 0x100 2 2 16 = (0x118 : Nat) ∧ elemType .i32 0x100 = some .i32 ∧ sL.heldBack 0 0 0x118 4 = false ∧ sL.heldBack 0 0 0x118 16 = false ∧
    (let r := sL.spadSpaceRead 0 0 0 0x118 4
     runs (writeO (.g 3) { v := loaded .i32 (Num.ofBytes r.1), tag := r.2.1 } 3) r.2.2 ()) ∧
    (let r := sL.spadSpaceRead 0 0 0 0x118 16
     runs (writeG 62 { v := BitVec.ofNat 64 (Num.ofBytes (r.1.take 8)), tag := sL.spadTagOf 0 0 0x118 0 8 } 3) r.2.2 () ∧
     runs (writeG 63 { v := BitVec.ofNat 64 (Num.ofBytes (r.1.drop 8)), tag := sL.spadTagOf 0 0 0x118 8 8 } 3)
       (after (writeG 62 { v := BitVec.ofNat 64 (Num.ofBytes (r.1.take 8)), tag := sL.spadTagOf 0 0 0x118 0 8 } 3) r.2.2) ()) ∧
    Gives (readG 62) sL (val 0) sL ∧ Gives (readG 63) sL (val 0) sL ∧ runs (scratchWrite 0x118 (Num.bytesOf 8 0 ++ Num.bytesOf 8 0) 0) sL () := by
  delta runs reads Starts Gives; decide +kernel

/-- The store is read back, its sign extended. -/
theorem test_ld_sign : nextIs (exec (.ld { d := .g 3, base := .g 10, index := .g 11, scale := 2, t := .i16, off := 16 })
      (after (scratchWrite 0x118 [0x34, 0x92] 0) sL))
    (retired false .next 0 (after (writeO (.g 3) (val 0xFFFFFFFFFFFF9234) 3) (after (scratchWrite 0x118 [0x34, 0x92] 0) sL))) = true := by
  decide +kernel

theorem test_ldp_pair : (match exec (.ldp { d := 4, base := .g 10, index := .g 11, scale := 2, off := 16 })
      (after (scratchWrite 0x120 [0xFF] 0) sL) with
    | .next t => decide ((t.task 0).reg 4 = val 0 ∧ (t.task 0).reg 5 = val 255)
    | _ => false) = true := by decide +kernel

/-- The last double word of the core's own scratchpad, and an address past the address space. -/
theorem witness_ScratchpadStoreResults : Starts false sL 0 ∧ reads sL 11 2 ∧ reads sL 12 0x3FFF8 ∧ reads sL 0 0 ∧
    memAddr 0x3FFF8 0 0 0 = (0x3FFF8 : Nat) ∧ elemType .none 0x3FFF8 = some .n64 ∧
    runs (scratchWrite 0x3FFF8 (Num.bytesOf (elemBytes .n64) (stored .n64 2).1) 0) sL () ∧
    runs (scratchWrite 0x3FFF8 (Num.bytesOf (elemBytes .f16) (stored .f16 0x3F800000).1) 0) sL () := by
  delta runs reads Starts Gives; decide +kernel

theorem test_st_bytes : (match exec (.st { d := .g 11, base := .g 12, index := .g 0, scale := 0, t := .i16, off := 0x3FFFFF }) sL with
    | .next t => decide ((t.space 0 0).byte 0x3FFF7 = 2 ∧ (t.space 0 0).byte 0x3FFF8 = 0 ∧ t.mem = sL.mem)
    | _ => false) = true := by decide +kernel

theorem test_st_pointer : nextIs (exec (.st { d := .g 11, base := .g 13, index := .g 11, scale := 0, t := .i16, off := 0 }) sL)
    (trapped sL 0 false 9 0 []) = true := by decide +kernel

theorem witness_OwnScratchpadWrite : sL.current = some 0 ∧ 0x3FFFE + [1, 2].length ≤ 0x40000 ∧ sL.heldBack 0 0 0x3FFFE 2 = false ∧
    sL.lockOn 0 (linesAt 0 0x3FFFE 2) = none ∧ (sL.task 0).logFull (ownLines 0 0x3FFFE 2) = false ∧
    ((sL.space 0 0).stag 255).state = 0 := by decide +kernel

def sT : State := (at0 0x3400182000000000 [(4, 255), (5, 256), (6, 0x8000000000001234), (7, 0x4300000000001234), (8, 0x4200000000001234), (9, 0x1234),
  (10, 0xC000000000001234)]).setTag 0 0 9 { state := 2, gate := 0, phase := false, tag := 0x1234 }

theorem witness_TagTableResults : Starts false sT 0 ∧ reads sT 9 0x1234 ∧ holdsTag sT 0 0 9 0x1234 ∧ (∀ m < 9, ¬ holdsTag sT 0 0 m 0x1234) ∧
    runs (writeO (.g 3) (val 9) 2) sT () ∧ (∀ m < 256, ¬ holdsTag sT 0 0 m 0) ∧ runs (writeO (.g 3) (val 0xFFFF) 2) sT () ∧
    reads sT 4 255 ∧ reads sT 5 256 ∧ reads sT 6 0x8000000000001234 ∧ reads sT 7 0x4300000000001234 ∧ reads sT 8 0x4200000000001234 ∧
    reads sT 10 0xC000000000001234 ∧ 0x8000000000001234 / 2 ^ 62 = 2 ∧ 0x4300000000001234 / 2 ^ 62 = 1 ∧
    (gateOf (sT.space 0 0) 1).phase = (val 0x4200000000001234).v.getLsbD 56 ∧ (gateOf (sT.space 0 0) 1).phase ≠ (val 0x4300000000001234).v.getLsbD 56 ∧
    ((sT.space 0 0).stag 255).state ≠ 1 := by
  delta runs reads Starts Gives; decide +kernel

theorem test_ltag : nextIs (exec (.ltag (.g 3) (.g 9)) sT) (retired false .next 0 (after (writeO (.g 3) (val 9) 2) sT)) = true := by
  decide +kernel

theorem test_tset_filling : nextIs (exec (.tset (.g 4) (.g 7)) sT) (retired false .next 0 (sT.setTag 0 0 255
    { state := 1, gate := 1, phase := true, tag := 0x1234 })) = true := by decide +kernel

theorem test_tset_state_3 : nextIs (exec (.tset (.g 4) (.g 10)) sT) (trapped sT 0 false 5 0 [0xC000000000001234]) = true := by decide +kernel

theorem test_tclr_slot_256 : nextIs (exec (.tclr (.g 5)) sT) (trapped sT 0 false 5 0 [256]) = true := by decide +kernel

/-! ### Global memory, versions, atomics -/

/-- A translation in core 0's data TLB. -/
def mapped (s : State) (va leaf : Nat) : State :=
  s.modCore 0 (fun c => { c with tlbD := c.tlbD ++ [{ ctx := 0, va := va, size := 12, leaf := leaf, level := 1 }] })

def versLeaf : Nat := 5 * 2 ^ 52 + 0x701027

/-- Page 1 of context 0 is readable and writable, page 2 versioned in region 5 too, page 3 keyed. -/
def sG : State := mapped (mapped (mapped (at0 0x400200A000C00000 [(4, 0x1122334455667788), (5, 1), (10, 0x100), (11, 0xFFE), (12, 0x2040), (13, 0x103),
  (14, 3)]) 0x1000 0x700007) 0x2000 versLeaf) 0x3000 (5 * 2 ^ 52 + 0x702047)

theorem witness_GlobalLoadResults : Starts false sG 0 ∧ Gives (readG 10) sG (val 0x100) sG ∧ Gives (readG 5) sG (val 1) sG ∧
    memAddr 0x100 1 2 16 = (0x114 : Nat) ∧ elemType .i32 0x100 = some .i32 ∧ queueHasRoom sG 0 7 ∧
    (let ps : List Piece := [{ va := 0x114, pa := 0x200114, n := 4, leaf := 0x20000F }]
     let parts := ranges ps
     let s1 := after (xlateSpan 0x114 4 .load) sG
     Gives (xlateSpan 0x114 4 .load) sG ps s1 ∧ (∀ p ∈ ps, Gives (checkRace p.leaf) s1 () s1) ∧ Gives awaitPuts s1 () s1 ∧
     (∀ p ∈ parts, Gives (checkBulk p.1 p.2) s1 () s1) ∧
     Gives (spinCheck parts) s1 () s1 ∧ runs ((lineAddrs parts).forM noteRead) s1 () ∧
     runs ((lineAddrs parts).forM track) (after ((lineAddrs parts).forM noteRead) s1) () ∧ (∀ p ∈ parts, paKind p.1 ≠ .peer)) := by
  delta runs Starts Gives; decide +kernel

/-- A load is outstanding, and reads its own task's store at its arrival. -/
theorem test_ldg_issues : (match exec (.ldg { q := 7, base := 10, index := 5, scale := 2, t := .i32, off := 16 }) sG with
    | .next t => decide ((t.task 0).queue 7 = [.await 1] ∧ (t.task 0).pc = 8 ∧ t.pending = [.loadWordArrival 0 0 1] ∧ t.mem = sG.mem)
    | _ => false) = true := by decide +kernel

theorem test_load_word_arrives : (match exec (.stg { d := 4, base := 10, index := 0, scale := 0, t := .i16, off := 2 }) sG with
    | .next t =>
      (match exec (.ldg { q := 0, base := 10, index := 0, scale := 0, t := .n32, off := 0 }) t with
      | .next t' =>
        (match exec (.loadWordArrival 0 0 1) t' with
        | .next u => decide ((u.task 0).queue 0 = [.word { v := 0x77880000, tag := 0 }])
        | _ => false)
      | _ => false)
    | _ => false) = true := by decide +kernel

/-- One page, and an element across two. -/
theorem witness_GlobalStoreResults : Starts false sG 0 ∧ Gives (readG 4) sG (val 0x1122334455667788) sG ∧ Gives (readG 10) sG (val 0x100) sG ∧
    Gives (readG 11) sG (val 0xFFE) sG ∧ Gives (readG 0) sG (val 0) sG ∧ memAddr 0x100 0 0 0 = (0x100 : Nat) ∧ memAddr 0xFFE 0 0 0 = (0xFFE : Nat) ∧
    elemType .none 0xFFE = some .n64 ∧ elemType .i32 0 = some .i32 ∧ room sG 0 1 ∧
    (∀ x ∈ [(0x100, 4, [({ va := 0x100, pa := 0x200100, n := 4, leaf := 0x20000F } : Piece)]),
        (0xFFE, 8, [{ va := 0xFFE, pa := 0x200FFE, n := 2, leaf := 0x20000F }, { va := 0x1000, pa := 0x700000, n := 6, leaf := 0x700007 }])],
      let s1 := after (xlateSpan x.1 x.2.1 .store) sG
      Gives (xlateSpan x.1 x.2.1 .store) sG x.2.2 s1 ∧ (∀ p ∈ x.2.2, pteVers p.leaf = false) ∧
      runs ((lineAddrs (ranges x.2.2)).forM noteWrite) s1 () ∧ room (after ((lineAddrs (ranges x.2.2)).forM noteWrite) s1) 0 1) := by
  delta runs Starts Gives; decide +kernel

theorem test_stg_crosses : (match exec (.stg { d := 4, base := 11, index := 0, scale := 0, t := .none, off := 0 }) sG with
    | .next t => decide ((t.task 0).units = 1 ∧ (t.task 0).commit.length = 2 ∧ t.mem = sG.mem ∧
        (t.task 0).ownBytes [(0x700000, 6)] = [(0, 0x66), (1, 0x55), (2, 0x44), (3, 0x33), (4, 0x22), (5, 0x11)])
    | _ => false) = true := by decide +kernel

theorem witness_WaitAndPrefetchResults : Starts false sG 0 ∧ Gives (readG 10) sG (val 0x100) sG ∧ Gives (readG 13) sG (val 0x103) sG ∧
    Gives (readG 0) sG (val 0) sG ∧ Gives (readG 5) sG (val 1) sG ∧ 0x103 % elemBytes .n32 ≠ 0 ∧ 0x100 % elemBytes .n32 = 0 ∧ (sG.ctx 0).detlvl ≠ 2 ∧
    (let y : Piece := { va := 0x100, pa := 0x200100, n := 4, leaf := 0x20000F }
     let p := (y.pa, y.n)
     let s1 := after (xlateSpan 0x100 4 .load) sG
     let s2 := after (noteRead p.1) s1
     queueHasRoom sG 0 3 ∧ Gives (xlateSpan 0x100 4 .load) sG [y] s1 ∧ Gives (readInOrder [p]) s1 () s1 ∧ runs (noteRead p.1) s1 () ∧
     waitHit 4 (widen .n32 (Num.ofBytes (s2.readParts [p]))) 0 1 ∧ ¬ waitHit 4 (widen .n32 (Num.ofBytes (s2.readParts [p]))) 1 1 ∧
     runs (pushQueue 3 (val 0) 1) (s2.seeParts s2.focus [p]) ()) ∧
    memAddr 0x100 1 2 16 = 0x114 ∧ (sG.translate 0 0 0x114 true .load).1 = .ok 0x200114 0x20000F ∧
    memAddr 0x100 0 0 0x3FFF00 = 0 ∧ memAddr 0x100 0 0 0x200000 < 0 := by
  delta runs Starts Gives; decide +kernel

theorem test_wtv_hit : (match exec (.wtvEq { q := some 3, a := 10, b := 0, c := 5, t := .n32 }) sG with
    | .next t => decide ((t.task 0).queue 3 = [.word (val 0)] ∧ (t.task 0).pc = 8)
    | _ => false) = true := by decide +kernel

theorem test_wtv_ne_parks : (match exec (.wtvNe { q := some 3, a := 10, b := 0, c := 5, t := .n32 }) sG with
    | .next t => decide ((t.task 0).queue 3 = [] ∧ (t.task 0).pc = 0 ∧ (t.task 0).stat ≠ .running)
    | _ => false) = true := by decide +kernel

/-- Context 0 has region 5 of 64 lines at 0x2000. -/
def sV : State := sG.modCtx 0 (fun c =>
  { c with
    vrbase := 1
    regions := [(5, { valid := true, base := 0x2000, closed := false, floor := 0, lines := 64, dir := 0x800000, held := false, holder := 0 })] })

theorem witness_VersionResults : Starts false sV 0 ∧ Gives (readG 12) sV (val 0x2040) sV ∧ Gives (readG 5) sV (val 1) sV ∧
    Gives (readG 4) sV (val 0x1122334455667788) sV ∧ memAddr 0x2040 0 0 0 = (0x2040 : Nat) ∧ elemType .i32 0x2040 = some .i32 ∧
    (let s1 := after (xlateSpan 0x2040 4 .load) sV
     Gives (xlateSpan 0x2040 4 .load) sV [{ va := 0x2040, pa := 0x701040, n := 4, leaf := versLeaf }] s1 ∧ queueHasRoom sV 0 2 ∧ Gives (versionLine versLeaf 0x2040 4) s1 (5, 0x800010) s1 ∧
     (s1.task 0).pendingStv 0x701040 = none ∧ runs (noteRead 0x701040) s1 () ∧ runs (track 0x701040) (after (noteRead 0x701040) s1) ()) ∧
    (let s1 := after (xlateSpan 0x2040 4 .store) sV
     Gives (xlateSpan 0x2040 4 .store) sV [{ va := 0x2040, pa := 0x701040, n := 4, leaf := versLeaf }] s1 ∧ Gives (versionLine versLeaf 0x2040 4) s1 (5, 0x800010) s1 ∧
     (s1.task 0).commit = [] ∧ runs (noteWrite 0x701040) s1 () ∧ room (after (noteWrite 0x701040) s1) 0 1) ∧
    (5 < 4096 ∧ (sV.ctx 0).vrbase.getLsbD 0 = true ∧ (sV.region 0 5).valid = true ∧ (sV.region 0 4095).valid = false ∧ room sV 0 1) := by
  delta runs Starts Gives; decide +kernel

theorem test_stv_then_ldv : (match exec (.stvAt 4 12 5 .i32 0) sV with
    | .next t => decide ((t.task 0).pendingStv 0x701040 = some (some 1) ∧ (t.task 0).units = 1 ∧ t.mem = sV.mem)
    | _ => false) = true := by decide +kernel

theorem test_ldv : (match exec (.ldvLe 2 12 5 .i32 4) sV with
    | .next t => decide ((t.task 0).queue 2 = [.await 1] ∧ t.pending = [.versionRequest 0 0 1])
    | _ => false) = true := by decide +kernel

theorem test_vfloor_no_region : nextIs (exec (.vfloor 4 5) sV) (trapped sV 0 false 14 0 []) = true := by decide +kernel

theorem witness_AtomicResults : Starts false sG 0 ∧ Gives (readG 10) sG (val 0x100) sG ∧ Gives (readG 5) sG (val 1) sG ∧
    (let s1 := after (atomicTarget 0x100 (tyBytes .i32) true) sG
     let s2 := after (noteWrite 0x200100) s1
     Gives (atomicTarget 0x100 (tyBytes .i32) true) sG (0x100, 0x200100, 0x20000F) s1 ∧ Gives (noteWrite 0x200100) s1 () s2 ∧
     runs (nonReplayable true) s2 ()) ∧
    (let s1 := after (atomicTarget 0x100 (tyBytes .f32) false) sG
     let s2 := after (noteWrite 0x200100) s1
     Gives (atomicTarget 0x100 (tyBytes .f32) false) sG (0x100, 0x200100, 0x20000F) s1 ∧ Gives (noteWrite 0x200100) s1 () s2 ∧
     room s2 0 1) := by
  delta runs Starts Gives; decide +kernel

theorem test_amo : (match exec (.amoAdd { a := 10, b := 5, c := 0, t := .i32 }) sG with
    | .next t => decide ((t.task 0).queue 11 = [.await 1] ∧ (t.task 0).loads.length = 1 ∧ (t.task 0).replayable = false ∧ t.mem = sG.mem)
    | _ => false) = true := by decide +kernel

theorem test_amo_misaligned : nextIs (exec (.amoCas { a := 13, b := 5, c := 0, t := .i16 }) sG) (trapped sG 0 false 26 1 []) = true := by
  decide +kernel

theorem witness_SequentiallyConsistentResults : Starts false sG 0 ∧ Gives (readG 10) sG (val 0x100) sG ∧ Gives (readG 0) sG (val 0) sG ∧
    memAddr 0x100 0 0 0 = (0x100 : Nat) ∧
    (let pa := 0x200100
     let s1 := after (atomicTarget 0x100 (tyBytes .i32) false) sG
     let s2 := after (noteWrite pa) s1
     Gives (atomicTarget 0x100 (tyBytes .i32) false) sG (0x100, pa, 0x20000F) s1 ∧ Gives (checkKeyNow 0x20000F) s1 () s1 ∧
     Gives (noteWrite pa) s1 () s2 ∧ runs (nonReplayable true) s2 () ∧ room (after (nonReplayable true) s2) 0 0) ∧
    (let pa := 0x200100
     let s1 := after (xlate 0x100 .load) sG
     let s2 := after (noteRead pa) s1
     Gives (xlate 0x100 .load) sG (pa, 0x20000F) s1 ∧ paKind pa = .hbm ∧ s1.paOk pa = true ∧ pteVers 0x20000F = false ∧
     Gives (checkRace 0x20000F) s1 () s1 ∧ Gives awaitPuts s1 () s1 ∧ Gives (checkBulk pa 4) s1 () s1 ∧ Gives (rawSpinCheck [(pa, 4)]) s1 () s1 ∧ Gives (noteRead pa) s1 () s2 ∧ runs (nonReplayable true) s2 ()) ∧
    (let s1 := after (atomicTarget 0x100 (tyBytes .n64) true) sG
     let s2 := after (noteWrite 0x200100) s1
     Gives (atomicTarget 0x100 (tyBytes .n64) true) sG (0x100, 0x200100, 0x20000F) s1 ∧ Gives (noteWrite 0x200100) s1 () s2 ∧
     runs (nonReplayable true) s2 ()) := by
  delta runs Starts Gives; decide +kernel

theorem test_scst : (match exec (.scst { d := 4, base := 10, index := 0, scale := 0, t := .i32, off := 0 }) sG with
    | .next t => decide (t.announce.length = 1 ∧ (t.task 0).loads.length = 1 ∧ t.pending = [.waggleWindow] ∧ t.mem = sG.mem ∧
        (t.task 0).replayable = false ∧ (t.task 0).units = 0)
    | _ => false) = true := by decide +kernel

/-! ### Bulk words, counters, joins, keys, sections -/

def sK : State := at0 0x57000000A0280000 [(4, 0x1040), (5, 0x100), (6, 0x40000), (7, 0x3FFC0), (8, 0x100 * 1), (9, 0x80000000100), (10, 0x80000000101),
  (11, 0x4000000000000000), (12, 5), (13, 0x2000), (14, 0x240), (15, 7), (16, 2 ^ 31), (17, 0x1240)]

theorem witness_GetPutAndCounterResults : Starts false sK 0 ∧ Gives (readG 6) sK (val 0x40000) sK ∧ Gives (readG 7) sK (val 0x3FFC0) sK ∧
    Gives (readG 5) sK (val 0x100) sK ∧ ¬ goodControl 0 ∧ ¬ goodControl 0x80000000101 ∧ goodControl 0x100 ∧ goodControl 0x80000000100 ∧
    ¬ goodControl (2 ^ 44 + 0x100) ∧ (sK.core 0).gp.length < 8 ∧ (sK.task 0).sect = none ∧ (sK.task 0).bulk = [] ∧
    (let s := sK.modTask 0 (fun t => { t with bulk := [{ pa := 0x7FFF80, len := 64, pc := 0 }] })
     let g := bulkCommand s 0 false 0x3FFC0 0x100 0x3FFC0 0x100
     Starts false s 0 ∧ (s.task 0).bulk ≠ [] ∧ Gives awaitPuts s () s ∧ ∀ p ∈ reachedBy s 0 g, Gives (checkBulk p.1 p.2) s () s) ∧
    8 ≤ ((sK.modCore 0 (fun c => { c with gp := List.replicate 8 (bulkCommand sK 0 true 0 0 0 0) })).core 0).gp.length ∧
    (Tab.get 0 (sK.task 0).cc 3).toInt ≤ 0 ∧
    (let s := sK.modTask 0 (fun t => { t with cc := [(3, 1)] })
     Starts false s 0 ∧ 0 < (Tab.get 0 (s.task 0).cc 3).toInt ∧ s.names 0 3 = false) ∧
    (let s := (sK.modTask 0 (fun t => { t with cc := [(3, 1)] })).modCtx 0 (fun c => { c with detlvl := 0 })
     let s := { s with invals := [{ id := 0, kind := 2, va := 0, ctx := 0, tid := 0, cc := 3 }] }
     Starts false s 0 ∧ s.names 0 3 = true) := by
  delta Starts Gives; decide +kernel

theorem test_get_enqueues : (match exec (.get { d := 7, a := 5, b := 7, c := 5 }) sK with
    | .next t => decide ((t.core 0).gp.length = 1 ∧ (t.task 0).pc = 8 ∧ t.mem = sK.mem)
    | _ => false) = true := by decide +kernel

theorem test_put_address : nextIs (exec (.put { d := 6, a := 5, b := 7, c := 5 }) sK) (trapped sK 0 false 23 3 []) = true := by decide +kernel

theorem test_ccwait_never : nextIs (exec (.ccwait 3) (sK.modTask 0 (fun t => { t with cc := [(3, 1)] })))
    (trapped (sK.modTask 0 (fun t => { t with cc := [(3, 1)] })) 0 false 25 0 [3]) = true := by decide +kernel

theorem test_ccset : (match exec (.ccset 15 11) sK with
    | .next t => decide (Tab.get 0 (t.task 0).cc 15 = 0 ∧ (t.task 0).pc = 8)
    | _ => false) = true := by decide +kernel

/-- `logp` of an `or` of n16, and of function 8; a join record's line; a fence with a returning atomic outstanding in the core's hive. -/
theorem witness_LogJoinAndFenceResults : Starts false sK 0 ∧ Gives (readG 14) sK (val 0x240) sK ∧ Gives (readG 5) sK (val 0x100) sK ∧
    Gives (readG 17) sK (val 0x1240) sK ∧ Gives (readG 15) sK (val 7) sK ∧ Gives (readG 16) sK (val (2 ^ 31)) sK ∧ (sK.task 0).sched = [] ∧
    (0x4700 / 2 ^ 16 % 2 ^ 11 = 0 ∧ 0x4700 % 2 ^ 8 = 0 ∧ 0x4700 / 2 ^ 12 % 16 = AFn.code .and ∧ 0x4700 / 2 ^ 8 % 16 ≠ 15 ∧
      (tyOf (0x4700 / 2 ^ 8 % 16)).isIn AFn.and.types = true) ∧ room sK 0 1 ∧ 0x1240 % 2 ^ 8 ≠ 0 ∧ 8 ≤ 0x8700 / 2 ^ 12 % 16 ∧
    (let s1 := after (joinTarget (val 0x240)) sK
     Gives (joinTarget (val 0x240)) sK (0x240, 0x200240, 0x20000F) s1 ∧ Gives (readG 15) s1 (val 7) s1 ∧ Gives (readG 16) s1 (val (2 ^ 31)) s1 ∧
     room s1 0 1) ∧
    ¬ (sK.task 0).loads ≠ [] ∧ (sK.core 0).gp = [] := by
  delta Starts Gives; decide +kernel

/-- Outstanding atomics to core 0 and to a core of another hive. -/
def fenced (owner : Nat) : State := sG.modTask 0 (fun t => { t with loads := [
  { id := 9, kind := .amo owner, fifo := 11, t := .i32, va := 0, parts := [], own := [], ownTag := 0, pc := 0, parked := false, sectioned := false }] })

theorem witness_fences : Starts false (fenced 16) 0 ∧ ((fenced 16).task 0).loads.head?.map (·.kind) = some (.amo 16) ∧ hiveOf 16 ≠ hiveOf 0 ∧
    hiveOf 3 = hiveOf 0 := by
  delta Starts Gives; decide +kernel

theorem test_fence_hive_passes : nextIs (exec .fenceH (fenced 16)) (retired false .next 0 (fenced 16)) = true := by decide +kernel

theorem test_fence_hive_waits : nextIs (exec .fenceH (fenced 3)) (((fenced 3).finish 0 false (.hold false)).cycle) = true := by decide +kernel

theorem test_fence_device_waits : nextIs (exec .fenceD (fenced 16)) (((fenced 16).finish 0 false (.hold false)).cycle) = true := by decide +kernel

theorem test_fence_system_waits : nextIs (exec .fenceS (fenced 16)) (((fenced 16).finish 0 false (.hold false)).cycle) = true := by decide +kernel

theorem test_jset : (match exec (.jset { a := 14, b := 15, c := 5 }) sK with
    | .next t => decide ((t.task 0).units = 1 ∧ (t.task 0).pc = 8 ∧ t.mem = sK.mem)
    | _ => false) = true := by decide +kernel

theorem test_jset_count : nextIs (exec (.jset { a := 14, b := 16, c := 5 }) sK) (trapped sK 0 false 26 5 []) = true := by decide +kernel

theorem test_logp_function : nextIs (exec (.logp { a := 14, b := 15, c := 17 }) sK) (trapped sK 0 false 26 7 []) = true := by decide +kernel

/-- Core 0 holds the key of region 5. -/
def sKey : State := (sV.modCore 0 (fun c => { c with keys := [5] })).modTask 0 (fun t => { t with g := [(4, val 5), (5, val 0x2000), (6, val 0x4000),
  (7, val 4096), (8, val 6)] })

theorem witness_KeyResults : Starts false sKey 0 ∧ Gives (readG 4) sKey (val 5) sKey ∧ Gives (readG 5) sKey (val 0x2000) sKey ∧
    Gives (readG 6) sKey (val 0x4000) sKey ∧ Gives (readG 7) sKey (val 4096) sKey ∧ (sKey.region 0 5).valid = true ∧ (sKey.task 0).commit = [] ∧
    0 * 4096 + 5 ∈ (sKey.core 0).keys ∧ room sKey 0 1 ∧ (0x2000 : Word).getLsbD 13 = true ∧ 2 ^ 14 ≤ 0x4000 ∧
    runs (writeG 3 { v := BitVec.ofNat 64 ((if (sKey.region 0 5).held then 2 ^ 63 else 0) + (sKey.region 0 5).holder), tag := 0 } 4) sKey () := by
  delta runs Starts Gives; decide +kernel

theorem test_kpass_releases : nextIs (exec (.kpass 4 5) sKey) (retired false .next 0 (buffering sKey 0 (.kpass 5 none) 1 0)) = true := by
  decide +kernel

theorem test_kpass_reserved : nextIs (exec (.kpass 4 6) sKey) (trapped sKey 0 false 27 0 [5]) = true := by decide +kernel

theorem witness_LockElisionResults : Starts false sK 0 ∧ Gives (readG 14) sK (val 0x240) sK ∧ Gives (readG 5) sK (val 0x100) sK ∧
    (sK.task 0).sect = none ∧ 0x240 % 8 = 0 ∧
    (let ps : List Piece := [{ va := 0x240, pa := 0x200240, n := 8, leaf := 0x20000F }]
     let parts := ranges ps
     let s1 := after (xlateSpan 0x240 8 .load) sK
     let s2 := after ((lineAddrs parts).forM noteRead) s1
     0x100 % 8 = 0 ∧ Gives (xlateSpan 0x240 8 .load) sK ps s1 ∧ (∀ y ∈ ps, Gives (checkRace y.leaf) s1 () s1) ∧ Gives (readInOrder parts) s1 () s1 ∧
     Gives ((lineAddrs parts).forM noteRead) s1 () s2 ∧ Num.ofBytes (overlay (s2.readParts parts) ((s2.task 0).ownBytes parts)) = 0) ∧
    (let s := sK.writeWords 0x200240 [1]
     let s2 := after ((lineAddrs [(0x200240, 8)]).forM noteRead) (after (xlateSpan 0x240 8 .load) s)
     Starts false s 0 ∧ Num.ofBytes (overlay (s2.readParts [(0x200240, 8)]) ((s2.task 0).ownBytes [(0x200240, 8)])) ≠ 0) := by
  delta Starts Gives; decide +kernel

theorem test_lkel_free : (match exec (.lkel 14 5) sK with
    | .next t => decide ((t.task 0).sect = some { lines := [0x8009], base := 0, target := 0x100, closed := false, dead := none } ∧ (t.task 0).pc = 8)
    | _ => false) = true := by decide +kernel

theorem test_lkel_held : (match exec (.lkel 14 5) (sK.writeWords 0x200240 [1]) with
    | .next t => decide ((t.task 0).sect = none ∧ (t.task 0).pc = 0x100 ∧ (t.task 0).reg 1 = val 2)
    | _ => false) = true := by decide +kernel

/-! ### Messages, tags, deques, nets -/

/-- g4 holds a header to core 9, tag 16, prio 7, len 2; g5 one of len 9; g6 a spawn's; g7 an entry. -/
def sM : State := user0 0x6000184140000000 [(4, 9 * 2 ^ 18 + 16 * 2 ^ 12 + 7 * 2 ^ 9 + 2 * 32), (5, 16 * 2 ^ 12 + 9 * 32), (6, 9 * 2 ^ 18 + 32), (7, 0x800),
  (8, 0x804), (9, 5 * 2 ^ 32 + 3), (10, 0x1240), (11, 3 * 2 ^ 32 + 3), (12, 0x10000), (13, 0x8000), (14, 63), (15, 0x2E3)]

theorem witness_SendAndSpawnResults : Starts false sM 0 ∧ Starts true sM 0 ∧
    Gives (readG 4) sM (val (9 * 2 ^ 18 + 16 * 2 ^ 12 + 7 * 2 ^ 9 + 2 * 32)) sM ∧ Gives (readG 5) sM (val (16 * 2 ^ 12 + 9 * 32)) sM ∧
    Gives (readG 6) sM (val (9 * 2 ^ 18 + 32)) sM ∧ Gives (readG 7) sM (val 0x800) sM ∧ Gives (readG 8) sM (val 0x804) sM ∧
    headerGood sM 0 (BitVec.ofNat 64 (9 * 2 ^ 18 + 16 * 2 ^ 12 + 7 * 2 ^ 9 + 2 * 32)) 62 true ∧ payloadReady sM 0 62 2 ∧ room sM 0 (unitsOf 2) ∧
    8 < hdrLen (BitVec.ofNat 64 (16 * 2 ^ 12 + 9 * 32)) ∧
    Gives (xlate 0x800 .load) sM (0x200800, 0x20000F) (after (xlate 0x800 .load) sM) ∧ room (after (xlate 0x800 .load) sM) 0 (unitsOf 2) ∧
    (let h := BitVec.ofNat 64 (9 * 2 ^ 18 + 32)
     hdrLen h ≤ 8 ∧ 63 + hdrLen h ≤ 64 ∧ hdrTrm h = 0 ∧ hdrTag h = 0 ∧ hdrFar h = false ∧ payloadReady sM 0 63 (hdrLen h) ∧
     room sM 0 (unitsOf (hdrLen h + 1))) ∧ (sM.task 0).sched = [] ∧ (sM.ctx 0).detlvl = 0 := by
  delta Starts Gives; decide +kernel

/-- A user task's prio 7 goes as 6. -/
theorem test_send_prio : (match exec (.send 4 6) sM with
    | .next t => match (t.task 0).commit with
      | [{ eff := .send m, units := 1, .. }] =>
        decide (hdrPrio m.hdr = 6 ∧ m.dst = 9 ∧ m.payload = [val (9 * 2 ^ 18 + 32), val 0x800] ∧ hdrTag m.hdr = 16)
      | _ => false
    | _ => false) = true := by decide +kernel

theorem test_spawn_asks : (match exec (.spawn { d := 3, a := 6, b := 7, c := 63 }) sM with
    | .next t => decide ((t.task 0).pc = 0 ∧ (t.task 0).wait ≠ .none ∧ t.pending.length = 1 ∧ (t.task 0).commit = [])
    | _ => false) = true := by decide +kernel

theorem test_spawn_entry : nextIs (exec (.spawn { d := 3, a := 6, b := 8, c := 0 }) sM) (trapped sM 0 true 22 6 []) = true := by decide +kernel

/-- A group that core 0 belongs to. -/
theorem witness_RouteTagAndBarrierResults : Starts false sM 0 ∧ Gives (readG 12) sM (val 0x10000) sM ∧ Gives (readG 13) sM (val 0x8000) sM ∧
    (0x10000 : Nat) % 2 ^ 16 = 0 ∧ (sM.task 0).commit = [] ∧ (∀ i, i < 64 → (0 : Word).getLsbD i = enables sM 0 0 i) ∧
    runs (writeG 3 (val 0) 1) (buffering sM 0 (.tagen 0x10000 0x8000) 1 0) () ∧ (∀ i, i < 64 → (0 : Word).getLsbD i = (sM.tagEntry 0 0 i).pend) ∧
    Gives (readG 14) sM (val 63) sM ∧ Gives (readG 7) sM (val 0x800) sM ∧ Gives (readG 15) sM (val 0x2E3) sM ∧ ¬ badTsset sM 0 63 0x800 0x8FF ∧
    badTsset sM 0 15 0x800 0x8FF ∧ badTsset sM 0 64 0x800 0x8FF ∧ badTsset sM 0 63 0x804 0x8FF ∧ badTsset sM 0 63 0x800 0x7000 ∧
    (let h := BitVec.ofNat 64 (9 * 2 ^ 18 + 16 * 2 ^ 12 + 7 * 2 ^ 9 + 2 * 32)
     hdrTag h ≠ 0 ∧ hdrTag h ≠ 15 ∧ 16 ≤ hdrTag h ∧ hdrFar h = false ∧ hdrTrm h = 0) ∧ 0x800 % 256 ∉ sM.memberGroups 0 0 ∧ room sM 0 1 := by
  delta runs Starts Gives; decide +kernel

theorem test_tagen_low_tags : (match exec (.tagen 3 13 12) sM with
    | .next t => decide ((t.task 0).pc = 0 ∧ (t.task 0).commit = [] ∧ t.machineErrors = [] ∧ (t.task 0).stat ≠ .running)
    | _ => false) = true := by decide +kernel

theorem test_gsync_no_group : nextIs (exec (.gsync 7 4) sM) (trapped sM 0 false 22 8 []) = true := by decide +kernel

theorem witness_DoneResults : Starts true sM 0 ∧ (sM.task 0).inl = [] ∧ sM.orderedGroup (sM.task 0) = none ∧ sM.commitReady 0 = true ∧
    (let s := sM.modTask 0 (fun t => { t with inl := [{ g := [], q := [], fstat := 0, loops := [], cc := [], pc := 0x40, d := 3 }] })
     Starts true s 0 ∧ (s.task 0).inl.length = 1) ∧
    (let s := sM.modCore 0 (fun c => { c with gp := [{ isPut := false, d := 0, a := 0, ctl := 0, list := 0, known := true, idx := [0], slot := 0, ctx := 0, tid := 0, pc := 0, first := 0
                                                       els := [], landed := [], halted := false, killed := false }] })
     Starts true s 0 ∧ s.commitReady 0 = false) := by
  delta Starts Gives; decide +kernel

theorem test_done_frees_slot : (match exec .done sM with
    | .next t => decide ((t.task 0).stat = .free ∧ (t.core 0).running = none)
    | _ => false) = true := by decide +kernel

theorem test_done_inline : (match exec .done (sM.modTask 0 (fun t => { t with inl := [{ g := [(5, val 9)], q := [], fstat := 0, loops := [], cc := [], pc := 0x40, d := 3 }] })) with
    | .next t => decide ((t.task 0).pc = 0x40 ∧ (t.task 0).reg 3 = val 1 ∧ (t.task 0).reg 5 = val 9 ∧ (t.task 0).reg 4 = val 0 ∧ (t.task 0).inl = [])
    | _ => false) = true := by decide +kernel

def sD : State := withDeque sM 0 { ranges := [{ lo := 0, hi := 4, tag := 1 }, { lo := 10, hi := 15, tag := 2 }], reserved := 29 }

theorem witness_DequeResults : Starts false sD 0 ∧ Gives (readG 9) sD (val (5 * 2 ^ 32 + 3)) sD ∧ Gives (readG 11) sD (val (3 * 2 ^ 32 + 3)) sD ∧
    Gives (readG 10) sD (val 0x1240) sD ∧ (dequeOf sD 0).ranges.length + (dequeOf sD 0).reserved = 31 ∧ room sD 0 1 ∧
    (let r : Range := { lo := 3, hi := 5, tag := 0x1240 }
     runs (writeG 3 (val 0) 1) ((withDeque (buffering sD 0 (.push r) 1 0) 0 { (dequeOf sD 0) with reserved := 30 }).modTask 0
       (fun t => { t with pushes := t.pushes + 1 })) ()) ∧
    runs (writeG 3 (val 2) 1) sD () ∧
    (let s := withDeque sD 0 { (dequeOf sD 0) with reserved := 30 }
     Starts false s 0 ∧ 32 ≤ (dequeOf s 0).ranges.length + (dequeOf s 0).reserved ∧ runs (writeG 3 (val 1) 1) s ()) ∧
    (let r : Range := { lo := 10, hi := 15, tag := 2 }
     (dequeOf sD 0).ranges = [{ lo := 0, hi := 4, tag := 1 }] ++ [r] ∧
     runs (writePair 62 (some r)) (holding (withDeque sD 0 { ranges := [{ lo := 0, hi := 4, tag := 1 }], reserved := 30 }) 0 r) () ∧ r.hi - r.lo ≠ 1 ∧
     runs (writePair 62 (some (firstHalf r)))
       (holding (withDeque sD 0 { ranges := [{ lo := 0, hi := 4, tag := 1 }, secondHalf r], reserved := 30 }) 0 (firstHalf r)) ()) ∧
    (dequeOf sM 0).ranges = [] ∧ Starts false sM 0 ∧ runs (writePair 62 none) sM () ∧ runs (writeG 3 (val 2) 1) sD () ∧
    (sD.task 0).sched = [] ∧ (sD.ctx 0).detlvl = 0 := by
  delta runs Starts Gives; decide +kernel

/-- Five coordinates split into three and two. -/
theorem test_dsplit : (match exec (.dsplit 4) sD with
    | .next t => decide ((t.task 0).reg 4 = val (13 * 2 ^ 32 + 10) ∧ (t.task 0).reg 5 = val 2 ∧
        (dequeOf t 0).ranges = [{ lo := 0, hi := 4, tag := 1 }, { lo := 13, hi := 15, tag := 2 }])
    | _ => false) = true := by decide +kernel

theorem test_dpush_empty : nextIs (exec (.dpush 3 11 10) sD) (retired false .next 0 (after (writeG 3 (val 2) 1) sD)) = true := by decide +kernel

def sN : State := ((mapped (at0 0x6E00182100000000 [(4, 0x70001), (5, 0x1001), (6, 0x3002), (7, 0x1000), (8, 0x2000), (9, 0x1040), (10, 0x1003)])
  0x1000 0x700807).modCtx 0 (fun c => { c with nhbase := 1 })).modCc 0 0 (fun c => { c with nodeCache := [0x1080, 0x10C0] })

theorem witness_NetWordResults : Starts false sN 0 ∧ Gives (readG 4) sN (val 0x70001) sN ∧ 0x50001 % 2 ^ 16 ≠ 0 ∧
    0x50001 / 2 ^ 16 % 8 ≤ 6 ∧ (sN.ctx 0).nhbase.getLsbD 0 = true ∧ (sN.cc 0 0).nodeCache = [0x1080, 0x10C0] ∧
    (let s1 := after (xlate 0x1080 .store) sN
     Gives (xlate 0x1080 .store) sN (0x700080, 0x700807) s1 ∧ pteHome 0x700807 = 2 ∧ Gives (checkCapacity 0x700080 false) s1 () s1 ∧ room s1 0 2) ∧
    Gives (readG 5) sN (val 0x1001) sN ∧ Gives (readG 6) sN (val 0x3002) sN ∧ Gives (readG 7) sN (val 0x1000) sN ∧ Gives (readG 8) sN (val 0x2000) sN ∧
    Gives (readG 9) sN (val 0x1040) sN ∧ (sN.task 0).freed = [] ∧ room sN 0 1 ∧ 0x1001 % 64 ≠ 0 ∧ 0x1040 % 64 = 0 ∧
    (let s1 := after (xlate 0x1000 .store) sN
     Gives (xlate 0x1000 .store) sN (0x700000, 0x700807) s1 ∧ paKind 0x700000 = .hbm ∧ s1.paOk 0x700000 = true ∧ pteVers 0x700807 = false ∧ room s1 0 1) := by
  delta Starts Gives; decide +kernel

theorem test_nalloc : (match exec (.nalloc 3 4) (sN.modTask 0 (fun t => t.setReg 4 (val 0x50001))) with
    | .next t => decide ((t.task 0).reg 3 = val 0x1080 ∧ (t.cc 0 0).nodeCache = [0x10C0] ∧ (t.task 0).units = 2 ∧ (t.task 0).nodes = [0x1080])
    | _ => false) = true := by decide +kernel

theorem test_nfree_pointer : nextIs (exec (.nfree 5) sN) (trapped sN 0 false 66 0 []) = true := by decide +kernel

theorem test_tshr : (match exec (.tshr 9) sN with
    | .next t => match (t.task 0).commit with
      | [{ eff := .update u _, .. }] => decide (u.pa = 0x700000 ∧ u.va = 0x1000 ∧ u.kind = .tshr)
      | _ => false
    | _ => false) = true := by decide +kernel

/-! ### System words -/

def sSys : State := at0 0x2900000000001234 [(4, 0x500000), (5, 0x520000), (6, 3), (7, 0x4000000000000000), (8, 0x8000000000000010), (9, 0x8000000000000011),
  (10, 64), (11, 0x240)]

/-- A fibre saved from core 0 at 0x500000, and a trapped task of a stopped context at 0x520000. -/
def sSaved : State :=
  let e : Saved := { Saved.empty with state := 1, core := 0, task := { (sSys.task 0) with stat := .free } }
  let s : State := { sSys with saved := [(0x500000, e), (0x520000, { e with state := 2, task := { (sSys.task 0) with stat := .free, ctx := 1, pc := 0x40 } })] }
  (s.modCtx 1 (fun c => { c with stopped := true })).writeWords (0x520000 + 16) [0x40]

theorem witness_TrapAndFibreResults : Starts true sSaved 0 ∧ Starts true (user0 0x2900000000001234 []) 0 ∧
    ((user0 0x2900000000001234 []).task 0).super = false ∧ (sSaved.task 0).super = true ∧ reads sSaved 4 0x500000 ∧ reads sSaved 5 0x520000 ∧
    namesFibre sSaved 0 0x500000 ∧ ¬ namesFibre sSaved 0 0x520000 ∧ room sSaved 0 0 ∧ (savedOf sSaved 0x500000).pending = false ∧
    (sSaved.task 0).commit = [] ∧ runs (writeO (.g 3) (val 1) 4) sSaved () := by
  delta runs reads Starts Gives; decide +kernel

theorem test_trap_number : nextIs (exec (.trap 0x1234) (user0 0x2900000000001234 [])) (trapped (user0 0x2900000000001234 []) 0 true 30 0 [0x1234]) = true := by
  decide +kernel

theorem test_sys_state : nextIs (exec (.sysState (.g 3) (.g 4)) sSaved) (retired true .next 0 (after (writeO (.g 3) (val 1) 4) sSaved)) = true := by
  decide +kernel

theorem test_sys_kill_no_fibre : nextIs (exec (.sysKill (.g 5)) sSaved) (trapped sSaved 0 true 7 0 [0x520000]) = true := by decide +kernel

/-- A handler of core 0 that returns from the task saved at 0x520000. -/
theorem witness_TrapReturnResults : Starts true sSaved 0 ∧ (sSaved.task 0).super = true ∧ reads sSaved 5 0x520000 ∧ reads sSaved 4 0x500000 ∧
    eretTakes sSaved 0x520000 ∧ ¬ eretTakes sSaved 0x500000 ∧ room sSaved 0 0 ∧
    (let s2 := buffering sSaved 0 (.eret 0x520000 1) 0 0
     s2.orderedGroup (s2.task 0) = none ∧ s2.commitReady 0 = true) ∧
    Starts true (user0 0 []) 0 ∧ (∀ p ∈ sSaved.saved, p.2.pending = true → sSaved.canStart p.2.task.ctx = false) ∧
    (savedOf sSaved 0x520000).state = 2 ∧ (sSaved.ctx (savedOf sSaved 0x520000).task.ctx).stopped = true ∧
    sSaved.num (0x520000 + 16) 8 = (savedOf sSaved 0x520000).task.pc := by
  delta reads Starts Gives; decide +kernel

theorem test_eret_next : savedOf (sSaved.eret 0x520000 .next) 0x520000 = { (savedOf sSaved 0x520000) with
    named := true, task := (savedOf sSaved 0x520000).task.passWord } ∧ (savedOf sSaved 0x520000).task.passWord.pc = 0x48 := by decide +kernel

theorem test_eret_fibre : nextIs (exec (.eretRetry (.g 4)) sSaved) (trapped sSaved 0 true 7 0 [0x500000]) = true := by decide +kernel

theorem witness_SystemRegisterResults : Starts false sSys 0 ∧ Starts false (user0 0 []) 0 ∧ (sysAccess 0x120).1.allows true = true ∧
    (sysAccess 0x120).1.allows false = false ∧ (sysAccess 0x1C1).1.allows false = true ∧ (sysAccess 0x1C1).2.allows true = false ∧
    runs (writeO (.g 3) { v := sSys.readSys 0 0x1C1, tag := 0 } 4) sSys () ∧ (sSys.task 0).loads = [] ∧ reads sSys 6 3 ∧
    (sysAccess 0x140).2.allows true = true ∧ runs (sysWrite 0x140 3) sSys () ∧ (sysAccess 0x120).2.allows false = false ∧
    (let s := sSys.modTask 0 (fun t => { t with loads := ((fenced 16).task 0).loads })
     Starts false s 0 ∧ (s.task 0).loads ≠ []) := by
  delta runs reads Starts Gives; decide +kernel

theorem test_gsr_privileged : (match exec (.gsr (.g 3) 0x120) (user0 0 []) with
    | .next t => decide ((t.task 0).stat ≠ .running ∧ (t.task 0).reg 3 = val 0)
    | _ => false) = true := by decide +kernel

theorem test_ssr_fstat_clears : (match exec (.ssr 0x140 (.g 6)) (sSys.modTask 0 (fun t => { t with fstat := 0x3E })) with
    | .next t => decide ((t.task 0).fstat = 0x3C ∧ (t.task 0).pc = 8)
    | _ => false) = true := by decide +kernel

theorem witness_InvalidationWords : Starts false sSys 0 ∧ Starts false (user0 0 []) 0 ∧ reads sSys 4 0x500000 ∧ reads sSys 6 3 ∧
    sSys.accessesCovered [0] 0 0x500000 3 (sSys.killSize [0] none 0 0x500000 3) (0, 0) = false ∧
    sSys.accessesCovered (hiveCores 0) 2 0 0 (sSys.killSize (hiveCores 0) (some 0) 2 0 0) (0, 0) = false := by
  delta reads Starts Gives; decide +kernel

theorem test_tlbi_page : (match exec (.tlbiPage { a := .g 4, b := .g 0, scope := .core, cc := 0 }) (mapped (mapped sSys 0x500000 0x700007) 0x501000 0x701007) with
    | .next t => decide ((t.core 0).tlbD = [{ ctx := 0, va := 0x501000, size := 12, leaf := 0x701007, level := 1 }])
    | _ => false) = true := by decide +kernel

theorem test_tlbi_device : (match exec (.tlbiAll { a := .g 0, b := .g 0, scope := .dev, cc := 5 }) sSys with
    | .next t => decide (Tab.get 0 (t.task 0).cc 5 = 512 ∧ (t.task 0).pc = 8)
    | _ => false) = true := by decide +kernel

def ring1 (s : State) : State := s.modCtx 0 (fun c => { c with debugRing := some 0x600000 })

theorem witness_DebugAndCounterResults : Starts false sSys 0 ∧ Starts false (user0 0 []) 0 ∧ reads sSys 6 3 ∧ reads sSys 7 0x4000000000000000 ∧
    reads sSys 8 0x8000000000000010 ∧ reads sSys 9 0x8000000000000011 ∧ reads sSys 10 64 ∧ reads sSys 11 0x240 ∧ (sSys.ctx 0).debugRing = none ∧
    Starts false (ring1 sSys) 0 ∧ ((ring1 sSys).ctx 0).debugRing ≠ none ∧ runs (retire false .next) (ring1 sSys) () ∧
    runs (writeO (.g 3) (val 3) 4) sSys () ∧ 0x240 % 64 = 0 ∧ 3 % 64 ≠ 0 ∧
    (0x8000000000000010 / 2 ^ 62 = 2 ∧ 0x8000000000000010 / 2 ^ 16 % 2 ^ 46 = 0 ∧ ¬ 0x10 < 0x8000000000000010 % 2 ^ 16) ∧
    0x10 < 0x8000000000000011 % 2 ^ 16 ∧
    runs (writeO (.g 2) { v := counterWord (counterOf sSys 3), tag := 0 } 4)
      (withCounter sSys 3 { event := 0x10, count := 0, ovf := (counterOf sSys 3).pending, lost := false, pending := false }) () := by
  delta runs reads Starts Gives; decide +kernel

theorem test_pctl_event_17 : nextIs (exec (.pctlProgram (.g 3) (.g 6) (.g 9)) sSys) (trapped sSys 0 false 8 0 [0x8000000000000011]) = true := by
  decide +kernel

theorem test_dump_unaligned : nextIs (exec (.dump (.g 3) (.g 6) (.g 10)) sSys) (retired false .next 0 (after (writeO (.g 3) (val 3) 4) sSys)) = true := by
  decide +kernel

/-! ### Commands -/

def ng : Gates := { wait := none, sig := none }

/-- Pointers: g4 plain, g5 FP32, g6 to q4x with block 32, g7 reserved. -/
def sC : State := at0 0xA000104000000FD6 [(4, 0x1000), (5, 0x1000000000002000), (6, 0x8200000000000000), (7, 0xD000000000000000), (8, 2 ^ 57 - 1),
  (9, 1), (10, 2 ^ 24), (11, 2 ^ 32), (12, 0x0000100001000040), (13, 1024), (14, 2 ^ 37), (15, 16), (16, 0x1020), (17, 0x0000200001000040)]

/-- A full queue. -/
def full (s : State) (e : Engine) : State :=
  let c := commandOf s 0 (.std .nop) ng []
  sending (sending s e c) e c

theorem witness_VectorWordsIssue : vectorWord (.vadd { d := 1, a := 2, b := 3, sat := false, t := .i8, mode := .rne, pred := 0, gates := ng }) ng ∧
    Starts false sC 0 ∧ queueRoom sC .vector ∧ unordered sC 0 ∧ dataWord (.vbcast { d := 1, a := 4, t := .i8, pred := 0, gates := ng }) .vector ng 4 ∧
    Gives (readG 4) sC (val 0x1000) sC ∧ holdsG sC 8 (2 ^ 57 - 1) ∧ holdsG sC 9 1 ∧ holdsG sC 0 0 ∧
    (2 ^ 57 ≤ (((2 ^ 57 - 1) % 2 ^ 57 : Nat) : Int) + (1 : Word).toInt) ∧ holdsG sC 5 0x1000000000002000 ∧ holdsG sC 7 0xD000000000000000 ∧
    0x1000000000002000 / 2 ^ 60 ∈ [1, 2, 3, 4, 5, 6, 7, 9, 10, 11, 12] ∧ 0xD000000000000000 / 2 ^ 60 ∈ [0, 13, 14, 15] ∧
    (let s := full sC .vector
     Starts false s 0 ∧ ¬ queueRoom s .vector ∧ (s.core s.focus).vq.started = []) := by
  refine ⟨.inl ⟨_, rfl, .inl rfl⟩, ?_⟩
  have h : dataWord (.vbcast { d := 1, a := 4, t := .i8, pred := 0, gates := ng }) .vector ng 4 := .inr (.inl ⟨_, rfl, rfl, rfl, rfl⟩)
  have h' : Starts false sC 0 ∧ queueRoom sC .vector ∧ unordered sC 0 := by delta Starts Gives; decide +kernel
  refine ⟨h'.1, h'.2.1, h'.2.2, h, ?_⟩
  delta Starts holdsG Gives; decide +kernel

theorem test_vadd_issues : (match exec (.vadd { d := 1, a := 2, b := 3, sat := false, t := .i8, mode := .rne, pred := 0, gates := ng }) sC with
    | .next t => decide ((t.core 0).vq.queue.length = 1 ∧ (t.task 0).pc = 8)
    | _ => false) = true := by decide +kernel

theorem test_third_command_stalls : (match exec (.vbcast { d := 1, a := 4, t := .i8, pred := 0, gates := ng }) (full sC .vector) with
    | .next t => decide ((t.core 0).vq.queue.length = 2 ∧ (t.task 0).pc = 0)
    | _ => false) = true := by decide +kernel

theorem test_vldf_format : nextIs (exec (.vldf { d := 1, a := 7, b := 0, sat := false, t := .f32, mode := .rne, pred := 0, gates := ng }) sC)
    (trapped sC 0 false 10 0 []) = true := by decide +kernel

theorem witness_MatrixWordsIssue : matrixWord (.mmz { n := 15, half := .lo } ng) ng ∧ Starts false sC 0 ∧ queueRoom sC .matrix ∧ unordered sC 0 ∧
    dataWord (.msclAll { d := { n := 0, half := .full }, a := 9, h := false, sat := false, mode := .rne, gates := ng }) .matrix ng 9 ∧
    Gives (readG 9) sC (val 1) sC ∧ holdsG sC 4 0x1000 ∧ holdsG sC 5 0x1000000000002000 ∧ holdsG sC 0 0 ∧ holdsG sC 11 (2 ^ 32) ∧ holdsG sC 16 0x1020 ∧
    holdsG sC 13 1024 ∧ matrixPointer 0x1000 .bf16 ∧ matrixPointer 0x1000000000002000 .f32 ∧ ¬ matrixPointer 0x8200000000000000 .q4x ∧ 0x1020 % 64 ≠ 0 := by
  have h' : Starts false sC 0 ∧ queueRoom sC .matrix ∧ unordered sC 0 := by delta Starts Gives; decide +kernel
  refine ⟨.inl ⟨_, rfl⟩, h'.1, h'.2.1, h'.2.2, .inr (.inr (.inr ⟨_, rfl, rfl, rfl, rfl⟩)), ?_⟩
  delta holdsG Gives; decide +kernel

theorem test_mld_reserved : nextIs (exec (.mld { d := { n := 0, half := .full }, a := 5, b := 11, t := .f32, sat := false, mode := .rne, gates := ng }) sC)
    (trapped sC 0 false 20 2 []) = true := by decide +kernel

theorem test_mrd_el_index : nextIs (exec (.mrdEl { a := { n := 0, half := .full }, b := 13, h := false, gates := ng }) sC)
    (trapped sC 0 false 20 2 []) = true := by decide +kernel

/-- A copy of one byte, of 2^24; one of two rows of 64 bytes, in one plane; an attention descriptor at 0x1000. -/
theorem witness_CopyAndAttentionWordsIssue : Starts false sC 0 ∧ queueRoom sC .copy ∧ queueRoom sC .vector ∧ holdsG sC 4 0x1000 ∧ holdsG sC 9 1 ∧
    holdsG sC 10 (2 ^ 24) ∧ holdsG sC 0 0 ∧ runs (noteCopy [(0x1000, 1)] [(0x1000, 1)] true true) sC () ∧
    holdsG sC 12 0x0000100001000040 ∧ 0x0000100001000040 % 2 ^ 24 ≠ 0 ∧ 0x0000100001000040 / 2 ^ 24 % 2 ^ 20 = 1 ∧ 0x0000100001000040 / 2 ^ 44 ≤ 1 ∧
    runs (noteCopy [(0x1000, 64)] [(0x1000, 64)] true true) sC () ∧ holdsG sC 5 0x1000000000002000 ∧
    elementsBytes 0x1000000000002000 1 + elementsBytes 0x1000000000002000 1 < 2 ^ 32 ∧
    runs (noteCopy [(0x2000, 4)] [(0x2000, 4)] true true) sC () ∧ runs (noteCopy [] [(0x1000, 1)] true true) sC () ∧ holdsG sC 16 0x1020 ∧
    0x1000 % 64 = 0 ∧ 0x1020 % 64 ≠ 0 ∧ sC.heldBack 0 0 0x1000 64 = false ∧ room sC 0 (sC.attDesc 0 0 0x1000).1.units ∧ holdsG sC 14 (2 ^ 37) ∧
    holdsG sC 15 16 ∧ holdsG sC (9 + 0) 1 := by
  delta runs holdsG Starts Gives; decide +kernel

theorem test_cpy_length : exec (.cpy { d := 4, a := 4, b := 10, c := 0, dsp := true, ssp := true, gates := ng }) sC = .next (trapped sC 0 false 15 1 []) :=
  rfl

/-! ### Vector results -/

/-- Core 0's vector engine has started a command of the running task; v1 counts up in bytes, v2 is all FF; m1 is 1. -/
def sE (what : Decoded) (ops : List Tagged) : State :=
  (sC.modTask 0 (fun t => { t with
    v := [(1, { v := 0x07060504030201007F, tag := 0 }), (2, { v := BitVec.allOnes 1024, tag := 5 }), (3, { v := 0x3F800000407FFFFF, tag := 0 })]
    m := [(1, 1), (2, 0x8000000000000000)]
    a := [(0, { words := [(0, 0x3F800000), (33, 0x40000000)], tag := 0 })] })).modCore 0 (fun c =>
      { c with
        vq := { c.vq with started := [commandOf sC 0 what ng ops] }
        mq := { c.mq with started := [commandOf sC 0 what ng ops] }
        resident := some 0 })

/-- What `Executing` asks. -/
abbrev executes (s : State) (what : Decoded) : Prop :=
  (s.core 0).vq.started.head?.map (·.what) = some what ∧
    ∀ c ∈ (s.core 0).vq.started, s.cmdBlocked 0 c = false ∧ c.killed = false ∧ (s.task (slotOf 0 c)).stat = .running

/-- What `Multiplying` asks. -/
abbrev multiplies (s : State) (what : Decoded) : Prop :=
  (s.core 0).mq.started.head?.map (·.what) = some what ∧
    ∀ c ∈ (s.core 0).mq.started, s.cmdBlocked 0 c = false ∧ c.killed = false ∧ (s.task (slotOf 0 c)).stat = .running

def vadd8 : Decoded := .std (.vadd { d := 4, a := 1, b := 2, sat := true, t := .i8, mode := .rne, pred := 0, gates := ng })
def vfma1 : Decoded := .std (.vfma { d := 4, a := 1, b := 2, c := 3, flag := false, t := .i32, mode := .rne, pred := 1, gates := ng })
def vabs1 : Decoded := .std (.vabs { d := 4, a := 2, sat := false, t := .f32, mode := .rne, pred := 0, gates := ng })
def vperm1 : Decoded := .std (.vperm { d := 4, a := 1, b := 2, sat := false, t := .n8, mode := .rne, pred := 0, gates := ng })

theorem witness_VectorElementResults : executes (sE vadd8 []) vadd8 ∧ executes (sE vfma1 []) vfma1 ∧ executes (sE vabs1 []) vabs1 ∧
    executes (sE vperm1 []) vperm1 := by decide +kernel

/-- 127 − 1 and 1 − 1 of bytes; the tag of v2. -/
theorem test_vadd_bytes : (match exec (.vectorCommandComplete 0) (sE vadd8 []) with
    | .next t => decide (elemOf 8 (t.vreg 0 4).v 0 = 126 ∧ elemOf 8 (t.vreg 0 4).v 1 = 255 ∧ elemOf 8 (t.vreg 0 4).v 2 = 0 ∧
        (t.vreg 0 4).tag = 5 ∧ (t.core 0).vq.started = [])
    | _ => false) = true := by decide +kernel

/-- Only element 0 takes part under m1. -/
theorem test_vfma_predicated : (match exec (.vectorCommandComplete 0) (sE vfma1 []) with
    | .next t => decide (elemOf 32 (t.vreg 0 4).v 0 = 0x3E7EFF80 ∧ elemOf 32 (t.vreg 0 4).v 1 = 0)
    | _ => false) = true := by decide +kernel

def vcmp1 : Decoded := .std (.vcmpLt { d := 4, a := 2, b := 1, t := .i8, pred := 0, gates := ng })
def vsel1 : Decoded := .std (.vsel { d := 4, a := 2, b := 1, m := 1, t := .n8, gates := ng })
def mnot1 : Decoded := .std (.mnot { d := 7, a := 1, b := 0, gates := ng })
def mfirst1 : Decoded := .std (.mfirst { d := 0, a := 2, b := 0, gates := ng })
def vredsum1 : Decoded := .std (.vredsum { d := 4, a := 3, b := 0, c := 0, flag := false, t := .f32, mode := .rne, pred := 0, gates := ng })

theorem witness_VectorMaskAndReductionResults : executes (sE vcmp1 []) vcmp1 ∧ executes (sE vsel1 []) vsel1 ∧ executes (sE mnot1 []) mnot1 ∧
    executes (sE mfirst1 []) mfirst1 ∧ executes (sE vredsum1 []) vredsum1 ∧
    ((sE mfirst1 []).mreg 0 2).getLsbD 63 = true ∧ (∀ j, j < 63 → ((sE mfirst1 []).mreg 0 2).getLsbD j = false) ∧ Ty.f32.isFloat = true := by decide +kernel

theorem test_mfirst : (match exec (.vectorCommandComplete 0) (sE mfirst1 []) with
    | .next t => decide ((t.task 0).queue 9 = [.word (val 63)])
    | _ => false) = true := by decide +kernel

/-- −1 is below each of the 32 elements of v1, and the bits past them are 0. -/
theorem test_vcmp : (match exec (.vectorCommandComplete 0) (sE (.std (.vcmpLt { d := 4, a := 2, b := 1, t := .i32, pred := 0, gates := ng })) []) with
    | .next t => decide (t.mreg 0 4 = 0xFFFFFFFF)
    | _ => false) = true := by decide +kernel

/-- 1 + (4 − 2^−22) is 5 − 2^−22, which ties to 5. -/
theorem test_vredsum : (match exec (.vectorCommandComplete 0) (sE vredsum1 []) with
    | .next t => decide ((t.vreg 0 4).v = 0x40A00000 ∧ (t.task 0).fstat = 1)
    | _ => false) = true := by decide +kernel

def vldAt : Decoded := .std (.vld { d := 4, a := 4, b := 0, sat := false, t := .n8, mode := .rne, pred := 0, gates := ng })
def vstAt : Decoded := .std (.vst { d := 2, a := 4, b := 0, sat := false, t := .n8, mode := .rne, pred := 0, gates := ng })

theorem witness_VectorMemoryResults : executes (sE vldAt [op 0x3FF80]) vldAt ∧ executes (sE vstAt [op 0x3FF80]) vstAt ∧ 0x3FF80 + 128 ≤ 0x40000 ∧
    (∀ c ∈ ((sE vstAt [op 0x3FF80]).core 0).vq.started, c.ptr 0 = 0x3FF80 ∧ c.gates.sig = none) ∧
    (sE vstAt [op 0x3FF80]).heldBack 0 0 0x3FF80 128 = false := by decide +kernel

theorem test_vst_bytes : (match exec (.vectorCommandComplete 0) (sE vstAt [op 0x3FF80]) with
    | .next t => decide ((t.space 0 0).byte 0x3FFFF = 255 ∧ (t.space 0 0).byte 0x3FF80 = 255 ∧ (t.space 0 0).byte 0x3FF7F = 0)
    | _ => false) = true := by decide +kernel

def vamoArg : VAmoArg := { m := 0, a := 4, b := 0, c := 2, t := .n32 }

/-- Lanes of index 0 at va 0xFFC, of which the first; an index past the end of the space. -/
theorem witness_VectorAtomicResults : Starts false sC 0 ∧ holdsG sC 16 0x1020 ∧ sC.vamoWaits 0 vamoArg = false ∧
    (sC.vreg 0 vamoArg.b.val).tag = 0 ∧ room sC 0 (vamoLanesOf sC 0 vamoArg).length ∧ (vamoLanesOf sC 0 vamoArg).length = 32 ∧
    sC.current = some 0 ∧ (0xFFC : Int) + 0 * (tyBytes .n32 : Int) = (0xFFC : Nat) ∧
    (let s1 := after (xlate 0xFFC .store (some (sC.modTask 0 (fun y => { y with velem := some 3 })))) sC
     Gives (xlate 0xFFC .store (some (sC.modTask 0 (fun y => { y with velem := some 3 })))) sC (0x200FFC, 0x20000F) s1 ∧ s1.paOk 0x200FFC = true ∧
     runs (noteWrite 0x200FFC) s1 () ∧ room (after (noteWrite 0x200FFC) s1) 0 1 ∧ (after (noteWrite 0x200FFC) s1).current = some 0) ∧
    (0xFFC : Int) + -1024 * (tyBytes .n32 : Int) < 0 := by
  delta runs holdsG Starts Gives; decide +kernel

theorem test_vamo : (match exec (.vamoAdd { m := 1, a := 11, b := 0, c := 2, t := .n32 }) ((sE vadd8 []).modCore 0 (fun c =>
      { c with vq := { c.vq with started := [] }, mq := { c.mq with started := [] } }) |>.modTask 0 (fun t => t.setReg 11 (val 0x240))) with
    | .next t => (match (t.task 0).commit with
      | [{ eff := .update u _, units := 1, .. }] => decide (u.pa = 0x200240 ∧ u.operand = 0xFFFFFFFF ∧ u.kind = .amo .add ∧ u.tag = 5)
      | _ => false)
    | _ => false) = true := by decide +kernel

/-! ### Matrix results, gates, engines -/

def mmz1 : Decoded := .std (.mmz { n := 0, half := .full } ng)
def mma1 : Decoded := .std (.mma { d := { n := 0, half := .full }, a := 4, b := 5, c := 0, z := false, k := 0, t := .f16, bx := false, h := false, gates := ng })
def mld1 : Decoded := .std (.mld { d := { n := 1, half := .full }, a := 5, b := 0, t := .f32, sat := false, mode := .rne, gates := ng })
def mst1 : Decoded := .std (.mst { d := { n := 0, half := .full }, a := 5, b := 0, t := .f32, sat := false, mode := .rne, gates := ng })
def mrd1 : Decoded := .std (.mrdRow { d := 5, a := { n := 0, half := .full }, i := 1, gates := ng })
def mrdEl1 : Decoded := .std (.mrdEl { a := { n := 0, half := .full }, b := 0, h := false, gates := ng })

theorem witness_MatrixResults : multiplies (sE mmz1 []) mmz1 ∧ multiplies (sE mma1 [op 0x3FC00, op 0, op 0]) mma1 ∧
    multiplies (sE mld1 [op 0x3F000, op 0]) mld1 ∧ multiplies (sE mst1 [op 0x3F000, op 0]) mst1 ∧ multiplies (sE mrd1 []) mrd1 ∧
    multiplies (sE mrdEl1 [op 33]) mrdEl1 ∧ 0x3FC00 + 1024 ≤ 0x40000 ∧ 0x3F000 + 31 * 128 + 128 ≤ 0x40000 ∧
    (∀ c ∈ ((sE mst1 [op 0x3F000, op 0]).core 0).mq.started, c.ptr 0 = 0x3F000 ∧ c.val 1 % 2 ^ 32 = 0) := by decide +kernel

theorem test_mrd_el : (match exec (.matrixCommandRetire 0) (sE mrdEl1 [op 33]) with
    | .next t => decide ((t.task 0).queue 8 = [.word (val 0x40000000)] ∧ (t.core 0).mq.started = [])
    | _ => false) = true := by decide +kernel

theorem test_mrd_row : (match exec (.matrixCommandRetire 0) (sE mrd1 []) with
    | .next t => decide ((t.vreg 0 5).v = 0x4000000000000000)
    | _ => false) = true := by decide +kernel

def sGate : State := ((at0 0xE804000000000000 [(4, 0xFFFFFF), (5, 0x1000000), (6, 1), (7, 2 ^ 64 - 1), (8, 2 ^ 64 - 2 ^ 24)]).modSpace 0 0 (fun sp =>
  sp.setGate 31 { count := 1, reload := 5, phase := false, cmd := false, ovf := false }))

theorem witness_GateResults : Starts false sGate 0 ∧ holdsG sGate 4 0xFFFFFF ∧ holdsG sGate 5 0x1000000 ∧ holdsG sGate 0 0 ∧ holdsG sGate 6 1 ∧
    holdsG sGate 7 (2 ^ 64 - 1) ∧ holdsG sGate 8 (2 ^ 64 - 2 ^ 24) ∧ |(BitVec.ofNat 64 (2 ^ 64 - 1)).toInt| < 2 ^ 24 ∧
    2 ^ 24 ≤ |(BitVec.ofNat 64 (2 ^ 64 - 2 ^ 24)).toInt| ∧ (gateAt sGate 0 0 31).phase ≠ true ∧ sGate.enginesBusy 0 = false ∧
    (full sGate .vector).enginesBusy 0 = true ∧ Starts false (full sGate .vector) 0 ∧
    (let g := gateAt sGate 0 0 31
     runs (writeG 3 { v := BitVec.ofNat 64 (g.count + g.reload * 2 ^ 24 + (if g.ovf then 2 ^ 61 else 0) + (if g.cmd then 2 ^ 62 else 0)
       + (if g.phase then 2 ^ 63 else 0)), tag := 0 } 1) sGate ()) := by
  delta runs holdsG Starts Gives; decide +kernel

theorem test_gadd_flips : nextIs (exec (.gadd 31 7) sGate) (retired false .next 0 (withGate sGate 0 31
    { count := 5, reload := 5, phase := true, cmd := false, ovf := false })) = true := by decide +kernel

theorem test_gset_reload_zero : nextIs (exec (.gset 0 false 4 0) sGate) (trapped sGate 0 false 16 0 []) = true := by decide +kernel

theorem test_gwt_never : nextIs (exec (.gwt 31 true) sGate) (trapped sGate 0 false 17 0 [31]) = true := by decide +kernel

theorem test_gpoll : nextIs (exec (.gpoll 3 31) sGate) (retired false .next 0 (after (writeG 3 (val (1 + 5 * 2 ^ 24)) 1) sGate)) = true := by decide +kernel

def mmv1 : Decoded := .std (.mmv { d := { n := 0, half := .full }, a := 4, b := 5, c := 0, z := false, k := 0, t := .f16, bx := false, h := false, gates := ng })

/-- A copy of 64 bytes to the end of the scratchpad. -/
def sCopy : State := (sC.modCore 0 (fun c => { c with cq := { c.cq with started :=
  [commandOf sC 0 (.cpy { d := 4, a := 4, b := 9, c := 0, dsp := true, ssp := true, gates := ng }) ng [op 0x3FFC0, op 0x1000, op 64]] } }))

theorem witness_EnginePathEvents : ((full sC .copy).core 0 |>.engine .copy).queue.length = 2 ∧ (((full sC .copy).core 0).engine .copy).held.length < 16 ∧
    (let s := sC.modCore 0 (fun c => { c with vq := { c.vq with held := [commandOf sC 0 vadd8 ng []] } })
     s.nextStart 0 .vector = some (commandOf sC 0 vadd8 ng [])) ∧
    (∀ c ∈ (sCopy.core 0).cq.started, c.progress = 0 ∧ sCopy.cmdLive 0 c = true ∧ c.val 2 ≤ 64 ∧ c.ptr 0 + c.val 2 ≤ 0x40000 ∧
      c.ptr 1 + c.val 2 ≤ 0x40000 ∧ (sCopy.task (slotOf 0 c)).stat = .running) ∧ (sCopy.core 0).cq.started.length = 1 ∧
    ((sE mmv1 [op 0, op 0, op 0]).core 0).mq.started.head?.map (·.what) = some mmv1 := by decide +kernel

theorem test_copy_beat : (match exec (.copyBeatLand 0 0) (sCopy.modSpace 0 0 (fun sp => { sp with
      bytes := [(0x103F, 7)], written := [(0x40, true)], stags := [(4, { state := 2, gate := 0, phase := false, tag := 0 })] })) with
    | .next t => decide ((t.space 0 0).byte 0x3FFFF = 7 ∧ (t.core 0).cq.started = [])
    | _ => false) = true := by decide +kernel

/-! ### Events -/

def plainLoad : Load := { id := 9, kind := .plain, fifo := 2, t := .i16, va := 0x240, parts := [(0x200240, 2)], own := [], ownTag := 0, pc := 0
                          parked := false, sectioned := false }

/-- The task of slot 0 has a load outstanding, and memory holds FFFE there. -/
def sA1 : State := ((sC.writeWords 0x200240 [0xFFFE]).modTask 0 (fun t =>
  { t.setQueue 2 [.await 9] with loads := [plainLoad] })).modTask 3 (fun t => { t with stat := .parked (.spin 0x8009 100), spins := [] })

def getCmd : GetPut := { isPut := false, d := 0x1000, a := 0x240, ctl := 0x100000801, list := 0x1000, known := true, idx := [0, 1], slot := 0, ctx := 0, tid := 0, pc := 0, first := 0
                         els := [[(0x200240, 8)], [(0x200248, 8)]], landed := [0], halted := false, killed := false }

theorem witness_ArrivalEvents : (sA1.task (0 * 8 + 0)).loads.find? (fun x => x.id == 9) = some plainLoad ∧
    (sA1.task 0).earlierOverlap plainLoad = false ∧ sA1.portHeld plainLoad.parts = false ∧ (sA1.task (0 * 8 + 3)).stat = .parked (.spin 0x8009 100) ∧
    ((sA1.modTask 4 (fun t => { t with stat := .parked (.wtv 0x200240) })).task 4).stat = .parked (.wtv 0x200240) ∧
    (let s : State := { sA1 with cyc := 104, placed := [{ core := 0, slot := 0, op := .ld 9, window := 0 }] }
     (0 + 1) * 8 + 96 ≤ s.cyc ∧ s.loadSlot 9 = some 0 ∧ s.findLoad 9 = some plainLoad) ∧
    (let s := sA1.modCore 0 (fun c => { c with gp := [getCmd] })
     (s.core 0).gp = [getCmd] ∧ 0 ≤ 1 ∧ 1 < 0 + getCmd.els.length ∧ 1 ∉ getCmd.landed ∧ getCmd.landed.length + 1 = getCmd.els.length ∧
     getCmd.known = true ∧ getCmd.halted = false ∧ s.gpWaits 0 getCmd = false ∧ getCmd.idx.length ≤ 0 + getCmd.els.length) ∧
    (let g := { getCmd with known := false, idx := [], els := [], landed := [] }
     let s := sA1.modCore 0 (fun c => { c with gp := [g] })
     s.gpWaits 0 g = false ∧ s.listHeld 0 g = false ∧ (s.readIndexList 0 g).2.1 = 0 ∧ g.ctl.getLsbD 43 = false ∧
     g.list + 4 * (g.ctl.toNat % 256 + 1) ≤ 0x40000 ∧ (sA1.setTag 0 0 4 { state := 1, gate := 0, phase := true, tag := 0 }).listHeld 0 g = true) ∧
    sA1.portBehind 1 0x3FFFF 1 (some 3) = false ∧ sA1.portBehind 1 0x3FFFF 1 none = false ∧ sA1.window ≤ sA1.cyc / 8 ∧
    ({ sA1 with window := 1 } : State).cyc / 8 < ({ sA1 with window := 1 } : State).window ∧
    (sA1.task 0).stat ≠ .free ∧ (sA1.task 0).tid = 0 ∧ 0x3FFFF + [(1 : Byte)].length ≤ 0x40000 ∧
    sA1.filling (sA1.installedCtx 1) 1 0x3FFFF 1 = false ∧
    (let s := sA1.setTag 0 0 255 { state := 1, gate := 0, phase := true, tag := 0 }
     s.filling (s.installedCtx 0) 0 0x3FFFF (Nat.min [(1 : Byte)].length (0x40000 - 0x3FFFF)) = true) := by decide +kernel

/-- Slots 4 and 255 of core 0 are filling, and a load through the aperture reaches slot 255. -/
def apLoad : Load := { plainLoad with parts := [(0x1000003FFFE, 2)] }
def sA2 : State := ((sA1.setTag 0 0 255 { state := 1, gate := 0, phase := true, tag := 0 }).setTag 0 0 4
  { state := 1, gate := 0, phase := true, tag := 0 }).modTask 0 (fun t => { t with loads := [apLoad] })

theorem witness_ArrivalEvents_held : (sA2.task (0 * 8 + 0)).loads.find? (fun x => x.id == 9) = some apLoad ∧ sA2.portHeld apLoad.parts = true ∧
    sA1.portHeld [(0x1000003FFC0, [(1 : Byte)].length)] = false ∧
    (let x : Sc := { core := 0, slot := 0, op := .st 9 0x1000003FFC0 [1] 0, window := 0 }
     sA2.portHeld (sA2.scParts x) = true) ∧
    sA1.elementHeld 0 getCmd 1 = false ∧ sA2.elementHeld 0 getCmd 1 = true ∧ sA2.portHeld [(0x1000003FFC0, 64)] = true := by decide +kernel

/-- A load of a filling slot through the aperture is held back. -/
theorem test_aperture_held : nextIs (exec (.loadWordArrival 0 0 9) sA2) (sA2.push (.loadWordArrival 0 0 9)).cycle = true := by decide +kernel

theorem test_arrival_extends : (match exec (.loadWordArrival 0 0 9) sA1 with
    | .next t => decide ((t.task 0).queue 2 = [.word (val (2 ^ 64 - 2))] ∧ (t.task 0).loads = [])
    | _ => false) = true := by decide +kernel

theorem test_get_element : (match exec (.getPutElementLand 0 1) (sA1.modCore 0 (fun c => { c with gp := [getCmd] })) with
    | .next t => decide ((t.core 0).gp = [] ∧ Tab.get 0 (t.task 0).cc 1 = -1 ∧ (t.space 0 0).byte 0x1008 = 0)
    | _ => false) = true := by decide +kernel

theorem test_waggle_orders : (match exec .waggleWindow ({ sA1 with cyc := 17, announce := [{ core := 5, slot := 0, op := .ld 1, window := 0 }, { core := 2, slot := 0, op := .ld 2, window := 0 },
      { core := 5, slot := 1, op := .ld 3, window := 0 }] } : State) with
    | .next t => decide (t.placed = [{ core := 2, slot := 0, op := .ld 2, window := 2 }, { core := 5, slot := 0, op := .ld 1, window := 2 }])
    | _ => false) = true := by decide +kernel

/-! ### The owners' handlers -/

def joinUpd : Update := { ctx := 0, va := 0x240, pa := 0x200240, kind := .join, t := .none, operand := 0, compare := 0, tag := 0, issuer := 0, seq := 0
                          quantum := 0, reply := none }
def addUpd : Update := { joinUpd with kind := .amo .add, t := .i32, operand := 0xFFFFFFFF, reply := some (0, 9) }
def shrUpd : Update := { joinUpd with kind := .tshr }

/-- A message with a service stands at the head of core 9's system queue. -/
def served (v : Svc) (s : State) : State := s.modCore 9 (fun c => { c with sysQueue := [svcMessage 2 9 0 v] })

/-- What `Served` asks. -/
abbrev serves (v : Svc) (s : State) : Prop := (served v s).takeSvc v = some (some (9, svcMessage 2 9 0 v), (served v s).modCore 9 (fun c => { c with sysQueue := [] }))

def linkOf : Link := { ctx := 0, n := 7, bucket := 1, gen := 3, hbase := 0x200, pool := 0x400, limit := 4 }
def sO : State := (sV.writeWords 0x200240 [1, 0x4300]).modCtx 0 (fun c => { c with nhbase := 1 })

/-- The host's window covers frame 0. -/
def hosted (s : State) : State := { s with hostwin := 0x8000000000010000 }

theorem witness_OwnerEvents : (sO.hostOwes addUpd.pa 1 = [] ∧ (hosted sO).hostOwes addUpd.pa 1 ≠ []) ∧ serves (.update addUpd) sO ∧ serves (.update joinUpd) sO ∧ serves (.update shrUpd) sO ∧ sO.portHeld [(shrUpd.pa, 64)] = false ∧ appliesNow sO 9 0 ∧
    addUpd.reply = some (0, 9) ∧ sO.num joinUpd.pa 4 = 1 ∧ sO.lineTag joinUpd.pa = 0 ∧ sC.num joinUpd.pa 4 ≠ 1 ∧
    segWord sO 0x200240 0 % 2 ^ 32 ≠ 2 ^ 32 - 1 ∧ 1 < segWord (sO.writeWords 0x200240 [2]) 0x200240 0 % 2 ^ 32 ∧
    (let s := (sO.modCore 0 (fun c => { c with merging := true })).modTask 0 (fun t => { t with wait := .merge 3 })
     (s.core 0).running = some 0 ∧ (s.task 0).wait = .merge 3 ∧ s.mergeOrder 0 0 = (0, [])) ∧
    serves (.keyPass 0 5 none) sO ∧ arrivalsOf sO 0 1 = [] ∧ hdrTrm 0 = 0 ∧
    (let s := sO.modGroup 0 1 (fun x => { x with members := 2 })
     (arrivalsOf s 0 1).length + 1 < (s.group 0 1).members) ∧ (sO.group 0 1).members ≤ (arrivalsOf sO 0 1).length + 1 ∧ noLoss sO ∧
    serves (.link linkOf) sO ∧ sO.lineAt 0 ((linkOf.hbase + 64 * linkOf.bucket) % 2 ^ 57) = some 0x200240 ∧
    (sC.lineTag 0x200240 = 0 ∧ sC.num 0x200240 16 = 0 ∧ 0 < linkOf.limit ∧ sC.lineAt 0 ((linkOf.pool + 64 * (1 * 4)) % 2 ^ 57) = some 0x200500) ∧
    serves (.summary 0 0x240 true [0x3F80]) sO ∧ sO.lineAt 0 0x240 = some 0x200240 ∧ (sO.ctx 0).nhbase.getLsbD 0 = true ∧
    (sO.cc 0 0).nodeCache.length < 32 ∧
    (let s := mapped sO 0 0x201007
     s.lineAt 0 ((s.ctx 0).segment 0) = some 0x200000 ∨ s.lineAt 0 ((s.ctx 0).segment 0) = some 0x201000) := by decide +kernel

/-- The last arrival sends the continuation of the record, on tag 4 of core 0. -/
theorem test_join_fires : (match exec (.joinArrival joinUpd) (served (.update joinUpd) sO) with
    | .next t => decide (t.num 0x200240 8 = 0 ∧ (t.core 9).sysQueue = [] ∧ t.pending.length = 1)
    | _ => false) = true := by decide +kernel

theorem test_atomic_add : (match exec (.atomicApply addUpd) (served (.update addUpd) sO) with
    | .next t => decide (t.num 0x200240 4 = 0 ∧ t.pending = [.atomicReply 0 0 9 (val 1)])
    | _ => false) = true := by decide +kernel

theorem test_bucket_first_token : (match exec (.bucketLink linkOf) (served (.link linkOf) sC) with
    | .next t => decide (t.num 0x200240 8 = 3 * 2 ^ 48 + 2 ^ 32 + 1 ∧ t.num 0x200500 4 = 7 ∧ t.num 0x20053C 4 = 1 ∧ t.num 0x200538 4 = 0xFFFFFFFF)
    | _ => false) = true := by decide +kernel

/-! ### Versions -/

def versLoad (eq : Bool) (v : Nat) : Load := { plainLoad with kind := .version eq v 5 0x800010, va := 0x2040, parts := [(0x701040, 4)] }

/-- The line's newest version is 6, K is 4; a record at index 0 of frame 1 holds version 3; slot 0 has a load of version `v` outstanding. -/
def sR (eq : Bool) (v : Nat) (closed : Bool) : State :=
  ((sV.writeChain 0x800010 6 false [(2 ^ 24, 3)]).modTask 0 (fun t => { t.setQueue 2 [.await 9] with loads := [versLoad eq v] })).modCtx 0 (fun c =>
    { c with frames := [1], recUsed := [(2 ^ 24, 0x800010)], regions := Tab.set .invalid c.regions 5 { Tab.get .invalid c.regions 5 with floor := 4, closed := closed } })

theorem witness_VersionEvents : VersionLoad (sR true 3 false) 0 9 (versLoad true 3) true 3 5 0x800010 ∧ (sR true 3 false).newest 0x800010 = 6 ∧
    3 < Nat.min ((sR true 3 false).region 0 5).floor ((sR true 3 false).newest 0x800010) ∧
    Nat.min ((sR true 4 false).region 0 5).floor ((sR true 4 false).newest 0x800010) ≤ 4 ∧ (sR true 7 true).newest 0x800010 < 7 ∧
    ((sR true 7 true).region 0 5).closed = true ∧ ((sR true 7 false).region 0 5).closed = false ∧
    (sR true 6 false).versionBytes 0x800010 0x701040 6 = ((sR true 6 false).bytes 0x701040 64, 0) ∧ noLoss (sR true 7 false) ∧
    ((sV.modTask 1 (fun t => { t with stat := .parked (.version 9) })).task 1).stat = .parked (.version 9) ∧
    (∀ p ∈ (sV.modTask 1 (fun t => { t with stat := .parked (.version 9) })).tasks, p.2.stat = .parked (.version 9) → p.1 = 1) ∧
    (∀ p ∈ sV.tasks, p.2.stat ≠ .parked (.version 9)) ∧ belowK sV 0 0x800010 = [] ∧
    belowK (sR true 3 false) 0 0x800010 = [(2 ^ 24, 3)] ∧ ((sR true 3 false).records 0x800010).find? (fun x => x.2 == 3) = some (2 ^ 24, 3) ∧
    ({ (sR true 3 false).ctx 0 with releasing := [1] } : Ctx).pickRec = none ∧
    (({ (sR true 3 false).ctx 0 with frames := [1, 2], releasing := [1] } : Ctx).pickRec).isSome = true ∧ (∃ p ∈ (((sR true 3 false).moveOut 0 1 1).ctx 0).recUsed, p.1 / 2 ^ 24 = 1) ∧
    (sV.readDesc 0 7).valid = false ∧ (0x10001 : Word).toNat / 2 ^ 16 % 1024 = 1 ∧ 1 ∉ (sV.ctx 0).frames ∧
    (0x10002 : Word).getLsbD 0 = false ∧ 1 ∈ ((sR true 3 false).ctx 0).frames ∧ ((sR true 3 false).ctx 0).releasing = [] ∧ 1 < sV.mcap ∧ (sV.ctx 0).releasing = [] ∧
    (let s := (sR true 3 false).modCtx 0 (fun c => { c with releasing := [1], recUsed := [] })
     (s.ctx 0).releasing = [1] ∧ ∀ p ∈ ((s.moveOut 0 1 0).ctx 0).recUsed, p.1 / 2 ^ 24 ≠ 1) ∧
    (let s := sV.modGroup 0 1 (fun x => { x with horizon := 1 })
     let s : State := { s with horizonReports := [(1, some (4, 5))], cyc := 99 }
     Tab.get none s.horizonReports (0 * 256 + 1) = some (4, 5) ∧ s.cyc < (4 / 8 + 1) * 8 + 96 ∧ (4 / 8 + 1) * 8 + 96 ≤ ({ s with cyc := 104 } : State).cyc) := by decide +kernel

theorem test_version_below_floor : (match exec (.versionRequest 0 0 9) (sR true 3 false) with
    | .next t => decide ((t.task 0).queue 2 = [.trap 9 2 0 [0x2040, 3, 6, 4, 0]])
    | _ => false) = true := by decide +kernel

theorem test_version_parks : (match exec (.versionRequest 0 0 9) (sR true 7 false) with
    | .next t => decide ((t.ctx 0).vparked.map (·.v) = [7] ∧ (t.task 0).loads.map (·.parked) = [true])
    | _ => false) = true := by decide +kernel

theorem test_horizon : (match exec (.horizonWindow 0 1) ({ sV with horizonReports := [(1, some (4, 5))], cyc := 104 } : State) with
    | .next t => decide ((t.group 0 1).horizon = 5)
    | _ => false) = true := by decide +kernel

/-! ### Messages, scheduling, translation, faults -/

/-- A message to core 9 on tag 20. -/
def userMsg : Message := { sysMessage 0 20 0 3 9 2 [7, 8] with svc := .task }

/-- Core 9 takes tag 20 at 0x800. -/
def sW : State := sC.modCc 0 9 (fun c => { c with tags := [(20, { TagEntry.off with entry := 0x800, en := true, prio := 2 })] })

def waitingSpawn : State := sC.modTask 0 (fun t => { t with wait := .spawn 3 { userMsg with entry := some 0x800 } })
def waitingSteal : State := (sC.modTask 0 (fun t => { t with wait := .steal 4 9, taken := [{ core := 9, r := { lo := 1, hi := 3, tag := 5 } }] })).modSpace 0 9
  (fun sp => { sp with deque := { ranges := [{ lo := 1, hi := 4, tag := 5 }], reserved := 30 } })

/-- Two nodes of one port each at 0x240 and 0x280, the first's port 0 linked to the second's. -/
def sNet : State :=
  { (sC.writeWords 0x200240 [2 ^ 48 + 2 ^ 45 + 2 ^ 40, 2 ^ 61 + 0x280]).writeWords 0x200280 [2 * 2 ^ 48 + 2 ^ 45, 2 ^ 61 + 0x240] with
    nodeLines := [(0, 0x240), (0, 0x280)] }

theorem witness_MessageEvents : startsAtOnce sW userMsg 0 ∧ (sC.tagEntry 0 9 20).en = false ∧ (sC.cc 0 9).spill.length < 4096 ∧
    (let m := svcMessage 2 9 0 (.update addUpd)
     hdrTrm m.hdr = 0 ∧ m.flight = none ∧ noTask (hdrTag m.hdr) = false ∧ userTag (hdrTag m.hdr) = false ∧ (svcEvent m).isSome = true ∧ sC.canStart m.ctx = true ∧
     (sC.core m.dst).sysQueue.length < 17 ∧ sC.spilledSvc m.dst = [] ∧ sC.returnedBefore m = false ∧
     (sC.modCore m.src (fun c => { c with bounced := [{ m := m, since := 0 }] })).returnedBefore m = true) ∧
    (let s := sC.modCore 3 (fun c => { c with bounced := [{ m := userMsg, since := 0 }] })
     (s.core 3).bounced = [{ m := userMsg, since := 0 }] ∧ s.pending = [] ∧ s.cyc < 0 + 1024 ∧ 0 + 1024 ≤ ({ s with cyc := 1024 } : State).cyc) ∧
    ((((sC.refillSys 9).fill 9).evict 9).core 9).sysQueue = [] ∧
    (let p : Spilled := { m := userMsg, held := false, level := 2, seq := 1, waitFrom := 0, ahead := false, came := 0 }
     let s := sW.modCc 0 9 (fun c => { c with spill := [p] })
     s.freeSlot 9 = some 0 ∧ s.bestSaved 9 = none ∧ s.bestSpill 9 = some p) ∧
    (waitingSpawn.task (0 * 8 + 0)).wait = .spawn 3 { userMsg with entry := some 0x800 } ∧ waitingSpawn.acceptsChild { userMsg with entry := some 0x800 } = true ∧
    waitingSpawn.freeSlot 9 = some 0 ∧ (waitingSpawn.task 0).stat = .running ∧ (waitingSpawn.task 0).inl.length < 4 ∧
    (let s := waitingSpawn.modTask 72 (fun t => { t with stat := .reserved, tid := 0, start := some { userMsg with entry := some 0x800 } })
     s.reservedSlot { userMsg with entry := some 0x800 } (s.task 0).tid = some 0) ∧
    (waitingSteal.task (0 * 8 + 0)).wait = .steal 4 9 ∧ (waitingSteal.space 0 9).deque.takeOld =
      some ({ lo := 1, hi := 3, tag := 5 }, { ranges := [{ lo := 3, hi := 4, tag := 5 }], reserved := 31 }) ∧
    { core := 9, r := { lo := 1, hi := 3, tag := 5 } } ∈ (waitingSteal.task 0).taken ∧ sC.flights = [] ∧
    (let s := sC.modTerm 5 3 (fun _ => { engaged := true, parent := 7, out := 1 })
     let s1 := s.modTerm 5 3 (fun t => { t with out := t.out - 1 })
     (s1.termRec 5 3).engaged = true ∧ s1.termQuiet 5 3 = true ∧ s.termQuiet 5 3 = false) ∧
    sNet.meetOk 0 0x240 0x280 = true ∧ sNet.canStart 0 = true ∧ sNet.netMarked 0 0x240 0 = false ∧ sNet.netMarked 0 0x240 1 = false ∧
    sNet.meetMoving 0 0x240 0x280 = false ∧ (relinkLines (.hinge 0 0x240 0x300)).any (sNet.pageMoving 0) = false ∧
    sNet.linesOwed 0 (relinkLines (.hinge 0 0x240 0x300)) = [] ∧ sNet.lineTag 0x200240 = 0 ∧
    sNet.nodeFree 0 0x240 = false ∧ sNet.freeSlot 9 = some 0 ∧ (sNet.nodeHeader 0 0x240).isSome = true ∧ (sNet.nodeHeader 0 0x280).isSome = true ∧
    serves (.hinge 0 0x240 0x300) sNet ∧ relinkSlot (.hinge 0 0x240 0x300) = some 0x240 ∧ sNet.lineAt 0 (0x240 / 64 * 64) = some 0x200240 ∧
    headerOk 0x240 (segWord sNet 0x200240 0) = true ∧ portOk (segWord sNet 0x200240 0) 0x240 = true := by decide +kernel

theorem test_message_starts : (match exec (.messageArrival userMsg) sW with
    | .next t => decide ((t.task 72).stat = .running ∧ (t.task 72).pc = 0x800 ∧ (t.task 72).prio = 2 ∧ (t.task 72).reg 1 = val 7 ∧ (t.task 72).reg 2 = val 8 ∧
        (t.task 72).reg 9 = { v := mkHdr 0 false 3 20 2 2 0, tag := 0 } )
    | _ => false) = true := by decide +kernel

theorem test_spawn_accepted : (match exec (.spawnSlotRequest 0 0 { userMsg with entry := some 0x800 }) waitingSpawn with
    | .next t => decide ((t.task 72).stat = .reserved ∧ t.pending = [.spawnAnswer 0 0 true])
    | _ => false) = true := by decide +kernel

theorem test_spawn_inline : (match exec (.spawnAnswer 0 0 false) waitingSpawn with
    | .next t => decide ((t.task 0).pc = 0x800 ∧ (t.task 0).inl.length = 1 ∧ (t.task 0).reg 1 = val 7 ∧ (t.task 0).spawns = 1)
    | _ => false) = true := by decide +kernel

theorem test_steal_reply : (match exec (.stealReply 0 0 9 (some { lo := 1, hi := 3, tag := 5 })) waitingSteal with
    | .next t => decide ((t.task 0).reg 4 = val (3 * 2 ^ 32 + 1) ∧ (t.task 0).reg 5 = val 5 ∧ (t.task 0).pc = 8)
    | _ => false) = true := by decide +kernel

theorem test_hinge : (match exec (.hinge 0 0x240 0x300) (served (.hinge 0 0x240 0x300) sNet) with
    | .next t => decide (segWord t 0x200240 1 = 2 * 2 ^ 61 + 0x300)
    | _ => false) = true := by decide +kernel

/-- Host queue 1 at 0x400020 holds a packet of type `n` with low bits `w0`, for context 0. -/
def queued (w0 : Nat) (s : State) : State :=
  (({ s with qtbase := 0x400001 } : State).writeWords 0x400020 [0x600000, 2 ^ 63, 1]).writeWords 0x600000 [BitVec.ofNat 64 w0, 0, 0, 5, 6]

theorem witness_SchedulingEvents : ((sC.modCtx 1 (fun c => { c with resident := true })).ctx 1).resident = true ∧ (sC.ctx 1).stopping = false ∧ (sC.ctx 1).slice ≠ 0 ∧
    (sC.ctx 1).sliceStart + (sC.ctx 1).slice * 1250 ≤ ({ sC with cyc := 2500000 } : State).cyc ∧ sC.cyc < (sC.ctx 1).sliceStart + (sC.ctx 1).slice * 1250 ∧
    sC.groupBad 0 1 = false ∧ (sC.writeWords ((sC.ctx 0).groupAt 1) [BitVec.ofNat 64 (2 ^ 63 + 5 * 2 ^ 32)]).groupBad 0 1 = true ∧ ((queued 1 sC).hostQ 1).waiting = false ∧
    (let s := sC.modCtx 0 (fun c => { c with stopping := true })
     (s.ctx 0).stopping = true ∧ (s.ctx 0).stopFrom + (s.ctx 0).runlim * 1250 ≤ ({ s with cyc := 125000 } : State).cyc ∧ s.cyc < (s.ctx 0).stopFrom + (s.ctx 0).runlim * 1250 ∧ (s.task 0).merges = false ∧ ((s.setTask 0 { s.task 0 with stat := .free }).slotsOfCtx 0) = []) ∧
    ((sA1.task 3).stat = .parked (.spin 0x8009 100)) ∧ (sC.modCtx 1 (fun c => { c with resident := true })).ctxresOutcome 1 = 1 ∧ sC.ctxresOutcome 5 = 3 ∧
    (sC.modCtx 5 (fun c => { c with installed := true })).ctxresOutcome 5 = 0 ∧ sC.grpBad 0 0 3 (2 ^ 63) = true ∧ sC.grpBad 0 0 3 5 = false ∧
    ((2 ^ 63 : Nat) : Int) ≠ 0 ∧ (queued 1 sC).qtbase.getLsbD 0 = true ∧ sC.qtbase.getLsbD 0 = false ∧ ((queued 1 sC).desc 1).ready = true ∧
    (queued 1 sC).effective 1 < 6 ∧ takesNext (queued (1 + 9 * 2 ^ 16 + 3 * 2 ^ 8) sC) (.launch 1) 1 1 ∧ takesNext (queued 2 sC) (.barrier 1) 1 2 ∧
    takesNext (queued (3 + 2 * 2 ^ 32) sC) (.detlevel 1) 1 3 ∧ takesNext (queued (4 + 9 * 2 ^ 16) sC) (.debug 1) 1 4 ∧
    takesNext (queued 5 sC) (.signal 1) 1 5 ∧ (queued 6 sC).hostEvent = some (.launch 1) ∧
    (queued 6 sC).packetCause ((queued 6 sC).desc 1) = some 1 ∧ (queued 2 sC).queueFlights 1 = false ∧
    (queued (3 + 2 * 2 ^ 32) sC).ctxFlights 0 = false ∧ (sC.ctx 0).groups = [] := by decide +kernel

def withGroup (s : State) : State :=
  (s.modCtx 0 (fun c => { c with detlvl := 1, groups := [(1, { Group.invalid with valid := true, bitmap := 0x700000, members := 1, quantum := 10 })] })).writeWords
    0x700000 [1]

theorem witness_quanta : ((withGroup sC).ctx 0).detlvl ≠ 0 ∧ ((withGroup sC).group 0 1).valid = true ∧ (withGroup sC).serving 0 1 = false := by decide +kernel

theorem test_launch : (match exec (.launch 1) (queued (1 + 9 * 2 ^ 16 + 3 * 2 ^ 8) sC) with
    | .next t => (match t.pending with
      | [.messageArrival m] => decide (m.dst = 9 ∧ hdrTag m.hdr = 13 ∧ hdrTrm m.hdr = 3 ∧ m.payload = [val 5, val 6, val 0, val 0, val 0] ∧
          t.flights.map (·.region) = [3] ∧ t.regionUse = [3] ∧ t.num 0x400028 4 = 1)
      | _ => false)
    | _ => false) = true := by decide +kernel

theorem test_detlevel : (match exec (.detlevel 1) (queued (3 + 2 * 2 ^ 32) sC) with
    | .next t => decide ((t.ctx 0).detlvl = 2 ∧ t.num 0x400028 4 = 1)
    | _ => false) = true := by decide +kernel

theorem test_queue_error : (match exec (.launch 1) (queued 6 sC) with
    | .next t => decide (((t.desc 1).halted = true) ∧ t.num 0x400028 8 / 2 ^ 32 % 256 = 1 ∧ t.num 0x400028 4 = 0)
    | _ => false) = true := by decide +kernel

def anInval : Inval := { id := 7, kind := 0, va := 0x1000, ctx := 0, tid := 0, cc := 2 }
def sInv : State := ({ mapped sC 0x1000 0x700007 with invals := [anInval] } : State).modHive 0 (fun h => { h with inval := [(7, 12)] })
def dbgWords (op : Nat) : List Word := [BitVec.ofNat 64 op, 0, 0x44, 8, 0x600000]

theorem witness_TranslationAndDebugEvents : (sC.task (0 * 8 + 0)).stat ≠ .free ∧ (sC.translate 0 0 0x240 true .load).1 ≠ .migrating ∧
    ((sC.modTask 2 (fun t => { t with stat := .parked (.migrating 0x248) })).task 2).stat = .parked (.migrating 0x248) ∧
    sInv.invals.find? (fun x => x.id == 7) = some anInval ∧ (sInv.hive 0).inval.find? (fun x => x.1 == 7) = some (7, 12) ∧
    sInv.accessesCovered (hiveCores 0) 0 0x1000 0 12 (0, 0) = false ∧ 15 ∈ (hiveCores 0).map localOf ∧ serves (.debug 0 (dbgWords 2)) sC ∧
    debugFinds ((served (.debug 0 (dbgWords 2)) sC).modCore 9 (fun c => { c with sysQueue := [] })) 0 0 (dbgWords 2) 0 ∧ (sC.task 0).bps = [] ∧
    sC.findTask 0 1 0 = .absent ∧ (let s := sSaved.modCtx 0 (fun c => c)
      let s : State := { s with tasks := [], saved := [(0x500000, { savedOf sSaved 0x500000 with debug := true })] }
      debugStopped s 0 0 (dbgWords 6) 0x500000 ∧ ((dbgWords 6).getD 2 0).toNat + ((dbgWords 6).getD 3 0).toNat ≤ 0x20000) := by decide +kernel

theorem test_debug_breakpoint : (match exec (.debugSetBreakpoint 0 0 (dbgWords 2)) (served (.debug 0 (dbgWords 2)) sC) with
    | .next t => decide ((t.task 0).bps = [0x44])
    | _ => false) = true := by decide +kernel

theorem test_invalidation_message : (match exec (.invalidationMessage 0 7) sInv with
    | .next t => decide ((t.core 0).tlbD = [] ∧ t.pending = [.invalidationDone 0 7])
    | _ => false) = true := by decide +kernel

/-- Core 0's hive uses its ring, and holds the fault of slot 3. -/
def sRing : State := (sC.modHive 0 (fun h => { h with frbase := 0x400001, heldFaults := [.slot 3] })).modTask 3 (fun t => { t with stat := .held [1, 2] })

theorem witness_FaultRegisterEvents : (sC.hive 0).heldFaults = [] ∧ (sRing.hive 0).takes = true ∧
    (sRing.hive 0).heldFaults = [.slot 3] ∧ (let s := sRing.modHive 0 (fun h => { h with heldFaults := [.entry [1, 2]] })
      (s.hive 0).takes = true ∧ (s.hive 0).heldFaults = [.entry [1, 2]]) ∧ (sRing.task 3).stat = .held [1, 2] ∧ (sRing.hive 0).frbase.getLsbD 0 = true ∧ (sC.hive 0).frbase.getLsbD 0 = false ∧
    (2 ^ 63 : Word).getLsbD 63 = true ∧ (sSaved.ctx 1).stopped = true ∧ (sC.ctx 0).stopped = false ∧
    (let s := sC.modTask 0 (fun t => { t with stat := .saving .debug })
     let s := s.modCtx 0 (fun c => { c with svpool := 0x680000 })
     s.tasks = [(0, s.task 0)] ∧ (s.task 0).lateArrival = false ∧ s.finishing 0 0 = false) ∧ (∀ p ∈ sC.tasks, p.2.stat = .running) ∧
    sC.cmoveStatus 0 0 1 = 2 ∧
    (let s := (sC.modCtx 0 (fun c => { c with stopped := true })).modSpace 0 5 (fun sp => { sp with present := true })
     s.cmoveStatus 0 5 6 = 0) ∧
    sC.inMotion 0x200240 = false ∧ (sC.task 0).stoppable = true ∧ (sC.modTask 0 (fun t => { t with stat := .free }) |>.task 0).stoppable = false ∧
    (let s := sC.modCore 0 (fun c => { c with pmc := [(3, { event := 2, count := 2 ^ 48 - 1, ovf := false, lost := false, pending := false })] })
     (Tab.get .zero (s.core 0).pmc 3).event ≠ 0 ∧ (Tab.get .zero (s.core 0).pmc 3).count = 2 ^ 48 - 1) := by decide +kernel

theorem test_counter_carry : (match exec (.counterCarry 0 3) (sC.modCore 0 (fun c =>
      { c with pmc := [(3, { event := 2, count := 2 ^ 48 - 1, ovf := false, lost := false, pending := false })] })) with
    | .next t => decide (Tab.get .zero (t.core 0).pmc 3 = { event := 2, count := 0, ovf := true, lost := false, pending := false })
    | _ => false) = true := by decide +kernel

theorem test_poison_line : (match exec (.uncorrectableError (.hbmLine 0x200240) 2) ({ sC with erbase := 0x30000 } : State) with
    | .next t => decide (t.lineTag 0x200240 = 1 ∧ t.lineTag 0x200280 = 0)
    | _ => false) = true := by decide +kernel

/-! ### Retirement and start-up -/

/-- Sixteen stacks in service, a ring of records, the map's copies all current. -/
def sRet : State := { sC with erbase := 0x30000 }
def retiring (r : Nat) : State := { sRet with ret := { sRet.ret with rstate := r, stack := 4, active := r != 1, frame := 9, strip := 0 } }

def aReq : HbmReq := { id := 1, requester := 3, stack := 5, frame := 9, strip := 0, line := 64, phase := 0, mapBit := false }

/-- A request outstanding as it stands. -/
def asked (r : HbmReq) : State := { sRet with outstanding := [r] }

theorem witness_RetirementEvents : canRetire sRet 4 ∧ sRet.sset.length = 16 ∧ (sRet.stack 4).thr < 4097 ∧ 4096 ≤ (sRet.stack 4).thr ∧
    5 ∈ (retiring 1).sset ∧ (retiring 1).ret.rstate ≠ 0 ∧ 8 < (retiring 1).sset.length - 1 ∧ 5 ≠ (retiring 1).ret.stack ∧
    (let s : State := { retiring 1 with sset := [0, 1, 2, 3, 4, 5, 6, 7, 8] }
     5 ∈ s.sset ∧ s.sset.length - 1 ≤ 8 ∧ (s.stack 5).lost = none) ∧
    (let s : State := { sRet with sset := [0, 1, 2, 3, 4, 5, 6, 7], hbm := [(5, { sRet.stack 5 with lost := some 1 })] }
     5 ∈ s.sset ∧ s.ret.rstate = 0 ∧ s.sset.length ≤ 8 ∧ (s.stack 5).lost.isSome = true) ∧
    (retiring 2).ret.rstate = 2 ∧ noLoss (retiring 2) ∧ (retiring 2).ret.strip = 0 ∧ 0 < (retiring 2).ret.frame ∧
    (retiring 3).ret.rstate = 3 ∧ (retiring 3).ret.pend = 0 ∧
    (let s : State := { retiring 3 with mapVersion := 1 }
     s.mapTaken = false) ∧
    (let s := sRet.modStack 4 (fun x => { x with replaying := true })
     (s.stack 4).replaying = true ∧ ∀ i, i < 529 → (s.mapCopy i).phase = s.ret.phase) ∧
    sRet.outstanding = [] ∧ standsOut (asked aReq) aReq ∧ (sRet.stack 5).lost = none ∧ (sRet.stack 5).replaying = false ∧ (sRet.mapCopy (513 + 5)).phase = aReq.phase ∧
    (sRet.mapCopy 518).cursor = none ∧ (sRet.mapCopy 518).phase ≠ 1 ∧
    (let s : State := { sRet with mapCopies := [(518, { version := 0, phase := 0, cursor := some (9, 0) })] }
     (s.mapCopy (513 + 5)).cursor = some (aReq.frame, aReq.strip) ∧ (s.stack 5).held.length < 256) ∧
    ((sRet.mapCopy aReq.requester).stamp aReq = (aReq.phase, aReq.mapBit) ∨ (sRet.mapCopy aReq.requester).stamp aReq ≠ (aReq.phase, aReq.mapBit)) := by
  decide +kernel

theorem test_retirement_announced : (match exec (.mgmtRetirementTrigger 4) sRet with
    | .next t => decide (t.ret.rstate = 1 ∧ t.ret.stack = 4 ∧ t.ret.erec = 1 ∧ t.sset.length = 16)
    | _ => false) = true := by decide +kernel

/-- Strip 0 of frame 9 moved: strip 511 of frame 8 is next. -/
theorem test_strip_moves : (match exec .stripMoveComplete (retiring 2) with
    | .next t => decide (t.ret.frame = 8 ∧ t.ret.strip = 511 ∧ t.ret.rstate = 2)
    | _ => false) = true := by decide +kernel

/-- A request leaves with the stamp of its requester's copy (R41). -/
theorem test_request_is_sent : (match exec (.hbmRequestArrival aReq) sRet with
    | .next t => decide (t.outstanding = [sRet.restamp aReq] ∧ t.pending = [.hbmRequestArrival (sRet.restamp aReq)])
    | _ => false) = true := by decide +kernel

theorem test_request_in_motion_waits : (match exec (.hbmRequestArrival aReq)
      ({ asked aReq with mapCopies := [(518, { version := 0, phase := 0, cursor := some (9, 0) })] } : State) with
    | .next t => decide ((t.stack 5).held = [aReq] ∧ t.pending = [])
    | _ => false) = true := by decide +kernel

/-- A window line that a commit has still to write. -/
def hostWaits : State :=
  let s := (hosted sV).modTask 0 (fun t => { t with stat := .committing, commit := [
    { eff := .store 0x240 0x200240 [1] 0 none, units := 1, pc := 0, control := 0 }] })
  { s with tasks := s.tasks.filter (fun p => p.1 == 0), backInvals := [0x200240 / 64] }

theorem test_window_write_waits : hostWaits.commitOwes (hostWaits.task 0) = [0x200240 / 64] ∧
    ((({ hostWaits with backInvals := [] } : State).commitTask 0).backInvals = [0x200240 / 64]) ∧
    ((({ hostWaits with backInvals := [] } : State).commitTask 0).num 0x200240 1 ≠ 1) ∧
    (match exec (.backInvalidationAck (0x200240 / 64)) hostWaits with
    | .next t => decide (t.num 0x200240 1 = 1 ∧ t.backInvals = [] ∧ t.invalAcked = [] ∧ (t.task 0).stat = .free)
    | _ => false) = true := by decide +kernel

theorem witness_PlatformEvents : (8 ∉ State.reset.backInvals ∧ hostWaits.tasks.map (·.1) = [0] ∧ (hostWaits.task 0).stat = .committing ∧
    0x200240 / 64 ∈ hostWaits.backInvals ∧
    (({ hostWaits with backInvals := [], invalAcked := [0x200240 / 64] } : State).commitOwes (hostWaits.task 0) = []) ∧
    (let s := ({ hostWaits with backInvals := [3] } : State)
     3 ∈ s.backInvals ∧ ({ s with backInvals := [], invalAcked := [3] } : State).commitOwes (s.task 0) ≠ []) ∧
    (let s := ({ State.reset with backInvals := [8] } : State)
     8 ∈ s.backInvals ∧ ∀ p ∈ s.tasks, (s.task p.1).stat ≠ .committing)) ∧
    State.reset.stage = 0 ∧ State.reset.hostTrained = false ∧ ({ State.reset with stage := 1 } : State).sset = [] ∧
    (let s : State := { State.reset with stage := 3 }
     (s.stack 15).trained = false ∧ (s.stack 15).failed = false ∧ (s.stack 15).marked = false ∧ s.tested = false ∧ s.sset.length < 8 ∧
     (s.modStack 15 (fun x => { x with failed := true })).stacksDecided = false ∧ (s.modStack 15 (fun x => { x with marked := true })).stacksDecided = false) ∧
    (let s : State := { State.reset with stage := 3, sset := [1, 2], hbm := (List.range 15).map (fun i =>
       (i, { (State.reset.stack i) with trained := decide (i = 1 ∨ i = 2), failed := decide (i ≠ 1 ∧ i ≠ 2) })) }
     s.stacksDecided = false ∧ s.sset.length + 1 < 8 ∧ (s.modStack 15 (fun x => { x with failed := true })).stacksDecided = true ∧
     (s.modStack 15 (fun x => { x with marked := true })).stacksDecided = true ∧
     (s.modStack 15 (fun x => { x with trained := true })).stacksDecided = true) ∧
    ((State.reset.modStack 3 (fun x => { x with marked := true })).stack 3).marked = true ∧
    (let s : State := { State.reset with stage := 3, sset := List.range 8, hbm := (List.range 16).map (fun i =>
       (i, { (State.reset.stack i) with trained := decide (i < 8), failed := decide (8 ≤ i) })) }
     s.stacksDecided = true ∧ 8 ≤ s.sset.length ∧ s.columnsBad = false) ∧
    7 % 2 ^ 15 ≠ 0x7FFF ∧
    (let s : State := { sC with hostwin := BitVec.ofNat 64 (2 ^ 63 + 1 * 2 ^ 16 + 1) }
     s.hostwin.getLsbD 63 = true ∧ 0x3FFFFFFF + 1 ≤ s.hostwin.toNat / 2 ^ 16 % 2 ^ 10 * 2 ^ 30) ∧ State.reset.hostwin.getLsbD 63 = false ∧
    (let s : State := { sC with pexp := BitVec.ofNat 64 (2 ^ 63) }
     s.pexp.getLsbD 63 = true) ∧ State.reset.pexp.getLsbD 63 = false ∧ State.reset.slewLeft = 0 ∧
    (BitVec.ofNat 64 (0x7FFF * 2 ^ 32)).toNat / 2 ^ 32 % 2 ^ 15 = 0x7FFF := by decide +kernel

theorem test_stack_trained : (match exec (.stackTrained 5) ({ State.reset with stage := 3, sset := [3, 9] } : State) with
    | .next t => decide (t.sset = [3, 5, 9] ∧ t.ret.phase = 1)
    | _ => false) = true := by decide +kernel

theorem test_stagger_every_device : (match exec (.staggerWrite (BitVec.ofNat 64 (0x7FFF * 2 ^ 32 + 3 * 2 ^ 8))) sC with
    | .next t => decide (t.pending = [.staggerArrival 3 1])
    | _ => false) = true := by decide +kernel

/-! ### Steps and traps -/

theorem witness_StepRunsTheDecodedWord : (State.reset.load 0x010860B160100000).turn =
      (some (.word 0), { State.reset.load 0x010860B160100000 with sched := [] }) ∧
    (let s2 := (({ State.reset.load 0x010860B160100000 with sched := [] } : State).select 0)
     s2.current = some 0 ∧ (s2.task 0).wait = .none ∧ (s2.hive (hiveOf 0)).halted = false ∧ s2.released 0 = true ∧
     (s2.task 0).breaks (s2.ctx (s2.task 0).ctx).debugRing.isSome = false ∧ (s2.translate 0 0 0 true .fetch).1 = .ok 0x200000 0x20000F ∧
     s2.paOk 0x200000 = true ∧ ((s2.translate 0 0 0 true .fetch).2.fetchWord 0 0x200000).1 = 0x010860B160100000 ∧
     heldLine (s2.core 0).icache 0x200000 = none ∧ heldLine (s2.hive (hiveOf 0)).icache 0x200000 = none ∧
     (heldLine (((s2.translate 0 0 0 true .fetch).2.fetchWord 0 0x200000).2.core 0).icache 0x200008).isSome = true) := by decide +kernel

/-- Three messages to core 9, two from core 3 and one of its own, and an event that is no arrival. -/
def sOrder : State :=
  let m (src tag : Nat) : Event := .messageArrival { userMsg with src := src, dst := 9, hdr := BitVec.ofNat 64 tag }
  { sC with pending := [.bounceResend 3, m 3 20, m 3 21, m 9 22] }

theorem witness_message_order : sOrder.pending[0]? = some (.bounceResend 3) ∧ sOrder.pendingPlace 0 = 0 ∧ sOrder.pendingPlace 2 = 3 ∧
    (({ sOrder with pending := sOrder.pending.eraseIdx 3 } : State).pendingPlace 2) = 1 ∧
    ((sOrder.resend { userMsg with src := 3, dst := 9, hdr := 19 }).pendingPlace 3 = 4 ∧
     (sOrder.resend { userMsg with src := 3, dst := 9, hdr := 19 }).pending[1]? = some (.messageArrival { userMsg with src := 3, dst := 9, hdr := 19 })) := by
  decide +kernel

/-- The first step after a load runs the word: g12 ← g11 × g11. -/
theorem test_first_step : (match step (State.reset.withFetchWord 64 0x010860B160100000) with
    | .next t => decide ((t.task 0).pc = 8 ∧ t.tick = 1 ∧ (t.task 0).sched = [{ reg := 12, left := 1, pc := 0 }])
    | _ => false) = true := by decide +kernel

/-- The all-zero word is illegal, with cause 1. -/
theorem test_illegal_word : (match step (State.reset.withFetchWord 64 0) with
    | .next t => decide ((t.task 0).stat = .held [BitVec.ofNat 64 (2 ^ 48 + 2 ^ 40), 0, 0, 0, 0, 0, 0, 0])
    | _ => false) = true := by decide +kernel

theorem witness_StepKeepsMemoryCanonical : State.inv sC = true ∧ State.inv State.reset = true := by decide +kernel

/-- Core 0's hive has a ring at 0x400000, and context 0 a pool of three areas at 0x680000 with one used. -/
def sTrap : State :=
  (user0 0x2900000000001234 [(4, 9)]).modHive 0 (fun h => { h with frbase := 0x400001 }) |>.modCtx 0 (fun c =>
    { c with svpool := BitVec.ofNat 64 (3 * 2 ^ 40 + 0x680000), svUsed := [1], lowPosted := true })

theorem witness_PutsDown : PutsDown sTrap 0 where
  user := by decide +kernel
  noLoads := by
    have h : (sTrap.task 0).loads = [] := by decide +kernel
    rw [h]; simp
  noMerge := by decide +kernel
  noLate := by decide +kernel
  sect := by decide +kernel
  late := by decide +kernel
  finished := by decide +kernel
  noPort := by decide +kernel
  noReady := by
    intro j hj
    have h : j < 8 := by omega
    interval_cases j <;> decide +kernel
  noSaved := by decide +kernel
  noMessage := by decide +kernel

theorem witness_TakingATrap : (sTrap.hive (hiveOf (0 / 8))).takes = true ∧ sTrap.hbm.all (fun p => p.2.lost.isNone) = true ∧
    draws sTrap (sTrap.task 0).ctx 2 ∧ sTrap.tasks = [(0, sTrap.task 0)] ∧ 63 < 64 ∧
    (let s := sTrap.modCtx 0 (fun c => { c with svUsed := [1, 2] })
     (s.ctx 0).svPick = none) ∧
    (sC.hive (hiveOf (0 / 8))).takes = false ∧ sC.expiring 0 = false ∧
    ((sC.modCtx 0 (fun c => { c with stopping := true })).expiring 0 = true) := by decide +kernel

/-- An entry in the ring: its words at the producer's place. -/
theorem test_ring_entry : (let t := sTrap.postEntry 0 (ringEntry 30 0 0 0 0 0 5 0 0x6C0000 [0x1234]) 0
    t.word 0x400000 = BitVec.ofNat 64 (30 * 2 ^ 48) ∧ t.word 0x400018 = 0x6C0000 ∧ t.word 0x400020 = 0x1234) := by decide +kernel

/-- A software trap: the slot free, the task in state 2 at area 2 with its program counter. -/
theorem test_trap_entry : (match exec (.trap 0x1234) sTrap with
    | .next t => decide ((savedOf t 0x6C0000).state = 2 ∧ (savedOf t 0x6C0000).task.pc = 0 ∧ (t.task 0).stat = .free ∧ (t.hive 0).prod = 1)
    | _ => false) = true := by decide +kernel

/-! ### Witnesses of the clauses about lines, entries, pages that move and what is held -/

/-- Slot 255 of core 0 is live, and its last line is not written and lists no byte. -/
def sLive : State := sL.setTag 0 0 255 { state := 2, gate := 0, phase := false, tag := 0 }

theorem witness_OwnScratchpadWrite_lines : sLive.current = some 0 ∧ sLive.heldBack 0 0 0x3FFBE 2 = false ∧
    sLive.lockOn 0 (linesAt 0 0x3FFBE 2) = none ∧ (sLive.task 0).logFull (ownLines 0 0x3FFBE 2) = false ∧
    ((sLive.space 0 0).stag (0x3FFFF / 1024)).state ≠ 0 ∧ Tab.get false (sLive.space 0 0).written (0x3FFFF / 64) = false ∧
    Tab.get Memory.unlisted (sLive.space 0 0).bytes 0x3FFFF = Memory.unlisted ∧ outsideRecord sLive 5 0x200240 := by decide +kernel

theorem witness_VectorMemoryResults_lines : (let s := (sE vstAt [op 0x3FF40]).setTag 0 0 255 { state := 2, gate := 0, phase := false, tag := 0 }
    executes s vstAt ∧ s.heldBack 0 0 0x3FF40 128 = false ∧ ((s.space 0 0).stag (0x3FFFF / 1024)).state ≠ 0 ∧
    Tab.get false (s.space 0 0).written (0x3FFFF / 64) = false ∧ Tab.get Memory.unlisted (s.space 0 0).bytes 0x3FFFF = Memory.unlisted) := by
  decide +kernel

/-- The descriptor of region 7 of context 0 lies at 0x200100 and is valid in memory and as loaded. -/
def sEntry : State := (sG.modCtx 0 (fun c => { c with
    vrbase := BitVec.ofNat 64 (0x200000 + 1)
    regions := [(8, { valid := true, base := 0x2000, closed := false, floor := 0, lines := 64, dir := 0x800000, held := false, holder := 0 })] })).writeWords
      0x200100 [1]

theorem witness_GlobalStoreResults_entry : (sEntry.ctx 0).descAt 8 = 0x200100 ∧
    (let ps : List Piece := [{ va := 0x100, pa := 0x200100, n := 4, leaf := 0x20000F }]
     let s1 := after (xlateSpan 0x100 4 .store) sEntry
     Starts false sEntry 0 ∧ Gives (xlateSpan 0x100 4 .store) sEntry ps s1 ∧
     s1.storeBreaks (s1.task 0) (byParts (ranges ps) [1, 0, 0, 0]) = some 0x200100 ∧
     s1.storeBreaks (s1.task 0) (byParts (ranges ps) [0, 0, 0, 0]) = none) ∧
    (let s1 := after (atomicTarget 0x100 (tyBytes .i32) false) sEntry
     Gives (atomicTarget 0x100 (tyBytes .i32) false) sEntry (0x100, 0x200100, 0x20000F) s1 ∧
     s1.storeBreaks (s1.task 0) [(0x200100, [1, 0, 0, 0])] = some 0x200100 ∧ s1.storeBreaks (s1.task 0) [(0x200100, [0, 0, 0, 0])] = none) := by
  delta Starts Gives; decide +kernel

/-- A `put` of the task that has not read its list may reach every core. -/
def putUnread : GetPut := { isPut := true, d := 0x240, a := 0x1000, ctl := 0x100, list := 0x2000, known := false, idx := [], slot := 0
                            ctx := 0, tid := 0, pc := 0, first := 0, els := [], landed := [], halted := false, killed := false }

theorem witness_AtomicResults_puts : sG.putsTo 0 (ownerOf 0x20000F 0x100) = false ∧
    (sG.modCore 0 (fun c => { c with gp := [putUnread] })).putsTo 0 (ownerOf 0x20000F 0x100) = true := by decide +kernel

/-- A `get` after a `put` whose pages translate and one whose page does not. -/
theorem witness_GetPutAndCounterResults_pages : (let s := sK.modTask 0 (fun t => { t with bulk := [{ pa := 0, len := 64, pc := 0, va := some 0x5000 }] })
    let g := bulkCommand s 0 false 0x3FFC0 0x100 0x3FFC0 0x100
    Starts false s 0 ∧ Gives awaitPuts s () s ∧ (∀ p ∈ reachedBy s 0 g, Gives (checkBulk p.1 p.2) s () s) ∧
    (∀ p ∈ s.misses s.focus (s.task 0).super (g.listed (s.readIndexList s.focus g).1), Gives (checkBulkAt p.1 p.2) s () s)) := by
  delta Starts Gives; decide +kernel

/-- A store to host memory waits in the commit buffer before stage C; a vector store stands behind a lock. -/
theorem witness_DoneResults_waits : (sM.task 0).commit = [] ∧ sM.storeStall 0 = none ∧
    (let s := ({ sM with stage := 2 } : State).modTask 0 (fun t => { t with commit := [{ eff := .store 0x240 0x400000000000 [1] 0 none, units := 1, pc := 0, control := 0 }] })
     Starts true s 0 ∧ s.cacheWaits 0x400000000000 = true ∧ (s.task 0).inl = [] ∧ s.orderedGroup (s.task 0) = none ∧ s.commitReady 0 = true) ∧
    (let s := sC.modCore 0 (fun c => { c with
       vq := { c.vq with held := [{ commandOf sC 0 vstAt ng [op 0] with place := 2 }] }
       mq := { c.mq with held := [{ commandOf sC 0 mma1 { ng with wait := some (3, true) } [op 0, op 0x400, op 0] with place := 1 }] } })
     Starts true s 0 ∧ s.commitReady 0 = false ∧ s.storeStall 0 = some 3) := by
  delta Starts Gives; decide +kernel
/-- A saved task's commit buffer holds the resume of the fibre; a handler whose return waits for no store to the host. -/
theorem witness_TrapAndFibreResults_saved : (let r := savedOf sSaved 0x520000
    let s : State := { sSaved with saved := [(0x500000, savedOf sSaved 0x500000),
      (0x520000, { r with task := { r.task with commit := [{ eff := .fibreResume 0x500000, units := 0, pc := 0, control := 0 }] } })] }
    namesFibre s 0 0x500000 ∧ (savedOf s 0x500000).pending = false ∧ (s.task 0).commit = [] ∧ s.fibreState 0 0 0x500000 = 2 ∧
    sSaved.fibreState 0 0 0x500000 = 1 ∧ ((buffering sSaved 0 (.eret 0x520000 1) 0 0).task 0).commit.length = 1) := by decide +kernel

/-- A copy of poisoned bytes, and one of clean ones. -/
theorem witness_EnginePathEvents_tags : (∀ i, i < 64 → (sCopy.space 0 0).lineTag ((0x1000 + i) / 64) = 0) ∧
    (let s := ({ sCopy with erbase := 0x30000 } : State).modSpace 0 0 (fun sp => { sp with written := [(0x40, true)], tags := [(0x40, 5)] })
     (s.space 0 0).lineTag (0x1000 / 64) = 5 ∧ outsideRecord s 5 0x200A4 ∧ ¬ outsideRecord s 5 0x200A3) := by
  constructor
  · intro i h; interval_cases i <;> decide +kernel
  · decide +kernel

/-- A waggle operation on a line of the host's window, before and after its acknowledgement; a `put`'s element and what it writes. -/
theorem witness_ArrivalEvents_host : sA1.hostOwes 0x200240 1 = [] ∧ (hosted sA1).hostOwes 0x200240 1 ≠ [] ∧
    sA1.portHeld [(0x200240, 1)] = false ∧ (hosted sA1).portHeld [(0x200240, 1)] = false ∧
    sA1.hostOwes addUpd.pa (elemBytes addUpd.t) = [] ∧ addUpd.kind = .amo .add ∧
    (let s : State := { sA1 with cyc := 104, placed := [{ core := 0, slot := 0, op := .amo 9 addUpd, window := 0 }] }
     (0 + 1) * 8 + 96 ≤ s.cyc ∧ s.placed.length = 1) ∧
    wroteBy getCmd 1 = [] ∧ wroteBy { getCmd with isPut := true } 1 = [(0x200248, 8)] ∧ sA1.elementHeld 0 getCmd 1 = false := by decide +kernel

/-- Page 0 of context 0 carries its migration mark, at its page-table entry. -/
def moving (s : State) : State := s.writeWords 0x104000 [BitVec.ofNat 64 (0x200000 + 0xF + 0x200)]

theorem witness_pages : (moving sO).pageMoving 0 0x240 = true ∧ sO.pageMoving 0 0x240 = false := by decide +kernel

/-- The owners' waits: for a page that moves, for the host, and for neither. -/
theorem witness_OwnerEvents_waits : (sO.linkAddrs linkOf).any (sO.pageMoving 0) = false ∧
    ((moving sO).linkAddrs linkOf).any ((moving sO).pageMoving 0) = true ∧
    (hosted sO).pageMoving 0 0x240 = false ∧ (hosted sO).handlerOwes 0 [0x240] ≠ [] ∧ sO.handlerOwes 0 [0x240] = [] ∧
    sO.refillMoves 0 0 = false ∧ (moving (sO.modCtx 0 (fun c => { c with nhbase := 1 }))).refillMoves 0 0 = true ∧
    (let s := sO.modGroup 0 1 (fun x => { x with members := 2, arrivals := [(3, 0)] })
     ∃ a ∈ arrivalsOf s 0 1, a.1 = 3) ∧
    ((sO.deliver 9 (.word (val 1))).task 0).stat = .running ∧
    sEntry.entryBroken sEntry.byte 0x200100 [1] = some 0x200100 ∧ sEntry.entryBroken sEntry.byte 0x200100 [0] = none ∧
    (let s := sEntry.writeSeen 0x200100 [3] 0 .atomic
     sEntry.entryBroken sEntry.byte 0x200100 (s.bytes 0x200100 1) = some 0x200100) := by decide +kernel

/-- A merge with one entry of its log left, on page 0. -/
def merging1 (s : State) : State :=
  (((s.modCore 0 (fun c => { c with merging := true })).modTask 0 (fun t => { t with wait := .merge 3 })).modCc 0 0 (fun c =>
    { c with logCount := 1, dlog := BitVec.ofNat 64 (2 ^ 44 + 0x300000) })).writeWords 0x300000 [0x240, 5, 0x700, 0]

/-- It goes on, waits for the host, or waits for its page. -/
theorem witness_merge_waits : (let s := merging1 sO
     (s.core 0).merging = true ∧ (s.core 0).running = some 0 ∧ (s.task 0).wait = .merge 3 ∧ (s.task 0).stat = .running ∧
     (s.mergeOrder 0 0).2.length = 1 ∧ (∀ e ∈ (s.mergeOrder 0 0).2, s.entryHolds 0 e = ([], false)) ∧ s.heldOwes 0 = [] ∧
     (s.applyEntries 0 0 0 (s.mergeOrder 0 0).2 0).1 = 1 ∧ (s.applyEntries 0 0 0 (s.mergeOrder 0 0).2 0).2.1 = false) ∧
    (let s := hosted (merging1 sO)
     ((s.mergeOrder 0 0).2.map (s.entryHolds 0)).flatMap (·.1) ++ s.heldOwes 0 ≠ []) ∧
    (let s := moving (merging1 sO)
     ∃ e ∈ (s.mergeOrder 0 0).2, (s.entryHolds 0 e).2 = true) := by decide +kernel
/-- A version load behind an earlier load of its bytes; a waiter of its line that is being saved; broken duties of R51 and R52. -/
theorem witness_VersionEvents_waits : ((sR true 3 false).task 0).earlierOverlap (versLoad true 3) = false ∧
    (let s := (sR true 3 false).modTask 0 (fun t => { t with loads := [{ plainLoad with id := 8, va := 0x2040, parts := [(0x701040, 4)] }, versLoad true 3] })
     VersionLoad s 0 9 (versLoad true 3) true 3 5 0x800010 ∧ (s.task 0).earlierOverlap (versLoad true 3) = true) ∧
    (let s := sV.modTask 1 (fun t => { t with stat := .saving (.evict (.version 9)) })
     (s.task 1).stat.parkedOn = some (.version 9) ∧ (∀ p ∈ s.tasks, p.2.stat ≠ .parked (.version 9))) ∧
    (∀ p ∈ sV.tasks, p.2.stat.parkedOn ≠ some (.version 9)) ∧ sV.vrsyncBreaks 0 7 = false ∧
    (let s := sV.modTask 0 (fun t => { t with loads := [versLoad true 3] })
     s.vrsyncBreaks 0 5 = true) := by decide +kernel

/-- A meet, and relink messages, whose pages move; a node's line of the host's window; a poisoned link word; a spilled message that starts. -/
theorem witness_MessageEvents_waits : (moving sNet).meetMoving 0 0x240 0x280 = true ∧
    (relinkLines (.hinge 0 0x240 0x300)).any ((moving sNet).pageMoving 0) = true ∧
    (relinkLines (.hinge 0 0x240 0x300)).any ((hosted sNet).pageMoving 0) = false ∧
    (hosted sNet).linesOwed 0 (relinkLines (.hinge 0 0x240 0x300)) ≠ [] ∧
    (let s := sNet.poisonLine 0x200240 5
     s.lineTag 0x200240 = 5 ∧ relinkFollows (.hinge 0 0x240 0x300) (lnkOf (segWord s 0x200240 1)) = true ∧
     relinkFollows (.fix 0 0x240 0x300) (lnkOf (segWord s 0x200240 1)) = false) ∧
    ((sW.startTask 9 0 userMsg).task (9 * 8 + 0)).stat = .ready ∧
    (let s := sC.modCore 3 (fun c => { c with bounced := [{ m := userMsg, since := 0 }] })
     s.returnedBefore userMsg = true ∧ sC.returnedBefore userMsg = false) ∧
    (∀ e ∈ sC.pending, sC.wayOf e ≠ some (3, 9)) := by decide +kernel

/-- A quantum whose updates are on their way and one whose are not; owners that wait for the host; a change of level that waits. -/
def quantumMsg (q : Nat) : Message := svcMessage 2 9 0 (.update { addUpd with quantum := q })

/-- A value that a table gives is the unlisted one or stands in it. -/
theorem get_cases {α : Type} (d : α) (t : Tab α) (k : Nat) : Tab.get d t k = d ∨ (k, Tab.get d t k) ∈ t := by
  induction t with
  | nil => exact .inl rfl
  | cons p t ih =>
    simp only [Tab.get]
    split
    · rename_i h
      subst h
      exact .inr (by simp)
    · exact ih.imp id (fun h => by simp [h])

/-- A group whose bitmap holds the byte 1 and zeros after it has one member, core 0, which alone ends its quantum. -/
theorem quantumOver_of_one {s : State} {ctx g : Nat}
    (hm : ∀ p ∈ s.mem, (s.group ctx g).bitmap ≤ p.1 → p = ((s.group ctx g).bitmap, 1#8))
    (he : (s.group ctx g).qno < s.endedOf ctx g 0) : s.quantumOver ctx g = true := by
  simp only [State.quantumOver, State.membersOf, List.all_eq_true, List.mem_filter, List.mem_range, decide_eq_true_eq]
  rintro c ⟨-, hb⟩
  simp only [State.memberBit, State.byte] at hb
  obtain h | h := get_cases Memory.unlisted s.mem ((s.group ctx g).bitmap + c / 8)
  · rw [h] at hb
    simp [Memory.unlisted] at hb
  · have h2 := hm _ h (by simp)
    have h3 : c / 8 = 0 := by have := congrArg Prod.fst h2; simp at this; omega
    rw [show Tab.get Memory.unlisted s.mem ((s.group ctx g).bitmap + c / 8) = 1#8 from congrArg Prod.snd h2] at hb
    have h5 : c % 8 = 0 := by
      revert hb
      generalize c % 8 = k
      intro hb
      simpa using hb
    rwa [show c = 0 by omega]

def withQuantum : State :=
  ((withGroup (hosted sC)).modGroup 0 1 (fun x => { x with merge := true })).modCc 0 0 (fun c =>
    { c with holding := [quantumMsg 0], heldCount := 1, ended := [(1, 1)], grp := [(0, BitVec.ofNat 64 (2 ^ 63 + 1))] })

theorem witness_quanta_waits : (withGroup sC).quantumFlies 0 1 0 ((withGroup sC).endedOf 0 1 0) = false ∧
    .quantumEnd 0 1 0 ∉ (withGroup sC).pending ∧ withQuantum.levelOwes 0 ≠ [] ∧ sC.levelOwes 0 = [] ∧
    (({ withGroup sC with pending := [.gsyncArrival 0 1 0 0] } : State).quantumFlies 0 1 0 0 = true) := by decide +kernel
/-- A quantum that is over and an owner whose settlement waits for the host. -/
theorem witness_quanta_over : withQuantum.quantumOver 0 1 = true ∧ 0 ∈ (withGroup sC).membersOf 0 1 ∧
    ((withQuantum.ownersOf 0 1 0).filter (fun c => (withQuantum.cc 0 c).heldCount != 0)).flatMap (withQuantum.settleOwes 0) ≠ [] := by
  have h : (withQuantum.cc 0 0).heldCount ≠ 0 ∧ withQuantum.settleOwes 0 0 ≠ [] ∧ withQuantum.mergeGroup 0 0 = some 1 ∧
      (withGroup sC).memberBit 0 1 0 = true ∧ hiveOf 0 = 0 := by decide +kernel
  refine ⟨quantumOver_of_one (by decide +kernel) (by decide +kernel), ?_, ?_⟩
  · simp [State.membersOf, h.2.2.2.1]
  · rw [ne_eq, List.flatMap_eq_nil_iff]
    intro hn
    exact h.2.1 (hn 0 (by simp [State.ownersOf, h.1, h.2.2.1, h.2.2.2.2]))

/-- A parked task that is being saved and the walk of its page. -/
theorem witness_walk_saving : (let s := sC.modTask 0 (fun t => { t with stat := .saving (.evict (.migrating 0x248)) })
    (s.task 0).stat.parkedOn = some (.migrating 0x248) ∧ (s.translate 0 0 0x240 true .load).1 ≠ .migrating) ∧
    (sC.task 0).stat.parkedOn = none := by decide +kernel
/-- A held fault of a saved task; a save that waits for nothing but its area; a pool below its mark, and above it. -/
theorem witness_FaultRegisterEvents_saved : (let s := (sC.modHive 0 (fun h => { h with frbase := 0x400001, heldFaults := [.saved 0x520000] }))
    let s : State := { s with saved := [(0x520000, { Saved.empty with entry := [1, 2] })] }
    (s.hive 0).takes = true ∧ (s.hive 0).heldFaults = [.saved 0x520000] ∧ (savedOf s 0x520000).entry ≠ []) ∧
    (let s := (sC.modTask 0 (fun t => { t with stat := .saving .debug })).modCtx 0 (fun c =>
       { c with svpool := BitVec.ofNat 64 (3 * 2 ^ 40 + 0x680000), lowPosted := true })
     s.tasks = [(0, s.task 0)] ∧ (s.task 0).stat = .saving .debug ∧ s.saveWaits 0 = false ∧ (s.allocArea 0).isSome = true) ∧
    ((sC.ctx 0).svlow ≤ (sC.ctx 0).svFree) ∧
    (let s := sC.modCtx 0 (fun c => { c with svlow := 4 })
     (s.ctx 0).svFree < (s.ctx 0).svlow ∧ (s.ctx 0).lowPosted = false) ∧
    (let c := poolSet (sC.ctx 0) (BitVec.ofNat 64 (3 * 2 ^ 40 + 0x680000))
     c.svlow ≤ c.svFree) ∧
    (let s := (sC.modCtx 1 (fun c => { c with stopped := true })).modSpace 1 5 (fun sp => { sp with present := true })
     s.cmoveStatus 1 5 6 = 0 ∧ (s.modSpace 1 6 (fun sp => { sp with deque := { sp.deque with reserved := 2 } })).cmoveStatus 1 5 6 = 1) := by
  decide +kernel

/-- Errors counted below, at and above the mark; an acknowledgement that breaks R66 or R405; what is left when a stack is lost; a request
on its way, one behind another, and one that is served. -/
theorem witness_RetirementEvents_counts : (sRet.stack 4).corrected = 0 ∧ (sRet.stack 4).thr = 4096 ∧ canRetire sRet 4 ∧
    (retiring 1).ackBreaks = false ∧ (retiring 1).ret.rstate = 1 ∧
    ((retiring 1).modCtx 3 (fun c => { c with frames := [(retiring 1).mcapNext] })).ackBreaks = true ∧
    (({ retiring 1 with hostwin := BitVec.ofNat 64 (2 ^ 63 + 1023 * 2 ^ 16 + 1023) } : State).ackBreaks = true) := by decide +kernel

theorem witness_RetirementEvents_requests : (let s := sRet
     s.ret.rstate = 0 ∧ 8 < s.sset.length ∧ ¬ (8 < ({ s with sset := List.range 8 } : State).sset.length)) ∧
    ((retiring 1).ret.stack = 4 ∧ 9 < (retiring 1).sset.length ∧ ¬ (9 < ({ retiring 1 with sset := List.range 9 } : State).sset.length)) ∧
    (∀ x ∈ (asked aReq).outstanding, x.id ≠ 2) ∧ ((asked aReq).outstanding = [aReq]) ∧
    (let s := (asked aReq).modStack 5 (fun x => { x with lost := some 3 })
     standsOut s aReq ∧ (s.stack aReq.stack).lost.isSome = true) ∧
    (let s := (asked aReq).modStack 5 (fun x => { x with replaying := true })
     standsOut s aReq ∧ (s.stack aReq.stack).lost = none ∧ (s.stack aReq.stack).replaying = true) ∧
    (let s : State := { asked aReq with mapCopies := [(518, { version := 0, phase := 0, cursor := some (8, 5) })] }
     aboveCursor (s.mapCopy 518).cursor aReq.frame aReq.strip = true ∧ aReq.mapBit = false) ∧
    aboveCursor ((asked aReq).mapCopy 518).cursor aReq.frame aReq.strip = false ∧
    (let s := (asked aReq).modStack 5 (fun x => { x with corrected := 4097 })
     (s.stack 5).thr < (s.stack 5).corrected) ∧ ((asked aReq).stack 5).corrected ≤ ((asked aReq).stack 5).thr := by decide +kernel

/-- For every number of errors that the controller meets, one of the two clauses of a served request applies. -/
theorem witness_RetirementEvents_served (n : Nat) : ((asked aReq).stack 5).corrected + n ≤ ((asked aReq).stack 5).thr ∨
    ((asked aReq).stack 5).thr < ((asked aReq).stack 5).corrected + n := by omega

/-- A message in flight to a peer that a failure cuts off, and one that has arrived; reads within the windows and outside them. -/
theorem witness_PlatformEvents_far : (let s : State := { sC with routes := [(7, [3])], farOut := [(7, 5)] }
     (∃ p ∈ s.routes, p.2 = [3] ∧ ∃ q ∈ s.farOut, q.1 = p.1 ∧ s.cyc < q.2)) ∧
    (let s : State := { sC with routes := [(7, [3])], farOut := [(7, 5)], cyc := 9 }
     ∀ p ∈ s.routes, 3 ∈ p.2 → (∀ x ∈ p.2, x = 3) → ∀ q ∈ s.farOut, q.1 = p.1 → q.2 ≤ s.cyc) ∧
    (let s : State := { sC with hostwin := BitVec.ofNat 64 (2 ^ 63 + 1 * 2 ^ 16 + 0) }
     s.hostwin.getLsbD 63 = true ∧ 0x240 + 8 ≤ s.hostwin.toNat / 2 ^ 16 % 2 ^ 10 * 2 ^ 30 ∧ 0x240 + 8 ≤ s.mcap * 2 ^ 30 ∧
     s.hostwin.toNat / 2 ^ 16 % 2 ^ 10 * 2 ^ 30 < 0x3FFFFFFF + 8) ∧
    (let s : State := { sC with pexp := BitVec.ofNat 64 (2 ^ 63) }
     s.pexp.getLsbD 63 = true ∧ 0x240 + 8 ≤ 2 ^ 32 ∧ s.pexp.toNat % 2 ^ 8 * 2 ^ 32 + 0x240 + 8 ≤ s.mcap * 2 ^ 30 ∧ 2 ^ 32 < 0xFFFFFFFF + 8) ∧
    ((sC.stack 4).corrected ≤ 3) ∧
    (let s := ({ hostWaits with backInvals := [3] } : State)
     ({ s with backInvals := [], invalAcked := [3] } : State).commitOwes (s.task 0) ≠ []) := by decide +kernel

/-- Which events travel between cores. -/
theorem witness_ways : sOrder.wayOf (.bounceResend 3) = none ∧ sOrder.wayOf (.messageArrival userMsg) = some (3, 9) ∧
    (sOrder.pending[1]?.bind sOrder.wayOf) = some (3, 9) ∧ (∃ y ∈ sOrder.pending, sOrder.wayOf y = some (9, 9)) := by decide +kernel

/-! ### Well-formedness -/

def g0Tile : Tile := { n := 0, half := .full }

/-- Each check of WellFormed refuses a term that breaks it: scalar words. -/
theorem test_ill_formed_scalar : ([
    .add { d := .fifo .ares, a := .g 1, b := .g 2, t := .i64 }, .add { d := .g 1, a := .g 1, b := .g 2, t := .f32 },
    .mulh { d := .g 1, a := .g 1, b := .g 2, t := .n32 }, .mulhn { d := .g 1, a := .g 1, b := .g 2, t := .i32 },
    .abs { d := .g 1, a := .g 1, t := .n8 }, .zext { d := .g 1, a := .g 1, t := .i8 }, .clz { d := .g 1, a := .g 1, t := .none },
    .bins { d := .special .tid, a := .g 1, b := .g 2, c := .g 3, t := .i8 }, .sel (.fifo .vres) (.g 0) (.g 0) (.g 0),
    .addi { d := .g 1, a := .g 1, t := .q4x, imm := 0 }, .slti { d := .g 1, a := .g 1, t := .n8, imm := 0 },
    .sltni { d := .g 1, a := .g 1, t := .i8, imm := 0 }, .shli { d := .g 1, a := .g 1, t := .i16, imm := 16 }, .li (.special .cyc) 0,
    .fadd (.fifo .mres) (.g 0) (.g 0), .fcls (.fifo .cres) (.g 0), .fcvt (.g 0) (.g 0) .f32 false false .rne, .fcvt (.g 0) (.g 0) .i32 true true .rne,
    .loopImm 3 0, .loopReg (.g 1) 0, .ld { d := .g 0, base := .g 0, index := .g 0, scale := 1, t := .none, off := 0 },
    .st { d := .g 0, base := .g 0, index := .g 1, scale := 0, t := .q4x, off := 0 }, .ldp { d := 63, base := .g 0, index := .g 1, scale := 0, off := 0 },
    .gsr (.g 1) 0x107, .ssr 0x1C6 (.g 1), .tlbiPage { a := .g 1, b := .g 1, scope := .core, cc := 1 },
    .tlbiCtx { a := .g 1, b := .g 1, scope := .core, cc := 0 }, .tlbiAll { a := .g 0, b := .g 1, scope := .dev, cc := 0 }] : List Instr).all
      (fun i => !wellFormed i) = true := by decide +kernel

/-- Global-memory words. -/
theorem test_ill_formed_global : ([
    .ldg { q := 0, base := 0, index := 0, scale := 2, t := .i32, off := 0 }, .scld { q := 0, base := 0, index := 1, scale := 2, t := .f16, off := 0 },
    .stg { d := 0, base := 0, index := 1, scale := 0, t := .q4x, off := 0 }, .wtvEq { q := none, a := 0, b := 0, c := 0, t := .i32 },
    .pref 0 0 1 0, .ldvEq 0 0 0 .q4x 0, .stv 0 0 .q4x 0, .amoAdd { a := 0, b := 0, c := 1, t := .i32 }, .amoFadd { a := 0, b := 0, c := 0, t := .i32 },
    .amoMin { a := 0, b := 0, c := 0, t := .n16 }, .amoSwap { a := 0, b := 0, c := 0, t := .i16 }, .amoCas { a := 0, b := 0, c := 0, t := .f32 },
    .vamoAdd { m := 0, a := 0, b := 0, c := 0, t := .f16 }, .dpop 63, .dsteal 63 0] : List Instr).all (fun i => !wellFormed i) = true := by decide +kernel

/-- Engine words. -/
theorem test_ill_formed_engine : ([
    .vadd { d := 0, a := 0, b := 0, sat := false, t := .i8, mode := .rup, pred := 0, gates := ng },
    .vmin { d := 0, a := 0, b := 0, sat := true, t := .i8, mode := .rne, pred := 0, gates := ng },
    .vand { d := 0, a := 0, b := 0, sat := false, t := .none, mode := .rne, pred := 1, gates := ng },
    .vfma { d := 0, a := 0, b := 0, c := 0, flag := false, t := .e4m3, mode := .rne, pred := 0, gates := ng },
    .vabs { d := 0, a := 0, sat := true, t := .f32, mode := .rne, pred := 0, gates := ng },
    .vrcp { d := 0, a := 0, sat := false, t := .i32, mode := .rne, pred := 0, gates := ng },
    .vcvt { d := 0, a := 0, part := 2, src := .i8, sat := false, t := .i16, mode := .rne, pred := 0, gates := ng },
    .vcmpEq { d := 0, a := 0, b := 0, t := .i8, pred := 0, gates := ng }, .vmovMm { d := 0, a := 0, b := 1, gates := ng },
    .mpop { d := 1, a := 0, b := 0, gates := ng }, .vext { a := 0, index := 32, t := .i32, gates := ng },
    .vld { d := 0, a := 0, b := 0, sat := true, t := .i8, mode := .rne, pred := 0, gates := ng },
    .vldf { d := 0, a := 0, b := 0, sat := false, t := .i8, mode := .rne, pred := 0, gates := ng },
    .vredsum { d := 0, a := 0, b := 0, c := 1, flag := false, t := .f32, mode := .rne, pred := 0, gates := ng },
    .vtopk { d := 1, a := 0, b := 0, lit := 1, pred := 0, gates := ng }, .vtopk { d := 0, a := 0, b := 0, lit := 0, pred := 0, gates := ng },
    .mma { d := g0Tile, a := 0, b := 0, c := 0, z := false, k := 0, t := .f16, bx := false, h := true, gates := ng },
    .mmv { d := g0Tile, a := 0, b := 0, c := 0, z := false, k := 1, t := .f16, bx := false, h := false, gates := ng },
    .mld { d := g0Tile, a := 0, b := 0, t := .e4m3, sat := false, mode := .rne, gates := ng },
    .mrdEl { a := g0Tile, b := 0, h := true, gates := ng }] : List Instr).all (fun i => !wellFormed i) = true := by decide +kernel

theorem test_ill_formed_copy : wellFormed (.cpy { d := 0, a := 0, b := 0, c := 1, dsp := true, ssp := true, gates := ng }) = false ∧
    wellFormed (.cpyx3d { d := 0, a := 0, b := 0, c := 63, dsp := true, ssp := true, gates := ng }) = false ∧
    wellFormed (.kst { d := 1, a := 0, b := 0, c := 0, gates := ng }) = false ∧ wellFormed (.qsig { d := 0, a := 0, b := 0, c := 1, gates := ng }) = false ∧
    wellFormed (.bgat { d := 0, a := 0, b := 0, c := 0, gates := { wait := some (1, true), sig := none } }) = false := by decide +kernel

/-- A word with a bit of a zero field set, and one with operand specifier 127, name their causes. -/
theorem test_refused_words : decode 0x010860B160100001 = .error 4 ∧ decode 0 = .error 1 := by decide +kernel

end Sys2Proof.Tests
end

section
/-! PROOFS of the scope: what a cold reset leaves. Every table of the reset state is empty, so each accessor answers the
value of an unlisted key; these are said once, accessor by accessor, and the obligation reads the fields off those values. -/

namespace Sys2Proof.Machine

/-- The invariant that the statements use, as the proposition that the laws of memory keep. -/
theorem State.inv_iff_memCanon (s : State) : s.inv = true ↔ s.memCanon := by
  simp [State.inv, State.memCanon]

/-! ### The accessors at reset -/

namespace State

@[simp] theorem stack_reset (n : Nat) : reset.stack n = .off := rfl
@[simp] theorem ctx_reset (c : Nat) : reset.ctx c = .absent := rfl
@[simp] theorem hive_reset (h : Nat) : reset.hive h = .idle := rfl
@[simp] theorem cc_reset (c n : Nat) : reset.cc c n = .empty := rfl
@[simp] theorem space_reset (c n : Nat) : reset.space c n = .empty := rfl
@[simp] theorem task_reset (k : Nat) : reset.task k = .idle := rfl
@[simp] theorem core_reset (n : Nat) : reset.core n = .idle := rfl

theorem inv_reset : reset.inv = true := (inv_iff_memCanon reset).2 reset_memCanon

/-- R46: before stacks are in service there is no frame. -/
@[simp] theorem mcap_reset : reset.mcap = 0 := by
  have noStacks : reset.sset.length = 0 := rfl
  rw [mcap, noStacks, capacity, if_pos rfl]

/-- R26: without a retirement, MCAPNEXT reads 0. -/
theorem mcapNext_of_no_retirement {s : State} (h : s.ret.rstate = 0) : s.mcapNext = 0 := if_pos h

end State

/-- Settles O60. The memory's canonical form, MCAP and MCAPNEXT come from their own lemmas, a device register's value is its field
in `State.reset`, and what a stack, a context, a hive, a core or a slot holds is its value for an unlisted key. -/
theorem resetState : Obligations.ResetState := by
  refine ⟨State.inv_reset, rfl, rfl, State.mcap_reset, State.mcapNext_of_no_retirement rfl,
    rfl, rfl, rfl, rfl, rfl, rfl, rfl, rfl, rfl, rfl, rfl, rfl, rfl,
    fun _ => ?stack, fun _ => ?ctx, fun _ => ?hive, fun _ _ => ?coreCtx, fun _ => ?task, fun _ => ?core⟩
  case stack => simp [Stack.off]
  case ctx => simp [Ctx.absent]
  case hive => simp [Hive.idle]
  case coreCtx => simp [CoreCtx.empty, Space.empty, Tab.get]
  case task => simp [Task.idle]
  case core => simp [Core.idle]

end Sys2Proof.Machine
end

section
/-! PROOFS (O58). How the canonical form of main memory passes through branches, pairs and folds. -/

namespace Sys2Proof.Machine

/-- Only main memory and its tags matter. -/
theorem State.memCanon.of_mem {s t : State} (h : s.memCanon) (hm : t.mem = s.mem) (hl : t.lineTags = s.lineTags) :
    t.memCanon := by
  unfold State.memCanon; rw [hm, hl]; exact h

theorem ite_memCanon {c : Prop} [Decidable c] {s t : State} (hs : s.memCanon) (ht : t.memCanon) :
    (if c then s else t).memCanon := by
  split <;> assumption

theorem snd_memCanon {α : Type} {p : α × State} {a : α} {t : State} (h : p.2.memCanon) (e : p = (a, t)) :
    t.memCanon := by
  subst e; exact h

theorem snd2_memCanon {α β : Type} {p : α × β × State} {a : α} {b : β} {t : State} (h : p.2.2.memCanon)
    (e : p = (a, b, t)) : t.memCanon := by
  subst e; exact h

theorem foldl_memCanon {α : Type} {f : State → α → State} {l : List α} {s : State}
    (hf : ∀ s a, s.memCanon → (f s a).memCanon)
    (hs : s.memCanon) : (l.foldl f s).memCanon := foldl_keeps State.memCanon f hf l s hs

/-- The state, if there is one, is canonical. -/
def keptCanon : Option State → Prop
  | some s => s.memCanon
  | none => True

/-- A state that an exit keeps is canonical. -/
def Exit.memCanon : Exit → Prop
  | .upcall _ _ _ keep => keptCanon keep
  | _ => True

end Sys2Proof.Machine
end

section
/-! PROOFS (O58). Every operation of the model on a state whose main memory is canonical leaves it so, file by file.
Only `putMem`, `countPoison` and what is built on them write the memory. -/

namespace Sys2Proof.Machine

variable {s : State}

/-! ### Machine/Mem -/

theorem setCore_memCanon {c v} (hs : s.memCanon) : (s.setCore c v).memCanon := hs.of_mem rfl rfl

theorem modCore_memCanon {c f} (hs : s.memCanon) : (s.modCore c f).memCanon :=
  setCore_memCanon hs

theorem setTask_memCanon {k t} (hs : s.memCanon) : (s.setTask k t).memCanon := hs.of_mem rfl rfl

theorem modTask_memCanon {k f} (hs : s.memCanon) : (s.modTask k f).memCanon :=
  setTask_memCanon hs

theorem setSpace_memCanon {ctx core v} (hs : s.memCanon) : (s.setSpace ctx core v).memCanon := hs.of_mem rfl rfl

theorem modSpace_memCanon {ctx core f} (hs : s.memCanon) : (s.modSpace ctx core f).memCanon :=
  setSpace_memCanon hs

theorem modCc_memCanon {ctx core f} (hs : s.memCanon) : (s.modCc ctx core f).memCanon := hs.of_mem rfl rfl

theorem modCtx_memCanon {c f} (hs : s.memCanon) : (s.modCtx c f).memCanon :=
  hs.of_mem rfl rfl

theorem modHive_memCanon {h f} (hs : s.memCanon) : (s.modHive h f).memCanon := hs.of_mem rfl rfl

theorem modStack_memCanon {n f} (hs : s.memCanon) : (s.modStack n f).memCanon :=
  hs.of_mem rfl rfl

theorem push_memCanon {e} (hs : s.memCanon) : (s.push e).memCanon := hs.of_mem rfl rfl

theorem fresh_memCanon (hs : s.memCanon) : s.fresh.2.memCanon :=
  hs.of_mem rfl rfl

theorem dropVictims_memCanon {core slot} (hs : s.memCanon) : (s.dropVictims core slot).memCanon :=
  modCore_memCanon hs

theorem wakeSaved_memCanon {f} (hs : s.memCanon) : (s.wakeSaved f).memCanon :=
  ite_memCanon hs (foldl_memCanon (fun _ _ hs => (push_memCanon hs)) (hs.of_mem rfl rfl))

theorem wakeSpins_memCanon {pa n} (hs : s.memCanon) : (s.wakeSpins pa n).memCanon :=
  wakeSaved_memCanon (foldl_memCanon (fun _ _ hs => (ite_memCanon (push_memCanon hs) hs)) hs)

theorem spadWrite_memCanon {ctx core off bs tag} (hs : s.memCanon) :
    (s.spadWrite ctx core off bs tag).memCanon :=
  ite_memCanon (wakeSpins_memCanon (countPoison_memCanon (foldl_memCanon (fun _ _ hs =>
    (dropVictims_memCanon hs)) (modSpace_memCanon hs)) _ _))
    (countPoison_memCanon (foldl_memCanon (fun _ _ hs => (dropVictims_memCanon hs)) (modSpace_memCanon hs)) _ _)

theorem portSeen_memCanon {core off n} (hs : s.memCanon) : (s.portSeen core off n).memCanon := by
  unfold State.portSeen
  extract_lets here s1
  have h1 : s1.memCanon := foldl_memCanon (fun _ _ hs => ite_memCanon (setTask_memCanon hs) hs) hs
  clear_value s1
  exact h1.of_mem rfl rfl

theorem spErr_memCanon {ctx core unit write addr} (hs : s.memCanon) :
    (s.spErr ctx core unit write addr).memCanon :=
  modCc_memCanon hs

theorem spadSpaceRead_memCanon {ctx core unit addr n} (hs : s.memCanon) :
    (s.spadSpaceRead ctx core unit addr n).2.2.memCanon := by
  unfold State.spadSpaceRead
  dsimp only
  split
  · split
    · split
      · exact spErr_memCanon hs
      · exact hs
    · refine portSeen_memCanon ?_
      split
      · exact spErr_memCanon hs
      · exact hs
  · split
    · exact spErr_memCanon hs
    · exact hs

theorem spadSpaceWrite_memCanon {ctx core unit addr bs tag} (hs : s.memCanon) :
    (s.spadSpaceWrite ctx core unit addr bs tag).memCanon := by
  unfold State.spadSpaceWrite
  refine foldl_memCanon (fun s r hs => ?_) ?_
  · exact ite_memCanon (spadWrite_memCanon hs) (spadWrite_memCanon (portSeen_memCanon hs))
  · split
    · exact spErr_memCanon hs
    · exact hs

theorem physWriteBy_memCanon {by' pa bs tag} (hs : s.memCanon) : (s.physWriteBy by' pa bs tag).memCanon := by
  unfold State.physWriteBy
  split
  · exact spadWrite_memCanon (ite_memCanon hs (portSeen_memCanon hs))
  · exact hs
  · exact hs
  · exact ite_memCanon (writeMem_memCanon hs _ _ _) hs
  · exact writeMem_memCanon hs _ _ _

theorem physWrite_memCanon {pa bs tag} (hs : s.memCanon) : (s.physWrite pa bs tag).memCanon :=
  physWriteBy_memCanon hs

theorem lend_memCanon {core slot e} (hs : s.memCanon) : (s.lend core slot e).memCanon :=
  modCore_memCanon (modSpace_memCanon hs)

theorem tlbFill_memCanon {core fetch e} (hs : s.memCanon) : (s.tlbFill core fetch e).memCanon := by
  unfold State.tlbFill
  dsimp only
  split
  · exact modHive_memCanon (setCore_memCanon hs)
  · refine modHive_memCanon ?_
    split
    · exact setCore_memCanon hs
    · exact lend_memCanon (setCore_memCanon hs)

theorem tlbDrop_memCanon {core ctx va} (hs : s.memCanon) : (s.tlbDrop core ctx va).memCanon :=
  modHive_memCanon (modCore_memCanon hs)

theorem fillCaches_memCanon {core pa} (hs : s.memCanon) : (s.fillCaches core pa).memCanon :=
  modCore_memCanon (modHive_memCanon hs)

theorem fetchWord_memCanon {core pa} (hs : s.memCanon) : (s.fetchWord core pa).2.memCanon := by
  unfold State.fetchWord
  split
  · split
    · dsimp only
      exact hs
    · split
      · dsimp only
        exact modCore_memCanon hs
      · dsimp only
        exact fillCaches_memCanon hs
  · split
    · dsimp only
      exact hs
    · split
      · dsimp only
        exact modCore_memCanon hs
      · dsimp only
        exact fillCaches_memCanon hs

theorem translate_memCanon {core ctx va super k} (hs : s.memCanon) :
    (s.translate core ctx va super k).2.memCanon := by
  unfold State.translate
  dsimp only
  split
  · exact hs
  · split
    · exact ite_memCanon (tlbDrop_memCanon hs) hs
    · exact ite_memCanon (tlbDrop_memCanon hs) hs
    · split
      · exact tlbFill_memCanon (ite_memCanon (tlbDrop_memCanon hs) hs)
      · exact ite_memCanon (tlbDrop_memCanon hs) hs

/-! ### Machine/Writes -/

theorem askHost_memCanon {lines} (hs : s.memCanon) : (s.askHost lines).memCanon :=
  foldl_memCanon (fun _ _ hs => (push_memCanon hs)) (hs.of_mem rfl rfl)

theorem markNodes_memCanon {pa n w} (hs : s.memCanon) : (s.markNodes pa n w).memCanon :=
  ite_memCanon hs (hs.of_mem rfl rfl)

theorem landed_memCanon {pa n w} (hs : s.memCanon) : (s.landed pa n w).memCanon := by
  unfold State.landed
  refine wakeSaved_memCanon ?_
  refine State.memCanon.of_mem ?_ rfl rfl
  exact markNodes_memCanon (foldl_memCanon (fun _ _ hs => (ite_memCanon (push_memCanon hs) hs)) hs)

theorem landedAt_memCanon {core addr n w} (hs : s.memCanon) : (s.landedAt core addr n w).memCanon := by
  unfold State.landedAt
  split
  · exact landed_memCanon hs
  · exact hs

theorem writeSeen_memCanon {pa bs tag w} (hs : s.memCanon) : (s.writeSeen pa bs tag w).memCanon :=
  landed_memCanon (physWriteBy_memCanon hs)

theorem physWriteT_memCanon {pa l w} (hs : s.memCanon) : (s.physWriteT pa l w).memCanon :=
  foldl_memCanon (fun _ _ hs => (writeSeen_memCanon hs)) hs

theorem spadReadT_memCanon {ctx core unit addr n} (hs : s.memCanon) :
    (s.spadReadT ctx core unit addr n).2.memCanon :=
  spadSpaceRead_memCanon hs

theorem spadPutT_memCanon {ctx core addr l} (hs : s.memCanon) : (s.spadPutT ctx core addr l).memCanon := by
  unfold State.spadPutT
  dsimp only
  split
  · exact hs
  · exact foldl_memCanon (fun _ _ hs => (spadWrite_memCanon hs)) (ite_memCanon hs (portSeen_memCanon hs))

theorem spadWriteT_memCanon {ctx core unit addr l} (hs : s.memCanon) :
    (s.spadWriteT ctx core unit addr l).memCanon := by
  unfold State.spadWriteT
  refine spadPutT_memCanon ?_
  split
  · exact spErr_memCanon hs
  · exact hs

theorem spanPieces_memCanon {core ctx super k fuel va n} (hs : s.memCanon) :
    (s.spanPieces core ctx super k fuel va n).2.2.memCanon := by
  induction fuel generalizing s va n with
  | zero => exact hs
  | succ fuel ih =>
    unfold State.spanPieces
    split
    · exact hs
    · split
      have h1 := snd_memCanon (translate_memCanon hs) ‹_›
      split
      · exact ih h1
      · exact h1

theorem pieces_memCanon {core ctx super k va n} (hs : s.memCanon) :
    (s.pieces core ctx super k va n).2.2.memCanon :=
  spanPieces_memCanon hs

theorem localRead_memCanon {ctx core unit a n} (hs : s.memCanon) :
    (s.localRead ctx core unit a n).2.memCanon := by
  unfold State.localRead
  dsimp only
  exact ite_memCanon (spErr_memCanon hs) hs

theorem localWrite_memCanon {ctx core unit a l} (hs : s.memCanon) :
    (s.localWrite ctx core unit a l).memCanon :=
  foldl_memCanon (fun _ _ hs => (spadWrite_memCanon hs)) (ite_memCanon (spErr_memCanon hs) hs)

theorem seeParts_memCanon {core parts} (hs : s.memCanon) : (s.seeParts core parts).memCanon := by
  unfold State.seeParts
  refine foldl_memCanon (fun s p hs => ?_) hs
  split
  · exact ite_memCanon hs (portSeen_memCanon hs)
  · exact hs

theorem piecesWrite_memCanon {w l bs} (hs : s.memCanon) : (s.piecesWrite w l bs).memCanon := by
  induction l generalizing s bs with
  | nil => exact hs
  | cons p l ih => exact ih (physWriteT_memCanon hs)

theorem moveElement_memCanon {core g i} (hs : s.memCanon) : (s.moveElement core g i).memCanon := by
  unfold State.moveElement
  dsimp only
  split
  · exact ite_memCanon (landedAt_memCanon (spadWriteT_memCanon (localRead_memCanon hs)))
      (piecesWrite_memCanon (localRead_memCanon hs))
  · refine localWrite_memCanon ?_
    split
    · exact spadReadT_memCanon hs
    · exact seeParts_memCanon hs

theorem landIssued_memCanon {core slot} (hs : s.memCanon) : (s.landIssued core slot).memCanon :=
  modCore_memCanon (foldl_memCanon (fun _ _ hs => (ite_memCanon hs (foldl_memCanon (fun _ _ hs =>
    (ite_memCanon hs (moveElement_memCanon hs))) hs))) hs)

theorem gpKick_memCanon {core} (hs : s.memCanon) : (s.gpKick core).memCanon := by
  unfold State.gpKick
  split
  · exact hs
  · exact ite_memCanon (push_memCanon hs) (foldl_memCanon (fun _ _ hs => (push_memCanon hs)) hs)

/-! ### Machine/Loads -/

theorem deliver_memCanon {id w} (hs : s.memCanon) : (s.deliver id w).memCanon := by
  unfold State.deliver
  split
  · exact modTask_memCanon hs
  · split
    · exact hs
    · exact hs.of_mem rfl rfl

theorem readNow_memCanon {k l} (hs : s.memCanon) : (s.readNow k l).memCanon :=
  modTask_memCanon (seeParts_memCanon hs)

theorem arrive_memCanon {k l} (hs : s.memCanon) : (s.arrive k l).memCanon :=
  ite_memCanon (push_memCanon hs) (readNow_memCanon hs)

theorem landLoads_memCanon {k} (hs : s.memCanon) : (s.landLoads k).memCanon :=
  foldl_memCanon (fun _ _ hs => (ite_memCanon (readNow_memCanon hs) hs)) hs

/-! ### Machine/Flags -/

theorem arriveLate_memCanon {k x2} (hs : s.memCanon) : (s.arriveLate k x2).memCanon := by
  unfold State.arriveLate
  split
  · exact modTask_memCanon hs
  · exact modSpace_memCanon hs
  · exact modTask_memCanon hs

theorem stepLate_memCanon {k} (hs : s.memCanon) : (s.stepLate k).memCanon :=
  ite_memCanon hs (foldl_memCanon (fun _ _ hs => (arriveLate_memCanon hs)) (modTask_memCanon hs))

theorem landLate_memCanon {k} (hs : s.memCanon) : (s.landLate k).memCanon :=
  foldl_memCanon (fun _ _ hs => (stepLate_memCanon hs)) hs

/-! ### Machine/Commands -/

theorem modGate_memCanon {ctx core g f} (hs : s.memCanon) : (s.modGate ctx core g f).memCanon :=
  modSpace_memCanon hs

theorem signal_memCanon {core c bytes ends} (hs : s.memCanon) : (s.signal core c bytes ends).memCanon := by
  unfold State.signal
  split
  · exact hs
  · exact modGate_memCanon hs

/-! ### Machine/Ops -/

theorem errorRecord_memCanon {source unit pa lines} (hs : s.memCanon) :
    (s.errorRecord source unit pa lines).2.memCanon := by
  unfold State.errorRecord
  split
  · exact hs
  · split
    · exact hs
    · extract_lets n s1
      have h1 : s1.memCanon := hs.of_mem rfl rfl
      exact writeWords_memCanon h1 _ _

theorem notePeer_memCanon {pa} (hs : s.memCanon) : (s.notePeer pa).memCanon := by
  unfold State.notePeer
  dsimp only
  split
  · refine State.memCanon.of_mem ?_ rfl rfl
    exact errorRecord_memCanon hs
  · exact hs

theorem consumed_memCanon {tag tid} (hs : s.memCanon) : (s.consumed tag tid).memCanon :=
  ite_memCanon hs (ite_memCanon (writeWord_memCanon hs _ _) hs)

theorem mail_memCanon {r} (hs : s.memCanon) : (s.mail r).memCanon :=
  ite_memCanon (hs.of_mem rfl rfl) (hs.of_mem rfl rfl)

theorem machineError_memCanon {kind item} (hs : s.memCanon) : (s.machineError kind item).memCanon :=
  mail_memCanon (hs.of_mem rfl rfl)

theorem pmcEvent_memCanon {core event n} (hs : s.memCanon) : (s.pmcEvent core event n).memCanon :=
  ite_memCanon hs (modCore_memCanon hs)

theorem modTerm_memCanon {core r f} (hs : s.memCanon) : (s.modTerm core r f).memCanon := modCore_memCanon hs

theorem writeHandles_memCanon {ctx core} (hs : s.memCanon) : (s.writeHandles ctx core).memCanon :=
  foldl_memCanon (fun _ _ hs => (writeWord_memCanon hs _ _)) hs

theorem writeClean_memCanon {pa bs} (hs : s.memCanon) : (s.writeClean pa bs).memCanon := by
  unfold State.writeClean
  split
  · exact ⟨wf_writeList hs.1 _ _, Tab.wf_filter _ hs.2⟩
  · exact writeMem_memCanon hs _ _ _

theorem imageBytes_memCanon {ctx core} (hs : s.memCanon) : (s.imageBytes ctx core).memCanon :=
  writeClean_memCanon hs

theorem writeImage_memCanon {ctx core} (hs : s.memCanon) : (s.writeImage ctx core).memCanon :=
  ite_memCanon hs (ite_memCanon hs (modCore_memCanon (writeHandles_memCanon (imageBytes_memCanon
    (setSpace_memCanon (setSpace_memCanon hs))))))

theorem install_memCanon {ctx core} (hs : s.memCanon) : (s.install ctx core).memCanon := by
  unfold State.install
  dsimp only
  split
  · exact ite_memCanon hs (ite_memCanon (modCore_memCanon hs)
      (modSpace_memCanon (setSpace_memCanon (modCore_memCanon (writeImage_memCanon hs)))))
  · exact modSpace_memCanon (setSpace_memCanon (modCore_memCanon hs))

theorem freeFailed_memCanon {k} (hs : s.memCanon) : (s.freeFailed k).memCanon :=
  push_memCanon (setTask_memCanon hs)

theorem handlerStarted_memCanon {m} (hs : s.memCanon) : (s.handlerStarted m).memCanon := by
  unfold State.handlerStarted
  split
  · exact freeFailed_memCanon hs
  · exact hs

theorem select_memCanon {core} (hs : s.memCanon) : (s.select core).memCanon := by
  unfold State.select
  split
  · exact hs
  · split
    · exact hs
    · exact modCore_memCanon (modTask_memCanon hs)

theorem unrun_memCanon {k} (hs : s.memCanon) : (s.unrun k).memCanon := ite_memCanon (modCore_memCanon hs) hs

theorem startAt_memCanon {core slot m entry prio regs} (hs : s.memCanon) :
    (s.startAt core slot m entry prio regs).memCanon :=
  handlerStarted_memCanon (setTask_memCanon (pmcEvent_memCanon (install_memCanon (ite_memCanon hs
    (modCc_memCanon hs)))))

theorem dropNodeLine_memCanon {ctx va} (hs : s.memCanon) : (s.dropNodeLine ctx va).memCanon := hs.of_mem rfl rfl

theorem freeNode_memCanon {ctx va} (hs : s.memCanon) : (s.freeNode ctx va).memCanon := by
  unfold State.freeNode
  dsimp only
  split
  · exact modCc_memCanon (dropNodeLine_memCanon hs)
  · split
    · exact physWrite_memCanon (physWrite_memCanon (physWrite_memCanon (dropNodeLine_memCanon hs)))
    · exact dropNodeLine_memCanon hs

theorem startMeet_memCanon {core slot m lo hi} (hs : s.memCanon) :
    (s.startMeet core slot m lo hi).memCanon := by
  unfold State.startMeet
  dsimp only
  split
  · split
    · exact startAt_memCanon (modCore_memCanon hs)
    · exact startAt_memCanon hs
  · exact hs

theorem startTask_memCanon {core slot m} (hs : s.memCanon) : (s.startTask core slot m).memCanon := by
  unfold State.startTask
  dsimp only
  split
  · exact ite_memCanon (startMeet_memCanon hs) (push_memCanon hs)
  · exact startAt_memCanon hs
  · exact startAt_memCanon hs

theorem startSpilled_memCanon {core slot p} (hs : s.memCanon) : (s.startSpilled core slot p).memCanon :=
  ite_memCanon (modTask_memCanon (startTask_memCanon hs)) (startTask_memCanon hs)

theorem modGroup_memCanon {ctx g f} (hs : s.memCanon) : (s.modGroup ctx g f).memCanon :=
  modCtx_memCanon hs

theorem collect_memCanon {ctx core g q r} (hs : s.memCanon) : (s.collect ctx core g q r).memCanon :=
  push_memCanon (modGroup_memCanon hs)

theorem dispatch_memCanon {src m} (hs : s.memCanon) : (s.dispatch src m).memCanon := by
  unfold State.dispatch
  split
  · exact collect_memCanon hs
  · exact push_memCanon hs

theorem unspill_memCanon {core p} (hs : s.memCanon) : (s.unspill core p).memCanon := modCc_memCanon hs

theorem spillEntry_memCanon {ctx core seq} (hs : s.memCanon) : (s.spillEntry ctx core seq).memCanon :=
  writeClean_memCanon hs

theorem spill_memCanon {core m held} (hs : s.memCanon) : (s.spill core m held).2.memCanon := by
  unfold State.spill
  split
  · exact hs
  · split
    · have h1 := snd_memCanon (fresh_memCanon hs) ‹_›
      dsimp only
      exact pmcEvent_memCanon (spillEntry_memCanon (modCc_memCanon h1))

theorem bounce_memCanon {core m} (hs : s.memCanon) : (s.bounce core m).memCanon :=
  push_memCanon (modCc_memCanon hs)

theorem spillOrBounce_memCanon {core m held} (hs : s.memCanon) : (s.spillOrBounce core m held).memCanon := by
  unfold State.spillOrBounce
  split
  · have h1 := snd_memCanon (spill_memCanon hs) ‹_›
    exact ite_memCanon h1 (bounce_memCanon hs)

theorem cycle_memCanon (hs : s.memCanon) : s.cycle.memCanon := hs.of_mem rfl rfl

theorem writeArea_memCanon {handle state core slot t} (hs : s.memCanon) :
    (s.writeArea handle state core slot t).memCanon :=
  writeClean_memCanon (writeClean_memCanon (writeClean_memCanon (writeClean_memCanon (writeClean_memCanon
    (writeClean_memCanon hs)))))

theorem postEntry_memCanon {hv e src} (hs : s.memCanon) : (s.postEntry hv e src).memCanon :=
  push_memCanon (modHive_memCanon (writeWords_memCanon hs _ _))

theorem hold_memCanon {hv f} (hs : s.memCanon) : (s.hold hv f).memCanon :=
  modHive_memCanon hs

theorem postOrKeep_memCanon {hv e src} (hs : s.memCanon) : (s.postOrKeep hv e src).memCanon :=
  ite_memCanon (postEntry_memCanon hs) (hold_memCanon hs)

theorem interrupt_memCanon {code cause ctx items} (hs : s.memCanon) :
    (s.interrupt code cause ctx items).memCanon :=
  postOrKeep_memCanon hs

theorem writeFreeList_memCanon {ctx} (hs : s.memCanon) : (s.writeFreeList ctx).memCanon :=
  writeClean_memCanon hs

theorem judgePool_memCanon {ctx} (hs : s.memCanon) : (s.judgePool ctx).memCanon :=
  ite_memCanon (interrupt_memCanon (modCtx_memCanon (modCtx_memCanon hs))) (modCtx_memCanon hs)

theorem allocArea_memCanon {ctx} (hs : s.memCanon) : ∀ t, s.allocArea ctx = some t → t.2.memCanon := by
  intro t e
  unfold State.allocArea at e
  dsimp only at e
  split at e
  · cases e
  · cases e; exact judgePool_memCanon (writeFreeList_memCanon (modCtx_memCanon hs))

theorem freeArea_memCanon {ctx handle} (hs : s.memCanon) : (s.freeArea ctx handle).memCanon :=
  push_memCanon (judgePool_memCanon (writeFreeList_memCanon (modCtx_memCanon hs)))

theorem releaseEffects_memCanon {ctx core l} (hs : s.memCanon) : (s.releaseEffects ctx core l).memCanon := by
  unfold State.releaseEffects
  refine foldl_memCanon (fun s b hs => ?_) hs
  split
  · exact push_memCanon (setTask_memCanon hs)
  · exact modSpace_memCanon hs
  · exact hs

theorem withdraw_memCanon {ctx ids} (hs : s.memCanon) : (s.withdraw ctx ids).memCanon :=
  foldl_memCanon (fun _ _ hs => (ite_memCanon hs (writeWord_memCanon hs _ _)))
    (ite_memCanon hs (modCtx_memCanon hs))

theorem abortSection_memCanon {k cause code} (hs : s.memCanon) : (s.abortSection k cause code).memCanon :=
  modTask_memCanon (releaseEffects_memCanon (foldl_memCanon (fun _ _ hs => (freeNode_memCanon hs))
    (ite_memCanon hs (withdraw_memCanon hs))))

theorem settleTask_memCanon {k} (hs : s.memCanon) : (s.settleTask k).memCanon := by
  unfold State.settleTask
  exact ite_memCanon (abortSection_memCanon (landLate_memCanon (landLoads_memCanon (landIssued_memCanon hs))))
    (landLate_memCanon (landLoads_memCanon (landIssued_memCanon hs)))

theorem vacate_memCanon {k} (hs : s.memCanon) : (s.vacate k).memCanon := by
  unfold State.vacate
  extract_lets core t c s1 s2 s3
  have h1 : s1.memCanon := setCore_memCanon hs
  have h2 : s2.memCanon := ite_memCanon h1 (gpKick_memCanon h1)
  exact h2.of_mem rfl rfl

theorem saveTask_memCanon {k handle state e park sliced dbg} (hs : s.memCanon) :
    (s.saveTask k handle state e park sliced dbg).memCanon := by
  unfold State.saveTask
  extract_lets core cut s1 woken t r s2
  have h2 : s2.memCanon := writeArea_memCanon (settleTask_memCanon hs)
  clear_value s2
  exact vacate_memCanon (h2.of_mem rfl rfl)

theorem restore_memCanon {handle core slot} (hs : s.memCanon) : (s.restore handle core slot).memCanon := by
  have pushes : ∀ {c : Prop} [Decidable c] {t : State} {e : Event}, t.memCanon →
      (if c then t else t.push e).memCanon :=
    fun h => ite_memCanon h (push_memCanon h)
  unfold State.restore
  extract_lets r t k s0 faults takes s1 s2 s3 c mine copies room qv qm qc s4 s5 s6 s7 s8 s9 s10
  have h1 : s1.memCanon := setTask_memCanon (install_memCanon hs)
  have h2 : s2.memCanon := ite_memCanon (hold_memCanon h1) h1
  have h5 : s5.memCanon := h2.of_mem rfl rfl
  have h6 : s6.memCanon := by
    refine foldl_memCanon (fun s l hs => ?_) h5
    split
    · exact ite_memCanon hs (push_memCanon hs)
    · exact push_memCanon hs
  have h9 : s9.memCanon := pushes (pushes (pushes h6))
  exact freeArea_memCanon (ite_memCanon (gpKick_memCanon h9) h9)

theorem fillOne_memCanon {core} (hs : s.memCanon) : (s.fillOne core).memCanon := by
  unfold State.fillOne
  split
  · split
    · exact startSpilled_memCanon (unspill_memCanon hs)
    · exact hs
  · split
    · exact ite_memCanon (restore_memCanon hs) (startSpilled_memCanon (unspill_memCanon hs))
    · exact restore_memCanon hs
    · exact startSpilled_memCanon (unspill_memCanon hs)
    · exact hs

theorem fill_memCanon {core} (hs : s.memCanon) : (s.fill core).memCanon :=
  select_memCanon (foldl_memCanon (fun _ _ hs => fillOne_memCanon hs) hs)

theorem haltQueue_memCanon {q cause} (hs : s.memCanon) : (s.haltQueue q cause).memCanon :=
  writeWord_memCanon hs _ _

theorem haltQueues_memCanon {ctx} (hs : s.memCanon) : (s.haltQueues ctx).memCanon :=
  foldl_memCanon (fun _ _ hs => ite_memCanon (haltQueue_memCanon hs) hs) hs

theorem finishSave_memCanon {k handle x3} (hs : s.memCanon) : (s.finishSave k handle x3).memCanon := by
  unfold State.finishSave
  split
  · exact fill_memCanon (postOrKeep_memCanon (saveTask_memCanon hs))
  · exact ite_memCanon (select_memCanon (startAt_memCanon (ite_memCanon (pmcEvent_memCanon (saveTask_memCanon
      hs)) (modTerm_memCanon (pmcEvent_memCanon (saveTask_memCanon hs))))))
      (fill_memCanon (spillOrBounce_memCanon (ite_memCanon (pmcEvent_memCanon (saveTask_memCanon hs))
      (modTerm_memCanon (pmcEvent_memCanon (saveTask_memCanon hs))))))
  · exact fill_memCanon (writeImage_memCanon (saveTask_memCanon hs))
  · exact writeImage_memCanon (saveTask_memCanon hs)
  · exact ite_memCanon (push_memCanon (fill_memCanon (writeImage_memCanon (saveTask_memCanon hs))))
      (fill_memCanon (writeImage_memCanon (saveTask_memCanon hs)))
  · exact ite_memCanon (push_memCanon (fill_memCanon (writeImage_memCanon (saveTask_memCanon (modHive_memCanon
      hs))))) (fill_memCanon (writeImage_memCanon (saveTask_memCanon (modHive_memCanon hs))))
  · exact fill_memCanon (writeImage_memCanon (saveTask_memCanon hs))

theorem nextSaves_memCanon {ctx handle} (hs : s.memCanon) : (s.nextSaves ctx handle).memCanon :=
  ite_memCanon (push_memCanon hs) hs

theorem trySave_memCanon {k} (hs : s.memCanon) : (s.trySave k).memCanon := by
  unfold State.trySave
  dsimp only
  split
  · split
    · exact hs
    · split
      · exact select_memCanon (unrun_memCanon hs)
      · exact nextSaves_memCanon (finishSave_memCanon (allocArea_memCanon hs _ ‹_›))
  · exact hs

theorem beginSave_memCanon {k w} (hs : s.memCanon) : (s.beginSave k w).memCanon :=
  trySave_memCanon (modTask_memCanon hs)

theorem park_memCanon {k p} (hs : s.memCanon) : (s.park k p).memCanon := by
  unfold State.park
  exact ite_memCanon (beginSave_memCanon (fill_memCanon (unrun_memCanon (modTask_memCanon (landLate_memCanon
    hs))))) (fill_memCanon (unrun_memCanon (modTask_memCanon (landLate_memCanon hs))))

theorem evict_memCanon {core} (hs : s.memCanon) : (s.evict core).memCanon := by
  unfold State.evict
  split
  · split
    · exact beginSave_memCanon hs
    · exact beginSave_memCanon hs
    · exact hs
  · exact hs

theorem raiseFault_memCanon {k e} (hs : s.memCanon) : (s.raiseFault k e).memCanon :=
  ite_memCanon (beginSave_memCanon hs)
    (ite_memCanon (beginSave_memCanon (select_memCanon (unrun_memCanon (hold_memCanon (modTask_memCanon hs)))))
    (select_memCanon (unrun_memCanon (hold_memCanon (modTask_memCanon hs)))))

theorem saveContext_memCanon {ctx k} (hs : s.memCanon) : (s.saveContext ctx k).memCanon := by
  unfold State.saveContext
  refine foldl_memCanon (fun s p hs => ?_) hs
  dsimp only
  split
  · exact hs
  · exact hs
  · exact hs
  · exact hs
  · exact ite_memCanon (freeFailed_memCanon hs) hs
  · exact ite_memCanon (beginSave_memCanon hs) hs

theorem placeHandles_memCanon {ctx} (hs : s.memCanon) : (s.placeHandles ctx).memCanon :=
  foldl_memCanon (fun _ _ hs => (writeHandles_memCanon hs)) hs

theorem contextFault_memCanon {ctx code e hv src k} (hs : s.memCanon) :
    (s.contextFault ctx code e hv src k).memCanon := by
  unfold State.contextFault
  refine haltQueues_memCanon ?_
  split
  · exact postOrKeep_memCanon (placeHandles_memCanon (saveContext_memCanon (modCtx_memCanon hs)))
  · exact raiseFault_memCanon (placeHandles_memCanon (saveContext_memCanon (modCtx_memCanon hs)))

theorem deviceFault_memCanon {ctx core code tag items} (hs : s.memCanon) :
    (s.deviceFault ctx core code tag items).memCanon :=
  contextFault_memCanon hs

theorem judgeEntries_memCanon {s' : State} {s ctx core parts} (hs' : s'.memCanon) :
    (s'.judgeEntries s ctx core parts).memCanon := by
  unfold State.judgeEntries
  split
  · exact deviceFault_memCanon hs'
  · exact hs'

theorem takeTrapAt_memCanon {k code cause tag items pc} (hs : s.memCanon) :
    (s.takeTrapAt k code cause tag items pc).memCanon :=
  ite_memCanon (contextFault_memCanon hs) (raiseFault_memCanon hs)

theorem takeTrap_memCanon {k code cause tag items} (hs : s.memCanon) :
    (s.takeTrap k code cause tag items).memCanon :=
  takeTrapAt_memCanon hs

theorem takeUpcall_memCanon {k cls regs handleAt} (hs : s.memCanon) :
    (s.takeUpcall k cls regs handleAt).memCanon :=
  beginSave_memCanon hs

theorem upcallMessage_memCanon {core ctx prio cls regs} (hs : s.memCanon) :
    (s.upcallMessage core ctx prio cls regs).memCanon :=
  dispatch_memCanon hs

theorem raiseSaved_memCanon {hv handle} (hs : s.memCanon) : (s.raiseSaved hv handle).memCanon := by
  unfold State.raiseSaved
  extract_lets r e s1
  have h1 : s1.memCanon := hs.of_mem rfl rfl
  exact ite_memCanon hs (postEntry_memCanon (writeWord_memCanon h1 _ _))

theorem raiseHeld_memCanon {hv} (hs : s.memCanon) : (s.raiseHeld hv).memCanon := by
  unfold State.raiseHeld
  dsimp only
  split
  · exact hs
  · split
    · exact postEntry_memCanon (modHive_memCanon hs)
    · exact raiseSaved_memCanon (modHive_memCanon hs)
    · split
      · exact beginSave_memCanon (modHive_memCanon hs)
      · exact modHive_memCanon hs
    · exact hs

theorem raiseHeldN_memCanon {hv n} (hs : s.memCanon) : (s.raiseHeldN hv n).memCanon := by
  induction n generalizing s with
  | zero => exact hs
  | succ n ih => exact ih (raiseHeld_memCanon hs)

theorem giveBack_memCanon {ctx x} (hs : s.memCanon) : (s.giveBack ctx x).memCanon := modSpace_memCanon hs

theorem unreserve_memCanon {k} (hs : s.memCanon) : (s.unreserve k).memCanon := by
  unfold State.unreserve
  split
  · split
    · exact push_memCanon (setTask_memCanon hs)
    · exact hs
  · exact hs

theorem forget_memCanon {core slot ctx} (hs : s.memCanon) : (s.forget core slot ctx).memCanon := by
  unfold State.forget
  dsimp only
  split
  · refine State.memCanon.of_mem ?_ rfl rfl
    exact unreserve_memCanon hs
  · refine modCtx_memCanon ?_
    refine State.memCanon.of_mem ?_ rfl rfl
    exact unreserve_memCanon hs

theorem redeliver_memCanon {core t mark} (hs : s.memCanon) : (s.redeliver core t mark).memCanon := by
  unfold State.redeliver
  split
  · exact hs
  · dsimp only
    split <;> exact pmcEvent_memCanon (ite_memCanon (spill_memCanon hs) (bounce_memCanon hs))

theorem dropTask_memCanon {core t} (hs : s.memCanon) : (s.dropTask core t).memCanon :=
  releaseEffects_memCanon (foldl_memCanon (fun _ _ hs => (freeNode_memCanon hs))
    (foldl_memCanon (fun _ _ hs => (giveBack_memCanon hs)) (withdraw_memCanon hs)))

theorem endKill_memCanon {k why} (hs : s.memCanon) : (s.endKill k why).memCanon := by
  unfold State.endKill
  refine fill_memCanon ?_
  split
  · exact setTask_memCanon (modCore_memCanon (modSpace_memCanon hs))
  · exact redeliver_memCanon (setTask_memCanon (modCore_memCanon (modSpace_memCanon hs)))

theorem tryKill_memCanon {k} (hs : s.memCanon) : (s.tryKill k).memCanon := by
  unfold State.tryKill
  split
  · exact ite_memCanon hs (endKill_memCanon hs)
  · exact hs

theorem killTask_memCanon {k why} (hs : s.memCanon) : (s.killTask k why).memCanon := by
  unfold State.killTask
  exact select_memCanon (tryKill_memCanon (setTask_memCanon (ite_memCanon (modCore_memCanon (pmcEvent_memCanon
    (dropTask_memCanon (ite_memCanon (landIssued_memCanon (landLate_memCanon hs))
    (forget_memCanon (landIssued_memCanon (landLate_memCanon hs)))))))
    (gpKick_memCanon (modCore_memCanon (pmcEvent_memCanon (dropTask_memCanon (ite_memCanon (landIssued_memCanon
    (landLate_memCanon hs)) (forget_memCanon (landIssued_memCanon (landLate_memCanon hs)))))))))))

theorem poisonKill_memCanon {k tag} (hs : s.memCanon) : (s.poisonKill k tag).memCanon :=
  ite_memCanon (killTask_memCanon (consumed_memCanon hs)) (takeTrap_memCanon (consumed_memCanon hs))

theorem tumblerKill_memCanon {k addr sig} (hs : s.memCanon) : (s.tumblerKill k addr sig).memCanon := by
  unfold State.tumblerKill
  dsimp only
  split
  · exact ite_memCanon (takeTrap_memCanon (errorRecord_memCanon hs))
      (takeTrap_memCanon (errorRecord_memCanon hs))
  · exact ite_memCanon (killTask_memCanon (errorRecord_memCanon hs))
      (takeTrap_memCanon (errorRecord_memCanon hs))

theorem signalSaved_memCanon {r} (hs : s.memCanon) : (s.signalSaved r).memCanon :=
  foldl_memCanon (fun _ _ hs => (signal_memCanon hs)) hs

theorem killSaved_memCanon {handle} (hs : s.memCanon) : (s.killSaved handle).memCanon := by
  unfold State.killSaved
  refine freeArea_memCanon ?_
  refine State.memCanon.of_mem ?_ rfl rfl
  exact ite_memCanon (modCore_memCanon (modSpace_memCanon (pmcEvent_memCanon (dropTask_memCanon
    (modHive_memCanon (signalSaved_memCanon hs))))))
    (push_memCanon (modCore_memCanon (modSpace_memCanon (pmcEvent_memCanon (dropTask_memCanon (modHive_memCanon
    (signalSaved_memCanon hs)))))))

theorem tumblerSaved_memCanon {handle addr sig} (hs : s.memCanon) :
    (s.tumblerSaved handle addr sig).memCanon := by
  unfold State.tumblerSaved
  dsimp only
  split
  · exact ite_memCanon (contextFault_memCanon (errorRecord_memCanon hs))
      (contextFault_memCanon (errorRecord_memCanon hs))
  · exact ite_memCanon (redeliver_memCanon (killSaved_memCanon (errorRecord_memCanon hs)))
      (contextFault_memCanon (errorRecord_memCanon hs))

theorem eret_memCanon {handle how} (hs : s.memCanon) : (s.eret handle how).memCanon := by
  unfold State.eret
  refine fill_memCanon ?_
  split
  · exact killSaved_memCanon hs
  · dsimp only
    split
    · exact tumblerSaved_memCanon hs
    · refine State.memCanon.of_mem ?_ rfl rfl
      exact ite_memCanon (writeWord_memCanon hs _ _) hs

theorem debugEvent_memCanon {ctx tid pc status a} (hs : s.memCanon) :
    (s.debugEvent ctx tid pc status a).memCanon := by
  unfold State.debugEvent
  split
  · exact hs
  · exact modCtx_memCanon (writeWords_memCanon hs _ _)

/-! ### Machine/Operands -/

theorem countQuantum_memCanon {core t} (hs : s.memCanon) : (s.countQuantum core t).memCanon :=
  ite_memCanon hs (foldl_memCanon (fun _ _ hs => (ite_memCanon (modCc_memCanon hs)
    (push_memCanon (modCc_memCanon hs)))) hs)

theorem countWord_memCanon {core t} (hs : s.memCanon) : (s.countWord core t).memCanon :=
  ite_memCanon (pmcEvent_memCanon (countQuantum_memCanon hs))
    (pmcEvent_memCanon (pmcEvent_memCanon (countQuantum_memCanon hs)))

theorem completeWord_memCanon {k} (hs : s.memCanon) : (s.completeWord k).memCanon :=
  countWord_memCanon (stepLate_memCanon (setTask_memCanon hs))

theorem notePassed_memCanon {k control} (hs : s.memCanon) : (s.notePassed k control).memCanon :=
  modTask_memCanon hs

theorem askHorizon_memCanon {k} (hs : s.memCanon) : (s.askHorizon k).memCanon := by
  unfold State.askHorizon
  dsimp only
  split
  · exact ite_memCanon (push_memCanon hs) hs
  · exact hs

theorem noteParked_memCanon {k x2} (hs : s.memCanon) : (s.noteParked k x2).memCanon := by
  unfold State.noteParked
  split
  · exact modTask_memCanon hs
  · exact hs

theorem finish_memCanon {k control e} (hs : s.memCanon) (he : e.memCanon) :
    (s.finish k control e).memCanon := by
  unfold State.finish
  split
  · exact stepLate_memCanon (askHorizon_memCanon hs)
  · exact pmcEvent_memCanon hs
  · exact stepLate_memCanon (askHorizon_memCanon (pmcEvent_memCanon hs))
  · exact ite_memCanon (stepLate_memCanon (pmcEvent_memCanon hs)) (takeTrap_memCanon (notePassed_memCanon hs))
  · exact takeTrap_memCanon (notePassed_memCanon hs)
  · exact poisonKill_memCanon hs
  · exact tumblerKill_memCanon hs
  · rename_i keep
    cases keep with
    | none => exact takeUpcall_memCanon hs
    | some t => exact takeUpcall_memCanon he
  · exact evict_memCanon (park_memCanon (noteParked_memCanon hs))
  · exact abortSection_memCanon hs

/-! ### Machine/Scratch -/

theorem logLine_memCanon {k line} (hs : s.memCanon) : (s.logLine k line).memCanon :=
  ite_memCanon hs (ite_memCanon (setTask_memCanon hs) (setTask_memCanon hs))

theorem setTag_memCanon {ctx core slot e} (hs : s.memCanon) : (s.setTag ctx core slot e).memCanon :=
  dropVictims_memCanon (modSpace_memCanon hs)

/-! ### Machine/Effects -/

theorem wake_memCanon {k} (hs : s.memCanon) : (s.wake k).memCanon := by
  unfold State.wake
  split
  · exact select_memCanon (modTask_memCanon hs)
  · exact hs

/-! ### Machine/Global -/

theorem spinSaved_memCanon (hs : s.memCanon) : s.spinSaved.memCanon :=
  ite_memCanon (foldl_memCanon (fun _ _ hs => (push_memCanon hs)) (hs.of_mem rfl rfl)) hs

/-! ### Machine/Versions -/

theorem setRegion_memCanon {ctx r v} (hs : s.memCanon) : (s.setRegion ctx r v).memCanon := modCtx_memCanon hs

theorem writeDesc_memCanon {ctx r} (hs : s.memCanon) : (s.writeDesc ctx r).memCanon :=
  writeWord_memCanon (writeWord_memCanon (writeWord_memCanon hs _ _) _ _) _ _

theorem modRegion_memCanon {ctx r f} (hs : s.memCanon) : (s.modRegion ctx r f).memCanon :=
  writeDesc_memCanon (setRegion_memCanon hs)

theorem vrsync_memCanon {ctx r} (hs : s.memCanon) : (s.vrsync ctx r).2.memCanon := by
  unfold State.vrsync
  dsimp only
  split
  · exact hs
  · exact setRegion_memCanon hs

theorem writeChain_memCanon {e newest wait l} (hs : s.memCanon) : (s.writeChain e newest wait l).memCanon :=
  foldl_memCanon (fun _ _ hs => (writeWords_memCanon hs _ _))
    (writeWord_memCanon (writeWord_memCanon hs _ _) _ _)

theorem setWait_memCanon {e w} (hs : s.memCanon) : (s.setWait e w).memCanon := writeWord_memCanon hs _ _

theorem recsFreed_memCanon {ctx n} (hs : s.memCanon) : (s.recsFreed ctx n).memCanon :=
  push_memCanon (ite_memCanon (modCtx_memCanon hs) (push_memCanon (modCtx_memCanon hs)))

theorem answer_memCanon {l v x3} (hs : s.memCanon) : (s.answer l v x3).memCanon := by
  unfold State.answer
  split
  · exact deliver_memCanon hs
  · exact deliver_memCanon hs
  · exact hs

theorem answerParked_memCanon {ctx p a} (hs : s.memCanon) : (s.answerParked ctx p a).memCanon := by
  unfold State.answerParked
  dsimp only
  split
  · exact modCtx_memCanon hs
  · exact push_memCanon (answer_memCanon (modCtx_memCanon hs))

theorem createVersion_memCanon {ctx region e pa laid tag k} (hs : s.memCanon) :
    (s.createVersion ctx region e pa laid tag k).memCanon := by
  unfold State.createVersion
  dsimp only
  split
  · exact ite_memCanon (foldl_memCanon (fun _ _ hs => (answerParked_memCanon hs))
      (landed_memCanon (writeMem_memCanon (writeChain_memCanon (writeMem_memCanon (modCtx_memCanon hs) _ _ _))
      _ _ _))) (setWait_memCanon (foldl_memCanon (fun _ _ hs => (answerParked_memCanon hs))
      (landed_memCanon (writeMem_memCanon (writeChain_memCanon (writeMem_memCanon (modCtx_memCanon hs) _ _ _))
      _ _ _))))
  · exact ite_memCanon (foldl_memCanon (fun _ _ hs => (answerParked_memCanon hs))
      (landed_memCanon (writeMem_memCanon (writeChain_memCanon hs) _ _ _)))
      (setWait_memCanon (foldl_memCanon (fun _ _ hs => (answerParked_memCanon hs))
      (landed_memCanon (writeMem_memCanon (writeChain_memCanon hs) _ _ _))))

theorem raiseFloor_memCanon {ctx region f} (hs : s.memCanon) : (s.raiseFloor ctx region f).memCanon :=
  foldl_memCanon (fun _ _ hs => (push_memCanon hs)) (modRegion_memCanon hs)

theorem closeRegion_memCanon {ctx region} (hs : s.memCanon) : (s.closeRegion ctx region).memCanon :=
  foldl_memCanon (fun _ _ hs => (setWait_memCanon (answerParked_memCanon hs))) (modRegion_memCanon hs)

theorem moveOut_memCanon {ctx frame n} (hs : s.memCanon) : (s.moveOut ctx frame n).memCanon := by
  induction n generalizing s with
  | zero => exact hs
  | succ n ih =>
    unfold State.moveOut
    split
    · exact ih (modCtx_memCanon (writeChain_memCanon (writeMem_memCanon hs _ _ _)))
    · exact hs

theorem release_memCanon {ctx frame} (hs : s.memCanon) : (s.release ctx frame).memCanon :=
  ite_memCanon (push_memCanon (modCtx_memCanon hs)) hs

theorem grant_memCanon {ctx frame} (hs : s.memCanon) : (s.grant ctx frame).2.memCanon := by
  unfold State.grant
  split
  · exact hs
  · exact recsFreed_memCanon (modCtx_memCanon (s := { s with mem := _ }) ⟨wf_splice_nil hs.1 _ _, hs.2⟩)

theorem vhctlWrite_memCanon {ctx v} (hs : s.memCanon) : (s.vhctlWrite ctx v).2.memCanon := by
  unfold State.vhctlWrite
  split
  rename_i bad t e
  have ht : t.memCanon := by
    split at e
    · exact snd_memCanon (grant_memCanon hs) e
    · cases e; exact hs
  split
  · exact hs
  · exact ite_memCanon (release_memCanon (modCtx_memCanon ht)) (modCtx_memCanon ht)

theorem stepRelease_memCanon {ctx} (hs : s.memCanon) : (s.stepRelease ctx).memCanon := by
  unfold State.stepRelease
  split
  · exact hs
  · exact ite_memCanon (moveOut_memCanon hs) (recsFreed_memCanon (modCtx_memCanon (moveOut_memCanon hs)))

/-! ### Machine/Bulk -/

theorem readIndexList_memCanon {core g} (hs : s.memCanon) : (s.readIndexList core g).2.2.memCanon := by
  unfold State.readIndexList
  split
  · dsimp only
    split
    · exact localRead_memCanon (localRead_memCanon hs)
    · exact localRead_memCanon hs
  · dsimp only
    split
    · exact localRead_memCanon (localRead_memCanon hs)
    · exact localRead_memCanon hs

theorem spanChecked_memCanon {core ctx super k va n pc tid} (hs : s.memCanon) :
    (s.spanChecked core ctx super k va n pc tid).2.memCanon := by
  unfold State.spanChecked
  split
  · have h1 := snd2_memCanon (pieces_memCanon hs) ‹_›
    split
    · have h1 := snd2_memCanon (pieces_memCanon hs) ‹_›
      exact h1
    · have h1 := snd2_memCanon (pieces_memCanon hs) ‹_›
      exact h1
    · have h1 := snd2_memCanon (pieces_memCanon hs) ‹_›
      exact ite_memCanon h1 (foldl_memCanon (fun _ _ hs => (notePeer_memCanon hs)) h1)

theorem deliverStop_memCanon {k pc e x4} (hs : s.memCanon) : (s.deliverStop k pc e x4).memCanon := by
  unfold State.deliverStop
  split
  · exact ite_memCanon (takeUpcall_memCanon hs) hs
  · exact ite_memCanon hs (takeTrapAt_memCanon (modTask_memCanon hs))
  · split
    · exact evict_memCanon (park_memCanon hs)
    · exact evict_memCanon (park_memCanon hs)
    · exact hs

theorem issueEls_memCanon {core super g i n} (hs : s.memCanon) :
    (s.issueEls core super g i n).2.2.memCanon := by
  induction n generalizing s i with
  | zero => exact hs
  | succ n ih =>
    unfold State.issueEls
    split
    · exact ih (snd_memCanon (spanChecked_memCanon hs) ‹_›)
    · exact snd_memCanon (spanChecked_memCanon hs) ‹_›

theorem gpIssue_memCanon {core g} (hs : s.memCanon) : (s.gpIssue core g).2.memCanon := by
  unfold State.gpIssue
  split
  · exact hs
  · split
    · exact hs
    · split
      · have h1 := snd2_memCanon (issueEls_memCanon hs) ‹_›
        exact modTask_memCanon h1

theorem counterDown_memCanon {k tid cc} (hs : s.memCanon) : (s.counterDown k tid cc).memCanon :=
  ite_memCanon (modTask_memCanon hs) hs

theorem gpFault_memCanon {core g} (hs : s.memCanon) : (s.gpFault core g).memCanon := by
  unfold State.gpFault
  dsimp only
  split
  · have h1 := snd_memCanon (spanChecked_memCanon hs) ‹_›
    exact deliverStop_memCanon (modCore_memCanon h1)
  · have h1 := snd_memCanon (spanChecked_memCanon hs) ‹_›
    exact gpKick_memCanon (modCore_memCanon h1)

theorem gpList_memCanon {core g} (hs : s.memCanon) : (s.gpList core g).memCanon := by
  unfold State.gpList
  dsimp only
  split
  · exact push_memCanon hs
  · exact ite_memCanon (poisonKill_memCanon (readIndexList_memCanon hs))
      (gpKick_memCanon (modTask_memCanon (modCore_memCanon (readIndexList_memCanon hs))))

theorem portAccess_memCanon {core target addr write len} (hs : s.memCanon) :
    (s.portAccess core target addr write len).memCanon := by
  unfold State.portAccess
  dsimp only
  split
  · exact ite_memCanon (push_memCanon hs)
      (landed_memCanon (spadWrite_memCanon (ite_memCanon hs (portSeen_memCanon hs))))
  · exact ite_memCanon (push_memCanon hs) (ite_memCanon hs (portSeen_memCanon hs))

/-! ### Machine/Owner -/

theorem termSettle_memCanon {core r} (hs : s.memCanon) : (s.termSettle core r).memCanon :=
  ite_memCanon (push_memCanon (modTerm_memCanon hs)) hs

theorem termArrive_memCanon {core m} (hs : s.memCanon) : (s.termArrive core m).2.memCanon := by
  unfold State.termArrive
  split
  · dsimp only
    exact hs
  · dsimp only
    split
    · exact hs
    · exact modTerm_memCanon hs

theorem termDone_memCanon {core m} (hs : s.memCanon) : (s.termDone core m).memCanon :=
  ite_memCanon hs (termSettle_memCanon (ite_memCanon hs (push_memCanon hs)))

theorem emit_memCanon {core trm m} (hs : s.memCanon) : (s.emit core trm m).memCanon :=
  ite_memCanon (hs.of_mem rfl rfl) (dispatch_memCanon (ite_memCanon (modTerm_memCanon hs) hs))

theorem amoAt_memCanon {pa f t b c tag w} (hs : s.memCanon) : (s.amoAt pa f t b c tag w).2.memCanon := by
  unfold State.amoAt
  dsimp only
  exact writeSeen_memCanon hs

theorem logFault_memCanon {ctx core n} (hs : s.memCanon) : (s.logFault ctx core n).memCanon :=
  deviceFault_memCanon (modCc_memCanon hs)

theorem logAppend_memCanon {ctx core e0 e1 e2 tag} (hs : s.memCanon) :
    (s.logAppend ctx core e0 e1 e2 tag).memCanon :=
  modCc_memCanon (writeMem_memCanon hs _ _ _)

theorem logUpdate_memCanon {core u} (hs : s.memCanon) : (s.logUpdate core u).memCanon :=
  ite_memCanon (logAppend_memCanon hs) (logFault_memCanon hs)

theorem sendLine_memCanon {core ctx trm tag hdr payload} (hs : s.memCanon) :
    (s.sendLine core ctx trm tag hdr payload).memCanon :=
  ite_memCanon (deviceFault_memCanon hs) (emit_memCanon hs)

theorem joinAt_memCanon {core ctx trm pa} (hs : s.memCanon) : (s.joinAt core ctx trm pa).memCanon := by
  unfold State.joinAt
  exact ite_memCanon (sendLine_memCanon (writeSeen_memCanon hs)) (writeSeen_memCanon hs)

theorem shareAt_memCanon {core ctx trm va pa k} (hs : s.memCanon) :
    (s.shareAt core ctx trm va pa k).memCanon := by
  unfold State.shareAt
  dsimp only
  split
  · exact ite_memCanon (deviceFault_memCanon hs) (writeSeen_memCanon hs)
  · exact ite_memCanon (deviceFault_memCanon hs) (ite_memCanon (sendLine_memCanon (writeSeen_memCanon hs))
      (writeSeen_memCanon hs))
  · exact writeSeen_memCanon hs
  · exact hs

theorem applyUpdate_memCanon {core trm u} (hs : s.memCanon) : (s.applyUpdate core trm u).memCanon := by
  unfold State.applyUpdate
  split
  · split
    · have h1 := snd_memCanon (amoAt_memCanon hs) ‹_›
      split
      · exact judgeEntries_memCanon (push_memCanon h1)
      · exact judgeEntries_memCanon h1
  · exact joinAt_memCanon hs
  · exact writeSeen_memCanon hs
  · exact shareAt_memCanon hs

theorem enterSys_memCanon {core m} (hs : s.memCanon) : (s.enterSys core m).memCanon := by
  unfold State.enterSys
  dsimp only
  split
  · exact push_memCanon (modCore_memCanon hs)
  · exact modCore_memCanon hs

theorem queueSvc_memCanon {core m} (hs : s.memCanon) : ∀ t, s.queueSvc core m = some t → t.memCanon := by
  intro t e
  unfold State.queueSvc at e
  split at e
  · cases e; exact enterSys_memCanon hs
  · split at e
    have h1 := snd_memCanon (spill_memCanon hs) ‹_›
    split at e
    · cases e; exact push_memCanon h1
    · cases e

theorem refillSys_memCanon {core} (hs : s.memCanon) : (s.refillSys core).memCanon := by
  unfold State.refillSys
  split
  · exact hs
  · dsimp only
    split
    · exact hs
    · exact enterSys_memCanon (unspill_memCanon hs)

theorem takeSvc_memCanon {svc} (hs : s.memCanon) : ∀ t, s.takeSvc svc = some t → t.2.memCanon := by
  intro t e
  unfold State.takeSvc at e
  split at e
  · cases e; exact hs
  · split at e
    · split at e
      · cases e; exact refillSys_memCanon (modCore_memCanon hs)
      · cases e
    · cases e; exact hs

theorem serveUpdate_memCanon {core m u} (hs : s.memCanon) : (s.serveUpdate core m u).memCanon :=
  ite_memCanon (modCc_memCanon hs) (ite_memCanon (ite_memCanon (modCc_memCanon hs)
    (ite_memCanon (modCc_memCanon (modCc_memCanon hs))
    (termDone_memCanon (logUpdate_memCanon (modCc_memCanon hs)))))
    (termDone_memCanon (applyUpdate_memCanon hs)))

theorem settle_memCanon {ctx core} (hs : s.memCanon) : (s.settle ctx core).memCanon := by
  unfold State.settle
  dsimp only
  split
  · refine foldl_memCanon (fun s m hs => ?_) (modCc_memCanon hs)
    split
    · exact termDone_memCanon (applyUpdate_memCanon (modCc_memCanon hs))
    · exact modCc_memCanon hs
  · refine foldl_memCanon (fun s m hs => ?_) (modCc_memCanon hs)
    split
    · exact termDone_memCanon (logUpdate_memCanon (modCc_memCanon hs))
    · exact modCc_memCanon hs

theorem bringUp_memCanon {ctx core} (hs : s.memCanon) : (s.bringUp ctx core).memCanon := by
  unfold State.bringUp
  refine foldl_memCanon (fun s m hs => ?_) hs
  dsimp only
  split
  · exact serveUpdate_memCanon (modCc_memCanon hs)
  · exact modCc_memCanon hs

theorem updateEvent_memCanon {u again} (hs : s.memCanon) : (s.updateEvent u again).memCanon := by
  unfold State.updateEvent
  split
  · exact push_memCanon (askHost_memCanon hs)
  · split
    · exact push_memCanon hs
    · exact serveUpdate_memCanon (takeSvc_memCanon hs _ ‹_›)
    · exact serveUpdate_memCanon (takeSvc_memCanon hs _ ‹_›)

theorem applyEntries_memCanon {ctx core trm l n} (hs : s.memCanon) :
    (s.applyEntries ctx core trm l n).2.2.memCanon := by
  induction l generalizing s n with
  | nil => exact hs
  | cons e l ih =>
    unfold State.applyEntries
    split
    · exact logFault_memCanon hs
    · split
      · exact deviceFault_memCanon hs
      · extract_lets u
        have hu : (s.applyUpdate core trm u).memCanon := applyUpdate_memCanon hs
        generalize s.applyUpdate core trm u = v at hu
        split
        · split
          · exact deviceFault_memCanon hs
          · exact ih hu
        · split
          · exact deviceFault_memCanon hs
          · exact ih hu

theorem storeCursors_memCanon {ctx core n applied} (hs : s.memCanon) :
    (s.storeCursors ctx core n applied).memCanon :=
  modSpace_memCanon hs

theorem releaseMerge_memCanon {ctx core} (hs : s.memCanon) : (s.releaseMerge ctx core).memCanon := by
  unfold State.releaseMerge
  refine foldl_memCanon (fun s m hs => ?_) hs
  dsimp only
  split
  · exact serveUpdate_memCanon (modCc_memCanon hs)
  · exact modCc_memCanon hs

theorem releaseHeld_memCanon {core} (hs : s.memCanon) : (s.releaseHeld core).memCanon :=
  ite_memCanon hs (foldl_memCanon (fun _ _ hs => (ite_memCanon (releaseMerge_memCanon hs) hs)) hs)

theorem endMerge_memCanon {core} (hs : s.memCanon) : (s.endMerge core).memCanon :=
  releaseHeld_memCanon (modCore_memCanon hs)

/-! ### Machine/Sync -/

theorem keyPass_memCanon {ctx region holder} (hs : s.memCanon) : (s.keyPass ctx region holder).memCanon := by
  unfold State.keyPass
  dsimp only
  split
  · exact modCore_memCanon (ite_memCanon (modCore_memCanon (modRegion_memCanon hs)) (modRegion_memCanon hs))
  · exact ite_memCanon (modCore_memCanon (modRegion_memCanon hs)) (modRegion_memCanon hs)

/-! ### Machine/Commit -/

theorem writeTag_memCanon {ctx core tag e} (hs : s.memCanon) : (s.writeTag ctx core tag e).memCanon :=
  ite_memCanon (push_memCanon (modCc_memCanon hs)) (modCc_memCanon hs)

theorem setEnables_memCanon {ctx core mask values} (hs : s.memCanon) :
    (s.setEnables ctx core mask values).memCanon :=
  foldl_memCanon (fun _ _ hs => (ite_memCanon (writeTag_memCanon hs) hs)) hs

theorem commitStore_memCanon {k b} (hs : s.memCanon) : (s.commitStore k b).memCanon := by
  unfold State.commitStore
  split
  · split
    · exact portAccess_memCanon (hs.of_mem rfl rfl)
    · exact writeSeen_memCanon hs
  · exact writeSeen_memCanon hs
  · exact hs

theorem commitVersion_memCanon {k ctx v} (hs : s.memCanon) : (s.commitVersion k ctx v).memCanon := by
  unfold State.commitVersion
  exact createVersion_memCanon hs

theorem stampUpdate_memCanon {core u} (hs : s.memCanon) : (s.stampUpdate core u).2.memCanon := by
  unfold State.stampUpdate
  split
  · dsimp only
    exact modCc_memCanon hs
  · exact hs

theorem startChild_memCanon {core trm m dst slot} (hs : s.memCanon) :
    (s.startChild core trm m dst slot).memCanon := by
  unfold State.startChild
  dsimp only
  split
  · exact ite_memCanon (select_memCanon (startTask_memCanon (termArrive_memCanon (modTerm_memCanon hs))))
      (push_memCanon (setTask_memCanon (modTerm_memCanon hs)))
  · exact ite_memCanon (select_memCanon (startTask_memCanon (termArrive_memCanon hs)))
      (push_memCanon (setTask_memCanon hs))

theorem resumeFibre_memCanon {handle} (hs : s.memCanon) : (s.resumeFibre handle).memCanon :=
  ite_memCanon (fill_memCanon (hs.of_mem rfl rfl)) hs

theorem oweAck_memCanon {r} (hs : s.memCanon) : (s.oweAck r).memCanon :=
  ite_memCanon (modTerm_memCanon hs) hs

theorem commitSend_memCanon {k t b} (hs : s.memCanon) : (s.commitSend k t b).memCanon := by
  unfold State.commitSend
  dsimp only
  split
  · exact emit_memCanon (stampUpdate_memCanon hs)
  · exact logAppend_memCanon hs
  · exact emit_memCanon hs
  · exact startChild_memCanon hs
  · exact keyPass_memCanon hs
  · exact setEnables_memCanon hs
  · exact writeTag_memCanon hs
  · exact push_memCanon (ite_memCanon hs (modTerm_memCanon hs))
  · exact modSpace_memCanon hs
  · exact resumeFibre_memCanon hs
  · exact ite_memCanon (termSettle_memCanon (killSaved_memCanon (oweAck_memCanon hs))) hs
  · exact eret_memCanon hs
  · exact eret_memCanon hs
  · exact termSettle_memCanon (eret_memCanon (oweAck_memCanon hs))
  · exact emit_memCanon hs
  · exact emit_memCanon hs
  · exact hs

theorem releaseTaken_memCanon {ctx core x} (hs : s.memCanon) : (s.releaseTaken ctx core x).memCanon :=
  ite_memCanon (modSpace_memCanon hs) (push_memCanon hs)

theorem taskStamp_memCanon {core t} (hs : s.memCanon) : (s.taskStamp core t).memCanon :=
  ite_memCanon hs (modCtx_memCanon (writeMem_memCanon hs _ _ _))

theorem complete_memCanon {w1 w2} (hs : s.memCanon) : (s.complete w1 w2).memCanon :=
  ite_memCanon hs (writeWord_memCanon hs _ _)

theorem endFlight_memCanon {id} (hs : s.memCanon) : (s.endFlight id).memCanon := by
  unfold State.endFlight
  split
  · exact hs
  · exact complete_memCanon (hs.of_mem rfl rfl)

theorem freeTask_memCanon {k} (hs : s.memCanon) : (s.freeTask k).memCanon := by
  unfold State.freeTask
  refine fill_memCanon (termSettle_memCanon ?_)
  split
  · exact termDone_memCanon (modCore_memCanon (setTask_memCanon (unrun_memCanon (withdraw_memCanon
      (landLate_memCanon hs)))))
  · exact modCore_memCanon (setTask_memCanon (unrun_memCanon (withdraw_memCanon (landLate_memCanon hs))))

theorem raiseVheap_memCanon {k} (hs : s.memCanon) : (s.raiseVheap k).memCanon :=
  ite_memCanon hs (upcallMessage_memCanon (modCtx_memCanon hs))

theorem failCommit_memCanon {k} {f : State → State} (hs : s.memCanon) (hf : ∀ s, s.memCanon → (f s).memCanon) :
    (s.failCommit k f).memCanon := by
  unfold State.failCommit
  refine select_memCanon (hf _ (termSettle_memCanon ?_))
  split
  · exact termDone_memCanon (modCore_memCanon (setTask_memCanon (unrun_memCanon (modSpace_memCanon
      (dropTask_memCanon (landLate_memCanon hs))))))
  · exact modCore_memCanon (setTask_memCanon (unrun_memCanon (modSpace_memCanon (dropTask_memCanon
      (landLate_memCanon hs)))))

theorem layNodes_memCanon {t} (hs : s.memCanon) : (s.layNodes t).memCanon := ite_memCanon hs (hs.of_mem rfl rfl)

theorem commitMemory_memCanon {k t} (hs : s.memCanon) : (s.commitMemory k t).memCanon := by
  unfold State.commitMemory
  refine foldl_memCanon (fun s b hs => ?_) (foldl_memCanon (fun s v hs => commitVersion_memCanon hs)
    (layNodes_memCanon (foldl_memCanon (fun s b hs => commitStore_memCanon hs) ?_)))
  · split
    · exact closeRegion_memCanon hs
    · exact hs
  · have floors : (t.commit.foldl (fun (s : State) b =>
      match b.eff with | .vfloor r f => s.raiseFloor t.ctx r f | _ => s) s).memCanon := by
      refine foldl_memCanon (fun s b hs => ?_) hs
      split
      · exact raiseFloor_memCanon hs
      · exact hs
    exact ⟨floors.1, foldl_keeps (fun l => Tab.wf 0 l = true) _ (fun _ _ hl => Tab.wf_set hl) _ _ floors.2⟩

theorem commitEnd_memCanon {k t free} (hs : s.memCanon) : (s.commitEnd k t free).memCanon := by
  unfold State.commitEnd
  refine freeTask_memCanon ?_
  split
  · exact endFlight_memCanon (taskStamp_memCanon (pmcEvent_memCanon (ite_memCanon (raiseVheap_memCanon hs) hs)))
  · exact taskStamp_memCanon (pmcEvent_memCanon (ite_memCanon (raiseVheap_memCanon hs) hs))

theorem commitPoint_memCanon {k} (hs : s.memCanon) : (s.commitPoint k).memCanon := by
  unfold State.commitPoint
  exact ite_memCanon (commitEnd_memCanon (foldl_memCanon (fun _ _ hs => (releaseTaken_memCanon hs))
    (foldl_memCanon (fun _ _ hs => (commitSend_memCanon hs)) (commitMemory_memCanon hs))))
    (foldl_memCanon (fun _ _ hs => (push_memCanon hs)) (commitEnd_memCanon (foldl_memCanon (fun _ _ hs =>
    (releaseTaken_memCanon hs)) (foldl_memCanon (fun _ _ hs => (commitSend_memCanon hs))
    (commitMemory_memCanon hs)))))

theorem commitTask_memCanon {k} (hs : s.memCanon) : (s.commitTask k).memCanon := by
  unfold State.commitTask
  split
  · exact abortSection_memCanon hs
  · dsimp only
    split
    · exact poisonKill_memCanon hs
    · split
      · exact countWord_memCanon (failCommit_memCanon hs fun _ h => postOrKeep_memCanon h)
      · exact countWord_memCanon (failCommit_memCanon hs fun _ h => postOrKeep_memCanon h)
      · split
        · exact takeTrap_memCanon (modCc_memCanon hs)
        · split
          · exact countWord_memCanon (failCommit_memCanon hs fun _ h => upcallMessage_memCanon h)
          · exact ite_memCanon (raiseVheap_memCanon (modTask_memCanon hs))
              (ite_memCanon (askHost_memCanon (modTask_memCanon hs))
                (countWord_memCanon (commitPoint_memCanon hs)))

theorem orderedAbort_memCanon {k} (hs : s.memCanon) : (s.orderedAbort k).memCanon := killTask_memCanon hs

/-! ### Machine/Tasks -/

theorem slotRequest_memCanon {parent slot m} (hs : s.memCanon) : (s.slotRequest parent slot m).memCanon := by
  unfold State.slotRequest
  dsimp only
  split
  · split
    · exact hs
    · split
      · split
        · exact push_memCanon (setTask_memCanon (install_memCanon hs))
        · exact push_memCanon hs
      · exact push_memCanon hs
  · exact hs

theorem releaseSlot_memCanon {k} (hs : s.memCanon) : (s.releaseSlot k).memCanon :=
  fill_memCanon (setTask_memCanon hs)

theorem spawnAnswer_memCanon {k d m accepted} (hs : s.memCanon) : (s.spawnAnswer k d m accepted).memCanon := by
  unfold State.spawnAnswer
  dsimp only
  split
  · split
    · exact modTask_memCanon (completeWord_memCanon (modTask_memCanon hs))
    · exact hs
  · exact ite_memCanon (modTask_memCanon (completeWord_memCanon (modTask_memCanon (landLate_memCanon hs))))
      (modTask_memCanon (completeWord_memCanon (modTask_memCanon hs)))

theorem dropReserved_memCanon {ctx} (hs : s.memCanon) : (s.dropReserved ctx).memCanon := by
  unfold State.dropReserved
  refine foldl_memCanon (fun s p hs => ?_) hs
  split
  · exact ite_memCanon (releaseSlot_memCanon hs) hs
  · exact hs

theorem continuation_memCanon {ctx g q owner hdr phase} (hs : s.memCanon) :
    (s.continuation ctx g q owner hdr phase).memCanon :=
  ite_memCanon (collect_memCanon (ite_memCanon (modTerm_memCanon hs) hs))
    (push_memCanon (ite_memCanon (modTerm_memCanon hs) hs))

theorem barrierDone_memCanon {ctx g q l} (hs : s.memCanon) : (s.barrierDone ctx g q l).memCanon :=
  foldl_memCanon (fun _ _ hs => (continuation_memCanon hs)) (ite_memCanon (foldl_memCanon (fun _ _ hs =>
    (modCc_memCanon hs)) (modGroup_memCanon (writeMem_memCanon (writeWord_memCanon hs _ _) _ _ _)))
    (modGroup_memCanon (writeMem_memCanon (writeWord_memCanon hs _ _) _ _ _)))

/-! ### Machine/Deques -/

theorem stealRequest_memCanon {thief slot victim} (hs : s.memCanon) :
    (s.stealRequest thief slot victim).memCanon := by
  unfold State.stealRequest
  dsimp only
  split
  · split
    · exact hs
    · split
      · exact push_memCanon hs
      · exact push_memCanon (modSpace_memCanon (modTask_memCanon hs))
  · exact hs

/-! ### Machine/Nets -/

theorem refillOne_memCanon {ctx core} (hs : s.memCanon) : (s.refillOne ctx core).memCanon := by
  unfold State.refillOne
  dsimp only
  split
  · exact hs
  · split
    · exact hs
    · split
      · split
        · exact hs
        · exact modCc_memCanon (physWrite_memCanon (physWrite_memCanon hs))
      · exact ite_memCanon (modCc_memCanon (physWrite_memCanon hs)) hs

theorem refill_memCanon {ctx core} (hs : s.memCanon) : (s.refill ctx core).memCanon :=
  foldl_memCanon (fun _ _ hs => (refillOne_memCanon hs)) hs

theorem nodeWrite_memCanon {core pa i w} (hs : s.memCanon) : (s.nodeWrite core pa i w).memCanon :=
  writeSeen_memCanon hs

theorem sendRelink_memCanon {core ctx trm m} (hs : s.memCanon) : (s.sendRelink core ctx trm m).memCanon :=
  emit_memCanon hs

theorem nodeCheck_memCanon {ctx node} (hs : s.memCanon) : (s.nodeCheck ctx node).memCanon := by
  unfold State.nodeCheck
  split
  · exact hs
  · exact ite_memCanon (freeNode_memCanon hs) hs

theorem wireCheck_memCanon {core ctx trm t p hdr} (hs : s.memCanon) :
    (s.wireCheck core ctx trm t p hdr).memCanon :=
  ite_memCanon (emit_memCanon hs) hs

theorem holdRelink_memCanon {core m} (hs : s.memCanon) : (s.holdRelink core m).memCanon :=
  ite_memCanon (modCore_memCanon (hs.of_mem rfl rfl))
    (ite_memCanon (spillEntry_memCanon (modCc_memCanon (hs.of_mem rfl rfl))) (bounce_memCanon hs))

theorem relinkOne_memCanon {core m} (hs : s.memCanon) : (s.relinkOne core m).1.memCanon := by
  unfold State.relinkOne
  extract_lets ctx trm node found fault
  have hf : ∀ link, (fault link).1.memCanon := fun _ => termDone_memCanon (deviceFault_memCanon hs)
  split
  · exact hf _
  · extract_lets h marked
    split
    · exact termDone_memCanon hs
    · split
      · exact hf _
      · split
        · exact termDone_memCanon (nodeCheck_memCanon (ite_memCanon hs (nodeWrite_memCanon hs)))
        · extract_lets i l
          split
          · exact hf _
          · split
            · exact holdRelink_memCanon hs
            · exact hf _
            · split
              · exact hf _
              · split
                · exact termDone_memCanon (deviceFault_memCanon hs)
                · extract_lets s1 s2 s3 s4
                  have h1 : s1.memCanon := ite_memCanon hs (nodeWrite_memCanon hs)
                  have h2 : s2.memCanon := ite_memCanon (nodeWrite_memCanon h1) h1
                  have h3 : s3.memCanon := foldl_memCanon (fun _ _ hs => sendRelink_memCanon hs) h2
                  have h4 : s4.memCanon := by
                    unfold s4; split
                    · exact wireCheck_memCanon h3
                    · exact h3
                  exact termDone_memCanon (nodeCheck_memCanon h4)

theorem relinkServe_memCanon {core fuel m} (hs : s.memCanon) : (s.relinkServe core fuel m).memCanon := by
  induction fuel generalizing s m with
  | zero => exact relinkOne_memCanon hs
  | succ fuel ih =>
    have h1 := relinkOne_memCanon (core := core) (m := m) hs
    unfold State.relinkServe
    split
    rename_i e
    rw [e] at h1
    split
    · exact h1
    · exact foldl_memCanon (fun _ _ hs => ih hs) (modCc_memCanon (modCore_memCanon h1))

theorem serve_memCanon {svc tag ctx dst again} {f : State → Nat → Message → State} (hs : s.memCanon)
    (hf : ∀ s core m, s.memCanon → (f s core m).memCanon) : (s.serve svc tag ctx dst again f).memCanon := by
  unfold State.serve
  split
  · exact push_memCanon hs
  · exact hf _ _ _ (takeSvc_memCanon hs _ ‹_›)
  · exact hf _ _ _ (takeSvc_memCanon hs _ ‹_›)

theorem deliverMeet_memCanon {m lo hi} (hs : s.memCanon) : (s.deliverMeet m lo hi).memCanon := by
  unfold State.deliverMeet
  dsimp only
  split
  · split
    · exact ite_memCanon (select_memCanon (startMeet_memCanon hs)) (spillOrBounce_memCanon hs)
    · exact evict_memCanon (spillOrBounce_memCanon hs)
  · exact termDone_memCanon (deviceFault_memCanon hs)

/-! ### Machine/Messages -/

theorem spillOr_memCanon {core m held} (hs : s.memCanon) :
    ∀ t, s.spillOr core m held = some t → t.memCanon := by
  intro t e
  unfold State.spillOr at e
  split at e
  have h1 := snd_memCanon (spill_memCanon hs) ‹_›
  split at e
  · cases e; exact h1
  · cases e

theorem spillWait_memCanon {core m} (hs : s.memCanon) : ∀ t, s.spillWait core m = some t → t.memCanon := by
  intro t e
  obtain ⟨u, hu, rfl⟩ := Option.map_eq_some_iff.1 e
  exact evict_memCanon (fill_memCanon (spillOr_memCanon hs _ hu))

theorem placeUser_memCanon {core m} (hs : s.memCanon) : ∀ t, s.placeUser core m = some t → t.memCanon := by
  intro t e
  unfold State.placeUser at e
  split at e
  · exact spillWait_memCanon hs _ e
  · split at e
    · exact spillOr_memCanon hs _ e
    · split at e
      · exact spillOr_memCanon hs _ e
      · split at e
        · exact spillWait_memCanon hs _ e
        · split at e
          · cases e; exact select_memCanon (startTask_memCanon hs)
          · exact spillWait_memCanon hs _ e

theorem placeSvc_memCanon {core m} (hs : s.memCanon) : ∀ t, s.placeSvc core m = some t → t.memCanon := by
  intro t e
  unfold State.placeSvc at e
  split at e
  · exact queueSvc_memCanon hs _ e
  · cases e
    refine termDone_memCanon ?_
    split
    · exact debugEvent_memCanon hs
    · exact hs

theorem place_memCanon {core m} (hs : s.memCanon) : ∀ t, s.place core m = some t → t.memCanon := by
  intro t e
  unfold State.place at e
  split at e
  · cases e; exact termDone_memCanon hs
  · split at e
    · exact placeUser_memCanon hs _ e
    · exact placeSvc_memCanon hs _ e

theorem receive_memCanon {m} (hs : s.memCanon) : (s.receive m).memCanon := by
  unfold State.receive
  split
  · have h1 := snd_memCanon (termArrive_memCanon hs) ‹_›
    split
    · exact bounce_memCanon hs
    · have h1 := place_memCanon h1 _ ‹_›
      split
      · exact endFlight_memCanon h1
      · exact h1

theorem resend_memCanon {m} (hs : s.memCanon) : (s.resend m).memCanon := hs.of_mem rfl rfl

theorem regionEnd_memCanon {r} (hs : s.memCanon) : (s.regionEnd r).memCanon := by
  unfold State.regionEnd
  dsimp only
  split
  · exact endFlight_memCanon (hs.of_mem rfl rfl)
  · exact hs.of_mem rfl rfl

/-! ### Machine/Engines -/

theorem dropStarted_memCanon {core e c} (hs : s.memCanon) : (s.dropStarted core e c).memCanon :=
  modCore_memCanon hs

theorem settleSlot_memCanon {k} (hs : s.memCanon) : (s.settleSlot k).memCanon :=
  tryKill_memCanon (trySave_memCanon hs)

theorem endCmd_memCanon {core e c flags push bytes} (hs : s.memCanon) :
    (s.endCmd core e c flags push bytes).memCanon :=
  settleSlot_memCanon (signal_memCanon (ite_memCanon (dropStarted_memCanon hs)
    (modTask_memCanon (dropStarted_memCanon hs))))

theorem requeue_memCanon {core e c} (hs : s.memCanon) : (s.requeue core e c).memCanon := modCore_memCanon hs

theorem stopCmd_memCanon {core e c st} (hs : s.memCanon) : (s.stopCmd core e c st).memCanon := by
  unfold State.stopCmd
  dsimp only
  split
  · exact ite_memCanon hs (deliverStop_memCanon hs)
  · split
    · exact tryKill_memCanon (dropStarted_memCanon hs)
    · split
      · exact poisonKill_memCanon (requeue_memCanon hs)
      · exact ite_memCanon (deliverStop_memCanon (requeue_memCanon hs)) (trySave_memCanon (requeue_memCanon hs))

theorem engineStore_memCanon {core c a l} (hs : s.memCanon) : (s.engineStore core c a l).memCanon :=
  spadPutT_memCanon (ite_memCanon (modTask_memCanon (foldl_memCanon (fun _ _ hs => (logLine_memCanon hs))
    hs)) (foldl_memCanon (fun _ _ hs => (logLine_memCanon hs)) hs))

theorem noteBad_memCanon {ctx core unit write single l} (hs : s.memCanon) :
    (s.noteBad ctx core unit write single l).memCanon :=
  foldl_memCanon (fun _ _ hs => (spErr_memCanon hs)) hs

theorem seeReads_memCanon {core l} (hs : s.memCanon) : (s.seeReads core l).memCanon := by
  unfold State.seeReads
  refine foldl_memCanon (fun s p hs => ?_) hs
  split
  · exact ite_memCanon hs (portSeen_memCanon hs)
  · exact hs

/-! ### Machine/Vector -/

theorem runVector_memCanon {core c} (hs : s.memCanon) : (s.runVector core c).memCanon := by
  unfold State.runVector
  dsimp only
  split
  · exact stopCmd_memCanon hs
  · exact endCmd_memCanon (modTask_memCanon (foldl_memCanon (fun _ _ hs => (engineStore_memCanon hs))
      (ite_memCanon (noteBad_memCanon hs) (seeReads_memCanon (noteBad_memCanon hs)))))

/-! ### Machine/Matrix -/

theorem putTile_memCanon {k t l tag} (hs : s.memCanon) : (s.putTile k t l tag).memCanon := modTask_memCanon hs

theorem matRead_memCanon {core ctx a n} (hs : s.memCanon) : (s.matRead core ctx a n).2.2.memCanon := by
  unfold State.matRead
  dsimp only
  exact seeReads_memCanon (noteBad_memCanon hs)

theorem readChunks_memCanon {core c x l} (hs : s.memCanon) : (s.readChunks core c x l).2.2.2.memCanon := by
  induction l generalizing s with
  | nil => exact hs
  | cons j l ih => exact ih (matRead_memCanon (matRead_memCanon hs))

theorem endMat_memCanon {core c flags push} (hs : s.memCanon) : (s.endMat core c flags push).memCanon :=
  endCmd_memCanon hs

theorem putTileOf_memCanon {core c t l tag} (hs : s.memCanon) : (s.putTileOf core c t l tag).memCanon :=
  putTile_memCanon hs

theorem runMmz_memCanon {core c d} (hs : s.memCanon) : (runMmz s core c d).memCanon :=
  endMat_memCanon (putTileOf_memCanon hs)

theorem runProduct_memCanon {core c x} (hs : s.memCanon) : (runProduct s core c x).memCanon :=
  endMat_memCanon (putTileOf_memCanon (readChunks_memCanon hs))

theorem runMld_memCanon {core c x} (hs : s.memCanon) : (runMld s core c x).memCanon :=
  endMat_memCanon (putTileOf_memCanon (foldl_memCanon (fun _ _ hs =>
    (seeReads_memCanon (noteBad_memCanon hs))) hs))

theorem runMst_memCanon {core c x} (hs : s.memCanon) : (runMst s core c x).memCanon := by
  unfold runMst
  exact endCmd_memCanon (foldl_memCanon (fun _ _ hs => (engineStore_memCanon (noteBad_memCanon hs))) hs)

theorem runMscl_memCanon {core c d h sat mode tag f} (hs : s.memCanon) :
    (runMscl s core c d h sat mode tag f).memCanon :=
  endMat_memCanon (putTileOf_memCanon hs)

theorem runMrd_memCanon {core c x f} (hs : s.memCanon) : (runMrd s core c x f).memCanon :=
  endMat_memCanon (modTask_memCanon hs)

theorem runMrdEl_memCanon {core c x} (hs : s.memCanon) : (runMrdEl s core c x).memCanon :=
  endMat_memCanon hs

theorem runMdir_memCanon {core c x push} (hs : s.memCanon) : (runMdir s core c x push).memCanon :=
  endMat_memCanon (modCore_memCanon (seeReads_memCanon (noteBad_memCanon hs)))

theorem readStream_memCanon {core c t l} (hs : s.memCanon) : (s.readStream core c t l).2.memCanon := by
  induction l generalizing s with
  | nil => exact hs
  | cons j l ih =>
    unfold State.readStream
    dsimp only
    split
    · exact snd_memCanon (spanChecked_memCanon hs) ‹_›
    · have h1 := snd_memCanon (spanChecked_memCanon hs) ‹_›
      split <;> exact snd_memCanon (ih (seeParts_memCanon h1)) ‹_›

theorem runMmv_memCanon {core c x blocks} (hs : s.memCanon) : (runMmv s core c x blocks).memCanon :=
  endMat_memCanon (putTileOf_memCanon (foldl_memCanon (fun _ _ hs =>
    (seeReads_memCanon (noteBad_memCanon hs))) hs))

theorem runMatrix_memCanon {core c} (hs : s.memCanon) : (s.runMatrix core c).memCanon := by
  unfold State.runMatrix
  dsimp only
  split
  · exact runMmz_memCanon hs
  · exact runProduct_memCanon hs
  · exact runProduct_memCanon hs
  · exact runMld_memCanon hs
  · exact runMst_memCanon hs
  · exact runMdir_memCanon hs
  · exact runMdir_memCanon hs
  · exact runMscl_memCanon hs
  · exact runMscl_memCanon hs
  · exact runMscl_memCanon hs
  · exact runMrd_memCanon hs
  · exact runMrd_memCanon hs
  · exact runMrdEl_memCanon hs
  · split
    · have h1 := snd_memCanon (readStream_memCanon hs) ‹_›
      exact runMmv_memCanon h1
    · exact hs
  · exact endMat_memCanon hs

/-! ### Machine/Copy -/

theorem copyPieces_memCanon {core c scratch k a n} (hs : s.memCanon) :
    (s.copyPieces core c scratch k a n).2.memCanon := by
  unfold State.copyPieces
  split
  · exact hs
  · exact spanChecked_memCanon hs

theorem copyRead_memCanon {core c scratch a n ps} (hs : s.memCanon) :
    (s.copyRead core c scratch a n ps).2.memCanon := by
  unfold State.copyRead
  split
  · exact seeReads_memCanon (noteBad_memCanon hs)
  · exact seeParts_memCanon hs

theorem copyProgress_memCanon {core c n} (hs : s.memCanon) : (s.copyProgress core c n).memCanon :=
  modCore_memCanon hs

theorem copyBeat_memCanon {core c} (hs : s.memCanon) : (s.copyBeat core c).memCanon := by
  unfold State.copyBeat
  extract_lets b k
  split
  split
  · exact stopCmd_memCanon (snd_memCanon (copyPieces_memCanon hs) ‹_›)
  · have h1 := snd_memCanon (copyPieces_memCanon hs) ‹_›
    split
    · exact stopCmd_memCanon (snd_memCanon (copyPieces_memCanon h1) ‹_›)
    · have h2 := snd_memCanon (copyPieces_memCanon h1) ‹_›
      refine ite_memCanon h2 (ite_memCanon (askHost_memCanon h2) ?_)
      split
      rename_i l t e
      have h3 : t.memCanon := by
        refine snd_memCanon ?_ e
        split
        · exact copyRead_memCanon h2
        · exact h2
      extract_lets bytes s1
      split
      extract_lets s2 s3
      have hs1 : s1.memCanon := ite_memCanon h3 (modTask_memCanon h3)
      have hs2 : s2.memCanon := ite_memCanon (landedAt_memCanon (spadWriteT_memCanon hs1))
        (piecesWrite_memCanon hs1)
      have hs3 : s3.memCanon := ite_memCanon hs2 (modTask_memCanon hs2)
      exact judgeEntries_memCanon (ite_memCanon (endCmd_memCanon hs2)
        (signal_memCanon (copyProgress_memCanon hs3)))

/-! ### Machine/Attention -/

theorem runPjld_memCanon {core c} (hs : s.memCanon) : (runPjld s core c).memCanon := by
  unfold runPjld
  exact endCmd_memCanon (modSpace_memCanon hs)

theorem summaryLines_memCanon {core c l} (hs : s.memCanon) : (s.summaryLines core c l).2.memCanon := by
  induction l generalizing s with
  | nil => exact hs
  | cons va l ih =>
    unfold State.summaryLines
    split
    have h1 := snd2_memCanon (pieces_memCanon hs) ‹_›
    split
    · exact h1
    · exact ih h1

theorem runKst_memCanon {core c} (hs : s.memCanon) : (runKst s core c).memCanon := by
  unfold runKst
  extract_lets t
  split
  · exact endCmd_memCanon hs
  · split
    extract_lets sp l tag n
    refine ite_memCanon (stopCmd_memCanon hs) (ite_memCanon (stopCmd_memCanon hs)
      (ite_memCanon (stopCmd_memCanon hs) ?_))
    split
    have h1 := snd2_memCanon (pieces_memCanon hs) ‹_›
    split
    · exact stopCmd_memCanon h1
    · split
      · exact stopCmd_memCanon (snd_memCanon (summaryLines_memCanon h1) ‹_›)
      · exact endCmd_memCanon (modTask_memCanon (snd_memCanon (summaryLines_memCanon h1) ‹_›))

theorem runQsig_memCanon {core c} (hs : s.memCanon) : (runQsig s core c).memCanon := by
  unfold runQsig
  exact ite_memCanon (stopCmd_memCanon hs) (ite_memCanon (stopCmd_memCanon hs) (endCmd_memCanon hs))

theorem runPsum_memCanon {core c x} (hs : s.memCanon) : (runPsum s core c x).memCanon := by
  unfold runPsum
  exact endCmd_memCanon (spadPutT_memCanon hs)

theorem runPbnd_memCanon {core c x} (hs : s.memCanon) : (runPbnd s core c x).memCanon := by
  unfold runPbnd
  exact endCmd_memCanon (modTask_memCanon hs)

theorem runAttention_memCanon {core c} (hs : s.memCanon) : (s.runAttention core c).memCanon := by
  unfold State.runAttention
  dsimp only
  split
  · exact runPjld_memCanon (seeReads_memCanon (noteBad_memCanon (noteBad_memCanon hs)))
  · exact runKst_memCanon (seeReads_memCanon (noteBad_memCanon (noteBad_memCanon hs)))
  · exact runQsig_memCanon (seeReads_memCanon (noteBad_memCanon (noteBad_memCanon hs)))
  · exact runPsum_memCanon (seeReads_memCanon (noteBad_memCanon (noteBad_memCanon hs)))
  · exact runPbnd_memCanon (seeReads_memCanon (noteBad_memCanon (noteBad_memCanon hs)))
  · exact seeReads_memCanon (noteBad_memCanon (noteBad_memCanon hs))

theorem gatherUpTo_memCanon {core c l} (hs : s.memCanon) : (s.gatherUpTo core c l).2.2.memCanon := by
  induction l generalizing s with
  | nil => exact hs
  | cons p l ih =>
    unfold State.gatherUpTo
    split
    · exact snd_memCanon (spanChecked_memCanon hs) ‹_›
    · have h1 := snd_memCanon (spanChecked_memCanon hs) ‹_›
      dsimp only
      split
      · exact h1
      · exact ih (seeParts_memCanon h1)

theorem gatherRead_memCanon {core c l} (hs : s.memCanon) : (s.gatherRead core c l).2.memCanon := by
  unfold State.gatherRead
  split
  · have h1 := snd2_memCanon (gatherUpTo_memCanon hs) ‹_›
    exact h1
  · have h1 := snd2_memCanon (gatherUpTo_memCanon hs) ‹_›
    exact h1

theorem stopBgat_memCanon {core c st} (hs : s.memCanon) : (s.stopBgat core c st).memCanon := by
  unfold State.stopBgat
  dsimp only
  split
  · exact deliverStop_memCanon hs
  · split
    · exact dropStarted_memCanon hs
    · split
      · exact trySave_memCanon (modTask_memCanon (dropStarted_memCanon hs))
      · split
        · exact poisonKill_memCanon (modTask_memCanon (dropStarted_memCanon hs))
        · exact deliverStop_memCanon (modTask_memCanon (dropStarted_memCanon hs))

theorem noteGather_memCanon {core c l} (hs : s.memCanon) : (s.noteGather core c l).memCanon :=
  seeReads_memCanon (noteBad_memCanon hs)

theorem bgatFirst_memCanon {core c} (hs : s.memCanon) : (s.bgatFirst core c).memCanon := by
  unfold State.bgatFirst
  dsimp only
  split
  · exact stopBgat_memCanon (noteGather_memCanon hs)
  · split
    · exact stopBgat_memCanon (noteGather_memCanon hs)
    · split
      · have h1 := snd2_memCanon (gatherUpTo_memCanon (noteGather_memCanon hs)) ‹_›
        exact stopBgat_memCanon (ite_memCanon h1 (modTask_memCanon h1))
      · have h1 := snd2_memCanon (gatherUpTo_memCanon (noteGather_memCanon hs)) ‹_›
        exact ite_memCanon (trySave_memCanon (ite_memCanon (modCore_memCanon h1)
          (modTask_memCanon (completeWord_memCanon (modCore_memCanon h1)))))
          (ite_memCanon (endCmd_memCanon (spadWriteT_memCanon h1))
          (ite_memCanon (takeUpcall_memCanon (ite_memCanon (endCmd_memCanon (spadWriteT_memCanon h1))
          (modTask_memCanon (completeWord_memCanon (endCmd_memCanon (spadWriteT_memCanon h1))))))
          (endCmd_memCanon (modTask_memCanon (ite_memCanon (spadWriteT_memCanon h1)
          (modTask_memCanon (completeWord_memCanon (spadWriteT_memCanon h1))))))))

theorem walkChain_memCanon {core c pool fuel i n} (hs : s.memCanon) :
    (s.walkChain core c pool fuel i n).2.memCanon := by
  induction fuel generalizing s i n with
  | zero => exact hs
  | succ fuel ih =>
    unfold State.walkChain
    split
    · exact hs
    · split
      · exact snd_memCanon (gatherRead_memCanon hs) ‹_›
      · have h1 := snd_memCanon (gatherRead_memCanon hs) ‹_›
        dsimp only
        split <;> exact snd_memCanon (ih h1) ‹_›

theorem walkChains_memCanon {core c pool limit l} (hs : s.memCanon) :
    (s.walkChains core c pool limit l).2.memCanon := by
  induction l generalizing s with
  | nil => exact hs
  | cons p l ih =>
    unfold State.walkChains
    split
    · exact snd_memCanon (walkChain_memCanon hs) ‹_›
    · have h1 := snd_memCanon (walkChain_memCanon hs) ‹_›
      split <;> exact snd_memCanon (ih h1) ‹_›

theorem bgatSecond_memCanon {core c} (hs : s.memCanon) : (s.bgatSecond core c).memCanon := by
  unfold State.bgatSecond
  dsimp only
  split
  · have h1 := snd_memCanon (walkChains_memCanon hs) ‹_›
    exact stopCmd_memCanon h1
  · have h1 := snd_memCanon (walkChains_memCanon hs) ‹_›
    exact ite_memCanon hs (endCmd_memCanon (spadWriteT_memCanon h1))

theorem runPgat_memCanon {core c pages} (hs : s.memCanon) : (s.runPgat core c pages).memCanon := by
  unfold State.runPgat
  split
  · dsimp only
    split
    · exact hs
    · split
      · exact hs
      · split
        · exact stopCmd_memCanon (noteGather_memCanon hs)
        · split
          · exact stopCmd_memCanon (noteGather_memCanon hs)
          · split
            · have h1 := snd_memCanon (gatherRead_memCanon (noteGather_memCanon hs)) ‹_›
              exact stopCmd_memCanon h1
            · have h1 := snd_memCanon (gatherRead_memCanon (noteGather_memCanon hs)) ‹_›
              exact ite_memCanon hs (endCmd_memCanon (spadWriteT_memCanon h1))

theorem linkAt_memCanon {core l pa} (hs : s.memCanon) : (s.linkAt core l pa).memCanon := by
  unfold State.linkAt
  dsimp only
  split
  · exact deviceFault_memCanon hs
  · split
    · exact writeSeen_memCanon hs
    · split
      · split
        · split
          · exact deviceFault_memCanon hs
          · exact writeSeen_memCanon (writeSeen_memCanon hs)
        · exact writeSeen_memCanon hs
      · split
        · exact deviceFault_memCanon hs
        · split
          · exact deviceFault_memCanon hs
          · split
            · exact writeSeen_memCanon (writeSeen_memCanon (writeSeen_memCanon hs))
            · split
              · split
                · exact deviceFault_memCanon hs
                · exact ite_memCanon (deviceFault_memCanon hs)
                    (writeSeen_memCanon (writeSeen_memCanon (writeSeen_memCanon hs)))
              · exact writeSeen_memCanon hs

/-! ### Machine/Scheduling -/

theorem writeAge_memCanon {ctx v} (hs : s.memCanon) : (s.writeAge ctx v).memCanon := modCtx_memCanon hs

theorem writeSlice_memCanon {ctx v} (hs : s.memCanon) : (s.writeSlice ctx v).memCanon :=
  modCtx_memCanon hs

theorem preempt_memCanon {force k} (hs : s.memCanon) : (s.preempt force k).memCanon := by
  unfold State.preempt
  split
  · exact beginSave_memCanon hs
  · exact beginSave_memCanon hs
  · exact beginSave_memCanon hs
  · exact freeFailed_memCanon hs
  · exact ite_memCanon (beginSave_memCanon hs) hs
  · exact ite_memCanon (beginSave_memCanon hs) hs
  · exact hs

theorem wakeCtx_memCanon {ctx} (hs : s.memCanon) : (s.wakeCtx ctx).memCanon :=
  foldl_memCanon (fun _ _ hs => (push_memCanon hs)) hs

theorem makeResident_memCanon {ctx} (hs : s.memCanon) : (s.makeResident ctx).memCanon :=
  wakeCtx_memCanon (hs.of_mem rfl rfl)

theorem writeCtxres_memCanon {v} (hs : s.memCanon) : (s.writeCtxres v).memCanon :=
  ite_memCanon (hs.of_mem rfl rfl) (ite_memCanon (makeResident_memCanon (hs.of_mem rfl rfl))
    (hs.of_mem rfl rfl))

theorem loadGroup_memCanon {ctx g} (hs : s.memCanon) : (s.loadGroup ctx g).memCanon := modGroup_memCanon hs

theorem writeGtsync_memCanon {ctx v} (hs : s.memCanon) : (s.writeGtsync ctx v).memCanon :=
  loadGroup_memCanon hs

theorem writeGrp_memCanon {ctx core i v} (hs : s.memCanon) : (s.writeGrp ctx core i v).memCanon :=
  modCc_memCanon hs

theorem endQuantum_memCanon {ctx g core} (hs : s.memCanon) : (s.endQuantum ctx g core).memCanon :=
  ite_memCanon hs (ite_memCanon (modCc_memCanon hs) (ite_memCanon (modCc_memCanon hs) hs))

theorem serveRequest_memCanon {x1} (hs : s.memCanon) : (s.serveRequest x1).memCanon := by
  unfold State.serveRequest
  split
  · exact receive_memCanon hs
  · exact stealRequest_memCanon hs
  · exact slotRequest_memCanon hs

theorem nextQuantum_memCanon {ctx g} (hs : s.memCanon) : (s.nextQuantum ctx g).memCanon := by
  unfold State.nextQuantum
  extract_lets q s1 s2
  have h1 : s1.memCanon := modGroup_memCanon hs
  have h2 : s2.memCanon := ite_memCanon (foldl_memCanon (fun _ _ hs => bringUp_memCanon hs) h1) h1
  split
  · exact push_memCanon h2
  · exact h2

theorem settleAll_memCanon {ctx} (hs : s.memCanon) : (s.settleAll ctx).memCanon :=
  foldl_memCanon (fun _ _ hs => (bringUp_memCanon hs)) (modCtx_memCanon (foldl_memCanon (fun _ _ hs =>
    (settle_memCanon hs)) hs))

theorem setLevel_memCanon {ctx level} (hs : s.memCanon) : (s.setLevel ctx level).memCanon := by
  unfold State.setLevel
  refine foldl_memCanon (fun s r hs => ?_) ?_
  · exact serveRequest_memCanon hs
  · refine State.memCanon.of_mem ?_ rfl rfl
    exact settleAll_memCanon hs

/-! ### Machine/Translation -/

theorem killCore_memCanon {kind va ctx core} (hs : s.memCanon) : (s.killCore kind va ctx core).memCanon :=
  modCore_memCanon hs

theorem killHive_memCanon {kind va ctx hive} (hs : s.memCanon) : (s.killHive kind va ctx hive).memCanon :=
  modHive_memCanon (foldl_memCanon (fun _ _ hs => (killCore_memCanon hs)) hs)

theorem rewalk_memCanon {hive kind va ctx} (hs : s.memCanon) : (s.rewalk hive kind va ctx).memCanon := by
  unfold State.rewalk
  refine foldl_memCanon (fun s c hs => ite_memCanon hs (gpKick_memCanon hs))
    (foldl_memCanon (fun s p hs => push_memCanon hs) (State.memCanon.of_mem (foldl_memCanon (fun s p hs => ?_)
      hs) rfl rfl))
  split
  · exact hs
  · split
    · exact push_memCanon hs
    · exact hs

theorem invalCount_memCanon {i} (hs : s.memCanon) : (s.invalCount i).memCanon := hs.of_mem rfl rfl

theorem invalidateDevice_memCanon {k kind va ctx cc} (hs : s.memCanon) :
    (s.invalidateDevice k kind va ctx cc).memCanon :=
  foldl_memCanon (fun _ _ hs => (push_memCanon hs)) (hs.of_mem rfl rfl)

/-! ### Machine/Faults -/

theorem writeFrbase_memCanon {hive v} (hs : s.memCanon) : (s.writeFrbase hive v).memCanon :=
  ite_memCanon (raiseHeldN_memCanon (modHive_memCanon hs)) (modHive_memCanon hs)

theorem writeFring_memCanon {hive v} (hs : s.memCanon) : (s.writeFring hive v).memCanon :=
  raiseHeldN_memCanon (modHive_memCanon hs)

theorem writeCtxst_memCanon {ctx v} (hs : s.memCanon) : (s.writeCtxst ctx v).memCanon :=
  ite_memCanon hs (wakeCtx_memCanon (hs.of_mem rfl rfl))

theorem retrySaves_memCanon {ctx} (hs : s.memCanon) : (s.retrySaves ctx).memCanon := by
  unfold State.retrySaves
  refine foldl_memCanon (fun s p hs => ?_) hs
  split
  · exact ite_memCanon (trySave_memCanon hs) hs
  · exact hs

theorem writeSvpool_memCanon {ctx v} (hs : s.memCanon) : (s.writeSvpool ctx v).memCanon :=
  retrySaves_memCanon (judgePool_memCanon (modCtx_memCanon hs))

theorem moveRegion_memCanon {src dst r} (hs : s.memCanon) : (s.moveRegion src dst r).memCanon :=
  termSettle_memCanon (ite_memCanon hs (modTerm_memCanon (modTerm_memCanon hs)))

theorem moveImage_memCanon {ctx src dst} (hs : s.memCanon) : (s.moveImage ctx src dst).memCanon := by
  unfold State.moveImage
  extract_lets mine s1 s2 s3
  have h3 : s3.memCanon := hs.of_mem rfl rfl
  clear_value s3
  exact push_memCanon (foldl_memCanon (fun _ _ hs => moveRegion_memCanon hs)
    (writeHandles_memCanon (foldl_memCanon (fun _ _ hs => writeWord_memCanon hs _ _) h3)))

theorem writeCmove_memCanon {ctx v} (hs : s.memCanon) : (s.writeCmove ctx v).memCanon :=
  ite_memCanon (moveImage_memCanon (hs.of_mem rfl rfl)) (hs.of_mem rfl rfl)

theorem writeRcent_memCanon {ctx core v} (hs : s.memCanon) : (s.writeRcent ctx core v).memCanon :=
  modCore_memCanon hs

theorem writeSperr_memCanon {ctx core v} (hs : s.memCanon) : (s.writeSperr ctx core v).memCanon :=
  ite_memCanon (modCc_memCanon hs) hs

theorem poisonLine_memCanon {pa tag} (hs : s.memCanon) :
    (s.poisonLine pa tag).memCanon := ⟨hs.1, Tab.wf_set hs.2⟩

/-! ### Machine/HostQueues -/

theorem passPacket_memCanon {q} (hs : s.memCanon) : (s.passPacket q).memCanon := by
  unfold State.passPacket
  refine State.memCanon.of_mem ?_ rfl rfl
  exact writeMem_memCanon hs _ _ _

theorem holdPacket_memCanon {q} (hs : s.memCanon) : (s.holdPacket q).memCanon := hs.of_mem rfl rfl

theorem actLaunch_memCanon {q} (hs : s.memCanon) : (s.actLaunch q).memCanon :=
  passPacket_memCanon (push_memCanon (hs.of_mem rfl rfl))

theorem actDebug_memCanon {q} (hs : s.memCanon) : (s.actDebug q).memCanon :=
  passPacket_memCanon (push_memCanon (hs.of_mem rfl rfl))

theorem actDone_memCanon {q} (hs : s.memCanon) : (s.actDone q).memCanon :=
  passPacket_memCanon (complete_memCanon hs)

theorem actPacket_memCanon {q} (hs : s.memCanon) : (s.actPacket q).memCanon := by
  unfold State.actPacket
  dsimp only
  split
  · exact haltQueue_memCanon hs
  · exact actLaunch_memCanon hs
  · exact ite_memCanon (holdPacket_memCanon hs) (actDone_memCanon hs)
  · exact ite_memCanon (holdPacket_memCanon hs) (ite_memCanon (holdPacket_memCanon (askHost_memCanon hs))
      (actDone_memCanon (setLevel_memCanon hs)))
  · exact actDebug_memCanon hs
  · exact actDone_memCanon hs

theorem doorbell_memCanon {queue v} (hs : s.memCanon) : (s.doorbell queue v).memCanon := by
  unfold State.doorbell
  dsimp only
  split
  · exact writeMem_memCanon hs _ _ _
  · refine State.memCanon.of_mem ?_ rfl rfl
    exact writeMem_memCanon hs _ _ _

/-! ### Machine/Debugger -/

theorem modFound_memCanon {x f} (hs : s.memCanon) : (s.modFound x f).memCanon := by
  unfold State.modFound
  split
  · exact modTask_memCanon hs
  · exact hs.of_mem rfl rfl
  · exact hs

theorem onTask_memCanon {ctx core w} {f : State → Found → State} (hs : s.memCanon)
    (hf : ∀ s x, s.memCanon → (f s x).memCanon) : (s.onTask ctx core w f).memCanon := by
  unfold State.onTask
  split
  · exact debugEvent_memCanon hs
  · exact debugEvent_memCanon hs
  · exact hf _ _ hs

/-! ### Machine/Retirement -/

theorem broadcast_memCanon (hs : s.memCanon) : s.broadcast.memCanon := hs.of_mem rfl rfl

theorem retireNotice_memCanon {code} (hs : s.memCanon) : (s.retireNotice code).memCanon :=
  mail_memCanon (interrupt_memCanon hs)

theorem refuse_memCanon {stack} (hs : s.memCanon) : (s.refuse stack).memCanon :=
  ite_memCanon (machineError_memCanon (hs.of_mem rfl rfl)) (hs.of_mem rfl rfl)

theorem announceRetire_memCanon {stack} (hs : s.memCanon) : (s.announceRetire stack).memCanon := by
  unfold State.announceRetire
  split
  · have h1 := snd_memCanon (errorRecord_memCanon hs) ‹_›
    exact retireNotice_memCanon (h1.of_mem rfl rfl)

theorem trigger_memCanon {stack} (hs : s.memCanon) : (s.trigger stack).memCanon :=
  ite_memCanon hs (ite_memCanon (ite_memCanon (announceRetire_memCanon hs) (refuse_memCanon hs))
    (ite_memCanon (ite_memCanon hs (hs.of_mem rfl rfl)) (ite_memCanon (hs.of_mem rfl rfl)
    (refuse_memCanon hs))))

theorem countCorrected_memCanon {stack n} (hs : s.memCanon) : (s.countCorrected stack n).memCanon :=
  ite_memCanon (trigger_memCanon (modStack_memCanon hs)) (modStack_memCanon hs)

theorem ackRetire_memCanon (hs : s.memCanon) : s.ackRetire.memCanon :=
  ite_memCanon hs (broadcast_memCanon (hs.of_mem rfl rfl))

theorem writeMretire_memCanon {v} (hs : s.memCanon) : (s.writeMretire v).memCanon :=
  ite_memCanon (ackRetire_memCanon (hs.of_mem rfl rfl)) (hs.of_mem rfl rfl)

theorem stripPoison_memCanon (hs : s.memCanon) : s.stripPoison.memCanon :=
  ite_memCanon hs (foldl_memCanon (fun _ _ hs =>
    (ite_memCanon hs (countPoison_memCanon (foldl_memCanon (fun _ _ hs => (poisonLine_memCanon hs)) hs) _ _)))
    hs)

theorem examinePend_memCanon (hs : s.memCanon) : s.examinePend.memCanon := by
  unfold State.examinePend
  split
  · exact hs
  · exact ite_memCanon (announceRetire_memCanon hs) (foldl_memCanon (fun _ _ hs => (refuse_memCanon hs))
      (hs.of_mem rfl rfl))

theorem served_memCanon {r} (hs : s.memCanon) : (s.served r).memCanon := hs.of_mem rfl rfl

theorem sendRequest_memCanon {r} (hs : s.memCanon) : (s.sendRequest r).memCanon :=
  push_memCanon (hs.of_mem rfl rfl)

theorem requestArrives_memCanon {r} (hs : s.memCanon) : (s.requestArrives r).memCanon :=
  ite_memCanon (served_memCanon hs) (ite_memCanon (push_memCanon hs)
    (ite_memCanon (ite_memCanon (modStack_memCanon hs) (push_memCanon hs)) (ite_memCanon (push_memCanon hs)
    (countCorrected_memCanon (served_memCanon hs)))))

/-! ### Machine/Platform -/

theorem advance_memCanon {n} (hs : s.memCanon) : (s.advance n).memCanon := by
  induction n generalizing s with
  | zero => exact hs
  | succ n ih =>
    unfold State.advance
    split
    · exact ih (hs.of_mem rfl rfl)
    · exact hs

theorem dropHbm_memCanon (hs : s.memCanon) : s.dropHbm.memCanon := ⟨Tab.wf_filter _ hs.1, Tab.wf_filter _ hs.2⟩

theorem trainingEnds_memCanon {was} (hs : s.memCanon) : (s.trainingEnds was).memCanon :=
  advance_memCanon (ite_memCanon (machineError_memCanon hs) hs)

theorem restart_memCanon {cols} (hs : s.memCanon) : (s.restart cols).memCanon :=
  ⟨Tab.wf_filter _ hs.1, Tab.wf_filter _ hs.2⟩

theorem checkColumns_memCanon (hs : s.memCanon) : s.checkColumns.memCanon :=
  ite_memCanon (machineError_memCanon hs) hs

theorem modLink_memCanon {l f} (hs : s.memCanon) : (s.modLink l f).memCanon :=
  ite_memCanon hs (hs.of_mem rfl rfl)

theorem loseRoute_memCanon {link dev} (hs : s.memCanon) : (s.loseRoute link dev).memCanon := by
  unfold State.loseRoute
  dsimp only
  split
  · exact hs
  · refine State.memCanon.of_mem ?_ rfl rfl
    exact errorRecord_memCanon hs

theorem reply_memCanon {toHost ok off pa n} (hs : s.memCanon) : (s.reply toHost ok off pa n).memCanon :=
  hs.of_mem rfl rfl

theorem writeStagger_memCanon {v} (hs : s.memCanon) : (s.writeStagger v).memCanon :=
  ite_memCanon (push_memCanon hs) hs

/-! ### Machine/System -/

theorem writeCtxReg_memCanon {core ctx num v} (hs : s.memCanon) : (s.writeCtxReg core ctx num v).memCanon := by
  unfold State.writeCtxReg
  dsimp only
  split
  · exact modCtx_memCanon hs
  · exact modCtx_memCanon hs
  · exact writeSperr_memCanon hs
  · exact modCc_memCanon hs
  · exact ite_memCanon (modCc_memCanon hs) hs
  · exact modCtx_memCanon hs
  · exact modCc_memCanon hs
  · exact ite_memCanon (modCc_memCanon hs) hs
  · exact modCtx_memCanon hs
  · exact modCtx_memCanon hs
  · exact writeGtsync_memCanon hs
  · exact writeAge_memCanon hs
  · exact writeSlice_memCanon hs
  · exact writeCtxst_memCanon hs
  · exact writeSvpool_memCanon hs
  · exact judgePool_memCanon (modCtx_memCanon hs)
  · exact modCtx_memCanon hs
  · exact modCtx_memCanon hs
  · exact hs

theorem writeDevReg_memCanon {core num v} (hs : s.memCanon) : (s.writeDevReg core num v).memCanon := by
  unfold State.writeDevReg
  split
  · exact writeMretire_memCanon hs
  · exact modCore_memCanon hs
  · exact hs.of_mem rfl rfl
  · exact writeCtxres_memCanon hs
  · exact writeFrbase_memCanon hs
  · exact writeFring_memCanon hs
  · exact hs.of_mem rfl rfl
  · exact hs.of_mem rfl rfl
  · exact hs.of_mem rfl rfl
  · exact writeStagger_memCanon hs
  · exact hs

theorem dump_memCanon {k va size} (hs : s.memCanon) : (s.dump k va size).2.memCanon := by
  unfold State.dump
  split
  · split
    · dsimp only
      split
      · exact mail_memCanon (piecesWrite_memCanon (pieces_memCanon hs))
      · exact piecesWrite_memCanon (piecesWrite_memCanon (pieces_memCanon hs))
    · dsimp only
      split
      · exact mail_memCanon (piecesWrite_memCanon (pieces_memCanon hs))
      · exact piecesWrite_memCanon (piecesWrite_memCanon (pieces_memCanon hs))

/-! ### Machine/Fetch -/

theorem debugStop_memCanon {k} (hs : s.memCanon) : (s.debugStop k).memCanon :=
  debugEvent_memCanon (beginSave_memCanon (modTask_memCanon hs))

theorem turn_memCanon (hs : s.memCanon) : s.turn.2.memCanon := by
  unfold State.turn
  split
  · exact hs.of_mem rfl rfl
  · exact hs

theorem takePending_memCanon {i} (hs : s.memCanon) : (s.takePending i).2.memCanon := by
  unfold State.takePending
  dsimp only
  exact hs.of_mem rfl rfl

end Sys2Proof.Machine
end

section
/-! PROOFS (O58). The same for the meanings of instructions: for what they read and write, and for how they end. -/

namespace Sys2Proof.Machine

/-- A meaning that is run in a canonical state leaves one, or ends in an exit that keeps one. -/
def Keeps {α : Type} (m : W α) : Prop :=
  ∀ s, s.memCanon → match m.run s with
    | .ok (_, t) => t.memCanon
    | .error e => e.memCanon

theorem keeps_pure {α : Type} {a : α} : Keeps (pure a : W α) := fun _ hs => hs

theorem Keeps.bind {α β : Type} {m : W α} {f : α → W β} (hm : Keeps m) (hf : ∀ a, Keeps (f a)) :
    Keeps (m >>= f) := by
  intro s hs
  have h1 := hm s hs
  rw [StateT.run_bind]
  cases e : m.run s with
  | error x => rw [e] at h1; exact h1
  | ok p => rw [e] at h1; exact hf p.1 p.2 h1

theorem keeps_get : Keeps (get : W State) := fun _ hs => hs

theorem keeps_get_bind {β : Type} {f : State → W β} (hf : ∀ s, s.memCanon → Keeps (f s)) : Keeps (get >>= f) :=
  fun s hs => hf s hs s hs

theorem keeps_set {t : State} (ht : t.memCanon) : Keeps (set t : W PUnit) := fun _ _ => ht

theorem keeps_modify {f : State → State} (hf : ∀ s, s.memCanon → (f s).memCanon) :
    Keeps (modify f : W PUnit) := fun s hs => hf s hs

theorem keeps_exit {α : Type} {e : Exit} (he : e.memCanon) : Keeps (exit e : W α) := fun _ _ => he

/-- Nothing follows an exit. -/
theorem keeps_exit_bind {α β : Type} {e : Exit} {f : α → W β} (he : e.memCanon) :
    Keeps ((exit e : W α) >>= f) := fun _ _ => he

theorem keeps_trap_bind {α β : Type} {code cause : Nat} {items : List Word} {f : α → W β} :
    Keeps ((trap code cause items : W α) >>= f) := fun _ _ => trivial

theorem keeps_ite {α : Type} {c : Prop} [Decidable c] {m n : W α} (hm : Keeps m) (hn : Keeps n) :
    Keeps (if c then m else n) := by
  split <;> assumption

theorem keeps_forM {α : Type} {f : α → W PUnit} (hf : ∀ a, Keeps (f a)) (l : List α) : Keeps (l.forM f) := by
  induction l with
  | nil => exact keeps_pure
  | cons a l ih => exact (hf a).bind fun _ => ih

theorem keeps_mapM {α β : Type} {f : α → W β} (hf : ∀ a, Keeps (f a)) (l : List α) : Keeps (l.mapM f) := by
  induction l with
  | nil => exact keeps_pure
  | cons a l ih =>
    rw [List.mapM_cons]
    exact (hf a).bind fun _ => ih.bind fun _ => keeps_pure

/-- The step answers a canonical state; only a word with no running task faults. -/
def Answers (s : State) (r : Host.Outcome State Fault Refusal) : Prop :=
  (∃ t, r = .next t ∧ t.memCanon) ∨ s.current = none ∧ r = .fault .noRunningTask

theorem runFrame_answers {s : State} {control : Bool} {m : W Unit} (hs : s.memCanon) (hm : Keeps m) :
    Answers s (runFrame control m s) := by
  unfold runFrame
  split
  · exact .inr ⟨‹_›, rfl⟩
  · have h1 := hm s hs
    split <;> simp only [*] at h1
    · exact .inl ⟨_, rfl, cycle_memCanon h1⟩
    · exact .inl ⟨_, rfl, cycle_memCanon (finish_memCanon hs h1)⟩

/-- The step goes on, in a canonical state. -/
def GoesOn (r : Host.Outcome State Fault Refusal) : Prop := ∃ t, r = .next t ∧ t.memCanon

theorem event_goesOn {s : State} (hs : s.memCanon) : GoesOn (event s) := ⟨_, rfl, cycle_memCanon hs⟩

variable {s : State}

/-! ### Machine/Operands -/

theorem curKey_keeps : Keeps curKey := keeps_get_bind fun _ _ => keeps_pure

theorem curCore_keeps : Keeps curCore :=
  keeps_get_bind fun _ _ => keeps_pure

theorem curTask_keeps : Keeps curTask := keeps_get_bind fun _ _ => curKey_keeps.bind fun _ => keeps_pure

theorem modCur_keeps {f} : Keeps (modCur f) :=
  curKey_keeps.bind fun _ => keeps_modify fun _ hs => modTask_memCanon hs

theorem trap_keeps {α : Type} {code cause items} : Keeps (trap code cause items : W α) := keeps_exit trivial

theorem checkSched_keeps {n} : Keeps (checkSched n) := by
  unfold checkSched
  refine curTask_keeps.bind fun _ => ?_
  split
  · exact trap_keeps
  · exact keeps_pure

theorem readG_keeps {n} : Keeps (readG n) :=
  keeps_ite keeps_pure (checkSched_keeps.bind fun _ => curTask_keeps.bind fun _ => keeps_pure)

theorem writeG_keeps {n w lat} : Keeps (writeG n w lat) :=
  keeps_ite keeps_pure (checkSched_keeps.bind fun _ => modCur_keeps)

theorem queueFault_keeps {α : Type} {i} : Keeps (queueFault i : W α) := trap_keeps

theorem special_keeps {k} : Keeps (special k) :=
  keeps_get_bind fun _ _ => curTask_keeps.bind fun _ => curKey_keeps.bind fun _ => keeps_pure

theorem popQueue_keeps {i} : Keeps (popQueue i) := by
  unfold popQueue
  refine curTask_keeps.bind fun _ => ?_
  split
  · exact modCur_keeps.bind fun _ => keeps_pure
  · split <;> exact keeps_exit trivial
  · exact keeps_exit trivial
  · exact keeps_get_bind fun _ _ => curKey_keeps.bind fun _ => keeps_ite (keeps_exit_bind trivial)
      (keeps_ite (keeps_exit trivial) queueFault_keeps)

theorem later_keeps {lat dest} : Keeps (later lat dest) := modCur_keeps

theorem pushQueue_keeps {i w lat} : Keeps (pushQueue i w lat) :=
  curTask_keeps.bind fun _ => keeps_ite keeps_trap_bind (keeps_ite modCur_keeps later_keeps)

theorem checkPort_keeps {d} : Keeps (checkPort d) := by
  unfold checkPort
  refine curCore_keeps.bind fun _ => ?_
  split
  · exact trap_keeps
  · exact keeps_pure

theorem readO_keeps {x0} : Keeps (readO x0) := by
  unfold readO
  split
  · exact readG_keeps
  · exact popQueue_keeps
  · exact popQueue_keeps
  · exact special_keeps.bind fun _ => keeps_pure
  · refine checkPort_keeps.bind fun _ => keeps_get_bind fun _ _ => curTask_keeps.bind fun _ => ?_
    split
    · exact keeps_exit trivial
    · exact (keeps_modify fun _ hs => modSpace_memCanon hs).bind fun _ => keeps_pure

theorem writeO_keeps {d w lat} : Keeps (writeO d w lat) := by
  unfold writeO
  split
  · exact writeG_keeps
  · exact pushQueue_keeps
  · exact checkPort_keeps.bind fun _ => keeps_get_bind fun _ h1 => curTask_keeps.bind fun _ =>
      keeps_ite (keeps_exit_bind trivial) (keeps_ite (keeps_set (modSpace_memCanon h1)) later_keeps)
  · exact trap_keeps
  · exact trap_keeps

theorem useWord_keeps {w} : Keeps (useWord w) := keeps_ite (keeps_exit_bind trivial) keeps_pure

theorem flags_keeps {f lat} : Keeps (flags f lat) :=
  keeps_ite modCur_keeps (keeps_ite keeps_pure later_keeps)

theorem address_keeps {base index scale off} : Keeps (address base index scale off) :=
  keeps_ite trap_keeps keeps_pure

theorem elemTy_keeps {t base} : Keeps (elemTy t base) := by
  unfold elemTy
  split
  · split
    · exact keeps_pure
    · exact trap_keeps
  · exact keeps_pure

theorem xlate_keeps {va k keep} (hkeep : keptCanon keep) : Keeps (xlate va k keep) := by
  unfold xlate
  refine keeps_get_bind fun _ h1 => curTask_keeps.bind fun _ => ?_
  split
  · have k1 := snd_memCanon (translate_memCanon h1) ‹_›
    split
    · have k1 := snd_memCanon (translate_memCanon h1) ‹_›
      exact (keeps_set k1).bind fun _ => keeps_pure
    · exact keeps_exit hkeep
    · exact trap_keeps
    · exact trap_keeps
    · exact keeps_exit trivial

theorem checkCapacity_keeps {pa reads} : Keeps (checkCapacity pa reads) :=
  keeps_get_bind fun _ _ => keeps_ite keeps_trap_bind (keeps_ite (keeps_modify fun _ hs =>
    notePeer_memCanon hs) keeps_pure)

theorem xlateSpan_keeps {va n k keep} (hkeep : keptCanon keep) : Keeps (xlateSpan va n k keep) :=
  (xlate_keeps hkeep).bind fun _ => checkCapacity_keeps.bind fun _ =>
    keeps_ite keeps_pure ((xlate_keeps hkeep).bind fun _ => checkCapacity_keeps.bind fun _ => keeps_pure)

theorem versionTrap_keeps {α : Type} {cause sub va ver} : Keeps (versionTrap cause sub va ver : W α) :=
  curTask_keeps.bind fun _ => keeps_exit trivial

theorem checkPlainWrite_keeps {leaf va} : Keeps (checkPlainWrite leaf va) :=
  keeps_ite versionTrap_keeps keeps_pure

theorem checkEntries_keeps {parts} : Keeps (checkEntries parts) := by
  unfold checkEntries
  refine keeps_get_bind fun _ _ => curTask_keeps.bind fun _ => ?_
  split
  · exact trap_keeps
  · exact keeps_pure

theorem checkRace_keeps {leaf} : Keeps (checkRace leaf) :=
  keeps_get_bind fun _ _ => curTask_keeps.bind fun _ => keeps_ite (keeps_ite trap_keeps keeps_pure)
    keeps_pure

theorem awaitPuts_keeps : Keeps awaitPuts :=
  keeps_get_bind fun _ _ => curKey_keeps.bind fun _ => keeps_ite (keeps_exit trivial) keeps_pure

theorem checkBulk_keeps {pa n} : Keeps (checkBulk pa n) := by
  unfold checkBulk
  refine keeps_get_bind fun _ _ => curTask_keeps.bind fun _ => ?_
  split
  · exact trap_keeps
  · exact keeps_pure

theorem checkBulkAt_keeps {va n} : Keeps (checkBulkAt va n) := by
  unfold checkBulkAt
  refine curTask_keeps.bind fun _ => ?_
  split
  · exact trap_keeps
  · exact keeps_pure

theorem checkUnits_keeps {need} : Keeps (checkUnits need) :=
  curTask_keeps.bind fun _ => keeps_ite trap_keeps keeps_pure

theorem buffer_keeps {eff units control} : Keeps (buffer eff units control) :=
  checkUnits_keeps.bind fun _ => modCur_keeps

theorem noteRead_keeps {pa} : Keeps (noteRead pa) := modCur_keeps

theorem noteWrite_keeps {pa} : Keeps (noteWrite pa) :=
  modCur_keeps

theorem nonReplayable_keeps {abortsSection} : Keeps (nonReplayable abortsSection) :=
  keeps_get_bind fun _ _ => curTask_keeps.bind fun _ => keeps_ite (keeps_exit_bind trivial)
    (keeps_ite (keeps_exit_bind trivial) modCur_keeps)

theorem supervisorOnly_keeps {mnemonic num} : Keeps (supervisorOnly mnemonic num) :=
  curTask_keeps.bind fun _ => keeps_ite trap_keeps keeps_pure

theorem closeBlock_keeps {words b} : Keeps (closeBlock words b) :=
  keeps_ite keeps_pure (keeps_exit trivial)

theorem ready_keeps : Keeps ready := by
  unfold ready
  refine curTask_keeps.bind fun _ => keeps_get_bind fun _ _ => curCore_keeps.bind fun _ => ?_
  split
  · split
    · split
      · exact keeps_ite (keeps_exit_bind trivial) (curKey_keeps.bind fun _ => keeps_get_bind fun _ h2 =>
          keeps_exit_bind (modTask_memCanon h2))
      · exact keeps_ite (keeps_exit_bind trivial) (keeps_exit trivial)
    · split
      · exact keeps_ite (keeps_exit_bind trivial) (curKey_keeps.bind fun _ => keeps_get_bind fun _ h2 =>
          keeps_exit_bind (modTask_memCanon h2))
      · exact keeps_ite (keeps_exit_bind trivial) keeps_pure
  · split
    · exact keeps_ite (keeps_exit_bind trivial) (curKey_keeps.bind fun _ => keeps_get_bind fun _ h2 =>
        keeps_exit_bind (modTask_memCanon h2))
    · exact keeps_ite (keeps_exit_bind trivial) keeps_pure

theorem prelude_keeps {control} : Keeps (prelude control) := by
  unfold prelude
  refine ready_keeps.bind fun _ => keeps_get_bind fun _ _ => curTask_keeps.bind fun _ => ?_
  split
  · exact keeps_ite keeps_trap_bind (keeps_exit trivial)
  · exact keeps_ite keeps_trap_bind (keeps_ite (keeps_exit_bind trivial)
      (keeps_ite closeBlock_keeps keeps_pure))

theorem counted_keeps {t} : Keeps (counted t) :=
  curKey_keeps.bind fun _ => keeps_modify fun _ hs => countWord_memCanon hs

theorem retire_keeps {control c} : Keeps (retire control c) := by
  unfold retire
  split
  · exact keeps_pure
  · exact keeps_get_bind fun _ h1 => curKey_keeps.bind fun _ =>
      (keeps_set (stepLate_memCanon (setTask_memCanon h1))).bind fun _ => counted_keeps

theorem holdWord_keeps {w control} : Keeps (holdWord w control) :=
  keeps_get_bind fun _ _ => modCur_keeps.bind fun _ => keeps_pure

theorem runWord_answers {control} {m : W Ctl} (hs : s.memCanon) (hm : Keeps m) :
    Answers s (runWord control m s) :=
  runFrame_answers hs (prelude_keeps.bind fun _ => hm.bind fun _ => retire_keeps)

theorem plain_answers {m : W Unit} (hs : s.memCanon) (hm : Keeps m) : Answers s (plain m s) :=
  runWord_answers hs (hm.bind fun _ => keeps_pure)

/-! ### Machine/Control -/

theorem checkTarget_keeps {t} : Keeps (checkTarget t) := keeps_ite trap_keeps keeps_pure

theorem brTarget_keeps {off} : Keeps (brTarget off) :=
  curTask_keeps.bind fun _ => checkTarget_keeps

theorem branchTo_keeps {off} : Keeps (branchTo off) :=
  brTarget_keeps.bind fun _ => modCur_keeps.bind fun _ => keeps_pure

theorem condBranch_answers {x taken} (hs : s.memCanon) : Answers s (condBranch x taken s) :=
  runWord_answers hs (readO_keeps.bind fun _ => readO_keeps.bind fun _ => useWord_keeps.bind fun _ =>
    useWord_keeps.bind fun _ => keeps_ite branchTo_keeps keeps_pure)

theorem execBeq_answers {x} (hs : s.memCanon) : Answers s (execBeq x s) := condBranch_answers hs

theorem execBne_answers {x} (hs : s.memCanon) : Answers s (execBne x s) :=
  condBranch_answers hs

theorem execBlt_answers {x} (hs : s.memCanon) : Answers s (execBlt x s) := condBranch_answers hs

theorem execBge_answers {x} (hs : s.memCanon) : Answers s (execBge x s) :=
  condBranch_answers hs

theorem execBltn_answers {x} (hs : s.memCanon) : Answers s (execBltn x s) := condBranch_answers hs

theorem execBgen_answers {x} (hs : s.memCanon) : Answers s (execBgen x s) :=
  condBranch_answers hs

theorem execJmp_answers {_hint off} (hs : s.memCanon) : Answers s (execJmp _hint off s) :=
  runWord_answers hs branchTo_keeps

theorem execJal_answers {d _hint off} (hs : s.memCanon) : Answers s (execJal d _hint off s) :=
  runWord_answers hs (brTarget_keeps.bind fun _ => curTask_keeps.bind fun _ =>
    writeO_keeps.bind fun _ => keeps_pure)

theorem execJr_answers {d a} (hs : s.memCanon) : Answers s (execJr d a s) :=
  runWord_answers hs (readO_keeps.bind fun _ => useWord_keeps.bind fun _ =>
    checkTarget_keeps.bind fun _ => curTask_keeps.bind fun _ => writeO_keeps.bind fun _ => keeps_pure)

theorem openLoop_keeps {cnt n} : Keeps (openLoop cnt n) := by
  unfold openLoop
  refine curTask_keeps.bind fun _ => ?_
  split
  · exact checkTarget_keeps.bind fun _ => keeps_pure
  · split
    · exact trap_keeps
    · split
      · exact keeps_ite keeps_trap_bind (modCur_keeps.bind fun _ => keeps_pure)
      · exact modCur_keeps.bind fun _ => keeps_pure

theorem execLoopReg_answers {a n} (hs : s.memCanon) : Answers s (execLoopReg a n s) :=
  runWord_answers hs (readO_keeps.bind fun _ => useWord_keeps.bind fun _ => openLoop_keeps)

theorem execLoopImm_answers {count n} (hs : s.memCanon) : Answers s (execLoopImm count n s) :=
  runWord_answers hs openLoop_keeps

theorem execLoopBodyEnd_goesOn (hs : s.memCanon) : GoesOn (execLoopBodyEnd s) := by
  unfold execLoopBodyEnd
  split
  · exact event_goesOn hs
  · exact event_goesOn (ite_memCanon (modTask_memCanon hs) hs)

theorem execBlk_answers {sig} (hs : s.memCanon) : Answers s (execBlk sig s) := by
  unfold execBlk
  refine runFrame_answers hs <| ready_keeps.bind fun _ => curTask_keeps.bind fun _ => ?_
  split
  · exact closeBlock_keeps.bind fun _ => curTask_keeps.bind fun _ =>
      keeps_ite (closeBlock_keeps.bind fun _ => modCur_keeps.bind fun _ => curKey_keeps.bind fun _ =>
      (keeps_modify fun _ hs => stepLate_memCanon hs).bind fun _ => counted_keeps)
      (modCur_keeps.bind fun _ => curKey_keeps.bind fun _ => (keeps_modify fun _ hs =>
      stepLate_memCanon hs).bind fun _ => counted_keeps)
  · exact curTask_keeps.bind fun _ => keeps_ite (closeBlock_keeps.bind fun _ => modCur_keeps.bind fun _ =>
      curKey_keeps.bind fun _ => (keeps_modify fun _ hs => stepLate_memCanon hs).bind fun _ =>
      counted_keeps) (modCur_keeps.bind fun _ => curKey_keeps.bind fun _ => (keeps_modify fun _ hs =>
      stepLate_memCanon hs).bind fun _ => counted_keeps)

theorem execNop_answers (hs : s.memCanon) : Answers s (execNop s) := plain_answers hs keeps_pure

/-! ### Machine/Scratch -/

theorem scratchRead_keeps {addr n} : Keeps (scratchRead addr n) := by
  unfold scratchRead
  refine keeps_get_bind fun _ h1 => curTask_keeps.bind fun _ => ?_
  split
  · have k1 := snd2_memCanon (spadSpaceRead_memCanon h1) ‹_›
    exact keeps_ite (keeps_exit_bind trivial) ((keeps_set k1).bind fun _ => keeps_pure)

theorem scratchWrite_keeps {addr bs tag} : Keeps (scratchWrite addr bs tag) := by
  unfold scratchWrite
  refine keeps_get_bind fun _ _ => curTask_keeps.bind fun _ => ?_
  split
  · exact keeps_ite (keeps_exit_bind trivial) (keeps_exit_bind trivial)
  · exact keeps_ite (keeps_exit_bind trivial) (keeps_ite (curKey_keeps.bind fun _ =>
      keeps_ite (keeps_exit_bind trivial) (nonReplayable_keeps.bind fun _ =>
      keeps_ite (nonReplayable_keeps.bind fun _ => curKey_keeps.bind fun _ => (keeps_modify fun _ hs =>
      spadSpaceWrite_memCanon (foldl_memCanon (fun _ _ hs => (logLine_memCanon hs)) hs)).bind fun _ =>
      keeps_ite modCur_keeps keeps_pure) (curKey_keeps.bind fun _ => (keeps_modify fun _ hs =>
      spadSpaceWrite_memCanon (foldl_memCanon (fun _ _ hs => (logLine_memCanon hs)) hs)).bind fun _ =>
      keeps_ite modCur_keeps keeps_pure))) (keeps_ite (nonReplayable_keeps.bind fun _ =>
      curKey_keeps.bind fun _ => (keeps_modify fun _ hs =>
      spadSpaceWrite_memCanon (foldl_memCanon (fun _ _ hs => (logLine_memCanon hs)) hs)).bind fun _ =>
      keeps_ite modCur_keeps keeps_pure) (curKey_keeps.bind fun _ => (keeps_modify fun _ hs =>
      spadSpaceWrite_memCanon (foldl_memCanon (fun _ _ hs => (logLine_memCanon hs)) hs)).bind fun _ =>
      keeps_ite modCur_keeps keeps_pure)))

theorem memAddress_keeps {base index scale off} : Keeps (memAddress base index scale off) :=
  readO_keeps.bind fun _ => readO_keeps.bind fun _ => useWord_keeps.bind fun _ =>
    useWord_keeps.bind fun _ => address_keeps.bind fun _ => keeps_pure

theorem execLd_answers {x} (hs : s.memCanon) : Answers s (execLd x s) :=
  plain_answers hs (memAddress_keeps.bind fun _ => elemTy_keeps.bind fun _ =>
    scratchRead_keeps.bind fun _ => writeO_keeps)

theorem execSt_answers {x} (hs : s.memCanon) : Answers s (execSt x s) :=
  plain_answers hs (readO_keeps.bind fun _ => memAddress_keeps.bind fun _ =>
    elemTy_keeps.bind fun _ => scratchWrite_keeps.bind fun _ => flags_keeps)

theorem execLdp_answers {x} (hs : s.memCanon) : Answers s (execLdp x s) :=
  plain_answers hs (memAddress_keeps.bind fun _ => keeps_get_bind fun _ _ =>
    curTask_keeps.bind fun _ => scratchRead_keeps.bind fun _ => writeG_keeps.bind fun _ => writeG_keeps)

theorem execStp_answers {x} (hs : s.memCanon) : Answers s (execStp x s) :=
  plain_answers hs (readG_keeps.bind fun _ => readG_keeps.bind fun _ =>
    memAddress_keeps.bind fun _ => scratchWrite_keeps)

theorem execLtag_answers {d a} (hs : s.memCanon) : Answers s (execLtag d a s) :=
  plain_answers hs (readO_keeps.bind fun _ => keeps_get_bind fun _ _ => curTask_keeps.bind fun _ =>
    writeO_keeps)

theorem execTset_answers {a b} (hs : s.memCanon) : Answers s (execTset a b s) :=
  plain_answers hs (readO_keeps.bind fun _ => useWord_keeps.bind fun _ => readO_keeps.bind fun _ =>
    keeps_ite keeps_trap_bind (keeps_ite keeps_trap_bind (keeps_get_bind fun _ h1 =>
    curTask_keeps.bind fun _ => keeps_set (setTag_memCanon h1))))

theorem execTclr_answers {a} (hs : s.memCanon) : Answers s (execTclr a s) :=
  plain_answers hs (readO_keeps.bind fun _ => useWord_keeps.bind fun _ =>
    keeps_ite keeps_trap_bind (keeps_get_bind fun _ h1 => curTask_keeps.bind fun _ =>
    keeps_ite (keeps_exit_bind trivial) (keeps_set (modSpace_memCanon h1))))

/-! ### Machine/Global -/

theorem globalAddress_keeps {base index scale off} : Keeps (globalAddress base index scale off) :=
  readG_keeps.bind fun _ => useWord_keeps.bind fun _ => readG_keeps.bind fun _ =>
    useWord_keeps.bind fun _ => address_keeps.bind fun _ => keeps_pure

theorem track_keeps {pa} : Keeps (track pa) := by
  unfold track
  refine curTask_keeps.bind fun _ => ?_
  split
  · exact keeps_ite keeps_pure (keeps_ite (keeps_exit_bind trivial) modCur_keeps)
  · exact keeps_pure

theorem roomFor_keeps {q} : Keeps (roomFor q) :=
  curTask_keeps.bind fun _ => keeps_ite queueFault_keeps keeps_pure

theorem issueLoad_keeps {kind q t va parts extra} : Keeps (issueLoad kind q t va parts extra) := by
  unfold issueLoad
  refine keeps_get_bind fun _ h1 => (keeps_set ?_).bind fun _ => modCur_keeps.bind fun _ => keeps_pure
  exact h1.of_mem rfl rfl

theorem pushHere_keeps {f} : Keeps (pushHere f) :=
  curKey_keeps.bind fun _ => keeps_modify fun _ hs => push_memCanon hs

theorem spinCheck_keeps {parts} : Keeps (spinCheck parts) :=
  keeps_get_bind fun _ _ => curTask_keeps.bind fun _ => keeps_ite (keeps_exit trivial) keeps_pure

theorem rawSpinCheck_keeps {parts} : Keeps (rawSpinCheck parts) :=
  keeps_get_bind fun _ _ => curTask_keeps.bind fun _ => keeps_ite (keeps_exit trivial) keeps_pure

theorem execLdg_answers {x} (hs : s.memCanon) : Answers s (execLdg x s) := by
  unfold execLdg
  refine plain_answers hs <| globalAddress_keeps.bind fun _ => ?_
  split
  · refine elemTy_keeps.bind fun _ => roomFor_keeps.bind fun _ => (xlateSpan_keeps (keep := none)
      trivial).bind fun _ => (keeps_forM (fun _ => checkRace_keeps) _).bind fun _ =>
      awaitPuts_keeps.bind fun _ => (keeps_forM (fun _ => checkBulk_keeps) _).bind fun _ =>
      spinCheck_keeps.bind fun _ => Keeps.bind ?_ fun _ => ?_
    · refine keeps_forM (fun _ => ?_) _
      exact noteRead_keeps
    · refine Keeps.bind ?_ fun _ => ?_
      · refine keeps_forM (fun _ => ?_) _
        exact track_keeps
      · exact issueLoad_keeps.bind fun _ => pushHere_keeps

theorem execLoadWordArrival_goesOn {core slot id} (hs : s.memCanon) :
    GoesOn (execLoadWordArrival core slot id s) := by
  unfold execLoadWordArrival
  refine event_goesOn ?_
  split
  · exact ite_memCanon (arrive_memCanon hs) hs
  · exact hs

theorem execSpinWake_goesOn {core slot} (hs : s.memCanon) : GoesOn (execSpinWake core slot s) := by
  unfold execSpinWake
  refine event_goesOn ?_
  split
  · exact wake_memCanon hs
  · split
    · exact push_memCanon hs
    · exact hs

theorem execSpinTimeout_goesOn {core slot} (hs : s.memCanon) : GoesOn (execSpinTimeout core slot s) := by
  unfold execSpinTimeout
  refine event_goesOn ?_
  split
  · exact wake_memCanon (modTask_memCanon (hs.of_mem rfl rfl))
  · split
    · exact ite_memCanon (push_memCanon (modTask_memCanon hs)) hs
    · exact spinSaved_memCanon hs

theorem storePieces_keeps {l bs tag} : Keeps (storePieces l bs tag) := by
  unfold storePieces
  split
  · exact buffer_keeps
  · exact buffer_keeps.bind fun _ => buffer_keeps
  · exact keeps_pure

theorem execStg_answers {x} (hs : s.memCanon) : Answers s (execStg x s) := by
  unfold execStg
  refine plain_answers hs <| readG_keeps.bind fun _ => globalAddress_keeps.bind fun _ => ?_
  split
  · refine elemTy_keeps.bind fun _ => ?_
    split
    · refine (xlateSpan_keeps (keep := none) trivial).bind fun _ => (keeps_forM (fun _ =>
        checkPlainWrite_keeps) _).bind fun _ => checkEntries_keeps.bind fun _ => Keeps.bind ?_ fun _ => ?_
      · refine keeps_forM (fun _ => ?_) _
        exact noteWrite_keeps
      · exact storePieces_keeps.bind fun _ => flags_keeps

theorem atomicFault_keeps {α : Type} {cause} : Keeps (atomicFault cause : W α) := trap_keeps

theorem detLevel_keeps : Keeps detLevel :=
  keeps_get_bind fun _ _ => curTask_keeps.bind fun _ => keeps_pure

theorem readInOrder_keeps {parts} : Keeps (readInOrder parts) := by
  unfold readInOrder
  refine curTask_keeps.bind fun _ => ?_
  split
  · exact keeps_exit_bind trivial
  · exact keeps_get_bind fun _ _ => keeps_ite (keeps_exit trivial) keeps_pure

theorem waitValue_answers {x want} (hs : s.memCanon) : Answers s (waitValue x want s) := by
  unfold waitValue
  refine plain_answers hs <| readG_keeps.bind fun _ => useWord_keeps.bind fun _ =>
    readG_keeps.bind fun _ => readG_keeps.bind fun _ => ?_
  split
  · exact keeps_ite keeps_trap_bind (detLevel_keeps.bind fun _ =>
      keeps_ite keeps_trap_bind (roomFor_keeps.bind fun _ => (xlateSpan_keeps (keep := none)
      trivial).bind fun _ => readInOrder_keeps.bind fun _ => noteRead_keeps.bind fun _ =>
      keeps_get_bind fun _ h1 => (keeps_set (seeParts_memCanon h1)).bind fun _ =>
      keeps_ite pushQueue_keeps (keeps_exit trivial)))
  · exact keeps_ite keeps_trap_bind (detLevel_keeps.bind fun _ =>
      keeps_ite keeps_trap_bind ((xlateSpan_keeps (keep := none) trivial).bind fun _ =>
      readInOrder_keeps.bind fun _ => noteRead_keeps.bind fun _ => keeps_get_bind fun _ h1 =>
      (keeps_set (seeParts_memCanon h1)).bind fun _ => keeps_ite keeps_pure (keeps_exit trivial)))

theorem execWtvWake_goesOn {core slot} (hs : s.memCanon) : GoesOn (execWtvWake core slot s) := by
  unfold execWtvWake
  refine event_goesOn ?_
  split
  · exact wake_memCanon hs
  · split
    · exact push_memCanon hs
    · exact hs

theorem execPref_answers {base index scale off} (hs : s.memCanon) :
    Answers s (execPref base index scale off s) := by
  unfold execPref
  refine plain_answers hs <| readG_keeps.bind fun _ => useWord_keeps.bind fun _ =>
    readG_keeps.bind fun _ => useWord_keeps.bind fun _ => keeps_get_bind fun _ h1 =>
    curTask_keeps.bind fun _ => ?_
  split
  · split
    · have k1 := snd_memCanon (translate_memCanon h1) ‹_›
      exact keeps_set k1
    · exact keeps_pure
  · exact keeps_pure

/-! ### Machine/Versions -/

theorem execVersionRequest_goesOn {core slot id} (hs : s.memCanon) :
    GoesOn (execVersionRequest core slot id s) := by
  unfold execVersionRequest
  refine event_goesOn ?_
  split
  · exact hs
  · split
    · split
      · exact push_memCanon hs
      · dsimp only
        split
        · exact setWait_memCanon (modTask_memCanon (modCtx_memCanon hs))
        · exact answer_memCanon hs
    · exact hs

theorem execVersionWake_goesOn {core slot id} (hs : s.memCanon) :
    GoesOn (execVersionWake core slot id s) := by
  unfold execVersionWake
  refine event_goesOn ?_
  split
  · exact ite_memCanon (wake_memCanon hs) (push_memCanon hs)
  · exact wakeSaved_memCanon hs

theorem execVersionReclaim_goesOn {ctx line} (hs : s.memCanon) :
    GoesOn (execVersionReclaim ctx line s) :=
  event_goesOn (ite_memCanon hs (recsFreed_memCanon (modCtx_memCanon (writeChain_memCanon hs))))

theorem regionFault_keeps {α : Type} : Keeps (regionFault : W α) := trap_keeps

theorem versionLine_keeps {leaf va n} : Keeps (versionLine leaf va n) :=
  keeps_get_bind fun _ _ => curTask_keeps.bind fun _ => curTask_keeps.bind fun _ =>
    keeps_ite keeps_trap_bind keeps_pure

theorem versionLoad_answers {eq q base ver t off} (hs : s.memCanon) :
    Answers s (versionLoad eq q base ver t off s) :=
  plain_answers hs (readG_keeps.bind fun _ => useWord_keeps.bind fun _ => readG_keeps.bind fun _ =>
    address_keeps.bind fun _ => elemTy_keeps.bind fun _ => roomFor_keeps.bind fun _ =>
    (xlateSpan_keeps (keep := none) trivial).bind fun _ => versionLine_keeps.bind fun _ =>
    curTask_keeps.bind fun _ => keeps_ite (versionTrap_keeps.bind fun _ => noteRead_keeps.bind fun _ =>
    track_keeps.bind fun _ => issueLoad_keeps.bind fun _ => pushHere_keeps) (noteRead_keeps.bind fun _ =>
    track_keeps.bind fun _ => issueLoad_keeps.bind fun _ => pushHere_keeps))

theorem versionStore_answers {d base t off e} (hs : s.memCanon) :
    Answers s (versionStore d base t off e s) := by
  unfold versionStore
  refine plain_answers hs <| readG_keeps.bind fun _ => readG_keeps.bind fun _ =>
    useWord_keeps.bind fun _ => Keeps.bind ?_ fun _ => ?_
  · split
    · exact keeps_pure
    · exact readG_keeps.bind fun _ => keeps_pure
  · exact address_keeps.bind fun _ => elemTy_keeps.bind fun _ => (xlateSpan_keeps (keep := none)
      trivial).bind fun _ => versionLine_keeps.bind fun _ => curTask_keeps.bind fun _ =>
      keeps_ite (versionTrap_keeps.bind fun _ => noteWrite_keeps.bind fun _ => buffer_keeps.bind fun _ =>
      flags_keeps) (noteWrite_keeps.bind fun _ => buffer_keeps.bind fun _ => flags_keeps)

theorem execStv_answers {d base t off} (hs : s.memCanon) : Answers s (execStv d base t off s) :=
  versionStore_answers hs

theorem execStvAt_answers {d base e t off} (hs : s.memCanon) : Answers s (execStvAt d base e t off s) :=
  versionStore_answers hs

theorem regionOperand_keeps {w} : Keeps (regionOperand w) :=
  keeps_get_bind fun _ _ => curTask_keeps.bind fun _ => keeps_ite keeps_trap_bind keeps_pure

theorem execVfloor_answers {a b} (hs : s.memCanon) : Answers s (execVfloor a b s) :=
  plain_answers hs (readG_keeps.bind fun _ => readG_keeps.bind fun _ =>
    regionOperand_keeps.bind fun _ => buffer_keeps)

theorem execVclose_answers {a} (hs : s.memCanon) : Answers s (execVclose a s) :=
  plain_answers hs (readG_keeps.bind fun _ => regionOperand_keeps.bind fun _ => buffer_keeps)

/-! ### Machine/Bulk -/

theorem issueGetPut_answers {isPut x} (hs : s.memCanon) : Answers s (issueGetPut isPut x s) :=
  plain_answers hs (readG_keeps.bind fun _ => useWord_keeps.bind fun _ => readG_keeps.bind fun _ =>
    useWord_keeps.bind fun _ => readG_keeps.bind fun _ => useWord_keeps.bind fun _ =>
    readG_keeps.bind fun _ =>
    keeps_ite keeps_trap_bind (keeps_ite keeps_trap_bind (keeps_get_bind fun _ _ =>
    keeps_ite (keeps_exit_bind trivial) (curTask_keeps.bind fun _ => keeps_ite (keeps_exit_bind trivial)
    (curKey_keeps.bind fun _ => keeps_ite (awaitPuts_keeps.bind fun _ => (keeps_forM (fun _ =>
    checkBulk_keeps) _).bind fun _ => (keeps_forM (fun _ => checkBulkAt_keeps) _).bind fun _ =>
    modCur_keeps.bind fun _ => keeps_modify fun _ hs =>
    ite_memCanon (gpKick_memCanon (modCore_memCanon hs)) (modCore_memCanon hs)) (modCur_keeps.bind fun _ =>
    keeps_modify fun _ hs => ite_memCanon (gpKick_memCanon (modCore_memCanon hs))
    (modCore_memCanon hs)))))))

theorem execGetPutElementLand_goesOn {core i} (hs : s.memCanon) :
    GoesOn (execGetPutElementLand core i s) := by
  unfold execGetPutElementLand
  refine event_goesOn ?_
  split
  · exact hs
  · split
    · exact push_memCanon hs
    · split
      · exact gpList_memCanon hs
      · split
        · have k1 := snd_memCanon (gpIssue_memCanon hs) ‹_›
          exact ite_memCanon (push_memCanon (modCore_memCanon k1))
            (judgeEntries_memCanon (ite_memCanon (modCore_memCanon (ite_memCanon (moveElement_memCanon k1)
            k1)) (ite_memCanon (gpFault_memCanon (modCore_memCanon (ite_memCanon (moveElement_memCanon k1)
            k1)))
            (ite_memCanon (gpKick_memCanon (counterDown_memCanon (modCore_memCanon (modCore_memCanon
            (ite_memCanon (moveElement_memCanon k1) k1)))))
            (modCore_memCanon (ite_memCanon (moveElement_memCanon k1) k1))))))

theorem execCcset_answers {c a} (hs : s.memCanon) : Answers s (execCcset c a s) :=
  plain_answers hs (readG_keeps.bind fun _ => modCur_keeps)

theorem execCcwait_answers {c} (hs : s.memCanon) : Answers s (execCcwait c s) :=
  plain_answers hs (keeps_get_bind fun _ _ => curKey_keeps.bind fun _ =>
    keeps_ite (keeps_ite (keeps_exit trivial) trap_keeps) keeps_pure)

/-! ### Machine/Owner -/

theorem execMergeComplete_goesOn {core} (hs : s.memCanon) : GoesOn (execMergeComplete core s) := by
  unfold execMergeComplete
  refine event_goesOn ?_
  split
  · exact ite_memCanon (releaseHeld_memCanon hs) (push_memCanon (askHost_memCanon hs))
  · extract_lets k t saves
    split
    extract_lets l holds owed
    refine ite_memCanon (push_memCanon (askHost_memCanon hs)) ?_
    split
    have h1 := snd2_memCanon (applyEntries_memCanon hs) ‹_›
    refine ite_memCanon (trySave_memCanon (endMerge_memCanon (storeCursors_memCanon h1))) ?_
    extract_lets s2 s3 s4
    have h3 : s3.memCanon := modSpace_memCanon (modCc_memCanon h1)
    clear_value s3
    refine endMerge_memCanon ?_
    unfold s4
    split
    · exact modTask_memCanon (completeWord_memCanon h3)
    · exact h3

/-! ### Machine/Sync -/

theorem atomicTarget_keeps {p n returning} : Keeps (atomicTarget p n returning) :=
  keeps_ite keeps_trap_bind ((xlate_keeps (keep := none) trivial).bind fun _ =>
    keeps_ite ((xlate_keeps (keep := none) trivial).bind fun _ => keeps_get_bind fun _ _ =>
    keeps_ite keeps_trap_bind (detLevel_keeps.bind fun _ =>
    keeps_ite keeps_trap_bind (checkPlainWrite_keeps.bind fun _ => keeps_pure))) (keeps_get_bind fun _ _ =>
    keeps_ite keeps_trap_bind (detLevel_keeps.bind fun _ =>
    keeps_ite keeps_trap_bind (checkPlainWrite_keeps.bind fun _ => keeps_pure))))

theorem newUpdate_keeps {a pa kind t b c tag} : Keeps (newUpdate a pa kind t b c tag) :=
  curTask_keeps.bind fun _ => curCore_keeps.bind fun _ => keeps_pure

theorem returningAtomic_answers {f x} (hs : s.memCanon) : Answers s (returningAtomic f x s) :=
  plain_answers hs (readG_keeps.bind fun _ => useWord_keeps.bind fun _ => readG_keeps.bind fun _ =>
    readG_keeps.bind fun _ => atomicTarget_keeps.bind fun _ => noteWrite_keeps.bind fun _ =>
    nonReplayable_keeps.bind fun _ => keeps_get_bind fun _ _ => curKey_keeps.bind fun _ =>
    keeps_ite (keeps_exit_bind trivial) (issueLoad_keeps.bind fun _ => newUpdate_keeps.bind fun _ =>
    curKey_keeps.bind fun _ => curTask_keeps.bind fun _ => keeps_modify fun _ hs => emit_memCanon hs))

theorem bufferedAtomic_answers {f x} (hs : s.memCanon) : Answers s (bufferedAtomic f x s) :=
  plain_answers hs (readG_keeps.bind fun _ => useWord_keeps.bind fun _ => readG_keeps.bind fun _ =>
    atomicTarget_keeps.bind fun _ => noteWrite_keeps.bind fun _ => newUpdate_keeps.bind fun _ =>
    buffer_keeps)

theorem execLogp_answers {x} (hs : s.memCanon) : Answers s (execLogp x s) :=
  plain_answers hs (readG_keeps.bind fun _ => readG_keeps.bind fun _ => readG_keeps.bind fun _ =>
    keeps_ite keeps_trap_bind buffer_keeps)

theorem execMrg_answers {d} (hs : s.memCanon) : Answers s (execMrg d s) :=
  runWord_answers hs (checkSched_keeps.bind fun _ => (keeps_modify fun _ hs =>
    push_memCanon (modCore_memCanon hs)).bind fun _ => holdWord_keeps)

theorem joinTarget_keeps {p} : Keeps (joinTarget p) := useWord_keeps.bind fun _ => atomicTarget_keeps

theorem execJset_answers {x} (hs : s.memCanon) : Answers s (execJset x s) :=
  plain_answers hs (readG_keeps.bind fun _ => joinTarget_keeps.bind fun _ =>
    readG_keeps.bind fun _ => readG_keeps.bind fun _ =>
    keeps_ite keeps_trap_bind (newUpdate_keeps.bind fun _ => buffer_keeps))

theorem execArr_answers {a} (hs : s.memCanon) : Answers s (execArr a s) :=
  plain_answers hs (readG_keeps.bind fun _ => joinTarget_keeps.bind fun _ =>
    newUpdate_keeps.bind fun _ => buffer_keeps)

theorem fence_answers {scope} (hs : s.memCanon) : Answers s (fence scope s) :=
  plain_answers hs (keeps_get_bind fun _ _ => curKey_keeps.bind fun _ =>
    keeps_ite (keeps_exit trivial) keeps_pure)

theorem execKeyPassApply_goesOn {ctx region holder} (hs : s.memCanon) :
    GoesOn (execKeyPassApply ctx region holder s) := by
  unfold execKeyPassApply
  refine event_goesOn ?_
  split
  · exact push_memCanon hs
  · have k1 := takeSvc_memCanon hs _ ‹_›
    exact termDone_memCanon (keyPass_memCanon k1)
  · have k1 := takeSvc_memCanon hs _ ‹_›
    exact keyPass_memCanon k1

theorem execKpass_answers {a b} (hs : s.memCanon) : Answers s (execKpass a b s) :=
  plain_answers hs (readG_keeps.bind fun _ => readG_keeps.bind fun _ =>
    keeps_ite keeps_trap_bind (keeps_get_bind fun _ _ => curTask_keeps.bind fun _ =>
    keeps_ite keeps_trap_bind (keeps_ite keeps_trap_bind (keeps_ite keeps_trap_bind buffer_keeps))))

theorem execKqry_answers {d a} (hs : s.memCanon) : Answers s (execKqry d a s) :=
  plain_answers hs (readG_keeps.bind fun _ => keeps_get_bind fun _ _ => curTask_keeps.bind fun _ =>
    writeG_keeps)

theorem execLkel_answers {a b} (hs : s.memCanon) : Answers s (execLkel a b s) := by
  unfold execLkel
  refine runWord_answers hs <| readG_keeps.bind fun _ => useWord_keeps.bind fun _ =>
    readG_keeps.bind fun _ => useWord_keeps.bind fun _ => curTask_keeps.bind fun _ => ?_
  split
  · exact keeps_exit_bind trivial
  · refine checkTarget_keeps.bind fun _ => ?_
    dsimp only
    split
    · exact keeps_trap_bind
    · refine (xlateSpan_keeps (keep := none) trivial).bind fun _ => (keeps_forM (fun _ => checkRace_keeps)
        _).bind fun _ => readInOrder_keeps.bind fun _ => Keeps.bind ?_ fun _ => ?_
      · refine keeps_forM (fun _ => ?_) _
        exact noteRead_keeps
      · exact keeps_get_bind fun _ _ => curTask_keeps.bind fun _ => keeps_ite (modCur_keeps.bind fun _ =>
          keeps_pure) (modCur_keeps.bind fun _ => keeps_pure)

theorem execLkex_answers (hs : s.memCanon) : Answers s (execLkex s) := plain_answers hs modCur_keeps

theorem execLkab_answers {a} (hs : s.memCanon) : Answers s (execLkab a s) :=
  plain_answers hs (readG_keeps.bind fun _ => curTask_keeps.bind fun _ =>
    keeps_ite (keeps_exit trivial) keeps_pure)

theorem announce_keeps {op} : Keeps (announce op) :=
  curKey_keeps.bind fun _ => keeps_modify fun _ hs => push_memCanon (hs.of_mem rfl rfl)

theorem issueSc_keeps {t va pa} : Keeps (issueSc t va pa) := by
  unfold issueSc
  refine keeps_get_bind fun _ h1 => (keeps_set ?_).bind fun _ => modCur_keeps.bind fun _ => keeps_pure
  exact h1.of_mem rfl rfl

theorem checkKeyNow_keeps {leaf} : Keeps (checkKeyNow leaf) :=
  keeps_get_bind fun _ _ => curTask_keeps.bind fun _ => keeps_ite trap_keeps keeps_pure

theorem execScst_answers {x} (hs : s.memCanon) : Answers s (execScst x s) :=
  plain_answers hs (readG_keeps.bind fun _ => globalAddress_keeps.bind fun _ =>
    atomicTarget_keeps.bind fun _ => checkKeyNow_keeps.bind fun _ => checkEntries_keeps.bind fun _ =>
    noteWrite_keeps.bind fun _ => nonReplayable_keeps.bind fun _ => buffer_keeps.bind fun _ =>
    issueSc_keeps.bind fun _ => announce_keeps.bind fun _ => flags_keeps)

theorem execScld_answers {x} (hs : s.memCanon) : Answers s (execScld x s) :=
  plain_answers hs (globalAddress_keeps.bind fun _ =>
    keeps_ite keeps_trap_bind (roomFor_keeps.bind fun _ => (xlate_keeps (keep := none)
    trivial).bind fun _ => keeps_get_bind fun _ _ =>
    keeps_ite keeps_trap_bind (checkPlainWrite_keeps.bind fun _ => checkRace_keeps.bind fun _ =>
    awaitPuts_keeps.bind fun _ => checkBulk_keeps.bind fun _ => rawSpinCheck_keeps.bind fun _ =>
    noteRead_keeps.bind fun _ => nonReplayable_keeps.bind fun _ => issueLoad_keeps.bind fun _ =>
    announce_keeps)))

theorem scAtomic_answers {f x} (hs : s.memCanon) : Answers s (scAtomic f x s) :=
  plain_answers hs (readG_keeps.bind fun _ => useWord_keeps.bind fun _ => readG_keeps.bind fun _ =>
    readG_keeps.bind fun _ => atomicTarget_keeps.bind fun _ => noteWrite_keeps.bind fun _ =>
    nonReplayable_keeps.bind fun _ => issueLoad_keeps.bind fun _ => newUpdate_keeps.bind fun _ =>
    announce_keeps)

theorem execWaggleWindow_goesOn (hs : s.memCanon) : GoesOn (execWaggleWindow s) :=
  event_goesOn (ite_memCanon hs (ite_memCanon (push_memCanon hs)
    (ite_memCanon (foldl_memCanon (fun _ _ hs => (push_memCanon hs)) (hs.of_mem rfl rfl))
    (push_memCanon (foldl_memCanon (fun _ _ hs => (push_memCanon hs)) (hs.of_mem rfl rfl))))))

theorem execScEffect_goesOn (hs : s.memCanon) : GoesOn (execScEffect s) := by
  unfold execScEffect
  refine event_goesOn ?_
  split
  · exact hs
  · dsimp only
    split
    · exact push_memCanon hs
    · split
      · exact push_memCanon (askHost_memCanon hs)
      · split
        · exact deliver_memCanon (writeSeen_memCanon (hs.of_mem rfl rfl))
        · split
          · exact hs.of_mem rfl rfl
          · refine deliver_memCanon ?_
            split
            · exact modTask_memCanon (hs.of_mem rfl rfl)
            · exact hs.of_mem rfl rfl
        · split
          · exact judgeEntries_memCanon (deliver_memCanon (amoAt_memCanon (hs.of_mem rfl rfl)))
          · exact hs.of_mem rfl rfl

/-! ### Machine/Commit -/

theorem execHorizonWindow_goesOn {ctx group} (hs : s.memCanon) :
    GoesOn (execHorizonWindow ctx group s) := by
  unfold execHorizonWindow
  refine event_goesOn ?_
  split
  · split
    · exact push_memCanon hs
    · refine State.memCanon.of_mem ?_ rfl rfl
      exact writeMem_memCanon (modGroup_memCanon hs) _ _ _
  · split
    · exact hs
    · exact push_memCanon (hs.of_mem rfl rfl)

theorem execOrderedSignatureCheck_goesOn {core slot} (hs : s.memCanon) :
    GoesOn (execOrderedSignatureCheck core slot s) := by
  unfold execOrderedSignatureCheck
  refine event_goesOn ?_
  split
  · exact hs
  · split
    · exact hs
    · exact commitTask_memCanon (modTask_memCanon (foldl_memCanon (fun _ _ hs =>
        (fill_memCanon (redeliver_memCanon (killSaved_memCanon hs)))) (foldl_memCanon (fun _ _ hs =>
        (orderedAbort_memCanon hs)) hs)))

theorem execVersionRecordsFreed_goesOn {ctx n} (hs : s.memCanon) :
    GoesOn (execVersionRecordsFreed ctx n s) :=
  event_goesOn (foldl_memCanon (fun _ _ hs =>
    (ite_memCanon (commitTask_memCanon (modTask_memCanon hs)) hs)) (stepRelease_memCanon hs))

theorem execBackInvalidationAck_goesOn {line} (hs : s.memCanon) :
    GoesOn (execBackInvalidationAck line s) :=
  event_goesOn (ite_memCanon hs (foldl_memCanon (fun _ _ hs =>
    (ite_memCanon (commitTask_memCanon (modTask_memCanon hs)) (ite_memCanon (askHost_memCanon hs) hs)))
    (hs.of_mem rfl rfl)))

theorem endTask_keeps : Keeps endTask := by
  unfold endTask
  refine keeps_get_bind fun _ h1 => curKey_keeps.bind fun k => curTask_keeps.bind fun t => ?_
  extract_lets ordered ready cached
  have hordered (u) : Keeps (ordered u) := keeps_set (push_memCanon (modTask_memCanon h1))
  have hready (u) : Keeps (ready u) := by
    unfold ready
    split
    · exact keeps_ite (keeps_exit_bind trivial) (hordered ())
    · exact keeps_modify fun _ hs => commitTask_memCanon hs
  have hcached (u) : Keeps (cached u) := keeps_ite (keeps_exit_bind trivial) (hready ())
  refine keeps_ite ?_ (hcached ())
  split <;> exact keeps_exit_bind trivial

theorem execDone_answers (hs : s.memCanon) : Answers s (execDone s) := by
  unfold execDone
  refine runWord_answers hs <| curTask_keeps.bind fun _ => ?_
  split
  · exact curKey_keeps.bind fun _ => (keeps_modify fun _ hs => landLate_memCanon hs).bind fun _ =>
      modCur_keeps.bind fun _ => keeps_pure
  · exact endTask_keeps.bind fun _ => keeps_pure

/-! ### Machine/Tasks -/

theorem messageFault_keeps {α : Type} {cause} : Keeps (messageFault cause : W α) := trap_keeps

theorem checkLength_keeps {h run} : Keeps (checkLength h run) :=
  keeps_ite keeps_trap_bind (keeps_ite messageFault_keeps keeps_pure)

theorem checkHeader_keeps {h run tagged far} : Keeps (checkHeader h run tagged far) :=
  keeps_get_bind fun _ _ => curTask_keeps.bind fun _ => checkLength_keeps.bind fun _ =>
    keeps_ite keeps_trap_bind (keeps_ite keeps_trap_bind (keeps_ite messageFault_keeps keeps_pure))

theorem payload_keeps {first n} : Keeps (payload first n) :=
  keeps_ite keeps_pure (keeps_mapM (fun _ => readG_keeps) _)

theorem taskMessage_keeps {h pay} : Keeps (taskMessage h pay) :=
  curCore_keeps.bind fun _ => curTask_keeps.bind fun _ => keeps_pure

theorem execSend_answers {a b} (hs : s.memCanon) : Answers s (execSend a b s) :=
  plain_answers hs (readG_keeps.bind fun _ => checkHeader_keeps.bind fun _ =>
    payload_keeps.bind fun _ => curTask_keeps.bind fun _ => taskMessage_keeps.bind fun _ => buffer_keeps)

theorem execSendo_answers {a b c} (hs : s.memCanon) : Answers s (execSendo a b c s) :=
  plain_answers hs (readG_keeps.bind fun _ => checkHeader_keeps.bind fun _ =>
    payload_keeps.bind fun _ => readG_keeps.bind fun _ => useWord_keeps.bind fun _ =>
    (xlate_keeps (keep := none) trivial).bind fun _ => curTask_keeps.bind fun _ =>
    taskMessage_keeps.bind fun _ => buffer_keeps)

theorem execSpawn_answers {x} (hs : s.memCanon) : Answers s (execSpawn x s) := by
  unfold execSpawn
  refine runWord_answers hs <| readG_keeps.bind fun _ => useWord_keeps.bind fun _ =>
    readG_keeps.bind fun _ => useWord_keeps.bind fun _ => checkLength_keeps.bind fun _ => ?_
  split
  · exact keeps_ite keeps_trap_bind (keeps_ite keeps_trap_bind (keeps_ite keeps_trap_bind keeps_trap_bind))
  · split
    · exact keeps_ite keeps_trap_bind (keeps_ite keeps_trap_bind keeps_trap_bind)
    · split
      · exact keeps_ite keeps_trap_bind keeps_trap_bind
      · split
        · exact keeps_trap_bind
        · refine checkSched_keeps.bind fun _ => payload_keeps.bind fun _ => checkUnits_keeps.bind fun _ =>
            curTask_keeps.bind fun _ => taskMessage_keeps.bind fun _ => curKey_keeps.bind fun _ =>
            Keeps.bind ?_ fun _ => ?_
          · refine keeps_modify fun s hs => ?_
            split
            · exact collect_memCanon hs
            · exact push_memCanon hs
          · exact holdWord_keeps

theorem execSpawnAnswer_goesOn {core slot accepted} (hs : s.memCanon) :
    GoesOn (execSpawnAnswer core slot accepted s) := by
  unfold execSpawnAnswer
  refine event_goesOn ?_
  split
  · exact trySave_memCanon (spawnAnswer_memCanon hs)
  · exact dropReserved_memCanon hs

theorem execTagen_answers {d a b} (hs : s.memCanon) : Answers s (execTagen d a b s) :=
  plain_answers hs (readG_keeps.bind fun _ => readG_keeps.bind fun _ => curTask_keeps.bind fun _ =>
    keeps_ite (supervisorOnly_keeps.bind fun _ => keeps_get_bind fun _ _ => buffer_keeps.bind fun _ =>
    writeG_keeps) (keeps_get_bind fun _ _ => buffer_keeps.bind fun _ => writeG_keeps))

theorem execTagp_answers {d} (hs : s.memCanon) : Answers s (execTagp d s) :=
  plain_answers hs (keeps_get_bind fun _ _ => curTask_keeps.bind fun _ => writeG_keeps)

theorem execTsset_answers {x} (hs : s.memCanon) : Answers s (execTsset x s) :=
  plain_answers hs (readG_keeps.bind fun _ => readG_keeps.bind fun _ => readG_keeps.bind fun _ =>
    curTask_keeps.bind fun _ => keeps_ite keeps_trap_bind buffer_keeps)

theorem execGsync_answers {a b} (hs : s.memCanon) : Answers s (execGsync a b s) :=
  plain_answers hs (readG_keeps.bind fun _ => readG_keeps.bind fun _ => keeps_get_bind fun _ _ =>
    curTask_keeps.bind fun _ => checkHeader_keeps.bind fun _ => keeps_ite keeps_trap_bind buffer_keeps)

theorem execGsyncArrival_goesOn {ctx group core hdr} (hs : s.memCanon) :
    GoesOn (execGsyncArrival ctx group core hdr s) := by
  unfold execGsyncArrival
  extract_lets
  split
  have k1 := snd_memCanon (termArrive_memCanon hs) ‹_›
  extract_lets
  refine event_goesOn (termDone_memCanon (ite_memCanon (deviceFault_memCanon k1) (ite_memCanon
    (modGroup_memCanon (writeMem_memCanon k1 _ _ _)) (modGroup_memCanon (barrierDone_memCanon k1)))))

/-! ### Machine/Deques -/

theorem writePair_keeps {d r} : Keeps (writePair d r) := writeG_keeps.bind fun _ => writeG_keeps

theorem curDeque_keeps : Keeps curDeque :=
  keeps_get_bind fun _ _ => curTask_keeps.bind fun _ => keeps_pure

theorem setDeque_keeps {q} : Keeps (setDeque q) :=
  curTask_keeps.bind fun _ => keeps_modify fun _ hs => modSpace_memCanon hs

theorem execDpush_answers {d a b} (hs : s.memCanon) : Answers s (execDpush d a b s) :=
  plain_answers hs (readG_keeps.bind fun _ => readG_keeps.bind fun _ => curDeque_keeps.bind fun _ =>
    keeps_ite (buffer_keeps.bind fun _ => setDeque_keeps.bind fun _ => modCur_keeps.bind fun _ =>
    writeG_keeps) writeG_keeps)

theorem takeOwn_answers {d whole} (hs : s.memCanon) : Answers s (takeOwn d whole s) := by
  unfold takeOwn
  refine plain_answers hs <| curCore_keeps.bind fun _ => curDeque_keeps.bind fun _ => ?_
  split
  · exact writePair_keeps
  · exact setDeque_keeps.bind fun _ => modCur_keeps.bind fun _ => writePair_keeps

theorem execDlen_answers {d} (hs : s.memCanon) : Answers s (execDlen d s) :=
  plain_answers hs (curDeque_keeps.bind fun _ => writeG_keeps)

theorem execDsteal_answers {d a} (hs : s.memCanon) : Answers s (execDsteal d a s) := by
  unfold execDsteal
  refine runWord_answers hs <| readG_keeps.bind fun _ => useWord_keeps.bind fun _ =>
    checkSched_keeps.bind fun _ => checkSched_keeps.bind fun _ => curKey_keeps.bind fun _ =>
    curTask_keeps.bind fun _ => Keeps.bind ?_ fun _ => ?_
  · refine keeps_modify fun s hs => ?_
    split
    · exact collect_memCanon hs
    · exact push_memCanon hs
  · exact holdWord_keeps

theorem execStealReply_goesOn {thief slot victim taken} (hs : s.memCanon) :
    GoesOn (execStealReply thief slot victim taken s) := by
  unfold execStealReply
  refine event_goesOn ?_
  split
  · exact ite_memCanon hs (trySave_memCanon (ite_memCanon (modTask_memCanon (completeWord_memCanon hs))
      (pmcEvent_memCanon (modTask_memCanon (completeWord_memCanon hs)))))
  · exact hs

/-! ### Machine/Nets -/

theorem netFault_keeps {α : Type} : Keeps (netFault : W α) := trap_keeps

theorem execNalloc_answers {d a} (hs : s.memCanon) : Answers s (execNalloc d a s) := by
  unfold execNalloc
  refine plain_answers hs <| readG_keeps.bind fun _ => curTask_keeps.bind fun _ => ?_
  extract_lets v arity pay checked
  have hchecked (u) : Keeps (checked u) := by
    refine curCore_keeps.bind fun _ => keeps_get_bind fun _ _ => ?_
    extract_lets filled
    have hfilled (u) : Keeps (filled u) := by
      refine keeps_get_bind fun _ _ => ?_
      split
      · exact netFault_keeps
      · exact (xlate_keeps (keep := none) trivial).bind fun _ => checkCapacity_keeps.bind fun _ =>
          keeps_ite keeps_trap_bind (buffer_keeps.bind fun _ =>
            (keeps_modify fun _ hs => modCc_memCanon hs).bind fun _ => modCur_keeps.bind fun _ =>
              writeG_keeps)
    refine keeps_ite (keeps_get_bind fun _ _ => keeps_ite (keeps_exit_bind trivial) ?_) (hfilled ())
    exact (keeps_modify fun _ hs => refill_memCanon hs).bind hfilled
  exact keeps_get_bind fun _ _ => keeps_ite keeps_trap_bind (hchecked ())

theorem bufferSvc_keeps {tag dst control pay svc} : Keeps (bufferSvc tag dst control pay svc) :=
  curTask_keeps.bind fun _ => curCore_keeps.bind fun _ => buffer_keeps

theorem execNfree_answers {a} (hs : s.memCanon) : Answers s (execNfree a s) :=
  plain_answers hs (readG_keeps.bind fun _ => keeps_ite keeps_trap_bind (curTask_keeps.bind fun _ =>
    bufferSvc_keeps.bind fun _ => modCur_keeps))

theorem execRlk_answers {a b} (hs : s.memCanon) : Answers s (execRlk a b s) :=
  plain_answers hs (readG_keeps.bind fun _ => readG_keeps.bind fun _ => curTask_keeps.bind fun _ =>
    keeps_ite keeps_trap_bind bufferSvc_keeps)

theorem execRfuse_answers {a b} (hs : s.memCanon) : Answers s (execRfuse a b s) :=
  plain_answers hs (readG_keeps.bind fun _ => readG_keeps.bind fun _ => curTask_keeps.bind fun _ =>
    keeps_ite keeps_trap_bind bufferSvc_keeps)

theorem execMeet_answers {a b} (hs : s.memCanon) : Answers s (execMeet a b s) :=
  plain_answers hs (readG_keeps.bind fun _ => readG_keeps.bind fun _ =>
    keeps_ite keeps_trap_bind (curTask_keeps.bind fun _ => bufferSvc_keeps))

theorem shareWord_answers {k a} (hs : s.memCanon) : Answers s (shareWord k a s) := by
  unfold shareWord
  refine plain_answers hs <| readG_keeps.bind fun _ => useWord_keeps.bind fun _ => ?_
  dsimp only
  split
  · exact keeps_trap_bind
  · refine (xlate_keeps (keep := none) trivial).bind fun _ => ?_
    split
    · exact keeps_get_bind fun _ _ => keeps_ite keeps_trap_bind (checkPlainWrite_keeps.bind fun _ =>
        newUpdate_keeps.bind fun _ => buffer_keeps)
    · exact checkPlainWrite_keeps.bind fun _ => newUpdate_keeps.bind fun _ => buffer_keeps
    · exact keeps_trap_bind

theorem relinkEvent_goesOn {svc ctx again} (hs : s.memCanon) : GoesOn (relinkEvent svc ctx again s) :=
  event_goesOn (ite_memCanon (push_memCanon hs) (ite_memCanon (push_memCanon (askHost_memCanon hs))
    (serve_memCanon hs fun _ _ _ hs => relinkServe_memCanon hs)))

/-! ### Machine/Messages -/

theorem execBounceResend_goesOn {core} (hs : s.memCanon) : GoesOn (execBounceResend core s) := by
  unfold execBounceResend
  refine event_goesOn ?_
  split
  · exact hs
  · exact ite_memCanon (push_memCanon hs) (resend_memCanon (modCore_memCanon hs))

theorem execSpillWake_goesOn {ctx core} (hs : s.memCanon) : GoesOn (execSpillWake ctx core s) :=
  event_goesOn (ite_memCanon (push_memCanon (evict_memCanon (fill_memCanon (refillSys_memCanon hs))))
    (evict_memCanon (fill_memCanon (refillSys_memCanon hs))))

theorem execTerminationAck_goesOn {core region} (hs : s.memCanon) :
    GoesOn (execTerminationAck core region s) :=
  event_goesOn (ite_memCanon (regionEnd_memCanon hs) (termSettle_memCanon (modTerm_memCanon hs)))

/-! ### Machine/Engines -/

theorem gateFault_keeps {α : Type} : Keeps (gateFault : W α) := trap_keeps

theorem modGate_keeps {g f} : Keeps (modGate g f) :=
  curTask_keeps.bind fun _ => keeps_modify fun _ hs => modGate_memCanon hs

theorem execGset_answers {gate cmd a b} (hs : s.memCanon) : Answers s (execGset gate cmd a b s) :=
  plain_answers hs (readG_keeps.bind fun _ => useWord_keeps.bind fun _ => readG_keeps.bind fun _ =>
    useWord_keeps.bind fun _ => keeps_ite keeps_trap_bind modGate_keeps)

theorem execGadd_answers {gate a} (hs : s.memCanon) : Answers s (execGadd gate a s) :=
  plain_answers hs (readG_keeps.bind fun _ => useWord_keeps.bind fun _ =>
    keeps_ite keeps_trap_bind modGate_keeps)

theorem execGwt_answers {gate phase} (hs : s.memCanon) : Answers s (execGwt gate phase s) :=
  plain_answers hs (keeps_get_bind fun _ _ => curTask_keeps.bind fun _ =>
    keeps_ite (keeps_exit trivial) keeps_pure)

theorem execGpoll_answers {d gate} (hs : s.memCanon) : Answers s (execGpoll d gate s) :=
  plain_answers hs (keeps_get_bind fun _ _ => curTask_keeps.bind fun _ => writeG_keeps)

theorem engineRoom_keeps {e} : Keeps (engineRoom e) := by
  unfold engineRoom
  refine keeps_get_bind fun _ _ => ?_
  split
  · dsimp only
    split
    · split
      · exact keeps_ite keeps_trap_bind (keeps_exit trivial)
      · exact keeps_exit trivial
    · exact keeps_pure
  · dsimp only
    split
    · split
      · exact keeps_ite keeps_trap_bind (keeps_exit trivial)
      · exact keeps_exit trivial
    · exact keeps_pure

theorem newCmd_keeps {what gates ops} : Keeps (newCmd what gates ops) := by
  unfold newCmd
  refine curKey_keeps.bind fun _ => curTask_keeps.bind fun _ => keeps_get_bind fun _ h1 =>
    (keeps_set ?_).bind fun _ => keeps_pure
  exact h1.of_mem rfl rfl

theorem enqueue_keeps {e c} : Keeps (enqueue e c) := keeps_modify fun _ hs => modCore_memCanon hs

theorem engineWord_answers {e what gates ops} (hops : Keeps ops) (hs : s.memCanon) :
    Answers s (engineWord e what gates ops s) :=
  plain_answers hs (engineRoom_keeps.bind fun _ => (hops).bind fun _ => newCmd_keeps.bind fun _ =>
    enqueue_keeps)

theorem useG_keeps {g} : Keeps (useG g) := readG_keeps.bind fun _ => useWord_keeps.bind fun _ => keeps_pure

theorem orderedStore_keeps {ranges} : Keeps (orderedStore ranges) := by
  unfold orderedStore
  refine keeps_get_bind fun _ _ => curKey_keeps.bind fun _ => curTask_keeps.bind fun _ =>
    keeps_ite keeps_pure ?_
  dsimp only
  split
  · exact keeps_exit_bind trivial
  · exact keeps_ite (keeps_exit trivial) keeps_pure

theorem execEngineCommandAccept_goesOn {core e} (hs : s.memCanon) :
    GoesOn (execEngineCommandAccept core e s) := by
  unfold execEngineCommandAccept
  refine event_goesOn ?_
  dsimp only
  split
  · exact ite_memCanon (modCore_memCanon hs) hs
  · exact hs

theorem execEngineCommandStart_goesOn {core e} (hs : s.memCanon) :
    GoesOn (execEngineCommandStart core e s) := by
  unfold execEngineCommandStart
  refine event_goesOn ?_
  split
  · exact hs
  · exact modCore_memCanon hs

/-! ### Machine/Vector -/

theorem vecWord_answers {what g} (hs : s.memCanon) : Answers s (vecWord what g s) :=
  engineWord_answers keeps_pure hs

theorem vecG_answers {what g a} (hs : s.memCanon) : Answers s (vecG what g a s) :=
  engineWord_answers (readG_keeps.bind fun _ => keeps_pure) hs

theorem vecAddress_keeps {a b} : Keeps (vecAddress a b) :=
  readG_keeps.bind fun _ => useWord_keeps.bind fun _ => readG_keeps.bind fun _ =>
    useWord_keeps.bind fun _ => address_keeps.bind fun _ => keeps_pure

theorem vecBase_keeps {a} : Keeps (vecBase a) :=
  readG_keeps.bind fun _ => useWord_keeps.bind fun _ => keeps_pure

theorem fmtOps_keeps {a b n store} : Keeps (fmtOps a b n store) :=
  useG_keeps.bind fun _ => useG_keeps.bind fun _ =>
    keeps_ite keeps_trap_bind (keeps_ite (keeps_ite keeps_trap_bind keeps_pure)
    (keeps_ite keeps_trap_bind keeps_pure))

theorem vecStore_answers {what g ops} (hops : Keeps ops) (hs : s.memCanon) :
    Answers s (vecStore what g ops s) :=
  plain_answers hs (engineRoom_keeps.bind fun _ => (hops).bind fun _ => newCmd_keeps.bind fun _ =>
    orderedStore_keeps.bind fun _ => enqueue_keeps)

/-! ### Machine/Matrix -/

theorem matrixFault_keeps {α : Type} {cause} : Keeps (matrixFault cause : W α) := trap_keeps

theorem matPtr_keeps {g t} : Keeps (matPtr g t) :=
  useG_keeps.bind fun _ => keeps_ite keeps_trap_bind keeps_pure

theorem zeroAbove_keeps {g bits} : Keeps (zeroAbove g bits) :=
  useG_keeps.bind fun _ => keeps_ite keeps_trap_bind keeps_pure

theorem matWord_answers {what g ops} (hops : Keeps ops) (hs : s.memCanon) :
    Answers s (matWord what g ops s) :=
  engineWord_answers (hops) hs

theorem productOps_keeps {x} : Keeps (productOps x) :=
  matPtr_keeps.bind fun _ => matPtr_keeps.bind fun _ => useG_keeps.bind fun _ => keeps_pure

theorem execMmv_answers {x} (hs : s.memCanon) : Answers s (execMmv x s) :=
  matWord_answers (matPtr_keeps.bind fun _ => matPtr_keeps.bind fun _ => useG_keeps.bind fun _ =>
    keeps_ite keeps_trap_bind (keeps_ite keeps_trap_bind keeps_pure)) hs

theorem execMst_answers {x} (hs : s.memCanon) : Answers s (execMst x s) :=
  plain_answers hs (engineRoom_keeps.bind fun _ => matPtr_keeps.bind fun _ =>
    zeroAbove_keeps.bind fun _ => newCmd_keeps.bind fun _ => orderedStore_keeps.bind fun _ => enqueue_keeps)

theorem execMatrixCommandRetire_goesOn {core} (hs : s.memCanon) :
    GoesOn (execMatrixCommandRetire core s) := by
  unfold execMatrixCommandRetire
  refine event_goesOn ?_
  split
  · exact hs
  · exact ite_memCanon hs (runMatrix_memCanon hs)

theorem execMmvStreamFault_goesOn {core} (hs : s.memCanon) : GoesOn (execMmvStreamFault core s) := by
  unfold execMmvStreamFault
  refine event_goesOn ?_
  split
  · exact hs
  · split
    · split
      · exact hs
      · have k1 := snd_memCanon (readStream_memCanon hs) ‹_›
        exact stopCmd_memCanon k1
    · exact hs

/-! ### Machine/Copy -/

theorem copyFault_keeps {α : Type} {cause} : Keeps (copyFault cause : W α) := trap_keeps

theorem noteCopy_keeps {src dst ssp dsp} : Keeps (noteCopy src dst ssp dsp) :=
  keeps_get_bind fun _ _ => curTask_keeps.bind fun _ => keeps_ite (awaitPuts_keeps.bind fun _ =>
    (keeps_forM (fun _ => checkBulk_keeps) _).bind fun _ => (keeps_forM (fun _ => checkBulkAt_keeps)
    _).bind fun _ => modCur_keeps) ((keeps_forM (fun _ => checkBulk_keeps) _).bind fun _ =>
    (keeps_forM (fun _ => checkBulkAt_keeps) _).bind fun _ => modCur_keeps)

theorem copyWord_answers {what g ops} (hops : Keeps ops) (hs : s.memCanon) :
    Answers s (copyWord what g ops s) :=
  engineWord_answers (hops) hs

theorem execCpy_answers {x} (hs : s.memCanon) : Answers s (execCpy x s) :=
  copyWord_answers (useG_keeps.bind fun _ => useG_keeps.bind fun _ => useG_keeps.bind fun _ =>
    keeps_ite keeps_trap_bind (noteCopy_keeps.bind fun _ => keeps_pure)) hs

theorem rowOps_keeps {x three} : Keeps (rowOps x three) :=
  useG_keeps.bind fun _ => useG_keeps.bind fun _ => useG_keeps.bind fun _ => useG_keeps.bind fun _ =>
    keeps_ite (useG_keeps.bind fun _ =>
    keeps_ite keeps_trap_bind (keeps_ite keeps_trap_bind (noteCopy_keeps.bind fun _ => keeps_pure)))
    (keeps_pure.bind fun _ =>
    keeps_ite keeps_trap_bind (keeps_ite keeps_trap_bind (noteCopy_keeps.bind fun _ => keeps_pure)))

theorem execCpyc_answers {x} (hs : s.memCanon) : Answers s (execCpyc x s) :=
  copyWord_answers (useG_keeps.bind fun _ => useG_keeps.bind fun _ => useG_keeps.bind fun _ =>
    keeps_ite keeps_trap_bind (keeps_ite keeps_trap_bind (keeps_ite keeps_trap_bind (noteCopy_keeps.bind
    fun _ => keeps_pure)))) hs

theorem execCfill_answers {x} (hs : s.memCanon) : Answers s (execCfill x s) :=
  copyWord_answers (useG_keeps.bind fun _ => readG_keeps.bind fun _ => useG_keeps.bind fun _ =>
    keeps_ite keeps_trap_bind (noteCopy_keeps.bind fun _ => keeps_pure)) hs

/-! ### Machine/Attention -/

theorem attFault_keeps {α : Type} {cause} : Keeps (attFault cause : W α) := trap_keeps

theorem useDesc_keeps {g} : Keeps (useDesc g) :=
  useG_keeps.bind fun _ => keeps_ite keeps_trap_bind keeps_pure

theorem useBf_keeps {g} : Keeps (useBf g) := useG_keeps.bind fun _ => keeps_ite keeps_trap_bind keeps_pure

theorem execKst_answers {x} (hs : s.memCanon) : Answers s (execKst x s) :=
  plain_answers hs (engineRoom_keeps.bind fun _ => useDesc_keeps.bind fun _ =>
    useBf_keeps.bind fun _ => useG_keeps.bind fun _ => keeps_get_bind fun _ _ =>
    curTask_keeps.bind fun _ => keeps_ite (keeps_exit_bind trivial) (newCmd_keeps.bind fun _ =>
    buffer_keeps.bind fun _ => enqueue_keeps))

theorem execPbnd_answers {x} (hs : s.memCanon) : Answers s (execPbnd x s) :=
  engineWord_answers (useBf_keeps.bind fun _ => useBf_keeps.bind fun _ => useG_keeps.bind fun _ =>
    keeps_ite keeps_trap_bind keeps_pure) hs

theorem pgatWord_answers {what x most} (hs : s.memCanon) : Answers s (pgatWord what x most s) :=
  engineWord_answers (useG_keeps.bind fun _ => useDesc_keeps.bind fun _ => useG_keeps.bind fun _ =>
    useG_keeps.bind fun _ => keeps_ite keeps_trap_bind keeps_pure) hs

theorem bgatWord_answers {what x} (hs : s.memCanon) : Answers s (bgatWord what x s) :=
  runWord_answers hs (engineRoom_keeps.bind fun _ => useG_keeps.bind fun _ =>
    useDesc_keeps.bind fun _ => useG_keeps.bind fun _ => newCmd_keeps.bind fun _ =>
    enqueue_keeps.bind fun _ => holdWord_keeps)

theorem execVectorCommandComplete_goesOn {core} (hs : s.memCanon) :
    GoesOn (execVectorCommandComplete core s) := by
  unfold execVectorCommandComplete
  refine event_goesOn ?_
  split
  · exact hs
  · exact ite_memCanon hs (ite_memCanon (runAttention_memCanon hs) (runVector_memCanon hs))

theorem execCopyBeatLand_goesOn {core i} (hs : s.memCanon) : GoesOn (execCopyBeatLand core i s) := by
  unfold execCopyBeatLand
  refine event_goesOn ?_
  split
  · exact hs
  · split
    · exact hs
    · split
      · exact ite_memCanon (bgatFirst_memCanon hs) (bgatSecond_memCanon hs)
      · exact ite_memCanon (bgatFirst_memCanon hs) (bgatSecond_memCanon hs)
      · exact runPgat_memCanon hs
      · exact runPgat_memCanon hs
      · exact copyBeat_memCanon hs

theorem execBucketLink_goesOn {l} (hs : s.memCanon) : GoesOn (execBucketLink l s) := by
  unfold execBucketLink
  refine event_goesOn (ite_memCanon (push_memCanon hs) (serve_memCanon hs fun s core m hs => ?_))
  refine termDone_memCanon ?_
  split
  · exact deviceFault_memCanon hs
  · exact linkAt_memCanon hs

theorem execSummaryUpdate_goesOn {ctx va isMax key} (hs : s.memCanon) :
    GoesOn (execSummaryUpdate ctx va isMax key s) := by
  unfold execSummaryUpdate
  refine event_goesOn (ite_memCanon (push_memCanon hs) (ite_memCanon (push_memCanon (askHost_memCanon hs))
    (serve_memCanon hs fun s core m hs => ?_)))
  refine termDone_memCanon ?_
  split
  · exact deviceFault_memCanon hs
  · exact writeSeen_memCanon hs

theorem vamoBuffer_keeps {f t base tag l} : Keeps (vamoBuffer f t base tag l) := by
  induction l with
  | nil => exact modCur_keeps
  | cons x l ih =>
    unfold vamoBuffer
    dsimp only
    split
    · exact keeps_trap_bind
    · split
      · exact keeps_trap_bind
      · refine curKey_keeps.bind fun _ => keeps_get_bind fun _ h1 => (xlate_keeps (keep := some _)
          (modTask_memCanon h1)).bind fun _ => keeps_get_bind fun _ _ => ?_
        split
        · exact keeps_trap_bind
        · exact checkPlainWrite_keeps.bind fun _ => noteWrite_keeps.bind fun _ =>
            newUpdate_keeps.bind fun _ => buffer_keeps.bind fun _ => ih

theorem vectorAtomic_answers {f x} (hs : s.memCanon) : Answers s (vectorAtomic f x s) :=
  plain_answers hs (readG_keeps.bind fun _ => useWord_keeps.bind fun _ => keeps_get_bind fun _ _ =>
    curKey_keeps.bind fun _ => keeps_ite (keeps_exit_bind trivial) (keeps_ite (keeps_exit_bind trivial)
    (curTask_keeps.bind fun _ => checkUnits_keeps.bind fun _ => vamoBuffer_keeps)))

/-! ### Machine/Scheduling -/

theorem execSliceExpiry_goesOn {ctx} (hs : s.memCanon) : GoesOn (execSliceExpiry ctx s) :=
  event_goesOn (ite_memCanon hs (foldl_memCanon (fun _ _ hs => (preempt_memCanon hs))
    (modCtx_memCanon hs)))

theorem execContextSaved_goesOn {ctx} (hs : s.memCanon) : GoesOn (execContextSaved ctx s) :=
  event_goesOn (ite_memCanon hs (interrupt_memCanon (modCtx_memCanon (foldl_memCanon (fun _ _ hs =>
    (ite_memCanon (writeImage_memCanon hs) hs)) hs))))

theorem execQuantumEnd_goesOn {ctx group core} (hs : s.memCanon) :
    GoesOn (execQuantumEnd ctx group core s) :=
  event_goesOn (ite_memCanon hs (ite_memCanon (push_memCanon hs)
    (ite_memCanon (foldl_memCanon (fun _ _ hs => (push_memCanon hs)) (foldl_memCanon (fun _ _ hs =>
    (ite_memCanon (endQuantum_memCanon hs) hs)) (ite_memCanon (push_memCanon (endQuantum_memCanon hs))
    (endQuantum_memCanon hs)))) (foldl_memCanon (fun _ _ hs => (ite_memCanon (endQuantum_memCanon hs) hs))
    (ite_memCanon (push_memCanon (endQuantum_memCanon hs)) (endQuantum_memCanon hs))))))

theorem execQuantumService_goesOn {ctx group hive} (hs : s.memCanon) :
    GoesOn (execQuantumService ctx group hive s) :=
  event_goesOn (ite_memCanon hs (ite_memCanon (push_memCanon (askHost_memCanon hs))
    (ite_memCanon (foldl_memCanon (fun _ _ hs => (serveRequest_memCanon hs))
    (modGroup_memCanon (foldl_memCanon (fun _ _ hs => (settle_memCanon hs)) hs)))
    (nextQuantum_memCanon (foldl_memCanon (fun _ _ hs => (serveRequest_memCanon hs))
    (modGroup_memCanon (foldl_memCanon (fun _ _ hs => (settle_memCanon hs)) hs)))))))

/-! ### Machine/Translation -/

theorem execTlbWalkComplete_goesOn {core slot va} (hs : s.memCanon) :
    GoesOn (execTlbWalkComplete core slot va s) := by
  unfold execTlbWalkComplete
  refine event_goesOn ?_
  split
  · exact hs
  · split
    · have k1 := snd_memCanon (translate_memCanon hs) ‹_›
      split
      · have k1 := snd_memCanon (translate_memCanon hs) ‹_›
        exact k1
      · have k1 := snd_memCanon (translate_memCanon hs) ‹_›
        exact ite_memCanon (wake_memCanon k1) k1
      · have k1 := snd_memCanon (translate_memCanon hs) ‹_›
        split
        · exact ite_memCanon (push_memCanon k1) k1
        · exact k1

theorem execInvalidationMessage_goesOn {hive id} (hs : s.memCanon) :
    GoesOn (execInvalidationMessage hive id s) := by
  unfold execInvalidationMessage
  refine event_goesOn ?_
  split
  · exact hs
  · exact push_memCanon (modHive_memCanon (rewalk_memCanon (killHive_memCanon hs)))

theorem execInvalidationDone_goesOn {hive id} (hs : s.memCanon) :
    GoesOn (execInvalidationDone hive id s) := by
  unfold execInvalidationDone
  refine event_goesOn ?_
  split
  · split
    · exact push_memCanon hs
    · refine invalCount_memCanon ?_
      split <;> exact hs.of_mem rfl rfl
  · exact hs

/-! ### Machine/Faults -/

theorem execUncorrectableError_goesOn {d source} (hs : s.memCanon) :
    GoesOn (execUncorrectableError d source s) := by
  unfold execUncorrectableError
  refine event_goesOn ?_
  split
  · split
    · exact countPoison_memCanon (poisonLine_memCanon hs) _ _
    · split
      · have k1 := snd_memCanon (errorRecord_memCanon hs) ‹_›
        exact poisonLine_memCanon k1
  · split
    · have k1 := snd_memCanon (errorRecord_memCanon hs) ‹_›
      exact modSpace_memCanon k1
  · split
    · have k1 := snd_memCanon (errorRecord_memCanon hs) ‹_›
      exact modTask_memCanon k1
  · split
    · have k1 := snd_memCanon (errorRecord_memCanon hs) ‹_›
      exact modTask_memCanon k1
  · split
    · have k1 := snd_memCanon (errorRecord_memCanon hs) ‹_›
      exact modTask_memCanon k1
  · split
    · have k1 := snd_memCanon (errorRecord_memCanon hs) ‹_›
      exact ite_memCanon (poisonKill_memCanon k1) (machineError_memCanon k1)
  · split
    · split
      · have k1 := snd_memCanon (errorRecord_memCanon hs) ‹_›
        exact k1.of_mem rfl rfl
    · exact hs

/-! ### Machine/HostQueues -/

theorem takePacket_goesOn {e q} (hs : s.memCanon) : GoesOn (takePacket e q s) :=
  event_goesOn (ite_memCanon (actPacket_memCanon hs) hs)

/-! ### Machine/Debugger -/

theorem debugOp_goesOn {ctx core w again f} (hs : s.memCanon) (hf : ∀ s, s.memCanon → (f s).memCanon) :
    GoesOn (debugOp ctx core w again f s) :=
  event_goesOn (serve_memCanon hs fun s _ _ hs => termDone_memCanon (hf s hs))

theorem execDebugAttach_goesOn {ctx core w} (hs : s.memCanon) : GoesOn (execDebugAttach ctx core w s) :=
  debugOp_goesOn hs fun _ hs => modCtx_memCanon hs

theorem execDebugDetach_goesOn {ctx core w} (hs : s.memCanon) : GoesOn (execDebugDetach ctx core w s) :=
  debugOp_goesOn hs fun _ hs => modCtx_memCanon (hs.of_mem rfl rfl)

theorem execDebugSetBreakpoint_goesOn {ctx core w} (hs : s.memCanon) :
    GoesOn (execDebugSetBreakpoint ctx core w s) :=
  debugOp_goesOn hs fun _ hs => onTask_memCanon hs fun _ _ hs =>
    ite_memCanon hs (ite_memCanon (debugEvent_memCanon hs) (modFound_memCanon hs))

theorem execDebugClearBreakpoint_goesOn {ctx core w} (hs : s.memCanon) :
    GoesOn (execDebugClearBreakpoint ctx core w s) :=
  debugOp_goesOn hs fun _ hs => onTask_memCanon hs fun _ _ hs => modFound_memCanon hs

theorem execDebugStop_goesOn {ctx core w} (hs : s.memCanon) : GoesOn (execDebugStop ctx core w s) := by
  refine debugOp_goesOn hs fun s hs => onTask_memCanon hs fun s x hs => ?_
  split
  · exact ite_memCanon hs (modFound_memCanon hs)
  · exact modFound_memCanon hs

theorem execDebugCopy_goesOn {ctx core w} (hs : s.memCanon) : GoesOn (execDebugCopy ctx core w s) := by
  refine debugOp_goesOn hs fun s hs => onTask_memCanon hs fun s x hs => ?_
  split
  · exact debugEvent_memCanon hs
  · exact writeMem_memCanon hs _ _ _

theorem execDebugRelease_goesOn {ctx core w} (hs : s.memCanon) :
    GoesOn (execDebugRelease ctx core w s) := by
  refine debugOp_goesOn hs fun s hs => onTask_memCanon hs fun s x hs => ?_
  split
  · exact debugEvent_memCanon hs
  · exact fill_memCanon (hs.of_mem rfl rfl)

/-! ### Machine/Scalar -/

theorem int2_answers {x lat f} (hs : s.memCanon) : Answers s (int2 x lat f s) :=
  plain_answers hs (readO_keeps.bind fun _ => readO_keeps.bind fun _ => writeO_keeps)

theorem int1_answers {x f} (hs : s.memCanon) : Answers s (int1 x f s) :=
  plain_answers hs (readO_keeps.bind fun _ => writeO_keeps)

theorem intCmp_answers {x f} (hs : s.memCanon) : Answers s (intCmp x f s) :=
  plain_answers hs (readO_keeps.bind fun _ => readO_keeps.bind fun _ => writeO_keeps)

theorem intImm_answers {x f} (hs : s.memCanon) : Answers s (intImm x f s) :=
  plain_answers hs (readO_keeps.bind fun _ => writeO_keeps)

theorem execSlti_answers {x} (hs : s.memCanon) : Answers s (execSlti x s) := intImm_answers hs

theorem execSltni_answers {x} (hs : s.memCanon) : Answers s (execSltni x s) :=
  intImm_answers hs

theorem execSel_answers {d a b c} (hs : s.memCanon) : Answers s (execSel d a b c s) :=
  plain_answers hs (readO_keeps.bind fun _ => readO_keeps.bind fun _ => readO_keeps.bind fun _ =>
    writeO_keeps)

theorem execBext_answers {x} (hs : s.memCanon) : Answers s (execBext x s) :=
  plain_answers hs (readO_keeps.bind fun _ => readO_keeps.bind fun _ => writeO_keeps)

theorem execBins_answers {x} (hs : s.memCanon) : Answers s (execBins x s) :=
  plain_answers hs (readO_keeps.bind fun _ => readO_keeps.bind fun _ => readO_keeps.bind fun _ =>
    writeO_keeps)

theorem execLi_answers {d imm} (hs : s.memCanon) : Answers s (execLi d imm s) := plain_answers hs writeO_keeps

theorem execLih_answers {d a imm} (hs : s.memCanon) : Answers s (execLih d a imm s) :=
  plain_answers hs (readO_keeps.bind fun _ => writeO_keeps)

theorem execPadd_answers {d a b} (hs : s.memCanon) : Answers s (execPadd d a b s) :=
  plain_answers hs (readO_keeps.bind fun _ => readO_keeps.bind fun _ =>
    keeps_ite keeps_trap_bind writeO_keeps)

theorem execPfmt_answers {d a b} (hs : s.memCanon) : Answers s (execPfmt d a b s) :=
  plain_answers hs (readO_keeps.bind fun _ => readO_keeps.bind fun _ => writeO_keeps)

theorem execPget_answers {d a} (hs : s.memCanon) : Answers s (execPget d a s) :=
  plain_answers hs (readO_keeps.bind fun _ => writeO_keeps)

theorem execPstrip_answers {d a} (hs : s.memCanon) : Answers s (execPstrip d a s) :=
  plain_answers hs (readO_keeps.bind fun _ => writeO_keeps)

/-! ### Machine/Float -/

theorem float2_answers {d a b f} (hs : s.memCanon) : Answers s (float2 d a b f s) :=
  plain_answers hs (readO_keeps.bind fun _ => readO_keeps.bind fun _ => flags_keeps.bind fun _ =>
    writeO_keeps)

theorem floatBits_answers {d a b f} (hs : s.memCanon) : Answers s (floatBits d a b f s) :=
  plain_answers hs (readO_keeps.bind fun _ => readO_keeps.bind fun _ => writeO_keeps)

theorem execFadd_answers {d a b} (hs : s.memCanon) : Answers s (execFadd d a b s) :=
  float2_answers hs

theorem execFsub_answers {d a b} (hs : s.memCanon) : Answers s (execFsub d a b s) := float2_answers hs

theorem execFmul_answers {d a b} (hs : s.memCanon) : Answers s (execFmul d a b s) :=
  float2_answers hs

theorem execFfma_answers {d a b c mode} (hs : s.memCanon) : Answers s (execFfma d a b c mode s) :=
  plain_answers hs (readO_keeps.bind fun _ => readO_keeps.bind fun _ => readO_keeps.bind fun _ =>
    flags_keeps.bind fun _ => writeO_keeps)

theorem execFeq_answers {d a b} (hs : s.memCanon) : Answers s (execFeq d a b s) := floatBits_answers hs

theorem execFlt_answers {d a b} (hs : s.memCanon) : Answers s (execFlt d a b s) :=
  floatBits_answers hs

theorem execFle_answers {d a b} (hs : s.memCanon) : Answers s (execFle d a b s) := floatBits_answers hs

theorem execFcvt_answers {d a t toF32 sat mode} (hs : s.memCanon) :
    Answers s (execFcvt d a t toF32 sat mode s) :=
  plain_answers hs (readO_keeps.bind fun _ => flags_keeps.bind fun _ => writeO_keeps)

theorem execFcls_answers {d a} (hs : s.memCanon) : Answers s (execFcls d a s) :=
  plain_answers hs (readO_keeps.bind fun _ => writeO_keeps)

/-! ### Machine/Retirement -/

theorem execStripMoveComplete_goesOn (hs : s.memCanon) : GoesOn (execStripMoveComplete s) := by
  unfold execStripMoveComplete
  refine event_goesOn ?_
  split
  · exact hs
  · refine broadcast_memCanon ?_
    refine State.memCanon.of_mem ?_ rfl rfl
    exact stripPoison_memCanon hs

theorem execRetirementCommit_goesOn (hs : s.memCanon) : GoesOn (execRetirementCommit s) :=
  event_goesOn (ite_memCanon hs (examinePend_memCanon (retireNotice_memCanon (broadcast_memCanon
    (modStack_memCanon (hs.of_mem rfl rfl))))))

theorem execHbmRequestArrival_goesOn {r} (hs : s.memCanon) : GoesOn (execHbmRequestArrival r s) := by
  unfold execHbmRequestArrival
  refine event_goesOn ?_
  split
  · exact requestArrives_memCanon hs
  · exact sendRequest_memCanon hs

theorem execReplayIndication_goesOn {r} (hs : s.memCanon) : GoesOn (execReplayIndication r s) :=
  event_goesOn (ite_memCanon hs (ite_memCanon (push_memCanon hs) (foldl_memCanon (fun _ _ hs =>
    (push_memCanon hs)) (hs.of_mem rfl rfl))))

theorem execMapBroadcastReceived_goesOn {requester} (hs : s.memCanon) :
    GoesOn (execMapBroadcastReceived requester s) :=
  event_goesOn (ite_memCanon (hs.of_mem rfl rfl) (foldl_memCanon (fun _ _ hs => (push_memCanon hs))
    (modStack_memCanon (hs.of_mem rfl rfl))))

theorem execStackLost_goesOn {stack} (hs : s.memCanon) : GoesOn (execStackLost stack s) := by
  unfold execStackLost
  refine event_goesOn ?_
  split
  · exact hs
  · split
    · have k1 := snd_memCanon (errorRecord_memCanon hs) ‹_›
      exact ite_memCanon (refuse_memCanon (machineError_memCanon (modStack_memCanon k1)))
        (machineError_memCanon (modStack_memCanon k1))

/-! ### Machine/Platform -/

theorem execStackTrained_goesOn {stack} (hs : s.memCanon) : GoesOn (execStackTrained stack s) := by
  unfold execStackTrained
  refine event_goesOn ?_
  split
  · exact hs
  · refine trainingEnds_memCanon ?_
    refine broadcast_memCanon ?_
    refine dropHbm_memCanon ?_
    exact hs.of_mem rfl rfl

theorem execMgmtMarkFailed_goesOn {stack failed} (hs : s.memCanon) :
    GoesOn (execMgmtMarkFailed stack failed s) :=
  event_goesOn (ite_memCanon hs (ite_memCanon (modStack_memCanon hs)
    (trainingEnds_memCanon (modStack_memCanon hs))))

theorem execLinkFailure_goesOn {link} (hs : s.memCanon) : GoesOn (execLinkFailure link s) := by
  unfold execLinkFailure
  refine event_goesOn ?_
  split
  · exact hs
  · split
    · refine machineError_memCanon ?_
      refine State.memCanon.of_mem ?_ rfl rfl
      refine foldl_memCanon (fun s d hs => ?_) ?_
      · exact loseRoute_memCanon hs
      · refine State.memCanon.of_mem ?_ rfl rfl
        exact modLink_memCanon hs
    · refine State.memCanon.of_mem ?_ rfl rfl
      refine foldl_memCanon (fun s d hs => ?_) ?_
      · exact loseRoute_memCanon hs
      · refine State.memCanon.of_mem ?_ rfl rfl
        exact modLink_memCanon hs

theorem execHostCxlMemAccess_goesOn {off write len} (hs : s.memCanon) :
    GoesOn (execHostCxlMemAccess off write len s) := by
  unfold execHostCxlMemAccess
  refine event_goesOn ?_
  split
  · exact ite_memCanon (writeSeen_memCanon hs) hs
  · exact reply_memCanon hs

theorem execPeerAccess_goesOn {off write len} (hs : s.memCanon) :
    GoesOn (execPeerAccess off write len s) := by
  unfold execPeerAccess
  refine event_goesOn ?_
  split
  · exact ite_memCanon (writeSeen_memCanon hs) (errorRecord_memCanon hs)
  · exact reply_memCanon hs

/-! ### Machine/System -/

theorem execTrap_answers {code} (hs : s.memCanon) : Answers s (execTrap code s) :=
  runWord_answers hs (curTask_keeps.bind fun _ => keeps_ite ((keeps_modify fun _ hs =>
    machineError_memCanon (modHive_memCanon hs)).bind fun _ => keeps_pure) trap_keeps)

theorem fibreOperand_keeps {a} : Keeps (fibreOperand a) :=
  readO_keeps.bind fun _ => useWord_keeps.bind fun _ => keeps_get_bind fun _ _ =>
    curTask_keeps.bind fun _ => keeps_ite keeps_pure trap_keeps

theorem execSysResume_answers {a} (hs : s.memCanon) : Answers s (execSysResume a s) :=
  runWord_answers hs (fibreOperand_keeps.bind fun _ => buffer_keeps.bind fun _ => keeps_pure)

theorem execSysKill_answers {a} (hs : s.memCanon) : Answers s (execSysKill a s) :=
  runWord_answers hs (fibreOperand_keeps.bind fun _ => buffer_keeps.bind fun _ => keeps_pure)

theorem execSysState_answers {d a} (hs : s.memCanon) : Answers s (execSysState d a s) :=
  runWord_answers hs (readO_keeps.bind fun _ => useWord_keeps.bind fun _ => keeps_get_bind fun _ _ =>
    curTask_keeps.bind fun _ => writeO_keeps.bind fun _ => keeps_pure)

theorem eretWord_answers {how a} (hs : s.memCanon) : Answers s (eretWord how a s) :=
  runWord_answers hs (supervisorOnly_keeps.bind fun _ => readO_keeps.bind fun _ =>
    useWord_keeps.bind fun _ => keeps_get_bind fun _ _ =>
    keeps_ite keeps_trap_bind (buffer_keeps.bind fun _ => endTask_keeps.bind fun _ => keeps_pure))

theorem execGsr_answers {d num} (hs : s.memCanon) : Answers s (execGsr d num s) :=
  plain_answers hs (curTask_keeps.bind fun _ => keeps_ite keeps_trap_bind (curKey_keeps.bind fun _ =>
    keeps_get_bind fun _ _ => writeO_keeps))

theorem sysWrite_keeps {num v} : Keeps (sysWrite num v) := by
  unfold sysWrite
  refine keeps_get_bind fun _ h1 => curKey_keeps.bind fun _ => curTask_keeps.bind fun _ =>
    keeps_ite keeps_trap_bind ?_
  split
  · split
    have k1 := snd_memCanon (vrsync_memCanon h1) ‹_›
    exact keeps_ite regionFault_keeps (keeps_set k1)
  · split
    have k1 := snd_memCanon (vhctlWrite_memCanon h1) ‹_›
    exact keeps_ite regionFault_keeps (keeps_set k1)
  · exact modCur_keeps
  · exact keeps_ite trap_keeps (keeps_set (writeGrp_memCanon h1))
  · exact keeps_ite trap_keeps (keeps_set (writeGrp_memCanon h1))
  · exact keeps_ite trap_keeps (keeps_set (writeGrp_memCanon h1))
  · exact keeps_ite trap_keeps (keeps_set (writeGrp_memCanon h1))
  · exact keeps_ite trap_keeps (keeps_set (writeCmove_memCanon h1))
  · exact keeps_set (writeRcent_memCanon h1)
  iterate 10 exact keeps_set (writeDevReg_memCanon h1)
  · exact keeps_set (writeCtxReg_memCanon h1)

theorem execSsr_answers {num a} (hs : s.memCanon) : Answers s (execSsr num a s) :=
  plain_answers hs (curTask_keeps.bind fun _ =>
    keeps_ite keeps_trap_bind (keeps_ite (keeps_exit_bind trivial) (curKey_keeps.bind fun _ =>
    (keeps_modify fun _ hs => landLate_memCanon hs).bind fun _ => readO_keeps.bind fun _ =>
    keeps_ite sysWrite_keeps keeps_pure)))

theorem tlbiWord_answers {mnemonic kind x} (hs : s.memCanon) : Answers s (tlbiWord mnemonic kind x s) := by
  unfold tlbiWord
  refine plain_answers hs <| supervisorOnly_keeps.bind fun _ => ?_
  extract_lets withVa
  have hva (va) : Keeps (withVa va) := by
    unfold withVa
    extract_lets withCtx
    have hctx (ctx) : Keeps (withCtx ctx) := by
      refine keeps_get_bind fun _ h1 => curTask_keeps.bind fun _ => ?_
      extract_lets core hive
      split
      · exact keeps_ite (keeps_exit_bind trivial) (keeps_set (killCore_memCanon h1))
      · exact keeps_ite (keeps_exit_bind trivial) (keeps_set (rewalk_memCanon (killHive_memCanon h1)))
      · exact curKey_keeps.bind fun _ => keeps_set (invalidateDevice_memCanon h1)
    exact keeps_ite (keeps_pure.bind hctx) ((readO_keeps.bind fun _ => keeps_pure).bind hctx)
  exact keeps_ite ((readO_keeps.bind fun _ => useWord_keeps.bind fun _ => keeps_pure).bind hva)
    (keeps_pure.bind hva)

theorem execDbgb_answers {a} (hs : s.memCanon) : Answers s (execDbgb a s) :=
  runFrame_answers hs (prelude_keeps.bind fun _ => readO_keeps.bind fun _ =>
    keeps_get_bind fun _ _ => curKey_keeps.bind fun _ => retire_keeps.bind fun _ =>
    keeps_ite (keeps_modify fun _ hs => debugEvent_memCanon (beginSave_memCanon hs)) keeps_pure)

theorem execDump_answers {d a b} (hs : s.memCanon) : Answers s (execDump d a b s) := by
  unfold execDump
  refine plain_answers hs <| readO_keeps.bind fun _ => useWord_keeps.bind fun _ =>
    readO_keeps.bind fun _ => keeps_get_bind fun _ h1 => curKey_keeps.bind fun _ => ?_
  extract_lets
  refine keeps_ite writeO_keeps ?_
  split
  · have k1 := snd_memCanon (dump_memCanon h1) ‹_›
    exact (keeps_set k1).bind fun _ => writeO_keeps

theorem pctlWord_answers {d a b} (hs : s.memCanon) : Answers s (pctlWord d a b s) :=
  plain_answers hs (readO_keeps.bind fun _ => readO_keeps.bind fun _ =>
    keeps_ite keeps_trap_bind (keeps_ite (supervisorOnly_keeps.bind fun _ => keeps_get_bind fun _ _ =>
    curCore_keeps.bind fun _ => (keeps_modify fun _ hs => modCore_memCanon hs).bind fun _ => writeO_keeps)
    (keeps_get_bind fun _ _ => curCore_keeps.bind fun _ => (keeps_modify fun _ hs =>
    modCore_memCanon hs).bind fun _ => writeO_keeps)))

end Sys2Proof.Machine
end

section
/-! PROOFS (O58). All events and all instructions together. -/

namespace Sys2Proof.Machine

variable {s : State}

theorem runEvent_goesOn {e} (hs : s.memCanon) : GoesOn (runEvent e s) := by
  cases e with
  | spinTimeout _ _ => exact execSpinTimeout_goesOn hs
  | spinWake _ _ => exact execSpinWake_goesOn hs
  | wtvWake _ _ => exact execWtvWake_goesOn hs
  | getPutElementLand _ _ => exact execGetPutElementLand_goesOn hs
  | mergeComplete _ => exact execMergeComplete_goesOn hs
  | waggleWindow => exact execWaggleWindow_goesOn hs
  | scEffect => exact execScEffect_goesOn hs
  | spawnAnswer _ _ _ => exact execSpawnAnswer_goesOn hs
  | versionRecordsFreed _ n => exact execVersionRecordsFreed_goesOn (n := n) hs
  | orderedSignatureCheck _ _ => exact execOrderedSignatureCheck_goesOn hs
  | horizonWindow _ _ => exact execHorizonWindow_goesOn hs
  | gsyncArrival _ _ _ _ => exact execGsyncArrival_goesOn hs
  | nodeCacheRefill _ _ => exact event_goesOn (ite_memCanon (push_memCanon hs) (refill_memCanon hs))
  | stealRequest _ _ _ => exact event_goesOn (stealRequest_memCanon hs)
  | stealReply _ _ _ _ => exact execStealReply_goesOn hs
  | entryRelease _ _ => exact event_goesOn (modSpace_memCanon hs)
  | vectorCommandComplete _ => exact execVectorCommandComplete_goesOn hs
  | mmvStreamFault _ => exact execMmvStreamFault_goesOn hs
  | matrixCommandRetire _ => exact execMatrixCommandRetire_goesOn hs
  | engineCommandAccept _ _ => exact execEngineCommandAccept_goesOn hs
  | engineCommandStart _ _ => exact execEngineCommandStart_goesOn hs
  | copyBeatLand _ _ => exact execCopyBeatLand_goesOn hs
  | bucketLink _ => exact execBucketLink_goesOn hs
  | summaryUpdate _ _ _ _ => exact execSummaryUpdate_goesOn hs
  | atomicApply _ => exact event_goesOn (updateEvent_memCanon hs)
  | atomicReply _ _ _ _ => exact event_goesOn (trySave_memCanon (deliver_memCanon hs))
  | joinArrival _ => exact event_goesOn (updateEvent_memCanon hs)
  | shareUpdate _ => exact event_goesOn (ite_memCanon (push_memCanon hs) (updateEvent_memCanon hs))
  | keyPassApply _ _ _ => exact execKeyPassApply_goesOn hs
  | meetDelivery _ _ _ => exact event_goesOn (ite_memCanon (push_memCanon hs) (deliverMeet_memCanon hs))
  | hinge _ _ _ => exact relinkEvent_goesOn hs
  | fuse _ _ _ => exact relinkEvent_goesOn hs
  | fuse2 _ _ _ _ => exact relinkEvent_goesOn hs
  | fuse3 _ _ _ => exact relinkEvent_goesOn hs
  | join2 _ _ _ _ => exact relinkEvent_goesOn hs
  | join1 _ _ _ _ => exact relinkEvent_goesOn hs
  | fix _ _ _ => exact relinkEvent_goesOn hs
  | drain _ _ => exact relinkEvent_goesOn hs
  | nfreeMessage _ _ => exact relinkEvent_goesOn hs
  | messageArrival _ => exact event_goesOn (ite_memCanon (resend_memCanon hs) (receive_memCanon hs))
  | messageBounce _ => exact event_goesOn (push_memCanon (modCore_memCanon hs))
  | bounceResend _ => exact execBounceResend_goesOn hs
  | spillWake _ _ => exact execSpillWake_goesOn hs
  | spawnSlotRequest _ _ _ => exact event_goesOn (slotRequest_memCanon hs)
  | terminationAck _ _ => exact execTerminationAck_goesOn hs
  | ageingPeriod _ => exact event_goesOn (hs.of_mem rfl rfl)
  | sliceExpiry _ => exact execSliceExpiry_goesOn hs
  | runLimitExpiry _ => exact event_goesOn (ite_memCanon hs (foldl_memCanon (fun _ _ hs =>
    (preempt_memCanon hs)) hs))
  | contextSaved _ => exact execContextSaved_goesOn hs
  | ctxresWrite _ => exact event_goesOn (writeCtxres_memCanon hs)
  | sliceWrite _ _ => exact event_goesOn (writeSlice_memCanon hs)
  | ageWrite _ _ => exact event_goesOn (writeAge_memCanon hs)
  | gtsyncWrite _ _ => exact event_goesOn (ite_memCanon (deviceFault_memCanon hs) (writeGtsync_memCanon hs))
  | grpWrite _ _ _ _ => exact event_goesOn (ite_memCanon hs (writeGrp_memCanon hs))
  | quantumEnd _ _ _ => exact execQuantumEnd_goesOn hs
  | quantumService _ _ _ => exact execQuantumService_goesOn hs
  | doorbellWrite _ _ => exact event_goesOn (ite_memCanon (doorbell_memCanon hs) hs)
  | queueAgeing _ => exact event_goesOn (ite_memCanon (hs.of_mem rfl rfl) hs)
  | launch _ => exact takePacket_goesOn hs
  | barrier _ => exact takePacket_goesOn hs
  | detlevel _ => exact takePacket_goesOn hs
  | debug _ => exact takePacket_goesOn hs
  | signal _ => exact takePacket_goesOn hs
  | debugAttach _ _ _ => exact execDebugAttach_goesOn hs
  | debugDetach _ _ _ => exact execDebugDetach_goesOn hs
  | debugSetBreakpoint _ _ _ => exact execDebugSetBreakpoint_goesOn hs
  | debugClearBreakpoint _ _ _ => exact execDebugClearBreakpoint_goesOn hs
  | debugStop _ _ _ => exact execDebugStop_goesOn hs
  | debugCopy _ _ _ => exact execDebugCopy_goesOn hs
  | debugRelease _ _ _ => exact execDebugRelease_goesOn hs
  | tlbWalkComplete _ _ _ => exact execTlbWalkComplete_goesOn hs
  | invalidationMessage _ _ => exact execInvalidationMessage_goesOn hs
  | invalidationDone _ _ => exact execInvalidationDone_goesOn hs
  | memoryPortAccess _ _ _ _ _ => exact event_goesOn (portAccess_memCanon hs)
  | versionRequest _ _ _ => exact execVersionRequest_goesOn hs
  | versionWake _ _ _ => exact execVersionWake_goesOn hs
  | versionReclaim _ _ => exact execVersionReclaim_goesOn hs
  | vrsyncWrite _ _ => exact event_goesOn (ite_memCanon (deviceFault_memCanon hs) (vrsync_memCanon hs))
  | vhctlGrant _ _ => exact event_goesOn (vhctlWrite_memCanon hs)
  | vhctlRelease _ _ => exact event_goesOn (vhctlWrite_memCanon hs)
  | heapReleaseComplete _ => exact event_goesOn (stepRelease_memCanon hs)
  | errorWindowExpiry _ _ => exact event_goesOn (modStack_memCanon (countCorrected_memCanon hs))
  | mgmtRetirementTrigger _ => exact event_goesOn (trigger_memCanon hs)
  | mgmtWithdrawTrigger => exact event_goesOn (ite_memCanon (retireNotice_memCanon (hs.of_mem rfl rfl)) hs)
  | mretireAck => exact event_goesOn (ite_memCanon (deviceFault_memCanon hs) (ackRetire_memCanon hs))
  | stripMoveComplete => exact execStripMoveComplete_goesOn hs
  | mapBroadcastReceived _ => exact execMapBroadcastReceived_goesOn hs
  | retirementCommit => exact execRetirementCommit_goesOn hs
  | retiredStackPowerDown _ => exact event_goesOn (ite_memCanon (modStack_memCanon hs) hs)
  | stackLost _ => exact execStackLost_goesOn hs
  | hbmRequestArrival _ => exact execHbmRequestArrival_goesOn hs
  | replayIndication _ => exact execReplayIndication_goesOn hs
  | uncorrectableError _ _ => exact execUncorrectableError_goesOn hs
  | fringConsWrite _ _ => exact event_goesOn (writeFring_memCanon hs)
  | frbaseEnable _ _ => exact event_goesOn (writeFrbase_memCanon hs)
  | ctxstResume _ _ => exact event_goesOn (writeCtxst_memCanon hs)
  | cmoveWrite _ _ => exact event_goesOn (ite_memCanon hs (writeCmove_memCanon hs))
  | saveAreaFreed _ _ => exact event_goesOn (retrySaves_memCanon hs)
  | rcentWrite _ _ _ => exact event_goesOn (writeRcent_memCanon hs)
  | sperrClear _ _ _ => exact event_goesOn (writeSperr_memCanon hs)
  | powerGood => exact event_goesOn (ite_memCanon (advance_memCanon (hs.of_mem rfl rfl)) hs)
  | hostLinkTrained => exact event_goesOn (advance_memCanon (hs.of_mem rfl rfl))
  | stackTrained _ => exact execStackTrained_goesOn hs
  | startTestPassed => exact event_goesOn (advance_memCanon (hs.of_mem rfl rfl))
  | coldReset => exact event_goesOn (checkColumns_memCanon (restart_memCanon hs))
  | maintenanceReset _ => exact event_goesOn (checkColumns_memCanon (restart_memCanon hs))
  | mgmtMarkFailed _ _ => exact execMgmtMarkFailed_goesOn hs
  | mgmtSetThreshold _ _ => exact event_goesOn (ite_memCanon (trigger_memCanon (modStack_memCanon hs))
    (modStack_memCanon hs))
  | mgmtSetDevid _ => exact event_goesOn (ite_memCanon hs (hs.of_mem rfl rfl))
  | linkFlitRetry _ => exact event_goesOn (modLink_memCanon hs)
  | laneFailure _ => exact event_goesOn (modLink_memCanon hs)
  | linkFailure _ => exact execLinkFailure_goesOn hs
  | hostCxlMemAccess _ _ _ => exact execHostCxlMemAccess_goesOn hs
  | backInvalidationAck _ => exact execBackInvalidationAck_goesOn hs
  | peerAccess _ _ _ => exact execPeerAccess_goesOn hs
  | slewTick => exact event_goesOn (ite_memCanon (push_memCanon (hs.of_mem rfl rfl)) (hs.of_mem rfl rfl))
  | staggerWrite _ => exact event_goesOn (writeStagger_memCanon hs)
  | staggerArrival _ _ => exact event_goesOn (hs.of_mem rfl rfl)
  | staggerHoldEnd => exact event_goesOn (ite_memCanon (hs.of_mem rfl rfl) hs)
  | loadWordArrival _ _ _ => exact execLoadWordArrival_goesOn hs
  | stackTrainingFailed _ =>
    exact event_goesOn (ite_memCanon hs (trainingEnds_memCanon (modStack_memCanon hs)))
  | svpoolWrite _ _ => exact event_goesOn (writeSvpool_memCanon hs)
  | counterCarry _ _ => exact event_goesOn (ite_memCanon (modCore_memCanon hs) hs)

theorem exec_answers {i} (hs : s.memCanon) : Answers s (exec i s) := by
  cases i with
  | add _ => exact int2_answers hs
  | sub _ => exact int2_answers hs
  | mul _ => exact int2_answers hs
  | mulh _ => exact int2_answers hs
  | mulhn _ => exact int2_answers hs
  | div _ => exact int2_answers hs
  | divn _ => exact int2_answers hs
  | rem _ => exact int2_answers hs
  | remn _ => exact int2_answers hs
  | and _ => exact int2_answers hs
  | or _ => exact int2_answers hs
  | xor _ => exact int2_answers hs
  | andn _ => exact int2_answers hs
  | orn _ => exact int2_answers hs
  | shl _ => exact int2_answers hs
  | shr _ => exact int2_answers hs
  | sra _ => exact int2_answers hs
  | rol _ => exact int2_answers hs
  | ror _ => exact int2_answers hs
  | min _ => exact int2_answers hs
  | max _ => exact int2_answers hs
  | minn _ => exact int2_answers hs
  | maxn _ => exact int2_answers hs
  | abs _ => exact int1_answers hs
  | clz _ => exact int1_answers hs
  | ctz _ => exact int1_answers hs
  | popc _ => exact int1_answers hs
  | bext _ => exact execBext_answers hs
  | bins _ => exact execBins_answers hs
  | sext _ => exact int1_answers hs
  | zext _ => exact int1_answers hs
  | seq _ => exact intCmp_answers hs
  | sne _ => exact intCmp_answers hs
  | slt _ => exact intCmp_answers hs
  | sle _ => exact intCmp_answers hs
  | sltn _ => exact intCmp_answers hs
  | slen _ => exact intCmp_answers hs
  | sel _ _ _ _ => exact execSel_answers hs
  | addi _ => exact intImm_answers hs
  | andi _ => exact intImm_answers hs
  | ori _ => exact intImm_answers hs
  | xori _ => exact intImm_answers hs
  | shli _ => exact intImm_answers hs
  | shri _ => exact intImm_answers hs
  | srai _ => exact intImm_answers hs
  | slti _ => exact execSlti_answers hs
  | sltni _ => exact execSltni_answers hs
  | li _ _ => exact execLi_answers hs
  | lih _ _ _ => exact execLih_answers hs
  | padd _ _ _ => exact execPadd_answers hs
  | pfmt _ _ _ => exact execPfmt_answers hs
  | pget _ _ => exact execPget_answers hs
  | pstrip _ _ => exact execPstrip_answers hs
  | fadd _ _ _ => exact execFadd_answers hs
  | fsub _ _ _ => exact execFsub_answers hs
  | fmul _ _ _ => exact execFmul_answers hs
  | fmin _ _ _ => exact floatBits_answers hs
  | fmax _ _ _ => exact floatBits_answers hs
  | fsgn _ _ _ => exact floatBits_answers hs
  | ffma _ _ _ _ _ => exact execFfma_answers hs
  | feq _ _ _ => exact execFeq_answers hs
  | flt _ _ _ => exact execFlt_answers hs
  | fle _ _ _ => exact execFle_answers hs
  | fcvt _ _ _ _ _ _ => exact execFcvt_answers hs
  | fcls _ _ => exact execFcls_answers hs
  | beq _ => exact execBeq_answers hs
  | bne _ => exact execBne_answers hs
  | blt _ => exact execBlt_answers hs
  | bge _ => exact execBge_answers hs
  | bltn _ => exact execBltn_answers hs
  | bgen _ => exact execBgen_answers hs
  | jmp hint _ => exact execJmp_answers (_hint := hint) hs
  | jal _ hint _ => exact execJal_answers (_hint := hint) hs
  | jr _ _ => exact execJr_answers hs
  | loopReg _ _ => exact execLoopReg_answers hs
  | loopImm _ _ => exact execLoopImm_answers hs
  | blk _ => exact execBlk_answers hs
  | ld _ => exact execLd_answers hs
  | st _ => exact execSt_answers hs
  | ldp _ => exact execLdp_answers hs
  | stp _ => exact execStp_answers hs
  | ltag _ _ => exact execLtag_answers hs
  | tset _ _ => exact execTset_answers hs
  | tclr _ => exact execTclr_answers hs
  | trap _ => exact execTrap_answers hs
  | sysResume _ => exact execSysResume_answers hs
  | sysKill _ => exact execSysKill_answers hs
  | sysState _ _ => exact execSysState_answers hs
  | eretRetry _ => exact eretWord_answers hs
  | eretNext _ => exact eretWord_answers hs
  | eretKill _ => exact eretWord_answers hs
  | gsr _ _ => exact execGsr_answers hs
  | ssr _ _ => exact execSsr_answers hs
  | tlbiPage _ => exact tlbiWord_answers hs
  | tlbiCtx _ => exact tlbiWord_answers hs
  | tlbiAll _ => exact tlbiWord_answers hs
  | dbgb _ => exact execDbgb_answers hs
  | dump _ _ _ => exact execDump_answers hs
  | pctlRead _ _ _ => exact pctlWord_answers hs
  | ldg _ => exact execLdg_answers hs
  | stg _ => exact execStg_answers hs
  | wtvEq _ => exact waitValue_answers hs
  | wtvNe _ => exact waitValue_answers hs
  | pref _ _ _ _ => exact execPref_answers hs
  | ldvEq _ _ _ _ _ => exact versionLoad_answers hs
  | ldvLe _ _ _ _ _ => exact versionLoad_answers hs
  | stv _ _ _ _ => exact execStv_answers hs
  | stvAt _ _ _ _ _ => exact execStvAt_answers hs
  | vfloor _ _ => exact execVfloor_answers hs
  | vclose _ => exact execVclose_answers hs
  | get _ => exact issueGetPut_answers hs
  | put _ => exact issueGetPut_answers hs
  | ccset _ _ => exact execCcset_answers hs
  | ccwait _ => exact execCcwait_answers hs
  | amoAdd _ => exact returningAtomic_answers hs
  | amoFadd _ => exact returningAtomic_answers hs
  | amoMin _ => exact returningAtomic_answers hs
  | amoMax _ => exact returningAtomic_answers hs
  | amoAnd _ => exact returningAtomic_answers hs
  | amoOr _ => exact returningAtomic_answers hs
  | amoXor _ => exact returningAtomic_answers hs
  | amoSwap _ => exact returningAtomic_answers hs
  | amoCas _ => exact returningAtomic_answers hs
  | amoNrAdd _ => exact bufferedAtomic_answers hs
  | amoNrFadd _ => exact bufferedAtomic_answers hs
  | amoNrMin _ => exact bufferedAtomic_answers hs
  | amoNrMax _ => exact bufferedAtomic_answers hs
  | amoNrAnd _ => exact bufferedAtomic_answers hs
  | amoNrOr _ => exact bufferedAtomic_answers hs
  | amoNrXor _ => exact bufferedAtomic_answers hs
  | amoNrSwap _ => exact bufferedAtomic_answers hs
  | vamoAdd _ => exact vectorAtomic_answers hs
  | vamoFadd _ => exact vectorAtomic_answers hs
  | vamoMin _ => exact vectorAtomic_answers hs
  | vamoMax _ => exact vectorAtomic_answers hs
  | vamoAnd _ => exact vectorAtomic_answers hs
  | vamoOr _ => exact vectorAtomic_answers hs
  | vamoXor _ => exact vectorAtomic_answers hs
  | vamoSwap _ => exact vectorAtomic_answers hs
  | logp _ => exact execLogp_answers hs
  | mrg _ => exact execMrg_answers hs
  | jset _ => exact execJset_answers hs
  | arr _ => exact execArr_answers hs
  | kpass _ _ => exact execKpass_answers hs
  | kqry _ _ => exact execKqry_answers hs
  | lkel _ _ => exact execLkel_answers hs
  | lkab _ => exact execLkab_answers hs
  | scst _ => exact execScst_answers hs
  | scld _ => exact execScld_answers hs
  | scamoAdd _ => exact scAtomic_answers hs
  | scamoFadd _ => exact scAtomic_answers hs
  | scamoMin _ => exact scAtomic_answers hs
  | scamoMax _ => exact scAtomic_answers hs
  | scamoAnd _ => exact scAtomic_answers hs
  | scamoOr _ => exact scAtomic_answers hs
  | scamoXor _ => exact scAtomic_answers hs
  | scamoSwap _ => exact scAtomic_answers hs
  | scamoCas _ => exact scAtomic_answers hs
  | send _ _ => exact execSend_answers hs
  | sendo _ _ _ => exact execSendo_answers hs
  | spawn _ => exact execSpawn_answers hs
  | tagen _ _ _ => exact execTagen_answers hs
  | tagp _ => exact execTagp_answers hs
  | tsset _ => exact execTsset_answers hs
  | gsync _ _ => exact execGsync_answers hs
  | nalloc _ _ => exact execNalloc_answers hs
  | nfree _ => exact execNfree_answers hs
  | rlk _ _ => exact execRlk_answers hs
  | rfuse _ _ => exact execRfuse_answers hs
  | meet _ _ => exact execMeet_answers hs
  | tshr _ => exact shareWord_answers hs
  | tdrop _ => exact shareWord_answers hs
  | tseal _ => exact shareWord_answers hs
  | dpush _ _ _ => exact execDpush_answers hs
  | dpop _ => exact takeOwn_answers hs
  | dsplit _ => exact takeOwn_answers hs
  | dsteal _ _ => exact execDsteal_answers hs
  | dlen _ => exact execDlen_answers hs
  | vadd _ => exact vecWord_answers hs
  | vsub _ => exact vecWord_answers hs
  | vmul _ => exact vecWord_answers hs
  | vfma _ => exact vecWord_answers hs
  | vfms _ => exact vecWord_answers hs
  | vmin _ => exact vecWord_answers hs
  | vmax _ => exact vecWord_answers hs
  | vabs _ => exact vecWord_answers hs
  | vneg _ => exact vecWord_answers hs
  | vrcp _ => exact vecWord_answers hs
  | vrsq _ => exact vecWord_answers hs
  | vexp _ => exact vecWord_answers hs
  | vtanh _ => exact vecWord_answers hs
  | vcvt _ => exact vecWord_answers hs
  | vand _ => exact vecWord_answers hs
  | vor _ => exact vecWord_answers hs
  | vxor _ => exact vecWord_answers hs
  | vshl _ => exact vecWord_answers hs
  | vshr _ => exact vecWord_answers hs
  | vsra _ => exact vecWord_answers hs
  | vcmpEq _ => exact vecWord_answers hs
  | vcmpNe _ => exact vecWord_answers hs
  | vcmpLt _ => exact vecWord_answers hs
  | vcmpLe _ => exact vecWord_answers hs
  | vsel _ => exact vecWord_answers hs
  | vmov _ => exact vecWord_answers hs
  | vmovGm _ => exact vecG_answers hs
  | vmovMm _ => exact vecWord_answers hs
  | vmovMq _ => exact vecWord_answers hs
  | vbcast _ => exact vecG_answers hs
  | vext _ => exact vecWord_answers hs
  | vld _ => exact engineWord_answers vecAddress_keeps hs
  | vst _ => exact vecStore_answers vecAddress_keeps hs
  | vldx _ => exact engineWord_answers vecBase_keeps hs
  | vstx _ => exact vecStore_answers vecBase_keeps hs
  | vldf _ => exact engineWord_answers fmtOps_keeps hs
  | vstf _ => exact vecStore_answers fmtOps_keeps hs
  | vpack _ => exact vecWord_answers hs
  | vunpk _ => exact vecWord_answers hs
  | vredsum _ => exact vecWord_answers hs
  | vredmax _ => exact vecWord_answers hs
  | vredmin _ => exact vecWord_answers hs
  | vdot _ => exact vecWord_answers hs
  | vperm _ => exact vecWord_answers hs
  | vrot _ => exact vecG_answers hs
  | vtopk _ => exact vecWord_answers hs
  | vsig _ => exact vecWord_answers hs
  | mand _ => exact vecWord_answers hs
  | mor _ => exact vecWord_answers hs
  | mnot _ => exact vecWord_answers hs
  | mpop _ => exact vecWord_answers hs
  | mfirst _ => exact vecWord_answers hs
  | mmz _ _ => exact matWord_answers keeps_pure hs
  | mma _ => exact matWord_answers productOps_keeps hs
  | mld _ => exact matWord_answers (matPtr_keeps.bind fun _ => zeroAbove_keeps.bind fun _ => keeps_pure) hs
  | mst _ => exact execMst_answers hs
  | mmv _ => exact execMmv_answers hs
  | msp _ => exact matWord_answers productOps_keeps hs
  | mdir _ => exact matWord_answers (matPtr_keeps.bind fun _ => keeps_pure) hs
  | mdirPush _ => exact matWord_answers (matPtr_keeps.bind fun _ => keeps_pure) hs
  | msclRow _ => exact matWord_answers keeps_pure hs
  | msclCol _ => exact matWord_answers keeps_pure hs
  | msclAll _ => exact matWord_answers (readG_keeps.bind fun _ => keeps_pure) hs
  | mrdRow _ => exact matWord_answers keeps_pure hs
  | mrdCol _ => exact matWord_answers keeps_pure hs
  | mrdEl _ => exact matWord_answers (zeroAbove_keeps.bind fun _ => keeps_pure) hs
  | cpy _ => exact execCpy_answers hs
  | cpyx2d _ => exact copyWord_answers rowOps_keeps hs
  | cpyx3d _ => exact copyWord_answers rowOps_keeps hs
  | cpyc _ => exact execCpyc_answers hs
  | cfill _ => exact execCfill_answers hs
  | gset _ _ _ _ => exact execGset_answers hs
  | gadd _ _ => exact execGadd_answers hs
  | gwt _ _ => exact execGwt_answers hs
  | gpoll _ _ => exact execGpoll_answers hs
  | pjld _ _ => exact engineWord_answers (useG_keeps.bind fun _ => keeps_pure) hs
  | kst _ => exact execKst_answers hs
  | qsig _ => exact engineWord_answers (useDesc_keeps.bind fun _ => useBf_keeps.bind fun _ => keeps_pure) hs
  | bgat _ => exact bgatWord_answers hs
  | bgatH1 _ => exact bgatWord_answers hs
  | psum _ => exact engineWord_answers (useBf_keeps.bind fun _ => useBf_keeps.bind fun _ => keeps_pure) hs
  | pbnd _ => exact execPbnd_answers hs
  | pgatPg _ => exact pgatWord_answers hs
  | pgatTok _ => exact pgatWord_answers hs
  | nop => exact execNop_answers hs
  | fenceH => exact fence_answers hs
  | fenceD => exact fence_answers hs
  | fenceS => exact fence_answers hs
  | lkex => exact execLkex_answers hs
  | done => exact execDone_answers hs
  | loopBodyEnd => exact .inl (execLoopBodyEnd_goesOn hs)
  | pctlClear _ _ _ => exact pctlWord_answers hs
  | pctlProgram _ _ _ => exact pctlWord_answers hs
  | spinTimeout core slot => exact .inl (runEvent_goesOn (e := .spinTimeout core slot) hs)
  | spinWake core slot => exact .inl (runEvent_goesOn (e := .spinWake core slot) hs)
  | wtvWake core slot => exact .inl (runEvent_goesOn (e := .wtvWake core slot) hs)
  | getPutElementLand core n => exact .inl (runEvent_goesOn (e := .getPutElementLand core n) hs)
  | mergeComplete core => exact .inl (runEvent_goesOn (e := .mergeComplete core) hs)
  | waggleWindow => exact .inl (runEvent_goesOn (e := .waggleWindow) hs)
  | scEffect => exact .inl (runEvent_goesOn (e := .scEffect) hs)
  | spawnAnswer core slot accepted => exact .inl (runEvent_goesOn (e := .spawnAnswer core slot accepted) hs)
  | versionRecordsFreed ctx n => exact .inl (runEvent_goesOn (e := .versionRecordsFreed ctx n) hs)
  | orderedSignatureCheck core slot => exact .inl (runEvent_goesOn (e := .orderedSignatureCheck core slot) hs)
  | horizonWindow ctx group => exact .inl (runEvent_goesOn (e := .horizonWindow ctx group) hs)
  | gsyncArrival ctx group core hdr => exact .inl (runEvent_goesOn (e := .gsyncArrival ctx group core hdr) hs)
  | nodeCacheRefill ctx core => exact .inl (runEvent_goesOn (e := .nodeCacheRefill ctx core) hs)
  | stealRequest thief slot victim => exact .inl (runEvent_goesOn (e := .stealRequest thief slot victim) hs)
  | stealReply thief slot victim taken => exact .inl (runEvent_goesOn (e := .stealReply thief slot victim taken) hs)
  | entryRelease ctx core => exact .inl (runEvent_goesOn (e := .entryRelease ctx core) hs)
  | vectorCommandComplete core => exact .inl (runEvent_goesOn (e := .vectorCommandComplete core) hs)
  | mmvStreamFault core => exact .inl (runEvent_goesOn (e := .mmvStreamFault core) hs)
  | matrixCommandRetire core => exact .inl (runEvent_goesOn (e := .matrixCommandRetire core) hs)
  | engineCommandAccept core e => exact .inl (runEvent_goesOn (e := .engineCommandAccept core e) hs)
  | engineCommandStart core e => exact .inl (runEvent_goesOn (e := .engineCommandStart core e) hs)
  | copyBeatLand core n => exact .inl (runEvent_goesOn (e := .copyBeatLand core n) hs)
  | bucketLink l => exact .inl (runEvent_goesOn (e := .bucketLink l) hs)
  | summaryUpdate ctx va isMax key => exact .inl (runEvent_goesOn (e := .summaryUpdate ctx va isMax key) hs)
  | atomicApply u => exact .inl (runEvent_goesOn (e := .atomicApply u) hs)
  | atomicReply core slot place w => exact .inl (runEvent_goesOn (e := .atomicReply core slot place w) hs)
  | joinArrival u => exact .inl (runEvent_goesOn (e := .joinArrival u) hs)
  | shareUpdate u => exact .inl (runEvent_goesOn (e := .shareUpdate u) hs)
  | keyPassApply ctx region holder => exact .inl (runEvent_goesOn (e := .keyPassApply ctx region holder) hs)
  | meetDelivery m lo hi => exact .inl (runEvent_goesOn (e := .meetDelivery m lo hi) hs)
  | hinge ctx x z => exact .inl (runEvent_goesOn (e := .hinge ctx x z) hs)
  | fuse ctx x1 x2 => exact .inl (runEvent_goesOn (e := .fuse ctx x1 x2) hs)
  | fuse2 ctx x2 x1 y1 => exact .inl (runEvent_goesOn (e := .fuse2 ctx x2 x1 y1) hs)
  | fuse3 ctx x1 y2 => exact .inl (runEvent_goesOn (e := .fuse3 ctx x1 y2) hs)
  | join2 ctx t p e => exact .inl (runEvent_goesOn (e := .join2 ctx t p e) hs)
  | join1 ctx t p e => exact .inl (runEvent_goesOn (e := .join1 ctx t p e) hs)
  | fix ctx t p => exact .inl (runEvent_goesOn (e := .fix ctx t p) hs)
  | drain ctx x => exact .inl (runEvent_goesOn (e := .drain ctx x) hs)
  | nfreeMessage ctx n => exact .inl (runEvent_goesOn (e := .nfreeMessage ctx n) hs)
  | messageArrival m => exact .inl (runEvent_goesOn (e := .messageArrival m) hs)
  | messageBounce m => exact .inl (runEvent_goesOn (e := .messageBounce m) hs)
  | bounceResend core => exact .inl (runEvent_goesOn (e := .bounceResend core) hs)
  | spillWake ctx core => exact .inl (runEvent_goesOn (e := .spillWake ctx core) hs)
  | spawnSlotRequest parent slot m => exact .inl (runEvent_goesOn (e := .spawnSlotRequest parent slot m) hs)
  | terminationAck core region => exact .inl (runEvent_goesOn (e := .terminationAck core region) hs)
  | ageingPeriod ctx => exact .inl (runEvent_goesOn (e := .ageingPeriod ctx) hs)
  | sliceExpiry ctx => exact .inl (runEvent_goesOn (e := .sliceExpiry ctx) hs)
  | runLimitExpiry ctx => exact .inl (runEvent_goesOn (e := .runLimitExpiry ctx) hs)
  | contextSaved ctx => exact .inl (runEvent_goesOn (e := .contextSaved ctx) hs)
  | ctxresWrite v => exact .inl (runEvent_goesOn (e := .ctxresWrite v) hs)
  | sliceWrite ctx v => exact .inl (runEvent_goesOn (e := .sliceWrite ctx v) hs)
  | ageWrite ctx v => exact .inl (runEvent_goesOn (e := .ageWrite ctx v) hs)
  | gtsyncWrite ctx v => exact .inl (runEvent_goesOn (e := .gtsyncWrite ctx v) hs)
  | grpWrite ctx core n v => exact .inl (runEvent_goesOn (e := .grpWrite ctx core n v) hs)
  | quantumEnd ctx group core => exact .inl (runEvent_goesOn (e := .quantumEnd ctx group core) hs)
  | quantumService ctx group hive => exact .inl (runEvent_goesOn (e := .quantumService ctx group hive) hs)
  | doorbellWrite queue v => exact .inl (runEvent_goesOn (e := .doorbellWrite queue v) hs)
  | queueAgeing queue => exact .inl (runEvent_goesOn (e := .queueAgeing queue) hs)
  | launch queue => exact .inl (runEvent_goesOn (e := .launch queue) hs)
  | barrier queue => exact .inl (runEvent_goesOn (e := .barrier queue) hs)
  | detlevel queue => exact .inl (runEvent_goesOn (e := .detlevel queue) hs)
  | debug queue => exact .inl (runEvent_goesOn (e := .debug queue) hs)
  | signal queue => exact .inl (runEvent_goesOn (e := .signal queue) hs)
  | debugAttach ctx core w => exact .inl (runEvent_goesOn (e := .debugAttach ctx core w) hs)
  | debugDetach ctx core w => exact .inl (runEvent_goesOn (e := .debugDetach ctx core w) hs)
  | debugSetBreakpoint ctx core w => exact .inl (runEvent_goesOn (e := .debugSetBreakpoint ctx core w) hs)
  | debugClearBreakpoint ctx core w => exact .inl (runEvent_goesOn (e := .debugClearBreakpoint ctx core w) hs)
  | debugStop ctx core w => exact .inl (runEvent_goesOn (e := .debugStop ctx core w) hs)
  | debugCopy ctx core w => exact .inl (runEvent_goesOn (e := .debugCopy ctx core w) hs)
  | debugRelease ctx core w => exact .inl (runEvent_goesOn (e := .debugRelease ctx core w) hs)
  | tlbWalkComplete core slot va => exact .inl (runEvent_goesOn (e := .tlbWalkComplete core slot va) hs)
  | invalidationMessage hive id => exact .inl (runEvent_goesOn (e := .invalidationMessage hive id) hs)
  | invalidationDone hive id => exact .inl (runEvent_goesOn (e := .invalidationDone hive id) hs)
  | memoryPortAccess core target addr write len => exact .inl (runEvent_goesOn (e := .memoryPortAccess core target addr write len) hs)
  | versionRequest core slot id => exact .inl (runEvent_goesOn (e := .versionRequest core slot id) hs)
  | versionWake core slot id => exact .inl (runEvent_goesOn (e := .versionWake core slot id) hs)
  | versionReclaim ctx line => exact .inl (runEvent_goesOn (e := .versionReclaim ctx line) hs)
  | vrsyncWrite ctx v => exact .inl (runEvent_goesOn (e := .vrsyncWrite ctx v) hs)
  | vhctlGrant ctx v => exact .inl (runEvent_goesOn (e := .vhctlGrant ctx v) hs)
  | vhctlRelease ctx v => exact .inl (runEvent_goesOn (e := .vhctlRelease ctx v) hs)
  | heapReleaseComplete ctx => exact .inl (runEvent_goesOn (e := .heapReleaseComplete ctx) hs)
  | errorWindowExpiry stack count => exact .inl (runEvent_goesOn (e := .errorWindowExpiry stack count) hs)
  | mgmtRetirementTrigger stack => exact .inl (runEvent_goesOn (e := .mgmtRetirementTrigger stack) hs)
  | mgmtWithdrawTrigger => exact .inl (runEvent_goesOn (e := .mgmtWithdrawTrigger) hs)
  | mretireAck => exact .inl (runEvent_goesOn (e := .mretireAck) hs)
  | stripMoveComplete => exact .inl (runEvent_goesOn (e := .stripMoveComplete) hs)
  | mapBroadcastReceived requester => exact .inl (runEvent_goesOn (e := .mapBroadcastReceived requester) hs)
  | retirementCommit => exact .inl (runEvent_goesOn (e := .retirementCommit) hs)
  | retiredStackPowerDown stack => exact .inl (runEvent_goesOn (e := .retiredStackPowerDown stack) hs)
  | stackLost stack => exact .inl (runEvent_goesOn (e := .stackLost stack) hs)
  | hbmRequestArrival r => exact .inl (runEvent_goesOn (e := .hbmRequestArrival r) hs)
  | replayIndication r => exact .inl (runEvent_goesOn (e := .replayIndication r) hs)
  | uncorrectableError d source => exact .inl (runEvent_goesOn (e := .uncorrectableError d source) hs)
  | fringConsWrite hive v => exact .inl (runEvent_goesOn (e := .fringConsWrite hive v) hs)
  | frbaseEnable hive v => exact .inl (runEvent_goesOn (e := .frbaseEnable hive v) hs)
  | ctxstResume ctx v => exact .inl (runEvent_goesOn (e := .ctxstResume ctx v) hs)
  | cmoveWrite ctx v => exact .inl (runEvent_goesOn (e := .cmoveWrite ctx v) hs)
  | saveAreaFreed ctx handle => exact .inl (runEvent_goesOn (e := .saveAreaFreed ctx handle) hs)
  | rcentWrite ctx core v => exact .inl (runEvent_goesOn (e := .rcentWrite ctx core v) hs)
  | sperrClear ctx core v => exact .inl (runEvent_goesOn (e := .sperrClear ctx core v) hs)
  | powerGood => exact .inl (runEvent_goesOn (e := .powerGood) hs)
  | hostLinkTrained => exact .inl (runEvent_goesOn (e := .hostLinkTrained) hs)
  | stackTrained stack => exact .inl (runEvent_goesOn (e := .stackTrained stack) hs)
  | startTestPassed => exact .inl (runEvent_goesOn (e := .startTestPassed) hs)
  | coldReset => exact .inl (runEvent_goesOn (e := .coldReset) hs)
  | maintenanceReset failed => exact .inl (runEvent_goesOn (e := .maintenanceReset failed) hs)
  | mgmtMarkFailed stack failed => exact .inl (runEvent_goesOn (e := .mgmtMarkFailed stack failed) hs)
  | mgmtSetThreshold stack n => exact .inl (runEvent_goesOn (e := .mgmtSetThreshold stack n) hs)
  | mgmtSetDevid id => exact .inl (runEvent_goesOn (e := .mgmtSetDevid id) hs)
  | linkFlitRetry link => exact .inl (runEvent_goesOn (e := .linkFlitRetry link) hs)
  | laneFailure link => exact .inl (runEvent_goesOn (e := .laneFailure link) hs)
  | linkFailure link => exact .inl (runEvent_goesOn (e := .linkFailure link) hs)
  | hostCxlMemAccess off write len => exact .inl (runEvent_goesOn (e := .hostCxlMemAccess off write len) hs)
  | backInvalidationAck line => exact .inl (runEvent_goesOn (e := .backInvalidationAck line) hs)
  | peerAccess off write len => exact .inl (runEvent_goesOn (e := .peerAccess off write len) hs)
  | slewTick => exact .inl (runEvent_goesOn (e := .slewTick) hs)
  | staggerWrite v => exact .inl (runEvent_goesOn (e := .staggerWrite v) hs)
  | staggerArrival k w => exact .inl (runEvent_goesOn (e := .staggerArrival k w) hs)
  | staggerHoldEnd => exact .inl (runEvent_goesOn (e := .staggerHoldEnd) hs)
  | loadWordArrival core slot id => exact .inl (runEvent_goesOn (e := .loadWordArrival core slot id) hs)
  | stackTrainingFailed stack => exact .inl (runEvent_goesOn (e := .stackTrainingFailed stack) hs)
  | svpoolWrite ctx v => exact .inl (runEvent_goesOn (e := .svpoolWrite ctx v) hs)
  | counterCarry core n => exact .inl (runEvent_goesOn (e := .counterCarry core n) hs)

end Sys2Proof.Machine
end

section
/-! PROOFS (O58). A fetch gives a word only with a task running, so that no step faults. -/

namespace Sys2Proof.Machine

/-- The same core is in focus, and each core runs the same slot. -/
def SameRunning (s t : State) : Prop := t.focus = s.focus ∧ ∀ c, (t.core c).running = (s.core c).running

variable {s t u : State}

theorem SameRunning.refl : SameRunning s s := ⟨rfl, fun _ => rfl⟩

theorem SameRunning.trans (h : SameRunning s t) (h' : SameRunning t u) : SameRunning s u :=
  ⟨h'.1.trans h.1, fun c => (h'.2 c).trans (h.2 c)⟩

theorem SameRunning.current_eq (h : SameRunning s t) : t.current = s.current := by
  obtain ⟨hf, hr⟩ := h
  simp [State.current, hf, hr]

/-- An update of a core that leaves the slot it runs. -/
theorem setCore_sameRunning {c v} (hv : v.running = (s.core c).running) : SameRunning s (s.setCore c v) := by
  refine ⟨rfl, fun j => ?_⟩
  by_cases hj : j = c
  · subst hj
    simp [State.core, State.setCore, hv]
  · simp [State.core, State.setCore, Tab.get_set_other hj]

theorem modSpace_sameRunning {ctx core f} : SameRunning s (s.modSpace ctx core f) := ⟨rfl, fun _ => rfl⟩

theorem modHive_sameRunning {h f} : SameRunning s (s.modHive h f) := ⟨rfl, fun _ => rfl⟩

theorem tlbDrop_sameRunning {core ctx va} : SameRunning s (s.tlbDrop core ctx va) := by
  refine SameRunning.trans ?_ modHive_sameRunning
  exact setCore_sameRunning rfl

theorem lend_sameRunning {core slot e} : SameRunning s (s.lend core slot e) := by
  refine SameRunning.trans (t := s.modSpace (s.installedCtx core) core fun sp => sp.clearSlot slot) modSpace_sameRunning ?_
  exact setCore_sameRunning rfl

theorem tlbFill_sameRunning {core fetch e} : SameRunning s (s.tlbFill core fetch e) := by
  unfold State.tlbFill
  extract_lets cap c l1
  split
  refine SameRunning.trans ?_ modHive_sameRunning
  have h1 (l) : SameRunning s (s.setCore core (if fetch then { c with tlbI := l } else { c with tlbD := l })) :=
    setCore_sameRunning (by cases fetch <;> rfl)
  split
  · exact h1 _
  · split
    · exact h1 _
    · exact (h1 _).trans lend_sameRunning

theorem ite_sameRunning {c : Prop} [Decidable c] (ht : SameRunning s t) (hu : SameRunning s u) :
    SameRunning s (if c then t else u) := by
  split <;> assumption

theorem translate_sameRunning {core ctx va super k} : SameRunning s (s.translate core ctx va super k).2 := by
  unfold State.translate
  dsimp only
  split
  · exact .refl
  · split
    · exact ite_sameRunning tlbDrop_sameRunning .refl
    · exact ite_sameRunning tlbDrop_sameRunning .refl
    · split
      · exact (ite_sameRunning tlbDrop_sameRunning .refl).trans tlbFill_sameRunning
      · exact ite_sameRunning tlbDrop_sameRunning .refl

theorem fillCaches_sameRunning {core pa} : SameRunning s (s.fillCaches core pa) := by
  unfold State.fillCaches
  extract_lets l s1
  exact SameRunning.trans (t := s1) modHive_sameRunning (setCore_sameRunning rfl)

theorem fetchWord_sameRunning {core pa} : SameRunning s (s.fetchWord core pa).2 := by
  unfold State.fetchWord
  extract_lets now pick
  split
  · exact .refl
  · split
    · exact setCore_sameRunning rfl
    · exact fillCaches_sameRunning

/-- A fetch leaves a canonical state, and a running task where it gives a word. -/
def Fetched.memCanon : Fetched → Prop
  | .idle s => s.memCanon
  | .stop s => s.memCanon
  | .word _ s => s.memCanon ∧ s.current ≠ none

theorem fetch_memCanon {c} (hs : s.memCanon) : (fetch c s).memCanon := by
  unfold fetch
  extract_lets s1
  have h1 : s1.memCanon := select_memCanon (hs.of_mem rfl rfl)
  clear_value s1
  split
  · exact h1
  · rename_i k hk
    extract_lets t bad
    have hb : bad.memCanon := modTask_memCanon h1
    split
    · exact h1
    · split
      · exact debugStop_memCanon h1
      · split
        rename_i x s2 e
        have h2 := snd_memCanon (translate_memCanon h1) e
        have r2 : SameRunning s1 s2 := by
          have := translate_sameRunning (s := s1) (core := c) (ctx := t.ctx) (va := t.pc) (super := t.super) (k := .fetch)
          rwa [e] at this
        cases x with
        | page cause level => exact takeUpcall_memCanon hb
        | protection => exact takeTrap_memCanon hb
        | translation => exact takeTrap_memCanon hb
        | migrating => exact finish_memCanon h1 trivial
        | ok pa leaf =>
          dsimp only
          split
          · exact takeTrap_memCanon hb
          · have h3 : (s2.fetchWord c pa).2.memCanon := fetchWord_memCanon h2
            have hr : (s2.fetchWord c pa).2.current = some k :=
              (fetchWord_sameRunning.current_eq.trans r2.current_eq).trans hk
            split
            · exact ⟨h3.of_mem rfl rfl, fun hn => nomatch hr.symm.trans hn⟩
            · exact takeTrap_memCanon (notePassed_memCanon (h3.of_mem rfl rfl))

theorem runDecoded_answers {d} (hs : s.memCanon) : Answers s (runDecoded d s) := by
  cases d with
  | std i => exact exec_answers hs
  | cpy x => exact exec_answers (i := .cpy x) hs
  | cpyx2d x => exact exec_answers (i := .cpyx2d x) hs
  | cpyx3d x => exact exec_answers (i := .cpyx3d x) hs
  | cpyc x => exact exec_answers (i := .cpyc x) hs
  | cfill x => exact exec_answers (i := .cfill x) hs
  | gset gate cmd a b => exact exec_answers (i := .gset gate cmd a b) hs
  | gadd gate a => exact exec_answers (i := .gadd gate a) hs
  | gwt gate phase => exact exec_answers (i := .gwt gate phase) hs
  | gpoll d gate => exact exec_answers (i := .gpoll d gate) hs
  | pjld a g => exact exec_answers (i := .pjld a g) hs
  | kst x => exact exec_answers (i := .kst x) hs
  | qsig x => exact exec_answers (i := .qsig x) hs
  | bgat x => exact exec_answers (i := .bgat x) hs
  | bgatH1 x => exact exec_answers (i := .bgatH1 x) hs
  | psum x => exact exec_answers (i := .psum x) hs
  | pbnd x => exact exec_answers (i := .pbnd x) hs
  | pgatPg x => exact exec_answers (i := .pgatPg x) hs
  | pgatTok x => exact exec_answers (i := .pgatTok x) hs

theorem wordTurn_goesOn {c} (hs : s.memCanon) : GoesOn (wordTurn c s) := by
  have hf : (fetch c s).memCanon := fetch_memCanon hs
  unfold wordTurn
  split <;> rename_i e <;> rw [e] at hf
  · exact event_goesOn hf
  · exact event_goesOn hf
  · obtain ⟨ht, hr⟩ := hf
    exact (runDecoded_answers ht).resolve_right fun h => hr h.1

theorem step_goesOn (hs : s.memCanon) : GoesOn (step s) := by
  have ht : s.turn.2.memCanon := turn_memCanon hs
  unfold step
  split <;> rename_i e <;> rw [e] at ht
  · exact event_goesOn ht
  · exact wordTurn_goesOn ht
  · exact runEvent_goesOn ht
  · rename_i i u
    have hp : (u.takePending i).2.memCanon := takePending_memCanon ht
    split <;> rename_i e <;> rw [e] at hp
    · exact runEvent_goesOn hp
    · exact event_goesOn hp

/-- Settles O58: each write of the memory keeps it canonical, each meaning changes it by such writes only,
and the one fault of `exec`, a word with no running task, is not reached from a fetch. -/
theorem stepKeepsMemoryCanonical : Obligations.StepKeepsMemoryCanonical := by
  intro s hs
  obtain ⟨t, ht, hc⟩ := step_goesOn (s.inv_iff_memCanon.mp hs)
  exact ⟨t, ht, t.inv_iff_memCanon.mpr hc⟩

end Sys2Proof.Machine
end

section
/-! PROOFS (O52). What reports, error records, triggers and acknowledgements do to the state. -/

namespace Sys2Proof.Machine

/-! ### What a report writes -/

/-- `t` is `s` but for what a report writes: main memory and its tags, the hives' rings, the events that wait, the mailbox and the
number of the next error record. -/
def Reported (s t : State) : Prop :=
  ∃ mem lineTags hives pending mailbox mailboxLost erNext,
    t = { s with mem := mem, lineTags := lineTags, hives := hives, pending := pending, mailbox := mailbox
                 mailboxLost := mailboxLost, erNext := erNext }

namespace Reported

variable {s t u : State}

theorem refl : Reported s s := ⟨_, _, _, _, _, _, _, rfl⟩

theorem trans (h : Reported s t) (h' : Reported t u) : Reported s u := by
  obtain ⟨_, _, _, _, _, _, _, rfl⟩ := h
  obtain ⟨_, _, _, _, _, _, _, rfl⟩ := h'
  exact ⟨_, _, _, _, _, _, _, rfl⟩

section

variable (h : Reported s t)
include h

theorem tasks : t.tasks = s.tasks := by obtain ⟨_, _, _, _, _, _, _, rfl⟩ := h; rfl
theorem ret : t.ret = s.ret := by obtain ⟨_, _, _, _, _, _, _, rfl⟩ := h; rfl
theorem sset : t.sset = s.sset := by obtain ⟨_, _, _, _, _, _, _, rfl⟩ := h; rfl
theorem hbm : t.hbm = s.hbm := by obtain ⟨_, _, _, _, _, _, _, rfl⟩ := h; rfl
theorem stack (n : Nat) : t.stack n = s.stack n := by obtain ⟨_, _, _, _, _, _, _, rfl⟩ := h; rfl

end

theorem of_countPoison {tag n : Nat} : Reported s (s.countPoison tag n) := by
  unfold State.countPoison
  split
  · exact refl
  · exact ⟨_, _, _, _, _, _, _, rfl⟩

theorem of_putMem {pa tag : Nat} {bs : List Byte} : Reported s (s.putMem pa bs tag) :=
  trans ⟨_, _, _, _, _, _, _, rfl⟩ of_countPoison

theorem of_foldl {α : Type} {f : State → α → State} (hf : ∀ s a, Reported s (f s a)) (l : List α) (s : State) :
    Reported s (l.foldl f s) := by
  induction l generalizing s with
  | nil => exact refl
  | cons a l ih => exact (hf s a).trans (ih (f s a))

theorem of_writeMem {pa tag : Nat} {bs : List Byte} : Reported s (s.writeMem pa bs tag) := by
  unfold State.writeMem
  split
  · exact of_putMem
  · refine of_foldl (fun s c => ?_) _ s
    split
    · exact of_putMem
    · exact refl

theorem of_writeWords {pa : Nat} {ws : List Word} : Reported s (s.writeWords pa ws) := by
  induction ws generalizing s pa with
  | nil => exact refl
  | cons w ws ih => exact of_writeMem.trans ih

theorem of_modHive {n : Nat} {f : Hive → Hive} : Reported s (s.modHive n f) := ⟨_, _, _, _, _, _, _, rfl⟩

theorem of_push {e : Event} : Reported s (s.push e) := ⟨_, _, _, _, _, _, _, rfl⟩

theorem of_mail {r : List Word} : Reported s (s.mail r) := by
  unfold State.mail
  split <;> exact ⟨_, _, _, _, _, _, _, rfl⟩

theorem of_interrupt {code cause ctx : Nat} {items : List Word} : Reported s (s.interrupt code cause ctx items) := by
  unfold State.interrupt State.postOrKeep
  split
  · exact (of_writeWords.trans of_modHive).trans of_push
  · exact of_modHive

theorem of_retireNotice {code : Nat} : Reported s (s.retireNotice code) := of_interrupt.trans of_mail

theorem of_errorRecord {source unit pa lines : Nat} : Reported s (s.errorRecord source unit pa lines).2 := by
  unfold State.errorRecord
  split
  · exact refl
  · split
    · exact refl
    · exact trans ⟨_, _, _, _, _, _, _, rfl⟩ of_writeWords

end Reported

/-! ### Reading a stack -/

namespace State

variable {s : State}

@[simp] theorem stack_modStack_self (n : Nat) (f : Stack → Stack) : (s.modStack n f).stack n = f (s.stack n) := by
  simp [stack, modStack]

theorem stack_modStack_other {n j : Nat} (h : j ≠ n) (f : Stack → Stack) : (s.modStack n f).stack j = s.stack j := by
  simp [stack, modStack, Tab.get_set_other h]

@[simp] theorem stack_cycle (n : Nat) : s.cycle.stack n = s.stack n := rfl

/-! ### Machine errors -/

section

variable (kind item : Nat)

@[simp] theorem machineError_stack (n : Nat) : (s.machineError kind item).stack n = s.stack n := Reported.of_mail.stack n
@[simp] theorem machineError_ret : (s.machineError kind item).ret = s.ret := Reported.of_mail.ret
@[simp] theorem machineError_sset : (s.machineError kind item).sset = s.sset := Reported.of_mail.sset
@[simp] theorem machineError_tasks : (s.machineError kind item).tasks = s.tasks := Reported.of_mail.tasks

end

/-! ### Announcing a retirement -/

/-- The number of a record depends on the error ring alone, not on what the record says. -/
theorem errorRecord_fst_congr {t : State} (hb : t.erbase = s.erbase) (hn : t.erNext = s.erNext)
    {source unit pa lines : Nat} : (t.errorRecord source unit pa lines).1 = (s.errorRecord source unit pa lines).1 := by
  unfold errorRecord
  rw [hb, hn]
  split
  · rfl
  · split <;> rfl

/-- `Retire` without a stack among those that wait, and that stack announced. -/
def announced (s : State) (st : Nat) : Retire :=
  let tag := (s.errorRecord 5 st 0 0).1
  { s.ret with rstate := 1, stack := st, erec := if tag = 0xFFF then 0 else tag
               pend := if s.ret.pend.testBit st then s.ret.pend - 2 ^ st else s.ret.pend
               lostPend := if s.ret.lostPend.testBit st then s.ret.lostPend - 2 ^ st else s.ret.lostPend }

/-- An announcement writes the retirement's registers; all else that changes is what its reports write. -/
theorem announceRetire_reported (st : Nat) : ∃ u, Reported s u ∧
    Reported { u with ret := s.announced st } (s.announceRetire st) := by
  refine ⟨(s.errorRecord 5 st 0 0).2, .of_errorRecord, ?_⟩
  have hr := (Reported.of_errorRecord (s := s) (source := 5) (unit := st) (pa := 0) (lines := 0)).ret
  have h : s.announceRetire st = ({ (s.errorRecord 5 st 0 0).2 with ret := s.announced st } : State).retireNotice 33 := by
    unfold announceRetire announced
    simp only [hr]
  rw [h]
  exact .of_retireNotice

theorem announceRetire_ret (st : Nat) : (s.announceRetire st).ret = s.announced st := by
  obtain ⟨u, -, h⟩ := announceRetire_reported (s := s) st
  exact h.ret

theorem announceRetire_sset (st : Nat) : (s.announceRetire st).sset = s.sset := by
  obtain ⟨u, hu, h⟩ := announceRetire_reported (s := s) st
  exact h.sset.trans hu.sset

theorem announceRetire_tasks (st : Nat) : (s.announceRetire st).tasks = s.tasks := by
  obtain ⟨u, hu, h⟩ := announceRetire_reported (s := s) st
  exact h.tasks.trans hu.tasks

theorem announceRetire_stack (st n : Nat) : (s.announceRetire st).stack n = s.stack n := by
  obtain ⟨u, hu, h⟩ := announceRetire_reported (s := s) st
  exact (h.stack n).trans (hu.stack n)

/-! ### Triggers -/

theorem refuse_of_lost {st : Nat} (h : (s.stack st).lost.isSome = true) :
    s.refuse st = ({ s with ret := { s.ret with refused := true } } : State).machineError 3 st := if_pos h

theorem refuse_of_not_lost {st : Nat} (h : (s.stack st).lost = none) :
    s.refuse st = { s with ret := { s.ret with refused := true } } := if_neg (by
  show ¬ (s.stack st).lost.isSome = true
  simp [h])

theorem trigger_of_canRetire {st : Nat} (h : Claims.canRetire s st) : s.trigger st = s.announceRetire st := by
  obtain ⟨hm, hr, hn⟩ := h
  simp [trigger, hm, hr, hn]

theorem trigger_recorded {st : Nat} (hm : st ∈ s.sset) (hr : s.ret.rstate ≠ 0) (hn : 8 < s.sset.length - 1)
    (hs : st ≠ s.ret.stack) :
    s.trigger st = { s with ret :=
      { s.ret with pend := s.ret.pend ||| 2 ^ st
                   lostPend := if (s.stack st).lost.isSome then s.ret.lostPend ||| 2 ^ st else s.ret.lostPend } } := by
  simp [trigger, hm, hr, hn, hs]

/-- At the smallest configuration a trigger, of the retiring stack too, sets refused. -/
theorem trigger_refused {st : Nat} (hm : st ∈ s.sset) (hr : s.ret.rstate ≠ 0) (hn : s.sset.length - 1 ≤ 8)
    (hl : (s.stack st).lost = none) : s.trigger st = { s with ret := { s.ret with refused := true } } := by
  have hlt : ¬ 8 < s.sset.length - 1 := by omega
  by_cases hs : st = s.ret.stack
  · subst hs
    simp [trigger, hm, hr, hlt]
  · simp [trigger, hm, hr, hlt, hs, refuse_of_not_lost hl]

theorem trigger_lost {st : Nat} (hm : st ∈ s.sset) (hr : s.ret.rstate = 0) (hn : s.sset.length ≤ 8)
    (hl : (s.stack st).lost.isSome = true) :
    s.trigger st = ({ s with ret := { s.ret with refused := true } } : State).machineError 3 st := by
  have hlt : ¬ 8 < s.sset.length := by omega
  rw [← refuse_of_lost hl]
  simp [trigger, hm, hr, hlt]

theorem countCorrected_quiet {st n : Nat}
    (h : (s.stack st).corrected + n ≤ (s.stack st).thr ∨ (s.stack st).thr < (s.stack st).corrected) :
    s.countCorrected st n = s.modStack st (fun x => { x with corrected := x.corrected + n }) :=
  if_neg (by omega)

theorem countCorrected_passes {st n : Nat} (h : (s.stack st).corrected ≤ (s.stack st).thr)
    (h' : (s.stack st).thr < (s.stack st).corrected + n) :
    s.countCorrected st n = (s.modStack st (fun x => { x with corrected := x.corrected + n })).trigger st :=
  if_pos ⟨h, h'⟩

theorem ackBreaks_iff : s.ackBreaks = true ↔ s.ret.rstate = 1 ∧
    ((∃ p ∈ s.ctxs, ∃ f ∈ p.2.frames, s.mcapNext ≤ f) ∨
      s.hostwin.getLsbD 63 = true ∧ s.mcapNext < s.hostwin.toNat % 2 ^ 10 + s.hostwin.toNat / 2 ^ 16 % 2 ^ 10) := by
  simp [ackBreaks]

theorem ackRetire_of_announced (h : s.ret.rstate = 1) :
    s.ackRetire = { s with ret := { s.ret with rstate := 2, active := true, frame := s.mcapNext - 1, strip := 511 }
                           mapVersion := s.mapVersion + 1 } := by
  simp [ackRetire, h, broadcast]

theorem ackRetire_of_not_announced (h : s.ret.rstate ≠ 1) : s.ackRetire = s := if_pos h

theorem stripPoison_of_noLoss (h : Claims.noLoss s) : s.stripPoison = s := if_pos h

theorem examinePend_of_none (h : s.ret.pend = 0) : s.examinePend = s := by
  have hn : s.ret.nextPend = none := by
    have hno : (List.range 16).find? (fun _ => false) = none := by simp
    simp [Retire.nextPend, h, hno]
  simp [examinePend, hn]

theorem foldl_push_pending {α : Type} (f : α → Event) (l : List α) (s : State) :
    l.foldl (fun s a => s.push (f a)) s = { s with pending := s.pending ++ l.map f } := by
  induction l generalizing s with
  | nil => simp
  | cons a l ih => rw [List.foldl_cons, ih]; simp [push]

/-- No retirement remains for a lost stack exactly when the stacks that stay would be fewer than 8 (R40). -/
theorem noRetirement_eq_false_iff {st : Nat} : s.noRetirement st = false ↔
    if s.ret.rstate = 0 then 8 < s.sset.length else s.ret.stack = st ∨ 9 < s.sset.length := by
  unfold noRetirement
  split
  · simp
  · by_cases h : s.ret.stack = st <;> simp [h]

/-! ### A request's decision -/

variable {r : HbmReq}

theorem requestArrives_lost (h : (s.stack r.stack).lost.isSome = true) : s.requestArrives r = s.served r := if_pos h

/-- The other three rows, for a stack that answers. -/
theorem requestArrives_answers (h : (s.stack r.stack).lost = none) : s.requestArrives r =
    if (s.stack r.stack).replaying || (s.mapCopy (513 + r.stack)).phase != r.phase then s.push (.replayIndication r)
    else if (s.mapCopy (513 + r.stack)).cursor = some (r.frame, r.strip) then
      if (s.stack r.stack).held.length < 256 then s.modStack r.stack (fun x => { x with held := x.held ++ [r] })
      else s.push (.replayIndication r)
    else if !r.mapBit && aboveCursor (s.mapCopy (513 + r.stack)).cursor r.frame r.strip then s.push (.replayIndication r)
    else (s.served r).countCorrected r.stack (Config.correctedErrors s.tick) :=
  if_neg (by simp [h])

end State

end Sys2Proof.Machine
end

section
/-! PROOFS (O52). Retirement of a stack: announced, moved, committed; stacks that are lost; requests. -/

namespace Sys2Proof.Machine

variable {s : State}

/-- What the trigger of a retirement that can be announced leaves, whatever raised it: `u` is the state that it is raised in. -/
theorem trigger_announces {u : State} {st tag : Nat} (h : Claims.canRetire u st) (hb : u.erbase = s.erbase)
    (hn : u.erNext = s.erNext) (htag : (s.errorRecord 5 st 0 0).1 = tag) :
    (u.trigger st).ret.rstate = 1 ∧ (u.trigger st).ret.stack = st ∧
      (u.trigger st).ret.erec = (if tag = 0xFFF then 0 else tag) ∧ (u.trigger st).sset = u.sset ∧
      (u.trigger st).mcapNext = capacity (u.sset.length - 1) ∧ (u.trigger st).tasks = u.tasks ∧
      (u.trigger st).stack st = u.stack st := by
  have ht : (u.errorRecord 5 st 0 0).1 = tag := (State.errorRecord_fst_congr hb hn).trans htag
  rw [State.trigger_of_canRetire h]
  simp [State.announceRetire_ret, State.announced, ht, State.announceRetire_sset, State.announceRetire_tasks,
    State.announceRetire_stack, State.mcapNext]

/-- R33, R34: a trigger of the management controller, of the count of a window or of a new threshold announces a retirement. -/
theorem retirement_announced {st n tag : Nat} {s1 : State} (h : Claims.canRetire s st)
    (he : s.errorRecord 5 st 0 0 = (tag, s1)) {i : Instr}
    (hi : i = .mgmtRetirementTrigger st ∨
        i = .errorWindowExpiry st n ∧ (s.stack st).corrected ≤ (s.stack st).thr ∧
          (s.stack st).thr < (s.stack st).corrected + n ∨
        i = .mgmtSetThreshold st n ∧ (s.stack st).corrected ≤ (s.stack st).thr ∧ n < (s.stack st).corrected) :
    ∃ t, Claims.Next (exec i s) t ∧ (i = .errorWindowExpiry st n → (t.stack st).corrected = 0) ∧
      (i = .mgmtSetThreshold st n → (t.stack st).thr = n) ∧
      t.ret.rstate = 1 ∧ t.ret.stack = st ∧ t.ret.erec = (if tag = 0xFFF then 0 else tag) ∧
      t.mcapNext = capacity (s.sset.length - 1) ∧ t.sset = s.sset ∧ t.tasks = s.tasks := by
  have htag : (s.errorRecord 5 st 0 0).1 = tag := congrArg Prod.fst he
  obtain rfl | ⟨rfl, hc, hn⟩ | ⟨rfl, hc, hn⟩ := hi
  · obtain ⟨h1, h2, h3, h4, h5, h6, -⟩ := trigger_announces h rfl rfl htag
    exact ⟨_, rfl, nofun, nofun, h1, h2, h3, h5, h4, h6⟩
  · let u := s.modStack st (fun x => { x with corrected := x.corrected + n })
    obtain ⟨h1, h2, h3, h4, h5, h6, -⟩ := trigger_announces (s := s) (u := u) h rfl rfl htag
    refine ⟨((u.trigger st).modStack st (fun x => { x with corrected := 0 })).cycle, ?_, fun _ => ?_, nofun,
      h1, h2, h3, h5, h4, h6⟩
    · show execErrorWindowExpiry st n s = _
      rw [execErrorWindowExpiry, State.countCorrected_passes hc hn]
      rfl
    · simp
  · let u := s.modStack st (fun x => { x with thr := n })
    obtain ⟨h1, h2, h3, h4, h5, h6, h7⟩ := trigger_announces (s := s) (u := u) h rfl rfl htag
    refine ⟨(u.trigger st).cycle, ?_, nofun, fun _ => ?_, h1, h2, h3, h5, h4, h6⟩
    · show execMgmtSetThreshold st n s = _
      simp only [execMgmtSetThreshold]
      rw [if_pos ⟨hc, hn⟩]
      rfl
    · rw [State.stack_cycle, h7]
      simp [u]

/-- R38: what the commit of a retirement leaves, with no trigger waiting. -/
theorem retirement_commits (hr : s.ret.rstate = 3) (hm : s.mapTaken = true) (hp : s.ret.pend = 0) :
    ∃ t, Claims.Next (exec .retirementCommit s) t ∧
    t.sset = s.sset.filter (· != s.ret.stack) ∧ t.ret.rstate = 0 ∧ t.ret.active = false ∧
    t.ret.phase = (s.ret.phase + 1) % 2 ^ 16 ∧ t.mcap = capacity t.sset.length ∧ t.mcapNext = 0 ∧
    (t.stack s.ret.stack).replaying = true ∧ t.tasks = s.tasks := by
  let u : State := { s with
    sset := s.sset.filter (· != s.ret.stack)
    ret := { s.ret with rstate := 0, active := false, phase := (s.ret.phase + 1) % 65536 } }
  let v := (u.modStack s.ret.stack (fun x => { x with replaying := true, lost := none })).broadcast
  have hv : Reported v (v.retireNotice 34) := .of_retireNotice
  have hx : execRetirementCommit s = event (v.retireNotice 34).examinePend := by
    simp [execRetirementCommit, hr, hm, u, v]
  rw [State.examinePend_of_none (by rw [hv.ret]; exact hp)] at hx
  have hrs : (v.retireNotice 34).cycle.ret.rstate = 0 := congrArg Retire.rstate hv.ret
  refine ⟨_, hx, hv.sset, hrs, congrArg Retire.active hv.ret, congrArg Retire.phase hv.ret, rfl,
    State.mcapNext_of_no_retirement hrs, ?_, hv.tasks⟩
  rw [State.stack_cycle, hv.stack]
  exact congrArg Stack.replaying (u.stack_modStack_self s.ret.stack (fun x => { x with replaying := true, lost := none }))

/-- R36: a copy takes the newest map. -/
theorem mapBroadcast_received (n : Nat) : ∃ t, Claims.Next (exec (.mapBroadcastReceived n) s) t ∧
    Tab.get .none t.mapCopies n = { version := s.mapVersion, phase := s.ret.phase, cursor := s.cursor } ∧
    (∀ j, j ≠ n → Tab.get .none t.mapCopies j = Tab.get .none s.mapCopies j) ∧
    (n < 513 → t.pending = s.pending) ∧ t.ret = s.ret ∧ t.mem = s.mem := by
  by_cases hn : n < 513
  · have hx : execMapBroadcastReceived n s = event { s with
        mapCopies := Tab.set .none s.mapCopies n { version := s.mapVersion, phase := s.ret.phase, cursor := s.cursor } } := by
      simp [execMapBroadcastReceived, hn]
    exact ⟨_, hx, Tab.get_set_self _ _ _ _, fun j hj => Tab.get_set_other hj _, fun _ => rfl, rfl, rfl⟩
  · refine ⟨_, rfl, ?_⟩
    rw [if_neg hn]
    simp only [State.foldl_push_pending]
    exact ⟨Tab.get_set_self _ _ _ _, fun j hj => Tab.get_set_other hj _, fun h => absurd h hn, rfl, rfl⟩

/-- R39, R40: a stack that is lost, with or without a retirement left for it. -/
theorem stack_lost {st tag : Nat} {s1 : State} (hm : st ∈ s.sset) (hl : (s.stack st).lost = none)
    (he : s.errorRecord 6 st 0 0 = (tag, s1)) :
    let s2 := (s1.modStack st (fun x => { x with lost := some tag })).machineError 2 st
    let left := if s.ret.rstate = 0 then 8 < s.sset.length else s.ret.stack = st ∨ 9 < s.sset.length
    (left → Claims.Next (exec (.stackLost st) s) s2.cycle) ∧
    (¬ left → Claims.Next (exec (.stackLost st) s)
      (({ s2 with ret := { s2.ret with refused := true } } : State).machineError 3 st).cycle) := by
  intro s2 left
  have h1 : Reported s s1 := by
    have := Reported.of_errorRecord (s := s) (source := 6) (unit := st) (pa := 0) (lines := 0)
    rwa [he] at this
  have hlost : (s2.stack st).lost.isSome = true := by simp [s2]
  have hleft : s2.noRetirement st = false ↔ left := by
    simp [State.noRetirement_eq_false_iff, s2, left, h1.ret, h1.sset]
  have hx : execStackLost st s = event (if s2.noRetirement st then s2.refuse st else s2) := by
    simp [execStackLost, hm, hl, he, s2]
  constructor
  · intro h
    rw [hleft.mpr h] at hx
    exact hx
  · intro h
    rw [if_pos (Bool.eq_true_of_not_eq_false (mt hleft.mp h)), State.refuse_of_lost hlost] at hx
    exact hx

variable {r : HbmReq}

/-- R42: what an arrival does to a request that is outstanding. -/
theorem hbmRequestArrival_outstanding (h : Claims.standsOut s r) :
    exec (.hbmRequestArrival r) s = event (s.requestArrives r) := by
  show execHbmRequestArrival r s = _
  rw [execHbmRequestArrival, h]

/-- R41: what an arrival does to a request that is not. -/
theorem hbmRequestArrival_new (h : ∀ x ∈ s.outstanding, x.id ≠ r.id) :
    exec (.hbmRequestArrival r) s = event (s.sendRequest r) := by
  have hf : s.outstanding.find? (fun x => x.id == r.id) = none := by simpa using h
  show execHbmRequestArrival r s = _
  rw [execHbmRequestArrival, hf]

/-- R41: the first outstanding request of the requester to the line gives its stamp and route. -/
theorem sendRequest_eq : s.sendRequest r = Claims.sentRequest s
    (match s.outstanding.find? (fun x => x.requester == r.requester && x.line == r.line) with
      | some x => { r with phase := x.phase, mapBit := x.mapBit, stack := x.stack }
      | none => s.restamp r) := rfl

/-- R33: serving a request counts the errors that the controller met. -/
theorem served_countCorrected (n : Nat) :
    ((s.stack r.stack).corrected + n ≤ (s.stack r.stack).thr ∨ (s.stack r.stack).thr < (s.stack r.stack).corrected →
      (s.served r).countCorrected r.stack n =
        (Claims.withoutRequest s r).modStack r.stack (fun x => { x with corrected := x.corrected + n })) ∧
    ((s.stack r.stack).corrected ≤ (s.stack r.stack).thr → (s.stack r.stack).thr < (s.stack r.stack).corrected + n →
      (s.served r).countCorrected r.stack n =
        ((Claims.withoutRequest s r).modStack r.stack (fun x => { x with corrected := x.corrected + n })).trigger r.stack) :=
  ⟨fun h => State.countCorrected_quiet (s := s.served r) h, fun h h' => State.countCorrected_passes (s := s.served r) h h'⟩

/-- R43: the replay of the one request outstanding. -/
theorem replayIndication_reissues (h : s.outstanding = [r]) (hs : (s.mapCopy r.requester).stamp r ≠ (r.phase, r.mapBit)) :
    ∃ t, Claims.Next (exec (.replayIndication r) s) t ∧
      t.outstanding = [s.restamp r] ∧ .hbmRequestArrival (s.restamp r) ∈ t.pending ∧ t.mem = s.mem := by
  refine ⟨_, rfl, ?_⟩
  rw [if_neg (by simp [h]), if_neg hs]
  simp only [State.foldl_push_pending]
  exact ⟨by simp [State.cycle, h], by simp [State.cycle, h], rfl⟩

/-- Settles O52, clause by clause: triggers, acknowledgement, strips and commit, the map's copies, then requests. -/
theorem retirementEvents : Obligations.RetirementEvents := by
  refine ⟨?announced, ?window, ?during, ?lostWhenSmall, ?answered, fun s => s.ackBreaks_iff, ?notAnnounced, ?strip, ?broadcast,
    ?commit, ?notTaken, ?powerDown, ?stackLost, ?sent, ?arrivesLost, ?arrivesReplaying, ?arrives, ?replay⟩
  case announced => exact fun st n tag s s1 h he i hi => retirement_announced h he hi
  case window =>
    intro st n s h
    show execErrorWindowExpiry st n s = _
    rw [execErrorWindowExpiry, State.countCorrected_quiet h]
    rfl
  case during =>
    intro st s hm hr
    refine ⟨fun hn hs => ?_, fun hn hl => ?_⟩
    · exact ⟨(s.trigger st).cycle, rfl, by rw [State.trigger_recorded hm hr hn hs]; exact ⟨rfl, rfl⟩⟩
    · exact ⟨(s.trigger st).cycle, rfl, by rw [State.trigger_refused hm hr hn hl]; exact ⟨rfl, rfl⟩⟩
  case lostWhenSmall =>
    intro st s hm hr hn hl
    rw [← State.trigger_lost hm hr hn hl]
    rfl
  case answered =>
    intro s hr
    refine ⟨?_, fun hb => ?_, fun hb => ?_⟩
    · exact congrArg event (if_pos hr)
    · exact congrArg event (if_pos hb)
    · show execMretireAck s = _
      rw [execMretireAck, hb, State.ackRetire_of_announced hr]
      rfl
  case notAnnounced =>
    intro s hr
    refine ⟨congrArg event (if_neg hr), ?_⟩
    have hb : ¬ s.ackBreaks = true := fun hb => hr (s.ackBreaks_iff.mp hb).1
    show execMretireAck s = _
    rw [execMretireAck, if_neg hb, State.ackRetire_of_not_announced hr]
    rfl
  case strip =>
    intro s hr hl
    show execStripMoveComplete s = _
    simp only [execStripMoveComplete]
    rw [if_neg (not_not.mpr hr), State.stripPoison_of_noLoss hl]
    rfl
  case broadcast => exact fun n s => mapBroadcast_received n
  case commit => exact fun s hr hm hp => retirement_commits hr hm hp
  case notTaken => exact fun s _ hm => congrArg event (if_pos (.inr (by simp [hm])))
  case powerDown =>
    intro st s hr hc
    exact congrArg event (if_pos (by simpa [hr, mapCopyCount] using hc))
  case stackLost => exact fun st tag s s1 hm hl he => stack_lost hm hl he
  case sent =>
    intro r s hid
    rw [hbmRequestArrival_new hid, sendRequest_eq]
    refine ⟨fun hnone => ?_, fun x rest hx hreq hline => ?_⟩
    · have hf : s.outstanding.find? (fun x => x.requester == r.requester && x.line == r.line) = none := by simpa using hnone
      rw [hf]
      rfl
    · have hf : s.outstanding.find? (fun x => x.requester == r.requester && x.line == r.line) = some x := by
        simp [hx, hreq, hline]
      rw [hf]
      rfl
  case arrivesLost =>
    intro r s ho hl
    rw [hbmRequestArrival_outstanding ho, State.requestArrives_lost hl]
    rfl
  case arrivesReplaying =>
    intro r s ho hl hr
    rw [hbmRequestArrival_outstanding ho, State.requestArrives_answers hl, if_pos (by simp [hr])]
    rfl
  case arrives =>
    intro r s ho hl hr
    rw [hbmRequestArrival_outstanding ho, State.requestArrives_answers hl]
    refine ⟨fun hp => ?_, fun hp hc => ?_, fun hp hc => ?_⟩
    · rw [if_pos (by simp [hp])]
      rfl
    · rw [if_neg (by simp [hr, hp]), if_pos hc]
      exact ⟨fun hh => by rw [if_pos hh]; rfl, fun hh => by rw [if_neg (by omega)]; rfl⟩
    · rw [if_neg (by simp [hr, hp]), if_neg hc]
      refine ⟨fun hb ha => by rw [if_pos (by simp [hb, ha])]; rfl, fun hserve => ?_⟩
      rw [if_neg (by rcases hserve with h | h <;> simp [h])]
      obtain ⟨hq, ht⟩ := served_countCorrected (s := s) (r := r) (Config.correctedErrors s.tick)
      exact ⟨fun h => by rw [hq h]; rfl, fun h h' => by rw [ht h h']; rfl⟩
  case replay =>
    intro r s ho
    refine ⟨fun hs => ?_, fun hs => replayIndication_reissues ho hs⟩
    show execReplayIndication r s = _
    rw [execReplayIndication, if_neg (by simp [ho]), if_pos hs]
    rfl

end Sys2Proof.Machine
end

section
/-! PROOFS (O53). Stages, resets and links: what their shared operations leave. -/

namespace Sys2Proof.Machine

/-! ### Tables read after a filter or a run of writes -/

theorem get_filter_keys {α : Type} (d : α) (t : Tab α) (f : Nat → Bool) (j : Nat) :
    Tab.get d (t.filter fun p => f p.1) j = if f j then Tab.get d t j else d := by
  induction t with
  | nil => simp [Tab.get]
  | cons p t ih =>
    rw [List.filter_cons]
    by_cases hj : j = p.1
    · subst hj
      split <;> simp_all [Tab.get]
    · split <;> simp [Tab.get, hj, ih]

theorem get_foldl_set {α : Type} [DecidableEq α] {d : α} (g : Nat → α) (l : List Nat) (t : Tab α) {j : Nat} (hj : j ∈ l) :
    Tab.get d (l.foldl (fun t i => Tab.set d t i (g i)) t) j = g j := by
  induction l using List.reverseRecOn with
  | nil => simp at hj
  | append_singleton l i ih =>
    rw [List.foldl_append]
    by_cases h : j = i
    · subst h
      exact Tab.get_set_self d _ j (g j)
    · exact (Tab.get_set_other h (g i)).trans (ih (by simpa [h] using hj))

namespace State

variable {s : State}

/-! ### Machine errors once more -/

/-- A machine error is listed and mailed. -/
theorem machineError_eq (kind item : Nat) : ∃ mailbox mailboxLost, s.machineError kind item =
    { s with machineErrors := s.machineErrors ++ [(kind, item)], mailbox := mailbox, mailboxLost := mailboxLost } := by
  unfold machineError mail
  split <;> exact ⟨_, _, rfl⟩

/-! ### Stages -/

theorem advance_of_not_next (h : s.nextStage = false) (n : Nat) : s.advance n = s := by
  cases n <;> simp [advance, h]

/-- One stage further and no more. -/
theorem advance_once (h : s.nextStage = true) (h' : ({ s with stage := s.stage + 1 } : State).nextStage = false) (n : Nat) :
    s.advance (n + 1) = { s with stage := s.stage + 1 } := by
  rw [advance, if_pos h, advance_of_not_next h']

theorem nextStage_of_stage3 (h : s.stage = 3) :
    s.nextStage = (s.stacksDecided && s.tested && decide (8 ≤ s.sset.length) && !s.columnsBad) := by
  simp only [nextStage, h]

/-- Stage C is held while the start test has not passed, a stack is undecided, or fewer than 8 stacks serve. -/
theorem nextStage_stage3 (h : s.stage = 3) (hc : s.tested = false ∨ s.stacksDecided = false ∨ s.sset.length < 8) :
    s.nextStage = false := by
  rw [nextStage_of_stage3 h]
  rcases hc with hc | hc | hc <;> simp [hc]

/-- In stage C what the end of a training brings is at most its machine error. -/
theorem trainingEnds_stage3 (h : s.stage = 3)
    (hc : s.tested = false ∨ s.stacksDecided = false ∨ s.sset.length < 8) (was : Bool) :
    s.trainingEnds was =
      if s.stacksDecided = true ∧ was = false ∧ s.sset.length < 8 then s.machineError 4 s.sset.length else s := by
  have hs := nextStage_stage3 h hc
  unfold trainingEnds
  by_cases hd : s.stacksDecided = true ∧ was = false ∧ s.sset.length < 8
  · obtain ⟨mailbox, mailboxLost, e⟩ := machineError_eq (s := s) 4 s.sset.length
    have hm : (s.machineError 4 s.sset.length).nextStage = false := by rw [e]; exact hs
    obtain ⟨h1, h2, h3⟩ := hd
    simp [h1, h2, h3, advance_of_not_next hm]
  · rw [if_neg hd, if_neg (by simpa [and_assoc] using hd), advance_of_not_next hs]

theorem length_insertStack (st : Nat) (l : List Nat) : (insertStack st l).length = l.length + 1 := by
  induction l with
  | nil => rfl
  | cons y l ih =>
    unfold insertStack
    split <;> simp [ih]

/-- R46: at a change of SSET in stage C only HBM5 is dropped. -/
theorem get_dropHbm_mem {a : Nat} (h : 2 ^ 40 ≤ a) :
    Tab.get Memory.unlisted s.dropHbm.mem a = Tab.get Memory.unlisted s.mem a :=
  (get_filter_keys _ s.mem (fun a => decide (2 ^ 40 ≤ a)) a).trans (if_pos (by simpa using h))

/-! ### Resets -/

/-- A reset keeps each stack's mark and threshold, and none of the memory of the device. -/
theorem restart_stack (cols : Tab (List Nat)) {st : Nat} (h : st < 16) :
    (s.restart cols).stack st = { Stack.off with marked := (s.stack st).marked, thr := (s.stack st).thr } :=
  get_foldl_set _ _ _ (List.mem_range.mpr h)

theorem get_restart_mem (cols : Tab (List Nat)) {a : Nat} (h : a < 2 ^ 40) :
    Tab.get Memory.unlisted (s.restart cols).mem a = Memory.unlisted :=
  (get_filter_keys _ s.mem (fun a => decide (0x400000000000 ≤ a)) a).trans (if_neg (by simp; omega))

/-- The check of the columns adds at most a machine error, and does where a die has lost more than two. -/
theorem checkColumns_eq : ∃ machineErrors mailbox mailboxLost,
    s.checkColumns = { s with machineErrors := machineErrors, mailbox := mailbox, mailboxLost := mailboxLost } ∧
    (s.columnsBad = true → (5, 0) ∈ machineErrors) := by
  unfold checkColumns
  split
  · obtain ⟨mailbox, mailboxLost, e⟩ := machineError_eq (s := s) 5 0
    exact ⟨_, _, _, e, fun _ => by simp⟩
  · exact ⟨_, _, _, rfl, fun h => absurd h ‹_›⟩

end State

/-! ### Links -/

/-- `t` is `s` but for the peers' marks and what reports write. -/
def Rerouted (s t : State) : Prop := ∃ peers, Reported { s with peers := peers } t

theorem Rerouted.trans {s t u : State} (h : Rerouted s t) (h' : Rerouted t u) : Rerouted s u := by
  obtain ⟨_, _, _, _, _, _, _, _, rfl⟩ := h
  obtain ⟨q, _, _, _, _, _, _, _, rfl⟩ := h'
  exact ⟨q, _, _, _, _, _, _, _, rfl⟩

section

variable {s t : State} (h : Rerouted s t)
include h

theorem Rerouted.links : t.links = s.links := by obtain ⟨_, _, _, _, _, _, _, _, rfl⟩ := h; rfl
theorem Rerouted.routes : t.routes = s.routes := by obtain ⟨_, _, _, _, _, _, _, _, rfl⟩ := h; rfl
theorem Rerouted.machineErrors : t.machineErrors = s.machineErrors := by obtain ⟨_, _, _, _, _, _, _, _, rfl⟩ := h; rfl
theorem Rerouted.tasks : t.tasks = s.tasks := by obtain ⟨_, _, _, _, _, _, _, _, rfl⟩ := h; rfl

end

theorem Reported.withPeers {s t : State} (h : Reported s t) (peers : Tab Peer) : Rerouted s { t with peers := peers } := by
  obtain ⟨_, _, _, _, _, _, _, rfl⟩ := h
  exact ⟨peers, _, _, _, _, _, _, _, rfl⟩

theorem rerouted_loseRoute {s : State} (l dev : Nat) : Rerouted s (s.loseRoute l dev) := by
  have h : Reported s (s.errorRecord 4 l 0 0).2 := .of_errorRecord
  unfold State.loseRoute
  extract_lets p
  split
  · exact ⟨s.peers, .refl⟩
  · exact h.withPeers _

theorem rerouted_loseRoutes {s : State} (l : Nat) (devs : List Nat) :
    Rerouted s (devs.foldl (fun s d => s.loseRoute l d) s) := by
  induction devs generalizing s with
  | nil => exact ⟨s.peers, .refl⟩
  | cons d devs ih => exact (rerouted_loseRoute l d).trans ih

/-- The devices that a link alone reaches. -/
def State.cutBy (s : State) (l : Nat) : List Nat :=
  (s.routes.filter (fun (p : Nat × List Nat) => p.2.contains l && p.2.all (· == l))).map (·.1)

theorem State.mem_cutBy {s : State} {l d : Nat} : d ∈ s.cutBy l ↔ ∃ p ∈ s.routes, (l ∈ p.2 ∧ ∀ x ∈ p.2, x = l) ∧ p.1 = d := by
  simp [State.cutBy, and_assoc]

theorem State.flying_iff {s : State} {devs : List Nat} : s.flying devs = true ↔ ∃ q ∈ s.farOut, q.1 ∈ devs ∧ s.cyc < q.2 := by
  simp [State.flying]

/-- A link marked as failed, and the routes that remain (R409). -/
def State.unlinked (s : State) (l : Nat) : State :=
  { s.modLink l (fun x => { x with failed := true }) with
    routes := (s.routes.map (fun (p : Nat × List Nat) => (p.1, p.2.filter (· != l)))).filter (fun p => p.2 != []) }

/-- What a failed link leaves, its machine error aside (R409). -/
def State.withoutLink (s : State) (l : Nat) : State :=
  let t := (s.cutBy l).foldl (fun s d => s.loseRoute l d) (s.unlinked l)
  { t with farOut := t.farOut.filter (fun p => !(s.cutBy l).contains p.1) }

theorem State.modLink_beyond {s : State} {l : Nat} (hl : 12 ≤ l) (f : LinkSt → LinkSt) : s.modLink l f = s := if_pos hl

theorem State.modLink_of_link {s : State} {l : Nat} (hl : l < 12) (f : LinkSt → LinkSt) :
    s.modLink l f = { s with links := Tab.set .fresh s.links l (f (Tab.get .fresh s.links l)) } :=
  if_neg (Nat.not_le.mpr hl)

@[simp] theorem State.modLink_mem {s : State} {l : Nat} {f : LinkSt → LinkSt} : (s.modLink l f).mem = s.mem := by
  unfold State.modLink; split <;> rfl

@[simp] theorem State.modLink_tasks {s : State} {l : Nat} {f : LinkSt → LinkSt} : (s.modLink l f).tasks = s.tasks := by
  unfold State.modLink; split <;> rfl

@[simp] theorem State.modLink_routes {s : State} {l : Nat} {f : LinkSt → LinkSt} : (s.modLink l f).routes = s.routes := by
  unfold State.modLink; split <;> rfl

@[simp] theorem State.modLink_machineErrors {s : State} {l : Nat} {f : LinkSt → LinkSt} :
    (s.modLink l f).machineErrors = s.machineErrors := by
  unfold State.modLink; split <;> rfl

theorem State.get_modLink_links {s : State} {l : Nat} (hl : l < 12) (f : LinkSt → LinkSt) :
    Tab.get .fresh (s.modLink l f).links l = f (Tab.get .fresh s.links l) := by
  rw [State.modLink_of_link hl]
  exact Tab.get_set_self _ _ _ _

theorem linkFailure_eq {s : State} {l : Nat} (hl : l < 12) : exec (.linkFailure l) s =
    event (if s.flying (s.cutBy l) then (s.withoutLink l).machineError 6 l else s.withoutLink l) := by
  have hx : exec (.linkFailure l) s = event _ := congrArg event (if_neg (Nat.not_le.mpr hl : ¬ linkCount ≤ l))
  rw [State.modLink_routes] at hx
  exact hx

/-- R409: what a failed link leaves, beside its machine error. -/
theorem withoutLink_spec {s : State} {l : Nat} (hl : l < 12) :
    (Tab.get .fresh (s.withoutLink l).links l).failed = true ∧ (∀ p ∈ (s.withoutLink l).routes, l ∉ p.2) ∧
      (s.withoutLink l).machineErrors = s.machineErrors ∧ (s.withoutLink l).tasks = s.tasks := by
  have h := rerouted_loseRoutes (s := s.unlinked l) l (s.cutBy l)
  have hlinks : (s.withoutLink l).links = (s.modLink l (fun x => { x with failed := true })).links := h.links
  have hroutes : (s.withoutLink l).routes = _ := h.routes
  refine ⟨?_, fun p hp => ?_, h.machineErrors.trans State.modLink_machineErrors, h.tasks.trans State.modLink_tasks⟩
  · rw [hlinks, State.get_modLink_links hl]
  · rw [hroutes] at hp
    obtain ⟨q, -, rfl⟩ := List.mem_map.mp (List.mem_of_mem_filter hp)
    simp

end Sys2Proof.Machine
end

section
/-! PROOFS (O53). Start-up, resets, the management port, links, the host and peers, power. -/

namespace Sys2Proof.Machine

variable {s : State}

/-- R46: a stack that joins in stage C. -/
theorem stackTrained_joins {st : Nat} (hst : st < 16) (ht : (s.stack st).trained = false) (hf : (s.stack st).failed = false)
    (hm : (s.stack st).marked = false) (h3 : s.stage = 3) (hp : s.tested = false) :
    ∃ t, Claims.Next (exec (.stackTrained st) s) t ∧ t.sset = insertStack st s.sset ∧ (t.stack st).trained = true ∧
      t.stage = 3 ∧ t.ret.phase = (s.ret.phase + 1) % 2 ^ 16 ∧ t.tasks = s.tasks ∧
      ((s.modStack st (fun x => { x with trained := true })).stacksDecided = true → s.sset.length + 1 < 8 →
        (4, s.sset.length + 1) ∈ t.machineErrors) ∧
      ∀ a, 2 ^ 40 ≤ a → Tab.get Memory.unlisted t.mem a = Tab.get Memory.unlisted s.mem a := by
  let v : State := { s.modStack st (fun x => { x with trained := true, powered := true }) with
    sset := insertStack st s.sset, ret := { s.ret with phase := (s.ret.phase + 1) % 65536 } }
  let w := v.dropHbm.broadcast
  have hx : exec (.stackTrained st) s = event (w.trainingEnds false) := by
    show execStackTrained st s = _
    simp only [execStackTrained]
    rw [if_neg (by simp [ht, hf, hm, h3, hst])]
    rfl
  have hstack (i : Nat) : w.stack i = (s.modStack st (fun x => { x with trained := true, powered := true })).stack i := rfl
  have hw : (w.stack st).trained = true := by simp [hstack]
  have hmem (a : Nat) (ha : 2 ^ 40 ≤ a) : Tab.get Memory.unlisted w.mem a = Tab.get Memory.unlisted s.mem a :=
    State.get_dropHbm_mem (s := v) ha
  have hlen : w.sset.length = s.sset.length + 1 := State.length_insertStack st s.sset
  have hdec : w.stacksDecided = (s.modStack st (fun x => { x with trained := true })).stacksDecided := by
    unfold State.stacksDecided
    congr 1
    funext i
    rw [hstack]
    by_cases hi : i = st
    · subst hi
      simp
    · rw [State.stack_modStack_other hi, State.stack_modStack_other hi]
  rw [State.trainingEnds_stage3 (s := w) h3 (.inl hp)] at hx
  split at hx
  · obtain ⟨mailbox, mailboxLost, e⟩ := State.machineError_eq (s := w) 4 w.sset.length
    rw [e] at hx
    exact ⟨_, hx, rfl, hw, h3, rfl, rfl, fun _ _ => by simp [State.cycle, hlen], hmem⟩
  · rename_i hn
    refine ⟨_, hx, rfl, hw, h3, rfl, rfl, fun hd hl => absurd ⟨?_, rfl, ?_⟩ hn, hmem⟩
    · rw [hdec]; exact hd
    · rw [hlen]; exact hl

/-- R46: a stack whose training fails in stage C with fewer than 8 in service. -/
theorem stackTrainingFailed_stage3 {st : Nat} {s1 : State} (hst : st < 16) (ht : (s.stack st).trained = false)
    (hf : (s.stack st).failed = false) (h3 : s.stage = 3) (hn : s.sset.length < 8)
    (h1 : s1 = s.modStack st (fun x => { x with failed := true })) :
    exec (.stackTrainingFailed st) s =
      event (if s1.stacksDecided = true ∧ s.stacksDecided = false ∧ s.sset.length < 8 then
        s1.machineError 4 s.sset.length else s1) := by
  have h13 : s1.stage = 3 ∧ s1.sset = s.sset := by subst h1; exact ⟨h3, rfl⟩
  have he := State.trainingEnds_stage3 (s := s1) h13.1 (.inr (.inr (h13.2 ▸ hn))) s.stacksDecided
  rw [h13.2] at he
  show execStackTrainingFailed st s = _
  simp only [execStackTrainingFailed]
  rw [if_neg (by simp [ht, hf, h3, hst]), ← he, h1]

/-- R47: a mark in stage C. -/
theorem mgmtMarkFailed_stage3 {st : Nat} {b : Bool} {s1 : State} (hst : st < 16) (h3 : s.stage = 3)
    (h1 : s1 = s.modStack st (fun x => { x with marked := b })) (hc : s1.stacksDecided = false ∨ s.sset.length < 8) :
    exec (.mgmtMarkFailed st b) s =
      event (if s1.stacksDecided = true ∧ s.stacksDecided = false ∧ s.sset.length < 8 then
        s1.machineError 4 s.sset.length else s1) := by
  have h13 : s1.stage = 3 ∧ s1.sset = s.sset := by subst h1; exact ⟨h3, rfl⟩
  have he := State.trainingEnds_stage3 (s := s1) h13.1 (.inr (h13.2 ▸ hc)) s.stacksDecided
  rw [h13.2] at he
  show execMgmtMarkFailed st b s = _
  simp only [execMgmtMarkFailed]
  rw [if_neg (by omega), if_neg (by omega), ← he, h1]

/-- R47: what a cold reset leaves. -/
theorem coldReset_leaves : ∃ t, Claims.Next (exec .coldReset s) t ∧ t.tasks = [] ∧ t.cores = [] ∧ t.ctxs = [] ∧ t.spaces = [] ∧
    t.stage = 0 ∧ t.sset = [] ∧ t.hives = [] ∧ t.failedCols = s.failedCols ∧
    (∀ st, st < 16 → (t.stack st).marked = (s.stack st).marked ∧ (t.stack st).thr = (s.stack st).thr) ∧
    (s.columnsBad = true → (5, 0) ∈ t.machineErrors) ∧
    (∀ a, a < 2 ^ 40 → Tab.get Memory.unlisted t.mem a = Memory.unlisted) := by
  let r := s.restart s.failedCols
  obtain ⟨machineErrors, mailbox, mailboxLost, e, he⟩ := State.checkColumns_eq (s := r)
  have hx : execColdReset s = event r.checkColumns := rfl
  rw [e] at hx
  refine ⟨_, hx, rfl, rfl, rfl, rfl, rfl, rfl, rfl, rfl, fun st h => ?_, he, fun _ h => s.get_restart_mem s.failedCols h⟩
  show (r.stack st).marked = _ ∧ (r.stack st).thr = _
  rw [s.restart_stack s.failedCols h]
  exact ⟨rfl, rfl⟩

/-- R413: what a maintenance reset leaves. -/
theorem maintenanceReset_leaves (failed : List Nat) : ∃ t, Claims.Next (exec (.maintenanceReset failed) s) t ∧ t.tasks = [] ∧
    t.stage = 0 ∧ t.sset = [] ∧ t.failedCols = columnMap failed ∧ (t.columnsBad = true → (5, 0) ∈ t.machineErrors) := by
  let r := s.restart (columnMap failed)
  obtain ⟨machineErrors, mailbox, mailboxLost, e, he⟩ := State.checkColumns_eq (s := r)
  have hx : execMaintenanceReset failed s = event r.checkColumns := rfl
  rw [e] at hx
  exact ⟨_, hx, rfl, rfl, rfl, rfl, he⟩

/-- R409: a link that fails. -/
theorem linkFailure_leaves {l : Nat} (hl : l < 12) :
    ∃ t, Claims.Next (exec (.linkFailure l) s) t ∧ (Tab.get .fresh t.links l).failed = true ∧ (∀ p ∈ t.routes, l ∉ p.2) ∧
      ((∃ p ∈ s.routes, p.2 = [l] ∧ ∃ q ∈ s.farOut, q.1 = p.1 ∧ s.cyc < q.2) → (6, l) ∈ t.machineErrors) ∧
      ((∀ p ∈ s.routes, l ∈ p.2 → (∀ x ∈ p.2, x = l) → ∀ q ∈ s.farOut, q.1 = p.1 → q.2 ≤ s.cyc) →
        t.machineErrors = s.machineErrors) ∧
      t.tasks = s.tasks := by
  obtain ⟨h1, h2, h3, h4⟩ := withoutLink_spec (s := s) hl
  have hx := linkFailure_eq (s := s) hl
  split at hx
  · rename_i hf
    obtain ⟨mailbox, mailboxLost, e⟩ := State.machineError_eq (s := s.withoutLink l) 6 l
    rw [e] at hx
    refine ⟨_, hx, h1, h2, fun _ => by simp [State.cycle], fun hno => ?_, h4⟩
    obtain ⟨q, hq, hc, hlt⟩ := State.flying_iff.mp hf
    obtain ⟨p, hp, ⟨hlp, hall⟩, hpq⟩ := State.mem_cutBy.mp hc
    exact absurd (hno p hp hlp hall q hq hpq.symm) (Nat.not_le.mpr hlt)
  · rename_i hf
    refine ⟨_, hx, h1, h2, fun hyes => absurd ?_ hf, fun _ => h3, h4⟩
    obtain ⟨p, hp, hpl, q, hq, hqp, hlt⟩ := hyes
    exact State.flying_iff.mpr ⟨q, hq, State.mem_cutBy.mpr ⟨p, hp, by simp [hpl], hqp.symm⟩, hlt⟩

/-- R414: the budget follows the power by at most 4 W, and does not rise under a hold. -/
theorem slewTick_follows : ∃ t, Claims.Next (exec .slewTick s) t ∧ t.slewBudget ≤ s.slewBudget + 4 ∧ s.slewBudget ≤ t.slewBudget + 4 ∧
    (s.slewHold = true → t.slewBudget ≤ s.slewBudget) ∧ t.slewHold = s.slewHold ∧ t.slewLeft = s.slewLeft - 1 ∧
    t.tasks = s.tasks ∧ t.mem = s.mem := by
  let p := Config.packagePower s.tick
  let b := s.slewBudget
  let b' := if p < b then Nat.max p (b - 4) else if s.slewHold then b else Nat.min p (b + 4)
  have hb : b' ≤ b + 4 ∧ b ≤ b' + 4 ∧ (s.slewHold = true → b' ≤ b) := by
    have hmax : Nat.max p (b - 4) = max p (b - 4) := rfl
    have hmin : Nat.min p (b + 4) = min p (b + 4) := rfl
    unfold b'
    rw [hmax, hmin]
    split
    · omega
    · split
      · simp_all
      · simp_all
        omega
  obtain ⟨h1, h2, h3⟩ := hb
  let u : State := { s with slewBudget := b', slewLeft := s.slewLeft - 1 }
  have hx : exec .slewTick s = event (if u.slewHold && u.slewLeft == 0 then u.push .staggerHoldEnd else u) := rfl
  split at hx <;> exact ⟨_, hx, h1, h2, h3, rfl, rfl, rfl, rfl⟩

/-- A window that is shut, or that an access leaves, or that lies beyond the memory, does not serve it (R405, R408). -/
theorem not_served {isOpen : Bool} {last size top cap : Nat} (h : isOpen = false ∨ size < last ∨ cap < top) :
    ¬ (isOpen = true ∧ last ≤ size ∧ top ≤ cap) := by
  rintro ⟨ho, hs, hc⟩
  rcases h with h | h | h
  · exact Bool.false_ne_true (h.symm.trans ho)
  · omega
  · omega

/-- R405: a read of the host, and what the window needs to serve it. -/
theorem hostRead_eq (off len : Nat) : exec (.hostCxlMemAccess off none len) s =
    event (Claims.replied s (
      if s.hostwin.getLsbD 63 = true ∧ off + len ≤ s.hostwin.toNat / 2 ^ 16 % 2 ^ 10 * 2 ^ 30 ∧
          s.hostwin.toNat % 2 ^ 10 * 2 ^ 30 + off + len ≤ s.mcap * 2 ^ 30 then
        ⟨true, off, s.bytes (s.hostwin.toNat % 2 ^ 10 * 2 ^ 30 + off) len,
          s.tagAt (s.hostwin.toNat % 2 ^ 10 * 2 ^ 30 + off) len, false⟩
      else ⟨true, off, [], 0, true⟩)) := by
  show execHostCxlMemAccess off none len s = _
  simp [execHostCxlMemAccess, State.reply, Claims.replied, and_assoc]

/-- R408: a read of a peer, likewise. -/
theorem peerRead_eq (off len : Nat) : exec (.peerAccess off none len) s =
    event (Claims.replied s (
      if s.pexp.getLsbD 63 = true ∧ off + len ≤ 2 ^ 32 ∧ s.pexp.toNat % 2 ^ 8 * 2 ^ 32 + off + len ≤ s.mcap * 2 ^ 30 then
        ⟨false, off, s.bytes (s.pexp.toNat % 2 ^ 8 * 2 ^ 32 + off) len,
          s.tagAt (s.pexp.toNat % 2 ^ 8 * 2 ^ 32 + off) len, false⟩
      else ⟨false, off, [], 0, true⟩)) := by
  show execPeerAccess off none len s = _
  simp [execPeerAccess, State.reply, Claims.replied, and_assoc]

/-- R406: an acknowledged line is no longer asked for. -/
def State.acked (s : State) (line : Nat) : State :=
  { s with backInvals := s.backInvals.erase line, invalAcked := s.invalAcked ++ [line] }

/-- R406: what an acknowledgement does to one slot. -/
def State.resumeCommit (s : State) (k : Nat) : State :=
  if (s.task k).stat = .committing ∧ s.commitOwes (s.task k) = [] then
    (s.modTask k (fun t => { t with stat := .running })).commitTask k
  else if (s.task k).stat = .committing then s.askHost (s.commitOwes (s.task k))
  else s

theorem backInvalidationAck_eq {line : Nat} (h : line ∈ s.backInvals) : exec (.backInvalidationAck line) s =
    event (s.tasks.foldl (fun s p => s.resumeCommit p.1) (s.acked line)) :=
  congrArg event (if_neg (by simpa using h))

theorem resumeCommit_of_not_committing {k : Nat} (h : (s.task k).stat ≠ .committing) : s.resumeCommit k = s := by
  simp [State.resumeCommit, h]

theorem foldl_resumeCommit_of_none {l : List (Nat × Task)} (h : ∀ p ∈ l, (s.task p.1).stat ≠ .committing) :
    l.foldl (fun s p => s.resumeCommit p.1) s = s := by
  induction l with
  | nil => rfl
  | cons p l ih =>
    rw [List.foldl_cons, resumeCommit_of_not_committing (h p List.mem_cons_self)]
    exact ih fun q hq => h q (List.mem_cons_of_mem p hq)

/-- Settles O53, clause by clause: start-up, resets and the management port, links, the host and peers, power. -/
theorem platformEvents : Obligations.PlatformEvents := by
  refine ⟨?powerGood, ?hostTrained, ?tested, ?joins, ?marked, ?trainingFailed, fun s => coldReset_leaves,
    fun failed s => maintenanceReset_leaves failed, ?port, ?noLink, ?link, ?hostWrite, ?hostDropped, ?hostRead, ?peerRead,
    ?noLine, ?ackAlone, ?ackCommit, ?peerWrite, ?peerDropped, fun s => slewTick_follows, ?stagger, ?staggerArrival, ?holdEnd⟩
  case powerGood =>
    intro s h0 hh
    have hstay : ({ s with stage := 1 } : State).nextStage = false := hh
    show event _ = _
    rw [if_pos h0, State.advance_of_not_next hstay]
    rfl
  case hostTrained =>
    intro s h1 hs
    have hgo : ({ s with hostTrained := true } : State).nextStage = true := by simp [State.nextStage, h1]
    have hstay : ({ s with hostTrained := true, stage := s.stage + 1 } : State).nextStage = false := by
      simp [State.nextStage, h1, hs]
    show event _ = _
    rw [State.advance_once hgo hstay, h1]
    rfl
  case tested =>
    intro s h3 hd hn hc
    have hd' : ({ s with tested := true } : State).stacksDecided = true := hd
    have hc' : ({ s with tested := true } : State).columnsBad = false := hc
    have hgo : ({ s with tested := true } : State).nextStage = true := 
      (State.nextStage_of_stage3 (s := { s with tested := true }) h3).trans (by rw [hd', hc']; simp [hn])
    have hstay : ({ s with tested := true, stage := s.stage + 1 } : State).nextStage = false := by simp [State.nextStage, h3]
    show event _ = _
    rw [State.advance_once hgo hstay, h3]
    rfl
  case joins => exact fun st s hst ht hf hm h3 hp => stackTrained_joins hst ht hf hm h3 hp
  case marked => exact fun st s hm => congrArg event (if_pos (by simp [hm]))
  case trainingFailed =>
    intro st s s1 hst ht hf h3 hn h1
    rw [stackTrainingFailed_stage3 hst ht hf h3 hn h1]
    exact ⟨fun hd hu => by rw [if_pos ⟨hd, hu, hn⟩]; rfl,
      fun hno => by rw [if_neg (by rcases hno with h | h <;> simp [h])]; rfl⟩
  case port =>
    intro st n id b s
    refine ⟨fun hst h04 => ?_, fun hst h3 hn hd hu => ?_, fun hst h3 hu => ?_, fun hn => ?_, fun hid => congrArg event (if_neg hid)⟩
    · show event _ = _
      rw [if_neg (by omega), if_pos h04]
      rfl
    · rw [mgmtMarkFailed_stage3 hst h3 rfl (.inr hn), if_pos ⟨hd, hu, hn⟩]
      rfl
    · rw [mgmtMarkFailed_stage3 hst h3 rfl (.inl hu), if_neg (by simp [hu])]
      rfl
    · exact congrArg event (if_neg (by omega))
  case noLink =>
    intro l s hl
    exact ⟨congrArg event (s.modLink_beyond hl _), congrArg event (s.modLink_beyond hl _), congrArg event (if_pos hl)⟩
  case link =>
    intro l s hl
    refine ⟨⟨_, rfl, State.modLink_tasks, State.modLink_mem, ?_⟩, ⟨_, rfl, State.modLink_tasks, State.modLink_mem, ?_⟩,
      linkFailure_leaves hl⟩
    · exact congrArg LinkSt.retries (s.get_modLink_links hl _)
    · exact congrArg LinkSt.laneFailures (s.get_modLink_links hl _)
  case hostWrite => exact fun off len bs s hw ho hp => congrArg event (if_pos (by simpa [hw] using ⟨ho, hp⟩))
  case hostDropped => exact fun off len bs s hw => congrArg event (if_neg (by rw [hw]; exact Bool.false_ne_true))
  case hostRead =>
    intro off len pa s hpa
    subst hpa
    rw [hostRead_eq]
    exact ⟨fun hw ho hp => by rw [if_pos ⟨hw, ho, hp⟩]; rfl, fun hno => by rw [if_neg (not_served hno)]; rfl⟩
  case peerRead =>
    intro off len pa s hpa
    subst hpa
    rw [peerRead_eq]
    exact ⟨fun hw ho hp => by rw [if_pos ⟨hw, ho, hp⟩]; rfl, fun hno => by rw [if_neg (not_served hno)]; rfl⟩
  case noLine => exact fun line s h => congrArg event (if_pos (by simpa using h))
  case ackAlone =>
    intro line s h hno
    rw [backInvalidationAck_eq h, foldl_resumeCommit_of_none (s := s.acked line) hno]
    rfl
  case ackCommit =>
    intro line k s h hk hc s1
    have hfold : s.tasks.foldl (fun s p => s.resumeCommit p.1) s1 = s1.resumeCommit k := by
      rw [← List.foldl_map (f := Prod.fst) (g := State.resumeCommit), hk]
      rfl
    have hx : exec (.backInvalidationAck line) s = event (s1.resumeCommit k) :=
      (backInvalidationAck_eq h).trans (congrArg event hfold)
    have hc1 : (s1.task k).stat = .committing := hc
    rw [hx, State.resumeCommit]
    exact ⟨fun ho => by rw [if_pos ⟨hc1, ho⟩]; rfl, fun ho => by rw [if_neg (fun hh => ho hh.2), if_pos hc1]; rfl⟩
  case peerWrite => exact fun off len bs s hw ho hp => congrArg event (if_pos (by simpa [hw] using ⟨ho, hp⟩))
  case peerDropped =>
    intro off len tag bs s s1 hw he
    have hx : exec (.peerAccess off (some bs) len) s =
        event (s.errorRecord 4 0 (s.pexp.toNat % 2 ^ 8 * 2 ^ 32 + off) 0).2 :=
      congrArg event (if_neg (by rw [hw]; exact Bool.false_ne_true))
    rw [he] at hx
    exact hx
  case stagger =>
    intro v s
    refine ⟨fun hd => ?_, fun hd hs => congrArg event (if_neg (not_or.mpr ⟨hd, hs⟩))⟩
    have hw : Nat.max 1 (v.toNat % 256) = if v.toNat % 2 ^ 8 = 0 then 1 else v.toNat % 2 ^ 8 := by
      show max 1 (v.toNat % 256) = _
      split <;> omega
    rw [← hw]
    exact congrArg event (if_pos (.inl hd))
  case staggerArrival =>
    intro k w s hw
    have hmax : Nat.max 1 w = w := Nat.max_eq_right (Nat.pos_of_ne_zero hw)
    show event { s with slewHold := k != 0, slewLeft := k * Nat.max 1 w } = _
    rw [hmax]
    rfl
  case holdEnd => exact fun s h => congrArg event (if_pos h)

end Sys2Proof.Machine
end

section
/-! PROOFS (O47). What a number of main memory reads after its write, and what the version engine, the heap and the ordered
groups do at their events. -/

namespace Sys2Proof.Machine

/-! ### Numbers of main memory -/

@[simp] theorem Num.length_bytesOf (n x : Nat) : (Num.bytesOf n x).length = n := by
  induction n generalizing x with
  | zero => rfl
  | succ n ih => simp [Num.bytesOf, ih]

theorem Num.ofBytes_bytesOf (n x : Nat) : Num.ofBytes (Num.bytesOf n x) = x % 256 ^ n := by
  induction n generalizing x with
  | zero => simp [Num.bytesOf, Num.ofBytes, Nat.mod_one]
  | succ n ih =>
    rw [Num.bytesOf, Num.ofBytes, ih, Nat.pow_succ', Nat.mod_mul]
    simp

theorem Num.ofBytes_bytesOf_word (w : Word) : Num.ofBytes (Num.bytesOf 8 w.toNat) = w.toNat := by
  rw [Num.ofBytes_bytesOf]
  exact Nat.mod_eq_of_lt w.isLt

theorem readList_eq_of_forall {f : Nat → Byte} {a : Nat} {bs : List Byte}
    (h : ∀ i (hi : i < bs.length), f (a + i) = bs[i]) : readList f a bs.length = bs := by
  induction bs generalizing a with
  | nil => rfl
  | cons b bs ih =>
    have hhead : f a = b := h 0 (by simp)
    have htail : readList f (a + 1) bs.length = bs := ih fun i hi => by
      have hi' := h (i + 1) (by simpa using hi)
      rw [← Nat.add_assoc, Nat.add_right_comm] at hi'
      exact hi'
    rw [List.length_cons, readList, hhead, htail]

namespace State

variable {s : State}

/-- R38: with no stack lost, an untagged write is a write of the bytes. -/
theorem mem_writeMem_of_noLoss (h : Claims.noLoss s) (pa : Nat) (bs : List Byte) :
    (s.writeMem pa bs 0).mem = writeList s.mem pa bs := by
  rw [writeMem, if_pos h, putMem, countPoison, if_pos (.inl rfl)]

theorem num_writeWord_self (h : Claims.noLoss s) (pa : Nat) (w : Word) : (s.writeWord pa w).num pa 8 = w.toNat := by
  have hbytes : (s.writeWord pa w).bytes pa (Num.bytesOf 8 w.toNat).length = Num.bytesOf 8 w.toNat :=
    readList_eq_of_forall fun i hi => by
      rw [byte, writeWord, mem_writeMem_of_noLoss h]
      exact get_writeList_self s.mem pa i _ hi
  rw [Num.length_bytesOf] at hbytes
  rw [num, hbytes, Num.ofBytes_bytesOf_word]

theorem num_of_mem {t : State} (h : t.mem = s.mem) (pa n : Nat) : t.num pa n = s.num pa n := by
  have hbyte : t.byte = s.byte := funext fun a => by rw [byte, byte, h]
  rw [num, num, bytes, bytes, hbyte]

/-- The wait bit set beside the line's chain pointer. -/
theorem num_setWait_true (h : Claims.noLoss s) (e : Nat) :
    (s.setWait e true).num (e + 8) 8 = 2 ^ 63 + s.num (e + 8) 8 % 2 ^ 63 := by
  rw [setWait, num_writeWord_self h, if_pos rfl, BitVec.toNat_ofNat]
  omega

theorem task_setWait (e k : Nat) (w : Bool) : (s.setWait e w).task k = s.task k := by
  rw [setWait, writeWord, task, Reported.of_writeMem.tasks, task]

end State

theorem Reported.ctx {s t : State} (h : Reported s t) (c : Nat) : t.ctx c = s.ctx c := by
  obtain ⟨_, _, _, _, _, _, _, rfl⟩ := h; rfl

namespace State

variable {s : State}

@[simp] theorem ctx_modCtx_self (c : Nat) (f : Ctx → Ctx) : (s.modCtx c f).ctx c = f (s.ctx c) :=
  Tab.get_set_self _ _ _ _

@[simp] theorem ctx_push (c : Nat) (e : Event) : (s.push e).ctx c = s.ctx c := rfl

@[simp] theorem ctx_setTask (c k : Nat) (t : Task) : (s.setTask k t).ctx c = s.ctx c := rfl

@[simp] theorem ctx_cycle (c : Nat) : s.cycle.ctx c = s.ctx c := rfl

/-! ### The decision of a version load (R58) -/

section

variable {r : Region} {eq : Bool} {v e pa : Nat}

theorem decideVersion_below (h : v < Nat.min r.floor (s.newest e)) :
    s.decideVersion r eq v e pa = .trap 2 0 (s.newest e) r.floor := if_pos h

theorem decideVersion_kept (h : Nat.min r.floor (s.newest e) ≤ v) (h' : v ≤ s.newest e) :
    s.decideVersion r eq v e pa = .bytes (s.versionBytes e pa v).1 (s.versionBytes e pa v).2 := by
  rw [decideVersion, if_neg (Nat.not_lt.mpr h), if_pos h']

/-- A version not yet created: what the region's closing and the load's kind decide. -/
theorem decideVersion_future (h : s.newest e < v) : s.decideVersion r eq v e pa =
    if r.closed = false then .park
    else if eq then .trap 3 0 (s.newest e) r.floor
    else .bytes (s.bytes pa 64) (s.lineTag pa) := by
  have hfloor : ¬ v < Nat.min r.floor (s.newest e) := fun hv =>
    absurd (Nat.lt_of_lt_of_le hv (Nat.min_le_right _ _)) (Nat.not_lt.mpr h.le)
  rw [decideVersion, if_neg hfloor, if_neg (Nat.not_le.mpr h)]
  simp

theorem decideVersion_open (h : s.newest e < v) (hc : r.closed = false) : s.decideVersion r eq v e pa = .park := by
  rw [decideVersion_future h, if_pos hc]

theorem decideVersion_closed (h : s.newest e < v) (hc : r.closed = true) : s.decideVersion r eq v e pa =
    if eq then .trap 3 0 (s.newest e) r.floor else .bytes (s.bytes pa 64) (s.lineTag pa) := by
  rw [decideVersion_future h, if_neg (by simp [hc])]

theorem versionBytes_newest (e pa : Nat) : s.versionBytes e pa (s.newest e) = (s.bytes pa 64, s.lineTag pa) := if_pos rfl

theorem versionBytes_record {p : Nat} (hv : v ≠ s.newest e) (hp : (s.records e).find? (fun x => x.2 == v) = some (p, v)) :
    s.versionBytes e pa v = (s.bytes (recData p) 64, s.lineTag (recData p)) := by
  rw [versionBytes, if_neg hv, hp]

end

/-- A version load parks: the line's directory entry is marked, the waiter listed, and the load of its task marked as parked. -/
def parkVersion (s : State) (core slot id : Nat) (eq : Bool) (v region e : Nat) : State :=
  ((s.modCtx (s.task (core * 8 + slot)).ctx (fun c =>
      { c with vparked := c.vparked.filter (fun x => x.id != id) ++
          [{ core := core, slot := slot, id := id, eq := eq, v := v, region := region, line := e }] })).modTask (core * 8 + slot)
    (fun t => { t with loads := t.loads.map (fun x => if x.id = id then { x with parked := true } else x) })).setWait e true

section

variable {core slot id v region e : Nat} {eq : Bool}

theorem mem_vparked_parkVersion :
    { core := core, slot := slot, id := id, eq := eq, v := v, region := region, line := e } ∈
      ((s.parkVersion core slot id eq v region e).ctx (s.task (core * 8 + slot)).ctx).vparked := by
  rw [parkVersion, setWait, writeWord, Reported.of_writeMem.ctx, modTask_eq, ctx_setTask, ctx_modCtx_self]
  simp

theorem parked_of_mem_parkVersion (x : Load) (hx : x ∈ ((s.parkVersion core slot id eq v region e).task (core * 8 + slot)).loads)
    (hid : x.id = id) : x.parked = true := by
  rw [parkVersion, task_setWait, modTask_eq, task, setTask_tasks, Tab.get_set_self, List.mem_map] at hx
  obtain ⟨y, -, rfl⟩ := hx
  by_cases hy : y.id = id
  · rw [if_pos hy]
  · rw [if_neg hy] at hid
    exact absurd hid hy

theorem num_parkVersion (h : Claims.noLoss s) :
    (s.parkVersion core slot id eq v region e).num (e + 8) 8 = 2 ^ 63 + s.num (e + 8) 8 % 2 ^ 63 := by
  rw [parkVersion, num_setWait_true (by exact h), modTask_eq, num_of_mem (setTask_mem _ _ _), num_of_mem (modCtx_mem _ _ _)]

end

end State

section

variable {s : State} {core slot id v region e : Nat} {eq : Bool} {l : Load}
  (h : Claims.VersionLoad s (core * 8 + slot) id l eq v region e)
include h

theorem versionLoad_id : l.id = id := by
  obtain ⟨hfind, -⟩ := h
  simpa using List.find?_some hfind

/-- R292: the engine waits for the task's earlier loads of the same bytes. -/
theorem versionRequest_waits (ho : (s.task (core * 8 + slot)).earlierOverlap l = true) :
    exec (.versionRequest core slot id) s = event (s.push (.versionRequest core slot id)) := by
  obtain ⟨hfind, hkind⟩ := h
  show execVersionRequest core slot id s = _
  simp [execVersionRequest, hfind, hkind, ho]

variable (ho : (s.task (core * 8 + slot)).earlierOverlap l = false)
include ho

theorem versionRequest_parks
    (hd : s.decideVersion (s.region (s.task (core * 8 + slot)).ctx region) eq v e (Claims.lineOf l) = .park) :
    exec (.versionRequest core slot id) s = event (s.parkVersion core slot id eq v region e) := by
  obtain ⟨hfind, hkind⟩ := h
  rw [Claims.lineOf] at hd
  show execVersionRequest core slot id s = _
  simp only [execVersionRequest, hfind, hkind, ho, hd]
  rfl

theorem versionRequest_answers {a : Answer} (ha : a ≠ .park)
    (hd : s.decideVersion (s.region (s.task (core * 8 + slot)).ctx region) eq v e (Claims.lineOf l) = a) :
    exec (.versionRequest core slot id) s = event (s.answer l v a) := by
  obtain ⟨hfind, hkind⟩ := h
  rw [Claims.lineOf] at hd
  show execVersionRequest core slot id s = _
  simp only [execVersionRequest, hfind, hkind, ho, hd]
  cases a with
  | park => exact absurd rfl ha
  | bytes bs tag => rfl
  | trap cause sub n f => rfl

end

/-! ### The wake of a version load (R60) -/

section

variable {s : State} {core slot id : Nat}

/-- Where a task waits, the search for one answers an entry of the slots. -/
theorem find_parkedOn {p : Park} (h : ∃ x ∈ s.tasks, x.2.stat.parkedOn = some p) :
    ∃ k t, s.tasks.find? (fun x => x.2.stat.parkedOn == some p) = some (k, t) ∧ (k, t) ∈ s.tasks := by
  obtain ⟨x, hx, hp⟩ := h
  have hsome : (s.tasks.find? (fun x => x.2.stat.parkedOn == some p)).isSome :=
    List.find?_isSome.mpr ⟨x, hx, by simpa using hp⟩
  obtain ⟨⟨k, t⟩, hkt⟩ := Option.isSome_iff_exists.mp hsome
  exact ⟨k, t, hkt, List.mem_of_find?_eq_some hkt⟩

/-- A search by what entries hold finds key `j`'s own entry, where that entry fits and no other key's does. The table need not be
canonical: of several entries of `j` both the read and the search meet the first. -/
theorem find_of_get {α : Type} {d : α} {t : Tab α} {f : α → Bool} {j : Nat} (hd : f d = false) (hj : f (Tab.get d t j) = true)
    (hall : ∀ p ∈ t, f p.2 = true → p.1 = j) : t.find? (fun p => f p.2) = some (j, Tab.get d t j) := by
  induction t with
  | nil => exact absurd (hd.symm.trans hj) (by simp)
  | cons p t ih =>
    by_cases hp : f p.2 = true
    · have hk : p.1 = j := hall p List.mem_cons_self hp
      have hget : Tab.get d (p :: t) j = p.2 := if_pos hk.symm
      rw [List.find?_cons_of_pos (p := fun (q : Nat × α) => f q.2) hp, hget, ← hk]
    · have hne : j ≠ p.1 := fun hk => hp (by simpa [Tab.get, hk] using hj)
      have hget : Tab.get d (p :: t) j = Tab.get d t j := if_neg hne
      rw [hget] at hj ⊢
      rw [List.find?_cons_of_neg (p := fun (q : Nat × α) => f q.2) hp]
      exact ih hj fun q hq => hall q (List.mem_cons_of_mem p hq)

theorem State.wake_of_parked {k : Nat} {p : Park} (h : (s.task k).stat = .parked p) : s.wake k = Claims.woken s k := by
  rw [State.wake, h]
  rfl

theorem versionWake_wakes {j : Nat} (hj : (s.task j).stat = .parked (.version id))
    (hall : ∀ p ∈ s.tasks, p.2.stat.parkedOn = some (.version id) → p.1 = j) :
    exec (.versionWake core slot id) s = event (Claims.woken s j) := by
  have hfind : s.tasks.find? (fun p => p.2.stat.parkedOn == some (.version id)) = some (j, s.task j) :=
    find_of_get (f := fun t => t.stat.parkedOn == some (.version id)) rfl
      (by rw [← State.task, hj]; simp [TStat.parkedOn]) (fun p hp hw => hall p hp (by simpa using hw))
  show execVersionWake core slot id s = _
  simp only [execVersionWake, hfind, hj, if_true, State.wake_of_parked hj]

/-- R377: a waiter whose save goes on keeps the wake waiting. -/
theorem versionWake_waits (hw : ∃ p ∈ s.tasks, p.2.stat.parkedOn = some (.version id))
    (hno : ∀ p ∈ s.tasks, p.2.stat ≠ .parked (.version id)) :
    exec (.versionWake core slot id) s = event (s.push (.versionWake core slot id)) := by
  obtain ⟨k, t, hfind, hmem⟩ := find_parkedOn hw
  have ht : t.stat ≠ .parked (.version id) := hno _ hmem
  show execVersionWake core slot id s = _
  simp only [execVersionWake, hfind, if_neg ht]

theorem versionWake_saved (hno : ∀ p ∈ s.tasks, p.2.stat.parkedOn ≠ some (.version id)) :
    exec (.versionWake core slot id) s = event (s.wakeSaved (fun t => t.stat.parkedOn == some (.version id))) := by
  have hfind : s.tasks.find? (fun p => p.2.stat.parkedOn == some (.version id)) = none := by simpa using hno
  show execVersionWake core slot id s = _
  simp only [execVersionWake, hfind]

end

/-! ### Reclaiming (R62) -/

section

variable {s : State} {ctx e : Nat}

theorem versionReclaim_nothing (h : Claims.belowK s ctx e = []) : exec (.versionReclaim ctx e) s = event s :=
  congrArg event (if_pos (List.map_eq_nil_iff.mpr h))

theorem versionReclaim_frees (h : Claims.belowK s ctx e ≠ []) : exec (.versionReclaim ctx e) s = event
    (((s.writeChain e (s.newest e) (s.num (e + 8) 8 / 2 ^ 63 == 1) (Claims.atOrAboveK s ctx e)).modCtx ctx (fun c =>
      { c with recUsed := c.recUsed.filter (fun p => !((Claims.belowK s ctx e).map (·.1)).contains p.1) })).recsFreed ctx
        (Claims.belowK s ctx e).length) := by
  have hx : exec (.versionReclaim ctx e) s = event (State.recsFreed _ ctx ((Claims.belowK s ctx e).map (·.1)).length) :=
    congrArg event (if_neg (fun hn => h (List.map_eq_nil_iff.mp hn)))
  rw [List.length_map] at hx
  exact hx

end

/-! ### Descriptors (R52) -/

section

variable {s : State} {ctx : Nat} {v : Word}

theorem vrsyncWrite_of_keeps (h : s.vrsyncBreaks ctx (v.toNat % 4096) = false) :
    exec (.vrsyncWrite ctx v) s = event (s.vrsync ctx (v.toNat % 4096)).2 :=
  congrArg event (if_neg (by simp [h]))

namespace State

variable {r : Nat}

theorem vrsync_valid (hv : (s.readDesc ctx r).valid = true) : s.vrsync ctx r =
    if (s.readDesc ctx r).lines = 0 ∨ s.mcap ≤ (s.readDesc ctx r).dir / 2 ^ 30 then (true, s)
    else (false, s.setRegion ctx r (s.readDesc ctx r)) := by
  simp [vrsync, hv]

theorem vrsync_withdrawn (hv : (s.readDesc ctx r).valid = false) : s.vrsync ctx r = (false, s.setRegion ctx r .invalid) := by
  simp [vrsync, hv]

@[simp] theorem region_cycle (ctx r : Nat) : s.cycle.region ctx r = s.region ctx r := rfl

@[simp] theorem region_setRegion_self (d : Region) : (s.setRegion ctx r d).region ctx r = d := by
  rw [setRegion, region, ctx_modCtx_self]
  exact Tab.get_set_self _ _ _ _

theorem region_setRegion_other {j : Nat} (hj : j ≠ r) (d : Region) : (s.setRegion ctx r d).region ctx j = s.region ctx j := by
  rw [setRegion, region, ctx_modCtx_self]
  exact Tab.get_set_other hj _

end State

end

/-! ### The heap (R64, R66) -/

section

variable {s : State} {ctx : Nat}

theorem State.recsFreed_of_no_release (h : (s.ctx ctx).releasing = []) (n : Nat) : s.recsFreed ctx n =
    (s.modCtx ctx (fun c => { c with vheapRaised := c.vheapRaised && decide (c.freeRecs ≤ c.heapThreshold) })).push
      (.versionRecordsFreed ctx n) := by
  rw [State.recsFreed]
  exact congrArg (State.push · _) (if_pos (by rw [State.ctx_modCtx_self]; exact h))

theorem State.grant_of_new {f : Nat} (hf : f ∉ (s.ctx ctx).frames) (hm : f < s.mcap) : s.grant ctx f =
    (false, (({ s with mem := splice s.mem (f * 2 ^ 30 + 16776960 * 64) 16384 [] } : State).modCtx ctx
      (fun c => { c with frames := c.frames ++ [f] })).recsFreed ctx recsPerFrame) :=
  if_neg (by simpa [hf] using hm)

theorem State.release_of_granted {f : Nat} (hf : f ∈ (s.ctx ctx).frames) (hr : f ∉ (s.ctx ctx).releasing) : s.release ctx f =
    (s.modCtx ctx (fun c => { c with releasing := c.releasing ++ [f] })).push (.heapReleaseComplete ctx) :=
  if_pos (by simp [hf, hr])

/-- The two request bits of VHCTL leave its frame and its threshold alone. -/
theorem vhctl_fields_or {v b : Word} (hb : b.toNat < 2 ^ 16) :
    frameOf (v ||| b) = v.toNat / 2 ^ 16 % 1024 ∧ (v ||| b).toNat / 2 ^ 32 % 2 ^ 24 = v.toNat / 2 ^ 32 % 2 ^ 24 := by
  have hshift : ∀ n, 16 ≤ n → (v ||| b).toNat / 2 ^ n = v.toNat / 2 ^ n := fun n hn => by
    have hz : b.toNat / 2 ^ n = 0 := Nat.div_eq_of_lt (hb.trans_le (Nat.pow_le_pow_right (by decide) hn))
    rw [BitVec.toNat_or, Nat.or_div_two_pow, hz, Nat.or_zero]
  exact ⟨by rw [frameOf, hshift 16 le_rfl], by rw [hshift 32 (by decide)]⟩

/-- What VHCTL holds of a write (R64). -/
def vhctlKept (v : Word) (f : Nat) : Word := BitVec.ofNat 64 (v.toNat / 2 ^ 32 % 2 ^ 24 * 2 ^ 32 + f * 2 ^ 16)

theorem vhctlKept_toNat {v : Word} {f : Nat} (hf : f < 1024) :
    (vhctlKept v f).toNat = v.toNat / 2 ^ 32 % 2 ^ 24 * 2 ^ 32 + f * 2 ^ 16 := by
  rw [vhctlKept, BitVec.toNat_ofNat]
  omega

theorem vhctlGrant_eq {v : Word} {f : Nat} (hf : f = v.toNat / 2 ^ 16 % 1024) (hv : v.getLsbD 1 = false)
    (hg : (s.grant ctx f).1 = false) :
    exec (.vhctlGrant ctx v) s = event ((s.grant ctx f).2.modCtx ctx (fun c => { c with vhctl := vhctlKept v f })) := by
  obtain ⟨hframe, hthr⟩ := vhctl_fields_or (v := v) (b := 1) (by decide)
  have hset : (v ||| 1).getLsbD 0 = true := by simp
  have hclear : (v ||| 1).getLsbD 1 = false := by rw [BitVec.getLsbD_or, hv]; rfl
  rw [← hf] at hframe
  show event (s.vhctlWrite ctx (v ||| 1)).2 = _
  simp only [State.vhctlWrite, hset, hclear, hframe, hthr, if_true, hg, vhctlKept]
  rfl

theorem vhctlRelease_eq {v : Word} {f : Nat} (hf : f = v.toNat / 2 ^ 16 % 1024) (hv : v.getLsbD 0 = false) :
    exec (.vhctlRelease ctx v) s = event ((s.modCtx ctx (fun c => { c with vhctl := vhctlKept v f })).release ctx f) := by
  obtain ⟨hframe, hthr⟩ := vhctl_fields_or (v := v) (b := 2) (by decide)
  have hset : (v ||| 2).getLsbD 1 = true := by simp
  have hclear : (v ||| 2).getLsbD 0 = false := by rw [BitVec.getLsbD_or, hv]; rfl
  rw [← hf] at hframe
  show event (s.vhctlWrite ctx (v ||| 2)).2 = _
  simp only [State.vhctlWrite, hset, hclear, hframe, hthr, if_true, vhctlKept]
  rfl

/-- R64: a frame granted while no release waits. -/
theorem vhctlGrant_grants {v : Word} {f : Nat} (hf : f = v.toNat / 2 ^ 16 % 1024) (hv : v.getLsbD 1 = false)
    (hnew : f ∉ (s.ctx ctx).frames) (hm : f < s.mcap) (hr : (s.ctx ctx).releasing = []) :
    ∃ t, Claims.Next (exec (.vhctlGrant ctx v) s) t ∧ (t.ctx ctx).frames = (s.ctx ctx).frames ++ [f] ∧
      (t.ctx ctx).vhctl.toNat = v.toNat / 2 ^ 32 % 2 ^ 24 * 2 ^ 32 + f * 2 ^ 16 ∧
      t.pending = s.pending ++ [.versionRecordsFreed ctx recsPerFrame] ∧ t.tasks = s.tasks := by
  have hgrant := State.grant_of_new hnew hm
  refine ⟨_, vhctlGrant_eq hf hv (congrArg Prod.fst hgrant), ?_⟩
  rw [hgrant, State.recsFreed_of_no_release (by rw [State.ctx_modCtx_self]; exact hr), State.ctx_cycle, State.ctx_modCtx_self,
    State.ctx_push, State.ctx_modCtx_self, State.ctx_modCtx_self]
  exact ⟨rfl, vhctlKept_toNat (by omega), rfl, rfl⟩

theorem vhctlRelease_starts {v : Word} {f : Nat} (hf : f = v.toNat / 2 ^ 16 % 1024) (hv : v.getLsbD 0 = false)
    (hg : f ∈ (s.ctx ctx).frames) (hr : f ∉ (s.ctx ctx).releasing) :
    ∃ t, Claims.Next (exec (.vhctlRelease ctx v) s) t ∧ (t.ctx ctx).releasing = (s.ctx ctx).releasing ++ [f] ∧
      (t.ctx ctx).frames = (s.ctx ctx).frames ∧ t.pending = s.pending ++ [.heapReleaseComplete ctx] ∧ t.mem = s.mem ∧
      t.tasks = s.tasks := by
  refine ⟨_, vhctlRelease_eq hf hv, ?_⟩
  rw [State.release_of_granted (by rw [State.ctx_modCtx_self]; exact hg) (by rw [State.ctx_modCtx_self]; exact hr),
    State.ctx_cycle, State.ctx_push, State.ctx_modCtx_self, State.ctx_modCtx_self]
  exact ⟨rfl, rfl, rfl, rfl, rfl⟩

theorem State.stepRelease_of_oldest {f : Nat} {rest : List Nat} (h : (s.ctx ctx).releasing = f :: rest) : s.stepRelease ctx =
    if ((s.moveOut ctx f (s.ctx ctx).recUsed.length).ctx ctx).recUsed.any (fun p => p.1 / 2 ^ 24 == f) = true then
      s.moveOut ctx f (s.ctx ctx).recUsed.length
    else ((s.moveOut ctx f (s.ctx ctx).recUsed.length).modCtx ctx (fun c =>
      { c with frames := c.frames.filter (· != f), releasing := rest })).recsFreed ctx 0 := by
  rw [State.stepRelease, h]

end

/-! ### Ordered groups (R300, R301) -/

section

variable {s : State} {ctx g : Nat}

@[simp] theorem State.group_modGroup_self (f : Group → Group) : (s.modGroup ctx g f).group ctx g = f (s.group ctx g) := by
  rw [State.modGroup, State.group, State.ctx_modCtx_self]
  exact Tab.get_set_self _ _ _ _

/-- A report of the lowest timestamp `v` has taken effect: the horizon stands in the group and in its entry. -/
def State.takeReport (s : State) (ctx g v : Nat) : State :=
  let h := Nat.max (s.group ctx g).horizon v
  let u := s.modGroup ctx g (fun x => { x with horizon := h })
  let t := u.writeMem ((u.ctx ctx).gtbase.toNat / 2 ^ 14 % 2 ^ 26 * 2 ^ 14 + g * 64 + 32) (Num.bytesOf 4 h) 0
  { t with horizonReports := Tab.set none t.horizonReports (ctx * 256 + g) none }

theorem State.group_takeReport (v : Nat) : ((s.takeReport ctx g v).group ctx g).horizon = Nat.max (s.group ctx g).horizon v := by
  have hctx : (s.takeReport ctx g v).ctx ctx = (s.modGroup ctx g _).ctx ctx := Reported.of_writeMem.ctx ctx
  rw [State.group, hctx]
  exact congrArg Group.horizon (State.group_modGroup_self _)

theorem State.horizonReports_takeReport (v : Nat) : Tab.get none (s.takeReport ctx g v).horizonReports (ctx * 256 + g) = none := by
  unfold State.takeReport
  exact Tab.get_set_self none _ _ none

theorem State.tasks_takeReport (v : Nat) : (s.takeReport ctx g v).tasks = s.tasks :=
  Reported.of_writeMem.tasks (s := s.modGroup ctx g _)

theorem horizonWindow_reports {v : Nat} (hn : Tab.get none s.horizonReports (ctx * 256 + g) = none)
    (hv : s.horizonReport ctx g = some v) : exec (.horizonWindow ctx g) s =
      event (({ s with horizonReports := Tab.set none s.horizonReports (ctx * 256 + g) (some (s.cyc, v)) } : State).push
        (.horizonWindow ctx g)) := by
  show execHorizonWindow ctx g s = _
  simp only [execHorizonWindow, hn, hv]

theorem horizonWindow_waits {w v : Nat} (hr : Tab.get none s.horizonReports (ctx * 256 + g) = some (w, v))
    (hc : s.cyc < effectCycle (windowOf w)) : exec (.horizonWindow ctx g) s = event (s.push (.horizonWindow ctx g)) := by
  show execHorizonWindow ctx g s = _
  simp only [execHorizonWindow, hr, if_pos hc]

/-- R300: a report takes effect, the horizon never falling. -/
theorem horizonWindow_takes {w v : Nat} (hr : Tab.get none s.horizonReports (ctx * 256 + g) = some (w, v))
    (hc : effectCycle (windowOf w) ≤ s.cyc) : exec (.horizonWindow ctx g) s = event (s.takeReport ctx g v) := by
  show execHorizonWindow ctx g s = _
  simp only [execHorizonWindow, hr, if_neg (Nat.not_lt.mpr hc)]
  rfl

theorem orderedSignatureCheck_commits {core slot : Nat} (hw : (s.task (core * 8 + slot)).wait = .signature)
    (hg : s.orderedGroup (s.task (core * 8 + slot)) = some g) (hs : s.conflictingSaved (s.task (core * 8 + slot)) g = []) :
    exec (.orderedSignatureCheck core slot) s = event
      ((((s.conflicting (core * 8 + slot) (s.task (core * 8 + slot)) g).foldl (fun x j => x.orderedAbort j) s).modTask
        (core * 8 + slot) (fun t => { t with wait := .none })).commitTask (core * 8 + slot)) := by
  show execOrderedSignatureCheck core slot s = _
  simp only [execOrderedSignatureCheck, hw, hg, hs, List.foldl_nil]
  rfl

theorem State.mem_conflicting {k j : Nat} {t : Task} : j ∈ s.conflicting k t g ↔
    ∃ p ∈ s.tasks, p.1 = j ∧ j ≠ k ∧ p.2.stat ≠ .free ∧ p.2.stat.dying = false ∧
      p.2.ctx = t.ctx ∧ s.orderedGroup p.2 = some g ∧ t.ts < p.2.ts ∧ p.2.rsig &&& t.wsig ≠ 0 := by
  simp only [State.conflicting, State.loses, List.mem_map, List.mem_filter, Bool.and_eq_true, bne_iff_ne, beq_iff_eq,
    decide_eq_true_eq, Bool.not_eq_true']
  constructor
  · rintro ⟨p, ⟨hp, ⟨⟨hk, hfree⟩, hdying⟩, ⟨⟨hctx, hgrp⟩, hts⟩, hsig⟩, rfl⟩
    exact ⟨p, hp, rfl, hk, hfree, hdying, hctx, hgrp, hts, hsig⟩
  · rintro ⟨p, hp, rfl, hk, hfree, hdying, hctx, hgrp, hts, hsig⟩
    exact ⟨p, ⟨hp, ⟨⟨hk, hfree⟩, hdying⟩, ⟨⟨hctx, hgrp⟩, hts⟩, hsig⟩, rfl⟩

end

/-- Settles O47, clause by clause: version loads and wakes, reclaiming, descriptors, the heap, the ordered groups. -/
theorem versionEvents : Obligations.VersionEvents := by
  refine ⟨?decided, fun core slot id v region e eq l s h ho => versionRequest_waits h ho, fun s e pa => s.versionBytes_newest e pa,
    fun s e pa v p hv hp => State.versionBytes_record hv hp, fun core slot j id s hj hall => versionWake_wakes hj hall,
    fun core slot id s hw hno => versionWake_waits hw hno, fun core slot id s hno => versionWake_saved hno,
    fun ctx e s => ⟨versionReclaim_nothing, versionReclaim_frees⟩, fun ctx v s hb => congrArg event (if_pos hb), ?reloaded,
    fun ctx f v s hf hv hnew hm hr => vhctlGrant_grants hf hv hnew hm hr,
    fun ctx f v s hf hv hg hr => vhctlRelease_starts hf hv hg hr, ?released, ?copied, ?judged, ?horizon,
    fun core slot g s hw hg hs => orderedSignatureCheck_commits hw hg hs, fun k g j s t => State.mem_conflicting⟩
  case decided =>
    intro core slot id v region e eq l s r h hr ho
    subst hr
    have hid := versionLoad_id h
    refine ⟨fun hb => ?below, fun hf hn => ?kept, fun hn hc he => ?closedEq, fun hn hc he => ?closedLe, fun hn hc => ?parks⟩
    case below =>
      rw [versionRequest_answers h ho (by simp) (State.decideVersion_below hb), State.answer, hid]
      rfl
    case kept =>
      rw [versionRequest_answers h ho (by simp) (State.decideVersion_kept hf hn), State.answer, hid]
      rfl
    case closedEq =>
      rw [versionRequest_answers h ho (by simp) ((State.decideVersion_closed hn hc).trans (if_pos he)), State.answer, hid]
      rfl
    case closedLe =>
      rw [versionRequest_answers h ho (by simp) ((State.decideVersion_closed hn hc).trans (if_neg (by simp [he]))), State.answer, hid]
      rfl
    case parks =>
      exact ⟨_, versionRequest_parks h ho (State.decideVersion_open hn hc), State.mem_vparked_parkVersion,
        State.parked_of_mem_parkVersion, State.num_parkVersion⟩
  case reloaded =>
    intro ctx v s d hd hb
    subst hd
    rw [vrsyncWrite_of_keeps hb]
    refine ⟨fun hv hl hm => ?_, fun hv hno => ?_, fun hv => ?_⟩
    · rw [State.vrsync_valid hv, if_neg (by omega)]
      rfl
    · rw [State.vrsync_valid hv, if_pos hno]
      rfl
    · rw [State.vrsync_withdrawn hv]
      exact ⟨_, rfl, congrArg Region.valid (State.region_setRegion_self _), fun r hr => State.region_setRegion_other hr _, rfl⟩
  case released =>
    intro ctx f rest s s1 hr hs1
    have hx : exec (.heapReleaseComplete ctx) s = event (s.stepRelease ctx) := rfl
    rw [hx, State.stepRelease_of_oldest hr, ← hs1]
    exact ⟨fun hno => by rw [if_neg (by simpa using hno)]; rfl, fun hin => by rw [if_pos (by simpa using hin)]; rfl⟩
  case copied =>
    intro ctx f n p q e s hp hq
    rw [State.moveOut, hp, hq]
  case judged =>
    intro ctx n s s1 hs1
    subst hs1
    rfl
  case horizon =>
    exact fun ctx g s => ⟨fun v hn hv => horizonWindow_reports hn hv,
      fun w v hr hc => ⟨_, horizonWindow_takes hr hc, State.group_takeReport v, State.horizonReports_takeReport v,
        State.tasks_takeReport v⟩,
      fun w v hr hc => horizonWindow_waits hr hc⟩

end Sys2Proof.Machine
end

section
/-! PROOFS (O50). Walks that end, what an invalidation removes and when it is over at a hive, and the debug handler's operations. -/

namespace Sys2Proof.Machine

/-- A map that keeps the keys of a table, and what an unlisted key reads as, applies to what every key reads as. -/
theorem get_map_of_key {α : Type} {d : α} {g : Nat × α → Nat × α} (hkey : ∀ p, (g p).1 = p.1) (hd : ∀ k, (g (k, d)).2 = d)
    (t : Tab α) (k : Nat) : Tab.get d (t.map g) k = (g (k, Tab.get d t k)).2 := by
  induction t with
  | nil => exact (hd k).symm
  | cons p t ih =>
    rw [List.map_cons, Tab.get, hkey, Tab.get, ih]
    split
    · next hk => rw [hk]
    · rfl

namespace State

variable {s : State}

@[simp] theorem core_setCore_self (c : Nat) (v : Core) : (s.setCore c v).core c = v := Tab.get_set_self _ _ _ _

theorem core_setCore_other {c j : Nat} (hj : j ≠ c) (v : Core) : (s.setCore c v).core j = s.core j := Tab.get_set_other hj v

@[simp] theorem core_modHive (n j : Nat) (f : Hive → Hive) : (s.modHive n f).core j = s.core j := rfl

@[simp] theorem hive_modHive_self (n : Nat) (f : Hive → Hive) : (s.modHive n f).hive n = f (s.hive n) := Tab.get_set_self _ _ _ _

end State

/-! ### Walks that end (R76, R82) -/

section

variable {s s1 : State} {core slot va : Nat} {x : Xlate}
  (hx : s.translate core (s.task (core * 8 + slot)).ctx va (s.task (core * 8 + slot)).super .load = (x, s1))
include hx

theorem tlbWalkComplete_wakes (hm : x ≠ .migrating) {a : Nat} (hs : (s.task (core * 8 + slot)).stat = .parked (.migrating a))
    (ha : a / 4096 = va / 4096) : exec (.tlbWalkComplete core slot va) s = event (s1.wake (core * 8 + slot)) := by
  show execTlbWalkComplete core slot va s = _
  simp only [execTlbWalkComplete, hx, hs, if_pos ha, reduceCtorEq, if_false]

variable (hfree : (s.task (core * 8 + slot)).stat ≠ .free)
include hfree

/-- R82: the page still migrates, and what waits for it goes on waiting. -/
theorem tlbWalkComplete_migrating (hm : x = .migrating) : exec (.tlbWalkComplete core slot va) s = event s1 := by
  subst hm
  show execTlbWalkComplete core slot va s = _
  simp only [execTlbWalkComplete, if_neg hfree, hx]

variable (hm : x ≠ .migrating)
include hm

/-- R377: the wake of a task whose save goes on waits for the save. -/
theorem tlbWalkComplete_waits {a : Nat} (hp : ∀ p, (s.task (core * 8 + slot)).stat ≠ .parked p)
    (hs : (s.task (core * 8 + slot)).stat.parkedOn = some (.migrating a)) (ha : a / 4096 = va / 4096) :
    exec (.tlbWalkComplete core slot va) s = event (s1.push (.tlbWalkComplete core slot va)) := by
  show execTlbWalkComplete core slot va s = _
  simp only [execTlbWalkComplete, if_neg hfree, hx]
  split
  · exact absurd rfl hm
  · next hst => exact absurd hst (hp _)
  · simp only [hs, if_pos ha]

theorem tlbWalkComplete_fills (hs : ∀ a, (s.task (core * 8 + slot)).stat.parkedOn ≠ some (.migrating a)) :
    exec (.tlbWalkComplete core slot va) s = event s1 := by
  show execTlbWalkComplete core slot va s = _
  simp only [execTlbWalkComplete, if_neg hfree, hx]
  split
  · exact absurd rfl hm
  · next hst => exact absurd (congrArg TStat.parkedOn hst) (hs _)
  · split
    · next hst => exact absurd hst (hs _)
    · rfl

end

/-! ### What an invalidation removes (R80) -/

section

variable {s : State} {kind va ctx : Nat}

theorem noneLeft_killCore_self (c : Nat) : Claims.noneLeft ((s.killCore kind va ctx c).core c) kind va ctx := by
  rw [State.killCore, State.modCore_eq, State.core_setCore_self]
  rintro e (he | he | ⟨n, he⟩) <;> simpa using (List.mem_filter.mp he).2

/-- A removal at any core brings no translation back. -/
theorem noneLeft_killCore {core : Nat} (h : Claims.noneLeft (s.core core) kind va ctx) (c : Nat) :
    Claims.noneLeft ((s.killCore kind va ctx c).core core) kind va ctx := by
  by_cases hc : core = c
  · subst hc
    exact noneLeft_killCore_self core
  · rw [State.killCore, State.modCore_eq, State.core_setCore_other hc]
    exact h

theorem noneLeft_foldl_killCore {core : Nat} {l : List Nat} (h : core ∈ l) :
    Claims.noneLeft ((l.foldl (fun s c => s.killCore kind va ctx c) s).core core) kind va ctx := by
  induction l using List.reverseRecOn with
  | nil => simp at h
  | append_singleton l c ih =>
    rw [List.foldl_append]
    rcases List.mem_append.mp h with hl | hc
    · exact noneLeft_killCore (ih hl) c
    · rw [List.mem_singleton.mp hc]
      exact noneLeft_killCore_self c

variable {hive : Nat}

theorem noneLeft_killHive {core : Nat} (h : core ∈ hiveCores hive) :
    Claims.noneLeft ((s.killHive kind va ctx hive).core core) kind va ctx := by
  rw [State.killHive, State.core_modHive]
  exact noneLeft_foldl_killCore h

theorem tlb_killHive (e : TlbEntry) (he : e ∈ ((s.killHive kind va ctx hive).hive hive).tlb) : killsEntry kind va ctx e = false := by
  rw [State.killHive, State.hive_modHive_self] at he
  simpa using (List.mem_filter.mp he).2

theorem victims_killHive (e : TlbEntry) (he : e ∈ ((s.killHive kind va ctx hive).hive hive).victims) :
    killsEntry kind va ctx e = false := by
  rw [State.killHive, State.hive_modHive_self] at he
  simpa using (List.mem_filter.mp he).2

end

/-! ### An invalidation at a hive (R80) -/

/-- A task after a hive's decrement: only the issuer of the invalidation has its counter lowered. -/
def Inval.lower (i : Inval) (t : Task) : Task :=
  if t.stat != .free && t.super && t.tid == i.tid then { t with cc := Tab.set 0 t.cc i.cc (Tab.get 0 t.cc i.cc - 1) } else t

/-- A hive is done with an invalidation; the last of the 512 ends it. -/
def State.hiveDone (s : State) (hive id : Nat) (i : Inval) : State :=
  let done := hive :: Tab.get [] s.invalDone id
  let t := s.modHive hive (fun h => { h with inval := h.inval.filter (fun p => p.1 != id) })
  ({ t with
    invalDone := Tab.set [] s.invalDone id (if done.length = 512 then [] else done)
    invals := if done.length = 512 then s.invals.filter (fun x => x.id != id) else s.invals } : State).invalCount i

section

variable {s : State} {hive id : Nat} {i : Inval}

theorem Inval.lower_issuer {t : Task} (hfree : t.stat ≠ .free) (hsuper : t.super = true) (htid : t.tid = i.tid) :
    Tab.get 0 (i.lower t).cc i.cc = Tab.get 0 t.cc i.cc - 1 := by
  rw [Inval.lower, if_pos (by simp [hfree, hsuper, htid])]
  exact Tab.get_set_self _ _ _ _

theorem Inval.lower_other {t : Task} (htid : t.tid ≠ i.tid) : i.lower t = t := if_neg (by simp [htid])

namespace State

theorem task_invalCount (k : Nat) : (s.invalCount i).task k = i.lower (s.task k) :=
  get_map_of_key (g := fun p => (p.1, i.lower p.2)) (fun _ => rfl) (fun _ => rfl) s.tasks k

theorem task_hiveDone (k : Nat) : (s.hiveDone hive id i).task k = i.lower (s.task k) := task_invalCount k

theorem hive_hiveDone : ((s.hiveDone hive id i).hive hive).inval = (s.hive hive).inval.filter (fun p => p.1 != id) := by
  have hhive : (s.hiveDone hive id i).hive hive =
      (s.modHive hive (fun h => { h with inval := h.inval.filter (fun p => p.1 != id) })).hive hive := rfl
  rw [hhive, hive_modHive_self]

theorem inval_hiveDone (x : Nat × Nat) (hx : x ∈ ((s.hiveDone hive id i).hive hive).inval) : x.1 ≠ id := by
  rw [hive_hiveDone] at hx
  simpa using (List.mem_filter.mp hx).2

theorem invals_hiveDone (hlast : (Tab.get [] s.invalDone id).length = 511) (x : Inval) (hx : x ∈ (s.hiveDone hive id i).invals) :
    x.id ≠ id := by
  have hinvals : (s.hiveDone hive id i).invals = _ := if_pos (by rw [List.length_cons, hlast])
  rw [hinvals] at hx
  simpa using (List.mem_filter.mp hx).2

end State

variable (hi : s.invals.find? (fun x => x.id == id) = some i)
include hi

theorem invalidationMessage_kills : exec (.invalidationMessage hive id) s = event
    ((((s.killHive i.kind i.va i.ctx hive).rewalk hive i.kind i.va i.ctx).modHive hive (fun h =>
      { h with inval := h.inval ++ [(id, s.killSize (hiveCores hive) (some hive) i.kind i.va i.ctx)] })).push
        (.invalidationDone hive id)) := by
  show execInvalidationMessage hive id s = _
  simp only [execInvalidationMessage, hi]

variable {size : Nat} (hh : (s.hive hive).inval.find? (fun x => x.1 == id) = some (id, size))
include hh

theorem invalidationDone_waits (ha : s.accessesCovered (hiveCores hive) i.kind i.va i.ctx size (0, i.tid) = true) :
    exec (.invalidationDone hive id) s = event (s.push (.invalidationDone hive id)) := by
  show execInvalidationDone hive id s = _
  simp only [execInvalidationDone, hi, hh, ha, if_true]

theorem invalidationDone_counts (ha : s.accessesCovered (hiveCores hive) i.kind i.va i.ctx size (0, i.tid) = false) :
    exec (.invalidationDone hive id) s = event (s.hiveDone hive id i) := by
  show execInvalidationDone hive id s = _
  simp only [execInvalidationDone, hi, hh, ha, Bool.false_eq_true, if_false, State.hiveDone, State.modHive_invalDone]
  by_cases hlast : (hive :: Tab.get [] s.invalDone id).length = 512
  · simp only [hlast, if_true]
    rfl
  · simp only [hlast, if_false]
    rfl

end

/-! ### Serving a debug message (R402) -/

section

variable {s s1 : State} {c : Nat} {m : Message}

theorem State.serve_of_served {svc : Svc} (h : Claims.Served s svc c m s1) (tag ctx dst : Nat) (again : Event)
    (f : State → Nat → Message → State) : s.serve svc tag ctx dst again f = f s1 c m := by
  rw [State.serve, h]

/-- A message of no region settles nothing. -/
theorem State.termDone_of_no_region (h : hdrTrm m.hdr = 0) : s.termDone c m = s := by
  have hc : counted' m.hdr = false := by simp [counted', h]
  rw [State.termDone, hc]
  rfl

theorem debugOp_of_served {ctx : Nat} {w : List Word} (h : Claims.Served s (.debug ctx w) c m s1) (core : Nat) (again : Event)
    (f : State → State) : debugOp ctx core w again f s = event ((f s1).termDone c m) :=
  congrArg event (State.serve_of_served h 9 ctx core again _)

end

/-! ### The task that a debug operation names (R402) -/

section

variable {s : State} {ctx core : Nat} {w : List Word}

theorem State.onTask_slot {k : Nat} (h : Claims.debugFinds s ctx core w k) (f : State → Found → State) :
    s.onTask ctx core w f = f s (.slot k) := by
  rw [State.onTask, opTask, opWord, h]

theorem State.onTask_area {a : Nat} (h : s.findTask ctx core ((w.getD 1 0).toNat % 2 ^ 48) = .area a) (f : State → Found → State) :
    s.onTask ctx core w f = f s (.area a) := by
  rw [State.onTask, opTask, opWord, h]

theorem State.onTask_foreign (h : s.findTask ctx core ((w.getD 1 0).toNat % 2 ^ 48) = .foreign) (f : State → Found → State) :
    s.onTask ctx core w f = s.debugEvent ctx ((w.getD 1 0).toNat % 2 ^ 48) 0 1 0 := by
  rw [State.onTask, opTask, opWord, h]

theorem State.onTask_absent (h : s.findTask ctx core ((w.getD 1 0).toNat % 2 ^ 48) = .absent) (f : State → Found → State) :
    s.onTask ctx core w f = s.debugEvent ctx ((w.getD 1 0).toNat % 2 ^ 48) 0 2 0 := by
  rw [State.onTask, opTask, opWord, h]

theorem State.stoppedArea_of_debug {a : Nat} (h : (Claims.savedOf s a).debug = true) : s.stoppedArea (.area a) = some a := if_pos h

end

/-! ### Detaching (R402) -/

/-- A task of context `ctx` has no breakpoints any more. -/
def Task.clearBps (ctx : Nat) (t : Task) : Task := if t.ctx = ctx then { t with bps := [] } else t

/-- The debugger detaches from a context at a core. -/
def State.detachDebug (s : State) (ctx core : Nat) : State :=
  ({ s with
    tasks := s.tasks.map (fun (p : Nat × Task) => if p.1 / 8 = core then (p.1, p.2.clearBps ctx) else p)
    saved := s.saved.map (fun (p : Nat × Saved) =>
      if p.2.core = core then (p.1, { p.2 with task := p.2.task.clearBps ctx }) else p) } : State).modCtx ctx
    (fun c => { c with debugRing := none })

theorem Task.clearBps_of_ctx_ne {ctx : Nat} {t : Task} (h : t.ctx ≠ ctx) : t.clearBps ctx = t := if_neg h

theorem Task.ctx_clearBps (ctx : Nat) (t : Task) : (t.clearBps ctx).ctx = t.ctx := by
  rw [Task.clearBps]
  split <;> rfl

theorem Task.bps_clearBps {ctx : Nat} {t : Task} (h : t.ctx = ctx) : (t.clearBps ctx).bps = [] := by rw [Task.clearBps, if_pos h]

theorem Task.clearBps_idle (ctx : Nat) : Task.idle.clearBps ctx = .idle := by
  rw [Task.clearBps]
  split <;> rfl

section

variable {s : State} {ctx core : Nat}

theorem State.task_detachDebug (k : Nat) :
    (s.detachDebug ctx core).task k = if k / 8 = core then (s.task k).clearBps ctx else s.task k := by
  have hread : (s.detachDebug ctx core).task k = _ :=
    get_map_of_key (d := Task.idle) (g := fun p => if p.1 / 8 = core then (p.1, p.2.clearBps ctx) else p)
      (fun p => by split <;> rfl) (fun k => by split <;> simp [Task.clearBps_idle]) s.tasks k
  rw [hread]
  split <;> rfl

theorem State.debugRing_detachDebug : ((s.detachDebug ctx core).ctx ctx).debugRing = none :=
  congrArg Ctx.debugRing (State.ctx_modCtx_self _ _)

theorem State.bps_detachDebug {k : Nat} (hk : k / 8 = core) (hctx : ((s.detachDebug ctx core).task k).ctx = ctx) :
    ((s.detachDebug ctx core).task k).bps = [] := by
  rw [State.task_detachDebug, if_pos hk] at hctx ⊢
  exact Task.bps_clearBps ((Task.ctx_clearBps ctx _).symm.trans hctx)

theorem State.task_detachDebug_other {k : Nat} (h : k / 8 ≠ core ∨ (s.task k).ctx ≠ ctx) :
    (s.detachDebug ctx core).task k = s.task k := by
  rw [State.task_detachDebug]
  split
  · next hk => exact Task.clearBps_of_ctx_ne (h.resolve_left (not_not_intro hk))
  · rfl

end

/-! ### The operations of the debug handler (R402, R403) -/

section

variable {s s1 : State} {ctx core c : Nat} {w : List Word} {m : Message} (h : Claims.Served s (.debug ctx w) c m s1)
include h

theorem debugAttach_eq : exec (.debugAttach ctx core w) s = event
    ((s1.modCtx ctx (fun x => { x with debugRing := some (w.getD 1 0).toNat, debugIndex := 0 })).termDone c m) :=
  debugOp_of_served h core _ _

theorem debugDetach_eq : exec (.debugDetach ctx core w) s = event ((s1.detachDebug ctx core).termDone c m) :=
  debugOp_of_served h core _ _

section

variable {k : Nat} (hk : Claims.debugFinds s1 ctx core w k)
include hk

theorem debugSetBreakpoint_eq (hnew : (w.getD 2 0).toNat % 2 ^ 57 ∉ (s1.task k).bps) :
    exec (.debugSetBreakpoint ctx core w) s = event
      ((if 4 ≤ (s1.task k).bps.length then s1.debugEvent ctx (s1.task k).tid (s1.task k).pc 3 0
        else s1.modTask k (fun t => { t with bps := t.bps ++ [(w.getD 2 0).toNat % 2 ^ 57] })).termDone c m) := by
  have hnot : ¬ (s1.task k).bps.contains (opWord w 2 % 2 ^ 57) = true := by simpa [opWord] using hnew
  refine (debugOp_of_served h core _ _).trans ?_
  rw [State.onTask_slot hk]
  exact congrArg (fun x : State => event (x.termDone c m)) (if_neg hnot)

theorem debugClearBreakpoint_eq : exec (.debugClearBreakpoint ctx core w) s = event
    ((s1.modTask k (fun t => { t with bps := t.bps.filter (· != (w.getD 2 0).toNat % 2 ^ 57) })).termDone c m) := by
  refine (debugOp_of_served h core _ _).trans ?_
  rw [State.onTask_slot hk]
  rfl

theorem debugStop_eq : exec (.debugStop ctx core w) s = event
    ((s1.modTask k (fun t => { t with stopAsked := true })).termDone c m) := by
  refine (debugOp_of_served h core _ _).trans ?_
  rw [State.onTask_slot hk]
  rfl

end

section

variable {a : Nat} (ha : Claims.debugStopped s1 ctx core w a)
include ha

/-- Bytes that end within the save area are all copied. -/
theorem debugCopy_eq (hin : (w.getD 2 0).toNat + (w.getD 3 0).toNat ≤ 0x20000) : exec (.debugCopy ctx core w) s = event
    ((s1.writeMem (w.getD 4 0).toNat (s1.bytes (a + (w.getD 2 0).toNat) (w.getD 3 0).toNat) 0).termDone c m) := by
  obtain ⟨hfound, hdebug⟩ := ha
  have hoff : Nat.min (opWord w 2) 0x20000 = (w.getD 2 0).toNat := Nat.min_eq_left (Nat.le_trans (Nat.le_add_right _ _) hin)
  have hlen : Nat.min (opWord w 3) (0x20000 - (w.getD 2 0).toNat) = (w.getD 3 0).toNat :=
    Nat.min_eq_left (Nat.le_sub_of_add_le' hin)
  refine (debugOp_of_served h core _ _).trans ?_
  rw [State.onTask_area hfound]
  simp only [State.stoppedArea_of_debug hdebug, hoff, hlen]
  rfl

theorem debugRelease_eq : exec (.debugRelease ctx core w) s = event
    (((Claims.withSaved s1 a { Claims.savedOf s1 a with pending := true, debug := false }).fill core).termDone c m) := by
  obtain ⟨hfound, hdebug⟩ := ha
  refine (debugOp_of_served h core _ _).trans ?_
  rw [State.onTask_area hfound]
  simp only [State.stoppedArea_of_debug hdebug]
  rfl

end

theorem debugStop_foreign (hf : s1.findTask ctx core ((w.getD 1 0).toNat % 2 ^ 48) = .foreign) : exec (.debugStop ctx core w) s =
    event ((s1.debugEvent ctx ((w.getD 1 0).toNat % 2 ^ 48) 0 1 0).termDone c m) := by
  refine (debugOp_of_served h core _ _).trans ?_
  rw [State.onTask_foreign hf]

theorem debugStop_absent (hf : s1.findTask ctx core ((w.getD 1 0).toNat % 2 ^ 48) = .absent) : exec (.debugStop ctx core w) s =
    event ((s1.debugEvent ctx ((w.getD 1 0).toNat % 2 ^ 48) 0 2 0).termDone c m) := by
  refine (debugOp_of_served h core _ _).trans ?_
  rw [State.onTask_absent hf]

end

/-- Settles O50, clause by clause: the end of a walk, an invalidation at a hive and its end, the debug handler's operations. -/
theorem translationAndDebugEvents : Obligations.TranslationAndDebugEvents := by
  refine ⟨?walk, fun hive id i s hi => invalidationMessage_kills hi,
    fun kind va ctx hive core s hc => ⟨noneLeft_killHive hc, tlb_killHive, victims_killHive⟩, ?done, ?debug,
    fun ctx core c w m s s1 h => ⟨debugStop_foreign h, debugStop_absent h⟩⟩
  case walk =>
    exact fun core slot va x s s1 hfree hx => ⟨tlbWalkComplete_migrating hx hfree,
      fun a hm hs ha => tlbWalkComplete_wakes hx hm hs ha,
      fun a hm hp hs ha => tlbWalkComplete_waits hx hfree hm hp hs ha,
      fun hm hs => tlbWalkComplete_fills hx hfree hm hs⟩
  case done =>
    intro hive id size i s hi hh
    refine ⟨invalidationDone_waits hi hh, fun ha => ⟨_, invalidationDone_counts hi hh ha,
      State.inval_hiveDone (s := s) (i := i), ?lowered, ?others, State.invals_hiveDone (s := s) (i := i), rfl⟩⟩
    case lowered =>
      intro k hfree hsuper htid
      exact (congrArg (fun t : Task => Tab.get 0 t.cc i.cc) (State.task_hiveDone k)).trans (Inval.lower_issuer hfree hsuper htid)
    case others =>
      exact fun k htid => (State.task_hiveDone k).trans (Inval.lower_other htid)
  case debug =>
    intro ctx core c w m s s1 h
    refine ⟨debugAttach_eq h, fun hr => ?detached, fun k hk => ⟨fun hnew hroom => ?room, fun hnew hfull => ?full,
      debugClearBreakpoint_eq h hk, debugStop_eq h hk⟩, fun a ha => ⟨debugCopy_eq h ha, debugRelease_eq h ha⟩⟩
    case detached =>
      have heq := debugDetach_eq (core := core) h
      rw [State.termDone_of_no_region hr] at heq
      exact ⟨_, heq, State.debugRing_detachDebug, fun k hk hctx => State.bps_detachDebug hk hctx,
        fun k hk => State.task_detachDebug_other hk, rfl⟩
    case room =>
      exact (debugSetBreakpoint_eq h hk hnew).trans (by rw [if_neg (Nat.not_le.mpr hroom)]; rfl)
    case full =>
      exact (debugSetBreakpoint_eq h hk hnew).trans (by rw [if_pos hfull]; rfl)

end Sys2Proof.Machine
end

section
/-! PROOFS (O13, O35 to O37, O43). How a word that may start ends: it retires with what its meaning answers, or by the exit of its meaning;
and how a meaning passes its guards. -/

namespace Sys2Proof.Machine

open Sys2Proof.Claims

/-- `m`, run from `s`, ends in the exit `e`. -/
def Exits {α : Type} (m : W α) (s : State) (e : Exit) : Prop := m.run s = .error e

section

variable {α β : Type} {m n : W α} {f : α → W β} {s t : State} {a : α} {e : Exit}

theorem exits_exit (e : Exit) (s : State) : Exits (exit e : W α) s e := rfl

theorem exits_trap (code cause : Nat) (items : List Word) (s : State) :
    Exits (trap code cause items : W α) s (.trap code cause items) := rfl

/-- What follows an exit is not run. -/
theorem Exits.bind (h : Exits m s e) (f : α → W β) : Exits (m >>= f) s e := by
  unfold Exits at *
  rw [StateT.run_bind, h]
  rfl

/-- The exit of what follows an answer. -/
theorem Gives.exits (h : Gives m s a t) (hf : Exits (f a) t e) : Exits (m >>= f) s e := by
  unfold Gives at h
  unfold Exits at *
  rw [StateT.run_bind, h]
  exact hf

variable {c : Prop} [Decidable c]

/-- A guard whose condition does not hold is passed. -/
theorem gives_if_neg (hc : ¬ c) (h : Gives n s a t) : Gives (if c then m else n) s a t := by rwa [if_neg hc]

theorem gives_if_pos (hc : c) (h : Gives m s a t) : Gives (if c then m else n) s a t := by rwa [if_pos hc]

/-- A guard whose condition does not hold leaves the exit to what follows. -/
theorem exits_if_neg (hc : ¬ c) (h : Exits n s e) : Exits (if c then m else n) s e := by rwa [if_neg hc]

/-- A guard whose condition holds ends the word. -/
theorem exits_if_pos (hc : c) (h : Exits m s e) : Exits (if c then m else n) s e := by rwa [if_pos hc]

end

section

variable {s s1 : State} {k : Nat} {e : Exit} {code cause : Nat} {items : List Word} {control : Bool}

/-- A word that may start and whose meaning exits ends by that exit. -/
theorem runWord_exits {m : W Ctl} (h : Starts control s k) (hm : Exits m s e) :
    runWord control m s = .next (s.finish k control e).cycle := by
  obtain ⟨hk, hp⟩ := h
  have hrun : Exits (do prelude control; let c ← m; retire control c) s e := hp.exits (hm.bind _)
  unfold runWord runFrame
  rw [hk]
  simp only
  rw [show StateT.run _ s = _ from hrun]

theorem plain_exits {m : W Unit} (h : Starts false s k) (hm : Exits m s e) : plain m s = .next (s.finish k false e).cycle :=
  runWord_exits h (hm.bind _)

/-- A plain word whose meaning traps takes the trap. -/
theorem plain_traps {m : W Unit} (h : Starts false s k) (hm : Exits m s (.trap code cause items)) :
    plain m s = .next (trapped s k false code cause items) := plain_exits h hm

/-- A word that awaits an answer stays: nothing of it retires. -/
theorem runWord_stays {m : W Ctl} (h : Starts control s k) (hm : Gives m s .stay s1) : runWord control m s = .next s1.cycle :=
  runFrame_gives h.1 (h.2.bind (hm.bind rfl))

end

/-! ### Operands without poison -/

section

variable {s : State} {g : GReg} {v : Word}

theorem gives_useWord (v : Word) (s : State) : Gives (useWord { v := v, tag := 0 }) s v s := rfl

/-- A g operand that holds a value without poison passes as that value. -/
theorem gives_useG (h : holdsG s g v) : Gives (useG g) s (op v) s := h.bind ((gives_useWord v s).bind (gives_pure _ _))

end

/-! ### What a word's operands leave of the turn -/

/-- The same task runs on the same focused core, in the same context. -/
structure SameTurn (s t : State) (k : Nat) : Prop where
  current : t.current = s.current
  focus : t.focus = s.focus
  ctx : (t.task k).ctx = (s.task k).ctx

namespace SameTurn

variable {s t u : State} {k : Nat}

theorem refl : SameTurn s s k := ⟨rfl, rfl, rfl⟩

theorem trans (h : SameTurn s t k) (h' : SameTurn t u k) : SameTurn s u k :=
  ⟨h'.current.trans h.current, h'.focus.trans h.focus, h'.ctx.trans h.ctx⟩

theorem of_modTask {j : Nat} {f : Task → Task} (hf : ∀ x, (f x).ctx = x.ctx) : SameTurn s (s.modTask j f) k := by
  refine ⟨rfl, rfl, ?_⟩
  by_cases hk : k = j
  · subst hk
    simp [State.task, State.modTask, State.setTask, hf]
  · simp [State.task, State.modTask, State.setTask, Tab.get_set_other hk]

theorem of_modSpace {ctx core : Nat} {f : Space → Space} : SameTurn s (s.modSpace ctx core f) k := ⟨rfl, rfl, rfl⟩

end SameTurn

end Sys2Proof.Machine
end

section
/-! PROOFS (O13). What reading and writing an operand leaves of the turn; the tag table and its words. -/

namespace Sys2Proof.Machine

open Sys2Proof.Claims

/-- Looking for the neighbour on a port leaves the state. -/
theorem gives_checkPort {d : Dir} {s t : State} {n : Nat} (h : Gives (checkPort d) s n t) : t = s := by
  obtain ⟨_, _, h1, h2⟩ := gives_bind_iff.1 h
  cases h1
  split at h2
  · exact absurd h2 (by simp)
  · exact (gives_pure_iff.1 h2).2.symm

/-- Reading an operand leaves the turn. -/
theorem sameTurn_readO {x : Opnd} {s t : State} {k : Nat} {w : Tagged} (h : s.current = some k) (hr : Gives (readO x) s w t) :
    SameTurn s t k := by
  cases x with
  | g n =>
    obtain ⟨rfl, -⟩ := (gives_readG h).1 hr
    exact .refl
  | q n =>
    obtain ⟨rest, -, rfl⟩ := (gives_popQueue h).1 hr
    exact .of_modTask fun _ => rfl
  | fifo n =>
    obtain ⟨rest, -, rfl⟩ := (gives_popQueue h).1 hr
    exact .of_modTask fun _ => rfl
  | special n =>
    obtain ⟨v, s1, h1, h2⟩ := gives_bind_iff.1 hr
    cases h1
    cases h2
    exact .refl
  | link d =>
    obtain ⟨n, s1, h1, h2⟩ := gives_bind_iff.1 hr
    obtain rfl := gives_checkPort h1
    obtain ⟨_, _, h3, h4⟩ := gives_bind_iff.1 h2
    obtain ⟨rfl, rfl⟩ := gives_get_iff.1 h3
    obtain ⟨_, _, h5, h6⟩ := gives_bind_iff.1 h4
    obtain ⟨rfl, rfl⟩ := (gives_curTask_iff h).1 h5
    split at h6
    · exact absurd h6 (by simp)
    · obtain ⟨_, _, h7, h8⟩ := gives_bind_iff.1 h6
      cases h7
      cases h8
      exact .of_modSpace

/-- Writing an operand leaves the turn. -/
theorem sameTurn_writeO {d : Opnd} {s t : State} {k lat : Nat} {w : Tagged} (h : s.current = some k)
    (hw : Gives (writeO d w lat) s () t) : SameTurn s t k := by
  cases d with
  | g n =>
    obtain ⟨-, rfl⟩ | ⟨hn, -, rfl⟩ := (gives_writeG h).1 hw
    · exact .refl
    · refine .of_modTask fun x => ?_
      simp only [Task.setReg, hn, if_false]
      split <;> rfl
  | q n =>
    obtain ⟨-, rfl⟩ := (gives_pushQueue h).1 hw
    split <;> exact .of_modTask fun _ => rfl
  | fifo n => exact absurd hw (by simp [writeO])
  | special n => exact absurd hw (by simp [writeO])
  | link p =>
    obtain ⟨n, s1, h1, h2⟩ := gives_bind_iff.1 hw
    obtain rfl := gives_checkPort h1
    obtain ⟨_, _, h3, h4⟩ := gives_bind_iff.1 h2
    obtain ⟨rfl, rfl⟩ := gives_get_iff.1 h3
    obtain ⟨_, _, h5, h6⟩ := gives_bind_iff.1 h4
    obtain ⟨rfl, rfl⟩ := (gives_curTask_iff h).1 h5
    dsimp only at h6
    split at h6
    · exact absurd h6 (by simp [gives_bind_iff])
    · split at h6
      · obtain rfl := gives_set_iff.1 h6
        exact .of_modSpace
      · obtain rfl := (gives_modCur_iff h).1 h6
        exact .of_modTask fun _ => rfl

/-! ### The tag table (R92, R182) -/

/-- `findTag` answers the lowest slot that holds the tag. -/
theorem findTag_of_lowest {s : State} {ctx core n tag : Nat} (hn : n < 256) (hh : holdsTag s ctx core n tag)
    (hlow : ∀ m < n, ¬ holdsTag s ctx core m tag) : (s.space ctx core).findTag tag = n :=
  congrArg (·.getD 0xFFFF) (List.find?_range_eq_some.2 ⟨by simpa using hh, by simpa using hn, fun m hm => by
    simpa [holdsTag, imp_iff_not_or] using hlow m hm⟩)

/-- `findTag` answers 0xFFFF where no slot holds the tag. -/
theorem findTag_of_none {s : State} {ctx core tag : Nat} (hno : ∀ m < 256, ¬ holdsTag s ctx core m tag) :
    (s.space ctx core).findTag tag = 0xFFFF :=
  congrArg (·.getD 0xFFFF) (List.find?_range_eq_none.2 fun m hm => by
    simpa [holdsTag, imp_iff_not_or] using hno m hm)

section

variable {x y : Opnd} {s s1 s2 : State} {k : Nat} {a : Word} {b : Tagged}

theorem ltag_retires {d : Opnd} (h : Starts false s k) (hx : Gives (readO x) s b s1)
    (hw : Gives (writeO d { v := BitVec.ofNat 64 ((s1.space (s.task k).ctx s.focus).findTag (b.v.toNat % 2 ^ 48)), tag := b.tag } 2) s1 () s2) :
    exec (.ltag d x) s = .next (retired false .next k s2) := by
  obtain ⟨hcur, hfocus, hctx⟩ := sameTurn_readO h.1 hx
  have hk : s1.current = some k := hcur.trans h.1
  rw [← hfocus, ← hctx] at hw
  refine plain_retires h (hx.bind ((gives_get s1).bind ((gives_curTask hk).bind hw))) ?_
  exact (sameTurn_writeO hk hw).current.trans hk

theorem setTag_sameRunning {ctx core slot : Nat} {e : STag} : SameRunning s (s.setTag ctx core slot e) :=
  modSpace_sameRunning.trans (setCore_sameRunning rfl)

/-- The entry that `tset` writes for an operand, its fill complete where its gate has the phase. -/
def settledTag (sp : Space) (v : Word) : STag :=
  if (stagOf v).state = 1 ∧ (gateOf sp (stagOf v).gate).phase = (stagOf v).phase then
    { state := 2, gate := 0, phase := false, tag := (stagOf v).tag }
  else stagOf v

section

variable (h : Starts false s k) (hx : Gives (readO x) s { v := a, tag := 0 } s1) (hy : Gives (readO y) s1 b s2)
include h hx hy

theorem tset_retires (ha : a.toNat < 256) (hb : (stagOf b.v).state ≠ 0 ∧ (stagOf b.v).state ≠ 3) :
    exec (.tset x y) s = .next (retired false .next k
      (s2.setTag (s.task k).ctx s.focus a.toNat (settledTag (s2.space (s.task k).ctx s.focus) b.v))) := by
  have turn := (sameTurn_readO h.1 hx).trans (sameTurn_readO ((sameTurn_readO h.1 hx).current.trans h.1) hy)
  obtain ⟨hcur, hfocus, hctx⟩ := turn
  have hk : s2.current = some k := hcur.trans h.1
  rw [← hfocus, ← hctx]
  refine plain_retires h (hx.bind ((gives_useWord a s1).bind (hy.bind (gives_if_neg (by omega) (gives_if_neg (by tauto)
    ((gives_get s2).bind ((gives_curTask hk).bind (gives_set s2 _)))))))) (setTag_sameRunning.current_eq.trans hk)

theorem tset_traps_slot (ha : 256 ≤ a.toNat) : exec (.tset x y) s = .next (trapped s k false 5 0 [a]) :=
  plain_traps h (hx.exits ((gives_useWord a s1).exits (hy.exits (exits_if_pos ha ((exits_trap _ _ _ _).bind _)))))

theorem tset_traps_state (ha : a.toNat < 256) (hb : (stagOf b.v).state = 0 ∨ (stagOf b.v).state = 3) :
    exec (.tset x y) s = .next (trapped s k false 5 0 [b.v]) :=
  plain_traps h (hx.exits ((gives_useWord a s1).exits (hy.exits (exits_if_neg (by omega) (exits_if_pos hb ((exits_trap _ _ _ _).bind _))))))

end

section

variable (h : Starts false s k) (hx : Gives (readO x) s { v := a, tag := 0 } s1)
include h hx

theorem tclr_retires (ha : a.toNat < 256) (he : ((s1.space (s.task k).ctx s.focus).stag a.toNat).state ≠ 1) :
    exec (.tclr x) s = .next (retired false .next k (s1.modSpace (s.task k).ctx s.focus (fun sp =>
      { sp with stags := Tab.set .idle sp.stags a.toNat
                  { (s1.space (s.task k).ctx s.focus).stag a.toNat with state := 0, gate := 0, phase := false } }))) := by
  obtain ⟨hcur, hfocus, hctx⟩ := sameTurn_readO h.1 hx
  have hk : s1.current = some k := hcur.trans h.1
  rw [← hfocus, ← hctx] at he ⊢
  exact plain_retires h (hx.bind ((gives_useWord a s1).bind (gives_if_neg (by omega)
    ((gives_get s1).bind ((gives_curTask hk).bind (gives_if_neg he (gives_set s1 _))))))) hk

theorem tclr_traps (ha : 256 ≤ a.toNat) : exec (.tclr x) s = .next (trapped s k false 5 0 [a]) :=
  plain_traps h (hx.exits ((gives_useWord a s1).exits (exits_if_pos ha ((exits_trap _ _ _ _).bind _))))

end

end

theorem stagOf_of_filling {v : Word} (h : v.toNat / 2 ^ 62 = 1) :
    stagOf v = { state := 1, gate := v.toNat / 2 ^ 57 % 32, phase := v.getLsbD 56, tag := v.toNat % 2 ^ 48 } := by
  simp only [stagOf, h, if_pos, BEq.rfl, Bool.true_and]

theorem stagOf_of_valid {v : Word} (h : v.toNat / 2 ^ 62 = 2) :
    stagOf v = { state := 2, gate := 0, phase := false, tag := v.toNat % 2 ^ 48 } := by
  simp only [stagOf, h]
  rfl

/-- An operand whose state is valid, or filling on a phase already there, makes the slot valid. -/
theorem settledTag_valid {sp : Space} {v : Word} (h : v.toNat / 2 ^ 62 = 2 ∨
    v.toNat / 2 ^ 62 = 1 ∧ (gateOf sp (v.toNat / 2 ^ 57 % 32)).phase = v.getLsbD 56) :
    settledTag sp v = { state := 2, gate := 0, phase := false, tag := v.toNat % 2 ^ 48 } := by
  unfold settledTag
  obtain h2 | ⟨h1, hp⟩ := h
  · rw [stagOf_of_valid h2]
    exact if_neg (by simp)
  · rw [stagOf_of_filling h1]
    exact if_pos ⟨rfl, hp⟩

/-- An operand that is filling on a phase still to come makes the slot filling. -/
theorem settledTag_filling {sp : Space} {v : Word} (h1 : v.toNat / 2 ^ 62 = 1)
    (hp : (gateOf sp (v.toNat / 2 ^ 57 % 32)).phase ≠ v.getLsbD 56) :
    settledTag sp v = { state := 1, gate := v.toNat / 2 ^ 57 % 32, phase := v.getLsbD 56, tag := v.toNat % 2 ^ 48 } := by
  unfold settledTag
  rw [stagOf_of_filling h1]
  exact if_neg fun h => hp h.2

/-- Settles O13, instruction by instruction: `ltag`, `tset` to a slot, `tset` beyond the slots, `tclr`. -/
theorem tagTableResults : Obligations.TagTableResults := by
  refine ⟨?ltag, ?tset, fun x y s s1 s2 k a b h hx hy ha => tset_traps_slot h hx hy ha,
    fun x s s1 k a h hx => ⟨fun ha he => tclr_retires h hx ha he, fun ha => tclr_traps h hx ha⟩⟩
  case ltag =>
    intro d x s s1 s2 k n a h hx hn hw
    refine ltag_retires h hx ?_
    obtain ⟨hlt, hh, hlow⟩ | ⟨rfl, hno⟩ := hn
    · rwa [findTag_of_lowest hlt hh hlow]
    · rwa [findTag_of_none hno]
  case tset =>
    intro x y s s1 s2 k a b h hx hy ha
    have hst : (stagOf b.v).state = b.v.toNat / 2 ^ 62 := rfl
    refine ⟨fun hb => ?valid, fun h1 hp => ?filling, fun hb => tset_traps_state h hx hy ha hb⟩
    case valid =>
      rw [← settledTag_valid hb]
      exact tset_retires h hx hy ha (by omega)
    case filling =>
      rw [← settledTag_filling h1 hp]
      exact tset_retires h hx hy ha (by omega)

end Sys2Proof.Machine
end

section
/-! PROOFS (O43). Gates: what `gset`, `gadd`, `gwt` and `gpoll` do to the gate they name, and what a gate and the tag table read as after a write. -/

namespace Sys2Proof.Machine

open Sys2Proof.Claims

/-! ### The gate words (R110) -/

section

variable {s s1 : State} {k : Nat} {gate : Fin 32}

theorem gives_modGate (h : s.current = some k) (g : Nat) (f : Gate → Gate) :
    Gives (modGate g f) s () (withGate s k g (f (gateAt s (s.task k).ctx s.focus g))) :=
  (gives_curTask h).bind (gives_modify s _)

section

variable {cmd : Bool} {a b : GReg} {x y : Word} (h : Starts false s k) (ha : holdsG s a x) (hb : holdsG s b y)
include h ha hb

theorem gset_retires (hr : ¬ (2 ^ 24 ≤ x.toNat ∨ 2 ^ 24 ≤ y.toNat ∨ y.toNat = 0)) : exec (.gset gate cmd a b) s =
    .next (retired false .next k (withGate s k gate.val ((gateAt s (s.task k).ctx s.focus gate.val).set cmd x.toNat y.toNat))) :=
  plain_retires h (ha.bind ((gives_useWord x s).bind (hb.bind ((gives_useWord y s).bind
    (gives_if_neg hr (gives_modGate h.1 gate.val _)))))) h.1

theorem gset_traps (hr : 2 ^ 24 ≤ x.toNat ∨ 2 ^ 24 ≤ y.toNat ∨ y.toNat = 0) :
    exec (.gset gate cmd a b) s = .next (trapped s k false 16 0 []) :=
  plain_traps h (ha.exits ((gives_useWord x s).exits (hb.exits ((gives_useWord y s).exits
    (exits_if_pos hr ((exits_trap _ _ _ _).bind _))))))

end

section

variable {a : GReg} {x : Word} (h : Starts false s k) (ha : holdsG s a x)
include h ha

theorem gadd_retires (hr : ¬ 2 ^ 24 ≤ x.toInt.natAbs) : exec (.gadd gate a) s =
    .next (retired false .next k (withGate s k gate.val ((gateAt s (s.task k).ctx s.focus gate.val).add x.toInt))) :=
  plain_retires h (ha.bind ((gives_useWord x s).bind (gives_if_neg hr (gives_modGate h.1 gate.val _)))) h.1

theorem gadd_traps (hr : 2 ^ 24 ≤ x.toInt.natAbs) : exec (.gadd gate a) s = .next (trapped s k false 16 0 []) :=
  plain_traps h (ha.exits ((gives_useWord x s).exits (exits_if_pos hr ((exits_trap _ _ _ _).bind _))))

end

section

variable {ph : Bool} (h : Starts false s k)
include h

theorem gwt_retires (hp : (gateAt s (s.task k).ctx s.focus gate.val).phase = ph) :
    exec (.gwt gate ph) s = .next (retired false .next k s) :=
  plain_retires h ((gives_get s).bind ((gives_curTask h.1).bind (gives_if_neg (not_not.2 hp) (gives_pure () s)))) h.1

/-- At another phase the word ends in a stall on its gate. -/
theorem gwt_stalls (hp : (gateAt s (s.task k).ctx s.focus gate.val).phase ≠ ph) :
    exec (.gwt gate ph) s = .next (s.finish k false (.stall (some gate.val))).cycle :=
  plain_exits h ((gives_get s).exits ((gives_curTask h.1).exits (exits_if_pos hp (exits_exit _ s))))

theorem gpoll_retires {d : GReg} (hw : Gives (writeG d.val { v := (gateAt s (s.task k).ctx s.focus gate.val).word, tag := 0 } 1) s () s1) :
    exec (.gpoll d gate) s = .next (retired false .next k s1) :=
  plain_retires h ((gives_get s).bind ((gives_curTask h.1).bind hw)) ((sameTurn_writeO (d := .g d) h.1 hw).current.trans h.1)

end

end

/-- A stall on a gate goes on while an engine of the core can move. -/
theorem finish_stall_busy {s : State} {k : Nat} (hb : s.enginesBusy (k / 8) = true) (control : Bool) (g : Nat) :
    s.finish k control (.stall (some g)) = (s.pmcEvent (k / 8) 4 s.stepCycles).stepLate k := if_pos hb

/-- A stall on a gate is the gate deadlock fault when no engine of the core can move (R98). -/
theorem finish_stall_deadlock {s : State} {k : Nat} (hb : s.enginesBusy (k / 8) = false) (control : Bool) (g : Nat) :
    (s.finish k control (.stall (some g))).cycle = trapped s k control 17 0 [BitVec.ofNat 64 g] := by
  rw [State.finish, if_neg (by simp [hb])]
  rfl

/-! ### The gate itself (R95, R110) -/

theorem Gate.set_eq (g : Gate) (cmd : Bool) (count reload : Nat) : g.set cmd count reload =
    { count := if count = 0 then reload else count, reload := reload
      phase := if count = 0 then !g.phase else g.phase, cmd := cmd, ovf := false } := by
  unfold Gate.set
  split <;> rfl

theorem Gate.word_eq (g : Gate) : g.word = BitVec.ofNat 64 (g.count + g.reload * 2 ^ 24 + (if g.ovf then 2 ^ 61 else 0) +
    (if g.cmd then 2 ^ 62 else 0) + (if g.phase then 2 ^ 63 else 0)) := by
  unfold Gate.word
  congr 1
  ring

/-- A decrement of `d` toggles the gate when it takes the count to 0 or below, and a count passed below 0 is the overflow. -/
theorem Gate.down_eq (g : Gate) {d : Nat} (hd : d ≠ 0) : g.down d =
    if (g.count : Int) - d ≤ 0 then
      { g with count := g.reload, phase := !g.phase, ovf := g.ovf || decide ((g.count : Int) - d < 0) }
    else { g with count := g.count - d } := by
  have hovf : decide ((g.count : Int) - d < 0) = decide (g.count < d) := by
    rw [decide_eq_decide]
    omega
  rw [Gate.down, if_neg hd, hovf]
  by_cases hlt : d < g.count
  · rw [if_pos hlt, if_neg (by omega)]
  · rw [if_neg hlt, if_pos (by omega)]
    rfl

section

variable (sp : Space) (g : Nat) (x : Gate)

theorem gateOf_setGate_self : gateOf (sp.setGate g x) g = x := Tab.get_set_self _ _ _ _

theorem gateOf_setGate_other {j : Nat} (hj : j ≠ g) : gateOf (sp.setGate g x) j = gateOf sp j := Tab.get_set_other hj x

/-- An entry of the tag table after gate `g` is set to `x`: one that fills on the phase reached is valid. -/
theorem stag_setGate (n : Nat) : (sp.setGate g x).stag n =
    if (sp.stag n).state = 1 ∧ (sp.stag n).gate = g ∧ (sp.stag n).phase = x.phase then
      { sp.stag n with state := 2, gate := 0, phase := false }
    else sp.stag n := by
  unfold Space.stag Space.setGate
  rw [get_map_of_key (fun p => by split <;> rfl) (fun _ => rfl)]
  split <;> rfl

end

/-- Settles O43, clause by clause: the four gate words, then a gate and the tag table after a write, then an engine's decrement. -/
theorem gateResults : Obligations.GateResults := by
  refine ⟨?gset, ?gadd, ?gwt, ?gpoll, fun sp g x => ⟨gateOf_setGate_self sp g x, fun j hj => gateOf_setGate_other sp g x hj, ?fills⟩,
    fun g d hd => g.down_eq hd⟩
  case gset =>
    intro gate cmd a b s k x y h ha hb
    refine ⟨fun hx hy h0 => ?_, fun hr => gset_traps h ha hb hr⟩
    rw [← Gate.set_eq]
    exact gset_retires h ha hb (by omega)
  case gadd =>
    intro gate a s k x h ha
    have habs : |x.toInt| = (x.toInt.natAbs : Int) := Int.abs_eq_natAbs _
    exact ⟨fun hr => gadd_retires h ha (by omega), fun hr => gadd_traps h ha (by omega)⟩
  case gwt =>
    intro gate ph s k h
    refine ⟨fun hp => gwt_retires h hp, fun hp hb => ?_, fun hp hb => ?_⟩
    · rw [← finish_stall_busy hb false gate.val]
      exact gwt_stalls h hp
    · rw [← finish_stall_deadlock hb false gate.val]
      exact gwt_stalls h hp
  case gpoll =>
    intro d gate s s1 k h g hw
    rw [← Gate.word_eq] at hw
    exact gpoll_retires h hw
  case fills =>
    intro n hst hg hp
    rw [stag_setGate, if_pos ⟨hst, hg, hp⟩]

end Sys2Proof.Machine
end

section
/-! PROOFS (O35 to O37). How an engine word sends its command: its queue has a place, its operands pass their checks, the command enters the
queue and the word retires; or an operand ends it, or it stalls for a place. -/

namespace Sys2Proof.Machine

open Sys2Proof.Claims

variable {s s1 : State} {k : Nat} {e : Engine} {g : Gates} {what : Decoded} {l : List Tagged} {ops : W (List Tagged)} {x : Exit}

/-! ### Parts of an engine word (R97, R194) -/

theorem gives_engineRoom (h : queueRoom s e) : Gives (engineRoom e) s () s :=
  (gives_get s).bind (gives_if_neg (Nat.not_le.2 h) (gives_pure () s))

/-- The third command of the vector engine's queue stalls the stream, with nothing started, on the gate of the lock that holds the
next store back, or on none (R232). -/
theorem exits_engineRoom_vector (hr : ¬ queueRoom s .vector) (hs : (s.core s.focus).vq.started = []) :
    Exits (engineRoom .vector) s (.stall (some ((s.storeStall s.focus).getD 63))) := by
  refine (gives_get s).exits (exits_if_pos (Nat.not_lt.1 hr) ?_)
  rw [hs]
  exact exits_exit _ s

theorem gives_newCmd (h : s.current = some k) (what : Decoded) (g : Gates) (l : List Tagged) :
    Gives (newCmd what g l) s (commandOf s k what g l) (numbered s) :=
  (gives_curKey h).bind ((gives_curTask h).bind ((gives_get s).bind ((gives_set s (numbered s)).bind (gives_pure _ _))))

theorem gives_enqueue (c : Cmd) : Gives (enqueue e c) (numbered s) () (sending s e c) := gives_modify _ _

/-- An update of a core that leaves the slot it runs leaves the running task where it is. -/
theorem current_modCore {c : Nat} {f : Core → Core} (hf : ∀ y, (f y).running = y.running) : (s.modCore c f).current = s.current :=
  (setCore_sameRunning (hf _)).current_eq

theorem current_sending (c : Cmd) : (sending s e c).current = s.current :=
  current_modCore (s := numbered s) fun _ => by cases e <;> rfl

/-- A store waits for no horizon when its task is in no ordered group (R302). -/
theorem gives_orderedStore (h : s.current = some k) (hu : unordered s k) (ranges : State → List (Nat × Nat)) :
    Gives (orderedStore ranges) s () s := by
  have hb : s.beyondHorizon (s.task k) = false := by
    rw [State.beyondHorizon, hu]
  exact (gives_get s).bind ((gives_curKey h).bind ((gives_curTask h).bind (gives_if_pos (by rw [hb]; rfl) (gives_pure () s))))

/-! ### Words that send a command -/

section

variable (h : Starts false s k)
include h

theorem engineWord_sends (hr : queueRoom s e) (ho : Gives ops s l s1) (hk : s1.current = s.current) :
    engineWord e what g ops s = .next (retired false .next k (sending s1 e (commandOf s1 k what g l))) := by
  have hcur : s1.current = some k := hk.trans h.1
  exact plain_retires h ((gives_engineRoom hr).bind (ho.bind ((gives_newCmd hcur what g l).bind (gives_enqueue _))))
    ((current_sending _).trans hcur)

theorem engineWord_traps {code cause : Nat} {items : List Word} (hr : queueRoom s e) (ho : Exits ops s (.trap code cause items)) :
    engineWord e what g ops s = .next (trapped s k false code cause items) :=
  plain_traps h ((gives_engineRoom hr).exits (ho.bind _))

theorem vectorWord_stalls (hr : ¬ queueRoom s .vector) (hs : (s.core s.focus).vq.started = []) :
    engineWord .vector what g ops s = .next (s.finish k false (.stall (some ((s.storeStall s.focus).getD 63)))).cycle :=
  plain_exits h ((exits_engineRoom_vector hr hs).bind _)

variable {i : Instr}

/-- A store of the vector engine, which no horizon holds back, sends its command. -/
theorem vecStore_sends (hr : queueRoom s .vector) (ho : Gives ops s l s) (hu : unordered s k) :
    vecStore i g ops s = .next (retired false .next k (sending s .vector (commandOf s k (.std i) g l))) :=
  plain_retires h ((gives_engineRoom hr).bind (ho.bind ((gives_newCmd h.1 (.std i) g l).bind
    ((gives_orderedStore (s := numbered s) h.1 hu _).bind (gives_enqueue _))))) ((current_sending _).trans h.1)

theorem vecStore_traps {code cause : Nat} {items : List Word} (hr : queueRoom s .vector) (ho : Exits ops s (.trap code cause items)) :
    vecStore i g ops s = .next (trapped s k false code cause items) :=
  plain_traps h ((gives_engineRoom hr).exits (ho.bind _))

end

end Sys2Proof.Machine
end

section
/-! PROOFS (O35). The vector and mask words: what their operands answer, and that each sends its command. -/

namespace Sys2Proof.Machine

open Sys2Proof.Claims

variable {s : State} {k : Nat} {a b : GReg} {p o : Word} {g : Gates}

/-! ### Operands (R195, R206 to R208) -/

/-- Without scale and offset an address is the pointer's plus the index (R143). -/
theorem address_unscaled (p o : Word) : address p o 0 0 =
    if ((p.toNat % 2 ^ 57 : Nat) : Int) + o.toInt < 0 ∨ 2 ^ 57 ≤ ((p.toNat % 2 ^ 57 : Nat) : Int) + o.toInt then trap fPointer
    else pure (((p.toNat % 2 ^ 57 : Nat) : Int) + o.toInt).toNat := by
  have hsum : (vaOf p : Int) + o.toInt * ((2 ^ 0 : Nat) : Int) + (0 : BitVec 22).toInt = ((p.toNat % 2 ^ 57 : Nat) : Int) + o.toInt := by
    simp [vaOf]
  unfold address
  simp only [hsum]
  rfl

/-- The address of `vld` and `vst` is the pointer's address plus the offset. -/
theorem gives_vecAddress {n : Nat} (ha : holdsG s a p) (hb : holdsG s b o)
    (hn : ((p.toNat % 2 ^ 57 : Nat) : Int) + o.toInt = n) (hlt : n < 2 ^ 57) :
    Gives (vecAddress a b) s [op (BitVec.ofNat 64 n)] s := by
  have haddr : Gives (address p o 0 0) s n s := by
    rw [address_unscaled, hn]
    exact gives_if_neg (by omega) (gives_pure n s)
  exact ha.bind ((gives_useWord p s).bind (hb.bind ((gives_useWord o s).bind (haddr.bind (gives_pure _ _)))))

/-- An address out of range is the pointer fault. -/
theorem exits_vecAddress (ha : holdsG s a p) (hb : holdsG s b o)
    (hbad : ((p.toNat % 2 ^ 57 : Nat) : Int) + o.toInt < 0 ∨ 2 ^ 57 ≤ ((p.toNat % 2 ^ 57 : Nat) : Int) + o.toInt) :
    Exits (vecAddress a b) s (.trap 9 0 []) := by
  have haddr : Exits (address p o 0 0) s (.trap 9 0 []) := by
    rw [address_unscaled]
    exact exits_if_pos hbad (exits_trap _ _ _ s)
  exact ha.exits ((gives_useWord p s).exits (hb.exits ((gives_useWord o s).exits (haddr.bind _))))

theorem gives_vecBase (ha : holdsG s a p) : Gives (vecBase a) s [op (BitVec.ofNat 64 (p.toNat % 2 ^ 57))] s :=
  ha.bind ((gives_useWord p s).bind (gives_pure _ _))

/-- The pointer and element index of `vldf` and `vstf` pass when the format has elements and every element's address is in range. -/
theorem gives_fmtOps {n : Nat} {store : Bool} (ha : holdsG s a p) (hb : holdsG s b o)
    (hf : p.toNat / 2 ^ 60 ∈ [1, 2, 3, 4, 5, 6, 7, 9, 10, 11, 12])
    (hlo : 0 ≤ ((p.toNat % 2 ^ 57 : Nat) : Int) + o.toInt * (fmtBytes (p.toNat / 2 ^ 60) : Int))
    (hhi : ((p.toNat % 2 ^ 57 : Nat) : Int) + (o.toInt + ((n - 1 : Nat) : Int)) * (fmtBytes (p.toNat / 2 ^ 60) : Int) < 2 ^ 57) :
    Gives (fmtOps a b n store) s [op p, op o] s := by
  have hfmt : fmtCode p ≠ 0 ∧ ¬ 13 ≤ fmtCode p ∧ fmtCode p ≠ 8 := by
    simp only [List.mem_cons, List.not_mem_nil, or_false] at hf
    unfold fmtCode
    omega
  obtain ⟨h0, h13, h8⟩ := hfmt
  refine (gives_useG ha).bind ((gives_useG hb).bind (gives_if_neg (by tauto) (gives_if_neg h8 (gives_if_neg ?_ (gives_pure _ s)))))
  have hsum : ((p.toNat % 2 ^ 57 : Nat) : Int) + (o.toInt + ((n - 1 : Nat) : Int)) * (fmtBytes (p.toNat / 2 ^ 60) : Int) =
      ((vaOf p : Int) + o.toInt * (fmtBytes (fmtCode p) : Int)) + (((n - 1) * fmtBytes (fmtCode p) : Nat) : Int) := by
    unfold vaOf fmtCode
    push_cast
    ring
  rw [hsum] at hhi
  exact not_or.2 ⟨not_lt.2 hlo, not_le.2 hhi⟩

/-- A pointer whose format has no element is the format fault. -/
theorem exits_fmtOps {n : Nat} {store : Bool} (ha : holdsG s a p) (hb : holdsG s b o) (hf : p.toNat / 2 ^ 60 ∈ [0, 13, 14, 15]) :
    Exits (fmtOps a b n store) s (.trap 10 0 []) := by
  have hbad : fmtCode p = 0 ∨ 13 ≤ fmtCode p := by
    simp only [List.mem_cons, List.not_mem_nil, or_false] at hf
    unfold fmtCode
    omega
  exact (gives_useG ha).exits ((gives_useG hb).exits (exits_if_pos (by tauto) ((exits_trap _ _ _ _).bind _)))

/-! ### The words -/

/-- A vector or mask word without a g register sends its command with no operand. -/
theorem exec_vectorWord {i : Instr} (hi : vectorWord i g) (s : State) : exec i s = vecWord i g s := by
  rcases hi with ⟨x, rfl, rfl | rfl | rfl | rfl | rfl | rfl | rfl | rfl | rfl | rfl | rfl | rfl⟩ | ⟨x, rfl, rfl | rfl | rfl | rfl⟩ |
    ⟨x, rfl, rfl | rfl | rfl | rfl | rfl | rfl | rfl | rfl | rfl⟩ | ⟨x, rfl, rfl⟩ | ⟨x, rfl, rfl⟩ | ⟨x, rfl, rfl⟩ |
    ⟨x, rfl, rfl | rfl | rfl | rfl⟩ | ⟨x, rfl, rfl | rfl | rfl | rfl | rfl | rfl | rfl⟩ | ⟨x, rfl, rfl | rfl⟩ | ⟨x, rfl, rfl | rfl⟩ <;> rfl

/-- A word with one g register as data sends its command with that register's value. -/
theorem exec_dataWord {i : Instr} {e : Engine} (hi : dataWord i e g a) (s : State) :
    exec i s = engineWord e (.std i) g (do return [← readG a.val]) s := by
  rcases hi with ⟨x, rfl, rfl, rfl, rfl⟩ | ⟨x, rfl, rfl, rfl, rfl⟩ | ⟨x, rfl, rfl, rfl, rfl⟩ | ⟨x, rfl, rfl, rfl, rfl⟩ <;> rfl

/-- Settles O35, by the form of the word's operands: none, one as data, a pointer and an offset, a base, a pointer and an element index. -/
theorem vectorWordsIssue : Obligations.VectorWordsIssue := by
  refine ⟨fun i g s k hi h hr => ?none, fun i g a s k x hi h hr hx => ?data, ?address, fun x s k p o h hr hp ho hbad => ?range, ?base, ?format,
    fun x s k p e h hr hp he hf => ⟨?load, ?store⟩, fun i g s k hi h hr hs => ?full⟩
  case none =>
    rw [Sends, exec_vectorWord hi]
    exact engineWord_sends h hr (gives_pure [] s) rfl
  case data =>
    rw [Sends, exec_dataWord hi]
    exact engineWord_sends h hr (hx.bind (gives_pure [x] s)) rfl
  case address =>
    rintro x i s k n p o hi h hr hp ho hn hlt
    have hops := gives_vecAddress hp ho hn hlt
    obtain rfl | ⟨rfl, hu⟩ := hi
    · exact engineWord_sends h hr hops rfl
    · exact vecStore_sends h hr hops hu
  case range => exact engineWord_traps h hr (exits_vecAddress hp ho hbad)
  case base =>
    rintro x i s k p hi h hr hp
    obtain rfl | ⟨rfl, hu⟩ := hi
    · exact engineWord_sends h hr (gives_vecBase hp) rfl
    · exact vecStore_sends h hr (gives_vecBase hp) hu
  case format =>
    rintro x i s k p e hi h hr hp he hf hlo hhi
    obtain rfl | ⟨rfl, hu⟩ := hi
    · exact engineWord_sends h hr (gives_fmtOps hp he hf hlo hhi) rfl
    · exact vecStore_sends h hr (gives_fmtOps hp he hf hlo hhi) hu
  case load => exact engineWord_traps h hr (exits_fmtOps hp he hf)
  case store => exact vecStore_traps h hr (exits_fmtOps hp he hf)
  case full =>
    rw [Next, exec_vectorWord hi]
    exact vectorWord_stalls h hr hs

end Sys2Proof.Machine
end

section
/-! PROOFS (O36). The matrix words: what their operands answer, and that each sends its command. -/

namespace Sys2Proof.Machine

open Sys2Proof.Claims

variable {s : State} {k : Nat} {g : Gates}

/-! ### Operands (R221, R226) -/

/-- A type's code in the table of R226; code 8 is q4x's alone. -/
theorem matFmt_of_mem {t : Ty} {f : Nat} (h : (t, f) ∈ pointerFmt) : f = matFmt t ∧ (f = 8 → t = .q4x) := by
  simp only [pointerFmt, List.mem_cons, Prod.mk.injEq, List.not_mem_nil, or_false] at h
  rcases h with ⟨rfl, rfl⟩ | ⟨rfl, rfl⟩ | ⟨rfl, rfl⟩ | ⟨rfl, rfl⟩ | ⟨rfl, rfl⟩ | ⟨rfl, rfl⟩ <;> simp [matFmt]

/-- The formats that a matrix pointer may hold are fmt 0 and its type's own, q4x with block 16. -/
theorem matrixPointer_passes {v : Word} {t : Ty} (h : matrixPointer v t) :
    ¬ (fmtCode v ≠ 0 ∧ (fmtCode v ≠ matFmt t ∨ (fmtCode v = 8 ∧ blogOf v ≠ 0))) := by
  obtain h0 | ⟨hm, hq⟩ := h
  · exact fun hc => hc.1 h0
  · obtain ⟨hfmt, h8⟩ := matFmt_of_mem hm
    rintro ⟨-, hne | ⟨hcode, hblog⟩⟩
    · exact hne hfmt
    · exact hblog (hq (h8 hcode))

theorem gives_matPtr {r : GReg} {v : Word} {t : Ty} (hv : holdsG s r v) (h : matrixPointer v t) : Gives (matPtr r t) s (op v) s :=
  (gives_useG hv).bind (gives_if_neg (matrixPointer_passes h) (gives_pure _ s))

section

variable {r : GReg} {v : Word} {bits : Nat} (hv : holdsG s r v)
include hv

theorem gives_zeroAbove (h : v.toNat < 2 ^ bits) : Gives (zeroAbove r bits) s (op v) s :=
  (gives_useG hv).bind (gives_if_neg (Nat.not_le.2 h) (gives_pure _ s))

/-- Reserved bits that are set are the matrix fault of cause 2. -/
theorem exits_zeroAbove (h : 2 ^ bits ≤ v.toNat) : Exits (zeroAbove r bits) s (.trap 20 2 []) :=
  (gives_useG hv).exits (exits_if_pos h ((exits_trap _ _ _ s).bind _))

end

/-! ### The words -/

/-- A matrix word without a g register sends its command with no operand. -/
theorem exec_matrixWord {i : Instr} (hi : matrixWord i g) (s : State) : exec i s = matWord i g (pure []) s := by
  rcases hi with ⟨d, rfl⟩ | ⟨x, rfl, rfl | rfl⟩ | ⟨x, rfl, rfl | rfl⟩ <;> rfl

section

variable {x : MMul} {a b c : Word} (h : Starts false s k) (hr : queueRoom s .matrix) (ha : holdsG s x.a a) (hb : holdsG s x.b b)
  (hc : holdsG s x.c c) (hpa : matrixPointer a x.t) (hpb : matrixPointer b (tbOf x))
include ha hb hc hpa hpb

theorem gives_productOps : Gives (productOps x) s [op a, op b, op c] s :=
  (gives_matPtr ha hpa).bind ((gives_matPtr hb hpb).bind ((gives_useG hc).bind (gives_pure _ s)))

include h hr

/-- The bytes of a stream start at a line. -/
theorem mmv_sends (hal : b.toNat % 64 = 0) (hres : c.toNat / 2 ^ 13 % 2 ^ 19 = 0) :
    Sends (.mmv x) s k .matrix x.gates (.std (.mmv x)) [op a, op b, op c] := by
  have hline : ¬ vaOf b % 64 ≠ 0 := by
    unfold vaOf
    omega
  exact engineWord_sends h hr ((gives_matPtr ha hpa).bind ((gives_matPtr hb hpb).bind ((gives_useG hc).bind
    (gives_if_neg hline (gives_if_neg (not_not.2 hres) (gives_pure _ s)))))) rfl

/-- An unaligned stream is the matrix fault of cause 1. -/
theorem mmv_traps (hal : b.toNat % 64 ≠ 0) : exec (.mmv x) s = .next (trapped s k false 20 1 []) := by
  have hline : vaOf b % 64 ≠ 0 := by
    unfold vaOf
    omega
  exact engineWord_traps h hr ((gives_matPtr ha hpa).exits ((gives_matPtr hb hpb).exits ((gives_useG hc).exits
    (exits_if_pos hline ((exits_trap _ _ _ s).bind _)))))

end

section

variable {x : MMem} {a b : Word} (h : Starts false s k) (hr : queueRoom s .matrix) (ha : holdsG s x.a a) (hb : holdsG s x.b b)
  (hpa : matrixPointer a x.t)
include h hr ha hb hpa

theorem mld_sends (hlt : b.toNat < 2 ^ 32) : Sends (.mld x) s k .matrix x.gates (.std (.mld x)) [op a, op b] :=
  engineWord_sends h hr ((gives_matPtr ha hpa).bind ((gives_zeroAbove hb hlt).bind (gives_pure _ s))) rfl

theorem mld_traps (hle : 2 ^ 32 ≤ b.toNat) : exec (.mld x) s = .next (trapped s k false 20 2 []) :=
  engineWord_traps h hr ((gives_matPtr ha hpa).exits ((exits_zeroAbove hb hle).bind _))

theorem mst_sends (hu : unordered s k) (hlt : b.toNat < 2 ^ 32) : Sends (.mst x) s k .matrix x.gates (.std (.mst x)) [op a, op b] :=
  plain_retires h ((gives_engineRoom hr).bind ((gives_matPtr ha hpa).bind ((gives_zeroAbove hb hlt).bind ((gives_newCmd h.1 _ _ _).bind
    ((gives_orderedStore (s := numbered s) h.1 hu _).bind (gives_enqueue _)))))) ((current_sending _).trans h.1)

theorem mst_traps (hle : 2 ^ 32 ≤ b.toNat) : exec (.mst x) s = .next (trapped s k false 20 2 []) :=
  plain_traps h ((gives_engineRoom hr).exits ((gives_matPtr ha hpa).exits ((exits_zeroAbove hb hle).bind _)))

end

/-- Settles O36, by the form of the word's operands: none, one as data, a product's three, a tile's pointer and stride, a pointer, an index. -/
theorem matrixWordsIssue : Obligations.MatrixWordsIssue := by
  refine ⟨fun i g s k hi h hr => ?none, fun i g a s k x hi h hr hx => ?data, ?product, ?memory, ?directory,
    fun x s k b h hr hb => ⟨fun hlt => ?element, fun hle => ?index⟩⟩
  case none =>
    rw [Sends, exec_matrixWord hi]
    exact engineWord_sends h hr (gives_pure [] s) rfl
  case data =>
    rw [Sends, exec_dataWord hi]
    exact engineWord_sends h hr (hx.bind (gives_pure [x] s)) rfl
  case product =>
    intro x i s k a b c hi h hr ha hb hc hpa hpb
    refine ⟨fun hv => ?_, fun hal => mmv_traps h hr ha hb hc hpa hpb hal⟩
    have hops := gives_productOps ha hb hc hpa hpb
    obtain rfl | rfl | rfl := hi
    · exact engineWord_sends h hr hops rfl
    · exact engineWord_sends h hr hops rfl
    · exact mmv_sends h hr ha hb hc hpa hpb (hv rfl).1 (hv rfl).2
  case memory =>
    rintro x i s k a b (rfl | ⟨rfl, hu⟩) h hr ha hb hpa
    · exact ⟨fun hlt => mld_sends h hr ha hb hpa hlt, fun hle => mld_traps h hr ha hb hpa hle⟩
    · exact ⟨fun hlt => mst_sends h hr ha hb hpa hu hlt, fun hle => mst_traps h hr ha hb hpa hle⟩
  case directory =>
    rintro x i s k a (rfl | rfl) h hr ha hpa
    · exact engineWord_sends h hr ((gives_matPtr ha hpa).bind (gives_pure _ s)) rfl
    · exact engineWord_sends h hr ((gives_matPtr ha hpa).bind (gives_pure _ s)) rfl
  case element => exact engineWord_sends h hr ((gives_zeroAbove hb hlt).bind (gives_pure _ s)) rfl
  case index => exact engineWord_traps h hr ((exits_zeroAbove hb hle).bind _)

end Sys2Proof.Machine
end

section
/-! PROOFS (O37). The copy words and the words of the attention family: what their operands answer, and that each sends its command. -/

namespace Sys2Proof.Machine

open Sys2Proof.Claims

/-! ### What a copy notes for the bulk-read fault (R299) -/

section

variable {s t : State}

/-- A check that finds no bulk write below leaves the state. -/
theorem gives_checkBulk {pa n : Nat} (h : Gives (checkBulk pa n) s () t) : t = s := by
  obtain ⟨_, _, h1, h2⟩ := gives_bind_iff.1 h
  obtain ⟨rfl, rfl⟩ := gives_get_iff.1 h1
  obtain ⟨_, _, h3, h4⟩ := gives_bind_iff.1 h2
  cases h3
  split at h4
  · exact absurd h4 (by simp)
  · exact (gives_pure_iff.1 h4).2.symm

theorem gives_checkBulkAt {va n : Nat} (h : Gives (checkBulkAt va n) s () t) : t = s := by
  obtain ⟨_, _, h3, h4⟩ := gives_bind_iff.1 h
  cases h3
  split at h4
  · exact absurd h4 (by simp)
  · exact (gives_pure_iff.1 h4).2.symm

theorem gives_awaitPuts (h : Gives awaitPuts s () t) : t = s := by
  obtain ⟨_, _, h1, h2⟩ := gives_bind_iff.1 h
  obtain ⟨rfl, rfl⟩ := gives_get_iff.1 h1
  obtain ⟨_, _, h3, h4⟩ := gives_bind_iff.1 h2
  cases h3
  split at h4
  · exact absurd h4 (by simp)
  · exact (gives_pure_iff.1 h4).2.symm

/-- Checks that leave the state, made for each member of a list, leave it. -/
theorem gives_forM_same {α : Type} {f : α → W PUnit} (hf : ∀ a s t, Gives (f a) s () t → t = s) {l : List α}
    (h : Gives (l.forM f) s () t) : t = s := by
  induction l generalizing s with
  | nil => exact (gives_pure_iff.1 h).2.symm
  | cons a l ih =>
    obtain ⟨_, u, h1, h2⟩ := gives_bind_iff.1 h
    exact (ih h2).trans (hf a s u h1)

theorem current_modCur {f : Task → Task} (h : Gives (modCur f) s () t) : t.current = s.current := by
  obtain ⟨_, _, h1, h2⟩ := gives_bind_iff.1 h
  cases h1
  cases h2
  rfl

/-- Noting a copy leaves the running task where it is: its checks leave the state, and its note is the task's own. -/
theorem current_noteCopy {src dst : List (Nat × Nat)} {ssp dsp : Bool} (h : Gives (noteCopy src dst ssp dsp) s () t) :
    t.current = s.current := by
  have hnote {read missed : List (Nat × Nat)} {f : Task → Task}
      (h : Gives (do
        read.forM (fun p => checkBulk p.1 p.2)
        missed.forM (fun p => checkBulkAt p.1 p.2)
        modCur f) s () t) : t.current = s.current := by
    obtain ⟨_, u, h1, h2⟩ := gives_bind_iff.1 h
    obtain rfl := gives_forM_same (fun _ _ _ hc => gives_checkBulk hc) h1
    obtain ⟨_, v, h3, h4⟩ := gives_bind_iff.1 h2
    obtain rfl := gives_forM_same (fun _ _ _ hc => gives_checkBulkAt hc) h3
    exact current_modCur h4
  obtain ⟨_, _, h1, h2⟩ := gives_bind_iff.1 h
  cases h1
  obtain ⟨_, _, h3, h4⟩ := gives_bind_iff.1 h2
  cases h3
  dsimp only at h4
  split at h4
  · obtain ⟨_, u, h5, h6⟩ := gives_bind_iff.1 h4
    obtain rfl := gives_awaitPuts h5
    exact hnote h6
  · exact hnote h4

end

/-! ### Operands -/

theorem toInt_eq_sgn (x : Nat) : Num.toInt 32 x = sgn 32 x := by
  unfold Num.toInt sgn
  rw [BitVec.toInt_eq_toNat_cond, BitVec.toNat_ofNat]
  dsimp only
  split <;> split <;> omega

section

variable {s : State} {r : GReg} {v : Word} (hv : holdsG s r v)
include hv

theorem gives_useDesc (h : v.toNat % 64 = 0) : Gives (useDesc r) s (op v) s :=
  (gives_useG hv).bind (gives_if_neg (not_not.2 h) (gives_pure _ s))

/-- An unaligned descriptor is the attention fault of cause 3. -/
theorem exits_useDesc (h : v.toNat % 64 ≠ 0) : Exits (useDesc r) s (.trap 21 3 []) :=
  (gives_useG hv).exits (exits_if_pos h ((exits_trap _ _ _ s).bind _))

theorem gives_useBf (h : v.toNat / 2 ^ 60 ∈ [0, 2]) : Gives (useBf r) s (op v) s := by
  have hf : ¬ (fmtCode v ≠ 0 ∧ fmtCode v ≠ 2) := by
    simp only [List.mem_cons, List.not_mem_nil, or_false] at h
    unfold fmtCode
    omega
  exact (gives_useG hv).bind (gives_if_neg hf (gives_pure _ s))

end

variable {s s1 : State} {k : Nat}

/-! ### The copy words (R100 to R104) -/

section

variable {x : CopyArg} {d a b c e : Word}

section

variable (h : Starts false s k) (hr : queueRoom s .copy) (hd : holdsG s x.d d) (ha : holdsG s x.a a) (hb : holdsG s x.b b)
include h hr hd ha hb

theorem cpy_sends (hlt : b.toNat < 2 ^ 24) (hn : Gives (noteCopy [(vaOf a, b.toNat)] [(vaOf d, b.toNat)] x.ssp x.dsp) s () s1) :
    exec (.cpy x) s = .next (retired false .next k (sending s1 .copy (commandOf s1 k (.cpy x) x.gates [op d, op a, op b]))) :=
  engineWord_sends h hr ((gives_useG hd).bind ((gives_useG ha).bind ((gives_useG hb).bind
    (gives_if_neg (Nat.not_le.2 hlt) (hn.bind (gives_pure _ s1)))))) (current_noteCopy hn)

theorem cpy_traps (hle : 2 ^ 24 ≤ b.toNat) : exec (.cpy x) s = .next (trapped s k false 15 1 []) :=
  engineWord_traps h hr ((gives_useG hd).exits ((gives_useG ha).exits ((gives_useG hb).exits
    (exits_if_pos hle ((exits_trap _ _ _ s).bind _)))))

end

/-- The ranges of a `cpyx`: row `q` of the shape at `base`, its strides the fields at bit `n` of the two stride words. -/
def shapeRanges (base b c e : Word) (n planes : Nat) : List (Nat × Nat) :=
  (List.range (shapeRows b.toNat * planes)).map (fun q =>
    (wrapAddr ((vaOf base : Int) + ((q % shapeRows b.toNat : Nat) : Int) * Num.toInt 32 (c.toNat / 2 ^ n % 2 ^ 32)
      + ((q / shapeRows b.toNat : Nat) : Int) * Num.toInt 32 (e.toNat / 2 ^ n % 2 ^ 32)), rowBytes b.toNat))

section

variable (hd : holdsG s x.d d) (ha : holdsG s x.a a) (hb : holdsG s x.b b) (hc : holdsG s x.c c)
  (hrb : b.toNat % 2 ^ 24 ≠ 0) (hrows : b.toNat / 2 ^ 24 % 2 ^ 20 ≠ 0)
include hd ha hb hc hrb hrows

theorem gives_rowOps_two (hp : b.toNat / 2 ^ 44 ≤ 1) (hsize : b.toNat % 2 ^ 24 * (b.toNat / 2 ^ 24 % 2 ^ 20) < 2 ^ 31)
    (hn : Gives (noteCopy (shapeRanges a b c 0 0 1) (shapeRanges d b c 0 32 1) x.ssp x.dsp) s () s1) :
    Gives (rowOps x false) s [op d, op a, op b, op c, op 0] s1 := by
  refine (gives_useG hd).bind ((gives_useG ha).bind ((gives_useG hb).bind ((gives_useG hc).bind ((gives_pure zeroT s).bind
    (gives_if_neg ?_ (gives_if_neg ?_ (hn.bind (gives_pure _ s1))))))))
  · rintro (h | h | h | ⟨-, h⟩)
    · exact hrb h
    · exact hrows h
    · exact absurd h Nat.one_ne_zero
    · exact absurd hp (Nat.not_le.2 h)
  · show ¬ 2 ^ 32 ≤ 2 * (b.toNat % 2 ^ 24 * (b.toNat / 2 ^ 24 % 2 ^ 20) * 1)
    omega

theorem gives_rowOps_three (he : holdsG s (x.c + 1) e) (hp : b.toNat / 2 ^ 44 ≠ 0)
    (hsize : b.toNat % 2 ^ 24 * (b.toNat / 2 ^ 24 % 2 ^ 20) * (b.toNat / 2 ^ 44) < 2 ^ 31)
    (hn : Gives (noteCopy (shapeRanges a b c e 0 (b.toNat / 2 ^ 44)) (shapeRanges d b c e 32 (b.toNat / 2 ^ 44)) x.ssp x.dsp) s () s1) :
    Gives (rowOps x true) s [op d, op a, op b, op c, op e] s1 := by
  refine (gives_useG hd).bind ((gives_useG ha).bind ((gives_useG hb).bind ((gives_useG hc).bind ((gives_useG he).bind
    (gives_if_neg ?_ (gives_if_neg ?_ (hn.bind (gives_pure _ s1))))))))
  · rintro (h | h | h | ⟨h, -⟩)
    · exact hrb h
    · exact hrows h
    · exact hp h
    · exact absurd h (by decide)
  · show ¬ 2 ^ 32 ≤ 2 * (b.toNat % 2 ^ 24 * (b.toNat / 2 ^ 24 % 2 ^ 20) * (b.toNat / 2 ^ 44))
    omega

end

/-- The rows of the two-dimensional form: no plane's stride enters. -/
theorem shapeRanges_two (base b c : Word) (n : Nat) : shapeRanges base b c 0 n 1 =
    (List.range (b.toNat / 2 ^ 24 % 2 ^ 20)).map (fun q : Nat =>
      (wrapAddr (((base.toNat % 2 ^ 57 : Nat) : Int) + (q : Int) * sgn 32 (c.toNat / 2 ^ n % 2 ^ 32)), b.toNat % 2 ^ 24)) := by
  unfold shapeRanges shapeRows
  rw [Nat.mul_one]
  refine List.map_congr_left fun q hq => ?_
  have hlt : q < b.toNat / 2 ^ 24 % 2 ^ 20 := List.mem_range.1 hq
  rw [Nat.mod_eq_of_lt hlt, Nat.div_eq_of_lt hlt, toInt_eq_sgn, Nat.cast_zero, zero_mul, add_zero]
  rfl

theorem shapeRanges_three (base b c e : Word) (n planes : Nat) : shapeRanges base b c e n planes =
    (List.range (b.toNat / 2 ^ 24 % 2 ^ 20 * planes)).map (fun q =>
      (wrapAddr (((base.toNat % 2 ^ 57 : Nat) : Int)
        + ((q % (b.toNat / 2 ^ 24 % 2 ^ 20) : Nat) : Int) * sgn 32 (c.toNat / 2 ^ n % 2 ^ 32)
        + ((q / (b.toNat / 2 ^ 24 % 2 ^ 20) : Nat) : Int) * sgn 32 (e.toNat / 2 ^ n % 2 ^ 32)), b.toNat % 2 ^ 24)) := by
  simp only [← toInt_eq_sgn]
  rfl

/-- The upper half of a stride word is its second field. -/
theorem upper_field (c : Word) : c.toNat / 2 ^ 32 % 2 ^ 32 = c.toNat / 2 ^ 32 := by
  have := c.isLt
  omega

theorem lower_field (c : Word) : c.toNat / 2 ^ 0 % 2 ^ 32 = c.toNat % 2 ^ 32 := by rw [Nat.pow_zero, Nat.div_one]

end

section

variable {x : CpycArg} {d a b : Word} (h : Starts false s k) (hr : queueRoom s .copy) (hd : holdsG s x.d d) (ha : holdsG s x.a a)
  (hb : holdsG s x.b b)
include h hr hd ha hb

theorem cpyc_sends (hfd : d.toNat / 2 ^ 60 ∈ [1, 2, 3, 4, 5, 6, 7, 9, 10, 11, 12])
    (hfa : a.toNat / 2 ^ 60 ∈ [1, 2, 3, 4, 5, 6, 7, 8, 9, 10, 11, 12])
    (hsize : elementsBytes a (b.toNat % 2 ^ 32) + elementsBytes d (b.toNat % 2 ^ 32) < 2 ^ 32)
    (hblock : a.toNat / 2 ^ 60 = 8 → b.toNat % 2 ^ 32 % blockElems (blogOf a) = 0)
    (hn : Gives (noteCopy [(vaOf a, elementsBytes a (b.toNat % 2 ^ 32))] [(vaOf d, elementsBytes d (b.toNat % 2 ^ 32))] x.ssp x.dsp)
      s () s1) :
    exec (.cpyc x) s = .next (retired false .next k (sending s1 .copy (commandOf s1 k (.cpyc x) x.gates [op d, op a, op b]))) := by
  refine engineWord_sends h hr ((gives_useG hd).bind ((gives_useG ha).bind ((gives_useG hb).bind (gives_if_neg ?formats
    (gives_if_neg (Nat.not_le.2 hsize) (gives_if_neg (fun hc => hc.2 (hblock hc.1)) (hn.bind (gives_pure _ s1)))))))) (current_noteCopy hn)
  simp only [List.mem_cons, List.not_mem_nil, or_false] at hfd hfa
  show ¬ (((fmtCode d == 0 || decide (13 ≤ fmtCode d)) || (fmtCode a == 0 || decide (13 ≤ fmtCode a)) || fmtCode d == 8) = true)
  simp only [Bool.or_eq_true, beq_iff_eq, decide_eq_true_eq]
  unfold fmtCode
  omega

end

theorem cfill_sends {x : CfillArg} {d b : Word} {a : Tagged} (h : Starts false s k) (hr : queueRoom s .copy) (hd : holdsG s x.d d)
    (ha : Gives (readG x.a.val) s a s) (hb : holdsG s x.b b) (hlt : b.toNat < 2 ^ 24)
    (hn : Gives (noteCopy [] [(vaOf d, b.toNat)] true x.dsp) s () s1) :
    exec (.cfill x) s = .next (retired false .next k (sending s1 .copy (commandOf s1 k (.cfill x) x.gates [op d, a, op b]))) :=
  engineWord_sends h hr ((gives_useG hd).bind (ha.bind ((gives_useG hb).bind
    (gives_if_neg (Nat.not_le.2 hlt) (hn.bind (gives_pure _ s1)))))) (current_noteCopy hn)

/-! ### The words of the attention family (R244 to R259) -/

/-- An effect with room in the commit buffer is buffered (R260, R298). -/
theorem gives_buffer {eff : Effect} {units control : Nat} (h : s.current = some k) (hroom : room s k units) :
    Gives (buffer eff units control) s () (buffering s k eff units control) := by
  have hcheck : Gives (checkUnits units) s () s := (gives_curTask h).bind (gives_if_neg (Nat.not_lt.2 hroom) (gives_pure () s))
  exact hcheck.bind (gives_modCur h _)

section

variable {x : AttArg} {a b c : Word}

/-- A key store charges its descriptor's units, and sends its command (R249). -/
theorem kst_sends (h : Starts false s k) (hr : queueRoom s .vector) (ha : holdsG s x.a a) (hb : holdsG s x.b b) (hc : holdsG s x.c c)
    (hf : b.toNat / 2 ^ 60 ∈ [0, 2]) (hal : a.toNat % 64 = 0)
    (hheld : s.heldBack (s.task k).ctx s.focus (a.toNat % 2 ^ 57) 64 = false)
    (hroom : room s k (s.attDesc (s.task k).ctx s.focus (a.toNat % 2 ^ 57)).1.units) :
    exec (.kst x) s = .next (retired false .next k
      ((buffering (numbered s) k (.kst s.nextId) (s.attDesc (s.task k).ctx s.focus (a.toNat % 2 ^ 57)).1.units 0).modCore s.focus
        (fun y => { y with vq := { y.vq with queue := y.vq.queue ++ [commandOf s k (.kst x) x.gates [op a, op b, op c]] } }))) := by
  refine plain_retires h ((gives_engineRoom hr).bind ((gives_useDesc ha hal).bind ((gives_useBf hb hf).bind ((gives_useG hc).bind
    ((gives_get s).bind ((gives_curTask h.1).bind (gives_if_neg (by rw [Bool.not_eq_true]; exact hheld)
      ((gives_newCmd h.1 _ _ _).bind ((gives_buffer (s := numbered s) h.1 hroom).bind (gives_modify _ _)))))))))) ?_
  refine Eq.trans (current_modCore (s := buffering (numbered s) k _ _ 0) ?_) h.1
  exact fun _ => rfl

theorem kst_traps (h : Starts false s k) (hr : queueRoom s .vector) (ha : holdsG s x.a a) (hal : a.toNat % 64 ≠ 0) :
    exec (.kst x) s = .next (trapped s k false 21 3 []) :=
  plain_traps h ((gives_engineRoom hr).exits ((exits_useDesc ha hal).bind _))

section

variable (h : Starts false s k) (hr : queueRoom s .copy) {d : Word} (hd : holdsG s x.d d) (ha : holdsG s x.a a) (hb : holdsG s x.b b)
  (hal : a.toNat % 64 = 0)
include h hr hd ha hb hal

/-- A gather of pages or tokens whose count is within its limit sends its command (R257). -/
theorem pgatWord_sends {what : Decoded} {most : Nat} (hc : holdsG s x.c c) (h0 : c.toNat ≠ 0) (hmost : c.toNat ≤ most) :
    pgatWord what x most s = .next (retired false .next k (sending s .copy (commandOf s k what x.gates [op d, op a, op b, op c]))) :=
  engineWord_sends h hr ((gives_useG hd).bind ((gives_useDesc ha hal).bind ((gives_useG hb).bind ((gives_useG hc).bind
    (gives_if_neg (not_or.2 ⟨h0, Nat.not_lt.2 hmost⟩) (gives_pure _ s)))))) rfl

/-- A gather of a bucket sends its command and stays until its heads are read (R251). -/
theorem bgatWord_stays (what : Decoded) : bgatWord what x s =
    .next (awaiting (sending s .copy (commandOf s k what x.gates [op d, op a, op b])) k .heads false).cycle := by
  have hcur : (sending s .copy (commandOf s k what x.gates [op d, op a, op b])).current = some k := (current_sending _).trans h.1
  exact runWord_stays h ((gives_engineRoom hr).bind ((gives_useG hd).bind ((gives_useDesc ha hal).bind ((gives_useG hb).bind
    ((gives_newCmd h.1 _ _ _).bind ((gives_enqueue _).bind ((gives_get _).bind ((gives_modCur hcur _).bind (gives_pure _ _)))))))))

end

end

/-- Mapping over a list of numbers read as integers. -/
theorem map_castInt {β : Type} (f : Int → β) (l : List Nat) : List.map f (do let a ← l; pure (a : Int)) = l.map (fun a : Nat => f a) := by
  induction l with
  | nil => rfl
  | cons a l ih => exact congrArg (f a :: ·) ih

/-- Settles O37, word by word: the copies `cpy`, `cpyx`, `cpyc` and `cfill`, then the attention family. -/
theorem copyAndAttentionWordsIssue : Obligations.CopyAndAttentionWordsIssue := by
  refine ⟨fun x s s1 k d a b h hr hd ha hb => ⟨fun hlt hn => cpy_sends h hr hd ha hb hlt hn, fun hle => cpy_traps h hr hd ha hb hle⟩,
    ?shapes,
    fun x s s1 k d a b h hr hd ha hb hfd hfa hsize hblock hn => cpyc_sends h hr hd ha hb hfd hfa hsize hblock hn,
    fun x s s1 k d b a h hr hd ha hb hlt hn => cfill_sends h hr hd ha hb hlt hn,
    fun a g s k x h hr ha => engineWord_sends h hr ((gives_useG ha).bind (gives_pure _ s)) rfl,
    fun x s k a b c h hr ha hb hc hf => ⟨fun hal => ?qsig, fun hal hheld => kst_sends h hr ha hb hc hf hal hheld,
      fun hal => ⟨?unaligned, kst_traps h hr ha hal⟩⟩,
    fun x s k d a h hr hd ha hfd hfa => ?psum, fun x s k a b c h hr ha hb hc hfa hfb hlt => ?pbnd,
    fun x s k d a b c h hr hd ha hb hal => ⟨fun hc h0 hmost => pgatWord_sends h hr hd ha hb hal hc h0 hmost,
      fun hc h0 hmost => pgatWord_sends h hr hd ha hb hal hc h0 hmost, bgatWord_stays h hr hd ha hb hal _,
      bgatWord_stays h hr hd ha hb hal _⟩⟩
  case shapes =>
    intro x s s1 k d a b c src dst h hr hd ha hb hc rb rows planes hrb hrows
    refine ⟨fun hp hsize hsrc hdst hn => ?two, fun e he hp hsize hsrc hdst hn => ?three⟩
    case two =>
      have hs : src = shapeRanges a b c 0 0 1 := by rw [hsrc, map_castInt, shapeRanges_two, lower_field]
      have ht : dst = shapeRanges d b c 0 32 1 := by rw [hdst, map_castInt, shapeRanges_two, upper_field]
      rw [hs, ht] at hn
      exact engineWord_sends h hr (gives_rowOps_two hd ha hb hc hrb hrows hp hsize hn) (current_noteCopy hn)
    case three =>
      have hs : src = shapeRanges a b c e 0 planes := by rw [hsrc, shapeRanges_three, lower_field, lower_field]
      have ht : dst = shapeRanges d b c e 32 planes := by rw [hdst, shapeRanges_three, upper_field, upper_field]
      rw [hs, ht] at hn
      exact engineWord_sends h hr (gives_rowOps_three hd ha hb hc hrb hrows he hp hsize hn) (current_noteCopy hn)
  case qsig => exact engineWord_sends h hr ((gives_useDesc ha hal).bind ((gives_useBf hb hf).bind (gives_pure _ s))) rfl
  case unaligned => exact engineWord_traps h hr ((exits_useDesc ha hal).bind _)
  case psum => exact engineWord_sends h hr ((gives_useBf hd hfd).bind ((gives_useBf ha hfa).bind (gives_pure _ s))) rfl
  case pbnd =>
    exact engineWord_sends h hr ((gives_useBf ha hfa).bind ((gives_useBf hb hfb).bind ((gives_useG hc).bind
      (gives_if_neg (not_not.2 (Nat.div_eq_of_lt hlt)) (gives_pure _ s))))) rfl

end Sys2Proof.Machine
end

section
/-! PROOFS (O44). A command's way to its start: what one step's cycles leave of a core's engines, acceptance and start. -/

namespace Sys2Proof.Machine

open Sys2Proof.Claims

section

variable {s : State}

/-- One step's cycles change a core's counters alone. -/
theorem core_cycle (n : Nat) : s.cycle.core n = { s.core n with pmc := s.countCycles n (s.core n).pmc } := by
  refine (get_map_of_key (g := fun c => (c.1, { c.2 with pmc := s.countCycles c.1 c.2.pmc })) (fun _ => rfl) (fun m => ?_) s.cores n)
  exact congrArg (fun p => { Core.idle with pmc := p }) (if_pos rfl)

@[simp] theorem engine_cycle (n : Nat) (e : Engine) : (s.cycle.core n).engine e = (s.core n).engine e := by
  rw [core_cycle]
  cases e <;> rfl

@[simp] theorem resident_cycle (n : Nat) : (s.cycle.core n).resident = (s.core n).resident := by rw [core_cycle]

@[simp] theorem engine_setEngine (y : Core) (e : Engine) (q : EngineQ) : (y.setEngine e q).engine e = q := by cases e <;> rfl

theorem core_modCore_self (n : Nat) (f : Core → Core) : (s.modCore n f).core n = f (s.core n) := State.core_setCore_self n _

variable {core : Nat} {e : Engine} {c : Cmd}

/-- With room in the held list, the command at the head of its queue enters it. -/
theorem engineCommandAccept_eq {rest : List Cmd} (hq : ((s.core core).engine e).queue = c :: rest)
    (hlt : ((s.core core).engine e).held.length < 16) : exec (.engineCommandAccept core e) s = event
      (s.modCore core (fun y => y.setEngine e
        { (s.core core).engine e with queue := rest, held := ((s.core core).engine e).held ++ [c] })) := by
  show execEngineCommandAccept core e s = _
  unfold execEngineCommandAccept
  dsimp only
  rw [hq]
  exact congrArg event (if_pos hlt)

/-- A core whose engine has started a held command; the matrix engine's tiles are then the command's slot's (R218). -/
def Core.starts (y : Core) (e : Engine) (c : Cmd) : Core :=
  let y' := y.setEngine e { y.engine e with
    held := (y.engine e).held.filter (fun o => o.place != c.place), started := (y.engine e).started ++ [c] }
  match e with
  | .matrix => { y' with resident := some c.slot }
  | _ => y'

theorem Core.engine_starts (y : Core) (e : Engine) (c : Cmd) : (y.starts e c).engine e =
    { y.engine e with held := (y.engine e).held.filter (fun o => o.place != c.place), started := (y.engine e).started ++ [c] } := by
  cases e <;> rfl

theorem engineCommandStart_eq (h : s.nextStart core e = some c) :
    exec (.engineCommandStart core e) s = event (s.modCore core (·.starts e c)) := by
  show execEngineCommandStart core e s = _
  unfold execEngineCommandStart
  rw [h]
  cases e <;> rfl

end

section

variable {s s1 : State} {core : Nat} {c : Cmd} {x : MMul} (hs : (s.core core).mq.started.head? = some c) (hw : c.what = .std (.mmv x))
include hs hw

/-- The stream of the oldest started command reads to its end: it is not faulted (R238). -/
theorem mmvStreamFault_reads {l : List (List (Byte × Nat))}
    (hr : s.readStream core c (tbOf x) (List.range (c.val 2 % 1024 + 1)) = (.ok l, s1)) : exec (.mmvStreamFault core) s = event s := by
  obtain ⟨rest, hq⟩ := List.head?_eq_some_iff.1 hs
  show execMmvStreamFault core s = _
  unfold execMmvStreamFault
  simp only [hq, hw, hr]

/-- A fault of its stream stops the command. -/
theorem mmvStreamFault_stops {st : Stop}
    (hr : s.readStream core c (tbOf x) (List.range (c.val 2 % 1024 + 1)) = (.error st, s1)) :
    exec (.mmvStreamFault core) s = event (s1.stopCmd core .matrix c (.stop st)) := by
  obtain ⟨rest, hq⟩ := List.head?_eq_some_iff.1 hs
  show execMmvStreamFault core s = _
  unfold execMmvStreamFault
  simp only [hq, hw, hr]

end

end Sys2Proof.Machine
end

section
/-! PROOFS (O44). Bytes written to a core's own scratchpad: what each byte reads as after the write, what stays, and what of main memory
a count of poisoned lines writes (R89, R91, R386). -/

namespace Sys2Proof.Machine

open Sys2Proof.Claims

/-! ### A slot under the claims of a write (R91) -/

/-- The bytes, the written bits and the entry of a slot are the same. -/
structure SameSlot (m : Nat) (sp sp' : Space) : Prop where
  stag : sp'.stag m = sp.stag m
  bytes : ∀ off, off / 1024 = m → Tab.get Memory.unlisted sp'.bytes off = Tab.get Memory.unlisted sp.bytes off
  written : ∀ line, line / 16 = m → Tab.get false sp'.written line = Tab.get false sp.written line

section

variable {sp sp' sp'' : Space} {m : Nat}

theorem SameSlot.refl : SameSlot m sp sp := ⟨rfl, fun _ _ => rfl, fun _ _ => rfl⟩

theorem SameSlot.trans (h : SameSlot m sp sp') (h' : SameSlot m sp' sp'') : SameSlot m sp sp'' :=
  ⟨h'.stag.trans h.stag, fun off ho => (h'.bytes off ho).trans (h.bytes off ho), fun l hl => (h'.written l hl).trans (h.written l hl)⟩

/-- Claiming slots leaves a slot that is in use. -/
theorem sameSlot_claim (h : (sp.stag m).state ≠ 0) (n : Nat) : SameSlot m sp (sp.claim n) := by
  unfold Space.claim
  split
  · next h0 =>
    have hne : m ≠ n := fun hm => h (hm ▸ h0)
    have hs := Tab.get_set_other (d := STag.idle) (t := (sp.clearSlot n).stags) hne { state := 3, gate := 0, phase := false, tag := 0 }
    exact ⟨hs, fun off ho => get_filter _ _ (fun j => j / 1024 != n) (by simp [ho, hne]),
      fun l hl => get_filter _ _ (fun j => j / 16 != n) (by simp [hl, hne])⟩
  · exact .refl

/-- A claimed slot is in use. -/
theorem stag_claim_self (n : Nat) : ((sp.claim n).stag n).state ≠ 0 := by
  unfold Space.claim
  split
  · have hs := Tab.get_set_self STag.idle (sp.clearSlot n).stags n { state := 3, gate := 0, phase := false, tag := 0 }
    exact ne_of_eq_of_ne (congrArg STag.state hs) (by decide)
  · assumption

theorem sameSlot_claims (h : (sp.stag m).state ≠ 0) (l : List Nat) : SameSlot m sp (l.foldl Space.claim sp) := by
  induction l generalizing sp with
  | nil => exact .refl
  | cons n l ih =>
    have h1 := sameSlot_claim h n
    exact h1.trans (ih (by rw [h1.stag]; exact h))

theorem stag_claims {l : List Nat} (h : m ∈ l) : ((l.foldl Space.claim sp).stag m).state ≠ 0 := by
  induction l generalizing sp with
  | nil => cases h
  | cons n l ih =>
    obtain rfl | h := List.mem_cons.1 h
    · have h1 := stag_claim_self (sp := sp) m
      rw [List.foldl_cons, (sameSlot_claims h1 l).stag]
      exact h1
    · exact ih h

/-! ### Bytes after a write -/

theorem mem_slotsOf {off n i : Nat} (hi : i < n) : (off + i) / 1024 ∈ slotsOf off n := by
  rw [slotsOf, if_neg (by omega)]
  refine List.mem_map.2 ⟨(off + i) / 1024 - off / 1024, List.mem_range.2 ?_, ?_⟩ <;> omega

/-- The lines marked as written are those of the span. -/
theorem get_markWritten (t : Tab Bool) (l n j : Nat) :
    Tab.get false (markWritten t l n) j = if l ≤ j ∧ j < l + n then true else Tab.get false t j := by
  induction n generalizing l with
  | zero => rw [if_neg (by omega)]; rfl
  | succ n ih =>
    by_cases hj : j = l
    · subst hj
      rw [if_pos (by omega)]
      exact Tab.get_set_self _ _ _ _
    · rw [markWritten, Tab.get_set_other hj, ih]
      exact if_congr (by omega) rfl rfl

/-- A byte on a written line of a slot in use. -/
structure Live (sp : Space) (off : Nat) : Prop where
  written : Tab.get false sp.written (off / 64) = true
  used : (sp.stag (off / 1024)).state ≠ 0

theorem Live.byte {off : Nat} (h : Live sp off) : sp.byte off = Tab.get Memory.unlisted sp.bytes off := if_pos h.written

variable {off tag : Nat} {bs : List Byte}

theorem live_write_self {i : Nat} (hi : i < bs.length) : Live (sp.write off bs tag) (off + i) := by
  refine ⟨?_, stag_claims (mem_slotsOf hi)⟩
  show Tab.get false (markWritten _ (off / 64) (linesOf off bs.length)) ((off + i) / 64) = true
  rw [get_markWritten, if_pos]
  rw [linesOf, if_neg (by omega)]
  omega

/-- A byte just written reads back. -/
theorem byte_write_self {i : Nat} (hi : i < bs.length) : (sp.write off bs tag).byte (off + i) = bs[i] := by
  rw [(live_write_self hi).byte]
  exact get_writeList_self _ off i bs hi

variable {j : Nat} (hl : Live sp j)
include hl

theorem live_write_other : Live (sp.write off bs tag) j := by
  obtain ⟨hw, hu⟩ := hl
  have hs := sameSlot_claims hu (slotsOf off bs.length)
  refine ⟨?_, ?_⟩
  · show Tab.get false (markWritten _ (off / 64) (linesOf off bs.length)) (j / 64) = true
    rw [get_markWritten, hs.written (j / 64) (by omega), hw]
    exact ite_self true
  · have he : (sp.write off bs tag).stag (j / 1024) = sp.stag (j / 1024) := hs.stag
    rw [he]
    exact hu

/-- A byte outside a write, on a written line of a slot in use, stays. -/
theorem byte_write_other (hj : j < off ∨ off + bs.length ≤ j) : (sp.write off bs tag).byte j = sp.byte j := by
  rw [(live_write_other hl).byte, hl.byte]
  exact (get_writeList_other hj).trans ((sameSlot_claims hl.used _).bytes j rfl)

end

end Sys2Proof.Machine
end

section
/-! PROOFS (O44). A core's own store of bytes with tags, line by line: where its bytes are, and what of main memory it counts. -/

namespace Sys2Proof.Machine

open Sys2Proof.Claims

/-! ### What a wake writes -/

/-- `t` is `s` but for the events that wait and the saved tasks. -/
def Woken (s t : State) : Prop := ∃ pending saved, t = { s with pending := pending, saved := saved }

section

variable {s t u : State}

theorem Woken.refl : Woken s s := ⟨_, _, rfl⟩

theorem Woken.trans (h : Woken s t) (h' : Woken t u) : Woken s u := by
  obtain ⟨_, _, rfl⟩ := h
  obtain ⟨_, _, rfl⟩ := h'
  exact ⟨_, _, rfl⟩

theorem woken_push {e : Event} : Woken s (s.push e) := ⟨_, _, rfl⟩

theorem woken_foldl {α : Type} {f : State → α → State} (hf : ∀ s a, Woken s (f s a)) (l : List α) : Woken s (l.foldl f s) :=
  foldl_keeps (Woken s) f (fun _ a h => h.trans (hf _ a)) l s .refl

theorem woken_wakeSaved (f : Task → Bool) : Woken s (s.wakeSaved f) := by
  unfold State.wakeSaved
  dsimp only
  split
  · exact .refl
  · exact Woken.trans ⟨_, _, rfl⟩ (woken_foldl (fun _ _ => woken_push) _)

theorem woken_wakeSpins (pa n : Nat) : Woken s (s.wakeSpins pa n) := by
  unfold State.wakeSpins
  refine Woken.trans (woken_foldl (fun s p => ?_) s.tasks) (woken_wakeSaved _)
  split
  · exact woken_push
  · exact .refl

end

/-! ### Lines that count as poison (R386) -/

section

variable {s : State} {tag n : Nat}

theorem countPoison_zero : s.countPoison 0 n = s := if_pos (.inl rfl)

/-- A count of poisoned lines writes main memory alone. -/
theorem countPoison_eq : s.countPoison tag n = { s with mem := (s.countPoison tag n).mem } := by
  unfold State.countPoison
  split <;> rfl

/-- What a count writes depends on main memory and the place of the records alone. -/
theorem mem_countPoison_congr {t : State} (hm : t.mem = s.mem) (he : t.erbase = s.erbase) :
    (t.countPoison tag n).mem = (s.countPoison tag n).mem := by
  unfold State.countPoison
  rw [he]
  split
  · exact hm
  · simp only [hm, State.num_of_mem hm]

theorem countPoison_eq_of {t : State} (hm : t.mem = s.mem) (he : t.erbase = s.erbase) :
    t.countPoison tag n = { t with mem := (s.countPoison tag n).mem } := by
  rw [countPoison_eq, mem_countPoison_congr hm he]

/-- A count writes the four bytes of the record that the tag names. -/
theorem byte_countPoison {pa : Nat} (h : outsideRecord s tag pa) : (s.countPoison tag n).byte pa = s.byte pa := by
  unfold State.countPoison
  split
  · rfl
  · exact get_writeList_other (by rw [Num.length_bytesOf]; exact h)

theorem minTag_cases (a b : Nat) : minTag a b = a ∨ minTag a b = b := by
  unfold minTag
  split
  · exact .inr rfl
  · split
    · exact .inl rfl
    · split
      · exact .inl rfl
      · exact .inr rfl

/-- The lowest tag of bytes from a tag on is that tag, or one of theirs. -/
theorem foldl_minTag_cases (l : List (Byte × Nat)) (a : Nat) :
    l.foldl (fun t p => minTag t p.2) a = a ∨ ∃ p ∈ l, l.foldl (fun t p => minTag t p.2) a = p.2 := by
  induction l generalizing a with
  | nil => exact .inl rfl
  | cons q l ih =>
    obtain h | ⟨p, hp, h⟩ := ih (minTag a q.2)
    · obtain hm | hm := minTag_cases a q.2
      · exact .inl (h.trans hm)
      · exact .inr ⟨q, List.mem_cons_self, h.trans hm⟩
    · exact .inr ⟨p, List.mem_cons_of_mem q hp, h⟩

/-- The tag of bytes is none, or that of one of them. -/
theorem tagOfBytes_cases (l : List (Byte × Nat)) : tagOfBytes l = 0 ∨ ∃ p ∈ l, tagOfBytes l = p.2 := foldl_minTag_cases l 0

end

/-! ### One line's write -/

section

variable {s : State} {ctx core off tag : Nat} {bs : List Byte}

/-- Dropping victims of slots writes the cores alone. -/
theorem foldl_dropVictims (l : List Nat) : ∃ cores, l.foldl (fun s sl => s.dropVictims core sl) s = { s with cores := cores } := by
  refine foldl_keeps (fun t : State => ∃ cores, t = { s with cores := cores }) _ ?_ l s ⟨s.cores, rfl⟩
  rintro _ sl ⟨cores, rfl⟩
  exact ⟨_, rfl⟩

/-- A write to a scratchpad writes that space and counts poisoned lines in main memory; besides, it drops victims and wakes. -/
theorem spadWrite_eq : ∃ cores pending saved, s.spadWrite ctx core off bs tag =
      { s with
        mem := (s.countPoison tag (linesOf off bs.length)).mem
        spaces := Tab.set .empty s.spaces (State.key ctx core) ((s.space ctx core).write off bs tag)
        cores := cores, pending := pending, saved := saved } := by
  obtain ⟨cores, hdrop⟩ := foldl_dropVictims (s := s.modSpace ctx core (fun sp => sp.write off bs tag)) (core := core)
    (slotsOf off bs.length)
  let u : State := { s with
    mem := (s.countPoison tag (linesOf off bs.length)).mem
    spaces := Tab.set .empty s.spaces (State.key ctx core) ((s.space ctx core).write off bs tag), cores := cores }
  have hcount : (({ s.modSpace ctx core (fun sp => sp.write off bs tag) with cores := cores } : State).countPoison tag
      (linesOf off bs.length)) = u := by
    refine countPoison_eq_of (s := s) ?_ ?_ <;> rfl
  unfold State.spadWrite
  dsimp only
  rw [hdrop, hcount]
  split
  · obtain ⟨pending, saved, hw⟩ := woken_wakeSpins (s := u) (aperturePa core off) bs.length
    exact ⟨cores, pending, saved, hw⟩
  · exact ⟨cores, _, _, rfl⟩

end

/-- `t` is `s` after bytes with tags have been written at `a` of a core's own scratchpad: they read back; what was live below stays; of main
memory only the records that their tags name count; the tasks stay. -/
structure Lands (s t : State) (ctx core a : Nat) (l : List (Byte × Nat)) : Prop where
  byte : ∀ i (h : i < l.length), (t.space ctx core).byte (a + i) = l[i].1
  live : ∀ i, i < l.length → Live (t.space ctx core) (a + i)
  below : ∀ off, off < a → Live (s.space ctx core) off →
    Live (t.space ctx core) off ∧ (t.space ctx core).byte off = (s.space ctx core).byte off
  mem : (∀ p ∈ l, p.2 = 0) → t.mem = s.mem
  outside : ∀ pa, (∀ p ∈ l, outsideRecord s p.2 pa) → t.byte pa = s.byte pa
  erbase : t.erbase = s.erbase
  tasks : t.tasks = s.tasks

section

variable {s t u : State} {ctx core a : Nat} {l m : List (Byte × Nat)}

theorem Lands.nil : Lands s s ctx core a [] :=
  ⟨fun _ h => absurd h (Nat.not_lt_zero _), fun _ h => absurd h (Nat.not_lt_zero _), fun _ _ h => ⟨h, rfl⟩, fun _ => rfl, fun _ _ => rfl,
    rfl, rfl⟩

/-- Bytes written after others of the same scratchpad, from where these end. -/
theorem Lands.append (h : Lands s t ctx core a l) (h' : Lands t u ctx core (a + l.length) m) : Lands s u ctx core a (l ++ m) where
  byte i hi := by
    by_cases hlt : i < l.length
    · rw [(h'.below (a + i) (by omega) (h.live i hlt)).2, h.byte i hlt, List.getElem_append_left hlt]
    · have hm : i - l.length < m.length := by rw [List.length_append] at hi; omega
      have hb := h'.byte (i - l.length) hm
      rw [show a + l.length + (i - l.length) = a + i by omega] at hb
      rw [hb, List.getElem_append_right (by omega)]
  live i hi := by
    by_cases hlt : i < l.length
    · exact (h'.below (a + i) (by omega) (h.live i hlt)).1
    · have hm : i - l.length < m.length := by rw [List.length_append] at hi; omega
      have hb := h'.live (i - l.length) hm
      rwa [show a + l.length + (i - l.length) = a + i by omega] at hb
  below off hlt hl := by
    obtain ⟨h1, h2⟩ := h.below off hlt hl
    obtain ⟨h3, h4⟩ := h'.below off (by omega) h1
    exact ⟨h3, h4.trans h2⟩
  mem hz := (h'.mem fun p hp => hz p (List.mem_append_right l hp)).trans (h.mem fun p hp => hz p (List.mem_append_left m hp))
  outside pa hp := by
    have h1 := h.outside pa fun p hl => hp p (List.mem_append_left m hl)
    refine (h'.outside pa fun p hm => ?_).trans h1
    unfold outsideRecord
    rw [h.erbase]
    exact hp p (List.mem_append_right l hm)
  erbase := h'.erbase.trans h.erbase
  tasks := h'.tasks.trans h.tasks

/-- One write of bytes with the lowest of their tags. -/
theorem lands_spadWrite : Lands s (s.spadWrite ctx core a (l.map (·.1)) (tagOfBytes l)) ctx core a l := by
  obtain ⟨cores, pending, saved, heq⟩ := spadWrite_eq (s := s) (ctx := ctx) (core := core) (off := a) (bs := l.map (·.1))
    (tag := tagOfBytes l)
  have hspace : (s.spadWrite ctx core a (l.map (·.1)) (tagOfBytes l)).space ctx core =
      (s.space ctx core).write a (l.map (·.1)) (tagOfBytes l) := by
    rw [heq]
    exact Tab.get_set_self _ _ _ _
  have hm : (s.spadWrite ctx core a (l.map (·.1)) (tagOfBytes l)).mem =
      (s.countPoison (tagOfBytes l) (linesOf a (l.map (·.1)).length)).mem := by rw [heq]
  constructor
  case byte =>
    intro i hi
    rw [hspace, byte_write_self (by rwa [List.length_map]), List.getElem_map]
  case live =>
    intro i hi
    rw [hspace]
    exact live_write_self (by rwa [List.length_map])
  case below =>
    intro off hlt hl
    rw [hspace]
    exact ⟨live_write_other hl, byte_write_other hl (.inl hlt)⟩
  case mem =>
    intro hz
    have h0 : tagOfBytes l = 0 := by
      obtain h0 | ⟨p, hp, h⟩ := tagOfBytes_cases l
      · exact h0
      · exact h.trans (hz p hp)
    rw [hm, h0, countPoison_zero]
  case outside =>
    intro pa hp
    have hb : (s.spadWrite ctx core a (l.map (·.1)) (tagOfBytes l)).byte pa =
        (s.countPoison (tagOfBytes l) (linesOf a (l.map (·.1)).length)).byte pa :=
      congrArg (fun m => Tab.get Memory.unlisted m pa) hm
    obtain h0 | ⟨p, hpl, h⟩ := tagOfBytes_cases l
    · rw [hb, h0, countPoison_zero]
    · rw [hb, h]
      exact byte_countPoison (hp p hpl)
  case erbase => rw [heq]
  case tasks => rw [heq]

theorem lineChunks_nil {α : Type} (fuel a : Nat) : lineChunks fuel a ([] : List α) = [] := by cases fuel <;> rfl

/-- Bytes are written line by line. -/
theorem lands_lineChunks {fuel : Nat} (h : l.length + a % 64 ≤ 64 * fuel) : Lands s
    ((lineChunks fuel a l).foldl (fun s x => s.spadWrite ctx core x.1 (x.2.map (·.1)) (tagOfBytes x.2)) s) ctx core a l := by
  induction fuel generalizing s a l with
  | zero =>
    obtain rfl := List.length_eq_zero_iff.1 (by omega : l.length = 0)
    exact Lands.nil
  | succ fuel ih =>
    obtain rfl | ⟨p, rest, hp⟩ : l = [] ∨ ∃ p rest, l = p :: rest := by
      cases l with
      | nil => exact .inl rfl
      | cons p rest => exact .inr ⟨p, rest, rfl⟩
    · exact Lands.nil
    have hc : lineChunks (fuel + 1) a l = (a, l.take (64 - a % 64)) :: lineChunks fuel (a + (64 - a % 64)) (l.drop (64 - a % 64)) := by
      rw [hp]; rfl
    rw [hc, List.foldl_cons]
    by_cases hshort : l.length ≤ 64 - a % 64
    · rw [List.take_of_length_le hshort, List.drop_eq_nil_of_le hshort, lineChunks_nil]
      exact lands_spadWrite
    · have htake : (l.take (64 - a % 64)).length = 64 - a % 64 := List.length_take_of_le (by omega)
      have hrest := ih (s := s.spadWrite ctx core a ((l.take (64 - a % 64)).map (·.1)) (tagOfBytes (l.take (64 - a % 64))))
        (a := a + (64 - a % 64)) (l := l.drop (64 - a % 64)) (by rw [List.length_drop]; omega)
      have happ := (lands_spadWrite (s := s) (ctx := ctx) (core := core) (a := a) (l := l.take (64 - a % 64))).append (by rwa [htake])
      rwa [List.take_append_drop] at happ

end

end Sys2Proof.Machine
end

section
/-! PROOFS (O44). A copy of at most 64 bytes within its core's scratchpad: its one beat reads, writes and ends the command. -/

namespace Sys2Proof.Machine

open Sys2Proof.Claims

/-! ### What happens beside the bytes of a beat -/

/-- Main memory, every scratchpad byte, how each task stands and what the copy engines have started stay. -/
structure Beside (s t : State) : Prop where
  mem : t.mem = s.mem
  byte : ∀ ctx core off, (t.space ctx core).byte off = (s.space ctx core).byte off
  stat : ∀ k, (t.task k).stat = (s.task k).stat
  started : ∀ n, (t.core n).cq.started = (s.core n).cq.started

namespace Beside

variable {s t u : State}

theorem refl : Beside s s := ⟨rfl, fun _ _ _ => rfl, fun _ => rfl, fun _ => rfl⟩

theorem trans (h : Beside s t) (h' : Beside t u) : Beside s u :=
  ⟨h'.mem.trans h.mem, fun x n off => (h'.byte x n off).trans (h.byte x n off), fun k => (h'.stat k).trans (h.stat k),
    fun n => (h'.started n).trans (h.started n)⟩

theorem of_modTask {k : Nat} {f : Task → Task} (hf : ∀ x, (f x).stat = x.stat) : Beside s (s.modTask k f) := by
  refine ⟨rfl, fun _ _ _ => rfl, fun j => ?_, fun _ => rfl⟩
  by_cases hj : j = k
  · subst hj
    exact (congrArg Task.stat (Tab.get_set_self _ _ _ _)).trans (hf _)
  · exact congrArg Task.stat (Tab.get_set_other hj _)

theorem of_modSpace {ctx core : Nat} {f : Space → Space} (hf : ∀ sp off, (f sp).byte off = sp.byte off) :
    Beside s (s.modSpace ctx core f) := by
  refine ⟨rfl, fun x n off => ?_, fun _ => rfl, fun _ => rfl⟩
  by_cases hk : State.key x n = State.key ctx core
  · have hs : (s.modSpace ctx core f).space x n = f (s.space ctx core) := by
      unfold State.space
      rw [hk]
      exact Tab.get_set_self _ _ _ _
    have hs' : s.space x n = s.space ctx core := by
      unfold State.space
      rw [hk]
    rw [hs, hs', hf]
  · exact congrArg (fun sp : Space => sp.byte off) (Tab.get_set_other hk _)

theorem of_woken (h : Woken s t) : Beside s t := by
  obtain ⟨_, _, rfl⟩ := h
  exact ⟨rfl, fun _ _ _ => rfl, fun _ => rfl, fun _ => rfl⟩

theorem of_cycle : Beside s s.cycle := by
  refine ⟨rfl, fun _ _ _ => rfl, fun _ => rfl, fun n => ?_⟩
  rw [core_cycle]

/-- The signal of a command changes a gate, and the slots that fill on it. -/
theorem of_signal {core n : Nat} {c : Cmd} {ends : Bool} : Beside s (s.signal core c n ends) := by
  unfold State.signal
  split
  · exact .refl
  · exact .of_modSpace fun _ _ => rfl

theorem stat_seesWrite (t : Task) (k pa n : Nat) (w : Writer) : (t.seesWrite k pa n w).stat = t.stat := by
  unfold Task.seesWrite
  split
  · dsimp only
    split <;> rfl
  · rfl

/-- A write that has landed wakes tasks, marks nodes and ends sections. -/
theorem of_landed {pa n : Nat} {w : Writer} : Beside s (s.landed pa n w) := by
  unfold State.landed
  extract_lets wake u
  have hwake : Beside s (s.tasks.foldl wake s) := by
    refine .of_woken (woken_foldl (fun v p => ?_) _)
    unfold wake
    split
    · exact woken_push
    · exact .refl
  have hmark (v : State) : Beside v (v.markNodes pa n w) := by
    unfold State.markNodes
    split
    · exact .refl
    · exact ⟨rfl, fun _ _ _ => rfl, fun _ => rfl, fun _ => rfl⟩
  refine (hwake.trans (hmark _)).trans (Beside.trans ?_ (.of_woken (woken_wakeSaved _)))
  refine ⟨rfl, fun _ _ _ => rfl, fun k => ?_, fun _ => rfl⟩
  have hmap : Tab.get Task.idle (u.tasks.map (fun p => (p.1, p.2.seesWrite p.1 pa n w))) k = (u.task k).seesWrite k pa n w :=
    get_map_of_key (g := fun p => (p.1, p.2.seesWrite p.1 pa n w)) (fun _ => rfl) (fun _ => rfl) u.tasks k
  exact (congrArg Task.stat hmap).trans (stat_seesWrite _ _ _ _ _)

theorem of_landedAt {core addr n : Nat} {w : Writer} : Beside s (s.landedAt core addr n w) := by
  unfold State.landedAt
  split
  · exact .of_landed
  · exact .refl

end Beside

/-! ### The end of a command -/

section

variable {s : State} {k : Nat}

/-- A slot whose task is neither being saved nor being killed has nothing to go on with. -/
theorem settleSlot_of_settled (hs : ∀ w, (s.task k).stat ≠ .saving w) (hk : ∀ w, (s.task k).stat ≠ .killing w) : s.settleSlot k = s := by
  have hsave : s.trySave k = s := by
    unfold State.trySave
    dsimp only
    split
    · next w hw => exact absurd hw (hs w)
    · rfl
  unfold State.settleSlot
  rw [hsave]
  unfold State.tryKill
  split
  · next w hw => exact absurd hw (hk w)
  · rfl

variable {core n : Nat} {c : Cmd}

/-- A copy that completes with nothing to push leaves its engine; beside that its gate is signalled. -/
theorem endCmd_copy (hs : ∀ w, (s.task (slotOf core c)).stat ≠ .saving w) (hk : ∀ w, (s.task (slotOf core c)).stat ≠ .killing w) :
    Beside (s.dropStarted core .copy c) (s.endCmd core .copy c 0 none n) := by
  have hmod : Beside (s.dropStarted core .copy c) (if c.killed then s.dropStarted core .copy c
      else (s.dropStarted core .copy c).modTask (core * 8 + c.slot) (fun t => t.raiseFlags 0)) := by
    split
    · exact .refl
    · exact .of_modTask fun _ => rfl
  have hsig := hmod.trans (.of_signal (core := core) (c := c) (n := n) (ends := true))
  have hstat : ∀ j, _ = (s.task j).stat := hsig.stat
  have heq : s.endCmd core .copy c 0 none n = State.settleSlot (State.signal _ core c n true) (core * 8 + c.slot) := rfl
  rw [heq, settleSlot_of_settled]
  · exact hsig
  · exact fun w => by rw [hstat]; exact hs w
  · exact fun w => by rw [hstat]; exact hk w

end

/-! ### Accesses of a core to its own scratchpad (R85) -/

section

variable {core a i n : Nat}

theorem spadTarget_own (h : a < 0x40000) : spadTarget core a = some (core, a) := if_pos h

/-- The first address past the scratchpad reaches nothing. -/
theorem spadTarget_end : spadTarget core 0x40000 = none := rfl

theorem spadByte_own (h : a + i < 0x40000) : spadByte core a i = some (core, a + i) := by
  unfold spadByte
  rw [spadTarget_own (by omega)]
  exact if_pos h

theorem firstBad_own (h : a + i + n ≤ 0x40000) : firstBad core a i n = none := by
  induction n generalizing i with
  | zero => rfl
  | succ n ih =>
    rw [firstBad, spadByte_own (by omega)]
    exact ih (by omega)

/-- An access within the own scratchpad touches lines of its core alone. -/
theorem linesAt_own (h : a + n ≤ 0x40000) : ∀ p ∈ linesAt core a n, p.1 = core := by
  intro p hp
  unfold linesAt at hp
  obtain ⟨j, hj, hp⟩ := List.mem_filterMap.1 (List.mem_dedup.1 hp)
  have hlt : j < n := by simpa using (List.mem_filter.1 hj).2
  rw [spadByte_own (by omega)] at hp
  cases hp
  rfl

end

section

variable {s : State} {ctx core a : Nat} {l : List (Byte × Nat)}

theorem spadGet_own {n : Nat} (h : a + n ≤ 0x40000) : s.spadGet ctx core a n =
    (List.range n).map (fun i => ((s.space ctx core).byte (a + i), (s.space ctx core).lineTag ((a + i) / 64))) := by
  refine List.map_congr_left fun i hi => ?_
  have hlt := List.mem_range.1 hi
  unfold State.spadByteAt State.spadTagAt
  rw [spadByte_own (by omega)]
  simp

/-- Bytes written within the own scratchpad are written line by line. -/
theorem spadPutT_own (h : a + l.length ≤ 0x40000) : s.spadPutT ctx core a l =
    (chunks a l).foldl (fun s x => s.spadWrite ctx core x.1 (x.2.map (·.1)) (tagOfBytes x.2)) s := by
  have hfit : l.zipIdx.filterMap (fun p => (spadByte core a p.2).map (fun x => (x, p.1))) = l.zipIdx.map (fun p => ((core, a + p.2), p.1)) := by
    rw [← List.filterMap_eq_map]
    refine List.filterMap_congr fun p hp => ?_
    have hlt : p.2 < l.length := by simpa using List.snd_lt_add_of_mem_zipIdx hp
    rw [spadByte_own (by omega)]
    rfl
  have hhere : (l.zipIdx.map (fun p => ((core, a + p.2), p.1))).filter (fun x => x.1.1 == core) =
      l.zipIdx.map (fun p => ((core, a + p.2), p.1)) := by
    refine List.filter_eq_self.2 fun x hx => ?_
    obtain ⟨p, -, rfl⟩ := List.mem_map.1 hx
    exact beq_self_eq_true core
  have hbytes : (l.zipIdx.map (fun p => ((core, a + p.2), p.1))).map (·.2) = l := by
    rw [List.map_map]
    exact List.zipIdx_map_fst 0 l
  unfold State.spadPutT
  dsimp only
  rw [hfit]
  cases l with
  | nil => rfl
  | cons p rest =>
    rw [List.zipIdx_cons, List.map_cons, List.head?_cons]
    dsimp only
    rw [List.zipIdx_cons, List.map_cons] at hhere hbytes
    rw [hhere, hbytes]
    simp

/-- Bytes written within the own scratchpad land there. -/
theorem lands_spadWriteT (h : a + l.length ≤ 0x40000) (unit : Nat) : Lands s (s.spadWriteT ctx core unit a l) ctx core a l := by
  unfold State.spadWriteT
  rw [firstBad_own (by omega)]
  dsimp only
  rw [spadPutT_own h]
  exact lands_lineChunks (by omega)

end

/-! ### The beat -/

section

variable {s : State} {core : Nat} {c : Cmd} {x : CopyArg} (hw : c.what = .cpy x) (hd : x.dsp = true) (hsp : x.ssp = true)
  (hp : c.progress = 0) (hn : c.val 2 ≤ 64)

include hw hp hn in
/-- A copy of at most 64 bytes has one beat, in either direction. -/
theorem beat_short : c.beat core = { src := some (x.ssp, c.ptr 1, c.val 2), dsp := x.dsp, dst := c.ptr 0, n := c.val 2 } := by
  have hmin : Nat.min 64 (c.val 2 - c.progress) = c.val 2 := by
    rw [hp]
    exact Nat.min_eq_right hn
  have hoff (b : Bool) : (if b then c.val 2 - c.progress - c.val 2 else c.progress) = 0 := by
    rw [hp, Nat.sub_zero, Nat.sub_self, ite_self]
  have hptr (i : Nat) : (c.ptr i + 0) % 2 ^ 57 = c.ptr i := Nat.mod_mod _ _
  unfold Cmd.beat
  simp only [hw, hmin, hoff, hptr]

/-- What a beat writes within the scratchpad: the bytes it has read there, with the tags of their lines. -/
def beatData (s : State) (core : Nat) (c : Cmd) : List (Byte × Nat) := s.spadGet c.ctx core (c.ptr 1) (c.val 2)

theorem length_beatData : (beatData s core c).length = c.val 2 := by
  unfold beatData State.spadGet
  rw [List.length_map, List.length_range]

/-- The state in which a beat within the scratchpad writes: its task notes no bulk write. -/
def beatNoted (s : State) (core : Nat) (c : Cmd) : State :=
  if c.killed then s else s.modTask (slotOf core c) (·.copies c.pc [])

/-- The state after a beat within the scratchpad has written. -/
def beatLanded (s : State) (core : Nat) (c : Cmd) : State :=
  ((beatNoted s core c).spadWriteT c.ctx core 3 (c.ptr 0) (beatData s core c)).landedAt core (c.ptr 0) (beatData s core c).length
    (.engine core)

theorem copyPieces_scratch {k : Acc} {a n : Nat} : s.copyPieces core c true k a n = (.ok [], s) := if_pos (.inl rfl)

/-- A beat that reads no main memory reads nothing that its command has overwritten there. -/
theorem unaliased_nil {off n : Nat} {dp : List (Nat × Nat)} {l : List (Byte × Nat)} : s.unaliased core c off n [] dp l = l := rfl

section

variable {a n : Nat} (h : a + n ≤ 0x40000)
include h

theorem portFilling_own {ps : List (Nat × Nat)} : s.portFilling core true a n ps = false := by
  refine List.any_eq_false.2 fun p hp => ?_
  simp [linesAt_own h p hp]

/-- A read within the own scratchpad is in range, and no other core sees it. -/
theorem copyRead_own {ps : List (Nat × Nat)} : s.copyRead core c true a n ps = (s.spadGet c.ctx core a n, s) := by
  have hnote : s.noteBad c.ctx core 3 false true [(a, n)] = s := by
    simp [State.noteBad, firstBad_own (show a + 0 + n ≤ 0x40000 by omega)]
  have hsee : s.seeReads core [(a, n)] = s := by
    obtain hlt | heq : a < 0x40000 ∨ a = 0x40000 := by omega
    · simp [State.seeReads, spadTarget_own hlt]
    · simp [State.seeReads, heq, spadTarget_end]
  refine (if_pos rfl).trans ?_
  rw [hnote, hsee]

end

include hw hd hsp hp hn in
/-- The one beat of a copy of at most 64 bytes within the scratchpad writes what it reads and ends the command. -/
theorem copyBeat_own (hdst : c.ptr 0 + c.val 2 ≤ 0x40000) (hsrc : c.ptr 1 + c.val 2 ≤ 0x40000) :
    s.copyBeat core c = (beatLanded s core c).endCmd core .copy c 0 none (c.val 2) := by
  have htotal : c.total ≤ c.progress + c.val 2 := by
    unfold Cmd.total
    rw [hw]
    exact Nat.le_add_left _ _
  have hbytes (b : Beat) (l : List (Byte × Nat)) : c.beatBytes b l = (l, 0) := by
    unfold Cmd.beatBytes
    rw [hw]
  unfold State.copyBeat
  rw [beat_short hw hp hn, hd, hsp]
  simp only [Option.getD_some, Option.isSome_some, if_true, copyPieces_scratch, portFilling_own hdst, portFilling_own hsrc,
    copyRead_own hsrc, unaliased_nil, hbytes, htotal]
  rfl

theorem beside_beatNoted : Beside s (beatNoted s core c) := by
  unfold beatNoted
  split
  · exact .refl
  · exact .of_modTask fun _ => rfl

theorem erbase_beatNoted : (beatNoted s core c).erbase = s.erbase := by
  unfold beatNoted
  split <;> rfl

/-- The bytes of a beat land at its destination. -/
theorem lands_beat (hdst : c.ptr 0 + c.val 2 ≤ 0x40000) : ∃ u, Lands (beatNoted s core c) u c.ctx core (c.ptr 0) (beatData s core c) ∧
    Beside u (beatLanded s core c) :=
  ⟨_, lands_spadWriteT (by rwa [length_beatData]) 3, .of_landedAt⟩

/-- Byte `i` of a beat's data, with the tag of its line. -/
theorem getElem_beatData (hsrc : c.ptr 1 + c.val 2 ≤ 0x40000) {i : Nat} (hi : i < (beatData s core c).length) : (beatData s core c)[i] =
    ((s.space c.ctx core).byte (c.ptr 1 + i), (s.space c.ctx core).lineTag ((c.ptr 1 + i) / 64)) := by
  simp only [beatData, spadGet_own hsrc, List.getElem_map, List.getElem_range]

/-- A property of every line's tag under the source is one of every tag of a beat's data. -/
theorem forall_beatData {P : Nat → Prop} (hsrc : c.ptr 1 + c.val 2 ≤ 0x40000)
    (h : ∀ i, i < c.val 2 → P ((s.space c.ctx core).lineTag ((c.ptr 1 + i) / 64))) : ∀ p ∈ beatData s core c, P p.2 := by
  intro p hp
  obtain ⟨i, hi, rfl⟩ := List.mem_iff_getElem.1 hp
  rw [getElem_beatData hsrc hi]
  exact h i (length_beatData.symm ▸ hi)

/-- A completed copy has left its engine. -/
theorem started_dropStarted (o : Cmd) (ho : o ∈ ((s.dropStarted core .copy c).core core).cq.started) : o.place ≠ c.place := by
  have hcq : ((s.dropStarted core .copy c).core core).cq.started = (s.core core).cq.started.filter (fun o => o.place != c.place) :=
    congrArg (fun y : Core => y.cq.started) (State.core_setCore_self core _)
  rw [hcq] at ho
  simpa using (List.mem_filter.1 ho).2

end

/-- A copy of at most 64 bytes within the scratchpad, alone started, lands its beat by `copyBeat`. -/
theorem copyBeatLand_eq {s : State} {core : Nat} {c : Cmd} {x : CopyArg} (hst : (s.core core).cq.started = [c]) (hw : c.what = .cpy x)
    (hl : s.cmdLive core c = true) : exec (.copyBeatLand core 0) s = event (s.copyBeat core c) := by
  show execCopyBeatLand core 0 s = _
  unfold execCopyBeatLand
  simp only [hst, hw, hl, List.getElem?_cons_zero, Bool.true_or, Bool.not_true, Bool.false_eq_true, if_false]

/-- Settles O44, clause by clause: acceptance, start, a copy of one beat, and a stream that reads to its end or stops. -/
theorem enginePathEvents : Obligations.EnginePathEvents := by
  refine ⟨?accept, ?start, ?copy, fun core s c x l s1 hs hw hr => mmvStreamFault_reads hs hw hr,
    fun core s s1 c x st hs hw hr => mmvStreamFault_stops hs hw hr⟩
  case accept =>
    intro core e s c rest hq hlt
    refine ⟨_, engineCommandAccept_eq hq hlt, ?_, ?_, ?_, rfl, rfl⟩ <;> rw [engine_cycle, core_modCore_self, engine_setEngine]
  case start =>
    intro core e s c h
    have hengine : (((s.modCore core (·.starts e c)).cycle.core core).engine e) = _ :=
      (engine_cycle core e).trans ((congrArg (·.engine e) (core_modCore_self core _)).trans ((s.core core).engine_starts e c))
    refine ⟨_, engineCommandStart_eq h, ?_, ?_, ?_, rfl, rfl⟩
    · rw [hengine]
    · rw [hengine]
      exact fun o ho => by simpa using (List.mem_filter.1 ho).2
    · rintro rfl
      rw [resident_cycle, core_modCore_self]
      rfl
  case copy =>
    intro core s c x hst hw hd hsp hp hl hn hdst hsrc hstat
    have hnoted := beside_beatNoted (s := s) (core := core) (c := c)
    obtain ⟨u, hlands, hbeside⟩ := lands_beat (s := s) (core := core) hdst
    have hsame : ((beatLanded s core c).task (slotOf core c)).stat = (s.task (slotOf core c)).stat := by
      rw [hbeside.stat, State.task, hlands.tasks]
      exact hnoted.stat _
    have hend : Beside ((beatLanded s core c).dropStarted core .copy c) ((beatLanded s core c).endCmd core .copy c 0 none (c.val 2)).cycle := by
      refine (endCmd_copy ?_ ?_).trans .of_cycle <;>
      · intro w
        rw [hsame]
        obtain h | h | ⟨-, h⟩ := hstat <;> simp [h]
    have hmem := hend.mem.trans hbeside.mem
    refine ⟨_, (copyBeatLand_eq hst hw hl).trans (congrArg event (copyBeat_own hw hd hsp hp hn hdst hsrc)), ?gone, ?count, ?outside, ?bytes⟩
    case gone =>
      rw [hend.started]
      exact started_dropStarted
    case count => exact fun hz => hmem.trans ((hlands.mem (forall_beatData (P := (· = 0)) hsrc hz)).trans hnoted.mem)
    case outside =>
      intro pa hpa
      have hout := hlands.outside pa (forall_beatData (P := fun tag => outsideRecord (beatNoted s core c) tag pa) hsrc (by
        unfold outsideRecord
        rw [erbase_beatNoted]
        exact hpa))
      exact (congrArg (Tab.get Memory.unlisted · pa) hmem).trans (hout.trans (congrArg (Tab.get Memory.unlisted · pa) hnoted.mem))
    case bytes =>
      intro i hi
      have hi' : i < (beatData s core c).length := by rwa [length_beatData]
      have hb := (hend.byte c.ctx core (c.ptr 0 + i)).trans (hbeside.byte c.ctx core (c.ptr 0 + i))
      rw [hb, hlands.byte i hi', getElem_beatData hsrc hi']

end Sys2Proof.Machine
end

section
/-! PROOFS (O57). Which instruction a step runs: the word that a fetch decodes, or the event whose turn it is. -/

namespace Sys2Proof.Machine

open Sys2Proof.Claims

/-! ### What is run -/

/-- An event runs as its instruction does. -/
theorem runEvent_eq_exec (e : Event) (s : State) : runEvent e s = exec (eventInstr e) s := by cases e <;> rfl

/-- A decoded word runs as its instruction does. -/
theorem runDecoded_eq_exec (d : Decoded) (s : State) : runDecoded d s = exec d.toInstr s := by cases d <;> rfl

theorem decodeWord_of_decode_ok {w : Nat} {i : Instr} (h : decode w = .ok i) : ∃ d, decodeWord w = .ok d ∧ d.toInstr = i := by
  unfold decode at h
  split at h
  · next d hd => exact ⟨d, hd, Except.ok.inj h⟩
  · cases h

theorem decodeWord_of_decode_error {w cause : Nat} (h : decode w = .error cause) : decodeWord w = .error cause := by
  unfold decode at h
  split at h
  · cases h
  · next e he => exact he.trans (congrArg _ (Except.error.inj h))

/-! ### A word's turn (R114, R146) -/

/-- What a fetch makes of a word that it has read: the instruction that the word decodes to, or the illegal-instruction fault (R146). -/
def State.fetched (s : State) (k w : Nat) : Fetched :=
  match decodeWord w with
  | .ok d => .word d { s with ir := w }
  | .error cause => .stop ((({ s with ir := w } : State).notePassed k false).takeTrap k fIllegal cause 0 [BitVec.ofNat 64 w])

section

variable {c k pa leaf w : Nat} {s s2 s3 s4 : State}

/-- A task that may run, at an address that translates into memory, fetches the word there. -/
theorem fetch_eq_fetched (h2 : s2 = ({ s with focus := c }).select c) (hk : s2.current = some k) (hw : (s2.task k).wait = .none)
    (hh : (s2.task k).super = true → (s2.hive (hiveOf c)).halted = false) (hr : s2.released c = true)
    (hb : (s2.task k).breaks (s2.ctx (s2.task k).ctx).debugRing.isSome = false)
    (ht : s2.translate c (s2.task k).ctx (s2.task k).pc (s2.task k).super .fetch = (.ok pa leaf, s3)) (hp : s2.paOk pa = true)
    (hf : s3.fetchWord c pa = (w, s4)) : fetch c s = s4.fetched k w := by
  have hgo : ¬ ((s2.task k).wait ≠ .none ∨ ((s2.task k).super ∧ (s2.hive (hiveOf c)).halted) ∨ !s2.released c) := by
    rintro (h | ⟨hs, h⟩ | h)
    · exact h hw
    · rw [hh hs] at h; cases h
    · rw [hr] at h; cases h
  unfold fetch
  rw [← h2]
  simp only [hk, hb, ht, hp, hf, if_neg hgo, Bool.false_eq_true, if_false, Bool.not_true]
  rfl

end

section

variable {c k w : Nat} {s s1 s4 : State} (ht : s.turn = (some (.word c), s1)) (hf : fetch c s1 = s4.fetched k w)
include ht hf

theorem step_of_decoded {i : Instr} (hd : decode w = .ok i) : step s = exec i ({ s4 with ir := w } : State) := by
  obtain ⟨d, hw, rfl⟩ := decodeWord_of_decode_ok hd
  rw [← runDecoded_eq_exec]
  simp only [step, ht, wordTurn, hf, State.fetched, hw]

theorem step_of_illegal {cause : Nat} (hd : decode w = .error cause) : step s =
    event ((({ s4 with ir := w } : State).notePassed k false).takeTrap k 1 cause 0 [BitVec.ofNat 64 w]) := by
  simp only [step, ht, wordTurn, hf, State.fetched, decodeWord_of_decode_error hd]
  rfl

end

/-! ### The word that a fetch supplies (R159) -/

section

variable {c pa : Nat} {s : State}

theorem fetchWord_of_none (h : heldLine (s.core c).icache pa = none) (hh : heldLine (s.hive (hiveOf c)).icache pa = none) :
    (s.fetchWord c pa).1 = Num.ofBytes (s.physRead pa 8) := by
  simp only [State.fetchWord, h, hh]

theorem fetchWord_of_held {x : CacheLine} (h : heldLine (s.core c).icache pa = some x ∨
      heldLine (s.core c).icache pa = none ∧ heldLine (s.hive (hiveOf c)).icache pa = some x) :
    (s.fetchWord c pa).1 = if Config.fetchesHeld s.tick then x.word pa else Num.ofBytes (s.physRead pa 8) := by
  obtain h | ⟨h, hh⟩ := h
  · simp only [State.fetchWord, h]
  · simp only [State.fetchWord, h, hh]

end

/-! ### An event's turn (R294, R420) -/

section

variable {n : Nat} {e : Event} {s s1 : State}

theorem step_of_event (ht : s.turn = (some (.event e), s1)) : step s = exec (eventInstr e) s1 := by
  rw [← runEvent_eq_exec]
  simp only [step, ht]

theorem step_of_pending (ht : s.turn = (some (.pending n), s1)) (he : s1.pending[s1.pendingPlace n]? = some e) :
    step s = exec (eventInstr e) ({ s1 with pending := s1.pending.eraseIdx (s1.pendingPlace n) } : State) := by
  rw [← runEvent_eq_exec]
  simp only [step, ht, State.takePending, he]

theorem pendingPlace_of_no_way (he : s.pending[n]? = some e) (hw : s.wayOf e = none) : s.pendingPlace n = n := by
  simp [State.pendingPlace, he, hw]

/-- The place that a search of the events on their way answers holds the first of its way. -/
theorem first_of_way {w : Nat × Nat} {j : Nat} (h : s.pending.findIdx? (fun e => s.wayOf e == some w) = some j) :
    ∃ x, s.pending[j]? = some x ∧ s.wayOf x = some w ∧
      ∀ (i : Nat) (y : Event), i < j → s.pending[i]? = some y → s.wayOf y ≠ some w := by
  obtain ⟨hj, hx, hfirst⟩ := List.findIdx?_eq_some_iff_getElem.1 h
  refine ⟨s.pending[j], List.getElem?_eq_getElem hj, by simpa using hx, fun i y hi hy => ?_⟩
  obtain ⟨hi', rfl⟩ := List.getElem?_eq_some_iff.1 hy
  simpa using hfirst i hi

/-- A turn for an event on a way takes the first that the event's core has sent itself, or with none the first of the way. -/
theorem pendingPlace_of_way {src dst : Nat} (he : s.pending[n]? = some e) (hw : s.wayOf e = some (src, dst)) :
    ∃ x : Event, s.pending[s.pendingPlace n]? = some x ∧ (s.wayOf x = some (src, dst) ∨ s.wayOf x = some (dst, dst)) ∧
      (s.wayOf x ≠ some (dst, dst) → ∀ y ∈ s.pending, s.wayOf y ≠ some (dst, dst)) ∧
      ∀ (j : Nat) (y : Event), j < s.pendingPlace n → s.pending[j]? = some y → s.wayOf y ≠ s.wayOf x := by
  have hway : s.pending[n]?.bind s.wayOf = some (src, dst) := by rw [he]; exact hw
  cases hself : s.pending.findIdx? (fun e => s.wayOf e == some (dst, dst)) with
  | some j =>
    have hplace : s.pendingPlace n = j := by simp only [State.pendingPlace, hway, hself]
    obtain ⟨x, hx, hxw, hfirst⟩ := first_of_way hself
    rw [hplace]
    exact ⟨x, hx, .inr hxw, fun h => absurd hxw h, fun i y hi hy => hxw ▸ hfirst i y hi hy⟩
  | none =>
    have hnone : ∀ y ∈ s.pending, s.wayOf y ≠ some (dst, dst) := by simpa using List.findIdx?_eq_none_iff.1 hself
    cases hfind : s.pending.findIdx? (fun e => s.wayOf e == some (src, dst)) with
    | none => exact absurd hw (by simpa using List.findIdx?_eq_none_iff.1 hfind e (List.mem_of_getElem? he))
    | some j =>
      have hplace : s.pendingPlace n = j := by simp only [State.pendingPlace, hway, hself, hfind, Option.getD_some]
      obtain ⟨x, hx, hxw, hfirst⟩ := first_of_way hfind
      rw [hplace]
      exact ⟨x, hx, .inl hxw, fun _ => hnone, fun i y hi hy => hxw ▸ hfirst i y hi hy⟩

theorem turn_of_sched {x : Turn} {l : List Turn} (h : s.sched = x :: l) : s.turn = (some x, { s with sched := l }) := by
  simp only [State.turn, h]

end

/-- Settles O57: a word's turn runs what its fetch decodes, an event's turn the event, and the order of messages is a search for the
first of a way. -/
theorem stepRunsTheDecodedWord : Obligations.StepRunsTheDecodedWord := by
  refine ⟨?word, fun c pa s h hh => fetchWord_of_none h hh, fun c pa x s h => fetchWord_of_held h, fun e s s1 ht => step_of_event ht,
    fun n e s s1 ht he => step_of_pending ht he, fun n e s he hw => pendingPlace_of_no_way he hw,
    fun n src dst e s he hw => pendingPlace_of_way he hw, fun m ctx group core hdr s => ⟨rfl, rfl⟩, fun x l s h => turn_of_sched h⟩
  intro c k pa leaf w s s1 s2 s3 s4 ht h2 hk hw hh hr hb htr hp hf
  have hfetch : fetch c s1 = s4.fetched k w := fetch_eq_fetched h2 hk hw hh hr hb htr hp hf
  exact ⟨fun i hd => step_of_decoded ht hfetch hd, fun cause hd => step_of_illegal ht hfetch hd⟩

end Sys2Proof.Machine
end

section
/-! PROOFS (O45). Words that arrive and tasks that wake: what a load's word is, where it goes, and what holds it back. -/

namespace Sys2Proof.Machine

open Sys2Proof.Claims

/-! ### The word of a load (R113, R178, R262) -/

/-- The low bits of a number as a signed number are those of its bit vector. -/
theorem toInt_eq_toInt_ofNat {w : Nat} (hw : 0 < w) (x : Nat) : Num.toInt w x = (BitVec.ofNat w x).toInt := by
  obtain ⟨n, rfl⟩ : ∃ n, w = n + 1 := ⟨w - 1, by omega⟩
  have hlt : x % 2 ^ (n + 1) < 2 ^ (n + 1) := Nat.mod_lt _ (by positivity)
  have hpow : 2 ^ (n + 1) = 2 * 2 ^ n := by rw [pow_succ, mul_comm]
  rw [BitVec.toInt_eq_toNat_cond, BitVec.toNat_ofNat, Num.toInt, Nat.add_sub_cancel]
  exact if_congr (by omega) rfl rfl

/-- A result of a type is written to 64 bits as the type says. -/
theorem extend_eq_widen (t : Ty) (x : Nat) : Num.extend t x = widen t x := by
  have hw : 0 < t.width := by cases t <;> decide
  unfold Num.extend widen
  split
  · rw [toInt_eq_toInt_ofNat hw]
    rfl
  · refine BitVec.eq_of_toNat_eq ?_
    simp [Num.low]

theorem loadValue_eq_loaded (t : Ty) (x : Nat) : loadValue t x = loaded t x := by
  unfold loadValue loaded
  rw [extend_eq_widen]

theorem tyBytes_eq_elemBytes (t : Ty) : tyBytes t = elemBytes t := by cases t <;> rfl

section

variable {s : State} {core slot id : Nat} {l : Load}

variable (hl : (s.task (core * 8 + slot)).loads.find? (fun x => x.id == id) = some l) (hk : l.kind = .plain)
include hl hk

theorem loadWordArrival_eq : exec (.loadWordArrival core slot id) s = event (s.arrive (core * 8 + slot) l) := by
  show execLoadWordArrival core slot id s = _
  unfold execLoadWordArrival
  simp only [hl, hk, if_true]

theorem loadWordArrival_reads (ho : (s.task (core * 8 + slot)).earlierOverlap l = false) (hp : s.portHeld l.parts = false) :
    exec (.loadWordArrival core slot id) s = event
      ((s.seeParts ((core * 8 + slot) / 8) l.parts).modTask (core * 8 + slot) (fun t =>
        (t.deliver id (.word { v := loaded l.t (Num.ofBytes (s.loadBytes l).1), tag := (s.loadBytes l).2 })).spun
          ((l.parts.head?.map (·.1)).getD 0 / 64) (s.loadBytes l).1)) := by
  have hid : l.id = id := by simpa using List.find?_some hl
  have hnow : s.arrive (core * 8 + slot) l = s.readNow (core * 8 + slot) l := by
    simp [State.arrive, State.readWaits, ho, hp]
  rw [loadWordArrival_eq hl hk, hnow, ← loadValue_eq_loaded, ← hid]
  rfl

theorem loadWordArrival_waits (h : (s.task (core * 8 + slot)).earlierOverlap l = true ∨ s.portHeld l.parts = true) :
    exec (.loadWordArrival core slot id) s =
      event (s.push (.loadWordArrival ((core * 8 + slot) / 8) ((core * 8 + slot) % 8) l.id)) := by
  rw [loadWordArrival_eq hl hk]
  exact congrArg event (if_pos (by simpa [State.readWaits] using h))

end

section

variable {t : Task} {id : Nat} {w : QWord}

@[simp] theorem Task.queue_setQueue_self (n : Nat) (q : List QWord) : (t.setQueue n q).queue n = q := Tab.get_set_self _ _ _ _

theorem Task.queue_setQueue_other {n m : Nat} (h : m ≠ n) (q : List QWord) : (t.setQueue n q).queue m = t.queue m :=
  Tab.get_set_other h _

theorem fillPlace_eq (l : List QWord) : fillPlace l id w = l.map (fun x => if x = .await id then w else x) := by
  refine List.map_congr_left fun x _ => ?_
  cases x <;> simp

variable {l : Load} (h : t.loads.find? (fun x => x.id == id) = some l)
include h

theorem Task.loads_deliver : (t.deliver id w).loads = t.loads.filter (fun x => x.id != id) := by
  simp only [Task.deliver, h]

theorem Task.queue_deliver (n : Nat) : (t.deliver id w).queue n = (t.setQueue l.fifo (fillPlace (t.queue l.fifo) id w)).queue n := by
  simp only [Task.deliver, h]
  rfl

end

/-! ### Parked tasks that wake (R265, R309) -/

section

variable {s : State} {k : Nat}

theorem wake_eq_woken {p : Park} (h : (s.task k).stat = .parked p) : s.wake k = woken s k := by
  simp only [State.wake, h]
  rfl

variable {core slot : Nat}

theorem spinWake_eq {line deadline : Nat} (h : (s.task (core * 8 + slot)).stat = .parked (.spin line deadline)) :
    exec (.spinWake core slot) s = event (woken s (core * 8 + slot)) := by
  rw [← wake_eq_woken h]
  show execSpinWake core slot s = _
  simp only [execSpinWake, h]

theorem spinTimeout_eq {line deadline : Nat} (h : (s.task (core * 8 + slot)).stat = .parked (.spin line deadline)) :
    exec (.spinTimeout core slot) s = event
      (woken (({ s with cyc := Nat.max s.cyc deadline } : State).modTask (core * 8 + slot) (·.respin line)) (core * 8 + slot)) := by
  have hstat : ((({ s with cyc := Nat.max s.cyc deadline } : State).modTask (core * 8 + slot) (·.respin line)).task
      (core * 8 + slot)).stat = .parked (.spin line deadline) := (congrArg Task.stat (Tab.get_set_self _ _ _ _)).trans h
  rw [← wake_eq_woken hstat]
  show execSpinTimeout core slot s = _
  simp only [execSpinTimeout, h]

theorem wtvWake_eq {pa : Nat} (h : (s.task (core * 8 + slot)).stat = .parked (.wtv pa)) :
    exec (.wtvWake core slot) s = event (woken s (core * 8 + slot)) := by
  rw [← wake_eq_woken h]
  show execWtvWake core slot s = _
  simp only [execWtvWake, h]

end

end Sys2Proof.Machine
end

section
/-! PROOFS (O45). The waggle (R289): what a window places, in which order, and when an operation takes effect. -/

namespace Sys2Proof.Machine

open Sys2Proof.Claims

/-! ### The sort by a number -/

section

variable {α : Type}

theorem Num.insertBy_perm (lt : α → α → Bool) (x : α) (l : List α) : (Num.insertBy lt x l).Perm (x :: l) := by
  induction l with
  | nil => exact .refl _
  | cons y l ih =>
    rw [Num.insertBy]
    split
    · exact (ih.cons y).trans (.swap x y l)
    · exact .refl _

theorem Num.sortBy_perm (lt : α → α → Bool) (l : List α) : (Num.sortBy lt l).Perm l := by
  induction l with
  | nil => exact .refl _
  | cons x l ih => exact (Num.insertBy_perm lt x _).trans (ih.cons x)

variable (f : α → Nat)

theorem Num.insertBy_sorted {l : List α} (x : α) (h : l.Pairwise (f · ≤ f ·)) :
    (Num.insertBy (fun a b => decide (f a < f b)) x l).Pairwise (f · ≤ f ·) := by
  induction l with
  | nil => exact List.pairwise_singleton _ _
  | cons y l ih =>
    obtain ⟨hy, hl⟩ := List.pairwise_cons.1 h
    rw [Num.insertBy]
    split
    · next hlt =>
      have hyx : f y ≤ f x := le_of_lt (of_decide_eq_true hlt)
      refine List.pairwise_cons.2 ⟨fun z hz => ?_, ih hl⟩
      obtain rfl | hz := List.mem_cons.1 ((Num.insertBy_perm _ x l).mem_iff.1 hz)
      · exact hyx
      · exact hy z hz
    · next hle =>
      have hxy : f x ≤ f y := by simpa using hle
      refine List.pairwise_cons.2 ⟨fun z hz => ?_, h⟩
      obtain rfl | hz := List.mem_cons.1 hz
      · exact hxy
      · exact hxy.trans (hy z hz)

theorem Num.sortBy_sorted (l : List α) : (Num.sortBy (fun a b => decide (f a < f b)) l).Pairwise (f · ≤ f ·) := by
  induction l with
  | nil => exact .nil
  | cons x l ih => exact Num.insertBy_sorted f x ih

/-- Things with distinct numbers are sorted strictly. -/
theorem Num.sortBy_strict {l : List α} (h : (l.map f).Nodup) :
    ((Num.sortBy (fun a b => decide (f a < f b)) l).map f).Pairwise (· < ·) := by
  have hnodup : ((Num.sortBy (fun a b => decide (f a < f b)) l).map f).Nodup := ((Num.sortBy_perm _ l).map f).nodup_iff.2 h
  have hsorted : ((Num.sortBy (fun a b => decide (f a < f b)) l).map f).Pairwise (· ≤ ·) :=
    List.pairwise_map.2 (Num.sortBy_sorted f l)
  exact (hsorted.and hnodup).imp fun h => lt_of_le_of_ne h.1 h.2

end

/-! ### What a window takes -/

section

variable {l : List Sc} {seen : List Nat}

/-- What is picked for a core is the core's first announcement. -/
theorem find_of_mem_firstByCore {x : Sc} (h : x ∈ firstByCore seen l) :
    x.core ∉ seen ∧ l.find? (fun z => z.core == x.core) = some x := by
  induction l generalizing seen with
  | nil => cases h
  | cons y l ih =>
    rw [firstByCore] at h
    split at h
    · next hy =>
      obtain ⟨hx, hf⟩ := ih h
      have hne : y.core ≠ x.core := fun he => hx (he ▸ by simpa using hy)
      exact ⟨hx, by rw [List.find?_cons_of_neg (by simpa using hne), hf]⟩
    · next hy =>
      obtain rfl | h := List.mem_cons.1 h
      · exact ⟨by simpa using hy, List.find?_cons_of_pos (by simp)⟩
      · obtain ⟨hx, hf⟩ := ih h
        obtain ⟨hne, hx⟩ : x.core ≠ y.core ∧ x.core ∉ seen := by simpa using hx
        exact ⟨hx, by rw [List.find?_cons_of_neg (by simpa using hne.symm), hf]⟩

theorem nodup_firstByCore (seen : List Nat) (l : List Sc) : ((firstByCore seen l).map (·.core)).Nodup := by
  induction l generalizing seen with
  | nil => exact .nil
  | cons y l ih =>
    rw [firstByCore]
    split
    · exact ih seen
    · refine List.nodup_cons.2 ⟨fun hm => ?_, ih _⟩
      obtain ⟨x, hx, he⟩ := List.mem_map.1 hm
      exact (find_of_mem_firstByCore hx).1 (he ▸ List.mem_cons_self)

/-- Every core that has announced is picked for. -/
theorem exists_firstByCore {x : Sc} (hx : x ∈ l) (hs : x.core ∉ seen) : ∃ y ∈ firstByCore seen l, y.core = x.core := by
  induction l generalizing seen with
  | nil => cases hx
  | cons y l ih =>
    rw [firstByCore]
    obtain rfl | hx := List.mem_cons.1 hx
    · rw [if_neg (by simpa using hs)]
      exact ⟨x, List.mem_cons_self, rfl⟩
    · split
      · exact ih hx hs
      · by_cases he : y.core = x.core
        · exact ⟨y, List.mem_cons_self, he⟩
        · obtain ⟨z, hz, hzx⟩ := ih hx (seen := y.core :: seen) (by simp [hs, Ne.symm he])
          exact ⟨z, List.mem_cons_of_mem y hz, hzx⟩

/-- One is picked for each core that has announced. -/
theorem length_firstByCore (l : List Sc) : (firstByCore [] l).length = (l.map (·.core)).dedup.length := by
  have hperm : ((firstByCore [] l).map (·.core)).Perm (l.map (·.core)).dedup := by
    refine (List.perm_ext_iff_of_nodup (nodup_firstByCore [] l) (List.nodup_dedup _)).2 fun n => ?_
    rw [List.mem_dedup]
    constructor
    · intro h
      obtain ⟨x, hx, rfl⟩ := List.mem_map.1 h
      exact List.mem_map.2 ⟨x, List.mem_of_find?_eq_some (find_of_mem_firstByCore hx).2, rfl⟩
    · intro h
      obtain ⟨x, hx, rfl⟩ := List.mem_map.1 h
      obtain ⟨y, hy, he⟩ := exists_firstByCore hx (seen := []) (by simp)
      exact List.mem_map.2 ⟨y, hy, he⟩
  simpa using hperm.length_eq

end

/-- What window `w` takes of the announcements: of each core its first, at most 32, in core order from the window's start. -/
def windowTakes (w : Nat) (l : List Sc) : List Sc :=
  (Num.sortBy (fun a b => decide ((a.core + 8192 - windowStart w) % 8192 < (b.core + 8192 - windowStart w) % 8192))
    (firstByCore [] l)).take 32

/-- What window `w` places: what it takes, by core number. -/
def windowPlaces (w : Nat) (l : List Sc) : List Sc :=
  (Num.sortBy (fun a b => decide (a.core < b.core)) (windowTakes w l)).map (fun x => { x with window := w })

section

variable {w : Nat} {l : List Sc}

theorem length_windowPlaces : (windowPlaces w l).length ≤ 32 := by
  rw [windowPlaces, List.length_map, (Num.sortBy_perm _ _).length_eq]
  exact List.length_take_le 32 _

/-- What is placed was taken, and stands for its window. -/
theorem mem_windowPlaces {x : Sc} : x ∈ windowPlaces w l ↔ ∃ y ∈ windowTakes w l, { y with window := w } = x := by
  rw [windowPlaces, List.mem_map]
  exact exists_congr fun y => and_congr_left' (Num.sortBy_perm _ _).mem_iff

theorem mem_firstByCore_of_taken {x : Sc} (h : x ∈ windowTakes w l) : x ∈ firstByCore [] l :=
  (Num.sortBy_perm _ _).mem_iff.1 (List.mem_of_mem_take h)

theorem find_of_placed {x : Sc} (h : x ∈ windowPlaces w l) :
    ∃ y, l.find? (fun z => z.core == x.core) = some y ∧ x = { y with window := w } := by
  obtain ⟨y, hy, rfl⟩ := mem_windowPlaces.1 h
  exact ⟨y, (find_of_mem_firstByCore (mem_firstByCore_of_taken hy)).2, rfl⟩

/-- The places follow the core numbers. -/
theorem sorted_windowPlaces : ((windowPlaces w l).map (·.core)).Pairwise (· < ·) := by
  have htaken : ((windowTakes w l).map (·.core)).Nodup := by
    rw [windowTakes, List.map_take]
    exact (((Num.sortBy_perm _ _).map (fun x : Sc => x.core)).nodup_iff.2 (nodup_firstByCore [] l)).sublist (List.take_sublist _ _)
  rw [windowPlaces, List.map_map]
  exact Num.sortBy_strict (fun x : Sc => x.core) htaken

/-- With at most 32 cores announcing, each has its place. -/
theorem exists_windowPlaces (h : (l.map (·.core)).dedup.length ≤ 32) {x : Sc} (hx : x ∈ l) : ∃ y ∈ windowPlaces w l, y.core = x.core := by
  obtain ⟨y, hy, he⟩ := exists_firstByCore hx (seen := []) (by simp)
  have htaken : y ∈ windowTakes w l := by
    rw [windowTakes, List.take_of_length_le (by rw [(Num.sortBy_perm _ _).length_eq, length_firstByCore]; exact h)]
    exact (Num.sortBy_perm _ _).mem_iff.2 hy
  exact ⟨{ y with window := w }, mem_windowPlaces.2 ⟨y, htaken, rfl⟩, he⟩

end

section

variable {s : State}

theorem waggleWindow_empty (h : s.announce = []) : exec .waggleWindow s = event s := congrArg event (if_pos h)

theorem waggleWindow_early (h : s.announce ≠ []) (hw : s.cyc / 8 < s.window) : exec .waggleWindow s = event (s.push .waggleWindow) :=
  congrArg event ((if_neg h).trans (if_pos hw))

/-- A window that may announce places what it takes; beside that it takes announcements out and names events. -/
theorem waggleWindow_places (h : s.announce ≠ []) (hw : s.window ≤ s.cyc / 8) : ∃ announce window pending saved,
    exec .waggleWindow s = event { s with
      placed := s.placed ++ windowPlaces (s.cyc / 8) s.announce, announce := announce, window := window, pending := pending, saved := saved } := by
  let u : State := { s with
    announce := (windowTakes (s.cyc / 8) s.announce).foldl (fun l x => l.erase x) s.announce
    placed := s.placed ++ windowPlaces (s.cyc / 8) s.announce
    window := s.cyc / 8 + 1 }
  let v := (windowPlaces (s.cyc / 8) s.announce).foldl (fun s _ => s.push .scEffect) u
  have heq : exec .waggleWindow s = event (if v.announce = [] then v else v.push .waggleWindow) :=
    congrArg event ((if_neg h).trans (if_neg (Nat.not_lt.2 hw)))
  have hwoken : Woken u (if v.announce = [] then v else v.push .waggleWindow) := by
    have hv : Woken u v := woken_foldl (fun _ _ => woken_push) _
    split
    · exact hv
    · exact hv.trans woken_push
  obtain ⟨pending, saved, hu⟩ := hwoken
  exact ⟨u.announce, u.window, pending, saved, by rw [heq, hu]⟩

end

/-! ### An operation's effect (R289, R406) -/

section

variable {s : State} {core slot w : Nat} {rest : List Sc}

theorem scEffect_waits {x : Sc} (h : s.placed = x :: rest) (hw : s.cyc < (x.window + 1) * 8 + 96 ∨ s.portHeld (s.scParts x) = true) :
    exec .scEffect s = event (s.push .scEffect) := by
  show execScEffect s = _
  unfold execScEffect
  rw [h]
  have hwaits : (decide (s.cyc < effectCycle x.window) || s.portHeld (s.scParts x)) = true := by
    rw [Bool.or_eq_true, decide_eq_true_iff]
    exact hw
  exact congrArg event (if_pos hwaits)

theorem scEffect_asksHost {x : Sc} {lines : List Nat} (h : s.placed = x :: rest) (hw : (x.window + 1) * 8 + 96 ≤ s.cyc)
    (hp : s.portHeld (s.scParts x) = false) (ho : (scWrites x.op).flatMap (fun p => s.hostOwes p.1 p.2) = lines) (hn : lines ≠ []) :
    exec .scEffect s = event ((s.askHost lines).push .scEffect) := by
  have hnow : (decide (s.cyc < effectCycle x.window) || s.portHeld (s.scParts x)) = false := by
    rw [hp, Bool.or_false]
    exact decide_eq_false (Nat.not_lt.2 hw)
  show execScEffect s = _
  unfold execScEffect
  simp only [h, hnow, ho, if_pos hn, Bool.false_eq_true, if_false]

/-- A store in its place is written and answered. -/
theorem scEffect_st {id pa tag : Nat} {bs : List Byte} (hw : (w + 1) * 8 + 96 ≤ s.cyc)
    (h : s.placed = { core := core, slot := slot, op := .st id pa bs tag, window := w } :: rest)
    (hp : s.portHeld [(pa, bs.length)] = false) (ho : s.hostOwes pa bs.length = []) : exec .scEffect s = event
      ((({ s with placed := rest } : State).writeSeen pa bs tag (.sc (core * 8 + slot))).deliver id (.word zeroT)) := by
  have hnow : ¬ s.cyc < effectCycle w := Nat.not_lt.2 hw
  show execScEffect s = _
  simp [execScEffect, h, hnow, State.scParts, scWrites, hp, ho]

/-- A load in its place reads memory and is answered. -/
theorem scEffect_ld {id k : Nat} {l : Load} (hw : (w + 1) * 8 + 96 ≤ s.cyc)
    (h : s.placed = { core := core, slot := slot, op := .ld id, window := w } :: rest) (hk : s.loadSlot id = some k)
    (hl : s.findLoad id = some l) (hp : s.portHeld l.parts = false) : exec .scEffect s = event
      ((({ s with placed := rest } : State).modTask k (fun t =>
        t.spun ((l.parts.head?.map (·.1)).getD 0 / 64) (s.loadBytes l).1)).deliver id
          (.word { v := loaded l.t (Num.ofBytes (s.loadBytes l).1), tag := (s.loadBytes l).2 })) := by
  have hnow : ¬ s.cyc < effectCycle w := Nat.not_lt.2 hw
  have hk' : ({ s with placed := rest } : State).loadSlot id = some k := hk
  have hl' : ({ s with placed := rest } : State).findLoad id = some l := hl
  show execScEffect s = _
  rw [← loadValue_eq_loaded]
  simp only [execScEffect, h, State.scParts, scWrites, hl, Option.map_some, Option.getD_some, hp, hnow, decide_false, Bool.or_false,
    Bool.false_eq_true, if_false, List.flatMap_nil, ne_eq, not_true_eq_false, hk', hl']
  rfl

/-- An atomic in its place writes its new value, answers the old one, and is judged. -/
theorem scEffect_amo {id : Nat} {u : Update} {f : AFn} (hw : (w + 1) * 8 + 96 ≤ s.cyc)
    (h : s.placed = { core := core, slot := slot, op := .amo id u, window := w } :: rest) (hu : u.kind = .amo f)
    (ho : s.hostOwes u.pa (elemBytes u.t) = []) : exec .scEffect s = event
      (((({ s with placed := rest } : State).writeSeen u.pa
        (Num.bytesOf (elemBytes u.t) (amoNew f u.t (s.num u.pa (elemBytes u.t)) u.operand.toNat u.compare.toNat)) u.tag
          (.sc (core * 8 + slot))).deliver id
        (.word { v := widen u.t (s.num u.pa (elemBytes u.t)), tag := s.tagAt u.pa (elemBytes u.t) })).judgeEntries
          { s with placed := rest } u.ctx core [(u.pa, elemBytes u.t)]) := by
  have hnow : ¬ s.cyc < effectCycle w := Nat.not_lt.2 hw
  have hport : s.portHeld [] = false := rfl
  show execScEffect s = _
  rw [← tyBytes_eq_elemBytes] at ho ⊢
  rw [← extend_eq_widen]
  simp only [execScEffect, h, State.scParts, scWrites, hport, hnow, decide_false, Bool.or_false, Bool.false_eq_true, if_false,
    List.flatMap_cons, List.flatMap_nil, List.append_nil, ho, ne_eq, not_true_eq_false, hu]
  rfl

end

end Sys2Proof.Machine
end

section
/-! PROOFS (O45). The memory port: index lists, elements that land, the counter of a command, and accesses. -/

namespace Sys2Proof.Machine

open Sys2Proof.Claims

/-- A stretch of what a function gives for the first numbers. -/
theorem take_drop_map_range {α : Type} (f : Nat → α) {n k m : Nat} (h : k + m ≤ n) :
    (((List.range n).map f).drop k).take m = (List.range m).map (fun j => f (k + j)) := by
  refine List.ext_getElem (by simp; omega) fun i h1 h2 => ?_
  simp

/-! ### The index list (R269, R270) -/

section

variable {s : State} {core : Nat} {g : GetPut}

/-- Reading local bytes records at most an access out of range. -/
theorem localRead_state (ctx core unit a n : Nat) : ∃ ccs, (s.localRead ctx core unit a n).2 = { s with coreCtxs := ccs } := by
  unfold State.localRead
  dsimp only
  split
  · exact ⟨_, rfl⟩
  · exact ⟨_, rfl⟩

theorem readIndexList_state : ∃ ccs, (s.readIndexList core g).2.2 = { s with coreCtxs := ccs } := by
  unfold State.readIndexList
  dsimp only
  split
  · obtain ⟨c1, h1⟩ := localRead_state (s := s) g.ctx core (if g.isPut then 5 else 4) g.list 8
    rw [h1]
    obtain ⟨c2, h2⟩ := localRead_state (s := { s with coreCtxs := c1 }) g.ctx core (if g.isPut then 5 else 4) (g.list + 8)
      (4 * Nat.min (Num.ofBytes (((s.localRead g.ctx core (if g.isPut then 5 else 4) g.list 8).1.map (·.1)).take 4)) 256)
    exact ⟨c2, h2⟩
  · exact localRead_state g.ctx core _ _ _

variable (hdr : g.ctl.getLsbD 43 = false)
include hdr

/-- Without a header, a list has as many entries as its control word says. -/
theorem readIndexList_eq : (s.readIndexList core g).1 = (List.range (g.ctl.toNat % 256 + 1)).map (fun i => Num.ofBytes
    (((((s.localRead g.ctx core (if g.isPut then 5 else 4) g.list (4 * (g.ctl.toNat % 256 + 1))).1).drop (4 * i)).take 4).map (·.1))) := by
  simp only [State.readIndexList, hdr, Bool.false_eq_true, if_false, Nat.add_zero]

theorem length_readIndexList : (s.readIndexList core g).1.length = g.ctl.toNat % 256 + 1 := by
  rw [readIndexList_eq hdr, List.length_map, List.length_range]

/-- Each entry is four bytes of the scratchpad. -/
theorem getD_readIndexList (hin : g.list + 4 * (g.ctl.toNat % 256 + 1) ≤ 0x40000) {i : Nat} (hi : i < g.ctl.toNat % 256 + 1) :
    (s.readIndexList core g).1.getD i 0 =
      Num.ofBytes ((List.range 4).map (fun j => (s.space g.ctx core).byte (g.list + 4 * i + j))) := by
  rw [readIndexList_eq hdr, List.getD_eq_getElem _ _ (by simpa using hi), List.getElem_map, List.getElem_range]
  unfold State.localRead
  dsimp only
  rw [take_drop_map_range _ (by omega), List.map_map]
  refine congrArg Num.ofBytes (List.map_congr_left fun j hj => ?_)
  have hlt : g.list + (4 * i + j) < spadBytes := by
    have := List.mem_range.1 hj
    unfold spadBytes
    omega
  simp [hlt, Nat.add_assoc]

end

/-! ### The command at the head of the port's queue (R270) -/

section

variable {s : State} {core : Nat}

/-- Offering elements names events alone. -/
theorem woken_gpKick : Woken s (s.gpKick core) := by
  unfold State.gpKick
  split
  · exact .refl
  · split
    · exact woken_push
    · exact woken_foldl (fun _ _ => woken_push) _

variable {i : Nat} {g : GetPut} {rest : List GetPut} (hg : (s.core core).gp = g :: rest) (hw : s.gpWaits core g = false)
include hg hw

theorem getPutElementLand_lists (hk : g.known = false) : exec (.getPutElementLand core i) s = event (s.gpList core g) := by
  show execGetPutElementLand core i s = _
  simp [execGetPutElementLand, hg, hw, hk]

theorem getPutElementLand_listHeld (hk : g.known = false) (hh : s.listHeld core g = true) :
    exec (.getPutElementLand core i) s = event (s.push (.getPutElementLand core 0)) := by
  rw [getPutElementLand_lists hg hw hk]
  exact congrArg event (if_pos (.inl hh))

omit hw in
/-- A list without poison is read: the command at the head knows it. -/
theorem gpList_reads (hh : s.listHeld core g = false) (ht : (s.readIndexList core g).2.1 = 0) :
    ((s.gpList core g).core core).gp = g.listed (s.readIndexList core g).1 :: rest ∧ (s.gpList core g).mem = s.mem := by
  obtain ⟨ccs, hccs⟩ := readIndexList_state (s := s) (core := core) (g := g)
  have hc : (({ s with coreCtxs := ccs } : State).core core).gp = g :: rest := hg
  let u : State := ({ s with coreCtxs := ccs } : State).modCore core
    (fun c => { c with gp := g.listed (s.readIndexList core g).1 :: c.gp.drop 1 })
  have hgp : (u.core core).gp = g.listed (s.readIndexList core g).1 :: rest := by
    rw [core_modCore_self, hc]
    rfl
  have heq : ∃ tasks, Woken { u with tasks := tasks } (s.gpList core g) := by
    unfold State.gpList
    unfold u
    rcases hlist : s.readIndexList core g with ⟨idx, tag, s'⟩
    obtain rfl : tag = 0 := by simpa [hlist] using ht
    obtain rfl : s' = { s with coreCtxs := ccs } := by simpa [hlist] using hccs
    dsimp only
    rw [if_neg (by simp [hh]), if_neg (by simp)]
    exact ⟨_, woken_gpKick⟩
  obtain ⟨tasks, pending, saved, h⟩ := heq
  rw [h]
  exact ⟨hgp, rfl⟩

variable (hk : g.known = true) (he : g.els ≠ []) (hge : g.first ≤ i) (hlt : i < g.first + g.els.length) (hn : i ∉ g.landed)
include hk he hge hlt hn

omit hw hg hk hge hlt hn in
/-- The elements of a command that has issued some are as they stand. -/
theorem gpIssue_issued : s.gpIssue core g = (g, s) := if_pos (.inl he)

omit hw hg hk he in
theorem element_fresh : (decide (g.first ≤ i) && decide (i < g.first + g.els.length) && !g.landed.contains i) = true := by
  simp [hge, hlt, hn]

theorem getPutElementLand_held (hh : s.elementHeld core g i = true) : exec (.getPutElementLand core i) s = event
    ((s.modCore core (fun c => { c with gp := g :: c.gp.drop 1 })).push (.getPutElementLand core i)) := by
  show execGetPutElementLand core i s = _
  unfold execGetPutElementLand
  simp only [hg, hw, hk, gpIssue_issued he, element_fresh hge hlt hn, hh, Bool.not_true, Bool.false_eq_true, if_false,
    Bool.true_and, if_true]

/-- An element that nothing holds back lands; after the last, the command is gone and its counter counted down. -/
theorem getPutElementLand_lands (hh : s.elementHeld core g i = false) : exec (.getPutElementLand core i) s = event
    ((if g.landed.length + 1 < g.els.length then landedElement s core g i
      else if g.halted then (landedElement s core g i).gpFault core { g with landed := i :: g.landed }
      else if g.idx.length ≤ g.first + g.els.length then
        ((((landedElement s core g i).modCore core (fun c => { c with gp := c.gp.drop 1 })).counterDown (core * 8 + g.slot) g.tid
          g.cc).gpKick core)
      else landedElement s core g i).judgeEntries s g.ctx core (wroteBy g i)) := by
  show execGetPutElementLand core i s = _
  unfold execGetPutElementLand
  simp only [hg, hw, Bool.false_eq_true, if_false]
  rw [if_neg (by simp [hk])]
  simp only [gpIssue_issued he, element_fresh hge hlt hn, hh, Bool.false_eq_true, if_false, Bool.true_and, Bool.and_false, if_true,
    List.length_cons]
  rfl

end

section

variable {s : State} {k tid cc : Nat}

theorem cc_counterDown (h : (s.task k).stat ≠ .free) (ht : (s.task k).tid = tid) :
    Tab.get 0 ((s.counterDown k tid cc).task k).cc cc = Tab.get 0 (s.task k).cc cc - 1 := by
  rw [State.counterDown, if_pos ⟨h, ht⟩]
  exact (congrArg (fun t : Task => Tab.get 0 t.cc cc) (Tab.get_set_self Task.idle s.tasks k _)).trans (Tab.get_set_self _ _ _ _)

end

/-! ### An access at the port (R86, R92, R292) -/

section

variable {s : State} {core target addr len : Nat}

/-- The bytes of an access that lie in the scratchpad. -/
def accessLength (w : Option (List Byte × Nat × Nat)) (len addr : Nat) : Nat := Nat.min (w.elim len (·.1.length)) (0x40000 - addr)

theorem memoryPortAccess_waits (w : Option (List Byte × Nat × Nat))
    (h : s.filling (s.installedCtx target) target addr (accessLength w len addr) = true ∨
      s.portBehind target addr (accessLength w len addr) (w.map (·.2.2)) = true) :
    exec (.memoryPortAccess core target addr w len) s = event (s.push (.memoryPortAccess core target addr w len)) := by
  refine congrArg event (if_pos ?_)
  cases w <;> exact Bool.or_eq_true_iff.2 h

variable (hne : core ≠ target)
include hne

theorem memoryPortAccess_reads (hin : addr + len ≤ 0x40000) (hf : s.filling (s.installedCtx target) target addr len = false)
    (hb : s.portBehind target addr len none = false) :
    exec (.memoryPortAccess core target addr none len) s = event (s.portSeen target addr len) := by
  have hmin : Nat.min len (spadBytes - addr) = len := Nat.min_eq_left (by unfold spadBytes; omega)
  show execMemoryPortAccess core target addr none len s = _
  unfold execMemoryPortAccess State.portAccess
  simp only [hmin, hf, Option.map_none, hb, Bool.or_self, Bool.false_eq_true, if_false, if_neg hne]

theorem memoryPortAccess_writes {bs : List Byte} {tag place : Nat} (hin : addr + bs.length ≤ 0x40000)
    (hf : s.filling (s.installedCtx target) target addr bs.length = false)
    (hb : s.portBehind target addr bs.length (some place) = false) :
    exec (.memoryPortAccess core target addr (some (bs, tag, place)) len) s = event
      (((s.portSeen target addr bs.length).spadWrite (s.installedCtx target) target addr bs tag).landed
        (0x10000000000 + target * 0x40000 + addr) bs.length (.commit (core * 8 + 7))) := by
  have hmin : Nat.min bs.length (spadBytes - addr) = bs.length := Nat.min_eq_left (by unfold spadBytes; omega)
  show execMemoryPortAccess core target addr (some (bs, tag, place)) len s = _
  unfold execMemoryPortAccess State.portAccess
  simp only [hmin, hf, Option.map_some, hb, Bool.or_self, Bool.false_eq_true, if_false, if_neg hne, List.take_length]
  rfl

end

/-- Settles O45, clause by clause. -/
theorem arrivalEvents : Obligations.ArrivalEvents := by
  refine ⟨fun core slot id s l hl hk ho hp => loadWordArrival_reads hl hk ho hp, fun core slot id s l hl hk h => loadWordArrival_waits hl hk h,
    ?deliver, fun core slot s line deadline h => ⟨spinWake_eq h, spinTimeout_eq h⟩, fun core slot s pa h => wtvWake_eq h, ?window,
    fun s core slot id pa w bs tag rest hw h hp ho => scEffect_st hw h hp ho,
    fun s core slot id k w l rest hw h hk hl hp => scEffect_ld hw h hk hl hp, fun s x rest h hw => scEffect_waits h hw, ?owed,
    fun s core slot id w u f rest hw h hu ho => scEffect_amo hw h hu ho, ?list,
    fun core s g hdr hin => ⟨length_readIndexList hdr, fun i hi => getD_readIndexList hdr hin hi⟩, ?element,
    fun s k tid cc h ht => cc_counterDown h ht,
    fun core target addr len tag place bs s hne hin hf hb => memoryPortAccess_writes hne hin hf hb,
    fun core target addr len s hne hin hf hb => memoryPortAccess_reads hne hin hf hb,
    fun core target addr len w s h => memoryPortAccess_waits w (by cases w <;> exact h)⟩
  case deliver =>
    intro t id w l h
    refine ⟨Task.loads_deliver h, ?_, fun n hn => ?_⟩
    · rw [Task.queue_deliver h, Task.queue_setQueue_self, fillPlace_eq]
    · rw [Task.queue_deliver h, Task.queue_setQueue_other hn]
  case window =>
    intro s
    by_cases ha : s.announce = []
    · exact ⟨_, [], waggleWindow_empty ha, (List.append_nil _).symm, Nat.zero_le _, nofun, .nil, fun _ => rfl, by simp [ha], rfl, rfl⟩
    · by_cases hw : s.cyc / 8 < s.window
      · exact ⟨_, [], waggleWindow_early ha hw, (List.append_nil _).symm, Nat.zero_le _, nofun, .nil, fun _ => rfl,
          fun h => absurd hw (Nat.not_lt.2 h), rfl, rfl⟩
      · obtain ⟨announce, window, pending, saved, h⟩ := waggleWindow_places ha (Nat.not_lt.1 hw)
        exact ⟨_, windowPlaces (s.cyc / 8) s.announce, h, rfl, length_windowPlaces, fun x hx => find_of_placed hx, sorted_windowPlaces,
          fun h => absurd h hw, fun _ hlen x hx => exists_windowPlaces hlen hx, rfl, rfl⟩
  case owed =>
    intro s core slot id pa w bs tag rest hw h hp ho
    exact scEffect_asksHost h hw hp (List.append_nil _) ho
  case list =>
    intro core i s g rest hg hw hk
    refine ⟨fun hh => getPutElementLand_listHeld hg hw hk hh, fun hh ht => ?_⟩
    obtain ⟨hgp, hmem⟩ := gpList_reads hg hh ht
    refine ⟨_, getPutElementLand_lists hg hw hk, ?_, hmem⟩
    rw [core_cycle, hgp]
  case element =>
    intro core i s g rest hg hw hk he hge hlt hn
    refine ⟨fun hh => getPutElementLand_held hg hw hk he hge hlt hn hh, fun hh hl => ?_, fun hh hl hf hall => ?_⟩
    · rw [getPutElementLand_lands hg hw hk he hge hlt hn hh, if_pos hl]
      rfl
    · rw [getPutElementLand_lands hg hw hk he hge hlt hn hh, if_neg (by omega), hf, if_neg Bool.false_ne_true, if_pos hall]
      rfl

end Sys2Proof.Machine
end

section
/-! PROOFS (O42). Numbers of the matrix engine: a rounded FP32 fits its element, and lists read by row and column. -/

namespace Sys2Proof.Machine

/-! ### A rounded FP32 (R127) -/

/-- A number rounded to a unit that leaves it at most `fb + 1` bits has at most the first number of `fb + 2` bits. -/
theorem Num.quantize_le {mode : RMode} {neg : Bool} {m fb : Nat} {e q : Int} (h : e + Nat.log2 m ≤ q + fb) :
    (Num.quantize mode neg m e q).1 ≤ 2 ^ (fb + 1) := by
  have hm : m < 2 ^ (Nat.log2 m + 1) := Nat.lt_log2_self
  unfold Num.quantize
  split
  · have hpow : m * 2 ^ (e - q).toNat ≤ 2 ^ (Nat.log2 m + 1) * 2 ^ (e - q).toNat := Nat.mul_le_mul_right _ hm.le
    rw [← pow_add] at hpow
    exact hpow.trans (Nat.pow_le_pow_right (by decide) (by omega))
  · have hlt : m < 2 ^ (fb + 1) * 2 ^ (q - e).toNat := by
      rw [← pow_add]
      exact hm.trans_le (Nat.pow_le_pow_right (by decide) (by omega))
    have hdiv : m / 2 ^ (q - e).toNat < 2 ^ (fb + 1) := Nat.div_lt_of_lt_mul (by rwa [mul_comm])
    dsimp only
    split <;> omega

theorem Num.f32_pack_lt {neg : Bool} {mant : Nat} {q : Int} (hm : mant < 2 ^ 24) (hq : q ≤ 104) : Num.f32.pack neg mant q < 2 ^ 32 := by
  have hsign : Num.f32.signBit neg ≤ 2 ^ 31 := by cases neg <;> decide
  have hexp : (q + 150).toNat ≤ 254 := by omega
  have hq : q + Num.f32.bias + Num.f32.fb = q + 150 := by
    rw [show Num.f32.bias = 127 from rfl, show ((Num.f32.fb : Nat) : Int) = 23 from rfl]
    omega
  unfold Num.Fmt.pack
  rw [hq, show Num.f32.fb = 23 from rfl]
  split <;> omega

theorem Num.f32_round_lt (v : Num.FV) : (Num.f32.round .rne false v).1 < 2 ^ 32 := by
  cases v with
  | nan => decide
  | inf neg => cases neg <;> decide
  | fin neg m e =>
    rw [Num.Fmt.round]
    split
    · cases neg <;> decide
    · extract_lets top emin q0
      have hfb : Num.f32.fb = 23 := rfl
      have hle : (Num.quantize .rne neg m e q0).1 ≤ 2 ^ 24 := by
        refine Num.quantize_le (fb := 23) ?_
        unfold q0
        rw [hfb]
        split <;> omega
      generalize Num.quantize .rne neg m e q0 = r at hle
      obtain ⟨mant0, inexact⟩ := r
      dsimp only at hle ⊢
      have hmant : (if mant0 = 2 ^ (Num.f32.fb + 1) then (2 ^ Num.f32.fb, q0 + 1) else (mant0, q0)).1 < 2 ^ 24 := by
        rw [hfb]
        split
        · exact (by decide : 2 ^ 23 < 2 ^ 24)
        · exact lt_of_le_of_ne hle ‹_›
      generalize (if mant0 = 2 ^ (Num.f32.fb + 1) then (2 ^ Num.f32.fb, q0 + 1) else (mant0, q0)) = p at hmant
      obtain ⟨mant, q⟩ := p
      dsimp only at hmant ⊢
      split
      · cases neg <;> decide
      · next hover =>
        have hq : q ≤ 104 := by
          have hmax : Num.f32.maxQ = 104 := rfl
          simp only [hmax, Bool.or_eq_true, decide_eq_true_eq, not_or, not_lt] at hover
          exact hover.1
        exact Num.f32_pack_lt hmant hq

/-! ### Numbers of bytes -/

theorem Num.ofBytes_lt (l : List Byte) : Num.ofBytes l < 256 ^ l.length := by
  induction l with
  | nil => exact Nat.one_pos
  | cons b l ih =>
    have hb := b.isLt
    rw [Num.ofBytes, List.length_cons, Nat.pow_succ']
    omega

/-! ### Lists by row and column -/

/-- Rows of the same length one after another: where row `a`'s element `b` stands. -/
theorem getElem_flatMap_rows {α : Type} (g : Nat → Nat → α) (n : Nat) {m a b : Nat} (ha : a < m) (hb : b < n) :
    ((List.range m).flatMap (fun i => (List.range n).map (g i)))[n * a + b]? = some (g a b) := by
  have hlen (m : Nat) : ((List.range m).flatMap (fun i => (List.range n).map (g i))).length = n * m := by simp [mul_comm]
  induction m with
  | zero => omega
  | succ m ih =>
    rw [List.range_succ, List.flatMap_append, List.flatMap_singleton]
    obtain hlt | rfl := Nat.lt_succ_iff_lt_or_eq.1 ha
    · rw [List.getElem?_append_left, ih hlt]
      rw [hlen]
      exact (Nat.add_lt_add_left hb _).trans_le (by rw [← Nat.mul_succ]; exact Nat.mul_le_mul_left n hlt)
    · rw [List.getElem?_append_right (by rw [hlen]; omega), hlen, Nat.add_sub_cancel_left]
      simp [hb]

theorem length_flatMap_rows {α : Type} (g : Nat → Nat → α) (m n : Nat) :
    ((List.range m).flatMap (fun i => (List.range n).map (g i))).length = m * n := by simp

/-! ### Elements of a vector (R119) -/

/-- The number that elements of width `w` form, the first lowest. -/
def joined (w : Nat) (l : List Nat) : Nat := l.foldr (fun x acc => x % 2 ^ w + acc * 2 ^ w) 0

theorem joined_lt (w : Nat) (l : List Nat) : joined w l < 2 ^ (w * l.length) := by
  induction l with
  | nil => exact Nat.one_pos
  | cons x l ih =>
    have hx : x % 2 ^ w < 2 ^ w := Nat.mod_lt _ (by positivity)
    have hstep : joined w (x :: l) = x % 2 ^ w + joined w l * 2 ^ w := rfl
    rw [hstep, List.length_cons, Nat.mul_succ, pow_add]
    calc x % 2 ^ w + joined w l * 2 ^ w < (joined w l + 1) * 2 ^ w := by rw [Nat.succ_mul, add_comm]; exact Nat.add_lt_add_left hx _
      _ ≤ 2 ^ (w * l.length) * 2 ^ w := Nat.mul_le_mul_right _ ih

theorem joined_lt_of_le {w n : Nat} {l : List Nat} (h : w * l.length ≤ n) : joined w l < 2 ^ n :=
  (joined_lt w l).trans_le (Nat.pow_le_pow_right (by decide) h)

theorem joined_elem (w : Nat) {l : List Nat} {j : Nat} (hj : j < l.length) : joined w l / 2 ^ (w * j) % 2 ^ w = l[j] % 2 ^ w := by
  induction l generalizing j with
  | nil => exact absurd hj (Nat.not_lt_zero j)
  | cons x l ih =>
    have hx : x % 2 ^ w < 2 ^ w := Nat.mod_lt _ (by positivity)
    have hstep : joined w (x :: l) = x % 2 ^ w + joined w l * 2 ^ w := rfl
    cases j with
    | zero => rw [hstep, Nat.mul_zero, pow_zero, Nat.div_one, Nat.add_mul_mod_self_right, Nat.mod_mod]; rfl
    | succ j =>
      have hdiv : joined w (x :: l) / 2 ^ w = joined w l := by
        rw [hstep, Nat.add_mul_div_right _ _ (by positivity), Nat.div_eq_of_lt hx, Nat.zero_add]
      rw [Nat.mul_succ, add_comm, pow_add, ← Nat.div_div_eq_div_mul, hdiv]
      exact ih (by simpa using hj)

theorem toNat_ofNat_of_lt {n x : Nat} (h : x < 2 ^ n) : (BitVec.ofNat n x).toNat = x := by
  rw [BitVec.toNat_ofNat, Nat.mod_eq_of_lt h]

/-- An element of a vector made of elements that fill it. -/
theorem elemOf_ofElems {w : Nat} {l : List Nat} (h : w * l.length ≤ 1024) {j : Nat} (hj : j < l.length) :
    Claims.elemOf w (ofElems w l) j = l[j] % 2 ^ w := by
  have hv : (ofElems w l).toNat = joined w l := toNat_ofNat_of_lt (joined_lt_of_le h)
  rw [Claims.elemOf, hv, joined_elem w hj]

end Sys2Proof.Machine
end

section
/-! PROOFS (O42). Tiles, what a matrix command reads of its core's own scratchpad, and the end of a started command. -/

namespace Sys2Proof.Machine

open Sys2Proof.Claims

/-! ### Tiles (R120, R218) -/

/-- The words of a list from number `n` on, each under its number. -/
theorem get_wordTab_from (l : List Nat) (n i : Nat) : Tab.get 0 ((l.zipIdx n).filterMap
    (fun p => if p.1 % 2 ^ 32 = 0 then none else some (p.2, BitVec.ofNat 32 p.1))) (n + i) = BitVec.ofNat 32 (l.getD i 0) := by
  induction l generalizing n i with
  | nil => rfl
  | cons x l ih =>
    have habove : Tab.Above n ((l.zipIdx (n + 1)).filterMap
        (fun p => if p.1 % 2 ^ 32 = 0 then none else some (p.2, BitVec.ofNat 32 p.1))) := by
      intro p hp
      obtain ⟨q, hq, he⟩ := List.mem_filterMap.1 hp
      have hle := List.le_snd_of_mem_zipIdx hq
      split at he
      · cases he
      · cases he
        exact hle
    rw [List.zipIdx_cons, List.filterMap_cons]
    cases i with
    | zero =>
      rw [List.getD_cons_zero]
      split
      · next he =>
        have hx : x % 2 ^ 32 = 0 := by simpa using he
        refine (Tab.get_of_above _ habove).trans ?_
        exact BitVec.eq_of_toNat_eq (by simpa using hx.symm)
      · next he =>
        split at he
        · cases he
        · cases he
          exact if_pos rfl
    | succ i =>
      have htail := ih (n + 1) i
      rw [show n + 1 + i = n + (i + 1) by omega] at htail
      rw [List.getD_cons_succ, ← htail]
      split
      · rfl
      · next he =>
        split at he
        · cases he
        · cases he
          exact if_neg (by omega)

/-- A word of a tile made from a list. -/
theorem get_wordTab (l : List Nat) (i : Nat) : (Tab.get 0 (wordTab l) i).toNat = l.getD i 0 % 2 ^ 32 := by
  have h := get_wordTab_from l 0 i
  rw [Nat.zero_add] at h
  rw [wordTab, h, BitVec.toNat_ofNat]

theorem TileVal.length_list (a : TileVal) : a.list.length = 1024 := (List.length_map _).trans List.length_range

theorem task_modTask_self {s : State} (k : Nat) (f : Task → Task) : (s.modTask k f).task k = f (s.task k) := Tab.get_set_self _ _ _ _

section

variable {s : State} {k : Nat} {t : Tile} {l : List Nat} {tag : Nat}

/-- The words of a full tile, element by element. -/
theorem getD_tileElems (ht : t.half = .full) {i : Nat} (hi : i < 1024) :
    (s.tileElems k t).getD i 0 = (Tab.get 0 (s.tile k t.n.val).words i).toNat := by
  unfold State.tileElems TileVal.list
  rw [ht, List.map_map, List.getD_eq_getElem _ _ (by simpa using hi), List.getElem_map, List.getElem_range]
  rfl

/-- Writing the elements of a tile writes that tile of its slot. -/
theorem a_putTile : ((s.putTile k t l tag).task k).a = Tab.set noTile (s.task k).a t.n.val
    { words := wordTab (((s.tile k t.n.val).list.zip l).map (fun p => withHalf t.half p.1 p.2)), tag := tag } := by
  unfold State.putTile
  rw [task_modTask_self]

/-- Writing a full tile replaces its words. -/
theorem tile_putTile_self (ht : t.half = .full) (hl : l.length = 1024) :
    (s.putTile k t l tag).tile k t.n.val = { words := wordTab l, tag := tag } := by
  have hsnd : (fun p : Nat × Nat => withHalf t.half p.1 p.2) = Prod.snd := by rw [ht]; rfl
  rw [State.tile, a_putTile, Tab.get_set_self, hsnd, List.map_snd_zip (by rw [TileVal.length_list, hl])]

theorem tile_putTile_other {n : Nat} (hn : n ≠ t.n.val) : (s.putTile k t l tag).tile k n = s.tile k n := by
  rw [State.tile, a_putTile, Tab.get_set_other hn, State.tile]

theorem tileWord_putTile (ht : t.half = .full) (hl : l.length = 1024) (i j : Nat) :
    tileWord (s.putTile k t l tag) k t.n.val i j = l.getD (32 * i + j) 0 % 2 ^ 32 := by
  rw [tileWord, tile_putTile_self ht hl, get_wordTab]

end

/-! ### Reads of the own scratchpad (R85, R226) -/

section

variable {s : State} {ctx core a n : Nat}

theorem spadByteAt_own {i : Nat} (h : a + i < 0x40000) : s.spadByteAt ctx core a i = (s.space ctx core).byte (a + i) := by
  unfold State.spadByteAt
  rw [spadByte_own h]
  simp

variable (h : a + n ≤ 0x40000)
include h

/-- An access within the own scratchpad leaves no record. -/
theorem noteBad_own (unit : Nat) (write single : Bool) : s.noteBad ctx core unit write single [(a, n)] = s := by
  cases single <;> simp [State.noteBad, firstBad_own (show a + 0 + n ≤ 0x40000 by omega)]

/-- No other core sees a read within the own scratchpad. -/
theorem seeReads_own : s.seeReads core [(a, n)] = s := by
  obtain hlt | heq : a < 0x40000 ∨ a = 0x40000 := by omega
  · simp [State.seeReads, spadTarget_own hlt]
  · simp [State.seeReads, heq, spadTarget_end]

theorem matRead_own : s.matRead core ctx a n =
    ((List.range n).map (s.spadByteAt ctx core a), tagOfBytes (s.spadGet ctx core a n), s) := by
  unfold State.matRead
  rw [noteBad_own h, seeReads_own h]
  dsimp only [State.spadGet]
  rw [List.map_map]
  rfl

end

/-! ### The end of a started command (R122, R194) -/

/-- A task whose result FIFO has received a command's result, if it has one. -/
def Task.pushed (t : Task) : Option (Nat × Tagged) → Task
  | some (i, w) => t.pushResult i w
  | none => t

/-- The state in which a live task's matrix command has ended. -/
def matrixEnded (u : State) (core : Nat) (c : Cmd) (flags : Nat) (push : Option (Nat × Tagged)) (bytes : Nat) : State :=
  ((u.dropStarted core .matrix c).modTask (slotOf core c) (fun t => (t.raiseFlags flags).pushed push)).signal core c bytes true

section

variable {u : State} {core flags n : Nat} {c : Cmd} {push : Option (Nat × Tagged)}

theorem tasks_signal {ends : Bool} : (u.signal core c n ends).tasks = u.tasks := by
  unfold State.signal
  split <;> rfl

theorem mem_signal {ends : Bool} : (u.signal core c n ends).mem = u.mem := by
  unfold State.signal
  split <;> rfl

theorem cores_signal {ends : Bool} : (u.signal core c n ends).cores = u.cores := by
  unfold State.signal
  split <;> rfl

theorem bytes_modSpace {ctx : Nat} {f : Space → Space} (hf : ∀ sp, (f sp).bytes = sp.bytes) (x m : Nat) :
    ((u.modSpace ctx core f).space x m).bytes = (u.space x m).bytes := by
  by_cases hk : State.key x m = State.key ctx core
  · have hs : (u.modSpace ctx core f).space x m = f (u.space ctx core) := by
      unfold State.space
      rw [hk]
      exact Tab.get_set_self _ _ _ _
    have hs' : u.space x m = u.space ctx core := by
      unfold State.space
      rw [hk]
    rw [hs, hs', hf]
  · exact congrArg Space.bytes (Tab.get_set_other hk _)

/-- A signal changes a gate and the slots that fill on it, no bytes. -/
theorem bytes_signal {ends : Bool} (x m : Nat) : ((u.signal core c n ends).space x m).bytes = (u.space x m).bytes := by
  unfold State.signal
  split
  · rfl
  · next g _ =>
    exact bytes_modSpace
      (f := fun sp => sp.setGate g.val ((gateOf sp g.val).down (if (gateOf sp g.val).cmd then (if ends then 1 else 0) else n)))
      (fun _ => rfl) x m

/-- The task after its command's end: flags merged, the result pushed. -/
theorem task_matrixEnded_self : (matrixEnded u core c flags push n).task (slotOf core c) =
    ((u.task (slotOf core c)).raiseFlags flags).pushed push := by
  unfold State.task matrixEnded
  rw [tasks_signal]
  exact Tab.get_set_self _ _ _ _

theorem task_matrixEnded_other {j : Nat} (hj : j ≠ slotOf core c) : (matrixEnded u core c flags push n).task j = u.task j := by
  unfold State.task matrixEnded
  rw [tasks_signal]
  exact Tab.get_set_other hj _

theorem mem_matrixEnded : (matrixEnded u core c flags push n).mem = u.mem := by
  unfold matrixEnded
  rw [mem_signal]
  rfl

theorem bytes_matrixEnded (x m : Nat) : ((matrixEnded u core c flags push n).space x m).bytes = (u.space x m).bytes := by
  unfold matrixEnded
  rw [bytes_signal]
  rfl

theorem byte_matrixEnded (x m off : Nat) : ((matrixEnded u core c flags push n).space x m).byte off = (u.space x m).byte off := by
  unfold matrixEnded
  rw [Beside.of_signal.byte]
  rfl

/-- The command has left its engine. -/
theorem gone_matrixEnded : ∀ o ∈ ((matrixEnded u core c flags push n).core core).mq.started, o.place ≠ c.place := by
  have hcore : (matrixEnded u core c flags push n).core core = (u.dropStarted core .matrix c).core core := by
    unfold State.core matrixEnded
    rw [cores_signal]
    rfl
  intro o ho
  rw [hcore, State.dropStarted, core_modCore_self] at ho
  simpa using (List.mem_filter.1 ho).2

variable (hrun : (u.task (slotOf core c)).stat = .running ∨ (u.task (slotOf core c)).stat = .ready) (hlive : c.killed = false)
include hrun hlive

/-- The command of a task that runs or is ready ends at once: no save and no kill waits for it. -/
theorem endCmd_eq_matrixEnded : u.endCmd core .matrix c flags push n = matrixEnded u core c flags push n := by
  have hpush : (fun t : Task => match push with
      | some (i, w) => if (t.raiseFlags flags).stat.dying then t.raiseFlags flags else (t.raiseFlags flags).pushResult i w
      | none => t.raiseFlags flags) (u.task (slotOf core c)) = ((u.task (slotOf core c)).raiseFlags flags).pushed push := by
    have hdying : ((u.task (slotOf core c)).raiseFlags flags).stat.dying = false := by
      show (u.task (slotOf core c)).stat.dying = false
      obtain h | h := hrun <;> rw [h] <;> rfl
    cases push with
    | none => rfl
    | some p =>
      dsimp only
      rw [hdying]
      rfl
  have hstat : ((matrixEnded u core c flags push n).task (slotOf core c)).stat = (u.task (slotOf core c)).stat := by
    rw [task_matrixEnded_self]
    cases push <;> rfl
  have hend : u.endCmd core .matrix c flags push n = (matrixEnded u core c flags push n).settleSlot (slotOf core c) := by
    unfold State.endCmd matrixEnded
    rw [hlive]
    exact congrArg (fun t => State.settleSlot (State.signal (State.setTask (u.dropStarted core .matrix c) (slotOf core c) t) core c n true)
      (slotOf core c)) hpush
  rw [hend, settleSlot_of_settled] <;>
  · intro w
    rw [hstat]
    obtain h | h := hrun <;> rw [h] <;> nofun

end

/-! ### A matrix command retires (R222) -/

/-- Between `s` and `u` a command has changed engine registers of slot `k` alone. -/
structure Computed (s u : State) (k : Nat) : Prop where
  mem : u.mem = s.mem
  spaces : u.spaces = s.spaces
  others : ∀ j, j ≠ k → u.task j = s.task j
  stat : (u.task k).stat = (s.task k).stat
  g : (u.task k).g = (s.task k).g
  pc : (u.task k).pc = (s.task k).pc

theorem Computed.refl (s : State) (k : Nat) : Computed s s k := ⟨rfl, rfl, fun _ _ => rfl, rfl, rfl, rfl⟩

theorem Computed.of_modTask {s : State} {k : Nat} {f : Task → Task} (hs : (f (s.task k)).stat = (s.task k).stat)
    (hg : (f (s.task k)).g = (s.task k).g) (hp : (f (s.task k)).pc = (s.task k).pc) : Computed s (s.modTask k f) k := by
  have hself : (s.modTask k f).task k = f (s.task k) := Tab.get_set_self _ _ _ _
  exact ⟨rfl, rfl, fun j hj => Tab.get_set_other hj _, by rw [hself, hs], by rw [hself, hg], by rw [hself, hp]⟩

theorem computed_putTile {s : State} {k tag : Nat} {t : Tile} {l : List Nat} : Computed s (s.putTile k t l tag) k := by
  unfold State.putTile
  exact .of_modTask rfl rfl rfl

section

variable {s : State} {core : Nat} {c : Cmd} {what : Decoded} (h : Multiplying s core c what)
include h

theorem matrixCommandRetire_eq : exec (.matrixCommandRetire core) s = event (s.runMatrix core c) := by
  obtain ⟨rest, hq⟩ := List.head?_eq_some_iff.1 h.started
  show execMatrixCommandRetire core s = _
  unfold execMatrixCommandRetire
  simp only [hq, h.free, Bool.false_eq_true, if_false]

/-- A command that has changed engine registers of its slot alone retires. -/
theorem matrixCommand_retires {u : State} {flags : Nat} {push : Option Tagged} (hrun : s.runMatrix core c = u.endMat core c flags push)
    (hu : Computed s u (slotOf core c)) :
    Next (exec (.matrixCommandRetire core) s) (matrixEnded u core c flags (push.map (fun w => (8, w))) 0).cycle ∧
      Retired s (matrixEnded u core c flags (push.map (fun w => (8, w))) 0).cycle core c := by
  have hruns : (u.task (slotOf core c)).stat = .running ∨ (u.task (slotOf core c)).stat = .ready := by
    rw [hu.stat]
    exact h.runs
  have hend : u.endMat core c flags push = matrixEnded u core c flags (push.map (fun w => (8, w))) 0 :=
    endCmd_eq_matrixEnded hruns h.alive
  have hself := task_matrixEnded_self (u := u) (core := core) (c := c) (flags := flags) (push := push.map (fun w => (8, w))) (n := 0)
  refine ⟨by rw [matrixCommandRetire_eq h, hrun, hend]; rfl, ?gone, ?mem, ?others, ?g, ?pc, ?bytes⟩
  case gone =>
    rw [core_cycle]
    exact gone_matrixEnded
  case mem => exact mem_matrixEnded.trans hu.mem
  case others => exact fun j hj => (task_matrixEnded_other hj).trans (hu.others j hj)
  case g =>
    refine (congrArg Task.g hself).trans (Eq.trans ?_ hu.g)
    cases push <;> rfl
  case pc =>
    refine (congrArg Task.pc hself).trans (Eq.trans ?_ hu.pc)
    cases push <;> rfl
  case bytes =>
    intro x m
    refine (bytes_matrixEnded x m).trans ?_
    unfold State.space
    rw [hu.spaces]

end

section

variable {u : State} {core flags n m : Nat} {c : Cmd} {push : Option (Nat × Tagged)}

theorem tile_matrixEnded : (matrixEnded u core c flags push n).cycle.tile (slotOf core c) m = u.tile (slotOf core c) m := by
  have hself := task_matrixEnded_self (u := u) (core := core) (c := c) (flags := flags) (push := push) (n := n)
  refine congrArg (fun a => Tab.get noTile a m) ((congrArg Task.a hself).trans ?_)
  cases push <;> rfl

theorem tileWord_matrixEnded (i j : Nat) :
    tileWord (matrixEnded u core c flags push n).cycle (slotOf core c) m i j = tileWord u (slotOf core c) m i j := by
  rw [tileWord, tile_matrixEnded, tileWord]

theorem vreg_matrixEnded : (matrixEnded u core c flags push n).cycle.vreg (slotOf core c) m = u.vreg (slotOf core c) m := by
  have hself := task_matrixEnded_self (u := u) (core := core) (c := c) (flags := flags) (push := push) (n := n)
  refine congrArg (fun v => Tab.get { v := 0, tag := 0 } v m) ((congrArg Task.v hself).trans ?_)
  cases push <;> rfl

end

end Sys2Proof.Machine
end

section
/-! PROOFS (O42). The matrix commands that write no scratchpad: `mmz`, a product of one chunk, `mld`, `mrd.row` and `mrd.el`. -/

namespace Sys2Proof.Machine

open Sys2Proof.Claims

/-! ### `mmz` and `mrd` (R227, R236) -/

section

variable {s : State} {core : Nat} {c : Cmd}

theorem runMatrix_mmz {d : Tile} {g : Gates} (h : c.what = .std (.mmz d g)) (hd : d.half = .full) :
    s.runMatrix core c = (s.putTile (slotOf core c) d (List.replicate 1024 0) 0).endMat core c 0 none := by
  unfold State.runMatrix
  rw [h]
  dsimp only [runMmz]
  rw [if_pos hd]
  rfl

/-- The elements that `mrd.row` reads. -/
def rowElems (s : State) (k : Nat) (x : MRd) : List Nat :=
  (List.range 32).map (fun j => (s.tileElems k x.a).getD (32 * x.i.val + j) 0)

/-- The state in which `mrd.row` has written its register. -/
def rowRead (s : State) (k : Nat) (x : MRd) : State :=
  s.modTask k (·.putRegs [(x.d.val, { v := ofElems 32 (rowElems s k x), tag := (s.tile k x.a.n.val).tag })] [])

theorem runMatrix_mrdRow {x : MRd} (h : c.what = .std (.mrdRow x)) (hx : x.a.half = .full) :
    s.runMatrix core c = (rowRead s (slotOf core c) x).endMat core c 0 none := by
  unfold State.runMatrix
  rw [h]
  dsimp only [runMrd]
  rw [if_pos hx]
  rfl

/-- A register written leaves all but the engine registers of its slot. -/
theorem computed_putReg {k n : Nat} {v : VVal} : Computed s (s.modTask k (·.putRegs [(n, v)] [])) k :=
  .of_modTask rfl rfl rfl

theorem vreg_putReg {k n : Nat} {v : VVal} : (s.modTask k (·.putRegs [(n, v)] [])).vreg k n = v := by
  rw [State.vreg, task_modTask_self]
  exact Tab.get_set_self _ _ _ _

theorem computed_rowRead {k : Nat} {x : MRd} : Computed s (rowRead s k x) k := computed_putReg

theorem vreg_rowRead {k : Nat} {x : MRd} : (rowRead s k x).vreg k x.d.val =
    { v := ofElems 32 (rowElems s k x), tag := (s.tile k x.a.n.val).tag } := vreg_putReg

/-- Each element that `mrd.row` reads is one of the tile's row. -/
theorem elemOf_rowElems {k : Nat} {x : MRd} (hx : x.a.half = .full) {j : Nat} (hj : j < 32) :
    elemOf 32 (ofElems 32 (rowElems s k x)) j = tileWord s k x.a.n.val x.i.val j := by
  have hlen : (rowElems s k x).length = 32 := by rw [rowElems, List.length_map, List.length_range]
  have hi := x.i.isLt
  rw [elemOf_ofElems (by rw [hlen]) (by omega)]
  simp only [rowElems, List.getElem_map, List.getElem_range]
  rw [getD_tileElems hx (by omega)]
  exact Nat.mod_eq_of_lt (BitVec.isLt _)

theorem runMatrix_mrdEl {x : MRdEl} (h : c.what = .std (.mrdEl x)) (hx : x.a.half = .full) : s.runMatrix core c =
    s.endMat core c 0 (some { v := BitVec.ofNat 64 (tileWord s (slotOf core c) x.a.n.val (c.val 0 % 1024 / 32) (c.val 0 % 32))
                              tag := (s.tile (slotOf core c) x.a.n.val).tag }) := by
  have hindex : 32 * (c.val 0 % 1024 / 32) + c.val 0 % 32 = c.val 0 % 1024 := by omega
  rw [tileWord, hindex, ← getD_tileElems hx (Nat.mod_lt _ (by decide))]
  unfold State.runMatrix
  rw [h]
  dsimp only [runMrdEl]
  rw [if_pos hx]
  rfl

end

/-! ### Products (R225, R228) -/

section

variable {t : Ty} (ht : t = .f16 ∨ t = .bf16)
include ht

/-- A line of a block of 16-bit elements: sixteen elements of two bytes. -/
theorem lineElems_16 (l : List Byte) : (lineElems t l).1 =
    (List.range 16).map (fun u => elemFp t (Num.ofBytes ((l.drop (u * 2)).take 2))) := by
  obtain rfl | rfl := ht <;> rfl

/-- A line of the packed block whose bytes a function gives. -/
theorem getD_blockLines (f : Nat → Byte) {i : Nat} (hi : i < 32) : (blockLines t ((List.range 1024).map f)).1.getD i [] =
    (List.range 16).map (fun u => elemFp t (Num.ofBytes ((List.range 2).map (fun j => f ((i * 16 + u) * 2 + j))))) := by
  have hbytes : lineBytes t = 32 := by obtain rfl | rfl := ht <;> rfl
  unfold blockLines
  dsimp only
  rw [hbytes, List.map_map, List.getD_eq_getElem _ _ (by simpa using hi), List.getElem_map, List.getElem_range]
  show (lineElems t _).1 = _
  rw [take_drop_map_range _ (by omega), lineElems_16 ht]
  refine List.map_congr_left fun u hu => ?_
  have hlt := List.mem_range.1 hu
  rw [take_drop_map_range _ (by omega)]
  refine congrArg (fun l => elemFp t (Num.ofBytes l)) (List.map_congr_left fun j _ => congrArg f ?_)
  omega

end

/-- Element (a, b) of a product: the chunks of its row and its column, from the accumulator's element on. -/
theorem getD_matProduct (f : Num.Fmt) (ch : List (List (List Num.FV) × List (List Num.FV))) {m : Nat} (acc : List Nat) {a b : Nat}
    (ha : a < m) (hb : b < 32) : (matProduct f ch m acc).1.getD (32 * a + b) 0 =
      (dotChunks f (ch.map (fun c => (c.1.getD a [], c.2.getD b []))) (acc.getD (32 * a + b) 0) 0).1 := by
  unfold matProduct
  dsimp only
  rw [List.getD_eq_getElem?_getD, List.getElem?_map, getElem_flatMap_rows _ 32 ha hb]
  rfl

theorem length_matProduct (f : Num.Fmt) (ch : List (List (List Num.FV) × List (List Num.FV))) (m : Nat) (acc : List Nat) :
    (matProduct f ch m acc).1.length = m * 32 := by
  unfold matProduct
  dsimp only
  rw [List.length_map, length_flatMap_rows]

section

variable {s : State} {core : Nat} {c : Cmd} {x : MMul} (ht : x.t = .f16 ∨ x.t = .bf16) (hbx : x.bx = false)
  (ha : c.ptr 0 + 1024 ≤ 0x40000) (hb : c.ptr 1 + 1024 ≤ 0x40000)
include ht hbx ha hb

/-- One chunk of 16-bit elements is read from two blocks of 1,024 bytes. -/
theorem readChunks_one : ∃ tag flags, s.readChunks core c x [0] =
    ([((blockLines x.t ((List.range 1024).map (s.spadByteAt c.ctx core (c.ptr 0)))).1,
       (blockLines x.t ((List.range 1024).map (s.spadByteAt c.ctx core (c.ptr 1)))).1)], tag, flags, s) := by
  have hbytes : lineBytes x.t = 32 := by obtain h | h := ht <;> rw [h] <;> rfl
  have hother : tbOf x = x.t := by simp [tbOf, hbx]
  have hfirst (base stride : Nat) : blockAt base stride 0 x.t = base := by simp [blockAt]
  unfold State.readChunks
  rw [hother, hfirst, hfirst, hbytes, matRead_own ha]
  dsimp only
  rw [matRead_own hb, show s.readChunks core c x [] = ([], 0, 0, s) from rfl]
  dsimp only
  exact ⟨_, _, rfl⟩

/-- What a product of one chunk leaves in its tile. -/
def productElems (s : State) (core : Nat) (c : Cmd) (x : MMul) : List Nat :=
  (matProduct Num.f32
    [((blockLines x.t ((List.range 1024).map (s.spadByteAt c.ctx core (c.ptr 0)))).1,
      (blockLines x.t ((List.range 1024).map (s.spadByteAt c.ctx core (c.ptr 1)))).1)] 32
    (if x.z then List.replicate 1024 0 else s.tileElems (slotOf core c) x.d)).1

omit ht hbx ha hb in
theorem length_productElems : (productElems s core c x).length = 1024 := by
  unfold productElems
  rw [length_matProduct]

theorem runMatrix_product {i : Instr} (hi : i = .mma x ∨ i = .msp x) (h : c.what = .std i) (hd : x.d.half = .full) (hk : x.k.val = 0) :
    ∃ tag flags, s.runMatrix core c = (s.putTile (slotOf core c) x.d (productElems s core c x) tag).endMat core c flags none := by
  have hrun : s.runMatrix core c = runProduct s core c x := by
    unfold State.runMatrix
    rw [h]
    obtain rfl | rfl := hi <;> rfl
  have hrange : List.range (x.k.val + 1) = [0] := by rw [hk]; rfl
  have hfmt : tileFmt x.d.half x.h = Num.f32 := by rw [hd]; rfl
  obtain ⟨tag, flags, hread⟩ := readChunks_one (s := s) (core := core) ht hbx ha hb
  rw [hrun]
  unfold runProduct
  rw [hrange, hread, hfmt]
  exact ⟨_, _, rfl⟩

omit hbx in
/-- Each element is the accumulator's with the dot product of its row and column added exactly, rounded once. -/
theorem getD_productElems (hd : x.d.half = .full) {i j : Nat} (hi : i < 32) (hj : j < 32) :
    (productElems s core c x).getD (32 * i + j) 0 = (Num.f32.round .rne false
      (chunkSum s c core x (if x.z then 0 else tileWord s (slotOf core c) x.d.n.val i j) i j).1).1 := by
  have hacc : (if x.z then List.replicate 1024 0 else s.tileElems (slotOf core c) x.d).getD (32 * i + j) 0 =
      if x.z then 0 else tileWord s (slotOf core c) x.d.n.val i j := by
    split
    · rw [List.getD_eq_getElem _ _ (by rw [List.length_replicate]; omega), List.getElem_replicate]
    · exact getD_tileElems hd (by omega)
  have hblock {a : Nat} (ha : a + 1024 ≤ 0x40000) {i : Nat} (hi : i < 32) :
      (blockLines x.t ((List.range 1024).map (s.spadByteAt c.ctx core a))).1.getD i [] =
        (List.range 16).map (blockElem s c core a x.t i) := by
    rw [getD_blockLines ht _ hi]
    refine List.map_congr_left fun u hu => congrArg (fun l => elemFp x.t (Num.ofBytes l)) (List.map_congr_left fun b hb => ?_)
    have hu := List.mem_range.1 hu
    have hb := List.mem_range.1 hb
    rw [spadByteAt_own (by omega), spadByteAt_own (by omega), Nat.add_assoc]
  unfold productElems
  rw [getD_matProduct _ _ _ hi hj, hacc]
  simp only [List.map_cons, List.map_nil, hblock ha hi, hblock hb hj, dotChunks, List.zip_map', List.foldl_map]
  rfl

end

/-! ### `mld` (R233) -/

section

variable {s : State} {core st : Nat} {c : Cmd} {x : MMem}

/-- The row stride of FP32 rows. -/
theorem rowStride_f32 (hx : x.t = .f32) (hst : st = if c.val 1 % 2 ^ 32 = 0 then 128 else c.val 1 % 2 ^ 32) : c.rowStride x.t = st := by
  unfold Cmd.rowStride
  rw [hx, hst]
  rfl

/-- The rows of an `mld` of FP32. -/
theorem readRanges_mld (h : c.what = .std (.mld x)) (hx : x.t = .f32)
    (hst : st = if c.val 1 % 2 ^ 32 = 0 then 128 else c.val 1 % 2 ^ 32) :
    c.readRanges = (List.range 32).map (fun i => (c.ptr 0 + i * st, 128)) := by
  unfold Cmd.readRanges
  rw [h]
  dsimp only
  rw [rowStride_f32 hx hst, hx]
  rfl

/-- The last row's end bounds every row. -/
theorem row_le {a i : Nat} (hin : a + 31 * st + 128 ≤ 0x40000) (hi : i < 32) : a + i * st + 128 ≤ 0x40000 := by
  have hle : i * st ≤ 31 * st := Nat.mul_le_mul_right st (by omega)
  omega

/-- What `mld` of FP32 leaves in its tile: the numbers of the rows. -/
def loadedElems (s : State) (core st : Nat) (c : Cmd) : List Nat :=
  (List.range 32).flatMap (fun i => (List.range 32).map (fun j => spadNum s c.ctx core (c.ptr 0 + i * st + 4 * j) 4))

theorem length_loadedElems : (loadedElems s core st c).length = 1024 := length_flatMap_rows _ 32 32

theorem getD_loadedElems {i j : Nat} (hi : i < 32) (hj : j < 32) :
    (loadedElems s core st c).getD (32 * i + j) 0 = spadNum s c.ctx core (c.ptr 0 + i * st + 4 * j) 4 := by
  unfold loadedElems
  rw [List.getD_eq_getElem?_getD, getElem_flatMap_rows (fun i j => spadNum s c.ctx core (c.ptr 0 + i * st + 4 * j) 4) 32 hi hj]
  rfl

/-- Element `j` of a row of FP32. -/
theorem spadGet_row {a j : Nat} (ha : a + 128 ≤ 0x40000) (hj : j < 32) :
    Num.ofBytes ((((s.spadGet c.ctx core a 128).drop (j * 4)).take 4).map (·.1)) = spadNum s c.ctx core (a + 4 * j) 4 := by
  unfold State.spadGet spadNum
  rw [take_drop_map_range _ (by omega), List.map_map]
  refine congrArg Num.ofBytes (List.map_congr_left fun b hb => ?_)
  have hb := List.mem_range.1 hb
  show s.spadByteAt c.ctx core a (j * 4 + b) = _
  rw [spadByteAt_own (by omega), spadByteAt_own (by omega)]
  exact congrArg _ (by omega)

theorem runMatrix_mld (h : c.what = .std (.mld x)) (hx : x.t = .f32)
    (hst : st = if c.val 1 % 2 ^ 32 = 0 then 128 else c.val 1 % 2 ^ 32) (hin : c.ptr 0 + 31 * st + 128 ≤ 0x40000) :
    ∃ tag, s.runMatrix core c = (s.putTile (slotOf core c) x.d (loadedElems s core st c) tag).endMat core c 0 none := by
  have hrun : s.runMatrix core c = runMld s core c x := by
    unfold State.runMatrix
    rw [h]
  have hsize : tyBytes x.t = 4 := by rw [hx]; rfl
  have hconv (b : Nat) : (if x.d.half = .full ∧ x.t ≠ .f32 then (Num.f32.round .rne false ((Num.fmtOf x.t).decode b)).1 else b) = b :=
    if_neg fun h => h.2 hx
  have hnote : c.readRanges.foldl
      (fun (s : State) r => (s.noteBad c.ctx core (matUnit core r.1) false true [r]).seeReads core [r]) s = s := by
    rw [readRanges_mld h hx hst]
    refine List.foldlRecOn (motive := (· = s)) _ _ rfl fun u hu r hr => ?_
    obtain ⟨i, hi, rfl⟩ := List.mem_map.1 hr
    have hrow := row_le hin (List.mem_range.1 hi)
    rw [noteBad_own hrow, seeReads_own hrow, hu]
  have helems : (c.readRanges.map (fun r => s.spadGet c.ctx core r.1 r.2)).flatMap (fun b =>
      (List.range 32).map (fun j => Num.ofBytes (((b.drop (j * 4)).take 4).map (·.1)))) = loadedElems s core st c := by
    rw [readRanges_mld h hx hst, List.map_map, List.flatMap_map]
    refine List.flatMap_congr fun i hi => List.map_congr_left fun j hj => ?_
    exact spadGet_row (row_le hin (List.mem_range.1 hi)) (List.mem_range.1 hj)
  rw [hrun]
  unfold runMld
  simp only [hsize, hconv, hnote, helems]
  exact ⟨_, rfl⟩

end

end Sys2Proof.Machine
end

section
/-! PROOFS (O42). `mst` of FP32 writes its tile's rows to its core's own scratchpad, and the result for every matrix command. -/

namespace Sys2Proof.Machine

open Sys2Proof.Claims

/-! ### Poison that is not counted (R386) -/

/-- A write with this tag counts in no error record. -/
def Uncounted (s : State) (tag : Nat) : Prop := tag = 0 ∨ tag = 0xFFF ∨ s.erbase.getLsbD 16 = false

section

variable {s : State} {ctx core a tag : Nat} {l : List (Byte × Nat)}

theorem countPoison_uncounted {n : Nat} (h : Uncounted s tag) : s.countPoison tag n = s := by
  unfold State.countPoison
  exact if_pos (by simpa [Uncounted] using h)

/-- A line's part of a list holds members of the list alone. -/
theorem mem_of_mem_lineChunks {α : Type} {fuel a : Nat} {l : List α} {q : Nat × List α} (hq : q ∈ lineChunks fuel a l) :
    ∀ p ∈ q.2, p ∈ l := by
  induction fuel generalizing a l with
  | zero => cases hq
  | succ fuel ih =>
    cases l with
    | nil => cases hq
    | cons p rest =>
      obtain rfl | hq := List.mem_cons.1 hq
      · exact fun _ => List.mem_of_mem_take
      · exact fun p hp => List.mem_of_mem_drop (ih hq p hp)

/-- Bytes of one tag that counts in no record leave main memory. -/
theorem mem_spadWrites (h : Uncounted s tag) (hl : ∀ p ∈ l, p.2 = tag) :
    ((chunks a l).foldl (fun s x => s.spadWrite ctx core x.1 (x.2.map (·.1)) (tagOfBytes x.2)) s).mem = s.mem := by
  refine (List.foldlRecOn (motive := fun t : State => t.mem = s.mem ∧ t.erbase = s.erbase) _ _ ⟨rfl, rfl⟩ fun t ⟨hm, he⟩ q hq => ?_).1
  have hun : Uncounted t (tagOfBytes q.2) := by
    obtain h0 | ⟨p, hp, htag⟩ := tagOfBytes_cases q.2
    · exact .inl h0
    · rw [htag, hl p (mem_of_mem_lineChunks hq p hp), Uncounted, he]
      exact h
  obtain ⟨cores, pending, saved, heq⟩ := spadWrite_eq (s := t) (ctx := ctx) (core := core) (off := q.1) (bs := q.2.map (·.1))
    (tag := tagOfBytes q.2)
  rw [heq, countPoison_uncounted hun]
  exact ⟨hm, he⟩

end

/-! ### An engine's store to its own scratchpad -/

/-- `u` is `s` but for the tasks; that of slot `k` keeps its tiles, and stands as it stood. -/
def Logged (s u : State) (k : Nat) : Prop :=
  ∃ tasks, u = { s with tasks := tasks } ∧ (u.task k).a = (s.task k).a ∧ (u.task k).stat = (s.task k).stat

section

variable {s t u : State} {k : Nat}

theorem Logged.refl : Logged s s k := ⟨_, rfl, rfl, rfl⟩

theorem Logged.trans (h : Logged s t k) (h' : Logged t u k) : Logged s u k := by
  obtain ⟨_, rfl, ha, hs⟩ := h
  obtain ⟨tasks, rfl, ha', hs'⟩ := h'
  exact ⟨tasks, rfl, ha'.trans ha, hs'.trans hs⟩

theorem Logged.of_setTask {t : Task} (ha : t.a = (s.task k).a) (hs : t.stat = (s.task k).stat) : Logged s (s.setTask k t) k := by
  have hself : (s.setTask k t).task k = t := Tab.get_set_self _ _ _ _
  exact ⟨_, rfl, by rw [hself, ha], by rw [hself, hs]⟩

/-- Logging a line for undo writes the slot's undo log. -/
theorem logged_logLine {line : Nat} : Logged s (s.logLine k line) k := by
  unfold State.logLine
  dsimp only
  split
  · exact .refl
  · split
    · exact .of_setTask rfl rfl
    · exact .of_setTask rfl rfl

theorem logged_foldl (lines : List Nat) : Logged s (lines.foldl (fun s x => s.logLine k x) s) k :=
  foldl_keeps (fun u => Logged s u k) _ (fun _ _ h => h.trans logged_logLine) lines s .refl

/-- A store within the own scratchpad logs its lines, then writes its bytes line by line. -/
theorem engineStore_own {core a : Nat} {c : Cmd} {l : List (Byte × Nat)} (h : a + l.length ≤ 0x40000) :
    ∃ u, Logged s u (slotOf core c) ∧ s.engineStore core c a l =
      (chunks a l).foldl (fun s x => s.spadWrite c.ctx core x.1 (x.2.map (·.1)) (tagOfBytes x.2)) u := by
  have hothers : (linesAt core a l.length).any (fun x => x.1 != core) = false := by
    refine List.any_eq_false.2 fun p hp => ?_
    simp [linesAt_own h p hp]
  unfold State.engineStore
  dsimp only
  rw [hothers, if_neg Bool.false_ne_true, spadPutT_own h]
  exact ⟨_, logged_foldl _, rfl⟩

end

/-! ### `mst` (R234) -/

/-- Row `i` of a tile as the bytes that `mst` of FP32 writes, with the tile's tag. -/
def storedRow (s : State) (k n i : Nat) : List (Byte × Nat) :=
  (List.range 32).flatMap (fun j => (List.range 4).map (fun b =>
    ((Num.bytesOf 4 (tileWord s k n i j)).getD b 0, (s.tile k n).tag)))

/-- `mst` has written row `i` of its tile, which stands in `s`. -/
def storeRow (s : State) (core st n : Nat) (c : Cmd) (t : State) (i : Nat) : State :=
  (t.noteBad c.ctx core (matUnit core (c.ptr 0 + i * st)) true true [(c.ptr 0 + i * st, 128)]).engineStore core c (c.ptr 0 + i * st)
    (storedRow s (slotOf core c) n i)

section

variable {s : State} {k n : Nat}

theorem length_storedRow (i : Nat) : (storedRow s k n i).length = 128 := length_flatMap_rows _ 32 4

theorem getElem_storedRow (i : Nat) {j b : Nat} (hj : j < 32) (hb : b < 4) : (storedRow s k n i)[4 * j + b]? =
    some ((Num.bytesOf 4 (tileWord s k n i j)).getD b 0, (s.tile k n).tag) :=
  getElem_flatMap_rows (fun j b => ((Num.bytesOf 4 (tileWord s k n i j)).getD b 0, (s.tile k n).tag)) 4 hj hb

theorem tag_storedRow {i : Nat} : ∀ p ∈ storedRow s k n i, p.2 = (s.tile k n).tag := by
  intro p hp
  obtain ⟨j, -, hp⟩ := List.mem_flatMap.1 hp
  obtain ⟨b, -, rfl⟩ := List.mem_map.1 hp
  rfl

/-- The elements of a full tile, in order. -/
theorem tileElems_full {d : Tile} (hd : d.half = .full) :
    s.tileElems k d = (List.range 1024).map (fun i => (Tab.get 0 (s.tile k d.n.val).words i).toNat) := by
  refine List.ext_getElem (by simp [State.tileElems, TileVal.length_list]) fun i hi hi' => ?_
  have hlt : i < 1024 := by simpa using hi'
  rw [List.getElem_map, List.getElem_range, ← getD_tileElems hd hlt, List.getD_eq_getElem]

/-- What `mst` of FP32 takes from the elements for row `i`. -/
theorem rowBytes_eq {d : Tile} (hd : d.half = .full) {i : Nat} (hi : i < 32) :
    ((((s.tileElems k d).map (fun b => (b, 0))).drop (32 * i)).take 32).flatMap
      (fun v : Nat × Nat => (Num.bytesOf 4 v.1).map (fun b => (b, (s.tile k d.n.val).tag))) = storedRow s k d.n.val i := by
  rw [tileElems_full hd, List.map_map, take_drop_map_range _ (by omega), List.flatMap_map]
  rfl

/-- After `m` rows of `mst`: they stand in the scratchpad, in lines in use; besides, poisoned lines have counted, and lines are logged. -/
structure RowsStored (s t : State) (core st n : Nat) (c : Cmd) (m : Nat) : Prop where
  byte : ∀ i, i < m → ∀ q (h : q < (storedRow s (slotOf core c) n i).length),
    (t.space c.ctx core).byte (c.ptr 0 + i * st + q) = (storedRow s (slotOf core c) n i)[q].1
  live : ∀ i, i < m → ∀ q, q < 128 → Live (t.space c.ctx core) (c.ptr 0 + i * st + q)
  mem : Uncounted s (s.tile (slotOf core c) n).tag → t.mem = s.mem
  outside : ∀ pa, outsideRecord s (s.tile (slotOf core c) n).tag pa → t.byte pa = s.byte pa
  erbase : t.erbase = s.erbase
  a : (t.task (slotOf core c)).a = (s.task (slotOf core c)).a
  stat : (t.task (slotOf core c)).stat = (s.task (slotOf core c)).stat

end

section

variable {s t : State} {core st n m : Nat} {c : Cmd}

theorem RowsStored.zero : RowsStored s s core st n c 0 :=
  ⟨fun _ h => absurd h (Nat.not_lt_zero _), fun _ h => absurd h (Nat.not_lt_zero _), fun _ => rfl, fun _ _ => rfl, rfl, rfl, rfl⟩

/-- The next row leaves those before it: rows are at least 128 bytes apart. -/
theorem RowsStored.succ (h : RowsStored s t core st n c m) (hst : 128 ≤ st) (hin : c.ptr 0 + m * st + 128 ≤ 0x40000) :
    RowsStored s (storeRow s core st n c t m) core st n c (m + 1) := by
  have hlen := length_storedRow (s := s) (k := slotOf core c) (n := n)
  have hfits : c.ptr 0 + m * st + (storedRow s (slotOf core c) n m).length ≤ 0x40000 := by rwa [hlen]
  obtain ⟨u, ⟨tasks, hu, ha, hstat⟩, heq⟩ := engineStore_own (s := t) (core := core) (c := c) hfits
  have hstore : storeRow s core st n c t m = (chunks (c.ptr 0 + m * st) (storedRow s (slotOf core c) n m)).foldl
      (fun s x => s.spadWrite c.ctx core x.1 (x.2.map (·.1)) (tagOfBytes x.2)) u := by
    unfold storeRow
    rw [noteBad_own hin, heq]
  have hlands : Lands u (storeRow s core st n c t m) c.ctx core (c.ptr 0 + m * st) (storedRow s (slotOf core c) n m) := by
    rw [hstore]
    exact lands_lineChunks (by omega)
  have hspace : u.space c.ctx core = t.space c.ctx core := by rw [hu]; rfl
  have humem : u.mem = t.mem := by rw [hu]
  have huerbase : u.erbase = s.erbase := by rw [hu]; exact h.erbase
  have htask : (storeRow s core st n c t m).task (slotOf core c) = u.task (slotOf core c) := by
    unfold State.task
    rw [hlands.tasks]
  have hbelow {i q : Nat} (hi : i < m) (hq : q < 128) :
      Live ((storeRow s core st n c t m).space c.ctx core) (c.ptr 0 + i * st + q) ∧
        ((storeRow s core st n c t m).space c.ctx core).byte (c.ptr 0 + i * st + q) = (t.space c.ctx core).byte (c.ptr 0 + i * st + q) := by
    have hrow : (i + 1) * st ≤ m * st := Nat.mul_le_mul_right st hi
    rw [Nat.succ_mul] at hrow
    have hb := hlands.below (c.ptr 0 + i * st + q) (by omega) (by rw [hspace]; exact h.live i hi q hq)
    rwa [hspace] at hb
  constructor
  case byte =>
    intro i hi q hq
    obtain hlt | rfl := Nat.lt_succ_iff_lt_or_eq.1 hi
    · rw [(hbelow hlt (by rwa [hlen] at hq)).2, h.byte i hlt q hq]
    · exact hlands.byte q hq
  case live =>
    intro i hi q hq
    obtain hlt | rfl := Nat.lt_succ_iff_lt_or_eq.1 hi
    · exact (hbelow hlt hq).1
    · exact hlands.live q (by rwa [hlen])
  case mem =>
    intro hun
    have hun' : Uncounted u (s.tile (slotOf core c) n).tag := by rwa [Uncounted, huerbase]
    rw [hstore, mem_spadWrites hun' tag_storedRow, humem, h.mem hun]
  case outside =>
    intro pa hpa
    have hout := hlands.outside pa fun p hp => by
      unfold outsideRecord
      rw [tag_storedRow p hp, huerbase]
      exact hpa
    have hbyte : u.byte pa = t.byte pa := congrArg (fun m => Tab.get Memory.unlisted m pa) humem
    rw [hout, hbyte, h.outside pa hpa]
  case erbase => rw [hlands.erbase, huerbase]
  case a => rw [htask, ha, h.a]
  case stat => rw [htask, hstat, h.stat]

/-- All rows of an `mst`, one after another. -/
theorem rowsStored_foldl (hst : 128 ≤ st) (hin : c.ptr 0 + 31 * st + 128 ≤ 0x40000) :
    ∀ m, m ≤ 32 → RowsStored s ((List.range m).foldl (storeRow s core st n c) s) core st n c m
  | 0, _ => .zero
  | m + 1, hm => by
    rw [List.range_succ, List.foldl_append]
    exact (rowsStored_foldl hst hin m (by omega)).succ hst (row_le hin (by omega))

/-- The bytes of an element of a stored row. -/
theorem RowsStored.ofBytes (h : RowsStored s t core st n c 32) {i j : Nat} (hi : i < 32) (hj : j < 32) :
    Num.ofBytes ((List.range 4).map (fun b => (t.space c.ctx core).byte (c.ptr 0 + i * st + 4 * j + b))) =
      tileWord s (slotOf core c) n i j := by
  have hbytes : (List.range 4).map (fun b => (t.space c.ctx core).byte (c.ptr 0 + i * st + 4 * j + b)) =
      Num.bytesOf 4 (tileWord s (slotOf core c) n i j) := by
    refine (List.map_congr_left fun b hb => ?_ :
      _ = (List.range 4).map (fun b => (Num.bytesOf 4 (tileWord s (slotOf core c) n i j)).getD b 0))
    have hb := List.mem_range.1 hb
    obtain ⟨hq, hget⟩ := List.getElem?_eq_some_iff.1 (getElem_storedRow (s := s) (k := slotOf core c) (n := n) i hj hb)
    rw [Nat.add_assoc (c.ptr 0 + i * st), h.byte i hi _ hq, hget]
  rw [hbytes, Num.ofBytes_bytesOf]
  exact Nat.mod_eq_of_lt (BitVec.isLt _)

end

section

variable {s : State} {core st : Nat} {c : Cmd} {x : MMem}

/-- The rows of an `mst` of FP32, with their numbers. -/
theorem writeRanges_mst (h : c.what = .std (.mst x)) (hx : x.t = .f32)
    (hst : st = if c.val 1 % 2 ^ 32 = 0 then 128 else c.val 1 % 2 ^ 32) :
    c.writeRanges.zipIdx = (List.range 32).map (fun i => ((c.ptr 0 + i * st, 128), i)) := by
  have hrows : c.writeRanges = (List.range 32).map (fun i => (c.ptr 0 + i * st, 128)) := by
    unfold Cmd.writeRanges
    rw [h]
    dsimp only
    rw [rowStride_f32 hx hst, hx]
    rfl
  rw [hrows]
  refine List.ext_getElem (by simp) fun i _ _ => ?_
  simp

theorem runMatrix_mst (h : c.what = .std (.mst x)) (hd : x.d.half = .full) (hx : x.t = .f32)
    (hst : st = if c.val 1 % 2 ^ 32 = 0 then 128 else c.val 1 % 2 ^ 32) : ∃ flags, s.runMatrix core c =
      ((List.range 32).foldl (storeRow s core st x.d.n.val c) s).endCmd core .matrix c flags none (1024 * 4) := by
  have hrun : s.runMatrix core c = runMst s core c x := by
    unfold State.runMatrix
    rw [h]
  have hsize : tyBytes x.t = 4 := by rw [hx]; rfl
  have hconv (b : Nat) : (if x.d.half = .full ∧ x.t ≠ .f32 then (Num.fmtOf x.t).round x.mode x.sat (Num.f32.decode b) else (b, 0)) = (b, 0) :=
    if_neg fun h => h.2 hx
  rw [hrun]
  unfold runMst
  simp only [hsize, hconv, writeRanges_mst h hx hst, List.foldl_map]
  rw [List.foldl_ext _ (storeRow s core st x.d.n.val c) s (l := List.range 32)]
  · exact ⟨_, rfl⟩
  intro t i hi
  unfold storeRow
  rw [← rowBytes_eq hd (List.mem_range.1 hi)]
  rfl

end

end Sys2Proof.Machine
end

section
/-! PROOFS (O42). What each matrix command leaves when it retires. -/

namespace Sys2Proof.Machine

open Sys2Proof.Claims

section

variable {s : State} {core : Nat} {c : Cmd}

/-- A command that has written a full tile retires, and its tile holds what it wrote. -/
theorem tileCommand_retires {what : Decoded} {d : Tile} {l : List Nat} {tag flags : Nat} (h : Multiplying s core c what)
    (hrun : s.runMatrix core c = (s.putTile (slotOf core c) d l tag).endMat core c flags none) (hd : d.half = .full)
    (hl : l.length = 1024) : ∃ t, Next (exec (.matrixCommandRetire core) s) t ∧ Retired s t core c ∧
      (∀ i j, tileWord t (slotOf core c) d.n.val i j = l.getD (32 * i + j) 0 % 2 ^ 32) ∧
      (t.tile (slotOf core c) d.n.val).tag = tag ∧
      ∀ n, n ≠ d.n.val → t.tile (slotOf core c) n = s.tile (slotOf core c) n := by
  obtain ⟨hnext, hret⟩ := matrixCommand_retires h hrun computed_putTile
  refine ⟨_, hnext, hret, fun i j => ?_, ?_, fun n hn => ?_⟩
  · rw [tileWord_matrixEnded, tileWord_putTile hd hl]
  · rw [tile_matrixEnded, tile_putTile_self hd hl]
  · rw [tile_matrixEnded, tile_putTile_other hn]

theorem mmz_retires {d : Tile} {g : Gates} (h : Multiplying s core c (.std (.mmz d g))) (hd : d.half = .full) :
    ∃ t, Next (exec (.matrixCommandRetire core) s) t ∧ Retired s t core c ∧
      (∀ i j, i < 32 → j < 32 → tileWord t (slotOf core c) d.n.val i j = 0) ∧ (t.tile (slotOf core c) d.n.val).tag = 0 ∧
      (∀ n, n ≠ d.n.val → t.tile (slotOf core c) n = s.tile (slotOf core c) n) := by
  obtain ⟨t, hnext, hret, hword, htag, hothers⟩ := tileCommand_retires h (runMatrix_mmz h.what hd) hd List.length_replicate
  refine ⟨t, hnext, hret, fun i j hi hj => ?_, htag, hothers⟩
  rw [hword, List.getD_replicate _ (by omega), Nat.zero_mod]

theorem product_retires {x : MMul} {i : Instr} (hi : i = .mma x ∨ i = .msp x) (h : Multiplying s core c (.std i))
    (hd : x.d.half = .full) (ht : x.t = .f16 ∨ x.t = .bf16) (hbx : x.bx = false) (hk : x.k.val = 0)
    (ha : c.ptr 0 + 1024 ≤ 0x40000) (hb : c.ptr 1 + 1024 ≤ 0x40000) :
    ∃ t, Next (exec (.matrixCommandRetire core) s) t ∧ Retired s t core c ∧
      ∀ a b, a < 32 → b < 32 → tileWord t (slotOf core c) x.d.n.val a b =
        (Num.f32.round .rne false
          (chunkSum s c core x (if x.z then 0 else tileWord s (slotOf core c) x.d.n.val a b) a b).1).1 := by
  obtain ⟨tag, flags, hrun⟩ := runMatrix_product ht hbx ha hb hi h.what hd hk
  obtain ⟨t, hnext, hret, hword, -, -⟩ := tileCommand_retires h hrun hd length_productElems
  refine ⟨t, hnext, hret, fun a b hlta hltb => ?_⟩
  rw [hword, getD_productElems ht ha hb hd hlta hltb, Nat.mod_eq_of_lt (Num.f32_round_lt _)]

theorem mld_retires {st : Nat} {x : MMem} (h : Multiplying s core c (.std (.mld x))) (hd : x.d.half = .full) (hx : x.t = .f32)
    (hst : st = if c.val 1 % 2 ^ 32 = 0 then 128 else c.val 1 % 2 ^ 32) (hin : c.ptr 0 + 31 * st + 128 ≤ 0x40000) :
    ∃ t, Next (exec (.matrixCommandRetire core) s) t ∧ Retired s t core c ∧
      ∀ i j, i < 32 → j < 32 → tileWord t (slotOf core c) x.d.n.val i j = spadNum s c.ctx core (c.ptr 0 + i * st + 4 * j) 4 := by
  obtain ⟨tag, hrun⟩ := runMatrix_mld h.what hx hst hin
  obtain ⟨t, hnext, hret, hword, -, -⟩ := tileCommand_retires h hrun hd length_loadedElems
  refine ⟨t, hnext, hret, fun i j hi hj => ?_⟩
  rw [hword, getD_loadedElems hi hj]
  refine Nat.mod_eq_of_lt ((Num.ofBytes_lt _).trans_eq ?_)
  rw [List.length_map, List.length_range]
  norm_num

theorem mst_retires {st : Nat} {x : MMem} (h : Multiplying s core c (.std (.mst x))) (hd : x.d.half = .full) (hx : x.t = .f32)
    (hst : st = if c.val 1 % 2 ^ 32 = 0 then 128 else c.val 1 % 2 ^ 32) (hle : 128 ≤ st) (hin : c.ptr 0 + 31 * st + 128 ≤ 0x40000) :
    ∃ t, Next (exec (.matrixCommandRetire core) s) t ∧ countedOnly s t (s.tile (slotOf core c) x.d.n.val).tag ∧
      (t.task (slotOf core c)).a = (s.task (slotOf core c)).a ∧
      ∀ i j, i < 32 → j < 32 →
        Num.ofBytes ((List.range 4).map (fun b => (t.space c.ctx core).byte (c.ptr 0 + i * st + 4 * j + b))) =
          tileWord s (slotOf core c) x.d.n.val i j := by
  obtain ⟨flags, hrun⟩ := runMatrix_mst h.what hd hx hst
  have hrows := rowsStored_foldl (s := s) (core := core) (n := x.d.n.val) (c := c) hle hin 32 le_rfl
  generalize (List.range 32).foldl (storeRow s core st x.d.n.val c) s = u at hrun hrows
  have hruns : (u.task (slotOf core c)).stat = .running ∨ (u.task (slotOf core c)).stat = .ready := by
    rw [hrows.stat]
    exact h.runs
  have hmem : (matrixEnded u core c flags none (1024 * 4)).cycle.mem = u.mem := mem_matrixEnded
  have htask : (matrixEnded u core c flags none (1024 * 4)).cycle.task (slotOf core c) =
      ((u.task (slotOf core c)).raiseFlags flags).pushed none := task_matrixEnded_self
  have hbyte (off : Nat) : ((matrixEnded u core c flags none (1024 * 4)).cycle.space c.ctx core).byte off =
      (u.space c.ctx core).byte off := byte_matrixEnded c.ctx core off
  refine ⟨(matrixEnded u core c flags none (1024 * 4)).cycle, ?_, ⟨fun hun => ?_, fun pa hpa => ?_⟩, ?_, fun i j hi hj => ?_⟩
  · rw [matrixCommandRetire_eq h, hrun, endCmd_eq_matrixEnded hruns h.alive]
    rfl
  · rw [hmem, hrows.mem hun]
  · exact (congrArg (fun m => Tab.get Memory.unlisted m pa) hmem).trans (hrows.outside pa hpa)
  · rw [htask]
    exact hrows.a
  · simp only [hbyte]
    exact hrows.ofBytes hi hj

theorem mrdRow_retires {x : MRd} (h : Multiplying s core c (.std (.mrdRow x))) (hx : x.a.half = .full) :
    ∃ t, Next (exec (.matrixCommandRetire core) s) t ∧ Retired s t core c ∧
      (t.vreg (slotOf core c) x.d.val).tag = (s.tile (slotOf core c) x.a.n.val).tag ∧
      ∀ j, j < 32 → elemOf 32 (t.vreg (slotOf core c) x.d.val).v j = tileWord s (slotOf core c) x.a.n.val x.i.val j := by
  obtain ⟨hnext, hret⟩ := matrixCommand_retires h (runMatrix_mrdRow h.what hx) computed_rowRead
  refine ⟨_, hnext, hret, ?_, fun j hj => ?_⟩
  · rw [vreg_matrixEnded, vreg_rowRead]
  · rw [vreg_matrixEnded, vreg_rowRead]
    exact elemOf_rowElems hx hj

theorem mrdEl_retires {x : MRdEl} (h : Multiplying s core c (.std (.mrdEl x))) (hx : x.a.half = .full) :
    ∃ t, Next (exec (.matrixCommandRetire core) s) t ∧ Retired s t core c ∧
      (t.task (slotOf core c)).queue 8 = (s.task (slotOf core c)).queue 8 ++
        [.word { v := BitVec.ofNat 64 (tileWord s (slotOf core c) x.a.n.val (c.val 0 % 1024 / 32) (c.val 0 % 32))
                 tag := (s.tile (slotOf core c) x.a.n.val).tag }] := by
  obtain ⟨hnext, hret⟩ := matrixCommand_retires h (runMatrix_mrdEl h.what hx) (.refl s _)
  refine ⟨_, hnext, hret, ?_⟩
  refine (congrArg (Task.queue · 8) task_matrixEnded_self).trans ?_
  exact Task.queue_setQueue_self _ _

end

/-- Settles O42: each command's effect on its tile, register, queue or scratchpad, and the end that all of them share. -/
theorem matrixResults : Obligations.MatrixResults :=
  ⟨fun _ _ _ _ _ h hd => mmz_retires h hd,
    fun _ _ _ _ _ hi h hd ht hbx hk ha hb => product_retires hi h hd ht hbx hk ha hb,
    fun _ _ _ _ _ h hd hx hst hin => mld_retires h hd hx hst hin,
    fun _ _ _ _ _ h hd hx hst hle hin => mst_retires h hd hx hst hle hin,
    fun _ _ _ _ h hx => mrdRow_retires h hx,
    fun _ _ _ _ h hx => mrdEl_retires h hx⟩

end Sys2Proof.Machine
end

section
/-! PROOFS (O55, O56). Codes of operands, types, modes, tiles and gates: each is read back from its code, and the code of what a
legal code is read as is that code. -/

namespace Sys2Proof

/-! ### Round trips (R127, R144, R145, R147, R148, R188) -/

@[simp] theorem Ty.ofCode_code (t : Ty) : Ty.ofCode t.code = t := by cases t <;> rfl

theorem Ty.code_lt (t : Ty) : t.code < 15 := by cases t <;> decide

theorem Ty.code_ofCode {c : Nat} (h : c < 15) : (Ty.ofCode c).code = c := by interval_cases c <;> rfl

@[simp] theorem RMode.ofCode_code (m : RMode) : RMode.ofCode m.code = m := by cases m <;> rfl

theorem RMode.code_lt (m : RMode) : m.code < 4 := by cases m <;> decide

theorem RMode.code_ofCode {c : Nat} (h : c < 4) : (RMode.ofCode c).code = c := by interval_cases c <;> rfl

theorem RMode.isZero_iff {m : RMode} : m.isZero = true ↔ m.code = 0 := by cases m <;> decide

@[simp] theorem Hint.ofCode_code (h : Hint) : Hint.ofCode h.code = h := by cases h <;> rfl

theorem Hint.code_lt (h : Hint) : h.code < 3 := by cases h <;> decide

theorem Hint.code_ofCode {c : Nat} (h : c < 3) : (Hint.ofCode c).code = c := by interval_cases c <;> rfl

theorem Opnd.code_le (o : Opnd) : o.code ≤ 86 := by
  cases o with
  | g n => exact n.isLt.le.trans (by decide)
  | q n => exact (Nat.add_le_add_left n.isLt.le 64).trans (by decide)
  | link d => cases d <;> decide
  | fifo f => cases f <;> decide
  | special k => cases k <;> decide

/-- A destination is a specifier up to 75 (R147). -/
theorem Opnd.destOk_iff {o : Opnd} : o.destOk = true ↔ o.code ≤ 75 := by
  cases o with
  | g n => exact iff_of_true rfl (n.isLt.le.trans (by decide))
  | q n => exact iff_of_true rfl ((Nat.add_le_add_left n.isLt.le 64).trans (by decide))
  | link d => cases d <;> decide
  | fifo f => cases f <;> decide
  | special k => cases k <;> decide

theorem Opnd.code_ofCode {c : Nat} (h : c ≤ 86) : (Opnd.ofCode c).code = c := by interval_cases c <;> rfl

@[simp] theorem Opnd.ofCode_code (o : Opnd) : Opnd.ofCode o.code = o := by
  cases o with
  | g n =>
    have hn : n.val < 64 := n.isLt
    simp [Opnd.code, Opnd.ofCode, hn]
  | q n =>
    have hn : 64 + n.val < 72 := by omega
    simp [Opnd.code, Opnd.ofCode, hn]
  | link d => cases d <;> rfl
  | fifo f => cases f <;> rfl
  | special k => cases k <;> rfl

theorem Tile.code_lt (t : Tile) : t.code < 48 := by
  obtain ⟨n, half⟩ := t
  cases half <;> simp only [Tile.code] <;> omega

@[simp] theorem Tile.ofCode_code (t : Tile) : Tile.ofCode t.code = t := by
  obtain ⟨n, half⟩ := t
  have hlo : n.val / 16 = 0 := Nat.div_eq_of_lt n.isLt
  have hhi : (n.val + 32) / 16 = 2 := by omega
  have hn : (n.val + 32) % 16 = n.val := by omega
  cases half <;> simp [Tile.ofCode, Tile.code, Fin.ext_iff, hlo, hhi, hn]

theorem Tile.code_ofCode {c : Nat} (h : c < 48) : (Tile.ofCode c).code = c := by interval_cases c <;> rfl

theorem Scope.code_lt (s : Scope) : s.code < 3 := by cases s <;> decide

/-! ### Numbers in fields -/

theorem Fin.val_ofNat_of_lt {n v : Nat} [NeZero n] (h : v < n) : (Fin.ofNat n v).val = v := Nat.mod_eq_of_lt h

@[simp] theorem Enc.bit_true : Enc.bit true = 1 := rfl
@[simp] theorem Enc.bit_false : Enc.bit false = 0 := rfl

theorem Enc.bit_lt (b : Bool) : Enc.bit b < 2 := by cases b <;> decide

@[simp] theorem Enc.bit_beq_one (b : Bool) : (Enc.bit b == 1) = b := by cases b <;> rfl

theorem Enc.bit_of_beq_one {n : Nat} (h : n < 2) : Enc.bit (n == 1) = n := by interval_cases n <;> rfl

/-- A type code that a set of types holds is a type's (R145). -/
theorem Ty.code_ofCode_of_testBit {ts c : Nat} (hts : ts.testBit 15 = false) (hc : c < 16) (h : ts.testBit c = true) :
    (Ty.ofCode c).code = c := by
  refine Ty.code_ofCode (lt_of_le_of_ne (Nat.le_of_lt_succ hc) ?_)
  rintro rfl
  rw [hts] at h
  cases h

/-! ### What fields may hold (R147, R148) -/

namespace FieldKind

theorem legal_lt {k : FieldKind} {v : Nat} (hk : k ≠ .lit) (h : k.legal v = true) : v < 128 := by
  cases k with
  | lit => exact absurd rfl hk
  | _ =>
    simp only [legal, Bool.and_eq_true, Bool.or_eq_true, beq_iff_eq, decide_eq_true_eq] at h
    omega

/-- What the encoder writes for the operand that a field of a kind is read as. -/
def put : FieldKind → Nat → Nat
  | .zero, _ => 0
  | .dst, v | .src, v => (Opnd.ofCode v).code
  | .greg, v | .pair, v => (Fin.ofNat 64 v).val
  | .queue, v => 64 + (Fin.ofNat 8 (v - 64)).val
  | .queueOrG0, v => match (if v = 0 then none else some (Fin.ofNat 8 (v - 64))) with | none => 0 | some q => 64 + q.val
  | .vreg, v | .veven, v => (Fin.ofNat 32 v).val
  | .mask, v => (Fin.ofNat 8 v).val
  | .cc, v => (Fin.ofNat 16 v).val
  | .tile, v => (Tile.ofCode v).code
  | .lit, v => v

/-- A legal field is written as it was read. -/
theorem put_of_legal {k : FieldKind} {v : Nat} (h : k.legal v = true) : k.put v = v := by
  cases k with
  | zero => exact (beq_iff_eq.1 h).symm
  | dst => exact Opnd.code_ofCode ((of_decide_eq_true h).trans (by decide))
  | src => exact Opnd.code_ofCode (of_decide_eq_true h)
  | greg => exact Fin.val_ofNat_of_lt (Nat.lt_succ_of_le (of_decide_eq_true h))
  | pair => exact Fin.val_ofNat_of_lt ((Nat.lt_succ_of_le (of_decide_eq_true h)).trans (by decide))
  | queue =>
    simp only [legal, Bool.and_eq_true, decide_eq_true_eq] at h
    rw [put, Fin.val_ofNat_of_lt (by omega)]
    omega
  | queueOrG0 =>
    simp only [legal, Bool.or_eq_true, beq_iff_eq, Bool.and_eq_true, decide_eq_true_eq] at h
    obtain rfl | hv := h
    · rfl
    · rw [put, if_neg (by omega)]
      simp only [Fin.val_ofNat_of_lt (show v - 64 < 8 by omega)]
      omega
  | vreg => exact Fin.val_ofNat_of_lt (Nat.lt_succ_of_le (of_decide_eq_true h))
  | veven =>
    simp only [legal, Bool.and_eq_true, decide_eq_true_eq] at h
    exact Fin.val_ofNat_of_lt (by omega)
  | mask => exact Fin.val_ofNat_of_lt (Nat.lt_succ_of_le (of_decide_eq_true h))
  | cc => exact Fin.val_ofNat_of_lt (Nat.lt_succ_of_le (of_decide_eq_true h))
  | tile =>
    simp only [legal, Bool.and_eq_true, decide_eq_true_eq, bne_iff_ne] at h
    exact Tile.code_ofCode (by omega)
  | lit => rfl

@[simp] theorem legal_zero {v : Nat} : FieldKind.zero.legal v = true ↔ v = 0 := beq_iff_eq
@[simp] theorem legal_dst (o : Opnd) : FieldKind.dst.legal o.code = o.destOk :=
  Bool.eq_iff_iff.2 (by rw [Opnd.destOk_iff, legal, decide_eq_true_eq])
@[simp] theorem legal_src (o : Opnd) : FieldKind.src.legal o.code = true := decide_eq_true o.code_le
@[simp] theorem legal_greg (n : GReg) : FieldKind.greg.legal n.val = true := decide_eq_true (Nat.le_of_lt_succ n.isLt)
@[simp] theorem legal_pair (n : Nat) : FieldKind.pair.legal n = decide (n ≤ 62) := rfl
@[simp] theorem legal_queue (q : Fin 8) : FieldKind.queue.legal (64 + q.val) = true := by
  simp only [legal, Bool.and_eq_true, decide_eq_true_eq]
  omega
@[simp] theorem legal_vreg (n : VReg) : FieldKind.vreg.legal n.val = true := decide_eq_true (Nat.le_of_lt_succ n.isLt)
@[simp] theorem legal_mask (n : MReg) : FieldKind.mask.legal n.val = true := decide_eq_true (Nat.le_of_lt_succ n.isLt)
@[simp] theorem legal_cc (n : Fin 16) : FieldKind.cc.legal n.val = true := decide_eq_true (Nat.le_of_lt_succ n.isLt)
@[simp] theorem legal_tile (t : Tile) : FieldKind.tile.legal t.code = true := by
  have h := t.code_lt
  simp only [legal, Bool.and_eq_true, decide_eq_true_eq, bne_iff_ne]
  omega
@[simp] theorem legal_lit (v : Nat) : FieldKind.lit.legal v = true := rfl

end FieldKind
end Sys2Proof
end

section
/-! PROOFS (O55, O56). The word formats of R140 to R142: a word is put together from its fields, and the fields of a word put together
are the ones it was put together from. -/

namespace Sys2Proof

/-! ### Bits of a word -/

theorem bitsOf_lt (w lo n : Nat) : bitsOf w lo n < 2 ^ n := Nat.mod_lt _ (Nat.two_pow_pos n)

/-- The bits from a place upwards are a field and what stands above it. -/
theorem bitsOf_above (w lo n hi : Nat) (h : lo + n = hi) : w / 2 ^ lo = bitsOf w lo n + 2 ^ n * (w / 2 ^ hi) := by
  rw [bitsOf, ← h, pow_add, ← Nat.div_div_eq_div_mul, Nat.mod_add_div]

/-- Bits [63:36] of every word are OP, FN, D and A (R140). -/
theorem head_of_word {w : Nat} (hw : w < 2 ^ 64) :
    Enc.head (bitsOf w 56 8) (bitsOf w 50 6) (bitsOf w 43 7) (bitsOf w 36 7) = w / 2 ^ 36 * 2 ^ 36 := by
  have hd := bitsOf_above w 36 7 43 rfl
  have hfn := bitsOf_above w 43 7 50 rfl
  have hop := bitsOf_above w 50 6 56 rfl
  have htop := bitsOf_above w 56 8 64 rfl
  rw [Nat.div_eq_of_lt hw] at htop
  simp only [Enc.head]
  omega

namespace Fields

/-- The word that the encoder puts together from the fields of a word of format `fmt`. -/
def word (f : Fields) (op : Nat) : Fmt → Nat
  | .rr => Enc.rr op f.fn f.d f.a f.b f.c f.tRR
  | .ri => Enc.ri op f.fn f.d f.a f.tRI f.imm
  | .mem => Enc.mem op f.fn f.d f.a f.b f.scale f.tMem f.off
  | .br => Enc.br op f.fn f.d f.a f.hint f.imm
  | .sys => Enc.head op f.fn f.d f.a + f.num * 2 ^ 20
  | .eng =>
    Enc.head op f.fn f.d f.a + f.b * 2 ^ 29 + f.c * 2 ^ 22 + f.gate * 2 ^ 16 + f.sig * 2 ^ 10 + f.wph * 2 ^ 9 + f.low
  | .gate => Enc.head op f.fn f.d f.a + f.b * 2 ^ 29 + f.c * 2 ^ 22 + f.gate * 2 ^ 16 + f.imm16

/-- A word whose format's zero bits are zero is put together from its fields (R141). -/
theorem word_of {w : Nat} (hw : w < 2 ^ 64) (fmt : Fmt) (hz : (Fields.of w).zeroBits fmt = 0) :
    (Fields.of w).word (bitsOf w 56 8) fmt = w := by
  have hhead := head_of_word hw
  have hb := bitsOf_above w 29 7 36 rfl
  have hc := bitsOf_above w 22 7 29 rfl
  have hall := Nat.div_one w
  cases fmt with
  | rr =>
    have hzero := bitsOf_above w 0 18 18 rfl
    have ht := bitsOf_above w 18 4 22 rfl
    simp only [zeroBits, of] at hz
    simp only [word, of, tRR, Enc.rr, hhead]
    omega
  | ri =>
    have himm := bitsOf_above w 0 32 32 rfl
    have ht := bitsOf_above w 32 4 36 rfl
    simp only [word, of, tRI, imm, Enc.ri, hhead]
    omega
  | mem =>
    have hoff := bitsOf_above w 0 22 22 rfl
    have ht := bitsOf_above w 22 4 26 rfl
    have hscale := bitsOf_above w 26 3 29 rfl
    simp only [word, of, scale, tMem, off, Enc.mem, hhead]
    omega
  | br =>
    have himm := bitsOf_above w 0 32 32 rfl
    have hzero := bitsOf_above w 32 2 34 rfl
    have hhint := bitsOf_above w 34 2 36 rfl
    simp only [zeroBits, of] at hz
    simp only [word, of, hint, imm, Enc.br, hhead]
    omega
  | sys =>
    have hzero := bitsOf_above w 0 20 20 rfl
    have hnum := bitsOf_above w 20 16 36 rfl
    simp only [zeroBits, of] at hz
    simp only [word, of, num, hhead]
    omega
  | eng =>
    have hlow := bitsOf_above w 0 9 9 rfl
    have hwph := bitsOf_above w 9 1 10 rfl
    have hsig := bitsOf_above w 10 6 16 rfl
    have hgate := bitsOf_above w 16 6 22 rfl
    simp only [word, of, gate, sig, wph, low, hhead]
    omega
  | gate =>
    have himm := bitsOf_above w 0 16 16 rfl
    have hgate := bitsOf_above w 16 6 22 rfl
    simp only [word, of, gate, imm16, hhead]
    omega

/-! ### The low bits of an engine word (R142, R199, R220, R99) -/

variable (f : Fields)

/-- The vector immediate: T, pred and the rounding mode. -/
theorem low_eq_vector : f.low = Enc.low f.tEng f.pred f.x := by
  have hx := bitsOf_above f.w 0 2 2 rfl
  have hpred := bitsOf_above f.w 2 3 5 rfl
  have ht := bitsOf_above f.w 5 4 9 rfl
  have hlow := bitsOf_above f.w 0 9 9 rfl
  simp only [low, Enc.low, tEng, pred, x]
  omega

theorem bit_bx : Enc.bit f.bx = bitsOf f.w 4 1 := Enc.bit_of_beq_one (bitsOf_lt f.w 4 1)
theorem bit_h : Enc.bit f.h = bitsOf f.w 3 1 := Enc.bit_of_beq_one (bitsOf_lt f.w 3 1)
theorem bit_msat : Enc.bit f.msat = bitsOf f.w 2 1 := Enc.bit_of_beq_one (bitsOf_lt f.w 2 1)
theorem bit_dsp : Enc.bit f.dsp = bitsOf f.w 8 1 := Enc.bit_of_beq_one (bitsOf_lt f.w 8 1)
theorem bit_ssp : Enc.bit f.ssp = bitsOf f.w 7 1 := Enc.bit_of_beq_one (bitsOf_lt f.w 7 1)

/-- The matrix immediate: T, bx, h, sat and the rounding mode. -/
theorem low_eq_matrix :
    f.low = f.tEng * 2 ^ 5 + Enc.bit f.bx * 2 ^ 4 + Enc.bit f.h * 2 ^ 3 + Enc.bit f.msat * 2 ^ 2 + f.x := by
  have hx := bitsOf_above f.w 0 2 2 rfl
  have hsat := bitsOf_above f.w 2 1 3 rfl
  have hh := bitsOf_above f.w 3 1 4 rfl
  have hbx := bitsOf_above f.w 4 1 5 rfl
  have ht := bitsOf_above f.w 5 4 9 rfl
  have hlow := bitsOf_above f.w 0 9 9 rfl
  simp only [bit_bx, bit_h, bit_msat, low, tEng, x]
  omega

theorem bits_0_3 : bitsOf f.w 0 3 = Enc.bit f.msat * 2 ^ 2 + f.x := by
  have hx := bitsOf_above f.w 0 2 2 rfl
  have hsat := bitsOf_above f.w 2 1 3 rfl
  have hall := bitsOf_above f.w 0 3 3 rfl
  simp only [bit_msat, x]
  omega

theorem op7_eq : f.op7 = bitsOf f.w 3 4 * 2 ^ 3 + Enc.bit f.msat * 2 ^ 2 + f.x := by
  have hlo := bitsOf_above f.w 0 3 3 rfl
  have hhi := bitsOf_above f.w 3 4 7 rfl
  have hall := bitsOf_above f.w 0 7 7 rfl
  have h3 := f.bits_0_3
  simp only [op7]
  omega

theorem bits_3_2 : bitsOf f.w 3 2 = Enc.bit f.bx * 2 + Enc.bit f.h := by
  have hh := bitsOf_above f.w 3 1 4 rfl
  have hbx := bitsOf_above f.w 4 1 5 rfl
  have hall := bitsOf_above f.w 3 2 5 rfl
  simp only [bit_bx, bit_h]
  omega

theorem bits_0_5 : bitsOf f.w 0 5 = bitsOf f.w 3 2 * 2 ^ 3 + bitsOf f.w 0 3 := by
  have hlo := bitsOf_above f.w 0 3 3 rfl
  have hhi := bitsOf_above f.w 3 2 5 rfl
  have hall := bitsOf_above f.w 0 5 5 rfl
  omega

theorem bits_4_5 : bitsOf f.w 4 5 = f.tEng * 2 + Enc.bit f.bx := by
  have hbx := bitsOf_above f.w 4 1 5 rfl
  have ht := bitsOf_above f.w 5 4 9 rfl
  have hall := bitsOf_above f.w 4 5 9 rfl
  simp only [bit_bx, tEng]
  omega

/-- The copy immediate: the spaces and the operation's bits. -/
theorem low_eq_copy : f.low = Enc.spaces f.dsp f.ssp f.op7 := by
  have hop := bitsOf_above f.w 0 7 7 rfl
  have hssp := bitsOf_above f.w 7 1 8 rfl
  have hdsp := bitsOf_above f.w 8 1 9 rfl
  have hlow := bitsOf_above f.w 0 9 9 rfl
  simp only [Enc.spaces, bit_dsp, bit_ssp, low, op7]
  omega

end Fields

/-! ### The fields of a word put together -/

section

variable {op fn d a b c w : Nat} (hop : op < 256) (hfn : fn < 64) (hd : d < 128) (ha : a < 128)
include hop hfn hd ha

/-- What stands below bit 36 does not touch OP, FN, D and A (R140). -/
theorem head_fields {r : Nat} (hr : r < 2 ^ 36) (hw : Enc.head op fn d a + r = w) :
    (w < 2 ^ 64 ∧ bitsOf w 56 8 = op ∧ (Fields.of w).fn = fn ∧ (Fields.of w).d = d ∧ (Fields.of w).a = a) ∧ w % 2 ^ 36 = r := by
  simp only [← hw, Enc.head, Fields.of, bitsOf]
  omega

theorem rr_fields {t : Nat} (hb : b < 128) (hc : c < 128) (ht : t < 16) (hw : Enc.rr op fn d a b c t = w) :
    (w < 2 ^ 64 ∧ bitsOf w 56 8 = op ∧ (Fields.of w).fn = fn ∧ (Fields.of w).d = d ∧ (Fields.of w).a = a) ∧
      (Fields.of w).b = b ∧ (Fields.of w).c = c ∧ (Fields.of w).tRR = t ∧ (Fields.of w).zeroBits .rr = 0 := by
  obtain ⟨hhead, hr⟩ := head_fields hop hfn hd ha (r := b * 2 ^ 29 + c * 2 ^ 22 + t * 2 ^ 18) (w := w) (by omega)
    (by rw [← hw, Enc.rr]; omega)
  refine ⟨hhead, ?_⟩
  simp only [Fields.of, Fields.tRR, Fields.zeroBits, bitsOf]
  omega

theorem ri_fields {t imm : Nat} (ht : t < 16) (himm : imm < 2 ^ 32) (hw : Enc.ri op fn d a t imm = w) :
    (w < 2 ^ 64 ∧ bitsOf w 56 8 = op ∧ (Fields.of w).fn = fn ∧ (Fields.of w).d = d ∧ (Fields.of w).a = a) ∧
      (Fields.of w).tRI = t ∧ (Fields.of w).imm = imm ∧ bitsOf w 0 12 = imm % 2 ^ 12 ∧ bitsOf w 12 20 = imm / 2 ^ 12 ∧
      bitsOf w 16 16 = imm / 2 ^ 16 := by
  obtain ⟨hhead, hr⟩ := head_fields hop hfn hd ha (r := t * 2 ^ 32 + imm) (w := w) (by omega) (by rw [← hw, Enc.ri]; omega)
  refine ⟨hhead, ?_⟩
  simp only [Fields.of, Fields.tRI, Fields.imm, bitsOf]
  omega

theorem mem_fields {scale t off : Nat} (hb : b < 128) (hs : scale < 8) (ht : t < 16) (ho : off < 2 ^ 22)
    (hw : Enc.mem op fn d a b scale t off = w) :
    (w < 2 ^ 64 ∧ bitsOf w 56 8 = op ∧ (Fields.of w).fn = fn ∧ (Fields.of w).d = d ∧ (Fields.of w).a = a) ∧
      (Fields.of w).b = b ∧ (Fields.of w).scale = scale ∧ (Fields.of w).tMem = t ∧ (Fields.of w).off = off := by
  obtain ⟨hhead, hr⟩ := head_fields hop hfn hd ha (r := b * 2 ^ 29 + scale * 2 ^ 26 + t * 2 ^ 22 + off) (w := w) (by omega)
    (by rw [← hw, Enc.mem]; omega)
  refine ⟨hhead, ?_⟩
  simp only [Fields.of, Fields.scale, Fields.tMem, Fields.off, bitsOf]
  omega

theorem br_fields {hint off : Nat} (hh : hint < 4) (ho : off < 2 ^ 32) (hw : Enc.br op fn d a hint off = w) :
    (w < 2 ^ 64 ∧ bitsOf w 56 8 = op ∧ (Fields.of w).fn = fn ∧ (Fields.of w).d = d ∧ (Fields.of w).a = a) ∧
      (Fields.of w).hint = hint ∧ (Fields.of w).imm = off ∧ (Fields.of w).zeroBits .br = 0 := by
  obtain ⟨hhead, hr⟩ := head_fields hop hfn hd ha (r := hint * 2 ^ 34 + off) (w := w) (by omega) (by rw [← hw, Enc.br]; omega)
  refine ⟨hhead, ?_⟩
  simp only [Fields.of, Fields.hint, Fields.imm, Fields.zeroBits, bitsOf]
  omega

omit hfn in
theorem sys_fields {num : Nat} (hn : num < 2 ^ 16) (hw : Enc.sys op d a num = w) :
    (w < 2 ^ 64 ∧ bitsOf w 56 8 = op ∧ (Fields.of w).fn = 0 ∧ (Fields.of w).d = d ∧ (Fields.of w).a = a) ∧
      (Fields.of w).num = num ∧ (Fields.of w).zeroBits .sys = 0 := by
  obtain ⟨hhead, hr⟩ := head_fields hop (fn := 0) (by decide) hd ha (r := num * 2 ^ 20) (w := w) (by omega) (by rw [← hw, Enc.sys])
  refine ⟨hhead, ?_⟩
  simp only [Fields.of, Fields.num, Fields.zeroBits, bitsOf]
  omega

theorem eng_fields {g : Gates} {low : Nat} (hb : b < 128) (hc : c < 128) (hg : Enc.gateNum g < 64) (hs : Enc.sigNum g < 64)
    (hp : Enc.wph g < 2) (hl : low < 512) (hw : Enc.eng op fn d a b c g low = w) :
    (w < 2 ^ 64 ∧ bitsOf w 56 8 = op ∧ (Fields.of w).fn = fn ∧ (Fields.of w).d = d ∧ (Fields.of w).a = a) ∧
      (Fields.of w).b = b ∧ (Fields.of w).c = c ∧ (Fields.of w).gate = Enc.gateNum g ∧ (Fields.of w).sig = Enc.sigNum g ∧
      (Fields.of w).wph = Enc.wph g ∧ (Fields.of w).low = low := by
  obtain ⟨hhead, hr⟩ := head_fields hop hfn hd ha (w := w)
    (r := b * 2 ^ 29 + c * 2 ^ 22 + Enc.gateNum g * 2 ^ 16 + Enc.sigNum g * 2 ^ 10 + Enc.wph g * 2 ^ 9 + low) (by omega)
    (by rw [← hw, Enc.eng]; omega)
  refine ⟨hhead, ?_⟩
  simp only [Fields.of, Fields.gate, Fields.sig, Fields.wph, Fields.low, bitsOf]
  omega

theorem gate_fields {gate imm : Nat} (hb : b < 128) (hg : gate < 64) (hi : imm < 2 ^ 16) (hw : Enc.gatew op fn d a b gate imm = w) :
    (w < 2 ^ 64 ∧ bitsOf w 56 8 = op ∧ (Fields.of w).fn = fn ∧ (Fields.of w).d = d ∧ (Fields.of w).a = a) ∧
      (Fields.of w).b = b ∧ (Fields.of w).c = 0 ∧ (Fields.of w).gate = gate ∧ (Fields.of w).imm16 = imm := by
  obtain ⟨hhead, hr⟩ := head_fields hop hfn hd ha (r := b * 2 ^ 29 + gate * 2 ^ 16 + imm) (w := w) (by omega)
    (by rw [← hw, Enc.gatew]; omega)
  refine ⟨hhead, ?_⟩
  simp only [Fields.of, Fields.gate, Fields.imm16, bitsOf]
  omega

end

/-! ### Gate fields (R142, R148) -/

namespace Enc

variable (g : Gates)

theorem gateNum_cases : gateNum g ≤ 31 ∨ gateNum g = 63 ∧ wph g = 0 := by
  obtain ⟨_ | ⟨n, p⟩, s⟩ := g
  · exact .inr ⟨rfl, rfl⟩
  · exact .inl (Nat.le_of_lt_succ n.isLt)

theorem sigNum_cases : sigNum g ≤ 31 ∨ sigNum g = 63 := by
  obtain ⟨w, _ | n⟩ := g
  · exact .inr rfl
  · exact .inl (Nat.le_of_lt_succ n.isLt)

theorem wph_lt : wph g < 2 := by
  obtain ⟨_ | ⟨n, _ | _⟩, s⟩ := g <;> simp [wph]

end Enc

/-- A check that names a cause is met when it finds none (R146). -/
theorem unlessOk_eq_zero {ok : Bool} {cause : Nat} (h : cause ≠ 0) : unlessOk ok cause = 0 ↔ ok = true := by
  cases ok <;> simp [unlessOk, h]

namespace Fields

variable {f : Fields}

theorem gateCause_eq_zero : f.gateCause = 0 ↔
    (f.gate ≤ 31 ∨ f.gate = 63) ∧ (f.sig ≤ 31 ∨ f.sig = 63) ∧ (f.gate = 63 → f.wph = 0) := by
  simp [gateCause, Nat.or_eq_zero_iff, unlessOk_eq_zero, causeOperand, causeOther, or_iff_not_imp_left, and_assoc]

/-- Legal gate fields are written as they were read. -/
theorem gates_put (h : f.gateCause = 0) :
    Enc.gateNum f.gates = f.gate ∧ Enc.sigNum f.gates = f.sig ∧ Enc.wph f.gates = f.wph := by
  obtain ⟨hg, hs, hw⟩ := gateCause_eq_zero.1 h
  have hwph : f.wph < 2 := bitsOf_lt f.w 9 1
  have hwait : f.gate ≠ 63 → (Fin.ofNat 32 f.gate).val = f.gate := fun hne => Fin.val_ofNat_of_lt (by omega)
  have hsig : f.sig ≠ 63 → (Fin.ofNat 32 f.sig).val = f.sig := fun hne => Fin.val_ofNat_of_lt (by omega)
  refine ⟨?_, ?_, ?_⟩
  · by_cases h63 : f.gate = 63
    · simp [gates, Enc.gateNum, h63]
    · simpa [gates, Enc.gateNum, h63] using hwait h63
  · by_cases h63 : f.sig = 63
    · simp [gates, Enc.sigNum, h63]
    · simpa [gates, Enc.sigNum, h63] using hsig h63
  · by_cases h63 : f.gate = 63
    · simp [gates, Enc.wph, h63, hw h63]
    · obtain h0 | h1 : f.wph = 0 ∨ f.wph = 1 := by omega
      · simp [gates, Enc.wph, h63, h0]
      · simp [gates, Enc.wph, h63, h1]

/-- Gates are read as they were written. -/
theorem gates_of {g : Gates} (hg : f.gate = Enc.gateNum g) (hs : f.sig = Enc.sigNum g) (hw : f.wph = Enc.wph g) :
    f.gateCause = 0 ∧ f.gates = g := by
  have hgate := Enc.gateNum_cases g
  refine ⟨gateCause_eq_zero.2 ⟨by omega, hs ▸ Enc.sigNum_cases g, by omega⟩, ?_⟩
  have hwait : f.gates.wait = g.wait := by
    obtain ⟨_ | ⟨n, p⟩, s⟩ := g
    · exact if_pos hg
    · have hn : f.gate ≠ 63 := by rw [hg]; exact fun h => absurd (h ▸ n.isLt : 63 < 32) (by decide)
      refine (if_neg hn).trans ?_
      rw [hg, hw]
      cases p <;> simp [Enc.gateNum, Enc.wph]
  have hsig : f.gates.sig = g.sig := by
    obtain ⟨w, _ | n⟩ := g
    · exact if_pos hs
    · have hn : f.sig ≠ 63 := by rw [hs]; exact fun h => absurd (h ▸ n.isLt : 63 < 32) (by decide)
      refine (if_neg hn).trans ?_
      rw [hs]
      simp [Enc.sigNum]
  calc f.gates = ⟨f.gates.wait, f.gates.sig⟩ := rfl
    _ = g := by rw [hwait, hsig]

end Fields

/-! ### When a row accepts a word, and what it is then decoded to -/

theorem FieldKind.cause_eq_zero {k : FieldKind} {v : Nat} : k.cause v = 0 ↔ k.legal v = true :=
  unlessOk_eq_zero (by split <;> decide)

/-- A row accepts a word when its fields are legal, its type is one of the row's, and its zero bits, gates and further checks hold. -/
theorem Row.cause_eq_zero {r : Row} {f : Fields} : r.cause f = 0 ↔
    r.d.legal f.d = true ∧ r.a.legal f.a = true ∧ (r.fmt = .rr ∨ r.fmt = .mem ∨ r.fmt = .eng → r.b.legal f.b = true) ∧
      (r.fmt = .rr ∨ r.fmt = .eng → r.c.legal f.c = true) ∧ (∀ ts ∈ r.ts, ts.testBit (f.tOf r.fmt) = true) ∧
      f.zeroBits r.fmt = 0 ∧ (r.fmt = .eng → f.gateCause = 0) ∧ r.extra f = 0 := by
  have hzero (n : Nat) : unlessOk (n == 0) causeZero = 0 ↔ n = 0 := (unlessOk_eq_zero (by decide)).trans beq_iff_eq
  have htype (ok : Bool) : unlessOk ok causeOther = 0 ↔ ok = true := unlessOk_eq_zero (by decide)
  obtain ⟨fmt, d, a, b, c, _ | ts, extra, build⟩ := r
  · simp [Row.cause, Nat.or_eq_zero_iff, FieldKind.cause_eq_zero, hzero, and_assoc]
  · simp [Row.cause, Nat.or_eq_zero_iff, FieldKind.cause_eq_zero, htype, hzero, and_assoc]

theorem decode_of_row {w : Nat} {r : Row} (hrow : rowOf (bitsOf w 56 8) (Fields.of w).fn (Fields.of w).imm = some r)
    (hc : r.cause (Fields.of w) = 0) : decode w = .ok (r.build (Fields.of w)).toInstr := by
  simp only [decode, decodeWord, hrow, hc, if_true]

/-- A decoded word is one that its row accepts. -/
theorem row_of_decode {w : Nat} {i : Instr} (h : decode w = .ok i) :
    ∃ r, rowOf (bitsOf w 56 8) (Fields.of w).fn (Fields.of w).imm = some r ∧ r.cause (Fields.of w) = 0 ∧
      (r.build (Fields.of w)).toInstr = i := by
  cases hrow : rowOf (bitsOf w 56 8) (Fields.of w).fn (Fields.of w).imm with
  | none => simp [decode, decodeWord, hrow] at h
  | some r =>
    by_cases hc : r.cause (Fields.of w) = 0
    · exact ⟨r, rfl, hc, Except.ok.inj ((decode_of_row hrow hc).symm.trans h)⟩
    · simp [decode, decodeWord, hrow, hc] at h

end Sys2Proof
end

section
/-! PROOFS (O56). Rows of the words that run on the core: what a row decodes a word to is well formed and is written as that word. -/

namespace Sys2Proof

/-! ### What a row has to do -/

/-- Whatever word of the OP, FN and IMM32 a row accepts, its instruction is well formed and is written as that word (R146, R149). -/
def Reads (op fn imm : Nat) (o : Option Row) : Prop :=
  ∀ r ∈ o, ∀ f : Fields, f.fn = fn → f.imm = imm → r.cause f = 0 →
    wellFormed (r.build f).toInstr = true ∧ encode (r.build f).toInstr = some (f.word op r.fmt)

theorem reads_none {op fn imm : Nat} : Reads op fn imm none := fun _ h => nomatch h

/-- What well-formedness asks of the operand in a field of a kind. -/
def FieldKind.fits : FieldKind → Nat → Bool
  | .dst, v => (Opnd.ofCode v).destOk
  | .pair, v => decide ((Fin.ofNat 64 v).val ≤ 62)
  | _, _ => true

theorem FieldKind.fits_of_legal {k : FieldKind} {v : Nat} (h : k.legal v = true) : k.fits v = true := by
  cases k with
  | dst =>
    have hv : v ≤ 75 := of_decide_eq_true h
    exact Opnd.destOk_iff.2 ((Opnd.code_ofCode (hv.trans (by decide))).le.trans hv)
  | pair => exact decide_eq_true ((put_of_legal h).le.trans (of_decide_eq_true h))
  | _ => rfl

/-- What the encoder writes for T when a row takes the types of a set: the only code of a set of one, else the code of the type read. -/
def typePut (ts t : Nat) : Nat := if ts = 2 ^ ts.log2 then ts.log2 else (Ty.ofCode t).code

theorem typePut_of_testBit {ts t : Nat} (hts : ts.testBit 15 = false) (ht : t < 16) (h : ts.testBit t = true) : typePut ts t = t := by
  unfold typePut
  split
  · next hone =>
    rw [hone, Nat.testBit_two_pow, decide_eq_true_eq] at h
    exact h
  · exact Ty.code_ofCode_of_testBit hts ht h

/-- What well-formedness asks of D and T when a row takes the types of a set: nothing of T when the set has one code. -/
def rowFits (d : FieldKind) (ts v t : Nat) : Bool := if ts = 2 ^ ts.log2 then d.fits v else d.fits v && (Ty.ofCode t).isIn ts

theorem isIn_ofCode {ts t : Nat} (hts : ts.testBit 15 = false) (ht : t < 16) (h : ts.testBit t = true) :
    (Ty.ofCode t).isIn ts = true := by
  rw [Ty.isIn, Ty.code_ofCode_of_testBit hts ht h, h]

theorem rowFits_of_legal {d : FieldKind} {ts v t : Nat} (hts : ts.testBit 15 = false) (ht : t < 16) (hd : d.legal v = true)
    (h : ts.testBit t = true) : rowFits d ts v t = true := by
  simp [rowFits, FieldKind.fits_of_legal hd, isIn_ofCode hts ht h]

/-! ### Numbers of a word that its fields bound -/

namespace Fields

variable {f : Fields}

theorem off22_toNat : f.off22.toNat = f.off := Nat.mod_eq_of_lt (bitsOf_lt f.w 0 22)
theorem imm32_toNat : f.imm32.toNat = f.imm := Nat.mod_eq_of_lt (bitsOf_lt f.w 0 32)
theorem num_toNat : (BitVec.ofNat 16 f.num).toNat = f.num := Nat.mod_eq_of_lt (bitsOf_lt f.w 20 16)
theorem scale_val : (Fin.ofNat 8 f.scale).val = f.scale := Nat.mod_eq_of_lt (bitsOf_lt f.w 26 3)

theorem imm_eq_12_20 : f.imm = bitsOf f.w 12 20 * 2 ^ 12 + bitsOf f.w 0 12 := by
  have hlo := bitsOf_above f.w 0 12 12 rfl
  have hhi := bitsOf_above f.w 12 20 32 rfl
  have himm := bitsOf_above f.w 0 32 32 rfl
  simp only [imm]
  omega

theorem imm_eq_16_16 : f.imm = bitsOf f.w 16 16 * 2 ^ 16 + f.imm % 2 ^ 16 := by
  have hlo := bitsOf_above f.w 0 16 16 rfl
  have hhi := bitsOf_above f.w 16 16 32 rfl
  have himm := bitsOf_above f.w 0 32 32 rfl
  have hlt := bitsOf_lt f.w 0 16
  simp only [imm]
  omega

theorem code_hint (h : (f.hint != 3) = true) : (Hint.ofCode f.hint).code = f.hint := by
  have hlt : f.hint < 4 := bitsOf_lt f.w 34 2
  exact Hint.code_ofCode (lt_of_le_of_ne (Nat.le_of_lt_succ hlt) (bne_iff_ne.1 h))

end Fields

/-- A number of a field that is not zero is no zero bit vector. -/
theorem ofNat_ne_zero {n v : Nat} (hv : (BitVec.ofNat n v).toNat = v) (h : (v != 0) = true) : (BitVec.ofNat n v != 0) = true := by
  refine bne_iff_ne.2 fun heq => bne_iff_ne.1 h ?_
  rw [← hv, heq]
  rfl

section

variable {op fn imm ts : Nat} {d a b c : FieldKind}

/-- What a row of a format without gates accepts. -/
theorem reads_plain {fmt : Fmt} {ts : Option Nat} {extra : Fields → Nat} {mk : Fields → Instr}
    (h : ∀ f : Fields, d.legal f.d = true → a.legal f.a = true → (fmt = .rr ∨ fmt = .mem → b.legal f.b = true) →
      (fmt = .rr → c.legal f.c = true) → (∀ t ∈ ts, t.testBit (f.tOf fmt) = true) → f.fn = fn → f.imm = imm → extra f = 0 →
      wellFormed (mk f) = true ∧ encode (mk f) = some (f.word op fmt)) :
    Reads op fn imm (some { fmt := fmt, d := d, a := a, b := b, c := c, ts := ts, extra := extra, build := fun f => .std (mk f) }) := by
  rintro r ⟨⟩ f hfn himm hcause
  obtain ⟨hd, ha, hb, hc, ht, -, -, hx⟩ := Row.cause_eq_zero.1 hcause
  exact h f hd ha (fun h => hb (h.imp_right .inl)) (fun h => hc (.inl h)) ht hfn himm hx

/-! ### RR words (R141, R163 to R171, R188, R274) -/

/-- RR words whose FN holds more than the function. -/
theorem reads_rrWith {extra FN : Fields → Nat} {mk : Fields → Instr} (hts : ts.testBit 15 = false)
    (hx : ∀ f : Fields, f.fn = fn → extra f = 0 → FN f = f.fn)
    (hw : ∀ f : Fields, f.fn = fn → extra f = 0 → a.legal f.a = true → b.legal f.b = true → c.legal f.c = true →
      rowFits d ts f.d f.tRR = true → wellFormed (mk f) = true)
    (he : ∀ f : Fields, encode (mk f) =
      some (Enc.rr op (FN f) (d.put f.d) (a.put f.a) (b.put f.b) (c.put f.c) (typePut ts f.tRR))) :
    Reads op fn imm (some { fmt := .rr, d := d, a := a, b := b, c := c, ts := some ts, extra := extra, build := fun f => .std (mk f) }) := by
  refine reads_plain fun f hd ha hb hc ht hfn _ hextra => ?_
  have hb := hb (.inl rfl)
  have hc := hc rfl
  have ht : ts.testBit f.tRR = true := ht ts rfl
  have hlt : f.tRR < 16 := bitsOf_lt f.w 18 4
  refine ⟨hw f hfn hextra ha hb hc (rowFits_of_legal hts hlt hd ht), (he f).trans (congrArg some ?_)⟩
  rw [hx f hfn hextra, FieldKind.put_of_legal hd, FieldKind.put_of_legal ha, FieldKind.put_of_legal hb,
    FieldKind.put_of_legal hc, typePut_of_testBit hts hlt ht]
  rfl

theorem reads_rr {mk : Fields → Instr} (hts : ts.testBit 15 = false) (hw : ∀ f : Fields, wellFormed (mk f) = rowFits d ts f.d f.tRR)
    (he : ∀ f : Fields, encode (mk f) =
      some (Enc.rr op fn (d.put f.d) (a.put f.a) (b.put f.b) (c.put f.c) (typePut ts f.tRR))) :
    Reads op fn imm (Rows.rr d a b c ts mk) :=
  reads_rrWith hts (fun _ hfn _ => hfn.symm) (fun f _ _ _ _ _ hfits => (hw f).trans hfits) he

/-- Atomics but `cas`: C is g0. -/
theorem reads_amo {g : AFn} {mk : AmoArg → Instr} (hg : (g != .cas) = true) (hts : g.types.testBit 15 = false)
    (hw : ∀ x : AmoArg, wellFormed (mk x) = (x.t.isIn g.types && x.c == 0))
    (he : ∀ x : AmoArg, encode (mk x) = Enc.amow op fn x) : Reads op fn imm (Rows.amo g mk) := by
  refine reads_plain fun f hd ha hb hc ht hfn _ _ => ?_
  have ht : g.types.testBit f.tRR = true := ht _ rfl
  have hlt : f.tRR < 16 := bitsOf_lt f.w 18 4
  have hc := hc rfl
  rw [if_neg (bne_iff_ne.1 hg), FieldKind.legal_zero] at hc
  have hgc : f.gc = 0 := by rw [Fields.gc, hc]; rfl
  refine ⟨(hw _).trans ?_, (he _).trans (congrArg some ?_)⟩
  · rw [Bool.and_eq_true]
    exact ⟨isIn_ofCode hts hlt ht, beq_iff_eq.2 hgc⟩
  · rw [Fields.word, ← hfn, FieldKind.legal_zero.1 hd, hc, ← FieldKind.put_of_legal ha, ← FieldKind.put_of_legal (hb (.inl rfl)),
      ← Ty.code_ofCode_of_testBit hts hlt ht]
    exact congrArg (fun n => Enc.rr op f.fn 0 _ _ n _) (congrArg Fin.val hgc)

theorem reads_amoCas {mk : AmoArg → Instr} (hw : ∀ x : AmoArg, wellFormed (mk x) = x.t.isIn AFn.cas.types)
    (he : ∀ x : AmoArg, encode (mk x) = Enc.amow op fn x) : Reads op fn imm (Rows.amo .cas mk) :=
  reads_rr rfl (fun f => hw f.amoArg) (fun f => he f.amoArg)

theorem reads_nop : Reads 0x2D 0 imm (Rows.control 0x2D 0) :=
  reads_plain fun f hd ha hb hc _ hfn _ hx => by
    have hb := hb (.inl rfl)
    have hc := hc rfl
    simp only [FieldKind.legal_zero] at hd ha hb hc
    have ht : f.tRR = 0 := beq_iff_eq.1 ((unlessOk_eq_zero (by decide)).1 hx)
    exact ⟨rfl, by rw [Fields.word, hfn, hd, ha, hb, hc, ht]; rfl⟩

/-- `ffma` holds its rounding mode in FN (R170). -/
theorem reads_ffma : Reads 0x21 fn imm (Rows.floats 0x21 fn) := by
  refine reads_rrWith (FN := fun f => (RMode.ofCode (f.fn % 4)).code) rfl (fun f _ hx => ?_) (fun f _ _ _ _ _ h => h) (fun f => rfl)
  have hlt : f.fn < 4 := of_decide_eq_true ((unlessOk_eq_zero (by decide)).1 hx)
  rw [Nat.mod_eq_of_lt hlt, RMode.code_ofCode hlt]

/-- `fcvt` holds its direction, its saturation and its rounding mode in FN (R171). -/
theorem reads_fcvt : Reads 0x23 fn imm (Rows.floats 0x23 fn) := by
  refine reads_rrWith (FN := fun f => Enc.bit (f.fn / 8 % 2 == 1) * 8 + Enc.bit (f.fn / 4 % 2 == 1) * 4 + (RMode.ofCode (f.fn % 4)).code)
    rfl (fun f _ hx => ?_) (fun f _ hx _ _ _ h => ?_) (fun f => rfl)
  · have hlt : f.fn < 16 := of_decide_eq_true ((unlessOk_eq_zero (by decide)).1 (Nat.or_eq_zero_iff.1 hx).1)
    rw [Enc.bit_of_beq_one (Nat.mod_lt _ (by decide)), Enc.bit_of_beq_one (Nat.mod_lt _ (by decide)),
      RMode.code_ofCode (Nat.mod_lt _ (by decide))]
    omega
  · have hsat : f.fn / 4 % 4 ≠ 3 := bne_iff_ne.1 ((unlessOk_eq_zero (by decide)).1 (Nat.or_eq_zero_iff.1 hx).2)
    have hboth : (!(f.fn / 8 % 2 == 1 && f.fn / 4 % 2 == 1)) = true := by
      simp only [Bool.not_eq_true', Bool.and_eq_false_iff, beq_eq_false_iff_ne]
      omega
    exact (Bool.and_eq_true _ _).mpr ⟨h, hboth⟩

/-- `tlbi` holds its kind and its scope in FN; C is a counter at device scope only (R188). -/
theorem reads_tlbiRow {kind n : Nat} {mk : TlbiArg → Instr} (hkind : fn / 4 % 4 = kind) (ha : a = .src ∨ a = .zero)
    (hb : b = .src ∨ b = .zero) (he : ∀ x : TlbiArg, encode (mk x) = Enc.tlbiw kind x)
    (hw : ∀ x : TlbiArg, (x.scope == .dev || x.cc == 0) = true → (a = .zero → x.a = .g 0) → (b = .zero → x.b = .g 0) →
      wellFormed (mk x) = true) :
    Reads 0x3D fn imm (some
      { fmt := .rr, d := .zero, a := a, b := b, c := if fn % 4 = 2 then .cc else .zero, ts := some 1
        extra := fun f => unlessOk (decide (f.fn < 16)) (causeFn ||| causeZero)
          ||| unlessOk (fn % 4 != 3 && n != 3) causeFn
        build := fun f => .std (mk f.tlbiArg) }) := by
  have hcode {k : FieldKind} {v : Nat} (hk : k = .src ∨ k = .zero) (hv : k.legal v = true) : (Opnd.ofCode v).code = v := by
    obtain rfl | rfl := hk
    · exact FieldKind.put_of_legal hv
    · obtain rfl := FieldKind.legal_zero.1 hv
      rfl
  have hg0 {k : FieldKind} {v : Nat} (hv : k.legal v = true) (hk : k = .zero) : Opnd.ofCode v = .g 0 := by
    obtain rfl := FieldKind.legal_zero.1 (hk ▸ hv)
    rfl
  refine reads_plain fun f hd hal hbl hcl ht hfn _ hx => ?_
  have hbl := hbl (.inl rfl)
  have hcl := hcl rfl
  have ht : f.tRR = 0 := (typePut_of_testBit (ts := 1) rfl (bitsOf_lt f.w 18 4) (ht _ rfl)).symm
  obtain ⟨hlt, hfun⟩ := Nat.or_eq_zero_iff.1 hx
  have hlt : f.fn < 16 := of_decide_eq_true ((unlessOk_eq_zero (by decide)).1 hlt)
  have hscope : fn % 4 ≠ 3 := bne_iff_ne.1 ((Bool.and_eq_true _ _).mp ((unlessOk_eq_zero (by decide)).1 hfun)).1
  have hscope : f.tlbiArg.scope.code = fn % 4 ∧ (f.tlbiArg.scope = .dev ↔ fn % 4 = 2) := by
    obtain h0 | h1 | h2 : fn % 4 = 0 ∨ fn % 4 = 1 ∨ fn % 4 = 2 := by omega
    · simp [Fields.tlbiArg, hfn, h0, Scope.code]
    · simp [Fields.tlbiArg, hfn, h1, Scope.code]
    · simp [Fields.tlbiArg, hfn, h2, Scope.code]
  have hcc : f.tlbiArg.cc.val = f.c ∧ (fn % 4 ≠ 2 → f.c = 0) := by
    split at hcl
    · next h2 => exact ⟨FieldKind.put_of_legal hcl, fun hne => absurd h2 hne⟩
    · next => exact ⟨by rw [Fields.tlbiArg, FieldKind.legal_zero.1 hcl]; rfl, fun _ => FieldKind.legal_zero.1 hcl⟩
  refine ⟨hw _ ?_ (hg0 hal) (hg0 hbl), (he _).trans (congrArg some ?_)⟩
  · rw [Bool.or_eq_true, beq_iff_eq, beq_iff_eq, hscope.2]
    exact (em _).imp_right fun hne => Fin.ext (hcc.1.trans (hcc.2 hne))
  · have hval : kind * 4 + fn % 4 = fn := by omega
    rw [Fields.word, hscope.1, hcc.1, FieldKind.legal_zero.1 hd, ht, hfn, hval, ← hcode ha hal, ← hcode hb hbl]
    rfl

theorem reads_tlbi : Reads 0x3D fn imm (Rows.tlbi fn) := by
  unfold Rows.tlbi
  dsimp only
  split
  · next hkind =>
    exact reads_tlbiRow hkind (.inl rfl) (.inl rfl) (fun _ => rfl) fun x hscope _ _ => hscope
  · next hkind =>
    refine reads_tlbiRow hkind (.inr rfl) (.inl rfl) (fun _ => rfl) fun x hscope ha _ => ?_
    exact (Bool.and_eq_true _ _).mpr ⟨hscope, beq_iff_eq.2 (ha rfl)⟩
  · next hkind =>
    refine reads_tlbiRow hkind (.inr rfl) (.inr rfl) (fun _ => rfl) fun x hscope ha hb => ?_
    exact (Bool.and_eq_true _ _).mpr ⟨(Bool.and_eq_true _ _).mpr ⟨hscope, beq_iff_eq.2 (ha rfl)⟩, beq_iff_eq.2 (hb rfl)⟩
  · next h0 h1 h2 =>
    have h3 : fn / 4 % 4 = 3 := by
      have hne : fn / 4 % 4 ≠ 0 ∧ fn / 4 % 4 ≠ 1 ∧ fn / 4 % 4 ≠ 2 := ⟨h0, h1, h2⟩
      omega
    refine reads_plain fun f _ _ _ _ _ _ _ hx => absurd (Nat.or_eq_zero_iff.1 hx).2 ?_
    simp [h3, unlessOk, causeFn]

/-! ### RI words (R141, R166, R167, R176, R177, R184, R185) -/

/-- RI words that take the types of a set. -/
theorem reads_riWith {extra : Fields → Nat} {mk : Fields → Instr} (hts : ts.testBit 15 = false)
    (h : ∀ f : Fields, f.imm = imm → extra f = 0 → rowFits d ts f.d f.tRI = true → ts.testBit f.tRI = true →
      wellFormed (mk f) = true ∧ encode (mk f) = some (Enc.ri op fn (d.put f.d) (a.put f.a) (typePut ts f.tRI) f.imm)) :
    Reads op fn imm (some { fmt := .ri, d := d, a := a, b := b, c := c, ts := some ts, extra := extra, build := fun f => .std (mk f) }) := by
  refine reads_plain fun f hd ha _ _ ht hfn himm hx => ?_
  have ht : ts.testBit f.tRI = true := ht ts rfl
  have hlt : f.tRI < 16 := bitsOf_lt f.w 32 4
  obtain ⟨hw, he⟩ := h f himm hx (rowFits_of_legal hts hlt hd ht) ht
  refine ⟨hw, he.trans (congrArg some ?_)⟩
  rw [FieldKind.put_of_legal hd, FieldKind.put_of_legal ha, typePut_of_testBit hts hlt ht, ← hfn]
  rfl

/-- RI words without further checks whose instruction holds IMM32. -/
theorem reads_ri {mk : Fields → Instr} (hts : ts.testBit 15 = false) (hw : ∀ f : Fields, wellFormed (mk f) = rowFits d ts f.d f.tRI)
    (he : ∀ f : Fields, encode (mk f) = some (Enc.ri op fn (d.put f.d) (a.put f.a) (typePut ts f.tRI) f.imm32.toNat)) :
    Reads op fn imm (some { fmt := .ri, d := d, a := a, b := b, c := c, ts := some ts, extra := Rows.noExtra
                            build := fun f => .std (mk f) }) :=
  reads_riWith hts fun f _ _ hfits _ => ⟨(hw f).trans hfits, (he f).trans (by rw [Fields.imm32_toNat])⟩

theorem reads_riShift {mk : RI → Instr} (hw : ∀ x : RI, wellFormed (mk x) = Wf.shiftImm x)
    (he : ∀ x : RI, encode (mk x) = Enc.riw op x) : Reads op 0 imm (Rows.riShift mk) := by
  refine reads_riWith rfl fun f _ hx hfits _ => ⟨(hw f.ri).trans ?_, (he f.ri).trans ?_⟩
  · have himm : f.imm < (Ty.ofCode f.tRI).width := of_decide_eq_true ((unlessOk_eq_zero (by decide)).1 hx)
    exact (Bool.and_eq_true _ _).mpr ⟨hfits, decide_eq_true (Fields.imm32_toNat.symm ▸ himm)⟩
  · rw [← Fields.imm32_toNat]
    rfl

theorem reads_loopReg : Reads 0x2B 0 imm (Rows.control 0x2B 0) := by
  refine reads_riWith rfl fun f _ hx _ _ => ?_
  obtain ⟨hzero, hn⟩ := Nat.or_eq_zero_iff.1 hx
  have hzero : bitsOf f.w 12 20 = 0 := beq_iff_eq.1 ((unlessOk_eq_zero (by decide)).1 hzero)
  have hn : (bitsOf f.w 0 12 != 0) = true := (unlessOk_eq_zero (by decide)).1 hn
  have hval : (BitVec.ofNat 12 (bitsOf f.w 0 12)).toNat = bitsOf f.w 0 12 := Nat.mod_eq_of_lt (bitsOf_lt f.w 0 12)
  refine ⟨ofNat_ne_zero hval hn, congrArg some ?_⟩
  rw [Fields.imm_eq_12_20, hzero, hval, Nat.zero_mul, Nat.zero_add]
  rfl

theorem reads_loopImm : Reads 0x2B 1 imm (Rows.control 0x2B 1) := by
  refine reads_riWith rfl fun f _ hx _ _ => ?_
  have hn : (bitsOf f.w 0 12 != 0) = true := (unlessOk_eq_zero (by decide)).1 hx
  have hval : (BitVec.ofNat 12 (bitsOf f.w 0 12)).toNat = bitsOf f.w 0 12 := Nat.mod_eq_of_lt (bitsOf_lt f.w 0 12)
  have hcount : (BitVec.ofNat 20 (bitsOf f.w 12 20)).toNat = bitsOf f.w 12 20 := Nat.mod_eq_of_lt (bitsOf_lt f.w 12 20)
  refine ⟨ofNat_ne_zero hval hn, congrArg some ?_⟩
  rw [Fields.imm_eq_12_20, hcount, hval]
  rfl

/-- RI words whose T is a zero field, as are D and A. -/
theorem reads_riZ {extra : Fields → Nat} {mk : Fields → Instr} (hw : ∀ f : Fields, wellFormed (mk f) = true)
    (he : ∀ f : Fields, extra f = 0 → encode (mk f) = some (Enc.ri op fn 0 0 0 f.imm)) : Reads op fn imm (Rows.riZ extra mk) := by
  refine reads_plain fun f hd ha _ _ _ hfn _ hx => ⟨hw f, ?_⟩
  obtain ⟨ht, hx⟩ := Nat.or_eq_zero_iff.1 hx
  have ht : f.tRI = 0 := beq_iff_eq.1 ((unlessOk_eq_zero (by decide)).1 ht)
  rw [he f hx, Fields.word, hfn, FieldKind.legal_zero.1 hd, FieldKind.legal_zero.1 ha, ht]

theorem reads_blk : Reads 0x2C 0 imm (Rows.control 0x2C 0) :=
  reads_riZ (fun _ => rfl) fun f _ => by rw [← Fields.imm32_toNat]; rfl

theorem reads_trap : Reads 0x38 0 imm (Rows.system 0x38 0) := by
  refine reads_riZ (fun _ => rfl) fun f hx => congrArg some ?_
  have hzero : bitsOf f.w 16 16 = 0 := beq_iff_eq.1 ((unlessOk_eq_zero (by decide)).1 hx)
  have himm : f.imm = f.imm % 2 ^ 16 := by
    have h := f.imm_eq_16_16
    omega
  exact congrArg (Enc.ri 0x38 0 0 0 0) himm.symm

/-- The function of `sys` stands in IMM32, which names one of three (R185). -/
theorem reads_sys : Reads 0x39 fn imm (Rows.sysFn fn imm) := by
  unfold Rows.sysFn
  split
  · exact reads_none
  · next hfn =>
    obtain rfl : fn = 0 := not_not.1 hfn
    split
    · exact reads_riWith rfl fun f himm _ hfits _ => ⟨hfits, by rw [himm]; rfl⟩
    · exact reads_riWith rfl fun f himm _ hfits _ => ⟨hfits, by rw [himm]; rfl⟩
    · exact reads_riWith rfl fun f himm _ hfits _ => ⟨hfits, by rw [himm]; rfl⟩
    · exact reads_riWith rfl fun f _ hx _ _ => absurd hx (by decide)

/-! ### Branches, system words and MEM words (R141, R143, R144, R187) -/

theorem reads_br {mk : BrArg → Instr} (hw : ∀ x : BrArg, wellFormed (mk x) = true) (he : ∀ x : BrArg, encode (mk x) = Enc.brw fn x) :
    Reads 0x28 fn imm (Rows.br mk) := by
  refine reads_plain fun f hd ha _ _ _ hfn _ hx => ⟨hw _, (he _).trans (congrArg some ?_)⟩
  rw [Fields.word, ← hfn, ← FieldKind.put_of_legal hd, ← FieldKind.put_of_legal ha,
    ← Fields.code_hint ((unlessOk_eq_zero (by decide)).1 hx), ← Fields.imm32_toNat]
  rfl

theorem reads_br0 {mk : Fields → Instr} (hw : ∀ f : Fields, wellFormed (mk f) = d.fits f.d)
    (he : ∀ f : Fields, encode (mk f) = some (Enc.br op fn (d.put f.d) 0 (Hint.ofCode f.hint).code f.imm32.toNat)) :
    Reads op fn imm (Rows.br0 d mk) := by
  refine reads_plain fun f hd ha _ _ _ hfn _ hx => ⟨(hw f).trans (FieldKind.fits_of_legal hd), (he f).trans (congrArg some ?_)⟩
  rw [Fields.word, ← hfn, FieldKind.put_of_legal hd, FieldKind.legal_zero.1 ha,
    Fields.code_hint ((unlessOk_eq_zero (by decide)).1 hx), Fields.imm32_toNat]

theorem reads_sysw {mk : Fields → Instr}
    (hw : ∀ f : Fields, wellFormed (mk f) = (d.fits f.d && sysregNumbers.contains (BitVec.ofNat 16 f.num).toNat))
    (he : ∀ f : Fields, encode (mk f) = some (Enc.sys op (d.put f.d) (a.put f.a) (BitVec.ofNat 16 f.num).toNat)) :
    Reads op 0 imm (Rows.sysw d a mk) := by
  refine reads_plain fun f hd ha _ _ _ hfn _ hx => ⟨(hw f).trans ?_, (he f).trans (congrArg some ?_)⟩
  · rw [FieldKind.fits_of_legal hd, Fields.num_toNat]
    exact (unlessOk_eq_zero (by decide)).1 hx
  · rw [FieldKind.put_of_legal hd, FieldKind.put_of_legal ha, Fields.num_toNat, Fields.word, hfn]
    rfl

/-- What well-formedness asks of the index and the scale of a MEM word (R143). -/
def scaleFits (b : FieldKind) (f : Fields) : Bool :=
  match b with
  | .src => Wf.scaleOk f.ob (Fin.ofNat 8 f.scale)
  | _ => Wf.gscaleOk f.gb (Fin.ofNat 8 f.scale)

theorem scaleFits_of_legal {f : Fields} (hb : b = .src ∨ b = .greg) (hl : b.legal f.b = true)
    (h : (f.b != 0 || f.scale == 0) = true) : scaleFits b f = true := by
  have hput := FieldKind.put_of_legal hl
  have hscale : (f.scale == 0) = true → (Fin.ofNat 8 f.scale == 0) = true := fun h => by rw [beq_iff_eq.1 h]; rfl
  obtain rfl | rfl := hb
  · exact (Bool.or_eq_true _ _).mpr (((Bool.or_eq_true _ _).mp h).imp (fun hne => bne_iff_ne.2 fun h0 : f.ob = .g 0 =>
      bne_iff_ne.1 hne (hput.symm.trans (congrArg Opnd.code h0))) hscale)
  · exact (Bool.or_eq_true _ _).mpr (((Bool.or_eq_true _ _).mp h).imp (fun hne => bne_iff_ne.2 fun h0 : f.gb = 0 =>
      bne_iff_ne.1 hne (hput.symm.trans (congrArg Fin.val h0))) hscale)

theorem reads_mem {mk : Fields → Instr} (hb : b = .src ∨ b = .greg) (hts : ts.testBit 15 = false)
    (hw : ∀ f : Fields, wellFormed (mk f) = (rowFits d ts f.d f.tMem && scaleFits b f))
    (he : ∀ f : Fields, encode (mk f) = some (Enc.mem op fn (d.put f.d) (a.put f.a) (b.put f.b) (Fin.ofNat 8 f.scale).val
      (typePut ts f.tMem) f.off22.toNat)) : Reads op fn imm (Rows.mem d a b ts mk) := by
  refine reads_plain fun f hd ha hl _ ht hfn _ hx => ?_
  have hl := hl (.inr rfl)
  have ht : ts.testBit f.tMem = true := ht ts rfl
  have hlt : f.tMem < 16 := bitsOf_lt f.w 22 4
  refine ⟨(hw f).trans ?_, (he f).trans (congrArg some ?_)⟩
  · rw [rowFits_of_legal hts hlt hd ht, scaleFits_of_legal hb hl ((unlessOk_eq_zero (by decide)).1 hx), Bool.and_self]
  · rw [FieldKind.put_of_legal hd, FieldKind.put_of_legal ha, FieldKind.put_of_legal hl, typePut_of_testBit hts hlt ht,
      Fields.scale_val, Fields.off22_toNat, ← hfn]
    rfl

theorem reads_memV {mk : Fields → Instr} (hw : ∀ f : Fields, wellFormed (mk f) = (Ty.ofCode f.tMem).isIn tsMem)
    (he : ∀ f : Fields, encode (mk f) = some (Enc.mem op fn (d.put f.d) (FieldKind.greg.put f.a) (b.put f.b) 0
      (Ty.ofCode f.tMem).code f.off22.toNat)) : Reads op fn imm (Rows.memV d b mk) := by
  refine reads_plain fun f hd ha hl _ ht hfn _ hx => ?_
  have hlt : f.tMem < 16 := bitsOf_lt f.w 22 4
  have hscale : f.scale = 0 := beq_iff_eq.1 ((unlessOk_eq_zero (by decide)).1 hx)
  refine ⟨(hw f).trans (isIn_ofCode rfl hlt (ht _ rfl)), (he f).trans (congrArg some ?_)⟩
  rw [FieldKind.put_of_legal hd, FieldKind.put_of_legal ha, FieldKind.put_of_legal (hl (.inr rfl)),
    Ty.code_ofCode_of_testBit rfl hlt (ht _ rfl), Fields.off22_toNat, Fields.word, hscale, ← hfn]

/-! ### The rows (R149) -/

theorem reads_int : Reads op fn imm (Rows.int op fn) := by
  unfold Rows.int
  split
  all_goals apply_rules [reads_rr, reads_none, rfl]

theorem reads_imms : Reads op fn imm (Rows.imms op fn) := by
  unfold Rows.imms
  split
  all_goals apply_rules [reads_riShift, reads_ri, reads_rr, reads_none, rfl]

theorem reads_floats : Reads op fn imm (Rows.floats op fn) := by
  unfold Rows.floats
  split
  · split
    all_goals apply_rules [reads_rr, reads_none, rfl]
  · exact reads_ffma
  · split
    all_goals apply_rules [reads_rr, reads_none, rfl]
  · exact reads_fcvt
  · split
    · next h => exact h ▸ reads_rr rfl (fun _ => rfl) fun _ => rfl
    · exact reads_none
  · exact reads_none

theorem reads_control : Reads op fn imm (Rows.control op fn) := by
  unfold Rows.control
  split
  all_goals apply_rules [reads_br, reads_br0, reads_rr, reads_loopReg, reads_loopImm, reads_blk, reads_nop, reads_none, rfl]

theorem reads_system : Reads op fn imm (Rows.system op fn) := by
  unfold Rows.system
  split
  all_goals apply_rules [reads_mem, reads_rr, reads_trap, reads_sysw, reads_none, Or.inl, rfl]

theorem reads_glob : Reads op fn imm (Rows.glob op fn) := by
  unfold Rows.glob
  split
  all_goals apply_rules [reads_mem, reads_memV, reads_amoCas, reads_amo, reads_rr, reads_none, Or.inr, rfl]

theorem reads_task : Reads op fn imm (Rows.task op fn) := by
  unfold Rows.task
  split
  all_goals apply_rules [reads_rr, reads_none, rfl]

end
end Sys2Proof
end

section
/-! PROOFS (O56). Rows of the words that go to the engines (R142, R199, R220, R99, R259), and the result for every row. -/

namespace Sys2Proof

section

variable {op fn imm ts : Nat} {d a b c : FieldKind}

/-- What an engine row asks of a word that it accepts. -/
structure EngAccepts (d a b c : FieldKind) (ts : Option Nat) (extra : Fields → Nat) (f : Fields) : Prop where
  d : d.legal f.d = true
  a : a.legal f.a = true
  b : b.legal f.b = true
  c : c.legal f.c = true
  type : ∀ t ∈ ts, t.testBit f.tEng = true
  checks : extra f = 0
  gates : f.gateCause = 0

theorem reads_engWith {ts : Option Nat} {extra : Fields → Nat} {mk : Fields → Decoded}
    (h : ∀ f : Fields, EngAccepts d a b c ts extra f → f.fn = fn → wellFormed (mk f).toInstr = true ∧
      encode (mk f).toInstr = some (Enc.eng op f.fn f.d f.a f.b f.c f.gates f.low)) :
    Reads op fn imm (some { fmt := .eng, d := d, a := a, b := b, c := c, ts := ts, extra := extra, build := mk }) := by
  rintro r ⟨⟩ f hfn - hcause
  obtain ⟨hd, ha, hb, hc, ht, -, hg, hx⟩ := Row.cause_eq_zero.1 hcause
  obtain ⟨hw, he⟩ := h f ⟨hd, ha, hb (.inr (.inr rfl)), hc (.inr rfl), ht, hx, hg rfl⟩ hfn
  obtain ⟨hgate, hsig, hwph⟩ := Fields.gates_put (hg rfl)
  refine ⟨hw, he.trans (congrArg some ?_)⟩
  rw [Enc.eng, hgate, hsig, hwph]
  rfl

/-- Engine rows whose instruction writes each field as its kind does. -/
theorem reads_engPut {ts : Option Nat} {extra FN LOW : Fields → Nat} {mk : Fields → Decoded}
    (he : ∀ f : Fields, encode (mk f).toInstr =
      some (Enc.eng op (FN f) (d.put f.d) (a.put f.a) (b.put f.b) (c.put f.c) f.gates (LOW f)))
    (h : ∀ f : Fields, EngAccepts d a b c ts extra f → f.fn = fn →
      wellFormed (mk f).toInstr = true ∧ FN f = f.fn ∧ LOW f = f.low) :
    Reads op fn imm (some { fmt := .eng, d := d, a := a, b := b, c := c, ts := ts, extra := extra, build := mk }) := by
  refine reads_engWith fun f hf hfn => ?_
  obtain ⟨hw, hFN, hLOW⟩ := h f hf hfn
  refine ⟨hw, (he f).trans ?_⟩
  rw [hFN, hLOW, FieldKind.put_of_legal hf.d, FieldKind.put_of_legal hf.a, FieldKind.put_of_legal hf.b, FieldKind.put_of_legal hf.c]

/-! ### The checks of engine rows, as facts about fields -/

@[simp] theorem unlessOk_causeFn {ok : Bool} : unlessOk ok causeFn = 0 ↔ ok = true := unlessOk_eq_zero (by decide)
@[simp] theorem unlessOk_causeZero {ok : Bool} : unlessOk ok causeZero = 0 ↔ ok = true := unlessOk_eq_zero (by decide)
@[simp] theorem unlessOk_causeFnZero {ok : Bool} : unlessOk ok (causeFn ||| causeZero) = 0 ↔ ok = true :=
  unlessOk_eq_zero (by decide)
@[simp] theorem unlessOk_causeOperand {ok : Bool} : unlessOk ok causeOperand = 0 ↔ ok = true := unlessOk_eq_zero (by decide)
@[simp] theorem unlessOk_causeOther {ok : Bool} : unlessOk ok causeOther = 0 ↔ ok = true := unlessOk_eq_zero (by decide)

namespace Rows

variable {f : Fields}

@[simp] theorem fn0_eq_zero : fn0 f = 0 ↔ f.fn = 0 := by simp [fn0]
@[simp] theorem fn1_eq_zero : fn1 f = 0 ↔ f.fn ≤ 1 := by simp [fn1]
@[simp] theorem xZero_eq_zero : xZero f = 0 ↔ f.x = 0 := by simp [xZero]
@[simp] theorem xFloat_eq_zero : xFloat f = 0 ↔ f.x = 0 ∨ tsFloat.testBit f.tEng = true := by simp [xFloat]
@[simp] theorem predNone_eq_zero : predNone f = 0 ↔ f.pred = 0 := by simp [predNone]
@[simp] theorem predT_eq_zero : predT f = 0 ↔ f.pred = 0 ∨ f.tEng ≠ 0 := by simp [predT]
@[simp] theorem noPredX_eq_zero : noPredX f = 0 ↔ f.x = 0 ∧ f.pred = 0 := by simp [noPredX, Nat.or_eq_zero_iff]

end Rows

namespace Fields

variable {f : Fields}

theorem p8_val : f.p8.val = f.pred := Nat.mod_eq_of_lt (bitsOf_lt f.w 2 3)
theorem code_mode : f.mode.code = f.x := RMode.code_ofCode (bitsOf_lt f.w 0 2)
theorem bit_fnBit (h : f.fn ≤ 1) : Enc.bit f.fnBit = f.fn :=
  (Enc.bit_of_beq_one (Nat.mod_lt _ (by decide))).trans (Nat.mod_eq_of_lt (Nat.lt_succ_of_le h))

theorem code_ty (hts : ts.testBit 15 = false) (h : ts.testBit f.tEng = true) : f.ty.code = f.tEng :=
  Ty.code_ofCode_of_testBit hts (bitsOf_lt f.w 5 4) h

/-- A type of a row's set is one that well-formedness accepts. -/
theorem isIn_ty (hts : ts.testBit 15 = false) (h : ts.testBit f.tEng = true) : f.ty.isIn ts = true :=
  isIn_ofCode hts (bitsOf_lt f.w 5 4) h

/-- The vector immediate is written as it was read. -/
theorem low_vector (ht : f.ty.code = f.tEng) : Enc.low f.ty.code f.p8.val f.mode.code = f.low := by
  rw [ht, p8_val, code_mode, ← low_eq_vector]

theorem low_vector_x0 (ht : f.ty.code = f.tEng) (hx : f.x = 0) : Enc.low f.ty.code f.p8.val 0 = f.low := by
  rw [← low_vector ht, code_mode, hx]

/-- A rounding field is zero for a type that does not round (R199). -/
theorem modeFor_of (ht : f.ty.code = f.tEng) (h : f.x = 0 ∨ tsFloat.testBit f.tEng = true) : Wf.modeFor f.ty f.mode = true := by
  rw [Wf.modeFor, Ty.isIn, ht, Bool.or_eq_true, RMode.isZero_iff, code_mode]
  exact h.symm

theorem isZero_mode (h : f.x = 0) : f.mode.isZero = true := RMode.isZero_iff.2 (code_mode.trans h)

theorem ty_ne_none (ht : f.ty.code = f.tEng) (h : f.tEng ≠ 0) : f.ty ≠ .none := fun h0 => h (ht.symm.trans (congrArg Ty.code h0))

/-- The predicate is zero under T = 0 (R193). -/
theorem predFor_of (ht : f.ty.code = f.tEng) (h : f.pred = 0 ∨ f.tEng ≠ 0) : Wf.predFor f.ty f.p8 = true := by
  rw [Wf.predFor, Bool.or_eq_true, bne_iff_ne, beq_iff_eq]
  exact h.symm.imp (ty_ne_none ht) fun h => Fin.ext (p8_val.trans h)

theorem tEng_ne_zero (hts : ts.testBit 0 = false) (h : ts.testBit f.tEng = true) : f.tEng ≠ 0 := fun h0 => by
  rw [h0, hts] at h
  cases h

end Fields

/-! ### Vector rows (R199) -/

/-- A row of the vector engine, whose type is the element's. -/
theorem reads_eng {extra FN LOW : Fields → Nat} {mk : Fields → Instr} (hts : ts.testBit 15 = false)
    (he : ∀ f : Fields, encode (mk f) =
      some (Enc.eng op (FN f) (d.put f.d) (a.put f.a) (b.put f.b) (c.put f.c) f.gates (LOW f)))
    (h : ∀ f : Fields, EngAccepts d a b c (some ts) extra f → ts.testBit f.tEng = true → f.ty.code = f.tEng → f.ty.isIn ts = true →
      f.fn = fn → extra f = 0 → wellFormed (mk f) = true ∧ FN f = f.fn ∧ LOW f = f.low) :
    Reads op fn imm (Rows.eng d a b c (some ts) extra mk) := by
  refine reads_engPut he fun f hf hfn => ?_
  have ht : ts.testBit f.tEng = true := hf.type _ rfl
  exact h f hf ht (Fields.code_ty hts ht) (Fields.isIn_ty hts ht) hfn hf.checks

theorem reads_v3sat {mk : V3 → Instr} (hw : ∀ x, wellFormed (mk x) = Wf.v3 tsArith true true x) (he : ∀ x, encode (mk x) = Enc.v3 op x) :
    Reads op fn imm (Rows.v3sat mk) := by
  refine reads_eng rfl (fun f => he f.v3) fun f _ ht hty hin _ hx => ?_
  simp only [Nat.or_eq_zero_iff, Rows.fn1_eq_zero, Rows.xFloat_eq_zero] at hx
  refine ⟨(hw _).trans ?_, Fields.bit_fnBit hx.1, Fields.low_vector hty⟩
  simp [Wf.v3, Fields.v3, hin, Fields.modeFor_of hty hx.2, Fields.predFor_of hty (.inr (Fields.tEng_ne_zero rfl ht))]

theorem reads_v3 {mk : V3 → Instr} (hts : ts.testBit 15 = false) (hw : ∀ x, wellFormed (mk x) = Wf.v3 ts false false x)
    (he : ∀ x, encode (mk x) = Enc.v3 op x) : Reads op fn imm (Rows.v3 ts mk) := by
  refine reads_eng hts (fun f => he f.v3) fun f _ _ hty hin _ hx => ?_
  simp only [Nat.or_eq_zero_iff, Rows.fn0_eq_zero, Rows.xZero_eq_zero, Rows.predT_eq_zero] at hx
  obtain ⟨⟨hfn, hx⟩, hp⟩ := hx
  refine ⟨(hw _).trans ?_, Fields.bit_fnBit (hfn.le.trans (by decide)), Fields.low_vector hty⟩
  simp [Wf.v3, Fields.v3, Fields.fnBit, hin, hfn, Fields.isZero_mode hx, Fields.predFor_of hty hp]

theorem reads_v4 {mk : V4 → Instr} (hw : ∀ x, wellFormed (mk x) = (x.t.isIn tsArith && Wf.modeFor x.t x.mode))
    (he : ∀ x, encode (mk x) = Enc.v4 op x) : Reads op fn imm (Rows.v4 mk) := by
  refine reads_eng rfl (fun f => he f.v4) fun f _ _ hty hin _ hx => ?_
  simp only [Nat.or_eq_zero_iff, Rows.fn1_eq_zero, Rows.xFloat_eq_zero] at hx
  refine ⟨(hw _).trans ?_, Fields.bit_fnBit hx.1, Fields.low_vector hty⟩
  simp [Fields.v4, hin, Fields.modeFor_of hty hx.2]

/-- Reductions: C is g0 without the accumulator. -/
theorem reads_vacc {mk : V4 → Instr} (hts : ts.testBit 15 = false)
    (hw : ∀ f : Fields, b.legal f.b = true → (f.v4.t.isIn ts && Wf.modeFor f.v4.t f.v4.mode && (f.v4.flag || f.v4.c == 0)) = true →
      wellFormed (mk f.v4) = true)
    (he : ∀ x, encode (mk x) = Enc.v4 op x) (hb : ∀ f : Fields, b.legal f.b = true → f.vb.val = f.b) :
    Reads op fn imm (Rows.vacc b ts mk) := by
  refine reads_engWith fun f hf hfn => ?_
  have ht : ts.testBit f.tEng = true := hf.type _ rfl
  have hty := Fields.code_ty hts ht
  have hx := hf.checks
  simp only [Nat.or_eq_zero_iff, Rows.fn1_eq_zero, Rows.xFloat_eq_zero] at hx
  obtain ⟨⟨hfn1, hx⟩, hc⟩ := hx
  have hacc : f.vc.val = f.c ∧ (f.fnBit || f.vc == 0) = true := by
    split at hc
    · have hzero : f.c = 0 := FieldKind.legal_zero.1 (FieldKind.cause_eq_zero.1 hc)
      have hvc : f.vc = 0 := by rw [Fields.vc, hzero]; rfl
      exact ⟨by rw [hvc, hzero]; rfl, (Bool.or_eq_true _ _).mpr (.inr (beq_iff_eq.2 hvc))⟩
    · next hodd =>
      have hbit : f.fnBit = true := beq_iff_eq.2 (Nat.mod_two_ne_zero.1 hodd)
      exact ⟨FieldKind.put_of_legal (FieldKind.cause_eq_zero.1 hc), (Bool.or_eq_true _ _).mpr (.inl hbit)⟩
  refine ⟨hw f hf.b ?_, (he _).trans (congrArg some ?_)⟩
  · rw [Bool.and_eq_true, Bool.and_eq_true]
    exact ⟨⟨Fields.isIn_ty hts ht, Fields.modeFor_of hty hx⟩, hacc.2⟩
  · rw [← hacc.1, ← hb f hf.b, ← FieldKind.put_of_legal hf.d, ← FieldKind.put_of_legal hf.a, ← Fields.low_vector hty,
      ← Fields.bit_fnBit hfn1]
    rfl

theorem reads_v2 {mk : V2 → Instr} (hts : ts.testBit 15 = false) (hw : ∀ x, wellFormed (mk x) = Wf.v2 ts false false x)
    (he : ∀ x, encode (mk x) = Enc.v2 op 0 x) : Reads op fn imm (Rows.v2 ts mk) := by
  refine reads_eng hts (fun f => he f.v2) fun f _ _ hty hin _ hx => ?_
  simp only [Nat.or_eq_zero_iff, Rows.fn0_eq_zero, Rows.xZero_eq_zero, Rows.predT_eq_zero] at hx
  obtain ⟨⟨hfn, hx⟩, hp⟩ := hx
  refine ⟨(hw _).trans ?_, (Nat.zero_add _).trans (Fields.bit_fnBit (hfn.le.trans (by decide))), Fields.low_vector hty⟩
  simp [Wf.v2, Fields.v2, Fields.fnBit, hin, hfn, Fields.isZero_mode hx, Fields.predFor_of hty hp]

/-- `vabs` and `vneg` do not saturate a float. -/
theorem reads_v2abs {mk : V2 → Instr}
    (hw : ∀ x, wellFormed (mk x) = (Wf.v2 tsArith true false x && (!x.sat || !x.t.isIn tsFloat)))
    (he : ∀ x, encode (mk x) = Enc.v2 op 0 x) : Reads op fn imm (Rows.v2abs mk) := by
  refine reads_eng rfl (fun f => he f.v2) fun f _ ht hty hin _ hx => ?_
  simp only [Nat.or_eq_zero_iff, Rows.fn1_eq_zero, Rows.xZero_eq_zero, unlessOk_causeFn] at hx
  obtain ⟨⟨hfn, hx⟩, hsat⟩ := hx
  have hsat : (!f.fnBit || !f.ty.isIn tsFloat) = true := by
    rw [Ty.isIn, hty]
    refine (Bool.or_eq_true _ _).mpr (((Bool.or_eq_true _ _).mp hsat).imp_left fun h0 => ?_)
    rw [Fields.fnBit, beq_iff_eq.1 h0]
    rfl
  refine ⟨(hw _).trans ?_, (Nat.zero_add _).trans (Fields.bit_fnBit hfn), Fields.low_vector hty⟩
  rw [Bool.and_eq_true]
  refine ⟨?_, hsat⟩
  simp [Wf.v2, Fields.v2, hin, Fields.isZero_mode hx, Fields.predFor_of hty (.inr (Fields.tEng_ne_zero rfl ht))]

theorem reads_v2math {mk : V2 → Instr} (hw : ∀ x, wellFormed (mk x) = Wf.v2 tsFloat true true x)
    (he : ∀ x, encode (mk x) = Enc.v2 op 0 x) : Reads op fn imm (Rows.v2math mk) := by
  refine reads_eng rfl (fun f => he f.v2) fun f _ ht hty hin _ hx => ?_
  refine ⟨(hw _).trans ?_, (Nat.zero_add _).trans (Fields.bit_fnBit (Rows.fn1_eq_zero.1 hx)), Fields.low_vector hty⟩
  simp [Wf.v2, Fields.v2, hin, Fields.modeFor_of hty (.inr ht), Fields.predFor_of hty (.inr (Fields.tEng_ne_zero rfl ht))]

theorem reads_vcmp {mk : VCmp → Instr} (hw : ∀ x, wellFormed (mk x) = x.t.isIn tsCmp) (he : ∀ x, encode (mk x) = Enc.vcmp fn x) :
    Reads 0x94 fn imm (Rows.vcmp mk) :=
  reads_eng rfl (fun f => he f.vcmpArg) fun _ _ _ hty hin hfn hx =>
    ⟨(hw _).trans hin, hfn.symm, Fields.low_vector_x0 hty (Rows.xZero_eq_zero.1 hx)⟩

theorem reads_vmem {mk : VMem → Instr} (hts : ts.testBit 15 = false)
    (hw : ∀ x, wellFormed (mk x) = (x.t.isIn ts && !x.sat && x.mode.isZero && Wf.predFor x.t x.pred))
    (he : ∀ x, encode (mk x) = Enc.vmem op x) : Reads op fn imm (Rows.vmem ts mk) := by
  refine reads_eng hts (fun f => he f.vmem) fun f _ _ hty hin _ hx => ?_
  simp only [Nat.or_eq_zero_iff, Rows.fn0_eq_zero, Rows.xZero_eq_zero, Rows.predT_eq_zero] at hx
  obtain ⟨⟨hfn, hx⟩, hp⟩ := hx
  refine ⟨(hw _).trans ?_, Fields.bit_fnBit (hfn.le.trans (by decide)), Fields.low_vector hty⟩
  simp [Fields.vmem, Fields.fnBit, hin, hfn, Fields.isZero_mode hx, Fields.predFor_of hty hp]

theorem reads_vidx {mk : VIdx → Instr} (hw : ∀ x, wellFormed (mk x) = x.t.isIn tsCmp) (he : ∀ x, encode (mk x) = Enc.vidx op x) :
    Reads op fn imm (Rows.vidx mk) := by
  refine reads_eng rfl (fun f => he f.vidx) fun f _ _ hty hin _ hx => ?_
  simp only [Nat.or_eq_zero_iff, Rows.fn0_eq_zero, Rows.xZero_eq_zero] at hx
  exact ⟨(hw _).trans hin, hx.1.symm, Fields.low_vector_x0 hty hx.2⟩

/-- Vector rows of FN 0 with a type of a set, x zero, and pred zero or the instruction's (R199). -/
theorem reads_engX0 {extra : Fields → Nat} {mk : Fields → Instr} {pred : Fields → Nat} (hts : ts.testBit 15 = false)
    (he : ∀ f : Fields, encode (mk f) =
      some (Enc.eng op 0 (d.put f.d) (a.put f.a) (b.put f.b) (c.put f.c) f.gates (Enc.low f.ty.code (pred f) 0)))
    (hx : ∀ f : Fields, extra f = 0 → f.fn = 0 ∧ f.x = 0 ∧ pred f = f.pred)
    (hw : ∀ f : Fields, f.ty.isIn ts = true → f.ty.code = f.tEng → ts.testBit f.tEng = true → extra f = 0 → wellFormed (mk f) = true) :
    Reads op fn imm (Rows.eng d a b c (some ts) extra mk) := by
  refine reads_eng hts he fun f _ ht hty hin _ hextra => ?_
  obtain ⟨hfn, hx0, hp⟩ := hx f hextra
  exact ⟨hw f hin hty ht hextra, hfn.symm, by rw [hp, ← Fields.p8_val, Fields.low_vector_x0 hty hx0]⟩

theorem reads_vsel : Reads 0x95 fn imm (Rows.vec 0x95 fn) := by
  refine reads_engX0 (pred := fun _ => 0) rfl (fun _ => rfl) (fun f hx => ?_) fun f hin _ _ _ => hin
  simp only [Nat.or_eq_zero_iff, Rows.fn0_eq_zero, Rows.noPredX_eq_zero] at hx
  exact ⟨hx.1, hx.2.1, hx.2.2.symm⟩

theorem reads_vbcast : Reads 0x97 fn imm (Rows.vec 0x97 fn) := by
  refine reads_engX0 rfl (fun _ => rfl) (fun f hx => ?_) fun f hin _ _ _ => hin
  simp only [Nat.or_eq_zero_iff, Rows.fn0_eq_zero, Rows.xZero_eq_zero] at hx
  exact ⟨hx.1, hx.2, Fields.p8_val⟩

theorem reads_vrot : Reads 0xA6 fn imm (Rows.vec 0xA6 fn) := by
  refine reads_engX0 rfl (fun _ => rfl) (fun f hx => ?_) fun f hin _ _ _ => hin
  simp only [Nat.or_eq_zero_iff, Rows.fn0_eq_zero, Rows.xZero_eq_zero] at hx
  exact ⟨hx.1, hx.2, Fields.p8_val⟩

/-- The element index of `vext` is below the count of elements (R204). -/
theorem reads_vext : Reads 0x98 fn imm (Rows.vec 0x98 fn) := by
  refine reads_engWith fun f hf hfn => ?_
  have ht : tsData.testBit f.tEng = true := hf.type _ rfl
  have hty := Fields.code_ty rfl ht
  have hx := hf.checks
  simp only [Nat.or_eq_zero_iff, Rows.fn0_eq_zero, Rows.noPredX_eq_zero, ht, if_true, unlessOk_causeOther, decide_eq_true_eq] at hx
  obtain ⟨⟨hfn0, hx0, hp⟩, hindex⟩ := hx
  have hval : (Fin.ofNat 128 f.c).val = f.c := Fin.val_ofNat_of_lt (hindex.trans_le (Nat.div_le_self _ _))
  refine ⟨(Bool.and_eq_true _ _).mpr ⟨Fields.isIn_ty rfl ht, decide_eq_true (hval.symm ▸ hindex)⟩, congrArg some ?_⟩
  have hlow := Fields.low_vector_x0 hty hx0
  rw [Fields.p8_val, hp] at hlow
  rw [← hlow, hfn0, FieldKind.legal_zero.1 hf.d, FieldKind.legal_zero.1 hf.b, ← FieldKind.put_of_legal hf.a]
  exact congrArg (fun c => Enc.eng 0x98 0 0 _ 0 c f.gates _) hval

theorem reads_vldf : Reads 0x9D fn imm (Rows.vec 0x9D fn) := by
  refine reads_eng rfl (fun _ => rfl) fun f _ _ hty hin _ hx => ?_
  have hfn : f.fn = 0 := Rows.fn0_eq_zero.1 hx
  have hsat : (!f.fnBit) = true := by rw [Fields.fnBit, hfn]; rfl
  exact ⟨(Bool.and_eq_true _ _).mpr ⟨hin, hsat⟩, Fields.bit_fnBit (hfn.le.trans (by decide)), Fields.low_vector hty⟩

theorem reads_vstf : Reads 0x9E fn imm (Rows.vec 0x9E fn) :=
  reads_eng rfl (fun _ => rfl) fun _ _ _ hty hin _ hx => ⟨hin, Fields.bit_fnBit (Rows.fn1_eq_zero.1 hx), Fields.low_vector hty⟩

theorem reads_vredsum : Reads 0xA1 fn imm (Rows.vec 0xA1 fn) := by
  have hvb {f : Fields} (hb : FieldKind.zero.legal f.b = true) : f.vb = 0 := by rw [Fields.vb, FieldKind.legal_zero.1 hb]; rfl
  refine reads_vacc rfl (fun f hb h => (Bool.and_eq_true _ _).mpr ⟨h, beq_iff_eq.2 (hvb hb)⟩) (fun _ => rfl) fun f hb => ?_
  rw [hvb hb, FieldKind.legal_zero.1 hb]
  rfl

theorem reads_vdot : Reads 0xA4 fn imm (Rows.vec 0xA4 fn) :=
  reads_vacc rfl (fun _ _ h => h) (fun _ => rfl) fun _ hb => FieldKind.put_of_legal hb

/-- `vcvt` holds its source type in FN, its part and its saturation in C (R205). -/
theorem reads_vcvt : Reads 0x8D fn imm (Rows.vec 0x8D fn) := by
  refine reads_engWith fun f hf hfn => ?_
  have ht : tsData.testBit f.tEng = true := hf.type _ rfl
  have hty := Fields.code_ty rfl ht
  have hx := hf.checks
  simp only [Nat.or_eq_zero_iff, unlessOk_causeFn, unlessOk_causeFnZero, unlessOk_causeZero, beq_iff_eq, decide_eq_true_eq] at hx
  obtain ⟨⟨⟨hfn4, hsrc⟩, hc⟩, hpart⟩ := hx
  rw [if_pos ((Bool.and_eq_true _ _).mpr ⟨hsrc, ht⟩), unlessOk_causeOther, decide_eq_true_eq] at hpart
  have hsrclt : f.fn / 4 < 16 := by
    by_contra hge
    rw [Nat.testBit_lt_two_pow (i := f.fn / 4) (lt_of_lt_of_le (by decide) (Nat.pow_le_pow_right (by decide) (Nat.not_lt.1 hge)))] at hsrc
    cases hsrc
  have hsrccode : (Ty.ofCode (f.fn / 4)).code = f.fn / 4 := Ty.code_ofCode_of_testBit rfl hsrclt hsrc
  have hfnval : (Ty.ofCode (f.fn / 4)).code * 4 = f.fn := by omega
  have hcval : f.c / 2 % 8 * 2 + Enc.bit (f.c % 2 == 1) = f.c := by
    rw [Enc.bit_of_beq_one (Nat.mod_lt _ (by decide))]
    omega
  refine ⟨?_, congrArg some ?_⟩
  · exact (Bool.and_eq_true _ _).mpr ⟨(Bool.and_eq_true _ _).mpr ⟨Fields.isIn_ty rfl ht, isIn_ofCode rfl hsrclt hsrc⟩, decide_eq_true hpart⟩
  · rw [← Fields.low_vector hty, FieldKind.legal_zero.1 hf.b, ← FieldKind.put_of_legal hf.d, ← FieldKind.put_of_legal hf.a]
    exact congrArg₂ (fun n c => Enc.eng 0x8D n _ _ 0 c f.gates _) hfnval hcval

/-! ### Mask rows and vector rows with other immediates (R209, R210, R214 to R216) -/

/-- What well-formedness asks of a mask that a row's field may not name. -/
def maskFits (k : FieldKind) (m : MReg) : Bool :=
  match k with
  | .zero => m == 0
  | _ => true

theorem maskFits_of_legal {k : FieldKind} {v : Nat} (hk : k = .mask ∨ k = .zero) (h : k.legal v = true) :
    maskFits k (Fin.ofNat 8 v) = true ∧ (Fin.ofNat 8 v).val = v := by
  obtain rfl | rfl := hk
  · exact ⟨rfl, FieldKind.put_of_legal h⟩
  · obtain rfl := FieldKind.legal_zero.1 h
    exact ⟨rfl, rfl⟩

/-- Mask rows: T, pred and x are zero, and FN is the function. -/
theorem reads_mask {n : Nat} {extra : Fields → Nat} {mk : MaskArg → Instr} (hd : d = .mask ∨ d = .zero)
    (hb : b = .mask ∨ b = .zero) (hx : ∀ f : Fields, f.fn = fn → extra f = 0 → n = fn)
    (hw : ∀ x, wellFormed (mk x) = (maskFits d x.d && maskFits b x.b)) (he : ∀ x, encode (mk x) = Enc.maskw op n x) :
    Reads op fn imm (Rows.mask d .mask b extra mk) := by
  refine reads_engWith fun f hf hfn => ?_
  have hchecks := hf.checks
  simp only [Nat.or_eq_zero_iff, Rows.xZero_eq_zero, Rows.predNone_eq_zero] at hchecks
  obtain ⟨⟨hx0, hp⟩, hextra⟩ := hchecks
  have ht : f.tEng = 0 := (typePut_of_testBit (ts := 1) rfl (bitsOf_lt f.w 5 4) (hf.type _ rfl)).symm
  have hlow : f.low = 0 := by rw [Fields.low_eq_vector, ht, hp, hx0]; rfl
  obtain ⟨hdfits, hdval⟩ := maskFits_of_legal hd hf.d
  obtain ⟨hbfits, hbval⟩ := maskFits_of_legal hb hf.b
  refine ⟨(hw _).trans ((Bool.and_eq_true _ _).mpr ⟨hdfits, hbfits⟩), (he _).trans (congrArg some ?_)⟩
  have haval : f.ma.val = f.a := FieldKind.put_of_legal hf.a
  rw [hlow, FieldKind.legal_zero.1 hf.c, hx f hfn hextra, hfn, ← haval]
  exact congrArg₂ (fun d b => Enc.eng op fn d f.ma.val b 0 f.gates 0) hdval hbval

theorem reads_vmovGm : Reads 0x96 1 imm (Rows.vec 0x96 1) := by
  refine reads_engPut (fun _ => rfl) fun f hf hfn => ?_
  have hx := Rows.noPredX_eq_zero.1 hf.checks
  have ht : f.tEng = 0 := (typePut_of_testBit (ts := 1) rfl (bitsOf_lt f.w 5 4) (hf.type _ rfl)).symm
  exact ⟨rfl, hfn.symm, by rw [Fields.low_eq_vector, ht, hx.1, hx.2]; rfl⟩

theorem bit_x_mod {f : Fields} (h : f.x ≤ 1) : Enc.bit (f.x % 2 == 1) = f.x := by
  rw [Nat.mod_eq_of_lt (Nat.lt_succ_of_le h)]
  exact Enc.bit_of_beq_one (Nat.lt_succ_of_le h)

theorem reads_vpack : Reads 0x9F fn imm (Rows.vec 0x9F fn) := by
  refine reads_engPut (fun _ => rfl) fun f hf hfn => ?_
  have hx := hf.checks
  simp only [Nat.or_eq_zero_iff, Rows.fn1_eq_zero, Rows.predNone_eq_zero, unlessOk_causeOther, decide_eq_true_eq] at hx
  obtain ⟨⟨hfn1, hp⟩, hx1⟩ := hx
  have ht : f.tEng = 14 := (typePut_of_testBit (ts := 0x4000) rfl (bitsOf_lt f.w 5 4) (hf.type _ rfl)).symm
  refine ⟨rfl, Fields.bit_fnBit hfn1, ?_⟩
  rw [Fields.low_eq_vector, ht, hp]
  exact congrArg (Enc.low 14 0) (bit_x_mod hx1)

theorem reads_vunpk : Reads 0xA0 fn imm (Rows.vec 0xA0 fn) := by
  refine reads_engPut (fun _ => rfl) fun f hf hfn => ?_
  have hx := hf.checks
  simp only [Nat.or_eq_zero_iff, Rows.fn0_eq_zero, Rows.predNone_eq_zero, unlessOk_causeOther, decide_eq_true_eq] at hx
  obtain ⟨⟨hfn0, hp⟩, hx1⟩ := hx
  have ht : f.tEng = 11 := (typePut_of_testBit (ts := 0x800) rfl (bitsOf_lt f.w 5 4) (hf.type _ rfl)).symm
  have hb : (f.vb == 0) = true := by rw [Fields.vb, FieldKind.legal_zero.1 hf.b]; rfl
  have hsat : (!f.fnBit) = true := by rw [Fields.fnBit, hfn0]; rfl
  refine ⟨(Bool.and_eq_true _ _).mpr ⟨hb, hsat⟩, hfn0.symm, ?_⟩
  rw [Fields.low_eq_vector, ht, hp]
  exact congrArg (Enc.low 11 0) (bit_x_mod hx1)

/-- `vtopk` and `vsig` hold a literal in C; their type is fixed. -/
theorem vlit_word {t : Nat} {f : Fields} (ht : f.tEng = t) (hx : f.x = 0) (hfn : f.fn = 0) (hc : f.c < 128) (hd : f.vd.val = f.d)
    (ha : f.va.val = f.a) (hb : f.vb.val = f.b) : Enc.vlit op t f.vlit = some (Enc.eng op f.fn f.d f.a f.b f.c f.gates f.low) := by
  have hlit : f.vlit.lit.val = f.c := Fin.val_ofNat_of_lt hc
  rw [Fields.low_eq_vector, ht, hx, hfn, ← hd, ← ha, ← hb, ← hlit, ← Fields.p8_val]
  rfl

theorem reads_vtopk : Reads 0xA7 fn imm (Rows.vec 0xA7 fn) := by
  refine reads_engWith fun f hf hfn => ?_
  have hx := hf.checks
  simp only [Nat.or_eq_zero_iff, Rows.fn0_eq_zero, Rows.xZero_eq_zero, unlessOk_causeOther, Bool.and_eq_true, decide_eq_true_eq] at hx
  obtain ⟨⟨hfn0, hx0⟩, hlo, hhi⟩ := hx
  have ht : f.tEng = 11 := (typePut_of_testBit (ts := 0x800) rfl (bitsOf_lt f.w 5 4) (hf.type _ rfl)).symm
  have hd : f.vd.val = f.d := FieldKind.put_of_legal hf.d
  have heven : f.d % 2 = 0 := beq_iff_eq.1 ((Bool.and_eq_true _ _).mp hf.d).2
  have hlit : (Fin.ofNat 128 f.c).val = f.c := Fin.val_ofNat_of_lt (by omega)
  refine ⟨?_, vlit_word ht hx0 hfn0 (by omega) hd (FieldKind.put_of_legal hf.a) (FieldKind.put_of_legal hf.b)⟩
  show (decide (1 ≤ (Fin.ofNat 128 f.c).val) && decide ((Fin.ofNat 128 f.c).val ≤ 32) && decide (f.vd.val % 2 = 0)) = true
  rw [hlit, hd, decide_eq_true hlo, decide_eq_true hhi, decide_eq_true heven]
  rfl

theorem reads_vsig : Reads 0xA8 fn imm (Rows.vec 0xA8 fn) := by
  refine reads_engWith fun f hf hfn => ?_
  have hx := hf.checks
  simp only [Nat.or_eq_zero_iff, Rows.fn0_eq_zero, Rows.xZero_eq_zero, unlessOk_causeZero, decide_eq_true_eq] at hx
  obtain ⟨⟨hfn0, hx0⟩, hhi⟩ := hx
  have ht : f.tEng = 10 := (typePut_of_testBit (ts := 0x400) rfl (bitsOf_lt f.w 5 4) (hf.type _ rfl)).symm
  have hzero := FieldKind.legal_zero.1 hf.b
  have hb : f.vb = 0 := by rw [Fields.vb, hzero]; rfl
  have hlit : (Fin.ofNat 128 f.c).val = f.c := Fin.val_ofNat_of_lt (by omega)
  exact ⟨(Bool.and_eq_true _ _).mpr ⟨decide_eq_true (hlit.symm ▸ hhi), beq_iff_eq.2 hb⟩,
    vlit_word ht hx0 hfn0 (by omega) (FieldKind.put_of_legal hf.d) (FieldKind.put_of_legal hf.a) (by rw [hb, hzero]; rfl)⟩

/-- Mask rows that take FN 0. -/
theorem reads_mask0 {mk : MaskArg → Instr} (hd : d = .mask ∨ d = .zero) (hb : b = .mask ∨ b = .zero)
    (hw : ∀ x, wellFormed (mk x) = (maskFits d x.d && maskFits b x.b)) (he : ∀ x, encode (mk x) = Enc.maskw op 0 x) :
    Reads op fn imm (Rows.mask d .mask b Rows.fn0 mk) :=
  reads_mask hd hb (fun _ hfn hx => (Rows.fn0_eq_zero.1 hx).symm.trans hfn) hw he

theorem reads_vec : Reads op fn imm (Rows.vec op fn) := by
  unfold Rows.vec
  split
  case h_21 =>
    split
    all_goals apply_rules [reads_vcmp, reads_none, rfl]
  case h_23 =>
    split
    · exact reads_v2 rfl (fun _ => rfl) fun _ => rfl
    · exact reads_vmovGm
    · exact reads_mask (.inl rfl) (.inr rfl) (fun _ _ _ => rfl) (fun _ => rfl) fun _ => rfl
    · exact reads_mask (.inr rfl) (.inr rfl) (fun _ _ _ => rfl) (fun _ => rfl) fun _ => rfl
    · exact reads_none
  case h_42 | h_43 => exact reads_mask0 (.inl rfl) (.inl rfl) (fun _ => rfl) fun _ => rfl
  case h_44 => exact reads_mask0 (.inl rfl) (.inr rfl) (fun _ => rfl) fun _ => rfl
  case h_45 | h_46 => exact reads_mask0 (.inr rfl) (.inr rfl) (fun _ => rfl) fun _ => rfl
  all_goals apply_rules [reads_v3sat, reads_v4, reads_v3, reads_v2abs, reads_v2math, reads_v2, reads_vmem, reads_vidx, reads_vcvt,
    reads_vsel, reads_vbcast, reads_vext, reads_vldf, reads_vstf, reads_vpack, reads_vunpk, reads_vredsum, reads_vdot, reads_vrot,
    reads_vtopk, reads_vsig, reads_none, rfl]

/-! ### Matrix rows (R219, R220, R227, R233 to R236, R240) -/

theorem bit_eq_zero {b : Bool} : Enc.bit b = 0 ↔ b = false := by cases b <;> decide

/-- The matrix immediate is written as it was read. -/
theorem Fields.low_matrix {f : Fields} (ht : (Ty.ofCode f.tEng).code = f.tEng) :
    Enc.mlow f.matT f.bx f.h f.msat f.mode = f.low := by
  rw [Fields.low_eq_matrix, Enc.mlow, Fields.code_mode, Fields.matT, ht]

theorem RMode.code_eq_zero {m : RMode} : m.code = 0 ↔ m = .rne := by cases m <;> decide

theorem mat_zero_bits {f : Fields} (h : bitsOf f.w 0 3 = 0) : f.msat = false ∧ f.mode = .rne := by
  rw [Fields.bits_0_3] at h
  exact ⟨bit_eq_zero.1 (by omega), RMode.code_eq_zero.1 (Fields.code_mode.trans (by omega))⟩

theorem mat_zero_mid {f : Fields} (h : bitsOf f.w 3 2 = 0) : f.bx = false ∧ f.h = false := by
  rw [Fields.bits_3_2] at h
  exact ⟨bit_eq_zero.1 (by omega), bit_eq_zero.1 (by omega)⟩

/-- Products take a type, an h and a bx that R219 allows, and no sat and no mode. -/
theorem mmul_of_cause {f : Fields} (h : Rows.mmulCause f = 0) : Wf.mmul f.mmul = true ∧ Enc.mlow f.matT f.bx f.h false .rne = f.low := by
  simp only [Rows.mmulCause, Nat.or_eq_zero_iff, unlessOk_causeZero, unlessOk_causeOther, beq_iff_eq] at h
  obtain ⟨⟨hzero, ht⟩, hbx⟩ := h
  obtain ⟨hsat, hmode⟩ := mat_zero_bits hzero
  have hlt : f.tEng < 16 := bitsOf_lt f.w 5 4
  have hcode : (Ty.ofCode f.tEng).code = f.tEng := by
    split at ht
    · next h => exact Ty.code_ofCode_of_testBit rfl hlt h
    · exact Ty.code_ofCode_of_testBit rfl hlt ((Bool.and_eq_true _ _).mp ht).1
  have hlow := f.low_matrix hcode
  rw [hsat, hmode] at hlow
  refine ⟨?_, hlow⟩
  show ((if (Ty.ofCode f.tEng).isIn 0x600 then f.td.half != .full || !f.h else (Ty.ofCode f.tEng).isIn 0x7000 && !f.h)
    && (!f.bx || (Ty.ofCode f.tEng).isIn 0x3000)) = true
  simp only [Ty.isIn, hcode]
  exact (Bool.and_eq_true _ _).mpr ⟨ht, hbx⟩

/-- The fields z and k of a product in FN (R220). -/
theorem bit_z_k {f : Fields} (h : f.fn < 32) : Enc.bit (f.fn / 16 % 2 == 1) * 16 + f.fn % 16 = f.fn := by
  rw [Enc.bit_of_beq_one (Nat.mod_lt _ (by decide))]
  omega

theorem reads_mma {mk : MMul → Instr} (hw : ∀ x, wellFormed (mk x) = Wf.mmul x) (he : ∀ x, encode (mk x) = Enc.mmul op x) :
    Reads op fn imm (Rows.eng .tile .greg .greg .greg none (fun f => Rows.mmulCause f ||| unlessOk (decide (f.fn < 32)) causeFn)
      fun f => mk f.mmul) := by
  refine reads_engPut (fun f => he f.mmul) fun f hf _ => ?_
  obtain ⟨hcause, hfn⟩ := Nat.or_eq_zero_iff.1 hf.checks
  obtain ⟨hmmul, hlow⟩ := mmul_of_cause hcause
  exact ⟨(hw _).trans hmmul, bit_z_k (of_decide_eq_true (unlessOk_causeFn.1 hfn)), hlow⟩

theorem reads_mmv : Reads 0xC4 fn imm (Rows.mat 0xC4 fn) := by
  refine reads_engPut (fun _ => rfl) fun f hf _ => ?_
  obtain ⟨hcause, hfn⟩ := Nat.or_eq_zero_iff.1 hf.checks
  obtain ⟨hmmul, hlow⟩ := mmul_of_cause hcause
  have hfn : f.fn = 0 ∨ f.fn = 16 := by simpa using hfn
  have hk : (Fin.ofNat 16 f.fn == 0) = true := by obtain h | h := hfn <;> rw [h] <;> rfl
  exact ⟨(Bool.and_eq_true _ _).mpr ⟨hmmul, hk⟩, bit_z_k (by omega), hlow⟩

theorem reads_mmz : Reads 0xC0 fn imm (Rows.mat 0xC0 fn) := by
  refine reads_engPut (fun _ => rfl) fun f hf _ => ?_
  obtain ⟨hfn, hlow⟩ := Nat.or_eq_zero_iff.1 hf.checks
  exact ⟨rfl, (Rows.fn0_eq_zero.1 hfn).symm, (beq_iff_eq.1 (unlessOk_causeZero.1 hlow)).symm⟩

/-- Whether a tile is full decides the types that `mld` and `mst` take (R233, R234). -/
theorem isIn_of_half {f : Fields} {full half : Nat} (hf : full.testBit 15 = false) (hh : half.testBit 15 = false)
    (h : (if f.td.half = .full then full else half).testBit f.tEng = true) : (Ty.ofCode f.tEng).code = f.tEng ∧
      (if f.td.half == .full then f.matT.isIn full else f.matT.isIn half) = true := by
  have hlt : f.tEng < 16 := bitsOf_lt f.w 5 4
  split at h
  · next hfull => exact ⟨Ty.code_ofCode_of_testBit hf hlt h, by rw [if_pos (beq_iff_eq.2 hfull)]; exact isIn_ofCode hf hlt h⟩
  · next hne => exact ⟨Ty.code_ofCode_of_testBit hh hlt h, by rw [if_neg (fun h => hne (beq_iff_eq.1 h))]; exact isIn_ofCode hh hlt h⟩

theorem reads_mld : Reads 0xC2 fn imm (Rows.mat 0xC2 fn) := by
  refine reads_engPut (fun _ => rfl) fun f hf _ => ?_
  have hx := hf.checks
  simp only [Nat.or_eq_zero_iff, Rows.fn0_eq_zero, unlessOk_causeZero, unlessOk_causeOther, beq_iff_eq] at hx
  obtain ⟨⟨hfn, hzero⟩, ht⟩ := hx
  rw [Fields.bits_0_5] at hzero
  obtain ⟨hsat, hmode⟩ := mat_zero_bits (f := f) (by omega)
  obtain ⟨hbx, hh⟩ := mat_zero_mid (f := f) (by omega)
  obtain ⟨hcode, hin⟩ := isIn_of_half rfl rfl ht
  have hlow := f.low_matrix hcode
  rw [hbx, hh] at hlow
  refine ⟨(Bool.and_eq_true _ _).mpr ⟨?_, hin⟩, hfn.symm, hlow⟩
  show (!f.msat && f.mode.isZero) = true
  rw [hsat, hmode]
  rfl

theorem reads_mst : Reads 0xC3 fn imm (Rows.mat 0xC3 fn) := by
  refine reads_engPut (fun _ => rfl) fun f hf _ => ?_
  have hx := hf.checks
  simp only [Nat.or_eq_zero_iff, Rows.fn0_eq_zero, unlessOk_causeZero, unlessOk_causeOther, beq_iff_eq] at hx
  obtain ⟨⟨⟨hfn, hzero⟩, ht⟩, hround⟩ := hx
  obtain ⟨hbx, hh⟩ := mat_zero_mid hzero
  obtain ⟨hcode, hin⟩ := isIn_of_half rfl rfl ht
  have hlow := f.low_matrix hcode
  rw [hbx, hh] at hlow
  refine ⟨(Bool.and_eq_true _ _).mpr ⟨hin, ?_⟩, hfn.symm, hlow⟩
  show (!(f.matT == .f32 || f.td.half != .full) || (!f.msat && f.mode.isZero)) = true
  obtain h0 | hfull := (Bool.or_eq_true _ _).mp hround
  · obtain ⟨hsat, hmode⟩ := mat_zero_bits (beq_iff_eq.1 h0)
    rw [hsat, hmode]
    exact Bool.or_true _
  · obtain ⟨ht11, hfull⟩ := (Bool.and_eq_true _ _).mp hfull
    have hf32 : (f.matT == .f32) = false :=
      beq_eq_false_iff_ne.2 fun h => bne_iff_ne.1 ht11 (hcode.symm.trans (congrArg Ty.code h))
    have hhalf : (f.td.half != .full) = false := by rw [beq_iff_eq.1 hfull]; rfl
    rw [hf32, hhalf]
    rfl

theorem reads_mdir : Reads 0xC6 fn imm (Rows.mat 0xC6 fn) := by
  refine reads_engWith fun f hf hfn => ?_
  have ht : tsMat.testBit f.tEng = true := hf.type _ rfl
  obtain ⟨hfn1, hzero⟩ := Nat.or_eq_zero_iff.1 hf.checks
  have hfn1 := Rows.fn1_eq_zero.1 hfn1
  have hzero : bitsOf f.w 0 5 = 0 := beq_iff_eq.1 (unlessOk_causeZero.1 hzero)
  rw [Fields.bits_0_5] at hzero
  obtain ⟨hsat, hmode⟩ := mat_zero_bits (f := f) (by omega)
  obtain ⟨hbx, hh⟩ := mat_zero_mid (f := f) (by omega)
  have hlow := f.low_matrix (Fields.code_ty rfl ht)
  rw [hbx, hh, hsat, hmode] at hlow
  have hin : f.matT.isIn tsMat = true := Fields.isIn_ty rfl ht
  rw [← hlow, FieldKind.legal_zero.1 hf.d, FieldKind.legal_zero.1 hf.b, FieldKind.legal_zero.1 hf.c, ← FieldKind.put_of_legal hf.a]
  obtain h0 | h1 : f.fn = 0 ∨ f.fn = 1 := by omega
  · obtain rfl : fn = 0 := hfn.symm.trans h0
    rw [h0]
    exact ⟨hin, rfl⟩
  · obtain rfl : fn = 1 := hfn.symm.trans h1
    rw [h1]
    exact ⟨hin, rfl⟩

theorem reads_mscl {mk : Fields → Instr} (hw : ∀ f : Fields, wellFormed (mk f) = (!f.h || f.td.half != .full))
    (he : ∀ f : Fields, encode (mk f) = some (Enc.eng op fn (FieldKind.tile.put f.d) (a.put f.a) 0 0 f.gates
      (Enc.mlow .none false f.h f.msat f.mode))) : Reads op fn imm (Rows.mscl a mk) := by
  refine reads_engPut (FN := fun _ => fn) he fun f hf hfn => ?_
  obtain ⟨hzero, hh⟩ := Nat.or_eq_zero_iff.1 hf.checks
  obtain ⟨ht, hbx⟩ := (Bool.and_eq_true _ _).mp (unlessOk_causeZero.1 hzero)
  have ht : f.tEng = 0 := beq_iff_eq.1 ht
  have hbx : f.bx = false := by simpa using hbx
  refine ⟨(hw f).trans (unlessOk_causeOther.1 hh), hfn.symm, ?_⟩
  rw [← f.low_matrix (by rw [ht]; rfl), hbx, Fields.matT, ht]
  rfl

theorem reads_mrdRow {mk : MRd → Instr} (hw : ∀ x, wellFormed (mk x) = true)
    (he : ∀ x : MRd, encode (mk x) = some (Enc.eng op fn x.d.val x.a.code 0 x.i.val x.gates 0)) :
    Reads op fn imm (Rows.mrdRow mk) := by
  refine reads_engWith fun f hf hfn => ⟨hw _, (he _).trans (congrArg some ?_)⟩
  obtain ⟨hlow, hc⟩ := (Bool.and_eq_true _ _).mp (unlessOk_causeZero.1 hf.checks)
  have hval : (Fin.ofNat 32 f.c).val = f.c := Fin.val_ofNat_of_lt (Nat.lt_succ_of_le (of_decide_eq_true hc))
  have hd : f.vd.val = f.d := FieldKind.put_of_legal hf.d
  have ha : f.ta.code = f.a := FieldKind.put_of_legal hf.a
  rw [beq_iff_eq.1 hlow, hfn, FieldKind.legal_zero.1 hf.b, ← hd, ← ha]
  exact congrArg (fun c => Enc.eng op fn f.vd.val f.ta.code 0 c f.gates 0) hval

theorem reads_mrdEl : Reads 0xC8 2 imm (Rows.mat 0xC8 2) := by
  refine reads_engPut (fun _ => rfl) fun f hf hfn => ?_
  obtain ⟨hzero, hh⟩ := Nat.or_eq_zero_iff.1 hf.checks
  obtain ⟨hhi, hlo⟩ := (Bool.and_eq_true _ _).mp (unlessOk_causeZero.1 hzero)
  have hhi : bitsOf f.w 4 5 = 0 := beq_iff_eq.1 hhi
  rw [Fields.bits_4_5] at hhi
  obtain ⟨hsat, hmode⟩ := mat_zero_bits (beq_iff_eq.1 hlo)
  have ht : f.tEng = 0 := by omega
  have hbx : f.bx = false := bit_eq_zero.1 (by omega)
  refine ⟨unlessOk_causeOther.1 hh, hfn.symm, ?_⟩
  rw [← f.low_matrix (by rw [ht]; rfl), hbx, hsat, hmode, Fields.matT, ht]
  rfl

theorem reads_mat : Reads op fn imm (Rows.mat op fn) := by
  unfold Rows.mat
  split
  case h_8 =>
    split
    all_goals apply_rules [reads_mscl, reads_none, rfl]
  case h_9 =>
    split
    all_goals apply_rules [reads_mrdRow, reads_mrdEl, reads_none, rfl]
  all_goals apply_rules [reads_mmz, reads_mma, reads_mld, reads_mst, reads_mmv, reads_mdir, reads_none, rfl]

/-! ### Copy, gate and attention rows (R99, R109, R259) -/

/-- Copies whose operation has no bits of its own. -/
theorem reads_copy {mk : CopyArg → Decoded} (hc : c = .zero ∨ c = .greg ∨ c = .pair)
    (hw : ∀ x : CopyArg, (c = .zero → x.c = 0) → (c = .pair → x.c.val ≤ 62) → wellFormed (mk x).toInstr = true)
    (he : ∀ x : CopyArg, encode (mk x).toInstr = some (Enc.eng op fn x.d.val x.a.val x.b.val x.c.val x.gates (Enc.spaces x.dsp x.ssp 0))) :
    Reads op fn imm (Rows.engD .greg .greg .greg c (fun f => unlessOk (f.op7 == 0) causeZero) fun f => mk f.copyArg) := by
  refine reads_engWith fun f hf hfn => ?_
  have hop : f.op7 = 0 := beq_iff_eq.1 (unlessOk_causeZero.1 hf.checks)
  have hval : f.gc.val = f.c ∧ (c = .zero → f.gc = 0) ∧ (c = .pair → f.gc.val ≤ 62) := by
    have hl := hf.c
    obtain rfl | rfl | rfl := hc
    · have hzero := FieldKind.legal_zero.1 hl
      have hgc : f.gc = 0 := by rw [Fields.gc, hzero]; rfl
      exact ⟨by rw [hgc, hzero]; rfl, fun _ => hgc, nofun⟩
    · exact ⟨FieldKind.put_of_legal hl, nofun, nofun⟩
    · have hgc : f.gc.val = f.c := FieldKind.put_of_legal hl
      exact ⟨hgc, nofun, fun _ => hgc.le.trans (of_decide_eq_true hl)⟩
  refine ⟨hw _ hval.2.1 hval.2.2, (he _).trans (congrArg some ?_)⟩
  rw [Fields.low_eq_copy, hop, hfn, ← hval.1, ← FieldKind.put_of_legal hf.d, ← FieldKind.put_of_legal hf.a,
    ← FieldKind.put_of_legal hf.b]
  rfl

theorem reads_cpyc : Reads 0xE2 0 imm (Rows.copy 0xE2 0) := by
  refine reads_engPut (fun _ => rfl) fun f hf hfn => ⟨rfl, hfn.symm, ?_⟩
  have hop : f.op7 < 8 := of_decide_eq_true (unlessOk_causeZero.1 hf.checks)
  have hval : Enc.bit f.msat * 4 + f.mode.code = f.op7 := by
    rw [Fields.op7_eq] at hop ⊢
    rw [Fields.code_mode]
    omega
  rw [Fields.low_eq_copy, ← hval]
  rfl

theorem reads_cfill : Reads 0xE3 0 imm (Rows.copy 0xE3 0) := by
  refine reads_engPut (fun _ => rfl) fun f hf hfn => ⟨rfl, hfn.symm, ?_⟩
  obtain ⟨hop, hssp⟩ := (Bool.and_eq_true _ _).mp (unlessOk_causeZero.1 hf.checks)
  have hop : f.op7 < 4 := of_decide_eq_true hop
  have hssp : f.ssp = false := by simpa using hssp
  have hval : (Fin.ofNat 4 f.x).val = f.op7 := by
    have hx : f.x < 4 := bitsOf_lt f.w 0 2
    rw [Fields.op7_eq] at hop ⊢
    rw [Fin.val_ofNat_of_lt hx]
    omega
  rw [Fields.low_eq_copy, hssp, ← hval]
  rfl

/-- Gate rows: a gate of 0 to 31, C zero, and an immediate that is zero but for the phase of `gwt` (R109). -/
theorem reads_gatew {allowed : Nat} {mk : Fields → Decoded} {LOW : Fields → Nat}
    (hlow : ∀ f : Fields, f.imm16 = 0 ∨ f.imm16 = allowed → LOW f = f.imm16)
    (hw : ∀ f : Fields, wellFormed (mk f).toInstr = true)
    (he : ∀ f : Fields, encode (mk f).toInstr =
      some (Enc.gatew op fn (d.put f.d) (a.put f.a) (b.put f.b) (Fin.ofNat 32 f.gate).val (LOW f))) :
    Reads op fn imm (Rows.gatew d a b allowed mk) := by
  rintro r ⟨⟩ f hfn - hcause
  obtain ⟨hd, ha, -, -, -, -, -, hx⟩ := Row.cause_eq_zero.1 hcause
  simp only [Nat.or_eq_zero_iff, FieldKind.cause_eq_zero, unlessOk_causeZero, unlessOk_causeOperand, Bool.or_eq_true, beq_iff_eq,
    decide_eq_true_eq] at hx
  obtain ⟨⟨⟨hb, hc⟩, hgate⟩, himm⟩ := hx
  refine ⟨hw f, (he f).trans (congrArg some ?_)⟩
  rw [FieldKind.put_of_legal hd, FieldKind.put_of_legal ha, FieldKind.put_of_legal hb, Fin.val_ofNat_of_lt (by omega), hlow f himm,
    Fields.word, hc, Nat.zero_mul, Nat.add_zero, ← hfn, Enc.gatew]

/-- The phase of `gwt` is bit 9 of the immediate (R110). -/
theorem bit_phase {n : Nat} (h : n = 0 ∨ n = 0x200) : Enc.bit (n != 0) * 0x200 = n := by
  obtain rfl | rfl := h <;> rfl

theorem reads_copyRows : Reads op fn imm (Rows.copy op fn) := by
  have hzero (f : Fields) (h : f.imm16 = 0 ∨ f.imm16 = 0) : 0 = f.imm16 := (or_self_iff.1 h).symm
  unfold Rows.copy
  split
  case h_1 => exact reads_copy (.inl rfl) (fun _ h _ => beq_iff_eq.2 (h rfl)) fun _ => rfl
  case h_2 => exact reads_copy (.inr (.inl rfl)) (fun _ _ _ => rfl) fun _ => rfl
  case h_3 => exact reads_copy (.inr (.inr rfl)) (fun _ _ h => decide_eq_true (h rfl)) fun _ => rfl
  case h_4 => exact reads_cpyc
  case h_5 => exact reads_cfill
  case h_6 | h_7 | h_8 | h_10 => exact reads_gatew hzero (fun _ => rfl) fun _ => rfl
  case h_9 =>
    exact reads_gatew (LOW := fun f => Enc.bit (f.imm16 != 0) * 0x200) (fun _ h => bit_phase h) (fun _ => rfl) fun _ => rfl
  case h_11 => exact reads_none

/-- A field that is zero or names g0 to g63 is written as it was read, and a zero field is g0. -/
theorem greg_of_legal {k : FieldKind} {v : Nat} (hk : k = .zero ∨ k = .greg) (h : k.legal v = true) :
    (Fin.ofNat 64 v).val = v ∧ (k = .zero → Fin.ofNat 64 v = 0) := by
  obtain rfl | rfl := hk
  · obtain rfl := FieldKind.legal_zero.1 h
    exact ⟨rfl, fun _ => rfl⟩
  · exact ⟨FieldKind.put_of_legal h, nofun⟩

/-- Attention rows without a literal: the immediate is zero, and a zero field is written as g0. -/
theorem reads_att {extra : Fields → Nat} {mk : AttArg → Decoded} (hd : d = .zero ∨ d = .greg) (hc : c = .zero ∨ c = .greg)
    (hw : ∀ f : Fields, (d = .zero → f.gd = 0) → (c = .zero → f.gc = 0) → extra f = 0 → wellFormed (mk f.attArg).toInstr = true)
    (he : ∀ x : AttArg, encode (mk x).toInstr = Enc.att op fn x) :
    Reads op fn imm (Rows.att d .greg .greg c extra fun f => mk f.attArg) := by
  refine reads_engWith fun f hf hfn => ?_
  obtain ⟨hlow, hx⟩ := Nat.or_eq_zero_iff.1 hf.checks
  obtain ⟨hdval, hdzero⟩ := greg_of_legal hd hf.d
  obtain ⟨hcval, hczero⟩ := greg_of_legal hc hf.c
  have ha : f.ga.val = f.a := FieldKind.put_of_legal hf.a
  have hb : f.gb.val = f.b := FieldKind.put_of_legal hf.b
  refine ⟨hw f hdzero hczero hx, (he _).trans (congrArg some ?_)⟩
  rw [beq_iff_eq.1 (unlessOk_causeZero.1 hlow), hfn, ← ha, ← hb]
  exact congrArg₂ (fun d c => Enc.eng op fn d f.ga.val f.gb.val c f.gates 0) hdval hcval

theorem reads_pjld : Reads 0xF0 0 imm (Rows.attn 0xF0 0) := by
  refine reads_engPut (fun _ => rfl) fun f hf hfn => ⟨rfl, hfn.symm, ?_⟩
  exact (beq_iff_eq.1 (unlessOk_causeZero.1 (Nat.or_eq_zero_iff.1 hf.checks).1)).symm

/-- `bgat` waits on no gate (R258). -/
theorem wait_eq_none {f : Fields} (h : unlessOk (f.gate == 63) causeOther = 0) : (f.gates.wait == none) = true := by
  rw [beq_iff_eq, Fields.gates, if_pos (beq_iff_eq.1 (unlessOk_causeOther.1 h))]

/-- The dcode of `psum` and `pbnd` is the immediate (R255, R256). -/
theorem dcode_of {f : Fields} (hlow : f.low / 4 = 0) (hx : f.x ≠ 3) : (Fin.ofNat 3 f.x).val = f.low := by
  have hlt : f.x < 4 := bitsOf_lt f.w 0 2
  have heq := f.low_eq_vector
  rw [Fin.val_ofNat_of_lt (by omega)]
  simp only [Enc.low] at heq
  omega

theorem reads_psum : Reads 0xF4 0 imm (Rows.attn 0xF4 0) := by
  refine reads_engWith fun f hf hfn => ⟨rfl, congrArg some ?_⟩
  have hx := hf.checks
  simp only [Nat.or_eq_zero_iff, unlessOk_causeZero, unlessOk_causeOther, beq_iff_eq, bne_iff_ne, decide_eq_true_eq] at hx
  obtain ⟨⟨hlow, hx⟩, hc⟩ := hx
  have hrows : (Fin.ofNat 16 f.c).val = f.c := Fin.val_ofNat_of_lt hc
  have hd : f.gd.val = f.d := FieldKind.put_of_legal hf.d
  have ha : f.ga.val = f.a := FieldKind.put_of_legal hf.a
  rw [hfn, FieldKind.legal_zero.1 hf.b, ← hd, ← ha]
  exact congrArg₂ (fun c low => Enc.eng 0xF4 0 f.gd.val f.ga.val 0 c f.gates low) hrows (dcode_of hlow hx)

theorem reads_pbnd : Reads 0xF5 0 imm (Rows.attn 0xF5 0) := by
  refine reads_engWith fun f hf hfn => ⟨rfl, congrArg some ?_⟩
  have hx := hf.checks
  simp only [Nat.or_eq_zero_iff, unlessOk_causeZero, unlessOk_causeOther, beq_iff_eq, bne_iff_ne] at hx
  obtain ⟨⟨hlow, hx⟩, -⟩ := hx
  have heven : f.d ≤ 30 ∧ f.d % 2 = 0 := by simpa [FieldKind.legal] using hf.d
  have hhalf : (Fin.ofNat 16 (f.d / 2)).val * 2 = f.d := by
    rw [Fin.val_ofNat_of_lt (by omega)]
    omega
  have ha : f.ga.val = f.a := FieldKind.put_of_legal hf.a
  have hb : f.gb.val = f.b := FieldKind.put_of_legal hf.b
  have hc : f.gc.val = f.c := FieldKind.put_of_legal hf.c
  rw [hfn, ← ha, ← hb, ← hc]
  exact congrArg₂ (fun d low => Enc.eng 0xF5 0 d f.ga.val f.gb.val f.gc.val f.gates low) hhalf (dcode_of hlow hx)

theorem reads_attn : Reads op fn imm (Rows.attn op fn) := by
  unfold Rows.attn
  split
  case h_1 => exact reads_pjld
  case h_2 => exact reads_att (.inl rfl) (.inr rfl) (fun _ hd _ _ => beq_iff_eq.2 (hd rfl)) fun _ => rfl
  case h_3 =>
    exact reads_att (.inl rfl) (.inl rfl)
      (fun _ hd hc _ => (Bool.and_eq_true _ _).mpr ⟨beq_iff_eq.2 (hd rfl), beq_iff_eq.2 (hc rfl)⟩) fun _ => rfl
  case h_4 | h_5 =>
    exact reads_att (.inr rfl) (.inl rfl)
      (fun _ _ hc hx => (Bool.and_eq_true _ _).mpr ⟨beq_iff_eq.2 (hc rfl), wait_eq_none hx⟩) fun _ => rfl
  case h_6 => exact reads_psum
  case h_7 => exact reads_pbnd
  case h_8 | h_9 => exact reads_att (.inr rfl) (.inr rfl) (fun _ _ _ _ => rfl) fun _ => rfl
  case h_10 => exact reads_none

theorem reads_ite {p : Prop} [Decidable p] {o o' : Option Row} (h : p → Reads op fn imm o) (h' : Reads op fn imm o') :
    Reads op fn imm (if p then o else o') := by
  split
  · next hp => exact h hp
  · exact h'

theorem reads_row : Reads op fn imm (rowOf op fn imm) := by
  unfold rowOf
  refine reads_ite (fun _ => reads_int) <| reads_ite (fun _ => reads_imms) <| reads_ite (fun _ => reads_floats) <|
    reads_ite (fun _ => reads_control) <| reads_ite ?sys <| reads_ite ?tlbi <| reads_ite (fun _ => reads_system) <|
    reads_ite (fun _ => reads_glob) <| reads_ite (fun _ => reads_task) <| reads_ite (fun _ => reads_vec) <|
    reads_ite (fun _ => reads_mat) <| reads_ite (fun _ => reads_copyRows) reads_attn
  case sys =>
    rintro rfl
    exact reads_sys
  case tlbi =>
    rintro rfl
    exact reads_tlbi

end

/-- Settles O56: the row of a decoded word accepts it, so its instruction is well formed and is written as that word. -/
theorem encodeOfDecode : Obligations.EncodeOfDecode := by
  intro i w hw h
  obtain ⟨r, hrow, hcause, rfl⟩ := row_of_decode h
  obtain ⟨hwf, he⟩ := reads_row r hrow _ rfl rfl hcause
  obtain ⟨-, -, -, -, -, hzero, -⟩ := Row.cause_eq_zero.1 hcause
  exact ⟨hwf, he.trans (congrArg some (Fields.word_of hw r.fmt hzero))⟩

end Sys2Proof
end

section
/-! PROOFS (O55). A well-formed instruction's word is accepted by the row of its OP and FN, which reads the instruction back from it. -/

namespace Sys2Proof

/-! ### What an instruction has to do -/

/-- When the instruction is well formed, its word is 64 bits wide and decodes to it. -/
def Decodes (i : Instr) : Prop := wellFormed i = true → ∀ w, encode i = some w → w < 2 ^ 64 ∧ decode w = .ok i

/-- A number that a field of a kind can hold. -/
def FieldKind.Holds (k : FieldKind) (v : Nat) : Prop := k.legal v = true ∧ v < 128

namespace FieldKind.Holds

theorem of_legal {k : FieldKind} {v : Nat} (hk : k ≠ .lit) (h : k.legal v = true) : k.Holds v := ⟨h, legal_lt hk h⟩

theorem zero : FieldKind.zero.Holds 0 := ⟨rfl, by decide⟩
theorem dst {o : Opnd} (h : o.destOk = true) : FieldKind.dst.Holds o.code := of_legal nofun ((legal_dst o).trans h)
theorem src (o : Opnd) : FieldKind.src.Holds o.code := of_legal nofun (legal_src o)
theorem greg (n : GReg) : FieldKind.greg.Holds n.val := of_legal nofun (legal_greg n)
theorem pair {n : GReg} (h : decide (n.val ≤ 62) = true) : FieldKind.pair.Holds n.val := of_legal nofun h
theorem queue (q : Fin 8) : FieldKind.queue.Holds (64 + q.val) := of_legal nofun (legal_queue q)
theorem vreg (n : VReg) : FieldKind.vreg.Holds n.val := of_legal nofun (legal_vreg n)
theorem mask (n : MReg) : FieldKind.mask.Holds n.val := of_legal nofun (legal_mask n)
theorem cc (n : Fin 16) : FieldKind.cc.Holds n.val := of_legal nofun (legal_cc n)
theorem tile (t : Tile) : FieldKind.tile.Holds t.code := of_legal nofun (legal_tile t)
theorem lit {v : Nat} (h : v < 128) : FieldKind.lit.Holds v := ⟨rfl, h⟩

end FieldKind.Holds

/-- A row's OP is a byte. -/
theorem op_lt_of_row {op fn imm : Nat} {r : Row} (h : rowOf op fn imm = some r) : op < 256 := by
  by_contra hge
  have hattn : rowOf op fn imm = Rows.attn op fn := by
    unfold rowOf
    iterate 12 rw [if_neg (by omega)]
  rw [hattn] at h
  unfold Rows.attn at h
  split at h
  case h_10 => cases h
  all_goals omega

/-- What makes an instruction's word decode to it: the word's OP and FN, and a row that accepts it and reads the instruction. -/
theorem decodes_of_row {i : Instr} {n : Nat} (he : encode i = some n)
    (h : wellFormed i = true → n < 2 ^ 64 ∧ ∃ r, rowOf (bitsOf n 56 8) (Fields.of n).fn (Fields.of n).imm = some r ∧
      r.cause (Fields.of n) = 0 ∧ (r.build (Fields.of n)).toInstr = i) : Decodes i := by
  intro hw w hencode
  obtain rfl : n = w := Option.some.inj (he.symm.trans hencode)
  obtain ⟨hlt, r, hrow, hc, hi⟩ := h hw
  exact ⟨hlt, (decode_of_row hrow hc).trans (congrArg _ hi)⟩

/-! ### Operands read back from their fields -/

theorem Fin.ofNat_val {n : Nat} [NeZero n] (i : Fin n) : Fin.ofNat n i.val = i := Fin.ext (Nat.mod_eq_of_lt i.isLt)

namespace Fields

variable {f : Fields}

theorem od_eq {o : Opnd} (h : f.d = o.code) : f.od = o := by rw [od, h, Opnd.ofCode_code]
theorem oa_eq {o : Opnd} (h : f.a = o.code) : f.oa = o := by rw [oa, h, Opnd.ofCode_code]
theorem ob_eq {o : Opnd} (h : f.b = o.code) : f.ob = o := by rw [ob, h, Opnd.ofCode_code]
theorem oc_eq {o : Opnd} (h : f.c = o.code) : f.oc = o := by rw [oc, h, Opnd.ofCode_code]
theorem gd_eq {n : GReg} (h : f.d = n.val) : f.gd = n := by rw [gd, h, Fin.ofNat_val]
theorem ga_eq {n : GReg} (h : f.a = n.val) : f.ga = n := by rw [ga, h, Fin.ofNat_val]
theorem gb_eq {n : GReg} (h : f.b = n.val) : f.gb = n := by rw [gb, h, Fin.ofNat_val]
theorem gc_eq {n : GReg} (h : f.c = n.val) : f.gc = n := by rw [gc, h, Fin.ofNat_val]
theorem vd_eq {n : VReg} (h : f.d = n.val) : f.vd = n := by rw [vd, h, Fin.ofNat_val]
theorem va_eq {n : VReg} (h : f.a = n.val) : f.va = n := by rw [va, h, Fin.ofNat_val]
theorem vb_eq {n : VReg} (h : f.b = n.val) : f.vb = n := by rw [vb, h, Fin.ofNat_val]
theorem vc_eq {n : VReg} (h : f.c = n.val) : f.vc = n := by rw [vc, h, Fin.ofNat_val]
theorem md_eq {n : MReg} (h : f.d = n.val) : f.md = n := by rw [md, h, Fin.ofNat_val]
theorem ma_eq {n : MReg} (h : f.a = n.val) : f.ma = n := by rw [ma, h, Fin.ofNat_val]
theorem mb_eq {n : MReg} (h : f.b = n.val) : f.mb = n := by rw [mb, h, Fin.ofNat_val]
theorem mc_eq {n : MReg} (h : f.c = n.val) : f.mc = n := by rw [mc, h, Fin.ofNat_val]
theorem td_eq {t : Tile} (h : f.d = t.code) : f.td = t := by rw [td, h, Tile.ofCode_code]
theorem ta_eq {t : Tile} (h : f.a = t.code) : f.ta = t := by rw [ta, h, Tile.ofCode_code]
theorem qd_eq {q : Fin 8} (h : f.d = 64 + q.val) : f.qd = q := by rw [qd, h, Nat.add_sub_cancel_left, Fin.ofNat_val]
theorem off22_eq {x : BitVec 22} (h : f.off = x.toNat) : f.off22 = x := by rw [off22, h, BitVec.ofNat_toNat, BitVec.setWidth_eq]
theorem imm32_eq {x : BitVec 32} (h : f.imm = x.toNat) : f.imm32 = x := by rw [imm32, h, BitVec.ofNat_toNat, BitVec.setWidth_eq]
theorem ofCode_eq {t : Ty} {c : Nat} (h : c = t.code) : Ty.ofCode c = t := by rw [h, Ty.ofCode_code]

theorem r3_eq {x : R3} (hd : f.d = x.d.code) (ha : f.a = x.a.code) (hb : f.b = x.b.code) (ht : f.tRR = x.t.code) : f.r3 = x := by
  rw [r3, od_eq hd, oa_eq ha, ob_eq hb, ofCode_eq ht]

theorem r2_eq {x : R2} (hd : f.d = x.d.code) (ha : f.a = x.a.code) (ht : f.tRR = x.t.code) : f.r2 = x := by
  rw [r2, od_eq hd, oa_eq ha, ofCode_eq ht]

end Fields

/-! ### Words of each format (R141, R142) -/

section

variable {i : Instr} {op fn nd na nb nc nt : Nat} {d a b c : FieldKind} {ts : Option Nat} {extra : Fields → Nat} {build : Fields → Decoded}

theorem decodes_rrWith (he : encode i = some (Enc.rr op fn nd na nb nc nt))
    (hrow : ∀ imm, rowOf op fn imm = some { fmt := .rr, d := d, a := a, b := b, c := c, ts := ts, extra := extra, build := build })
    (hl : wellFormed i = true → d.Holds nd ∧ a.Holds na ∧ b.Holds nb ∧ c.Holds nc ∧ nt < 16 ∧ ∀ t ∈ ts, t.testBit nt = true)
    (hi : ∀ f : Fields, wellFormed i = true → f.fn = fn → f.d = nd → f.a = na → f.b = nb → f.c = nc → f.tRR = nt →
      extra f = 0 ∧ (build f).toInstr = i)
    (hfn : fn < 64) : Decodes i := by
  refine decodes_of_row he fun hw => ?_
  obtain ⟨hd, ha, hb, hc, hnt, ht⟩ := hl hw
  obtain ⟨⟨hlt, hop, hfn, hfd, hfa⟩, hfb, hfc, hft, hz⟩ := rr_fields (op_lt_of_row (hrow 0)) hfn hd.2 ha.2 hb.2 hc.2 hnt rfl
  obtain ⟨hx, hbuild⟩ := hi _ hw hfn hfd hfa hfb hfc hft
  refine ⟨hlt, _, (congrArg₂ (rowOf · · _) hop hfn).trans (hrow _),
    Row.cause_eq_zero.2 ⟨?_, ?_, fun _ => ?_, fun _ => ?_, fun t hmem => ?_, hz, nofun, hx⟩, hbuild⟩
  · exact (congrArg d.legal hfd).trans hd.1
  · exact (congrArg a.legal hfa).trans ha.1
  · exact (congrArg b.legal hfb).trans hb.1
  · exact (congrArg c.legal hfc).trans hc.1
  · exact (congrArg t.testBit hft).trans (ht t hmem)

theorem decodes_riWith {imm : Nat} (he : encode i = some (Enc.ri op fn nd na nt imm))
    (hrow : rowOf op fn imm = some { fmt := .ri, d := d, a := a, b := b, c := c, ts := ts, extra := extra, build := build })
    (hl : wellFormed i = true → d.Holds nd ∧ a.Holds na ∧ nt < 16 ∧ ∀ t ∈ ts, t.testBit nt = true)
    (hi : ∀ f : Fields, wellFormed i = true → f.d = nd → f.a = na → f.tRI = nt → f.imm = imm → bitsOf f.w 0 12 = imm % 2 ^ 12 →
      bitsOf f.w 12 20 = imm / 2 ^ 12 → bitsOf f.w 16 16 = imm / 2 ^ 16 → extra f = 0 ∧ (build f).toInstr = i)
    (himm : imm < 2 ^ 32) (hfn : fn < 64) : Decodes i := by
  generalize hn : Enc.ri op fn nd na nt imm = n at he
  refine decodes_of_row he fun hw => ?_
  obtain ⟨hd, ha, hnt, ht⟩ := hl hw
  obtain ⟨⟨hlt, hop, hfn, hfd, hfa⟩, hft, hfimm, hlo, hmid, hhi⟩ := ri_fields (op_lt_of_row hrow) hfn hd.2 ha.2 hnt himm hn
  obtain ⟨hx, hbuild⟩ := hi _ hw hfd hfa hft hfimm hlo hmid hhi
  rw [← hop, ← hfn, ← hfimm] at hrow
  refine ⟨hlt, _, hrow, Row.cause_eq_zero.2 ⟨?_, ?_, nofun, nofun, fun t hmem => ?_, rfl, nofun, hx⟩, hbuild⟩
  · exact (congrArg d.legal hfd).trans hd.1
  · exact (congrArg a.legal hfa).trans ha.1
  · exact (congrArg t.testBit hft).trans (ht t hmem)

theorem decodes_memWith {scale off : Nat} (he : encode i = some (Enc.mem op fn nd na nb scale nt off))
    (hrow : ∀ imm, rowOf op fn imm = some { fmt := .mem, d := d, a := a, b := b, c := c, ts := ts, extra := extra, build := build })
    (hl : wellFormed i = true → d.Holds nd ∧ a.Holds na ∧ b.Holds nb ∧ nt < 16 ∧ ∀ t ∈ ts, t.testBit nt = true)
    (hi : ∀ f : Fields, wellFormed i = true → f.d = nd → f.a = na → f.b = nb → f.scale = scale → f.tMem = nt → f.off = off →
      extra f = 0 ∧ (build f).toInstr = i)
    (hs : scale < 8) (ho : off < 2 ^ 22) (hfn : fn < 64) : Decodes i := by
  refine decodes_of_row he fun hw => ?_
  obtain ⟨hd, ha, hb, hnt, ht⟩ := hl hw
  obtain ⟨⟨hlt, hop, hfn, hfd, hfa⟩, hfb, hfs, hft, hfo⟩ := mem_fields (op_lt_of_row (hrow 0)) hfn hd.2 ha.2 hb.2 hs hnt ho rfl
  obtain ⟨hx, hbuild⟩ := hi _ hw hfd hfa hfb hfs hft hfo
  refine ⟨hlt, _, (congrArg₂ (rowOf · · _) hop hfn).trans (hrow _),
    Row.cause_eq_zero.2 ⟨?_, ?_, fun _ => ?_, nofun, fun t hmem => ?_, rfl, nofun, hx⟩, hbuild⟩
  · exact (congrArg d.legal hfd).trans hd.1
  · exact (congrArg a.legal hfa).trans ha.1
  · exact (congrArg b.legal hfb).trans hb.1
  · exact (congrArg t.testBit hft).trans (ht t hmem)

theorem decodes_brWith {hint off : Nat} (he : encode i = some (Enc.br op fn nd na hint off))
    (hrow : ∀ imm, rowOf op fn imm = some { fmt := .br, d := d, a := a, b := b, c := c, ts := none, extra := extra, build := build })
    (hl : wellFormed i = true → d.Holds nd ∧ a.Holds na)
    (hi : ∀ f : Fields, f.d = nd → f.a = na → f.hint = hint → f.imm = off → extra f = 0 ∧ (build f).toInstr = i)
    (hh : hint < 3) (ho : off < 2 ^ 32) (hfn : fn < 64) : Decodes i := by
  refine decodes_of_row he fun hw => ?_
  obtain ⟨hd, ha⟩ := hl hw
  obtain ⟨⟨hlt, hop, hfn, hfd, hfa⟩, hfh, hfo, hz⟩ := br_fields (op_lt_of_row (hrow 0)) hfn hd.2 ha.2 (hh.trans (by decide)) ho rfl
  obtain ⟨hx, hbuild⟩ := hi _ hfd hfa hfh hfo
  refine ⟨hlt, _, (congrArg₂ (rowOf · · _) hop hfn).trans (hrow _),
    Row.cause_eq_zero.2 ⟨?_, ?_, nofun, nofun, nofun, hz, nofun, hx⟩, hbuild⟩
  · exact (congrArg d.legal hfd).trans hd.1
  · exact (congrArg a.legal hfa).trans ha.1

theorem decodes_sysWith {num : BitVec 16} (he : encode i = some (Enc.sys op nd na num.toNat))
    (hrow : ∀ imm, rowOf op 0 imm = some { fmt := .sys, d := d, a := a, b := b, c := c, ts := none, extra := extra, build := build })
    (hl : wellFormed i = true → d.Holds nd ∧ a.Holds na)
    (hi : ∀ f : Fields, wellFormed i = true → f.d = nd → f.a = na → f.num = num.toNat → extra f = 0 ∧ (build f).toInstr = i) :
    Decodes i := by
  refine decodes_of_row he fun hw => ?_
  obtain ⟨hd, ha⟩ := hl hw
  obtain ⟨⟨hlt, hop, hfn, hfd, hfa⟩, hfnum, hz⟩ := sys_fields (op_lt_of_row (hrow 0)) hd.2 ha.2 num.isLt rfl
  obtain ⟨hx, hbuild⟩ := hi _ hw hfd hfa hfnum
  refine ⟨hlt, _, (congrArg₂ (rowOf · · _) hop hfn).trans (hrow _),
    Row.cause_eq_zero.2 ⟨?_, ?_, nofun, nofun, nofun, hz, nofun, hx⟩, hbuild⟩
  · exact (congrArg d.legal hfd).trans hd.1
  · exact (congrArg a.legal hfa).trans ha.1

theorem decodes_engWith {g : Gates} {low : Nat} (he : encode i = some (Enc.eng op fn nd na nb nc g low))
    (hrow : ∀ imm, rowOf op fn imm = some { fmt := .eng, d := d, a := a, b := b, c := c, ts := ts, extra := extra, build := build })
    (hl : wellFormed i = true → d.Holds nd ∧ a.Holds na ∧ b.Holds nb ∧ c.Holds nc ∧ fn < 64 ∧ low < 512)
    (hi : ∀ f : Fields, wellFormed i = true → f.fn = fn → f.d = nd → f.a = na → f.b = nb → f.c = nc → f.gates = g →
      f.gate = Enc.gateNum g → f.low = low → (∀ t ∈ ts, t.testBit f.tEng = true) ∧ extra f = 0 ∧ (build f).toInstr = i) : Decodes i := by
  refine decodes_of_row he fun hw => ?_
  obtain ⟨hd, ha, hb, hc, hfn, hlow⟩ := hl hw
  have hgate : Enc.gateNum g < 64 := by have h := Enc.gateNum_cases g; omega
  have hsig : Enc.sigNum g < 64 := by have h := Enc.sigNum_cases g; omega
  obtain ⟨⟨hlt, hop, hfn, hfd, hfa⟩, hfb, hfc, hfg, hfs, hfp, hflow⟩ :=
    eng_fields (op_lt_of_row (hrow 0)) hfn hd.2 ha.2 hb.2 hc.2 hgate hsig (Enc.wph_lt g) hlow rfl
  obtain ⟨hgcause, hgates⟩ := Fields.gates_of hfg hfs hfp
  obtain ⟨ht, hx, hbuild⟩ := hi _ hw hfn hfd hfa hfb hfc hgates hfg hflow
  refine ⟨hlt, _, (congrArg₂ (rowOf · · _) hop hfn).trans (hrow _),
    Row.cause_eq_zero.2 ⟨?_, ?_, fun _ => ?_, fun _ => ?_, ht, rfl, fun _ => hgcause, hx⟩, hbuild⟩
  · exact (congrArg d.legal hfd).trans hd.1
  · exact (congrArg a.legal hfa).trans ha.1
  · exact (congrArg b.legal hfb).trans hb.1
  · exact (congrArg c.legal hfc).trans hc.1

theorem decodes_gatew {gate : Fin 32} {n allowed : Nat} {mk : Fields → Decoded} (he : encode i = some (Enc.gatew op fn nd na nb gate.val n))
    (hrow : ∀ imm, rowOf op fn imm = Rows.gatew d a b allowed mk)
    (hl : d.Holds nd ∧ a.Holds na ∧ b.Holds nb ∧ (n = 0 ∨ n = allowed))
    (hi : ∀ f : Fields, f.d = nd → f.a = na → f.b = nb → f.gate = gate.val → f.imm16 = n → (mk f).toInstr = i)
    (hfn : fn < 64) (hallowed : allowed < 2 ^ 16) : Decodes i := by
  refine decodes_of_row he fun hw => ?_
  obtain ⟨hd, ha, hb, hn⟩ := hl
  have hgate : gate.val < 32 := gate.isLt
  obtain ⟨⟨hlt, hop, hfn, hfd, hfa⟩, hfb, hfc, hfg, hfi⟩ :=
    gate_fields (op_lt_of_row (hrow 0)) hfn hd.2 ha.2 hb.2 (imm := n) (hgate.trans (by decide)) (by omega) rfl
  unfold Rows.gatew at hrow
  refine ⟨hlt, _, (congrArg₂ (rowOf · · _) hop hfn).trans (hrow _),
    Row.cause_eq_zero.2 ⟨?_, ?_, nofun, nofun, nofun, rfl, nofun, ?_⟩, hi _ hfd hfa hfb hfg hfi⟩
  · exact (congrArg d.legal hfd).trans hd.1
  · exact (congrArg a.legal hfa).trans ha.1
  · simp only [Nat.or_eq_zero_iff, FieldKind.cause_eq_zero, unlessOk_causeZero, unlessOk_causeOperand, Bool.or_eq_true, beq_iff_eq,
      decide_eq_true_eq, hfb, hfc, hfg, hfi]
    exact ⟨⟨⟨hb.1, trivial⟩, by omega⟩, hn⟩

end
end Sys2Proof
end

section
/-! PROOFS (O55). The words that run on the core: each group of instructions that share a form is read back from its word. -/

namespace Sys2Proof

theorem Ty.code_lt_16 (t : Ty) : t.code < 16 := t.code_lt.trans (by decide)

/-! ### Operand structures read back -/

namespace Fields

variable {f : Fields}

theorem r4_eq {x : R4} (hd : f.d = x.d.code) (ha : f.a = x.a.code) (hb : f.b = x.b.code) (hc : f.c = x.c.code)
    (ht : f.tRR = x.t.code) : f.r4 = x := by
  rw [r4, od_eq hd, oa_eq ha, ob_eq hb, oc_eq hc, ofCode_eq ht]

theorem ri_eq {x : RI} (hd : f.d = x.d.code) (ha : f.a = x.a.code) (ht : f.tRI = x.t.code) (hi : f.imm = x.imm.toNat) : f.ri = x := by
  rw [ri, od_eq hd, oa_eq ha, ofCode_eq ht, imm32_eq hi]

theorem scale_eq {n : Fin 8} (h : f.scale = n.val) : Fin.ofNat 8 f.scale = n := by rw [h, Fin.ofNat_val]

theorem hint_eq {x : Hint} (h : f.hint = x.code) : Hint.ofCode f.hint = x := by rw [h, Hint.ofCode_code]

theorem brArg_eq {x : BrArg} (hd : f.d = x.a.code) (ha : f.a = x.b.code) (hh : f.hint = x.hint.code) (hi : f.imm = x.off.toNat) :
    f.brArg = x := by
  rw [brArg, od_eq hd, oa_eq ha, hint_eq hh, imm32_eq hi]

theorem memArg_eq {x : MemArg} (hd : f.d = x.d.code) (ha : f.a = x.base.code) (hb : f.b = x.index.code) (hs : f.scale = x.scale.val)
    (ht : f.tMem = x.t.code) (ho : f.off = x.off.toNat) : f.memArg = x := by
  rw [memArg, od_eq hd, oa_eq ha, ob_eq hb, scale_eq hs, ofCode_eq ht, off22_eq ho]

theorem pairArg_eq {x : PairArg} (hd : f.d = x.d.val) (ha : f.a = x.base.code) (hb : f.b = x.index.code) (hs : f.scale = x.scale.val)
    (ho : f.off = x.off.toNat) : f.pairArg = x := by
  rw [pairArg, gd_eq hd, oa_eq ha, ob_eq hb, scale_eq hs, off22_eq ho]

theorem gload_eq {x : GLoad} (hd : f.d = 64 + x.q.val) (ha : f.a = x.base.val) (hb : f.b = x.index.val) (hs : f.scale = x.scale.val)
    (ht : f.tMem = x.t.code) (ho : f.off = x.off.toNat) : f.gload = x := by
  rw [gload, qd_eq hd, ga_eq ha, gb_eq hb, scale_eq hs, ofCode_eq ht, off22_eq ho]

theorem gstore_eq {x : GStore} (hd : f.d = x.d.val) (ha : f.a = x.base.val) (hb : f.b = x.index.val) (hs : f.scale = x.scale.val)
    (ht : f.tMem = x.t.code) (ho : f.off = x.off.toNat) : f.gstore = x := by
  rw [gstore, gd_eq hd, ga_eq ha, gb_eq hb, scale_eq hs, ofCode_eq ht, off22_eq ho]

theorem amoArg_eq {x : AmoArg} (ha : f.a = x.a.val) (hb : f.b = x.b.val) (hc : f.c = x.c.val) (ht : f.tRR = x.t.code) :
    f.amoArg = x := by
  rw [amoArg, ga_eq ha, gb_eq hb, gc_eq hc, ofCode_eq ht]

theorem vamoArg_eq {x : VAmoArg} (hd : f.d = x.m.val) (ha : f.a = x.a.val) (hb : f.b = x.b.val) (hc : f.c = x.c.val)
    (ht : f.tRR = x.t.code) : f.vamoArg = x := by
  rw [vamoArg, md_eq hd, ga_eq ha, vb_eq hb, vc_eq hc, ofCode_eq ht]

theorem g3_eq {x : G3} (ha : f.a = x.a.val) (hb : f.b = x.b.val) (hc : f.c = x.c.val) : f.g3 = x := by
  rw [g3, ga_eq ha, gb_eq hb, gc_eq hc]

theorem gd3_eq {x : GD3} (hd : f.d = x.d.val) (ha : f.a = x.a.val) (hb : f.b = x.b.val) (hc : f.c = x.c.val) : f.gd3 = x := by
  rw [gd3, gd_eq hd, ga_eq ha, gb_eq hb, gc_eq hc]

end Fields

section

variable {i : Instr} {op fn nd na nb nc nt ts : Nat} {d a b c : FieldKind}

/-! ### RR words -/

theorem decodes_rr {mk : Fields → Instr} (he : encode i = some (Enc.rr op fn nd na nb nc nt))
    (hrow : ∀ imm, rowOf op fn imm = Rows.rr d a b c ts mk)
    (hl : wellFormed i = true → d.Holds nd ∧ a.Holds na ∧ b.Holds nb ∧ c.Holds nc ∧ ts.testBit nt = true)
    (hi : ∀ f : Fields, f.d = nd → f.a = na → f.b = nb → f.c = nc → f.tRR = nt → mk f = i)
    (hfn : fn < 64) (ht : nt < 16) : Decodes i := by
  refine decodes_rrWith he hrow (fun hw => ?_) (fun f _ _ hd ha hb hc ht => ⟨rfl, hi f hd ha hb hc ht⟩) hfn
  obtain ⟨hd, ha, hb, hc, hts⟩ := hl hw
  exact ⟨hd, ha, hb, hc, ht, fun t hmem => Option.mem_some_iff.1 hmem ▸ hts⟩

theorem decodes_r3 {mk : R3 → Instr} {x : R3} (he : encode (mk x) = Enc.r3 op fn x) (hw : wellFormed (mk x) = Wf.r3 ts x)
    (hrow : ∀ imm, rowOf op fn imm = Rows.rr3 ts mk) (hfn : fn < 64) : Decodes (mk x) := by
  refine decodes_rr he hrow (fun h => ?_) (fun f hd ha hb _ ht => congrArg mk (Fields.r3_eq hd ha hb ht)) hfn x.t.code_lt_16
  obtain ⟨hd, ht⟩ := (Bool.and_eq_true _ _).mp (hw.symm.trans h)
  exact ⟨.dst hd, .src _, .src _, .zero, ht⟩

theorem decodes_r2 {mk : R2 → Instr} {x : R2} (he : encode (mk x) = Enc.r2 op fn x) (hw : wellFormed (mk x) = Wf.r2 ts x)
    (hrow : ∀ imm, rowOf op fn imm = Rows.rr2 ts mk) (hfn : fn < 64) : Decodes (mk x) := by
  refine decodes_rr he hrow (fun h => ?_) (fun f hd ha _ _ ht => congrArg mk (Fields.r2_eq hd ha ht)) hfn x.t.code_lt_16
  obtain ⟨hd, ht⟩ := (Bool.and_eq_true _ _).mp (hw.symm.trans h)
  exact ⟨.dst hd, .src _, .zero, .zero, ht⟩

/-- D and two sources, with a fixed type. -/
theorem decodes_o3 {mk : Opnd → Opnd → Opnd → Instr} {x y z : Opnd} (he : encode (mk x y z) = Enc.o3 op fn nt x y z)
    (hw : wellFormed (mk x y z) = x.destOk) (hrow : ∀ imm, rowOf op fn imm = Rows.ops3 mk ts) (hts : ts.testBit nt = true)
    (hfn : fn < 64) (ht : nt < 16) : Decodes (mk x y z) := by
  refine decodes_rr he hrow (fun h => ⟨.dst (hw.symm.trans h), .src _, .src _, .zero, hts⟩) (fun f hd ha hb _ _ => ?_) hfn ht
  rw [Fields.od_eq hd, Fields.oa_eq ha, Fields.ob_eq hb]

/-- D and a source, with a fixed type. -/
theorem decodes_o2 {mk : Opnd → Opnd → Instr} {x y : Opnd} (he : encode (mk x y) = Enc.o2 op fn nt x y)
    (hw : wellFormed (mk x y) = x.destOk) (hrow : ∀ imm, rowOf op fn imm = Rows.ops2 mk ts) (hts : ts.testBit nt = true)
    (hfn : fn < 64) (ht : nt < 16) : Decodes (mk x y) := by
  refine decodes_rr he hrow (fun h => ⟨.dst (hw.symm.trans h), .src _, .zero, .zero, hts⟩) (fun f hd ha _ _ _ => ?_) hfn ht
  rw [Fields.od_eq hd, Fields.oa_eq ha]

/-- One source operand and nothing else. -/
theorem decodes_o1 {mk : Opnd → Instr} {x : Opnd} (he : encode (mk x) = some (Enc.rr op fn 0 x.code 0 0 0))
    (hrow : ∀ imm, rowOf op fn imm = Rows.rr .zero .src .zero .zero 1 fun f => mk f.oa)
    (hfn : fn < 64) : Decodes (mk x) :=
  decodes_rr he hrow (fun _ => ⟨.zero, .src _, .zero, .zero, rfl⟩) (fun _ _ ha _ _ _ => congrArg mk (Fields.oa_eq ha)) hfn (by decide)

theorem decodes_bins {x : R4} : Decodes (.bins x) := by
  refine decodes_rr rfl (fun _ => rfl) (fun h => ?_) (fun f hd ha hb hc ht => congrArg Instr.bins (Fields.r4_eq hd ha hb hc ht))
    (by decide) x.t.code_lt_16
  obtain ⟨hd, ht⟩ := (Bool.and_eq_true _ _).mp h
  exact ⟨.dst hd, .src _, .src _, .src _, ht⟩

theorem decodes_sel {x y z u : Opnd} : Decodes (.sel x y z u) := by
  refine decodes_rr rfl (fun _ => rfl) (fun h => ⟨.dst h, .src _, .src _, .src _, rfl⟩) (fun f hd ha hb hc _ => ?_) (by decide) (by decide)
  rw [Fields.od_eq hd, Fields.oa_eq ha, Fields.ob_eq hb, Fields.oc_eq hc]

theorem decodes_ffma {x y z u : Opnd} {m : RMode} : Decodes (.ffma x y z u m) := by
  have hm := m.code_lt
  refine decodes_rrWith rfl (fun _ => rfl) (fun h => ⟨.dst h, .src _, .src _, .src _, by decide, fun t ht => ?_⟩)
    (fun f _ hfn hd ha hb hc _ => ?_) (hfn := hm.trans (by decide))
  · obtain rfl := Option.mem_some_iff.1 ht
    rfl
  · refine ⟨unlessOk_causeFnZero.2 (decide_eq_true (hfn.trans_lt hm)), ?_⟩
    show Instr.ffma f.od f.oa f.ob f.oc (.ofCode (f.fn % 4)) = _
    rw [Fields.od_eq hd, Fields.oa_eq ha, Fields.ob_eq hb, Fields.oc_eq hc, hfn, Nat.mod_eq_of_lt hm, RMode.ofCode_code]

theorem decodes_fcvt {x y : Opnd} {t : Ty} {toF32 sat : Bool} {m : RMode} : Decodes (.fcvt x y t toF32 sat m) := by
  have hm := m.code_lt
  have hto := Enc.bit_lt toF32
  have hs := Enc.bit_lt sat
  refine decodes_rrWith rfl (fun _ => rfl) (fun h => ?_) (fun f hw hfn hd ha _ _ ht => ?_) (hfn := by omega)
  · obtain ⟨hdt, -⟩ := (Bool.and_eq_true _ _).mp h
    obtain ⟨hd, ht⟩ := (Bool.and_eq_true _ _).mp hdt
    exact ⟨.dst hd, .src _, .zero, .zero, t.code_lt_16, fun ts hmem => Option.mem_some_iff.1 hmem ▸ ht⟩
  · have hboth : (!(toF32 && sat)) = true := ((Bool.and_eq_true _ _).mp hw).2
    have hne : ¬ (Enc.bit toF32 = 1 ∧ Enc.bit sat = 1) := by
      rintro ⟨h1, h2⟩
      cases toF32 <;> cases sat <;> simp_all
    have hx : f.fn < 16 ∧ f.fn / 4 % 4 ≠ 3 := by omega
    have h8 : f.fn / 8 % 2 = Enc.bit toF32 := by omega
    have h4 : f.fn / 4 % 2 = Enc.bit sat := by omega
    have hmode : f.fn % 4 = m.code := by omega
    refine ⟨Nat.or_eq_zero_iff.2 ⟨unlessOk_causeFnZero.2 (decide_eq_true hx.1), unlessOk_causeFn.2 (bne_iff_ne.2 hx.2)⟩, ?_⟩
    show Instr.fcvt f.od f.oa (.ofCode f.tRR) (f.fn / 8 % 2 == 1) (f.fn / 4 % 2 == 1) (.ofCode (f.fn % 4)) = _
    rw [Fields.od_eq hd, Fields.oa_eq ha, Fields.ofCode_eq ht, h8, h4, hmode, Enc.bit_beq_one, Enc.bit_beq_one, RMode.ofCode_code]

theorem decodes_nop : Decodes .nop :=
  decodes_rrWith rfl (fun _ => rfl) (fun _ => ⟨.zero, .zero, .zero, .zero, by decide, nofun⟩)
    (fun f _ _ _ _ _ _ ht => ⟨unlessOk_causeZero.2 (beq_iff_eq.2 ht), rfl⟩) (by decide)

theorem decodes_tset {x y : Opnd} : Decodes (.tset x y) := by
  refine decodes_rr rfl (fun _ => rfl) (fun _ => ⟨.zero, .src _, .src _, .zero, rfl⟩) (fun f _ ha hb _ _ => ?_) (by decide) (by decide)
  rw [Fields.oa_eq ha, Fields.ob_eq hb]

theorem decodes_tlbi {kind : Nat} {mk : TlbiArg → Instr} {x : TlbiArg} (he : encode (mk x) = Enc.tlbiw kind x)
    (hrow : ∀ (s : Scope) (imm : Nat), rowOf 0x3D (kind * 4 + s.code) imm = some
      { fmt := .rr, d := .zero, a := a, b := b, c := if s = .dev then .cc else .zero, ts := some 1
        extra := fun f => unlessOk (decide (f.fn < 16)) (causeFn ||| causeZero)
          ||| unlessOk ((kind * 4 + s.code) % 4 != 3 && kind != 3) causeFn
        build := fun f => .std (mk f.tlbiArg) })
    (hw : wellFormed (mk x) = true → a.Holds x.a.code ∧ b.Holds x.b.code ∧ (x.scope == .dev || x.cc == 0) = true)
    (hkind : kind < 3) : Decodes (mk x) := by
  have hs := x.scope.code_lt
  refine decodes_rrWith he (hrow x.scope) (fun h => ?_) (fun f _ hfn _ ha hb hc _ => ⟨?_, congrArg mk ?_⟩) (hfn := by omega)
  · obtain ⟨ha, hb, hcc⟩ := hw h
    refine ⟨.zero, ha, hb, ?_, by decide, fun t ht => Option.mem_some_iff.1 ht ▸ rfl⟩
    split
    · exact .cc _
    · next hne =>
      obtain h | h := (Bool.or_eq_true _ _).mp hcc
      · exact absurd (beq_iff_eq.1 h) hne
      · rw [beq_iff_eq.1 h]
        exact .zero
  · have hne : (kind * 4 + x.scope.code) % 4 ≠ 3 ∧ kind ≠ 3 := by omega
    exact Nat.or_eq_zero_iff.2 ⟨unlessOk_causeFnZero.2 (decide_eq_true (by omega)),
      unlessOk_causeFn.2 ((Bool.and_eq_true _ _).mpr ⟨bne_iff_ne.2 hne.1, bne_iff_ne.2 hne.2⟩)⟩
  · have hscope : f.tlbiArg.scope = x.scope := by
      have hmod : f.fn % 4 = x.scope.code := by omega
      cases hx : x.scope <;> rw [hx] at hmod <;> simp [Fields.tlbiArg, hmod, Scope.code]
    have hcc : f.tlbiArg.cc = x.cc := (congrArg (Fin.ofNat 16) hc).trans (Fin.ofNat_val _)
    calc f.tlbiArg = ⟨f.oa, f.ob, f.tlbiArg.scope, f.tlbiArg.cc⟩ := rfl
      _ = x := by rw [Fields.oa_eq ha, Fields.ob_eq hb, hscope, hcc]

theorem decodes_amo {g : AFn} {mk : AmoArg → Instr} {x : AmoArg} (he : encode (mk x) = Enc.amow op fn x)
    (hw : wellFormed (mk x) = (x.t.isIn g.types && x.c == 0)) (hrow : ∀ imm, rowOf op fn imm = Rows.amo g mk)
    (hg : (g != .cas) = true) (hfn : fn < 64) : Decodes (mk x) := by
  refine decodes_rr he hrow (fun h => ?_) (fun f _ ha hb hc ht => congrArg mk (Fields.amoArg_eq ha hb hc ht)) hfn x.t.code_lt_16
  obtain ⟨ht, hc⟩ := (Bool.and_eq_true _ _).mp (hw.symm.trans h)
  rw [if_neg (bne_iff_ne.1 hg), beq_iff_eq.1 hc]
  exact ⟨.zero, .greg _, .greg _, .zero, ht⟩

theorem decodes_amoCas {mk : AmoArg → Instr} {x : AmoArg} (he : encode (mk x) = Enc.amow op fn x)
    (hw : wellFormed (mk x) = x.t.isIn AFn.cas.types) (hrow : ∀ imm, rowOf op fn imm = Rows.amo .cas mk)
    (hfn : fn < 64) : Decodes (mk x) :=
  decodes_rr he hrow (fun h => ⟨.zero, .greg _, .greg _, .greg _, hw.symm.trans h⟩)
    (fun _ _ ha hb hc ht => congrArg mk (Fields.amoArg_eq ha hb hc ht)) hfn x.t.code_lt_16

theorem decodes_vamo {g : AFn} {mk : VAmoArg → Instr} {x : VAmoArg} (he : encode (mk x) = Enc.vamow fn x)
    (hw : wellFormed (mk x) = x.t.isIn g.types) (hrow : ∀ imm, rowOf 0x51 fn imm = Rows.vamo g mk)
    (hfn : fn < 64) : Decodes (mk x) :=
  decodes_rr he hrow (fun h => ⟨.mask _, .greg _, .vreg _, .vreg _, hw.symm.trans h⟩)
    (fun _ hd ha hb hc ht => congrArg mk (Fields.vamoArg_eq hd ha hb hc ht)) hfn x.t.code_lt_16

theorem decodes_wtv {mk : WtvArg → Instr} {x : WtvArg} (he : encode (mk x) = Enc.wtvw fn x) (hw : wellFormed (mk x) = x.t.isIn 0x180)
    (hrow : ∀ imm, rowOf 0x42 fn imm = Rows.rr .queueOrG0 .greg .greg .greg 0x180 fun f => mk f.wtvArg)
    (hfn : fn < 64) : Decodes (mk x) := by
  obtain ⟨_ | q, ra, rb, rc, t⟩ := x
  · refine decodes_rr he hrow (fun h => ⟨.of_legal nofun rfl, .greg _, .greg _, .greg _, hw.symm.trans h⟩)
      (fun f hd ha hb hc ht => congrArg mk ?_) hfn t.code_lt_16
    rw [Fields.wtvArg, if_pos hd, Fields.ga_eq ha, Fields.gb_eq hb, Fields.gc_eq hc, Fields.ofCode_eq ht]
  · have hlegal : FieldKind.queueOrG0.legal (64 + q.val) = true := (Bool.or_eq_true _ _).mpr (.inr (FieldKind.legal_queue q))
    refine decodes_rr he hrow (fun h => ⟨.of_legal nofun hlegal, .greg _, .greg _, .greg _, hw.symm.trans h⟩)
      (fun f hd ha hb hc ht => congrArg mk ?_) hfn t.code_lt_16
    have hd : f.d = 64 + q.val := hd
    have hne : f.d ≠ 0 := by omega
    rw [Fields.wtvArg, if_neg hne, Fields.qd_eq hd, Fields.ga_eq ha, Fields.gb_eq hb, Fields.gc_eq hc, Fields.ofCode_eq ht]

/-! ### RR words of g registers (R261, R341) -/

/-- A and B. -/
theorem decodes_gab {mk : GReg → GReg → Instr} {x y : GReg} (he : encode (mk x y) = Enc.gw op fn 0 x.val y.val 0)
    (hrow : ∀ imm, rowOf op fn imm = Rows.rr .zero .greg .greg .zero 1 fun f => mk f.ga f.gb)
    (hfn : fn < 64) : Decodes (mk x y) :=
  decodes_rr he hrow (fun _ => ⟨.zero, .greg _, .greg _, .zero, rfl⟩)
    (fun _ _ ha hb _ _ => congrArg₂ mk (Fields.ga_eq ha) (Fields.gb_eq hb)) hfn (by decide)

/-- A alone. -/
theorem decodes_ga {mk : GReg → Instr} {x : GReg} (he : encode (mk x) = Enc.gw op fn 0 x.val 0 0)
    (hrow : ∀ imm, rowOf op fn imm = Rows.rr .zero .greg .zero .zero 1 fun f => mk f.ga)
    (hfn : fn < 64) : Decodes (mk x) :=
  decodes_rr he hrow (fun _ => ⟨.zero, .greg _, .zero, .zero, rfl⟩) (fun _ _ ha _ _ _ => congrArg mk (Fields.ga_eq ha)) hfn (by decide)

/-- D alone. -/
theorem decodes_gd {mk : GReg → Instr} {x : GReg} (he : encode (mk x) = Enc.gw op fn x.val 0 0 0)
    (hrow : ∀ imm, rowOf op fn imm = Rows.rr d .zero .zero .zero 1 fun f => mk f.gd) (hd : wellFormed (mk x) = true → d.Holds x.val)
    (hfn : fn < 64) : Decodes (mk x) :=
  decodes_rr he hrow (fun h => ⟨hd h, .zero, .zero, .zero, rfl⟩) (fun _ hd _ _ _ _ => congrArg mk (Fields.gd_eq hd)) hfn (by decide)

/-- D and A. -/
theorem decodes_gda {mk : GReg → GReg → Instr} {x y : GReg} (he : encode (mk x y) = Enc.gw op fn x.val y.val 0 0)
    (hrow : ∀ imm, rowOf op fn imm = Rows.rr d .greg .zero .zero 1 fun f => mk f.gd f.ga)
    (hd : wellFormed (mk x y) = true → d.Holds x.val) (hfn : fn < 64) : Decodes (mk x y) :=
  decodes_rr he hrow (fun h => ⟨hd h, .greg _, .zero, .zero, rfl⟩)
    (fun _ hd ha _ _ _ => congrArg₂ mk (Fields.gd_eq hd) (Fields.ga_eq ha)) hfn (by decide)

/-- D, A and B. -/
theorem decodes_gdab {mk : GReg → GReg → GReg → Instr} {x y z : GReg} (he : encode (mk x y z) = Enc.gw op fn x.val y.val z.val 0)
    (hrow : ∀ imm, rowOf op fn imm = Rows.rr .greg .greg .greg .zero 1 fun f => mk f.gd f.ga f.gb)
    (hfn : fn < 64) : Decodes (mk x y z) := by
  refine decodes_rr he hrow (fun _ => ⟨.greg _, .greg _, .greg _, .zero, rfl⟩) (fun f hd ha hb _ _ => ?_) hfn (by decide)
  rw [Fields.gd_eq hd, Fields.ga_eq ha, Fields.gb_eq hb]

/-- A, B and C. -/
theorem decodes_g3 {mk : G3 → Instr} {x : G3} (he : encode (mk x) = Enc.gw op fn 0 x.a.val x.b.val x.c.val)
    (hrow : ∀ imm, rowOf op fn imm = Rows.rr .zero .greg .greg .greg 1 fun f => mk f.g3)
    (hfn : fn < 64) : Decodes (mk x) :=
  decodes_rr he hrow (fun _ => ⟨.zero, .greg _, .greg _, .greg _, rfl⟩) (fun _ _ ha hb hc _ => congrArg mk (Fields.g3_eq ha hb hc))
    hfn (by decide)

/-- D, A, B and C. -/
theorem decodes_gd3 {mk : GD3 → Instr} {x : GD3} (he : encode (mk x) = Enc.gw op fn x.d.val x.a.val x.b.val x.c.val)
    (hrow : ∀ imm, rowOf op fn imm = Rows.rr .greg .greg .greg .greg 1 fun f => mk f.gd3)
    (hfn : fn < 64) : Decodes (mk x) :=
  decodes_rr he hrow (fun _ => ⟨.greg _, .greg _, .greg _, .greg _, rfl⟩)
    (fun _ hd ha hb hc _ => congrArg mk (Fields.gd3_eq hd ha hb hc)) hfn (by decide)

theorem decodes_sendo {x y z : GReg} : Decodes (.sendo x y z) := by
  refine decodes_rr rfl (fun _ => rfl) (fun _ => ⟨.zero, .greg _, .greg _, .greg _, rfl⟩) (fun f _ ha hb hc _ => ?_) (by decide) (by decide)
  rw [Fields.ga_eq ha, Fields.gb_eq hb, Fields.gc_eq hc]

/-- No operand. -/
theorem decodes_bare (he : encode i = Enc.gw op fn 0 0 0 0)
    (hrow : ∀ imm, rowOf op fn imm = Rows.rr .zero .zero .zero .zero 1 fun _ => i)
    (hfn : fn < 64) : Decodes i :=
  decodes_rr he hrow (fun _ => ⟨.zero, .zero, .zero, .zero, rfl⟩) (fun _ _ _ _ _ _ => rfl) hfn (by decide)

theorem decodes_ccset {n : Fin 16} {x : GReg} : Decodes (.ccset n x) := by
  refine decodes_rr rfl (fun _ => rfl) (fun _ => ⟨.cc _, .greg _, .zero, .zero, rfl⟩) (fun f hd ha _ _ _ => ?_) (by decide) (by decide)
  rw [hd, Fin.ofNat_val, Fields.ga_eq ha]

theorem decodes_ccwait {n : Fin 16} : Decodes (.ccwait n) := by
  refine decodes_rr rfl (fun _ => rfl) (fun _ => ⟨.cc _, .zero, .zero, .zero, rfl⟩) (fun f hd _ _ _ _ => ?_) (by decide) (by decide)
  rw [hd, Fin.ofNat_val]

/-! ### RI words -/

theorem decodes_ri {mk : RI → Instr} {x : RI} (he : encode (mk x) = Enc.riw op x) (hw : wellFormed (mk x) = Wf.ri ts x)
    (hrow : ∀ imm, rowOf op 0 imm = Rows.ri ts mk) : Decodes (mk x) := by
  refine decodes_riWith he (hrow _) (fun h => ?_)
    (fun f _ hd ha ht himm _ _ _ => ⟨rfl, congrArg mk (Fields.ri_eq hd ha ht himm)⟩) x.imm.isLt (by decide)
  obtain ⟨hd, ht⟩ := (Bool.and_eq_true _ _).mp (hw.symm.trans h)
  exact ⟨.dst hd, .src _, x.t.code_lt_16, fun t hmem => Option.mem_some_iff.1 hmem ▸ ht⟩

theorem decodes_riShift {mk : RI → Instr} {x : RI} (he : encode (mk x) = Enc.riw op x) (hw : wellFormed (mk x) = Wf.shiftImm x)
    (hrow : ∀ imm, rowOf op 0 imm = Rows.riShift mk) : Decodes (mk x) := by
  refine decodes_riWith he (hrow _) (fun h => ?_) (fun f h hd ha ht himm _ _ _ => ⟨?_, congrArg mk (Fields.ri_eq hd ha ht himm)⟩)
    x.imm.isLt (by decide)
  · obtain ⟨hri, -⟩ := (Bool.and_eq_true _ _).mp (hw.symm.trans h)
    obtain ⟨hd, ht⟩ := (Bool.and_eq_true _ _).mp hri
    exact ⟨.dst hd, .src _, x.t.code_lt_16, fun t hmem => Option.mem_some_iff.1 hmem ▸ ht⟩
  · have hcount := ((Bool.and_eq_true _ _).mp (hw.symm.trans h)).2
    rw [himm, Fields.ofCode_eq ht]
    exact unlessOk_causeOther.2 hcount

theorem decodes_li {x : Opnd} {imm : BitVec 32} : Decodes (.li x imm) := by
  refine decodes_riWith rfl rfl (fun h => ⟨.dst h, .zero, by decide, fun t ht => Option.mem_some_iff.1 ht ▸ rfl⟩)
    (fun f _ hd _ _ himm _ _ _ => ⟨rfl, ?_⟩) imm.isLt (by decide)
  exact congrArg₂ Instr.li (Fields.od_eq hd) (Fields.imm32_eq himm)

theorem decodes_lih {x y : Opnd} {imm : BitVec 32} : Decodes (.lih x y imm) := by
  refine decodes_riWith rfl rfl (fun h => ⟨.dst h, .src _, by decide, fun t ht => Option.mem_some_iff.1 ht ▸ rfl⟩)
    (fun f _ hd ha _ himm _ _ _ => ⟨rfl, ?_⟩) imm.isLt (by decide)
  show Instr.lih f.od f.oa f.imm32 = _
  rw [Fields.od_eq hd, Fields.oa_eq ha, Fields.imm32_eq himm]

theorem toNat_bne_zero {n : Nat} {x : BitVec n} (h : (x != 0) = true) : (x.toNat != 0) = true :=
  bne_iff_ne.2 fun h0 => bne_iff_ne.1 h (BitVec.eq_of_toNat_eq h0)

theorem decodes_loopReg {x : Opnd} {n : BitVec 12} : Decodes (.loopReg x n) := by
  have hn : n.toNat < 2 ^ 12 := n.isLt
  refine decodes_riWith rfl rfl (fun _ => ⟨.zero, .src _, by decide, fun t ht => Option.mem_some_iff.1 ht ▸ rfl⟩)
    (fun f hw _ ha _ _ hlo hmid _ => ?_) (by omega) (by decide)
  rw [Nat.mod_eq_of_lt hn] at hlo
  rw [Nat.div_eq_of_lt hn] at hmid
  refine ⟨Nat.or_eq_zero_iff.2 ⟨unlessOk_causeZero.2 (beq_iff_eq.2 hmid), unlessOk_causeOther.2 (hlo ▸ toNat_bne_zero hw)⟩, ?_⟩
  show Instr.loopReg f.oa (BitVec.ofNat 12 (bitsOf f.w 0 12)) = _
  rw [Fields.oa_eq ha, hlo, BitVec.ofNat_toNat, BitVec.setWidth_eq]

theorem decodes_loopImm {count : BitVec 20} {n : BitVec 12} : Decodes (.loopImm count n) := by
  have hn : n.toNat < 2 ^ 12 := n.isLt
  have hc : count.toNat < 2 ^ 20 := count.isLt
  refine decodes_riWith rfl rfl (fun _ => ⟨.zero, .zero, by decide, fun t ht => Option.mem_some_iff.1 ht ▸ rfl⟩)
    (fun f hw _ _ _ _ hlo hmid _ => ?_) (by omega) (by decide)
  have hlo : bitsOf f.w 0 12 = n.toNat := by omega
  have hmid : bitsOf f.w 12 20 = count.toNat := by omega
  refine ⟨unlessOk_causeOther.2 (hlo ▸ toNat_bne_zero hw), ?_⟩
  show Instr.loopImm (BitVec.ofNat 20 (bitsOf f.w 12 20)) (BitVec.ofNat 12 (bitsOf f.w 0 12)) = _
  rw [hlo, hmid, BitVec.ofNat_toNat, BitVec.setWidth_eq, BitVec.ofNat_toNat, BitVec.setWidth_eq]

theorem decodes_blk {sig : BitVec 32} : Decodes (.blk sig) := by
  refine decodes_riWith rfl rfl (fun _ => ⟨.zero, .zero, by decide, nofun⟩) (fun f _ _ _ ht himm _ _ _ => ⟨?_, ?_⟩) sig.isLt (by decide)
  · exact Nat.or_eq_zero_iff.2 ⟨unlessOk_causeZero.2 (beq_iff_eq.2 ht), rfl⟩
  · exact congrArg Instr.blk (Fields.imm32_eq himm)

theorem decodes_trap {code : BitVec 16} : Decodes (.trap code) := by
  have hcode : code.toNat < 2 ^ 16 := code.isLt
  refine decodes_riWith rfl rfl (fun _ => ⟨.zero, .zero, by decide, nofun⟩) (fun f _ _ _ ht himm _ _ hhi => ⟨?_, congrArg Instr.trap ?_⟩)
    (by omega) (by decide)
  · rw [Nat.div_eq_of_lt hcode] at hhi
    exact Nat.or_eq_zero_iff.2 ⟨unlessOk_causeZero.2 (beq_iff_eq.2 ht), unlessOk_causeZero.2 (beq_iff_eq.2 hhi)⟩
  · rw [himm, BitVec.ofNat_toNat, BitVec.setWidth_eq]

/-- `sys` resume and kill (R185). -/
theorem decodes_sysA {mk : Opnd → Instr} {x : Opnd} {imm : Nat} (he : encode (mk x) = some (Enc.ri 0x39 0 0 x.code 0 imm))
    (hrow : rowOf 0x39 0 imm = Rows.ri0 .zero .src Rows.noExtra fun f => mk f.oa) (himm : imm < 2 ^ 32) : Decodes (mk x) :=
  decodes_riWith he hrow (fun _ => ⟨.zero, .src _, by decide, fun t ht => Option.mem_some_iff.1 ht ▸ rfl⟩)
    (fun _ _ _ ha _ _ _ _ _ => ⟨rfl, congrArg mk (Fields.oa_eq ha)⟩) himm (by decide)

theorem decodes_sysState {x y : Opnd} : Decodes (.sysState x y) :=
  decodes_riWith rfl rfl (fun h => ⟨.dst h, .src _, by decide, fun t ht => Option.mem_some_iff.1 ht ▸ rfl⟩)
    (fun _ _ hd ha _ _ _ _ _ => ⟨rfl, congrArg₂ Instr.sysState (Fields.od_eq hd) (Fields.oa_eq ha)⟩) (by decide) (by decide)

/-! ### Branches and system-register words -/

theorem hint_bne {h : Hint} {n : Nat} (hn : n = h.code) : unlessOk (n != 3) causeOther = 0 :=
  unlessOk_causeOther.2 (bne_iff_ne.2 (hn ▸ h.code_lt.ne))

theorem decodes_br {mk : BrArg → Instr} {x : BrArg} (he : encode (mk x) = Enc.brw fn x)
    (hrow : ∀ imm, rowOf 0x28 fn imm = Rows.br mk) (hfn : fn < 64) : Decodes (mk x) :=
  decodes_brWith he hrow (fun _ => ⟨.src _, .src _⟩)
    (fun _ hd ha hh ho => ⟨hint_bne hh, congrArg mk (Fields.brArg_eq hd ha hh ho)⟩) x.hint.code_lt x.off.isLt hfn

theorem decodes_jmp {h : Hint} {off : BitVec 32} : Decodes (.jmp h off) :=
  decodes_brWith rfl (fun _ => rfl) (fun _ => ⟨.zero, .zero⟩)
    (fun _ _ _ hh ho => ⟨hint_bne hh, congrArg₂ Instr.jmp (Fields.hint_eq hh) (Fields.imm32_eq ho)⟩) h.code_lt off.isLt (by decide)

theorem decodes_jal {x : Opnd} {h : Hint} {off : BitVec 32} : Decodes (.jal x h off) := by
  refine decodes_brWith rfl (fun _ => rfl) (fun hd => ⟨.dst hd, .zero⟩) (fun f hd _ hh ho => ⟨hint_bne hh, ?_⟩) h.code_lt off.isLt (by decide)
  show Instr.jal f.od (.ofCode f.hint) f.imm32 = _
  rw [Fields.od_eq hd, Fields.hint_eq hh, Fields.imm32_eq ho]

theorem num_eq {f : Fields} {num : BitVec 16} (h : f.num = num.toNat) : BitVec.ofNat 16 f.num = num := by
  rw [h, BitVec.ofNat_toNat, BitVec.setWidth_eq]

theorem decodes_gsr {x : Opnd} {num : BitVec 16} : Decodes (.gsr x num) := by
  refine decodes_sysWith rfl (fun _ => rfl) (fun h => ⟨.dst ((Bool.and_eq_true _ _).mp h).1, .zero⟩) fun f h hd _ hn => ⟨?_, ?_⟩
  · exact unlessOk_causeOther.2 (hn ▸ ((Bool.and_eq_true _ _).mp h).2)
  · exact congrArg₂ Instr.gsr (Fields.od_eq hd) (num_eq hn)

theorem decodes_ssr {num : BitVec 16} {x : Opnd} : Decodes (.ssr num x) := by
  refine decodes_sysWith rfl (fun _ => rfl) (fun _ => ⟨.zero, .src _⟩) fun f h _ ha hn => ⟨?_, ?_⟩
  · exact unlessOk_causeOther.2 (hn ▸ h)
  · exact congrArg₂ Instr.ssr (num_eq hn) (Fields.oa_eq ha)

/-! ### MEM words (R143, R178, R179, R261) -/

theorem scale_of_scaleOk {o : Opnd} {n : Fin 8} (h : Wf.scaleOk o n = true) : (o.code != 0 || n.val == 0) = true :=
  (Bool.or_eq_true _ _).mpr (((Bool.or_eq_true _ _).mp h).imp
    (fun hne => bne_iff_ne.2 fun h0 => bne_iff_ne.1 hne ((Opnd.ofCode_code o).symm.trans (congrArg Opnd.ofCode h0)))
    fun hz => beq_iff_eq.2 (congrArg Fin.val (beq_iff_eq.1 hz)))

theorem scale_of_gscaleOk {r : GReg} {n : Fin 8} (h : Wf.gscaleOk r n = true) : (r.val != 0 || n.val == 0) = true :=
  (Bool.or_eq_true _ _).mpr (((Bool.or_eq_true _ _).mp h).imp (fun hne => bne_iff_ne.2 fun h0 => bne_iff_ne.1 hne (Fin.ext h0))
    fun hz => beq_iff_eq.2 (congrArg Fin.val (beq_iff_eq.1 hz)))

theorem decodes_mem {mk : Fields → Instr} {scale : Fin 8} {off : BitVec 22}
    (he : encode i = some (Enc.mem op fn nd na nb scale.val nt off.toNat))
    (hrow : ∀ imm, rowOf op fn imm = Rows.mem d a b ts mk)
    (hl : wellFormed i = true → d.Holds nd ∧ a.Holds na ∧ b.Holds nb ∧ ts.testBit nt = true ∧ (nb != 0 || scale.val == 0) = true)
    (hi : ∀ f : Fields, f.d = nd → f.a = na → f.b = nb → f.scale = scale.val → f.tMem = nt → f.off = off.toNat → mk f = i)
    (hfn : fn < 64) (ht : nt < 16) : Decodes i := by
  refine decodes_memWith he hrow (fun h => ?_) (fun f h hd ha hb hs ht ho => ⟨?_, hi f hd ha hb hs ht ho⟩) scale.isLt off.isLt hfn
  · obtain ⟨hd, ha, hb, hts, -⟩ := hl h
    exact ⟨hd, ha, hb, ht, fun t hmem => Option.mem_some_iff.1 hmem ▸ hts⟩
  · obtain ⟨-, -, -, -, hscale⟩ := hl h
    rw [hb, hs]
    exact unlessOk_causeOther.2 hscale

theorem decodes_memw {mk : MemArg → Instr} {x : MemArg} (he : encode (mk x) = Enc.memw op x)
    (hrow : ∀ imm, rowOf op 0 imm = Rows.mem d .src .src tsMem fun f => mk f.memArg)
    (hw : wellFormed (mk x) = true → d.Holds x.d.code ∧ x.t.isIn tsMem = true ∧ Wf.scaleOk x.index x.scale = true) : Decodes (mk x) := by
  refine decodes_mem he hrow (fun h => ?_) (fun f hd ha hb hs ht ho => congrArg mk (Fields.memArg_eq hd ha hb hs ht ho))
    (by decide) x.t.code_lt_16
  obtain ⟨hd, ht, hs⟩ := hw h
  exact ⟨hd, .src _, .src _, ht, scale_of_scaleOk hs⟩

theorem decodes_pairw {mk : PairArg → Instr} {x : PairArg} (he : encode (mk x) = Enc.pairw op x)
    (hw : wellFormed (mk x) = (decide (x.d.val ≤ 62) && Wf.scaleOk x.index x.scale))
    (hrow : ∀ imm, rowOf op 0 imm = Rows.mem .pair .src .src 1 fun f => mk f.pairArg) : Decodes (mk x) := by
  refine decodes_mem he hrow (fun h => ?_) (fun f hd ha hb hs _ ho => congrArg mk (Fields.pairArg_eq hd ha hb hs ho)) (by decide) (by decide)
  obtain ⟨hd, hs⟩ := (Bool.and_eq_true _ _).mp (hw.symm.trans h)
  exact ⟨.pair hd, .src _, .src _, rfl, scale_of_scaleOk hs⟩

theorem decodes_gloadw {mk : GLoad → Instr} {x : GLoad} (he : encode (mk x) = Enc.gloadw op x)
    (hw : wellFormed (mk x) = (x.t.isIn ts && Wf.gscaleOk x.index x.scale))
    (hrow : ∀ imm, rowOf op 0 imm = Rows.mem .queue .greg .greg ts fun f => mk f.gload) :
    Decodes (mk x) := by
  refine decodes_mem he hrow (fun h => ?_) (fun f hd ha hb hs ht ho => congrArg mk (Fields.gload_eq hd ha hb hs ht ho))
    (by decide) x.t.code_lt_16
  obtain ⟨ht, hs⟩ := (Bool.and_eq_true _ _).mp (hw.symm.trans h)
  exact ⟨.queue _, .greg _, .greg _, ht, scale_of_gscaleOk hs⟩

theorem decodes_gstorew {mk : GStore → Instr} {x : GStore} (he : encode (mk x) = Enc.gstorew op x)
    (hw : wellFormed (mk x) = (x.t.isIn ts && Wf.gscaleOk x.index x.scale))
    (hrow : ∀ imm, rowOf op 0 imm = Rows.mem .greg .greg .greg ts fun f => mk f.gstore) :
    Decodes (mk x) := by
  refine decodes_mem he hrow (fun h => ?_) (fun f hd ha hb hs ht ho => congrArg mk (Fields.gstore_eq hd ha hb hs ht ho))
    (by decide) x.t.code_lt_16
  obtain ⟨ht, hs⟩ := (Bool.and_eq_true _ _).mp (hw.symm.trans h)
  exact ⟨.greg _, .greg _, .greg _, ht, scale_of_gscaleOk hs⟩

theorem decodes_pref {x y : GReg} {n : Fin 8} {off : BitVec 22} : Decodes (.pref x y n off) := by
  refine decodes_mem rfl (fun _ => rfl) (fun h => ⟨.zero, .greg _, .greg _, rfl, scale_of_gscaleOk h⟩)
    (fun f _ ha hb hs _ ho => ?_) (by decide) (by decide)
  rw [Fields.ga_eq ha, Fields.gb_eq hb, Fields.scale_eq hs, Fields.off22_eq ho]

/-- MEM words with a version operand or none: the scale is 0. -/
theorem decodes_memV {mk : Fields → Instr} {t : Ty} {off : BitVec 22} (he : encode i = some (Enc.mem op fn nd na nb 0 t.code off.toNat))
    (hrow : ∀ imm, rowOf op fn imm = Rows.memV d b mk) (hw : wellFormed i = t.isIn tsMem)
    (hl : d.Holds nd ∧ FieldKind.greg.Holds na ∧ b.Holds nb)
    (hi : ∀ f : Fields, f.d = nd → f.a = na → f.b = nb → f.tMem = t.code → f.off = off.toNat → mk f = i)
    (hfn : fn < 64) : Decodes i := by
  obtain ⟨hd, ha, hb⟩ := hl
  refine decodes_memWith he hrow (fun h => ?_) (fun f _ hd ha hb hs ht ho => ⟨?_, hi f hd ha hb ht ho⟩) (by decide) off.isLt hfn
  · exact ⟨hd, ha, hb, t.code_lt_16, fun ts hmem => Option.mem_some_iff.1 hmem ▸ hw.symm.trans h⟩
  · exact unlessOk_causeOther.2 (beq_iff_eq.2 hs)

theorem decodes_ldv {mk : Fin 8 → GReg → GReg → Ty → BitVec 22 → Instr} {q : Fin 8} {x y : GReg} {t : Ty} {off : BitVec 22}
    (he : encode (mk q x y t off) = some (Enc.mem 0x44 fn (64 + q.val) x.val y.val 0 t.code off.toNat))
    (hw : wellFormed (mk q x y t off) = t.isIn tsMem)
    (hrow : ∀ imm, rowOf 0x44 fn imm = Rows.memV .queue .greg fun f => mk f.qd f.ga f.gb (.ofCode f.tMem) f.off22)
    (hfn : fn < 64) : Decodes (mk q x y t off) := by
  refine decodes_memV he hrow hw ⟨.queue _, .greg _, .greg _⟩ (fun f hd ha hb ht ho => ?_) hfn
  rw [Fields.qd_eq hd, Fields.ga_eq ha, Fields.gb_eq hb, Fields.ofCode_eq ht, Fields.off22_eq ho]

theorem decodes_stv {x y : GReg} {t : Ty} {off : BitVec 22} : Decodes (.stv x y t off) := by
  refine decodes_memV rfl (fun _ => rfl) rfl ⟨.greg _, .greg _, .zero⟩ (fun f hd ha _ ht ho => ?_) (by decide)
  rw [Fields.gd_eq hd, Fields.ga_eq ha, Fields.ofCode_eq ht, Fields.off22_eq ho]

theorem decodes_stvAt {x y z : GReg} {t : Ty} {off : BitVec 22} : Decodes (.stvAt x y z t off) := by
  refine decodes_memV rfl (fun _ => rfl) rfl ⟨.greg _, .greg _, .greg _⟩ (fun f hd ha hb ht ho => ?_) (by decide)
  rw [Fields.gd_eq hd, Fields.ga_eq ha, Fields.gb_eq hb, Fields.ofCode_eq ht, Fields.off22_eq ho]

end
end Sys2Proof
end

section
/-! PROOFS (O55). The words of the vector engine (R199), read back from their fields. -/

namespace Sys2Proof

/-! ### Fields of an engine word and of its immediate -/

/-- The fields of an engine word that hold an instruction's FN, operands and gates. -/
structure Fields.IsEng (f : Fields) (fn d a b c : Nat) (g : Gates) : Prop where
  fn : f.fn = fn
  d : f.d = d
  a : f.a = a
  b : f.b = b
  c : f.c = c
  gates : f.gates = g
  gate : f.gate = Enc.gateNum g

/-- The fields of a vector command's immediate: T, pred and x (R199). -/
structure Fields.IsVec (f : Fields) (t p x : Nat) : Prop where
  t : f.tEng = t
  p : f.pred = p
  x : f.x = x

theorem Fields.isVec_of_low {f : Fields} {t p x : Nat} (h : f.low = Enc.low t p x) (hp : p < 8) (hx : x < 4) : f.IsVec t p x := by
  have hlow := f.low_eq_vector.symm.trans h
  have hfp : f.pred < 8 := bitsOf_lt f.w 2 3
  have hfx : f.x < 4 := bitsOf_lt f.w 0 2
  simp only [Enc.low] at hlow
  exact ⟨by omega, by omega, by omega⟩

theorem Enc.bit_le_one (b : Bool) : Enc.bit b ≤ 1 := Nat.le_of_lt_succ (Enc.bit_lt b)

theorem Enc.bit_lt_64 (b : Bool) : Enc.bit b < 64 := (Enc.bit_lt b).trans (by decide)

/-! ### Operand structures read back -/

namespace Fields

variable {f : Fields} {fn d a b c t p x : Nat} {g : Gates}

theorem ty_eq {t : Ty} (h : f.tEng = t.code) : f.ty = t := ofCode_eq h
theorem p8_eq {n : Fin 8} (h : f.pred = n.val) : f.p8 = n := by rw [p8, h, Fin.ofNat_val]
theorem mode_eq {m : RMode} (h : f.x = m.code) : f.mode = m := by rw [mode, h, RMode.ofCode_code]

theorem fnBit_eq {s : Bool} (h : f.fn = Enc.bit s) : f.fnBit = s := by
  cases s <;> rw [fnBit, h] <;> rfl

theorem v3_eq {x : V3} (h : f.IsEng (Enc.bit x.sat) x.d.val x.a.val x.b.val 0 x.gates)
    (hv : f.IsVec x.t.code x.pred.val x.mode.code) : f.v3 = x := by
  rw [v3, vd_eq h.d, va_eq h.a, vb_eq h.b, fnBit_eq h.fn, ty_eq hv.t, mode_eq hv.x, p8_eq hv.p, h.gates]

theorem v4_eq {x : V4} (h : f.IsEng (Enc.bit x.flag) x.d.val x.a.val x.b.val x.c.val x.gates)
    (hv : f.IsVec x.t.code x.pred.val x.mode.code) : f.v4 = x := by
  rw [v4, vd_eq h.d, va_eq h.a, vb_eq h.b, vc_eq h.c, fnBit_eq h.fn, ty_eq hv.t, mode_eq hv.x, p8_eq hv.p, h.gates]

theorem v2_eq {x : V2} (h : f.IsEng (Enc.bit x.sat) x.d.val x.a.val 0 0 x.gates)
    (hv : f.IsVec x.t.code x.pred.val x.mode.code) : f.v2 = x := by
  rw [v2, vd_eq h.d, va_eq h.a, fnBit_eq h.fn, ty_eq hv.t, mode_eq hv.x, p8_eq hv.p, h.gates]

theorem vmem_eq {x : VMem} (h : f.IsEng (Enc.bit x.sat) x.d.val x.a.val x.b.val 0 x.gates)
    (hv : f.IsVec x.t.code x.pred.val x.mode.code) : f.vmem = x := by
  rw [vmem, vd_eq h.d, ga_eq h.a, gb_eq h.b, fnBit_eq h.fn, ty_eq hv.t, mode_eq hv.x, p8_eq hv.p, h.gates]

theorem vcmpArg_eq {x : VCmp} (h : f.IsEng fn x.d.val x.a.val x.b.val 0 x.gates) (hv : f.IsVec x.t.code x.pred.val 0) :
    f.vcmpArg = x := by
  rw [vcmpArg, md_eq h.d, va_eq h.a, vb_eq h.b, ty_eq hv.t, p8_eq hv.p, h.gates]

theorem vidx_eq {x : VIdx} (h : f.IsEng 0 x.d.val x.a.val x.b.val 0 x.gates) (hv : f.IsVec x.t.code x.pred.val 0) : f.vidx = x := by
  rw [vidx, vd_eq h.d, ga_eq h.a, vb_eq h.b, ty_eq hv.t, p8_eq hv.p, h.gates]

theorem maskArg_eq {x : MaskArg} (h : f.IsEng fn x.d.val x.a.val x.b.val 0 x.gates) : f.maskArg = x := by
  rw [maskArg, md_eq h.d, ma_eq h.a, mb_eq h.b, h.gates]

theorem vpk_eq {x : VPk} (h : f.IsEng (Enc.bit x.sat) x.d.val x.a.val x.b.val 0 x.gates) (hx : f.x = Enc.bit x.l) : f.vpk = x := by
  rw [vpk, vd_eq h.d, va_eq h.a, vb_eq h.b, fnBit_eq h.fn, hx, Nat.mod_eq_of_lt (Enc.bit_lt x.l), Enc.bit_beq_one, h.gates]

theorem vlit_eq {x : VLit} (h : f.IsEng 0 x.d.val x.a.val x.b.val x.lit.val x.gates) (hp : f.pred = x.pred.val) : f.vlit = x := by
  rw [vlit, vd_eq h.d, va_eq h.a, vb_eq h.b, h.c, Fin.ofNat_val, p8_eq hp, h.gates]

end Fields

/-! ### What well-formedness gives for the checks of a row -/

section

variable {f : Fields} {ts : Nat} {t : Ty} {m : RMode} {p : Fin 8}

theorem xFloat_of_modeFor (h : Wf.modeFor t m = true) (hv : f.IsVec t.code p.val m.code) : Rows.xFloat f = 0 := by
  rw [Rows.xFloat_eq_zero, hv.x, hv.t, ← RMode.isZero_iff]
  exact ((Bool.or_eq_true _ _).mp h).symm

theorem code_ne_zero (h : t ≠ .none) : t.code ≠ 0 := fun h0 => h ((Ty.ofCode_code t).symm.trans (congrArg Ty.ofCode h0))

theorem predT_of_predFor {x : Nat} (h : Wf.predFor t p = true) (hv : f.IsVec t.code p.val x) : Rows.predT f = 0 := by
  rw [Rows.predT_eq_zero, hv.p, hv.t]
  exact ((Bool.or_eq_true _ _).mp h).symm.imp (fun hp => congrArg Fin.val (beq_iff_eq.1 hp)) fun ht => code_ne_zero (bne_iff_ne.1 ht)

theorem xZero_of_isZero (h : m.isZero = true) (hv : f.IsVec t.code p.val m.code) : Rows.xZero f = 0 :=
  Rows.xZero_eq_zero.2 (hv.x.trans (RMode.isZero_iff.1 h))

theorem fn1_of_bit {s : Bool} (h : f.fn = Enc.bit s) : Rows.fn1 f = 0 := Rows.fn1_eq_zero.2 (h.le.trans (Enc.bit_le_one s))

theorem fn0_of_bit {s : Bool} (h : f.fn = Enc.bit s) (hs : (!s) = true) : Rows.fn0 f = 0 := by
  rw [Rows.fn0_eq_zero, h, (Bool.not_eq_true' s).mp hs]
  rfl

theorem Wf.v3_plain {x : V3} (h : Wf.v3 ts false false x = true) :
    x.t.isIn ts = true ∧ (!x.sat) = true ∧ x.mode.isZero = true ∧ Wf.predFor x.t x.pred = true := by
  simp only [Wf.v3, Bool.and_eq_true, Bool.false_or] at h
  obtain ⟨⟨⟨ht, hs⟩, hm⟩, hp⟩ := h
  exact ⟨ht, hs, hm, hp⟩

theorem Wf.v2_plain {x : V2} (h : Wf.v2 ts false false x = true) :
    x.t.isIn ts = true ∧ (!x.sat) = true ∧ x.mode.isZero = true ∧ Wf.predFor x.t x.pred = true := by
  simp only [Wf.v2, Bool.and_eq_true, Bool.false_or] at h
  obtain ⟨⟨⟨ht, hs⟩, hm⟩, hp⟩ := h
  exact ⟨ht, hs, hm, hp⟩

end

/-! ### Vector words -/

section

variable {i : Instr} {op fn nd na nb nc nt np nx ts : Nat} {g : Gates} {d a b c : FieldKind} {extra : Fields → Nat}

theorem decodes_vec {mk : Fields → Instr} (he : encode i = some (Enc.eng op fn nd na nb nc g (Enc.low nt np nx)))
    (hrow : ∀ imm, rowOf op fn imm = Rows.eng d a b c (some ts) extra mk)
    (hl : wellFormed i = true → d.Holds nd ∧ a.Holds na ∧ b.Holds nb ∧ c.Holds nc ∧ ts.testBit nt = true)
    (hi : ∀ f : Fields, wellFormed i = true → f.IsEng fn nd na nb nc g → f.IsVec nt np nx → extra f = 0 ∧ mk f = i)
    (hfn : fn < 64) (ht : nt < 15) (hp : np < 8) (hx : nx < 4) : Decodes i := by
  refine decodes_engWith he hrow (fun h => ?_) (fun f h hffn hd ha hb hc hg hgate hlow => ?_)
  · obtain ⟨hd, ha, hb, hc, -⟩ := hl h
    exact ⟨hd, ha, hb, hc, hfn, by simp only [Enc.low]; omega⟩
  · obtain ⟨-, -, -, -, hts⟩ := hl h
    have hv := Fields.isVec_of_low hlow hp hx
    exact ⟨fun t hmem => Option.mem_some_iff.1 hmem ▸ hv.t ▸ hts, hi f h ⟨hffn, hd, ha, hb, hc, hg, hgate⟩ hv⟩

theorem decodes_v3sat {mk : V3 → Instr} {x : V3} (he : encode (mk x) = Enc.v3 op x)
    (hw : wellFormed (mk x) = Wf.v3 tsArith true true x) (hrow : ∀ fn imm, rowOf op fn imm = Rows.v3sat mk) : Decodes (mk x) := by
  have hwf (h : wellFormed (mk x) = true) : x.t.isIn tsArith = true ∧ Wf.modeFor x.t x.mode = true := by
    have h := hw.symm.trans h
    simp only [Wf.v3, Bool.and_eq_true, Bool.true_or, if_true] at h
    exact ⟨h.1.1.1, h.1.2⟩
  refine decodes_vec he (hrow _) (fun h => ⟨.vreg _, .vreg _, .vreg _, .zero, (hwf h).1⟩) (fun f h hf hv => ?_)
    (Enc.bit_lt_64 _) x.t.code_lt x.pred.isLt x.mode.code_lt
  exact ⟨Nat.or_eq_zero_iff.2 ⟨fn1_of_bit hf.fn, xFloat_of_modeFor (hwf h).2 hv⟩, congrArg mk (Fields.v3_eq hf hv)⟩

theorem decodes_v3 {mk : V3 → Instr} {x : V3} (he : encode (mk x) = Enc.v3 op x) (hw : wellFormed (mk x) = Wf.v3 ts false false x)
    (hrow : ∀ fn imm, rowOf op fn imm = Rows.v3 ts mk) : Decodes (mk x) := by
  have hwf h := Wf.v3_plain (hw.symm.trans h)
  refine decodes_vec he (hrow _) (fun h => ⟨.vreg _, .vreg _, .vreg _, .zero, (hwf h).1⟩) (fun f h hf hv => ⟨?_, ?_⟩)
    (Enc.bit_lt_64 _) x.t.code_lt x.pred.isLt x.mode.code_lt
  · obtain ⟨-, hs, hm, hp⟩ := hwf h
    exact Nat.or_eq_zero_iff.2 ⟨Nat.or_eq_zero_iff.2 ⟨fn0_of_bit hf.fn hs, xZero_of_isZero hm hv⟩, predT_of_predFor hp hv⟩
  · exact congrArg mk (Fields.v3_eq hf hv)

theorem decodes_v4 {mk : V4 → Instr} {x : V4} (he : encode (mk x) = Enc.v4 op x)
    (hw : wellFormed (mk x) = (x.t.isIn tsArith && Wf.modeFor x.t x.mode)) (hrow : ∀ fn imm, rowOf op fn imm = Rows.v4 mk) : Decodes (mk x) := by
  have hwf h := (Bool.and_eq_true _ _).mp (hw.symm.trans h)
  refine decodes_vec he (hrow _) (fun h => ⟨.vreg _, .vreg _, .vreg _, .vreg _, (hwf h).1⟩) (fun f h hf hv => ?_)
    (Enc.bit_lt_64 _) x.t.code_lt x.pred.isLt x.mode.code_lt
  exact ⟨Nat.or_eq_zero_iff.2 ⟨fn1_of_bit hf.fn, xFloat_of_modeFor (hwf h).2 hv⟩, congrArg mk (Fields.v4_eq hf hv)⟩

/-- Reductions: C is an accumulator or g0 (R199). -/
theorem decodes_vacc {mk : V4 → Instr} {x : V4} (he : encode (mk x) = Enc.v4 op x)
    (hw : wellFormed (mk x) = true → x.t.isIn ts = true ∧ Wf.modeFor x.t x.mode = true ∧ (x.flag || x.c == 0) = true ∧ b.Holds x.b.val)
    (hrow : ∀ fn imm, rowOf op fn imm = Rows.vacc b ts mk) : Decodes (mk x) := by
  refine decodes_vec he (hrow _)
    (fun h => ⟨.vreg _, .vreg _, (hw h).2.2.2, .lit (x.c.isLt.trans (by decide)), (hw h).1⟩) (fun f h hf hv => ⟨?_, ?_⟩)
    (Enc.bit_lt_64 _) x.t.code_lt x.pred.isLt x.mode.code_lt
  · obtain ⟨-, hm, hc, -⟩ := hw h
    refine Nat.or_eq_zero_iff.2 ⟨Nat.or_eq_zero_iff.2 ⟨fn1_of_bit hf.fn, xFloat_of_modeFor hm hv⟩, ?_⟩
    rw [hf.fn, hf.c]
    cases hflag : x.flag with
    | true => exact FieldKind.cause_eq_zero.2 (FieldKind.legal_vreg x.c)
    | false =>
      rw [hflag, Bool.false_or, beq_iff_eq] at hc
      rw [hc]
      rfl
  · exact congrArg mk (Fields.v4_eq hf hv)

theorem decodes_v2 {mk : V2 → Instr} {x : V2} (he : encode (mk x) = Enc.v2 op 0 x) (hw : wellFormed (mk x) = Wf.v2 ts false false x)
    (hrow : ∀ imm, rowOf op 0 imm = Rows.v2 ts mk) : Decodes (mk x) := by
  intro h
  obtain ⟨ht, hs, hm, hp⟩ := Wf.v2_plain (hw.symm.trans h)
  have hfn : 0 + Enc.bit x.sat = 0 := by rw [(Bool.not_eq_true' _).mp hs]; rfl
  have hfn' : Enc.bit x.sat = 0 := (Nat.zero_add _).symm.trans hfn
  rw [Enc.v2, hfn] at he
  refine decodes_vec he hrow (fun _ => ⟨.vreg _, .vreg _, .zero, .zero, ht⟩) (fun f _ hf hv => ⟨?_, ?_⟩)
    (by decide) x.t.code_lt x.pred.isLt x.mode.code_lt h
  · exact Nat.or_eq_zero_iff.2 ⟨Nat.or_eq_zero_iff.2 ⟨Rows.fn0_eq_zero.2 hf.fn, xZero_of_isZero hm hv⟩, predT_of_predFor hp hv⟩
  · exact congrArg mk (Fields.v2_eq (hfn'.symm ▸ hf) hv)

theorem decodes_v2sat {mk : V2 → Instr} {x : V2} (he : encode (mk x) = Enc.v2 op 0 x)
    (hrow : ∀ fn imm, rowOf op fn imm = Rows.eng .vreg .vreg .zero .zero (some ts) extra fun f => mk f.v2)
    (hw : wellFormed (mk x) = true → x.t.isIn ts = true)
    (hx : ∀ f : Fields, wellFormed (mk x) = true → f.fn = Enc.bit x.sat → f.IsVec x.t.code x.pred.val x.mode.code →
      extra f = 0) : Decodes (mk x) := by
  rw [Enc.v2, Nat.zero_add] at he
  exact decodes_vec he (hrow _) (fun h => ⟨.vreg _, .vreg _, .zero, .zero, hw h⟩)
    (fun f h hf hv => ⟨hx f h hf.fn hv, congrArg mk (Fields.v2_eq hf hv)⟩) (Enc.bit_lt_64 _) x.t.code_lt x.pred.isLt x.mode.code_lt

/-- `vabs` and `vneg`, which do not saturate a float. -/
theorem decodes_v2abs {mk : V2 → Instr} {x : V2} (he : encode (mk x) = Enc.v2 op 0 x)
    (hw : wellFormed (mk x) = (Wf.v2 tsArith true false x && (!x.sat || !x.t.isIn tsFloat)))
    (hrow : ∀ fn imm, rowOf op fn imm = Rows.v2abs mk) : Decodes (mk x) := by
  have hwf (h : wellFormed (mk x) = true) : x.t.isIn tsArith = true ∧ x.mode.isZero = true ∧ (!x.sat || !x.t.isIn tsFloat) = true := by
    have h := hw.symm.trans h
    simp only [Wf.v2, Bool.and_eq_true, Bool.true_or, Bool.false_eq_true, if_false] at h
    exact ⟨h.1.1.1.1, h.1.1.2, h.2⟩
  refine decodes_v2sat he hrow (fun h => (hwf h).1) (fun f h hfn hv => ?_)
  obtain ⟨-, hm, hs⟩ := hwf h
  refine Nat.or_eq_zero_iff.2 ⟨Nat.or_eq_zero_iff.2 ⟨fn1_of_bit hfn, xZero_of_isZero hm hv⟩, unlessOk_causeFn.2 ?_⟩
  rw [hfn, hv.t]
  cases hsat : x.sat with
  | false => rfl
  | true =>
    rw [hsat] at hs
    exact hs

theorem decodes_v2math {mk : V2 → Instr} {x : V2} (he : encode (mk x) = Enc.v2 op 0 x) (hw : wellFormed (mk x) = Wf.v2 tsFloat true true x)
    (hrow : ∀ fn imm, rowOf op fn imm = Rows.v2math mk) : Decodes (mk x) := by
  refine decodes_v2sat he hrow (fun h => ?_) (fun _ _ hfn _ => fn1_of_bit hfn)
  have h := hw.symm.trans h
  simp only [Wf.v2, Bool.and_eq_true] at h
  exact h.1.1.1

theorem decodes_vcmp {mk : VCmp → Instr} {x : VCmp} (he : encode (mk x) = Enc.vcmp fn x) (hw : wellFormed (mk x) = x.t.isIn tsCmp)
    (hrow : ∀ imm, rowOf 0x94 fn imm = Rows.vcmp mk) (hfn : fn < 64) : Decodes (mk x) :=
  decodes_vec he hrow (fun h => ⟨.mask _, .vreg _, .vreg _, .zero, hw.symm.trans h⟩)
    (fun _ _ hf hv => ⟨Rows.xZero_eq_zero.2 hv.x, congrArg mk (Fields.vcmpArg_eq hf hv)⟩)
    hfn x.t.code_lt x.pred.isLt (by decide)

theorem decodes_vmem {mk : VMem → Instr} {x : VMem} (he : encode (mk x) = Enc.vmem op x)
    (hw : wellFormed (mk x) = (x.t.isIn ts && !x.sat && x.mode.isZero && Wf.predFor x.t x.pred))
    (hrow : ∀ fn imm, rowOf op fn imm = Rows.vmem ts mk) : Decodes (mk x) := by
  have hwf (h : wellFormed (mk x) = true) :
      x.t.isIn ts = true ∧ (!x.sat) = true ∧ x.mode.isZero = true ∧ Wf.predFor x.t x.pred = true := by
    have h := hw.symm.trans h
    simp only [Bool.and_eq_true] at h
    obtain ⟨⟨⟨ht, hs⟩, hm⟩, hp⟩ := h
    exact ⟨ht, hs, hm, hp⟩
  refine decodes_vec he (hrow _) (fun h => ⟨.vreg _, .greg _, .greg _, .zero, (hwf h).1⟩) (fun f h hf hv => ⟨?_, ?_⟩)
    (Enc.bit_lt_64 _) x.t.code_lt x.pred.isLt x.mode.code_lt
  · obtain ⟨-, hs, hm, hp⟩ := hwf h
    exact Nat.or_eq_zero_iff.2 ⟨Nat.or_eq_zero_iff.2 ⟨fn0_of_bit hf.fn hs, xZero_of_isZero hm hv⟩, predT_of_predFor hp hv⟩
  · exact congrArg mk (Fields.vmem_eq hf hv)

theorem decodes_vldf {x : VMem} : Decodes (.vldf x) :=
  decodes_vec rfl (fun _ => rfl) (fun h => ⟨.vreg _, .greg _, .greg _, .zero, ((Bool.and_eq_true _ _).mp h).1⟩)
    (fun _ h hf hv => ⟨fn0_of_bit hf.fn ((Bool.and_eq_true _ _).mp h).2, congrArg Instr.vldf (Fields.vmem_eq hf hv)⟩)
    (Enc.bit_lt_64 _) x.t.code_lt x.pred.isLt x.mode.code_lt

theorem decodes_vstf {x : VMem} : Decodes (.vstf x) :=
  decodes_vec rfl (fun _ => rfl) (fun h => ⟨.vreg _, .greg _, .greg _, .zero, h⟩)
    (fun _ _ hf hv => ⟨fn1_of_bit hf.fn, congrArg Instr.vstf (Fields.vmem_eq hf hv)⟩)
    (Enc.bit_lt_64 _) x.t.code_lt x.pred.isLt x.mode.code_lt

theorem decodes_vidx {mk : VIdx → Instr} {x : VIdx} (he : encode (mk x) = Enc.vidx op x) (hw : wellFormed (mk x) = x.t.isIn tsCmp)
    (hrow : ∀ imm, rowOf op 0 imm = Rows.vidx mk) : Decodes (mk x) :=
  decodes_vec he hrow (fun h => ⟨.vreg _, .greg _, .vreg _, .zero, hw.symm.trans h⟩)
    (fun _ _ hf hv => ⟨Nat.or_eq_zero_iff.2 ⟨Rows.fn0_eq_zero.2 hf.fn, Rows.xZero_eq_zero.2 hv.x⟩, congrArg mk (Fields.vidx_eq hf hv)⟩)
    (by decide) x.t.code_lt x.pred.isLt (by decide)

/-- Commands on masks: T, pred and x are zero (R209, R210). -/
theorem decodes_mask {mk : MaskArg → Instr} {x : MaskArg} (he : encode (mk x) = Enc.maskw op fn x)
    (hrow : ∀ imm, rowOf op fn imm = Rows.mask d a b extra mk)
    (hl : wellFormed (mk x) = true → d.Holds x.d.val ∧ a.Holds x.a.val ∧ b.Holds x.b.val)
    (hx : ∀ f : Fields, f.fn = fn → extra f = 0) (hfn : fn < 64) : Decodes (mk x) := by
  refine decodes_vec (nt := 0) (np := 0) (nx := 0) he hrow (fun h => ?_) (fun f _ hf hv => ⟨?_, congrArg mk (Fields.maskArg_eq hf)⟩)
    hfn (by decide) (by decide) (by decide)
  · obtain ⟨hd, ha, hb⟩ := hl h
    exact ⟨hd, ha, hb, .zero, rfl⟩
  · exact Nat.or_eq_zero_iff.2 ⟨Nat.or_eq_zero_iff.2 ⟨Rows.xZero_eq_zero.2 hv.x, Rows.predNone_eq_zero.2 hv.p⟩, hx f hf.fn⟩

/-- A mask operand that is 0 goes to a zero field. -/
theorem FieldKind.Holds.of_mask_zero {n : MReg} (h : (n == 0) = true) : FieldKind.zero.Holds n.val := by
  rw [beq_iff_eq.1 h]
  exact .zero

theorem FieldKind.Holds.of_vreg_zero {n : VReg} (h : (n == 0) = true) : FieldKind.zero.Holds n.val := by
  rw [beq_iff_eq.1 h]
  exact .zero

theorem decodes_vsel {x : VSel} : Decodes (.vsel x) := by
  refine decodes_vec (np := 0) (nx := 0) rfl (fun _ => rfl) (fun h => ⟨.vreg _, .vreg _, .vreg _, .mask _, h⟩)
    (fun f _ hf hv => ⟨?_, congrArg Instr.vsel ?_⟩) (by decide) x.t.code_lt (by decide) (by decide)
  · exact Nat.or_eq_zero_iff.2 ⟨Rows.fn0_eq_zero.2 hf.fn, Rows.noPredX_eq_zero.2 ⟨hv.x, hv.p⟩⟩
  · rw [Fields.vd_eq hf.d, Fields.va_eq hf.a, Fields.vb_eq hf.b, Fields.mc_eq hf.c, Fields.ty_eq hv.t, hf.gates]

theorem decodes_vmovGm {x : VMovGm} : Decodes (.vmovGm x) := by
  refine decodes_vec (nt := 0) (np := 0) (nx := 0) rfl (fun _ => rfl) (fun _ => ⟨.mask _, .greg _, .zero, .zero, rfl⟩)
    (fun f _ hf hv => ⟨Rows.noPredX_eq_zero.2 ⟨hv.x, hv.p⟩, congrArg Instr.vmovGm ?_⟩) (by decide) (by decide) (by decide) (by decide)
  rw [Fields.md_eq hf.d, Fields.ga_eq hf.a, hf.gates]

theorem decodes_vbcast {x : VG} : Decodes (.vbcast x) := by
  refine decodes_vec (nx := 0) rfl (fun _ => rfl) (fun h => ⟨.vreg _, .greg _, .zero, .zero, h⟩)
    (fun f _ hf hv => ⟨?_, congrArg Instr.vbcast ?_⟩) (by decide) x.t.code_lt x.pred.isLt (by decide)
  · exact Nat.or_eq_zero_iff.2 ⟨Rows.fn0_eq_zero.2 hf.fn, Rows.xZero_eq_zero.2 hv.x⟩
  · rw [Fields.vd_eq hf.d, Fields.ga_eq hf.a, Fields.ty_eq hv.t, Fields.p8_eq hv.p, hf.gates]

theorem decodes_vrot {x : VRot} : Decodes (.vrot x) := by
  refine decodes_vec (nx := 0) rfl (fun _ => rfl) (fun h => ⟨.vreg _, .vreg _, .greg _, .zero, h⟩)
    (fun f _ hf hv => ⟨?_, congrArg Instr.vrot ?_⟩) (by decide) x.t.code_lt x.pred.isLt (by decide)
  · exact Nat.or_eq_zero_iff.2 ⟨Rows.fn0_eq_zero.2 hf.fn, Rows.xZero_eq_zero.2 hv.x⟩
  · rw [Fields.vd_eq hf.d, Fields.va_eq hf.a, Fields.gb_eq hf.b, Fields.ty_eq hv.t, Fields.p8_eq hv.p, hf.gates]

theorem decodes_vext {x : VExt} : Decodes (.vext x) := by
  refine decodes_vec (np := 0) (nx := 0) rfl (fun _ => rfl)
    (fun h => ⟨.zero, .vreg _, .zero, .lit x.index.isLt, ((Bool.and_eq_true _ _).mp h).1⟩)
    (fun f h hf hv => ⟨?_, congrArg Instr.vext ?_⟩) (by decide) x.t.code_lt (by decide) (by decide)
  · obtain ⟨ht, hindex⟩ := (Bool.and_eq_true _ _).mp h
    refine Nat.or_eq_zero_iff.2 ⟨Nat.or_eq_zero_iff.2 ⟨Rows.fn0_eq_zero.2 hf.fn, Rows.noPredX_eq_zero.2 ⟨hv.x, hv.p⟩⟩, ?_⟩
    rw [hv.t, hf.c, Fields.ty_eq hv.t]
    exact (if_pos ht).trans (unlessOk_causeOther.2 hindex)
  · rw [Fields.va_eq hf.a, hf.c, Fin.ofNat_val, Fields.ty_eq hv.t, hf.gates]

/-- `vcvt` holds its source type in FN, its part and its saturation in C (R205). -/
theorem decodes_vcvt {x : VCvt} : Decodes (.vcvt x) := by
  have hsat : Enc.bit x.sat < 2 := Enc.bit_lt x.sat
  have hpart : x.part.val < 8 := x.part.isLt
  have hsrc : x.src.code < 15 := x.src.code_lt
  have hwf (h : wellFormed (.vcvt x) = true) : x.t.isIn tsData = true ∧ x.src.isIn tsData = true ∧
      decide (x.part.val < Nat.max (Wf.esize x.src) (Wf.esize x.t) / Nat.min (Wf.esize x.src) (Wf.esize x.t)) = true := by
    obtain ⟨hts, hratio⟩ := (Bool.and_eq_true _ _).mp h
    obtain ⟨ht, hs⟩ := (Bool.and_eq_true _ _).mp hts
    exact ⟨ht, hs, hratio⟩
  refine decodes_vec rfl (fun _ => rfl) (fun h => ⟨.vreg _, .vreg _, .zero, .lit (by omega), (hwf h).1⟩)
    (fun f h hf hv => ?_) (by omega) x.t.code_lt x.pred.isLt x.mode.code_lt
  have hfn := hf.fn
  have hc := hf.c
  have hsrcval : f.fn / 4 = x.src.code := by omega
  have hpartval : f.c / 2 = x.part.val := by omega
  have hsatval : f.c % 2 = Enc.bit x.sat := by omega
  have hty := Fields.ty_eq hv.t
  constructor
  · obtain ⟨ht, hs, hratio⟩ := hwf h
    rw [hsrcval, hpartval, hty, hv.t, Ty.ofCode_code, Nat.mod_eq_of_lt hpart]
    refine Nat.or_eq_zero_iff.2 ⟨Nat.or_eq_zero_iff.2 ⟨Nat.or_eq_zero_iff.2 ⟨?_, unlessOk_causeFn.2 hs⟩, ?_⟩, ?_⟩
    · exact unlessOk_causeFnZero.2 (beq_iff_eq.2 (by omega))
    · exact unlessOk_causeZero.2 (decide_eq_true (by omega))
    · exact (if_pos ((Bool.and_eq_true _ _).mpr ⟨hs, ht⟩)).trans (unlessOk_causeOther.2 hratio)
  · rw [hsrcval, hpartval, hsatval, Fin.ofNat_val, Ty.ofCode_code, Enc.bit_beq_one, hty, Fields.vd_eq hf.d, Fields.va_eq hf.a,
      Fields.mode_eq hv.x, Fields.p8_eq hv.p, hf.gates]

theorem bit_ok {n : Nat} {l : Bool} (h : n = Enc.bit l) : unlessOk (decide (n ≤ 1)) causeOther = 0 :=
  unlessOk_causeOther.2 (decide_eq_true (h.le.trans (Enc.bit_le_one l)))

theorem decodes_vpack {x : VPk} : Decodes (.vpack x) := by
  refine decodes_vec (np := 0) rfl (fun _ => rfl) (fun _ => ⟨.vreg _, .vreg _, .vreg _, .zero, rfl⟩)
    (fun f _ hf hv => ⟨?_, congrArg Instr.vpack (Fields.vpk_eq hf hv.x)⟩) (Enc.bit_lt_64 _) (by decide) (by decide)
    ((Enc.bit_lt x.l).trans (by decide))
  exact Nat.or_eq_zero_iff.2 ⟨Nat.or_eq_zero_iff.2 ⟨fn1_of_bit hf.fn, Rows.predNone_eq_zero.2 hv.p⟩, bit_ok hv.x⟩

theorem decodes_vunpk {x : VPk} : Decodes (.vunpk x) := by
  intro h
  obtain ⟨hb, hs⟩ := (Bool.and_eq_true _ _).mp h
  have hfn : Enc.bit x.sat = 0 := by rw [(Bool.not_eq_true' _).mp hs]; rfl
  have hbval : x.b.val = 0 := congrArg Fin.val (beq_iff_eq.1 hb)
  refine decodes_vec (np := 0) rfl (fun _ => rfl) (fun _ => ⟨.vreg _, .vreg _, .zero, .zero, rfl⟩)
    (fun f _ hf hv => ⟨?_, congrArg Instr.vunpk (Fields.vpk_eq (hfn.symm ▸ hbval.symm ▸ hf) hv.x)⟩) (by decide) (by decide) (by decide)
    ((Enc.bit_lt x.l).trans (by decide)) h
  exact Nat.or_eq_zero_iff.2 ⟨Nat.or_eq_zero_iff.2 ⟨Rows.fn0_eq_zero.2 hf.fn, Rows.predNone_eq_zero.2 hv.p⟩, bit_ok hv.x⟩

theorem decodes_vredsum {x : V4} : Decodes (.vredsum x) := by
  refine decodes_vacc rfl (fun h => ?_) fun _ _ => rfl
  obtain ⟨h, hb⟩ := (Bool.and_eq_true _ _).mp h
  obtain ⟨h, hc⟩ := (Bool.and_eq_true _ _).mp h
  obtain ⟨ht, hm⟩ := (Bool.and_eq_true _ _).mp h
  exact ⟨ht, hm, hc, .of_vreg_zero hb⟩

theorem decodes_vdot {x : V4} : Decodes (.vdot x) := by
  refine decodes_vacc rfl (fun h => ?_) fun _ _ => rfl
  obtain ⟨h, hc⟩ := (Bool.and_eq_true _ _).mp h
  obtain ⟨ht, hm⟩ := (Bool.and_eq_true _ _).mp h
  exact ⟨ht, hm, hc, .vreg _⟩

theorem decodes_vtopk {x : VLit} : Decodes (.vtopk x) := by
  have hwf (h : wellFormed (.vtopk x) = true) :
      (decide (1 ≤ x.lit.val) && decide (x.lit.val ≤ 32)) = true ∧ decide (x.d.val % 2 = 0) = true := (Bool.and_eq_true _ _).mp h
  refine decodes_vec (nx := 0) rfl (fun _ => rfl) (fun h => ⟨.of_legal nofun ?_, .vreg _, .vreg _, .lit x.lit.isLt, rfl⟩)
    (fun f h hf hv => ⟨?_, congrArg Instr.vtopk (Fields.vlit_eq hf hv.p)⟩) (by decide) (by decide) x.pred.isLt (by decide)
  · have heven : x.d.val % 2 = 0 := of_decide_eq_true (hwf h).2
    exact (Bool.and_eq_true _ _).mpr ⟨decide_eq_true (by omega), beq_iff_eq.2 heven⟩
  · refine Nat.or_eq_zero_iff.2 ⟨Nat.or_eq_zero_iff.2 ⟨Rows.fn0_eq_zero.2 hf.fn, Rows.xZero_eq_zero.2 hv.x⟩, ?_⟩
    rw [hf.c]
    exact unlessOk_causeOther.2 (hwf h).1

theorem decodes_vsig {x : VLit} : Decodes (.vsig x) := by
  intro h
  obtain ⟨hlit, hb⟩ := (Bool.and_eq_true _ _).mp h
  refine decodes_vec (nx := 0) rfl (fun _ => rfl) (fun _ => ⟨.vreg _, .vreg _, .of_vreg_zero hb, .lit x.lit.isLt, rfl⟩)
    (fun f _ hf hv => ⟨?_, congrArg Instr.vsig (Fields.vlit_eq hf hv.p)⟩) (by decide) (by decide) x.pred.isLt (by decide) h
  refine Nat.or_eq_zero_iff.2 ⟨Nat.or_eq_zero_iff.2 ⟨Rows.fn0_eq_zero.2 hf.fn, Rows.xZero_eq_zero.2 hv.x⟩, ?_⟩
  rw [hf.c]
  exact unlessOk_causeZero.2 hlit

end
end Sys2Proof
end

section
/-! PROOFS (O55). The words of the matrix engine, the copy engine, the gates and attention (R220, R99, R109, R259), read back from their
fields. -/

namespace Sys2Proof

theorem Enc.bit_inj {a b : Bool} (h : Enc.bit a = Enc.bit b) : a = b :=
  (Enc.bit_beq_one a).symm.trans ((congrArg (· == 1) h).trans (Enc.bit_beq_one b))

/-! ### Matrix words -/

/-- A matrix command's immediate and its fields: T, bx, h, sat and the mode (R220). -/
structure Fields.IsMat (f : Fields) (t : Ty) (bx h sat : Bool) (m : RMode) : Prop where
  low : f.low = Enc.mlow t bx h sat m
  t : f.tEng = t.code
  bx : f.bx = bx
  h : f.h = h
  sat : f.msat = sat
  x : f.x = m.code

theorem Fields.isMat_of_low {f : Fields} {t : Ty} {bx h sat : Bool} {m : RMode} (hlow : f.low = Enc.mlow t bx h sat m) :
    f.IsMat t bx h sat m := by
  have heq := f.low_eq_matrix.symm.trans hlow
  have hfx : f.x < 4 := bitsOf_lt f.w 0 2
  have hx := m.code_lt
  have hfb := Enc.bit_lt f.bx
  have hfh := Enc.bit_lt f.h
  have hfs := Enc.bit_lt f.msat
  have hb := Enc.bit_lt bx
  have hh := Enc.bit_lt h
  have hs := Enc.bit_lt sat
  simp only [Enc.mlow] at heq
  exact ⟨hlow, by omega, Enc.bit_inj (by omega), Enc.bit_inj (by omega), Enc.bit_inj (by omega), by omega⟩

theorem Enc.mlow_lt (t : Ty) (bx h sat : Bool) (m : RMode) : Enc.mlow t bx h sat m < 512 := by
  have ht := t.code_lt
  have hx := m.code_lt
  have hb := Enc.bit_lt bx
  have hh := Enc.bit_lt h
  have hs := Enc.bit_lt sat
  simp only [Enc.mlow]
  omega

namespace Fields.IsMat

variable {f : Fields} {t : Ty} {bx h sat : Bool} {m : RMode}

theorem matT (hm : f.IsMat t bx h sat m) : f.matT = t := ofCode_eq hm.t
theorem mode (hm : f.IsMat t bx h sat m) : f.mode = m := mode_eq hm.x

/-- The immediate's low bits are zero without sat and with the nearest-even mode. -/
theorem bits_0_3_zero (hm : f.IsMat t bx h false .rne) : bitsOf f.w 0 3 = 0 := by
  rw [Fields.bits_0_3, hm.sat, hm.x]
  rfl

theorem bits_3_2_zero (hm : f.IsMat t false false sat m) : bitsOf f.w 3 2 = 0 := by
  rw [Fields.bits_3_2, hm.bx, hm.h]
  rfl

theorem bits_0_5_zero (hm : f.IsMat t false false false .rne) : bitsOf f.w 0 5 = 0 := by
  rw [Fields.bits_0_5, hm.bits_3_2_zero, hm.bits_0_3_zero, Nat.zero_mul]

theorem bits_4_5_zero (hm : f.IsMat .none false h sat m) : bitsOf f.w 4 5 = 0 := by
  rw [Fields.bits_4_5, hm.t, hm.bx]
  rfl

end Fields.IsMat

section

variable {i : Instr} {op fn nd na nb nc : Nat} {g : Gates} {d a b c : FieldKind} {extra : Fields → Nat}

theorem decodes_mat {t : Ty} {bx h sat : Bool} {m : RMode} {ts : Option Nat} {mk : Fields → Instr}
    (he : encode i = some (Enc.eng op fn nd na nb nc g (Enc.mlow t bx h sat m)))
    (hrow : ∀ imm, rowOf op fn imm = Rows.eng d a b c ts extra mk)
    (hl : wellFormed i = true → d.Holds nd ∧ a.Holds na ∧ b.Holds nb ∧ c.Holds nc ∧ ∀ u ∈ ts, u.testBit t.code = true)
    (hi : ∀ f : Fields, wellFormed i = true → f.IsEng fn nd na nb nc g → f.IsMat t bx h sat m → extra f = 0 ∧ mk f = i)
    (hfn : fn < 64) : Decodes i := by
  refine decodes_engWith he hrow (fun h => ?_) (fun f h hffn hd ha hb hc hg hgate hlow => ?_)
  · obtain ⟨hd, ha, hb, hc, -⟩ := hl h
    exact ⟨hd, ha, hb, hc, hfn, Enc.mlow_lt _ _ _ _ _⟩
  · obtain ⟨-, -, -, -, hts⟩ := hl h
    have hm := Fields.isMat_of_low hlow
    exact ⟨fun u hmem => hm.t ▸ hts u hmem, hi f h ⟨hffn, hd, ha, hb, hc, hg, hgate⟩ hm⟩

theorem decodes_mmz {x : Tile} {g : Gates} : Decodes (.mmz x g) := by
  refine decodes_mat (t := .none) (bx := false) (h := false) (sat := false) (m := .rne) rfl (fun _ => rfl)
    (fun _ => ⟨.tile _, .zero, .zero, .zero, nofun⟩) (fun f _ hf hm => ⟨?_, ?_⟩) (by decide)
  · exact Nat.or_eq_zero_iff.2 ⟨Rows.fn0_eq_zero.2 hf.fn, unlessOk_causeZero.2 (beq_iff_eq.2 hm.low)⟩
  · exact congrArg₂ Instr.mmz (Fields.td_eq hf.d) hf.gates

/-- Products: z and k are in FN, and the type, h and bx are ones that R219 allows. -/
theorem decodes_mmul {mk : MMul → Instr} {x : MMul} {fnOk : Fields → Bool} (he : encode (mk x) = Enc.mmul op x)
    (hrow : ∀ fn imm, rowOf op fn imm =
      Rows.eng .tile .greg .greg .greg none (fun f => Rows.mmulCause f ||| unlessOk (fnOk f) causeFn) fun f => mk f.mmul)
    (hw : wellFormed (mk x) = true → Wf.mmul x = true)
    (hfn : ∀ f : Fields, wellFormed (mk x) = true → f.fn = Enc.bit x.z * 16 + x.k.val → fnOk f = true) : Decodes (mk x) := by
  have hz := Enc.bit_lt x.z
  have hk : x.k.val < 16 := x.k.isLt
  refine decodes_mat he (hrow _) (fun _ => ⟨.tile _, .greg _, .greg _, .greg _, nofun⟩)
    (fun f h hf hm => ⟨Nat.or_eq_zero_iff.2 ⟨?_, unlessOk_causeFn.2 (hfn f h hf.fn)⟩, congrArg mk ?_⟩) (by omega)
  · have hmm := hw h
    obtain ⟨ht, hbx⟩ := (Bool.and_eq_true _ _).mp hmm
    rw [Rows.mmulCause, hm.t, hm.bx, hm.h, Fields.td_eq hf.d, hm.bits_0_3_zero]
    exact Nat.or_eq_zero_iff.2 ⟨Nat.or_eq_zero_iff.2 ⟨rfl, unlessOk_causeOther.2 ht⟩, unlessOk_causeOther.2 hbx⟩
  · have hfn := hf.fn
    have hzval : f.fn / 16 % 2 = Enc.bit x.z := by omega
    have hkval : Fin.ofNat 16 f.fn = x.k := Fin.ext (by show f.fn % 16 = _; omega)
    rw [Fields.mmul, hzval, hkval, Enc.bit_beq_one, Fields.td_eq hf.d, Fields.ga_eq hf.a, Fields.gb_eq hf.b, Fields.gc_eq hf.c,
      hm.matT, hm.bx, hm.h, hf.gates]

theorem fn_lt_32 {x : MMul} {n : Nat} (h : n = Enc.bit x.z * 16 + x.k.val) : decide (n < 32) = true := by
  have hz := Enc.bit_lt x.z
  have hk : x.k.val < 16 := x.k.isLt
  exact decide_eq_true (by omega)

theorem decodes_mma {x : MMul} : Decodes (.mma x) :=
  decodes_mmul rfl (fun _ _ => rfl) (fun h => h) fun _ _ hfn => fn_lt_32 hfn

theorem decodes_msp {x : MMul} : Decodes (.msp x) :=
  decodes_mmul rfl (fun _ _ => rfl) (fun h => h) fun _ _ hfn => fn_lt_32 hfn

theorem decodes_mmv {x : MMul} : Decodes (.mmv x) := by
  refine decodes_mmul rfl (fun _ _ => rfl) (fun h => ((Bool.and_eq_true _ _).mp h).1) fun f h hfn => ?_
  have hk : x.k.val = 0 := congrArg Fin.val (beq_iff_eq.1 ((Bool.and_eq_true _ _).mp h).2)
  rw [hfn, hk]
  cases x.z <;> rfl

theorem Fields.mmem_eq {f : Fields} {x : MMem} (hf : f.IsEng fn x.d.code x.a.val x.b.val 0 x.gates)
    (hm : f.IsMat x.t false false x.sat x.mode) : f.mmem = x := by
  rw [mmem, td_eq hf.d, ga_eq hf.a, gb_eq hf.b, hm.matT, hm.sat, hm.mode, hf.gates]

/-- Whether a tile is full decides the types that `mld` and `mst` take (R233, R234). -/
theorem typeOk_of_isIn {f : Fields} {x : MMem} {full half : Nat} (hd : f.d = x.d.code) (ht : f.tEng = x.t.code)
    (h : (if x.d.half == .full then x.t.isIn full else x.t.isIn half) = true) :
    unlessOk (Nat.testBit (if f.td.half = .full then full else half) f.tEng) causeOther = 0 := by
  rw [unlessOk_causeOther, Fields.td_eq hd, ht]
  split at h
  · next hfull => rw [if_pos (beq_iff_eq.1 hfull)]; exact h
  · next hne => rw [if_neg (fun hh => hne (beq_iff_eq.2 hh))]; exact h

theorem decodes_mld {x : MMem} : Decodes (.mld x) := by
  refine decodes_mat rfl (fun _ => rfl) (fun _ => ⟨.tile _, .greg _, .greg _, .zero, nofun⟩)
    (fun f h hf hm => ⟨?_, congrArg Instr.mld (Fields.mmem_eq hf hm)⟩) (by decide)
  obtain ⟨hround, ht⟩ := (Bool.and_eq_true _ _).mp h
  obtain ⟨hsat, hmode⟩ := (Bool.and_eq_true _ _).mp hround
  have hzero : bitsOf f.w 0 5 = 0 := by
    rw [Fields.bits_0_5, hm.bits_3_2_zero, Fields.bits_0_3, hm.sat, hm.x, (Bool.not_eq_true' _).mp hsat, RMode.isZero_iff.1 hmode]
    rfl
  exact Nat.or_eq_zero_iff.2 ⟨Nat.or_eq_zero_iff.2 ⟨Rows.fn0_eq_zero.2 hf.fn, unlessOk_causeZero.2 (beq_iff_eq.2 hzero)⟩,
    typeOk_of_isIn hf.d hm.t ht⟩

theorem decodes_mst {x : MMem} : Decodes (.mst x) := by
  refine decodes_mat rfl (fun _ => rfl) (fun _ => ⟨.tile _, .greg _, .greg _, .zero, nofun⟩)
    (fun f h hf hm => ⟨?_, congrArg Instr.mst (Fields.mmem_eq hf hm)⟩) (by decide)
  obtain ⟨ht, hround⟩ := (Bool.and_eq_true _ _).mp h
  refine Nat.or_eq_zero_iff.2 ⟨Nat.or_eq_zero_iff.2 ⟨Nat.or_eq_zero_iff.2 ⟨Rows.fn0_eq_zero.2 hf.fn, ?_⟩,
    typeOk_of_isIn hf.d hm.t ht⟩, unlessOk_causeOther.2 ?_⟩
  · exact unlessOk_causeZero.2 (beq_iff_eq.2 hm.bits_3_2_zero)
  · rw [Fields.td_eq hf.d, hm.t]
    refine (Bool.or_eq_true _ _).mpr (((Bool.or_eq_true _ _).mp hround).symm.imp (fun hr => ?_) fun hf => ?_)
    · obtain ⟨hsat, hmode⟩ := (Bool.and_eq_true _ _).mp hr
      rw [Fields.bits_0_3, hm.sat, hm.x, (Bool.not_eq_true' _).mp hsat, RMode.isZero_iff.1 hmode]
      rfl
    · rw [Bool.not_eq_true', Bool.or_eq_false_iff] at hf
      obtain ⟨hty, hhalf⟩ := hf
      refine (Bool.and_eq_true _ _).mpr ⟨bne_iff_ne.2 fun h11 => ?_, ?_⟩
      · exact beq_eq_false_iff_ne.1 hty ((Ty.ofCode_code x.t).symm.trans (congrArg Ty.ofCode h11))
      · rw [bne, Bool.not_eq_false'] at hhalf
        exact hhalf

theorem decodes_mdirWith {mk : MDir → Instr} {x : MDir}
    (he : encode (mk x) = some (Enc.eng 0xC6 fn 0 x.a.val 0 0 x.gates (Enc.mlow x.t false false false .rne)))
    (hw : wellFormed (mk x) = x.t.isIn tsMat)
    (hrow : ∀ imm, rowOf 0xC6 fn imm = Rows.eng .zero .greg .zero .zero (some tsMat)
      (fun f => Rows.fn1 f ||| unlessOk (bitsOf f.w 0 5 == 0) causeZero) fun f => mk f.mdir) (hfn : fn ≤ 1) : Decodes (mk x) := by
  refine decodes_mat he hrow
    (fun h => ⟨.zero, .greg _, .zero, .zero, fun u hmem => Option.mem_some_iff.1 hmem ▸ hw.symm.trans h⟩)
    (fun f _ hf hm => ⟨?_, congrArg mk ?_⟩) (hfn.trans_lt (by decide))
  · exact Nat.or_eq_zero_iff.2 ⟨Rows.fn1_eq_zero.2 (hf.fn.le.trans hfn), unlessOk_causeZero.2 (beq_iff_eq.2 hm.bits_0_5_zero)⟩
  · rw [Fields.mdir, Fields.ga_eq hf.a, hm.matT, hf.gates]

theorem decodes_mdir {x : MDir} : Decodes (.mdir x) := decodes_mdirWith rfl rfl (fun _ => rfl) (by decide)

theorem decodes_mdirPush {x : MDir} : Decodes (.mdirPush x) := decodes_mdirWith rfl rfl (fun _ => rfl) (by decide)

theorem decodes_msclWith {mk : Fields → Instr} {x : Tile} {h sat : Bool} {m : RMode}
    (he : encode i = some (Enc.eng 0xC7 fn x.code na 0 0 g (Enc.mlow .none false h sat m)))
    (hw : wellFormed i = (!h || x.half != .full)) (hrow : ∀ imm, rowOf 0xC7 fn imm = Rows.mscl a mk) (ha : a.Holds na)
    (hi : ∀ f : Fields, f.IsEng fn x.code na 0 0 g → f.IsMat .none false h sat m → mk f = i) (hfn : fn < 64) : Decodes i := by
  refine decodes_mat he hrow (fun _ => ⟨.tile _, ha, .zero, .zero, nofun⟩) (fun f h hf hm => ⟨?_, hi f hf hm⟩) hfn
  rw [hm.t, hm.bx, hm.h, Fields.td_eq hf.d]
  exact Nat.or_eq_zero_iff.2 ⟨rfl, unlessOk_causeOther.2 (hw.symm.trans h)⟩

theorem decodes_msclRow {x : MScl} : Decodes (.msclRow x) := by
  refine decodes_msclWith rfl rfl (fun _ => rfl) (.vreg _) (fun f hf hm => congrArg Instr.msclRow ?_) (by decide)
  rw [Fields.mscl, Fields.td_eq hf.d, Fields.va_eq hf.a, hm.h, hm.sat, hm.mode, hf.gates]

theorem decodes_msclCol {x : MScl} : Decodes (.msclCol x) := by
  refine decodes_msclWith rfl rfl (fun _ => rfl) (.vreg _) (fun f hf hm => congrArg Instr.msclCol ?_) (by decide)
  rw [Fields.mscl, Fields.td_eq hf.d, Fields.va_eq hf.a, hm.h, hm.sat, hm.mode, hf.gates]

theorem decodes_msclAll {x : MSclAll} : Decodes (.msclAll x) := by
  refine decodes_msclWith rfl rfl (fun _ => rfl) (.greg _) (fun f hf hm => congrArg Instr.msclAll ?_) (by decide)
  rw [Fields.msclAll, Fields.td_eq hf.d, Fields.ga_eq hf.a, hm.h, hm.sat, hm.mode, hf.gates]

theorem decodes_mrd {mk : MRd → Instr} {x : MRd}
    (he : encode (mk x) = some (Enc.eng 0xC8 fn x.d.val x.a.code 0 x.i.val x.gates 0))
    (hrow : ∀ imm, rowOf 0xC8 fn imm = Rows.mrdRow mk) (hfn : fn < 64) : Decodes (mk x) := by
  have hi : x.i.val < 32 := x.i.isLt
  refine decodes_mat (t := .none) (bx := false) (h := false) (sat := false) (m := .rne) he hrow
    (fun _ => ⟨.vreg _, .tile _, .zero, .lit (hi.trans (by decide)), nofun⟩) (fun f _ hf hm => ⟨?_, congrArg mk ?_⟩) hfn
  · exact unlessOk_causeZero.2 ((Bool.and_eq_true _ _).mpr ⟨beq_iff_eq.2 hm.low, decide_eq_true (by have hc := hf.c; omega)⟩)
  · rw [Fields.mrd, Fields.vd_eq hf.d, Fields.ta_eq hf.a, hf.c, Fin.ofNat_val, hf.gates]

theorem decodes_mrdEl {x : MRdEl} : Decodes (.mrdEl x) := by
  refine decodes_mat rfl (fun _ => rfl) (fun _ => ⟨.zero, .tile _, .greg _, .zero, nofun⟩)
    (fun f h hf hm => ⟨?_, congrArg Instr.mrdEl ?_⟩) (by decide)
  · rw [hm.bits_4_5_zero, hm.bits_0_3_zero, hm.h, Fields.ta_eq hf.a]
    exact Nat.or_eq_zero_iff.2 ⟨rfl, unlessOk_causeOther.2 h⟩
  · rw [Fields.mrdEl, Fields.ta_eq hf.a, Fields.gb_eq hf.b, hm.h, hf.gates]

/-! ### Copy words and gates (R99, R109) -/

/-- The fields of a copy command's immediate: the spaces and the operation's bits (R99). -/
structure Fields.IsCopy (f : Fields) (dsp ssp : Bool) (op : Nat) : Prop where
  dsp : f.dsp = dsp
  ssp : f.ssp = ssp
  op7 : f.op7 = op

theorem Fields.isCopy_of_low {f : Fields} {dsp ssp : Bool} {op : Nat} (hlow : f.low = Enc.spaces dsp ssp op) (hop : op < 128) :
    f.IsCopy dsp ssp op := by
  have heq := f.low_eq_copy.symm.trans hlow
  have hfop : f.op7 < 128 := bitsOf_lt f.w 0 7
  have hfd := Enc.bit_lt f.dsp
  have hfs := Enc.bit_lt f.ssp
  have hd := Enc.bit_lt dsp
  have hs := Enc.bit_lt ssp
  simp only [Enc.spaces] at heq
  exact ⟨Enc.bit_inj (by omega), Enc.bit_inj (by omega), by omega⟩

theorem Enc.spaces_lt (d s : Bool) {op : Nat} (hop : op < 128) : Enc.spaces d s op < 512 := by
  have hd := Enc.bit_lt d
  have hs := Enc.bit_lt s
  simp only [Enc.spaces]
  omega

theorem decodes_copyWith {dsp ssp : Bool} {n : Nat} {mk : Fields → Decoded}
    (he : encode i = some (Enc.eng op fn nd na nb nc g (Enc.spaces dsp ssp n)))
    (hrow : ∀ imm, rowOf op fn imm = Rows.engD d a b c extra mk)
    (hl : wellFormed i = true → d.Holds nd ∧ a.Holds na ∧ b.Holds nb ∧ c.Holds nc)
    (hi : ∀ f : Fields, f.IsEng fn nd na nb nc g → f.IsCopy dsp ssp n → extra f = 0 ∧ (mk f).toInstr = i)
    (hn : n < 128) (hfn : fn < 64) : Decodes i := by
  refine decodes_engWith he hrow (fun h => ?_) (fun f _ hffn hd ha hb hc hg hgate hlow => ?_)
  · obtain ⟨hd, ha, hb, hc⟩ := hl h
    exact ⟨hd, ha, hb, hc, hfn, Enc.spaces_lt _ _ hn⟩
  · exact ⟨nofun, hi f ⟨hffn, hd, ha, hb, hc, hg, hgate⟩ (Fields.isCopy_of_low hlow hn)⟩

/-- Copies whose operation has no bits of its own. -/
theorem decodes_cpy {mk : CopyArg → Decoded} {x : CopyArg} (he : encode (mk x).toInstr =
      some (Enc.eng op fn x.d.val x.a.val x.b.val x.c.val x.gates (Enc.spaces x.dsp x.ssp 0)))
    (hrow : ∀ imm, rowOf op fn imm =
      Rows.engD .greg .greg .greg c (fun f => unlessOk (f.op7 == 0) causeZero) fun f => mk f.copyArg)
    (hc : wellFormed (mk x).toInstr = true → c.Holds x.c.val) (hfn : fn < 64) :
    Decodes (mk x).toInstr := by
  refine decodes_copyWith he hrow (fun h => ⟨.greg _, .greg _, .greg _, hc h⟩)
    (fun f hf hcopy => ⟨unlessOk_causeZero.2 (beq_iff_eq.2 hcopy.op7), congrArg (fun x => (mk x).toInstr) ?_⟩) (by decide) hfn
  rw [Fields.copyArg, Fields.gd_eq hf.d, Fields.ga_eq hf.a, Fields.gb_eq hf.b, Fields.gc_eq hf.c, hcopy.dsp, hcopy.ssp, hf.gates]

/-- A register that is g0 goes to a zero field. -/
theorem FieldKind.Holds.of_greg_zero {n : GReg} (h : (n == 0) = true) : FieldKind.zero.Holds n.val := by
  rw [beq_iff_eq.1 h]
  exact .zero

theorem decodes_cpyc {x : CpycArg} : Decodes (.cpyc x) := by
  have hsat := Enc.bit_lt x.sat
  have hmode := x.mode.code_lt
  refine decodes_copyWith rfl (fun _ => rfl) (fun _ => ⟨.greg _, .greg _, .greg _, .zero⟩)
    (fun f hf hc => ⟨unlessOk_causeZero.2 (decide_eq_true (by have hop := hc.op7; omega)), congrArg Instr.cpyc ?_⟩) (by omega) (by decide)
  have hop := f.op7_eq.symm.trans hc.op7
  have hfsat := Enc.bit_lt f.msat
  have hfx : f.x < 4 := bitsOf_lt f.w 0 2
  rw [Fields.cpycArg, Fields.gd_eq hf.d, Fields.ga_eq hf.a, Fields.gb_eq hf.b, hc.dsp, hc.ssp, hf.gates,
    Fields.mode_eq (m := x.mode) (by omega), Enc.bit_inj (a := f.msat) (b := x.sat) (by omega)]

theorem decodes_cfill {x : CfillArg} : Decodes (.cfill x) := by
  have hlw : x.lw.val < 4 := x.lw.isLt
  refine decodes_copyWith rfl (fun _ => rfl) (fun _ => ⟨.greg _, .greg _, .greg _, .zero⟩)
    (fun f hf hc => ⟨?_, congrArg Instr.cfill ?_⟩) (by omega) (by decide)
  · rw [hc.ssp, hc.op7, decide_eq_true hlw]
    rfl
  · have hop := f.op7_eq.symm.trans hc.op7
    have hfx : f.x < 4 := bitsOf_lt f.w 0 2
    have hx : f.x = x.lw.val := by omega
    rw [Fields.cfillArg, Fields.gd_eq hf.d, Fields.ga_eq hf.a, Fields.gb_eq hf.b, hc.dsp, hx, Fin.ofNat_val, hf.gates]

theorem decodes_gset {n : Fin 32} {cmd : Bool} {x y : GReg} : Decodes (.gset n cmd x y) := by
  refine decodes_gatew (a := .greg) (b := .greg) (d := .zero) (allowed := 0)
    (mk := fun f => .gset (Fin.ofNat 32 f.gate) cmd f.ga f.gb) rfl
    (fun _ => by cases cmd <;> rfl) ⟨.zero, .greg _, .greg _, .inl rfl⟩ (fun f _ ha hb hg _ => ?_) (Enc.bit_lt_64 cmd) (by decide)
  show Instr.gset (Fin.ofNat 32 f.gate) cmd f.ga f.gb = _
  rw [hg, Fin.ofNat_val, Fields.ga_eq ha, Fields.gb_eq hb]

theorem decodes_gadd {n : Fin 32} {x : GReg} : Decodes (.gadd n x) := by
  refine decodes_gatew rfl (fun _ => rfl) ⟨.zero, .greg _, .zero, .inl rfl⟩ (fun f _ ha _ hg _ => ?_) (by decide) (by decide)
  show Instr.gadd (Fin.ofNat 32 f.gate) f.ga = _
  rw [hg, Fin.ofNat_val, Fields.ga_eq ha]

theorem decodes_gwt {n : Fin 32} {p : Bool} : Decodes (.gwt n p) := by
  refine decodes_gatew rfl (fun _ => rfl) ⟨.zero, .zero, .zero, by cases p <;> decide⟩ (fun f _ _ _ hg hi => ?_) (by decide) (by decide)
  show Instr.gwt (Fin.ofNat 32 f.gate) (f.imm16 != 0) = _
  rw [hg, Fin.ofNat_val, hi]
  cases p <;> rfl

theorem decodes_gpoll {x : GReg} {n : Fin 32} : Decodes (.gpoll x n) := by
  refine decodes_gatew rfl (fun _ => rfl) ⟨.greg _, .zero, .zero, .inl rfl⟩ (fun f hd _ _ hg _ => ?_) (by decide) (by decide)
  show Instr.gpoll f.gd (Fin.ofNat 32 f.gate) = _
  rw [hg, Fin.ofNat_val, Fields.gd_eq hd]

/-! ### Attention words (R259) -/

theorem decodes_attWith {mk : Fields → Decoded} (he : encode i = some (Enc.eng op fn nd na nb nc g 0))
    (hrow : ∀ imm, rowOf op fn imm = Rows.att d a b c extra mk)
    (hl : wellFormed i = true → d.Holds nd ∧ a.Holds na ∧ b.Holds nb ∧ c.Holds nc)
    (hi : ∀ f : Fields, wellFormed i = true → f.IsEng fn nd na nb nc g → extra f = 0 ∧ (mk f).toInstr = i)
    (hfn : fn < 64) : Decodes i := by
  refine decodes_engWith he hrow (fun h => ?_) (fun f h hffn hd ha hb hc hg hgate hlow => ⟨nofun, ?_⟩)
  · obtain ⟨hd, ha, hb, hc⟩ := hl h
    exact ⟨hd, ha, hb, hc, hfn, by decide⟩
  · obtain ⟨hx, hbuild⟩ := hi f h ⟨hffn, hd, ha, hb, hc, hg, hgate⟩
    exact ⟨Nat.or_eq_zero_iff.2 ⟨unlessOk_causeZero.2 (beq_iff_eq.2 hlow), hx⟩, hbuild⟩

theorem decodes_pjld {x : GReg} {g : Gates} : Decodes (.pjld x g) :=
  decodes_attWith rfl (fun _ => rfl) (fun _ => ⟨.zero, .greg _, .zero, .zero⟩)
    (fun _ _ hf => ⟨rfl, congrArg₂ Instr.pjld (Fields.ga_eq hf.a) hf.gates⟩) (by decide)

theorem decodes_att {mk : AttArg → Decoded} {x : AttArg} (he : encode (mk x).toInstr = Enc.att op fn x)
    (hrow : ∀ imm, rowOf op fn imm = Rows.att d .greg .greg c extra fun f => mk f.attArg)
    (hl : wellFormed (mk x).toInstr = true → d.Holds x.d.val ∧ c.Holds x.c.val)
    (hx : ∀ f : Fields, wellFormed (mk x).toInstr = true → f.gate = Enc.gateNum x.gates → extra f = 0)
    (hfn : fn < 64) : Decodes (mk x).toInstr := by
  refine decodes_attWith he hrow (fun h => ⟨(hl h).1, .greg _, .greg _, (hl h).2⟩)
    (fun f h hf => ⟨hx f h hf.gate, congrArg (fun x => (mk x).toInstr) ?_⟩) hfn
  rw [Fields.attArg, Fields.gd_eq hf.d, Fields.ga_eq hf.a, Fields.gb_eq hf.b, Fields.gc_eq hf.c, hf.gates]

/-- `bgat` waits on no gate (R258). -/
theorem noWait_ok {f : Fields} {g : Gates} (h : (g.wait == none) = true) (hg : f.gate = Enc.gateNum g) :
    unlessOk (f.gate == 63) causeOther = 0 := by
  rw [hg, Enc.gateNum, beq_iff_eq.1 h]
  rfl

theorem decodes_bgatWith {mk : AttArg → Decoded} {x : AttArg} (he : encode (mk x).toInstr = Enc.att 0xF3 fn x)
    (hrow : ∀ imm, rowOf 0xF3 fn imm =
      Rows.att .greg .greg .greg .zero (fun f => unlessOk (f.gate == 63) causeOther) fun f => mk f.attArg)
    (hw : wellFormed (mk x).toInstr = (x.c == 0 && x.gates.wait == none)) (hfn : fn < 64) : Decodes (mk x).toInstr :=
  decodes_att he hrow (fun h => ⟨.greg _, .of_greg_zero ((Bool.and_eq_true _ _).mp (hw.symm.trans h)).1⟩)
    (fun _ h hg => noWait_ok ((Bool.and_eq_true _ _).mp (hw.symm.trans h)).2 hg) hfn

/-- `psum` and `pbnd`: the immediate is a dcode of 0 to 2 (R255, R256). -/
theorem decodes_attD {dcode : Fin 3} {mk : Fields → Decoded} (he : encode i = some (Enc.eng op 0 nd na nb nc g dcode.val))
    (hrow : ∀ imm, rowOf op 0 imm = Rows.attD d a b c extra mk)
    (hl : d.Holds nd ∧ a.Holds na ∧ b.Holds nb ∧ c.Holds nc)
    (hi : ∀ f : Fields, f.IsEng 0 nd na nb nc g → Fin.ofNat 3 f.x = dcode → extra f = 0 ∧ (mk f).toInstr = i) : Decodes i := by
  have hdcode : dcode.val < 3 := dcode.isLt
  obtain ⟨hd, ha, hb, hc⟩ := hl
  refine decodes_engWith he hrow (fun _ => ⟨hd, ha, hb, hc, by decide, by omega⟩)
    (fun f _ hffn hd ha hb hc hg hgate hlow => ⟨nofun, ?_⟩)
  have hv := Fields.isVec_of_low (t := 0) (p := 0) (hlow.trans (by simp [Enc.low])) (by decide) (hdcode.trans (by decide))
  obtain ⟨hx, hbuild⟩ := hi f ⟨hffn, hd, ha, hb, hc, hg, hgate⟩ (by rw [hv.x, Fin.ofNat_val])
  rw [hlow, hv.x, Nat.div_eq_of_lt (hdcode.trans (by decide))]
  exact ⟨Nat.or_eq_zero_iff.2 ⟨Nat.or_eq_zero_iff.2 ⟨rfl, unlessOk_causeOther.2 (bne_iff_ne.2 hdcode.ne)⟩, hx⟩, hbuild⟩

theorem decodes_psum {x : PsumArg} : Decodes (.psum x) := by
  have hrows : x.rows.val < 16 := x.rows.isLt
  refine decodes_attD rfl (fun _ => rfl) ⟨.greg _, .greg _, .zero, .lit (by omega)⟩ fun f hf hx => ⟨?_, congrArg Instr.psum ?_⟩
  · rw [hf.c]
    exact unlessOk_causeOther.2 (decide_eq_true hrows)
  · rw [Fields.psumArg, Fields.gd_eq hf.d, Fields.ga_eq hf.a, hf.c, Fin.ofNat_val, hx, hf.gates]

theorem decodes_pbnd {x : PbndArg} : Decodes (.pbnd x) := by
  have hhalf : x.half.val < 16 := x.half.isLt
  have heven : FieldKind.veven.legal (x.half.val * 2) = true :=
    (Bool.and_eq_true _ _).mpr ⟨decide_eq_true (by omega), beq_iff_eq.2 (by omega)⟩
  refine decodes_attD rfl (fun _ => rfl) ⟨.of_legal nofun heven, .greg _, .greg _, .greg _⟩ fun f hf hx => ⟨rfl, congrArg Instr.pbnd ?_⟩
  rw [Fields.pbndArg, hf.d, Nat.mul_div_cancel _ (by decide), Fin.ofNat_val, Fields.ga_eq hf.a, Fields.gb_eq hf.b, Fields.gc_eq hf.c,
    hx, hf.gates]

end
end Sys2Proof
end

section
/-! PROOFS (O55). Every instruction's word decodes to it. -/

namespace Sys2Proof

/-- An event, which has no word. -/
theorem decodes_of_encode_none {i : Instr} (he : encode i = none) : Decodes i := fun _ _ h => nomatch he.symm.trans h

theorem decodes_all (i : Instr) : Decodes i := by
  cases i
  case add | sub | mul | mulh | mulhn | div | divn | rem | remn | and | or | xor | andn | orn | shl | shr | sra | rol | ror | min | max |
      minn | maxn | bext | seq | sne | slt | sle | sltn | slen =>
    exact decodes_r3 rfl rfl (fun _ => rfl) (by decide)
  case abs | clz | ctz | popc | sext | zext => exact decodes_r2 rfl rfl (fun _ => rfl) (by decide)
  case bins => exact decodes_bins
  case sel => exact decodes_sel
  case addi | andi | ori | xori | slti | sltni => exact decodes_ri rfl rfl fun _ => rfl
  case shli | shri | srai => exact decodes_riShift rfl rfl fun _ => rfl
  case li => exact decodes_li
  case lih => exact decodes_lih
  case padd | pfmt | fadd | fsub | fmul | fmin | fmax | fsgn | feq | flt | fle | dump | pctlRead =>
    exact decodes_o3 rfl rfl (fun _ => rfl) rfl (by decide) (by decide)
  case pget | pstrip | fcls | jr | ltag => exact decodes_o2 rfl rfl (fun _ => rfl) rfl (by decide) (by decide)
  case ffma => exact decodes_ffma
  case fcvt => exact decodes_fcvt
  case beq | bne | blt | bge | bltn | bgen => exact decodes_br rfl (fun _ => rfl) (by decide)
  case jmp => exact decodes_jmp
  case jal => exact decodes_jal
  case loopReg => exact decodes_loopReg
  case loopImm => exact decodes_loopImm
  case blk => exact decodes_blk
  case nop => exact decodes_nop
  case ld =>
    refine decodes_memw rfl (fun _ => rfl) fun h => ?_
    obtain ⟨h, hs⟩ := (Bool.and_eq_true _ _).mp h
    obtain ⟨hd, ht⟩ := (Bool.and_eq_true _ _).mp h
    exact ⟨.dst hd, ht, hs⟩
  case st => exact decodes_memw rfl (fun _ => rfl) fun h => ⟨.src _, (Bool.and_eq_true _ _).mp h⟩
  case ldp | stp => exact decodes_pairw rfl rfl fun _ => rfl
  case tset => exact decodes_tset
  case tclr | eretRetry | eretNext | eretKill | dbgb => exact decodes_o1 rfl (fun _ => rfl) (by decide)
  case trap => exact decodes_trap
  case sysResume | sysKill => exact decodes_sysA rfl rfl (by decide)
  case sysState => exact decodes_sysState
  case gsr => exact decodes_gsr
  case ssr => exact decodes_ssr
  case tlbiPage => exact decodes_tlbi rfl (fun s _ => by cases s <;> rfl) (fun h => ⟨.src _, .src _, h⟩) (by decide)
  case tlbiCtx =>
    refine decodes_tlbi (a := .zero) (b := .src) rfl (fun s _ => by cases s <;> rfl) (fun h => ?_) (by decide)
    obtain ⟨hcc, ha⟩ := (Bool.and_eq_true _ _).mp h
    exact ⟨beq_iff_eq.1 ha ▸ .zero, .src _, hcc⟩
  case tlbiAll =>
    refine decodes_tlbi (a := .zero) (b := .zero) rfl (fun s _ => by cases s <;> rfl) (fun h => ?_) (by decide)
    obtain ⟨h, hb⟩ := (Bool.and_eq_true _ _).mp h
    obtain ⟨hcc, ha⟩ := (Bool.and_eq_true _ _).mp h
    exact ⟨beq_iff_eq.1 ha ▸ .zero, beq_iff_eq.1 hb ▸ .zero, hcc⟩
  case ldg | scld => exact decodes_gloadw rfl rfl fun _ => rfl
  case stg | scst => exact decodes_gstorew rfl rfl fun _ => rfl
  case wtvEq | wtvNe => exact decodes_wtv rfl rfl (fun _ => rfl) (by decide)
  case pref => exact decodes_pref
  case ldvEq | ldvLe => exact decodes_ldv rfl rfl (fun _ => rfl) (by decide)
  case stv => exact decodes_stv
  case stvAt => exact decodes_stvAt
  case vfloor | kpass | lkel | send | gsync | rlk | rfuse | meet => exact decodes_gab rfl (fun _ => rfl) (by decide)
  case vclose | arr | lkab | nfree | tshr | tdrop | tseal => exact decodes_ga rfl (fun _ => rfl) (by decide)
  case get | put | spawn => exact decodes_gd3 rfl (fun _ => rfl) (by decide)
  case logp | jset | tsset => exact decodes_g3 rfl (fun _ => rfl) (by decide)
  case ccset => exact decodes_ccset
  case ccwait => exact decodes_ccwait
  case amoAdd | amoFadd | amoMin | amoMax | amoAnd | amoOr | amoXor | amoSwap | amoNrAdd | amoNrFadd | amoNrMin | amoNrMax | amoNrAnd |
      amoNrOr | amoNrXor | amoNrSwap | scamoAdd | scamoFadd | scamoMin | scamoMax | scamoAnd | scamoOr | scamoXor | scamoSwap =>
    exact decodes_amo rfl rfl (fun _ => rfl) (by decide) (by decide)
  case amoCas | scamoCas => exact decodes_amoCas rfl rfl (fun _ => rfl) (by decide)
  case vamoAdd | vamoFadd | vamoMin | vamoMax | vamoAnd | vamoOr | vamoXor | vamoSwap => exact decodes_vamo rfl rfl (fun _ => rfl) (by decide)
  case mrg | tagp | dlen => exact decodes_gd rfl (fun _ => rfl) (fun _ => .greg _) (by decide)
  case dpop | dsplit => exact decodes_gd rfl (fun _ => rfl) (fun h => .pair h) (by decide)
  case kqry | nalloc => exact decodes_gda rfl (fun _ => rfl) (fun _ => .greg _) (by decide)
  case dsteal => exact decodes_gda rfl (fun _ => rfl) (fun h => .pair h) (by decide)
  case tagen | dpush => exact decodes_gdab rfl (fun _ => rfl) (by decide)
  case sendo => exact decodes_sendo
  case fenceH | fenceD | fenceS | lkex | done => exact decodes_bare rfl (fun _ => rfl) (by decide)
  case vadd | vsub | vmul => exact decodes_v3sat rfl rfl fun _ _ => rfl
  case vfma | vfms => exact decodes_v4 rfl rfl fun _ _ => rfl
  case vmin | vmax | vand | vor | vxor | vshl | vshr | vsra | vperm => exact decodes_v3 rfl rfl fun _ _ => rfl
  case vabs | vneg => exact decodes_v2abs rfl rfl fun _ _ => rfl
  case vrcp | vrsq | vexp | vtanh => exact decodes_v2math rfl rfl fun _ _ => rfl
  case vmov | vredmax | vredmin => exact decodes_v2 rfl rfl fun _ => rfl
  case vcvt => exact decodes_vcvt
  case vcmpEq | vcmpNe | vcmpLt | vcmpLe => exact decodes_vcmp rfl rfl (fun _ => rfl) (by decide)
  case vsel => exact decodes_vsel
  case vmovGm => exact decodes_vmovGm
  case vmovMm => exact decodes_mask rfl (fun _ => rfl) (fun h => ⟨.mask _, .mask _, .of_mask_zero h⟩) (fun _ _ => rfl) (by decide)
  case mand | mor =>
    exact decodes_mask rfl (fun _ => rfl) (fun _ => ⟨.mask _, .mask _, .mask _⟩) (fun _ hfn => Rows.fn0_eq_zero.2 hfn) (by decide)
  case mnot =>
    exact decodes_mask rfl (fun _ => rfl) (fun h => ⟨.mask _, .mask _, .of_mask_zero h⟩) (fun _ hfn => Rows.fn0_eq_zero.2 hfn) (by decide)
  case vmovMq =>
    refine decodes_mask rfl (fun _ => rfl) (fun h => ?_) (fun _ _ => rfl) (by decide)
    obtain ⟨hd, hb⟩ := (Bool.and_eq_true _ _).mp h
    exact ⟨.of_mask_zero hd, .mask _, .of_mask_zero hb⟩
  case mpop | mfirst =>
    refine decodes_mask rfl (fun _ => rfl) (fun h => ?_) (fun _ hfn => Rows.fn0_eq_zero.2 hfn) (by decide)
    obtain ⟨hd, hb⟩ := (Bool.and_eq_true _ _).mp h
    exact ⟨.of_mask_zero hd, .mask _, .of_mask_zero hb⟩
  case vbcast => exact decodes_vbcast
  case vext => exact decodes_vext
  case vld | vst => exact decodes_vmem rfl rfl fun _ _ => rfl
  case vldx | vstx => exact decodes_vidx rfl rfl fun _ => rfl
  case vldf => exact decodes_vldf
  case vstf => exact decodes_vstf
  case vpack => exact decodes_vpack
  case vunpk => exact decodes_vunpk
  case vredsum => exact decodes_vredsum
  case vdot => exact decodes_vdot
  case vrot => exact decodes_vrot
  case vtopk => exact decodes_vtopk
  case vsig => exact decodes_vsig
  case mmz => exact decodes_mmz
  case mma => exact decodes_mma
  case msp => exact decodes_msp
  case mmv => exact decodes_mmv
  case mld => exact decodes_mld
  case mst => exact decodes_mst
  case mdir => exact decodes_mdir
  case mdirPush => exact decodes_mdirPush
  case msclRow => exact decodes_msclRow
  case msclCol => exact decodes_msclCol
  case msclAll => exact decodes_msclAll
  case mrdRow | mrdCol => exact decodes_mrd rfl (fun _ => rfl) (by decide)
  case mrdEl => exact decodes_mrdEl
  case cpy => exact decodes_cpy (mk := .cpy) (c := .zero) rfl (fun _ => rfl) (fun h => .of_greg_zero h) (by decide)
  case cpyx2d => exact decodes_cpy (mk := .cpyx2d) (c := .greg) rfl (fun _ => rfl) (fun _ => .greg _) (by decide)
  case cpyx3d => exact decodes_cpy (mk := .cpyx3d) (c := .pair) rfl (fun _ => rfl) (fun h => .pair h) (by decide)
  case cpyc => exact decodes_cpyc
  case cfill => exact decodes_cfill
  case gset => exact decodes_gset
  case gadd => exact decodes_gadd
  case gwt => exact decodes_gwt
  case gpoll => exact decodes_gpoll
  case pjld => exact decodes_pjld
  case kst => exact decodes_att (mk := .kst) rfl (fun _ => rfl) (fun h => ⟨.of_greg_zero h, .greg _⟩) (fun _ _ _ => rfl) (by decide)
  case qsig =>
    refine decodes_att (mk := .qsig) rfl (fun _ => rfl) (fun h => ?_) (fun _ _ _ => rfl) (by decide)
    obtain ⟨hd, hc⟩ := (Bool.and_eq_true _ _).mp h
    exact ⟨.of_greg_zero hd, .of_greg_zero hc⟩
  case bgat => exact decodes_bgatWith (mk := .bgat) rfl (fun _ => rfl) rfl (by decide)
  case bgatH1 => exact decodes_bgatWith (mk := .bgatH1) rfl (fun _ => rfl) rfl (by decide)
  case psum => exact decodes_psum
  case pbnd => exact decodes_pbnd
  case pgatPg => exact decodes_att (mk := .pgatPg) rfl (fun _ => rfl) (fun _ => ⟨.greg _, .greg _⟩) (fun _ _ _ => rfl) (by decide)
  case pgatTok => exact decodes_att (mk := .pgatTok) rfl (fun _ => rfl) (fun _ => ⟨.greg _, .greg _⟩) (fun _ _ _ => rfl) (by decide)
  all_goals exact decodes_of_encode_none rfl

/-- Settles O55: the row of each instruction's OP and FN accepts its word and reads the instruction back from it. -/
theorem decodeOfEncode : Obligations.DecodeOfEncode := fun i w hwf he => decodes_all i hwf w he

end Sys2Proof
end

section
/-! PROOFS (O54). The words that the spec writes out. -/

namespace Sys2Proof

open Claims

theorem decode_someWords : ∀ p ∈ someWords, decode p.1 = .ok p.2 := List.map_inj_left.1 rfl

/-- Settles O54: each word is decoded. -/
theorem someWordsDecode : Obligations.SomeWordsDecode := ⟨decode_someWords, rfl, rfl, rfl, rfl⟩

end Sys2Proof
end

section
/-! PROOFS (O8, O9). When a word starts, what `blk` does to the open block, and the end of a loop body. -/

namespace Sys2Proof.Machine

open Sys2Proof.Claims

section

variable {s t : State} {k : Nat} {e : Exit} {control : Bool}

/-- A running task's word whose meaning exits ends by that exit. -/
theorem runFrame_exits {m : W Unit} (hk : s.current = some k) (hm : Exits m s e) :
    runFrame control m s = .next (s.finish k control e).cycle := by
  unfold runFrame
  rw [hk]
  simp only
  rw [show m.run s = _ from hm]

/-! ### The prelude of a word (R154, R155, R175) -/

theorem gives_closeBlock {words : List Nat} {b : Blk} (h : Num.signature words.reverse = b.sig) : Gives (closeBlock words b) s () s :=
  gives_if_pos h (gives_pure _ _)

theorem exits_closeBlock {words : List Nat} {b : Blk} (h : Num.signature words.reverse ≠ b.sig) :
    Exits (closeBlock words b) s (.tumbler b.addr (Num.signature words.reverse)) :=
  exits_if_neg h (exits_exit _ _)

section

variable (hk : s.current = some k) (hr : Gives ready s () s)
include hk hr

theorem gives_prelude {b : Blk} (hb : (s.task k).blk = some b) (hlen : b.words.length < 1024)
    (hsig : control = true ∨ (s.task k).atLast = true → Num.signature (s.ir :: b.words).reverse = b.sig)
    (hbody : ¬ (control = true ∧ (s.task k).atLast = true)) : Gives (prelude control) s () s := by
  refine hr.bind ((gives_get s).bind ((gives_curTask hk).bind (gives_if_neg hbody ?_)))
  rw [hb]
  refine gives_if_neg (Nat.not_le.2 hlen) ?_
  by_cases hclose : control = true ∨ (s.task k).atLast = true
  · exact gives_if_pos hclose (gives_closeBlock (hsig hclose))
  · exact gives_if_neg hclose (gives_pure _ _)

/-- A control word does not end a loop body. -/
theorem exits_prelude (hcontrol : control = true) (hlast : (s.task k).atLast = true) : Exits (prelude control) s (.trap fLoop 3 []) :=
  hr.exits ((gives_get s).exits ((gives_curTask hk).exits (exits_if_pos ⟨hcontrol, hlast⟩ ((exits_trap _ _ _ _).bind _))))

end

/-- Settles O9: the prelude answers, or raises the loop fault. -/
theorem wordsStart : Obligations.WordsStart := by
  intro control s k b hk hr hb hlen hsig
  refine ⟨fun hbody => ⟨hk, gives_prelude hk hr hb hlen hsig hbody⟩, fun hcontrol hlast m => ?_⟩
  exact runFrame_exits hk ((exits_prelude hk hr hcontrol hlast).bind _)

/-! ### The end of a loop body (R174) -/

theorem loopEnd_eq_bodyEnd {t : Task} {l : Loop} (hl : t.loops.getLast? = some l) : t.loopEnd = bodyEnd t t.loops.dropLast l := by
  unfold Task.loopEnd bodyEnd
  rw [hl]

theorem atLast_iff {t : Task} : t.atLast = true ↔ ∃ l, t.loops.getLast? = some l ∧ t.pc = l.last := by
  unfold Task.atLast
  cases t.loops.getLast? with
  | none => simp
  | some l => simp

theorem loopEnd_eq_onward {t : Task} (h : t.atLast = true) : t.loopEnd = onward t := by
  obtain ⟨l, hl, hpc⟩ := atLast_iff.1 h
  rw [loopEnd_eq_bodyEnd hl, onward, hl]
  exact (if_pos hpc).symm

theorem loopBodyEnd_next {l : Loop} (hk : s.current = some k) (hl : (s.task k).loops.getLast? = some l) (hpc : (s.task k).pc = l.last) :
    exec .loopBodyEnd s = .next (s.setTask k (bodyEnd (s.task k) (s.task k).loops.dropLast l)).cycle := by
  show execLoopBodyEnd s = _
  unfold execLoopBodyEnd
  rw [hk]
  simp only
  rw [if_pos (atLast_iff.2 ⟨l, hl, hpc⟩), ← loopEnd_eq_bodyEnd hl]
  rfl

/-! ### `blk` (R154, R177) -/

/-- The task of a word that has retired but for its block and its pc: the count, and the latencies (R160). -/
def counts (t : Task) : Task := { t with irc := t.irc + 1, bpPass := false, sched := stepSched t.sched }

/-- The block that a `blk` at a task's pc opens. -/
def blkOf (sig : BitVec 32) (t : Task) : Blk := { addr := t.pc, sig := sig.toNat, words := [] }

/-- The last steps of a `blk` that makes its task `t` the task `t'`. -/
def blkMoves (t t' : Task) : W Unit := do
  modCur fun _ => t'
  let k ← curKey
  modify fun s => s.stepLate k
  counted t

/-- What a `blk` does once the open block is closed. -/
def blkTail (sig : BitVec 32) (t : Task) : W Unit :=
  if t.atLast then do
    closeBlock [] (blkOf sig t)
    blkMoves t ({ counts t with blk := some (blkOf sig t) } : Task).leaveBlk.loopEnd
  else blkMoves t { counts t with blk := some (blkOf sig t), pc := t.pc + 8 }

/-- The closing of the block that is open. -/
def closeOpen : Option Blk → W Unit
  | some b => closeBlock b.words b
  | none => pure ()

theorem execBlk_eq (sig : BitVec 32) (s : State) : execBlk sig s = runFrame false (do
    ready
    closeOpen (← curTask).blk
    blkTail sig (← curTask)) s := by
  unfold execBlk
  congr 1
  refine congrArg _ (funext fun _ => congrArg _ (funext fun t => ?_))
  cases t.blk <;> rfl

theorem leaveBlk_blkOf {sig : BitVec 32} {t : Task} : ({ counts t with blk := some (blkOf sig t) } : Task).leaveBlk =
    { counts t with blk := none, lastBlk := t.pc, lastSig := sig.toNat } := rfl

theorem atLast_left {sig : BitVec 32} {t : Task} :
    ({ counts t with blk := none, lastBlk := t.pc, lastSig := sig.toNat } : Task).atLast = t.atLast := rfl

theorem gives_blkMoves (hk : s.current = some k) (t t' : Task) :
    Gives (blkMoves t t') s () (((s.setTask k t').stepLate k).countWord (k / 8) t) := by
  have hk' : (s.setTask k t').current = some k := hk
  have hlate : ((s.setTask k t').stepLate k).current = some k := (current_stepLate _ k).trans hk'
  exact Gives.bind (gives_modCur hk _) ((gives_curKey hk').bind
    ((gives_modify _ fun s => s.stepLate k).bind (gives_counted hlate t)))

theorem gives_closeOpen {o : Option Blk} (h : ∀ b, o = some b → Num.signature b.words.reverse = b.sig) : Gives (closeOpen o) s () s := by
  cases o with
  | none => exact gives_pure _ _
  | some b => exact gives_closeBlock (h b rfl)

section

variable {sig : BitVec 32} (hk : s.current = some k) (hr : Gives ready s () s)
include hk hr

/-- A mismatch of the open block ends the `blk`. -/
theorem blk_tumbles {b : Blk} (hb : (s.task k).blk = some b) (h : Num.signature b.words.reverse ≠ b.sig) :
    exec (.blk sig) s = .next (s.tumblerKill k b.addr (Num.signature b.words.reverse)).cycle := by
  refine (execBlk_eq sig s).trans (runFrame_exits (e := .tumbler b.addr _) hk (hr.exits ((gives_curTask hk).exits (Exits.bind ?_ _))))
  rw [hb]
  exact exits_closeBlock h

section

variable (hb : ∀ b, (s.task k).blk = some b → Num.signature b.words.reverse = b.sig)
include hb

theorem blk_opens (hlast : (s.task k).atLast = false) :
    exec (.blk sig) s = .next ((((s.setTask k { counts (s.task k) with blk := some (blkOf sig (s.task k)), pc := (s.task k).pc + 8 }).stepLate
      k).countWord (k / 8) (s.task k)).cycle) := by
  refine (execBlk_eq sig s).trans (runFrame_gives hk (hr.bind ((gives_curTask hk).bind
    ((gives_closeOpen hb).bind ((gives_curTask hk).bind (gives_if_neg ?_ (gives_blkMoves hk _ _)))))))
  rw [hlast]
  exact Bool.false_ne_true

theorem blk_ends_body (hlast : (s.task k).atLast = true) (hsig : Num.signature [] = sig.toNat) :
    exec (.blk sig) s = .next ((((s.setTask k (onward { counts (s.task k) with
      blk := none, lastBlk := (s.task k).pc, lastSig := sig.toNat })).stepLate k).countWord (k / 8) (s.task k)).cycle) := by
  have hclose : Gives (closeBlock [] (blkOf sig (s.task k))) s () s := gives_closeBlock (by rw [List.reverse_nil]; exact hsig)
  have htail : Gives (blkTail sig (s.task k)) s () _ := gives_if_pos hlast (hclose.bind (gives_blkMoves hk _ _))
  rw [leaveBlk_blkOf, loopEnd_eq_onward (atLast_left.trans hlast)] at htail
  exact (execBlk_eq sig s).trans (runFrame_gives hk (hr.bind ((gives_curTask hk).bind ((gives_closeOpen hb).bind
    ((gives_curTask hk).bind htail)))))

/-- As the last word of a body, `blk` opens a block of no words, which has to have its signature (log 17). -/
theorem blk_tumbles_last (hlast : (s.task k).atLast = true) (hsig : Num.signature [] ≠ sig.toNat) :
    exec (.blk sig) s = .next (s.tumblerKill k (s.task k).pc (Num.signature [])).cycle := by
  have hclose : Exits (closeBlock [] (blkOf sig (s.task k))) s (.tumbler (s.task k).pc (Num.signature [])) :=
    exits_if_neg (by rw [List.reverse_nil]; exact hsig) (exits_exit _ _)
  have htail : Exits (blkTail sig (s.task k)) s _ := exits_if_pos hlast (hclose.bind _)
  exact (execBlk_eq sig s).trans (runFrame_exits (e := .tumbler (s.task k).pc _) hk (hr.exits ((gives_curTask hk).exits
    ((gives_closeOpen hb).exits ((gives_curTask hk).exits htail)))))

end
end
end

/-- Settles O8: `blk` within a body, as its last word, and after a block whose words do not form its signature; `nop`; the end of a
body. -/
theorem blockAndNopResults : Obligations.BlockAndNopResults :=
  ⟨fun _ _ _ hk hr hb hlast => blk_opens hk hr hb hlast,
    fun _ _ _ hk hr hb hlast => ⟨fun hsig => blk_ends_body hk hr hb hlast hsig, fun hsig => blk_tumbles_last hk hr hb hlast hsig⟩,
    fun _ _ _ _ hk hr hb hsig => blk_tumbles hk hr hb hsig,
    fun s _ h => plain_retires h (gives_pure () s) h.1,
    fun _ _ _ hk hl hpc => loopBodyEnd_next hk hl hpc⟩

end Sys2Proof.Machine
end

section
/-! PROOFS (O10). Loads and pair words of the scratchpad: the address, what a read leaves, and how each retires. -/

namespace Sys2Proof.Machine

open Sys2Proof.Claims

/-! ### What scratchpad accesses leave of main memory and of the running task -/

section

variable {s t u : State} {k : Nat}

/-- Main memory and the task that runs stay. -/
structure Stays (s t : State) : Prop where
  mem : t.mem = s.mem
  current : t.current = s.current

theorem Stays.refl : Stays s s := ⟨rfl, rfl⟩

theorem Stays.trans (h : Stays s t) (h' : Stays t u) : Stays s u := ⟨h'.mem.trans h.mem, h'.current.trans h.current⟩

theorem stays_foldl {α : Type} {f : State → α → State} (hf : ∀ s a, Stays s (f s a)) (l : List α) : Stays s (l.foldl f s) :=
  foldl_keeps (Stays s) f (fun _ _ h => h.trans (hf _ _)) l s .refl

theorem stays_modCore {c : Nat} {f : Core → Core} (hf : ∀ y, (f y).running = y.running) : Stays s (s.modCore c f) :=
  ⟨rfl, current_modCore hf⟩

theorem stays_ite {p : Prop} [Decidable p] (ht : Stays s t) (hu : Stays s u) : Stays s (if p then t else u) := by
  split
  · exact ht
  · exact hu

theorem stays_setTask {j : Nat} {x : Task} : Stays s (s.setTask j x) := ⟨rfl, rfl⟩

theorem stays_portSeen {core off n : Nat} : Stays s (s.portSeen core off n) := by
  unfold State.portSeen
  extract_lets here seen
  have hseen : Stays s seen := stays_foldl (fun _ _ => stays_ite stays_setTask .refl) _
  clear_value seen
  exact hseen.trans ⟨rfl, rfl⟩

theorem stays_spErr {ctx core unit addr : Nat} {write : Bool} : Stays s (s.spErr ctx core unit write addr) := ⟨rfl, rfl⟩

theorem stays_spadSpaceRead {ctx core unit addr n : Nat} : Stays s (s.spadSpaceRead ctx core unit addr n).2.2 := by
  have herr : Stays s (match firstBad core addr 0 n with
      | some a => s.spErr ctx core unit false a
      | none => s) := by
    split
    · exact stays_spErr
    · exact .refl
  unfold State.spadSpaceRead
  dsimp only
  split
  · split
    · exact herr
    · exact herr.trans stays_portSeen
  · exact herr

theorem stays_pmcEvent {core event n : Nat} : Stays s (s.pmcEvent core event n) := stays_ite .refl (stays_modCore fun _ => rfl)

theorem stays_countWord {core : Nat} {x : Task} : Stays s (s.countWord core x) := by
  have hquantum : Stays s (s.countQuantum core x) := by
    refine stays_ite .refl (stays_foldl (fun u g => ?_) _)
    exact stays_ite ⟨rfl, rfl⟩ ⟨rfl, rfl⟩
  unfold State.countWord
  exact hquantum.trans (stays_pmcEvent.trans (stays_ite .refl stays_pmcEvent))

theorem stays_stepLate : Stays s (s.stepLate k) := by
  refine stays_ite .refl (Stays.trans (t := s.modTask k _) ⟨rfl, rfl⟩ (stays_foldl (fun u x => ?_) _))
  refine ⟨?_, current_arriveLate u k x.dest⟩
  cases x.dest <;> rfl

theorem retired_mem {control : Bool} {c : Ctl} : (retired control c k s).mem = s.mem :=
  (stays_setTask.trans (stays_stepLate.trans stays_countWord)).mem

theorem stays_dropVictims {core slot : Nat} : Stays s (s.dropVictims core slot) := stays_modCore fun _ => rfl

theorem current_countPoison {tag n : Nat} : (s.countPoison tag n).current = s.current := by
  unfold State.countPoison
  split <;> rfl

theorem current_woken (h : Woken s t) : t.current = s.current := by
  obtain ⟨_, _, rfl⟩ := h
  rfl

theorem current_spadWrite {ctx core off tag : Nat} {bs : List Byte} : (s.spadWrite ctx core off bs tag).current = s.current := by
  have hdrop := (stays_foldl (s := s.modSpace ctx core fun sp => sp.write off bs tag) (fun _ slot => stays_dropVictims (core := core) (slot := slot))
    (slotsOf off bs.length)).current
  unfold State.spadWrite
  dsimp only
  split
  · exact (current_woken (woken_wakeSpins _ _)).trans (current_countPoison.trans hdrop)
  · exact current_countPoison.trans hdrop

theorem current_spadSpaceWrite {ctx core unit addr tag : Nat} {bs : List Byte} :
    (s.spadSpaceWrite ctx core unit addr bs tag).current = s.current := by
  unfold State.spadSpaceWrite
  refine foldl_keeps (fun u : State => u.current = s.current) _ (fun u r hu => ?_) _ _ ?_
  · dsimp only
    split
    · exact current_spadWrite.trans hu
    · exact current_spadWrite.trans (stays_portSeen.current.trans hu)
  · split
    · exact stays_spErr.current
    · rfl

end

/-! ### What a meaning leaves of a state -/

/-- Where a meaning answers from `s`, it leaves the part `p` of the state. -/
def Leaves {α β : Type} (p : State → β) (m : W α) (s : State) : Prop := ∀ a t, Gives m s a t → p t = p s

section

variable {α β γ : Type} {p : State → γ} {m n : W α} {f : α → W β} {s : State} {k : Nat}

theorem leaves_pure {a : α} : Leaves p (pure a) s := fun _ _ h => congrArg p (gives_pure_iff.1 h).2.symm

theorem leaves_exit {e : Exit} : Leaves p (exit e : W α) s := fun _ _ h => (gives_exit_iff.1 h).elim

theorem leaves_modify {g : State → State} (h : p (g s) = p s) : Leaves p (modify g : W PUnit) s := fun _ _ hg => by
  rw [gives_modify_iff.1 hg, h]

theorem leaves_set {u : State} (h : p u = p s) : Leaves p (set u : W PUnit) s := fun _ _ hg => by rw [gives_set_iff.1 hg, h]

theorem Leaves.bind (hm : Leaves p m s) (hf : ∀ a t, p t = p s → Leaves p (f a) t) : Leaves p (m >>= f) s := fun b u h => by
  obtain ⟨a, t, h1, h2⟩ := gives_bind_iff.1 h
  have ht := hm a t h1
  exact (hf a t ht b u h2).trans ht

/-- A meaning that only looks at the state. -/
theorem leaves_look (hm : ∀ a t, Gives m s a t → t = s) (hf : ∀ a, Leaves p (f a) s) : Leaves p (m >>= f) s := fun b u h => by
  obtain ⟨a, t, h1, h2⟩ := gives_bind_iff.1 h
  obtain rfl := hm a t h1
  exact hf a b u h2

theorem leaves_get {f : State → W β} (hf : Leaves p (f s) s) : Leaves p (get >>= f) s := fun b u h => by
  obtain ⟨_, _, h1, h2⟩ := gives_bind_iff.1 h
  obtain ⟨rfl, rfl⟩ := gives_get_iff.1 h1
  exact hf b u h2

theorem leaves_ite {c : Prop} [Decidable c] (hm : Leaves p m s) (hn : Leaves p n s) : Leaves p (if c then m else n) s := by
  split
  · exact hm
  · exact hn

/-- What follows an exit is not run. -/
theorem leaves_exit_bind {e : Exit} {f : α → W β} : Leaves p ((exit e : W α) >>= f) s := fun _ _ h => by
  obtain ⟨_, _, h1, -⟩ := gives_bind_iff.1 h
  exact (gives_exit_iff.1 h1).elim

theorem looks_curKey {a : Nat} {t : State} (h : Gives curKey s a t) : t = s := by
  cases h
  rfl

theorem looks_curTask {a : Task} {t : State} (h : Gives curTask s a t) : t = s := by
  cases h
  rfl

theorem leaves_modCur {g : Task → Task} (h : ∀ j, p (s.modTask j g) = p s) : Leaves p (modCur g) s :=
  leaves_look (fun _ _ => looks_curKey) fun _ => leaves_modify (h _)

end

section

variable {s : State}

/-! ### Operands leave main memory -/

theorem leaves_checkSched {γ : Type} {p : State → γ} {n : Nat} : Leaves p (checkSched n) s := by
  refine leaves_look (fun _ _ => looks_curTask) fun t => ?_
  split
  · exact leaves_exit
  · exact leaves_pure

theorem readG_mem {n : Nat} : Leaves State.mem (readG n) s :=
  leaves_ite leaves_pure (leaves_checkSched.bind fun _ _ _ => leaves_look (fun _ _ => looks_curTask) fun _ => leaves_pure)

theorem writeG_mem {n lat : Nat} {w : Tagged} : Leaves State.mem (writeG n w lat) s :=
  leaves_ite leaves_pure (leaves_checkSched.bind fun _ _ _ => leaves_modCur fun _ => rfl)

theorem writeG_current {n lat : Nat} {w : Tagged} : Leaves State.current (writeG n w lat) s :=
  leaves_ite leaves_pure (leaves_checkSched.bind fun _ _ _ => leaves_modCur fun _ => rfl)

theorem popQueue_mem {i : Nat} : Leaves State.mem (popQueue i) s := by
  refine leaves_look (fun _ _ => looks_curTask) fun t => ?_
  split
  · exact (leaves_modCur fun _ => rfl).bind fun _ _ _ => leaves_pure
  · split
    · exact leaves_exit
    · exact leaves_exit
  · exact leaves_exit
  · exact leaves_get (leaves_look (fun _ _ => looks_curKey) fun _ => leaves_ite leaves_exit_bind (leaves_ite leaves_exit leaves_exit))

theorem later_mem {lat : Nat} {dest : LateTo} : Leaves State.mem (later lat dest) s := leaves_modCur fun _ => rfl

theorem pushQueue_mem {i lat : Nat} {w : Tagged} : Leaves State.mem (pushQueue i w lat) s :=
  leaves_look (fun _ _ => looks_curTask) fun _ => leaves_ite leaves_exit_bind (leaves_ite (leaves_modCur fun _ => rfl) later_mem)

theorem readO_mem {x : Opnd} : Leaves State.mem (readO x) s := by
  cases x with
  | g n => exact readG_mem
  | q n => exact popQueue_mem
  | fifo n => exact popQueue_mem
  | special n => exact leaves_get (leaves_look (fun _ _ => looks_curTask) fun _ => leaves_look (fun _ _ => looks_curKey) fun _ => leaves_pure)
  | link d =>
    refine leaves_look (fun _ _ => gives_checkPort) fun _ => leaves_get (leaves_look (fun _ _ => looks_curTask) fun t => ?_)
    split
    · exact leaves_exit
    · exact (leaves_modify rfl).bind fun _ _ _ => leaves_pure

theorem writeO_mem {d : Opnd} {lat : Nat} {w : Tagged} : Leaves State.mem (writeO d w lat) s := by
  cases d with
  | g n => exact writeG_mem
  | q n => exact pushQueue_mem
  | fifo n => exact leaves_exit
  | special n => exact leaves_exit
  | link p =>
    exact leaves_look (fun _ _ => gives_checkPort) fun _ => leaves_get (leaves_look (fun _ _ => looks_curTask) fun t =>
      leaves_ite leaves_exit_bind (leaves_ite (leaves_set rfl) later_mem))

/-! ### A scratchpad write leaves the running task where it is -/

theorem current_logLine {k line : Nat} : (s.logLine k line).current = s.current := by
  unfold State.logLine
  dsimp only
  split
  · rfl
  · split <;> rfl

theorem nonReplayable_current {b : Bool} : Leaves State.current (nonReplayable b) s :=
  leaves_get (leaves_look (fun _ _ => looks_curTask) fun _ =>
    leaves_ite leaves_exit_bind (leaves_ite leaves_exit_bind (leaves_modCur fun _ => rfl)))

/-- A step before which a task may be marked as not replayable. -/
theorem logged_current {c : Prop} [Decidable c] {m : W Unit} (hm : ∀ u, Leaves State.current m u) :
    Leaves State.current (if c then do nonReplayable false; m else m) s :=
  leaves_ite (nonReplayable_current.bind fun _ _ _ => hm _) (hm s)

/-- A write in the name of the running task, marked in its section when it went through the hive window. -/
theorem storing_current {c : Prop} [Decidable c] {f : Nat → State → State} (hf : ∀ k u, (f k u).current = u.current) :
    Leaves State.current (do let k ← curKey; modify (f k); if c then modCur (·.storedOut)) s :=
  leaves_look (fun _ _ => looks_curKey) fun k => (leaves_modify (hf k s)).bind fun _ _ _ =>
    leaves_ite (leaves_modCur fun _ => rfl) leaves_pure

theorem scratchWrite_current {a tag : Nat} {bs : List Byte} : Leaves State.current (scratchWrite a bs tag) s := by
  have hlogs : ∀ (l : List Nat) (k : Nat) (u : State), (l.foldl (fun s l => s.logLine k l) u).current = u.current :=
    fun l k u => foldl_keeps (fun v : State => v.current = u.current) _ (fun _ _ hv => current_logLine.trans hv) l u rfl
  refine leaves_get (leaves_look (fun _ _ => looks_curTask) fun t => leaves_ite leaves_exit_bind ?_)
  dsimp only
  split
  · exact leaves_exit_bind
  · refine leaves_ite (leaves_look (fun _ _ => looks_curKey) fun key => leaves_ite leaves_exit_bind
      (nonReplayable_current.bind fun _ _ _ => logged_current fun u => ?_)) (logged_current fun u => ?_)
    all_goals exact storing_current fun k v => current_spadSpaceWrite.trans (hlogs _ k v)

end

/-! ### The address, the element type and the bytes of a scratchpad word -/

section

variable {s s1 s2 : State} {k a n : Nat} {b i : Word} {scale : Nat} {off : BitVec 22}

theorem gives_address (ha : memAddr b i scale off = a) (hlt : a < 2 ^ 57) : Gives (address b i scale off) s a s := by
  have hsum : (vaOf b : Int) + i.toInt * ((2 ^ scale : Nat) : Int) + off.toInt = a := by
    rw [← ha, Nat.cast_pow]
    rfl
  unfold address
  simp only [hsum]
  exact gives_if_neg (by omega) (gives_pure _ _)

theorem gives_memAddress {base index : Opnd} (hb : Gives (readO base) s { v := b, tag := 0 } s1)
    (hi : Gives (readO index) s1 { v := i, tag := 0 } s2) (ha : memAddr b i scale off = a) (hlt : a < 2 ^ 57) :
    Gives (memAddress base index scale off) s (b, a) s2 :=
  hb.bind (hi.bind ((gives_useWord b _).bind ((gives_useWord i _).bind ((gives_address ha hlt).bind (gives_pure _ _)))))

theorem gives_elemTy {t u : Ty} (h : elemType t b = some u) : Gives (elemTy t b) s u s := by
  have htable : elemType .none b = tyOfFmt (fmtCode b) := rfl
  cases t with
  | none =>
    rw [htable] at h
    unfold elemTy
    rw [h]
    exact gives_pure _ _
  | _ =>
    obtain rfl := Option.some.inj h
    exact gives_pure _ _

theorem gives_scratchRead (hk : s.current = some k) (hfree : s.heldBack (s.task k).ctx s.focus a n = false) :
    let r := s.spadSpaceRead (s.task k).ctx s.focus 0 a n
    Gives (scratchRead a n) s (r.1, r.2.1) r.2.2 :=
  (gives_get s).bind ((gives_curTask hk).bind
    (gives_if_neg (by simp [hfree]) ((gives_set _ _).bind (gives_pure _ _))))

end

/-! ### The three words -/

section

variable {s s1 s2 s3 s4 : State} {k a : Nat} {b i : Word}

/-- The turn after the address operands are read. -/
theorem sameTurn_readO_readO {x y : Opnd} {v w : Tagged} (hk : s.current = some k) (hx : Gives (readO x) s v s1)
    (hy : Gives (readO y) s1 w s2) : SameTurn s s2 k :=
  have h1 := sameTurn_readO hk hx
  h1.trans (sameTurn_readO (h1.current.trans hk) hy)

variable (h : Starts false s k)
include h

theorem ld_retires {x : MemArg} {t : Ty} (hb : Gives (readO x.base) s { v := b, tag := 0 } s1)
    (hi : Gives (readO x.index) s1 { v := i, tag := 0 } s2) (ha : memAddr b i x.scale.val x.off = a) (hlt : a < 2 ^ 57)
    (ht : elemType x.t b = some t) (hfree : s2.heldBack (s.task k).ctx s.focus a (elemBytes t) = false) :
    let r := s2.spadSpaceRead (s.task k).ctx s.focus 0 a (elemBytes t)
    Gives (writeO x.d { v := loaded t (Num.ofBytes r.1), tag := r.2.1 } 3) r.2.2 () s4 →
    exec (.ld x) s = .next (retired false .next k s4) := by
  intro r hw
  have turn := sameTurn_readO_readO h.1 hb hi
  have hk2 := turn.current.trans h.1
  have hkr : r.2.2.current = some k := stays_spadSpaceRead.current.trans hk2
  have hread : Gives (scratchRead a (tyBytes t)) s2 (r.1, r.2.1) r.2.2 := by
    rw [← turn.ctx, ← turn.focus, ← tyBytes_eq_elemBytes] at hfree
    have hr := gives_scratchRead hk2 hfree
    rw [turn.ctx, turn.focus, tyBytes_eq_elemBytes] at hr
    rwa [tyBytes_eq_elemBytes]
  rw [← loadValue_eq_loaded] at hw
  exact plain_retires h ((gives_memAddress hb hi ha hlt).bind ((gives_elemTy ht).bind (hread.bind hw)))
    ((sameTurn_writeO hkr hw).current.trans hkr)

theorem ldp_retires {x : PairArg} (hb : Gives (readO x.base) s { v := b, tag := 0 } s1)
    (hi : Gives (readO x.index) s1 { v := i, tag := 0 } s2) (ha : memAddr b i x.scale.val x.off = a) (hlt : a < 2 ^ 57)
    (hfree : s2.heldBack (s.task k).ctx s.focus a 16 = false) :
    let r := s2.spadSpaceRead (s.task k).ctx s.focus 0 a 16
    Gives (writeG x.d.val { v := BitVec.ofNat 64 (Num.ofBytes (r.1.take 8))
                            tag := s2.spadTagOf (s.task k).ctx s.focus a 0 8 } 3) r.2.2 () s3 →
    Gives (writeG (x.d.val + 1) { v := BitVec.ofNat 64 (Num.ofBytes (r.1.drop 8))
                                  tag := s2.spadTagOf (s.task k).ctx s.focus a 8 8 } 3) s3 () s4 →
    exec (.ldp x) s = .next (retired false .next k s4) := by
  have turn := sameTurn_readO_readO h.1 hb hi
  have hk2 := turn.current.trans h.1
  rw [← turn.ctx, ← turn.focus] at hfree ⊢
  intro r hlow hhigh
  have hkr : r.2.2.current = some k := stays_spadSpaceRead.current.trans hk2
  have hk3 := (writeG_current _ _ hlow).trans hkr
  exact plain_retires h ((gives_memAddress hb hi ha hlt).bind ((gives_get s2).bind ((gives_curTask hk2).bind
    ((gives_scratchRead hk2 hfree).bind (hlow.bind hhigh))))) ((writeG_current _ _ hhigh).trans hk3)

theorem stp_retires {x : PairArg} {d e : Tagged} (hd : Gives (readG x.d.val) s d s) (he : Gives (readG (x.d.val + 1)) s e s)
    (hb : Gives (readO x.base) s { v := b, tag := 0 } s1)
    (hi : Gives (readO x.index) s1 { v := i, tag := 0 } s2) (ha : memAddr b i x.scale.val x.off = a) (hlt : a < 2 ^ 57)
    (hw : Gives (scratchWrite a (Num.bytesOf 8 d.v.toNat ++ Num.bytesOf 8 e.v.toNat) (minTag d.tag e.tag)) s2 () s3) :
    exec (.stp x) s = .next (retired false .next k s3) :=
  plain_retires h (hd.bind (he.bind ((gives_memAddress hb hi ha hlt).bind hw)))
    ((scratchWrite_current _ _ hw).trans ((sameTurn_readO_readO h.1 hb hi).current.trans h.1))

end

/-- Settles O10: the address and the element type pass, the read answers unless it is held back, and each word retires on what its
operands left; reads and operands leave main memory. -/
theorem scratchpadLoadAndPairResults : Obligations.ScratchpadLoadAndPairResults := by
  refine ⟨?ld, ?ldp, ?stp⟩
  case ld =>
    intro x s s1 s2 s4 k a b i t h hb hi ha hlt ht _ hfree r hw
    refine ⟨ld_retires h hb hi ha hlt ht hfree hw, ?_⟩
    calc (retired false .next k s4).mem = s4.mem := retired_mem
      _ = r.2.2.mem := writeO_mem _ _ hw
      _ = s2.mem := stays_spadSpaceRead.mem
      _ = s1.mem := readO_mem _ _ hi
      _ = s.mem := readO_mem _ _ hb
  case ldp =>
    intro x s s1 s2 s3 s4 k a b i h hb hi ha hlt hfree r hlow hhigh
    exact ldp_retires h hb hi ha hlt hfree hlow hhigh
  case stp =>
    intro x s s1 s2 s3 k a b i d e h hd he hb hi ha hlt hw
    exact stp_retires h hd he hb hi ha hlt hw

end Sys2Proof.Machine
end

section
/-! PROOFS (O4, O6, O7, O11). What an operand's read leaves of the running task; fat-pointer words, loop words and the scratchpad
store. -/

namespace Sys2Proof.Machine

open Sys2Proof.Claims

/-! ### What reading an operand leaves of the running task -/

section

variable {s t : State} {k : Nat} {x : Opnd} {w : Tagged}

theorem task_modTask_other {j : Nat} {f : Task → Task} (h : j ≠ k) : (s.modTask k f).task j = s.task j := by
  simp [State.task, State.setTask, Tab.get_set_other h]

/-- Reading an operand changes no task's state but the queues of the running task. -/
theorem task_readO (h : s.current = some k) (hr : Gives (readO x) s w t) : ∃ q, t.task k = { s.task k with q := q } := by
  have hpop : ∀ i, Gives (popQueue i) s w t → ∃ q, t.task k = { s.task k with q := q } := by
    intro i hi
    obtain ⟨rest, -, rfl⟩ := (gives_popQueue h).1 hi
    exact ⟨_, task_modTask_self k _⟩
  cases x with
  | g n =>
    obtain ⟨rfl, -⟩ := (gives_readG h).1 hr
    exact ⟨_, rfl⟩
  | q n => exact hpop _ hr
  | fifo n => exact hpop _ hr
  | special n =>
    obtain ⟨v, s1, h1, h2⟩ := gives_bind_iff.1 hr
    cases h1
    cases h2
    exact ⟨_, rfl⟩
  | link d =>
    obtain ⟨n, s1, h1, h2⟩ := gives_bind_iff.1 hr
    obtain rfl := gives_checkPort h1
    obtain ⟨_, _, h3, h4⟩ := gives_bind_iff.1 h2
    obtain ⟨rfl, rfl⟩ := gives_get_iff.1 h3
    obtain ⟨_, _, h5, h6⟩ := gives_bind_iff.1 h4
    obtain ⟨rfl, rfl⟩ := (gives_curTask_iff h).1 h5
    split at h6
    · exact absurd h6 (by simp)
    · obtain ⟨_, _, h7, h8⟩ := gives_bind_iff.1 h6
      cases h7
      cases h8
      exact ⟨_, rfl⟩

end

/-! ### Fat-pointer words (R168) -/

section

variable {s s1 s2 s3 : State} {k : Nat} {d x y : Opnd} {a b : Tagged} (h : Starts false s k)
include h

/-- The running task still runs after a plain word's operands are read and its result is written. -/
theorem current_readO_writeO {u : State} {w v : Tagged} {lat : Nat} (hx : Gives (readO x) s w s1) (hw : Gives (writeO d v lat) s1 () u) :
    u.current = some k := by
  have hk := (sameTurn_readO h.1 hx).current.trans h.1
  exact (sameTurn_writeO hk hw).current.trans hk

theorem current_readO_readO_writeO {v : Tagged} {lat : Nat} (hx : Gives (readO x) s a s1) (hy : Gives (readO y) s1 b s2)
    (hw : Gives (writeO d v lat) s2 () s3) : s3.current = some k := by
  have hk := (sameTurn_readO_readO h.1 hx hy).current.trans h.1
  exact (sameTurn_writeO hk hw).current.trans hk

/-- A plain word that reads one operand and writes its result retires. -/
theorem plain_one_retires {f : Tagged → Tagged} {lat : Nat} (hx : Gives (readO x) s a s1) (hw : Gives (writeO d (f a) lat) s1 () s2) :
    plain (do let a ← readO x; writeO d (f a) lat) s = .next (retired false .next k s2) :=
  plain_retires h (hx.bind hw) (current_readO_writeO h hx hw)

/-- A plain word that reads two operands and writes its result retires. -/
theorem plain_two_retires {f : Tagged → Tagged → Tagged} {lat : Nat} (hx : Gives (readO x) s a s1) (hy : Gives (readO y) s1 b s2)
    (hw : Gives (writeO d (f a b) lat) s2 () s3) :
    plain (do let a ← readO x; let b ← readO y; writeO d (f a b) lat) s = .next (retired false .next k s3) :=
  plain_retires h (hx.bind (hy.bind hw)) (current_readO_readO_writeO h hx hy hw)

/-- A sum within the address space is written behind the pointer's upper bits. -/
theorem padd_retires {t : Nat} (hx : Gives (readO x) s a s1) (hy : Gives (readO y) s1 b s2)
    (ht : ((a.v.toNat % 2 ^ 57 : Nat) : Int) + b.v.toInt = t) (hlt : t < 2 ^ 57)
    (hw : Gives (writeO d { v := BitVec.ofNat 64 (a.v.toNat / 2 ^ 57 * 2 ^ 57 + t), tag := minTag a.tag b.tag } 1) s2 () s3) :
    exec (.padd d x y) s = .next (retired false .next k s3) := by
  have hsum : (vaOf a.v : Int) + b.v.toInt = t := ht
  refine plain_retires h (hx.bind (hy.bind ?_)) (current_readO_readO_writeO h hx hy hw)
  simp only [hsum, Int.toNat_natCast]
  exact gives_if_neg (by omega) hw

/-- A sum outside the address space is the pointer fault. -/
theorem padd_traps (hx : Gives (readO x) s a s1) (hy : Gives (readO y) s1 b s2)
    (ht : ((a.v.toNat % 2 ^ 57 : Nat) : Int) + b.v.toInt < 0 ∨ 2 ^ 57 ≤ ((a.v.toNat % 2 ^ 57 : Nat) : Int) + b.v.toInt) :
    exec (.padd d x y) s = .next (trapped s k false 9 0 []) :=
  plain_traps h (hx.exits (hy.exits (exits_if_pos ht ((exits_trap _ _ _ _).bind _))))

end

/-- Settles O4, word by word. -/
theorem pointerResults : Obligations.PointerResults := by
  refine ⟨fun d x y s s1 s2 s3 k a b t h hx hy ht hlt hw => padd_retires h hx hy ht hlt hw,
    fun d x y s s1 s2 k a b h hx hy ht => padd_traps h hx hy ht, ?pfmt, ?pget, ?pstrip⟩
  case pfmt =>
    intro d x y s s1 s2 s3 k a b h hx hy hw
    exact plain_two_retires (f := fun a b => { v := BitVec.ofNat 64 (b.v.toNat % 128 * 2 ^ 57 + vaOf a.v), tag := minTag a.tag b.tag })
      h hx hy hw
  case pget =>
    intro d x s s1 s2 k a h hx hw
    have hv : BitVec.ofNat 64 (a.v.toNat / 2 ^ 57) = a.v >>> 57 := by
      rw [← Nat.shiftRight_eq_div_pow, ← BitVec.toNat_ushiftRight, BitVec.ofNat_toNat, BitVec.setWidth_eq]
    rw [hv] at hw
    exact plain_one_retires (f := fun a => { v := a.v >>> 57, tag := a.tag }) h hx hw
  case pstrip =>
    intro d x s s1 s2 k a h hx hw
    exact plain_one_retires (f := fun a => { v := BitVec.ofNat 64 (vaOf a.v), tag := a.tag }) h hx hw

/-! ### The scratchpad store (R178) -/

theorem storeValue_eq_stored (t : Ty) (w : Word) : storeValue t w = stored t w := rfl

theorem gives_flags_at_once {s : State} {k f : Nat} (hk : s.current = some k) : Gives (flags f 1) s () (withFlags s k f) :=
  gives_if_pos (Nat.le_refl 1) (gives_modCur hk _)

/-- Settles O11: D, the address, the element type, the write and the flags, in the order of the word's meaning. -/
theorem scratchpadStoreResults : Obligations.ScratchpadStoreResults := by
  intro x s s1 s2 s3 s4 k a b i d t h hd hb hi ha hlt ht _ hw
  have hk1 := (sameTurn_readO h.1 hd).current.trans h.1
  have hk3 := (sameTurn_readO_readO hk1 hb hi).current.trans hk1
  have hk4 : s4.current = some k := (scratchWrite_current _ _ hw).trans hk3
  rw [← tyBytes_eq_elemBytes, ← storeValue_eq_stored] at hw
  exact plain_retires h (hd.bind ((gives_memAddress hb hi ha hlt).bind ((gives_elemTy ht).bind (hw.bind (gives_flags_at_once hk4))))) hk4

end Sys2Proof.Machine
end

section
/-! PROOFS (O6, O7). Targets of control transfers, branches, jumps and loop words. -/

namespace Sys2Proof.Machine

open Sys2Proof.Claims

/-- A word whose meaning traps takes the trap. -/
theorem runWord_traps {control : Bool} {m : W Ctl} {s : State} {k code cause : Nat} {items : List Word} (h : Starts control s k)
    (hm : Exits m s (.trap code cause items)) : runWord control m s = .next (trapped s k control code cause items) := runWord_exits h hm

/-! ### Targets (R144, R173) -/

section

variable {s : State} {k : Nat} {t : Int} {off : BitVec 32}

theorem gives_checkTarget {n : Nat} (hn : t = n) (h : goodTarget t) : Gives (checkTarget t) s n s := by
  obtain ⟨h0, hlt, h8⟩ := h
  subst hn
  exact gives_if_neg (by omega) (gives_pure _ _)

theorem exits_checkTarget (h : ¬ goodTarget t) : Exits (checkTarget t) s (.trap 3 0 [BitVec.ofInt 64 t]) :=
  exits_if_pos (by omega) (exits_trap _ _ _ _)

variable (hk : s.current = some k)
include hk

theorem gives_brTarget {n : Nat} (hn : target (s.task k).pc off = n) (h : goodTarget n) : Gives (brTarget off) s n s :=
  (gives_curTask hk).bind (gives_checkTarget hn (hn.symm ▸ h :))

theorem exits_brTarget (h : ¬ goodTarget (target (s.task k).pc off)) :
    Exits (brTarget off) s (.trap 3 0 [BitVec.ofInt 64 (target (s.task k).pc off)]) :=
  (gives_curTask hk).exits (exits_checkTarget h)

end

/-! ### Loop words (R174) -/

section

variable {s : State} {k cnt : Nat} {n : BitVec 12} (hk : s.current = some k)
include hk

/-- The level that a loop word at a task's pc opens. -/
def levelOf (t : Task) (n : BitVec 12) (cnt : Nat) : Loop := { start := t.pc + 8, last := t.pc + 8 * n.toNat, n := n.toNat, rem := cnt }

/-- A count of 0 goes past the body. -/
theorem gives_openLoop_skip {last : Nat} (hlast : (s.task k).pc + 8 * n.toNat = last) (ht : goodTarget ((last + 8 : Nat) : Int)) :
    Gives (openLoop 0 n) s (.jump (last + 8)) s := by
  subst hlast
  exact (gives_curTask hk).bind (gives_if_pos rfl ((gives_checkTarget rfl ht).bind (gives_pure _ _)))

variable (hc : cnt ≠ 0)
include hc

/-- Another count opens a level strictly inside the innermost one. -/
theorem gives_openLoop (hlen : (s.task k).loops.length ≠ 4)
    (hin : ∀ l, (s.task k).loops.getLast? = some l → (s.task k).pc + 8 * n.toNat < l.last) :
    Gives (openLoop cnt n) s .next (s.modTask k fun t => { t with loops := t.loops ++ [levelOf (s.task k) n cnt] }) := by
  refine (gives_curTask hk).bind (gives_if_neg hc (gives_if_neg hlen ?_))
  cases hl : (s.task k).loops.getLast? with
  | none => exact (gives_modCur hk _).bind (gives_pure _ _)
  | some l => exact gives_if_neg (Nat.not_le.2 (hin l hl)) ((gives_modCur hk _).bind (gives_pure _ _))

/-- Four levels are open already. -/
theorem exits_openLoop_depth (hlen : (s.task k).loops.length = 4) : Exits (openLoop cnt n) s (.trap 4 1 []) :=
  (gives_curTask hk).exits (exits_if_neg hc (exits_if_pos hlen (exits_trap _ _ _ _)))

/-- The body does not end strictly inside the innermost one. -/
theorem exits_openLoop_nesting {l : Loop} (hlen : (s.task k).loops.length ≠ 4) (hl : (s.task k).loops.getLast? = some l)
    (hout : l.last ≤ (s.task k).pc + 8 * n.toNat) : Exits (openLoop cnt n) s (.trap 4 2 []) := by
  refine (gives_curTask hk).exits (exits_if_neg hc (exits_if_neg hlen ?_))
  rw [hl]
  exact exits_if_pos hout ((exits_trap _ _ _ _).bind _)

end

/-- A loop word, of either form, reads its count and opens its loop; what it reads leaves the pc and the levels. -/
theorem loopWord_runs {i : Instr} {s s1 : State} {k cnt : Nat} {n : BitVec 12} (h : Starts true s k)
    (hi : (∃ x a, i = .loopReg x n ∧ Gives (readO x) s { v := a, tag := 0 } s1 ∧ cnt = a.toNat % 2 ^ 32) ∨
      (∃ c : BitVec 20, i = .loopImm c n ∧ s1 = s ∧ cnt = c.toNat)) :
    s1.current = some k ∧ (s1.task k).pc = (s.task k).pc ∧ (s1.task k).loops = (s.task k).loops ∧
      ∃ m : W Ctl, exec i s = runWord true m s ∧ (∀ c t, Gives (openLoop cnt n) s1 c t → Gives m s c t) ∧
        ∀ e, Exits (openLoop cnt n) s1 e → Exits m s e := by
  obtain ⟨x, a, rfl, hx, rfl⟩ | ⟨c, rfl, rfl, rfl⟩ := hi
  · obtain ⟨q, hq⟩ := task_readO h.1 hx
    refine ⟨(sameTurn_readO h.1 hx).current.trans h.1, by rw [hq], by rw [hq], _, rfl, fun c t hc => ?_, fun e he => ?_⟩
    · exact hx.bind ((gives_useWord a s1).bind hc)
    · exact hx.exits ((gives_useWord a s1).exits he)
  · exact ⟨h.1, rfl, rfl, _, rfl, fun _ _ hc => hc, fun _ he => he⟩

/-- Settles O7: past the body, a level opened, or the loop fault with its cause. -/
theorem loopResults : Obligations.LoopResults := by
  intro i s s1 k cnt n h hi
  obtain ⟨hk, hpc, hloops, m, hexec, hgives, hexits⟩ := loopWord_runs h hi
  rw [hexec, ← hpc, ← hloops]
  refine ⟨fun hc ht => ?skip, fun hc hlen hin => ?opens, fun hc hlen => ?depth, fun l hc hlen hl hout => ?nesting⟩
  case skip =>
    subst hc
    exact runWord_retires h (hgives _ _ (gives_openLoop_skip hk rfl ht)) hk (by simp)
  case opens => exact runWord_retires h (hgives _ _ (gives_openLoop hk hc hlen hin)) hk (by simp)
  case depth => exact runWord_traps h (hexits _ (exits_openLoop_depth hk hc hlen))
  case nesting => exact runWord_traps h (hexits _ (exits_openLoop_nesting hk hc hlen hl hout))

/-! ### Branches and jumps (R172, R173, R175) -/

/-- The levels that a target leaves are those before the innermost that it lies in. -/
theorem popLoops_eq_dropWhile (t : Nat) (l : List Loop) :
    popLoops t l = l.dropWhile (fun l => !(decide (l.start ≤ t) && decide (t ≤ l.last))) := by
  induction l with
  | nil => rfl
  | cons x rest ih =>
    rw [popLoops, List.dropWhile_cons, ih]
    by_cases hin : x.start ≤ t ∧ t ≤ x.last
    · rw [if_pos hin, if_neg (by simpa using hin)]
    · rw [if_neg hin, if_pos (by simpa [imp_iff_not_or] using hin)]

section

variable {s s1 s2 : State} {k n : Nat} {off : BitVec 32} {taken : Word → Word → Bool}

section

variable (hk : s.current = some k)
include hk

theorem gives_branchTo (hn : target (s.task k).pc off = n) (h : goodTarget n) :
    Gives (branchTo off) s (.jump n) (leavesLoops s k n) := by
  have hpop : leavesLoops s k n = s.modTask k fun x => { x with loops := (popLoops n x.loops.reverse).reverse } := by
    simp only [leavesLoops, popLoops_eq_dropWhile]
  rw [hpop]
  exact (gives_brTarget hk hn h).bind ((gives_modCur hk _).bind (gives_pure _ _))

theorem exits_branchTo (h : ¬ goodTarget (target (s.task k).pc off)) :
    Exits (branchTo off) s (.trap 3 0 [BitVec.ofInt 64 (target (s.task k).pc off)]) :=
  (exits_brTarget hk h).bind _

end

section

variable {x : BrArg} {a b : Word} (h : Starts true s k) (ha : Gives (readO x.a) s { v := a, tag := 0 } s1)
    (hb : Gives (readO x.b) s1 { v := b, tag := 0 } s2)
include h ha hb

/-- The branch's operands leave the running task and its pc. -/
theorem branch_operands : s2.current = some k ∧ (s2.task k).pc = (s.task k).pc := by
  have hk1 := (sameTurn_readO h.1 ha).current.trans h.1
  obtain ⟨q1, hq1⟩ := task_readO h.1 ha
  obtain ⟨q2, hq2⟩ := task_readO hk1 hb
  exact ⟨(sameTurn_readO hk1 hb).current.trans hk1, by rw [hq2, hq1]⟩

theorem condBranch_jumps (ht : taken a b = true) (hn : target (s.task k).pc x.off = n) (hgood : goodTarget n) :
    condBranch x taken s = .next (retired true (.jump n) k (leavesLoops s2 k n)) := by
  obtain ⟨hk2, hpc⟩ := branch_operands h ha hb
  exact runWord_retires h (ha.bind (hb.bind ((gives_useWord a _).bind ((gives_useWord b _).bind
    (gives_if_pos ht (gives_branchTo hk2 (hpc ▸ hn) hgood)))))) hk2 (by simp)

theorem condBranch_goes_on (ht : taken a b ≠ true) : condBranch x taken s = .next (retired true .next k s2) :=
  runWord_retires h (ha.bind (hb.bind ((gives_useWord a _).bind ((gives_useWord b _).bind
    (gives_if_neg ht (gives_pure _ _)))))) (branch_operands h ha hb).1 (by simp)

theorem condBranch_traps (ht : taken a b = true) (hbad : ¬ goodTarget (target (s.task k).pc x.off)) :
    condBranch x taken s = .next (trapped s k true 3 0 [BitVec.ofInt 64 (target (s.task k).pc x.off)]) := by
  obtain ⟨hk2, hpc⟩ := branch_operands h ha hb
  rw [← hpc] at hbad ⊢
  exact runWord_traps h (ha.exits (hb.exits ((gives_useWord a _).exits ((gives_useWord b _).exits
    (exits_if_pos ht (exits_branchTo hk2 hbad))))))

end

/-- A row of the conditional branches is a branch on a test that decides the row's condition. -/
def Branches (r : (BrArg → Instr) × (Word → Word → Prop)) : Prop :=
  ∃ taken : Word → Word → Bool, (∀ x s, exec (r.1 x) s = condBranch x taken s) ∧ ∀ a b, taken a b = true ↔ r.2 a b

theorem branchRows_branch : ∀ r ∈ branchRows, Branches r := by
  simp only [branchRows, List.forall_mem_cons, List.not_mem_nil, false_imp_iff, implies_true, and_true]
  exact ⟨⟨_, fun _ _ => rfl, fun _ _ => beq_iff_eq⟩, ⟨_, fun _ _ => rfl, fun _ _ => bne_iff_ne⟩,
    ⟨_, fun _ _ => rfl, fun _ _ => decide_eq_true_iff⟩, ⟨_, fun _ _ => rfl, fun _ _ => decide_eq_true_iff⟩,
    ⟨_, fun _ _ => rfl, fun _ _ => decide_eq_true_iff⟩, ⟨_, fun _ _ => rfl, fun _ _ => decide_eq_true_iff⟩⟩

/-- FN of a conditional branch's word (R144). -/
theorem fn_of_brw {fn w : Nat} {x : BrArg} (hfn : fn < 64) (h : Enc.brw fn x = some w) : bitsOf w 50 6 = fn := by
  obtain ⟨⟨-, -, hw, -⟩, -⟩ := br_fields (by decide) hfn (FieldKind.Holds.src x.a).2 (FieldKind.Holds.src x.b).2
    (x.hint.code_lt.trans (by decide)) x.off.isLt (Option.some.inj h)
  exact hw

section

variable {h : Hint} {d x : Opnd} (hs : Starts true s k)
include hs

theorem jmp_jumps (hn : target (s.task k).pc off = n) (hgood : goodTarget n) :
    exec (.jmp h off) s = .next (retired true (.jump n) k (leavesLoops s k n)) :=
  runWord_retires hs (gives_branchTo hs.1 hn hgood) hs.1 (by simp)

theorem jal_jumps (hn : target (s.task k).pc off = n) (hgood : goodTarget n)
    (hw : Gives (writeO d { v := BitVec.ofNat 64 ((s.task k).pc + 8), tag := 0 } 1) s () s1) :
    exec (.jal d h off) s = .next (retired true (.jump n) k s1) :=
  runWord_retires hs ((gives_brTarget hs.1 hn hgood).bind ((gives_curTask hs.1).bind (hw.bind (gives_pure _ _))))
    ((sameTurn_writeO hs.1 hw).current.trans hs.1) (by simp)

theorem jmp_traps (hbad : ¬ goodTarget (target (s.task k).pc off)) :
    exec (.jmp h off) s = .next (trapped s k true 3 0 [BitVec.ofInt 64 (target (s.task k).pc off)]) :=
  runWord_traps hs (exits_branchTo hs.1 hbad)

theorem jal_traps (hbad : ¬ goodTarget (target (s.task k).pc off)) :
    exec (.jal d h off) s = .next (trapped s k true 3 0 [BitVec.ofInt 64 (target (s.task k).pc off)]) :=
  runWord_traps hs ((exits_brTarget hs.1 hbad).bind _)

variable {a : Word} (hx : Gives (readO x) s { v := a, tag := 0 } s1)
include hx

theorem jr_jumps (ha : a.toNat % 8 = 0) (hw : Gives (writeO d { v := BitVec.ofNat 64 ((s.task k).pc + 8), tag := 0 } 1) s1 () s2) :
    exec (.jr d x) s = .next (retired true (.jump (a.toNat % 2 ^ 57)) k s2) := by
  have hk1 := (sameTurn_readO hs.1 hx).current.trans hs.1
  obtain ⟨q, hq⟩ := task_readO hs.1 hx
  have hpc : (s1.task k).pc = (s.task k).pc := by rw [hq]
  have hgood : goodTarget ((a.toNat % 2 ^ 57 : Nat) : Int) := by unfold goodTarget; omega
  rw [← hpc] at hw
  exact runWord_retires hs (hx.bind ((gives_useWord a _).bind ((gives_checkTarget (n := a.toNat % 2 ^ 57) rfl hgood).bind
    ((gives_curTask hk1).bind (hw.bind (gives_pure _ _)))))) ((sameTurn_writeO hk1 hw).current.trans hk1) (by simp)

theorem jr_traps (ha : a.toNat % 8 ≠ 0) :
    exec (.jr d x) s = .next (trapped s k true 3 0 [BitVec.ofNat 64 (a.toNat % 2 ^ 57)]) := by
  have hbad : ¬ goodTarget ((a.toNat % 2 ^ 57 : Nat) : Int) := by unfold goodTarget; omega
  rw [← BitVec.ofInt_natCast]
  exact runWord_traps hs (hx.exits ((gives_useWord a _).exits ((exits_checkTarget hbad).bind _)))

end

end

/-- Settles O6: the conditional branches through the test of their row, the FN of their words, and the jumps. -/
theorem branchAndJumpResults : Obligations.BranchAndJumpResults := by
  refine ⟨?branches, ?fn, fun h off s k t hs hn hgood => jmp_jumps hs hn hgood,
    fun d h off s s1 k t hs hn hgood hw => jal_jumps hs hn hgood hw,
    fun d x s s1 s2 k a hs hx => ⟨fun ha hw => jr_jumps hs hx ha hw, fun ha => jr_traps hs hx ha⟩,
    fun h d off s k hs hbad => ⟨jmp_traps hs hbad, jal_traps hs hbad⟩⟩
  case branches =>
    intro r hr x s s1 s2 k a b h ha hb
    obtain ⟨taken, hexec, htaken⟩ := branchRows_branch r hr
    simp only [hexec]
    exact ⟨fun t hc hn hgood => condBranch_jumps h ha hb ((htaken a b).2 hc) hn hgood,
      fun hc => condBranch_goes_on h ha hb (mt (htaken a b).1 hc),
      fun hc hbad => condBranch_traps h ha hb ((htaken a b).2 hc) hbad⟩
  case fn =>
    simp only [List.forall_mem_cons, List.not_mem_nil, false_imp_iff, implies_true, and_true]
    exact ⟨fun _ _ => fn_of_brw (by decide), fun _ _ => fn_of_brw (by decide), fun _ _ => fn_of_brw (by decide),
      fun _ _ => fn_of_brw (by decide), fun _ _ => fn_of_brw (by decide), fun _ _ => fn_of_brw (by decide)⟩

end Sys2Proof.Machine
end

section
/-! PROOFS (O30). The software trap and the fibre words. -/

namespace Sys2Proof.Machine

open Sys2Proof.Claims

section

variable {s s1 s2 : State} {k n : Nat} {x : Opnd} {h : Word}

/-! ### `trap` (R184) -/

theorem trap_user_traps {c : BitVec 16} (hs : Starts true s k) (hsuper : (s.task k).super = false) :
    exec (.trap c) s = .next (trapped s k true 30 0 [c.setWidth 64]) := by
  rw [← BitVec.ofNat_toNat]
  exact runWord_traps hs ((gives_curTask hs.1).exits (exits_if_neg (by simp [hsuper]) (exits_trap _ _ _ _)))

/-- What `trap` does in supervisor mode: the hive kernel halts, and machine error 1 names the core. -/
def kernelHalted (s : State) : State := (s.modHive (hiveOf s.focus) (fun h => { h with halted := true })).machineError 1 s.focus

/-- A report to the management port reaches the mailbox alone. -/
theorem hive_machineError (s : State) (kind item h : Nat) : (s.machineError kind item).hive h = s.hive h := by
  unfold State.machineError State.mail
  split <;> rfl

theorem task_machineError (s : State) (kind item j : Nat) : (s.machineError kind item).task j = s.task j := by
  unfold State.machineError State.mail
  split <;> rfl

theorem machineErrors_machineError (s : State) (kind item : Nat) :
    (s.machineError kind item).machineErrors = s.machineErrors ++ [(kind, item)] := by
  unfold State.machineError State.mail
  split <;> rfl

theorem trap_super_halts {c : BitVec 16} (hs : Starts true s k) (hsuper : (s.task k).super = true) :
    exec (.trap c) s = .next (kernelHalted s).cycle :=
  runWord_stays hs ((gives_curTask hs.1).bind (gives_if_pos hsuper ((gives_modify s _).bind (gives_pure _ _))))

/-! ### Fibres (R185) -/

theorem isFibre_iff : s.isFibre s.focus (s.task k).ctx n = true ↔ namesFibre s k n := by
  simp [State.isFibre, namesFibre, savedOf, and_assoc]

section

variable (hs : s.current = some k) (hx : Gives (readO x) s { v := h, tag := 0 } s1)
include hs hx

theorem gives_fibreOperand (hn : namesFibre s1 k h.toNat) : Gives (fibreOperand x) s h.toNat s1 :=
  have hk := (sameTurn_readO hs hx).current.trans hs
  hx.bind ((gives_useWord h _).bind ((gives_get _).bind ((gives_curTask hk).bind (gives_if_pos (isFibre_iff.2 hn) (gives_pure _ _)))))

theorem exits_fibreOperand (hn : ¬ namesFibre s1 k h.toNat) : Exits (fibreOperand x) s (.trap 7 0 [h]) :=
  have hk := (sameTurn_readO hs hx).current.trans hs
  hx.exits ((gives_useWord h _).exits ((gives_get _).exits ((gives_curTask hk).exits
    (exits_if_neg (mt isFibre_iff.1 hn) (exits_trap _ _ _ _)))))

end

/-- A word that buffers an effect on a fibre until the commit. -/
def fibreWord (e : Nat → Effect) (x : Opnd) (s : State) : Outc :=
  runWord true (do
    buffer (e (← fibreOperand x)) 0
    return .next) s

theorem fibreRows_are {r : (Opnd → Instr) × (Nat → Effect)}
    (hr : r ∈ [(Instr.sysResume, Effect.fibreResume), (.sysKill, .fibreKill)]) :
    exec (r.1 x) s = fibreWord r.2 x s := by
  simp only [List.mem_cons, List.not_mem_nil, or_false] at hr
  obtain rfl | rfl := hr
  · rfl
  · rfl

section

variable (hs : Starts true s k) (hx : Gives (readO x) s { v := h, tag := 0 } s1)
include hs hx

theorem fibreWord_buffers {e : Nat → Effect} (hn : namesFibre s1 k h.toNat) (hroom : room s1 k 0) :
    fibreWord e x s = .next (retired true .next k (buffering s1 k (e h.toNat) 0 0)) := by
  have hk := (sameTurn_readO hs.1 hx).current.trans hs.1
  exact runWord_retires hs ((gives_fibreOperand hs.1 hx hn).bind ((gives_buffer hk hroom).bind (gives_pure _ _))) hk (by simp)

theorem fibreWord_traps {e : Nat → Effect} (hn : ¬ namesFibre s1 k h.toNat) :
    fibreWord e x s = .next (trapped s k true 7 0 [h]) :=
  runWord_traps hs ((exits_fibreOperand hs.1 hx hn).bind _)

end

/-! ### `sys.state` (R185, log 131) -/

theorem resumes_iff {t : Task} : t.resumes n = true ↔ ∃ b ∈ t.commit, b.eff = .fibreResume n := by simp [Task.resumes]

/-- A fibre's resume has committed, or stands in a commit buffer of a task or a saved task. -/
def resuming (s : State) (n : Nat) : Prop :=
  (savedOf s n).pending = true ∨ (∃ p ∈ s.tasks, p.2.stat ≠ .free ∧ ∃ b ∈ p.2.commit, b.eff = .fibreResume n) ∨
    ∃ p ∈ s.saved, ∃ b ∈ p.2.task.commit, b.eff = .fibreResume n

theorem resuming_iff : ((Tab.get .empty s.saved n).pending || s.tasks.any (fun (p : Nat × Task) => p.2.stat != .free && p.2.resumes n)
      || s.saved.any (fun p => p.2.task.resumes n)) = true ↔ resuming s n := by
  simp only [Bool.or_eq_true, List.any_eq_true, Bool.and_eq_true, bne_iff_ne, resumes_iff, or_assoc, resuming, savedOf]

theorem fibreState_of_none (hn : ¬ namesFibre s k n) : s.fibreState s.focus (s.task k).ctx n = 0 :=
  if_pos (by simp [Bool.eq_false_iff.2 (mt isFibre_iff.1 hn)])

theorem fibreState_of_saved (hn : namesFibre s k n) (hr : ¬ resuming s n) : s.fibreState s.focus (s.task k).ctx n = 1 := by
  unfold State.fibreState
  rw [if_neg (by simp [isFibre_iff.2 hn]), if_neg (mt resuming_iff.1 hr)]

theorem fibreState_of_resuming (hn : namesFibre s k n) (hr : resuming s n) : s.fibreState s.focus (s.task k).ctx n = 2 := by
  unfold State.fibreState
  rw [if_neg (by simp [isFibre_iff.2 hn]), if_pos (resuming_iff.2 hr)]

theorem sysState_retires {d : Opnd} (hs : Starts true s k) (hx : Gives (readO x) s { v := h, tag := 0 } s1)
    (hw : Gives (writeO d { v := BitVec.ofNat 64 (s1.fibreState s1.focus (s1.task k).ctx h.toNat), tag := 0 } 4) s1 () s2) :
    exec (.sysState d x) s = .next (retired true .next k s2) := by
  have hk := (sameTurn_readO hs.1 hx).current.trans hs.1
  exact runWord_retires hs (hx.bind ((gives_useWord h _).bind ((gives_get _).bind ((gives_curTask hk).bind (hw.bind (gives_pure _ _))))))
    ((sameTurn_writeO hk hw).current.trans hk) (by simp)

end

/-- Settles O30: the trap in both modes, the two words that buffer, and the three answers of `sys.state`. -/
theorem trapAndFibreResults : Obligations.TrapAndFibreResults := by
  refine ⟨fun c s k hs => ⟨trap_user_traps hs, fun hsuper => ⟨_, trap_super_halts hs hsuper, ?halted, ?errors, ?task⟩⟩,
    ?fibres, ?state⟩
  case halted =>
    show ((kernelHalted s).hive _).halted = true
    rw [kernelHalted, hive_machineError, State.hive_modHive_self]
  case errors => exact machineErrors_machineError _ _ _
  case task => exact task_machineError _ _ _ _
  case fibres =>
    intro r x s s1 k h hr hs hx
    rw [fibreRows_are hr]
    exact ⟨fun hn hroom => fibreWord_buffers hs hx hn hroom, fun hn => fibreWord_traps hs hx hn⟩
  case state =>
    intro d x s s1 s2 k n h hs hx hn hw
    refine sysState_retires hs hx ?_
    obtain ⟨rfl, hn⟩ | ⟨rfl, hn, hpend, htasks, hsaved⟩ | ⟨rfl, hn, hr⟩ := hn
    · rwa [fibreState_of_none hn]
    · have hr : ¬ resuming s1 h.toNat := by
        rintro (hp | ⟨p, hp, hfree, b, hb, he⟩ | ⟨p, hp, b, hb, he⟩)
        · exact absurd (hpend.symm.trans hp) (by decide)
        · exact (htasks p hp).elim hfree fun hno => hno b hb he
        · exact hsaved p hp b hb he
      rwa [fibreState_of_saved hn hr]
    · rwa [fibreState_of_resuming hn hr]

end Sys2Proof.Machine
end

section
/-! PROOFS (O33). Invalidations of translations: what they remove at a core and at a hive, and the one of device scope. -/

namespace Sys2Proof.Machine

open Sys2Proof.Claims

/-! ### What the operations of an invalidation leave -/

/-- Main memory, tasks, cores, hives and the focus stay. -/
structure SameBodies (s t : State) : Prop where
  mem : t.mem = s.mem
  tasks : t.tasks = s.tasks
  cores : t.cores = s.cores
  hives : t.hives = s.hives
  focus : t.focus = s.focus

namespace SameBodies

variable {s t u : State}

theorem refl : SameBodies s s := ⟨rfl, rfl, rfl, rfl, rfl⟩

theorem trans (h : SameBodies s t) (h' : SameBodies t u) : SameBodies s u :=
  ⟨h'.mem.trans h.mem, h'.tasks.trans h.tasks, h'.cores.trans h.cores, h'.hives.trans h.hives, h'.focus.trans h.focus⟩

theorem foldl {α : Type} {f : State → α → State} (hf : ∀ s a, SameBodies s (f s a)) (l : List α) : SameBodies s (l.foldl f s) :=
  foldl_keeps (SameBodies s) f (fun _ _ h => h.trans (hf _ _)) l s refl

theorem push {e : Event} : SameBodies s (s.push e) := ⟨rfl, rfl, rfl, rfl, rfl⟩

theorem ite {c : Prop} [Decidable c] (ht : SameBodies s t) (hu : SameBodies s u) : SameBodies s (if c then t else u) := by
  split
  · exact ht
  · exact hu

theorem core (h : SameBodies s t) (c : Nat) : t.core c = s.core c := congrArg (Tab.get Core.idle · c) h.cores

theorem hive (h : SameBodies s t) (n : Nat) : t.hive n = s.hive n := congrArg (Tab.get Hive.idle · n) h.hives

theorem saved {l : Tab Saved} : SameBodies s { s with saved := l } := ⟨rfl, rfl, rfl, rfl, rfl⟩

theorem gpKick {c : Nat} : SameBodies s (s.gpKick c) := by
  unfold State.gpKick
  split
  · exact refl
  · exact ite push (foldl (fun _ _ => push) _)

/-- Walks that start again are events to come and saved tasks that wake. -/
theorem rewalk {hive kind va ctx : Nat} : SameBodies s (s.rewalk hive kind va ctx) := by
  unfold State.rewalk
  refine trans (trans (trans (foldl (fun s p => ite refl ?parked) s.tasks) saved) (foldl (fun _ _ => push) _))
    (foldl (fun _ _ => ite refl gpKick) _)
  case parked =>
    split
    · exact push
    · exact refl

end SameBodies

section

variable {s s1 s2 : State} {k kind va ctx : Nat}

/-- What a removal at a core leaves: main memory, the tasks, the focus and the slot that each core runs. -/
structure OnlyTables (s t : State) : Prop where
  mem : t.mem = s.mem
  tasks : t.tasks = s.tasks
  running : SameRunning s t

theorem OnlyTables.trans {t u : State} (h : OnlyTables s t) (h' : OnlyTables t u) : OnlyTables s u :=
  ⟨h'.mem.trans h.mem, h'.tasks.trans h.tasks, h.running.trans h'.running⟩

theorem SameBodies.onlyTables {t : State} (h : SameBodies s t) : OnlyTables s t :=
  ⟨h.mem, h.tasks, h.focus, fun c => congrArg Core.running (h.core c)⟩

theorem onlyTables_killCore (c : Nat) : OnlyTables s (s.killCore kind va ctx c) := ⟨rfl, rfl, setCore_sameRunning rfl⟩

theorem onlyTables_modHive {h : Nat} {f : Hive → Hive} : OnlyTables s (s.modHive h f) := ⟨rfl, rfl, modHive_sameRunning⟩

theorem onlyTables_killHive (hive : Nat) : OnlyTables s (s.killHive kind va ctx hive) := by
  have hcores : OnlyTables s ((hiveCores hive).foldl (fun s c => s.killCore kind va ctx c) s) :=
    foldl_keeps (OnlyTables s) _ (fun _ c h => h.trans (onlyTables_killCore c)) _ s ⟨rfl, rfl, .refl⟩
  unfold State.killHive
  exact hcores.trans onlyTables_modHive

/-! ### The invalidation of device scope -/

/-- The invalidation that a task starts. -/
def invalOf (s : State) (k kind va ctx cc : Nat) : Inval :=
  { id := s.nextId, kind := kind, va := va, ctx := ctx, tid := (s.task k).tid, cc := cc }

/-- A task whose counter awaits every hive. -/
def awaitsHives (cc : Nat) (t : Task) : Task := { t with cc := Tab.set 0 t.cc cc 512 }

theorem cc_awaitsHives (cc : Nat) (t : Task) : Tab.get 0 (awaitsHives cc t).cc cc = 512 :=
  Tab.get_set_self 0 t.cc cc 512

theorem invalidateDevice_eq (cc : Nat) : s.invalidateDevice k kind va ctx cc =
    { ({ s with nextId := s.nextId + 1 } : State).modTask k (awaitsHives cc) with
      invals := s.invals ++ [invalOf s k kind va ctx cc]
      pending := s.pending ++ (List.range 512).map (fun h => .invalidationMessage h s.nextId) } := by
  have htid : ((({ s with nextId := s.nextId + 1 } : State).modTask k (awaitsHives cc)).task k).tid = (s.task k).tid := by
    rw [task_modTask_self]
    rfl
  unfold State.invalidateDevice
  refine (State.foldl_push_pending _ _ _).trans ?_
  rw [invalOf, ← htid]
  rfl

end

/-! ### The words (R188) -/

/-- What a `tlbi` does once its operands are read. -/
def tlbiAct (scope : Scope) (kind va ctx cc : Nat) : W Unit := do
  let s ← get
  let t ← curTask
  let core := s.focus
  let hive := hiveOf core
  match scope with
  | .core =>
    if s.accessesCovered [core] kind va ctx (s.killSize [core] none kind va ctx) (t.ctx, t.tid) then exit (.hold false)
    set (s.killCore kind va ctx core)
  | .hive =>
    if s.accessesCovered (hiveCores hive) kind va ctx (s.killSize (hiveCores hive) (some hive) kind va ctx) (t.ctx, t.tid) then
      exit (.hold false)
    set ((s.killHive kind va ctx hive).rewalk hive kind va ctx)
  | .dev => set (s.invalidateDevice (← curKey) kind va ctx cc)

/-- The address that a `tlbi` of a kind names. -/
def tlbiAddr (kind : Nat) (a : Opnd) : W Nat := if kind = 0 then (do let w ← useWord (← readO a); pure (vaOf w)) else pure 0

/-- The context that it names. -/
def tlbiCtx (kind : Nat) (b : Opnd) : W Nat := if kind = 2 then pure 0 else (do let w ← readO b; pure (w.v.toNat % 4096))

/-- What follows a choice follows either branch. -/
theorem ite_bind_eq {α β : Type} {c : Prop} [Decidable c] (m n : W α) (f : α → W β) :
    (if c then m else n) >>= f = if c then m >>= f else n >>= f := by
  split
  · rfl
  · rfl

theorem tlbiWord_eq (mnemonic kind : Nat) (x : TlbiArg) (s : State) : tlbiWord mnemonic kind x s = plain (do
    supervisorOnly mnemonic none
    let va ← tlbiAddr kind x.a
    let ctx ← tlbiCtx kind x.b
    tlbiAct x.scope kind va ctx x.cc.val) s := by
  simp only [tlbiAddr, tlbiCtx, ite_bind_eq] <;> rfl

theorem tlbiRows_are : ∀ r ∈ tlbiRows, ∃ n, ∀ x s, exec (r.1 x) s = tlbiWord n r.2 x s := by
  simp only [tlbiRows, List.forall_mem_cons, List.not_mem_nil, false_imp_iff, implies_true, and_true]
  exact ⟨⟨_, fun _ _ => rfl⟩, ⟨_, fun _ _ => rfl⟩, ⟨_, fun _ _ => rfl⟩⟩

section

variable {s s1 s2 t : State} {k kind va ctx n : Nat} {x : TlbiArg} {a : Word} {b : Tagged}

theorem gives_supervisorOnly (hk : s.current = some k) (hsuper : (s.task k).super = true) (num : Option Nat) :
    Gives (supervisorOnly n num) s () s :=
  (gives_curTask hk).bind (gives_if_neg (by simp [hsuper]) (gives_pure _ _))

theorem exits_supervisorOnly (hk : s.current = some k) (hsuper : (s.task k).super = false) :
    Exits (supervisorOnly n none) s (.trap 6 0 [Config.mnemonicCode n]) :=
  (gives_curTask hk).exits (exits_if_pos (by simp [hsuper]) (exits_trap _ _ _ _))

theorem gives_tlbiAddr (h : if kind = 0 then Gives (readO x.a) s { v := a, tag := 0 } s1 ∧ va = a.toNat % 2 ^ 57 else s1 = s ∧ va = 0) :
    Gives (tlbiAddr kind x.a) s va s1 := by
  split at h
  · obtain ⟨ha, rfl⟩ := h
    exact gives_if_pos ‹_› (ha.bind ((gives_useWord a _).bind (gives_pure _ _)))
  · obtain ⟨rfl, rfl⟩ := h
    exact gives_if_neg ‹_› (gives_pure _ _)

theorem gives_tlbiCtx (h : if kind = 2 then s2 = s1 ∧ ctx = 0 else Gives (readO x.b) s1 b s2 ∧ ctx = b.v.toNat % 4096) :
    Gives (tlbiCtx kind x.b) s1 ctx s2 := by
  split at h
  · obtain ⟨rfl, rfl⟩ := h
    exact gives_if_pos ‹_› (gives_pure _ _)
  · obtain ⟨hb, rfl⟩ := h
    exact gives_if_neg ‹_› (hb.bind (gives_pure _ _))

/-- Its operands leave the turn. -/
theorem sameTurn_tlbi (hk : s.current = some k)
    (ha : if kind = 0 then Gives (readO x.a) s { v := a, tag := 0 } s1 ∧ va = a.toNat % 2 ^ 57 else s1 = s ∧ va = 0)
    (hb : if kind = 2 then s2 = s1 ∧ ctx = 0 else Gives (readO x.b) s1 b s2 ∧ ctx = b.v.toNat % 4096) : SameTurn s s2 k := by
  have h1 : SameTurn s s1 k := by
    split at ha
    · exact sameTurn_readO hk ha.1
    · exact ha.1 ▸ .refl
  split at hb
  · exact hb.1 ▸ h1
  · exact h1.trans (sameTurn_readO (h1.current.trans hk) hb.1)

theorem tlbiWord_traps (h : Starts false s k) (hsuper : (s.task k).super = false) :
    tlbiWord n kind x s = .next (privileged s k n none) :=
  (tlbiWord_eq n kind x s).trans (plain_traps h ((exits_supervisorOnly h.1 hsuper).bind _))

section

variable (h : Starts false s k) (hsuper : (s.task k).super = true)
  (ha : if kind = 0 then Gives (readO x.a) s { v := a, tag := 0 } s1 ∧ va = a.toNat % 2 ^ 57 else s1 = s ∧ va = 0)
  (hb : if kind = 2 then s2 = s1 ∧ ctx = 0 else Gives (readO x.b) s1 b s2 ∧ ctx = b.v.toNat % 4096)
include h hsuper ha hb

/-- A `tlbi` of a supervisor task retires on what its act leaves. -/
theorem tlbiWord_retires (hact : Gives (tlbiAct x.scope kind va ctx x.cc.val) s2 () t) (hr : t.current = s2.current) :
    tlbiWord n kind x s = .next (retired false .next k t) :=
  (tlbiWord_eq n kind x s).trans <| plain_retires h
    ((gives_supervisorOnly h.1 hsuper none).bind ((gives_tlbiAddr ha).bind ((gives_tlbiCtx hb).bind hact)))
    (hr.trans ((sameTurn_tlbi h.1 ha hb).current.trans h.1))

theorem tlbiWord_core (hscope : x.scope = .core) (hfree : s2.accessesCovered [s.focus] kind va ctx
      (s2.killSize [s.focus] none kind va ctx) ((s2.task k).ctx, (s2.task k).tid) = false) :
    tlbiWord n kind x s = .next (retired false .next k (s2.killCore kind va ctx s.focus)) := by
  have turn := sameTurn_tlbi h.1 ha hb
  refine tlbiWord_retires h hsuper ha hb ?_ (onlyTables_killCore _).running.current_eq
  rw [← turn.focus] at hfree ⊢
  rw [hscope]
  exact (gives_get s2).bind ((gives_curTask (turn.current.trans h.1)).bind
    (gives_if_neg (by simp [hfree]) (gives_set _ _)))

theorem tlbiWord_hive (hscope : x.scope = .hive) (hfree : s2.accessesCovered (hiveCores (hiveOf s.focus)) kind va ctx
      (s2.killSize (hiveCores (hiveOf s.focus)) (some (hiveOf s.focus)) kind va ctx) ((s2.task k).ctx, (s2.task k).tid) = false) :
    tlbiWord n kind x s = .next (retired false .next k
      ((s2.killHive kind va ctx (hiveOf s.focus)).rewalk (hiveOf s.focus) kind va ctx)) := by
  have turn := sameTurn_tlbi h.1 ha hb
  refine tlbiWord_retires h hsuper ha hb ?_ ((onlyTables_killHive _).trans SameBodies.rewalk.onlyTables).running.current_eq
  rw [← turn.focus] at hfree ⊢
  rw [hscope]
  exact (gives_get s2).bind ((gives_curTask (turn.current.trans h.1)).bind
    (gives_if_neg (by simp [hfree]) (gives_set _ _)))

theorem tlbiWord_dev (hscope : x.scope = .dev) :
    tlbiWord n kind x s = .next (retired false .next k (s2.invalidateDevice k kind va ctx x.cc.val)) := by
  have hk2 := (sameTurn_tlbi h.1 ha hb).current.trans h.1
  refine tlbiWord_retires h hsuper ha hb ?_ ?_
  · rw [hscope]
    exact (gives_get s2).bind ((gives_curTask hk2).bind ((gives_curKey hk2).bind (gives_set _ _)))
  · rw [invalidateDevice_eq]
    rfl

end

end

/-- Settles O33: the privilege fault, and the act of each scope with what it leaves. -/
theorem invalidationWords : Obligations.InvalidationWords := by
  intro r hr x s s1 s2 k va ctx a b h
  obtain ⟨n, hexec⟩ := tlbiRows_are r hr
  simp only [hexec]
  refine ⟨fun hsuper => ⟨n, tlbiWord_traps h hsuper⟩, fun hsuper ha hb => ⟨fun hscope hfree => ?core, fun hscope hfree => ?hive,
    fun hscope => ?dev⟩⟩
  case core =>
    exact ⟨_, tlbiWord_core h hsuper ha hb hscope hfree, noneLeft_killCore_self _, rfl, rfl,
      fun c hc => State.core_setCore_other hc _⟩
  case hive =>
    have hsame := SameBodies.rewalk (s := s2.killHive r.2 va ctx (hiveOf s.focus)) (hive := hiveOf s.focus) (kind := r.2) (va := va)
      (ctx := ctx)
    have hkill := onlyTables_killHive (s := s2) (kind := r.2) (va := va) (ctx := ctx) (hiveOf s.focus)
    refine ⟨_, tlbiWord_hive h hsuper ha hb hscope hfree, fun c hc => ?_, ?_, hsame.mem.trans hkill.mem, hsame.tasks.trans hkill.tasks⟩
    · rw [hsame.core]
      exact noneLeft_killHive hc
    · rw [hsame.hive]
      exact fun e he => he.elim (tlb_killHive e) (victims_killHive e)
  case dev =>
    refine ⟨_, tlbiWord_dev h hsuper ha hb hscope, ?_⟩
    rw [invalidateDevice_eq]
    refine ⟨?_, rfl, rfl, rfl⟩
    exact (congrArg (fun t : Task => Tab.get 0 t.cc x.cc.val) (task_modTask_self k _)).trans (cc_awaitsHives _ _)

end Sys2Proof.Machine
end

section
/-! PROOFS (O34). Breakpoints, dumps and performance counters. -/

namespace Sys2Proof.Machine

open Sys2Proof.Claims

/-! ### Writes to physical memory leave the running task where it is -/

section

variable {s : State} {pa n tag : Nat} {bs : List Byte} {w : Writer}

theorem current_foldl {α : Type} {f : State → α → State} (hf : ∀ s a, (f s a).current = s.current) (l : List α) (s : State) :
    (l.foldl f s).current = s.current :=
  foldl_keeps (fun t : State => t.current = s.current) f (fun _ _ h => (hf _ _).trans h) l s rfl

theorem current_putMem : (s.putMem pa bs tag).current = s.current := current_countPoison

theorem current_writeMem : (s.writeMem pa bs tag).current = s.current := by
  unfold State.writeMem
  split
  · exact current_putMem
  · refine current_foldl (fun u c => ?_) _ s
    split
    · exact current_putMem
    · rfl

theorem current_physWriteBy {by' : Option Nat} : (s.physWriteBy by' pa bs tag).current = s.current := by
  unfold State.physWriteBy
  split
  · split
    · exact current_spadWrite
    · exact current_spadWrite.trans stays_portSeen.current
  · rfl
  · rfl
  · split
    · exact current_writeMem
    · rfl
  · exact current_writeMem

theorem current_markNodes : (s.markNodes pa n w).current = s.current := by
  unfold State.markNodes
  split
  · rfl
  · rfl

theorem current_landed : (s.landed pa n w).current = s.current := by
  unfold State.landed
  extract_lets wake u
  have hwake : (s.tasks.foldl wake s).current = s.current := by
    refine current_foldl (fun v p => ?_) _ s
    unfold wake
    split
    · rfl
    · rfl
  have hu : u.current = s.current := current_markNodes.trans hwake
  exact (current_woken (woken_wakeSaved _)).trans hu

theorem current_physWriteT {l : List (Byte × Nat)} : (s.physWriteT pa l w).current = s.current :=
  current_foldl (fun _ _ => current_landed.trans current_physWriteBy) _ s

theorem current_piecesWrite (ps : List (Nat × Nat)) (l : List (Byte × Nat)) (s : State) : (s.piecesWrite w ps l).current = s.current := by
  induction ps generalizing l s with
  | nil => rfl
  | cons p rest ih => exact (ih _ _).trans current_physWriteT

theorem current_mail {r : List Word} : (s.mail r).current = s.current := by
  unfold State.mail
  split
  · rfl
  · rfl

theorem current_spanPieces {core ctx : Nat} {super : Bool} {k : Acc} (fuel va n : Nat) (s : State) :
    (s.spanPieces core ctx super k fuel va n).2.2.current = s.current := by
  induction fuel generalizing va n s with
  | zero => rfl
  | succ fuel ih =>
    unfold State.spanPieces
    split
    · rfl
    · have htr := (translate_sameRunning (s := s) (core := core) (ctx := ctx) (va := va % 2 ^ 57) (super := super) (k := k)).current_eq
      dsimp only
      split
      · exact (ih _ _ _).trans htr
      · exact htr

theorem current_pieces {core ctx : Nat} {super : Bool} {k : Acc} {va n : Nat} :
    (s.pieces core ctx super k va n).2.2.current = s.current := current_spanPieces _ _ _ _

/-! ### Dumps (R190) -/

/-- How a dump ends: with status 2 after a report of its fault, or with 0 or 1 and its header written. -/
theorem dump_cases {k va size : Nat} : ∃ (u : State) (ok : List (Nat × Nat)) (body : List (Byte × Nat)), u.current = s.current ∧
    ((∃ r, s.dump k va size = (2, (u.piecesWrite (.engine (k / 8)) ok body).mail r)) ∨
      ∃ st header, st < 2 ∧
        s.dump k va size = (st, (u.piecesWrite (.engine (k / 8)) ok body).piecesWrite (.engine (k / 8)) ok header)) := by
  unfold State.dump
  dsimp only
  rcases s.dumpBody k size with ⟨body, last, all⟩
  rcases hp : s.pieces (k / 8) (s.task k).ctx (s.task k).super .engWrite va body.length with ⟨l, f, u⟩
  have hu : u.current = s.current := by
    have h := current_pieces (s := s) (core := k / 8) (ctx := (s.task k).ctx) (super := (s.task k).super) (k := .engWrite) (va := va)
      (n := body.length)
    rwa [hp] at h
  dsimp only
  rcases u.dumpPieces (k / 8) (s.task k) va l with ⟨ok, stop⟩
  refine ⟨u, ok, body.map fun b => (b, 0), hu, ?_⟩
  split
  · exact .inl ⟨_, rfl⟩
  · exact .inr ⟨_, _, by split <;> decide, rfl⟩

theorem current_dump {k va size : Nat} : (s.dump k va size).2.current = s.current := by
  obtain ⟨u, ok, body, hu, ⟨r, h⟩ | ⟨st, header, -, h⟩⟩ := dump_cases (s := s) (k := k) (va := va) (size := size)
  · rw [h]
    exact current_mail.trans ((current_piecesWrite _ _ _).trans hu)
  · rw [h]
    exact (current_piecesWrite _ _ _).trans ((current_piecesWrite _ _ _).trans hu)

/-- The status of a dump that is begun is 0, 1 or 2. -/
theorem dump_status {k va size : Nat} : (s.dump k va size).1 < 3 := by
  obtain ⟨u, ok, body, hu, ⟨r, h⟩ | ⟨st, header, hst, h⟩⟩ := dump_cases (s := s) (k := k) (va := va) (size := size)
  · rw [h]
    exact Nat.lt_succ_self 2
  · rw [h]
    exact hst.trans (Nat.lt_succ_self 2)

end

section

variable {s s1 s2 s3 : State} {k : Nat} {d x y : Opnd}

section

variable {a : Word} {b : Tagged} (h : Starts false s k) (hx : Gives (readO x) s { v := a, tag := 0 } s1) (hy : Gives (readO y) s1 b s2)
include h hx hy

/-- An unaligned buffer is status 3, and nothing of it is written. -/
theorem dump_unaligned (hbad : a.toNat % 2 ^ 57 % 64 ≠ 0 ∨ b.v.toNat = 0 ∨ b.v.toNat % 64 ≠ 0)
    (hw : Gives (writeO d { v := 3, tag := b.tag } 4) s2 () s3) : exec (.dump d x y) s = .next (retired false .next k s3) := by
  have hk2 := (sameTurn_readO_readO h.1 hx hy).current.trans h.1
  exact plain_retires h (hx.bind ((gives_useWord a _).bind (hy.bind ((gives_get _).bind ((gives_curKey hk2).bind (gives_if_pos hbad hw))))))
    ((sameTurn_writeO hk2 hw).current.trans hk2)

theorem dump_retires (hgood : ¬ (vaOf a % 64 ≠ 0 ∨ b.v.toNat = 0 ∨ b.v.toNat % 64 ≠ 0))
    (hw : Gives (writeO d { v := BitVec.ofNat 64 (s2.dump k (vaOf a) b.v.toNat).1, tag := b.tag } 4) (s2.dump k (vaOf a) b.v.toNat).2
      () s3) : exec (.dump d x y) s = .next (retired false .next k s3) := by
  have hk2 := (sameTurn_readO_readO h.1 hx hy).current.trans h.1
  have hkd : (s2.dump k (vaOf a) b.v.toNat).2.current = some k := current_dump.trans hk2
  refine plain_retires h (hx.bind ((gives_useWord a _).bind (hy.bind ((gives_get _).bind ((gives_curKey hk2).bind
    (gives_if_neg hgood ?_)))))) ((sameTurn_writeO hkd hw).current.trans hkd)
  generalize s2.dump k (vaOf a) b.v.toNat = r at hw ⊢
  exact (gives_set _ _).bind hw

end

/-! ### Breakpoints (R189) -/

section

variable {a : Tagged} (h : Starts false s k) (hx : Gives (readO x) s a s1)
include h hx

/-- Without a debugger `dbgb` only reads A. -/
theorem dbgb_retires (hnone : (s1.ctx (s1.task k).ctx).debugRing = none) : exec (.dbgb x) s = .next (retired false .next k s1) := by
  have hk1 := (sameTurn_readO h.1 hx).current.trans h.1
  obtain ⟨t, ht, hcycle⟩ := gives_retire (control := false) (c := .next) hk1 (by simp)
  rw [← hcycle]
  exact runFrame_gives h.1 (h.2.bind (hx.bind ((gives_get _).bind ((gives_curKey hk1).bind (ht.bind
    (gives_if_neg (by simp [hnone]) (gives_pure _ _)))))))

/-- With a debugger attached the task is put down behind the word, and an event reports A. -/
theorem dbgb_stops (hsome : (s1.ctx (s1.task k).ctx).debugRing ≠ none) (hr : Gives (retire false .next) s1 () s2) :
    exec (.dbgb x) s = .next ((s2.beginSave k .debug).debugEvent (s1.task k).ctx (s1.task k).tid (s1.task k).pc 0 a.v).cycle := by
  have hk1 := (sameTurn_readO h.1 hx).current.trans h.1
  exact runFrame_gives h.1 (h.2.bind (hx.bind ((gives_get _).bind ((gives_curKey hk1).bind (hr.bind
    (gives_if_pos (Option.isSome_iff_ne_none.2 hsome) (gives_modify _ _)))))))

end

/-! ### Performance counters (R191, R399, R400) -/

theorem pctl_are {i : Instr} (hi : i = .pctlRead d x y ∨ i = .pctlClear d x y ∨ i = .pctlProgram d x y) :
    exec i s = pctlWord d x y s := by
  obtain rfl | rfl | rfl := hi
  · rfl
  · rfl
  · rfl

/-- The counter that a control word of each operation leaves. -/
def Pmc.controlled (p : Pmc) (op ev : Nat) : Pmc :=
  match op with
  | 0 => p
  | 1 => p.clear
  | _ => p.program ev

theorem counterWord_eq_read (p : Pmc) : counterWord p = BitVec.ofNat 64 p.read := rfl

/-- A check that passes whenever it is made. -/
theorem gives_check {β : Type} {c : Prop} [Decidable c] {m : W Unit} {f : Unit → W β} {t u : State} {v : β} (hm : c → Gives m t () t)
    (hf : Gives (f ()) t v u) : Gives (if c then m >>= f else f ()) t v u := by
  split
  · exact (hm ‹_›).bind hf
  · exact hf

theorem current_withCounter (n : Nat) (p : Pmc) : (withCounter s n p).current = s.current := by
  unfold withCounter
  exact current_modCore fun _ => rfl

section

variable {a b : Tagged} (h : Starts false s k) (hx : Gives (readO x) s a s1) (hy : Gives (readO y) s1 b s2)
include h hx hy

/-- The control words and counters that R191 does not take. -/
abbrev badControl (a b : Tagged) : Prop :=
  16 ≤ a.v.toNat ∨ b.v.toNat / 2 ^ 62 = 3 ∨ b.v.toNat / 2 ^ 16 % 2 ^ 46 ≠ 0 ∨ (b.v.toNat / 2 ^ 62 = 2 ∧ 0x10 < b.v.toNat % 2 ^ 16)

theorem pctl_traps (hbad : badControl a b) : pctlWord d x y s = .next (trapped s k false 8 0 [b.v]) :=
  plain_traps h (hx.exits (hy.exits (exits_if_pos hbad ((exits_trap _ _ _ _).bind _))))

theorem pctl_unprivileged (hgood : ¬ badControl a b) (hop : b.v.toNat / 2 ^ 62 ≠ 0) (hsuper : (s2.task k).super = false) :
    pctlWord d x y s = .next (privileged s k (0x3F * 128 + 1) none) :=
  have hk2 := (sameTurn_readO_readO h.1 hx hy).current.trans h.1
  plain_traps h (hx.exits (hy.exits (exits_if_neg hgood (exits_if_pos hop ((exits_supervisorOnly hk2 hsuper).bind _)))))

theorem pctl_retires (hgood : ¬ badControl a b) (hop : b.v.toNat / 2 ^ 62 = 0 ∨ (s2.task k).super = true)
    (hw : Gives (writeO d { v := counterWord (counterOf s2 a.v.toNat), tag := minTag a.tag b.tag } 4)
      (withCounter s2 a.v.toNat ((counterOf s2 a.v.toNat).controlled (b.v.toNat / 2 ^ 62) (b.v.toNat % 2 ^ 16))) () s3) :
    pctlWord d x y s = .next (retired false .next k s3) := by
  have hk2 := (sameTurn_readO_readO h.1 hx hy).current.trans h.1
  have hkc (p : Pmc) : (withCounter s2 a.v.toNat p).current = some k := (current_withCounter _ p).trans hk2
  refine plain_retires h (hx.bind (hy.bind (gives_if_neg hgood (gives_check ?_ ?_)))) ((sameTurn_writeO (hkc _) hw).current.trans (hkc _))
  · exact fun h0 => gives_supervisorOnly hk2 (hop.resolve_left h0) none
  · exact (gives_get s2).bind ((gives_curCore s2).bind ((gives_modify s2 _).bind hw))

end

end

/-- Settles O34: `dbgb` without and with a debugger, the two kinds of `dump`, and `pctl` by its control word. -/
theorem debugAndCounterResults : Obligations.DebugAndCounterResults := by
  refine ⟨fun x s s1 k a h hx => ⟨dbgb_retires h hx, fun s2 hsome hr _ => dbgb_stops h hx hsome hr⟩, ?dump, ?pctl⟩
  case dump =>
    intro d x y s s1 s2 s3 k a b h hx hy va n
    exact ⟨fun hbad hw => dump_unaligned h hx hy hbad hw,
      fun hva hn hn64 hw => ⟨dump_retires h hx hy (by tauto) hw, dump_status⟩⟩
  case pctl =>
    intro i d x y s s1 s2 s3 k a b hi h hx hy n op ev bad p
    rw [pctl_are hi]
    refine ⟨pctl_traps h hx hy, fun hgood hop hsuper => ⟨_, pctl_unprivileged h hx hy hgood hop hsuper⟩, fun q hgood hq hw => ?_⟩
    obtain ⟨h0, rfl⟩ | ⟨hsuper, ⟨h1, rfl⟩ | ⟨h2, rfl⟩⟩ := hq
    · refine pctl_retires h hx hy hgood (.inl h0) ?_
      rw [show b.v.toNat / 2 ^ 62 = 0 from h0]
      exact hw
    · refine pctl_retires h hx hy hgood (.inr hsuper) ?_
      rw [show b.v.toNat / 2 ^ 62 = 1 from h1]
      exact hw
    · refine pctl_retires h hx hy hgood (.inr hsuper) ?_
      rw [show b.v.toNat / 2 ^ 62 = 2 from h2]
      exact hw

end Sys2Proof.Machine
end

section
/-! PROOFS (O31). A return from a trap whose save area lies on a lost stack. -/

namespace Sys2Proof.Machine

open Sys2Proof.Claims

/-- A task trapped at pc 0 lies saved in an area of stack 0, which is lost (R40); its context is stopped. -/
def areaLost : State :=
  { State.reset with
    saved := [(0x20000, { Saved.empty with state := 2, task := { Task.idle with ctx := 1 } })]
    ctxs := [(1, { Ctx.absent with stopped := true })]
    sset := [0]
    hbm := [(0, { Stack.off with lost := some 1 })] }

/-- What the statement asks of a trapped task of a stopped context. -/
theorem areaLost_trapped : (∀ p ∈ areaLost.saved, p.2.pending = true → areaLost.canStart p.2.task.ctx = false) ∧
    (savedOf areaLost 0x20000).state = 2 ∧ (areaLost.ctx (savedOf areaLost 0x20000).task.ctx).stopped = true ∧
    areaLost.num (0x20000 + 16) 8 = (savedOf areaLost 0x20000).task.pc ∧ (savedOf areaLost 0x20000).mismatch = none ∧
    (savedOf areaLost 0x20000).task.engFault = none := by
  decide +kernel

/-- `eret.next` goes on past the trapped word, but its write of the pc in the area is dropped. -/
theorem areaLost_pc_dropped : (savedOf areaLost 0x20000).task.passWord.pc = 8 ∧ (areaLost.eret 0x20000 .next).word (0x20000 + 16) = 0 := by
  decide +kernel

/-- Refutes O31: the pc that `eret.next` writes to the save area does not stand there when the area lies on a lost stack, which keeps no
write (`areaLost`). -/
theorem not_trapReturnResults : ¬ Obligations.TrapReturnResults := by
  rintro ⟨-, hreturn⟩
  obtain ⟨hidle, hstate, hstopped, hnum, hmismatch, hfault⟩ := areaLost_trapped
  obtain ⟨-, hnext, -⟩ := hreturn areaLost 0x20000 hidle hstate hstopped hnum hmismatch
  obtain ⟨-, -, hpassed, -⟩ := hnext _ rfl
  obtain ⟨-, hword, -⟩ := hpassed hfault
  obtain ⟨hpc, hdropped⟩ := areaLost_pc_dropped
  rw [hdropped, hpc] at hword
  exact absurd hword (by decide)

end Sys2Proof.Machine
end

section
/-! PROOFS (O32). A write of SVPOOL that lets the writing task's own save go on. -/

namespace Sys2Proof.Machine

open Sys2Proof.Claims

/-- A supervisor task whose save is under way runs on slot 1 of core 0, its block open, its results all there. -/
def beingSaved : State :=
  { State.reset with
    tasks := [(1, { Task.idle with stat := .saving .debug, super := true, blk := some { addr := 0, sig := 0, words := [] }, pc := 8 })]
    cores := [(0, { Core.idle with running := some 1 })] }

/-- The same after SVPOOL is written 0: the save is tried again, finds no area, and the core runs the task no more (R392). -/
def putDown : State := beingSaved.writeSvpool 0 0

/-- The words of slot 1 that have retired in the state that a word leaves. -/
def retiredOnSlot1 : Outc → Option Nat
  | .next t => some (t.task 1).irc
  | _ => none

theorem beingSaved_starts : Starts false beingSaved 1 := by
  delta Starts Gives
  decide +kernel

theorem beingSaved_reads : Gives (readO (.g 0)) (beingSaved.landLate 1) zeroT beingSaved := by
  delta Gives
  decide +kernel

theorem beingSaved_writes : Gives (sysWrite 0x1B5 0) beingSaved () putDown := by
  delta Gives
  decide +kernel

/-- The word leaves the task that it has put down without counting it. -/
theorem beingSaved_ssr : retiredOnSlot1 (exec (.ssr 0x1B5 (.g 0)) beingSaved) = some 0 := by decide +kernel

theorem putDown_retired : ((retired false .next 1 putDown).task 1).irc = 1 := by decide +kernel

/-- Refutes O32: a `ssr` of SVPOOL may put its own task down (`beingSaved`), and what retires then is not its slot's word. -/
theorem not_systemRegisterResults : ¬ Obligations.SystemRegisterResults := by
  rintro ⟨-, -, hssr⟩
  obtain ⟨hallowed, -⟩ := hssr (.g 0) 0x1B5 beingSaved beingSaved putDown 1 zeroT beingSaved_starts
  obtain ⟨-, hfree⟩ := hallowed (by decide +kernel)
  obtain ⟨-, hwrites, -⟩ := hfree (by decide +kernel) beingSaved_reads
  have hnext : exec (.ssr 0x1B5 (.g 0)) beingSaved = .next (retired false .next 1 putDown) := hwrites (by decide +kernel) beingSaved_writes
  have hcount := beingSaved_ssr
  rw [hnext, retiredOnSlot1, putDown_retired] at hcount
  exact absurd hcount (by decide)

end Sys2Proof.Machine
end

section
/-! PROOFS (O5). The scalar float words: one rounding, the flags on their way, and the class mask. -/

namespace Sys2Proof.Machine

open Sys2Proof.Claims Sys2Proof.Machine.Num

/-! ### Signs and classes of FP32 bits (R124, R169, R171) -/

/-- The value of FP32 bits by their exponent and fraction. -/
theorem decode_f32 (x : Nat) : f32.decode x =
    if x / 2 ^ 23 % 2 ^ 8 = 255 then (if x % 2 ^ 23 = 0 then .inf (x / 2 ^ 31 % 2 == 1) else .nan)
    else if x / 2 ^ 23 % 2 ^ 8 = 0 then .fin (x / 2 ^ 31 % 2 == 1) (x % 2 ^ 23) (1 - 127 - 23)
    else .fin (x / 2 ^ 31 % 2 == 1) (2 ^ 23 + x % 2 ^ 23) ((x / 2 ^ 23 % 2 ^ 8 : Nat) - 127 - 23) := by
  simp [Fmt.decode, f32] <;> rfl

theorem isNan_iff {v : FV} : v.isNan = true ↔ v = .nan := by cases v <;> simp [FV.isNan]

theorem signOf_eq (x y : Nat) : signOf x y = if f32.decode x = .nan then 0x7FC00000 else x % 2 ^ 31 + y / 2 ^ 31 * 2 ^ 31 := by
  simp only [signOf, isNan_iff] <;> rfl

theorem classOf_eq_floatClass {x : Nat} (hx : x < 2 ^ 32) : classOf x = floatClass x := by
  have hsign : x / 2 ^ 31 % 2 = x / 2 ^ 31 := Nat.mod_eq_of_lt (by omega)
  have hfr : x % 2 ^ 23 < 2 ^ 23 := Nat.mod_lt _ (by decide)
  unfold classOf floatClass
  rw [decode_f32, hsign]
  generalize x / 2 ^ 31 = sign, x / 2 ^ 23 % 2 ^ 8 = ex, x % 2 ^ 23 = fr at hfr ⊢
  by_cases hex : ex = 255
  · by_cases hzero : fr = 0
    · by_cases hneg : sign = 1
      · simp [hex, hzero, hneg]
      · simp [hex, hzero, hneg, beq_eq_false_iff_ne.2 hneg]
    · simp [hex, hzero]
  · by_cases hsub : ex = 0
    · simp only [Nat.reducePow] at hfr
      simp [hsub, hfr]
    · simp [hex, hsub]

/-! ### The flags of a scalar word (R122, R169) -/

section

variable {s s1 s2 s3 : State} {k : Nat} {d x y : Opnd} {a b : Tagged}

/-- The flags of a word of latency 4 are on their way, or none is. -/
theorem gives_flags_late {f : Nat} (hk : s.current = some k) : Gives (flags f 4) s () (flagsComing s k f) := by
  refine gives_if_neg (by decide) ?_
  unfold flagsComing
  split
  · exact gives_pure _ _
  · exact gives_modCur hk _

theorem current_flagsComing {f : Nat} : (flagsComing s k f).current = s.current := by
  unfold flagsComing
  split
  · rfl
  · rfl

/-- The last steps of a float word: its flags, and its result four words later. -/
def floatEnds (d : Opnd) (tag : Nat) (f : Nat) (v : Word) : W Unit := do
  flags f 4
  writeO d { v := v, tag := tag } 4

theorem gives_floatEnds {f tag : Nat} {v : Word} (hk : s.current = some k)
    (hw : Gives (writeO d { v := v, tag := tag } 4) (flagsComing s k f) () s1) :
    Gives (floatEnds d tag f v) s () s1 ∧ s1.current = some k := by
  have hkf : (flagsComing s k f).current = some k := current_flagsComing.trans hk
  exact ⟨(gives_flags_late hk).bind hw, (sameTurn_writeO hkf hw).current.trans hkf⟩

/-! ### The float words (R169 to R171) -/

theorem float2_eq (d x y : Opnd) (f : FV → FV → FV × Nat) (s : State) : float2 d x y f s = plain (do
    let a ← readO x
    let b ← readO y
    let v := f (fp a.v) (fp b.v)
    let z := f32.round .rne false v.1
    floatEnds d (minTag a.tag b.tag) (v.2 ||| z.2) (BitVec.ofNat 64 z.1)) s := rfl

theorem execFfma_eq (d x y w : Opnd) (mode : RMode) (s : State) : execFfma d x y w mode s = plain (do
    let a ← readO x
    let b ← readO y
    let c ← readO w
    let v := (fp a.v).fma mode (fp b.v) (fp c.v)
    let z := f32.round mode false v.1
    floatEnds d (minTag a.tag (minTag b.tag c.tag)) (v.2 ||| z.2) (BitVec.ofNat 64 z.1)) s := rfl

theorem execFcvt_eq (d x : Opnd) (t : Ty) (toF32 sat : Bool) (mode : RMode) (s : State) : execFcvt d x t toF32 sat mode s = plain (do
    let a ← readO x
    floatEnds d a.tag (fcvtValue t toF32 sat mode a.v).2 (fcvtValue t toF32 sat mode a.v).1) s := rfl

/-- The rows that round are words of one sum or product, rounded. -/
theorem floatRows_are : ∀ r ∈ floatRows, ∀ d x y s, exec (r.1 d x y) s = float2 d x y r.2 s := by
  simp only [floatRows, List.forall_mem_cons, List.not_mem_nil, false_imp_iff, implies_true, and_true]
  exact ⟨fun _ _ _ _ => rfl, fun _ _ _ _ => rfl, fun _ _ _ _ => rfl⟩

/-- The rows that raise no flag are words that form bits. -/
theorem floatBitRows_are : ∀ r ∈ floatBitRows, ∀ d x y s, exec (r.1 d x y) s = floatBits d x y r.2 s := by
  have hsign : signOf = fun x y => if f32.decode x = .nan then 0x7FC00000 else x % 2 ^ 31 + y / 2 ^ 31 * 2 ^ 31 :=
    funext fun x => funext (signOf_eq x)
  simp only [floatBitRows, List.forall_mem_cons, List.not_mem_nil, false_imp_iff, implies_true, and_true, ← hsign]
  exact ⟨fun _ _ _ _ => rfl, fun _ _ _ _ => rfl, fun _ _ _ _ => rfl, fun _ _ _ _ => rfl, fun _ _ _ _ => rfl, fun _ _ _ _ => rfl⟩

section

variable (h : Starts false s k) (hx : Gives (readO x) s a s1)
include h hx

theorem float2_retires {f : FV → FV → FV × Nat} (hy : Gives (readO y) s1 b s2) :
    let v := f (fp a.v) (fp b.v)
    let z := f32.round .rne false v.1
    Gives (writeO d { v := BitVec.ofNat 64 z.1, tag := minTag a.tag b.tag } 4) (flagsComing s2 k (v.2 ||| z.2)) () s3 →
    float2 d x y f s = .next (retired false .next k s3) := by
  intro v z hw
  obtain ⟨hend, hk3⟩ := gives_floatEnds ((sameTurn_readO_readO h.1 hx hy).current.trans h.1) hw
  exact (float2_eq d x y f s).trans (plain_retires h (hx.bind (hy.bind hend)) hk3)

theorem ffma_retires {w : Opnd} {c : Tagged} {s4 : State} {mode : RMode} (hy : Gives (readO y) s1 b s2) (hz : Gives (readO w) s2 c s3) :
    let v := (fp a.v).fma mode (fp b.v) (fp c.v)
    let z := f32.round mode false v.1
    Gives (writeO d { v := BitVec.ofNat 64 z.1, tag := minTag a.tag (minTag b.tag c.tag) } 4) (flagsComing s3 k (v.2 ||| z.2)) () s4 →
    exec (.ffma d x y w mode) s = .next (retired false .next k s4) := by
  intro v z hw
  have hk2 := (sameTurn_readO_readO h.1 hx hy).current.trans h.1
  obtain ⟨hend, hk4⟩ := gives_floatEnds ((sameTurn_readO hk2 hz).current.trans hk2) hw
  exact (execFfma_eq d x y w mode s).trans (plain_retires h (hx.bind (hy.bind (hz.bind hend))) hk4)

theorem fcvt_retires {t : Ty} {toF32 sat : Bool} {mode : RMode}
    (hw : Gives (writeO d { v := (fcvtValue t toF32 sat mode a.v).1, tag := a.tag } 4)
      (flagsComing s1 k (fcvtValue t toF32 sat mode a.v).2) () s2) :
    exec (.fcvt d x t toF32 sat mode) s = .next (retired false .next k s2) := by
  obtain ⟨hend, hk2⟩ := gives_floatEnds ((sameTurn_readO h.1 hx).current.trans h.1) hw
  exact (execFcvt_eq d x t toF32 sat mode s).trans (plain_retires h (hx.bind hend) hk2)

end

end

/-- Settles O5: the rows that round, the rows of bits, `ffma`, `fcvt` in both directions, and the class. -/
theorem floatResults : Obligations.FloatResults := by
  refine ⟨?rounds, ?bits, fun d x y w mode s s1 s2 s3 s4 k a b c h hx hy hz => ffma_retires h hx hy hz, ?from32, ?to32, ?cls⟩
  case rounds =>
    intro r hr d x y s s1 s2 s3 k a b h hx hy
    rw [floatRows_are r hr]
    exact float2_retires h hx hy
  case bits =>
    intro r hr d x y s s1 s2 s3 k a b h hx hy hw
    rw [floatBitRows_are r hr]
    exact plain_two_retires (f := fun a b => { v := BitVec.ofNat 64 (r.2 (a.v.toNat % 2 ^ 32) (b.v.toNat % 2 ^ 32))
                                               tag := minTag a.tag b.tag }) h hx hy hw
  case from32 =>
    intro d x t sat mode s s1 s2 k a h hx z hw
    rw [← extend_eq_widen] at hw
    exact fcvt_retires h hx hw
  case to32 =>
    intro d x t sat mode s s1 s2 k a h hx z hw
    exact fcvt_retires h hx hw
  case cls =>
    intro d x s s1 s2 k a h hx hw
    rw [← classOf_eq_floatClass (Nat.mod_lt _ (by decide))] at hw
    exact plain_one_retires (f := fun a => { v := BitVec.ofNat 64 (classOf (a.v.toNat % 2 ^ 32)), tag := a.tag }) h hx hw

end Sys2Proof.Machine
end

section
/-! PROOFS (O1 to O3). What the integer operations form in w bits: the numbers of a width against bit vectors (R163 to R166). -/

namespace Sys2Proof.Machine

open Sys2Proof.Claims Sys2Proof.Machine.Num

section

variable {w : Nat} (x y : Nat)

/-! ### Numbers of a width -/

theorem ofInt_eq_bits (w : Nat) (i : Int) : Num.ofInt w i = bits w i := (BitVec.toNat_ofInt i).symm

theorem bits_natCast (w n : Nat) : bits w (n : Int) = n % 2 ^ w := by
  unfold bits
  rw [BitVec.ofInt_natCast, BitVec.toNat_ofNat]

/-- The bits of a number of a width are its own. -/
theorem bits_sgn (w : Nat) : bits w (sgn w x) = x % 2 ^ w := by
  unfold bits sgn
  rw [BitVec.ofInt_toInt, BitVec.toNat_ofNat]

theorem sgn_eq_zero_iff : sgn w x = 0 ↔ x % 2 ^ w = 0 := by
  unfold sgn
  rw [← BitVec.toInt_zero (w := w), BitVec.toInt_inj, ← BitVec.toNat_inj, BitVec.toNat_ofNat, BitVec.toNat_zero]

theorem toInt_eq_sgn_of_pos (hw : 0 < w) : Num.toInt w x = sgn w x := toInt_eq_toInt_ofNat hw x

/-! ### Arithmetic (R163, R164) -/

section

variable (hw : 0 < w)
include hw

theorem opSub_eq : opSub w x y = bits w ((x : Int) - (y : Int)) := by
  have hdiff : BitVec.ofInt w (sgn w x - sgn w y) = BitVec.ofInt w ((x : Int) - (y : Int)) := by
    have hsub (i j : Int) : BitVec.ofInt w (i - j) = BitVec.ofInt w i - BitVec.ofInt w j := by
      refine BitVec.eq_of_toInt_eq ?_
      rw [BitVec.toInt_ofInt, BitVec.toInt_sub, BitVec.toInt_ofInt, BitVec.toInt_ofInt, Int.sub_bmod_bmod, Int.bmod_sub_bmod]
    rw [hsub, hsub]
    unfold sgn
    rw [BitVec.ofInt_toInt, BitVec.ofInt_toInt, BitVec.ofInt_natCast, BitVec.ofInt_natCast]
  rw [opSub, ofInt_eq_bits, toInt_eq_sgn_of_pos x hw, toInt_eq_sgn_of_pos y hw]
  exact congrArg BitVec.toNat hdiff

theorem opMulh_eq : opMulh w x y = bits w (sgn w x * sgn w y / 2 ^ w) := by
  rw [opMulh, ofInt_eq_bits, toInt_eq_sgn_of_pos x hw, toInt_eq_sgn_of_pos y hw, Nat.cast_pow]
  rfl

theorem sdiv_eq : sdiv w x y = if sgn w y = 0 then 2 ^ w - 1 else bits w ((sgn w x).tdiv (sgn w y)) := by
  rw [sdiv, ofInt_eq_bits, toInt_eq_sgn_of_pos x hw, toInt_eq_sgn_of_pos y hw]
  exact if_congr (sgn_eq_zero_iff y).symm rfl rfl

theorem srem_eq : srem w x y = if sgn w y = 0 then x % 2 ^ w else bits w ((sgn w x).tmod (sgn w y)) := by
  rw [srem, ofInt_eq_bits, toInt_eq_sgn_of_pos x hw, toInt_eq_sgn_of_pos y hw]
  exact if_congr (sgn_eq_zero_iff y).symm rfl rfl

theorem opMin_eq : opMin w x y = bits w (Min.min (sgn w x) (sgn w y)) := by
  rw [opMin, toInt_eq_sgn_of_pos x hw, toInt_eq_sgn_of_pos y hw, min_def, apply_ite (bits w), bits_sgn, bits_sgn]
  rfl

theorem opMax_eq : opMax w x y = bits w (Max.max (sgn w x) (sgn w y)) := by
  rw [opMax, toInt_eq_sgn_of_pos x hw, toInt_eq_sgn_of_pos y hw, max_def, apply_ite (bits w), bits_sgn, bits_sgn]
  rfl

theorem opAbs_eq : opAbs w x = bits w |sgn w x| := by
  rw [opAbs, toInt_eq_sgn_of_pos x hw, Int.abs_eq_natAbs, bits_natCast]
  rfl

end

theorem urem_eq : urem w x y = x % 2 ^ w % (y % 2 ^ w) := by
  unfold urem low
  split
  · next h => rw [h, Nat.mod_zero]
  · rfl

/-! ### Logic and shifts (R163) -/

theorem opAnd_eq : opAnd w x y = (BitVec.ofNat w x &&& BitVec.ofNat w y).toNat := by
  rw [BitVec.toNat_and, BitVec.toNat_ofNat, BitVec.toNat_ofNat, ← Nat.and_mod_two_pow]
  rfl

theorem opOr_eq : opOr w x y = (BitVec.ofNat w x ||| BitVec.ofNat w y).toNat := by
  rw [BitVec.toNat_or, BitVec.toNat_ofNat, BitVec.toNat_ofNat, ← Nat.or_mod_two_pow]
  rfl

theorem opXor_eq : opXor w x y = (BitVec.ofNat w x ^^^ BitVec.ofNat w y).toNat := by
  rw [BitVec.toNat_xor, BitVec.toNat_ofNat, BitVec.toNat_ofNat, ← Nat.xor_mod_two_pow]
  rfl

theorem opAndn_eq : opAndn w x y = (BitVec.ofNat w x &&& ~~~BitVec.ofNat w y).toNat := by
  rw [BitVec.toNat_and, BitVec.toNat_not, BitVec.toNat_ofNat, BitVec.toNat_ofNat]
  rfl

theorem opOrn_eq : opOrn w x y = (BitVec.ofNat w x ||| ~~~BitVec.ofNat w y).toNat := by
  rw [BitVec.toNat_or, BitVec.toNat_not, BitVec.toNat_ofNat, BitVec.toNat_ofNat]
  rfl

theorem opShl_eq : opShl w x y = (BitVec.ofNat w x <<< (y % w)).toNat := by
  rw [BitVec.toNat_shiftLeft, BitVec.toNat_ofNat, Nat.shiftLeft_eq, Nat.mod_mul_mod]
  rfl

theorem opShr_eq : opShr w x y = (BitVec.ofNat w x >>> (y % w)).toNat := by
  rw [BitVec.toNat_ushiftRight, BitVec.toNat_ofNat, Nat.shiftRight_eq_div_pow]
  rfl

theorem opSra_eq (hw : 0 < w) : opSra w x y = ((BitVec.ofNat w x).sshiftRight (y % w)).toNat := by
  rw [opSra, sra, ofInt_eq_bits, toInt_eq_sgn_of_pos x hw, BitVec.sshiftRight_eq, Int.shiftRight_eq_div_pow]
  rfl

/-- A rotation by less than the width: the bits that leave at the top come in at the bottom. -/
theorem rol_eq {n : Nat} (hn : n < w) : rol w x n = (x % 2 ^ w) <<< n % 2 ^ w ||| (x % 2 ^ w) >>> (w - n) := by
  have hsplit : 2 ^ w = 2 ^ (w - n) * 2 ^ n := by rw [← pow_add, Nat.sub_add_cancel hn.le]
  have hhigh : (x % 2 ^ w) <<< n % 2 ^ w = (x % 2 ^ (w - n)) <<< n := by
    rw [Nat.shiftLeft_eq, Nat.shiftLeft_eq, Nat.mod_mul_mod, hsplit, Nat.mul_mod_mul_right]
  have hlow : (x % 2 ^ w) >>> (w - n) < 2 ^ n := by
    rw [Nat.shiftRight_eq_div_pow]
    exact Nat.div_lt_of_lt_mul (by rw [← hsplit]; exact Nat.mod_lt _ (Nat.two_pow_pos w))
  rw [hhigh, ← Nat.shiftLeft_add_eq_or_of_lt hlow, ← hhigh, Nat.shiftRight_eq_div_pow, Nat.shiftLeft_eq, Nat.mod_mul_mod]
  rfl

theorem opRol_eq (hw : 0 < w) : opRol w x y = ((BitVec.ofNat w x).rotateLeft (y % w)).toNat := by
  rw [BitVec.toNat_rotateLeft, Nat.mod_mod, BitVec.toNat_ofNat]
  exact rol_eq x (Nat.mod_lt _ hw)

theorem opRor_eq (hw : 0 < w) : opRor w x y = ((BitVec.ofNat w x).rotateRight (y % w)).toNat := by
  rw [BitVec.toNat_rotateRight, Nat.mod_mod, BitVec.toNat_ofNat, opRor, rol_eq x (Nat.mod_lt _ hw)]
  have hlt : y % w < w := Nat.mod_lt _ hw
  obtain h0 | hpos := Nat.eq_zero_or_pos (y % w)
  · have hout : (x % 2 ^ w) >>> w = 0 := by
      rw [Nat.shiftRight_eq_div_pow, Nat.div_eq_of_lt (Nat.mod_lt _ (Nat.two_pow_pos w))]
    rw [h0, Nat.sub_zero, Nat.mod_self, Nat.sub_zero, hout, Nat.shiftLeft_zero, Nat.mod_mod, Nat.shiftRight_zero, Nat.shiftLeft_eq,
      Nat.mul_mod_left]
  · rw [Nat.mod_eq_of_lt (by omega : w - y % w < w), Nat.sub_sub_self hlt.le, Nat.or_comm]

/-! ### Counts of bits (R163) -/

theorem clz_eq (hw : 0 < w) : clz w x = (BitVec.ofNat w x).clz.toNat := by
  have hnat : (BitVec.ofNat w x).toNat = low w x := BitVec.toNat_ofNat _ _
  unfold clz
  split
  · next h0 =>
    have hzero : BitVec.ofNat w x = 0#w := BitVec.eq_of_toNat_eq (hnat.trans h0)
    rw [BitVec.clz_eq_iff_eq_zero.2 hzero]
    exact (Nat.mod_eq_of_lt Nat.lt_two_pow_self).symm
  · next h0 =>
    have hne : BitVec.ofNat w x ≠ 0#w := fun h => h0 (hnat.symm.trans (congrArg BitVec.toNat h))
    have hlo := BitVec.two_pow_sub_clz_le_toNat_of_ne_zero hw hne
    have hhi := BitVec.toNat_lt_two_pow_sub_clz (x := BitVec.ofNat w x)
    have hlt : (BitVec.ofNat w x).clz.toNat < w := by
      have h := BitVec.clz_lt_iff_ne_zero.2 hne
      rwa [BitVec.lt_def, BitVec.natCast_eq_ofNat, BitVec.toNat_ofNat, Nat.mod_eq_of_lt Nat.lt_two_pow_self] at h
    have hlog : Nat.log2 (low w x) = w - 1 - (BitVec.ofNat w x).clz.toNat := by
      rw [hnat] at hlo hhi
      have hstep : w - 1 - (BitVec.ofNat w x).clz.toNat + 1 = w - (BitVec.ofNat w x).clz.toNat := by omega
      exact (Nat.log2_eq_iff h0).2 ⟨hlo, by rwa [hstep]⟩
    omega

/-- `n` bits end in `m` zeros where the first `m` are zero, and all are or the next is one. -/
theorem ctzAux_eq {n m x : Nat} (hm : m ≤ n) (hzero : ∀ i < m, x.testBit i = false) (hone : m = n ∨ x.testBit m = true) :
    ctzAux n x = m := by
  induction n generalizing m x with
  | zero => exact (Nat.le_zero.1 hm).symm
  | succ n ih =>
    cases m with
    | zero =>
      have hbit : x.testBit 0 = true := hone.resolve_left (Nat.succ_ne_zero n).symm
      exact if_pos (by simpa [Nat.testBit_zero] using hbit)
    | succ m =>
      have h0 : x.testBit 0 = false := hzero 0 (Nat.succ_pos m)
      have hrest : ctzAux n (x / 2) = m := by
        refine ih (Nat.le_of_succ_le_succ hm) (fun i hi => ?_) (hone.imp Nat.succ.inj fun h => ?_)
        · rw [← Nat.testBit_succ]
          exact hzero _ (Nat.succ_lt_succ hi)
        · rwa [← Nat.testBit_succ]
      rw [ctzAux, if_neg (by simpa [Nat.testBit_zero] using h0), hrest, Nat.add_comm]

theorem ctz_eq : ctz w x = (BitVec.ofNat w x).reverse.clz.toNat := by
  rw [← BitVec.ctz_eq_reverse_clz]
  have hbit (i : Nat) (hi : i < w) : (BitVec.ofNat w x).getLsbD i = x.testBit i := by
    rw [BitVec.getLsbD_ofNat, decide_eq_true hi, Bool.true_and]
  have hw : w % 2 ^ w = w := Nat.mod_eq_of_lt Nat.lt_two_pow_self
  have hle : (BitVec.ofNat w x).ctz.toNat ≤ w := by
    have h : (BitVec.ofNat w x).ctz ≤ w := BitVec.ctz_eq_reverse_clz ▸ BitVec.clz_le
    rwa [BitVec.le_def, BitVec.natCast_eq_ofNat, BitVec.toNat_ofNat, hw] at h
  refine ctzAux_eq hle (fun i hi => ?_) ?_
  · rw [← hbit i (hi.trans_le hle)]
    exact BitVec.getLsbD_false_of_lt_ctz hi
  · by_cases h0 : BitVec.ofNat w x = 0#w
    · refine .inl ?_
      rw [BitVec.ctz_eq_reverse_clz, BitVec.clz_eq_iff_eq_zero.2 (BitVec.reverse_eq_zero_iff.2 h0), BitVec.natCast_eq_ofNat,
        BitVec.toNat_ofNat, hw]
    · have hone := BitVec.getLsbD_true_ctz_of_ne_zero h0
      have hlt : (BitVec.ofNat w x).ctz.toNat < w := BitVec.lt_of_getLsbD hone
      exact .inr ((hbit _ hlt).symm.trans hone)

theorem popAux_eq (n x : Nat) : popAux n x = ((List.range n).filter (fun i => x.testBit i)).length := by
  induction n generalizing x with
  | zero => rfl
  | succ n ih =>
    have hshift : (List.filter (fun i => x.testBit i) ((List.range n).map Nat.succ)).length = popAux n (x / 2) := by
      rw [List.filter_map, List.length_map, ih]
      simp only [Function.comp_def, Nat.succ_eq_add_one, Nat.testBit_succ]
    rw [List.range_succ_eq_map, List.filter_cons, popAux, ← hshift, Nat.testBit_zero]
    obtain h | h := Nat.mod_two_eq_zero_or_one x
    · simp [h]
    · simp [h, Nat.add_comm]

/-! ### Bit fields (R165) -/

theorem bext_eq (t : Ty) : bext t x y = bextBits t x y := by
  have hlen : Nat.min (y / 256 % 128) (t.width - y % 64) = fieldLen t.width y := rfl
  unfold bext bextBits
  simp only [hlen]
  split
  · rfl
  · next h =>
    rw [toInt_eq_sgn_of_pos _ (by omega), ofInt_eq_bits]
    rfl

/-- A number with a field of it taken out and another put in. -/
theorem field_put (x f pos len : Nat) : x % 2 ^ pos + f * 2 ^ pos + x / 2 ^ (pos + len) * 2 ^ (pos + len) =
    x - x / 2 ^ pos % 2 ^ len * 2 ^ pos + f * 2 ^ pos := by
  have hx : x = x % 2 ^ pos + x / 2 ^ pos % 2 ^ len * 2 ^ pos + x / 2 ^ (pos + len) * 2 ^ (pos + len) := by
    conv_lhs => rw [← Nat.mod_add_div x (2 ^ pos), ← Nat.mod_add_div (x / 2 ^ pos) (2 ^ len), Nat.div_div_eq_div_mul, ← pow_add]
    ring
  generalize x / 2 ^ pos % 2 ^ len * 2 ^ pos = old, x % 2 ^ pos = below, x / 2 ^ (pos + len) * 2 ^ (pos + len) = above at hx ⊢
  omega

theorem bins_eq (c : Nat) : bins w x y c = binsBits w x y c := by
  have hlen : Nat.min (c / 256 % 128) (w - c % 64) = fieldLen w c := rfl
  unfold bins binsBits
  simp only [hlen]
  split
  · rfl
  · next h =>
    have hle : fieldLen w c ≤ w := (Nat.min_le_right _ _).trans (Nat.sub_le _ _)
    have hy : low w y % 2 ^ fieldLen w c = y % 2 ^ fieldLen w c := Nat.mod_mod_of_dvd _ (pow_dvd_pow 2 hle)
    rw [hy, field_put]
    rfl

end

end Sys2Proof.Machine
end

section
/-! PROOFS (O1 to O3). The frame of a word that names no memory: what its operands, its retirement and late results leave. -/

namespace Sys2Proof.Machine

open Sys2Proof.Claims

/-! ### Tasks and states that differ in registers and queues -/

/-- From task `x` to task `y` no g register changes but those in `G`, no queue but those in `Q` and those that a late result was to
enter, and nothing else of what a word of registers leaves alone. -/
structure RegsOnly (G Q : Nat → Prop) (x y : Task) : Prop where
  g : ∀ n, ¬ G n → y.reg n = x.reg n
  q : ∀ n, ¬ Q n → x.lateIn n = 0 → y.queue n = x.queue n ∧ y.lateIn n = 0
  v : y.v = x.v
  m : y.m = x.m
  a : y.a = x.a
  cc : y.cc = x.cc
  commit : y.commit = x.commit
  undo : y.undo = x.undo
  loads : y.loads = x.loads
  super : y.super = x.super
  tid : y.tid = x.tid

/-- The bytes, tags, slots and gates of a space stay. -/
structure SameStore (a b : Space) : Prop where
  bytes : b.bytes = a.bytes
  written : b.written = a.written
  tags : b.tags = a.tags
  stags : b.stags = a.stags
  gates : b.gates = a.gates

/-- A step that changes registers in `G` and queues in `Q` of slot `k`, links, and what no register word's frame names. -/
structure OnlyRegs (G Q : Nat → Prop) (k : Nat) (s t : State) : Prop where
  mem : t.mem = s.mem
  lineTags : t.lineTags = s.lineTags
  ctxs : t.ctxs = s.ctxs
  hives : t.hives = s.hives
  saved : t.saved = s.saved
  spaces : ∀ ctx c, SameStore (s.space ctx c) (t.space ctx c)
  others : ∀ j, j ≠ k → t.task j = s.task j
  task : RegsOnly G Q (s.task k) (t.task k)

variable {G Q : Nat → Prop} {k : Nat} {s t u : State}

theorem SameStore.refl {a : Space} : SameStore a a := ⟨rfl, rfl, rfl, rfl, rfl⟩

theorem SameStore.trans {a b c : Space} (h : SameStore a b) (h' : SameStore b c) : SameStore a c :=
  ⟨h'.bytes.trans h.bytes, h'.written.trans h.written, h'.tags.trans h.tags, h'.stags.trans h.stags, h'.gates.trans h.gates⟩

namespace RegsOnly

variable {a b c : Task}

theorem refl : RegsOnly G Q a a := ⟨fun _ _ => rfl, fun _ _ h => ⟨rfl, h⟩, rfl, rfl, rfl, rfl, rfl, rfl, rfl, rfl, rfl⟩

theorem trans (h : RegsOnly G Q a b) (h' : RegsOnly G Q b c) : RegsOnly G Q a c where
  g n hn := (h'.g n hn).trans (h.g n hn)
  q n hn hl := by
    obtain ⟨hq, hl⟩ := h.q n hn hl
    obtain ⟨hq', hl'⟩ := h'.q n hn hl
    exact ⟨hq'.trans hq, hl'⟩
  v := h'.v.trans h.v
  m := h'.m.trans h.m
  a := h'.a.trans h.a
  cc := h'.cc.trans h.cc
  commit := h'.commit.trans h.commit
  undo := h'.undo.trans h.undo
  loads := h'.loads.trans h.loads
  super := h'.super.trans h.super
  tid := h'.tid.trans h.tid

/-- A task with its registers, queues and late results as they were. -/
theorem of_same {b : Task} (hg : b.g = a.g) (hq : b.q = a.q) (hl : b.late = a.late) (hv : b.v = a.v) (hm : b.m = a.m) (ha : b.a = a.a)
    (hcc : b.cc = a.cc) (hc : b.commit = a.commit) (hu : b.undo = a.undo) (hloads : b.loads = a.loads) (hs : b.super = a.super)
    (ht : b.tid = a.tid) : RegsOnly G Q a b :=
  ⟨fun n _ => congrArg (Tab.get zeroT · n) hg,
    fun n _ h => ⟨congrArg (Tab.get [] · n) hq, by rw [Task.lateIn, hl]; exact h⟩, hv, hm, ha, hcc, hc, hu, hloads, hs, ht⟩

/-- A queue in `Q` replaced. -/
theorem setQueue {i : Nat} {l : List QWord} (hi : Q i) : RegsOnly G Q a (a.setQueue i l) := by
  refine ⟨fun _ _ => rfl, fun n hn h => ⟨Tab.get_set_other (fun e => hn ?_) _, h⟩, rfl, rfl, rfl, rfl, rfl, rfl, rfl, rfl, rfl⟩
  exact e ▸ hi

/-- A register in `G` written, and its latency noted. -/
theorem setReg {n : Nat} {w : Tagged} (hn : G n) : RegsOnly G Q a (a.setReg n w) := by
  unfold Task.setReg
  split
  · exact refl
  · refine ⟨fun m hm => Tab.get_set_other (fun e => hm ?_) _, fun _ _ h => ⟨rfl, h⟩, rfl, rfl, rfl, rfl, rfl, rfl, rfl, rfl, rfl⟩
    exact e ▸ hn

end RegsOnly

/-- No late result is to enter a queue. -/
theorem lateIn_eq_zero_iff {a : Task} {n : Nat} : a.lateIn n = 0 ↔ ∀ x ∈ a.late, ∀ w, x.dest ≠ .queue n w := by
  unfold Task.lateIn
  rw [List.length_eq_zero_iff, List.filter_eq_nil_iff]
  refine forall₂_congr fun x _ => ?_
  cases x.dest <;> simp

namespace RegsOnly

variable {a : Task}

/-- Late results of which none is to enter a queue outside `Q` but one that an earlier one was to enter. -/
theorem setLate {l : List Late} (hl : ∀ x ∈ l, ∀ n w, x.dest = .queue n w → Q n ∨ x.dest ∈ a.late.map (·.dest)) :
    RegsOnly G Q a { a with late := l } := by
  refine ⟨fun _ _ => rfl, fun n hn h => ⟨rfl, lateIn_eq_zero_iff.2 fun x hx w hd => ?_⟩, rfl, rfl, rfl, rfl, rfl, rfl, rfl, rfl, rfl⟩
  obtain hq | hold := hl x hx n w hd
  · exact hn hq
  · obtain ⟨y, hy, hyd⟩ := List.mem_map.1 hold
    exact lateIn_eq_zero_iff.1 h y hy w (hyd.trans hd)

/-- A result on its way, to a queue in `Q` or elsewhere. -/
theorem later {x : Late} (hx : ∀ i w, x.dest = .queue i w → Q i) : RegsOnly G Q a { a with late := a.late ++ [x] } := by
  refine setLate fun y hy n w hd => ?_
  obtain hy | hy := List.mem_append.1 hy
  · exact .inr (List.mem_map_of_mem hy)
  · obtain rfl := List.mem_singleton.1 hy
    exact .inl (hx n w hd)

end RegsOnly

theorem task_setTask_self (s : State) (k : Nat) (a : Task) : (s.setTask k a).task k = a := Tab.get_set_self _ _ _ _

theorem task_setTask_other {j : Nat} (hj : j ≠ k) (s : State) (a : Task) : (s.setTask k a).task j = s.task j := Tab.get_set_other hj _

/-- A space updated in what is none of its bytes, tags, slots and gates keeps them, and so does every other space. -/
theorem sameStore_modSpace {ctx core : Nat} {f : Space → Space} (hf : ∀ sp, SameStore sp (f sp)) (x c : Nat) :
    SameStore (s.space x c) ((s.modSpace ctx core f).space x c) := by
  by_cases hk : State.key x c = State.key ctx core
  · have hnew : (s.modSpace ctx core f).space x c = f (s.space x c) := by
      unfold State.space
      rw [hk]
      exact Tab.get_set_self _ _ _ _
    rw [hnew]
    exact hf _
  · have hold : (s.modSpace ctx core f).space x c = s.space x c := Tab.get_set_other hk _
    rw [hold]
    exact .refl

namespace OnlyRegs

theorem refl : OnlyRegs G Q k s s := ⟨rfl, rfl, rfl, rfl, rfl, fun _ _ => .refl, fun _ _ => rfl, .refl⟩

theorem trans (h : OnlyRegs G Q k s t) (h' : OnlyRegs G Q k t u) : OnlyRegs G Q k s u :=
  ⟨h'.mem.trans h.mem, h'.lineTags.trans h.lineTags, h'.ctxs.trans h.ctxs, h'.hives.trans h.hives, h'.saved.trans h.saved,
    fun x c => (h.spaces x c).trans (h'.spaces x c), fun j hj => (h'.others j hj).trans (h.others j hj), h.task.trans h'.task⟩

theorem setTask {a : Task} (ha : RegsOnly G Q (s.task k) a) : OnlyRegs G Q k s (s.setTask k a) :=
  ⟨rfl, rfl, rfl, rfl, rfl, fun _ _ => .refl, fun _ hj => task_setTask_other hj s a, (task_setTask_self s k a).symm ▸ ha⟩

theorem modSpace {ctx core : Nat} {f : Space → Space} (hf : ∀ sp, SameStore sp (f sp)) : OnlyRegs G Q k s (s.modSpace ctx core f) :=
  ⟨rfl, rfl, rfl, rfl, rfl, sameStore_modSpace hf, fun _ _ => rfl, .refl⟩

/-! ### Operands -/

section

variable {x : Opnd} {w : Tagged} (hk : s.current = some k)
include hk

/-- Reading an operand changes no queue but its own. -/
theorem readO (hQ : ∀ n, 8 ≤ n → Q n) (hx : ∀ n : Fin 8, x = .q n → Q n) (h : Gives (readO x) s w t) : OnlyRegs G Q k s t := by
  have hpop : ∀ i, Q i → Gives (popQueue i) s w t → OnlyRegs G Q k s t := by
    intro i hi hp
    obtain ⟨rest, -, rfl⟩ := (gives_popQueue hk).1 hp
    exact .setTask (.setQueue hi)
  cases x with
  | g n =>
    obtain ⟨rfl, -⟩ := (gives_readG hk).1 h
    exact .refl
  | q n => exact hpop _ (hx n rfl) h
  | fifo f => exact hpop _ (hQ _ (by cases f <;> decide)) h
  | special n =>
    obtain ⟨v, s1, h1, h2⟩ := gives_bind_iff.1 h
    cases h1
    cases h2
    exact .refl
  | link d =>
    obtain ⟨n, s1, h1, h2⟩ := gives_bind_iff.1 h
    obtain rfl := gives_checkPort h1
    obtain ⟨_, _, h3, h4⟩ := gives_bind_iff.1 h2
    obtain ⟨rfl, rfl⟩ := gives_get_iff.1 h3
    obtain ⟨_, _, h5, h6⟩ := gives_bind_iff.1 h4
    obtain ⟨rfl, rfl⟩ := (gives_curTask_iff hk).1 h5
    split at h6
    · exact absurd h6 (by simp)
    · obtain ⟨_, _, h7, h8⟩ := gives_bind_iff.1 h6
      cases h7
      cases h8
      exact .modSpace fun _ => ⟨rfl, rfl, rfl, rfl, rfl⟩

/-- Writing an operand changes no register and no queue but its own. -/
theorem writeO {lat : Nat} (hg : ∀ n, x = .g n → G n.val) (hq : ∀ n : Fin 8, x = .q n → Q n) (h : Gives (writeO x w lat) s () t) :
    OnlyRegs G Q k s t := by
  cases x with
  | g n =>
    obtain ⟨-, rfl⟩ | ⟨-, -, rfl⟩ := (gives_writeG hk).1 h
    · exact .refl
    · refine .setTask ?_
      have hset : RegsOnly G Q (s.task k) ((s.task k).setReg n.val w) := .setReg (hg n rfl)
      split
      · exact hset
      · exact hset.trans ⟨fun _ _ => rfl, fun _ _ h => ⟨rfl, h⟩, rfl, rfl, rfl, rfl, rfl, rfl, rfl, rfl, rfl⟩
  | q n =>
    obtain ⟨-, rfl⟩ := (gives_pushQueue hk).1 h
    split
    · exact .setTask (.setQueue (hq n rfl))
    · refine .setTask (.later fun i w hd => ?_)
      cases hd
      exact hq n rfl
  | fifo f => exact absurd h (by simp [Machine.writeO])
  | special n => exact absurd h (by simp [Machine.writeO])
  | link p =>
    obtain ⟨n, s1, h1, h2⟩ := gives_bind_iff.1 h
    obtain rfl := gives_checkPort h1
    obtain ⟨_, _, h3, h4⟩ := gives_bind_iff.1 h2
    obtain ⟨rfl, rfl⟩ := gives_get_iff.1 h3
    obtain ⟨_, _, h5, h6⟩ := gives_bind_iff.1 h4
    obtain ⟨rfl, rfl⟩ := (gives_curTask_iff hk).1 h5
    dsimp only at h6
    split at h6
    · exact absurd h6 (by simp [gives_bind_iff])
    · split at h6
      · obtain rfl := gives_set_iff.1 h6
        exact .modSpace fun _ => ⟨rfl, rfl, rfl, rfl, rfl⟩
      · obtain rfl := (gives_modCur_iff hk).1 h6
        exact .setTask (.later nofun)

end

/-! ### Retirement (R155, R160, R399) -/

/-- A late result that arrives changes no queue but its own. -/
theorem arriveLate {l : LateTo} (hl : ∀ i w, l = .queue i w → Q i) : OnlyRegs G Q k s (s.arriveLate k l) := by
  cases l with
  | queue i w => exact .setTask (.setQueue (hl i w rfl))
  | link n port w =>
    exact .modSpace (f := fun sp => { sp with links := Tab.set [] sp.links port (Tab.get [] sp.links port ++ [w]) })
      fun _ => ⟨rfl, rfl, rfl, rfl, rfl⟩
  | flags f => exact .setTask (.of_same rfl rfl rfl rfl rfl rfl rfl rfl rfl rfl rfl rfl)

theorem foldl {α : Type} {f : State → α → State} {l : List α} (hf : ∀ s, ∀ a ∈ l, OnlyRegs G Q k s (f s a)) (s : State) :
    OnlyRegs G Q k s (l.foldl f s) := by
  induction l generalizing s with
  | nil => exact .refl
  | cons a l ih =>
    exact (hf s a List.mem_cons_self).trans (ih (fun s b hb => hf s b (List.mem_cons_of_mem a hb)) (f s a))

/-- Queues that a late result was to enter need not be named. -/
theorem of_late (h : OnlyRegs G (fun n => (s.task k).lateIn n ≠ 0) k s t) : OnlyRegs G Q k s t :=
  { h with task := { h.task with q := fun n _ hl => h.task.q n (not_not_intro hl) hl } }

/-- Latencies that step change no queue but those that a late result was to enter. -/
theorem stepLate : OnlyRegs G Q k s (s.stepLate k) := by
  refine of_late ?_
  unfold State.stepLate
  dsimp only
  split
  · exact .refl
  · refine OnlyRegs.trans (t := s.modTask k _) (.setTask (.setLate fun x hx n w hd => ?_))
      (foldl (fun u x hx => arriveLate fun i w hd => ?_) _)
    · obtain ⟨y, hy, rfl⟩ := List.mem_map.1 hx
      exact .inr (List.mem_map.2 ⟨y, List.mem_of_mem_filter hy, rfl⟩)
    · exact fun hz => lateIn_eq_zero_iff.1 hz x (List.mem_of_mem_filter hx) w hd

/-- What a core counts is in its counters, its context's, and events to come. -/
theorem of_counters {cores : Tab Core} {coreCtxs : Tab CoreCtx} {pending : List Event} :
    OnlyRegs G Q k s { s with cores := cores, coreCtxs := coreCtxs, pending := pending } :=
  ⟨rfl, rfl, rfl, rfl, rfl, fun _ _ => .refl, fun _ _ => rfl, .refl⟩

theorem ite {c : Prop} [Decidable c] (ht : OnlyRegs G Q k s t) (hu : OnlyRegs G Q k s u) : OnlyRegs G Q k s (if c then t else u) := by
  split
  · exact ht
  · exact hu

theorem pmcEvent {core event n : Nat} : OnlyRegs G Q k s (s.pmcEvent core event n) := by
  unfold State.pmcEvent
  split
  · exact .refl
  · exact .of_counters

theorem countWord {core : Nat} {x : Task} : OnlyRegs G Q k s (s.countWord core x) := by
  have hquantum : OnlyRegs G Q k s (s.countQuantum core x) := by
    unfold State.countQuantum
    split
    · exact .refl
    · exact foldl (fun _ _ _ => .ite .of_counters .of_counters) s
  unfold State.countWord
  dsimp only
  split
  · exact hquantum.trans .pmcEvent
  · exact (hquantum.trans .pmcEvent).trans .pmcEvent

theorem noteWord {a : Task} {closes : Bool} {w : Nat} : RegsOnly G Q a (a.noteWord closes w) := by
  unfold Task.noteWord Task.leaveBlk
  split
  · split
    · exact .of_same rfl rfl rfl rfl rfl rfl rfl rfl rfl rfl rfl rfl
    · exact .refl
  · exact .of_same rfl rfl rfl rfl rfl rfl rfl rfl rfl rfl rfl rfl

theorem loopEnd {a : Task} : RegsOnly G Q a a.loopEnd := by
  unfold Task.loopEnd
  split
  · exact .refl
  · dsimp only
    split
    · exact .of_same rfl rfl rfl rfl rfl rfl rfl rfl rfl rfl rfl rfl
    · exact .of_same rfl rfl rfl rfl rfl rfl rfl rfl rfl rfl rfl rfl

/-- A task whose word `ir` has retired, before its pc moves. -/
def wordCounted (control : Bool) (ir : Nat) (a : Task) : Task :=
  ({ a with irc := a.irc + 1, bpPass := false, sched := stepSched a.sched } : Task).noteWord (control || a.atLast) ir

/-- A task behind its word. -/
def wordPassed (control : Bool) (ir : Nat) (a : Task) : Task :=
  if a.atLast then (wordCounted control ir a).loopEnd else { wordCounted control ir a with pc := a.pc + 8 }

theorem retired_eq {control : Bool} : Machine.retired control .next k s =
    (((s.setTask k (wordPassed control s.ir (s.task k))).stepLate k).countWord (k / 8) (s.task k)).cycle := rfl

theorem wordPassed_regsOnly {control : Bool} {ir : Nat} {a : Task} : RegsOnly G Q a (wordPassed control ir a) := by
  have hirc : RegsOnly G Q a { a with irc := a.irc + 1, bpPass := false, sched := stepSched a.sched } :=
    .of_same rfl rfl rfl rfl rfl rfl rfl rfl rfl rfl rfl rfl
  have hcounted : RegsOnly G Q a (wordCounted control ir a) := hirc.trans noteWord
  unfold wordPassed
  split
  · exact hcounted.trans loopEnd
  · exact hcounted.trans (.of_same rfl rfl rfl rfl rfl rfl rfl rfl rfl rfl rfl rfl)

/-- The retirement of a word that goes on. -/
theorem retired {control : Bool} : OnlyRegs G Q k s (retired control .next k s) := by
  rw [retired_eq]
  have hpassed : OnlyRegs G Q k s (s.setTask k (wordPassed control s.ir (s.task k))) := .setTask wordPassed_regsOnly
  exact ((hpassed.trans stepLate).trans countWord).trans ⟨rfl, rfl, rfl, rfl, rfl, fun _ _ => .refl, fun _ _ => rfl, .refl⟩

end OnlyRegs

/-! ### The frame of a word of registers -/

/-- The registers that a destination names. -/
def destRegs (d : Opnd) (n : Nat) : Prop := ∃ i : GReg, d = .g i ∧ i.val = n

/-- The queues that a destination and sources name, and the result FIFOs. -/
def namedQueues (d : Opnd) (srcs : List Opnd) (n : Nat) : Prop := 8 ≤ n ∨ ∃ i : Fin 8, (d = .q i ∨ .q i ∈ srcs) ∧ i.val = n

theorem OnlyRegs.registerOnly {d : Opnd} {srcs : List Opnd} (h : OnlyRegs (destRegs d) (namedQueues d srcs) k s t) :
    RegisterOnly s t k (some d) srcs where
  mem := h.mem
  lineTags := h.lineTags
  ctxs := h.ctxs
  hives := h.hives
  saved := h.saved
  spaces ctx c :=
    have sp := h.spaces ctx c
    ⟨sp.bytes, sp.written, sp.tags, sp.stags, sp.gates⟩
  others := h.others
  g n hn := h.task.g n fun ⟨i, hd, hi⟩ => hn i (congrArg some hd) hi
  q n hd hsrc hl := by
    refine (h.task.q n.val ?_ hl).1
    rintro (h8 | ⟨i, hi, hval⟩)
    · exact absurd n.isLt (Nat.not_lt.2 h8)
    · obtain rfl := Fin.ext hval
      exact hi.elim (fun e => hd (congrArg some e)) hsrc
  v := h.task.v
  m := h.task.m
  a := h.task.a
  cc := h.task.cc
  commit := h.task.commit
  undo := h.task.undo
  loads := h.task.loads
  super := h.task.super
  tid := h.task.tid

section

variable {d x : Opnd} {srcs : List Opnd} {w : Tagged} (hk : s.current = some k)
include hk

/-- A source's read is within the frame of its word. -/
theorem readO_framed (hx : x ∈ srcs) (h : Gives (readO x) s w t) : OnlyRegs (destRegs d) (namedQueues d srcs) k s t :=
  .readO hk (fun _ => .inl) (fun n hn => .inr ⟨n, .inr (hn ▸ hx), rfl⟩) h

/-- The write of a result is within the frame of its word. -/
theorem writeO_framed {lat : Nat} (h : Gives (writeO d w lat) s () t) : OnlyRegs (destRegs d) (namedQueues d srcs) k s t :=
  .writeO hk (fun n hn => ⟨n, hn, rfl⟩) (fun n hn => .inr ⟨n, .inl hn, rfl⟩) h

end

end Sys2Proof.Machine
end

section
/-! PROOFS (O1 to O3). The integer words: each row forms what its statement says, retires, and leaves everything else. -/

namespace Sys2Proof.Machine

open Sys2Proof.Claims Sys2Proof.Machine.Num

theorem Ty.width_pos (t : Ty) : 0 < t.width := by cases t <;> decide

/-- 1 and 0 are written as they are in every integer type. -/
theorem widen_flag {t : Ty} (ht : intType t = true) (c : Bool) : widen t (if c then 1 else 0) = if c then 1 else 0 := by
  revert ht c
  cases t <;> decide

/-! ### Words of two sources (R163, R164) -/

/-- The meaning of an integer word of two sources that forms `g` in the width of its type. -/
def formsTwo (x : R3) (lat : Nat) (g : Nat → Nat → Nat → Nat) : W Unit := do
  let a ← readO x.a
  let b ← readO x.b
  writeO x.d { v := widen x.t (g x.t.width a.v.toNat b.v.toNat), tag := minTag a.tag b.tag } lat

/-- A row of the integer words of two sources is a word that forms the row's bits. -/
def FormsRow (r : (R3 → Instr) × Nat × (Nat → Nat → Nat → Nat)) : Prop :=
  ∀ x : R3, intType x.t = true → ∀ s, exec (r.1 x) s = plain (formsTwo x r.2.1 r.2.2) s

section

variable {i : R3 → Instr} {lat : Nat} {g : Nat → Nat → Nat → Nat}

/-- An operation that forms the row's bits at every width. -/
theorem formsRow_int2 {f : Nat → Nat → Nat → Nat} (hi : ∀ x s, exec (i x) s = int2 x lat f s)
    (hf : ∀ w, 0 < w → ∀ a b, f w a b = g w a b) : FormsRow (i, lat, g) := by
  intro x _ s
  rw [hi]
  unfold int2 formsTwo
  simp only [extend_eq_widen, hf _ (Ty.width_pos x.t)]

/-- A comparison that decides the row's condition at every width. -/
theorem formsRow_intCmp {f : Nat → Nat → Nat → Bool} (hi : ∀ x s, exec (i x) s = intCmp x f s)
    (hf : ∀ w, 0 < w → ∀ a b, (if f w a b then 1 else 0) = g w a b) : FormsRow (i, 1, g) := by
  intro x hx s
  rw [hi]
  unfold intCmp formsTwo
  simp only [← hf _ (Ty.width_pos x.t), widen_flag hx]

end

section

variable {w : Nat} (hw : 0 < w) (x y : Nat)
include hw

theorem cmpLt_eq : (if cmpLt w x y then 1 else 0) = if sgn w x < sgn w y then 1 else 0 := by
  simp [cmpLt, toInt_eq_sgn_of_pos x hw, toInt_eq_sgn_of_pos y hw]

theorem cmpLe_eq : (if cmpLe w x y then 1 else 0) = if sgn w x ≤ sgn w y then 1 else 0 := by
  simp [cmpLe, toInt_eq_sgn_of_pos x hw, toInt_eq_sgn_of_pos y hw]

end

theorem cmpLtn_eq (w x y : Nat) : (if cmpLtn w x y then 1 else 0) = if x % 2 ^ w < y % 2 ^ w then 1 else 0 :=
  if_congr decide_eq_true_iff rfl rfl

theorem cmpLen_eq (w x y : Nat) : (if cmpLen w x y then 1 else 0) = if x % 2 ^ w ≤ y % 2 ^ w then 1 else 0 :=
  if_congr decide_eq_true_iff rfl rfl

theorem cmpEq_eq (w x y : Nat) : (if cmpEq w x y then 1 else 0) = if x % 2 ^ w = y % 2 ^ w then 1 else 0 :=
  if_congr beq_iff_eq rfl rfl

theorem cmpNe_eq (w x y : Nat) : (if cmpNe w x y then 1 else 0) = if x % 2 ^ w = y % 2 ^ w then 0 else 1 :=
  (if_congr bne_iff_ne rfl rfl).trans (ite_not _ _ _)

theorem intRows_form : ∀ r ∈ intRows, FormsRow r := by
  simp only [intRows, List.forall_mem_cons, List.not_mem_nil, false_imp_iff, implies_true, and_true]
  exact ⟨formsRow_int2 (fun _ _ => rfl) fun _ _ _ _ => rfl,
    formsRow_int2 (fun _ _ => rfl) fun _ hw a b => opSub_eq a b hw,
    formsRow_int2 (fun _ _ => rfl) fun _ _ _ _ => rfl,
    formsRow_int2 (fun _ _ => rfl) fun _ hw a b => opMulh_eq a b hw,
    formsRow_int2 (fun _ _ => rfl) fun _ _ _ _ => rfl,
    formsRow_int2 (fun _ _ => rfl) fun _ hw a b => sdiv_eq a b hw,
    formsRow_int2 (fun _ _ => rfl) fun _ hw a b => srem_eq a b hw,
    formsRow_int2 (fun _ _ => rfl) fun _ _ _ _ => rfl,
    formsRow_int2 (fun _ _ => rfl) fun _ _ => urem_eq,
    formsRow_int2 (fun _ _ => rfl) fun _ _ => opAnd_eq,
    formsRow_int2 (fun _ _ => rfl) fun _ _ => opOr_eq,
    formsRow_int2 (fun _ _ => rfl) fun _ _ => opXor_eq,
    formsRow_int2 (fun _ _ => rfl) fun _ _ => opAndn_eq,
    formsRow_int2 (fun _ _ => rfl) fun _ _ => opOrn_eq,
    formsRow_int2 (fun _ _ => rfl) fun _ _ => opShl_eq,
    formsRow_int2 (fun _ _ => rfl) fun _ _ => opShr_eq,
    formsRow_int2 (fun _ _ => rfl) fun _ hw a b => opSra_eq a b hw,
    formsRow_int2 (fun _ _ => rfl) fun _ hw a b => opRol_eq a b hw,
    formsRow_int2 (fun _ _ => rfl) fun _ hw a b => opRor_eq a b hw,
    formsRow_int2 (fun _ _ => rfl) fun _ hw a b => opMin_eq a b hw,
    formsRow_int2 (fun _ _ => rfl) fun _ hw a b => opMax_eq a b hw,
    formsRow_int2 (fun _ _ => rfl) fun _ _ _ _ => rfl,
    formsRow_int2 (fun _ _ => rfl) fun _ _ _ _ => rfl,
    formsRow_intCmp (fun _ _ => rfl) fun w _ => cmpEq_eq w,
    formsRow_intCmp (fun _ _ => rfl) fun w _ => cmpNe_eq w,
    formsRow_intCmp (fun _ _ => rfl) fun _ => cmpLt_eq,
    formsRow_intCmp (fun _ _ => rfl) fun _ => cmpLe_eq,
    formsRow_intCmp (fun _ _ => rfl) fun w _ => cmpLtn_eq w,
    formsRow_intCmp (fun _ _ => rfl) fun w _ => cmpLen_eq w⟩

/-- Settles O1: the rows form their bits, and reading, writing and retiring stay within the frame. -/
theorem integerResults : Obligations.IntegerResults := by
  intro r hr x s s1 s2 s3 k a b hx h ha hb hw
  have hk1 := (sameTurn_readO h.1 ha).current.trans h.1
  have hk2 := (sameTurn_readO hk1 hb).current.trans hk1
  refine ⟨(intRows_form r hr x hx s).trans ?retires, OnlyRegs.registerOnly ?frame⟩
  case retires =>
    exact plain_two_retires (f := fun a b => { v := widen x.t (r.2.2 x.t.width a.v.toNat b.v.toNat), tag := minTag a.tag b.tag })
      h ha hb hw
  case frame =>
    exact (((readO_framed h.1 (by simp) ha).trans (readO_framed hk1 (by simp) hb)).trans (writeO_framed hk2 hw)).trans .retired

/-! ### Words of one source, and immediates (R163, R166) -/

/-- The meaning of a word of one source that forms `g` in the width of its type. -/
def formsOne (d a : Opnd) (t : Ty) (g : Nat → Nat → Nat) : W Unit := do
  let a ← readO a
  writeO d { v := widen t (g t.width a.v.toNat), tag := a.tag } 1

theorem formsOne_retires {d x : Opnd} {t : Ty} {g : Nat → Nat → Nat} {s s1 s2 : State} {k : Nat} {a : Tagged} (h : Starts false s k)
    (ha : Gives (readO x) s a s1) (hw : Gives (writeO d { v := widen t (g t.width a.v.toNat), tag := a.tag } 1) s1 () s2) :
    plain (formsOne d x t g) s = .next (retired false .next k s2) ∧ RegisterOnly s (retired false .next k s2) k (some d) [x] := by
  have hk1 := (sameTurn_readO h.1 ha).current.trans h.1
  refine ⟨plain_one_retires (f := fun a => { v := widen t (g t.width a.v.toNat), tag := a.tag }) h ha hw, OnlyRegs.registerOnly ?_⟩
  exact ((readO_framed h.1 (by simp) ha).trans (writeO_framed hk1 hw)).trans .retired

/-- A row of the integer words of one source is a word that forms the row's bits. -/
def FormsUnary (r : (R2 → Instr) × (Nat → Nat → Nat)) : Prop :=
  ∀ (x : R2) (s : State), exec (r.1 x) s = plain (formsOne x.d x.a x.t r.2) s

theorem formsUnary_int1 {i : R2 → Instr} {f g : Nat → Nat → Nat} (hi : ∀ x s, exec (i x) s = int1 x f s)
    (hf : ∀ w, 0 < w → ∀ a, f w a = g w a) : FormsUnary (i, g) := by
  intro x s
  rw [hi]
  unfold int1 formsOne
  simp only [extend_eq_widen, hf _ (Ty.width_pos x.t)]

theorem unaryRows_form : ∀ r ∈ unaryRows, FormsUnary r := by
  simp only [unaryRows, List.forall_mem_cons, List.not_mem_nil, false_imp_iff, implies_true, and_true]
  exact ⟨formsUnary_int1 (fun _ _ => rfl) fun _ hw a => opAbs_eq a hw,
    formsUnary_int1 (fun _ _ => rfl) fun _ hw a => clz_eq a hw,
    formsUnary_int1 (fun _ _ => rfl) fun _ _ => ctz_eq,
    formsUnary_int1 (fun _ _ => rfl) fun w _ => popAux_eq w,
    formsUnary_int1 (fun _ _ => rfl) fun _ _ _ => rfl,
    formsUnary_int1 (fun _ _ => rfl) fun _ _ _ => rfl⟩

/-- A row of the RI words is a word that forms the row's bits of A and the sign-extended immediate. -/
def FormsImm (r : (RI → Instr) × (Nat → Nat → Nat → Nat)) : Prop :=
  ∀ (x : RI) (s : State), exec (r.1 x) s = plain (formsOne x.d x.a x.t fun w a => r.2 w a (x.imm.signExtend 64).toNat) s

theorem imm_extended (imm : BitVec 32) : Num.ofInt 64 imm.toInt = (imm.signExtend 64).toNat := by
  rw [ofInt_eq_bits, bits, BitVec.signExtend]

theorem formsImm_intImm {i : RI → Instr} {f g : Nat → Nat → Nat → Nat} (hi : ∀ x s, exec (i x) s = intImm x f s)
    (hf : ∀ w, 0 < w → ∀ a b, f w a b = g w a b) : FormsImm (i, g) := by
  intro x s
  rw [hi]
  unfold intImm formsOne
  simp only [extend_eq_widen, imm_extended, hf _ (Ty.width_pos x.t)]

theorem immRows_form : ∀ r ∈ immRows, FormsImm r := by
  simp only [immRows, List.forall_mem_cons, List.not_mem_nil, false_imp_iff, implies_true, and_true]
  exact ⟨formsImm_intImm (fun _ _ => rfl) fun _ _ _ _ => rfl,
    formsImm_intImm (fun _ _ => rfl) fun _ _ => opAnd_eq,
    formsImm_intImm (fun _ _ => rfl) fun _ _ => opOr_eq,
    formsImm_intImm (fun _ _ => rfl) fun _ _ => opXor_eq,
    formsImm_intImm (fun _ _ => rfl) fun _ _ => opShl_eq,
    formsImm_intImm (fun _ _ => rfl) fun _ _ => opShr_eq,
    formsImm_intImm (fun _ _ => rfl) fun _ hw a b => opSra_eq a b hw,
    formsImm_intImm (f := fun w a b => if cmpLt w a b then 1 else 0) (fun _ _ => rfl) fun _ => cmpLt_eq,
    formsImm_intImm (f := fun w a b => if cmpLtn w a b then 1 else 0) (fun _ _ => rfl) fun w _ => cmpLtn_eq w⟩

/-- The upper word from IMM32, the lower from A (R167). -/
theorem lih_value (imm : BitVec 32) (a : Word) : BitVec.ofNat 64 (imm.toNat * 2 ^ 32 + a.toNat % 2 ^ 32) = imm ++ a.truncate 32 := by
  have hlow : a.toNat % 2 ^ 32 < 2 ^ 32 := Nat.mod_lt _ (by decide)
  refine BitVec.eq_of_toNat_eq ?_
  rw [BitVec.toNat_append, BitVec.toNat_setWidth, ← Nat.shiftLeft_add_eq_or_of_lt hlow, Nat.shiftLeft_eq, BitVec.toNat_ofNat]
  exact Nat.mod_eq_of_lt (by omega)

/-- Settles O3: the RI rows, `li` and `lih`. -/
theorem immediateResults : Obligations.ImmediateResults := by
  refine ⟨?rows, ?li, ?lih⟩
  case rows =>
    intro r hr x s s1 s2 k a _ h ha hw
    obtain ⟨hnext, hframe⟩ := formsOne_retires (g := fun w a => r.2 w a (x.imm.signExtend 64).toNat) h ha hw
    exact ⟨(immRows_form r hr x s).trans hnext, hframe⟩
  case li =>
    intro d imm s s1 k h hw
    exact plain_retires h hw ((sameTurn_writeO h.1 hw).current.trans h.1)
  case lih =>
    intro d x imm s s1 s2 k a h hx hw
    rw [lih_value] at hw
    exact plain_one_retires (f := fun a => { v := imm ++ a.v.truncate 32, tag := a.tag }) h hx hw

/-! ### Fields, and a choice of two (R165, R163) -/

section

variable {s s1 s2 s3 s4 : State} {k : Nat} {d x y z : Opnd} {a b c : Tagged} (h : Starts false s k) (hx : Gives (readO x) s a s1)
  (hy : Gives (readO y) s1 b s2)
include h hx hy

/-- A plain word that reads three operands and writes its result retires. -/
theorem plain_three_retires {f : Tagged → Tagged → Tagged → Tagged} (hz : Gives (readO z) s2 c s3)
    (hw : Gives (writeO d (f a b c) 1) s3 () s4) :
    plain (do let a ← readO x; let b ← readO y; let c ← readO z; writeO d (f a b c) 1) s = .next (retired false .next k s4) := by
  have hk2 := (sameTurn_readO_readO h.1 hx hy).current.trans h.1
  have hk3 := (sameTurn_readO hk2 hz).current.trans hk2
  exact plain_retires h (hx.bind (hy.bind (hz.bind hw))) ((sameTurn_writeO hk3 hw).current.trans hk3)

end

/-- Settles O2: the rows of one source, `bext`, `bins` and `sel`. -/
theorem unaryAndFieldResults : Obligations.UnaryAndFieldResults := by
  refine ⟨?rows, ?bext, ?bins, ?sel⟩
  case rows =>
    intro r hr x s s1 s2 k a _ h ha hw
    obtain ⟨hnext, hframe⟩ := formsOne_retires h ha hw
    exact ⟨(unaryRows_form r hr x s).trans hnext, hframe⟩
  case bext =>
    intro x s s1 s2 s3 k a b _ h ha hb hw
    rw [← bext_eq, ← extend_eq_widen] at hw
    exact plain_two_retires (f := fun a b => { v := extend x.t (bext x.t a.v.toNat b.v.toNat), tag := minTag a.tag b.tag }) h ha hb hw
  case bins =>
    intro x s s1 s2 s3 s4 k a b c _ h ha hb hc hw
    rw [← bins_eq, ← extend_eq_widen] at hw
    exact plain_three_retires (f := fun a b c => { v := extend x.t (bins x.t.width a.v.toNat b.v.toNat c.v.toNat)
                                                   tag := minTag a.tag (minTag b.tag c.tag) }) h ha hb hc hw
  case sel =>
    intro d x y z s s1 s2 s3 s4 k a b c h ha hb hc hw
    rw [← ite_not] at hw
    exact plain_three_retires (f := fun a b c => { v := if c.v ≠ 0 then a.v else b.v, tag := minTag a.tag (minTag b.tag c.tag) })
      h ha hb hc hw

end Sys2Proof.Machine
end

section
/-! PROOFS (O12). A scratchpad write within the core's own scratchpad: the guards that it passes, the one run of bytes that it writes, and
what each byte of the scratchpad reads after it (R181, R89, R91). -/

namespace Sys2Proof.Machine

open Sys2Proof.Claims

/-! ### Bytes beside a write -/

section

variable {sp : Space} {m n off j tag : Nat} {bs : List Byte} {l : List Nat}

/-- Claiming one slot leaves the others. -/
theorem sameSlot_claim_other (hne : m ≠ n) : SameSlot m sp (sp.claim n) := by
  unfold Space.claim
  split
  · have hs := Tab.get_set_other (d := STag.idle) (t := (sp.clearSlot n).stags) hne { state := 3, gate := 0, phase := false, tag := 0 }
    exact ⟨hs, fun off ho => get_filter _ _ (fun j => j / 1024 != n) (by simp [ho, hne]),
      fun l hl => get_filter _ _ (fun j => j / 16 != n) (by simp [hl, hne])⟩
  · exact .refl

theorem sameSlot_claims_other (h : m ∉ l) : SameSlot m sp (l.foldl Space.claim sp) := by
  induction l generalizing sp with
  | nil => exact .refl
  | cons n l ih =>
    obtain ⟨hne, hl⟩ := not_or.1 (mt List.mem_cons.2 h)
    exact (sameSlot_claim_other hne).trans (ih hl)

/-- A claimed idle slot holds no bytes. -/
theorem bytes_claim_idle (h : (sp.stag (off / 1024)).state = 0) :
    Tab.get Memory.unlisted (sp.claim (off / 1024)).bytes off = Memory.unlisted := by
  unfold Space.claim
  rw [if_pos h]
  exact (get_filter_keys _ _ (fun j => j / 1024 != off / 1024) off).trans (if_neg (by simp))

theorem bytes_claims_idle (hl : off / 1024 ∈ l) (h : (sp.stag (off / 1024)).state = 0) :
    Tab.get Memory.unlisted (l.foldl Space.claim sp).bytes off = Memory.unlisted := by
  induction l generalizing sp with
  | nil => cases hl
  | cons n l ih =>
    by_cases hn : off / 1024 = n
    · subst hn
      exact ((sameSlot_claims (stag_claim_self _) l).bytes off rfl).trans (bytes_claim_idle h)
    · have hs := sameSlot_claim_other (sp := sp) hn
      exact ih ((List.mem_cons.1 hl).resolve_left hn) (by rw [hs.stag, h])

/-- What a byte outside a write reads after it: its own where its line was written before or by the write, else 0. -/
theorem byte_write_outside (hj : j < off ∨ off + bs.length ≤ j) :
    let sp' := (slotsOf off bs.length).foldl Space.claim sp
    (sp.write off bs tag).byte j =
      if (if off / 64 ≤ j / 64 ∧ j / 64 < off / 64 + linesOf off bs.length then true else Tab.get false sp'.written (j / 64)) then
        Tab.get Memory.unlisted sp'.bytes j
      else 0 := by
  intro sp'
  show (if Tab.get false (markWritten sp'.written (off / 64) (linesOf off bs.length)) (j / 64) then
    Tab.get Memory.unlisted (writeList sp'.bytes off bs) j else 0) = _
  rw [get_markWritten, get_writeList_other hj]

/-- A byte outside a write whose line holds no bytes once the slots are claimed reads 0. -/
theorem byte_write_empty (hj : j < off ∨ off + bs.length ≤ j)
    (h : Tab.get Memory.unlisted ((slotsOf off bs.length).foldl Space.claim sp).bytes j = Memory.unlisted) :
    (sp.write off bs tag).byte j = 0 := by
  rw [byte_write_outside hj, h]
  exact ite_self _

/-- The slot of a line of a write is one of the write's slots. -/
theorem slot_of_line (h : off / 64 ≤ j / 64 ∧ j / 64 < off / 64 + linesOf off n) : j / 1024 ∈ slotsOf off n := by
  unfold linesOf at h
  split at h
  · omega
  · next hn =>
    rw [slotsOf, if_neg hn]
    exact List.mem_map.2 ⟨j / 1024 - off / 1024, List.mem_range.2 (by omega), by omega⟩

/-- A byte of a slot that a write does not touch stays. -/
theorem byte_write_other_slot (hj : j < off ∨ off + bs.length ≤ j) (hs : j / 1024 ∉ slotsOf off bs.length) :
    (sp.write off bs tag).byte j = sp.byte j := by
  have hsame := sameSlot_claims_other (sp := sp) hs
  rw [byte_write_outside hj, if_neg (mt slot_of_line hs), hsame.written (j / 64) (by omega), hsame.bytes j rfl]
  rfl

end

/-! ### The one run of an access within the own scratchpad -/

section

variable {s : State} {ctx core a i tag : Nat} {bs : List Byte}

theorem runsOf_own (h : a + i + bs.length ≤ 0x40000) : runsOf core a i bs = if bs = [] then [] else [(core, a + i, bs)] := by
  induction bs generalizing i with
  | nil => rfl
  | cons b bs ih =>
    rw [List.length_cons] at h
    rw [runsOf, spadByte_own (by omega), ih (by omega)]
    cases bs with
    | nil => rfl
    | cons b' bs => simp [Nat.add_assoc]

theorem spadSpaceWrite_own (h : a + bs.length ≤ 0x40000) (unit : Nat) :
    s.spadSpaceWrite ctx core unit a bs tag = if bs = [] then s else s.spadWrite ctx core a bs tag := by
  unfold State.spadSpaceWrite
  rw [firstBad_own (by omega), runsOf_own (by omega)]
  dsimp only
  split
  · rfl
  · simp

theorem reachesOther_own {n : Nat} (h : a + n ≤ 0x40000) : reachesOther core a n = false := by
  refine List.any_eq_false.2 fun i hi => ?_
  have hlt := List.mem_range.1 hi
  rw [spadByte_own (by omega)]
  simp

end

/-! ### The undo log and the guards -/

section

variable {s : State} {k a tag : Nat} {bs : List Byte}

/-- Logging lines changes tasks alone. -/
theorem foldl_logLine_eq (l : List Nat) : ∃ tasks, l.foldl (fun s line => s.logLine k line) s = { s with tasks := tasks } := by
  refine foldl_keeps (fun t : State => ∃ tasks, t = { s with tasks := tasks }) _ ?_ l s ⟨s.tasks, rfl⟩
  rintro _ line ⟨tasks, rfl⟩
  unfold State.logLine
  dsimp only
  split
  · exact ⟨_, rfl⟩
  · split <;> exact ⟨_, rfl⟩

/-- A write that nothing holds back, below the end of the own scratchpad and with room in the undo log, logs its lines and writes its
bytes. -/
theorem gives_scratchWrite (hk : s.current = some k) (ha : a + bs.length ≤ 0x40000)
    (hheld : s.heldBack (s.task k).ctx s.focus a bs.length = false) (hlock : s.lockOn s.focus (linesAt s.focus a bs.length) = none)
    (hlog : (s.task k).logFull (ownLines s.focus a bs.length) = false) :
    Gives (scratchWrite a bs tag) s () (((ownLines s.focus a bs.length).foldl (fun s l => s.logLine k l) s).spadSpaceWrite
      (s.task k).ctx s.focus 0 a bs tag) := by
  have hreach := reachesOther_own (core := s.focus) ha
  refine (gives_get s).bind ((gives_curTask hk).bind (gives_if_neg (by simp [hheld]) ?_))
  dsimp only
  rw [hlock]
  refine (gives_pure _ _).bind (gives_if_neg (by simp [hreach]) (gives_if_neg (by simp [hlog]) ?_))
  exact (gives_curKey hk).bind ((gives_modify _ _).bind (gives_if_neg (by simp [hreach]) (gives_pure _ _)))

end

/-! ### What a write leaves -/

/-- `t` is `s` after bytes of the own scratchpad have been written, where there are any, with tag `tag`. -/
structure OwnWrite (s t : State) (ctx core a : Nat) (bs : List Byte) (tag : Nat) : Prop where
  space : t.space ctx core = if bs = [] then s.space ctx core else (s.space ctx core).write a bs tag
  counted : countedOnly s t tag
  lineTags : t.lineTags = s.lineTags

section

variable {s t : State} {ctx core a tag n : Nat} {bs : List Byte}

theorem countedOnly_of_mem (h : t.mem = (s.countPoison tag n).mem) : countedOnly s t tag := by
  refine ⟨fun hz => h.trans ?_, fun pa hp => ?_⟩
  · unfold State.countPoison
    rw [if_pos (by simpa using hz)]
  · have hb : t.byte pa = (s.countPoison tag n).byte pa := congrArg (fun m => Tab.get Memory.unlisted m pa) h
    exact hb.trans (byte_countPoison hp)

/-- A write after changes to the tasks alone. -/
theorem ownWrite_of_tasks (h : a + bs.length ≤ 0x40000) (tasks : Tab Task) :
    OwnWrite s (({ s with tasks := tasks } : State).spadSpaceWrite ctx core 0 a bs tag) ctx core a bs tag := by
  rw [spadSpaceWrite_own h]
  split
  · next hb => exact ⟨by rw [if_pos hb]; rfl, ⟨fun _ => rfl, fun _ _ => rfl⟩, rfl⟩
  · next hb =>
    obtain ⟨cores, pending, saved, heq⟩ := spadWrite_eq (s := { s with tasks := tasks }) (ctx := ctx) (core := core) (off := a)
      (bs := bs) (tag := tag)
    rw [heq]
    refine ⟨?_, countedOnly_of_mem (n := linesOf a bs.length) ?_, rfl⟩
    · rw [if_neg hb]
      exact Tab.get_set_self _ _ _ _
    · exact mem_countPoison_congr rfl rfl

namespace OwnWrite

variable {off : Nat} (h : OwnWrite s t ctx core a bs tag)
include h

theorem byte_self {i : Nat} (hi : i < bs.length) : (t.space ctx core).byte (a + i) = bs[i] := by
  rw [h.space, if_neg (List.ne_nil_of_length_pos (by omega))]
  exact byte_write_self hi

/-- What a byte of a real write reads, and of an empty one. -/
theorem byte_of {v : Byte} (hw : ((s.space ctx core).write a bs tag).byte off = v) (he : bs = [] → (s.space ctx core).byte off = v) :
    (t.space ctx core).byte off = v := by
  rw [h.space]
  split
  · next hb => exact he hb
  · exact hw

end OwnWrite

end

/-- Settles O12: the write passes its guards and is one run of bytes; each other byte is judged by its slot before the write: not touched,
idle, or in use. -/
theorem ownScratchpadWrite : Obligations.OwnScratchpadWrite := by
  intro s k a tag bs hk ha hheld hlock hlog
  obtain ⟨tasks, htasks⟩ := foldl_logLine_eq (s := s) (k := k) (ownLines s.focus a bs.length)
  have hgives := gives_scratchWrite (tag := tag) hk ha hheld hlock hlog
  rw [htasks] at hgives
  have h := ownWrite_of_tasks (s := s) (ctx := (s.task k).ctx) (core := s.focus) (tag := tag) ha tasks
  refine ⟨_, hgives, h.counted, h.lineTags, fun i hi => h.byte_self hi, ?untouched, ?idle, ?written, ?unwritten⟩
  case untouched =>
    intro off hout hslot
    exact h.byte_of (byte_write_other_slot hout hslot) fun _ => rfl
  case idle =>
    intro off hout hslot hidle
    refine h.byte_of (byte_write_empty hout (bytes_claims_idle hslot hidle)) fun hb => ?_
    rw [hb] at hslot
    exact absurd hslot (List.not_mem_nil)
  case written =>
    intro off hout hused hwritten
    exact h.byte_of (byte_write_other ⟨hwritten, hused⟩ hout) fun _ => rfl
  case unwritten =>
    intro off hout hused hunwritten hbytes
    refine h.byte_of (byte_write_empty hout ?_) fun _ => ?_
    · exact ((sameSlot_claims hused _).bytes off rfl).trans hbytes
    · rw [Space.byte, hunwritten]
      rfl

end Sys2Proof.Machine
end
